-- ==== Sys2Proof/Word.lean ====
section
/-! DEFINITION. The words of the machine: 32-bit registers, 64-bit pairs, bytes and 32-thread masks. -/
namespace Sys2Proof

abbrev Word := BitVec 32
abbrev Word64 := BitVec 64
abbrev Byte := BitVec 8
/-- One bit per thread of a warp. -/
abbrev Mask := BitVec 32

end Sys2Proof
end

