-- ==== Sys2Proof/Syntax.lean ====
section
/-! DEFINITION. The syntax of Tureno 1.0: one constructor of `Instr` for every row of the opcode table. The rows that are
32-bit words carry their operand fields, decoded; the rows that are steps of the device or of the outside carry what names the
step. Meanings stand in Machine/. -/
namespace Sys2Proof

/-- A register field, v0 to v127 of the window (R27, R49). -/
abbrev Reg := BitVec 7
/-- A capability field, c0 to c31 (R29, R49). -/
abbrev CapReg := BitVec 5
/-- A destination predicate field (R99). -/
abbrev PredReg := BitVec 3

/-- Rounding mode, md of a floating-point word (Table 2.6). -/
inductive RMode where
  | rn | rz | ru | rd
  deriving DecidableEq, Repr

/-- md of ADD and SUB (R102): wrapping, signed or unsigned saturation. -/
inductive SatMode where
  | wrap | satI | satN
  deriving DecidableEq, Repr

/-- How ISET and FSET write their predicate (R108). -/
inductive PredMode where
  | set | and | or
  deriving DecidableEq, Repr

/-- Operation of PSET (Table 4.2). -/
inductive PsetOp where
  | and | or | xor
  deriving DecidableEq, Repr

/-- Segment width of SHFL (Table 4.8). -/
inductive ShflWidth where
  | w32 | w16 | w8
  deriving DecidableEq, Repr

/-- Mode of FENCE (Table 6.1). -/
inductive FenceKind where
  | full | acq | rel
  deriving DecidableEq, Repr

/-- Compare codes of ISET (Table 4.3). -/
inductive ICmp where
  | eq | ne | lt | le | gt | ge
  deriving DecidableEq, Repr

/-- Compare codes of FSET (Table 4.3). -/
inductive FCmp where
  | eq | ne | lt | le | gt | ge | un | ord
  deriving DecidableEq, Repr

/-- Scopes (Table 2.7). -/
inductive Scope where
  | thread | warp | unit | cluster | die | dev | part | sys
  deriving DecidableEq, Repr

/-- Paths (Table 2.8). -/
inductive PathId where
  | ls | xe | mx | rg | mr | tr
  deriving DecidableEq, Repr

/-- Operation of REDW, SCANW and MRED (R130, 06). -/
inductive FoldOp where
  | add | min | max
  deriving DecidableEq, Repr

/-- Operation of REDW.b (R130). -/
inductive BitOp where
  | and | or | xor
  deriving DecidableEq, Repr

/-- Element type of MRED (06). -/
inductive MredTy where
  | f32 | i32 | n32
  deriving DecidableEq, Repr

/-- Selectors of CGET (Table 5.5). -/
inductive CgetSel where
  | base | top | len | cur | perm | space | off
  deriving DecidableEq, Repr

/-- Mode of SETFMT (R147). -/
inductive FmtMode where
  | set | or | clr
  deriving DecidableEq, Repr

/-- A source predicate field: predicate and negation bit (R99). -/
structure PredSrc where
  p : BitVec 3
  neg : Bool
  deriving DecidableEq, Repr

/-- The b operand of a word that allows a literal (R50). -/
inductive Opd where
  | reg (r : Reg)
  | lit (w : Word)
  deriving DecidableEq, Repr

/-- Whether the operand is a literal. -/
def Opd.isLit : Opd → Bool
  | .reg _ => false
  | .lit _ => true

/-- The offset of an RM word (R51). -/
inductive MemOff where
  | reg (r : Reg)
  | short (i : BitVec 7)
  | lit (w : Word)
  deriving DecidableEq, Repr

/-- The short offset 0x40 is the mark of the literal form (R51). -/
def MemOff.wf : MemOff → Bool
  | .short i => decide (i ≠ 64#7)
  | _ => true

/-- The memory operand of an RM word: capability and offset (R51). -/
structure MemRef where
  c : CapReg
  off : MemOff
  deriving DecidableEq, Repr

/-- A fragment of a resident unit, named by the model's unit number, its warp index and its FIDX (R263). -/
structure FragRef where
  unit : Nat
  warp : Nat
  fidx : Nat
  deriving DecidableEq, Repr

/-- Where one unit of a gang is placed: package core index and one warp slot per warp (R332). -/
structure Placement where
  core : Nat
  slots : List Nat
  deriving DecidableEq, Repr

/-- The read-modify-write operations of ATOM and RED (R177, R178); width and operands stand beside them. -/
inductive RmwOp where
  | addN | addF | minI | minN | maxI | maxN | andB | orB | xorB | exch | cas
  deriving DecidableEq, Repr

/-- What one thread's memory access does. -/
inductive AccKind where
  | load | store | loadCap | storeCap | atom (op : RmwOp) | red (op : RmwOp)
  deriving DecidableEq, Repr

/-- One access carried by a Bridle packet (R365): the thread, what it does, its size, the virtual address at the target, its data
and the compare value of a cas. -/
structure PeerAccess where
  thread : Nat
  kind : AccKind
  size : Nat
  va : Nat
  data : BitVec 128
  cmp : Word64
  deriving DecidableEq, Repr

/-- A packet of peer-space accesses (R365, R366): sending device and die, sequence number, context at the target. -/
structure PeerPacket where
  dev : Nat
  die : Nat
  seqNo : Nat
  ctx : Nat
  accs : List PeerAccess
  deriving DecidableEq, Repr

/-- Where a soft error strikes (Table 16.9). -/
inductive ErrSite where
  | unitState (u : Nat)
  | scratch (u off : Nat)
  | accRow (u row : Nat)
  | cache (core pa : Nat)
  | l2 (slice pa : Nat)
  | dram (pa : Nat)
  | bead (b word : Nat)
  deriving DecidableEq, Repr

/-- One constructor per row of the opcode table; its docstring gives the row's mnemonic and rule. -/
inductive Instr where
  /-- ADD_I32 (R103): 32-bit add, wrapping or saturating by md; md 0b11 selects the literal form. -/
  | addI32 (m : SatMode) (d : Reg) (a : Reg) (b : Opd)
  /-- ADD_I64 (R103): 64-bit add on register pairs, wrapping or saturating. -/
  | addI64 (m : SatMode) (d : Reg) (a : Reg) (b : Opd)
  /-- SUB_I32 (R103): 32-bit subtract, wrapping or saturating. -/
  | subI32 (m : SatMode) (d : Reg) (a : Reg) (b : Opd)
  /-- SUB_I64 (R103): 64-bit subtract on pairs. -/
  | subI64 (m : SatMode) (d : Reg) (a : Reg) (b : Opd)
  /-- ADDI_I32 (R103): 32-bit add of a sign-extended imm9. -/
  | addiI32 (d : Reg) (a : Reg) (imm : BitVec 9)
  /-- ADDI_I64 (R103): 64-bit add of a sign-extended imm9. -/
  | addiI64 (d : Reg) (a : Reg) (imm : BitVec 9)
  /-- MUL_I32 (R104): Low 32 bits of the product. -/
  | mulI32 (d : Reg) (a : Reg) (b : Opd)
  /-- MUL_I64 (R104): Low 64 bits of the product of pairs. -/
  | mulI64 (d : Reg) (a : Reg) (b : Opd)
  /-- MULH_I32 (R104): High 32 bits of the signed product. -/
  | mulhI32 (d : Reg) (a : Reg) (b : Opd)
  /-- MULH_N32 (R104): High 32 bits of the unsigned product. -/
  | mulhN32 (d : Reg) (a : Reg) (b : Opd)
  /-- MULH_I64 (R104): High 64 bits of the signed 64-bit product. -/
  | mulhI64 (d : Reg) (a : Reg) (b : Opd)
  /-- MULH_N64 (R104): High 64 bits of the unsigned 64-bit product. -/
  | mulhN64 (d : Reg) (a : Reg) (b : Opd)
  /-- MAD_I32 (R104): 32-bit multiply-add into vd. -/
  | madI32 (d : Reg) (a : Reg) (b : Opd)
  /-- MAD_I64 (R104): 64-bit multiply-add into the vd pair. -/
  | madI64 (d : Reg) (a : Reg) (b : Opd)
  /-- ADDC_N32 (R105): Add with carry in and out through predicate pq. -/
  | addcN32 (m : BitVec 2) (d : Reg) (a : Reg) (b : Reg)
  /-- LEA_N32 (R106): 32-bit base plus index shifted by 1 to 4. -/
  | leaN32 (m : BitVec 2) (d : Reg) (a : Reg) (b : Reg)
  /-- MIN_I32 (R107): Signed 32-bit minimum. -/
  | minI32 (d : Reg) (a : Reg) (b : Opd)
  /-- MIN_N32 (R107): Unsigned 32-bit minimum. -/
  | minN32 (d : Reg) (a : Reg) (b : Opd)
  /-- MIN_I64 (R107): Signed 64-bit minimum. -/
  | minI64 (d : Reg) (a : Reg) (b : Opd)
  /-- MIN_N64 (R107): Unsigned 64-bit minimum. -/
  | minN64 (d : Reg) (a : Reg) (b : Opd)
  /-- MAX_I32 (R107): Signed 32-bit maximum. -/
  | maxI32 (d : Reg) (a : Reg) (b : Opd)
  /-- MAX_N32 (R107): Unsigned 32-bit maximum. -/
  | maxN32 (d : Reg) (a : Reg) (b : Opd)
  /-- MAX_I64 (R107): Signed 64-bit maximum. -/
  | maxI64 (d : Reg) (a : Reg) (b : Opd)
  /-- MAX_N64 (R107): Unsigned 64-bit maximum. -/
  | maxN64 (d : Reg) (a : Reg) (b : Opd)
  /-- ABS_I32 (R103): 32-bit absolute value, wrapping or saturating. -/
  | absI32 (m : Bool) (d : Reg) (a : Reg)
  /-- ABS_I64 (R103): 64-bit absolute value. -/
  | absI64 (m : Bool) (d : Reg) (a : Reg)
  /-- NEG_I32 (R103): 32-bit negation, wrapping or saturating. -/
  | negI32 (m : Bool) (d : Reg) (a : Reg)
  /-- NEG_I64 (R103): 64-bit negation. -/
  | negI64 (m : Bool) (d : Reg) (a : Reg)
  /-- ISET_I32 (R108): Signed 32-bit compare into a predicate, plain, AND or OR. -/
  | isetI32 (m : PredMode) (d : PredReg) (cc : ICmp) (a : Reg) (b : Opd)
  /-- ISET_N32 (R108): Unsigned 32-bit compare into a predicate. -/
  | isetN32 (m : PredMode) (d : PredReg) (cc : ICmp) (a : Reg) (b : Opd)
  /-- ISET_I64 (R108): Signed 64-bit compare into a predicate. -/
  | isetI64 (m : PredMode) (d : PredReg) (cc : ICmp) (a : Reg) (b : Opd)
  /-- ISET_N64 (R108): Unsigned 64-bit compare into a predicate. -/
  | isetN64 (m : PredMode) (d : PredReg) (cc : ICmp) (a : Reg) (b : Opd)
  /-- AND_B (R113): Bitwise AND. -/
  | andB (d : Reg) (a : Reg) (b : Opd)
  /-- OR_B (R113): Bitwise OR. -/
  | orB (d : Reg) (a : Reg) (b : Opd)
  /-- XOR_B (R113): Bitwise XOR. -/
  | xorB (d : Reg) (a : Reg) (b : Opd)
  /-- ANDN_B (R113): va AND NOT vb. -/
  | andnB (d : Reg) (a : Reg) (b : Opd)
  /-- SHL_B (R114): Shift left by a register count. -/
  | shlB (d : Reg) (a : Reg) (b : Opd)
  /-- SHR_B (R114): Logical shift right by a register count. -/
  | shrB (d : Reg) (a : Reg) (b : Opd)
  /-- SAR_B (R114): Arithmetic shift right by a register count. -/
  | sarB (d : Reg) (a : Reg) (b : Opd)
  /-- ROTL_B (R114): Rotate left by n mod 32. -/
  | rotlB (d : Reg) (a : Reg) (b : Opd)
  /-- SHLI_B (R114): Shift left by imm9 (0-31). -/
  | shliB (d : Reg) (a : Reg) (imm : BitVec 5)
  /-- SHRI_B (R114): Logical shift right by imm9. -/
  | shriB (d : Reg) (a : Reg) (imm : BitVec 5)
  /-- SARI_B (R114): Arithmetic shift right by imm9. -/
  | sariB (d : Reg) (a : Reg) (imm : BitVec 5)
  /-- FSHL_B (R115): Funnel shift left of vd with va. -/
  | fshlB (d : Reg) (a : Reg) (b : Opd)
  /-- BFX_N32 (R116): Unsigned bit-field extract. -/
  | bfxN32 (d : Reg) (a : Reg) (b : Opd)
  /-- BFX_I32 (R116): Signed bit-field extract. -/
  | bfxI32 (d : Reg) (a : Reg) (b : Opd)
  /-- BFI_B (R116): Bit-field insert into vd. -/
  | bfiB (d : Reg) (a : Reg) (b : Opd)
  /-- PRMT_B (R117): Byte permute of old vd and va by selector. -/
  | prmtB (d : Reg) (a : Reg) (b : Opd)
  /-- POPC_B (R118): Population count. -/
  | popcB (d : Reg) (a : Reg)
  /-- CLZ_B (R118): Count leading zeros. -/
  | clzB (d : Reg) (a : Reg)
  /-- CTZ_B (R118): Count trailing zeros. -/
  | ctzB (d : Reg) (a : Reg)
  /-- BREV_B (R118): Reverse bit order. -/
  | brevB (d : Reg) (a : Reg)
  /-- SEL_B (R111): Select va or vb by predicate pq. -/
  | selB (m : BitVec 2) (d : Reg) (a : Reg) (b : Reg)
  /-- MOV_B (R119): Copy va to vd. -/
  | movB (d : Reg) (a : Reg)
  /-- MOV_B_LIT (R119): Write a 32-bit literal to vd. -/
  | movBLit (d : Reg) (lit : Word)
  /-- MOVI (R119): Write sign-extended imm16. -/
  | movi (d : Reg) (imm : BitVec 16)
  /-- MOVH (R119): Write imm16 into the high half. -/
  | movh (d : Reg) (imm : BitVec 16)
  /-- PSET (R109): Predicate AND, OR or XOR. -/
  | pset (m : PsetOp) (d : PredReg) (a : PredSrc) (b : PredSrc)
  /-- PMOV_TO_REG (R110): Write 1 or 0 from a predicate to vd. -/
  | pmovToReg (d : Reg) (a : PredSrc)
  /-- PMOV_TO_PRED (R110): Set a predicate from va != 0. -/
  | pmovToPred (d : PredReg) (a : Reg)
  /-- PMOV_PACK (R110): Pack p0-p7 into vd. -/
  | pmovPack (d : Reg)
  /-- PMOV_UNPACK (R110): Unpack va[6:0] into p0-p6. -/
  | pmovUnpack (a : Reg)
  /-- SHL_N64 (R114): 64-bit shift left. -/
  | shlN64 (d : Reg) (a : Reg) (b : Opd)
  /-- SHR_N64 (R114): 64-bit logical shift right. -/
  | shrN64 (d : Reg) (a : Reg) (b : Opd)
  /-- SAR_I64 (R114): 64-bit arithmetic shift right. -/
  | sarI64 (d : Reg) (a : Reg) (b : Opd)
  /-- MOV_N64 (R119): Copy a register pair. -/
  | movN64 (d : Reg) (a : Reg)
  /-- MOV_N64_LIT (R119): Write a zero-extended literal to a pair. -/
  | movN64Lit (d : Reg) (lit : Word)
  /-- AND_N64 (R113): 64-bit AND. -/
  | andN64 (d : Reg) (a : Reg) (b : Opd)
  /-- OR_N64 (R113): 64-bit OR. -/
  | orN64 (d : Reg) (a : Reg) (b : Opd)
  /-- XOR_N64 (R113): 64-bit XOR. -/
  | xorN64 (d : Reg) (a : Reg) (b : Opd)
  /-- ANDN_N64 (R113): 64-bit AND NOT. -/
  | andnN64 (d : Reg) (a : Reg) (b : Opd)
  /-- POPC_N64 (R118): 64-bit population count into one register. -/
  | popcN64 (d : Reg) (a : Reg)
  /-- CLZ_N64 (R118): 64-bit leading-zero count. -/
  | clzN64 (d : Reg) (a : Reg)
  /-- CTZ_N64 (R118): 64-bit trailing-zero count. -/
  | ctzN64 (d : Reg) (a : Reg)
  /-- BREV_N64 (R118): 64-bit bit reversal. -/
  | brevN64 (d : Reg) (a : Reg)
  /-- SEL_N64 (R111): Select a pair by predicate. -/
  | selN64 (m : BitVec 2) (d : Reg) (a : Reg) (b : Reg)
  /-- LEA_N64 (R106): 64-bit base plus signed index shifted. -/
  | leaN64 (m : BitVec 2) (d : Reg) (a : Reg) (b : Reg)
  /-- FADD_F32 (R121): FP32 add, rounded by md. -/
  | faddF32 (m : RMode) (d : Reg) (a : Reg) (b : Reg)
  /-- FMUL_F32 (R121): FP32 multiply. -/
  | fmulF32 (m : RMode) (d : Reg) (a : Reg) (b : Reg)
  /-- FFMA_F32 (R121): Fused multiply-add into vd. -/
  | ffmaF32 (m : RMode) (d : Reg) (a : Reg) (b : Reg)
  /-- FFMA_NP_F32 (R121): Fused multiply-add with negated product. -/
  | ffmaNpF32 (m : RMode) (d : Reg) (a : Reg) (b : Reg)
  /-- FFMA_NC_F32 (R121): Fused multiply-add with negated addend. -/
  | ffmaNcF32 (m : RMode) (d : Reg) (a : Reg) (b : Reg)
  /-- FFMA_NPC_F32 (R121): Fused multiply-add, both negated. -/
  | ffmaNpcF32 (m : RMode) (d : Reg) (a : Reg) (b : Reg)
  /-- FMIN_F32 (R122): FP32 minimum. -/
  | fminF32 (d : Reg) (a : Reg) (b : Opd)
  /-- FMAX_F32 (R122): FP32 maximum. -/
  | fmaxF32 (d : Reg) (a : Reg) (b : Opd)
  /-- FSET_F32 (R123): FP32 compare into a predicate. -/
  | fsetF32 (m : PredMode) (d : PredReg) (cc : FCmp) (a : Reg) (b : Opd)
  /-- FCLASS_F32 (R124): Classify an FP32 value. -/
  | fclassF32 (d : Reg) (a : Reg)
  /-- FRND_F32 (R125): Round to an integral value. -/
  | frndF32 (m : RMode) (d : Reg) (a : Reg)
  /-- FRCP_F32 (R125): Correctly rounded reciprocal. -/
  | frcpF32 (m : RMode) (d : Reg) (a : Reg)
  /-- FRSQ_F32 (R125): Reciprocal square root. -/
  | frsqF32 (m : RMode) (d : Reg) (a : Reg)
  /-- FSQRT_F32 (R125): Correctly rounded square root. -/
  | fsqrtF32 (m : RMode) (d : Reg) (a : Reg)
  /-- FEX2_F32 (R125): Base-2 exponential. -/
  | fex2F32 (m : RMode) (d : Reg) (a : Reg)
  /-- FLG2_F32 (R125): Base-2 logarithm. -/
  | flg2F32 (m : RMode) (d : Reg) (a : Reg)
  /-- FSIN_F32 (R125): Sine. -/
  | fsinF32 (m : RMode) (d : Reg) (a : Reg)
  /-- FCOS_F32 (R125): Cosine. -/
  | fcosF32 (m : RMode) (d : Reg) (a : Reg)
  /-- FTANH_F32 (R125): Hyperbolic tangent. -/
  | ftanhF32 (m : RMode) (d : Reg) (a : Reg)
  /-- HADD2_BF16X2 (R126): Paired BF16 add. -/
  | hadd2Bf16x2 (m : RMode) (d : Reg) (a : Reg) (b : Reg)
  /-- HADD2_F16X2 (R126): Paired FP16 add. -/
  | hadd2F16x2 (m : RMode) (d : Reg) (a : Reg) (b : Reg)
  /-- HMUL2_BF16X2 (R126): Paired BF16 multiply. -/
  | hmul2Bf16x2 (m : RMode) (d : Reg) (a : Reg) (b : Reg)
  /-- HMUL2_F16X2 (R126): Paired FP16 multiply. -/
  | hmul2F16x2 (m : RMode) (d : Reg) (a : Reg) (b : Reg)
  /-- HFMA2_BF16X2 (R126): Paired BF16 fused multiply-add. -/
  | hfma2Bf16x2 (m : RMode) (d : Reg) (a : Reg) (b : Reg)
  /-- HFMA2_F16X2 (R126): Paired FP16 fused multiply-add. -/
  | hfma2F16x2 (m : RMode) (d : Reg) (a : Reg) (b : Reg)
  /-- FCVT_F32_F16 (R81): Exact FP16 to FP32 widening. -/
  | fcvtF32F16 (d : Reg) (a : Reg)
  /-- FCVT_F32_BF16 (R81): Exact BF16 to FP32 widening. -/
  | fcvtF32Bf16 (d : Reg) (a : Reg)
  /-- FCVT_F16_F32 (R81): FP32 to FP16 narrowing. -/
  | fcvtF16F32 (m : RMode) (d : Reg) (a : Reg)
  /-- FCVT_BF16_F32 (R81): FP32 to BF16 narrowing. -/
  | fcvtBf16F32 (m : RMode) (d : Reg) (a : Reg)
  /-- FCVT_F16_BF16 (R81): BF16 to FP16 conversion. -/
  | fcvtF16Bf16 (m : RMode) (d : Reg) (a : Reg)
  /-- FCVT_BF16_F16 (R81): FP16 to BF16 conversion. -/
  | fcvtBf16F16 (m : RMode) (d : Reg) (a : Reg)
  /-- FCVT_F16X2_F32 (R81): Two FP32 values to a FP16 pair. -/
  | fcvtF16x2F32 (m : RMode) (d : Reg) (a : Reg) (b : Reg)
  /-- FCVT_BF16X2_F32 (R81): Two FP32 values to a BF16 pair. -/
  | fcvtBf16x2F32 (m : RMode) (d : Reg) (a : Reg) (b : Reg)
  /-- FCVT_F32_I32 (R83): Signed 32-bit integer to FP32. -/
  | fcvtF32I32 (m : RMode) (d : Reg) (a : Reg)
  /-- FCVT_F32_N32 (R83): Unsigned 32-bit integer to FP32. -/
  | fcvtF32N32 (m : RMode) (d : Reg) (a : Reg)
  /-- FCVT_F32_I64 (R83): Signed 64-bit integer to FP32. -/
  | fcvtF32I64 (m : RMode) (d : Reg) (a : Reg)
  /-- FCVT_F32_N64 (R83): Unsigned 64-bit integer to FP32. -/
  | fcvtF32N64 (m : RMode) (d : Reg) (a : Reg)
  /-- FCVT_I32_F32 (R82): FP32 to signed 32-bit, saturating. -/
  | fcvtI32F32 (m : RMode) (d : Reg) (a : Reg)
  /-- FCVT_N32_F32 (R82): FP32 to unsigned 32-bit, saturating. -/
  | fcvtN32F32 (m : RMode) (d : Reg) (a : Reg)
  /-- FCVT_I64_F32 (R82): FP32 to signed 64-bit pair. -/
  | fcvtI64F32 (m : RMode) (d : Reg) (a : Reg)
  /-- FCVT_N64_F32 (R82): FP32 to unsigned 64-bit pair. -/
  | fcvtN64F32 (m : RMode) (d : Reg) (a : Reg)
  /-- FCVT_I16_F32 (R82): FP32 to signed 16-bit. -/
  | fcvtI16F32 (m : RMode) (d : Reg) (a : Reg)
  /-- FCVT_N16_F32 (R82): FP32 to unsigned 16-bit. -/
  | fcvtN16F32 (m : RMode) (d : Reg) (a : Reg)
  /-- FCVT_I8_F32 (R82): FP32 to signed 8-bit. -/
  | fcvtI8F32 (m : RMode) (d : Reg) (a : Reg)
  /-- FCVT_N8_F32 (R82): FP32 to unsigned 8-bit. -/
  | fcvtN8F32 (m : RMode) (d : Reg) (a : Reg)
  /-- FCVT_F32_I16 (R83): Exact signed 16-bit to FP32. -/
  | fcvtF32I16 (d : Reg) (a : Reg)
  /-- FCVT_F32_N16 (R83): Exact unsigned 16-bit to FP32. -/
  | fcvtF32N16 (d : Reg) (a : Reg)
  /-- FCVT_F32_I8 (R83): Exact signed 8-bit to FP32. -/
  | fcvtF32I8 (d : Reg) (a : Reg)
  /-- FCVT_F32_N8 (R83): Exact unsigned 8-bit to FP32. -/
  | fcvtF32N8 (d : Reg) (a : Reg)
  /-- BALLOT (R131): Gather a predicate of the active threads into a mask. -/
  | ballot (d : Reg) (a : PredSrc)
  /-- VOTE_EVERY (R131): Predicate true in every active thread. -/
  | voteEvery (d : PredReg) (a : PredSrc)
  /-- VOTE_SOME (R131): Predicate true in some active thread. -/
  | voteSome (d : PredReg) (a : PredSrc)
  /-- VOTE_AGREE (R131): Predicate equal in all active threads. -/
  | voteAgree (d : PredReg) (a : PredSrc)
  /-- SHFL_IDX (R132): Read another thread's value by index within a segment. -/
  | shflIdx (m : ShflWidth) (d : Reg) (a : Reg) (b : Opd)
  /-- SHFL_UP (R132): Shuffle up by a common distance. -/
  | shflUp (m : ShflWidth) (d : Reg) (a : Reg) (b : Opd)
  /-- SHFL_DOWN (R132): Shuffle down by a common distance. -/
  | shflDown (m : ShflWidth) (d : Reg) (a : Reg) (b : Opd)
  /-- SHFL_XOR (R132): Shuffle by XOR of the thread index. -/
  | shflXor (m : ShflWidth) (d : Reg) (a : Reg) (b : Opd)
  /-- XCHM (R133): Masked butterfly exchange step. -/
  | xchm (d : Reg) (a : Reg) (b : Opd)
  /-- REDW_I32 (R134): Signed 32-bit warp reduction in thread order. -/
  | redwI32 (d : Reg) (a : Reg) (op : FoldOp)
  /-- REDW_N32 (R134): Unsigned 32-bit warp reduction. -/
  | redwN32 (d : Reg) (a : Reg) (op : FoldOp)
  /-- REDW_F32 (R134): FP32 warp reduction in ascending thread order. -/
  | redwF32 (m : RMode) (d : Reg) (a : Reg) (op : FoldOp)
  /-- REDW_B (R134): Bitwise warp reduction. -/
  | redwB (d : Reg) (a : Reg) (op : BitOp)
  /-- SCANW_I32 (R135): Signed 32-bit warp scan. -/
  | scanwI32 (d : Reg) (a : Reg) (op : FoldOp) (excl : Bool)
  /-- SCANW_N32 (R135): Unsigned 32-bit warp scan. -/
  | scanwN32 (d : Reg) (a : Reg) (op : FoldOp) (excl : Bool)
  /-- SCANW_F32 (R135): FP32 warp scan. -/
  | scanwF32 (m : RMode) (d : Reg) (a : Reg) (op : FoldOp) (excl : Bool)
  /-- BRA (R138): Relative branch; may split the fragment. -/
  | bra (off : BitVec 23)
  /-- CALL (R138): Relative call writing the link to v15. -/
  | call (off : BitVec 23)
  /-- BRX (R138): Per-thread register branch. -/
  | brx (a : Reg)
  /-- CALLX (R138): Per-thread register call writing a link. -/
  | callx (d : Reg) (a : Reg)
  /-- RET (R138): Return through a register target. -/
  | ret (a : Reg)
  /-- JOIN (R141): Park at the next header until the JOIN set fuses. -/
  | join
  /-- EXIT (R142): End the active threads. -/
  | exit
  /-- YIELD (R143): Blocking point; parks on a park request, else NOP with yield preference. -/
  | yield
  /-- NOP (R143): No effect. -/
  | nop
  /-- TRAP (R144): Park the active threads with software trap. -/
  | trap (imm : BitVec 16)
  /-- TFENCE (R92): Wait for exceptions and trap on enabled ones. -/
  | tfence
  /-- BKPT (R144): Park the active threads with breakpoint. -/
  | bkpt (imm : BitVec 16)
  /-- WINB (R146): Set the register window base. -/
  | winb (imm : BitVec 12)
  /-- WINA (R146): Add a signed step to the window base. -/
  | wina (imm : BitVec 12)
  /-- SETFMT (R147): Write, OR or clear %fmt of the fragment. -/
  | setfmt (mode : FmtMode) (imm : BitVec 16)
  /-- SRD (R148): Read a special register. -/
  | srd (d : Reg) (imm : BitVec 16)
  /-- SWR (R148): Write a special register; %frag selects repair actions. -/
  | swr (a : Reg) (imm : BitVec 16)
  /-- WAITF (R149): Wait until named completion flags are clear. -/
  | waitf (mask : BitVec 12)
  /-- WAITP_REG (R150): Wait until a path counter falls to the register threshold. -/
  | waitpReg (p : PathId) (a : Reg)
  /-- WAITP_IMM (R150): Wait until a path counter falls to an immediate threshold. -/
  | waitpImm (p : PathId) (n : BitVec 8)
  /-- CLKW (R151): Wait until %time reaches a value. -/
  | clkw (a : Reg)
  /-- CBND_EXACT (R157): Narrow a capability to an exactly representable region. -/
  | cbndExact (d : CapReg) (a : CapReg) (b : Reg)
  /-- CBND_ROUND (R157): Narrow a capability, rounding the region outward. -/
  | cbndRound (d : CapReg) (a : CapReg) (b : Reg)
  /-- CBND_LIT (R157): Exact narrowing with a literal length. -/
  | cbndLit (d : CapReg) (a : CapReg) (lit : Word)
  /-- CPRM (R158): Remove permissions from a capability. -/
  | cprm (d : CapReg) (a : CapReg) (b : Opd)
  /-- CADD (R159): Move a capability cursor. -/
  | cadd (d : CapReg) (a : CapReg) (b : Opd)
  /-- CGET (R160): Read a decoded capability field. -/
  | cget (d : Reg) (a : CapReg) (sel : CgetSel)
  /-- CTST_TAG (R161): Test a capability tag. -/
  | ctstTag (d : PredReg) (a : CapReg)
  /-- CTST_SUB (R161): Test whether one capability is a subset of another. -/
  | ctstSub (d : PredReg) (a : CapReg) (b : CapReg)
  /-- CDRV (R162): Rebuild a capability from bits on a derive authority. -/
  | cdrv (d : CapReg) (a : CapReg) (b : CapReg)
  /-- LD_N8 (R167): Load a zero-extended byte. -/
  | ldN8 (d : Reg) (mr : MemRef)
  /-- LD_I8 (R167): Load a sign-extended byte. -/
  | ldI8 (d : Reg) (mr : MemRef)
  /-- LD_N16 (R167): Load a zero-extended halfword. -/
  | ldN16 (d : Reg) (mr : MemRef)
  /-- LD_I16 (R167): Load a sign-extended halfword. -/
  | ldI16 (d : Reg) (mr : MemRef)
  /-- LD_N32 (R167): Load a word. -/
  | ldN32 (d : Reg) (mr : MemRef)
  /-- LD_N64 (R167): Load a doubleword into a pair. -/
  | ldN64 (d : Reg) (mr : MemRef)
  /-- LDA_N32 (R169): Acquire load of a word at a scope. -/
  | ldaN32 (sc : Scope) (d : Reg) (mr : MemRef)
  /-- LDA_N64 (R169): Acquire load of a doubleword. -/
  | ldaN64 (sc : Scope) (d : Reg) (mr : MemRef)
  /-- ST_N8 (R167): Store a byte. -/
  | stN8 (d : Reg) (mr : MemRef)
  /-- ST_N16 (R167): Store a halfword. -/
  | stN16 (d : Reg) (mr : MemRef)
  /-- ST_N32 (R167): Store a word. -/
  | stN32 (d : Reg) (mr : MemRef)
  /-- ST_N64 (R167): Store a doubleword. -/
  | stN64 (d : Reg) (mr : MemRef)
  /-- STL_N32 (R169): Release store of a word. -/
  | stlN32 (sc : Scope) (d : Reg) (mr : MemRef)
  /-- STL_N64 (R169): Release store of a doubleword. -/
  | stlN64 (sc : Scope) (d : Reg) (mr : MemRef)
  /-- LDC (R168): Load a capability quad with its tag. -/
  | ldc (d : Reg) (mr : MemRef)
  /-- STC (R168): Store a capability quad with its tag. -/
  | stc (d : Reg) (mr : MemRef)
  /-- PREF (R173): Prefetch a line to the private cache or L2. -/
  | pref (l2 : Bool) (mr : MemRef)
  /-- CWB (R173): Write back registered and dirty words of a line. -/
  | cwb (dev : Bool) (mr : MemRef)
  /-- CINV (R173): Invalidate the core's private copy of a line. -/
  | cinv (mr : MemRef)
  /-- ATOM_ADD_N32 (R177): Atomic 32-bit add returning the old value. -/
  | atomAddN32 (sc : Scope) (d : Reg) (mr : MemRef)
  /-- ATOM_ADD_N64 (R177): Atomic 64-bit add. -/
  | atomAddN64 (sc : Scope) (d : Reg) (mr : MemRef)
  /-- ATOM_ADD_F32 (R177): Atomic FP32 add. -/
  | atomAddF32 (sc : Scope) (d : Reg) (mr : MemRef)
  /-- ATOM_MIN_I32 (R177): Atomic signed 32-bit minimum. -/
  | atomMinI32 (sc : Scope) (d : Reg) (mr : MemRef)
  /-- ATOM_MIN_N32 (R177): Atomic unsigned 32-bit minimum. -/
  | atomMinN32 (sc : Scope) (d : Reg) (mr : MemRef)
  /-- ATOM_MIN_I64 (R177): Atomic signed 64-bit minimum. -/
  | atomMinI64 (sc : Scope) (d : Reg) (mr : MemRef)
  /-- ATOM_MIN_N64 (R177): Atomic unsigned 64-bit minimum. -/
  | atomMinN64 (sc : Scope) (d : Reg) (mr : MemRef)
  /-- ATOM_MAX_I32 (R177): Atomic signed 32-bit maximum. -/
  | atomMaxI32 (sc : Scope) (d : Reg) (mr : MemRef)
  /-- ATOM_MAX_N32 (R177): Atomic unsigned 32-bit maximum. -/
  | atomMaxN32 (sc : Scope) (d : Reg) (mr : MemRef)
  /-- ATOM_MAX_I64 (R177): Atomic signed 64-bit maximum. -/
  | atomMaxI64 (sc : Scope) (d : Reg) (mr : MemRef)
  /-- ATOM_MAX_N64 (R177): Atomic unsigned 64-bit maximum. -/
  | atomMaxN64 (sc : Scope) (d : Reg) (mr : MemRef)
  /-- ATOM_AND_N32 (R177): Atomic 32-bit AND. -/
  | atomAndN32 (sc : Scope) (d : Reg) (mr : MemRef)
  /-- ATOM_AND_N64 (R177): Atomic 64-bit AND. -/
  | atomAndN64 (sc : Scope) (d : Reg) (mr : MemRef)
  /-- ATOM_OR_N32 (R177): Atomic 32-bit OR. -/
  | atomOrN32 (sc : Scope) (d : Reg) (mr : MemRef)
  /-- ATOM_OR_N64 (R177): Atomic 64-bit OR. -/
  | atomOrN64 (sc : Scope) (d : Reg) (mr : MemRef)
  /-- ATOM_XOR_N32 (R177): Atomic 32-bit XOR. -/
  | atomXorN32 (sc : Scope) (d : Reg) (mr : MemRef)
  /-- ATOM_XOR_N64 (R177): Atomic 64-bit XOR. -/
  | atomXorN64 (sc : Scope) (d : Reg) (mr : MemRef)
  /-- ATOM_EXCH_N32 (R177): Atomic 32-bit exchange. -/
  | atomExchN32 (sc : Scope) (d : Reg) (mr : MemRef)
  /-- ATOM_EXCH_N64 (R177): Atomic 64-bit exchange. -/
  | atomExchN64 (sc : Scope) (d : Reg) (mr : MemRef)
  /-- ATOM_CAS_N32 (R177): Atomic 32-bit compare and swap. -/
  | atomCasN32 (sc : Scope) (d : Reg) (mr : MemRef)
  /-- ATOM_CAS_N64 (R177): Atomic 64-bit compare and swap. -/
  | atomCasN64 (sc : Scope) (d : Reg) (mr : MemRef)
  /-- RED_ADD_N32 (R180): Update-only 32-bit add. -/
  | redAddN32 (sc : Scope) (d : Reg) (mr : MemRef)
  /-- RED_ADD_N64 (R180): Update-only 64-bit add. -/
  | redAddN64 (sc : Scope) (d : Reg) (mr : MemRef)
  /-- RED_ADD_F32 (R180): Update-only FP32 add. -/
  | redAddF32 (sc : Scope) (d : Reg) (mr : MemRef)
  /-- RED_MIN_I32 (R180): Update-only signed 32-bit minimum. -/
  | redMinI32 (sc : Scope) (d : Reg) (mr : MemRef)
  /-- RED_MIN_N32 (R180): Update-only unsigned 32-bit minimum. -/
  | redMinN32 (sc : Scope) (d : Reg) (mr : MemRef)
  /-- RED_MIN_I64 (R180): Update-only signed 64-bit minimum. -/
  | redMinI64 (sc : Scope) (d : Reg) (mr : MemRef)
  /-- RED_MIN_N64 (R180): Update-only unsigned 64-bit minimum. -/
  | redMinN64 (sc : Scope) (d : Reg) (mr : MemRef)
  /-- RED_MAX_I32 (R180): Update-only signed 32-bit maximum. -/
  | redMaxI32 (sc : Scope) (d : Reg) (mr : MemRef)
  /-- RED_MAX_N32 (R180): Update-only unsigned 32-bit maximum. -/
  | redMaxN32 (sc : Scope) (d : Reg) (mr : MemRef)
  /-- RED_MAX_I64 (R180): Update-only signed 64-bit maximum. -/
  | redMaxI64 (sc : Scope) (d : Reg) (mr : MemRef)
  /-- RED_MAX_N64 (R180): Update-only unsigned 64-bit maximum. -/
  | redMaxN64 (sc : Scope) (d : Reg) (mr : MemRef)
  /-- RED_AND_N32 (R180): Update-only 32-bit AND. -/
  | redAndN32 (sc : Scope) (d : Reg) (mr : MemRef)
  /-- RED_AND_N64 (R180): Update-only 64-bit AND. -/
  | redAndN64 (sc : Scope) (d : Reg) (mr : MemRef)
  /-- RED_OR_N32 (R180): Update-only 32-bit OR. -/
  | redOrN32 (sc : Scope) (d : Reg) (mr : MemRef)
  /-- RED_OR_N64 (R180): Update-only 64-bit OR. -/
  | redOrN64 (sc : Scope) (d : Reg) (mr : MemRef)
  /-- RED_XOR_N32 (R180): Update-only 32-bit XOR. -/
  | redXorN32 (sc : Scope) (d : Reg) (mr : MemRef)
  /-- RED_XOR_N64 (R180): Update-only 64-bit XOR. -/
  | redXorN64 (sc : Scope) (d : Reg) (mr : MemRef)
  /-- FENCE (R183): Order ls-path accesses at a scope: full, acquire or release. -/
  | fence (m : FenceKind) (sc : Scope)
  /-- XFENCE (R184): Order drained operations of one path before later ones of another. -/
  | xfence (sc : Scope) (a : PathId) (b : PathId)
  /-- TBEGIN (R185): Open a transaction in each active thread. -/
  | tbegin
  /-- TEND (R187): Validate and commit the active threads' transactions. -/
  | tend (d : PredReg)
  /-- TABORT (R189): Doom the transaction with a user code. -/
  | tabort (b : BitVec 7)
  /-- TSTAT (R189): Read the transaction status word. -/
  | tstat (d : Reg)
  /-- BARINIT (R195): Register and initialise a barrier word. -/
  | barinit (a : Reg) (b : Reg)
  /-- BARARR (R196): Arrive at a barrier posting bytes from vb. -/
  | bararr (d : Reg) (a : Reg) (b : Reg)
  /-- BARARR_NOBYTES (R196): Arrive at a barrier with no bytes. -/
  | bararrNobytes (d : Reg) (a : Reg)
  /-- BARARR_LIT (R196): Arrive at a barrier posting literal bytes. -/
  | bararrLit (d : Reg) (a : Reg) (lit : Word)
  /-- BARWAIT (R198): Wait until the barrier phase passes the token. -/
  | barwait (d : PredReg) (a : Reg) (b : Reg)
  /-- BARTST (R198): Test whether the barrier phase passed the token. -/
  | bartst (d : PredReg) (a : Reg) (b : Reg)
  /-- BARDROP (R199): Drop the active threads from a barrier. -/
  | bardrop (a : Reg)
  /-- BARINV (R200): Invalidate a barrier and release its waiters. -/
  | barinv (a : Reg)
  /-- BARINV_FREE (R200): Invalidate a barrier and free its table entry. -/
  | barinvFree (a : Reg)
  /-- BAREXP (R197): Add expected bytes from vb to a barrier. -/
  | barexp (a : Reg) (b : Reg)
  /-- BAREXP_LIT (R197): Add literal expected bytes to a barrier. -/
  | barexpLit (a : Reg) (lit : Word)
  /-- MRED (R202): Contribute a vector to a mesh reduction sequence. -/
  | mred (op : FoldOp) (ty : MredTy) (a : Reg) (b : Reg)
  /-- MRWAIT (R204): Wait for a mesh reduction result. -/
  | mrwait (d : Reg) (b : Reg)
  /-- BOARD (R208): Ask a bead to carry a home line. -/
  | board (d : Reg) (a : Reg) (b : CapReg)
  /-- ALIGHT (R209): Free an aboard bead and write its payload home. -/
  | alight (d : Reg) (a : Reg)
  /-- BCAP_ADD (R210): Add to a bead payload word. -/
  | bcapAdd (d : Reg) (a : Reg) (b : Reg)
  /-- BCAP_MIN (R210): Minimum into a bead word, signed or unsigned. -/
  | bcapMin (m : Bool) (d : Reg) (a : Reg) (b : Reg)
  /-- BCAP_MAX (R210): Maximum into a bead word. -/
  | bcapMax (m : Bool) (d : Reg) (a : Reg) (b : Reg)
  /-- BCAP_AND (R210): AND into a bead word. -/
  | bcapAnd (d : Reg) (a : Reg) (b : Reg)
  /-- BCAP_OR (R210): OR into a bead word. -/
  | bcapOr (d : Reg) (a : Reg) (b : Reg)
  /-- BCAP_SWAP (R210): Swap a bead word. -/
  | bcapSwap (d : Reg) (a : Reg) (b : Reg)
  /-- BCAP_CAS (R210): Compare and swap a bead word. -/
  | bcapCas (d : Reg) (a : Reg) (b : Reg)
  /-- BCAP_FADD (R210): FP32 add into a bead word. -/
  | bcapFadd (d : Reg) (a : Reg) (b : Reg)
  /-- BREAD (R211): Read a bead payload word or key. -/
  | bread (d : Reg) (a : Reg)
  /-- BPASS (R211): Wait for a bead's next pass of the station. -/
  | bpass (a : Reg)
  /-- MMA_BF16 (R218): BF16 matrix multiply-accumulate into rows. -/
  | mmaBf16 (m : Bool) (d : BitVec 7) (a : Reg) (b : Reg)
  /-- MMA_F16 (R218): FP16 matrix multiply-accumulate. -/
  | mmaF16 (m : Bool) (d : BitVec 7) (a : Reg) (b : Reg)
  /-- MMA_F32 (R218): FP32 matrix multiply-accumulate. -/
  | mmaF32 (m : Bool) (d : BitVec 7) (a : Reg) (b : Reg)
  /-- MMA_K4 (R218): K4 by BF16 matrix multiply-accumulate. -/
  | mmaK4 (m : Bool) (d : BitVec 7) (a : Reg) (b : Reg)
  /-- MMA_I8 (R218): INT8 matrix multiply-accumulate. -/
  | mmaI8 (m : Bool) (d : BitVec 7) (a : Reg) (b : Reg)
  /-- MMAB_XOR (R218): Binary XOR-popcount matrix accumulate. -/
  | mmabXor (m : Bool) (d : BitVec 7) (a : Reg) (b : Reg)
  /-- MMAB_AND (R218): Binary AND-popcount matrix accumulate. -/
  | mmabAnd (m : Bool) (d : BitVec 7) (a : Reg) (b : Reg)
  /-- ACCZ (R221): Zero the data of active rows. -/
  | accz
  /-- ACCZ_ALL (R221): Zero rows, set masks, clear %mxexc. -/
  | acczAll
  /-- ACCLD_F32 (R222): Load FP32 rows from scratchpad. -/
  | accldF32 (a : Reg)
  /-- ACCST_F32 (R222): Store FP32 rows to scratchpad. -/
  | accstF32 (a : Reg)
  /-- ACCSV (R224): Save whole row images. -/
  | accsv (a : Reg)
  /-- ACCRS (R224): Restore whole row images. -/
  | accrs (a : Reg)
  /-- ACCMX (R225): Row maximum of the first n elements. -/
  | accmx (m : Bool) (d : Reg) (b : BitVec 7)
  /-- ACCEXS (R226): Exponentiate row elements in place and sum them. -/
  | accexs (d : Reg) (a : Reg) (b : BitVec 7)
  /-- ACCMSK (R227): Write minus infinity to masked elements. -/
  | accmsk
  /-- CBLD (R228): Load a codebook register. -/
  | cbld (k : BitVec 2) (a : CapReg)
  /-- ACCLD_BF16 (R222): Load BF16 rows, widening. -/
  | accldBf16 (a : Reg)
  /-- ACCLD_F16 (R222): Load FP16 rows, widening. -/
  | accldF16 (a : Reg)
  /-- ACCST_BF16 (R222): Store rows narrowed to BF16. -/
  | accstBf16 (a : Reg)
  /-- ACCST_F16 (R222): Store rows narrowed to FP16. -/
  | accstF16 (a : Reg)
  /-- ACCST_I8 (R223): Quantise rows to INT8 with a per-thread scale. -/
  | accstI8 (a : Reg) (b : Reg)
  /-- XTILE (R235): Copy one tile record with a chunk bitmap. -/
  | xtile (k : BitVec 4) (a : CapReg)
  /-- XTILE_CO (R235): Tile copy with coordinate override. -/
  | xtileCo (k : BitVec 4) (a : CapReg) (b : Reg)
  /-- XSTRM (R236): Copy a record into a stream FIFO. -/
  | xstrm (k : BitVec 2) (a : CapReg)
  /-- XSTRM_CO (R236): Stream copy with coordinate override. -/
  | xstrmCo (k : BitVec 2) (a : CapReg) (b : Reg)
  /-- XCHAIN (R237): Start a transfer chain at a slot. -/
  | xchain (d : Reg) (a : Reg) (b : Reg)
  /-- XSTAT (R239): Read a chain slot status or resume pointer. -/
  | xstat (m : Bool) (d : Reg) (b : Reg)
  /-- XSTOP (R239): Ask a chain slot to stop at a record boundary. -/
  | xstop (b : Reg)
  /-- CHKT (R240): Test chunk bitmap against a mask. -/
  | chkt (d : PredReg) (a : Reg) (k : BitVec 4)
  /-- CHKW (R240): Wait until a chunk bitmap covers a mask. -/
  | chkw (a : Reg) (k : BitVec 4)
  /-- NFORK (R246): Fork a child node of a tree node. -/
  | nfork (d : Reg) (a : Reg)
  /-- NPRUNE (R247): Prune a node and its descendants. -/
  | nprune (d : Reg) (a : Reg)
  /-- NCOMMIT (R248): Commit the path to a node, optionally pruning off-path nodes. -/
  | ncommit (m : Bool) (d : Reg) (a : Reg)
  /-- NQUERY (R249): Query a node's state or the committed length. -/
  | nquery (m : Bool) (d : Reg) (a : Reg)
  /-- NTAG (R250): Tag the warp with a node. -/
  | ntag (a : Reg)
  /-- NTAG_CLR (R250): Clear the warp's node tag. -/
  | ntagClr
  /-- MASKG (R252): Generate row mask planes from positions or ancestry. -/
  | maskg (m : Bool) (a : Reg) (b : Reg)
  /-- KVMAP (R254): Look up, or with .w prepare for write, a KV block page. -/
  | kvmap (m : Bool) (d : Reg) (a : Reg) (b : Reg)
  /-- KVREF (R256): Give a block an own reference to an existing page. -/
  | kvref (d : Reg) (a : Reg) (b : Reg)
  /-- KVREL (R257): Release a block's own entry. -/
  | kvrel (d : Reg) (a : Reg) (b : Reg)
  /-- KVSHOOT (R258): Invalidate aperture translations of a block range. -/
  | kvshoot (a : Reg) (b : Reg)
  /-- LNCH (R260): Append a command packet to a device queue. -/
  | lnch (d : Reg) (a : CapReg) (b : Reg)
  /-- LCANCEL (R261): Cancel the level of a completion record. -/
  | lcancel (d : Reg) (a : CapReg)
  /-- LJOIN (R262): Wait until a completion record's pending count is zero. -/
  | ljoin (d : Reg) (a : CapReg)
  /-- REPAIR_RESUME (R274): SWR %frag ACT 1: resume a parked-fault fragment. -/
  | repairResume (q : Nat)
  /-- REPAIR_KILL (R275): SWR %frag ACT 2: kill a fragment. -/
  | repairKill (q : Nat)
  /-- REPAIR_SPLIT (R275): SWR %frag ACT 3: split a parked fragment. -/
  | repairSplit (q : Nat)
  /-- REPAIR_FUSE (R275): SWR %frag ACT 4: force-fuse fragment B into the target. -/
  | repairFuse (q : Nat)
  /-- REPAIR_KILLWARP (R422): SWR %frag ACT 5: kill every fragment of the warp. -/
  | repairKillwarp (q : Nat)
  /-- CLAUSE_START (R280): A free lane selects a candidate fragment and starts its clause. -/
  | clauseStart (core : Nat) (lane : Nat)
  /-- FRAGMENT_WAKE (R267): A parked fragment's wake condition holds and it becomes runnable. -/
  | fragmentWake (f : FragRef)
  /-- DEAD_FRAGMENT_FREE (R267): A dead fragment is freed once drops and its loads complete. -/
  | deadFragmentFree (f : FragRef)
  /-- MEMORY_OP_COMPLETE (R172): A memory operation completes; its flag and path counter fall. -/
  | memoryOpComplete (u : Nat) (op : Nat)
  /-- SLICE_ACCESS (R297): An access arrives at its home slice and performs there. -/
  | sliceAccess (u : Nat) (op : Nat) (t : Nat)
  /-- SOLITARY_GRANT (R188): The package solitary grant passes to the next waiting thread. -/
  | solitaryGrant
  /-- PEER_PACKET_ARRIVAL (R366): A peer packet is performed in sequence at the target reorder buffer. -/
  | peerPacketArrival (p : PeerPacket)
  /-- PEER_ACK (R366): A peer acknowledgement frees a window entry at the source. -/
  | peerAck (u : Nat) (op : Nat) (t : Nat) (val : BitVec 128) (cause : Nat)
  /-- MATRIX_K_STEP (R218): The matrix engine runs one K step of an operation. -/
  | matrixKStep (core : Nat) (u : Nat)
  /-- ENGINE_QUEUE_OP (R215): The matrix engine runs a queued accumulator operation to completion. -/
  | engineQueueOp (core : Nat) (u : Nat)
  /-- TRANSFER_RECORD_FETCH (R235): The engine reads and checks a transfer record. -/
  | transferRecordFetch (u : Nat) (job : Nat)
  /-- CHUNK_COMPLETE (R231): A copy chunk completes, setting its bitmap bit and posting bytes. -/
  | chunkComplete (u : Nat) (job : Nat) (chunk : Nat)
  /-- CHAIN_RECORD_STEP (R238): A chain channel performs one record and clears OWN. -/
  | chainRecordStep (u : Nat) (slot : Nat)
  /-- MESH_REDUCTION_INPUT (R203): A contribution or partial arrives at a reduction node and is folded. -/
  | meshReductionInput (die : Nat) (desc : Nat) (sq : Nat) (node : Nat) (src : Nat)
  /-- MESH_REDUCTION_TIMEOUT (R204): A node's timer of T cycles expires and it forwards its partial. -/
  | meshReductionTimeout (die : Nat) (desc : Nat) (sq : Nat) (node : Nat)
  /-- MESH_REDUCTION_RESULT (R204): The root's result or timeout reaches a member core. -/
  | meshReductionResult (die : Nat) (desc : Nat) (sq : Nat) (core : Nat)
  /-- BEAD_PASS (R374): A bead passes a station, which applies eligible operations. -/
  | beadPass (bead : Nat) (station : Nat)
  /-- BOARD_MARK_REPLY (R208): The home slice grants or refuses the ring-held mark. -/
  | boardMarkReply (bead : Nat)
  /-- ALIGHT_HOME_WRITE (R380): An alighted payload reaches its slice, is written and the mark cleared. -/
  | alightHomeWrite (k : Nat)
  /-- TREE_COMMAND_ARRIVAL (R245): A tree, KV or mask command is performed at the home tree unit. -/
  | treeCommandArrival (k : Nat)
  /-- NODE_REWRITE_ACK (R390): All cores acknowledge the %node rewrite and NCOMMIT retires. -/
  | nodeRewriteAck (sq : Nat)
  /-- PRUNE_KILL_DELIVERY (R392): A prune kill reaches a core and kills tagged warps. -/
  | pruneKillDelivery (k : Nat) (core : Nat)
  /-- PRUNE_RELEASE_DONE (R389): Kills and releases of a pruned slot complete and the slot becomes free. -/
  | pruneReleaseDone (sq : Nat) (slot : Nat)
  /-- HALLMARK_COPY_COMPLETE (R255): A copy-on-write page copy completes and KVMAP.w returns. -/
  | hallmarkCopyComplete (k : Nat)
  /-- PAGE_FREE (R404): A page with zero count and pins is invalidated and freed. -/
  | pageFree (page : Nat)
  /-- HALLMARK_SCRUB_CHECK (R405): Every PERIOD cycles the scrubber checks one sealed page's CRC. -/
  | hallmarkScrubCheck (die : Nat)
  /-- KVSHOOT_ACK (R258): All translation buffers acknowledge a KVSHOOT invalidation. -/
  | kvshootAck (k : Nat)
  /-- TREE_CMD_OPEN (R387): TREE_CMD OP 1 opens a sequence. -/
  | treeCmdOpen (die : Nat) (sq : Nat)
  /-- TREE_CMD_CLOSE (R387): TREE_CMD OP 2 closes a sequence. -/
  | treeCmdClose (die : Nat) (sq : Nat)
  /-- TREE_CMD_FLATTEN (R387): TREE_CMD OP 3 flattens a sequence. -/
  | treeCmdFlatten (die : Nat) (sq : Nat)
  /-- DOORBELL_TAIL (R315): Host write of TAIL on a queue's doorbell page. -/
  | doorbellTail (q : Nat) (tail : Word)
  /-- DOORBELL_WITHDRAW (R331): WITHDRAW write with CANCEL 0 withdraws unadmitted packets with a tag. -/
  | doorbellWithdraw (q : Nat) (tag : Word)
  /-- DOORBELL_WITHDRAW_CANCEL (R331): WITHDRAW with CANCEL 1 also cancels jobs of admitted tagged launches. -/
  | doorbellWithdrawCancel (q : Nat) (tag : Word)
  /-- DOORBELL_CANCEL (R329): Host CANCEL write cancels the level of a completion record. -/
  | doorbellCancel (q : Nat) (va : Word64)
  /-- QUEUE_MAP (R316): A queue with packets is mapped onto a free active slot. -/
  | queueMap (q : Nat)
  /-- SLICE_EXPIRY (R316): A slot's SLICE elapses and it yields to a waiting queue. -/
  | sliceExpiry (die : Nat) (slot : Nat)
  /-- PACKET_TAKE (R317): A slot takes the packet at HEAD and checks it. -/
  | packetTake (die : Nat) (slot : Nat)
  /-- GANG_ADMISSION (R332): A launch or evicted gang is placed whole onto cores. -/
  | gangAdmission (l : Nat) (place : List Placement)
  /-- START_HOLD_RELEASE (R335): The core's time base reaches START and held warps start. -/
  | startHoldRelease (u : Nat)
  /-- CANDIDATE_BLOCKING (R334): A candidate waits beyond SLICE, becomes blocking and pre-empts lower gangs. -/
  | candidateBlocking (l : Nat)
  /-- GANG_PARKED (R337): Every warp of the gang is parked; transactions doomed, engines stopped. -/
  | gangParked (l : Nat)
  /-- GANG_DRAINED (R337): Path counters drain; images are written and resources released. -/
  | gangDrained (l : Nat)
  /-- PARKLIM_EXPIRY (R337): The park watchdog expires and the gang is killed. -/
  | parklimExpiry (l : Nat)
  /-- RUNLIM_EXPIRY (R337): The run watchdog expires and the launch is killed. -/
  | runlimExpiry (l : Nat)
  /-- UNIT_END (R325): A unit ends once warps, counters and chains are done. -/
  | unitEnd (u : Nat)
  /-- CONTEXT_ID_FREE (R342): Freeing a context ID clears its banks, beads and record cache entries. -/
  | contextIdFree (ctx : Nat)
  /-- FAULT_QUEUE_COPY (R352): A buffer entry is copied to the die's fault queue ring. -/
  | faultQueueCopy (die : Nat)
  /-- DIE_FQACK_RETRY (R353): Driver answers a fault entry with retry. -/
  | dieFqackRetry (die : Nat) (core : Nat) (idx : Nat)
  /-- DIE_FQACK_FAIL (R353): Driver answers a fault entry with fail. -/
  | dieFqackFail (die : Nat) (core : Nat) (idx : Nat)
  /-- TLBI_RANGE (R350): DEV_TLBI_CMD SCOPE 0 invalidates a range of one context. -/
  | tlbiRange (ctx : Nat) (npages : Nat)
  /-- TLBI_CONTEXT (R350): DEV_TLBI_CMD SCOPE 1 invalidates a whole context. -/
  | tlbiContext (ctx : Nat)
  /-- TLBI_ALL (R350): DEV_TLBI_CMD SCOPE 2 invalidates everything. -/
  | tlbiAll
  /-- TLBI_COMPLETE (R350): Users of removed entries drain and BUSY clears. -/
  | tlbiComplete
  /-- MIGRATION_GO (R359): DIE_MIG_CMD GO locks a source page and starts copying. -/
  | migrationGo (die : Nat) (size : Nat)
  /-- MIGRATION_COPY_DONE (R359): The migration copy finishes and STATE becomes 3. -/
  | migrationCopyDone (die : Nat)
  /-- MIGRATION_SWITCH (R360): DIE_MIG_CMD SWITCH replays held writes at DST and unlocks. -/
  | migrationSwitch (die : Nat)
  /-- MIGRATION_ABORT (R360): DIE_MIG_CMD ABORT unlocks and performs held writes at the source. -/
  | migrationAbort (die : Nat)
  /-- NOC_WINDOW_EXPIRY (R361): A load window ends and routing mode may switch. -/
  | nocWindowExpiry (die : Nat) (imbalance : Nat)
  /-- MRED_DESC_VALIDATE (R363): Writing VALID 1 validates a mesh-reduction descriptor. -/
  | mredDescValidate (die : Nat) (n : Nat) (ctl : Word)
  /-- MRED_DESC_INVALIDATE (R363): Writing VALID 0 ends sequences in flight as failures. -/
  | mredDescInvalidate (die : Nat) (n : Nat)
  /-- PEER_LOSS (R368): A peer is silent for LOSTLIM or declared lost; quiesce begins. -/
  | peerLoss (dev : Nat)
  /-- QUIESCE_RECEIVED (R368): A module receives a quiesce, stops admission and holds warps. -/
  | quiesceReceived (dev : Nat)
  /-- QUIESCE_CLEAR (R368): QUIESCED is cleared; held warps and admission resume. -/
  | quiesceClear
  /-- BRIDLE_PORT_FAIL (R431): A port fails training or exceeds its replay limit and is retired. -/
  | bridlePortFail (port : Nat)
  /-- CIRC_QUOTA_INVALIDATE (R381): CIRC_CMD OP 1 drops a context's cached quota map. -/
  | circQuotaInvalidate (ctx : Nat)
  /-- CIRC_CLEAR_BEAD (R383): CIRC_CMD OP 2 makes a bead vacant at its next pass of station 0. -/
  | circClearBead (bead : Nat)
  /-- FAULT_RECORD_POST (R418): A fault record is posted to the context's trap ring. -/
  | faultRecordPost (ctx : Nat)
  /-- HANDLER_LAUNCH_START (R420): The scheduler starts a trap handler launch. -/
  | handlerLaunchStart (ctx : Nat)
  /-- UNCORRECTABLE_ERROR (R428): An uncorrectable ECC error is counted and handled by storage kind. -/
  | uncorrectableError (e : ErrSite)
  /-- CORRECTABLE_ERROR (R428): A correctable error is corrected in place and counted. -/
  | correctableError (e : ErrSite)
  /-- PATROL_SCRUB (R430): Each patrol period the scrubber reads, corrects or poisons lines. -/
  | patrolScrub (die : Nat)
  /-- HOST_BAR4_WRITE (R437): A host write through BAR4 performs at the holder's slice. -/
  | hostBar4Write (off : Nat) (bytes : List Byte)
  /-- HOST_BAR4_READ (R437): A host read through BAR4 combines partials and returns the slice value. -/
  | hostBar4Read (off : Nat) (n : Nat)
  /-- BAR4_RESIZE (R436): The host resizes BAR4, clearing low bits of DEV_HWIN.BASE. -/
  | bar4Resize (log2 : Nat)
  /-- CSR_WRITE (R435): A write to a register without a row of its own. -/
  | csrWrite (off : Nat) (size : Nat) (val : Word64)
  /-- POWER_ON_RESET (R439): Reset clears state and starts the boot ROM at stage 0. -/
  | powerOnReset
  /-- BOOT_STAGE_COMPLETE (R439): A boot stage finishes and the next starts, or recovery is entered. -/
  | bootStageComplete (ok : Bool)
  /-- POWER_OFF (R9): Power-off loses all module-span state except flash images. -/
  | powerOff
  /-- BOOT_COMMIT (R441): DEV_BOOT COMMIT verifies and installs the staged image, then resets. -/
  | bootCommit
  /-- ATTEST_GO (R443): DEV_ATTEST GO starts an attestation report. -/
  | attestGo
  /-- ATTEST_COMPLETE (R443): The signed report is ready, BUSY clears and VEC is sent. -/
  | attestComplete
  /-- THROTTLE_STEP_DOWN (R445): Over 105 C or the power limit, the clock drops by 100 MHz. -/
  | throttleStepDown (thermal : Bool)
  /-- THROTTLE_RECOVERY (R445): The cause clears for 10 ms and the clock rises. -/
  | throttleRecovery
  /-- THERMAL_SHUTDOWN (R445): At 115 C every clock stops until power cycle. -/
  | thermalShutdown
  /-- UNASSIGNED_OPCODE (R54): An instruction word whose opcode is unassigned, such as 0x1F0 to 0x1FF, is reached for execution and faults every thread of the fragment with illegal opcode. -/
  | unassignedOpcode (w : Word)
  deriving DecidableEq, Repr

end Sys2Proof
end

