-- ==== Sys2Proof/Config.lean ====
section
/-! DEFINITION. What an implementation fixes, and the values the spec leaves open: uninterpreted constants without a body, so
that no proof can lean on a value of them. -/
namespace Sys2Proof.Config

/-- The functions whose result bits R95 leaves to the implementation within the bounds of Table 3.8. -/
inductive ApproxFn where
  | rsq | ex2 | lg2 | sin | cos | tanh
  deriving DecidableEq, Repr

/-- The free bits that choose an approximated function's result within its bound, by function, rounding mode and operand (R95): the
same every time. -/
opaque approx : ApproxFn → RMode → Word → Word

/-- A free choice between two behaviours that the spec allows. -/
opaque freeBit : Nat → Bool

/-- A free number: a choice the spec leaves to the implementation among several. -/
opaque freeNat : Nat → Nat

/-- A free byte: contents the spec calls undefined. -/
opaque freeByte : Nat → Byte

/-- The key that die 0's physically unclonable function reproduces (R442). -/
opaque pufKey : List Byte

/-- The secret of a configuration record's body, unsealed under a key (R442). -/
opaque recordSecret : List Byte → List Byte → List Byte

/-- The identity seed that a secret gives (R442). -/
opaque identitySeed : List Byte → List Byte

/-- The Ed25519 private key that an identity seed gives (R442), 32 bytes. -/
opaque ed25519Secret : List Byte → BitVec 256

/-- The ML-DSA-65 key seed that an identity seed gives (R442), 32 bytes. -/
opaque mlDsaSeed : List Byte → BitVec 256

/-- The Ed25519 and the ML-DSA-65 signature of a configuration record's Vexlek certificate (R442). -/
opaque recordCertificate : List Byte → List Byte × List Byte

/-- Vexlek's Ed25519 and ML-DSA-65 public keys, under which a certificate is checked (R442). -/
opaque vexlekKeys : List Byte × List Byte

/-- The bytes of a configuration record, from the image as it was installed and the cores, slices and ports that its retirement map now names
(R431). -/
opaque recordBytes : List Byte → List Nat → List Nat → List Nat → List Byte

/-- The spread of 256-byte blocks over a die's active slices (R354), fixed from the slices retired at power-on: an index among them. -/
opaque sliceSpread : List Nat → Nat → Nat

/-- The root key hash in the boot ROM (R440). -/
opaque rootKeyHash : BitVec 384

/-- The security version floor that a configuration record's body holds for a KIND (R440). -/
opaque recordFloor : List Byte → Nat → Nat

/-- The cores, L2 slices and ports that a configuration record's retirement map names (R432). -/
opaque recordCores : List Byte → List Nat
/-- The L2 slices. -/
opaque recordSlices : List Byte → List Nat
/-- The Bridle ports. -/
opaque recordPorts : List Byte → List Nat

/-- The module serial of a configuration record (Table 17.7). -/
opaque recordSerial : List Byte → BitVec 128

end Sys2Proof.Config
end

