-- ==== Sys2Proof/WellFormed.lean ====
section
/-! DEFINITION. Well-formed instructions: those an encoding can express. -/
namespace Sys2Proof

/-- The assigned opcodes of Table 2.3 (R54). -/
def assignedOpcode (op : Nat) : Bool :=
  (0 ≤ op && op ≤ 61) || (64 ≤ op && op ≤ 73) || (96 ≤ op && op ≤ 120) || (128 ≤ op && op ≤ 151) || (192 ≤ op && op ≤ 207) || (224 ≤ op && op ≤ 243) || (256 ≤ op && op ≤ 261) || (272 ≤ op && op ≤ 290) || (320 ≤ op && op ≤ 340) || (352 ≤ op && op ≤ 395) || (400 ≤ op && op ≤ 427) || (432 ≤ op && op ≤ 444)

/-- What the spec's encodings can express, constructor by constructor: a literal stands only in the default form (R50),
 the short offset 0x40 means a literal (R51), an unassigned word has an unassigned opcode (R54). -/
def Instr.wf : Instr → Bool
  | .addI32 m _ _ b => !b.isLit || decide (m = .wrap)
  | .addI64 m _ _ b => !b.isLit || decide (m = .wrap)
  | .subI32 m _ _ b => !b.isLit || decide (m = .wrap)
  | .subI64 m _ _ b => !b.isLit || decide (m = .wrap)
  | .addiI32 _ _ _ => true
  | .addiI64 _ _ _ => true
  | .mulI32 _ _ _ => true
  | .mulI64 _ _ _ => true
  | .mulhI32 _ _ _ => true
  | .mulhN32 _ _ _ => true
  | .mulhI64 _ _ _ => true
  | .mulhN64 _ _ _ => true
  | .madI32 _ _ _ => true
  | .madI64 _ _ _ => true
  | .addcN32 _ _ _ _ => true
  | .leaN32 _ _ _ _ => true
  | .minI32 _ _ _ => true
  | .minN32 _ _ _ => true
  | .minI64 _ _ _ => true
  | .minN64 _ _ _ => true
  | .maxI32 _ _ _ => true
  | .maxN32 _ _ _ => true
  | .maxI64 _ _ _ => true
  | .maxN64 _ _ _ => true
  | .absI32 _ _ _ => true
  | .absI64 _ _ _ => true
  | .negI32 _ _ _ => true
  | .negI64 _ _ _ => true
  | .isetI32 m _ _ _ b => !b.isLit || decide (m = .set)
  | .isetN32 m _ _ _ b => !b.isLit || decide (m = .set)
  | .isetI64 m _ _ _ b => !b.isLit || decide (m = .set)
  | .isetN64 m _ _ _ b => !b.isLit || decide (m = .set)
  | .andB _ _ _ => true
  | .orB _ _ _ => true
  | .xorB _ _ _ => true
  | .andnB _ _ _ => true
  | .shlB _ _ _ => true
  | .shrB _ _ _ => true
  | .sarB _ _ _ => true
  | .rotlB _ _ _ => true
  | .shliB _ _ _ => true
  | .shriB _ _ _ => true
  | .sariB _ _ _ => true
  | .fshlB _ _ _ => true
  | .bfxN32 _ _ _ => true
  | .bfxI32 _ _ _ => true
  | .bfiB _ _ _ => true
  | .prmtB _ _ _ => true
  | .popcB _ _ => true
  | .clzB _ _ => true
  | .ctzB _ _ => true
  | .brevB _ _ => true
  | .selB _ _ _ _ => true
  | .movB _ _ => true
  | .movBLit _ _ => true
  | .movi _ _ => true
  | .movh _ _ => true
  | .pset _ _ _ _ => true
  | .pmovToReg _ _ => true
  | .pmovToPred _ _ => true
  | .pmovPack _ => true
  | .pmovUnpack _ => true
  | .shlN64 _ _ _ => true
  | .shrN64 _ _ _ => true
  | .sarI64 _ _ _ => true
  | .movN64 _ _ => true
  | .movN64Lit _ _ => true
  | .andN64 _ _ _ => true
  | .orN64 _ _ _ => true
  | .xorN64 _ _ _ => true
  | .andnN64 _ _ _ => true
  | .popcN64 _ _ => true
  | .clzN64 _ _ => true
  | .ctzN64 _ _ => true
  | .brevN64 _ _ => true
  | .selN64 _ _ _ _ => true
  | .leaN64 _ _ _ _ => true
  | .faddF32 _ _ _ _ => true
  | .fmulF32 _ _ _ _ => true
  | .ffmaF32 _ _ _ _ => true
  | .ffmaNpF32 _ _ _ _ => true
  | .ffmaNcF32 _ _ _ _ => true
  | .ffmaNpcF32 _ _ _ _ => true
  | .fminF32 _ _ _ => true
  | .fmaxF32 _ _ _ => true
  | .fsetF32 m _ _ _ b => !b.isLit || decide (m = .set)
  | .fclassF32 _ _ => true
  | .frndF32 _ _ _ => true
  | .frcpF32 _ _ _ => true
  | .frsqF32 _ _ _ => true
  | .fsqrtF32 _ _ _ => true
  | .fex2F32 _ _ _ => true
  | .flg2F32 _ _ _ => true
  | .fsinF32 _ _ _ => true
  | .fcosF32 _ _ _ => true
  | .ftanhF32 _ _ _ => true
  | .hadd2Bf16x2 _ _ _ _ => true
  | .hadd2F16x2 _ _ _ _ => true
  | .hmul2Bf16x2 _ _ _ _ => true
  | .hmul2F16x2 _ _ _ _ => true
  | .hfma2Bf16x2 _ _ _ _ => true
  | .hfma2F16x2 _ _ _ _ => true
  | .fcvtF32F16 _ _ => true
  | .fcvtF32Bf16 _ _ => true
  | .fcvtF16F32 _ _ _ => true
  | .fcvtBf16F32 _ _ _ => true
  | .fcvtF16Bf16 _ _ _ => true
  | .fcvtBf16F16 _ _ _ => true
  | .fcvtF16x2F32 _ _ _ _ => true
  | .fcvtBf16x2F32 _ _ _ _ => true
  | .fcvtF32I32 _ _ _ => true
  | .fcvtF32N32 _ _ _ => true
  | .fcvtF32I64 _ _ _ => true
  | .fcvtF32N64 _ _ _ => true
  | .fcvtI32F32 _ _ _ => true
  | .fcvtN32F32 _ _ _ => true
  | .fcvtI64F32 _ _ _ => true
  | .fcvtN64F32 _ _ _ => true
  | .fcvtI16F32 _ _ _ => true
  | .fcvtN16F32 _ _ _ => true
  | .fcvtI8F32 _ _ _ => true
  | .fcvtN8F32 _ _ _ => true
  | .fcvtF32I16 _ _ => true
  | .fcvtF32N16 _ _ => true
  | .fcvtF32I8 _ _ => true
  | .fcvtF32N8 _ _ => true
  | .ballot _ _ => true
  | .voteEvery _ _ => true
  | .voteSome _ _ => true
  | .voteAgree _ _ => true
  | .shflIdx m _ _ b => !b.isLit || decide (m = .w32)
  | .shflUp m _ _ b => !b.isLit || decide (m = .w32)
  | .shflDown m _ _ b => !b.isLit || decide (m = .w32)
  | .shflXor m _ _ b => !b.isLit || decide (m = .w32)
  | .xchm _ _ _ => true
  | .redwI32 _ _ _ => true
  | .redwN32 _ _ _ => true
  | .redwF32 _ _ _ _ => true
  | .redwB _ _ _ => true
  | .scanwI32 _ _ _ _ => true
  | .scanwN32 _ _ _ _ => true
  | .scanwF32 _ _ _ _ _ => true
  | .bra _ => true
  | .call _ => true
  | .brx _ => true
  | .callx _ _ => true
  | .ret _ => true
  | .join => true
  | .exit => true
  | .yield => true
  | .nop => true
  | .trap _ => true
  | .tfence => true
  | .bkpt _ => true
  | .winb _ => true
  | .wina _ => true
  | .setfmt _ _ => true
  | .srd _ _ => true
  | .swr _ _ => true
  | .waitf _ => true
  | .waitpReg _ _ => true
  | .waitpImm _ _ => true
  | .clkw _ => true
  | .cbndExact _ _ _ => true
  | .cbndRound _ _ _ => true
  | .cbndLit _ _ _ => true
  | .cprm _ _ _ => true
  | .cadd _ _ _ => true
  | .cget _ _ _ => true
  | .ctstTag _ _ => true
  | .ctstSub _ _ _ => true
  | .cdrv _ _ _ => true
  | .ldN8 _ mr => mr.off.wf
  | .ldI8 _ mr => mr.off.wf
  | .ldN16 _ mr => mr.off.wf
  | .ldI16 _ mr => mr.off.wf
  | .ldN32 _ mr => mr.off.wf
  | .ldN64 _ mr => mr.off.wf
  | .ldaN32 _ _ mr => mr.off.wf
  | .ldaN64 _ _ mr => mr.off.wf
  | .stN8 _ mr => mr.off.wf
  | .stN16 _ mr => mr.off.wf
  | .stN32 _ mr => mr.off.wf
  | .stN64 _ mr => mr.off.wf
  | .stlN32 _ _ mr => mr.off.wf
  | .stlN64 _ _ mr => mr.off.wf
  | .ldc _ mr => mr.off.wf
  | .stc _ mr => mr.off.wf
  | .pref _ mr => mr.off.wf
  | .cwb _ mr => mr.off.wf
  | .cinv mr => mr.off.wf
  | .atomAddN32 _ _ mr => mr.off.wf
  | .atomAddN64 _ _ mr => mr.off.wf
  | .atomAddF32 _ _ mr => mr.off.wf
  | .atomMinI32 _ _ mr => mr.off.wf
  | .atomMinN32 _ _ mr => mr.off.wf
  | .atomMinI64 _ _ mr => mr.off.wf
  | .atomMinN64 _ _ mr => mr.off.wf
  | .atomMaxI32 _ _ mr => mr.off.wf
  | .atomMaxN32 _ _ mr => mr.off.wf
  | .atomMaxI64 _ _ mr => mr.off.wf
  | .atomMaxN64 _ _ mr => mr.off.wf
  | .atomAndN32 _ _ mr => mr.off.wf
  | .atomAndN64 _ _ mr => mr.off.wf
  | .atomOrN32 _ _ mr => mr.off.wf
  | .atomOrN64 _ _ mr => mr.off.wf
  | .atomXorN32 _ _ mr => mr.off.wf
  | .atomXorN64 _ _ mr => mr.off.wf
  | .atomExchN32 _ _ mr => mr.off.wf
  | .atomExchN64 _ _ mr => mr.off.wf
  | .atomCasN32 _ _ mr => mr.off.wf
  | .atomCasN64 _ _ mr => mr.off.wf
  | .redAddN32 _ _ mr => mr.off.wf
  | .redAddN64 _ _ mr => mr.off.wf
  | .redAddF32 _ _ mr => mr.off.wf
  | .redMinI32 _ _ mr => mr.off.wf
  | .redMinN32 _ _ mr => mr.off.wf
  | .redMinI64 _ _ mr => mr.off.wf
  | .redMinN64 _ _ mr => mr.off.wf
  | .redMaxI32 _ _ mr => mr.off.wf
  | .redMaxN32 _ _ mr => mr.off.wf
  | .redMaxI64 _ _ mr => mr.off.wf
  | .redMaxN64 _ _ mr => mr.off.wf
  | .redAndN32 _ _ mr => mr.off.wf
  | .redAndN64 _ _ mr => mr.off.wf
  | .redOrN32 _ _ mr => mr.off.wf
  | .redOrN64 _ _ mr => mr.off.wf
  | .redXorN32 _ _ mr => mr.off.wf
  | .redXorN64 _ _ mr => mr.off.wf
  | .fence _ _ => true
  | .xfence _ _ _ => true
  | .tbegin => true
  | .tend _ => true
  | .tabort _ => true
  | .tstat _ => true
  | .barinit _ _ => true
  | .bararr _ _ _ => true
  | .bararrNobytes _ _ => true
  | .bararrLit _ _ _ => true
  | .barwait _ _ _ => true
  | .bartst _ _ _ => true
  | .bardrop _ => true
  | .barinv _ => true
  | .barinvFree _ => true
  | .barexp _ _ => true
  | .barexpLit _ _ => true
  | .mred _ _ _ _ => true
  | .mrwait _ _ => true
  | .board _ _ _ => true
  | .alight _ _ => true
  | .bcapAdd _ _ _ => true
  | .bcapMin _ _ _ _ => true
  | .bcapMax _ _ _ _ => true
  | .bcapAnd _ _ _ => true
  | .bcapOr _ _ _ => true
  | .bcapSwap _ _ _ => true
  | .bcapCas _ _ _ => true
  | .bcapFadd _ _ _ => true
  | .bread _ _ => true
  | .bpass _ => true
  | .mmaBf16 _ _ _ _ => true
  | .mmaF16 _ _ _ _ => true
  | .mmaF32 _ _ _ _ => true
  | .mmaK4 _ _ _ _ => true
  | .mmaI8 _ _ _ _ => true
  | .mmabXor _ _ _ _ => true
  | .mmabAnd _ _ _ _ => true
  | .accz => true
  | .acczAll => true
  | .accldF32 _ => true
  | .accstF32 _ => true
  | .accsv _ => true
  | .accrs _ => true
  | .accmx _ _ _ => true
  | .accexs _ _ _ => true
  | .accmsk => true
  | .cbld _ _ => true
  | .accldBf16 _ => true
  | .accldF16 _ => true
  | .accstBf16 _ => true
  | .accstF16 _ => true
  | .accstI8 _ _ => true
  | .xtile _ _ => true
  | .xtileCo _ _ _ => true
  | .xstrm _ _ => true
  | .xstrmCo _ _ _ => true
  | .xchain _ _ _ => true
  | .xstat _ _ _ => true
  | .xstop _ => true
  | .chkt _ _ _ => true
  | .chkw _ _ => true
  | .nfork _ _ => true
  | .nprune _ _ => true
  | .ncommit _ _ _ => true
  | .nquery _ _ _ => true
  | .ntag _ => true
  | .ntagClr => true
  | .maskg _ _ _ => true
  | .kvmap _ _ _ _ => true
  | .kvref _ _ _ => true
  | .kvrel _ _ _ => true
  | .kvshoot _ _ => true
  | .lnch _ _ _ => true
  | .lcancel _ _ => true
  | .ljoin _ _ => true
  | .repairResume _ => true
  | .repairKill _ => true
  | .repairSplit _ => true
  | .repairFuse _ => true
  | .repairKillwarp _ => true
  | .clauseStart _ _ => true
  | .fragmentWake _ => true
  | .deadFragmentFree _ => true
  | .memoryOpComplete _ _ => true
  | .sliceAccess _ _ _ => true
  | .solitaryGrant => true
  | .peerPacketArrival _ => true
  | .peerAck _ _ _ _ _ => true
  | .matrixKStep _ _ => true
  | .engineQueueOp _ _ => true
  | .transferRecordFetch _ _ => true
  | .chunkComplete _ _ _ => true
  | .chainRecordStep _ _ => true
  | .meshReductionInput _ _ _ _ _ => true
  | .meshReductionTimeout _ _ _ _ => true
  | .meshReductionResult _ _ _ _ => true
  | .beadPass _ _ => true
  | .boardMarkReply _ => true
  | .alightHomeWrite _ => true
  | .treeCommandArrival _ => true
  | .nodeRewriteAck _ => true
  | .pruneKillDelivery _ _ => true
  | .pruneReleaseDone _ _ => true
  | .hallmarkCopyComplete _ => true
  | .pageFree _ => true
  | .hallmarkScrubCheck _ => true
  | .kvshootAck _ => true
  | .treeCmdOpen _ _ => true
  | .treeCmdClose _ _ => true
  | .treeCmdFlatten _ _ => true
  | .doorbellTail _ _ => true
  | .doorbellWithdraw _ _ => true
  | .doorbellWithdrawCancel _ _ => true
  | .doorbellCancel _ _ => true
  | .queueMap _ => true
  | .sliceExpiry _ _ => true
  | .packetTake _ _ => true
  | .gangAdmission _ _ => true
  | .startHoldRelease _ => true
  | .candidateBlocking _ => true
  | .gangParked _ => true
  | .gangDrained _ => true
  | .parklimExpiry _ => true
  | .runlimExpiry _ => true
  | .unitEnd _ => true
  | .contextIdFree _ => true
  | .faultQueueCopy _ => true
  | .dieFqackRetry _ _ _ => true
  | .dieFqackFail _ _ _ => true
  | .tlbiRange _ _ => true
  | .tlbiContext _ => true
  | .tlbiAll => true
  | .tlbiComplete => true
  | .migrationGo _ _ => true
  | .migrationCopyDone _ => true
  | .migrationSwitch _ => true
  | .migrationAbort _ => true
  | .nocWindowExpiry _ _ => true
  | .mredDescValidate _ _ _ => true
  | .mredDescInvalidate _ _ => true
  | .peerLoss _ => true
  | .quiesceReceived _ => true
  | .quiesceClear => true
  | .bridlePortFail _ => true
  | .circQuotaInvalidate _ => true
  | .circClearBead _ => true
  | .faultRecordPost _ => true
  | .handlerLaunchStart _ => true
  | .uncorrectableError _ => true
  | .correctableError _ => true
  | .patrolScrub _ => true
  | .hostBar4Write _ _ => true
  | .hostBar4Read _ _ => true
  | .bar4Resize _ => true
  | .csrWrite _ _ _ => true
  | .powerOnReset => true
  | .bootStageComplete _ => true
  | .powerOff => true
  | .bootCommit => true
  | .attestGo => true
  | .attestComplete => true
  | .throttleStepDown _ => true
  | .throttleRecovery => true
  | .thermalShutdown => true
  | .unassignedOpcode w => !assignedOpcode (w.toNat / 8388608)

end Sys2Proof
end

