-- ==== Sys2Proof/Decode.lean ====
section
/-! DEFINITION. Decoding instruction words (R48 to R54), total on any bytes and rejecting by name; the classes of opcodes that
pre-decode uses (R43, R45, R52); and after it the encoder, written from the same tables. -/
namespace Sys2Proof

/-- Why a word is no instruction: the faults of R53 steps 2 and 3, or bytes that end before the word does. -/
inductive Reject where
  | illegalOpcode
  | illegalModifier
  | short
  deriving DecidableEq, Repr

/-- The code of a `RMode`. -/
def RMode.code : RMode → Nat
  | .rn => 0
  | .rz => 1
  | .ru => 2
  | .rd => 3

/-- The `RMode` of a code. -/
def RMode.ofCode : Nat → RMode
  | 1 => .rz
  | 2 => .ru
  | 3 => .rd
  | _ => .rn

/-- The code of a `SatMode`. -/
def SatMode.code : SatMode → Nat
  | .wrap => 0
  | .satI => 1
  | .satN => 2

/-- The `SatMode` of a code. -/
def SatMode.ofCode : Nat → SatMode
  | 1 => .satI
  | 2 => .satN
  | _ => .wrap

/-- The code of a `PredMode`. -/
def PredMode.code : PredMode → Nat
  | .set => 0
  | .and => 1
  | .or => 2

/-- The `PredMode` of a code. -/
def PredMode.ofCode : Nat → PredMode
  | 1 => .and
  | 2 => .or
  | _ => .set

/-- The code of a `PsetOp`. -/
def PsetOp.code : PsetOp → Nat
  | .and => 0
  | .or => 1
  | .xor => 2

/-- The `PsetOp` of a code. -/
def PsetOp.ofCode : Nat → PsetOp
  | 1 => .or
  | 2 => .xor
  | _ => .and

/-- The code of a `ShflWidth`. -/
def ShflWidth.code : ShflWidth → Nat
  | .w32 => 0
  | .w16 => 1
  | .w8 => 2

/-- The `ShflWidth` of a code. -/
def ShflWidth.ofCode : Nat → ShflWidth
  | 1 => .w16
  | 2 => .w8
  | _ => .w32

/-- The code of a `FenceKind`. -/
def FenceKind.code : FenceKind → Nat
  | .full => 0
  | .acq => 1
  | .rel => 2

/-- The `FenceKind` of a code. -/
def FenceKind.ofCode : Nat → FenceKind
  | 1 => .acq
  | 2 => .rel
  | _ => .full

/-- The code of a `ICmp`. -/
def ICmp.code : ICmp → Nat
  | .eq => 0
  | .ne => 1
  | .lt => 2
  | .le => 3
  | .gt => 4
  | .ge => 5

/-- The `ICmp` of a code. -/
def ICmp.ofCode : Nat → ICmp
  | 1 => .ne
  | 2 => .lt
  | 3 => .le
  | 4 => .gt
  | 5 => .ge
  | _ => .eq

/-- The code of a `FCmp`. -/
def FCmp.code : FCmp → Nat
  | .eq => 0
  | .ne => 1
  | .lt => 2
  | .le => 3
  | .gt => 4
  | .ge => 5
  | .un => 6
  | .ord => 7

/-- The `FCmp` of a code. -/
def FCmp.ofCode : Nat → FCmp
  | 1 => .ne
  | 2 => .lt
  | 3 => .le
  | 4 => .gt
  | 5 => .ge
  | 6 => .un
  | 7 => .ord
  | _ => .eq

/-- The code of a `Scope`. -/
def Scope.code : Scope → Nat
  | .thread => 0
  | .warp => 1
  | .unit => 2
  | .cluster => 3
  | .die => 4
  | .dev => 5
  | .part => 6
  | .sys => 7

/-- The `Scope` of a code. -/
def Scope.ofCode : Nat → Scope
  | 1 => .warp
  | 2 => .unit
  | 3 => .cluster
  | 4 => .die
  | 5 => .dev
  | 6 => .part
  | 7 => .sys
  | _ => .thread

/-- The code of a `PathId`. -/
def PathId.code : PathId → Nat
  | .ls => 0
  | .xe => 1
  | .mx => 2
  | .rg => 3
  | .mr => 4
  | .tr => 5

/-- The `PathId` of a code. -/
def PathId.ofCode : Nat → PathId
  | 1 => .xe
  | 2 => .mx
  | 3 => .rg
  | 4 => .mr
  | 5 => .tr
  | _ => .ls

/-- The code of a `FoldOp`. -/
def FoldOp.code : FoldOp → Nat
  | .add => 0
  | .min => 1
  | .max => 2

/-- The `FoldOp` of a code. -/
def FoldOp.ofCode : Nat → FoldOp
  | 1 => .min
  | 2 => .max
  | _ => .add

/-- The code of a `BitOp`. -/
def BitOp.code : BitOp → Nat
  | .and => 0
  | .or => 1
  | .xor => 2

/-- The `BitOp` of a code. -/
def BitOp.ofCode : Nat → BitOp
  | 1 => .or
  | 2 => .xor
  | _ => .and

/-- The code of a `MredTy`. -/
def MredTy.code : MredTy → Nat
  | .f32 => 0
  | .i32 => 1
  | .n32 => 2

/-- The `MredTy` of a code. -/
def MredTy.ofCode : Nat → MredTy
  | 1 => .i32
  | 2 => .n32
  | _ => .f32

/-- The code of a `CgetSel`. -/
def CgetSel.code : CgetSel → Nat
  | .base => 0
  | .top => 1
  | .len => 2
  | .cur => 3
  | .perm => 4
  | .space => 5
  | .off => 6

/-- The `CgetSel` of a code. -/
def CgetSel.ofCode : Nat → CgetSel
  | 1 => .top
  | 2 => .len
  | 3 => .cur
  | 4 => .perm
  | 5 => .space
  | 6 => .off
  | _ => .base

/-- The code of a `FmtMode`. -/
def FmtMode.code : FmtMode → Nat
  | .set => 0
  | .or => 1
  | .clr => 2

/-- The `FmtMode` of a code. -/
def FmtMode.ofCode : Nat → FmtMode
  | 1 => .or
  | 2 => .clr
  | _ => .set

/-- A source predicate field (R99). -/
def PredSrc.code (s : PredSrc) : Nat := 8 * s.neg.toNat + s.p.toNat

/-- A source predicate field (R99). -/
def PredSrc.ofCode (n : Nat) : PredSrc := ⟨BitVec.ofNat 3 (n % 8), decide (n / 8 % 2 = 1)⟩

/-- Field b of a word that allows a literal: zero in the literal form (R50). -/
def Opd.regCode : Opd → Nat
  | .reg r => r.toNat
  | .lit _ => 0

/-- md of a word whose only forms are the default and the literal one (R50). -/
def Opd.litMd : Opd → Nat
  | .reg _ => 0
  | .lit _ => 3

/-- The literal that follows, if any (R52). -/
def Opd.litWords : Opd → List Nat
  | .reg _ => []
  | .lit w => [w.toNat]

/-- The b operand from md, field b and the word that follows (R50). -/
def Opd.ofCode (m b lit : Nat) : Opd := if m = 3 then .lit (BitVec.ofNat 32 lit) else .reg (BitVec.ofNat 7 b)

/-- Field b of an RM word (R51). -/
def MemOff.bCode : MemOff → Nat
  | .reg r => r.toNat
  | .short i => i.toNat
  | .lit _ => 64

/-- Field x of an RM word (R51). -/
def MemOff.xCode : MemOff → Nat
  | .reg _ => 0
  | .short _ => 1
  | .lit _ => 1

/-- The literal offset that follows, if any (R51). -/
def MemOff.litWords : MemOff → List Nat
  | .lit w => [w.toNat]
  | _ => []

/-- The memory operand of an RM word (R51). -/
def MemRef.ofCode (c b x lit : Nat) : MemRef :=
  ⟨BitVec.ofNat 5 c,
   if x = 0 then .reg (BitVec.ofNat 7 b)
   else if b = 64 then .lit (BitVec.ofNat 32 lit)
   else .short (BitVec.ofNat 7 b)⟩

/-- The order of R53: a non-zero unused field before an undefined modifier. -/
def fin (z g : Prop) [Decidable z] [Decidable g] (i : Instr) : Except Reject Instr :=
  if z then (if g then .ok i else .error .illegalModifier) else .error .illegalOpcode

def rrrM (w : Nat) : Nat := w / 2097152 % 4
def rrrD (w : Nat) : Nat := w / 16384 % 128
def rrrA (w : Nat) : Nat := w / 128 % 128
def rrrB (w : Nat) : Nat := w % 128
def riD (w : Nat) : Nat := w / 65536 % 128
def riA (w : Nat) : Nat := w / 512 % 128
def riI (w : Nat) : Nat := w % 512
def rwI (w : Nat) : Nat := w % 65536
def rmSc (w : Nat) : Nat := w / 1048576 % 8
def rmD (w : Nat) : Nat := w / 8192 % 128
def rmC (w : Nat) : Nat := w / 256 % 32
def rmB (w : Nat) : Nat := w / 2 % 128
def rmX (w : Nat) : Nat := w % 2

/-- Opcodes 0x000 to 0x00F of Table 2.3. -/
noncomputable def decodeRow00 (low w lit : Nat) : Except Reject Instr :=
  match low with
  | 0 => fin (((rrrM w) ≠ 3 ∨ (rrrB w) = 0)) (True) (.addI32 (SatMode.ofCode (rrrM w)) (BitVec.ofNat 7 (rrrD w)) (BitVec.ofNat 7 (rrrA w)) (Opd.ofCode (rrrM w) (rrrB w) lit))
  | 1 => fin (((rrrM w) ≠ 3 ∨ (rrrB w) = 0)) (True) (.addI64 (SatMode.ofCode (rrrM w)) (BitVec.ofNat 7 (rrrD w)) (BitVec.ofNat 7 (rrrA w)) (Opd.ofCode (rrrM w) (rrrB w) lit))
  | 2 => fin (((rrrM w) ≠ 3 ∨ (rrrB w) = 0)) (True) (.subI32 (SatMode.ofCode (rrrM w)) (BitVec.ofNat 7 (rrrD w)) (BitVec.ofNat 7 (rrrA w)) (Opd.ofCode (rrrM w) (rrrB w) lit))
  | 3 => fin (((rrrM w) ≠ 3 ∨ (rrrB w) = 0)) (True) (.subI64 (SatMode.ofCode (rrrM w)) (BitVec.ofNat 7 (rrrD w)) (BitVec.ofNat 7 (rrrA w)) (Opd.ofCode (rrrM w) (rrrB w) lit))
  | 4 => .ok (.addiI32 (BitVec.ofNat 7 (riD w)) (BitVec.ofNat 7 (riA w)) (BitVec.ofNat 9 (riI w)))
  | 5 => .ok (.addiI64 (BitVec.ofNat 7 (riD w)) (BitVec.ofNat 7 (riA w)) (BitVec.ofNat 9 (riI w)))
  | 6 => fin (((rrrM w) ≠ 3 ∨ (rrrB w) = 0)) (((rrrM w) = 0 ∨ (rrrM w) = 3)) (.mulI32 (BitVec.ofNat 7 (rrrD w)) (BitVec.ofNat 7 (rrrA w)) (Opd.ofCode (rrrM w) (rrrB w) lit))
  | 7 => fin (((rrrM w) ≠ 3 ∨ (rrrB w) = 0)) (((rrrM w) = 0 ∨ (rrrM w) = 3)) (.mulI64 (BitVec.ofNat 7 (rrrD w)) (BitVec.ofNat 7 (rrrA w)) (Opd.ofCode (rrrM w) (rrrB w) lit))
  | 8 => fin (((rrrM w) ≠ 3 ∨ (rrrB w) = 0)) (((rrrM w) = 0 ∨ (rrrM w) = 3)) (.mulhI32 (BitVec.ofNat 7 (rrrD w)) (BitVec.ofNat 7 (rrrA w)) (Opd.ofCode (rrrM w) (rrrB w) lit))
  | 9 => fin (((rrrM w) ≠ 3 ∨ (rrrB w) = 0)) (((rrrM w) = 0 ∨ (rrrM w) = 3)) (.mulhN32 (BitVec.ofNat 7 (rrrD w)) (BitVec.ofNat 7 (rrrA w)) (Opd.ofCode (rrrM w) (rrrB w) lit))
  | 10 => fin (((rrrM w) ≠ 3 ∨ (rrrB w) = 0)) (((rrrM w) = 0 ∨ (rrrM w) = 3)) (.mulhI64 (BitVec.ofNat 7 (rrrD w)) (BitVec.ofNat 7 (rrrA w)) (Opd.ofCode (rrrM w) (rrrB w) lit))
  | 11 => fin (((rrrM w) ≠ 3 ∨ (rrrB w) = 0)) (((rrrM w) = 0 ∨ (rrrM w) = 3)) (.mulhN64 (BitVec.ofNat 7 (rrrD w)) (BitVec.ofNat 7 (rrrA w)) (Opd.ofCode (rrrM w) (rrrB w) lit))
  | 12 => fin (((rrrM w) ≠ 3 ∨ (rrrB w) = 0)) (((rrrM w) = 0 ∨ (rrrM w) = 3)) (.madI32 (BitVec.ofNat 7 (rrrD w)) (BitVec.ofNat 7 (rrrA w)) (Opd.ofCode (rrrM w) (rrrB w) lit))
  | 13 => fin (((rrrM w) ≠ 3 ∨ (rrrB w) = 0)) (((rrrM w) = 0 ∨ (rrrM w) = 3)) (.madI64 (BitVec.ofNat 7 (rrrD w)) (BitVec.ofNat 7 (rrrA w)) (Opd.ofCode (rrrM w) (rrrB w) lit))
  | 14 => .ok (.addcN32 (BitVec.ofNat 2 (rrrM w)) (BitVec.ofNat 7 (rrrD w)) (BitVec.ofNat 7 (rrrA w)) (BitVec.ofNat 7 (rrrB w)))
  | 15 => .ok (.leaN32 (BitVec.ofNat 2 (rrrM w)) (BitVec.ofNat 7 (rrrD w)) (BitVec.ofNat 7 (rrrA w)) (BitVec.ofNat 7 (rrrB w)))
  | _ => .ok (.unassignedOpcode (BitVec.ofNat 32 w))

/-- Opcodes 0x010 to 0x01F of Table 2.3. -/
noncomputable def decodeRow01 (low w lit : Nat) : Except Reject Instr :=
  match low with
  | 0 => fin (((rrrM w) ≠ 3 ∨ (rrrB w) = 0)) (((rrrM w) = 0 ∨ (rrrM w) = 3)) (.minI32 (BitVec.ofNat 7 (rrrD w)) (BitVec.ofNat 7 (rrrA w)) (Opd.ofCode (rrrM w) (rrrB w) lit))
  | 1 => fin (((rrrM w) ≠ 3 ∨ (rrrB w) = 0)) (((rrrM w) = 0 ∨ (rrrM w) = 3)) (.minN32 (BitVec.ofNat 7 (rrrD w)) (BitVec.ofNat 7 (rrrA w)) (Opd.ofCode (rrrM w) (rrrB w) lit))
  | 2 => fin (((rrrM w) ≠ 3 ∨ (rrrB w) = 0)) (((rrrM w) = 0 ∨ (rrrM w) = 3)) (.minI64 (BitVec.ofNat 7 (rrrD w)) (BitVec.ofNat 7 (rrrA w)) (Opd.ofCode (rrrM w) (rrrB w) lit))
  | 3 => fin (((rrrM w) ≠ 3 ∨ (rrrB w) = 0)) (((rrrM w) = 0 ∨ (rrrM w) = 3)) (.minN64 (BitVec.ofNat 7 (rrrD w)) (BitVec.ofNat 7 (rrrA w)) (Opd.ofCode (rrrM w) (rrrB w) lit))
  | 4 => fin (((rrrM w) ≠ 3 ∨ (rrrB w) = 0)) (((rrrM w) = 0 ∨ (rrrM w) = 3)) (.maxI32 (BitVec.ofNat 7 (rrrD w)) (BitVec.ofNat 7 (rrrA w)) (Opd.ofCode (rrrM w) (rrrB w) lit))
  | 5 => fin (((rrrM w) ≠ 3 ∨ (rrrB w) = 0)) (((rrrM w) = 0 ∨ (rrrM w) = 3)) (.maxN32 (BitVec.ofNat 7 (rrrD w)) (BitVec.ofNat 7 (rrrA w)) (Opd.ofCode (rrrM w) (rrrB w) lit))
  | 6 => fin (((rrrM w) ≠ 3 ∨ (rrrB w) = 0)) (((rrrM w) = 0 ∨ (rrrM w) = 3)) (.maxI64 (BitVec.ofNat 7 (rrrD w)) (BitVec.ofNat 7 (rrrA w)) (Opd.ofCode (rrrM w) (rrrB w) lit))
  | 7 => fin (((rrrM w) ≠ 3 ∨ (rrrB w) = 0)) (((rrrM w) = 0 ∨ (rrrM w) = 3)) (.maxN64 (BitVec.ofNat 7 (rrrD w)) (BitVec.ofNat 7 (rrrA w)) (Opd.ofCode (rrrM w) (rrrB w) lit))
  | 8 => fin ((rrrB w) = 0) ((rrrM w) < 2) (.absI32 ((decide ((rrrM w) = 1))) (BitVec.ofNat 7 (rrrD w)) (BitVec.ofNat 7 (rrrA w)))
  | 9 => fin ((rrrB w) = 0) ((rrrM w) < 2) (.absI64 ((decide ((rrrM w) = 1))) (BitVec.ofNat 7 (rrrD w)) (BitVec.ofNat 7 (rrrA w)))
  | 10 => fin ((rrrB w) = 0) ((rrrM w) < 2) (.negI32 ((decide ((rrrM w) = 1))) (BitVec.ofNat 7 (rrrD w)) (BitVec.ofNat 7 (rrrA w)))
  | 11 => fin ((rrrB w) = 0) ((rrrM w) < 2) (.negI64 ((decide ((rrrM w) = 1))) (BitVec.ofNat 7 (rrrD w)) (BitVec.ofNat 7 (rrrA w)))
  | 12 => fin ((rrrD w) / 8 % 2 = 0 ∧ ((rrrM w) ≠ 3 ∨ (rrrB w) = 0)) ((rrrD w) / 16 < 6) (.isetI32 (PredMode.ofCode (rrrM w)) (BitVec.ofNat 3 ((rrrD w) % 8)) (ICmp.ofCode ((rrrD w) / 16)) (BitVec.ofNat 7 (rrrA w)) (Opd.ofCode (rrrM w) (rrrB w) lit))
  | 13 => fin ((rrrD w) / 8 % 2 = 0 ∧ ((rrrM w) ≠ 3 ∨ (rrrB w) = 0)) ((rrrD w) / 16 < 6) (.isetN32 (PredMode.ofCode (rrrM w)) (BitVec.ofNat 3 ((rrrD w) % 8)) (ICmp.ofCode ((rrrD w) / 16)) (BitVec.ofNat 7 (rrrA w)) (Opd.ofCode (rrrM w) (rrrB w) lit))
  | 14 => fin ((rrrD w) / 8 % 2 = 0 ∧ ((rrrM w) ≠ 3 ∨ (rrrB w) = 0)) ((rrrD w) / 16 < 6) (.isetI64 (PredMode.ofCode (rrrM w)) (BitVec.ofNat 3 ((rrrD w) % 8)) (ICmp.ofCode ((rrrD w) / 16)) (BitVec.ofNat 7 (rrrA w)) (Opd.ofCode (rrrM w) (rrrB w) lit))
  | 15 => fin ((rrrD w) / 8 % 2 = 0 ∧ ((rrrM w) ≠ 3 ∨ (rrrB w) = 0)) ((rrrD w) / 16 < 6) (.isetN64 (PredMode.ofCode (rrrM w)) (BitVec.ofNat 3 ((rrrD w) % 8)) (ICmp.ofCode ((rrrD w) / 16)) (BitVec.ofNat 7 (rrrA w)) (Opd.ofCode (rrrM w) (rrrB w) lit))
  | _ => .ok (.unassignedOpcode (BitVec.ofNat 32 w))

/-- Opcodes 0x020 to 0x02F of Table 2.3. -/
noncomputable def decodeRow02 (low w lit : Nat) : Except Reject Instr :=
  match low with
  | 0 => fin (((rrrM w) ≠ 3 ∨ (rrrB w) = 0)) (((rrrM w) = 0 ∨ (rrrM w) = 3)) (.andB (BitVec.ofNat 7 (rrrD w)) (BitVec.ofNat 7 (rrrA w)) (Opd.ofCode (rrrM w) (rrrB w) lit))
  | 1 => fin (((rrrM w) ≠ 3 ∨ (rrrB w) = 0)) (((rrrM w) = 0 ∨ (rrrM w) = 3)) (.orB (BitVec.ofNat 7 (rrrD w)) (BitVec.ofNat 7 (rrrA w)) (Opd.ofCode (rrrM w) (rrrB w) lit))
  | 2 => fin (((rrrM w) ≠ 3 ∨ (rrrB w) = 0)) (((rrrM w) = 0 ∨ (rrrM w) = 3)) (.xorB (BitVec.ofNat 7 (rrrD w)) (BitVec.ofNat 7 (rrrA w)) (Opd.ofCode (rrrM w) (rrrB w) lit))
  | 3 => fin (((rrrM w) ≠ 3 ∨ (rrrB w) = 0)) (((rrrM w) = 0 ∨ (rrrM w) = 3)) (.andnB (BitVec.ofNat 7 (rrrD w)) (BitVec.ofNat 7 (rrrA w)) (Opd.ofCode (rrrM w) (rrrB w) lit))
  | 4 => fin (((rrrM w) ≠ 3 ∨ (rrrB w) = 0)) (((rrrM w) = 0 ∨ (rrrM w) = 3)) (.shlB (BitVec.ofNat 7 (rrrD w)) (BitVec.ofNat 7 (rrrA w)) (Opd.ofCode (rrrM w) (rrrB w) lit))
  | 5 => fin (((rrrM w) ≠ 3 ∨ (rrrB w) = 0)) (((rrrM w) = 0 ∨ (rrrM w) = 3)) (.shrB (BitVec.ofNat 7 (rrrD w)) (BitVec.ofNat 7 (rrrA w)) (Opd.ofCode (rrrM w) (rrrB w) lit))
  | 6 => fin (((rrrM w) ≠ 3 ∨ (rrrB w) = 0)) (((rrrM w) = 0 ∨ (rrrM w) = 3)) (.sarB (BitVec.ofNat 7 (rrrD w)) (BitVec.ofNat 7 (rrrA w)) (Opd.ofCode (rrrM w) (rrrB w) lit))
  | 7 => fin (((rrrM w) ≠ 3 ∨ (rrrB w) = 0)) (((rrrM w) = 0 ∨ (rrrM w) = 3)) (.rotlB (BitVec.ofNat 7 (rrrD w)) (BitVec.ofNat 7 (rrrA w)) (Opd.ofCode (rrrM w) (rrrB w) lit))
  | 8 => fin ((riI w) < 32) (True) (.shliB (BitVec.ofNat 7 (riD w)) (BitVec.ofNat 7 (riA w)) (BitVec.ofNat 5 (riI w)))
  | 9 => fin ((riI w) < 32) (True) (.shriB (BitVec.ofNat 7 (riD w)) (BitVec.ofNat 7 (riA w)) (BitVec.ofNat 5 (riI w)))
  | 10 => fin ((riI w) < 32) (True) (.sariB (BitVec.ofNat 7 (riD w)) (BitVec.ofNat 7 (riA w)) (BitVec.ofNat 5 (riI w)))
  | 11 => fin (((rrrM w) ≠ 3 ∨ (rrrB w) = 0)) (((rrrM w) = 0 ∨ (rrrM w) = 3)) (.fshlB (BitVec.ofNat 7 (rrrD w)) (BitVec.ofNat 7 (rrrA w)) (Opd.ofCode (rrrM w) (rrrB w) lit))
  | 12 => fin (((rrrM w) ≠ 3 ∨ (rrrB w) = 0)) (((rrrM w) = 0 ∨ (rrrM w) = 3)) (.bfxN32 (BitVec.ofNat 7 (rrrD w)) (BitVec.ofNat 7 (rrrA w)) (Opd.ofCode (rrrM w) (rrrB w) lit))
  | 13 => fin (((rrrM w) ≠ 3 ∨ (rrrB w) = 0)) (((rrrM w) = 0 ∨ (rrrM w) = 3)) (.bfxI32 (BitVec.ofNat 7 (rrrD w)) (BitVec.ofNat 7 (rrrA w)) (Opd.ofCode (rrrM w) (rrrB w) lit))
  | 14 => fin (((rrrM w) ≠ 3 ∨ (rrrB w) = 0)) (((rrrM w) = 0 ∨ (rrrM w) = 3)) (.bfiB (BitVec.ofNat 7 (rrrD w)) (BitVec.ofNat 7 (rrrA w)) (Opd.ofCode (rrrM w) (rrrB w) lit))
  | 15 => fin (((rrrM w) ≠ 3 ∨ (rrrB w) = 0)) (((rrrM w) = 0 ∨ (rrrM w) = 3)) (.prmtB (BitVec.ofNat 7 (rrrD w)) (BitVec.ofNat 7 (rrrA w)) (Opd.ofCode (rrrM w) (rrrB w) lit))
  | _ => .ok (.unassignedOpcode (BitVec.ofNat 32 w))

/-- Opcodes 0x030 to 0x03F of Table 2.3. -/
noncomputable def decodeRow03 (low w lit : Nat) : Except Reject Instr :=
  match low with
  | 0 => fin ((rrrB w) = 0) ((rrrM w) = 0) (.popcB (BitVec.ofNat 7 (rrrD w)) (BitVec.ofNat 7 (rrrA w)))
  | 1 => fin ((rrrB w) = 0) ((rrrM w) = 0) (.clzB (BitVec.ofNat 7 (rrrD w)) (BitVec.ofNat 7 (rrrA w)))
  | 2 => fin ((rrrB w) = 0) ((rrrM w) = 0) (.ctzB (BitVec.ofNat 7 (rrrD w)) (BitVec.ofNat 7 (rrrA w)))
  | 3 => fin ((rrrB w) = 0) ((rrrM w) = 0) (.brevB (BitVec.ofNat 7 (rrrD w)) (BitVec.ofNat 7 (rrrA w)))
  | 4 => .ok (.selB (BitVec.ofNat 2 (rrrM w)) (BitVec.ofNat 7 (rrrD w)) (BitVec.ofNat 7 (rrrA w)) (BitVec.ofNat 7 (rrrB w)))
  | 5 => if (rrrM w) = 0 then fin ((rrrB w) = 0) (True) (.movB (BitVec.ofNat 7 (rrrD w)) (BitVec.ofNat 7 (rrrA w))) else if (rrrM w) = 3 then fin ((rrrA w) = 0 ∧ (rrrB w) = 0) (True) (.movBLit (BitVec.ofNat 7 (rrrD w)) (BitVec.ofNat 32 lit)) else fin ((rrrB w) = 0) False .nop
  | 6 => .ok (.movi (BitVec.ofNat 7 (riD w)) (BitVec.ofNat 16 (rwI w)))
  | 7 => .ok (.movh (BitVec.ofNat 7 (riD w)) (BitVec.ofNat 16 (rwI w)))
  | 8 => fin ((rrrD w) < 8 ∧ (rrrA w) < 16 ∧ (rrrB w) < 16) ((rrrM w) < 3) (.pset (PsetOp.ofCode (rrrM w)) (BitVec.ofNat 3 (rrrD w)) (PredSrc.ofCode (rrrA w)) (PredSrc.ofCode (rrrB w)))
  | 9 => if (rrrM w) = 0 then fin ((rrrA w) < 16 ∧ (rrrB w) = 0) (True) (.pmovToReg (BitVec.ofNat 7 (rrrD w)) (PredSrc.ofCode (rrrA w))) else if (rrrM w) = 1 then fin ((rrrD w) < 8 ∧ (rrrB w) = 0) (True) (.pmovToPred (BitVec.ofNat 3 (rrrD w)) (BitVec.ofNat 7 (rrrA w))) else if (rrrM w) = 2 then fin ((rrrA w) = 0 ∧ (rrrB w) = 0) (True) (.pmovPack (BitVec.ofNat 7 (rrrD w))) else if (rrrM w) = 3 then fin ((rrrD w) = 0 ∧ (rrrB w) = 0) (True) (.pmovUnpack (BitVec.ofNat 7 (rrrA w))) else fin ((rrrA w) < 16 ∧ (rrrB w) = 0) False .nop
  | 10 => fin (((rrrM w) ≠ 3 ∨ (rrrB w) = 0)) (((rrrM w) = 0 ∨ (rrrM w) = 3)) (.shlN64 (BitVec.ofNat 7 (rrrD w)) (BitVec.ofNat 7 (rrrA w)) (Opd.ofCode (rrrM w) (rrrB w) lit))
  | 11 => fin (((rrrM w) ≠ 3 ∨ (rrrB w) = 0)) (((rrrM w) = 0 ∨ (rrrM w) = 3)) (.shrN64 (BitVec.ofNat 7 (rrrD w)) (BitVec.ofNat 7 (rrrA w)) (Opd.ofCode (rrrM w) (rrrB w) lit))
  | 12 => fin (((rrrM w) ≠ 3 ∨ (rrrB w) = 0)) (((rrrM w) = 0 ∨ (rrrM w) = 3)) (.sarI64 (BitVec.ofNat 7 (rrrD w)) (BitVec.ofNat 7 (rrrA w)) (Opd.ofCode (rrrM w) (rrrB w) lit))
  | 13 => if (rrrM w) = 0 then fin ((rrrB w) = 0) (True) (.movN64 (BitVec.ofNat 7 (rrrD w)) (BitVec.ofNat 7 (rrrA w))) else if (rrrM w) = 3 then fin ((rrrA w) = 0 ∧ (rrrB w) = 0) (True) (.movN64Lit (BitVec.ofNat 7 (rrrD w)) (BitVec.ofNat 32 lit)) else fin ((rrrB w) = 0) False .nop
  | _ => .ok (.unassignedOpcode (BitVec.ofNat 32 w))

/-- Opcodes 0x040 to 0x04F of Table 2.3. -/
noncomputable def decodeRow04 (low w lit : Nat) : Except Reject Instr :=
  match low with
  | 0 => fin (((rrrM w) ≠ 3 ∨ (rrrB w) = 0)) (((rrrM w) = 0 ∨ (rrrM w) = 3)) (.andN64 (BitVec.ofNat 7 (rrrD w)) (BitVec.ofNat 7 (rrrA w)) (Opd.ofCode (rrrM w) (rrrB w) lit))
  | 1 => fin (((rrrM w) ≠ 3 ∨ (rrrB w) = 0)) (((rrrM w) = 0 ∨ (rrrM w) = 3)) (.orN64 (BitVec.ofNat 7 (rrrD w)) (BitVec.ofNat 7 (rrrA w)) (Opd.ofCode (rrrM w) (rrrB w) lit))
  | 2 => fin (((rrrM w) ≠ 3 ∨ (rrrB w) = 0)) (((rrrM w) = 0 ∨ (rrrM w) = 3)) (.xorN64 (BitVec.ofNat 7 (rrrD w)) (BitVec.ofNat 7 (rrrA w)) (Opd.ofCode (rrrM w) (rrrB w) lit))
  | 3 => fin (((rrrM w) ≠ 3 ∨ (rrrB w) = 0)) (((rrrM w) = 0 ∨ (rrrM w) = 3)) (.andnN64 (BitVec.ofNat 7 (rrrD w)) (BitVec.ofNat 7 (rrrA w)) (Opd.ofCode (rrrM w) (rrrB w) lit))
  | 4 => fin ((rrrB w) = 0) ((rrrM w) = 0) (.popcN64 (BitVec.ofNat 7 (rrrD w)) (BitVec.ofNat 7 (rrrA w)))
  | 5 => fin ((rrrB w) = 0) ((rrrM w) = 0) (.clzN64 (BitVec.ofNat 7 (rrrD w)) (BitVec.ofNat 7 (rrrA w)))
  | 6 => fin ((rrrB w) = 0) ((rrrM w) = 0) (.ctzN64 (BitVec.ofNat 7 (rrrD w)) (BitVec.ofNat 7 (rrrA w)))
  | 7 => fin ((rrrB w) = 0) ((rrrM w) = 0) (.brevN64 (BitVec.ofNat 7 (rrrD w)) (BitVec.ofNat 7 (rrrA w)))
  | 8 => .ok (.selN64 (BitVec.ofNat 2 (rrrM w)) (BitVec.ofNat 7 (rrrD w)) (BitVec.ofNat 7 (rrrA w)) (BitVec.ofNat 7 (rrrB w)))
  | 9 => .ok (.leaN64 (BitVec.ofNat 2 (rrrM w)) (BitVec.ofNat 7 (rrrD w)) (BitVec.ofNat 7 (rrrA w)) (BitVec.ofNat 7 (rrrB w)))
  | _ => .ok (.unassignedOpcode (BitVec.ofNat 32 w))

/-- Opcodes 0x060 to 0x06F of Table 2.3. -/
noncomputable def decodeRow06 (low w lit : Nat) : Except Reject Instr :=
  match low with
  | 0 => .ok (.faddF32 (RMode.ofCode (rrrM w)) (BitVec.ofNat 7 (rrrD w)) (BitVec.ofNat 7 (rrrA w)) (BitVec.ofNat 7 (rrrB w)))
  | 1 => .ok (.fmulF32 (RMode.ofCode (rrrM w)) (BitVec.ofNat 7 (rrrD w)) (BitVec.ofNat 7 (rrrA w)) (BitVec.ofNat 7 (rrrB w)))
  | 2 => .ok (.ffmaF32 (RMode.ofCode (rrrM w)) (BitVec.ofNat 7 (rrrD w)) (BitVec.ofNat 7 (rrrA w)) (BitVec.ofNat 7 (rrrB w)))
  | 3 => .ok (.ffmaNpF32 (RMode.ofCode (rrrM w)) (BitVec.ofNat 7 (rrrD w)) (BitVec.ofNat 7 (rrrA w)) (BitVec.ofNat 7 (rrrB w)))
  | 4 => .ok (.ffmaNcF32 (RMode.ofCode (rrrM w)) (BitVec.ofNat 7 (rrrD w)) (BitVec.ofNat 7 (rrrA w)) (BitVec.ofNat 7 (rrrB w)))
  | 5 => .ok (.ffmaNpcF32 (RMode.ofCode (rrrM w)) (BitVec.ofNat 7 (rrrD w)) (BitVec.ofNat 7 (rrrA w)) (BitVec.ofNat 7 (rrrB w)))
  | 6 => fin (((rrrM w) ≠ 3 ∨ (rrrB w) = 0)) (((rrrM w) = 0 ∨ (rrrM w) = 3)) (.fminF32 (BitVec.ofNat 7 (rrrD w)) (BitVec.ofNat 7 (rrrA w)) (Opd.ofCode (rrrM w) (rrrB w) lit))
  | 7 => fin (((rrrM w) ≠ 3 ∨ (rrrB w) = 0)) (((rrrM w) = 0 ∨ (rrrM w) = 3)) (.fmaxF32 (BitVec.ofNat 7 (rrrD w)) (BitVec.ofNat 7 (rrrA w)) (Opd.ofCode (rrrM w) (rrrB w) lit))
  | 8 => fin ((rrrD w) / 8 % 2 = 0 ∧ ((rrrM w) ≠ 3 ∨ (rrrB w) = 0)) (True) (.fsetF32 (PredMode.ofCode (rrrM w)) (BitVec.ofNat 3 ((rrrD w) % 8)) (FCmp.ofCode ((rrrD w) / 16)) (BitVec.ofNat 7 (rrrA w)) (Opd.ofCode (rrrM w) (rrrB w) lit))
  | 9 => fin ((rrrB w) = 0) ((rrrM w) = 0) (.fclassF32 (BitVec.ofNat 7 (rrrD w)) (BitVec.ofNat 7 (rrrA w)))
  | 10 => fin ((rrrB w) = 0) (True) (.frndF32 (RMode.ofCode (rrrM w)) (BitVec.ofNat 7 (rrrD w)) (BitVec.ofNat 7 (rrrA w)))
  | 11 => fin ((rrrB w) = 0) (True) (.frcpF32 (RMode.ofCode (rrrM w)) (BitVec.ofNat 7 (rrrD w)) (BitVec.ofNat 7 (rrrA w)))
  | 12 => fin ((rrrB w) = 0) (True) (.frsqF32 (RMode.ofCode (rrrM w)) (BitVec.ofNat 7 (rrrD w)) (BitVec.ofNat 7 (rrrA w)))
  | 13 => fin ((rrrB w) = 0) (True) (.fsqrtF32 (RMode.ofCode (rrrM w)) (BitVec.ofNat 7 (rrrD w)) (BitVec.ofNat 7 (rrrA w)))
  | 14 => fin ((rrrB w) = 0) (True) (.fex2F32 (RMode.ofCode (rrrM w)) (BitVec.ofNat 7 (rrrD w)) (BitVec.ofNat 7 (rrrA w)))
  | 15 => fin ((rrrB w) = 0) (True) (.flg2F32 (RMode.ofCode (rrrM w)) (BitVec.ofNat 7 (rrrD w)) (BitVec.ofNat 7 (rrrA w)))
  | _ => .ok (.unassignedOpcode (BitVec.ofNat 32 w))

/-- Opcodes 0x070 to 0x07F of Table 2.3. -/
noncomputable def decodeRow07 (low w lit : Nat) : Except Reject Instr :=
  match low with
  | 0 => fin ((rrrB w) = 0) (True) (.fsinF32 (RMode.ofCode (rrrM w)) (BitVec.ofNat 7 (rrrD w)) (BitVec.ofNat 7 (rrrA w)))
  | 1 => fin ((rrrB w) = 0) (True) (.fcosF32 (RMode.ofCode (rrrM w)) (BitVec.ofNat 7 (rrrD w)) (BitVec.ofNat 7 (rrrA w)))
  | 2 => fin ((rrrB w) = 0) (True) (.ftanhF32 (RMode.ofCode (rrrM w)) (BitVec.ofNat 7 (rrrD w)) (BitVec.ofNat 7 (rrrA w)))
  | 3 => .ok (.hadd2Bf16x2 (RMode.ofCode (rrrM w)) (BitVec.ofNat 7 (rrrD w)) (BitVec.ofNat 7 (rrrA w)) (BitVec.ofNat 7 (rrrB w)))
  | 4 => .ok (.hadd2F16x2 (RMode.ofCode (rrrM w)) (BitVec.ofNat 7 (rrrD w)) (BitVec.ofNat 7 (rrrA w)) (BitVec.ofNat 7 (rrrB w)))
  | 5 => .ok (.hmul2Bf16x2 (RMode.ofCode (rrrM w)) (BitVec.ofNat 7 (rrrD w)) (BitVec.ofNat 7 (rrrA w)) (BitVec.ofNat 7 (rrrB w)))
  | 6 => .ok (.hmul2F16x2 (RMode.ofCode (rrrM w)) (BitVec.ofNat 7 (rrrD w)) (BitVec.ofNat 7 (rrrA w)) (BitVec.ofNat 7 (rrrB w)))
  | 7 => .ok (.hfma2Bf16x2 (RMode.ofCode (rrrM w)) (BitVec.ofNat 7 (rrrD w)) (BitVec.ofNat 7 (rrrA w)) (BitVec.ofNat 7 (rrrB w)))
  | 8 => .ok (.hfma2F16x2 (RMode.ofCode (rrrM w)) (BitVec.ofNat 7 (rrrD w)) (BitVec.ofNat 7 (rrrA w)) (BitVec.ofNat 7 (rrrB w)))
  | _ => .ok (.unassignedOpcode (BitVec.ofNat 32 w))

/-- Opcodes 0x080 to 0x08F of Table 2.3. -/
noncomputable def decodeRow08 (low w lit : Nat) : Except Reject Instr :=
  match low with
  | 0 => fin ((rrrB w) = 0) ((rrrM w) = 0) (.fcvtF32F16 (BitVec.ofNat 7 (rrrD w)) (BitVec.ofNat 7 (rrrA w)))
  | 1 => fin ((rrrB w) = 0) ((rrrM w) = 0) (.fcvtF32Bf16 (BitVec.ofNat 7 (rrrD w)) (BitVec.ofNat 7 (rrrA w)))
  | 2 => fin ((rrrB w) = 0) (True) (.fcvtF16F32 (RMode.ofCode (rrrM w)) (BitVec.ofNat 7 (rrrD w)) (BitVec.ofNat 7 (rrrA w)))
  | 3 => fin ((rrrB w) = 0) (True) (.fcvtBf16F32 (RMode.ofCode (rrrM w)) (BitVec.ofNat 7 (rrrD w)) (BitVec.ofNat 7 (rrrA w)))
  | 4 => fin ((rrrB w) = 0) (True) (.fcvtF16Bf16 (RMode.ofCode (rrrM w)) (BitVec.ofNat 7 (rrrD w)) (BitVec.ofNat 7 (rrrA w)))
  | 5 => fin ((rrrB w) = 0) (True) (.fcvtBf16F16 (RMode.ofCode (rrrM w)) (BitVec.ofNat 7 (rrrD w)) (BitVec.ofNat 7 (rrrA w)))
  | 6 => .ok (.fcvtF16x2F32 (RMode.ofCode (rrrM w)) (BitVec.ofNat 7 (rrrD w)) (BitVec.ofNat 7 (rrrA w)) (BitVec.ofNat 7 (rrrB w)))
  | 7 => .ok (.fcvtBf16x2F32 (RMode.ofCode (rrrM w)) (BitVec.ofNat 7 (rrrD w)) (BitVec.ofNat 7 (rrrA w)) (BitVec.ofNat 7 (rrrB w)))
  | 8 => fin ((rrrB w) = 0) (True) (.fcvtF32I32 (RMode.ofCode (rrrM w)) (BitVec.ofNat 7 (rrrD w)) (BitVec.ofNat 7 (rrrA w)))
  | 9 => fin ((rrrB w) = 0) (True) (.fcvtF32N32 (RMode.ofCode (rrrM w)) (BitVec.ofNat 7 (rrrD w)) (BitVec.ofNat 7 (rrrA w)))
  | 10 => fin ((rrrB w) = 0) (True) (.fcvtF32I64 (RMode.ofCode (rrrM w)) (BitVec.ofNat 7 (rrrD w)) (BitVec.ofNat 7 (rrrA w)))
  | 11 => fin ((rrrB w) = 0) (True) (.fcvtF32N64 (RMode.ofCode (rrrM w)) (BitVec.ofNat 7 (rrrD w)) (BitVec.ofNat 7 (rrrA w)))
  | 12 => fin ((rrrB w) = 0) (True) (.fcvtI32F32 (RMode.ofCode (rrrM w)) (BitVec.ofNat 7 (rrrD w)) (BitVec.ofNat 7 (rrrA w)))
  | 13 => fin ((rrrB w) = 0) (True) (.fcvtN32F32 (RMode.ofCode (rrrM w)) (BitVec.ofNat 7 (rrrD w)) (BitVec.ofNat 7 (rrrA w)))
  | 14 => fin ((rrrB w) = 0) (True) (.fcvtI64F32 (RMode.ofCode (rrrM w)) (BitVec.ofNat 7 (rrrD w)) (BitVec.ofNat 7 (rrrA w)))
  | 15 => fin ((rrrB w) = 0) (True) (.fcvtN64F32 (RMode.ofCode (rrrM w)) (BitVec.ofNat 7 (rrrD w)) (BitVec.ofNat 7 (rrrA w)))
  | _ => .ok (.unassignedOpcode (BitVec.ofNat 32 w))

/-- Opcodes 0x090 to 0x09F of Table 2.3. -/
noncomputable def decodeRow09 (low w lit : Nat) : Except Reject Instr :=
  match low with
  | 0 => fin ((rrrB w) = 0) (True) (.fcvtI16F32 (RMode.ofCode (rrrM w)) (BitVec.ofNat 7 (rrrD w)) (BitVec.ofNat 7 (rrrA w)))
  | 1 => fin ((rrrB w) = 0) (True) (.fcvtN16F32 (RMode.ofCode (rrrM w)) (BitVec.ofNat 7 (rrrD w)) (BitVec.ofNat 7 (rrrA w)))
  | 2 => fin ((rrrB w) = 0) (True) (.fcvtI8F32 (RMode.ofCode (rrrM w)) (BitVec.ofNat 7 (rrrD w)) (BitVec.ofNat 7 (rrrA w)))
  | 3 => fin ((rrrB w) = 0) (True) (.fcvtN8F32 (RMode.ofCode (rrrM w)) (BitVec.ofNat 7 (rrrD w)) (BitVec.ofNat 7 (rrrA w)))
  | 4 => fin ((rrrB w) = 0) ((rrrM w) = 0) (.fcvtF32I16 (BitVec.ofNat 7 (rrrD w)) (BitVec.ofNat 7 (rrrA w)))
  | 5 => fin ((rrrB w) = 0) ((rrrM w) = 0) (.fcvtF32N16 (BitVec.ofNat 7 (rrrD w)) (BitVec.ofNat 7 (rrrA w)))
  | 6 => fin ((rrrB w) = 0) ((rrrM w) = 0) (.fcvtF32I8 (BitVec.ofNat 7 (rrrD w)) (BitVec.ofNat 7 (rrrA w)))
  | 7 => fin ((rrrB w) = 0) ((rrrM w) = 0) (.fcvtF32N8 (BitVec.ofNat 7 (rrrD w)) (BitVec.ofNat 7 (rrrA w)))
  | _ => .ok (.unassignedOpcode (BitVec.ofNat 32 w))

/-- Opcodes 0x0C0 to 0x0CF of Table 2.3. -/
noncomputable def decodeRow0C (low w lit : Nat) : Except Reject Instr :=
  match low with
  | 0 => fin ((rrrA w) < 16 ∧ (rrrB w) = 0) ((rrrM w) = 0) (.ballot (BitVec.ofNat 7 (rrrD w)) (PredSrc.ofCode (rrrA w)))
  | 1 => fin ((rrrD w) < 8 ∧ (rrrA w) < 16 ∧ (rrrB w) = 0) ((rrrM w) = 0) (.voteEvery (BitVec.ofNat 3 (rrrD w)) (PredSrc.ofCode (rrrA w)))
  | 2 => fin ((rrrD w) < 8 ∧ (rrrA w) < 16 ∧ (rrrB w) = 0) ((rrrM w) = 0) (.voteSome (BitVec.ofNat 3 (rrrD w)) (PredSrc.ofCode (rrrA w)))
  | 3 => fin ((rrrD w) < 8 ∧ (rrrA w) < 16 ∧ (rrrB w) = 0) ((rrrM w) = 0) (.voteAgree (BitVec.ofNat 3 (rrrD w)) (PredSrc.ofCode (rrrA w)))
  | 4 => fin (((rrrM w) ≠ 3 ∨ (rrrB w) = 0)) (True) (.shflIdx (ShflWidth.ofCode (rrrM w)) (BitVec.ofNat 7 (rrrD w)) (BitVec.ofNat 7 (rrrA w)) (Opd.ofCode (rrrM w) (rrrB w) lit))
  | 5 => fin (((rrrM w) ≠ 3 ∨ (rrrB w) = 0)) (True) (.shflUp (ShflWidth.ofCode (rrrM w)) (BitVec.ofNat 7 (rrrD w)) (BitVec.ofNat 7 (rrrA w)) (Opd.ofCode (rrrM w) (rrrB w) lit))
  | 6 => fin (((rrrM w) ≠ 3 ∨ (rrrB w) = 0)) (True) (.shflDown (ShflWidth.ofCode (rrrM w)) (BitVec.ofNat 7 (rrrD w)) (BitVec.ofNat 7 (rrrA w)) (Opd.ofCode (rrrM w) (rrrB w) lit))
  | 7 => fin (((rrrM w) ≠ 3 ∨ (rrrB w) = 0)) (True) (.shflXor (ShflWidth.ofCode (rrrM w)) (BitVec.ofNat 7 (rrrD w)) (BitVec.ofNat 7 (rrrA w)) (Opd.ofCode (rrrM w) (rrrB w) lit))
  | 8 => fin (((rrrM w) ≠ 3 ∨ (rrrB w) = 0)) (((rrrM w) = 0 ∨ (rrrM w) = 3)) (.xchm (BitVec.ofNat 7 (rrrD w)) (BitVec.ofNat 7 (rrrA w)) (Opd.ofCode (rrrM w) (rrrB w) lit))
  | 9 => fin ((rrrB w) < 4) ((rrrM w) = 0 ∧ (rrrB w) < 3) (.redwI32 (BitVec.ofNat 7 (rrrD w)) (BitVec.ofNat 7 (rrrA w)) (FoldOp.ofCode (rrrB w)))
  | 10 => fin ((rrrB w) < 4) ((rrrM w) = 0 ∧ (rrrB w) < 3) (.redwN32 (BitVec.ofNat 7 (rrrD w)) (BitVec.ofNat 7 (rrrA w)) (FoldOp.ofCode (rrrB w)))
  | 11 => fin ((rrrB w) < 4) ((rrrB w) < 3) (.redwF32 (RMode.ofCode (rrrM w)) (BitVec.ofNat 7 (rrrD w)) (BitVec.ofNat 7 (rrrA w)) (FoldOp.ofCode (rrrB w)))
  | 12 => fin ((rrrB w) < 4) ((rrrM w) = 0 ∧ (rrrB w) < 3) (.redwB (BitVec.ofNat 7 (rrrD w)) (BitVec.ofNat 7 (rrrA w)) (BitOp.ofCode (rrrB w)))
  | 13 => fin ((rrrB w) < 8) ((rrrM w) = 0 ∧ (rrrB w) % 4 < 3) (.scanwI32 (BitVec.ofNat 7 (rrrD w)) (BitVec.ofNat 7 (rrrA w)) (FoldOp.ofCode ((rrrB w) % 4)) (decide ((rrrB w) / 4 = 1)))
  | 14 => fin ((rrrB w) < 8) ((rrrM w) = 0 ∧ (rrrB w) % 4 < 3) (.scanwN32 (BitVec.ofNat 7 (rrrD w)) (BitVec.ofNat 7 (rrrA w)) (FoldOp.ofCode ((rrrB w) % 4)) (decide ((rrrB w) / 4 = 1)))
  | 15 => fin ((rrrB w) < 8) ((rrrB w) % 4 < 3) (.scanwF32 (RMode.ofCode (rrrM w)) (BitVec.ofNat 7 (rrrD w)) (BitVec.ofNat 7 (rrrA w)) (FoldOp.ofCode ((rrrB w) % 4)) (decide ((rrrB w) / 4 = 1)))
  | _ => .ok (.unassignedOpcode (BitVec.ofNat 32 w))

/-- Opcodes 0x0E0 to 0x0EF of Table 2.3. -/
noncomputable def decodeRow0E (low w lit : Nat) : Except Reject Instr :=
  match low with
  | 0 => .ok (.bra (BitVec.ofNat 23 (w % 8388608)))
  | 1 => .ok (.call (BitVec.ofNat 23 (w % 8388608)))
  | 2 => fin ((rrrD w) = 0 ∧ (rrrB w) = 0) ((rrrM w) = 0) (.brx (BitVec.ofNat 7 (rrrA w)))
  | 3 => fin ((rrrB w) = 0) ((rrrM w) = 0) (.callx (BitVec.ofNat 7 (rrrD w)) (BitVec.ofNat 7 (rrrA w)))
  | 4 => fin ((rrrD w) = 0 ∧ (rrrB w) = 0) ((rrrM w) = 0) (.ret (BitVec.ofNat 7 (rrrA w)))
  | 5 => fin ((rrrD w) = 0 ∧ (rrrA w) = 0 ∧ (rrrB w) = 0) ((rrrM w) = 0) (.join)
  | 6 => fin ((rrrD w) = 0 ∧ (rrrA w) = 0 ∧ (rrrB w) = 0) ((rrrM w) = 0) (.exit)
  | 7 => fin ((rrrD w) = 0 ∧ (rrrA w) = 0 ∧ (rrrB w) = 0) ((rrrM w) = 0) (.yield)
  | 8 => fin ((rrrD w) = 0 ∧ (rrrA w) = 0 ∧ (rrrB w) = 0) ((rrrM w) = 0) (.nop)
  | 9 => fin ((riD w) = 0) (True) (.trap (BitVec.ofNat 16 (rwI w)))
  | 10 => fin ((rrrD w) = 0 ∧ (rrrA w) = 0 ∧ (rrrB w) = 0) ((rrrM w) = 0) (.tfence)
  | 11 => fin ((riD w) = 0) (True) (.bkpt (BitVec.ofNat 16 (rwI w)))
  | 12 => fin ((riD w) = 0 ∧ (rwI w) % 16 = 0) (True) (.winb (BitVec.ofNat 12 ((rwI w) / 16)))
  | 13 => fin ((riD w) = 0 ∧ (rwI w) % 16 = 0) (True) (.wina (BitVec.ofNat 12 ((rwI w) / 16)))
  | 14 => fin (True) ((riD w) < 3) (.setfmt (FmtMode.ofCode (riD w)) (BitVec.ofNat 16 (rwI w)))
  | 15 => .ok (.srd (BitVec.ofNat 7 (riD w)) (BitVec.ofNat 16 (rwI w)))
  | _ => .ok (.unassignedOpcode (BitVec.ofNat 32 w))

/-- Opcodes 0x0F0 to 0x0FF of Table 2.3. -/
noncomputable def decodeRow0F (low w lit : Nat) : Except Reject Instr :=
  match low with
  | 0 => .ok (.swr (BitVec.ofNat 7 (riD w)) (BitVec.ofNat 16 (rwI w)))
  | 1 => fin ((riD w) = 0 ∧ (rwI w) < 4096) (True) (.waitf (BitVec.ofNat 12 (rwI w)))
  | 2 => if (riI w) = 0 then fin ((riD w) < 8) ((riD w) < 6) (.waitpReg (PathId.ofCode (riD w)) (BitVec.ofNat 7 (riA w))) else if 256 ≤ (riI w) then fin ((riD w) < 8 ∧ (riA w) = 0) ((riD w) < 6) (.waitpImm (PathId.ofCode (riD w)) (BitVec.ofNat 8 ((riI w) - 256))) else .error .illegalOpcode
  | 3 => fin ((rrrD w) = 0 ∧ (rrrB w) = 0) ((rrrM w) = 0) (.clkw (BitVec.ofNat 7 (rrrA w)))
  | _ => .ok (.unassignedOpcode (BitVec.ofNat 32 w))

/-- Opcodes 0x100 to 0x10F of Table 2.3. -/
noncomputable def decodeRow10 (low w lit : Nat) : Except Reject Instr :=
  match low with
  | 0 => if (rrrM w) = 0 then fin ((rrrD w) < 32 ∧ (rrrA w) < 32) (True) (.cbndExact (BitVec.ofNat 5 (rrrD w)) (BitVec.ofNat 5 (rrrA w)) (BitVec.ofNat 7 (rrrB w))) else if (rrrM w) = 1 then fin ((rrrD w) < 32 ∧ (rrrA w) < 32) (True) (.cbndRound (BitVec.ofNat 5 (rrrD w)) (BitVec.ofNat 5 (rrrA w)) (BitVec.ofNat 7 (rrrB w))) else if (rrrM w) = 3 then fin ((rrrD w) < 32 ∧ (rrrA w) < 32 ∧ (rrrB w) = 0) (True) (.cbndLit (BitVec.ofNat 5 (rrrD w)) (BitVec.ofNat 5 (rrrA w)) (BitVec.ofNat 32 lit)) else fin ((rrrD w) < 32 ∧ (rrrA w) < 32) False .nop
  | 1 => fin ((rrrD w) < 32 ∧ (rrrA w) < 32 ∧ ((rrrM w) ≠ 3 ∨ (rrrB w) = 0)) (((rrrM w) = 0 ∨ (rrrM w) = 3)) (.cprm (BitVec.ofNat 5 (rrrD w)) (BitVec.ofNat 5 (rrrA w)) (Opd.ofCode (rrrM w) (rrrB w) lit))
  | 2 => fin ((rrrD w) < 32 ∧ (rrrA w) < 32 ∧ ((rrrM w) ≠ 3 ∨ (rrrB w) = 0)) (((rrrM w) = 0 ∨ (rrrM w) = 3)) (.cadd (BitVec.ofNat 5 (rrrD w)) (BitVec.ofNat 5 (rrrA w)) (Opd.ofCode (rrrM w) (rrrB w) lit))
  | 3 => fin ((rrrA w) < 32) ((rrrM w) = 0 ∧ (rrrB w) < 7) (.cget (BitVec.ofNat 7 (rrrD w)) (BitVec.ofNat 5 (rrrA w)) (CgetSel.ofCode (rrrB w)))
  | 4 => if (rrrM w) = 0 then fin ((rrrD w) < 8 ∧ (rrrA w) < 32 ∧ (rrrB w) = 0) (True) (.ctstTag (BitVec.ofNat 3 (rrrD w)) (BitVec.ofNat 5 (rrrA w))) else if (rrrM w) = 1 then fin ((rrrD w) < 8 ∧ (rrrA w) < 32 ∧ (rrrB w) < 32) (True) (.ctstSub (BitVec.ofNat 3 (rrrD w)) (BitVec.ofNat 5 (rrrA w)) (BitVec.ofNat 5 (rrrB w))) else fin ((rrrD w) < 8 ∧ (rrrA w) < 32 ∧ (rrrB w) < 32) False .nop
  | 5 => fin ((rrrD w) < 32 ∧ (rrrA w) < 32 ∧ (rrrB w) < 32) ((rrrM w) = 0) (.cdrv (BitVec.ofNat 5 (rrrD w)) (BitVec.ofNat 5 (rrrA w)) (BitVec.ofNat 5 (rrrB w)))
  | _ => .ok (.unassignedOpcode (BitVec.ofNat 32 w))

/-- Opcodes 0x110 to 0x11F of Table 2.3. -/
noncomputable def decodeRow11 (low w lit : Nat) : Except Reject Instr :=
  match low with
  | 0 => fin (True) ((rmSc w) = 0) (.ldN8 (BitVec.ofNat 7 (rmD w)) (MemRef.ofCode (rmC w) (rmB w) (rmX w) lit))
  | 1 => fin (True) ((rmSc w) = 0) (.ldI8 (BitVec.ofNat 7 (rmD w)) (MemRef.ofCode (rmC w) (rmB w) (rmX w) lit))
  | 2 => fin (True) ((rmSc w) = 0) (.ldN16 (BitVec.ofNat 7 (rmD w)) (MemRef.ofCode (rmC w) (rmB w) (rmX w) lit))
  | 3 => fin (True) ((rmSc w) = 0) (.ldI16 (BitVec.ofNat 7 (rmD w)) (MemRef.ofCode (rmC w) (rmB w) (rmX w) lit))
  | 4 => fin (True) ((rmSc w) = 0) (.ldN32 (BitVec.ofNat 7 (rmD w)) (MemRef.ofCode (rmC w) (rmB w) (rmX w) lit))
  | 5 => fin (True) ((rmSc w) = 0) (.ldN64 (BitVec.ofNat 7 (rmD w)) (MemRef.ofCode (rmC w) (rmB w) (rmX w) lit))
  | 6 => .ok (.ldaN32 (Scope.ofCode (rmSc w)) (BitVec.ofNat 7 (rmD w)) (MemRef.ofCode (rmC w) (rmB w) (rmX w) lit))
  | 7 => .ok (.ldaN64 (Scope.ofCode (rmSc w)) (BitVec.ofNat 7 (rmD w)) (MemRef.ofCode (rmC w) (rmB w) (rmX w) lit))
  | 8 => fin (True) ((rmSc w) = 0) (.stN8 (BitVec.ofNat 7 (rmD w)) (MemRef.ofCode (rmC w) (rmB w) (rmX w) lit))
  | 9 => fin (True) ((rmSc w) = 0) (.stN16 (BitVec.ofNat 7 (rmD w)) (MemRef.ofCode (rmC w) (rmB w) (rmX w) lit))
  | 10 => fin (True) ((rmSc w) = 0) (.stN32 (BitVec.ofNat 7 (rmD w)) (MemRef.ofCode (rmC w) (rmB w) (rmX w) lit))
  | 11 => fin (True) ((rmSc w) = 0) (.stN64 (BitVec.ofNat 7 (rmD w)) (MemRef.ofCode (rmC w) (rmB w) (rmX w) lit))
  | 12 => .ok (.stlN32 (Scope.ofCode (rmSc w)) (BitVec.ofNat 7 (rmD w)) (MemRef.ofCode (rmC w) (rmB w) (rmX w) lit))
  | 13 => .ok (.stlN64 (Scope.ofCode (rmSc w)) (BitVec.ofNat 7 (rmD w)) (MemRef.ofCode (rmC w) (rmB w) (rmX w) lit))
  | 14 => fin (True) ((rmSc w) = 0) (.ldc (BitVec.ofNat 7 (rmD w)) (MemRef.ofCode (rmC w) (rmB w) (rmX w) lit))
  | 15 => fin (True) ((rmSc w) = 0) (.stc (BitVec.ofNat 7 (rmD w)) (MemRef.ofCode (rmC w) (rmB w) (rmX w) lit))
  | _ => .ok (.unassignedOpcode (BitVec.ofNat 32 w))

/-- Opcodes 0x120 to 0x12F of Table 2.3. -/
noncomputable def decodeRow12 (low w lit : Nat) : Except Reject Instr :=
  match low with
  | 0 => fin ((rmD w) = 0) ((rmSc w) < 2) (.pref (decide ((rmSc w) = 1)) (MemRef.ofCode (rmC w) (rmB w) (rmX w) lit))
  | 1 => fin ((rmD w) = 0) (((rmSc w) = 4 ∨ (rmSc w) = 5)) (.cwb (decide ((rmSc w) = 5)) (MemRef.ofCode (rmC w) (rmB w) (rmX w) lit))
  | 2 => fin ((rmD w) = 0) ((rmSc w) = 0) (.cinv (MemRef.ofCode (rmC w) (rmB w) (rmX w) lit))
  | _ => .ok (.unassignedOpcode (BitVec.ofNat 32 w))

/-- Opcodes 0x140 to 0x14F of Table 2.3. -/
noncomputable def decodeRow14 (low w lit : Nat) : Except Reject Instr :=
  match low with
  | 0 => .ok (.atomAddN32 (Scope.ofCode (rmSc w)) (BitVec.ofNat 7 (rmD w)) (MemRef.ofCode (rmC w) (rmB w) (rmX w) lit))
  | 1 => .ok (.atomAddN64 (Scope.ofCode (rmSc w)) (BitVec.ofNat 7 (rmD w)) (MemRef.ofCode (rmC w) (rmB w) (rmX w) lit))
  | 2 => .ok (.atomAddF32 (Scope.ofCode (rmSc w)) (BitVec.ofNat 7 (rmD w)) (MemRef.ofCode (rmC w) (rmB w) (rmX w) lit))
  | 3 => .ok (.atomMinI32 (Scope.ofCode (rmSc w)) (BitVec.ofNat 7 (rmD w)) (MemRef.ofCode (rmC w) (rmB w) (rmX w) lit))
  | 4 => .ok (.atomMinN32 (Scope.ofCode (rmSc w)) (BitVec.ofNat 7 (rmD w)) (MemRef.ofCode (rmC w) (rmB w) (rmX w) lit))
  | 5 => .ok (.atomMinI64 (Scope.ofCode (rmSc w)) (BitVec.ofNat 7 (rmD w)) (MemRef.ofCode (rmC w) (rmB w) (rmX w) lit))
  | 6 => .ok (.atomMinN64 (Scope.ofCode (rmSc w)) (BitVec.ofNat 7 (rmD w)) (MemRef.ofCode (rmC w) (rmB w) (rmX w) lit))
  | 7 => .ok (.atomMaxI32 (Scope.ofCode (rmSc w)) (BitVec.ofNat 7 (rmD w)) (MemRef.ofCode (rmC w) (rmB w) (rmX w) lit))
  | 8 => .ok (.atomMaxN32 (Scope.ofCode (rmSc w)) (BitVec.ofNat 7 (rmD w)) (MemRef.ofCode (rmC w) (rmB w) (rmX w) lit))
  | 9 => .ok (.atomMaxI64 (Scope.ofCode (rmSc w)) (BitVec.ofNat 7 (rmD w)) (MemRef.ofCode (rmC w) (rmB w) (rmX w) lit))
  | 10 => .ok (.atomMaxN64 (Scope.ofCode (rmSc w)) (BitVec.ofNat 7 (rmD w)) (MemRef.ofCode (rmC w) (rmB w) (rmX w) lit))
  | 11 => .ok (.atomAndN32 (Scope.ofCode (rmSc w)) (BitVec.ofNat 7 (rmD w)) (MemRef.ofCode (rmC w) (rmB w) (rmX w) lit))
  | 12 => .ok (.atomAndN64 (Scope.ofCode (rmSc w)) (BitVec.ofNat 7 (rmD w)) (MemRef.ofCode (rmC w) (rmB w) (rmX w) lit))
  | 13 => .ok (.atomOrN32 (Scope.ofCode (rmSc w)) (BitVec.ofNat 7 (rmD w)) (MemRef.ofCode (rmC w) (rmB w) (rmX w) lit))
  | 14 => .ok (.atomOrN64 (Scope.ofCode (rmSc w)) (BitVec.ofNat 7 (rmD w)) (MemRef.ofCode (rmC w) (rmB w) (rmX w) lit))
  | 15 => .ok (.atomXorN32 (Scope.ofCode (rmSc w)) (BitVec.ofNat 7 (rmD w)) (MemRef.ofCode (rmC w) (rmB w) (rmX w) lit))
  | _ => .ok (.unassignedOpcode (BitVec.ofNat 32 w))

/-- Opcodes 0x150 to 0x15F of Table 2.3. -/
noncomputable def decodeRow15 (low w lit : Nat) : Except Reject Instr :=
  match low with
  | 0 => .ok (.atomXorN64 (Scope.ofCode (rmSc w)) (BitVec.ofNat 7 (rmD w)) (MemRef.ofCode (rmC w) (rmB w) (rmX w) lit))
  | 1 => .ok (.atomExchN32 (Scope.ofCode (rmSc w)) (BitVec.ofNat 7 (rmD w)) (MemRef.ofCode (rmC w) (rmB w) (rmX w) lit))
  | 2 => .ok (.atomExchN64 (Scope.ofCode (rmSc w)) (BitVec.ofNat 7 (rmD w)) (MemRef.ofCode (rmC w) (rmB w) (rmX w) lit))
  | 3 => .ok (.atomCasN32 (Scope.ofCode (rmSc w)) (BitVec.ofNat 7 (rmD w)) (MemRef.ofCode (rmC w) (rmB w) (rmX w) lit))
  | 4 => .ok (.atomCasN64 (Scope.ofCode (rmSc w)) (BitVec.ofNat 7 (rmD w)) (MemRef.ofCode (rmC w) (rmB w) (rmX w) lit))
  | _ => .ok (.unassignedOpcode (BitVec.ofNat 32 w))

/-- Opcodes 0x160 to 0x16F of Table 2.3. -/
noncomputable def decodeRow16 (low w lit : Nat) : Except Reject Instr :=
  match low with
  | 0 => .ok (.redAddN32 (Scope.ofCode (rmSc w)) (BitVec.ofNat 7 (rmD w)) (MemRef.ofCode (rmC w) (rmB w) (rmX w) lit))
  | 1 => .ok (.redAddN64 (Scope.ofCode (rmSc w)) (BitVec.ofNat 7 (rmD w)) (MemRef.ofCode (rmC w) (rmB w) (rmX w) lit))
  | 2 => .ok (.redAddF32 (Scope.ofCode (rmSc w)) (BitVec.ofNat 7 (rmD w)) (MemRef.ofCode (rmC w) (rmB w) (rmX w) lit))
  | 3 => .ok (.redMinI32 (Scope.ofCode (rmSc w)) (BitVec.ofNat 7 (rmD w)) (MemRef.ofCode (rmC w) (rmB w) (rmX w) lit))
  | 4 => .ok (.redMinN32 (Scope.ofCode (rmSc w)) (BitVec.ofNat 7 (rmD w)) (MemRef.ofCode (rmC w) (rmB w) (rmX w) lit))
  | 5 => .ok (.redMinI64 (Scope.ofCode (rmSc w)) (BitVec.ofNat 7 (rmD w)) (MemRef.ofCode (rmC w) (rmB w) (rmX w) lit))
  | 6 => .ok (.redMinN64 (Scope.ofCode (rmSc w)) (BitVec.ofNat 7 (rmD w)) (MemRef.ofCode (rmC w) (rmB w) (rmX w) lit))
  | 7 => .ok (.redMaxI32 (Scope.ofCode (rmSc w)) (BitVec.ofNat 7 (rmD w)) (MemRef.ofCode (rmC w) (rmB w) (rmX w) lit))
  | 8 => .ok (.redMaxN32 (Scope.ofCode (rmSc w)) (BitVec.ofNat 7 (rmD w)) (MemRef.ofCode (rmC w) (rmB w) (rmX w) lit))
  | 9 => .ok (.redMaxI64 (Scope.ofCode (rmSc w)) (BitVec.ofNat 7 (rmD w)) (MemRef.ofCode (rmC w) (rmB w) (rmX w) lit))
  | 10 => .ok (.redMaxN64 (Scope.ofCode (rmSc w)) (BitVec.ofNat 7 (rmD w)) (MemRef.ofCode (rmC w) (rmB w) (rmX w) lit))
  | 11 => .ok (.redAndN32 (Scope.ofCode (rmSc w)) (BitVec.ofNat 7 (rmD w)) (MemRef.ofCode (rmC w) (rmB w) (rmX w) lit))
  | 12 => .ok (.redAndN64 (Scope.ofCode (rmSc w)) (BitVec.ofNat 7 (rmD w)) (MemRef.ofCode (rmC w) (rmB w) (rmX w) lit))
  | 13 => .ok (.redOrN32 (Scope.ofCode (rmSc w)) (BitVec.ofNat 7 (rmD w)) (MemRef.ofCode (rmC w) (rmB w) (rmX w) lit))
  | 14 => .ok (.redOrN64 (Scope.ofCode (rmSc w)) (BitVec.ofNat 7 (rmD w)) (MemRef.ofCode (rmC w) (rmB w) (rmX w) lit))
  | 15 => .ok (.redXorN32 (Scope.ofCode (rmSc w)) (BitVec.ofNat 7 (rmD w)) (MemRef.ofCode (rmC w) (rmB w) (rmX w) lit))
  | _ => .ok (.unassignedOpcode (BitVec.ofNat 32 w))

/-- Opcodes 0x170 to 0x17F of Table 2.3. -/
noncomputable def decodeRow17 (low w lit : Nat) : Except Reject Instr :=
  match low with
  | 0 => .ok (.redXorN64 (Scope.ofCode (rmSc w)) (BitVec.ofNat 7 (rmD w)) (MemRef.ofCode (rmC w) (rmB w) (rmX w) lit))
  | 1 => fin ((rrrD w) < 8 ∧ (rrrA w) = 0 ∧ (rrrB w) = 0) ((rrrM w) < 3) (.fence (FenceKind.ofCode (rrrM w)) (Scope.ofCode (rrrD w)))
  | 2 => fin ((rrrD w) < 8 ∧ (rrrA w) < 8 ∧ (rrrB w) < 8) ((rrrM w) = 0 ∧ (rrrA w) < 6 ∧ (rrrB w) < 6) (.xfence (Scope.ofCode (rrrD w)) (PathId.ofCode (rrrA w)) (PathId.ofCode (rrrB w)))
  | 3 => fin ((rrrD w) = 0 ∧ (rrrA w) = 0 ∧ (rrrB w) = 0) ((rrrM w) = 0) (.tbegin)
  | 4 => fin ((rrrD w) < 8 ∧ (rrrA w) = 0 ∧ (rrrB w) = 0) ((rrrM w) = 0) (.tend (BitVec.ofNat 3 (rrrD w)))
  | 5 => fin ((rrrD w) = 0 ∧ (rrrA w) = 0) ((rrrM w) = 0) (.tabort (BitVec.ofNat 7 (rrrB w)))
  | 6 => fin ((rrrA w) = 0 ∧ (rrrB w) = 0) ((rrrM w) = 0) (.tstat (BitVec.ofNat 7 (rrrD w)))
  | 7 => fin ((rrrD w) = 0) ((rrrM w) = 0) (.barinit (BitVec.ofNat 7 (rrrA w)) (BitVec.ofNat 7 (rrrB w)))
  | 8 => if (rrrM w) = 0 then .ok (.bararr (BitVec.ofNat 7 (rrrD w)) (BitVec.ofNat 7 (rrrA w)) (BitVec.ofNat 7 (rrrB w))) else if (rrrM w) = 1 then fin ((rrrB w) = 0) (True) (.bararrNobytes (BitVec.ofNat 7 (rrrD w)) (BitVec.ofNat 7 (rrrA w))) else if (rrrM w) = 3 then fin ((rrrB w) = 0) (True) (.bararrLit (BitVec.ofNat 7 (rrrD w)) (BitVec.ofNat 7 (rrrA w)) (BitVec.ofNat 32 lit)) else fin (True) False .nop
  | 9 => fin ((rrrD w) < 8) ((rrrM w) = 0) (.barwait (BitVec.ofNat 3 (rrrD w)) (BitVec.ofNat 7 (rrrA w)) (BitVec.ofNat 7 (rrrB w)))
  | 10 => fin ((rrrD w) < 8) ((rrrM w) = 0) (.bartst (BitVec.ofNat 3 (rrrD w)) (BitVec.ofNat 7 (rrrA w)) (BitVec.ofNat 7 (rrrB w)))
  | 11 => fin ((rrrD w) = 0 ∧ (rrrB w) = 0) ((rrrM w) = 0) (.bardrop (BitVec.ofNat 7 (rrrA w)))
  | 12 => if (rrrM w) = 0 then fin ((rrrD w) = 0 ∧ (rrrB w) = 0) (True) (.barinv (BitVec.ofNat 7 (rrrA w))) else if (rrrM w) = 1 then fin ((rrrD w) = 0 ∧ (rrrB w) = 0) (True) (.barinvFree (BitVec.ofNat 7 (rrrA w))) else fin ((rrrD w) = 0 ∧ (rrrB w) = 0) False .nop
  | 13 => if (rrrM w) = 0 then fin ((rrrD w) = 0) (True) (.barexp (BitVec.ofNat 7 (rrrA w)) (BitVec.ofNat 7 (rrrB w))) else if (rrrM w) = 3 then fin ((rrrD w) = 0 ∧ (rrrB w) = 0) (True) (.barexpLit (BitVec.ofNat 7 (rrrA w)) (BitVec.ofNat 32 lit)) else fin ((rrrD w) = 0) False .nop
  | 14 => fin ((rrrD w) < 16) ((rrrM w) = 0 ∧ (rrrD w) % 4 < 3 ∧ (rrrD w) / 4 < 3) (.mred (FoldOp.ofCode ((rrrD w) % 4)) (MredTy.ofCode ((rrrD w) / 4)) (BitVec.ofNat 7 (rrrA w)) (BitVec.ofNat 7 (rrrB w)))
  | 15 => fin ((rrrA w) = 0) ((rrrM w) = 0) (.mrwait (BitVec.ofNat 7 (rrrD w)) (BitVec.ofNat 7 (rrrB w)))
  | _ => .ok (.unassignedOpcode (BitVec.ofNat 32 w))

/-- Opcodes 0x180 to 0x18F of Table 2.3. -/
noncomputable def decodeRow18 (low w lit : Nat) : Except Reject Instr :=
  match low with
  | 0 => fin ((rrrB w) < 32) ((rrrM w) = 0) (.board (BitVec.ofNat 7 (rrrD w)) (BitVec.ofNat 7 (rrrA w)) (BitVec.ofNat 5 (rrrB w)))
  | 1 => fin ((rrrB w) = 0) ((rrrM w) = 0) (.alight (BitVec.ofNat 7 (rrrD w)) (BitVec.ofNat 7 (rrrA w)))
  | 2 => fin (True) ((rrrM w) = 0) (.bcapAdd (BitVec.ofNat 7 (rrrD w)) (BitVec.ofNat 7 (rrrA w)) (BitVec.ofNat 7 (rrrB w)))
  | 3 => fin (True) ((rrrM w) < 2) (.bcapMin ((decide ((rrrM w) = 1))) (BitVec.ofNat 7 (rrrD w)) (BitVec.ofNat 7 (rrrA w)) (BitVec.ofNat 7 (rrrB w)))
  | 4 => fin (True) ((rrrM w) < 2) (.bcapMax ((decide ((rrrM w) = 1))) (BitVec.ofNat 7 (rrrD w)) (BitVec.ofNat 7 (rrrA w)) (BitVec.ofNat 7 (rrrB w)))
  | 5 => fin (True) ((rrrM w) = 0) (.bcapAnd (BitVec.ofNat 7 (rrrD w)) (BitVec.ofNat 7 (rrrA w)) (BitVec.ofNat 7 (rrrB w)))
  | 6 => fin (True) ((rrrM w) = 0) (.bcapOr (BitVec.ofNat 7 (rrrD w)) (BitVec.ofNat 7 (rrrA w)) (BitVec.ofNat 7 (rrrB w)))
  | 7 => fin (True) ((rrrM w) = 0) (.bcapSwap (BitVec.ofNat 7 (rrrD w)) (BitVec.ofNat 7 (rrrA w)) (BitVec.ofNat 7 (rrrB w)))
  | 8 => fin (True) ((rrrM w) = 0) (.bcapCas (BitVec.ofNat 7 (rrrD w)) (BitVec.ofNat 7 (rrrA w)) (BitVec.ofNat 7 (rrrB w)))
  | 9 => fin (True) ((rrrM w) = 0) (.bcapFadd (BitVec.ofNat 7 (rrrD w)) (BitVec.ofNat 7 (rrrA w)) (BitVec.ofNat 7 (rrrB w)))
  | 10 => fin ((rrrB w) = 0) ((rrrM w) = 0) (.bread (BitVec.ofNat 7 (rrrD w)) (BitVec.ofNat 7 (rrrA w)))
  | 11 => fin ((rrrD w) = 0 ∧ (rrrB w) = 0) ((rrrM w) = 0) (.bpass (BitVec.ofNat 7 (rrrA w)))
  | _ => .ok (.unassignedOpcode (BitVec.ofNat 32 w))

/-- Opcodes 0x190 to 0x19F of Table 2.3. -/
noncomputable def decodeRow19 (low w lit : Nat) : Except Reject Instr :=
  match low with
  | 0 => fin (True) ((rrrM w) < 2) (.mmaBf16 ((decide ((rrrM w) = 1))) (BitVec.ofNat 7 (rrrD w)) (BitVec.ofNat 7 (rrrA w)) (BitVec.ofNat 7 (rrrB w)))
  | 1 => fin (True) ((rrrM w) < 2) (.mmaF16 ((decide ((rrrM w) = 1))) (BitVec.ofNat 7 (rrrD w)) (BitVec.ofNat 7 (rrrA w)) (BitVec.ofNat 7 (rrrB w)))
  | 2 => fin (True) ((rrrM w) < 2) (.mmaF32 ((decide ((rrrM w) = 1))) (BitVec.ofNat 7 (rrrD w)) (BitVec.ofNat 7 (rrrA w)) (BitVec.ofNat 7 (rrrB w)))
  | 3 => fin (True) ((rrrM w) < 2) (.mmaK4 ((decide ((rrrM w) = 1))) (BitVec.ofNat 7 (rrrD w)) (BitVec.ofNat 7 (rrrA w)) (BitVec.ofNat 7 (rrrB w)))
  | 4 => fin (True) ((rrrM w) < 2) (.mmaI8 ((decide ((rrrM w) = 1))) (BitVec.ofNat 7 (rrrD w)) (BitVec.ofNat 7 (rrrA w)) (BitVec.ofNat 7 (rrrB w)))
  | 5 => fin (True) ((rrrM w) < 2) (.mmabXor ((decide ((rrrM w) = 1))) (BitVec.ofNat 7 (rrrD w)) (BitVec.ofNat 7 (rrrA w)) (BitVec.ofNat 7 (rrrB w)))
  | 6 => fin (True) ((rrrM w) < 2) (.mmabAnd ((decide ((rrrM w) = 1))) (BitVec.ofNat 7 (rrrD w)) (BitVec.ofNat 7 (rrrA w)) (BitVec.ofNat 7 (rrrB w)))
  | 7 => if (rrrM w) = 0 then fin ((rrrD w) = 0 ∧ (rrrA w) = 0 ∧ (rrrB w) = 0) (True) (.accz) else if (rrrM w) = 1 then fin ((rrrD w) = 0 ∧ (rrrA w) = 0 ∧ (rrrB w) = 0) (True) (.acczAll) else fin ((rrrD w) = 0 ∧ (rrrA w) = 0 ∧ (rrrB w) = 0) False .nop
  | 8 => fin ((rrrD w) = 0 ∧ (rrrB w) = 0) ((rrrM w) = 0) (.accldF32 (BitVec.ofNat 7 (rrrA w)))
  | 9 => fin ((rrrD w) = 0 ∧ (rrrB w) = 0) ((rrrM w) = 0) (.accstF32 (BitVec.ofNat 7 (rrrA w)))
  | 10 => fin ((rrrD w) = 0 ∧ (rrrB w) = 0) ((rrrM w) = 0) (.accsv (BitVec.ofNat 7 (rrrA w)))
  | 11 => fin ((rrrD w) = 0 ∧ (rrrB w) = 0) ((rrrM w) = 0) (.accrs (BitVec.ofNat 7 (rrrA w)))
  | 12 => fin ((rrrA w) = 0) ((rrrM w) < 2) (.accmx ((decide ((rrrM w) = 1))) (BitVec.ofNat 7 (rrrD w)) (BitVec.ofNat 7 (rrrB w)))
  | 13 => fin (True) ((rrrM w) = 0) (.accexs (BitVec.ofNat 7 (rrrD w)) (BitVec.ofNat 7 (rrrA w)) (BitVec.ofNat 7 (rrrB w)))
  | 14 => fin ((rrrD w) = 0 ∧ (rrrA w) = 0 ∧ (rrrB w) = 0) ((rrrM w) = 0) (.accmsk)
  | 15 => fin ((rrrD w) < 4 ∧ (rrrA w) < 32 ∧ (rrrB w) = 0) ((rrrM w) = 0) (.cbld (BitVec.ofNat 2 (rrrD w)) (BitVec.ofNat 5 (rrrA w)))
  | _ => .ok (.unassignedOpcode (BitVec.ofNat 32 w))

/-- Opcodes 0x1A0 to 0x1AF of Table 2.3. -/
noncomputable def decodeRow1A (low w lit : Nat) : Except Reject Instr :=
  match low with
  | 0 => fin ((rrrD w) = 0 ∧ (rrrB w) = 0) ((rrrM w) = 0) (.accldBf16 (BitVec.ofNat 7 (rrrA w)))
  | 1 => fin ((rrrD w) = 0 ∧ (rrrB w) = 0) ((rrrM w) = 0) (.accldF16 (BitVec.ofNat 7 (rrrA w)))
  | 2 => fin ((rrrD w) = 0 ∧ (rrrB w) = 0) ((rrrM w) = 0) (.accstBf16 (BitVec.ofNat 7 (rrrA w)))
  | 3 => fin ((rrrD w) = 0 ∧ (rrrB w) = 0) ((rrrM w) = 0) (.accstF16 (BitVec.ofNat 7 (rrrA w)))
  | 4 => fin ((rrrD w) = 0) ((rrrM w) = 0) (.accstI8 (BitVec.ofNat 7 (rrrA w)) (BitVec.ofNat 7 (rrrB w)))
  | 5 => if (rrrM w) = 0 then fin ((rrrD w) < 16 ∧ (rrrA w) < 32 ∧ (rrrB w) = 0) (True) (.xtile (BitVec.ofNat 4 (rrrD w)) (BitVec.ofNat 5 (rrrA w))) else if (rrrM w) = 1 then fin ((rrrD w) < 16 ∧ (rrrA w) < 32) (True) (.xtileCo (BitVec.ofNat 4 (rrrD w)) (BitVec.ofNat 5 (rrrA w)) (BitVec.ofNat 7 (rrrB w))) else fin ((rrrD w) < 16 ∧ (rrrA w) < 32) False .nop
  | 6 => if (rrrM w) = 0 then fin ((rrrD w) < 4 ∧ (rrrA w) < 32 ∧ (rrrB w) = 0) (True) (.xstrm (BitVec.ofNat 2 (rrrD w)) (BitVec.ofNat 5 (rrrA w))) else if (rrrM w) = 1 then fin ((rrrD w) < 4 ∧ (rrrA w) < 32) (True) (.xstrmCo (BitVec.ofNat 2 (rrrD w)) (BitVec.ofNat 5 (rrrA w)) (BitVec.ofNat 7 (rrrB w))) else fin ((rrrD w) < 4 ∧ (rrrA w) < 32) False .nop
  | 7 => fin (True) ((rrrM w) = 0) (.xchain (BitVec.ofNat 7 (rrrD w)) (BitVec.ofNat 7 (rrrA w)) (BitVec.ofNat 7 (rrrB w)))
  | 8 => fin ((rrrA w) = 0) ((rrrM w) < 2) (.xstat ((decide ((rrrM w) = 1))) (BitVec.ofNat 7 (rrrD w)) (BitVec.ofNat 7 (rrrB w)))
  | 9 => fin ((rrrD w) = 0 ∧ (rrrA w) = 0) ((rrrM w) = 0) (.xstop (BitVec.ofNat 7 (rrrB w)))
  | 10 => fin ((rrrD w) < 8 ∧ (rrrB w) < 16) ((rrrM w) = 0) (.chkt (BitVec.ofNat 3 (rrrD w)) (BitVec.ofNat 7 (rrrA w)) (BitVec.ofNat 4 (rrrB w)))
  | 11 => fin ((rrrD w) = 0 ∧ (rrrB w) < 16) ((rrrM w) = 0) (.chkw (BitVec.ofNat 7 (rrrA w)) (BitVec.ofNat 4 (rrrB w)))
  | _ => .ok (.unassignedOpcode (BitVec.ofNat 32 w))

/-- Opcodes 0x1B0 to 0x1BF of Table 2.3. -/
noncomputable def decodeRow1B (low w lit : Nat) : Except Reject Instr :=
  match low with
  | 0 => fin ((rrrB w) = 0) ((rrrM w) = 0) (.nfork (BitVec.ofNat 7 (rrrD w)) (BitVec.ofNat 7 (rrrA w)))
  | 1 => fin ((rrrB w) = 0) ((rrrM w) = 0) (.nprune (BitVec.ofNat 7 (rrrD w)) (BitVec.ofNat 7 (rrrA w)))
  | 2 => fin ((rrrB w) = 0) ((rrrM w) < 2) (.ncommit ((decide ((rrrM w) = 1))) (BitVec.ofNat 7 (rrrD w)) (BitVec.ofNat 7 (rrrA w)))
  | 3 => fin ((rrrB w) = 0) ((rrrM w) < 2) (.nquery ((decide ((rrrM w) = 1))) (BitVec.ofNat 7 (rrrD w)) (BitVec.ofNat 7 (rrrA w)))
  | 4 => if (rrrM w) = 0 then fin ((rrrD w) = 0 ∧ (rrrB w) = 0) (True) (.ntag (BitVec.ofNat 7 (rrrA w))) else if (rrrM w) = 1 then fin ((rrrD w) = 0 ∧ (rrrA w) = 0 ∧ (rrrB w) = 0) (True) (.ntagClr) else fin ((rrrD w) = 0 ∧ (rrrB w) = 0) False .nop
  | 5 => fin ((rrrD w) = 0) ((rrrM w) < 2) (.maskg ((decide ((rrrM w) = 1))) (BitVec.ofNat 7 (rrrA w)) (BitVec.ofNat 7 (rrrB w)))
  | 6 => fin (True) ((rrrM w) < 2) (.kvmap ((decide ((rrrM w) = 1))) (BitVec.ofNat 7 (rrrD w)) (BitVec.ofNat 7 (rrrA w)) (BitVec.ofNat 7 (rrrB w)))
  | 7 => fin (True) ((rrrM w) = 0) (.kvref (BitVec.ofNat 7 (rrrD w)) (BitVec.ofNat 7 (rrrA w)) (BitVec.ofNat 7 (rrrB w)))
  | 8 => fin (True) ((rrrM w) = 0) (.kvrel (BitVec.ofNat 7 (rrrD w)) (BitVec.ofNat 7 (rrrA w)) (BitVec.ofNat 7 (rrrB w)))
  | 9 => fin ((rrrD w) = 0) ((rrrM w) = 0) (.kvshoot (BitVec.ofNat 7 (rrrA w)) (BitVec.ofNat 7 (rrrB w)))
  | 10 => fin ((rrrA w) < 32) ((rrrM w) = 0) (.lnch (BitVec.ofNat 7 (rrrD w)) (BitVec.ofNat 5 (rrrA w)) (BitVec.ofNat 7 (rrrB w)))
  | 11 => fin ((rrrA w) < 32 ∧ (rrrB w) = 0) ((rrrM w) = 0) (.lcancel (BitVec.ofNat 7 (rrrD w)) (BitVec.ofNat 5 (rrrA w)))
  | 12 => fin ((rrrA w) < 32 ∧ (rrrB w) = 0) ((rrrM w) = 0) (.ljoin (BitVec.ofNat 7 (rrrD w)) (BitVec.ofNat 5 (rrrA w)))
  | _ => .ok (.unassignedOpcode (BitVec.ofNat 32 w))

/-- The opcode map of Table 2.3 (R54), one definition per row of sixteen codes; an unassigned code is the row
 UNASSIGNED_OPCODE, which faults when it is reached (R53 step 1). -/
noncomputable def decodeWord (w lit : Nat) : Except Reject Instr :=
  match w / 8388608 / 16 with
  | 0 => decodeRow00 (w / 8388608 % 16) w lit
  | 1 => decodeRow01 (w / 8388608 % 16) w lit
  | 2 => decodeRow02 (w / 8388608 % 16) w lit
  | 3 => decodeRow03 (w / 8388608 % 16) w lit
  | 4 => decodeRow04 (w / 8388608 % 16) w lit
  | 6 => decodeRow06 (w / 8388608 % 16) w lit
  | 7 => decodeRow07 (w / 8388608 % 16) w lit
  | 8 => decodeRow08 (w / 8388608 % 16) w lit
  | 9 => decodeRow09 (w / 8388608 % 16) w lit
  | 12 => decodeRow0C (w / 8388608 % 16) w lit
  | 14 => decodeRow0E (w / 8388608 % 16) w lit
  | 15 => decodeRow0F (w / 8388608 % 16) w lit
  | 16 => decodeRow10 (w / 8388608 % 16) w lit
  | 17 => decodeRow11 (w / 8388608 % 16) w lit
  | 18 => decodeRow12 (w / 8388608 % 16) w lit
  | 20 => decodeRow14 (w / 8388608 % 16) w lit
  | 21 => decodeRow15 (w / 8388608 % 16) w lit
  | 22 => decodeRow16 (w / 8388608 % 16) w lit
  | 23 => decodeRow17 (w / 8388608 % 16) w lit
  | 24 => decodeRow18 (w / 8388608 % 16) w lit
  | 25 => decodeRow19 (w / 8388608 % 16) w lit
  | 26 => decodeRow1A (w / 8388608 % 16) w lit
  | 27 => decodeRow1B (w / 8388608 % 16) w lit
  | _ => .ok (.unassignedOpcode (BitVec.ofNat 32 w))

/-- The opcodes whose words may be followed by a literal in the literal form of R50. -/
def litOpcode (op : Nat) : Bool :=
  (0 ≤ op && op ≤ 3) || (6 ≤ op && op ≤ 13) || (16 ≤ op && op ≤ 23) || (28 ≤ op && op ≤ 39) || (43 ≤ op && op ≤ 47) || (op == 53) || (58 ≤ op && op ≤ 61) || (64 ≤ op && op ≤ 67) || (102 ≤ op && op ≤ 104) || (196 ≤ op && op ≤ 200) || (256 ≤ op && op ≤ 258) || (op == 376) || (op == 381)

/-- The opcodes of the RM format (R55). -/
def rmOpcode (op : Nat) : Bool :=
  (272 ≤ op && op ≤ 290) || (320 ≤ op && op ≤ 340) || (352 ≤ op && op ≤ 368)

/-- Literals(i) of R52, by opcode and form alone. -/
def literals (w : Nat) : Nat :=
  let op := w / 8388608
  if litOpcode op && decide (rrrM w = 3) then 1
  else if rmOpcode op && decide (rmX w = 1) && decide (rmB w = 64) then 1
  else 0

/-- The long-latency instructions of R43, by opcode. -/
def longLatency (w : Nat) : Bool :=
  let op := w / 8388608
  (272 ≤ op && op ≤ 290) || (320 ≤ op && op ≤ 340) || (352 ≤ op && op ≤ 368) || (op == 372) || (op == 382) || (384 ≤ op && op ≤ 394) || (400 ≤ op && op ≤ 406) || (408 ≤ op && op ≤ 411) || (415 ≤ op && op ≤ 423) || (op == 425) || (432 ≤ op && op ≤ 435) || (437 ≤ op && op ≤ 443)

/-- The control transfers of R45, by opcode. -/
def controlTransfer (w : Nat) : Bool :=
  let op := w / 8388608
  (224 ≤ op && op ≤ 230)

/-- A 32-bit word from four little-endian bytes (R10). -/
def wordOfBytes (b0 b1 b2 b3 : Byte) : Nat := b0.toNat + 256 * b1.toNat + 65536 * b2.toNat + 16777216 * b3.toNat

/-- The instruction at the head of a list of bytes, with the bytes after it; a literal is fetched with its instruction (R52). -/
noncomputable def decode : List Byte → Except Reject (Instr × List Byte)
  | b0 :: b1 :: b2 :: b3 :: rest =>
    let w := wordOfBytes b0 b1 b2 b3
    if literals w = 0 then (decodeWord w 0).map (·, rest)
    else
      match rest with
      | l0 :: l1 :: l2 :: l3 :: rest' => (decodeWord w (wordOfBytes l0 l1 l2 l3)).map (·, rest')
      | _ => .error .short
  | _ => .error .short

/-- The four little-endian bytes of a word (R10). -/
def bytesOfWord (w : Nat) : List Byte :=
  [BitVec.ofNat 8 w, BitVec.ofNat 8 (w / 256), BitVec.ofNat 8 (w / 65536), BitVec.ofNat 8 (w / 16777216)]

/-- The instruction whose bits are w, numbered from bit 0 of its first word; bits above nbits are zero. -/
noncomputable def decodeTableWord (nbits w : Nat) : Option Instr :=
  if nbits = 0 then none
  else
    let v := w % 2 ^ nbits
    match decode (bytesOfWord (v % 4294967296) ++ bytesOfWord (v / 4294967296 % 4294967296)) with
    | .ok (i, _) => some i
    | .error _ => none

def packRRR (op m d a b : Nat) : Nat := op * 8388608 + m * 2097152 + d * 16384 + a * 128 + b
def packRI (op d a i : Nat) : Nat := op * 8388608 + d * 65536 + a * 512 + i
def packRW (op d i : Nat) : Nat := op * 8388608 + d * 65536 + i
def packBR (op off : Nat) : Nat := op * 8388608 + off
def packRM (op sc d c b x : Nat) : Nat := op * 8388608 + sc * 1048576 + d * 8192 + c * 256 + b * 2 + x

/-- The words of an instruction, from the encoding tables: the instruction word and, in a literal form, the literal (R50 to R52).
 A row of the device or the outside has no words. -/
def encode : Instr → List Nat
  | .addI32 m d a b => [packRRR 0x0 (if b.isLit then 3 else (m).code) d.toNat a.toNat b.regCode] ++ b.litWords
  | .addI64 m d a b => [packRRR 0x1 (if b.isLit then 3 else (m).code) d.toNat a.toNat b.regCode] ++ b.litWords
  | .subI32 m d a b => [packRRR 0x2 (if b.isLit then 3 else (m).code) d.toNat a.toNat b.regCode] ++ b.litWords
  | .subI64 m d a b => [packRRR 0x3 (if b.isLit then 3 else (m).code) d.toNat a.toNat b.regCode] ++ b.litWords
  | .addiI32 d a imm => [packRI 0x4 d.toNat a.toNat imm.toNat]
  | .addiI64 d a imm => [packRI 0x5 d.toNat a.toNat imm.toNat]
  | .mulI32 d a b => [packRRR 0x6 b.litMd d.toNat a.toNat b.regCode] ++ b.litWords
  | .mulI64 d a b => [packRRR 0x7 b.litMd d.toNat a.toNat b.regCode] ++ b.litWords
  | .mulhI32 d a b => [packRRR 0x8 b.litMd d.toNat a.toNat b.regCode] ++ b.litWords
  | .mulhN32 d a b => [packRRR 0x9 b.litMd d.toNat a.toNat b.regCode] ++ b.litWords
  | .mulhI64 d a b => [packRRR 0xA b.litMd d.toNat a.toNat b.regCode] ++ b.litWords
  | .mulhN64 d a b => [packRRR 0xB b.litMd d.toNat a.toNat b.regCode] ++ b.litWords
  | .madI32 d a b => [packRRR 0xC b.litMd d.toNat a.toNat b.regCode] ++ b.litWords
  | .madI64 d a b => [packRRR 0xD b.litMd d.toNat a.toNat b.regCode] ++ b.litWords
  | .addcN32 m d a b => [packRRR 0xE (m).toNat d.toNat a.toNat b.toNat]
  | .leaN32 m d a b => [packRRR 0xF (m).toNat d.toNat a.toNat b.toNat]
  | .minI32 d a b => [packRRR 0x10 b.litMd d.toNat a.toNat b.regCode] ++ b.litWords
  | .minN32 d a b => [packRRR 0x11 b.litMd d.toNat a.toNat b.regCode] ++ b.litWords
  | .minI64 d a b => [packRRR 0x12 b.litMd d.toNat a.toNat b.regCode] ++ b.litWords
  | .minN64 d a b => [packRRR 0x13 b.litMd d.toNat a.toNat b.regCode] ++ b.litWords
  | .maxI32 d a b => [packRRR 0x14 b.litMd d.toNat a.toNat b.regCode] ++ b.litWords
  | .maxN32 d a b => [packRRR 0x15 b.litMd d.toNat a.toNat b.regCode] ++ b.litWords
  | .maxI64 d a b => [packRRR 0x16 b.litMd d.toNat a.toNat b.regCode] ++ b.litWords
  | .maxN64 d a b => [packRRR 0x17 b.litMd d.toNat a.toNat b.regCode] ++ b.litWords
  | .absI32 m d a => [packRRR 0x18 (m).toNat d.toNat a.toNat 0]
  | .absI64 m d a => [packRRR 0x19 (m).toNat d.toNat a.toNat 0]
  | .negI32 m d a => [packRRR 0x1A (m).toNat d.toNat a.toNat 0]
  | .negI64 m d a => [packRRR 0x1B (m).toNat d.toNat a.toNat 0]
  | .isetI32 m d cc a b => [packRRR 0x1C (if b.isLit then 3 else (m).code) (16 * cc.code + d.toNat) a.toNat b.regCode] ++ b.litWords
  | .isetN32 m d cc a b => [packRRR 0x1D (if b.isLit then 3 else (m).code) (16 * cc.code + d.toNat) a.toNat b.regCode] ++ b.litWords
  | .isetI64 m d cc a b => [packRRR 0x1E (if b.isLit then 3 else (m).code) (16 * cc.code + d.toNat) a.toNat b.regCode] ++ b.litWords
  | .isetN64 m d cc a b => [packRRR 0x1F (if b.isLit then 3 else (m).code) (16 * cc.code + d.toNat) a.toNat b.regCode] ++ b.litWords
  | .andB d a b => [packRRR 0x20 b.litMd d.toNat a.toNat b.regCode] ++ b.litWords
  | .orB d a b => [packRRR 0x21 b.litMd d.toNat a.toNat b.regCode] ++ b.litWords
  | .xorB d a b => [packRRR 0x22 b.litMd d.toNat a.toNat b.regCode] ++ b.litWords
  | .andnB d a b => [packRRR 0x23 b.litMd d.toNat a.toNat b.regCode] ++ b.litWords
  | .shlB d a b => [packRRR 0x24 b.litMd d.toNat a.toNat b.regCode] ++ b.litWords
  | .shrB d a b => [packRRR 0x25 b.litMd d.toNat a.toNat b.regCode] ++ b.litWords
  | .sarB d a b => [packRRR 0x26 b.litMd d.toNat a.toNat b.regCode] ++ b.litWords
  | .rotlB d a b => [packRRR 0x27 b.litMd d.toNat a.toNat b.regCode] ++ b.litWords
  | .shliB d a imm => [packRI 0x28 d.toNat a.toNat imm.toNat]
  | .shriB d a imm => [packRI 0x29 d.toNat a.toNat imm.toNat]
  | .sariB d a imm => [packRI 0x2A d.toNat a.toNat imm.toNat]
  | .fshlB d a b => [packRRR 0x2B b.litMd d.toNat a.toNat b.regCode] ++ b.litWords
  | .bfxN32 d a b => [packRRR 0x2C b.litMd d.toNat a.toNat b.regCode] ++ b.litWords
  | .bfxI32 d a b => [packRRR 0x2D b.litMd d.toNat a.toNat b.regCode] ++ b.litWords
  | .bfiB d a b => [packRRR 0x2E b.litMd d.toNat a.toNat b.regCode] ++ b.litWords
  | .prmtB d a b => [packRRR 0x2F b.litMd d.toNat a.toNat b.regCode] ++ b.litWords
  | .popcB d a => [packRRR 0x30 0 d.toNat a.toNat 0]
  | .clzB d a => [packRRR 0x31 0 d.toNat a.toNat 0]
  | .ctzB d a => [packRRR 0x32 0 d.toNat a.toNat 0]
  | .brevB d a => [packRRR 0x33 0 d.toNat a.toNat 0]
  | .selB m d a b => [packRRR 0x34 (m).toNat d.toNat a.toNat b.toNat]
  | .movB d a => [packRRR 0x35 0 d.toNat a.toNat 0]
  | .movBLit d lit => [packRRR 0x35 3 d.toNat 0 0, lit.toNat]
  | .movi d imm => [packRW 0x36 d.toNat imm.toNat]
  | .movh d imm => [packRW 0x37 d.toNat imm.toNat]
  | .pset m d a b => [packRRR 0x38 (m).code d.toNat a.code b.code]
  | .pmovToReg d a => [packRRR 0x39 0 d.toNat a.code 0]
  | .pmovToPred d a => [packRRR 0x39 1 d.toNat a.toNat 0]
  | .pmovPack d => [packRRR 0x39 2 d.toNat 0 0]
  | .pmovUnpack a => [packRRR 0x39 3 0 a.toNat 0]
  | .shlN64 d a b => [packRRR 0x3A b.litMd d.toNat a.toNat b.regCode] ++ b.litWords
  | .shrN64 d a b => [packRRR 0x3B b.litMd d.toNat a.toNat b.regCode] ++ b.litWords
  | .sarI64 d a b => [packRRR 0x3C b.litMd d.toNat a.toNat b.regCode] ++ b.litWords
  | .movN64 d a => [packRRR 0x3D 0 d.toNat a.toNat 0]
  | .movN64Lit d lit => [packRRR 0x3D 3 d.toNat 0 0, lit.toNat]
  | .andN64 d a b => [packRRR 0x40 b.litMd d.toNat a.toNat b.regCode] ++ b.litWords
  | .orN64 d a b => [packRRR 0x41 b.litMd d.toNat a.toNat b.regCode] ++ b.litWords
  | .xorN64 d a b => [packRRR 0x42 b.litMd d.toNat a.toNat b.regCode] ++ b.litWords
  | .andnN64 d a b => [packRRR 0x43 b.litMd d.toNat a.toNat b.regCode] ++ b.litWords
  | .popcN64 d a => [packRRR 0x44 0 d.toNat a.toNat 0]
  | .clzN64 d a => [packRRR 0x45 0 d.toNat a.toNat 0]
  | .ctzN64 d a => [packRRR 0x46 0 d.toNat a.toNat 0]
  | .brevN64 d a => [packRRR 0x47 0 d.toNat a.toNat 0]
  | .selN64 m d a b => [packRRR 0x48 (m).toNat d.toNat a.toNat b.toNat]
  | .leaN64 m d a b => [packRRR 0x49 (m).toNat d.toNat a.toNat b.toNat]
  | .faddF32 m d a b => [packRRR 0x60 (m).code d.toNat a.toNat b.toNat]
  | .fmulF32 m d a b => [packRRR 0x61 (m).code d.toNat a.toNat b.toNat]
  | .ffmaF32 m d a b => [packRRR 0x62 (m).code d.toNat a.toNat b.toNat]
  | .ffmaNpF32 m d a b => [packRRR 0x63 (m).code d.toNat a.toNat b.toNat]
  | .ffmaNcF32 m d a b => [packRRR 0x64 (m).code d.toNat a.toNat b.toNat]
  | .ffmaNpcF32 m d a b => [packRRR 0x65 (m).code d.toNat a.toNat b.toNat]
  | .fminF32 d a b => [packRRR 0x66 b.litMd d.toNat a.toNat b.regCode] ++ b.litWords
  | .fmaxF32 d a b => [packRRR 0x67 b.litMd d.toNat a.toNat b.regCode] ++ b.litWords
  | .fsetF32 m d cc a b => [packRRR 0x68 (if b.isLit then 3 else (m).code) (16 * cc.code + d.toNat) a.toNat b.regCode] ++ b.litWords
  | .fclassF32 d a => [packRRR 0x69 0 d.toNat a.toNat 0]
  | .frndF32 m d a => [packRRR 0x6A (m).code d.toNat a.toNat 0]
  | .frcpF32 m d a => [packRRR 0x6B (m).code d.toNat a.toNat 0]
  | .frsqF32 m d a => [packRRR 0x6C (m).code d.toNat a.toNat 0]
  | .fsqrtF32 m d a => [packRRR 0x6D (m).code d.toNat a.toNat 0]
  | .fex2F32 m d a => [packRRR 0x6E (m).code d.toNat a.toNat 0]
  | .flg2F32 m d a => [packRRR 0x6F (m).code d.toNat a.toNat 0]
  | .fsinF32 m d a => [packRRR 0x70 (m).code d.toNat a.toNat 0]
  | .fcosF32 m d a => [packRRR 0x71 (m).code d.toNat a.toNat 0]
  | .ftanhF32 m d a => [packRRR 0x72 (m).code d.toNat a.toNat 0]
  | .hadd2Bf16x2 m d a b => [packRRR 0x73 (m).code d.toNat a.toNat b.toNat]
  | .hadd2F16x2 m d a b => [packRRR 0x74 (m).code d.toNat a.toNat b.toNat]
  | .hmul2Bf16x2 m d a b => [packRRR 0x75 (m).code d.toNat a.toNat b.toNat]
  | .hmul2F16x2 m d a b => [packRRR 0x76 (m).code d.toNat a.toNat b.toNat]
  | .hfma2Bf16x2 m d a b => [packRRR 0x77 (m).code d.toNat a.toNat b.toNat]
  | .hfma2F16x2 m d a b => [packRRR 0x78 (m).code d.toNat a.toNat b.toNat]
  | .fcvtF32F16 d a => [packRRR 0x80 0 d.toNat a.toNat 0]
  | .fcvtF32Bf16 d a => [packRRR 0x81 0 d.toNat a.toNat 0]
  | .fcvtF16F32 m d a => [packRRR 0x82 (m).code d.toNat a.toNat 0]
  | .fcvtBf16F32 m d a => [packRRR 0x83 (m).code d.toNat a.toNat 0]
  | .fcvtF16Bf16 m d a => [packRRR 0x84 (m).code d.toNat a.toNat 0]
  | .fcvtBf16F16 m d a => [packRRR 0x85 (m).code d.toNat a.toNat 0]
  | .fcvtF16x2F32 m d a b => [packRRR 0x86 (m).code d.toNat a.toNat b.toNat]
  | .fcvtBf16x2F32 m d a b => [packRRR 0x87 (m).code d.toNat a.toNat b.toNat]
  | .fcvtF32I32 m d a => [packRRR 0x88 (m).code d.toNat a.toNat 0]
  | .fcvtF32N32 m d a => [packRRR 0x89 (m).code d.toNat a.toNat 0]
  | .fcvtF32I64 m d a => [packRRR 0x8A (m).code d.toNat a.toNat 0]
  | .fcvtF32N64 m d a => [packRRR 0x8B (m).code d.toNat a.toNat 0]
  | .fcvtI32F32 m d a => [packRRR 0x8C (m).code d.toNat a.toNat 0]
  | .fcvtN32F32 m d a => [packRRR 0x8D (m).code d.toNat a.toNat 0]
  | .fcvtI64F32 m d a => [packRRR 0x8E (m).code d.toNat a.toNat 0]
  | .fcvtN64F32 m d a => [packRRR 0x8F (m).code d.toNat a.toNat 0]
  | .fcvtI16F32 m d a => [packRRR 0x90 (m).code d.toNat a.toNat 0]
  | .fcvtN16F32 m d a => [packRRR 0x91 (m).code d.toNat a.toNat 0]
  | .fcvtI8F32 m d a => [packRRR 0x92 (m).code d.toNat a.toNat 0]
  | .fcvtN8F32 m d a => [packRRR 0x93 (m).code d.toNat a.toNat 0]
  | .fcvtF32I16 d a => [packRRR 0x94 0 d.toNat a.toNat 0]
  | .fcvtF32N16 d a => [packRRR 0x95 0 d.toNat a.toNat 0]
  | .fcvtF32I8 d a => [packRRR 0x96 0 d.toNat a.toNat 0]
  | .fcvtF32N8 d a => [packRRR 0x97 0 d.toNat a.toNat 0]
  | .ballot d a => [packRRR 0xC0 0 d.toNat a.code 0]
  | .voteEvery d a => [packRRR 0xC1 0 d.toNat a.code 0]
  | .voteSome d a => [packRRR 0xC2 0 d.toNat a.code 0]
  | .voteAgree d a => [packRRR 0xC3 0 d.toNat a.code 0]
  | .shflIdx m d a b => [packRRR 0xC4 (if b.isLit then 3 else (m).code) d.toNat a.toNat b.regCode] ++ b.litWords
  | .shflUp m d a b => [packRRR 0xC5 (if b.isLit then 3 else (m).code) d.toNat a.toNat b.regCode] ++ b.litWords
  | .shflDown m d a b => [packRRR 0xC6 (if b.isLit then 3 else (m).code) d.toNat a.toNat b.regCode] ++ b.litWords
  | .shflXor m d a b => [packRRR 0xC7 (if b.isLit then 3 else (m).code) d.toNat a.toNat b.regCode] ++ b.litWords
  | .xchm d a b => [packRRR 0xC8 b.litMd d.toNat a.toNat b.regCode] ++ b.litWords
  | .redwI32 d a op => [packRRR 0xC9 0 d.toNat a.toNat op.code]
  | .redwN32 d a op => [packRRR 0xCA 0 d.toNat a.toNat op.code]
  | .redwF32 m d a op => [packRRR 0xCB (m).code d.toNat a.toNat op.code]
  | .redwB d a op => [packRRR 0xCC 0 d.toNat a.toNat op.code]
  | .scanwI32 d a op excl => [packRRR 0xCD 0 d.toNat a.toNat (4 * excl.toNat + op.code)]
  | .scanwN32 d a op excl => [packRRR 0xCE 0 d.toNat a.toNat (4 * excl.toNat + op.code)]
  | .scanwF32 m d a op excl => [packRRR 0xCF (m).code d.toNat a.toNat (4 * excl.toNat + op.code)]
  | .bra off => [packBR 0xE0 off.toNat]
  | .call off => [packBR 0xE1 off.toNat]
  | .brx a => [packRRR 0xE2 0 0 a.toNat 0]
  | .callx d a => [packRRR 0xE3 0 d.toNat a.toNat 0]
  | .ret a => [packRRR 0xE4 0 0 a.toNat 0]
  | .join => [packRRR 0xE5 0 0 0 0]
  | .exit => [packRRR 0xE6 0 0 0 0]
  | .yield => [packRRR 0xE7 0 0 0 0]
  | .nop => [packRRR 0xE8 0 0 0 0]
  | .trap imm => [packRW 0xE9 0 imm.toNat]
  | .tfence => [packRRR 0xEA 0 0 0 0]
  | .bkpt imm => [packRW 0xEB 0 imm.toNat]
  | .winb imm => [packRW 0xEC 0 (16 * imm.toNat)]
  | .wina imm => [packRW 0xED 0 (16 * imm.toNat)]
  | .setfmt mode imm => [packRW 0xEE mode.code imm.toNat]
  | .srd d imm => [packRW 0xEF d.toNat imm.toNat]
  | .swr a imm => [packRW 0xF0 a.toNat imm.toNat]
  | .waitf mask => [packRW 0xF1 0 mask.toNat]
  | .waitpReg p a => [packRI 0xF2 p.code a.toNat 0]
  | .waitpImm p n => [packRI 0xF2 p.code 0 (256 + n.toNat)]
  | .clkw a => [packRRR 0xF3 0 0 a.toNat 0]
  | .cbndExact d a b => [packRRR 0x100 0 d.toNat a.toNat b.toNat]
  | .cbndRound d a b => [packRRR 0x100 1 d.toNat a.toNat b.toNat]
  | .cbndLit d a lit => [packRRR 0x100 3 d.toNat a.toNat 0, lit.toNat]
  | .cprm d a b => [packRRR 0x101 b.litMd d.toNat a.toNat b.regCode] ++ b.litWords
  | .cadd d a b => [packRRR 0x102 b.litMd d.toNat a.toNat b.regCode] ++ b.litWords
  | .cget d a sel => [packRRR 0x103 0 d.toNat a.toNat sel.code]
  | .ctstTag d a => [packRRR 0x104 0 d.toNat a.toNat 0]
  | .ctstSub d a b => [packRRR 0x104 1 d.toNat a.toNat b.toNat]
  | .cdrv d a b => [packRRR 0x105 0 d.toNat a.toNat b.toNat]
  | .ldN8 d mr => [packRM 0x110 0 d.toNat mr.c.toNat mr.off.bCode mr.off.xCode] ++ mr.off.litWords
  | .ldI8 d mr => [packRM 0x111 0 d.toNat mr.c.toNat mr.off.bCode mr.off.xCode] ++ mr.off.litWords
  | .ldN16 d mr => [packRM 0x112 0 d.toNat mr.c.toNat mr.off.bCode mr.off.xCode] ++ mr.off.litWords
  | .ldI16 d mr => [packRM 0x113 0 d.toNat mr.c.toNat mr.off.bCode mr.off.xCode] ++ mr.off.litWords
  | .ldN32 d mr => [packRM 0x114 0 d.toNat mr.c.toNat mr.off.bCode mr.off.xCode] ++ mr.off.litWords
  | .ldN64 d mr => [packRM 0x115 0 d.toNat mr.c.toNat mr.off.bCode mr.off.xCode] ++ mr.off.litWords
  | .ldaN32 sc d mr => [packRM 0x116 sc.code d.toNat mr.c.toNat mr.off.bCode mr.off.xCode] ++ mr.off.litWords
  | .ldaN64 sc d mr => [packRM 0x117 sc.code d.toNat mr.c.toNat mr.off.bCode mr.off.xCode] ++ mr.off.litWords
  | .stN8 d mr => [packRM 0x118 0 d.toNat mr.c.toNat mr.off.bCode mr.off.xCode] ++ mr.off.litWords
  | .stN16 d mr => [packRM 0x119 0 d.toNat mr.c.toNat mr.off.bCode mr.off.xCode] ++ mr.off.litWords
  | .stN32 d mr => [packRM 0x11A 0 d.toNat mr.c.toNat mr.off.bCode mr.off.xCode] ++ mr.off.litWords
  | .stN64 d mr => [packRM 0x11B 0 d.toNat mr.c.toNat mr.off.bCode mr.off.xCode] ++ mr.off.litWords
  | .stlN32 sc d mr => [packRM 0x11C sc.code d.toNat mr.c.toNat mr.off.bCode mr.off.xCode] ++ mr.off.litWords
  | .stlN64 sc d mr => [packRM 0x11D sc.code d.toNat mr.c.toNat mr.off.bCode mr.off.xCode] ++ mr.off.litWords
  | .ldc d mr => [packRM 0x11E 0 d.toNat mr.c.toNat mr.off.bCode mr.off.xCode] ++ mr.off.litWords
  | .stc d mr => [packRM 0x11F 0 d.toNat mr.c.toNat mr.off.bCode mr.off.xCode] ++ mr.off.litWords
  | .pref l2 mr => [packRM 0x120 l2.toNat 0 mr.c.toNat mr.off.bCode mr.off.xCode] ++ mr.off.litWords
  | .cwb dev mr => [packRM 0x121 (4 + dev.toNat) 0 mr.c.toNat mr.off.bCode mr.off.xCode] ++ mr.off.litWords
  | .cinv mr => [packRM 0x122 0 0 mr.c.toNat mr.off.bCode mr.off.xCode] ++ mr.off.litWords
  | .atomAddN32 sc d mr => [packRM 0x140 sc.code d.toNat mr.c.toNat mr.off.bCode mr.off.xCode] ++ mr.off.litWords
  | .atomAddN64 sc d mr => [packRM 0x141 sc.code d.toNat mr.c.toNat mr.off.bCode mr.off.xCode] ++ mr.off.litWords
  | .atomAddF32 sc d mr => [packRM 0x142 sc.code d.toNat mr.c.toNat mr.off.bCode mr.off.xCode] ++ mr.off.litWords
  | .atomMinI32 sc d mr => [packRM 0x143 sc.code d.toNat mr.c.toNat mr.off.bCode mr.off.xCode] ++ mr.off.litWords
  | .atomMinN32 sc d mr => [packRM 0x144 sc.code d.toNat mr.c.toNat mr.off.bCode mr.off.xCode] ++ mr.off.litWords
  | .atomMinI64 sc d mr => [packRM 0x145 sc.code d.toNat mr.c.toNat mr.off.bCode mr.off.xCode] ++ mr.off.litWords
  | .atomMinN64 sc d mr => [packRM 0x146 sc.code d.toNat mr.c.toNat mr.off.bCode mr.off.xCode] ++ mr.off.litWords
  | .atomMaxI32 sc d mr => [packRM 0x147 sc.code d.toNat mr.c.toNat mr.off.bCode mr.off.xCode] ++ mr.off.litWords
  | .atomMaxN32 sc d mr => [packRM 0x148 sc.code d.toNat mr.c.toNat mr.off.bCode mr.off.xCode] ++ mr.off.litWords
  | .atomMaxI64 sc d mr => [packRM 0x149 sc.code d.toNat mr.c.toNat mr.off.bCode mr.off.xCode] ++ mr.off.litWords
  | .atomMaxN64 sc d mr => [packRM 0x14A sc.code d.toNat mr.c.toNat mr.off.bCode mr.off.xCode] ++ mr.off.litWords
  | .atomAndN32 sc d mr => [packRM 0x14B sc.code d.toNat mr.c.toNat mr.off.bCode mr.off.xCode] ++ mr.off.litWords
  | .atomAndN64 sc d mr => [packRM 0x14C sc.code d.toNat mr.c.toNat mr.off.bCode mr.off.xCode] ++ mr.off.litWords
  | .atomOrN32 sc d mr => [packRM 0x14D sc.code d.toNat mr.c.toNat mr.off.bCode mr.off.xCode] ++ mr.off.litWords
  | .atomOrN64 sc d mr => [packRM 0x14E sc.code d.toNat mr.c.toNat mr.off.bCode mr.off.xCode] ++ mr.off.litWords
  | .atomXorN32 sc d mr => [packRM 0x14F sc.code d.toNat mr.c.toNat mr.off.bCode mr.off.xCode] ++ mr.off.litWords
  | .atomXorN64 sc d mr => [packRM 0x150 sc.code d.toNat mr.c.toNat mr.off.bCode mr.off.xCode] ++ mr.off.litWords
  | .atomExchN32 sc d mr => [packRM 0x151 sc.code d.toNat mr.c.toNat mr.off.bCode mr.off.xCode] ++ mr.off.litWords
  | .atomExchN64 sc d mr => [packRM 0x152 sc.code d.toNat mr.c.toNat mr.off.bCode mr.off.xCode] ++ mr.off.litWords
  | .atomCasN32 sc d mr => [packRM 0x153 sc.code d.toNat mr.c.toNat mr.off.bCode mr.off.xCode] ++ mr.off.litWords
  | .atomCasN64 sc d mr => [packRM 0x154 sc.code d.toNat mr.c.toNat mr.off.bCode mr.off.xCode] ++ mr.off.litWords
  | .redAddN32 sc d mr => [packRM 0x160 sc.code d.toNat mr.c.toNat mr.off.bCode mr.off.xCode] ++ mr.off.litWords
  | .redAddN64 sc d mr => [packRM 0x161 sc.code d.toNat mr.c.toNat mr.off.bCode mr.off.xCode] ++ mr.off.litWords
  | .redAddF32 sc d mr => [packRM 0x162 sc.code d.toNat mr.c.toNat mr.off.bCode mr.off.xCode] ++ mr.off.litWords
  | .redMinI32 sc d mr => [packRM 0x163 sc.code d.toNat mr.c.toNat mr.off.bCode mr.off.xCode] ++ mr.off.litWords
  | .redMinN32 sc d mr => [packRM 0x164 sc.code d.toNat mr.c.toNat mr.off.bCode mr.off.xCode] ++ mr.off.litWords
  | .redMinI64 sc d mr => [packRM 0x165 sc.code d.toNat mr.c.toNat mr.off.bCode mr.off.xCode] ++ mr.off.litWords
  | .redMinN64 sc d mr => [packRM 0x166 sc.code d.toNat mr.c.toNat mr.off.bCode mr.off.xCode] ++ mr.off.litWords
  | .redMaxI32 sc d mr => [packRM 0x167 sc.code d.toNat mr.c.toNat mr.off.bCode mr.off.xCode] ++ mr.off.litWords
  | .redMaxN32 sc d mr => [packRM 0x168 sc.code d.toNat mr.c.toNat mr.off.bCode mr.off.xCode] ++ mr.off.litWords
  | .redMaxI64 sc d mr => [packRM 0x169 sc.code d.toNat mr.c.toNat mr.off.bCode mr.off.xCode] ++ mr.off.litWords
  | .redMaxN64 sc d mr => [packRM 0x16A sc.code d.toNat mr.c.toNat mr.off.bCode mr.off.xCode] ++ mr.off.litWords
  | .redAndN32 sc d mr => [packRM 0x16B sc.code d.toNat mr.c.toNat mr.off.bCode mr.off.xCode] ++ mr.off.litWords
  | .redAndN64 sc d mr => [packRM 0x16C sc.code d.toNat mr.c.toNat mr.off.bCode mr.off.xCode] ++ mr.off.litWords
  | .redOrN32 sc d mr => [packRM 0x16D sc.code d.toNat mr.c.toNat mr.off.bCode mr.off.xCode] ++ mr.off.litWords
  | .redOrN64 sc d mr => [packRM 0x16E sc.code d.toNat mr.c.toNat mr.off.bCode mr.off.xCode] ++ mr.off.litWords
  | .redXorN32 sc d mr => [packRM 0x16F sc.code d.toNat mr.c.toNat mr.off.bCode mr.off.xCode] ++ mr.off.litWords
  | .redXorN64 sc d mr => [packRM 0x170 sc.code d.toNat mr.c.toNat mr.off.bCode mr.off.xCode] ++ mr.off.litWords
  | .fence m sc => [packRRR 0x171 (m).code sc.code 0 0]
  | .xfence sc a b => [packRRR 0x172 0 sc.code a.code b.code]
  | .tbegin => [packRRR 0x173 0 0 0 0]
  | .tend d => [packRRR 0x174 0 d.toNat 0 0]
  | .tabort b => [packRRR 0x175 0 0 0 b.toNat]
  | .tstat d => [packRRR 0x176 0 d.toNat 0 0]
  | .barinit a b => [packRRR 0x177 0 0 a.toNat b.toNat]
  | .bararr d a b => [packRRR 0x178 0 d.toNat a.toNat b.toNat]
  | .bararrNobytes d a => [packRRR 0x178 1 d.toNat a.toNat 0]
  | .bararrLit d a lit => [packRRR 0x178 3 d.toNat a.toNat 0, lit.toNat]
  | .barwait d a b => [packRRR 0x179 0 d.toNat a.toNat b.toNat]
  | .bartst d a b => [packRRR 0x17A 0 d.toNat a.toNat b.toNat]
  | .bardrop a => [packRRR 0x17B 0 0 a.toNat 0]
  | .barinv a => [packRRR 0x17C 0 0 a.toNat 0]
  | .barinvFree a => [packRRR 0x17C 1 0 a.toNat 0]
  | .barexp a b => [packRRR 0x17D 0 0 a.toNat b.toNat]
  | .barexpLit a lit => [packRRR 0x17D 3 0 a.toNat 0, lit.toNat]
  | .mred op ty a b => [packRRR 0x17E 0 (4 * ty.code + op.code) a.toNat b.toNat]
  | .mrwait d b => [packRRR 0x17F 0 d.toNat 0 b.toNat]
  | .board d a b => [packRRR 0x180 0 d.toNat a.toNat b.toNat]
  | .alight d a => [packRRR 0x181 0 d.toNat a.toNat 0]
  | .bcapAdd d a b => [packRRR 0x182 0 d.toNat a.toNat b.toNat]
  | .bcapMin m d a b => [packRRR 0x183 (m).toNat d.toNat a.toNat b.toNat]
  | .bcapMax m d a b => [packRRR 0x184 (m).toNat d.toNat a.toNat b.toNat]
  | .bcapAnd d a b => [packRRR 0x185 0 d.toNat a.toNat b.toNat]
  | .bcapOr d a b => [packRRR 0x186 0 d.toNat a.toNat b.toNat]
  | .bcapSwap d a b => [packRRR 0x187 0 d.toNat a.toNat b.toNat]
  | .bcapCas d a b => [packRRR 0x188 0 d.toNat a.toNat b.toNat]
  | .bcapFadd d a b => [packRRR 0x189 0 d.toNat a.toNat b.toNat]
  | .bread d a => [packRRR 0x18A 0 d.toNat a.toNat 0]
  | .bpass a => [packRRR 0x18B 0 0 a.toNat 0]
  | .mmaBf16 m d a b => [packRRR 0x190 (m).toNat d.toNat a.toNat b.toNat]
  | .mmaF16 m d a b => [packRRR 0x191 (m).toNat d.toNat a.toNat b.toNat]
  | .mmaF32 m d a b => [packRRR 0x192 (m).toNat d.toNat a.toNat b.toNat]
  | .mmaK4 m d a b => [packRRR 0x193 (m).toNat d.toNat a.toNat b.toNat]
  | .mmaI8 m d a b => [packRRR 0x194 (m).toNat d.toNat a.toNat b.toNat]
  | .mmabXor m d a b => [packRRR 0x195 (m).toNat d.toNat a.toNat b.toNat]
  | .mmabAnd m d a b => [packRRR 0x196 (m).toNat d.toNat a.toNat b.toNat]
  | .accz => [packRRR 0x197 0 0 0 0]
  | .acczAll => [packRRR 0x197 1 0 0 0]
  | .accldF32 a => [packRRR 0x198 0 0 a.toNat 0]
  | .accstF32 a => [packRRR 0x199 0 0 a.toNat 0]
  | .accsv a => [packRRR 0x19A 0 0 a.toNat 0]
  | .accrs a => [packRRR 0x19B 0 0 a.toNat 0]
  | .accmx m d b => [packRRR 0x19C (m).toNat d.toNat 0 b.toNat]
  | .accexs d a b => [packRRR 0x19D 0 d.toNat a.toNat b.toNat]
  | .accmsk => [packRRR 0x19E 0 0 0 0]
  | .cbld k a => [packRRR 0x19F 0 k.toNat a.toNat 0]
  | .accldBf16 a => [packRRR 0x1A0 0 0 a.toNat 0]
  | .accldF16 a => [packRRR 0x1A1 0 0 a.toNat 0]
  | .accstBf16 a => [packRRR 0x1A2 0 0 a.toNat 0]
  | .accstF16 a => [packRRR 0x1A3 0 0 a.toNat 0]
  | .accstI8 a b => [packRRR 0x1A4 0 0 a.toNat b.toNat]
  | .xtile k a => [packRRR 0x1A5 0 k.toNat a.toNat 0]
  | .xtileCo k a b => [packRRR 0x1A5 1 k.toNat a.toNat b.toNat]
  | .xstrm k a => [packRRR 0x1A6 0 k.toNat a.toNat 0]
  | .xstrmCo k a b => [packRRR 0x1A6 1 k.toNat a.toNat b.toNat]
  | .xchain d a b => [packRRR 0x1A7 0 d.toNat a.toNat b.toNat]
  | .xstat m d b => [packRRR 0x1A8 (m).toNat d.toNat 0 b.toNat]
  | .xstop b => [packRRR 0x1A9 0 0 0 b.toNat]
  | .chkt d a k => [packRRR 0x1AA 0 d.toNat a.toNat k.toNat]
  | .chkw a k => [packRRR 0x1AB 0 0 a.toNat k.toNat]
  | .nfork d a => [packRRR 0x1B0 0 d.toNat a.toNat 0]
  | .nprune d a => [packRRR 0x1B1 0 d.toNat a.toNat 0]
  | .ncommit m d a => [packRRR 0x1B2 (m).toNat d.toNat a.toNat 0]
  | .nquery m d a => [packRRR 0x1B3 (m).toNat d.toNat a.toNat 0]
  | .ntag a => [packRRR 0x1B4 0 0 a.toNat 0]
  | .ntagClr => [packRRR 0x1B4 1 0 0 0]
  | .maskg m a b => [packRRR 0x1B5 (m).toNat 0 a.toNat b.toNat]
  | .kvmap m d a b => [packRRR 0x1B6 (m).toNat d.toNat a.toNat b.toNat]
  | .kvref d a b => [packRRR 0x1B7 0 d.toNat a.toNat b.toNat]
  | .kvrel d a b => [packRRR 0x1B8 0 d.toNat a.toNat b.toNat]
  | .kvshoot a b => [packRRR 0x1B9 0 0 a.toNat b.toNat]
  | .lnch d a b => [packRRR 0x1BA 0 d.toNat a.toNat b.toNat]
  | .lcancel d a => [packRRR 0x1BB 0 d.toNat a.toNat 0]
  | .ljoin d a => [packRRR 0x1BC 0 d.toNat a.toNat 0]
  | .repairResume _ => []
  | .repairKill _ => []
  | .repairSplit _ => []
  | .repairFuse _ => []
  | .repairKillwarp _ => []
  | .clauseStart _ _ => []
  | .fragmentWake _ => []
  | .deadFragmentFree _ => []
  | .memoryOpComplete _ _ => []
  | .sliceAccess _ _ _ => []
  | .solitaryGrant => []
  | .peerPacketArrival _ => []
  | .peerAck _ _ _ _ _ => []
  | .matrixKStep _ _ => []
  | .engineQueueOp _ _ => []
  | .transferRecordFetch _ _ => []
  | .chunkComplete _ _ _ => []
  | .chainRecordStep _ _ => []
  | .meshReductionInput _ _ _ _ _ => []
  | .meshReductionTimeout _ _ _ _ => []
  | .meshReductionResult _ _ _ _ => []
  | .beadPass _ _ => []
  | .boardMarkReply _ => []
  | .alightHomeWrite _ => []
  | .treeCommandArrival _ => []
  | .nodeRewriteAck _ => []
  | .pruneKillDelivery _ _ => []
  | .pruneReleaseDone _ _ => []
  | .hallmarkCopyComplete _ => []
  | .pageFree _ => []
  | .hallmarkScrubCheck _ => []
  | .kvshootAck _ => []
  | .treeCmdOpen _ _ => []
  | .treeCmdClose _ _ => []
  | .treeCmdFlatten _ _ => []
  | .doorbellTail _ _ => []
  | .doorbellWithdraw _ _ => []
  | .doorbellWithdrawCancel _ _ => []
  | .doorbellCancel _ _ => []
  | .queueMap _ => []
  | .sliceExpiry _ _ => []
  | .packetTake _ _ => []
  | .gangAdmission _ _ => []
  | .startHoldRelease _ => []
  | .candidateBlocking _ => []
  | .gangParked _ => []
  | .gangDrained _ => []
  | .parklimExpiry _ => []
  | .runlimExpiry _ => []
  | .unitEnd _ => []
  | .contextIdFree _ => []
  | .faultQueueCopy _ => []
  | .dieFqackRetry _ _ _ => []
  | .dieFqackFail _ _ _ => []
  | .tlbiRange _ _ => []
  | .tlbiContext _ => []
  | .tlbiAll => []
  | .tlbiComplete => []
  | .migrationGo _ _ => []
  | .migrationCopyDone _ => []
  | .migrationSwitch _ => []
  | .migrationAbort _ => []
  | .nocWindowExpiry _ _ => []
  | .mredDescValidate _ _ _ => []
  | .mredDescInvalidate _ _ => []
  | .peerLoss _ => []
  | .quiesceReceived _ => []
  | .quiesceClear => []
  | .bridlePortFail _ => []
  | .circQuotaInvalidate _ => []
  | .circClearBead _ => []
  | .faultRecordPost _ => []
  | .handlerLaunchStart _ => []
  | .uncorrectableError _ => []
  | .correctableError _ => []
  | .patrolScrub _ => []
  | .hostBar4Write _ _ => []
  | .hostBar4Read _ _ => []
  | .bar4Resize _ => []
  | .csrWrite _ _ _ => []
  | .powerOnReset => []
  | .bootStageComplete _ => []
  | .powerOff => []
  | .bootCommit => []
  | .attestGo => []
  | .attestComplete => []
  | .throttleStepDown _ => []
  | .throttleRecovery => []
  | .thermalShutdown => []
  | .unassignedOpcode w => [w.toNat]

/-- The bytes of an instruction as they stand in memory (R10, R40). -/
def encodeBytes (i : Instr) : List Byte := (encode i).flatMap bytesOfWord

end Sys2Proof
end

