-- ==== Sys2Proof/Machine/Map.lean ====
section
/-! DEFINITION. Sparse data by key: lists of key and value in rising key order, and rising lists of numbers as sets. -/
namespace Sys2Proof.Machine

/-- Sparse data: pairs in strictly rising key order. -/
abbrev Map (α : Type) := List (Nat × α)

/-- The value at a key. -/
def Map.look {α : Type} : Map α → Nat → Option α
  | [], _ => none
  | (k, v) :: t, n => if k = n then some v else Map.look t n

/-- The value at a key, or what an unlisted key reads as. -/
def Map.lookD {α : Type} (m : Map α) (n : Nat) (d : α) : α := (Map.look m n).getD d

/-- Write the value at a key, keeping the order. -/
def Map.put {α : Type} : Map α → Nat → α → Map α
  | [], n, x => [(n, x)]
  | (k, v) :: t, n, x =>
    if n < k then (n, x) :: (k, v) :: t
    else if n = k then (n, x) :: t
    else (k, v) :: Map.put t n x

/-- Remove a key. -/
def Map.del {α : Type} : Map α → Nat → Map α
  | [], _ => []
  | (k, v) :: t, n => if k = n then Map.del t n else (k, v) :: Map.del t n

/-- Write a value where `d` is what an unlisted key reads as: writing `d` removes the entry. -/
def Map.putD {α : Type} [DecidableEq α] (m : Map α) (n : Nat) (x d : α) : Map α :=
  if x = d then Map.del m n else Map.put m n x

/-- Change the value at a key, if there is one. -/
def Map.edit {α : Type} (m : Map α) (n : Nat) (f : α → α) : Map α :=
  match Map.look m n with
  | some v => Map.put m n (f v)
  | none => m

/-- Whether a key is listed. -/
def Map.has {α : Type} (m : Map α) (n : Nat) : Bool := (Map.look m n).isSome

/-- The keys. -/
def Map.keys {α : Type} (m : Map α) : List Nat := m.map (·.1)

/-- The values. -/
def Map.vals {α : Type} (m : Map α) : List α := m.map (·.2)

/-- Change every value. -/
def Map.each {α β : Type} (m : Map α) (f : Nat → α → β) : Map β := m.map fun p => (p.1, f p.1 p.2)

/-- The keys rise strictly. -/
def Map.rising {α : Type} : Map α → Bool
  | [] => true
  | [_] => true
  | (k, _) :: (l, v) :: t => decide (k < l) && Map.rising ((l, v) :: t)

/-- A set of numbers: a strictly rising list. -/
abbrev NSet := List Nat

/-- Whether a number is in the set. -/
def NSet.has (s : NSet) (n : Nat) : Bool := s.any (· == n)

/-- Put a number in the set. -/
def NSet.add : NSet → Nat → NSet
  | [], n => [n]
  | k :: t, n => if n < k then n :: k :: t else if n = k then k :: t else k :: NSet.add t n

/-- Take a number out of the set. -/
def NSet.del (s : NSet) (n : Nat) : NSet := s.filter (· != n)

/-- Put in or take out. -/
def NSet.set (s : NSet) (n : Nat) (b : Bool) : NSet := if b then NSet.add s n else NSet.del s n

/-- The numbers `a`, `a+1`, … `a+n-1`. -/
def span (a n : Nat) : List Nat := (List.range n).map (a + ·)

/-- The least number below `n` for which `p` holds. -/
def leastBelow (n : Nat) (p : Nat → Bool) : Option Nat := (List.range n).find? p

/-- The threads of a mask in ascending order. -/
def threads (m : Mask) : List Nat := (List.range 32).filter fun t => m.getLsbD t

/-- The mask of one thread. -/
def bit (t : Nat) : Mask := 1#32 <<< t

/-- The mask of the threads for which `p` holds. -/
def maskOf (p : Nat → Bool) : Mask := (List.range 32).foldl (fun m t => if p t then m ||| bit t else m) 0#32

/-- All 32 threads. -/
def allThreads : Mask := 0xFFFFFFFF#32

/-- The number of bits set. -/
def popCount {n : Nat} (x : BitVec n) : Nat := ((List.range n).filter fun i => x.getLsbD i).length

/-- The lowest thread of a mask. -/
def lowest (m : Mask) : Option Nat := (List.range 32).find? fun t => m.getLsbD t

end Sys2Proof.Machine
end

