-- ==== Sys2Proof/Machine/Types.lean ====
section
/-! DEFINITION. The parts of the state, agent by agent, as plain data: fragments and warps, operations in flight, units, cores. -/
namespace Sys2Proof.Machine

/-! ### Fragments and warps (01, 08) -/

/-- States of a fragment (Table 8.2); a free fragment has no entry. -/
inductive FStatus where
  | runnable | parkedWait | parkedBarrier | parkedFault | dead
  deriving DecidableEq, Repr

/-- What a word that waits at issue needs (Table 8.3, code 8), in the threads of a mask where one is given: no operation in flight still
has to write extent registers [r, r + n) or a predicate; room in a path's counter, and in the flag its operation is bound to (R32, R299); no
TEND of the threads in flight; their earlier accesses performed, those on unordered pages counted or not (R288); room in the core's engine
queue, or for n operations in its station queue; no engine operation of the threads, none on the rows of an accumulator window, none on a
codebook, no XTILE on a bitmap; the solitary grant (R188); room for n more packets to a device (R366). -/
inductive Need where
  | regs (r n : Nat) (m : Mask)
  | pred (p : PredReg) (m : Mask)
  | path (p : PathId)
  | flag
  | tend (m : Mask)
  | performed (m : Mask) (unordered : Bool)
  | engine
  | station (n : Nat)
  | matrix (m : Mask)
  | rows (win : Nat) (m : Mask)
  | codebook (k : Nat)
  | bitmap (k : Nat)
  | grant (t : Nat)
  | window (dev n : Nat)
  | pin (page n : Nat)
  deriving DecidableEq, Repr

/-- Wake conditions with what they compare (Table 8.3). -/
inductive Wake where
  | none
  | flags (m : BitVec 12)
  | path (p : PathId) (limit : Nat)
  | barrier (off : Nat) (tok : BitVec 16) (pd : PredReg)
  | chunks (k : Nat) (m : Word64)
  | clock (t : Nat)
  | join
  | ljoin (ctx addr : Nat)
  | issue (needs : List Need) (remote : Bool)
  | station (op : Nat)
  | repair (q : Nat)
  | mesh (desc seqNo : Nat)
  | bead (b : Nat)
  | park
  deriving DecidableEq, Repr

/-- The clause in progress (R40, R47): its header, length, flag bindings, yield hint, and long-latency words passed. -/
structure Clause where
  hdr : Nat
  len : Nat
  set1 : Nat
  set2 : Nat
  yld : Bool
  ll : Nat
  deriving DecidableEq, Repr

/-- The fault record attached to a fragment (Table 16.2); the fields that name the unit are read when it is posted.
`core` is the core that attached it, which posts it (R418). `await` lists the fault-buffer entries it is parked on while a translation fault waits
for the driver's answer (R353): core, whether the entry is a peer export miss, and the number of its 128 KiB range. -/
structure FaultRec where
  cause : Nat
  replay : Bool
  serial : BitVec 16
  hint : Nat
  pc : Nat
  mask : Mask
  done : Mask
  addr : Word64
  core : Nat
  await : List (Nat × Bool × Nat)
  deriving DecidableEq, Repr

/-- A fragment table entry (Table 8.1) with the clause state of R47, the threads of the present word that are done (R274), and whether it has
kept its lane since the lane selected it (R280). -/
structure Frag where
  mask : Mask
  pc : Nat
  rpc : Word
  actm : Mask
  fmt : BitVec 14
  sfmt : BitVec 14
  win : BitVec 5
  swin : BitVec 5
  prec : BitVec 5
  status : FStatus
  wake : Wake
  hold : Bool
  frec : Option FaultRec
  clause : Option Clause
  done : Mask
  lane : Bool
  deriving DecidableEq, Repr

/-- A split record (R266). -/
structure SplitRec where
  rpc : Word
  sfmt : BitVec 14
  swin : BitVec 5
  prec : BitVec 5
  deriving DecidableEq, Repr

/-- The tag of a register (R21). -/
inductive RTag where
  | uniform | affine | general
  deriving DecidableEq, Repr

/-- States of a thread's transaction (R185). -/
inductive TxState where
  | idle | opened | doomed
  deriving DecidableEq, Repr

/-- A thread's transaction (R185 to R190): state, the fields of Table 6.5, the read set (word and value), the write set (word,
value and the mask of buffered bytes), the virtual base, size and frame of the pages of both, the aperture page and the operation of every
store that is buffered (R404), the snapshot of R94, whether the transaction is solitary, and the exceptions raised up to a TEND that
has still to commit. -/
structure Txn where
  st : TxState
  code : BitVec 4
  user : BitVec 8
  count : Nat
  solo : Bool
  rset : Map Word
  wset : Map (Word × BitVec 4)
  pages : List (Nat × Nat × Nat)
  pins : List (Nat × Nat)
  snapFlags : BitVec 5
  snapRow : Option Nat
  snapMx : BitVec 24
  held : BitVec 5
  deriving DecidableEq, Repr

/-- A thread that has begun no transaction. -/
def Txn.idle : Txn :=
  { st := .idle, code := 0, user := 0, count := 0, solo := false, rset := [], wset := [], pages := [], pins := [], snapFlags := 0, snapRow := none,
    snapMx := 0, held := 0 }

/-- A fault-buffer entry (R351, Table 12.5); `copied` once it is in the fault queue; `ord` is its place in posting order. -/
structure FbEntry where
  ctx : Nat
  va : Nat
  src : Nat
  kind : Nat
  dev : Nat
  copied : Bool
  ord : Nat
  deriving DecidableEq, Repr

/-- Threads that fault with one cause: its code (Table 16.1), address and repair hint, whether the record has REPLAY set, and for a
translation fault the fault-buffer entries to post. -/
structure Bad where
  cause : Nat
  addr : Word64
  hint : Nat
  replay : Bool
  mask : Mask
  fb : List FbEntry
  deriving DecidableEq, Repr

/-- Where a fragment stood as it issued a word: PC, clause, active threads, format and window. -/
structure Stand where
  pc : Nat
  clause : Option Clause
  actm : Mask
  fmt : BitVec 14
  win : BitVec 5
  deriving DecidableEq, Repr

/-- Faults of a word found after it issued, by cause: taken at the word, where the fragment then stood (R165), or with no such place by the
whole fragment where it stands (R241). They are taken when the fragment that holds the threads is runnable, the one state in which a fragment
faults (Table 8.2). -/
structure Late where
  at_ : Option Stand
  bads : List Bad
  deriving DecidableEq, Repr

/-- A warp: its slot, register extent, registers (key 32·register + thread), register tags, capability tags per quad, predicates,
flags, transactions, node tag, fragments and split records, the faults of issued words still to be taken, and whether the tree unit killed it
(R394). An unlisted register is zero and uniform. -/
structure Warp where
  slot : Nat
  extent : Nat
  regs : Map Word
  rtags : Map RTag
  qtags : Map Mask
  preds : Map Mask
  cbank : BitVec 2
  node : Word64
  fflags : Map (BitVec 5)
  txn : Map Txn
  exited : Mask
  killed : Mask
  frags : Map Frag
  splits : Map SplitRec
  lastFidx : Nat
  lastYield : Bool
  lates : List Late
  pruned : Bool
  deriving DecidableEq, Repr

/-! ### Memory accesses in flight (05, 06, 09, 12) -/

/-- Page kinds (R287). -/
inductive PKind where
  | rc | so | u
  deriving DecidableEq, Repr, Inhabited

/-- The leaf that an access was translated with, as far as it matters later: whether the page allows tags, its virtual base and size. -/
structure PageUse where
  tags : Bool
  base : Nat
  size : Nat
  deriving DecidableEq, Repr

/-- Where one byte of an access lies: a physical byte with the kind of its page, the context and virtual address it was
translated from and the leaf used; a byte of a unit's scratchpad; a host bus address; a byte of another module, by device, context and virtual address at the
target and the number of its packet (R365). -/
inductive ByteLoc where
  | phys (pa : Nat) (kind : PKind) (ctx va : Nat) (page : PageUse)
  | scr (u off : Nat)
  | host (a : Nat)
  | peer (dev tctx va seqNo : Nat)
  deriving DecidableEq, Repr

/-- One indivisible access of one thread: an aligned access whole, or one byte of an unaligned one (R285). `addr` is the address A of the
thread's access, `off` the part's byte offset within it; `data` the bytes to store, or those a load's part has read; `tag` the tag a tagged
STC stores; `cmp` the compare value of a cas; `ctag` whether a capability load may set the tag (R168); `tx` whether the thread was Open at
issue (R186). -/
structure Item where
  thread : Nat
  addr : Nat
  off : Nat
  locs : List ByteLoc
  kind : AccKind
  data : BitVec 128
  tag : Bool
  cmp : Word64
  ctag : Bool
  tx : Bool
  done : Bool
  deriving DecidableEq, Repr

/-- Where a load or atomic puts its result: first extent register, number of registers, size in bytes, sign extension, and whether
it is a capability load that may set the tag. -/
structure Dst where
  reg : Nat
  n : Nat
  size : Nat
  sext : Bool
  cap : Bool
  deriving DecidableEq, Repr

/-- Matrix instruction kinds (Table 7.1). -/
inductive MmaKind where
  | bf16 | f16 | f32 | k4 | i8 | xor | and
  deriving DecidableEq, Repr

/-- Element formats of accumulator loads and stores (07). -/
inductive AccFmt where
  | f32 | bf16 | f16 | i8
  deriving DecidableEq, Repr

/-- What an operation of the engine queue does (R215), with its operands taken at issue; per-thread values are keyed by thread.
`mma` carries the A copy (R216), the codebook for K4, the B source (a scratch offset, or a stream FIFO and its first byte), and the
progress counter (R218). -/
inductive EngKind where
  | mma (k : MmaKind) (n : Nat) (fifo : Option Nat) (start : Nat) (a : Map (List Word)) (cb : Nat) (step : Nat)
  | accz (all : Bool)
  | accld (f : AccFmt) (off : Nat)
  | accst (f : AccFmt) (off : Nat) (scale : Map Word)
  | accsv (off : Nat)
  | accrs (off : Nat)
  | accmx (n : Nat) (acc : Option (Map Word))
  | accexs (n : Nat) (mx : Map Word)
  | accmsk
  | maskg (ready : Bool) (planes : Map (BitVec 128))
  deriving DecidableEq, Repr

/-- What an operation in flight does; `launch` and `cancel` carry the packet of an LNCH and the record of an LCANCEL. -/
inductive OpKind where
  | mem (acq rel : Option Scope)
  | fence (m : FenceKind) (sc : Scope)
  | pref (l2 : Bool)
  | cwb (dev : Bool)
  | cinv
  | tend
  | cbld (k : Nat)
  | engine (e : EngKind) (accwin : Nat)
  | copy
  | chain (slot : Nat)
  | xstop (slot : Nat)
  | mred (desc seqNo : Nat)
  | circ (left : Mask)
  | tree (left : Mask)
  | launch (queue : Nat) (packet : List Byte)
  | cancel (addr : Nat)
  deriving DecidableEq, Repr

/-- An operation in flight (R32, R299): its number, warp and issuing fragment, path, flag, recorded mask, effect and accesses, the registers or
predicate it will write (first extent register), where the fragment stood (for a fault found as its data returns, R165), the faults found
so far, its place in its core's issue order, and whether it has completed. `circ` and `tree` carry the threads whose result is still to come. A completed operation stays listed while an earlier one of its path is counted (R172). -/
structure Op where
  id : Nat
  warp : Nat
  fidx : Nat
  path : Option PathId
  flag : Option Nat
  mask : Mask
  kind : OpKind
  items : List Item
  dst : Option Dst
  pd : Option PredReg
  at_ : Stand
  fails : List Bad
  ord : Nat
  done : Bool
  deriving DecidableEq, Repr

/-- What a transfer operation of the engine works for (R235 to R238). -/
inductive JobKind where
  | tile (k : Nat)
  | stream (f : Nat)
  | chain (slot : Nat)
  deriving DecidableEq, Repr

/-- Where a transfer record lies (R235, R238). -/
inductive RecAddr where
  | global (va : Nat)
  | scratch (off : Nat)
  deriving DecidableEq, Repr

/-- A leaf as a walk finds it (R344, R345): the page's virtual base, size, frame, kind and rights; whether it is a page of the KV
aperture (R398). -/
structure Leaf where
  vbase : Nat
  size : Nat
  frame : Nat
  kind : PKind
  rd : Bool
  wr : Bool
  tag : Bool
  spec : Bool
  kv : Option Nat
  deriving DecidableEq, Repr

/-- A transfer in progress: the operation it belongs to, its record's address, the coordinate override, the record's 128 bytes once
fetched, the values of the elements once they are read (and rotated), the elements written, or for a stream the 64-byte pieces, ahead of their
chunk or with it, the stream range's start, the chunks complete; the node tag of the issuing warp, the
warp, its threads and the issuing word (R241); the address of an access that waits for a translation, whether the driver has answered Fail (R353), and
the translations of the aperture pages that it pins (R404, R406). -/
structure Job where
  op : Nat
  kind : JobKind
  addr : RecAddr
  co : List Word
  record : Option (List Byte)
  vals : Map Word
  sent : NSet
  start : Nat
  chunks : NSet
  node : Word64
  warp : Nat
  fidx : Nat
  mask : Mask
  pc : Nat
  waitVa : Option Nat
  failed : Bool
  pins : List Leaf
  kept : Bool
  deriving DecidableEq, Repr

/-! ### Units, cores and launches (06, 07, 11) -/

/-- An accumulator row (R2, Table 1.17): its listed columns (an unlisted one is zero), mask plane, exception counters, poison. -/
structure AccRow where
  data : Map Word
  plane : BitVec 128
  mxexc : BitVec 24
  poison : Bool
  deriving DecidableEq, Repr

/-- An accumulator row at launch (R7). -/
def AccRow.zero : AccRow := { data := [], plane := BitVec.allOnes 128, mxexc := 0, poison := false }

/-- A barrier table entry: the arrived and dropped vectors over the unit's threads (R193); the word is in the scratchpad. -/
structure Bar where
  arrived : BitVec 1024
  dropped : BitVec 1024
  deriving DecidableEq, Repr

/-- A drop of killed threads still to be made (R199): it releases their accesses before it (R288), so it waits for them; the warp, the threads, the
barriers that were registered at the kill. -/
structure DropLeft where
  warp : Nat
  mask : Mask
  offs : List Nat
  deriving DecidableEq, Repr

/-- A stream FIFO of a unit (R220): contents, the counters W, L, C, and the ranges written above L (start and length). -/
structure Stream where
  bytes : Map Byte
  w : Nat
  l : Nat
  c : Nat
  landed : List (Nat × Nat)
  deriving DecidableEq, Repr

/-- A FIFO at launch. -/
def Stream.empty : Stream := { bytes := [], w := 0, l := 0, c := 0, landed := [] }

/-- States of a chain slot (Table 7.10). -/
inductive ChainSt where
  | idle | running | stopped | faulted
  deriving DecidableEq, Repr

/-- A chain slot (R237 to R239): state, records done, resume pointer, stop request, the channel bound while it runs, and, where it
was running when its unit was evicted, the transfer to take up again (R242). -/
structure Chain where
  st : ChainSt
  recs : BitVec 24
  ptr : Nat
  stopReq : Bool
  channel : Nat
  again : Option Job
  deriving DecidableEq, Repr

/-- A slot at launch. -/
def Chain.idle : Chain := { st := .idle, recs := 0, ptr := 0, stopReq := false, channel := 0, again := none }

/-- How a unit ends (R325). -/
inductive EndClass where
  | ok | faulted | cancelled | timeout | pruned
  deriving DecidableEq, Repr

/-- A resident unit: its launch, index and core, warps, scratchpad (bytes, tagged granules, poisoned 8-byte words), accumulator rows,
codebooks, chunk bitmaps, stream FIFOs, chain slots, barrier table, operations in issue order, transfers, and its cluster: rank,
size minus one, the units by rank, and the ranks that have ended (R154); the start hold (R335), the park request (R337), whether a warp was
killed by a fault or by a cancel (R325), whether the unit was cancelled or killed whole (R446), whether a fatal fault or a cluster kill ended it
(R426), the drops of killed threads that wait for their accesses, and the address of its save image (R339). -/
structure KUnit where
  launch : Nat
  index : Nat
  core : Nat
  warps : Map Warp
  scratch : Map Byte
  stags : NSet
  spoison : NSet
  frozen : Bool
  acc : Map AccRow
  cbs : Map (BitVec 256)
  bitmaps : Map Word64
  streams : Map Stream
  chains : Map Chain
  bars : Map Bar
  ops : List Op
  nextOp : Nat
  jobs : List Job
  rank : Nat
  sizeM1 : Nat
  mates : Map Nat
  rankEnded : NSet
  startHold : Bool
  parkReq : Bool
  endFault : Bool
  endCancel : Bool
  cut : Bool
  lost : Bool
  drops : List DropLeft
  image : Nat
  deriving DecidableEq, Repr

/-! ### Cores (06, 08, 09, 12, 16) -/

/-- A partial of a word or pair (R180): operation, operand size, value. -/
structure RedVal where
  op : RmwOp
  size : Nat
  val : Word64
  deriving DecidableEq, Repr

/-- An update-only sector (R180): its number and the partials by word. -/
structure RedSector where
  sector : Nat
  vals : Map RedVal
  deriving DecidableEq, Repr

/-- A private copy of a word (R297): its value, the tag of its granule, whether its page was unordered, and when it was made. -/
structure Copy where
  val : Word
  tag : Bool
  uPage : Bool
  stamp : Nat
  deriving DecidableEq, Repr

/-- A translation that a TLB of a die holds (R347, R348). -/
structure TlbEntry where
  ctx : Nat
  leaf : Leaf
  deriving DecidableEq, Repr

/-- A register bank that stays in a core's register file for an evicted unit (R338): the unit, the number of the bank among the unit's
(Table 11.10), and the quadrant that holds it. -/
structure Mark where
  unit : Nat
  bank : Nat
  quad : Nat
  deriving DecidableEq, Repr

/-- The fragment in a lane and the choice state of R281: which warp won the last choice and how many it has won in a row. -/
structure Lane where
  cur : Option FragRef
  lastHigh : Bool
  run : Nat
  deriving DecidableEq, Repr

/-- A lane that has issued nothing. -/
def Lane.idle : Lane := { cur := none, lastHigh := false, run := 0 }

/-- What a queued Circlet operation does (R207 to R210). -/
inductive CircKind where
  | board | alight | add | minI | minN | maxI | maxN | and | or | xor | swap | cas | fadd | read
  deriving DecidableEq, Repr

/-- One thread of a queued Circlet operation: word, header read, operand, compare's new value or key, home line and the
virtual base and size of its page. -/
structure CircThread where
  thread : Nat
  word : Nat
  hdr : Bool
  x : Word
  y : Word
  home : Nat
  vpage : Nat × Nat
  deriving DecidableEq, Repr

/-- An operation of a station queue (R207): the unit and operation it belongs to, the context, the bead, the cycle it entered, and
its threads in beat order. -/
structure StOp where
  unit : Nat
  op : Nat
  ctx : Nat
  kind : CircKind
  bead : Nat
  entry : Nat
  ths : List CircThread
  deriving DecidableEq, Repr

/-- The most recent completed sequence of a mesh descriptor at a core (R204, R205): its number, the vector or the missing-member mask,
whether contributions disagreed, and whether this core contributed. -/
structure MeshResult where
  seqNo : Nat
  vals : Map Word
  missing : Word64
  bad : Bool
  gave : Bool
  deriving DecidableEq, Repr

/-- A core: lanes, engine queue, station queue, private copies, update-only partials (least recently updated first) and those its home
holds for it, register banks marked for evicted units (R338), fault buffer and the posts that wait for it, counters, mesh results and contributions made; `stamp` numbers
its fills and issued operations. -/
structure CoreSt where
  lanes : Map Lane
  eng : List (Nat × Nat)
  station : List StOp
  copies : Map Copy
  reds : List RedSector
  held : List RedSector
  marks : List Mark
  fbuf : Map FbEntry
  fwait : List FbEntry
  serial : BitVec 16
  pmcWarp : Word64
  pmcScalar : Word64
  pmcBeats : Word64
  stray : Word
  eccU : Word
  eccC : Word
  mesh : Map MeshResult
  contrib : List (Nat × Nat)
  stamp : Nat
  deriving DecidableEq, Repr

/-- A core at power-on reset. -/
def CoreSt.reset : CoreSt :=
  { lanes := [], eng := [], station := [], copies := [], reds := [], held := [], marks := [], fbuf := [], fwait := [], serial := 0,
    pmcWarp := 0, pmcScalar := 0, pmcBeats := 0, stray := 0, eccU := 0, eccC := 0, mesh := [], contrib := [], stamp := 0 }

/-! ### The Circlet (13) -/

/-- States of a bead (Table 13.2). -/
inductive BeadSt where
  | vacant | boarding | aboard | poisoned
  deriving DecidableEq, Repr

/-- A bead (R372): payload words, header fields, the BOARD it carries (unit, operation, thread), the slice's answer to its mark request
(the line and whether it was poisoned, or a refusal) until its next pass of BSTN, the virtual base and size of the page through which its home
was found, a clear that waits for station 0 (R383), and the cycle
after its last pass of a station. The header's PAR follows from the cycle (`beadParity`). -/
structure Bead where
  payload : Map Word
  home : Nat
  bstn : Nat
  ctx : Nat
  st : BeadSt
  key : Word
  req : Option (Nat × Nat × Nat)
  reply : Option (Option (List Byte × Bool))
  vpage : Nat × Nat
  clear : Bool
  last : Nat
  deriving DecidableEq, Repr

/-- A bead at power-on reset (R372). -/
def Bead.vacant : Bead :=
  { payload := [], home := 0, bstn := 0, ctx := 0, st := .vacant, key := 0, req := none, reply := none, vpage := (0, 0), clear := false, last := 0 }

/-- A home write on its way (R380): bead, line, payload or poison, the ALIGHT it completes (unit, operation, thread), and whether it
belongs to a CIRC_CMD clear. -/
structure HomeWrite where
  bead : Nat
  line : Nat
  bytes : Option (List Byte)
  req : Option (Nat × Nat × Nat)
  ofClear : Bool
  deriving DecidableEq, Repr

/-! ### Trees and pages (07, 14) -/

/-- A node slot in use (R246): pruning or live, parent, position, ancestry vector. -/
structure Node where
  pruning : Bool
  parent : Option Nat
  pos : Nat
  vec : BitVec 1024
  deriving DecidableEq, Repr

/-- A commit that waits for the %node rewrites (R390): the command's operation and thread, and the slot of the node it names. -/
structure Commit where
  unit : Nat
  op : Nat
  thread : Nat
  tip : Nat
  deriving DecidableEq, Repr

/-- An open sequence (R386, R387): context, HASH, parent, FORKLEN, L, tables, the latched NLAYER and LOG2PPB (R447), node slots in use, a
commit that waits, whether its last flattening stopped (R402), and whether it is being closed. -/
structure Seq where
  ctx : Nat
  hash : Bool
  par : Option Nat
  forklen : Nat
  len : Nat
  btab : Nat
  nblk : Nat
  store : Nat
  nlayer : Nat
  ppb : Nat
  slots : Map Node
  commit : Option Commit
  hint : Bool
  closing : Bool
  deriving DecidableEq, Repr

/-- What a command for a home tree unit asks (R245 to R258); KV operands as in Table 7.13. -/
inductive TreeAsk where
  | fork | prune | commit (p : Bool) | query (len : Bool)
  | map (w : Bool) | ref | rel | shoot
  | mask (node : Bool)
  | tag
  deriving DecidableEq, Repr

/-- A command in transit to the tree unit of a sequence (R245): the thread it answers, its operand words, and the node tag of its warp. -/
structure TreeCmd where
  unit : Nat
  warp : Nat
  fidx : Nat
  op : Nat
  thread : Nat
  ask : TreeAsk
  ctx : Nat
  a : Word64
  b : Word64
  node : Word64
  deriving DecidableEq, Repr

/-- A reference to a KV page: the sequence whose own entry it is, the entry's key (4096·block + layer), and its owner, a node slot or 1024
for the committed prefix (R251). -/
structure KvRef where
  sq : Nat
  key : Nat
  owner : Nat
  deriving DecidableEq, Repr

/-- A KV page allocated (R404): context, references, whose number is its count, and its checksum from the last sealing. Its pins follow
from the work in flight. -/
structure KvPage where
  ctx : Nat
  refs : List KvRef
  crc : Word
  deriving DecidableEq, Repr

/-- A kill on its way to the cores (R392): sequence, slots, cores it has still to reach. -/
structure PruneKill where
  sq : Nat
  slots : NSet
  cores : NSet
  deriving DecidableEq, Repr

/-- A Hallmark copy (R255): its sequence, the command it completes, source and destination pages, bytes to copy, the result. -/
structure PageCopy where
  sq : Nat
  unit : Nat
  op : Nat
  thread : Nat
  src : Nat
  dst : Nat
  bytes : Nat
  res : Word64
  deriving DecidableEq, Repr

/-- A shoot-down in progress (R258): the operation, the context and the virtual page numbers. -/
structure Shoot where
  unit : Nat
  op : Nat
  thread : Nat
  ctx : Nat
  pages : List Nat
  deriving DecidableEq, Repr

/-! ### Mesh reduction (06, 12) -/

/-- A partial of a mesh reduction (R203): elements present, members included. -/
structure MPart where
  vals : Map Word
  members : Word64
  deriving DecidableEq, Repr

/-- A node's work on one sequence: inputs by direction (4 is its own contribution), the cycle of the first, and the partial forwarded. -/
structure MNode where
  ins : Map MPart
  start : Nat
  out : Option MPart
  deriving DecidableEq, Repr

/-- A sequence in flight on a descriptor: operation and type, whether contributions disagreed, contributions made by members (with the
unit and operation of the MRED), nodes, the root's result, members it has reached. -/
structure MSeq where
  op : FoldOp
  ty : MredTy
  bad : Bool
  given : Map (Map Word × Nat × Nat)
  nodes : Map MNode
  reached : NSet
  deriving DecidableEq, Repr

/-- A mesh-reduction descriptor (Table 12.10). -/
structure MDesc where
  valid : Bool
  err : Bool
  nnodes : Nat
  timeout : Nat
  nodes : Map Word
  seqs : Map MSeq
  deriving DecidableEq, Repr

/-- A descriptor at reset. -/
def MDesc.reset : MDesc := { valid := false, err := false, nnodes := 0, timeout := 0, nodes := [], seqs := [] }

/-! ### Queues and levels (11) -/

/-- A registered queue (R313 to R317, R331): HEAD, TAIL, ERR, malformed count, and its unserved doorbells, oldest first: the place of each in the
order of all doorbells, and the TAIL it left; and the context that its descriptor named at the last of them, 0 before the first. -/
structure Queue where
  head : Nat
  tail : Nat
  err : Bool
  malf : Nat
  bells : List (Nat × Nat)
  ctx : Nat
  deriving DecidableEq, Repr

/-- A queue nothing has touched. -/
def Queue.idle : Queue := { head := 0, tail := 0, err := false, malf := 0, bells := [], ctx := 0 }

/-- An active slot (R316): the queue, the time it was mapped, the launch taken and not admitted. -/
structure QSlot where
  queue : Nat
  since : Word64
  taken : Option Nat
  deriving DecidableEq, Repr

/-- A completion record as the scheduler caches it (Table 11.6), with the vector to send at DONE. -/
structure Rec where
  pending : Nat
  faulted : Nat
  cancelled : Nat
  opened : Bool
  done : Bool
  creq : Bool
  level : Nat
  result : Nat
  parent : Nat
  tag : Word
  ended : Nat
  tstart : Word64
  tdone : Word64
  irq : Option Nat
  deriving DecidableEq, Repr

/-- A trap handler launch that is not complete (R420, R421): its job's record, its own, and the place of its packet while the packet stands
in the ring. -/
structure Handler where
  job : Nat
  lrec : Nat
  queue : Nat
  idx : Option Nat
  deriving DecidableEq, Repr

/-! ### Dies and the device (12, 13, 14, 16, 17) -/

/-- A die's CSRs (Table 17.3) and its own agents: queue slots, mesh descriptors, held translations (R347, R348), cached export entries by context (R349), overflow
entries of the hash table in chain order (R403), next page of the KV scrubber. A migration works on
the values that its registers held at GO. -/
structure Die where
  qtab : Nat
  lead : Nat
  qsEn : Bool
  fqBase : Nat
  fqLog2n : Nat
  fqEn : Bool
  fqVec : Nat
  fqProd : Nat
  fqCons : Nat
  migSrc : Nat
  migDst : Nat
  migSize : Nat
  migSrcReg : Nat
  migDstReg : Nat
  migSizeReg : Nat
  migState : Nat
  nocRand : Bool
  nocThresh : Nat
  nocWin : Nat
  nocMode : Bool
  stabBase : Nat
  stabLog2n : Nat
  treeBusy : Bool
  treeRes : Nat
  hmBase : Nat
  hmN : Nat
  hmHashBase : Nat
  hmHashLog2n : Nat
  hmOvfBase : Nat
  hmOvfN : Nat
  hmScrub : Nat
  hmCrcErr : Nat
  hmLast : Nat
  hmQuery : Nat
  eccU : Nat
  eccC : Nat
  scrubPeriod : Nat
  descs : Map MDesc
  slots : Map QSlot
  tlb : List TlbEntry
  exports : Map (List (List Byte))
  ovf : List Nat
  scrubNext : Nat
  deriving DecidableEq, Repr

/-- A die at power-on reset. -/
def Die.reset : Die :=
  { qtab := 0, lead := 20, qsEn := false, fqBase := 0, fqLog2n := 0, fqEn := false, fqVec := 0, fqProd := 0, fqCons := 0,
    migSrc := 0, migDst := 0, migSize := 0, migSrcReg := 0, migDstReg := 0, migSizeReg := 0, migState := 0, nocRand := true, nocThresh := 25, nocWin := 10, nocMode := false,
    stabBase := 0, stabLog2n := 0, treeBusy := false, treeRes := 0, hmBase := 0, hmN := 0, hmHashBase := 0,
    hmHashLog2n := 0, hmOvfBase := 0, hmOvfN := 0, hmScrub := 0, hmCrcErr := 0, hmLast := 0, hmQuery := 0, eccU := 0, eccC := 0,
    scrubPeriod := 1000, descs := [], slots := [], tlb := [], exports := [], ovf := [], scrubNext := 0 }

/-- What the device sends to the outside: a message-signalled interrupt, with its vector and the address and data of its table entry (R438),
a write to the host bus, the data of a read through BAR4, the answer to a peer's access, the report of a lost peer to the fabric manager (R368). -/
inductive Msg where
  | msix (vec : Nat) (addr : Nat) (data : Word)
  | hostWrite (a : Nat) (b : Byte)
  | barData (off : Nat) (bytes : List Byte)
  | peerAck (dev die seqNo thread : Nat) (val : BitVec 128) (cause : Nat)
  | peerLost (dev : Nat)
  deriving DecidableEq, Repr

/-- Packets of one sending die (R366): the next sequence number to perform, and those that wait for it. -/
structure PeerRx where
  next : Nat
  buf : List PeerPacket
  deriving DecidableEq, Repr

/-- The module's identity, in die 0's security block (R442): the seed, and both key pairs. -/
structure Identity where
  seed : List Byte
  edPriv : List Byte
  edPub : List Byte
  mlPriv : List Byte
  mlPub : List Byte
  deriving DecidableEq, Repr

/-- No identity is derived yet. -/
def Identity.none : Identity := ⟨[], [], [], [], []⟩

/-- Module-span registers (Table 17.3), flash and the state of boot and attestation; `map…` is the retirement map of the configuration record in
flash (R431), `ret…` what is retired now, `offSlices` the slices over which nothing is spread (R354); `cfgFloor` is the floor that the record before
this one held for its KIND (R440); `compErr` counts uncorrectable errors since power-on by
component (R431): a slice by its number, a core by 1024 plus its index; `lostSet` holds the devices over which the module has quiesced since
QUIESCED was last cleared (R368); `trapLost` names the contexts whose handler failed with no ring to post
to (R425). -/
structure Dev where
  ctxt : Nat
  tlbiVa : Word64
  tlbiBase : Word64
  tlbiBusy : Bool
  tlbiErr : Bool
  tlbiN : Nat
  tlbiScope : Nat
  tlbiCtx : Nat
  quiesced : Bool
  lost : Bool
  lostDev : Nat
  lostSet : NSet
  lostLim : Nat
  nmThresh : Nat
  devNum : Nat
  brRt : Map Word64
  trapBase : Nat
  trapEn : Bool
  trapLost : NSet
  errVec : Nat
  errReplace : Bool
  errRetired : Bool
  errHfail : Bool
  errUncorr : Bool
  healthReplace : Bool
  retLim : Nat
  retCores : NSet
  retSlices : NSet
  retPorts : NSet
  offSlices : NSet
  compErr : Map Nat
  circTab : Nat
  circBusy : Bool
  circOp : Nat
  circArg : Nat
  circU : Nat
  circC : Nat
  stage : Nat
  errc : Nat
  fwsvn : Nat
  therm : Bool
  plim : Bool
  clk : Nat
  pwr : Nat
  tmax : Nat
  halted : Bool
  attBusy : Bool
  attErr : Bool
  attVec : Nat
  nonce : Map Byte
  attNonce : List Byte
  attHealth : Word64
  attTime : Word64
  report : List Byte
  reports : Nat
  hwin : Nat
  bar4 : Nat
  msix : Map Byte
  pba : NSet
  flashCfg : List Byte
  flashFw : List Byte
  cfgFloor : Nat
  mapCores : NSet
  mapSlices : NSet
  mapPorts : NSet
  identity : Identity
  staging : Map Byte
  deriving DecidableEq, Repr

/-- The device at power-on reset; flash is kept through it (R9). -/
def Dev.reset : Dev :=
  { ctxt := 0, tlbiVa := 0, tlbiBase := 0, tlbiBusy := false, tlbiErr := false, tlbiN := 0, tlbiScope := 0, tlbiCtx := 0, quiesced := false,
    lost := false, lostDev := 0, lostSet := [], lostLim := 100, nmThresh := 32, devNum := 0, brRt := [], trapBase := 0, trapEn := false, trapLost := [], errVec := 0,
    errReplace := false, errRetired := false, errHfail := false, errUncorr := false, healthReplace := false, retLim := 4, retCores := [],
    retSlices := [], retPorts := [], offSlices := [], compErr := [], circTab := 0, circBusy := false, circOp := 0, circArg := 0, circU := 0, circC := 0,
    stage := 0, errc := 0, fwsvn := 0, therm := false, plim := false, clk := 1400, pwr := 0, tmax := 0, halted := false,
    attBusy := false, attErr := false, attVec := 0, nonce := [], attNonce := [], attHealth := 0, attTime := 0, report := [],
    reports := 0, hwin := 0, bar4 := 28, msix := [], pba := [], flashCfg := [], flashFw := [], cfgFloor := 0, mapCores := [], mapSlices := [],
    mapPorts := [], identity := Identity.none, staging := [] }

end Sys2Proof.Machine

namespace Sys2Proof.Config

/-- The kind of a page of another module (R287), by device, context and page: the peer's tables give it. -/
opaque peerKind : Nat → Nat → Nat → Machine.PKind

/-- Which of the translations that a walk would find and that the TLBs hold an agent without a choice of its own uses, by cycle, context and
page (R347). -/
opaque heldPick : Nat → Nat → Nat → Nat

/-- Whether a page of another module takes speculative stores (R170), by device, context and page. -/
opaque peerSpec : Nat → Nat → Nat → Bool

end Sys2Proof.Config
end

