-- ==== Sys2Proof/Machine/State.lean ====
section
/-! DEFINITION. The state of one VXS96-2L module as plain data: everything the spec gives the machine, agent by agent, and the
state after power-on reset. INVENTORY.md lists every field with its rule. -/
namespace Sys2Proof.Machine

/-! ### Launches (02, 11) -/

/-- Where a launch stands (R317, R332, R337): taken by a slot, its units resident, asked to park, drained of all but paths, evicted. -/
inductive LaunchSt where
  | taken | resident | parking | draining | evicted
  deriving DecidableEq, Repr

/-- A launch: its context, the addresses of its code object's text and clause map, the text size, the kernel descriptor (Table 2.11), whether
it is a trap handler's (R421), its record; then the packet's fields (Table 11.4), argument capabilities as they will stand in c0 to c7,
its state, the times of registration, admission and of the last park request, whether its wait has made it blocking (R334), its ended
units, and the cluster size. -/
structure Launch where
  ctx : Nat
  text : Nat
  tsize : Nat
  cmap : Nat
  entry : Nat
  regs : Nat
  acc : Nat
  scratch : Nat
  cluster : Nat
  stream : Bool
  handler : Bool
  lrec : Nat
  queue : Nat
  tag : Word
  units : Nat
  warps : Nat
  kidx : Nat
  args : List (BitVec 128)
  uidx : Bool
  start : Word64
  waitPrev : Bool
  wait0 : Nat
  wait1 : Nat
  chain : List Nat
  prio : Nat
  st : LaunchSt
  order : Nat
  regTime : Word64
  admitTime : Word64
  admitted : Bool
  parkTime : Word64
  blocking : Bool
  deriving DecidableEq, Repr

/-! ### The module -/

/-- A region of installed physical memory (R2): base, size in bytes, die. -/
structure Region where
  base : Nat
  size : Nat
  die : Nat
  deriving DecidableEq, Repr

/-- A fault record on its way to the trap ring (R418): the record of a fragment, by serial, or a unit record (Table 16.2) with the core
that posts it, its cause, flags, hint, context, PC, address, record and unit index. -/
inductive Post where
  | frag (f : FragRef) (serial : BitVec 16)
  | unit (core : Nat) (cause : Nat) (fatal : Bool) (hint ctx pc : Nat) (addr : Word64) (lrec uidx : Nat) (serial : BitVec 16)
  deriving DecidableEq, Repr

/-- One move of one agent: a fragment's next word, an event of the opcode table, or one cycle of the clock. -/
inductive Move where
  | word (f : FragRef)
  | event (i : Instr)
  | tick
  deriving DecidableEq, Repr, Inhabited

end Sys2Proof.Machine

namespace Sys2Proof.Config

/-- The next move where the schedule lists none: which agent goes on, or what the outside does, is open. -/
opaque freeMove : Nat → Machine.Move

end Sys2Proof.Config

namespace Sys2Proof.Machine

/-- The module. `sched` lists the moves to come, `cur` is the fragment a word acts on, `freeIx` numbers the free choices: these three
are the model's own, as is `stalled`, which is clear between steps: a write of the step had to wait (`whole`). `slice` holds the slice's value of bytes whose word is registered and not written back (R437). -/
structure State where
  sched : List Move
  cur : Option FragRef
  freeIx : Nat
  stalled : Bool
  cycle : Word64
  time : Word64
  timeRem : Nat
  mem : List Host.Cell
  tags : NSet
  tagBy : Map Nat
  poison : NSet
  memMap : List Region
  regOwner : Map Nat
  slice : Map Byte
  units : Map KUnit
  nextUnit : Nat
  evicted : Map KUnit
  cores : Map CoreSt
  dies : Map Die
  dev : Dev
  launches : Map Launch
  nextLaunch : Nat
  queues : Map Queue
  records : Map Rec
  soloHolder : Option (Nat × Nat × Nat)
  soloQueue : List (Nat × Nat × Nat)
  posts : List Post
  repairs : List (FragRef × Word64)
  handlers : Map Handler
  beads : Map Bead
  ringHeld : Map Nat
  homeWrites : List HomeWrite
  quota : Map (List Byte)
  seqs : Map Seq
  treeQ : List TreeCmd
  pages : Map KvPage
  kills : List PruneKill
  copies : List PageCopy
  shoots : List Shoot
  peerSeq : Map Nat
  peerRx : Map PeerRx
  out : List Msg
  deriving DecidableEq, Repr

/-- The state after power-on reset (R439): boot stage 0, memory zero, nothing resident. -/
def State.reset : State :=
  { sched := [], cur := none, freeIx := 0, stalled := false, cycle := 0, time := 0, timeRem := 0, mem := [], tags := [], tagBy := [], poison := [], memMap := [],
    regOwner := [], slice := [], units := [], nextUnit := 0, evicted := [], cores := [], dies := [], dev := Dev.reset, launches := [],
    nextLaunch := 0, queues := [], records := [], soloHolder := none, soloQueue := [], posts := [],
    repairs := [], handlers := [], beads := [], ringHeld := [], homeWrites := [], quota := [], seqs := [], treeQ := [], pages := [],
    kills := [], copies := [], shoots := [], peerSeq := [], peerRx := [], out := [] }

/-- Why the machine stops. -/
inductive Fault where
  /-- Raised by the meaning of a word when `cur` names no fragment, or one whose unit, warp or launch is absent: a malformed call of
  `exec`, never a step of the schedule. Safe: no behaviour of the hardware is lost. -/
  | noFragment
  deriving DecidableEq, Repr

/-- Why an instruction has no meaning. -/
inductive Refusal where
  /-- Raised by an arm of `exec` whose instruction has no meaning yet. Safe. -/
  | notModelled (mnemonic : String)
  deriving DecidableEq, Repr

end Sys2Proof.Machine
end

