-- ==== Sys2Proof/Machine/Ops.lean ====
section
/-! DEFINITION. The named operations over the state: registers, fragments, taking a fault and returning from one, retiring and
parking a word. -/
namespace Sys2Proof.Machine

/-! ### Parts of the state -/

/-- A die. -/
def State.die (s : State) (d : Nat) : Die := Map.lookD s.dies d Die.reset

/-- The core of a package index (R3). -/
def State.core (s : State) (c : Nat) : CoreSt := Map.lookD s.cores c CoreSt.reset

/-- Replace a core. -/
def State.setCore (s : State) (c : Nat) (v : CoreSt) : State := { s with cores := Map.put s.cores c v }

/-- Change a core. -/
def State.editCore (s : State) (c : Nat) (g : CoreSt → CoreSt) : State := s.setCore c (g (s.core c))

/-- A resident unit. -/
def State.unit? (s : State) (u : Nat) : Option KUnit := Map.look s.units u

/-- Change a unit. -/
def State.editUnit (s : State) (u : Nat) (g : KUnit → KUnit) : State := { s with units := Map.edit s.units u g }

/-- Change a warp of a unit. -/
def KUnit.editWarp (un : KUnit) (w : Nat) (g : Warp → Warp) : KUnit := { un with warps := Map.edit un.warps w g }

/-- Change a warp. -/
def State.editWarp (s : State) (u w : Nat) (g : Warp → Warp) : State := s.editUnit u fun un => un.editWarp w g

/-- Change a fragment of a warp. -/
def Warp.editFrag (w : Warp) (i : Nat) (g : Frag → Frag) : Warp := { w with frags := Map.edit w.frags i g }

/-- Change a fragment. -/
def State.editFrag (s : State) (f : FragRef) (g : Frag → Frag) : State := s.editWarp f.unit f.warp fun w => w.editFrag f.fidx g

/-- A warp. -/
def State.warp? (s : State) (u w : Nat) : Option Warp := (s.unit? u).bind fun un => Map.look un.warps w

/-- A fragment. -/
def State.frag? (s : State) (f : FragRef) : Option Frag := (s.warp? f.unit f.warp).bind fun w => Map.look w.frags f.fidx

/-- Die of a package core index (R3). -/
def dieOf (core : Nat) : Nat := core / 96

/-- The launch of a unit. -/
def State.launchOf (s : State) (u : Nat) : Option Launch := (s.unit? u).bind fun un => Map.look s.launches un.launch

/-- The context of a unit; 0 where there is none. -/
def State.ctxOf (s : State) (u : Nat) : Nat := ((s.launchOf u).map (·.ctx)).getD 0

/-- The next free choice between two behaviours. -/
def State.choose (s : State) : Bool × State := (Config.freeBit s.freeIx, { s with freeIx := s.freeIx + 1 })

/-! ### The executing fragment -/

/-- What a word acts on: the fragment `cur` names, with its warp, unit and launch. -/
structure Ctx where
  f : FragRef
  u : KUnit
  w : Warp
  fr : Frag
  l : Launch
  deriving DecidableEq, Repr

/-- The executing fragment, if `cur` names one. -/
def State.ctx? (s : State) : Option Ctx :=
  match s.cur with
  | none => none
  | some f =>
    match s.unit? f.unit with
    | none => none
    | some u =>
      match Map.look u.warps f.warp, Map.look s.launches u.launch with
      | some w, some l => (Map.look w.frags f.fidx).map fun fr => ⟨f, u, w, fr, l⟩
      | _, _ => none

/-- The threads the word acts in: active under the guard (R42) and not yet done in a replay (R274). -/
def Ctx.act (c : Ctx) : Mask := c.fr.actm &&& ~~~c.fr.done

/-- The window base (R27). -/
def Ctx.base (c : Ctx) : Nat := 16 * c.fr.win.toNat

/-- The lowest active thread; 0 when there is none. -/
def Ctx.low (c : Ctx) : Nat := (lowest c.act).getD 0

/-- The position after a word of `n` words: the next word of the clause or, after its last word, the next clause header with the
clause state cleared (Table 8.2, R47). -/
def Frag.nextWord (x : Frag) (n : Nat) : Frag :=
  match x.clause with
  | none => { x with pc := x.pc + 4 * n, done := 0#32 }
  | some k =>
    if x.pc + 4 * n < k.hdr + 4 * (k.len + 1) then { x with pc := x.pc + 4 * n, done := 0#32 }
    else { x with pc := k.hdr + 4 * (k.len + 1), clause := none, actm := 0#32, done := 0#32, lane := false }

/-! ### Registers, tags and predicates (R25 to R31) -/

/-- Extent register r of thread t. -/
def Warp.reg (w : Warp) (r t : Nat) : Word := Map.lookD w.regs (32 * r + t) 0#32

/-- The capability tag of quad q in thread t (R30). -/
def Warp.qtag (w : Warp) (q t : Nat) : Bool := (Map.lookD w.qtags q 0#32).getLsbD t

/-- Set or clear a capability tag. -/
def Warp.setQtag (w : Warp) (q t : Nat) (b : Bool) : Warp :=
  let m := Map.lookD w.qtags q 0#32
  { w with qtags := Map.putD w.qtags q (if b then m ||| bit t else m &&& ~~~bit t) 0#32 }

/-- Write a register of a thread: a data write clears the tag of its quad (R30). -/
def Warp.setReg (w : Warp) (r t : Nat) (x : Word) : Warp :=
  ({ w with regs := Map.putD w.regs (32 * r + t) x 0#32 } : Warp).setQtag (r / 4) t false

/-- Predicate p of thread t; p7 reads true (R31). -/
def Warp.pred (w : Warp) (p : BitVec 3) (t : Nat) : Bool :=
  if p = 7#3 then true else (Map.lookD w.preds p.toNat 0#32).getLsbD t

/-- Write a predicate of a thread; a write to p7 is ignored (R31). -/
def Warp.setPred (w : Warp) (p : BitVec 3) (t : Nat) (b : Bool) : Warp :=
  if p = 7#3 then w
  else
    let m := Map.lookD w.preds p.toNat 0#32
    { w with preds := Map.putD w.preds p.toNat (if b then m ||| bit t else m &&& ~~~bit t) 0#32 }

/-- %fflags of a thread (Table 1.16). -/
def Warp.flags (w : Warp) (t : Nat) : BitVec 5 := Map.lookD w.fflags t 0#5

/-- Write %fflags of a thread. -/
def Warp.setFlags (w : Warp) (t : Nat) (x : BitVec 5) : Warp := { w with fflags := Map.putD w.fflags t x 0#5 }

/-- The register tag of R21. -/
def Warp.rtag (w : Warp) (r : Nat) : RTag := Map.lookD w.rtags r .uniform

/-- Set a register tag. -/
def Warp.setRtag (w : Warp) (r : Nat) (x : RTag) : Warp := { w with rtags := Map.putD w.rtags r x .uniform }

/-- A capability quad of a thread, lowest register in bits [31:0] (R29). -/
def Warp.quad (w : Warp) (r t : Nat) : BitVec 128 :=
  w.reg (r + 3) t ++ w.reg (r + 2) t ++ w.reg (r + 1) t ++ w.reg r t

/-- The transaction of a thread. -/
def Warp.tx (w : Warp) (t : Nat) : Txn := Map.lookD w.txn t Txn.idle

/-- Replace a thread's transaction. -/
def Warp.setTx (w : Warp) (t : Nat) (x : Txn) : Warp := { w with txn := Map.putD w.txn t x Txn.idle }

/-- What one thread's word writes: extent registers, predicates, exceptions. -/
structure Out where
  regs : List (Nat × Word)
  preds : List (BitVec 3 × Bool)
  ff : BitVec 5
  deriving DecidableEq, Repr

/-- Write one thread's results; `tag` is the register tag of what is written. -/
def Warp.putOut (w : Warp) (tag : RTag) (t : Nat) (o : Out) : Warp :=
  let w := o.regs.foldl (fun w p => (w.setReg p.1 t p.2).setRtag p.1 tag) w
  let w := o.preds.foldl (fun w p => w.setPred p.1 t p.2) w
  w.setFlags t (w.flags t ||| o.ff)

/-- Write the results of the threads of a mask, in beat order (R18). -/
def Warp.putOuts (w : Warp) (tag : RTag) (m : Mask) (o : Nat → Out) : Warp :=
  (threads m).foldl (fun w t => w.putOut tag t (o t)) w

/-! ### Fragments of a warp (R263, R264) -/

/-- The fragments of a warp that hold an entry. -/
def Warp.fragCount (w : Warp) : Nat := w.frags.length

/-- The lowest free FIDX. -/
def Warp.freeFidx (w : Warp) : Nat := (leastBelow 16 fun i => !(Map.has w.frags i)).getD 16

/-- Entries of a core's fragment table in use (R263). -/
def State.tableUsed (s : State) (core : Nat) : Nat :=
  (s.units.map fun p => if p.2.core = core then (p.2.warps.map fun q => q.2.fragCount).sum else 0).sum

/-- Whether a split that needs n new entries is refused (R279). -/
def State.refuses (s : State) (f : FragRef) (n : Nat) : Bool :=
  match s.unit? f.unit, s.warp? f.unit f.warp with
  | some u, some w => decide (16 < w.fragCount + n) || decide (1024 < s.tableUsed u.core + n)
  | _, _ => true

/-! ### Transactions doomed, the solitary grant (R185, R188) -/

/-- An Open thread becomes Doomed with a code; a Doomed one keeps its first code (Table 6.3). -/
def Txn.doom (x : Txn) (code : BitVec 4) : Txn := if x.st = .opened then { x with st := .doomed, code := code } else x

/-- Release the solitary grant if this thread holds it. -/
def State.releaseSolo (s : State) (u w t : Nat) : State :=
  if s.soloHolder = some (u, w, t) then { s with soloHolder := none } else s

/-- Make an Open thread Doomed. A solitary one keeps its grant and locks until TEND (R188). -/
def State.doomThread (s : State) (u w t : Nat) (code : BitVec 4) : State :=
  s.editWarp u w fun x => x.setTx t ((x.tx t).doom code)

/-- At any blocking point or fault a solitary thread is first made Doomed with ACCESS, and its locks and grant are released (R188). -/
def State.soloStops (s : State) (f : FragRef) (m : Mask) : State :=
  (threads m).foldl (fun s t =>
    if s.soloHolder = some (f.unit, f.warp, t) then (s.doomThread f.unit f.warp t 6#4).releaseSolo f.unit f.warp t else s) s

/-! ### The fault buffer (R351) -/

/-- The range that a fault-buffer entry stands for: a peer export miss or a virtual address, and which 128 KiB. -/
def FbEntry.range (e : FbEntry) : Bool × Nat := (decide (e.src = 3), e.va / 131072)

/-- Two posts fall into one range of one context. -/
def FbEntry.joins (x e : FbEntry) : Bool := x.ctx = e.ctx && x.range = e.range

/-- Post a translation fault to a core's buffer with its place in the die's posting order: a fault in the range of a pending entry joins
it; when the buffer is full the post waits in order. -/
def CoreSt.postFb (k : CoreSt) (e : FbEntry) (ord : Nat) : CoreSt :=
  if (Map.vals k.fbuf).any (·.joins e) || k.fwait.any (·.joins e) then k
  else
    match leastBelow 256 fun i => !(Map.has k.fbuf i) with
    | some i => { k with fbuf := Map.put k.fbuf i { e with ord := ord } }
    | none => { k with fwait := k.fwait ++ [e] }

/-- The next place in a die's posting order. -/
def State.nextOrd (s : State) (die : Nat) : Nat :=
  s.cores.foldl (fun m p => if dieOf p.1 = die then (Map.vals p.2.fbuf).foldl (fun m x => max m (x.ord + 1)) m else m) 0

/-- Post translation faults of a core, in order. -/
def State.postFbs (s : State) (core : Nat) (l : List FbEntry) : State :=
  l.foldl (fun s e => let n := s.nextOrd (dieOf core); s.editCore core fun k => k.postFb e n) s

/-! ### Taking a fault (R273, R279, R417) and returning from one (R274) -/

/-- The record of one part, with the next serial of its core (R417). -/
def Bad.record (b : Bad) (fr : Frag) (mask : Mask) (serial : BitVec 16) (core : Nat) : FaultRec :=
  { cause := b.cause, replay := b.replay, serial := serial, hint := b.hint, pc := fr.pc, mask := mask, done := fr.done &&& mask,
    addr := b.addr, core := core, await := b.fb.map fun e => (core, e.range) }

/-- A fragment parked with its record attached. -/
def Frag.parkFault (fr : Frag) (mask : Mask) (r : FaultRec) : Frag :=
  { fr with
    mask := mask, actm := fr.actm &&& mask, done := fr.done &&& mask, status := .parkedFault, wake := .none, frec := some r
    lane := false }

/-- Attach a record to fragment f and hand it to the poster in the order attached (R418); a translation fault goes to the fault
buffer instead and waits for the driver's answer (R351, R353), but not that of a trap handler's warp, which ends its unit as any fault does
(R425). -/
def State.attach (s : State) (core : Nat) (f : FragRef) (fr : Frag) (mask : Mask) (b : Bad) : State :=
  let b := if ((s.launchOf f.unit).map (·.handler)).getD false then { b with fb := [] } else b
  let serial := (s.core core).serial
  let r := b.record fr mask serial core
  let s := s.editWarp f.unit f.warp fun w => { w with frags := Map.put w.frags f.fidx (fr.parkFault mask r) }
  let s := s.editCore core fun k => { k with serial := k.serial + 1#16 }
  match b.fb with
  | [] => { s with posts := s.posts ++ [.frag f serial] }
  | l => s.postFbs core l

/-- The fragment parks whole with *fragment table exhausted*, and its warp is held (R279). Its solitary threads give up their grant (R188). -/
def State.refuseSplit (s : State) (core : Nat) (f : FragRef) (fr : Frag) : State :=
  let s := s.soloStops f fr.mask
  let s := s.attach core f fr fr.mask { cause := 0x38, addr := 0, hint := 0, replay := true, mask := fr.mask, fb := [] }
  s.editWarp f.unit f.warp fun w => { w with frags := Map.each w.frags fun _ x => { x with hold := true } }

/-- Split off the parts that fault, in ascending order of lowest thread; `rest` is what stays in the fragment. -/
def State.splitParts (s : State) (core : Nat) (f : FragRef) (fr : Frag) : List Bad → State
  | [] => s
  | b :: bs =>
    match s.warp? f.unit f.warp with
    | none => s
    | some w => (s.attach core { f with fidx := w.freeFidx } fr b.mask b).splitParts core f fr bs

/-- Every thread that faults. -/
def badMask (bads : List Bad) : Mask := bads.foldl (fun m b => m ||| b.mask) 0#32

/-- Take the faults of a word, for which the fragment stands as `fr`: the faulting threads split into parked-fault fragments (R273), or the
whole fragment parks when they are all of it, or the split is refused (R279). Answers the state and whether the fragment goes on with its
other threads. DESIGN CHOICE (log entry 12): where faults of several causes cover the whole mask, the first cause's part keeps the entry. -/
def State.takeFaultsAs (s : State) (f : FragRef) (fr : Frag) (bads : List Bad) : State × Bool :=
  match s.unit? f.unit with
  | none => (s, false)
  | some u =>
    let all := badMask bads
    if all = 0#32 then (s, true)
    else
      let rest := fr.mask &&& ~~~all
      let s := s.soloStops f all
      if rest = 0#32 then
        match bads with
        | [] => (s, true)
        | b :: bs =>
          if bs ≠ [] && s.refuses f bs.length then (s.refuseSplit u.core f fr, false)
          else ((s.attach u.core f fr b.mask b).splitParts u.core f fr bs, false)
      else if s.refuses f bads.length then (s.refuseSplit u.core f fr, false)
      else
        let s := s.splitParts u.core f fr bads
        (s.editFrag f fun x => { x with mask := rest, actm := x.actm &&& rest, done := x.done &&& rest }, true)

/-- Take the faults of the word at which a fragment stands. -/
def State.takeFaults (s : State) (f : FragRef) (bads : List Bad) : State × Bool :=
  match s.frag? f with
  | some fr => s.takeFaultsAs f fr bads
  | none => (s, false)

/-- Join the fault-buffer entries of one range. -/
def joinFbs (l m : List FbEntry) : List FbEntry := m.foldl (fun l e => if l.any (·.joins e) then l else l ++ [e]) l

/-- Add the fault of some threads to those found, by cause. -/
def addBad (l : List Bad) (b : Bad) : List Bad :=
  if l.any (fun x => x.cause = b.cause) then
    l.map fun x => if x.cause = b.cause then { x with mask := x.mask ||| b.mask, fb := joinFbs x.fb b.fb } else x
  else l ++ [b]

/-- Group the faults of single threads by cause, in ascending order of each cause's lowest thread; the record's address is that of the
lowest thread. -/
def groupBads (m : Mask) (p : Nat → Option Bad) : List Bad :=
  (threads m).foldl (fun l t =>
    match p t with
    | none => l
    | some b => addBad l { b with mask := bit t }) []

/-- A plain fault of a cause. -/
def Bad.of (cause : Nat) (addr : Word64) (m : Mask) : Bad :=
  { cause := cause, addr := addr, hint := 0, replay := true, mask := m, fb := [] }

/-- A fault that covers every thread of the fragment, whatever the guard (R53 steps 1 to 4). -/
def State.faultAll (s : State) (c : Ctx) (cause : Nat) : State := (s.takeFaults c.f [Bad.of cause 0 c.fr.mask]).1

/-- Where a fragment stands. -/
def Frag.stand (x : Frag) : Stand := ⟨x.pc, x.clause, x.actm, x.fmt, x.win⟩

/-- The fragment as it stood at a word, with the threads done given. -/
def Frag.as (x : Frag) (p : Stand) (done : Mask) : Frag :=
  { x with pc := p.pc, clause := p.clause, actm := p.actm &&& x.mask, fmt := p.fmt, win := p.win, done := done &&& x.mask }

/-- What is left of faults for other threads than those of a mask. -/
def Late.less (p : Late) (m : Mask) : Late :=
  { p with bads := (p.bads.map fun b => { b with mask := b.mask &&& ~~~m }).filter fun b => b.mask ≠ 0#32 }

/-- The faults of a warp's issued words that stand against threads of a mask. -/
def Warp.late? (w : Warp) (m : Mask) : Option Late := w.lates.find? fun p => badMask p.bads &&& m ≠ 0#32

/-- Whether faults of issued words stand against threads of a fragment that may fault. -/
def State.hasLate (s : State) (f : FragRef) : Bool :=
  match s.warp? f.unit f.warp, s.frag? f with
  | some w, some x => x.status = .runnable && (w.late? x.mask).isSome
  | _, _ => false

/-- Take the first faults of issued words that stand against threads of a runnable fragment. The parts of a memory word stand at it, as the
fragment did when it issued it (R165); RPC, PREC, SFMT and SWIN are what the fragment has now (log entry 12). A refused split parks the whole
fragment at the word, where the threads that performed are done (R279). For a failed engine operation the whole fragment parks where it
stands (R241). -/
def State.takeLate (s : State) (f : FragRef) : State :=
  match s.warp? f.unit f.warp, s.frag? f with
  | some w, some x =>
    match w.late? x.mask with
    | none => s
    | some p =>
      match p.at_ with
      | none =>
        ((s.editWarp f.unit f.warp fun w => { w with lates := w.lates.erase p }).takeFaultsAs f x
          ((p.bads.take 1).map fun b => { b with mask := x.mask })).1
      | some at0 =>
        let bads := (p.bads.map fun b => { b with mask := b.mask &&& x.mask }).filter fun b => b.mask ≠ 0#32
        let s := s.editWarp f.unit f.warp fun w =>
          { w with lates := (w.lates.map fun q => if q = p then q.less x.mask else q).filter fun q => q.bads ≠ [] }
        (s.takeFaultsAs f (x.as at0 (at0.actm &&& ~~~(badMask bads))) bads).1
  | _, _ => s

/-- Faults of an issued word come to stand against a warp; a runnable fragment that holds such a thread takes them at once. -/
def State.postLate (s : State) (u w : Nat) (p : Late) : State :=
  let m := badMask p.bads
  if m = 0#32 then s
  else
    let s := s.editWarp u w fun wp => { wp with lates := wp.lates ++ [p] }
    match s.warp? u w with
    | none => s
    | some wp => (Map.keys wp.frags).foldl (fun s i => if s.hasLate ⟨u, w, i⟩ then s.takeLate ⟨u, w, i⟩ else s) s

/-- A handler's resume of a parked-fault fragment (R274): the record goes; after *software trap*, *breakpoint* and *arithmetic trap*
execution continues at the next word; after *fragment table exhausted* the warp's HOLD is cleared. -/
def State.resumeFault (s : State) (f : FragRef) : State :=
  match s.frag? f with
  | some fr =>
    match fr.status, fr.frec with
    | .parkedFault, some r =>
      let s := s.editFrag f fun x =>
        let x := { x with status := .runnable, wake := .none, frec := none }
        if r.replay then x
        else if r.cause = 0x30 || r.cause = 0x31 || r.cause = 0x32 then x.nextWord 1
        else x
      if r.cause = 0x38 then s.editWarp f.unit f.warp fun w => { w with frags := Map.each w.frags fun _ x => { x with hold := false } }
      else s
    | _, _ => s
  | none => s

/-! ### Operations in flight: flags, path counters, interlocks (R19, R32, R299) -/

/-- The threads of an operation whose result is still to be written. -/
def Op.pendingThreads (o : Op) : Mask :=
  if o.done then 0#32
  else
    match o.kind with
    | .mem _ _ => maskOf fun t => o.items.any fun i => i.thread = t && !i.done
    | .circ m => m
    | .tree m => m
    | _ => o.mask

/-- Whether an operation of the warp still has to write one of the extent registers [r, r + n) in a thread of the mask. -/
def Op.writesReg (o : Op) (warp r n : Nat) (m : Mask) : Bool :=
  o.warp = warp && o.pendingThreads &&& m ≠ 0#32 &&
    match o.dst with
    | some d => decide (d.reg < r + n) && decide (r < d.reg + d.n)
    | none => false

/-- Whether an operation of the warp still has to write predicate p in a thread of the mask. -/
def Op.writesPred (o : Op) (warp : Nat) (p : BitVec 3) (m : Mask) : Bool :=
  o.warp = warp && o.pendingThreads &&& m ≠ 0#32 && o.pd = some p

/-- The value of flag k for a fragment's mask (R32): outstanding operations bound to k that share a thread with it. -/
def KUnit.flagValue (u : KUnit) (warp k : Nat) (m : Mask) : Nat :=
  (u.ops.filter fun o => o.warp = warp && !o.done && o.flag = some k && o.mask &&& m ≠ 0#32).length

/-- The in-flight counter of a path (R299). -/
def KUnit.pathCount (u : KUnit) (p : PathId) : Nat := (u.ops.filter fun o => o.path = some p).length

/-- Drop the completed operations with no earlier incomplete one of the same path: the counters fall in issue order (R172, R299). -/
def drainOps : List Op → List PathId → List Op
  | [], _ => []
  | o :: os, held =>
    match o.path with
    | none => if o.done then drainOps os held else o :: drainOps os held
    | some p =>
      if held.contains p then o :: drainOps os held
      else if o.done then drainOps os held
      else o :: drainOps os (p :: held)

/-- Complete an operation: its flag falls, and its counter in issue order. -/
def KUnit.complete (u : KUnit) (id : Nat) : KUnit :=
  { u with ops := drainOps (u.ops.map fun o => if o.id = id then { o with done := true } else o) [] }

/-- An operation of a unit. -/
def KUnit.op? (u : KUnit) (id : Nat) : Option Op := u.ops.find? fun o => o.id = id

/-- Change an operation. -/
def KUnit.editOp (u : KUnit) (id : Nat) (g : Op → Op) : KUnit := { u with ops := u.ops.map fun o => if o.id = id then g o else o }

/-- The threads of a warp that are live: neither exited nor killed. -/
def Warp.live (w : Warp) : Mask := ~~~(w.exited ||| w.killed)

/-! ### The frame of every word (R53, R19, Table 8.2) -/

/-- Registers a word names: the first, how many, and the alignment its field requires (R49). -/
structure Opn where
  r : Nat
  n : Nat
  al : Nat
  deriving DecidableEq, Repr

/-- Step 4 of R53, the window (R27). DEDUCED (log entry 55): a field of a pair names both its registers, an odd field too, so an odd last
register of the extent gives *window fault* before the test of R49. -/
def Ctx.inWindow (c : Ctx) (use : List Opn) : Bool := use.all fun o => decide (c.base + o.r + o.n ≤ c.w.extent)

/-- Step 4 of R53, pairs and quads (R49). -/
def aligned (use : List Opn) : Bool := use.all fun o => decide (o.r % o.al = 0)

/-- A register the word names is still to be written by an operation in flight (R19). -/
def Ctx.interlocked (c : Ctx) (use : List Opn) (ps : List (BitVec 3)) : Bool :=
  c.u.ops.any fun o =>
    use.any (fun x => o.writesReg c.f.warp (c.base + x.r) x.n c.act) || ps.any fun p => o.writesPred c.f.warp p c.act

/-- The register awaited is the destination of a peer-space or host-space load: the remote-load blocking point (Table 8.3). -/
def Ctx.remoteLock (c : Ctx) (use : List Opn) : Bool :=
  c.u.ops.any fun o =>
    use.any (fun x => o.writesReg c.f.warp (c.base + x.r) x.n c.act) &&
      o.items.any fun i => !i.done && i.locs.any fun l => match l with | .host _ => true | .peer _ _ _ _ => true | _ => false

/-- Park at a wait: clause state kept, the word is tried again when the condition holds (Table 8.2). A solitary thread is first doomed
at a blocking point (R188). -/
def State.parkAt (s : State) (c : Ctx) (w : Wake) : State :=
  s.editFrag c.f fun x =>
    { x with status := (match w with | .barrier _ _ _ => .parkedBarrier | _ => .parkedWait), wake := w, lane := false }

/-- What a fragment waits for at a blocking point: once its gang is asked to park, for the end of that, with WAKE 11, and then it tries the word
again (R337, R340). -/
def Ctx.blockWake (c : Ctx) (w : Wake) : Wake := if c.u.parkReq then .park else w

/-- Park at a wait that is a blocking point (Table 8.3, R188). -/
def State.parkBlocking (s : State) (c : Ctx) (w : Wake) : State := (s.soloStops c.f c.fr.mask).parkAt c (c.blockWake w)

/-- What a word needs of its registers and predicates (R19). -/
def Ctx.regNeeds (c : Ctx) (use : List Opn) (ps : List (BitVec 3)) : List Need :=
  use.map (fun x => .regs (c.base + x.r) x.n c.act) ++ ps.map fun p => .pred p c.act

/-- Wait at issue for what a word needs (Table 8.3, code 8). -/
def State.await (s : State) (c : Ctx) (l : List Need) (remote : Bool) : State :=
  if remote then s.parkBlocking c (.issue l true) else s.parkAt c (.issue l false)

/-- Count a retired warp instruction (Table 1.2). -/
def CoreSt.count (k : CoreSt) (scalar : Bool) (beats : Nat) : CoreSt :=
  { k with
    pmcWarp := k.pmcWarp + 1#64
    pmcScalar := if scalar then k.pmcScalar + 1#64 else k.pmcScalar
    pmcBeats := if scalar then k.pmcBeats else k.pmcBeats + BitVec.ofNat 64 beats }

/-- Retire the word: `n` words long, on the scalar unit or in `beats` beats of the lane. -/
def State.retire (s : State) (c : Ctx) (n : Nat) (scalar : Bool) (beats : Nat) : State :=
  (s.editCore c.u.core fun k => k.count scalar beats).editFrag c.f fun x => x.nextWord n

/-- Beats of one pass over the active threads (R18). -/
def Ctx.beats (c : Ctx) : Nat := max (popCount c.act) 1

/-- The same of a fragment that has waited in its word. -/
def Frag.beats (x : Frag) : Nat := max (popCount x.actm) 1

/-- What every word does before its own checks (R53 step 4, R19): with the executing fragment at hand, the window, the pairs, then the
interlock; then its body. -/
def withWord (use : List Opn) (ps : List (BitVec 3)) (body : Ctx → State → State) (s : State) : Host.Outcome State Fault Refusal :=
  match s.ctx? with
  | none => .fault .noFragment
  | some c =>
    if !c.inWindow use then .next (s.faultAll c 0x04)
    else if !aligned use then .next (s.faultAll c 0x01)
    else if c.interlocked use ps then
      .next (s.await c (c.regNeeds use ps) (c.remoteLock use))
    else .next (body c s)

/-! ### Waits at issue (Table 8.3, code 8) -/

/-- The kind of the page of a byte outside scratchpads and the host (R287). -/
def ByteLoc.kind? : ByteLoc → Option PKind
  | .phys _ k _ _ _ => some k
  | .peer d x v _ => some (Config.peerKind d x (v / 131072))
  | _ => none

/-- Some byte of an item lies on an unordered page. -/
def Item.un (x : Item) : Bool := x.locs.any fun l => l.kind? = some .u

/-- The flag of a long-latency word of the clause (R43): the first binds to SET1, the second to SET2; 15 is none. -/
def Clause.flag (k : Clause) : Option Nat :=
  let x := if k.ll = 0 then k.set1 else k.set2
  if x < 12 then some x else none

/-- The flag that the fragment's next long-latency word is bound to. -/
def Frag.flag (x : Frag) : Option Nat := x.clause.bind Clause.flag

/-- A TEND of some threads of a warp is in flight: a word that reads a transaction's state, or is ordered after it, waits for the commit. -/
def KUnit.tendBusy (un : KUnit) (warp : Nat) (m : Mask) : Bool :=
  un.ops.any fun o => o.warp = warp && !o.done && o.mask &&& m ≠ 0#32 && o.kind = .tend

/-- Every earlier access of some threads of a warp has performed, and no TEND of them is in flight: what a release waits for (R288, Table 9.2
row 4), on unordered pages too where asked (R260). -/
def KUnit.performedBy (un : KUnit) (warp : Nat) (m : Mask) (unordered : Bool) : Bool :=
  !(un.tendBusy warp m) &&
    un.ops.all fun o => o.warp ≠ warp || o.items.all fun i => i.done || !(m.getLsbD i.thread) || (i.un && !unordered)

/-- An engine operation issued by threads of a warp is in flight (R145). -/
def KUnit.matrixBusy (un : KUnit) (warp : Nat) (m : Mask) : Bool :=
  un.ops.any fun o => !o.done && o.warp = warp && o.mask &&& m ≠ 0#32 && match o.kind with
    | .engine _ _ => true
    | _ => false

/-- An engine operation of the unit touches a row of window `win` in the threads of a mask (R215). -/
def KUnit.rowsBusy (u : KUnit) (win : Nat) (m : Mask) : Bool :=
  u.ops.any fun o => !o.done && match o.kind with
    | .engine _ w => w = win && o.mask &&& m ≠ 0#32
    | _ => false

/-- A matrix operation in flight reads codebook k (R39). -/
def KUnit.codebookBusy (u : KUnit) (k : Nat) : Bool :=
  u.ops.any fun o => !o.done && match o.kind with
    | .engine (.mma .k4 _ _ _ _ cb _) _ => cb = k
    | _ => false

/-- An earlier XTILE on bitmap k is incomplete (R235). -/
def KUnit.bitmapBusy (u : KUnit) (k : Nat) : Bool := u.jobs.any fun j => j.kind = .tile k

/-- Sequence numbers of packets of a die to a target that are sent and not acknowledged (R366). -/
def State.unacked (s : State) (die dev : Nat) : List Nat :=
  ((Map.vals s.units).flatMap fun u => if dieOf u.core = die then
    u.ops.flatMap fun o => o.items.filterMap fun i => match i.done, i.locs with
      | false, .peer d _ _ q :: _ => if d = dev then some q else none
      | _, _ => none
    else []).foldl (fun l q => if l.contains q then l else q :: l) []

/-- Physical address of a KV page (R398). -/
def State.pageAddr (s : State) (p : Nat) : Nat := (s.die (p / 2147483648)).hmBase + 131072 * (p % 2147483648)

/-- Whether a physical address lies in a page. -/
def State.inPage (s : State) (p pa : Nat) : Bool := decide (s.pageAddr p ≤ pa) && decide (pa < s.pageAddr p + 131072)

/-- The physical addresses of a part. -/
def Item.pas (i : Item) : List Nat := i.locs.filterMap fun l => match l with
  | .phys pa _ _ _ _ => some pa
  | _ => none

/-- A thread of an operation has a part in a page that has not performed. -/
def State.pinsIn (s : State) (p : Nat) (o : Op) (t : Nat) : Bool :=
  o.items.any fun i => i.thread = t && !i.done && i.pas.any (s.inPage p)

/-- Pins that a unit holds on a page: lane accesses translated and not performed, of which a transaction's stores perform at its commit; and
transfers. -/
def State.pinsOf (s : State) (p : Nat) (un : KUnit) : Nat :=
  (un.ops.map fun o => ((List.range 32).filter (s.pinsIn p o)).length).sum
    + ((Map.vals un.warps).map fun w => (w.txn.map fun q =>
        if q.2.st = .opened then
          (q.2.pins.filter fun x => x.1 = p && !(un.ops.any fun o => o.id = x.2 && s.pinsIn p o q.1)).length
        else 0).sum).sum
    + (un.jobs.filter fun j => j.pins.any fun l => l.kv = some p).length

/-- Pins of a page (R404): of the units, of BOARDs that the slice has still to answer, and of copies. -/
def State.pins (s : State) (p : Nat) : Nat :=
  (s.units.map fun q => s.pinsOf p q.2).sum
    + ((Map.vals s.cores).map fun k => (k.station.map fun o =>
        if o.kind = .board then (o.ths.filter fun x => s.inPage p (64 * x.home)).length else 0).sum).sum
    + (s.beads.filter fun b => b.2.st = .boarding && s.inPage p (64 * b.2.home)).length
    + (s.copies.filter fun c => c.src = p || c.dst = p).length

/-- The pins that accesses take, each given by its physical addresses; a pin beyond 65,535 waits (R404). -/
def State.pinNeeds (s : State) (l : List (List Nat)) : List Need :=
  (Map.keys s.pages).filterMap fun p =>
    let n := (l.filter fun x => x.any (s.inPage p)).length
    if n = 0 then none else some (.pin p n)

/-- Whether a need of a fragment is met (Table 8.3, code 8). -/
def Need.met (n : Need) (s : State) (un : KUnit) (f : FragRef) (x : Frag) : Bool :=
  match n with
  | .regs r k m => !(un.ops.any fun o => o.writesReg f.warp r k (m &&& x.mask))
  | .pred p m => !(un.ops.any fun o => o.writesPred f.warp p (m &&& x.mask))
  | .path p => decide (un.pathCount p < 4095)
  | .flag => match x.flag with
    | some k => decide (un.flagValue f.warp k x.mask < 63)
    | none => true
  | .tend m => !(un.tendBusy f.warp (m &&& x.mask))
  | .performed m u => un.performedBy f.warp (m &&& x.mask) u
  | .engine => decide ((s.core un.core).eng.length < 16)
  | .station k => decide ((s.core un.core).station.length + k ≤ 64)
  | .matrix m => !(un.matrixBusy f.warp (m &&& x.mask))
  | .rows w m => !(un.rowsBusy w (m &&& x.mask))
  | .codebook k => !(un.codebookBusy k)
  | .bitmap k => !(un.bitmapBusy k)
  | .grant t => s.soloHolder = some (f.unit, f.warp, t)
  | .pin p n => decide (s.pins p + n ≤ 65535)
  | .window dev n => decide ((s.unacked (dieOf un.core) dev).length + n ≤ 256)

/-- Whether the executing fragment has all that its word needs. -/
def State.ready (s : State) (c : Ctx) (l : List Need) : Bool := l.all fun n => n.met s c.u c.f c.fr

/-- Run a word's body when all that it needs is there; else wait at issue. -/
def State.whenReady (s : State) (c : Ctx) (l : List Need) (body : State → State) : State :=
  if s.ready c l then body s else s.await c l false

/-- What a long-latency word on a path needs: room in the path's counter and in its flag (R32, R299). -/
def llNeeds (p : PathId) : List Need := [.path p, .flag]

/-! ### A fault of every active thread (R213) -/

/-- One more long-latency word passed. -/
def Frag.passLl (x : Frag) : Frag := { x with clause := x.clause.map fun k => { k with ll := k.ll + 1 } }

/-- A word with no active threads issues nothing and takes some beats; the place of a long-latency one in the clause counts all the same (R43). -/
def State.passBeats (s : State) (c : Ctx) (ll : Bool) (words beats : Nat) : State :=
  (if ll then s.editFrag c.f Frag.passLl else s).retire c words false beats

/-- A word with no active threads passes, in one beat (R18). -/
def State.passWord (s : State) (c : Ctx) (ll : Bool) (words : Nat) : State := s.passBeats c ll words 1

/-- A long-latency word with no active threads passes. -/
def State.skipLl (s : State) (c : Ctx) (words : Nat) : State := s.passWord c true words

/-- A fault of every active thread (R213): the inactive threads of the fragment go on with the next word (R273). With no active thread the word
passes. DESIGN CHOICE (log entry 65): the beats that a word takes where threads of it fault are those of the threads that go on with it: one where
only inactive threads go on, none where the whole fragment parks. -/
def State.faultWord (s : State) (c : Ctx) (ll : Bool) (words : Nat) (b : Bad) : State :=
  if c.act = 0#32 then s.passWord c ll words
  else
    match s.takeFaults c.f [{ b with mask := c.act }] with
    | (s, true) => s.passWord c ll words
    | (s, false) => s

/-- The same of a word that is not long-latency. -/
def State.faultActive (s : State) (c : Ctx) (cause : Nat) (addr : Word64) : State := s.faultWord c false 1 (Bad.of cause addr 0)

/-- The same of a long-latency word. -/
def State.faultLl (s : State) (c : Ctx) (cause : Nat) (addr : Word64) : State := s.faultWord c true 1 (Bad.of cause addr 0)

/-- The tag that a word of all 32 threads gives its result; a write of fewer is general (R22). -/
def Ctx.fullTag (c : Ctx) (t : RTag) : RTag := if c.fr.mask = allThreads && c.act = allThreads then t else .general

/-- Shape of a word that works on registers and predicates alone (04): registers and predicates named, length in words, passes over
the active threads (2 for lane exchange, R20), whether it may run on the scalar unit (R23 item 5), the tags of its sources and of its
result (Table 1.1), and what each active thread writes, computed from the state before the word (R96). -/
structure Alu where
  use : List Opn
  ps : List (BitVec 3)
  words : Nat
  passes : Nat
  int : Bool
  srcs : Ctx → List RTag
  tag : Ctx → RTag
  out : Ctx → Nat → Out

/-- Scalar execution (R23). -/
def Alu.scalar (a : Alu) (c : Ctx) : Bool :=
  a.int && decide (c.fr.mask = allThreads) && (decide (c.act = allThreads) || decide (c.act = 0#32)) &&
    (a.srcs c).all (· != .general) && (a.tag c != .general)

/-- The tag of what the word writes (R21, R22). -/
def Alu.result (a : Alu) (c : Ctx) : RTag := c.fullTag (a.tag c)

/-- The word's effect on its warp. -/
def Alu.warp (a : Alu) (c : Ctx) : Warp := c.w.putOuts (a.result c) c.act (a.out c)

/-- Run a register word. -/
def Alu.run (a : Alu) : State → Host.Outcome State Fault Refusal :=
  withWord a.use a.ps fun c s =>
    (s.editWarp c.f.unit c.f.warp fun _ => a.warp c).retire c a.words (a.scalar c) (a.passes * c.beats)

/-- Ask for a part of the state to be written by a word that retires after it: the word's effect, then its retirement. -/
def State.finish (s : State) (c : Ctx) (n : Nat) : State := s.retire c n false c.beats

end Sys2Proof.Machine
end

