-- ==== Sys2Proof/Machine/Operands.lean ====
section
/-! DEFINITION. Operand forms (R49 to R51, R99): registers, pairs, quads, literals, predicates, and the register tags of R21. -/
namespace Sys2Proof.Machine

/-- One register. -/
def opV (r : Reg) : Opn := ⟨r.toNat, 1, 1⟩
/-- An aligned pair (R49). -/
def opP (r : Reg) : Opn := ⟨r.toNat, 2, 2⟩
/-- An aligned quad named by its first register (LDC, STC). -/
def opQ (r : Reg) : Opn := ⟨r.toNat, 4, 4⟩
/-- A capability register (R29). -/
def opC (c : CapReg) : Opn := ⟨4 * c.toNat, 4, 4⟩
/-- The registers of a b operand that may be a literal, as one register. -/
def opdV : Opd → List Opn
  | .reg r => [opV r]
  | .lit _ => []
/-- The registers of a b operand that may be a literal, as a pair. -/
def opdP : Opd → List Opn
  | .reg r => [opP r]
  | .lit _ => []
/-- Length in words (R52). -/
def opdWords (b : Opd) : Nat := if b.isLit then 2 else 1

/-- vN of thread t. -/
def Ctx.rd (c : Ctx) (r : Reg) (t : Nat) : Word := c.w.reg (c.base + r.toNat) t
/-- The pair vN, vN+1 of thread t, low word first (R49). -/
def Ctx.rdP (c : Ctx) (r : Reg) (t : Nat) : Word64 := c.w.reg (c.base + r.toNat + 1) t ++ c.w.reg (c.base + r.toNat) t
/-- Capability cN of thread t (R29). -/
def Ctx.rdC (c : Ctx) (k : CapReg) (t : Nat) : BitVec 128 := c.w.quad (c.base + 4 * k.toNat) t
/-- The tag of cN in thread t (R30). -/
def Ctx.capTag (c : Ctx) (k : CapReg) (t : Nat) : Bool := c.w.qtag ((c.base + 4 * k.toNat) / 4) t
/-- A b operand, used as stored within a 32-bit operation (R50). -/
def Ctx.rdO (c : Ctx) (b : Opd) (t : Nat) : Word :=
  match b with
  | .reg r => c.rd r t
  | .lit w => w
/-- A b operand of a 64-bit operation: a literal is sign-extended for an .i64 code and zero-extended otherwise (R50, R100). -/
def Ctx.rdO64 (c : Ctx) (sx : Bool) (b : Opd) (t : Nat) : Word64 :=
  match b with
  | .reg r => c.rdP r t
  | .lit w => if sx then w.signExtend 64 else w.zeroExtend 64
/-- A source predicate with its negation (R99). -/
def Ctx.rdPred (c : Ctx) (p : PredSrc) (t : Nat) : Bool := (c.w.pred p.p t) != p.neg

/-- Write vN. -/
def Ctx.wr (c : Ctx) (r : Reg) (x : Word) : List (Nat × Word) := [(c.base + r.toNat, x)]
/-- Write the pair vN, vN+1. -/
def Ctx.wrP (c : Ctx) (r : Reg) (x : Word64) : List (Nat × Word) :=
  [(c.base + r.toNat, x.setWidth 32), (c.base + r.toNat + 1, (x >>> 32).setWidth 32)]

/-- What a thread writes when it writes registers only. -/
def Out.ofRegs (l : List (Nat × Word)) : Out := ⟨l, [], 0⟩
/-- What a thread writes when it writes one predicate only. -/
def Out.ofPred (p : PredReg) (b : Bool) : Out := ⟨[], [(p, b)], 0⟩

/-- Tag of vN. -/
def Ctx.tagV (c : Ctx) (r : Reg) : RTag := c.w.rtag (c.base + r.toNat)
/-- Tags of a pair. -/
def Ctx.tagP (c : Ctx) (r : Reg) : List RTag := [c.w.rtag (c.base + r.toNat), c.w.rtag (c.base + r.toNat + 1)]
/-- Tags of a capability's registers. -/
def Ctx.tagC (c : Ctx) (k : CapReg) : List RTag := (List.range 4).map fun i => c.w.rtag (c.base + 4 * k.toNat + i)
/-- Tag of a b operand: a literal is the same in every thread. -/
def Ctx.tagO (c : Ctx) : Opd → List RTag
  | .reg r => [c.tagV r]
  | .lit _ => [.uniform]
/-- Tags of a 64-bit b operand. -/
def Ctx.tagO64 (c : Ctx) : Opd → List RTag
  | .reg r => c.tagP r
  | .lit _ => [.uniform]
/-- A predicate is a uniform source when it holds the same value in all 32 threads. -/
def Ctx.tagPred (c : Ctx) (p : BitVec 3) : RTag :=
  if (List.range 32).all fun t => c.w.pred p t == c.w.pred p 0 then .uniform else .general

/-- Instructions that Table 1.1 does not list, and the 64-bit forms: uniform from uniform sources, else general. -/
def tagAll (l : List RTag) : RTag := if l.all (· == .uniform) then .uniform else .general
/-- ADD and ADDI in the wrapping form (Table 1.1); a sum has no first term. -/
def tagAdd : RTag → RTag → RTag
  | .general, _ => .general
  | _, .general => .general
  | .uniform, .uniform => .uniform
  | .affine, .uniform => .affine
  | .uniform, .affine => .affine
  | .affine, .affine => .affine
/-- SUB in the wrapping form (Table 1.1), which lists no Uniform − Affine. -/
def tagSub : RTag → RTag → RTag
  | .uniform, .affine => .general
  | x, y => tagAdd x y
/-- MUL (Table 1.1): affine by uniform stays affine. -/
def tagMul : RTag → RTag → RTag
  | .uniform, .uniform => .uniform
  | .affine, .uniform => .affine
  | .uniform, .affine => .affine
  | _, _ => .general
/-- SHL and SHLI (Table 1.1): affine by a uniform count below 32 stays affine. -/
def tagShl (a n : RTag) (k : Nat) : RTag :=
  match a, n with
  | .uniform, .uniform => .uniform
  | .affine, .uniform => if k < 32 then .affine else .general
  | _, _ => .general
/-- LEA.n32 (Table 1.1): an affine index shifted, plus a uniform base. -/
def tagLea : RTag → RTag → RTag
  | .uniform, .uniform => .uniform
  | .uniform, .affine => .affine
  | _, _ => .general

/-- A 32-bit word vd := f(va, b). -/
def bin32 (d a : Reg) (b : Opd) (tag : Ctx → RTag) (f : Word → Word → Word) : State → Host.Outcome State Fault Refusal :=
  Alu.run
    { use := opV d :: opV a :: opdV b, ps := [], words := opdWords b, passes := 1, int := true
      srcs := fun c => c.tagV a :: c.tagO b
      tag := tag
      out := fun c t => .ofRegs (c.wr d (f (c.rd a t) (c.rdO b t))) }

/-- The tag of an unlisted 32-bit word of two sources. -/
def tag2 (a : Reg) (b : Opd) (c : Ctx) : RTag := tagAll (c.tagV a :: c.tagO b)

/-- A 32-bit accumulating word vd := f(old vd, va, b) (R98). -/
def acc32 (d a : Reg) (b : Opd) (f : Word → Word → Word → Word) : State → Host.Outcome State Fault Refusal :=
  Alu.run
    { use := opV d :: opV a :: opdV b, ps := [], words := opdWords b, passes := 1, int := true
      srcs := fun c => c.tagV d :: c.tagV a :: c.tagO b
      tag := fun c => tagAll (c.tagV d :: c.tagV a :: c.tagO b)
      out := fun c t => .ofRegs (c.wr d (f (c.rd d t) (c.rd a t) (c.rdO b t))) }

/-- A 64-bit word on pairs. -/
def bin64 (d a : Reg) (b : Opd) (sx : Bool) (f : Word64 → Word64 → Word64) : State → Host.Outcome State Fault Refusal :=
  Alu.run
    { use := opP d :: opP a :: opdP b, ps := [], words := opdWords b, passes := 1, int := true
      srcs := fun c => c.tagP a ++ c.tagO64 b
      tag := fun c => tagAll (c.tagP a ++ c.tagO64 b)
      out := fun c t => .ofRegs (c.wrP d (f (c.rdP a t) (c.rdO64 sx b t))) }

/-- A 64-bit word whose b operand is one register or a 32-bit literal (the shifts of R114). -/
def bin64v (d a : Reg) (b : Opd) (f : Word64 → Word → Word64) : State → Host.Outcome State Fault Refusal :=
  Alu.run
    { use := opP d :: opP a :: opdV b, ps := [], words := opdWords b, passes := 1, int := true
      srcs := fun c => c.tagP a ++ c.tagO b
      tag := fun c => tagAll (c.tagP a ++ c.tagO b)
      out := fun c t => .ofRegs (c.wrP d (f (c.rdP a t) (c.rdO b t))) }

/-- A 32-bit word of one source. -/
def un32 (d a : Reg) (tag : Ctx → RTag) (f : Word → Word) : State → Host.Outcome State Fault Refusal :=
  Alu.run
    { use := [opV d, opV a], ps := [], words := 1, passes := 1, int := true
      srcs := fun c => [c.tagV a], tag := tag
      out := fun c t => .ofRegs (c.wr d (f (c.rd a t))) }

/-- A 64-bit word of one source. -/
def un64 (d a : Reg) (f : Word64 → Word64) : State → Host.Outcome State Fault Refusal :=
  Alu.run
    { use := [opP d, opP a], ps := [], words := 1, passes := 1, int := true
      srcs := fun c => c.tagP a, tag := fun c => tagAll (c.tagP a)
      out := fun c t => .ofRegs (c.wrP d (f (c.rdP a t))) }

/-- A word that counts in a pair and writes one register (R118). -/
def count64 (d a : Reg) (f : Word64 → Word) : State → Host.Outcome State Fault Refusal :=
  Alu.run
    { use := [opV d, opP a], ps := [], words := 1, passes := 1, int := true
      srcs := fun c => c.tagP a, tag := fun c => tagAll (c.tagP a)
      out := fun c t => .ofRegs (c.wr d (f (c.rdP a t))) }

/-- How a compare's result is written (R108). -/
def predPut (m : PredMode) (old c : Bool) : Bool :=
  match m with
  | .set => c
  | .and => old && c
  | .or => old || c

/-- The predicate a compare reads before it writes it (R108). -/
def predSrcs (m : PredMode) (p : PredReg) (c : Ctx) : List RTag :=
  match m with
  | .set => []
  | _ => [c.tagPred p]

end Sys2Proof.Machine
end

