-- ==== Sys2Proof/Machine/Int.lean ====
section
/-! DEFINITION. Integer arithmetic, compares, logic, shifts, bit fields and moves (04 R102 to R119). -/
namespace Sys2Proof.Machine

/-- What a word with a meaning answers. -/
abbrev Meaning := State → Host.Outcome State Fault Refusal

/-- A number clamped to a range. -/
def clamp (x lo hi : Int) : Int := if x < lo then lo else if hi < x then hi else x

/-- A number clamped to the signed range of w bits. -/
def clampI (w : Nat) (x : Int) : BitVec w := BitVec.ofInt w (clamp x (-(2 ^ (w - 1))) (2 ^ (w - 1) - 1))

/-- A number clamped to the unsigned range of w bits. -/
def clampN (w : Nat) (x : Int) : BitVec w := BitVec.ofInt w (clamp x 0 (2 ^ w - 1))

/-- ADD (R103). -/
def addOp {w : Nat} (m : SatMode) (x y : BitVec w) : BitVec w :=
  match m with
  | .wrap => x + y
  | .satI => clampI w (x.toInt + y.toInt)
  | .satN => clampN w ((x.toNat : Int) + y.toNat)

/-- SUB (R103). -/
def subOp {w : Nat} (m : SatMode) (x y : BitVec w) : BitVec w :=
  match m with
  | .wrap => x - y
  | .satI => clampI w (x.toInt - y.toInt)
  | .satN => clampN w ((x.toNat : Int) - y.toNat)

/-- NEG (R103). -/
def negOp {w : Nat} (sat : Bool) (x : BitVec w) : BitVec w := if sat then clampI w (-x.toInt) else 0 - x

/-- ABS (R103). -/
def absOp {w : Nat} (sat : Bool) (x : BitVec w) : BitVec w :=
  if sat then clampI w x.toInt.natAbs else BitVec.ofInt w x.toInt.natAbs

/-- The high half of the signed product (R104). -/
def mulhI {w : Nat} (x y : BitVec w) : BitVec w := BitVec.ofInt w ((x.toInt * y.toInt) / 2 ^ w)

/-- The high half of the unsigned product (R104). -/
def mulhN {w : Nat} (x y : BitVec w) : BitVec w := BitVec.ofNat w ((x.toNat * y.toNat) / 2 ^ w)

/-- MIN and MAX (R107). -/
def minI {w : Nat} (x y : BitVec w) : BitVec w := if y.toInt < x.toInt then y else x
def maxI {w : Nat} (x y : BitVec w) : BitVec w := if x.toInt < y.toInt then y else x
def minN {w : Nat} (x y : BitVec w) : BitVec w := if y.toNat < x.toNat then y else x
def maxN {w : Nat} (x y : BitVec w) : BitVec w := if x.toNat < y.toNat then y else x

/-- The tag of ADD and SUB: the affine rule holds of the wrapping form only. -/
def tagSat (f : RTag → RTag → RTag) (m : SatMode) (a : Reg) (b : Opd) (c : Ctx) : RTag :=
  match m, c.tagO b with
  | .wrap, [tb] => f (c.tagV a) tb
  | _, _ => tag2 a b c

def execAddI32 (m : SatMode) (d a : Reg) (b : Opd) : Meaning := bin32 d a b (tagSat tagAdd m a b) (addOp m)
def execAddI64 (m : SatMode) (d a : Reg) (b : Opd) : Meaning := bin64 d a b true (addOp m)
def execSubI32 (m : SatMode) (d a : Reg) (b : Opd) : Meaning := bin32 d a b (tagSat tagSub m a b) (subOp m)
def execSubI64 (m : SatMode) (d a : Reg) (b : Opd) : Meaning := bin64 d a b true (subOp m)

/-- ADDI.i32 (R102, R103): imm9 sign-extended. -/
def execAddiI32 (d a : Reg) (imm : BitVec 9) : Meaning :=
  un32 d a (fun c => tagAdd (c.tagV a) .uniform) fun x => x + imm.signExtend 32
/-- ADDI.i64 (R102, R103). -/
def execAddiI64 (d a : Reg) (imm : BitVec 9) : Meaning := un64 d a fun x => x + imm.signExtend 64

def execMulI32 (d a : Reg) (b : Opd) : Meaning :=
  bin32 d a b (fun c => match c.tagO b with | [tb] => tagMul (c.tagV a) tb | _ => .general) fun x y => x * y
def execMulI64 (d a : Reg) (b : Opd) : Meaning := bin64 d a b true fun x y => x * y
def execMulhI32 (d a : Reg) (b : Opd) : Meaning := bin32 d a b (tag2 a b) mulhI
def execMulhN32 (d a : Reg) (b : Opd) : Meaning := bin32 d a b (tag2 a b) mulhN
def execMulhI64 (d a : Reg) (b : Opd) : Meaning := bin64 d a b true mulhI
def execMulhN64 (d a : Reg) (b : Opd) : Meaning := bin64 d a b false mulhN

/-- MAD.i32 (R104). -/
def execMadI32 (d a : Reg) (b : Opd) : Meaning := acc32 d a b fun z x y => x * y + z

/-- MAD.i64 (R104). -/
def execMadI64 (d a : Reg) (b : Opd) : Meaning :=
  Alu.run
    { use := opP d :: opP a :: opdP b, ps := [], words := opdWords b, passes := 1, int := true
      srcs := fun c => c.tagP d ++ c.tagP a ++ c.tagO64 b
      tag := fun c => tagAll (c.tagP d ++ c.tagP a ++ c.tagO64 b)
      out := fun c t => .ofRegs (c.wrP d (c.rdP a t * c.rdO64 true b t + c.rdP d t)) }

/-- The predicate p0 to p3 that md selects (R105, R111). -/
def qPred (q : BitVec 2) : BitVec 3 := q.zeroExtend 3

/-- ADDC.n32 (R105): the carry predicate is read and written. -/
def execAddcN32 (q : BitVec 2) (d a b : Reg) : Meaning :=
  Alu.run
    { use := [opV d, opV a, opV b], ps := [qPred q], words := 1, passes := 1, int := true
      srcs := fun c => [c.tagV a, c.tagV b, c.tagPred (qPred q)]
      tag := fun c => tagAll [c.tagV a, c.tagV b, c.tagPred (qPred q)]
      out := fun c t =>
        let s := (c.rd a t).toNat + (c.rd b t).toNat + (c.w.pred (qPred q) t).toNat
        ⟨c.wr d (BitVec.ofNat 32 s), [(qPred q, decide (2 ^ 32 ≤ s))], 0⟩ }

/-- LEA.n32 (R106): the shift is md + 1. -/
def execLeaN32 (k : BitVec 2) (d a b : Reg) : Meaning :=
  bin32 d a (.reg b) (fun c => tagLea (c.tagV a) (c.tagV b)) fun x y => x + (y <<< (k.toNat + 1))

/-- LEA.n64 (R106): the index is one register read as signed. -/
def execLeaN64 (k : BitVec 2) (d a b : Reg) : Meaning :=
  bin64v d a (.reg b) fun x y => x + ((y.signExtend 64) <<< (k.toNat + 1))

def execMinI32 (d a : Reg) (b : Opd) : Meaning := bin32 d a b (tag2 a b) minI
def execMinN32 (d a : Reg) (b : Opd) : Meaning := bin32 d a b (tag2 a b) minN
def execMinI64 (d a : Reg) (b : Opd) : Meaning := bin64 d a b true minI
def execMinN64 (d a : Reg) (b : Opd) : Meaning := bin64 d a b false minN
def execMaxI32 (d a : Reg) (b : Opd) : Meaning := bin32 d a b (tag2 a b) maxI
def execMaxN32 (d a : Reg) (b : Opd) : Meaning := bin32 d a b (tag2 a b) maxN
def execMaxI64 (d a : Reg) (b : Opd) : Meaning := bin64 d a b true maxI
def execMaxN64 (d a : Reg) (b : Opd) : Meaning := bin64 d a b false maxN

def execAbsI32 (m : Bool) (d a : Reg) : Meaning := un32 d a (fun c => tagAll [c.tagV a]) (absOp m)
def execAbsI64 (m : Bool) (d a : Reg) : Meaning := un64 d a (absOp m)
/-- NEG.i32 (R103); the wrapping form keeps an affine tag (Table 1.1). -/
def execNegI32 (m : Bool) (d a : Reg) : Meaning :=
  un32 d a (fun c => if m then tagAll [c.tagV a] else c.tagV a) (negOp m)
def execNegI64 (m : Bool) (d a : Reg) : Meaning := un64 d a (negOp m)

/-! ### Compares, selection, predicates (R108 to R111) -/

/-- ISET's comparison (Table 4.3), signed or unsigned. -/
def icmpHolds {w : Nat} (cc : ICmp) (signed : Bool) (x y : BitVec w) : Bool :=
  let lt := if signed then decide (x.toInt < y.toInt) else decide (x.toNat < y.toNat)
  let gt := if signed then decide (y.toInt < x.toInt) else decide (y.toNat < x.toNat)
  match cc with
  | .eq => decide (x = y)
  | .ne => decide (x ≠ y)
  | .lt => lt
  | .le => !gt
  | .gt => gt
  | .ge => !lt

/-- ISET on registers (R108). -/
def iset32 (m : PredMode) (d : PredReg) (cc : ICmp) (a : Reg) (b : Opd) (signed : Bool) : Meaning :=
  Alu.run
    { use := opV a :: opdV b, ps := [d], words := opdWords b, passes := 1, int := true
      srcs := fun c => c.tagV a :: c.tagO b ++ predSrcs m d c
      tag := fun c => tagAll (c.tagV a :: c.tagO b ++ predSrcs m d c)
      out := fun c t => .ofPred d (predPut m (c.w.pred d t) (icmpHolds cc signed (c.rd a t) (c.rdO b t))) }

/-- ISET on pairs (R108). -/
def iset64 (m : PredMode) (d : PredReg) (cc : ICmp) (a : Reg) (b : Opd) (signed : Bool) : Meaning :=
  Alu.run
    { use := opP a :: opdP b, ps := [d], words := opdWords b, passes := 1, int := true
      srcs := fun c => c.tagP a ++ c.tagO64 b ++ predSrcs m d c
      tag := fun c => tagAll (c.tagP a ++ c.tagO64 b ++ predSrcs m d c)
      out := fun c t => .ofPred d (predPut m (c.w.pred d t) (icmpHolds cc signed (c.rdP a t) (c.rdO64 signed b t))) }

def execIsetI32 (m : PredMode) (d : PredReg) (cc : ICmp) (a : Reg) (b : Opd) : Meaning := iset32 m d cc a b true
def execIsetN32 (m : PredMode) (d : PredReg) (cc : ICmp) (a : Reg) (b : Opd) : Meaning := iset32 m d cc a b false
def execIsetI64 (m : PredMode) (d : PredReg) (cc : ICmp) (a : Reg) (b : Opd) : Meaning := iset64 m d cc a b true
def execIsetN64 (m : PredMode) (d : PredReg) (cc : ICmp) (a : Reg) (b : Opd) : Meaning := iset64 m d cc a b false

/-- SEL.b (R111). -/
def execSelB (q : BitVec 2) (d a b : Reg) : Meaning :=
  Alu.run
    { use := [opV d, opV a, opV b], ps := [qPred q], words := 1, passes := 1, int := true
      srcs := fun c => [c.tagV a, c.tagV b, c.tagPred (qPred q)]
      tag := fun c => tagAll [c.tagV a, c.tagV b, c.tagPred (qPred q)]
      out := fun c t => .ofRegs (c.wr d (if c.w.pred (qPred q) t then c.rd a t else c.rd b t)) }

/-- SEL.n64 (R111). -/
def execSelN64 (q : BitVec 2) (d a b : Reg) : Meaning :=
  Alu.run
    { use := [opP d, opP a, opP b], ps := [qPred q], words := 1, passes := 1, int := true
      srcs := fun c => c.tagP a ++ c.tagP b ++ [c.tagPred (qPred q)]
      tag := fun c => tagAll (c.tagP a ++ c.tagP b ++ [c.tagPred (qPred q)])
      out := fun c t => .ofRegs (c.wrP d (if c.w.pred (qPred q) t then c.rdP a t else c.rdP b t)) }

/-- PSET's operation (Table 4.2). -/
def psetApply (m : PsetOp) (x y : Bool) : Bool :=
  match m with
  | .and => x && y
  | .or => x || y
  | .xor => x != y

/-- PSET (R109). -/
def execPset (m : PsetOp) (d : PredReg) (a b : PredSrc) : Meaning :=
  Alu.run
    { use := [], ps := [d, a.p, b.p], words := 1, passes := 1, int := true
      srcs := fun c => [c.tagPred a.p, c.tagPred b.p], tag := fun c => tagAll [c.tagPred a.p, c.tagPred b.p]
      out := fun c t => .ofPred d (psetApply m (c.rdPred a t) (c.rdPred b t)) }

/-- PMOV vd, pa (R110). -/
def execPmovToReg (d : Reg) (a : PredSrc) : Meaning :=
  Alu.run
    { use := [opV d], ps := [a.p], words := 1, passes := 1, int := true
      srcs := fun c => [c.tagPred a.p], tag := fun c => c.tagPred a.p
      out := fun c t => .ofRegs (c.wr d (if c.rdPred a t then 1#32 else 0#32)) }

/-- PMOV pd, va (R110). -/
def execPmovToPred (d : PredReg) (a : Reg) : Meaning :=
  Alu.run
    { use := [opV a], ps := [d], words := 1, passes := 1, int := true
      srcs := fun c => [c.tagV a], tag := fun c => tagAll [c.tagV a]
      out := fun c t => .ofPred d (decide (c.rd a t ≠ 0#32)) }

/-- PMOV.pack (R110): bit 7 is p7, always 1. -/
def execPmovPack (d : Reg) : Meaning :=
  Alu.run
    { use := [opV d], ps := [0, 1, 2, 3, 4, 5, 6], words := 1, passes := 1, int := true
      srcs := fun c => (List.range 7).map fun p => c.tagPred (BitVec.ofNat 3 p)
      tag := fun c => tagAll ((List.range 7).map fun p => c.tagPred (BitVec.ofNat 3 p))
      out := fun c t =>
        .ofRegs (c.wr d ((List.range 8).foldl (fun x p => if c.w.pred (BitVec.ofNat 3 p) t then x ||| bit p else x) 0#32)) }

/-- PMOV.unpack (R110). -/
def execPmovUnpack (a : Reg) : Meaning :=
  Alu.run
    { use := [opV a], ps := [0, 1, 2, 3, 4, 5, 6], words := 1, passes := 1, int := true
      srcs := fun c => [c.tagV a], tag := fun c => tagAll [c.tagV a]
      out := fun c t => ⟨[], (List.range 7).map fun p => (BitVec.ofNat 3 p, (c.rd a t).getLsbD p), 0⟩ }

/-! ### Logic, shifts, bit fields, moves (R112 to R119) -/

def execAndB (d a : Reg) (b : Opd) : Meaning := bin32 d a b (tag2 a b) fun x y => x &&& y
def execOrB (d a : Reg) (b : Opd) : Meaning := bin32 d a b (tag2 a b) fun x y => x ||| y
def execXorB (d a : Reg) (b : Opd) : Meaning := bin32 d a b (tag2 a b) fun x y => x ^^^ y
def execAndnB (d a : Reg) (b : Opd) : Meaning := bin32 d a b (tag2 a b) fun x y => x &&& ~~~y
def execAndN64 (d a : Reg) (b : Opd) : Meaning := bin64 d a b false fun x y => x &&& y
def execOrN64 (d a : Reg) (b : Opd) : Meaning := bin64 d a b false fun x y => x ||| y
def execXorN64 (d a : Reg) (b : Opd) : Meaning := bin64 d a b false fun x y => x ^^^ y
def execAndnN64 (d a : Reg) (b : Opd) : Meaning := bin64 d a b false fun x y => x &&& ~~~y

/-- The shifts of R114: a count of at least the width gives 0, or the sign fill. -/
def shlOp {w : Nat} (x : BitVec w) (n : Nat) : BitVec w := if w ≤ n then 0 else x <<< n
def shrOp {w : Nat} (x : BitVec w) (n : Nat) : BitVec w := if w ≤ n then 0 else x >>> n
def sarOp {w : Nat} (x : BitVec w) (n : Nat) : BitVec w := x.sshiftRight (min n (w - 1))
def rotlOp (x : Word) (n : Nat) : Word := x.rotateLeft (n % 32)

/-- The tag of SHL: the count of thread 0 stands for a uniform count. -/
def tagShlO (a : Reg) (b : Opd) (c : Ctx) : RTag :=
  match c.tagO b with
  | [tb] => tagShl (c.tagV a) tb (c.rdO b 0).toNat
  | _ => .general

def execShlB (d a : Reg) (b : Opd) : Meaning := bin32 d a b (tagShlO a b) fun x n => shlOp x n.toNat
def execShrB (d a : Reg) (b : Opd) : Meaning := bin32 d a b (tag2 a b) fun x n => shrOp x n.toNat
def execSarB (d a : Reg) (b : Opd) : Meaning := bin32 d a b (tag2 a b) fun x n => sarOp x n.toNat
def execRotlB (d a : Reg) (b : Opd) : Meaning := bin32 d a b (tag2 a b) fun x n => rotlOp x n.toNat
def execShliB (d a : Reg) (imm : BitVec 5) : Meaning :=
  un32 d a (fun c => tagShl (c.tagV a) .uniform imm.toNat) fun x => shlOp x imm.toNat
def execShriB (d a : Reg) (imm : BitVec 5) : Meaning := un32 d a (fun c => tagAll [c.tagV a]) fun x => shrOp x imm.toNat
def execSariB (d a : Reg) (imm : BitVec 5) : Meaning := un32 d a (fun c => tagAll [c.tagV a]) fun x => sarOp x imm.toNat
def execShlN64 (d a : Reg) (b : Opd) : Meaning := bin64v d a b fun x n => shlOp x n.toNat
def execShrN64 (d a : Reg) (b : Opd) : Meaning := bin64v d a b fun x n => shrOp x n.toNat
def execSarI64 (d a : Reg) (b : Opd) : Meaning := bin64v d a b fun x n => sarOp x n.toNat

/-- FSHL (R115): the count is vb[4:0]; count 0 keeps vd. -/
def fshlOp (z x y : Word) : Word :=
  let s := y.toNat % 32
  if s = 0 then z else (z <<< s) ||| (x >>> (32 - s))
def execFshlB (d a : Reg) (b : Opd) : Meaning := acc32 d a b fshlOp

/-- Position and clamped length of a bit field (R116). -/
def fieldPos (y : Word) : Nat := y.toNat % 256
def fieldLen (y : Word) : Nat := if 31 < fieldPos y then 0 else min (y.toNat / 256 % 256) (32 - fieldPos y)
def fieldMask (y : Word) : Word := BitVec.ofNat 32 ((2 ^ fieldLen y - 1) * 2 ^ fieldPos y)
/-- BFX.n32 (R116). -/
def bfxN (x y : Word) : Word := (x &&& fieldMask y) >>> fieldPos y
/-- BFX.i32 (R116). -/
def bfxI (x y : Word) : Word :=
  let v := bfxN x y
  let n := fieldLen y
  if n = 0 then 0 else if v.getLsbD (n - 1) then v ||| (BitVec.allOnes 32 <<< n) else v
/-- BFI.b (R116). -/
def bfiOp (z x y : Word) : Word := (z &&& ~~~fieldMask y) ||| ((x <<< fieldPos y) &&& fieldMask y)
def execBfxN32 (d a : Reg) (b : Opd) : Meaning := bin32 d a b (tag2 a b) bfxN
def execBfxI32 (d a : Reg) (b : Opd) : Meaning := bin32 d a b (tag2 a b) bfxI
def execBfiB (d a : Reg) (b : Opd) : Meaning := acc32 d a b bfiOp

/-- PRMT (R117): result byte k of the pool va:vd under the selector. -/
def prmtByte (pool : Nat) (sel k : Nat) : Nat :=
  let n := sel / 2 ^ (3 * k) % 8
  let b : Byte := BitVec.ofNat 8 (pool / 256 ^ n)
  match sel / 2 ^ (12 + 2 * k) % 4 with
  | 0 => b.toNat
  | 1 => 0
  | 2 => if b.getLsbD 7 then 255 else 0
  | _ => b.reverse.toNat
/-- PRMT (R117). -/
def prmtOp (z x y : Word) : Word :=
  let pool := x.toNat * 2 ^ 32 + z.toNat
  BitVec.ofNat 32 ((List.range 4).foldl (fun v k => v + prmtByte pool y.toNat k * 256 ^ k) 0)
def execPrmtB (d a : Reg) (b : Opd) : Meaning := acc32 d a b prmtOp

/-- Leading and trailing zeros; a zero source gives the width (R118). -/
def clz {w : Nat} (x : BitVec w) : Nat := (leastBelow w fun i => x.getLsbD (w - 1 - i)).getD w
def ctz {w : Nat} (x : BitVec w) : Nat := (leastBelow w fun i => x.getLsbD i).getD w
def execPopcB (d a : Reg) : Meaning := un32 d a (fun c => tagAll [c.tagV a]) fun x => BitVec.ofNat 32 (popCount x)
def execClzB (d a : Reg) : Meaning := un32 d a (fun c => tagAll [c.tagV a]) fun x => BitVec.ofNat 32 (clz x)
def execCtzB (d a : Reg) : Meaning := un32 d a (fun c => tagAll [c.tagV a]) fun x => BitVec.ofNat 32 (ctz x)
def execBrevB (d a : Reg) : Meaning := un32 d a (fun c => tagAll [c.tagV a]) fun x => x.reverse
def execPopcN64 (d a : Reg) : Meaning := count64 d a fun x => BitVec.ofNat 32 (popCount x)
def execClzN64 (d a : Reg) : Meaning := count64 d a fun x => BitVec.ofNat 32 (clz x)
def execCtzN64 (d a : Reg) : Meaning := count64 d a fun x => BitVec.ofNat 32 (ctz x)
def execBrevN64 (d a : Reg) : Meaning := un64 d a fun x => x.reverse

/-- A word that writes a constant (R119). -/
def const32 (d : Reg) (words : Nat) (x : Word) : Meaning :=
  Alu.run
    { use := [opV d], ps := [], words := words, passes := 1, int := true
      srcs := fun _ => [], tag := fun _ => .uniform, out := fun c _ => .ofRegs (c.wr d x) }

def execMovB (d a : Reg) : Meaning := un32 d a (fun c => c.tagV a) fun x => x
def execMovBLit (d : Reg) (lit : Word) : Meaning := const32 d 2 lit
def execMovN64 (d a : Reg) : Meaning := un64 d a fun x => x
/-- MOV.n64 of a literal, zero-extended (R100, R119). -/
def execMovN64Lit (d : Reg) (lit : Word) : Meaning :=
  Alu.run
    { use := [opP d], ps := [], words := 2, passes := 1, int := true
      srcs := fun _ => [], tag := fun _ => .uniform, out := fun c _ => .ofRegs (c.wrP d (lit.zeroExtend 64)) }
def execMovi (d : Reg) (imm : BitVec 16) : Meaning := const32 d 1 (imm.signExtend 32)
def execMovh (d : Reg) (imm : BitVec 16) : Meaning := const32 d 1 ((imm.zeroExtend 32) <<< 16)

end Sys2Proof.Machine
end

