-- ==== Sys2Proof/Machine/Capability.lean ====
section
/-! DEFINITION. Capabilities: decoding, bounds (R152), and the instructions that build and inspect them (R156 to R162). -/
namespace Sys2Proof.Machine

/-- The fields of a capability (Table 1.4). -/
structure Cap where
  rsv : Nat
  space : Nat
  perm : Nat
  topm : Nat
  basem : Nat
  exp : Nat
  cursor : Nat
  deriving DecidableEq, Repr

/-- Decode 128 bits. -/
def Cap.of (q : BitVec 128) : Cap :=
  let n := q.toNat
  ⟨n / 2 ^ 114, n / 2 ^ 110 % 16, n / 2 ^ 102 % 256, n / 2 ^ 82 % 2 ^ 20, n / 2 ^ 62 % 2 ^ 20, n / 2 ^ 56 % 64, n % 2 ^ 56⟩

/-- Encode to 128 bits. -/
def Cap.bits (c : Cap) : BitVec 128 :=
  BitVec.ofNat 128
    (c.rsv * 2 ^ 114 + c.space * 2 ^ 110 + c.perm * 2 ^ 102 + c.topm * 2 ^ 82 + c.basem * 2 ^ 62 + c.exp * 2 ^ 56 + c.cursor)

/-- Base and top, or nothing where the capability is malformed (R152). -/
def Cap.bounds (c : Cap) : Option (Nat × Nat) :=
  if c.exp = 63 then if c.basem ≠ 0 ∨ c.topm ≠ 0 then none else some (0, 2 ^ 56)
  else if 36 < c.exp then none
  else
    let a := c.cursor / 2 ^ c.exp * 2 ^ c.exp
    let top := a + c.topm * 2 ^ c.exp
    if a < c.basem * 2 ^ c.exp ∨ 2 ^ 56 < top then none else some (a - c.basem * 2 ^ c.exp, top)

/-- Well formed: decodes, and no reserved field is set. -/
def Cap.ok (c : Cap) : Bool := c.bounds.isSome && decide (c.rsv = 0)

/-- A permission bit (R155): 0 read, 1 write, 2 atomic, 3 execute, 4 store-capability, 5 load-capability, 6 speculative-store, 7 derive. -/
def Cap.has (c : Cap) (b : Nat) : Bool := c.perm / 2 ^ b % 2 = 1

/-- x divided by y, rounded up. -/
def ceilDiv (x y : Nat) : Nat := (x + y - 1) / y

/-- The region of `len` bytes from the cursor narrowed from a capability (R157). -/
def Cap.narrow (c : Cap) (tag exact : Bool) (len : Nat) : Cap × Bool :=
  let lo := c.cursor
  let hi := lo + len
  let whole := lo = 0 && hi = 2 ^ 56
  let found := leastBelow 37 fun e => decide (ceilDiv hi (2 ^ e) - lo / 2 ^ e ≤ 2 ^ 20 - 1)
  let e := if whole then 63 else found.getD 36
  let rb := if whole then 0 else lo / 2 ^ e * 2 ^ e
  let rt := if whole then 2 ^ 56 else ceilDiv hi (2 ^ e) * 2 ^ e
  let inside := match c.bounds with
    | some (b0, t0) => decide (b0 ≤ rb) && decide (rt ≤ t0)
    | none => false
  ({ c with exp := e, basem := 0, topm := if whole then 0 else (rt - rb) / 2 ^ e % 2 ^ 20, cursor := rb },
    tag && inside && decide (hi ≤ 2 ^ 56) && (whole || found.isSome) && !(exact && (rb ≠ lo || rt ≠ hi)) && decide (c.rsv = 0))

/-- Whether y grants nothing that x does not (R161), tags aside. -/
def Cap.covers (x y : Cap) : Bool :=
  match x.bounds, y.bounds with
  | some (bx, tx), some (yb, yt) =>
    decide (x.space = y.space) && decide (bx ≤ yb) && decide (yt ≤ tx)
      && decide (y.perm &&& x.perm = y.perm)
  | _, _ => false

/-- The step of CADD (R159). -/
def Cap.step (c : Cap) (tag : Bool) (n : Int) : Cap × Bool :=
  let cur := (((c.cursor : Int) + n) % 2 ^ 56).toNat
  match c.bounds with
  | none => ({ c with cursor := cur }, false)
  | some (b, tp) =>
    if c.exp = 63 then ({ c with cursor := cur }, tag)
    else
      let a := cur / 2 ^ c.exp * 2 ^ c.exp
      let m : Int := ((a : Int) - b) / 2 ^ c.exp
      let k : Int := ((tp : Int) - a) / 2 ^ c.exp
      ({ c with cursor := cur, basem := (m % 2 ^ 20).toNat, topm := (k % 2 ^ 20).toNat },
        tag && decide (0 ≤ m) && decide (m ≤ 2 ^ 20 - 1) && decide (0 ≤ k) && decide (k ≤ 2 ^ 20 - 1))

/-- The canonical encoding of CDRV: the least exponent that represents the bounds from the cursor (R162). -/
def Cap.canon (c : Cap) : Cap :=
  match c.bounds with
  | none => c
  | some (b, t) =>
    if b = 0 ∧ t = 2 ^ 56 then { c with exp := 63, basem := 0, topm := 0 }
    else
      let fits (e : Nat) : Bool :=
        let a := c.cursor / 2 ^ e * 2 ^ e
        b % 2 ^ e = 0 && t % 2 ^ e = 0 && decide (b ≤ a) && decide (a ≤ t) && decide ((a - b) / 2 ^ e ≤ 2 ^ 20 - 1)
          && decide ((t - a) / 2 ^ e ≤ 2 ^ 20 - 1)
      let e := (leastBelow 37 fits).getD c.exp
      let a := c.cursor / 2 ^ e * 2 ^ e
      { c with exp := e, basem := (a - b) / 2 ^ e, topm := (t - a) / 2 ^ e }

/-- Write a quad of a thread with its tag (R29, R30). -/
def Warp.setQuad (w : Warp) (rt : RTag) (r t : Nat) (q : BitVec 128) (tag : Bool) : Warp :=
  ((List.range 4).foldl (fun w i => (w.setReg (r + i) t ((q >>> (32 * i)).setWidth 32)).setRtag (r + i) rt) w).setQtag (r / 4) t tag

/-- A word that writes capability cd in each active thread. -/
def capWord (d : CapReg) (use : List Opn) (words : Nat) (f : Ctx → Nat → Cap × Bool) : Meaning :=
  withWord (opC d :: use) [] fun c s =>
    (s.editWarp c.f.unit c.f.warp fun _ =>
      (threads c.act).foldl (fun w t => w.setQuad .general (c.base + 4 * d.toNat) t (f c t).1.bits (f c t).2) c.w).retire c words false
      c.beats

/-- The capability that a field names. -/
def Ctx.cap (c : Ctx) (a : CapReg) (t : Nat) : Cap := Cap.of (c.rdC a t)

/-- CBND.exact (R157). -/
def execCbndExact (d a : CapReg) (b : Reg) : Meaning :=
  capWord d [opC a, opP b] 1 fun c t => (c.cap a t).narrow (c.capTag a t) true (c.rdP b t).toNat
/-- CBND.round (R157). -/
def execCbndRound (d a : CapReg) (b : Reg) : Meaning :=
  capWord d [opC a, opP b] 1 fun c t => (c.cap a t).narrow (c.capTag a t) false (c.rdP b t).toNat
/-- CBND with a literal length, exact (R156, R157). -/
def execCbndLit (d a : CapReg) (lit : Word) : Meaning :=
  capWord d [opC a] 2 fun c t => (c.cap a t).narrow (c.capTag a t) true lit.toNat
/-- CPRM (R158): the tag is kept. -/
def execCprm (d a : CapReg) (b : Opd) : Meaning :=
  capWord d (opC a :: opdV b) (opdWords b) fun c t =>
    let k := c.cap a t
    ({ k with perm := k.perm &&& ((c.rdO b t).toNat % 256) }, c.capTag a t)
/-- CADD (R159). -/
def execCadd (d a : CapReg) (b : Opd) : Meaning :=
  capWord d (opC a :: opdV b) (opdWords b) fun c t => (c.cap a t).step (c.capTag a t) (c.rdO b t).toInt

/-- Whether a selector returns a pair (Table 5.5). -/
def cgetPair : CgetSel → Bool
  | .perm => false
  | .space => false
  | _ => true

/-- The field that a selector reads (Table 5.5); 0 for the bounds of a malformed capability (R160). -/
def cgetVal (sel : CgetSel) (k : Cap) : Nat :=
  match sel, k.bounds with
  | .perm, _ => k.perm
  | .space, _ => k.space
  | .cur, _ => k.cursor
  | .base, some (b, _) => b
  | .top, some (_, t) => t
  | .len, some (b, t) => t - b
  | .off, some (b, _) => ((((k.cursor : Int) - b) % 2 ^ 64)).toNat
  | _, none => 0

/-- CGET (R160). -/
def execCget (d : Reg) (a : CapReg) (sel : CgetSel) : Meaning :=
  Alu.run
    { use := [if cgetPair sel then opP d else opV d, opC a], ps := [], words := 1, passes := 1, int := false
      srcs := fun _ => [], tag := fun _ => .general
      out := fun c t =>
        let v := cgetVal sel (c.cap a t)
        .ofRegs (if cgetPair sel then c.wrP d (BitVec.ofNat 64 v) else c.wr d (BitVec.ofNat 32 v)) }

/-- CTST.tag (R161). -/
def execCtstTag (d : PredReg) (a : CapReg) : Meaning :=
  Alu.run
    { use := [opC a], ps := [d], words := 1, passes := 1, int := false, srcs := fun _ => [], tag := fun _ => .general
      out := fun c t => .ofPred d (c.capTag a t) }
/-- CTST.sub (R161). -/
def execCtstSub (d : PredReg) (a b : CapReg) : Meaning :=
  Alu.run
    { use := [opC a, opC b], ps := [d], words := 1, passes := 1, int := false, srcs := fun _ => [], tag := fun _ => .general
      out := fun c t => .ofPred d (c.capTag a t && c.capTag b t && (c.cap a t).covers (c.cap b t)) }

/-- The faults of CDRV (R162 steps 1 and 3). -/
def cdrvFaults (a b : CapReg) (c : Ctx) (t : Nat) : Bool :=
  let k := c.cap a t
  let r := c.cap b t
  !(c.capTag b t && r.ok && r.has 7) || (k.ok && !(r.covers k))

/-- The threads that pass a word's own checks go on with it; those that fail leave (R273). -/
def State.guarded (s : State) (c : Ctx) (bads : List Bad) (go : Ctx → State → State) : State :=
  match bads with
  | [] => go c s
  | _ =>
    match s.takeFaults c.f bads with
    | (s, true) =>
      match s.ctx? with
      | some c => go c s
      | none => s
    | (s, false) => s

/-- CDRV (R162). -/
def execCdrv (d a b : CapReg) : Meaning :=
  withWord [opC d, opC a, opC b] [] fun c s =>
    s.guarded c (groupBads c.act fun t => if cdrvFaults a b c t then some (Bad.of 0x12 0 0) else none) fun c s =>
      (s.editWarp c.f.unit c.f.warp fun w =>
        (threads c.act).foldl (fun w t =>
          let k := c.cap a t
          if k.ok then w.setQuad .general (c.base + 4 * d.toNat) t k.canon.bits true
          else w.setQuad .general (c.base + 4 * d.toNat) t (c.rdC a t) false) w).retire c 1 false c.beats

end Sys2Proof.Machine
end

