-- ==== Sys2Proof/Machine/Flags.lean ====
section
/-! DEFINITION. Exceptions: the bits of %fflags (Table 1.16) and the counters of %mxexc (Table 1.17). -/
namespace Sys2Proof.Machine

def flNone : BitVec 5 := 0#5
/-- Invalid (R75). -/
def flNV : BitVec 5 := 0b10000#5
/-- Divide by zero (R80). -/
def flDZ : BitVec 5 := 0b01000#5
/-- Overflow (R79). -/
def flOF : BitVec 5 := 0b00100#5
/-- Underflow (R80). -/
def flUF : BitVec 5 := 0b00010#5
/-- Inexact (R80). -/
def flIX : BitVec 5 := 0b00001#5

/-- Invalid when the condition holds. -/
def nvIf (b : Bool) : BitVec 5 := if b then flNV else flNone

/-- Events counted for an accumulator row (R89). -/
structure RowEv where
  flush : Nat
  ovf : Nat
  inv : Nat
  deriving DecidableEq, Repr

def RowEv.zero : RowEv := ⟨0, 0, 0⟩
def RowEv.plus (a b : RowEv) : RowEv := ⟨a.flush + b.flush, a.ovf + b.ovf, a.inv + b.inv⟩

/-- The fields of %mxexc. -/
def mxFlush (x : BitVec 24) : Nat := x.toNat / 65536
def mxOvf (x : BitVec 24) : Nat := x.toNat / 256 % 256
def mxInv (x : BitVec 24) : Nat := x.toNat % 256

/-- Count events into %mxexc: each counter stops at 255 (R35). -/
def mxCount (x : BitVec 24) (e : RowEv) : BitVec 24 :=
  BitVec.ofNat 24 (min (mxFlush x + e.flush) 255 * 65536 + min (mxOvf x + e.ovf) 255 * 256 + min (mxInv x + e.inv) 255)

/-- The conditions that TFENCE tests (R92): %fflags, and the row's counters where the window lies in the allotment. -/
def trapCond (ff : BitVec 5) (row : Option (BitVec 24)) : BitVec 5 :=
  match row with
  | none => ff
  | some x =>
    ff ||| (if mxInv x = 0 then flNone else flNV) ||| (if mxOvf x = 0 then flNone else flOF)
      ||| (if mxFlush x = 0 then flNone else flUF)

end Sys2Proof.Machine
end

