-- ==== Sys2Proof/Machine/Float.lean ====
section
/-! DEFINITION. Number formats and rounding (03 R73 to R85, R95): values are exact dyadic numbers, rounded once. -/
namespace Sys2Proof.Machine

/-- A floating-point layout (Table 3.2): exponent and fraction bits. -/
structure Fmt where
  eb : Nat
  mb : Nat
  deriving DecidableEq, Repr

def f32 : Fmt := ⟨8, 23⟩
def f16 : Fmt := ⟨5, 10⟩
def bf16 : Fmt := ⟨8, 7⟩

def Fmt.bias (f : Fmt) : Nat := 2 ^ (f.eb - 1) - 1
/-- Exponent of the least significant bit of a subnormal. -/
def Fmt.qmin (f : Fmt) : Int := 1 - (f.bias : Int) - f.mb
def Fmt.inf (f : Fmt) : Nat := (2 ^ f.eb - 1) * 2 ^ f.mb
def Fmt.maxFin (f : Fmt) : Nat := f.inf - 1
/-- The canonical NaN (R74). -/
def Fmt.nan (f : Fmt) : Nat := f.inf + 2 ^ (f.mb - 1)
def Fmt.signBit (f : Fmt) : Nat := 2 ^ (f.eb + f.mb)

/-- A value: a NaN (signalling or quiet), an infinity, or (-1)^neg * m * 2^e with m = 0 for a signed zero. -/
inductive FVal where
  | nan (sig : Bool)
  | inf (neg : Bool)
  | fin (neg : Bool) (m : Nat) (e : Int)
  deriving DecidableEq, Repr

/-- The value of a bit pattern (R73, R74). -/
def Fmt.val (f : Fmt) (x : Nat) : FVal :=
  let neg := decide (x / f.signBit % 2 = 1)
  let E := x / 2 ^ f.mb % 2 ^ f.eb
  let F := x % 2 ^ f.mb
  if E = 2 ^ f.eb - 1 then (if F = 0 then .inf neg else .nan (decide (F < 2 ^ (f.mb - 1))))
  else if E = 0 then .fin neg F f.qmin
  else .fin neg (F + 2 ^ f.mb) ((E : Int) - f.bias - f.mb)

def FVal.isNan : FVal → Bool
  | .nan _ => true
  | _ => false
def FVal.isSnan : FVal → Bool
  | .nan s => s
  | _ => false
def FVal.isZero : FVal → Bool
  | .fin _ m _ => m = 0
  | _ => false
def FVal.isInf : FVal → Bool
  | .inf _ => true
  | _ => false
def FVal.neg : FVal → FVal
  | .nan s => .nan s
  | .inf n => .inf !n
  | .fin n m e => .fin (!n) m e

/-- Number of significant bits. -/
def bitLen (m : Nat) : Nat := if m = 0 then 0 else Nat.log2 m + 1

/-- Whether a magnitude is rounded up: remainder r of 2^sh above the integer n. -/
def roundUp (mode : RMode) (neg : Bool) (n r sh : Nat) : Bool :=
  match mode with
  | .rn => decide (2 ^ sh < 2 * r) || (decide (2 * r = 2 ^ sh) && decide (n % 2 = 1))
  | .rz => false
  | .ru => !neg && decide (r ≠ 0)
  | .rd => neg && decide (r ≠ 0)

/-- The magnitude m * 2^e rounded to a multiple of 2^q: the multiple, and whether it is inexact. -/
def roundAt (mode : RMode) (neg : Bool) (m : Nat) (e q : Int) : Nat × Bool :=
  if q ≤ e then (m * 2 ^ (e - q).toNat, false)
  else
    let sh := (q - e).toNat
    let n := m / 2 ^ sh
    let r := m % 2 ^ sh
    (if roundUp mode neg n r sh then n + 1 else n, decide (r ≠ 0))

/-- Table 3.3: the pattern of an overflowing result. -/
def Fmt.overflow (f : Fmt) (mode : RMode) (neg : Bool) : Nat :=
  (if neg then f.signBit else 0) +
    match mode with
    | .rn => f.inf
    | .rz => f.maxFin
    | .ru => if neg then f.maxFin else f.inf
    | .rd => if neg then f.inf else f.maxFin

/-- Round (R79, R80): the pattern and the exceptions of the finite value (-1)^neg * m * 2^e, m ≠ 0. A magnitude far below the format
rounds as a smaller power of two would, so the exponent is bounded first. -/
def Fmt.roundFin (f : Fmt) (mode : RMode) (neg : Bool) (m : Nat) (e : Int) : Nat × BitVec 5 :=
  let sgn := if neg then f.signBit else 0
  let e := if (bitLen m : Int) + e < f.qmin - 2 then f.qmin - 3 - bitLen m else e
  let q := max (e + bitLen m - (f.mb + 1)) f.qmin
  let (n, ix) := roundAt mode neg m e q
  if (f.bias : Int) + 1 < bitLen n + q then (f.overflow mode neg, flOF ||| flIX)
  else
    let bits := if n < 2 ^ f.mb then n else (q + f.bias + f.mb - 1).toNat * 2 ^ f.mb + n
    (sgn + bits, if ix then (if n ≠ 0 && n < 2 ^ f.mb then flUF ||| flIX else flIX) else flNone)

/-- Round a value to a format: NaN results are canonical (R75), infinities exact. -/
def Fmt.round (f : Fmt) (mode : RMode) (x : FVal) : Nat × BitVec 5 :=
  match x with
  | .nan _ => (f.nan, flNone)
  | .inf neg => ((if neg then f.signBit else 0) + f.inf, flNone)
  | .fin neg m e => if m = 0 then (if neg then f.signBit else 0, flNone) else f.roundFin mode neg m e

/-- The exact product, and whether it is invalid (R75). -/
def fmul (x y : FVal) : FVal × Bool :=
  match x, y with
  | .nan a, .nan b => (.nan false, a || b)
  | .nan a, _ => (.nan false, a)
  | _, .nan b => (.nan false, b)
  | .inf a, .inf b => (.inf (a != b), false)
  | .inf a, .fin b m _ => if m = 0 then (.nan false, true) else (.inf (a != b), false)
  | .fin a m _, .inf b => if m = 0 then (.nan false, true) else (.inf (a != b), false)
  | .fin a m e, .fin b n g => (.fin (a != b) (m * n) (e + g), false)

/-- The exact sum, and whether it is invalid (R75); an exact zero of opposite signs is -0 in .rd only (R79). -/
def fadd (mode : RMode) (x y : FVal) : FVal × Bool :=
  match x, y with
  | .nan a, .nan b => (.nan false, a || b)
  | .nan a, _ => (.nan false, a)
  | _, .nan b => (.nan false, b)
  | .inf a, .inf b => if a = b then (.inf a, false) else (.nan false, true)
  | .inf a, .fin _ _ _ => (.inf a, false)
  | .fin _ _ _, .inf b => (.inf b, false)
  | .fin a m e, .fin b n g =>
    let k := min e g
    let u : Int := (if a then -1 else 1) * (m * 2 ^ (e - k).toNat : Nat)
    let v : Int := (if b then -1 else 1) * (n * 2 ^ (g - k).toNat : Nat)
    let s := u + v
    if s = 0 then (.fin (if a = b then a else decide (mode = .rd)) 0 k, false)
    else (.fin (decide (s < 0)) s.natAbs k, false)

/-- A patterned result with its exceptions. -/
abbrev FRes := Nat × BitVec 5

/-- x + y, rounded once (R121). -/
def Fmt.add (f : Fmt) (mode : RMode) (x y : Nat) : FRes :=
  let (v, nv) := fadd mode (f.val x) (f.val y)
  let (r, fl) := f.round mode v
  (r, fl ||| nvIf nv)

/-- x * y, rounded once (R121). -/
def Fmt.mul (f : Fmt) (mode : RMode) (x y : Nat) : FRes :=
  let (v, nv) := fmul (f.val x) (f.val y)
  let (r, fl) := f.round mode v
  (r, fl ||| nvIf nv)

/-- ±x * y ± c, rounded once (R121): a zero times an infinity is invalid even beside a quiet NaN. -/
def Fmt.fma (f : Fmt) (mode : RMode) (np nc : Bool) (x y c : Nat) : FRes :=
  let (p, nv1) := fmul (f.val x) (f.val y)
  let p := if np then p.neg else p
  let cv := if nc then (f.val c).neg else f.val c
  let (v, nv2) := fadd mode p cv
  let (r, fl) := f.round mode v
  (r, fl ||| nvIf (nv1 || nv2))

/-- Whether x < y, for values that are no NaN. -/
def flt (x y : FVal) : Bool :=
  match x, y with
  | .nan _, _ => false
  | _, .nan _ => false
  | .inf a, .inf b => a && !b
  | .inf a, .fin _ _ _ => a
  | .fin _ _ _, .inf b => !b
  | .fin a m e, .fin b n g =>
    let k := min e g
    let u : Int := (if a then -1 else 1) * (m * 2 ^ (e - k).toNat : Nat)
    let v : Int := (if b then -1 else 1) * (n * 2 ^ (g - k).toNat : Nat)
    decide (u < v)

/-- Numerical equality: zeros compare equal (R123). -/
def feq (x y : FVal) : Bool := !x.isNan && !y.isNan && !flt x y && !flt y x

/-- The order of FMIN and FMAX, where -0 is below +0 (R75). -/
def fltTotal (x y : FVal) : Bool :=
  match x, y with
  | .fin a 0 _, .fin b 0 _ => a && !b
  | _, _ => flt x y

/-- FMIN (R75, R122). -/
def Fmt.min (f : Fmt) (x y : Nat) : FRes :=
  let a := f.val x
  let b := f.val y
  (if a.isNan && b.isNan then f.nan else if a.isNan then y else if b.isNan then x else if fltTotal b a then y else x,
    nvIf (a.isSnan || b.isSnan))

/-- FMAX (R75, R122). -/
def Fmt.max (f : Fmt) (x y : Nat) : FRes :=
  let a := f.val x
  let b := f.val y
  (if a.isNan && b.isNan then f.nan else if a.isNan then y else if b.isNan then x else if fltTotal a b then y else x,
    nvIf (a.isSnan || b.isSnan))

/-- FSET's comparison (Table 4.3, R123). -/
def fcmpHolds (cc : FCmp) (a b : FVal) : Bool :=
  let un := a.isNan || b.isNan
  match cc with
  | .eq => feq a b
  | .ne => un || !feq a b
  | .lt => flt a b
  | .le => flt a b || feq a b
  | .gt => flt b a
  | .ge => flt b a || feq a b
  | .un => un
  | .ord => !un

/-- FCLASS (Table 4.6). -/
def fclass (x : Nat) : Nat :=
  match f32.val x with
  | .nan s => if s then 2 ^ 8 else 2 ^ 9
  | .inf neg => if neg then 2 ^ 0 else 2 ^ 7
  | .fin neg m _ =>
    if m = 0 then (if neg then 2 ^ 3 else 2 ^ 4)
    else if m < 2 ^ 23 then (if neg then 2 ^ 2 else 2 ^ 5)
    else if neg then 2 ^ 1 else 2 ^ 6

/-- The integral multiple of one that a mode selects (R82, R125), with whether it differs from the value. -/
def toIntegral (mode : RMode) (neg : Bool) (m : Nat) (e : Int) : Nat × Bool :=
  let e := if (bitLen m : Int) + e < -2 then -3 - (bitLen m : Int) else e
  roundAt mode neg m e 0

/-- FRND (R125): exact, the sign kept. -/
def frnd (mode : RMode) (x : Nat) : FRes :=
  match f32.val x with
  | .nan s => (f32.nan, nvIf s)
  | .inf _ => (x, flNone)
  | .fin neg m e =>
    if m = 0 then (x, flNone)
    else
      let (n, _) := toIntegral mode neg m e
      ((f32.round .rn (.fin neg n 0)).1, flNone)

/-- FCVT between floating-point formats (R81). -/
def fcvt (src dst : Fmt) (mode : RMode) (x : Nat) : FRes :=
  let v := src.val x
  let (r, fl) := dst.round mode v
  (r, fl ||| nvIf v.isSnan)

/-- FCVT from FP32 to an integer range (R82): the result as an integer. -/
def fcvtInt (mode : RMode) (lo hi : Int) (x : Nat) : Int × BitVec 5 :=
  match f32.val x with
  | .nan _ => (0, flNV)
  | .inf neg => (if neg then lo else hi, flNV)
  | .fin neg m e =>
    if m = 0 then (0, flNone)
    else
      let (n, ix) := toIntegral mode neg m e
      let v : Int := if neg then -(n : Int) else n
      if hi < v then (hi, flNV) else if v < lo then (lo, flNV) else (v, if ix then flIX else flNone)

/-- FCVT from an integer to FP32 (R83). -/
def icvt (mode : RMode) (x : Int) : FRes :=
  if x = 0 then (0, flNone) else f32.roundFin mode (decide (x < 0)) x.natAbs 0

/-- Integer square root by binary digits. -/
def isqrtAux (n : Nat) : Nat → Nat → Nat
  | 0, r => r
  | k + 1, r => isqrtAux n k (if (r + 2 ^ k) * (r + 2 ^ k) ≤ n then r + 2 ^ k else r)
def isqrt (n : Nat) : Nat := isqrtAux n (bitLen n / 2 + 1) 0

/-- FRCP (Table 3.8): correctly rounded. The quotient carries at least 30 bits and an odd last bit when it is not exact. -/
def frcp (mode : RMode) (x : Nat) : FRes :=
  match f32.val x with
  | .nan s => (f32.nan, nvIf s)
  | .inf neg => (if neg then f32.signBit else 0, flNone)
  | .fin neg m e =>
    if m = 0 then ((if neg then f32.signBit else 0) + f32.inf, flDZ)
    else
      let k := bitLen m + 30
      let q := 2 ^ k / m
      f32.roundFin mode neg (2 * q + if 2 ^ k % m = 0 then 0 else 1) (-(k : Int) - e - 1)

/-- FSQRT (Table 3.8): correctly rounded. -/
def fsqrt (mode : RMode) (x : Nat) : FRes :=
  match f32.val x with
  | .nan s => (f32.nan, nvIf s)
  | .inf neg => if neg then (f32.nan, flNV) else (x, flNone)
  | .fin neg m e =>
    if m = 0 then (x, flNone)
    else if neg then (f32.nan, flNV)
    else
      let m2 := if e % 2 = 0 then m * 2 ^ 60 else m * 2 ^ 61
      let e2 : Int := if e % 2 = 0 then e - 60 else e - 61
      let r := isqrt m2
      f32.roundFin mode false (2 * r + if r * r = m2 then 0 else 1) (e2 / 2 - 1)

/-! ### The bound of an approximated function (R95, Table 3.8)

The true value is bracketed between two neighbouring FP32 values; which of the results within the bound the chip returns is free. DEDUCED (log
entry 9): a unit in the last place is that of the result itself. Fixed-point numbers below have 256 fraction bits. -/

/-- The free bits of an approximated function (R95): the same for the same function, mode and operand. -/
def approx (fn : Config.ApproxFn) (mode : RMode) (x : Nat) : Nat := (Config.approx fn mode (BitVec.ofNat 32 x)).toNat

/-- An FP32 magnitude in units of 2⁻¹⁵⁰; infinity counts as 2¹²⁸. -/
def magUnits (r : Nat) : Nat := if r < 2 ^ 23 then 2 * r else (r % 2 ^ 23 + 2 ^ 23) * 2 ^ (r / 2 ^ 23)

/-- A unit in the last place of an FP32 magnitude, in the same units. -/
def ulpUnits (r : Nat) : Nat := if r < 2 ^ 23 then 2 else 2 ^ (r / 2 ^ 23)

/-- The FP32 magnitudes that are within n units in the last place of their own of a true value, which lies lo to hi half units in the last place
above the magnitude b. -/
def ulpAmong (n b lo hi : Nat) : List Nat :=
  (span (b - n) (3 * n + 2)).filter fun r =>
    decide (r ≤ f32.inf) &&
      if r ≤ b then decide (magUnits b + hi * (ulpUnits b / 2) ≤ magUnits r + n * ulpUnits r)
      else decide (magUnits r ≤ magUnits b + lo * (ulpUnits b / 2) + n * ulpUnits r)

/-- One of them, chosen by free bits v. -/
def ulpPick (n b lo hi v : Nat) : Nat :=
  let l := ulpAmong n b lo hi
  l.getD (v % l.length) b

/-- A result within n ulp of a true value just below the FP32 magnitude after b. -/
def ulpUnder (n b v : Nat) : Nat := ulpPick n b 1 2 v

/-- A result within n ulp of a true value that is the FP32 magnitude b itself. -/
def ulpExact (n b v : Nat) : Nat := ulpPick n b 0 0 v

/-- A result within n ulp of a true value that lies strictly between the FP32 magnitude at or below t × 2 ^ q and the next one, in the half that
t × 2 ^ q shows. -/
def ulpNear (n t : Nat) (q : Int) (v : Nat) : Nat :=
  let b := (f32.roundFin .rz false t q).1
  let k := q + 150
  let x := if 0 ≤ k then t * 2 ^ k.toNat else t / 2 ^ (-k).toNat
  if magUnits b + ulpUnits b / 2 ≤ x then ulpPick n b 1 2 v else ulpPick n b 0 1 v

def fixBits : Nat := 256
/-- π / 2. -/
def fixHalfPi : Nat :=
  0x1921fb54442d18469898cc51701b839a252049c1114cf98e804177d4c76273644
/-- ln 2. -/
def fixLn2 : Nat :=
  0xb17217f7d1cf79abc9e3b39803f2f6af40f343267298b62d8a0d175b8baafa2b
/-- 2 / π, with 512 fraction bits. -/
def twoOverPi : Nat :=
  0xa2f9836e4e441529fc2757d1f534ddc0db6295993c439041fe5163abdebbc561b7246e3a424dd2e006492eea09d1921cfe1deb1cb129a73ee88235f52ebb4484

/-- t - t z / (k (k + 1)) + …: the series of sine and cosine, z the square of the angle. -/
def altSeries (z : Nat) : Nat → Nat → Nat → Nat
  | 0, _, _ => 0
  | n + 1, k, t => t - altSeries z n (k + 2) (t * z / 2 ^ fixBits / (k * (k + 1)))
def fixSin (y : Nat) : Nat := altSeries (y * y / 2 ^ fixBits) 40 2 y
def fixCos (y : Nat) : Nat := altSeries (y * y / 2 ^ fixBits) 40 1 (2 ^ fixBits)

/-- t + t y / k + t y² / (k (k + 1)) + …: the exponential series. -/
def expSeries (y : Nat) : Nat → Nat → Nat → Nat
  | 0, _, _ => 0
  | n + 1, k, t => t + expSeries y n (k + 1) (t * y / 2 ^ fixBits / k)
/-- 2 to a fraction. -/
def fixExp2 (f : Nat) : Nat := expSeries (f * fixLn2 / 2 ^ fixBits) 70 1 (2 ^ fixBits)

/-- t / k + t z / (k + 2) + …: the series of the inverse hyperbolic tangent, z the square of its argument. -/
def atanhSeries (z : Nat) : Nat → Nat → Nat → Nat
  | 0, _, _ => 0
  | n + 1, k, t => t / k + atanhSeries z n (k + 2) (t * z / 2 ^ fixBits)
/-- The base-2 logarithm of a number from 1 up to 2. -/
def fixLog2 (s : Nat) : Nat :=
  let z := (s - 2 ^ fixBits) * 2 ^ fixBits / (s + 2 ^ fixBits)
  2 * atanhSeries (z * z / 2 ^ fixBits) 90 1 z * 2 ^ fixBits / fixLn2

/-- A result within n ulp of a fixed-point value times 2 ^ e. -/
def fixNear (n t : Nat) (e : Int) (v : Nat) : Nat := ulpNear n t (e - fixBits) v

/-- The quadrant of an angle m × 2 ^ e and the angle within it. -/
def quadrant (m : Nat) (e : Int) : Nat × Nat :=
  let v := m * 2 ^ (e + 149).toNat * twoOverPi
  (v / 2 ^ 661 % 4, v % 2 ^ 661 / 2 ^ (661 - fixBits) * fixHalfPi / 2 ^ fixBits)

/-- The bound on FSIN and FCOS: 2 ulp up to 2¹⁰ × π, 4 beyond. -/
def angleUlps (x : Nat) : Nat := if x % 2 ^ 31 ≤ 0x45490FDA then 2 else 4

/-- Sign and result of the sine of the quadrant angle (q, y), with n ulp. -/
def sinBits (n q y v : Nat) : Nat :=
  (if q % 4 < 2 then 0 else f32.signBit) + fixNear n (if q % 2 = 0 then fixSin y else fixCos y) 0 v

/-- Magnitudes below 2⁻³², where sine and hyperbolic tangent lie just below their operand and cosine just below one. -/
def tinyArg (x : Nat) : Bool := x % 2 ^ 31 < 0x2F800000

/-- FSIN of a nonzero operand. -/
def sinNear (x m : Nat) (e : Int) (v : Nat) : Nat :=
  let sg := x / 2 ^ 31 * 2 ^ 31
  if tinyArg x then sg + ulpUnder 2 (x % 2 ^ 31 - 1) v
  else
    let p := quadrant m e
    let r := sinBits (angleUlps x) p.1 p.2 v
    if sg = 0 then r else r ^^^ f32.signBit

/-- FCOS of a nonzero operand. -/
def cosNear (x m : Nat) (e : Int) (v : Nat) : Nat :=
  if tinyArg x then ulpUnder 2 0x3F7FFFFF v
  else
    let p := quadrant m e
    sinBits (angleUlps x) (p.1 + 1) p.2 v

/-- FTANH of a nonzero operand; from 16 on the true value lies just below one. -/
def tanhNear (x m : Nat) (e : Int) (v : Nat) : Nat :=
  x / 2 ^ 31 * 2 ^ 31 +
    (if tinyArg x then ulpUnder 2 (x % 2 ^ 31 - 1) v
     else if 0x41800000 ≤ x % 2 ^ 31 then ulpUnder 2 0x3F7FFFFF v
     else
      let w := m * 2 ^ (e + fixBits + 1).toNat * 2 ^ fixBits / fixLn2
      let p := fixExp2 (w % 2 ^ fixBits) * 2 ^ (w / 2 ^ fixBits)
      fixNear 2 ((p - 2 ^ fixBits) * 2 ^ fixBits / (p + 2 ^ fixBits)) 0 v)

/-- FEX2 of an operand that is no integer: 2 to (neg, m × 2 ^ e). -/
def ex2Near (neg : Bool) (m : Nat) (e : Int) (v : Nat) : Nat :=
  let w := m * 2 ^ (e + fixBits).toNat
  let n := min (w / 2 ^ fixBits) 400
  let f := w % 2 ^ fixBits
  if neg then fixNear 2 (fixExp2 (2 ^ fixBits - f)) (-(n + 1 : Nat)) v
  else fixNear 2 (fixExp2 f) n v

/-- FLG2 of an operand m × 2 ^ e that is no power of two. -/
def lg2Near (m : Nat) (e : Int) (v : Nat) : Nat :=
  let k := bitLen m - 1
  let n : Int := e + k
  let l := fixLog2 (m * 2 ^ (fixBits - k))
  if 0 ≤ n then fixNear 2 (n.toNat * 2 ^ fixBits + l) 0 v
  else f32.signBit + fixNear 2 (n.natAbs * 2 ^ fixBits - l) 0 v

/-- 1 / sqrt(m × 2 ^ e), rounded down to a number of bits well beyond FP32: the number and its exponent. -/
def rsqFix (m : Nat) (e : Int) : Nat × Int :=
  let m2 := if e % 2 = 0 then m else 2 * m
  let e2 := if e % 2 = 0 then e else e - 1
  (isqrt (2 ^ 160 / m2), -80 - e2 / 2)

/-- Whether r is exactly 1 / sqrt(x): r * r * x = 1. -/
def rsqExact (r x : FVal) : Bool :=
  match r, x with
  | .fin false m e, .fin false n g =>
    let p := m * m * n
    decide (2 ^ (bitLen p - 1) = p) && decide (2 * e + g + (bitLen p - 1 : Nat) = 0)
  | _, _ => false

/-- FRSQ (Table 3.8): special values exact, else free bits within 1 ulp; inexact unless the result is exactly the true value. -/
def frsq (mode : RMode) (x : Nat) : FRes :=
  match f32.val x with
  | .nan s => (f32.nan, nvIf s)
  | .inf neg => if neg then (f32.nan, flNV) else (0, flNone)
  | .fin neg m e =>
    if m = 0 then ((if neg then f32.signBit else 0) + f32.inf, flDZ)
    else if neg then (f32.nan, flNV)
    else
      let y := rsqFix m e
      let b := (f32.roundFin .rz false y.1 y.2).1
      let v := approx .rsq mode x
      let r := if rsqExact (f32.val b) (f32.val x) then ulpExact 1 b v else ulpNear 1 y.1 y.2 v
      (r, if rsqExact (f32.val r) (f32.val x) then flNone else flIX)

/-- The integer a value is, if it is one of small enough magnitude. -/
def asInt (m : Nat) (e : Int) : Option Nat :=
  if 0 ≤ e then (if e < 200 then some (m * 2 ^ e.toNat) else none)
  else
    let d := 2 ^ (-e).toNat
    if m % d = 0 then some (m / d) else none

/-- Whether a result is subnormal or zero. -/
def tinyBits (r : Nat) : Bool := r % 2 ^ 31 < 2 ^ 23

/-- FEX2 (Table 3.8): integers and -∞ exact, overflow by R79, else free bits within 2 ulp and inexact; underflow of a tiny value that comes out
subnormal or zero (R95). -/
def fex2 (mode : RMode) (x : Nat) : FRes :=
  match f32.val x with
  | .nan s => (f32.nan, nvIf s)
  | .inf neg => if neg then (0, flNone) else (f32.inf, flNone)
  | .fin neg m e =>
    if m = 0 then (0x3F800000, flNone)
    else
      match asInt m e with
      | some n =>
        let p := f32.roundFin mode false 1 (if neg then -(min n 400 : Nat) else (min n 400 : Nat))
        if p.2 = flIX && tinyBits p.1 then (p.1, flUF ||| flIX) else p
      | none =>
        if !neg && decide (128 * 2 ^ 149 ≤ m * 2 ^ (e + 149).toNat) then (f32.overflow mode false, flOF ||| flIX)
        else
          let r := ex2Near neg m e (approx .ex2 mode x)
          let tiny := neg && decide (126 * 2 ^ 149 < m * 2 ^ (e + 149).toNat)
          (r, if r = f32.inf then flOF ||| flIX else if tiny && tinyBits r then flUF ||| flIX else flIX)

/-- FLG2 (Table 3.8): powers of two exact, else free bits within 2 ulp and inexact. -/
def flg2 (mode : RMode) (x : Nat) : FRes :=
  match f32.val x with
  | .nan s => (f32.nan, nvIf s)
  | .inf neg => if neg then (f32.nan, flNV) else (x, flNone)
  | .fin neg m e =>
    if m = 0 then (f32.signBit + f32.inf, flDZ)
    else if neg then (f32.nan, flNV)
    else if m = 2 ^ (bitLen m - 1) then icvt mode (e + (bitLen m - 1 : Nat))
    else (lg2Near m e (approx .lg2 mode x), flIX)

/-- The result r of an odd function that is the identity near zero (FSIN, FTANH): inexact; tiny exactly when |x| is at most 2^-126. -/
def oddFn (x r : Nat) : FRes := (r, if decide (x % 2 ^ 31 ≤ 2 ^ 23) && tinyBits r then flUF ||| flIX else flIX)

/-- FSIN (Table 3.8). -/
def fsin (mode : RMode) (x : Nat) : FRes :=
  match f32.val x with
  | .nan s => (f32.nan, nvIf s)
  | .inf _ => (f32.nan, flNV)
  | .fin _ m e => if m = 0 then (x, flNone) else oddFn x (sinNear x m e (approx .sin mode x))

/-- FCOS (Table 3.8). -/
def fcos (mode : RMode) (x : Nat) : FRes :=
  match f32.val x with
  | .nan s => (f32.nan, nvIf s)
  | .inf _ => (f32.nan, flNV)
  | .fin _ m e => if m = 0 then (0x3F800000, flNone) else (cosNear x m e (approx .cos mode x), flIX)

/-- FTANH (Table 3.8). -/
def ftanh (mode : RMode) (x : Nat) : FRes :=
  match f32.val x with
  | .nan s => (f32.nan, nvIf s)
  | .inf neg => ((if neg then f32.signBit else 0) + 0x3F800000, flNone)
  | .fin _ m e => if m = 0 then (x, flNone) else oddFn x (tanhNear x m e (approx .tanh mode x))

/-- The memory-side floating add (R85): .rn, canonical NaN, nothing raised. -/
def memAddF32 (x y : Word) : Word := BitVec.ofNat 32 (f32.add .rn x.toNat y.toNat).1

end Sys2Proof.Machine
end

