-- ==== Sys2Proof/Machine/Memory.lean ====
section
/-! DEFINITION. Memory: device physical bytes with their tags and poison marks, private copies, registrations and partials (09, 06 R180),
the walk of the page tables, held translations, and export windows (12). -/
namespace Sys2Proof.Machine

/-! ### Bytes -/

/-- A little-endian number (R10). -/
def leNat : List Byte → Nat
  | [] => 0
  | b :: t => b.toNat + 256 * leNat t

/-- The `n` little-endian bytes of a number. -/
def leBytes : Nat → Nat → List Byte
  | 0, _ => []
  | n + 1, x => BitVec.ofNat 8 x :: leBytes n (x / 256)

/-- Bits [hi:lo] of a number. -/
def field (x hi lo : Nat) : Nat := x / 2 ^ lo % 2 ^ (hi + 1 - lo)

/-- Change a die. -/
def State.editDie (s : State) (d : Nat) (g : Die → Die) : State := { s with dies := Map.put s.dies d (g (s.die d)) }

/-- The L2 slice that serves an address (R354): one of the slices of the holder's die over which the device spreads blocks of 256 bytes. -/
def State.sliceOf (s : State) (holder pa : Nat) : Nat :=
  let l := (span (192 * holder) 192).filter fun k => !(NSet.has s.dev.offSlices k)
  l.getD (Config.sliceSpread s.dev.offSlices (pa / 256) % l.length) (192 * holder)

/-- A byte of device physical memory at its coherence point; unlisted memory reads zero (R439). -/
def State.byte (s : State) (pa : Nat) : Byte := Map.lookD s.mem pa 0#8

/-- The region that holds a physical address. -/
def State.region (s : State) (pa : Nat) : Option Region := s.memMap.find? fun r => decide (r.base ≤ pa) && decide (pa < r.base + r.size)

/-- Whether a physical address has memory behind it. -/
def State.installed (s : State) (pa : Nat) : Bool := (s.region pa).isSome

/-- The die that holds a physical address (R354). -/
def State.holder (s : State) (pa : Nat) : Nat := ((s.region pa).map (·.die)).getD 0

/-- `n` bytes of physical memory. -/
def State.bytes (s : State) (pa n : Nat) : List Byte := (span pa n).map s.byte

/-- Whether any of `n` bytes is poisoned (R428). -/
def State.poisoned (s : State) (pa n : Nat) : Bool := s.poison.any fun k => decide (8 * k < pa + n) && decide (pa < 8 * k + 8)

/-- Bytes by address as runs of consecutive addresses. -/
def runsOf (m : Map Byte) : List (Nat × List Byte) :=
  m.foldr (fun p l => match l with
    | (a, bs) :: t => if p.1 + 1 = a then (p.1, p.2 :: bs) :: t else (p.1, [p.2]) :: l
    | [] => [(p.1, [p.2])]) []

/-- The canonical form of memory: addresses rise strictly, and no entry holds what an unlisted address reads as, zero. -/
def Memory.wf (m : List Host.Cell) : Bool := Map.rising m && m.all fun p => decide (p.2 ≠ 0#8)

/-- Put bytes into physical memory. -/
def putBytes (m : List Host.Cell) (pa : Nat) : List Byte → List Host.Cell
  | [] => m
  | b :: t => putBytes (Map.putD m pa b 0#8) (pa + 1) t

/-- The marks of poison after a write of `n` bytes at `a`: a write that covers all 8 bytes of a word clears its mark (R429). -/
def clearPoison (p : NSet) (a n : Nat) : NSet := p.filter fun k => !(decide (a ≤ 8 * k) && decide (8 * k + 8 ≤ a + n))

/-- The tags after a write of `n` bytes at `a`: each granule written takes the tag given (R167). -/
def markTags (g : NSet) (a n : Nat) (tag : Bool) : NSet :=
  (span (a / 16) ((a + n - 1) / 16 + 1 - a / 16)).foldl (fun g k => NSet.set g k tag) g

/-- The contexts that own tags (R6), after a write of `n` bytes at `a`: a granule written has no tag of before any longer. -/
def unmarkBy (m : Map Nat) (a n : Nat) : Map Nat := m.filter fun p => !(decide (a / 16 ≤ p.1) && decide (p.1 ≤ (a + n - 1) / 16))

/-- Write bytes to physical memory at the coherence point, with the tag of every granule written. -/
def State.put (s : State) (pa : Nat) (bs : List Byte) (tag : Bool) : State :=
  if bs = [] then s
  else
    { s with
      mem := putBytes s.mem pa bs, tags := markTags s.tags pa bs.length tag, tagBy := unmarkBy s.tagBy pa bs.length
      poison := clearPoison s.poison pa bs.length }

/-! ### Registrations, private copies and partials (R180, R297, R354 to R357) -/

/-- The words that bytes [pa, pa + n) touch. -/
def wordsOf (pa n : Nat) : List Nat := span (pa / 4) ((pa + n - 1) / 4 + 1 - pa / 4)

/-- Drop a core's private copy of a word. -/
def CoreSt.dropWord (k : CoreSt) (w : Nat) : CoreSt := { k with copies := Map.del k.copies w }

/-- End the registration of a word; `inval` also drops the registrant's copy (R356). -/
def State.unregister (s : State) (w : Nat) (inval : Bool) : State :=
  match Map.look s.regOwner w with
  | none => s
  | some c =>
    let s := { s with regOwner := Map.del s.regOwner w, slice := s.slice.filter fun p => p.1 / 4 ≠ w }
    if inval then s.editCore c fun k => k.dropWord w else s

/-- Register a word to a core; the slice keeps its own value of the word until it is written back (R297, R437). -/
def State.register (s : State) (w core : Nat) : State :=
  let old := (span (4 * w) 4).map fun a => (a, s.byte a)
  { s with
    regOwner := Map.put s.regOwner w core
    slice := old.foldl (fun m p => if Map.has m p.1 then m else Map.put m p.1 p.2) s.slice }

/-- The operation of ATOM and RED (R177); `.f32` adds under R85. -/
def rmwOp (op : RmwOp) (size : Nat) (old x cmp : Word64) : Word64 :=
  let tr (v : Word64) : Word64 := if size = 4 then (v.setWidth 32).zeroExtend 64 else v
  let sg (v : Word64) : Int := if size = 4 then (v.setWidth 32).toInt else v.toInt
  match op with
  | .addN => tr (old + x)
  | .addF => (memAddF32 (old.setWidth 32) (x.setWidth 32)).zeroExtend 64
  | .minI => if sg x < sg old then x else old
  | .minN => if x.toNat < old.toNat then x else old
  | .maxI => if sg old < sg x then x else old
  | .maxN => if old.toNat < x.toNat then x else old
  | .andB => old &&& x
  | .orB => old ||| x
  | .xorB => old ^^^ x
  | .exch => x
  | .cas => if old = cmp then x else old

/-- Merge one partial into another (R180). -/
def RedVal.merge (h : Option RedVal) (p : RedVal) : RedVal :=
  match h with
  | none => p
  | some v => { p with val := rmwOp p.op p.size v.val p.val 0 }

/-- A partial among sectors. -/
def redLook (l : List RedSector) (w : Nat) : Option RedVal := (l.find? fun x => x.sector = w / 16).bind fun x => Map.look x.vals w

/-- Remove a word's partial. -/
def redDrop (l : List RedSector) (w : Nat) : List RedSector :=
  (l.map fun x => if x.sector = w / 16 then { x with vals := Map.del x.vals w } else x).filter fun x => x.vals ≠ []

/-- A core's contribution to a word: held partial combined with its partial (R180). -/
def CoreSt.partial? (k : CoreSt) (w : Nat) : Option RedVal :=
  match redLook k.reds w with
  | none => redLook k.held w
  | some p => some (RedVal.merge (redLook k.held w) p)

/-- Whether a transaction's sets meet a sector. -/
def Txn.touches (x : Txn) (sec : Nat) : Bool := x.rset.any (fun p => p.1 / 16 = sec) || x.wset.any fun p => p.1 / 16 = sec

/-- Whether an Open transaction watches a sector (R357). -/
def Txn.watches (x : Txn) (sec : Nat) : Bool := x.st = .opened && x.touches sec

/-- The sectors that a transaction watches. -/
def Txn.watched (x : Txn) : List Nat :=
  if x.st = .opened then x.rset.map (fun p => p.1 / 16) ++ x.wset.map (fun p => p.1 / 16) else []

/-- Doom with RECALL every Open transaction, but the solitary one, that watches one of the sectors; `self` is the thread that acts (R190,
R357). -/
def State.recallWatches (s : State) (secs : List Nat) (self : Option (Nat × Nat × Nat)) : State :=
  { s with
    units := Map.each s.units fun u un =>
      { un with
        warps := Map.each un.warps fun w wp =>
          { wp with
            txn := Map.each wp.txn fun t x =>
              if self ≠ some (u, w, t) && s.soloHolder ≠ some (u, w, t) && secs.any x.watches then x.doom 5#4 else x } } }

/-- The sectors that bytes [pa, pa + n) touch. -/
def sectorsOf (pa n : Nat) : List Nat := span (pa / 64) ((pa + n - 1) / 64 + 1 - pa / 64)

/-- Combine one core's partials of a word into memory: a write at the home, which recalls the watches of its sector (R357). -/
def State.combineCore (s : State) (c w : Nat) : State :=
  match (s.core c).partial? w with
  | none => s
  | some v =>
    let old : Word64 := BitVec.ofNat 64 (leNat (s.bytes (4 * w) v.size))
    let new := rmwOp v.op v.size old v.val 0
    let s := s.editCore c fun k => { k with reds := redDrop k.reds w, held := redDrop k.held w }
    ((s.recallWatches (sectorsOf (4 * w) v.size) none).put (4 * w) (leBytes v.size new.toNat) false).unregister w true

/-- Before any access but a like RED reaches a word, the home combines every partial of it, in ascending package index (R180). A pair's
partial is found from either of its words. -/
def State.combine (s : State) (pa n : Nat) : State :=
  (wordsOf pa n).foldl (fun s w =>
    (Map.keys s.cores).foldl (fun s c =>
      let s := s.combineCore c w
      match (s.core c).partial? (w - 1) with
      | some v => if v.size = 8 then s.combineCore c (w - 1) else s
      | none => s) s) s

/-- What a walker or the scheduler reads: nothing where no memory stands or the bytes are poisoned (R345). It sees every partial combined, as
any read at the home does (R180). -/
def State.fetch (s : State) (pa n : Nat) : Option (List Byte) :=
  if (span pa n).all s.installed && !s.poisoned pa n then some ((s.combine pa n).bytes pa n) else none

/-- A write that performs at the slice and registers nothing (R297): partials combined, registrations recalled, watches doomed, bytes
written, tags as given; the acting core's own copies go. -/
def State.homeWrite (s : State) (self : Option (Nat × Nat × Nat)) (core : Option Nat) (pa : Nat) (bs : List Byte) (tag : Bool) : State :=
  let s := s.combine pa bs.length
  let s := (wordsOf pa bs.length).foldl (fun s w =>
    let s := s.unregister w true
    match core with
    | some c => s.editCore c fun k => k.dropWord w
    | none => s) s
  (s.recallWatches (sectorsOf pa bs.length) self).put pa bs tag

/-- A word's private copy as the home now has it. -/
def State.copyOf (s : State) (w : Nat) (uPage : Bool) (stamp : Nat) : Copy :=
  ⟨BitVec.ofNat 32 (leNat (s.bytes (4 * w) 4)), NSet.has s.tags (w / 4), uPage, stamp⟩

/-- A core's private copies of words are made afresh, at one time. -/
def State.fillWords (s : State) (core : Nat) (ws : List Nat) (uPage : Bool) : State :=
  s.editCore core fun k =>
    { k with copies := ws.foldl (fun m w => Map.put m w (s.copyOf w uPage k.stamp)) k.copies, stamp := k.stamp + 1 }

/-- A plain store of a core (R297): it performs at the home and registers its words to the core, whose own copy of each becomes the word as it
then stands. A core of the other die keeps none (R355). -/
def State.coreWrite (s : State) (self : Option (Nat × Nat × Nat)) (core : Nat) (uPage : Bool) (pa : Nat) (bs : List Byte) (tag : Bool) : State :=
  if s.holder pa ≠ dieOf core then s.homeWrite self none pa bs tag
  else
    let s := s.combine pa bs.length
    let s := (wordsOf pa bs.length).foldl (fun s w =>
      (if Map.look s.regOwner w = some core then s else s.unregister w true).register w core) s
    ((s.recallWatches (sectorsOf pa bs.length) self).put pa bs tag).fillWords core (wordsOf pa bs.length) uPage

/-- A read at the coherence point: partials are combined first. -/
def State.homeRead (s : State) (pa n : Nat) : State × List Byte :=
  let s := s.combine pa n
  (s, s.bytes pa n)

/-- Drop a core's copies of words that it has not registered. -/
def State.dropStale (s : State) (core : Nat) (ws : List Nat) : State :=
  ws.foldl (fun s w => if Map.look s.regOwner w = some core then s else s.editCore core fun k => k.dropWord w) s

/-- No core keeps a copy of what a frame held before. -/
def State.dropCopies (s : State) (pa n : Nat) : State :=
  { s with
    cores := Map.each s.cores fun _ k => { k with copies := k.copies.filter fun p => decide (4 * p.1 < pa) || decide (pa + n ≤ 4 * p.1) } }

/-- A thread's read at the coherence point: its core's older copies go, so that no later read returns an older write (R289). -/
def State.freshRead (s : State) (core pa n : Nat) : State × List Byte :=
  let r := s.homeRead pa n
  (r.1.dropStale core (wordsOf pa n), r.2)

/-- The words that a core has registered, outside a line. -/
def State.registeredBy (s : State) (core line : Nat) : List Nat :=
  (s.regOwner.filter fun p => p.2 = core && p.1 / 16 ≠ line).map (·.1)

/-- Room for a line in a core's cache (R297, R356): a free choice writes back one registered word of another line; its registration ends and
the copy goes. -/
def State.makeRoom (s : State) (core line : Nat) : State :=
  match s.registeredBy core line with
  | [] => s
  | l@(x :: _) =>
    let c := s.choose
    if c.1 then ({ c.2 with freeIx := c.2.freeIx + 1 } : State).unregister (l.getD (Config.freeNat c.2.freeIx % l.length) x) true else c.2

/-- The sectors other than a line that the home slices keep a registration, a watch or partials of. -/
def State.keptSectors (s : State) (line : Nat) : List Nat :=
  let watched : List Nat := s.units.flatMap fun u => u.2.warps.flatMap fun w => w.2.txn.flatMap fun t => t.2.watched
  let partials : List Nat := s.cores.flatMap fun c => (c.2.reds ++ c.2.held).map (·.sector)
  (s.regOwner.map (fun (p : Nat × Nat) => p.1 / 16) ++ watched ++ partials).filter fun x => x ≠ line

/-- Room for a line in its home slice (R356, R357): a free choice evicts the state of one other sector; its partials are combined, its registrations
are recalled, and its watches go, which dooms their transactions. -/
def State.sliceRoom (s : State) (line : Nat) : State :=
  match s.keptSectors line with
  | [] => s
  | l@(x :: _) =>
    let c := s.choose
    if c.1 then
      let sec := l.getD (Config.freeNat c.2.freeIx % l.length) x
      let s := ({ c.2 with freeIx := c.2.freeIx + 1 } : State).combine (64 * sec) 64
      ((span (16 * sec) 16).foldl (fun s w => s.unregister w true) s).recallWatches [sec] none
    else c.2

/-- Some core holds a partial of a word, or of the pair that it ends. -/
def State.hasPartial (s : State) (w : Nat) : Bool :=
  s.cores.any fun c => ((s.core c.1).partial? w).isSome || ((s.core c.1).partial? (w - 1)).isSome

/-- The private copies of a core hold all words of an access as they stood at one time: their bytes, and the tag of the granule (R285). Words
that the core has registered stand as the home has them. A copy made through an unordered page serves unordered pages only, since an acquire
leaves it (R297). -/
def State.hit (s : State) (core : Nat) (uPage : Bool) (pa n : Nat) : Option (List Byte × Bool) :=
  let ws := wordsOf pa n
  if ws.all fun w => Map.look s.regOwner w = some core && Map.has (s.core core).copies w then
    some (s.bytes pa n, NSet.has s.tags (pa / 16))
  else
    match ws.mapM fun w => (Map.look (s.core core).copies w).filter fun c => uPage || !c.uPage with
    | some (c :: cs) =>
      if cs.all fun d => d.stamp = c.stamp then
        some (((List.flatten ((c :: cs).map fun d => leBytes 4 d.val.toNat)).drop (pa % 4)).take n, c.tag)
      else none
    | _ => none

/-- A plain read of a core through its private cache (R293, R297): the copies it holds, or the home's value, which also fills the words of the
line that it lacks and of which no partial stands; that may cost another line its place in the core's cache or in the slice. A core of the other die keeps no copy. -/
def State.coreRead (s : State) (core : Nat) (uPage : Bool) (pa n : Nat) : State × List Byte × Bool :=
  if s.holder pa ≠ dieOf core then
    let r := s.homeRead pa n
    (r.1, r.2, NSet.has r.1.tags (pa / 16))
  else
    let here := (s.bytes pa n, NSet.has s.tags (pa / 16))
    let take : Option (List Byte × Bool) × State := match s.hit core uPage pa n with
      | none => (none, s)
      | some x =>
        if x = here && !((wordsOf pa n).any s.hasPartial) then (some x, s)
        else
          let c := s.choose
          (if c.1 then some x else none, c.2)
    match take with
    | (some x, s) => (s, x)
    | (none, s) =>
      let r := ((s.makeRoom core (pa / 64)).sliceRoom (pa / 64)).homeRead pa n
      let ws := wordsOf pa n
      let fill := (span (pa / 64 * 16) 16).filter fun w =>
        ws.contains w || (!(Map.has (r.1.core core).copies w) && !(r.1.hasPartial w))
      (r.1.fillWords core fill uPage, r.2, NSet.has r.1.tags (pa / 16))

/-- Self-invalidation (R297): every word that the core has not registered; an acquire leaves words of unordered pages. -/
def State.selfInvalidate (s : State) (core : Nat) (fence : Bool) : State :=
  s.editCore core fun k =>
    { k with copies := k.copies.filter fun p => Map.look s.regOwner p.1 = some core || (p.2.uPage && !fence) }

/-- Scopes at which an acquire or fence invalidates (R297). -/
def wideScope : Scope → Bool
  | .thread => false
  | .warp => false
  | .unit => false
  | _ => true

/-! ### Locked and ring-held lines -/

/-- A line of a migration in its locked states (R359). -/
def State.migLocked (s : State) (pa : Nat) : Bool :=
  s.dies.any fun p =>
    let d := p.2
    decide (1 ≤ d.migState) && decide (d.migState ≤ 3) && decide (d.migSrc ≤ pa) && decide (pa < d.migSrc + 2 ^ (17 + [0, 4, 9, 0].getD d.migSize 0))

/-- A line locked by the solitary transaction, for any other agent (R188). -/
def State.soloLocked (s : State) (self : Option (Nat × Nat × Nat)) (pa : Nat) : Bool :=
  match s.soloHolder with
  | none => false
  | some (u, w, t) =>
    self ≠ some (u, w, t) &&
      match s.warp? u w with
      | some wp => (wp.tx t).touches (pa / 64)
      | none => false

/-- The transaction of a thread of a warp. -/
def State.tx (s : State) (u w t : Nat) : Txn := ((s.warp? u w).map fun x => x.tx t).getD Txn.idle

/-- Earlier accesses of an operation's threads that it must follow have performed. -/
def earlierDone (ops : List Op) (o : Op) (p : Item → Bool) : Bool :=
  (ops.takeWhile fun x => x.id ≠ o.id).all fun x =>
    x.warp ≠ o.warp || x.items.all fun i => i.done || !(o.mask.getLsbD i.thread) || !(p i)

/-- The lines of a transaction's sets. -/
def Txn.lines (x : Txn) : List Nat := (Map.keys x.rset ++ Map.keys x.wset).map (· / 16)

/-- The first thread of a TEND whose commit meets a line that a migration locks, with the lines that it holds while it waits: it locks in ascending
physical address, so those below the first such line (R187, R359). -/
def State.commitLocks (s : State) (u : Nat) (o : Op) : Option (Nat × List Nat) :=
  (threads o.mask).findSome? fun t =>
    let x := s.tx u o.warp t
    match x.lines.filter fun l => x.st = .opened && s.migLocked (64 * l) with
    | [] => none
    | l :: ls => some (t, x.lines.filter fun k => decide (k < ls.foldl min l))

/-- A TEND's commit waits at a line that a migration locks (R359). -/
def State.commitHeld (s : State) (u : Nat) (o : Op) : Bool := (s.commitLocks u o).isSome

/-- A TEND follows its threads' earlier accesses but those on unordered pages (Table 9.2 row 4). -/
def Op.tendReady (ops : List Op) (o : Op) : Bool := earlierDone ops o fun i => i.tx || !i.un

/-- A line that a commit holds while it waits at another, for any other agent. -/
def State.commitLocked (s : State) (self : Option (Nat × Nat × Nat)) (pa : Nat) : Bool :=
  s.units.any fun p => p.2.ops.any fun o =>
    o.kind = .tend && !o.done && Op.tendReady p.2.ops o && match s.commitLocks p.1 o with
      | some (t, ls) => self ≠ some (p.1, o.warp, t) && ls.contains (pa / 64)
      | none => false

/-- Whether an access must wait at its line: a migration's lock holds writes, the lock of the solitary transaction or of a waiting commit holds
every other agent. -/
def State.lineBusy (s : State) (self : Option (Nat × Nat × Nat)) (pa : Nat) (w : Bool) : Bool :=
  (w && s.migLocked pa) || s.soloLocked self pa || s.commitLocked self pa

/-- A write of the scheduler, Hallmark, a tree unit, the fault queue, the trap ring or the Circlet (R298, R304, R359): at a locked line it waits,
and the event that makes it with it. -/
def State.agentWrite (s : State) (pa : Nat) (bs : List Byte) : State :=
  if (sectorsOf pa bs.length).any fun l => s.lineBusy none (64 * l) true then { s with stalled := true } else s.homeWrite none none pa bs false

/-- A read of the same agents (R180, R304): at a line that a transaction locks it waits, and the event with it; else every partial is combined
first. What is then read is what `fetch` answers. -/
def State.agentRead (s : State) (pa n : Nat) : State :=
  if (sectorsOf pa n).any fun l => s.lineBusy none (64 * l) false then { s with stalled := true } else s.combine pa n

/-- An event happens whole, or waits while one of its writes must wait. -/
def whole (g : State → State) (s : State) : State :=
  let t := g s
  if t.stalled then s else t

/-- The bead that holds a line (R379). -/
def State.ringBead (s : State) (pa : Nat) : Option Nat := Map.look s.ringHeld (pa / 64)

/-! ### The walk (R343 to R346, R397, R398) -/

/-- A context table entry (Table 12.1). -/
structure CtxEntry where
  root : Nat
  peertab : Nat
  npeer : Nat
  kvap : Nat
  deriving DecidableEq, Repr

/-- Read a context's entry; the error says whether it was malformed (R343, R345). -/
def State.ctxEntry (s : State) (ctx : Nat) : Except Bool CtxEntry :=
  match s.fetch (s.dev.ctxt + 32 * ctx) 32 with
  | none => .error true
  | some b =>
    let root := leNat (b.take 8)
    let peertab := leNat ((b.drop 8).take 8)
    let npeer := leNat ((b.drop 16).take 2)
    if root % 2 = 0 then .error false
    else if field root 63 52 ≠ 0 || field root 15 1 ≠ 0 || decide (256 < npeer)
        || (npeer ≠ 0 && (peertab = 0 || peertab % 32 ≠ 0)) || leNat ((b.drop 18).take 6) ≠ 0
        || field (leNat (b.drop 24)) 63 56 ≠ 0 || field (leNat (b.drop 24)) 48 16 ≠ 0 then .error true
    else .ok ⟨field root 51 16 * 65536, peertab, npeer, leNat (b.drop 24)⟩

/-- NLAYER and LOG2PPB of a KVAP, when it is valid (R397, R398). -/
def kvapValid (k : Nat) : Bool :=
  decide (1 ≤ field k 15 4) && decide (3 ≤ field k 3 0) && decide (field k 3 0 ≤ 8)

/-- The aperture base. -/
def kvBase (k : Nat) : Nat := field k 55 49 * 2 ^ 49

/-- Hallmark's translation of an aperture address (R398). -/
def State.kvLeaf (s : State) (e : CtxEntry) (ctx va : Nat) : Except Bool Leaf :=
  let p := (va - kvBase e.kvap) / 131072
  match Map.look s.pages p with
  | none => .error false
  | some g =>
    if g.ctx ≠ ctx || g.refs = [] then .error false
    else .ok ⟨va / 131072 * 131072, 131072, s.pageAddr p, .rc, true, decide (g.refs.length < 2), false, false, some p⟩

/-- The page kind of a leaf. -/
def kindOf : Nat → PKind
  | 0 => .rc
  | 1 => .so
  | _ => .u

/-- A table entry of the upper levels: the next table. -/
def State.tableAt (s : State) (pa : Nat) : Except Bool Nat :=
  match s.fetch pa 8 with
  | none => .error true
  | some b =>
    let e := leNat b
    if e % 2 = 0 then .error false
    else if field e 63 52 ≠ 0 || field e 15 1 ≠ 0 then .error true
    else .ok (field e 51 16 * 65536)

/-- A leaf of the bottom level (Table 12.2, R345). -/
def State.leafAt (s : State) (table va : Nat) : Except Bool Leaf :=
  let i := va / 131072 % 8192
  match s.fetch (table + 8 * i) 8 with
  | none => .error true
  | some b =>
    let e := leNat b
    let sz := field e 3 2
    let run := [1, 16, 512, 1].getD sz 1
    let frame := field e 51 17 * 131072
    if e % 2 = 0 then .error false
    else if field e 63 52 ≠ 0 || field e 15 12 ≠ 0 || field e 16 16 ≠ 0 || field e 9 9 ≠ 0 || field e 6 6 ≠ 0 || field e 5 4 = 3 || sz = 3
        || field e 1 1 = 0 || frame % (131072 * run) ≠ 0
        || (span (i / run * run) run).any fun j => s.fetch (table + 8 * j) 8 ≠ some b then .error true
    else .ok ⟨va / (131072 * run) * (131072 * run), 131072 * run, frame, kindOf (field e 5 4), field e 7 7 = 1, field e 8 8 = 1,
      field e 10 10 = 1, field e 11 11 = 1, none⟩

/-- The walk of a global address (R344); the error says whether a malformed entry was found. -/
def State.walk (s : State) (ctx va : Nat) : Except Bool Leaf :=
  match s.ctxEntry ctx with
  | .error m => .error m
  | .ok e =>
    if kvapValid e.kvap && decide (kvBase e.kvap ≤ va) && decide (va < kvBase e.kvap + 2 ^ 49) then s.kvLeaf e ctx va
    else
      match s.tableAt (e.root + 8 * (va / 2 ^ 43 % 8192)) with
      | .error m => .error m
      | .ok mid =>
        match s.tableAt (mid + 8 * (va / 2 ^ 30 % 8192)) with
        | .error m => .error m
        | .ok bot => s.leafAt bot va

/-- The physical address under a leaf. -/
def Leaf.pa (l : Leaf) (va : Nat) : Nat := l.frame + (va - l.vbase)

/-- What a leaf leaves with the accesses it translates. -/
def Leaf.use (l : Leaf) : PageUse := ⟨l.tag, l.vbase, l.size⟩

/-- Whether a leaf covers an address. -/
def Leaf.covers (l : Leaf) (va : Nat) : Bool := decide (l.vbase ≤ va) && decide (va < l.vbase + l.size)

/-- The held translations of a die that cover an address and differ from what a walk finds now. -/
def State.heldOther (s : State) (die ctx va : Nat) : List Leaf :=
  (((s.die die).tlb.filter fun e => e.ctx = ctx && e.leaf.covers va && match s.walk ctx va with
    | .ok l => decide (l ≠ e.leaf)
    | .error _ => true).map (·.leaf)).foldl (fun l x => if l.contains x then l else l ++ [x]) []

/-- What translates an address at a die: what a walk finds now, or a translation that some TLB of the die still holds (R347, R348); `pick`
chooses. -/
def State.leafBy (s : State) (die ctx va pick : Nat) : Except Bool Leaf :=
  let old := s.heldOther die ctx va
  match old[pick % (old.length + 1)]? with
  | some l => .ok l
  | none => s.walk ctx va

/-- The translation that an agent other than a lane's access uses: fetch, the scheduler, an engine, a peer's packet. -/
def State.leafOf (s : State) (die ctx va : Nat) : Except Bool Leaf := s.leafBy die ctx va (Config.heldPick s.cycle.toNat ctx (va / 131072))

/-- The translation that a scheduler uses, of either die. -/
def State.leafAny (s : State) (ctx va : Nat) : Except Bool Leaf :=
  let p := Config.heldPick s.cycle.toNat ctx (va / 131072)
  s.leafBy (p % 2) ctx va (p / 2)

/-- A walk's reads combine the partials that stand on the entries it reads, as any read at the home does (R180, R305). -/
def State.combineWalk (s : State) (ctx va : Nat) : State :=
  if s.cores.all fun p => p.2.reds = [] && p.2.held = [] then s
  else
    let s := s.combine (s.dev.ctxt + 32 * ctx) 32
    match s.ctxEntry ctx with
    | .error _ => s
    | .ok e =>
      if kvapValid e.kvap && decide (kvBase e.kvap ≤ va) && decide (va < kvBase e.kvap + 2 ^ 49) then s
      else
        let top := e.root + 8 * (va / 2 ^ 43 % 8192)
        let s := s.combine top 8
        match s.tableAt top with
        | .error _ => s
        | .ok mid =>
          let s := s.combine (mid + 8 * (va / 2 ^ 30 % 8192)) 8
          match s.tableAt (mid + 8 * (va / 2 ^ 30 % 8192)) with
          | .error _ => s
          | .ok bot =>
            let i := va / 131072 % 8192
            let s := s.combine (bot + 8 * i) 8
            let run := [1, 16, 512, 1].getD (field (leNat (s.bytes (bot + 8 * i) 1)) 3 2) 1
            s.combine (bot + 8 * (i / run * run)) (8 * run)

/-- A die's TLBs hold what a walk of an address finds. -/
def State.holdLeaf (s : State) (die ctx va : Nat) : State :=
  let s := s.combineWalk ctx va
  match s.walk ctx va with
  | .error _ => s
  | .ok l => if (s.die die).tlb.contains ⟨ctx, l⟩ then s else s.editDie die fun d => { d with tlb := ⟨ctx, l⟩ :: d.tlb }

/-- Translate for a core: a held translation that differs from the walk may be used until it is invalidated (R347). -/
def State.xlate (s : State) (core ctx va : Nat) : State × Except Bool Leaf :=
  let s := s.holdLeaf (dieOf core) ctx va
  match s.heldOther (dieOf core) ctx va with
  | [] => (s, s.walk ctx va)
  | _ => ({ s with freeIx := s.freeIx + 1 }, s.leafBy (dieOf core) ctx va (Config.freeNat s.freeIx))

/-! ### Export windows (R349) -/

/-- An export entry (Table 12.3): device, target context, permissions, target base, length. -/
structure Window where
  dev : Nat
  tctx : Nat
  perm : Nat
  base : Nat
  len : Nat
  deriving DecidableEq, Repr

/-- The fields of an export entry. -/
def Window.of (b : List Byte) : Window :=
  ⟨leNat (b.take 2) % 2048, leNat ((b.drop 2).take 2) % 4096, leNat ((b.drop 4).take 1) % 8, leNat ((b.drop 8).take 8),
    leNat ((b.drop 16).take 8)⟩

/-- The export entries of a context as a die holds them: read once, and kept until an invalidation (R349, R350). -/
def State.exportsOf (s : State) (die ctx : Nat) : State × Except Bool (List (List Byte)) :=
  match Map.look (s.die die).exports ctx with
  | some l => (s, .ok l)
  | none =>
    let s := s.combine (s.dev.ctxt + 32 * ctx) 32
    match s.ctxEntry ctx with
    | .error m => (s, .error m)
    | .ok e =>
      let s := s.combine e.peertab (32 * e.npeer)
      match (List.range e.npeer).mapM fun i => s.fetch (e.peertab + 32 * i) 32 with
      | none => (s, .error true)
      | some l => (s.editDie die fun d => { d with exports := Map.put d.exports ctx l }, .ok l)

/-- The first window of a list that holds `n` bytes at an address of a device. -/
def findWindow (l : List (List Byte)) (dev va n : Nat) : Option Window :=
  ((l.map Window.of).find? fun w => w.dev = dev && decide (w.base ≤ va) && decide (va < w.base + w.len)).bind fun w =>
    if va + n ≤ w.base + w.len then some w else none

/-- A device of the partition: one the routing table reaches, by a port that is not retired or through an intermediate, and not a lost one
(R364, R368, R431). -/
def State.inPartition (s : State) (dev : Nat) : Bool :=
  let e := (Map.lookD s.dev.brRt dev 0#64).toNat
  let direct := field e 6 6 = 1 && !(NSet.has s.dev.retPorts (field e 5 0))
  (direct || field e 63 61 ≠ 0) && !(NSet.has s.dev.lostSet dev)

/-! ### Scratchpads -/

/-- A byte of a unit's scratchpad (R7). -/
def KUnit.sbyte (u : KUnit) (off : Nat) : Byte := Map.lookD u.scratch off 0#8

/-- `n` bytes of a unit's scratchpad. -/
def KUnit.sbytes (u : KUnit) (off n : Nat) : List Byte := (span off n).map u.sbyte

/-- Write scratchpad bytes with the tag of each granule; a frozen scratchpad takes nothing (R427). -/
def KUnit.sput (u : KUnit) (off : Nat) (bs : List Byte) (tag : Bool) : KUnit :=
  if bs = [] || u.frozen then u
  else
    { u with
      scratch := putBytes u.scratch off bs, stags := markTags u.stags off bs.length tag, spoison := clearPoison u.spoison off bs.length }

/-- Whether any of `n` scratchpad bytes is poisoned. -/
def KUnit.spoisoned (u : KUnit) (off n : Nat) : Bool := u.spoison.any fun k => decide (8 * k < off + n) && decide (off < 8 * k + 8)

/-- Whether bytes meet a registered barrier word (R193). -/
def KUnit.barrierIn (u : KUnit) (off n : Nat) : Bool := (Map.keys u.bars).any fun b => decide (b < off + n) && decide (off < b + 16)

end Sys2Proof.Machine
end

