-- ==== Sys2Proof/Machine/Access.lean ====
section
/-! DEFINITION. Checking an access (R164, R176, R193), issuing a memory operation, and performing its parts (R165 to R172, R177 to R181,
R185, R186). -/
namespace Sys2Proof.Machine

/-- What an access asks: its size, the permission bits it needs (Table 5.3), what it does, whether it must be aligned (R166), whether it is an
acquire or a release (check 8), and the space it may name, when only some do. -/
structure Want where
  size : Nat
  need : Nat
  kind : AccKind
  align : Bool
  order : Bool
  spaces : List Nat
  deriving DecidableEq, Repr

/-- Whether an access writes. -/
def writes : AccKind → Bool
  | .load => false
  | .loadCap => false
  | _ => true

/-- Whether an access reads a result. -/
def reads : AccKind → Bool
  | .load => true
  | .loadCap => true
  | .atom _ => true
  | _ => false

/-- ATOM or RED. -/
def isRmw : AccKind → Bool
  | .atom _ => true
  | .red _ => true
  | _ => false

/-- KIND of a fault queue entry (Table 12.5). -/
def kindBits : AccKind → Nat
  | .load => 1
  | .loadCap => 1
  | .store => 2
  | .storeCap => 2
  | .atom _ => 7
  | .red _ => 6

/-- SPEC of a node tag (Table 1.12). -/
def nodeSpec (n : Word64) : Bool := n.getLsbD 63 && n.getLsbD 10
/-- SEQ of a node tag. -/
def nodeSeq (n : Word64) : Nat := field n.toNat 55 32
/-- SLOT of a node tag. -/
def nodeSlot (n : Word64) : Nat := field n.toNat 9 0

/-- The page part of the speculative-store rule (R170, R395). -/
def State.specPage (s : State) (node : Word64) (l : Leaf) : Bool :=
  l.spec ||
    match l.kv.bind fun p => Map.look s.pages p with
    | none => false
    | some g =>
      match g.refs with
      | [r] =>
        decide (r.sq = nodeSeq node) &&
          match (Map.look s.seqs r.sq).bind fun q => Map.look q.slots r.owner with
          | some x => x.vec.getLsbD (nodeSlot node)
          | none => false
      | _ => false

/-- The unit whose scratchpad a scratch or cluster address names (R153). -/
def Ctx.target (c : Ctx) (space a : Nat) : Nat :=
  if space = 1 then c.f.unit else (Map.look c.u.mates (a / 2 ^ 19 % 8)).getD c.f.unit

/-- Checks 1 to 6 of R164: the cause of the first that fails. -/
def Ctx.early (c : Ctx) (s : State) (w : Want) (k : Cap) (tag stag : Bool) (a : Nat) : Option Nat :=
  if !tag || !k.ok then some 0x10
  else if !(w.spaces.contains k.space) || decide (4 < k.space) || (k.space = 1 && decide (2 ^ 19 ≤ a))
      || (k.space = 2 && (decide (2 ^ 22 ≤ a) || decide (c.u.sizeM1 < a / 2 ^ 19 % 8) || NSet.has c.u.rankEnded (a / 2 ^ 19 % 8)))
      || (k.space = 3 && !(s.inPartition (a / 2 ^ 45))) || (k.space = 4 && isRmw w.kind) then some 0x11
  else if k.perm &&& w.need ≠ w.need || (stag && (!(k.has 4) || k.space = 3 || k.space = 4)) then some 0x12
  else
    let inside := match k.bounds with
      | some (b, t) => decide (b ≤ a) && decide (a + w.size ≤ t)
      | none => false
    if !inside || ((k.space = 1 || k.space = 2) && decide (c.l.scratch < a % 2 ^ 19 + w.size)) then some 0x13
    else if w.align && a % w.size ≠ 0 then some 0x14
    else if writes w.kind && nodeSpec c.w.node && (k.space = 0 || k.space = 3 || k.space = 4) && !(k.has 6) then some 0x15
    else if writes w.kind && (k.space = 1 || k.space = 2) &&
        (((s.unit? (c.target k.space a)).map fun t => t.barrierIn (a % 2 ^ 19) w.size).getD false) then some 0x20
    else none

/-- A translation fault of a lane (R351). -/
def fbLane (ctx va kind src dev : Nat) (malf : Bool) : FbEntry :=
  { ctx := ctx, va := va, src := src, kind := kind + (if malf then 8 else 0), dev := dev, copied := false, ord := 0 }

/-- Check 7 of one page: its translation and rights. -/
def Ctx.page (c : Ctx) (s : State) (w : Want) (stag : Bool) (va : Nat) : State × Except Bad Leaf :=
  match s.xlate c.u.core c.l.ctx va with
  | (s, .error m) =>
    (s, .error { Bad.of 0x16 (BitVec.ofNat 64 va) 0 with fb := [fbLane c.l.ctx va (kindBits w.kind) 0 0 m] })
  | (s, .ok l) =>
    if (reads w.kind && !l.rd) || (writes w.kind && !l.wr) || (stag && !l.tag) then (s, .error (Bad.of 0x12 0 0)) else (s, .ok l)

/-- The end of check 7, and check 8: the page part of the speculative-store rule (R170), and the kind of the pages (R176). -/
def Ctx.pageRule (c : Ctx) (w : Want) (spec : Bool) (kinds : List PKind) : Option Bad :=
  if writes w.kind && nodeSpec c.w.node && !spec then some (Bad.of 0x15 0 0)
  else if w.order && kinds.contains .u then some (Bad.of 0x17 0 0)
  else none

/-- Checks 7 and 8 of an access to peer space (R349): the search of the export windows, then what the peer's page says, which is the peer's
(R170, R287; log entry 56). -/
def Ctx.latePeer (c : Ctx) (s : State) (w : Want) (a : Nat) : State × Except Bad (List ByteLoc) :=
  let dev := a / 2 ^ 45
  let va := a % 2 ^ 45
  let miss (m : Bool) : Bad := { Bad.of 0x16 0 0 with fb := [fbLane c.l.ctx a (kindBits w.kind) 3 dev m] }
  match s.exportsOf (dieOf c.u.core) c.l.ctx with
  | (s, .error m) => (s, .error (miss m))
  | (s, .ok l) =>
    match findWindow l dev va w.size with
    | none => (s, .error (miss false))
    | some x =>
      let pages := (span va w.size).map (· / 131072)
      if x.perm &&& (w.need &&& 7) ≠ w.need &&& 7 then (s, .error (Bad.of 0x12 0 0))
      else
        match c.pageRule w (pages.all fun p => Config.peerSpec dev x.tctx p) (pages.map fun p => Config.peerKind dev x.tctx p) with
        | some b => (s, .error b)
        | none => (s, .ok ((span va w.size).map fun v => .peer dev x.tctx v 0))

/-- Checks 7 to 9 of R164, and where each byte lies. A speculative store to host space finds no page that would allow it (R170). -/
def Ctx.late (c : Ctx) (s : State) (w : Want) (k : Cap) (stag : Bool) (a : Nat) : State × Except Bad (List ByteLoc) :=
  if k.space = 1 ∨ k.space = 2 then
    (s, .ok ((span (a % 2 ^ 19) w.size).map fun o => .scr (c.target k.space a) o))
  else if k.space = 4 then
    match c.pageRule w false [] with
    | some b => (s, .error b)
    | none => (s, .ok ((span a w.size).map .host))
  else if k.space = 3 then c.latePeer s w a
  else
    match c.page s w stag a with
    | (s, .error b) => (s, .error b)
    | (s, .ok l1) =>
      match (if l1.covers (a + w.size - 1) then (s, .ok l1) else c.page s w stag (a + w.size - 1)) with
      | (s, .error b) => (s, .error b)
      | (s, .ok l2) =>
        let leaf (v : Nat) : Leaf := if l1.covers v then l1 else l2
        match c.pageRule w (s.specPage c.w.node l1 && s.specPage c.w.node l2) [l1.kind, l2.kind] with
        | some b => (s, .error b)
        | none =>
          match ((span a w.size).map fun v => (leaf v).pa v).findSome? s.ringBead with
          | some b => (s, .error { Bad.of 0x18 0 0 with hint := b })
          | none => (s, .ok ((span a w.size).map fun v => .phys ((leaf v).pa v) (leaf v).kind c.l.ctx v (leaf v).use))

/-- All checks of one thread's access (R164): a fault with address A, or where its bytes lie. -/
def Ctx.check (c : Ctx) (s : State) (w : Want) (q : BitVec 128) (tag stag : Bool) (a : Nat) : State × Except Bad (List ByteLoc) :=
  match c.early s w (Cap.of q) tag stag a with
  | some cause => (s, .error (Bad.of cause (BitVec.ofNat 64 a) 0))
  | none =>
    match c.late s w (Cap.of q) stag a with
    | (s, .error b) => (s, .error { b with addr := BitVec.ofNat 64 a })
    | (s, .ok l) => (s, .ok l)

/-- The spaces of Table 5.2. -/
def allSpaces : List Nat := [0, 1, 2, 3, 4]

/-- Address of a thread's access (R164). -/
def Ctx.addr (c : Ctx) (mr : MemRef) (t : Nat) : Nat :=
  let off : Int := match mr.off with
    | .reg r => (c.rd r t).toInt
    | .short i => i.toInt
    | .lit x => x.toInt
  ((((c.cap mr.c t).cursor : Int) + off) % 2 ^ 56).toNat

/-- Registers and length of a memory operand (R51). -/
def memOpn (mr : MemRef) : List Opn :=
  match mr.off with
  | .reg r => [opC mr.c, opV r]
  | _ => [opC mr.c]
/-- Words of an RM word (R52). -/
def memWords (mr : MemRef) : Nat :=
  match mr.off with
  | .lit _ => 2
  | _ => 1

/-- The parts of one thread's access: whole when aligned, byte by byte otherwise (R166, R285). -/
def itemsOf (w : Want) (t a : Nat) (locs : List ByteLoc) (data : BitVec 128) (cmp : Word64) (tag ctag tx : Bool) : List Item :=
  if a % w.size = 0 then
    [{ thread := t, addr := a, off := 0, locs := locs, kind := w.kind, data := data, tag := tag, cmp := cmp, ctag := ctag, tx := tx, done := false }]
  else
    (List.range w.size).map fun i =>
      { thread := t, addr := a, off := i, locs := (locs.drop i).take 1, kind := w.kind, data := (data >>> (8 * i)) &&& 0xFF#128, tag := false
        cmp := 0, ctag := false, tx := tx, done := false }

/-- Add an operation in flight to the executing fragment's unit, with its place in the core's issue order. -/
def State.putOp (s : State) (c : Ctx) (path : Option PathId) (flag : Option Nat) (mask : Mask) (kind : OpKind) (items : List Item)
    (dst : Option Dst) (pd : Option PredReg) : State :=
  (s.editUnit c.f.unit fun u =>
    { u with
      nextOp := u.nextOp + 1
      ops := u.ops ++
        [{ id := u.nextOp, warp := c.f.warp, fidx := c.f.fidx, path := path, flag := flag, mask := mask, kind := kind
           items := items, dst := dst, pd := pd, at_ := c.fr.stand, fails := [], ord := (s.core c.u.core).stamp, done := false }] }).editCore
    c.u.core fun k => { k with stamp := k.stamp + 1 }

/-- Issue a long-latency operation (R32, R43, R299). -/
def State.issue (s : State) (c : Ctx) (path : Option PathId) (mask : Mask) (kind : OpKind) (items : List Item) (dst : Option Dst)
    (pd : Option PredReg) : State :=
  (s.putOp c path c.fr.flag mask kind items dst pd).editFrag c.f Frag.passLl

/-- Whether a thread is Open (R185). -/
def Ctx.isOpen (c : Ctx) (t : Nat) : Bool := (c.w.tx t).st = .opened

/-- An instruction not allowed in a transaction dooms the Open threads that run it (R186). -/
def State.accessDoom (s : State) (c : Ctx) (m : Mask) : State :=
  (threads m).foldl (fun s t => s.doomThread c.f.unit c.f.warp t 6#4) s

/-- Whether a thread is Doomed. -/
def Ctx.isDoomed (c : Ctx) (t : Nat) : Bool := (c.w.tx t).st = .doomed

/-- A store, of data or a capability. -/
def isStore (k : AccKind) : Bool := k = .store || k = .storeCap

/-- Whether an access is transactional: LD, LDA, ST, STL of global space on strongly ordered or release-consistent pages (R186). -/
def txAccess (w : Want) (locs : List ByteLoc) : Bool :=
  (w.kind = .load || w.kind = .store) && locs.all fun l => match l with
    | .phys _ k _ _ _ => k ≠ .u
    | _ => false

/-- The target and 64-byte line of a part in peer space: its packet (R365). -/
def Item.packet (i : Item) : Option (Nat × Nat) :=
  match i.locs with
  | .peer d _ v _ :: _ => some (d, v / 64)
  | _ => none

/-- The packets of a peer operation: one per target and 64-byte line (R365). -/
def packetsOf (items : List Item) : List (Nat × Nat) :=
  (items.filterMap Item.packet).foldl (fun (l : List (Nat × Nat)) k => if l.contains k then l else l ++ [k]) []

/-- Number the packets of a peer operation, ascending for each target (R365). -/
def State.numberPeers (s : State) (die : Nat) (items : List Item) : State × List Item :=
  let keys := packetsOf items
  let seqOf (k : Nat × Nat) : Nat :=
    Map.lookD s.peerSeq (2048 * die + k.1) 0 + (keys.filter fun j => j.1 = k.1 && decide (j.2 < k.2)).length
  let items := items.map fun i => match i.packet with
    | none => i
    | some k => { i with locs := i.locs.map fun l => match l with
      | .peer d x v _ => .peer d x v (seqOf k)
      | l => l }
  ({ s with
    peerSeq := keys.foldl (fun m k => Map.put m (2048 * die + k.1) (Map.lookD m (2048 * die + k.1) 0 + 1)) s.peerSeq }, items)

/-- A memory instruction: sizes, permissions and registers of its data. -/
structure MemIns where
  want : Want
  reg : Reg
  regs : Nat
  ral : Nat
  acq : Option Scope
  rel : Option Scope
  sext : Bool
  mr : MemRef
  deriving DecidableEq, Repr

/-- The data a thread stores or combines: the registers from d, lowest first; for a cas the new value (R175). -/
def MemIns.data (m : MemIns) (c : Ctx) (t : Nat) : BitVec 128 :=
  let r := c.base + m.reg.toNat
  match m.want.kind, m.want.size with
  | .storeCap, _ => c.w.quad r t
  | .atom .cas, 4 => (c.w.reg (r + 1) t).zeroExtend 128
  | .atom .cas, _ => (c.w.reg (r + 3) t ++ c.w.reg (r + 2) t).zeroExtend 128
  | _, 8 => (c.w.reg (r + 1) t ++ c.w.reg r t).zeroExtend 128
  | _, _ => (c.w.reg r t).zeroExtend 128

/-- The compare value of a cas (R175). -/
def MemIns.cmp (m : MemIns) (c : Ctx) (t : Nat) : Word64 :=
  let r := c.base + m.reg.toNat
  if m.want.size = 4 then (c.w.reg r t).zeroExtend 64 else c.w.reg (r + 1) t ++ c.w.reg r t

/-- Whether a thread stores a tagged capability. -/
def MemIns.stag (m : MemIns) (c : Ctx) (t : Nat) : Bool := m.want.kind = .storeCap && c.w.qtag ((c.base + m.reg.toNat) / 4) t

/-- Whether a byte lies where a capability load may find a tag: a global page that allows tags, a scratchpad (R168). -/
def ByteLoc.tags : ByteLoc → Bool
  | .phys _ _ _ _ g => g.tags
  | .scr _ _ => true
  | _ => false

/-- Check one thread's access and give its parts. -/
def MemIns.thread (m : MemIns) (c : Ctx) (s : State) (t : Nat) : State × Except Bad (List Item) :=
  let a := c.addr m.mr t
  let k := c.cap m.mr.c t
  match c.check s m.want (c.rdC m.mr.c t) (c.capTag m.mr.c t) (m.stag c t) a with
  | (s, .error b) => (s, .error b)
  | (s, .ok locs) =>
    (s, .ok (itemsOf m.want t a locs (m.data c t) (m.cmp c t) (m.stag c t) (m.want.kind = .loadCap && k.has 5 && locs.all (·.tags))
      ((c.isOpen t && txAccess m.want locs) || (c.isDoomed t && isStore m.want.kind))))

/-- Check every active thread, in beat order. -/
def MemIns.all (m : MemIns) (c : Ctx) : State → List Nat → State × List (Nat × Except Bad (List Item))
  | s, [] => (s, [])
  | s, t :: ts =>
    let r := m.thread c s t
    let q := m.all c r.1 ts
    (q.1, (t, r.2) :: q.2)

/-- The faults found. -/
def badsOf (m : Mask) (l : List (Nat × Except Bad (List Item))) : List Bad :=
  groupBads m fun t => match Map.look l t with
    | some (.error b) => some b
    | _ => none

/-- The parts of the threads that passed. -/
def itemsIn (m : Mask) (l : List (Nat × Except Bad (List Item))) : List Item :=
  l.flatMap fun p => match p.2 with
    | .ok is => if m.getLsbD p.1 then is else []
    | .error _ => []

/-- The destination of a memory word's result. -/
def MemIns.dst (m : MemIns) (c : Ctx) : Option Dst :=
  if reads m.want.kind then
    some
      { reg := c.base + m.reg.toNat, n := if m.want.kind = .loadCap then 4 else if m.want.size = 8 then 2 else 1
        size := m.want.size, sext := m.sext, cap := m.want.kind = .loadCap }
  else none

/-- Issue the parts of the threads that passed (R163, R165); with none left the word passes. -/
def MemIns.go (m : MemIns) (l : List (Nat × Except Bad (List Item))) (c : Ctx) (s : State) : State :=
  if c.act = 0#32 then s.skipLl c (memWords m.mr)
  else
  let np := s.numberPeers (dieOf c.u.core) (itemsIn c.act l)
  let items := np.2
  let doomed := maskOf fun t => items.any fun i => i.thread = t && !i.tx && c.isOpen t
  let s := np.1.accessDoom c doomed
  (s.issue c (some .ls) c.act (.mem m.acq m.rel) items (m.dst c) none).retire c (memWords m.mr) false c.beats

/-- The devices that the parts of an access address in peer space, with the number of packets for each. -/
def peersOf (items : List Item) : List (Nat × Nat) :=
  let keys := packetsOf items
  (keys.map (·.1)).eraseDups.map fun d => (d, (keys.filter fun k => k.1 = d).length)

/-- What a memory word needs at issue (R32, R187, R299). -/
def Ctx.lsNeeds (c : Ctx) : List Need := llNeeds .ls ++ [.tend c.act]

/-- Run a memory word (R163 to R169, R175 to R178). -/
def MemIns.run (m : MemIns) : Meaning :=
  withWord (⟨m.reg.toNat, m.regs, 1⟩ :: memOpn m.mr) [] fun c s =>
    if m.reg.toNat % m.ral ≠ 0 then s.faultAll c 0x01
    else if c.act = 0#32 then s.skipLl c (memWords m.mr)
    else s.whenReady c c.lsNeeds fun s =>
      let r := m.all c s (threads c.act)
      let items := itemsIn c.act r.2
      let each := (threads c.act).map fun t => (items.filter fun i => i.thread = t).flatMap Item.pas
      r.1.whenReady c (((peersOf items).map fun p => .window p.1 p.2) ++ r.1.pinNeeds each) fun s =>
        match badsOf c.act r.2 with
        | [] => m.go r.2 c s
        | bads => s.guarded c bads (m.go r.2)

/-! ### Performing (R171, R177, R179 to R181, R186, R290, R297) -/

/-- The words of an item's global bytes, and its scratchpad words, as one kind of key. -/
def locWord : ByteLoc → Nat × Nat × Nat
  | .phys pa _ _ _ _ => (0, 0, pa / 4)
  | .scr u o => (1, u, o / 4)
  | .host a => (2, 0, a / 4)
  | .peer d x v _ => (3 + d, x, v / 4)

/-- The same for a byte. -/
def locByte : ByteLoc → Nat × Nat × Nat
  | .phys pa _ _ _ _ => (0, 0, pa)
  | .scr u o => (1, u, o)
  | .host a => (2, 0, a)
  | .peer d x v _ => (3 + d, x, v)

/-- Two items touch a common word. -/
def Item.meets (x y : Item) : Bool := x.locs.any fun a => y.locs.any fun b => locWord a = locWord b

/-- Two items touch a common byte. -/
def Item.overlaps (x y : Item) : Bool := x.locs.any fun a => y.locs.any fun b => locByte a = locByte b

/-- All of an item's bytes lie on strongly ordered pages, or in host space (R287). -/
def Item.so (x : Item) : Bool := x.locs.all fun l => match l with
  | .host _ => true
  | l => l.kind? = some .so

/-- Whether a fence marker stands for a thread (R183). -/
def fenceFor (o : Op) (warp t : Nat) : Option FenceKind :=
  match o.kind with
  | .fence m sc => if o.warp = warp && o.mask.getLsbD t && sc ≠ .thread && !o.done then some m else none
  | _ => none

/-- Local order of Table 9.2 and R171: an earlier part X of an operation, still to perform, that part Y of a later one must follow. R171 keeps
program order between the instructions of one fragment at one address, whichever threads they are of; but a read may pass the write of another
thread, which no row of Table 9.2 orders (R311; DEDUCED, log entry 66). -/
def mustFollow (ox oy : Op) (x y : Item) : Bool :=
  !x.done && ox.warp = oy.warp &&
    ((x.thread = y.thread &&
        (x.meets y || (x.so && y.so)
          || (match ox.kind with | .mem (some _) _ => !y.un | _ => false)
          || (match oy.kind with | .mem _ (some _) => !x.un | _ => false)))
      || (ox.fidx = oy.fidx && x.meets y && (writes y.kind || !(writes x.kind))))

/-- Whether part y of operation o may perform now: nothing earlier of Table 9.2 is outstanding. -/
def mayPerform (ops : List Op) (o : Op) (y : Item) : Bool :=
  (ops.takeWhile fun x => x.id ≠ o.id).all fun x =>
    x.items.all (fun i => !(mustFollow x o i y)) &&
      match fenceFor x o.warp y.thread with
      | some .full => false
      | some .acq => false
      | some .rel => !(writes y.kind)
      | none => true

/-- A RED gathers in its core's issue order (R180): an earlier one of the core, of whatever unit, has still to gather into a common word. -/
def State.redFirst (s : State) (core : Nat) (o : Op) (y : Item) : Bool :=
  match y.kind with
  | .red _ =>
    (Map.vals s.units).any fun un => un.core = core && un.ops.any fun p => decide (p.ord < o.ord) && p.items.any fun x =>
      !x.done && x.meets y && match x.kind with
        | .red _ => true
        | _ => false
  | _ => false

/-- The items of an operation that overlap those of a list, and what overlaps these, in beat order. -/
def closeOver (all : List Item) : Nat → List Item → List Item
  | 0, g => g
  | n + 1, g =>
    let h := all.filter fun x => g.any x.overlaps
    if h.length = g.length then g else closeOver all n h

/-- What performs at one time with a part of an operation: where threads of one instruction write overlapping bytes, every such write, in beat
order, so that no agent sees an order among them (R171, R305). -/
def Op.together (o : Op) (i : Item) : List Item :=
  if writes i.kind then closeOver (o.items.filter fun x => !x.done && writes x.kind) o.items.length [i] else [i]

/-- Bytes of a number as an item stores them. -/
def Item.bytes (i : Item) : List Byte := leBytes i.locs.length i.data.toNat

/-- Physical bytes of an item: the first address; its bytes are contiguous. -/
def Item.pa (i : Item) : Option (Nat × PKind × Nat × Nat) :=
  match i.locs with
  | .phys pa k c v _ :: _ => some (pa, k, c, v)
  | _ => none

/-- Put the bytes that a thread's access read into its destination, and the tag a capability load may set (R167, R168). -/
def Dst.write (d : Dst) (w : Warp) (t : Nat) (bs : List Byte) (tag : Bool) : Warp :=
  let v := leNat bs
  let v := if d.size < 4 && d.sext then ((BitVec.ofNat (8 * d.size) v).signExtend 32).toNat else v
  let w := (List.range d.n).foldl (fun w k => (w.setReg (d.reg + k) t (BitVec.ofNat 32 (v / 2 ^ (32 * k)))).setRtag (d.reg + k) .general) w
  if d.cap then w.setQtag (d.reg / 4) t (tag && (Cap.of (BitVec.ofNat 128 v)).ok) else w

/-- Withdraw a thread's share from an operation (R165); a CBLD is of all its threads (R228). -/
def Op.drop (o : Op) (t : Nat) : Op :=
  match o.kind with
  | .cbld _ => { o with mask := 0#32, items := [] }
  | _ => { o with mask := o.mask &&& ~~~(bit t), items := o.items.filter fun i => i.thread ≠ t }

/-- Mark a part performed. -/
def Op.mark (o : Op) (y : Item) : Op :=
  { o with items := o.items.map fun i => if i.thread = y.thread && i.off = y.off then { i with done := true } else i }

/-- Faults in ascending order of lowest thread. -/
def sortBads (l : List Bad) : List Bad :=
  l.foldl (fun m b =>
    let k := (lowest b.mask).getD 32
    (m.filter fun x => decide ((lowest x.mask).getD 32 < k)) ++ b :: m.filter fun x => !(decide ((lowest x.mask).getD 32 < k))) []

/-- A part of a thread fails as it performs (checks 9 and 10 of R164, R165): the thread's share leaves the operation, and its fault is noted. A
failed CBLD faults every thread of the instruction (R213). -/
def Op.failAt (o : Op) (i : Item) (cause hint : Nat) (addr : Word64) (fb : List FbEntry) : Op :=
  let mask := match o.kind with
    | .cbld _ => o.mask
    | _ => bit i.thread
  let b : Bad := { cause := cause, addr := addr, hint := hint, replay := true, mask := mask, fb := fb }
  let first (x : Bad) : Bool := decide ((lowest x.mask).getD 32 < i.thread)
  let o' := o.drop i.thread
  { o' with
    fails := match o.fails.find? (·.cause = cause) with
      | none => o.fails ++ [b]
      | some x =>
        (o.fails.filter (·.cause ≠ cause)) ++
          [{ (if first x then x else b) with mask := x.mask ||| mask, fb := joinFbs x.fb fb }] }

/-- The same with the address of the thread's access. -/
def Op.fail (o : Op) (i : Item) (cause hint : Nat) (fb : List FbEntry) : Op := o.failAt i cause hint (BitVec.ofNat 64 i.addr) fb

/-- When every part of an operation has performed or failed, its faults come to stand against its warp. -/
def State.settle (s : State) (u op : Nat) : State :=
  match (s.unit? u).bind fun un => un.op? op with
  | none => s
  | some o =>
    if o.fails = [] || !(o.items.all (·.done)) then s
    else (s.editUnit u fun un => un.editOp op fun o => { o with fails := [] }).postLate u o.warp ⟨some o.at_, sortBads o.fails⟩

/-- A partial's first value (R180). -/
def redCanon (op : RmwOp) (x : Word64) : Word64 :=
  match op with
  | .addF => if (f32.val (x.toNat % 2 ^ 32)).isNan then 0x7FC00000#64 else x
  | _ => x

/-- Put a partial among sectors. -/
def putRed (l : List RedSector) (sec w : Nat) (v : RedVal) : List RedSector :=
  match l with
  | [] => [⟨sec, [(w, v)]⟩]
  | r :: t => if r.sector = sec then { r with vals := Map.put r.vals w v } :: t else r :: putRed t sec w v

/-- Gather a RED into the core's partials (R180): a partial of another operation or size is combined first; the least recently updated
sector gives way when 256 are held. -/
def State.gatherRed (s : State) (core pa : Nat) (op : RmwOp) (size : Nat) (x : Word64) : State :=
  let w := pa / 4
  let words := wordsOf pa size
  let unlike (v : RedVal) : Bool := !(v.op = op && v.size = size)
  let clash := s.cores.any fun c => words.any fun v =>
    (((s.core c.1).partial? v).map unlike).getD false ||
      (size = 4 && (((s.core c.1).partial? (v - 1)).map fun r => decide (r.size = 8)).getD false)
      || (size = 8 && v ≠ w && ((s.core c.1).partial? v).isSome)
  let s := if clash then s.combine pa size else s
  let s := words.foldl (fun s v => (s.unregister v true).editCore core fun k => k.dropWord v) s
  let k : CoreSt := s.core core
  let sec := pa / 64
  let mine : Option RedSector := k.reds.find? fun r => r.sector = sec
  let k : CoreSt := match mine, k.reds with
    | none, old :: rest =>
      if 256 ≤ k.reds.length then
        { k with
          reds := rest
          held := old.vals.foldl (fun h p => putRed h old.sector p.1 (RedVal.merge (redLook h p.1) p.2)) k.held }
      else k
    | _, _ => k
  let cur := (mine.map (·.vals)).getD []
  let v : RedVal := match Map.look cur w with
    | some p => { p with val := rmwOp op size p.val x 0 }
    | none => ⟨op, size, redCanon op x⟩
  let others := k.reds.filter fun (r : RedSector) => r.sector ≠ sec
  s.setCore core { k with reds := others ++ [⟨sec, Map.put cur w v⟩] }

/-- Read-modify-write at the home (R177): the old value, and the state after the write. A cas that fails writes nothing. -/
def State.rmwHome (s : State) (self : Option (Nat × Nat × Nat)) (core : Option Nat) (pa : Nat) (op : RmwOp) (size : Nat) (x cmp : Word64) :
    State × Word64 :=
  let r := s.homeRead pa size
  let old : Word64 := BitVec.ofNat 64 (leNat r.2)
  if op = .cas && old ≠ cmp then
    ((wordsOf pa size).foldl (fun s w => match core with
      | some c => if Map.look s.regOwner w = some c then s else s.editCore c fun k => k.dropWord w
      | none => s) r.1, old)
  else (r.1.homeWrite self core pa (leBytes size (rmwOp op size old x cmp).toNat) false, old)

/-- Read-modify-write in a scratchpad. -/
def KUnit.rmw (u : KUnit) (off : Nat) (op : RmwOp) (size : Nat) (x cmp : Word64) : KUnit × Word64 :=
  let old : Word64 := BitVec.ofNat 64 (leNat (u.sbytes off size))
  if op = .cas && old ≠ cmp then (u, old) else (u.sput off (leBytes size (rmwOp op size old x cmp).toNat) false, old)

/-- The bytes a transactional load sees: buffered bytes over memory's (R186). -/
def Txn.overlay (x : Txn) (pa : Nat) (bs : List Byte) : List Byte :=
  (List.range bs.length).map fun i =>
    match Map.look x.wset ((pa + i) / 4) with
    | some (v, m) => if m.getLsbD ((pa + i) % 4) then (v >>> (8 * ((pa + i) % 4))).setWidth 8 else bs.getD i 0#8
    | none => bs.getD i 0#8

/-- Record the words a transactional load read; more than 8 dooms with CAPACITY (R186). -/
def Txn.record (x : Txn) (pa : Nat) (n : Nat) (word : Nat → Word) : Txn :=
  let r := (wordsOf pa n).foldl (fun m w => if Map.has m w then m else Map.put m w (word w)) x.rset
  if 8 < r.length then x.doom 3#4 else { x with rset := r }

/-- Buffer a transactional store; more than 4 words dooms with CAPACITY (R186). -/
def Txn.buffer (x : Txn) (pa : Nat) (bs : List Byte) : Txn :=
  let w := (List.range bs.length).foldl (fun m i =>
    let a := pa + i
    let e := (Map.look m (a / 4)).getD (0#32, 0#4)
    let sh := 8 * (a % 4)
    Map.put m (a / 4) ((e.1 &&& ~~~(0xFF#32 <<< sh)) ||| ((bs.getD i 0#8).zeroExtend 32 <<< sh), e.2 ||| (1#4 <<< (a % 4)))) x.wset
  if 4 < w.length then x.doom 3#4 else { x with wset := w }

/-- Give a load's bytes to its destination: the registers of its thread once all its bytes are read, or the codebook of a CBLD (R228), which a
CBLD issued later may have written already: then the later entries stand (R39). A failed CBLD has no parts left. -/
def State.deliver (s : State) (u : Nat) (o : Op) (i : Item) (bs : List Byte) (mtag : Bool) : State :=
  match o.dst with
  | none =>
    match o.kind with
    | .cbld k =>
      s.editUnit u fun un =>
        if un.ops.any fun p => decide (o.id < p.id) && decide (p.kind = .cbld k) && !p.items.isEmpty && p.items.all (·.done) then un
        else { un with cbs := Map.put un.cbs k (BitVec.ofNat 256 (leNat bs)) }
    | _ => s
  | some d =>
    let mine := o.items.filter fun j => j.thread = i.thread
    let s := s.editUnit u fun un => un.editOp o.id fun o =>
      { o with items := o.items.map fun j =>
          if j.thread = i.thread && j.off = i.off then { j with data := BitVec.ofNat 128 (leNat bs) } else j }
    if mine.all fun j => j.done || j.off = i.off then
      let all := mine.flatMap fun j => if j.off = i.off then bs else j.bytes
      s.editWarp u o.warp fun w => if w.live.getLsbD i.thread then d.write w i.thread all (mtag && i.ctag) else w
    else s

/-- Free bytes, for what the outside answers. -/
def State.freeBytes (s : State) (n : Nat) : State × List Byte := ({ s with freeIx := s.freeIx + n }, (span s.freeIx n).map Config.freeByte)

/-- A transaction's sets take in the page of a part. -/
def Txn.usesPage (x : Txn) (i : Item) : Txn :=
  match i.locs with
  | .phys pa _ _ va g :: _ =>
    let p := (g.base, g.size, pa - (va - g.base))
    if x.pages.contains p then x else { x with pages := p :: x.pages }
  | _ => x

/-- A transaction's buffered store pins its aperture page until the commit (R404). -/
def Txn.pinStore (x : Txn) (s : State) (o : Op) (pa : Nat) : Txn :=
  match (Map.keys s.pages).find? fun p => s.inPage p pa with
  | some p => if x.st ≠ .opened || x.pins.contains (p, o.id) then x else { x with pins := (p, o.id) :: x.pins }
  | none => x

/-- The scope at which an operation's reads acquire, wide or not at all. -/
def Op.wideAcq (o : Op) : Bool :=
  match o.kind with
  | .mem (some sc) _ => wideScope sc
  | _ => false

/-- A read of a wide acquire has returned (R291, R297), in whatever space: the core invalidates its private copies. In a transaction LDA acts as
LD (R186). -/
def State.acquired (s : State) (core : Nat) (o : Op) (i : Item) : State := if reads i.kind && o.wideAcq && !i.tx then s.selfInvalidate core false else s

/-- A load's bytes and the tag of its granule: through the private cache, or at the home for a strongly ordered page and a wide acquire (R294). -/
def State.loadPhys (s : State) (core : Nat) (home : Bool) (k : PKind) (pa n : Nat) : State × List Byte × Bool :=
  if home || k = .so then
    let r := s.freshRead core pa n
    (r.1, r.2, NSet.has r.1.tags (pa / 16))
  else s.coreRead core (k = .u) pa n

/-- The effect of one part in global memory. -/
def State.performPhys (s : State) (un : KUnit) (u : Nat) (o : Op) (i : Item) (pa : Nat) (k : PKind) : State :=
  let n := i.locs.length
  let self := some (u, o.warp, i.thread)
  let tx := s.tx u o.warp i.thread
  let setTx (s : State) (x : Txn) : State := (s.editWarp u o.warp fun w => w.setTx i.thread x)
  match i.kind with
  | .store =>
    if i.tx then setTx s (((tx.buffer pa i.bytes).usesPage i).pinStore s o pa)
    else if k = .so then s.homeWrite self (some un.core) pa i.bytes false
    else s.coreWrite self un.core (k = .u) pa i.bytes false
  | .storeCap =>
    let s := if k = .so then s.homeWrite self (some un.core) pa i.bytes i.tag else s.coreWrite self un.core (k = .u) pa i.bytes i.tag
    if i.tag then { s with tagBy := Map.put s.tagBy (pa / 16) (s.ctxOf u) } else s
  | .load =>
    let fits := i.tx && tx.st = .opened
    let r := s.loadPhys un.core (fits || o.wideAcq) k pa n
    let y := r.1.tx u o.warp i.thread
    let x := (y.record pa n fun w => BitVec.ofNat 32 (leNat (r.1.bytes (4 * w) 4))).usesPage i
    if fits && y.st = .opened then (setTx r.1 x).deliver u o i (if x.st = .opened then y.overlay pa r.2.1 else r.2.1) false
    else r.1.deliver u o i r.2.1 false
  | .loadCap =>
    let r := s.loadPhys un.core false k pa n
    r.1.deliver u o i r.2.1 r.2.2
  | .atom op =>
    let r := s.rmwHome self (some un.core) pa op n (i.data.setWidth 64) i.cmp
    r.1.deliver u o i (leBytes n r.2.toNat) false
  | .red op =>
    if k = .so then (s.rmwHome self (some un.core) pa op n (i.data.setWidth 64) 0).1
    else s.gatherRed un.core pa op n (i.data.setWidth 64)

/-- The effect of one part in a scratchpad. -/
def State.performScr (s : State) (u : Nat) (o : Op) (i : Item) (tu off : Nat) : State :=
  match s.unit? tu with
  | none => s
  | some t =>
    match i.kind with
    | .store => s.editUnit tu fun t => t.sput off i.bytes false
    | .storeCap => s.editUnit tu fun t => t.sput off i.bytes i.tag
    | .load => s.deliver u o i (t.sbytes off i.locs.length) false
    | .loadCap => s.deliver u o i (t.sbytes off i.locs.length) (NSet.has t.stags (off / 16))
    | .atom op =>
      let r := t.rmw off op i.locs.length (i.data.setWidth 64) i.cmp
      (s.editUnit tu fun _ => r.1).deliver u o i (leBytes i.locs.length r.2.toNat) false
    | .red op => s.editUnit tu fun t => (t.rmw off op i.locs.length (i.data.setWidth 64) 0).1

/-- A part whose performing reads what stands in memory: a load, an ATOM, and a RED that performs at once, as an ATOM does (R181). -/
def Item.seesMemory (i : Item) : Bool :=
  reads i.kind || (isRmw i.kind && match i.locs with
    | .phys _ k _ _ _ :: _ => k = .so
    | _ => true)

/-- A part's fate found as its bytes are reached: the cause and hint of checks 9 and 10. -/
def State.reached (s : State) (i : Item) : Option (Nat × Nat) :=
  match i.locs with
  | .phys pa _ _ _ _ :: _ =>
    match s.ringBead pa with
    | some b => some (0x18, b)
    | none => if i.seesMemory && s.poisoned pa i.locs.length then some (0x19, 0) else none
  | .scr tu off :: _ =>
    if i.seesMemory && ((s.unit? tu).map fun x => x.spoisoned off i.locs.length).getD false then some (0x19, 0) else none
  | _ => none

/-- A Doomed thread's transactional store, which is discarded (R186). -/
def State.discards (s : State) (u : Nat) (o : Op) (i : Item) : Bool :=
  i.tx && isStore i.kind && (((s.warp? u o.warp).map fun w => (w.tx i.thread).st) != some .opened)

/-- One part performs: checks 9 and 10 again, then its effect. -/
def State.performItem (s : State) (u op : Nat) (i : Item) : State :=
  match s.unit? u with
  | none => s
  | some un =>
    match un.op? op with
    | none => s
    | some o =>
      let finish (s : State) : State := s.editUnit u fun un => un.editOp o.id fun o => o.mark i
      if s.discards u o i then finish s
      else
        match s.reached i with
        | some (cause, hint) => s.editUnit u fun un => un.editOp o.id fun o => o.fail i cause hint []
        | none =>
          let s :=
            match i.locs with
            | .phys pa k _ _ _ :: _ => s.performPhys un u o i pa k
            | .scr tu off :: _ => s.performScr u o i tu off
            | .host a :: _ =>
              if reads i.kind then
                let r := s.freeBytes i.locs.length
                r.1.deliver u o i r.2 false
              else { s with out := s.out ++ (List.range i.locs.length).map fun j => Msg.hostWrite (a + j) (i.bytes.getD j 0#8) }
            | _ => s
          finish (s.acquired un.core o i)

/-- Whether an access would write: a cas only where it finds its compare value (R359). -/
def State.wouldWrite (s : State) (kind : AccKind) (pa size : Nat) (cmp : Word64) : Bool :=
  match kind with
  | .atom .cas => decide (BitVec.ofNat 64 (leNat ((s.combine pa size).bytes pa size)) = cmp)
  | k => writes k

/-- A part waits at a locked line. -/
def State.itemHeld (s : State) (u : Nat) (o : Op) (i : Item) : Bool :=
  match i.locs with
  | .phys pa _ _ _ _ :: _ => !(s.discards u o i) && s.lineBusy (some (u, o.warp, i.thread)) pa (s.wouldWrite i.kind pa i.locs.length i.cmp)
  | _ => false

/-- Whether a part goes to another module by packet. -/
def Item.peer (i : Item) : Bool := match i.locs with
  | .peer _ _ _ _ :: _ => true
  | _ => false

/-- One thread's next part of a memory operation performs (event SLICE_ACCESS), with every write of the instruction that overlaps it, if local
order and locks let them: checks 9 and 10 are made again as the bytes are reached. -/
def execSliceAccess (u op t : Nat) : Meaning := fun s =>
  .next <|
    match s.unit? u with
    | none => s
    | some un =>
      match un.op? op with
      | none => s
      | some o =>
        match o.items.find? fun i => i.thread = t && !i.done with
        | none => s
        | some i =>
          let g := o.together i
          if g.any fun i => i.peer || !(mayPerform un.ops o i) || s.redFirst un.core o i || s.itemHeld u o i then s
          else (g.foldl (fun s i => s.performItem u op i) s).settle u op

end Sys2Proof.Machine
end

