-- ==== Sys2Proof/Machine/Barrier.lean ====
section
/-! DEFINITION. Barriers (06 R191 to R200): the barrier word, its evaluation, releases, drops, and the barrier instructions. -/
namespace Sys2Proof.Machine

/-- A barrier word (Table 6.7). -/
structure BarWord where
  bal : Word
  balrld : Word
  thrrem : Nat
  threxp : Nat
  phase : BitVec 16
  inv : Bool
  doe : Bool
  mode : Nat
  valid : Bool
  deriving DecidableEq, Repr

/-- Decode a barrier word. -/
def BarWord.of (n : Nat) : BarWord :=
  ⟨BitVec.ofNat 32 (n / 2 ^ 96), BitVec.ofNat 32 (n / 2 ^ 64), field n 63 48, field n 47 32, BitVec.ofNat 16 (field n 31 16),
    field n 5 5 = 1, field n 4 4 = 1, field n 3 2, field n 1 1 = 1⟩

/-- Encode a barrier word. -/
def BarWord.bits (b : BarWord) : Nat :=
  b.bal.toNat * 2 ^ 96 + b.balrld.toNat * 2 ^ 64 + b.thrrem % 65536 * 2 ^ 48 + b.threxp % 65536 * 2 ^ 32 + b.phase.toNat * 65536
    + b.inv.toNat * 32 + b.doe.toNat * 16 + b.mode * 4 + b.valid.toNat * 2

/-- The barrier word at a scratch offset. -/
def KUnit.bar (u : KUnit) (off : Nat) : BarWord := BarWord.of (leNat (u.sbytes off 16))

/-- Write a barrier word. -/
def KUnit.putBar (u : KUnit) (off : Nat) (b : BarWord) : KUnit := u.sput off (leBytes 16 b.bits) false

/-- Whether an offset is registered (R193, R195). -/
def KUnit.registered (u : KUnit) (off : Nat) : Bool := Map.has u.bars off && (u.bar off).valid

/-- Two fragments that one release may fuse (R271). -/
def sameForFusion (x y : Frag) : Bool :=
  x.pc = y.pc && x.clause = y.clause && x.rpc = y.rpc && x.prec = y.prec && x.fmt = y.fmt && x.sfmt = y.sfmt && x.win = y.win && x.swin = y.swin

/-- Fuse a list of fragments of a warp, lowest FIDX first, wherever two agree: masks are united, the others become free (R271). -/
def fuseEqual : List (Nat × Frag) → List (Nat × Frag)
  | [] => []
  | (i, x) :: t =>
    match (fuseEqual t) with
    | rest =>
      let same := rest.filter fun p => sameForFusion x p.2
      (i, same.foldl (fun x p => { x with mask := x.mask ||| p.2.mask, actm := x.actm ||| p.2.actm, done := x.done ||| p.2.done }) x)
        :: rest.filter fun p => !(sameForFusion x p.2)

/-- Fragments that wait on a barrier. -/
def Frag.waitsOn (x : Frag) (off : Nat) : Bool :=
  x.status = .parkedBarrier && match x.wake with
    | .barrier o _ _ => o = off
    | _ => false

/-- Release one waiter: pd receives INV in its active threads, and it stands at the next word (R198). -/
def Warp.releaseFrag (w : Warp) (i : Nat) (inv : Bool) : Warp :=
  match Map.look w.frags i with
  | some x =>
    match x.wake with
    | .barrier _ _ pd =>
      let w := (threads (x.actm &&& ~~~x.done)).foldl (fun w t => w.setPred pd t inv) w
      w.editFrag i fun x => { x.nextWord 1 with status := .runnable, wake := .none }
    | _ => w
  | none => w

/-- Release some waiters of a barrier in a warp, and fuse those that agree (R271). -/
def Warp.releaseAll (w : Warp) (off : Nat) (inv : Bool) (p : Frag → Bool) : Warp :=
  let ids := (w.frags.filter fun x => x.2.waitsOn off && p x.2).map (·.1)
  let w := ids.foldl (fun w i => w.releaseFrag i inv) w
  let loose := fuseEqual (w.frags.filter fun p => ids.contains p.1)
  { w with frags := (w.frags.filter fun p => !(ids.contains p.1)) |> fun l => loose.foldl (fun m p => Map.put m p.1 p.2) l }

/-- Release waiters of a barrier of a unit; each retires its BARWAIT, which is an acquire at .cluster scope where the launch has
clusters (Table 9.3). -/
def State.releaseSome (s : State) (u off : Nat) (inv : Bool) (p : Frag → Bool) : State :=
  match s.unit? u with
  | none => s
  | some un =>
    let waiters := (Map.vals un.warps).flatMap fun w => (Map.vals w.frags).filter fun x => x.waitsOn off && p x
    let s := if 0 < un.sizeM1 && waiters ≠ [] then s.selfInvalidate un.core false else s
    let s := waiters.foldl (fun s x => s.editCore un.core fun k => k.count false (max (popCount (x.actm &&& ~~~x.done)) 1)) s
    s.editUnit u fun un => { un with warps := Map.each un.warps fun _ w => w.releaseAll off inv p }

/-- Release every waiter of a barrier; while a park request stands, a parked fragment stays parked (R337). -/
def State.releaseBar (s : State) (u off : Nat) (inv : Bool) : State :=
  match s.unit? u with
  | none => s
  | some un => if un.parkReq then s else s.releaseSome u off inv fun _ => true

/-- Evaluate a barrier after an update (R194). -/
def State.evaluate (s : State) (u off : Nat) : State :=
  match s.unit? u with
  | none => s
  | some un =>
    let b := un.bar off
    if b.valid && !b.inv && b.thrrem = 0 && b.bal = 0#32 then
      let s := s.editUnit u fun un =>
        { un.putBar off { b with phase := b.phase + 1#16, thrrem := b.threxp, bal := if b.mode = 1 then b.balrld else 0#32 } with
          bars := Map.edit un.bars off fun v => { v with arrived := 0 } }
      s.releaseBar u off false
    else s

/-- The bit of a thread in a barrier vector (R193). -/
def barBit (w t : Nat) : BitVec 1024 := 1#1024 <<< (32 * w + t)

/-- The bits of a mask of a warp. -/
def barMask (w : Nat) (m : Mask) : BitVec 1024 := m.zeroExtend 1024 <<< (32 * w)

/-- Drop threads from one barrier for this phase and later ones, with one evaluation (R199). DESIGN CHOICE (log entry 57): a count that would
fall below zero stays at zero. -/
def State.dropBar (s : State) (u off w : Nat) (m : Mask) : State :=
  match s.unit? u with
  | none => s
  | some un =>
    match Map.look un.bars off with
    | none => s
    | some v =>
      let new := m &&& ~~~((v.dropped >>> (32 * w)).setWidth 32)
      let fresh := new &&& ~~~((v.arrived >>> (32 * w)).setWidth 32)
      let b := un.bar off
      (s.editUnit u fun un =>
        { un.putBar off { b with threxp := b.threxp - popCount new, thrrem := b.thrrem - popCount fresh } with
          bars := Map.put un.bars off { v with dropped := v.dropped ||| barMask w new } }).evaluate u off

/-- Implicit drops of exiting threads, in ascending offset, of every registered barrier with DOE (R199). -/
def State.dropThreads (s : State) (u w : Nat) (m : Mask) : State :=
  match s.unit? u with
  | none => s
  | some un => (Map.keys un.bars).foldl (fun s off => if (un.bar off).doe then s.dropBar u off w m else s) s

/-- The drops of killed threads, whatever DOE says, from the barriers that were registered (R199): a drop releases the accesses before it, so each is
made once its threads' accesses have performed (R288). -/
def State.settleDrops (s : State) (u : Nat) : State :=
  match s.unit? u with
  | none => s
  | some un =>
    let due (d : DropLeft) : Bool := un.performedBy d.warp d.mask false
    match un.drops.filter due with
    | [] => s
    | ds =>
      ds.foldl (fun s d => d.offs.foldl (fun s off => s.dropBar u off d.warp d.mask) s)
        (s.editUnit u fun un => { un with drops := un.drops.filter fun d => !(due d) })

/-- Killed threads drop from every registered barrier of their unit (R199). -/
def State.dropKilled (s : State) (u w : Nat) (m : Mask) : State :=
  (s.editUnit u fun un => { un with drops := un.drops ++ [⟨w, m, Map.keys un.bars⟩] }).settleDrops u

/-! ### The instructions -/

/-- A barrier address: the unit whose barrier it is, the offset, whether it is another unit's (R191). -/
structure BarAddr where
  unit : Nat
  off : Nat
  remote : Bool
  deriving DecidableEq, Repr

/-- The checks on a barrier address, in order (R191). -/
def Ctx.barAddr (c : Ctx) (a : Word) (mayRemote : Bool) : Except Nat BarAddr :=
  let n := a.toNat
  let rem := field n 22 22 = 1
  let rank := field n 21 19
  let off := field n 18 0
  if field n 31 23 ≠ 0 then .error 0x20
  else if rem && decide (c.u.sizeM1 < rank) then .error 0x11
  else if rem && rank ≠ c.u.rank && !mayRemote then .error 0x20
  else if rem && rank ≠ c.u.rank && NSet.has c.u.rankEnded rank then .error 0x11
  else if off % 16 ≠ 0 then .error 0x14
  else if c.l.scratch < off + 16 then .error 0x13
  else if rem && rank ≠ c.u.rank then .ok ⟨(Map.look c.u.mates rank).getD c.f.unit, off, true⟩
  else .ok ⟨c.f.unit, off, false⟩

/-- Run a barrier word: nothing with no active threads, then the address checks, then its body with the unit that holds the barrier. -/
def barWord (use : List Opn) (ps : List PredReg) (words : Nat) (a : Reg) (mayRemote : Bool)
    (body : Ctx → BarAddr → KUnit → State → State) : Meaning :=
  withWord use ps fun c s =>
    if c.act = 0#32 then s.retire c words false 1
    else
      match c.barAddr (c.rd a c.low) mayRemote with
      | .error cause => s.faultWord c false words (Bad.of cause ((c.rd a c.low).zeroExtend 64) 0)
      | .ok ba =>
        match s.unit? ba.unit with
        | none => s.faultWord c false words (Bad.of 0x11 ((c.rd a c.low).zeroExtend 64) 0)
        | some un => body c ba un s

/-- Whether a fragment of the unit waits on a barrier. -/
def KUnit.hasWaiter (u : KUnit) (off : Nat) : Bool := (Map.vals u.warps).any fun w => (Map.vals w.frags).any fun x => x.waitsOn off

/-- BARINIT (R195). A drop that waits for accesses of killed threads is of the barrier as it was registered before. -/
def execBarinit (a b : Reg) : Meaning :=
  barWord [opV a, opP b] [] 1 a false fun c ba un s =>
    let v := c.rd b c.low
    let exp := field v.toNat 15 0
    let mode := field v.toNat 17 16
    let addr := (c.rd a c.low).zeroExtend 64
    let rld := (c.rdP b c.low >>> 32).setWidth 32
    if field v.toNat 31 19 ≠ 0 || exp = 0 || decide (8192 < exp) || decide (1 < mode) then s.faultActive c 0x20 addr
    else if un.hasWaiter ba.off then s.faultActive c 0x21 addr
    else if !(Map.has un.bars ba.off) && decide (16 ≤ un.bars.length) then s.faultActive c 0x20 addr
    else
      (s.editUnit ba.unit fun un =>
        { un.putBar ba.off ⟨if mode = 1 then rld else 0#32, rld, exp, exp, 0#16, false, field v.toNat 18 18 = 1, mode, true⟩ with
          bars := Map.put un.bars ba.off ⟨0, 0⟩
          drops := un.drops.map fun d => { d with offs := d.offs.filter (· ≠ ba.off) } }).finish c 1

/-- BARARR (R196): y bytes expected with the arrival. -/
def bararrWord (use : List Opn) (words : Nat) (d a : Reg) (srcs : Ctx → List RTag) (y : Ctx → Word) : Meaning :=
  barWord use [] words a true fun c ba un s =>
    let b := un.bar ba.off
    let addr := (c.rd a c.low).zeroExtend 64
    let n := popCount c.act
    let bad (s : State) : State := s.faultWord c false words (Bad.of 0x20 addr 0)
    let wr (s : State) : State :=
      (s.editWarp c.f.unit c.f.warp fun w =>
        w.putOuts (c.fullTag (tagAll (srcs c))) c.act fun _ => .ofRegs (c.wr d (b.phase.zeroExtend 32))).finish c words
    if !(un.registered ba.off) then bad s
    else s.whenReady c [.performed c.act false] fun s =>
      if b.inv then wr s
      else
      match Map.look un.bars ba.off with
      | none => bad s
      | some v =>
        if !ba.remote && (v.arrived ||| v.dropped) &&& barMask c.f.warp c.act ≠ 0 then bad s
        else if b.thrrem < n then bad s
        else
          let s := s.editUnit ba.unit fun un =>
            { un.putBar ba.off { b with thrrem := b.thrrem - n, bal := b.bal + y c } with
              bars := if ba.remote then un.bars else Map.put un.bars ba.off { v with arrived := v.arrived ||| barMask c.f.warp c.act } }
          wr (s.evaluate ba.unit ba.off)

def execBararr (d a b : Reg) : Meaning := bararrWord [opV d, opV a, opV b] 1 d a (fun c => [c.tagV a, c.tagV b]) fun c => c.rd b c.low
def execBararrNobytes (d a : Reg) : Meaning := bararrWord [opV d, opV a] 1 d a (fun c => [c.tagV a]) fun _ => 0#32
def execBararrLit (d a : Reg) (lit : Word) : Meaning := bararrWord [opV d, opV a] 2 d a (fun c => [c.tagV a]) fun _ => lit

/-- Whether a barrier has passed a token, or is invalidated (R198). -/
def BarWord.passed (b : BarWord) (tok : BitVec 16) : Bool := b.phase ≠ tok || b.inv

/-- The acquire of a barrier's return is at .cluster scope where the launch has clusters (Table 9.3). -/
def State.barAcquire (s : State) (c : Ctx) : State := if 0 < c.u.sizeM1 then s.selfInvalidate c.u.core false else s

/-- Write a predicate in the active threads and retire. -/
def State.predAll (s : State) (c : Ctx) (pd : PredReg) (v : Bool) : State :=
  (s.editWarp c.f.unit c.f.warp fun w => w.putOuts .general c.act fun _ => .ofPred pd v).finish c 1

/-- BARWAIT (R198). -/
def execBarwait (d : PredReg) (a b : Reg) : Meaning :=
  barWord [opV a, opV b] [d] 1 a false fun c ba un s =>
    let w := un.bar ba.off
    let tok : BitVec 16 := (c.rd b c.low).setWidth 16
    if !(un.registered ba.off) then s.faultActive c 0x20 ((c.rd a c.low).zeroExtend 64)
    else if w.passed tok then (s.barAcquire c).predAll c d w.inv
    else s.parkBlocking c (.barrier ba.off tok d)

/-- BARTST (R198). -/
def execBartst (d : PredReg) (a b : Reg) : Meaning :=
  barWord [opV a, opV b] [d] 1 a false fun c ba un s =>
    let w := un.bar ba.off
    if !(un.registered ba.off) then s.faultActive c 0x20 ((c.rd a c.low).zeroExtend 64)
    else
      let v := w.passed ((c.rd b c.low).setWidth 16)
      (if v then s.barAcquire c else s).predAll c d v

/-- BARDROP (R199). -/
def execBardrop (a : Reg) : Meaning :=
  barWord [opV a] [] 1 a false fun c ba un s =>
    if !(un.registered ba.off) then s.faultActive c 0x20 ((c.rd a c.low).zeroExtend 64)
    else s.whenReady c [.performed c.act false] fun s => (s.dropBar ba.unit ba.off c.f.warp c.act).finish c 1

/-- BARINV (R200): waiters are released with pd true; `.free` also frees the entry. -/
def barinvWord (free : Bool) (a : Reg) : Meaning :=
  barWord [opV a] [] 1 a false fun c ba un s =>
    if !(un.registered ba.off) then s.faultActive c 0x20 ((c.rd a c.low).zeroExtend 64)
    else
      let b := un.bar ba.off
      let s := s.editUnit ba.unit fun un =>
        { un.putBar ba.off { b with inv := true, valid := !free } with bars := if free then Map.del un.bars ba.off else un.bars }
      (s.releaseBar ba.unit ba.off true).finish c 1

def execBarinv (a : Reg) : Meaning := barinvWord false a
def execBarinvFree (a : Reg) : Meaning := barinvWord true a

/-- BAREXP (R197). -/
def barexpWord (use : List Opn) (words : Nat) (a : Reg) (y : Ctx → Word) : Meaning :=
  barWord use [] words a true fun c ba un s =>
    let b := un.bar ba.off
    if !(un.registered ba.off) then s.faultWord c false words (Bad.of 0x20 ((c.rd a c.low).zeroExtend 64) 0)
    else if b.inv then s.finish c words
    else ((s.editUnit ba.unit fun un => un.putBar ba.off { b with bal := b.bal + y c }).evaluate ba.unit ba.off).finish c words

def execBarexp (a b : Reg) : Meaning := barexpWord [opV a, opV b] 1 a fun c => c.rd b c.low
def execBarexpLit (a : Reg) (lit : Word) : Meaning := barexpWord [opV a] 2 a fun _ => lit

/-- A discarded completion is counted in CORE_STRAY of the issuing unit's core (R197). -/
def State.stray (s : State) (core : Nat) : State :=
  s.editCore core fun k => { k with stray := if k.stray = 0xFFFFFFFF#32 then k.stray else k.stray + 1#32 }

/-- A copy completion of `n` bytes aimed at a barrier of a unit (R197, R231). -/
def State.postBar (s : State) (core : Nat) (u : Option Nat) (off n : Nat) : State :=
  match u.bind s.unit? with
  | none => s.stray core
  | some un =>
    let b := un.bar off
    if !(un.registered off) || b.inv then s.stray core
    else
      ((s.editUnit (u.getD 0) fun un => un.putBar off { b with bal := b.bal - BitVec.ofNat 32 n }).evaluate (u.getD 0) off)

end Sys2Proof.Machine
end

