-- ==== Sys2Proof/Machine/LoadStore.lean ====
section
/-! DEFINITION. Memory instructions: loads, stores, capability moves, line operations (05 R163 to R173), atomics and update-only reductions
(06 R174 to R182). -/
namespace Sys2Proof.Machine

/-- A load of n bytes (R167). -/
def loadIns (size : Nat) (sext : Bool) (d : Reg) (mr : MemRef) : MemIns :=
  { want := { size := size, need := 1, kind := .load, align := false, order := false, spaces := allSpaces }, reg := d
    regs := if size = 8 then 2 else 1, ral := if size = 8 then 2 else 1, acq := none, rel := none, sext := sext, mr := mr }

/-- An acquiring load (R166, R169). -/
def ldaIns (size : Nat) (sc : Scope) (d : Reg) (mr : MemRef) : MemIns :=
  { loadIns size false d mr with
    want := { size := size, need := 1, kind := .load, align := true, order := true, spaces := allSpaces }, acq := some sc }

/-- A store of n bytes (R167). -/
def storeIns (size : Nat) (d : Reg) (mr : MemRef) : MemIns :=
  { want := { size := size, need := 2, kind := .store, align := false, order := false, spaces := allSpaces }, reg := d
    regs := if size = 8 then 2 else 1, ral := if size = 8 then 2 else 1, acq := none, rel := none, sext := false, mr := mr }

/-- A releasing store (R166, R169). -/
def stlIns (size : Nat) (sc : Scope) (d : Reg) (mr : MemRef) : MemIns :=
  { storeIns size d mr with
    want := { size := size, need := 2, kind := .store, align := true, order := true, spaces := allSpaces }, rel := some sc }

/-- LDC (R168). -/
def ldcIns (d : Reg) (mr : MemRef) : MemIns :=
  { want := { size := 16, need := 1, kind := .loadCap, align := true, order := false, spaces := allSpaces }, reg := d, regs := 4, ral := 4
    acq := none, rel := none, sext := false, mr := mr }

/-- STC (R168). -/
def stcIns (d : Reg) (mr : MemRef) : MemIns :=
  { want := { size := 16, need := 2, kind := .storeCap, align := true, order := false, spaces := allSpaces }, reg := d, regs := 4, ral := 4
    acq := none, rel := none, sext := false, mr := mr }

/-- The scope of an ordered atomic; scope 0 is relaxed (R178). -/
def rmwScope : Scope → Option Scope
  | .thread => none
  | sc => some sc

/-- ATOM (R175 to R178): cas takes the compare value and the new value from consecutive registers. -/
def atomIns (op : RmwOp) (size : Nat) (sc : Scope) (d : Reg) (mr : MemRef) : MemIns :=
  let n := (if op = .cas then 2 else 1) * (size / 4)
  { want := { size := size, need := 7, kind := .atom op, align := true, order := decide (sc ≠ .thread), spaces := [0, 1, 2, 3] }, reg := d
    regs := n, ral := n, acq := rmwScope sc, rel := rmwScope sc, sext := false, mr := mr }

/-- RED (R175 to R178). -/
def redIns (op : RmwOp) (size : Nat) (sc : Scope) (d : Reg) (mr : MemRef) : MemIns :=
  { want := { size := size, need := 6, kind := .red op, align := true, order := decide (sc ≠ .thread), spaces := [0, 1, 2, 3] }, reg := d
    regs := size / 4, ral := size / 4, acq := none, rel := rmwScope sc, sext := false, mr := mr }

def execLdN8 (d : Reg) (mr : MemRef) : Meaning := (loadIns 1 false d mr).run
def execLdI8 (d : Reg) (mr : MemRef) : Meaning := (loadIns 1 true d mr).run
def execLdN16 (d : Reg) (mr : MemRef) : Meaning := (loadIns 2 false d mr).run
def execLdI16 (d : Reg) (mr : MemRef) : Meaning := (loadIns 2 true d mr).run
def execLdN32 (d : Reg) (mr : MemRef) : Meaning := (loadIns 4 false d mr).run
def execLdN64 (d : Reg) (mr : MemRef) : Meaning := (loadIns 8 false d mr).run
def execLdaN32 (sc : Scope) (d : Reg) (mr : MemRef) : Meaning := (ldaIns 4 sc d mr).run
def execLdaN64 (sc : Scope) (d : Reg) (mr : MemRef) : Meaning := (ldaIns 8 sc d mr).run
def execStN8 (d : Reg) (mr : MemRef) : Meaning := (storeIns 1 d mr).run
def execStN16 (d : Reg) (mr : MemRef) : Meaning := (storeIns 2 d mr).run
def execStN32 (d : Reg) (mr : MemRef) : Meaning := (storeIns 4 d mr).run
def execStN64 (d : Reg) (mr : MemRef) : Meaning := (storeIns 8 d mr).run
def execStlN32 (sc : Scope) (d : Reg) (mr : MemRef) : Meaning := (stlIns 4 sc d mr).run
def execStlN64 (sc : Scope) (d : Reg) (mr : MemRef) : Meaning := (stlIns 8 sc d mr).run
def execLdc (d : Reg) (mr : MemRef) : Meaning := (ldcIns d mr).run
def execStc (d : Reg) (mr : MemRef) : Meaning := (stcIns d mr).run

def execAtomAddN32 (sc : Scope) (d : Reg) (mr : MemRef) : Meaning := (atomIns .addN 4 sc d mr).run
def execAtomAddN64 (sc : Scope) (d : Reg) (mr : MemRef) : Meaning := (atomIns .addN 8 sc d mr).run
def execAtomAddF32 (sc : Scope) (d : Reg) (mr : MemRef) : Meaning := (atomIns .addF 4 sc d mr).run
def execAtomMinI32 (sc : Scope) (d : Reg) (mr : MemRef) : Meaning := (atomIns .minI 4 sc d mr).run
def execAtomMinN32 (sc : Scope) (d : Reg) (mr : MemRef) : Meaning := (atomIns .minN 4 sc d mr).run
def execAtomMinI64 (sc : Scope) (d : Reg) (mr : MemRef) : Meaning := (atomIns .minI 8 sc d mr).run
def execAtomMinN64 (sc : Scope) (d : Reg) (mr : MemRef) : Meaning := (atomIns .minN 8 sc d mr).run
def execAtomMaxI32 (sc : Scope) (d : Reg) (mr : MemRef) : Meaning := (atomIns .maxI 4 sc d mr).run
def execAtomMaxN32 (sc : Scope) (d : Reg) (mr : MemRef) : Meaning := (atomIns .maxN 4 sc d mr).run
def execAtomMaxI64 (sc : Scope) (d : Reg) (mr : MemRef) : Meaning := (atomIns .maxI 8 sc d mr).run
def execAtomMaxN64 (sc : Scope) (d : Reg) (mr : MemRef) : Meaning := (atomIns .maxN 8 sc d mr).run
def execAtomAndN32 (sc : Scope) (d : Reg) (mr : MemRef) : Meaning := (atomIns .andB 4 sc d mr).run
def execAtomAndN64 (sc : Scope) (d : Reg) (mr : MemRef) : Meaning := (atomIns .andB 8 sc d mr).run
def execAtomOrN32 (sc : Scope) (d : Reg) (mr : MemRef) : Meaning := (atomIns .orB 4 sc d mr).run
def execAtomOrN64 (sc : Scope) (d : Reg) (mr : MemRef) : Meaning := (atomIns .orB 8 sc d mr).run
def execAtomXorN32 (sc : Scope) (d : Reg) (mr : MemRef) : Meaning := (atomIns .xorB 4 sc d mr).run
def execAtomXorN64 (sc : Scope) (d : Reg) (mr : MemRef) : Meaning := (atomIns .xorB 8 sc d mr).run
def execAtomExchN32 (sc : Scope) (d : Reg) (mr : MemRef) : Meaning := (atomIns .exch 4 sc d mr).run
def execAtomExchN64 (sc : Scope) (d : Reg) (mr : MemRef) : Meaning := (atomIns .exch 8 sc d mr).run
def execAtomCasN32 (sc : Scope) (d : Reg) (mr : MemRef) : Meaning := (atomIns .cas 4 sc d mr).run
def execAtomCasN64 (sc : Scope) (d : Reg) (mr : MemRef) : Meaning := (atomIns .cas 8 sc d mr).run

def execRedAddN32 (sc : Scope) (d : Reg) (mr : MemRef) : Meaning := (redIns .addN 4 sc d mr).run
def execRedAddN64 (sc : Scope) (d : Reg) (mr : MemRef) : Meaning := (redIns .addN 8 sc d mr).run
def execRedAddF32 (sc : Scope) (d : Reg) (mr : MemRef) : Meaning := (redIns .addF 4 sc d mr).run
def execRedMinI32 (sc : Scope) (d : Reg) (mr : MemRef) : Meaning := (redIns .minI 4 sc d mr).run
def execRedMinN32 (sc : Scope) (d : Reg) (mr : MemRef) : Meaning := (redIns .minN 4 sc d mr).run
def execRedMinI64 (sc : Scope) (d : Reg) (mr : MemRef) : Meaning := (redIns .minI 8 sc d mr).run
def execRedMinN64 (sc : Scope) (d : Reg) (mr : MemRef) : Meaning := (redIns .minN 8 sc d mr).run
def execRedMaxI32 (sc : Scope) (d : Reg) (mr : MemRef) : Meaning := (redIns .maxI 4 sc d mr).run
def execRedMaxN32 (sc : Scope) (d : Reg) (mr : MemRef) : Meaning := (redIns .maxN 4 sc d mr).run
def execRedMaxI64 (sc : Scope) (d : Reg) (mr : MemRef) : Meaning := (redIns .maxI 8 sc d mr).run
def execRedMaxN64 (sc : Scope) (d : Reg) (mr : MemRef) : Meaning := (redIns .maxN 8 sc d mr).run
def execRedAndN32 (sc : Scope) (d : Reg) (mr : MemRef) : Meaning := (redIns .andB 4 sc d mr).run
def execRedAndN64 (sc : Scope) (d : Reg) (mr : MemRef) : Meaning := (redIns .andB 8 sc d mr).run
def execRedOrN32 (sc : Scope) (d : Reg) (mr : MemRef) : Meaning := (redIns .orB 4 sc d mr).run
def execRedOrN64 (sc : Scope) (d : Reg) (mr : MemRef) : Meaning := (redIns .orB 8 sc d mr).run
def execRedXorN32 (sc : Scope) (d : Reg) (mr : MemRef) : Meaning := (redIns .xorB 4 sc d mr).run
def execRedXorN64 (sc : Scope) (d : Reg) (mr : MemRef) : Meaning := (redIns .xorB 8 sc d mr).run

/-- A line operation's access: one byte at A, no alignment (R164). -/
def lineWant (need : Nat) : Want := { size := 1, need := need, kind := .load, align := false, order := false, spaces := allSpaces }

/-- Check every active thread of a line operation. -/
def lineAll (need : Nat) (mr : MemRef) (c : Ctx) : State → List Nat → State × List (Nat × Except Bad (List Item))
  | s, [] => (s, [])
  | s, t :: ts =>
    let a := c.addr mr t
    let r := c.check s (lineWant need) (c.rdC mr.c t) (c.capTag mr.c t) false a
    let x : Except Bad (List Item) := match r.2 with
      | .error b => .error b
      | .ok l => .ok ((itemsOf (lineWant need) t a l 0 0 false false false).map fun i => { i with done := true })
    let q := lineAll need mr c r.1 ts
    (q.1, (t, x) :: q.2)

/-- Issue a line operation; the line is reached when the operation completes. With no thread left the word passes. -/
def lineGo (kind : OpKind) (dooms : Bool) (words : Nat) (l : List (Nat × Except Bad (List Item))) (c : Ctx) (s : State) : State :=
  if c.act = 0#32 then s.skipLl c words
  else
  let s := if dooms then s.accessDoom c c.act else s
  (s.issue c (some .ls) c.act kind (itemsIn c.act l) none none).retire c words false c.beats

/-- PREF (R173): a thread that fails a check is dropped, and no check faults. -/
def execPref (l2 : Bool) (mr : MemRef) : Meaning :=
  withWord (memOpn mr) [] fun c s =>
    if c.act = 0#32 then s.skipLl c (memWords mr)
    else s.whenReady c c.lsNeeds fun s =>
      let r := lineAll 0 mr c s (threads c.act)
      lineGo (.pref l2) false (memWords mr) r.2 c r.1

/-- CWB and CINV (R164, R173). -/
def lineWord (kind : OpKind) (mr : MemRef) : Meaning :=
  withWord (memOpn mr) [] fun c s =>
    if c.act = 0#32 then s.skipLl c (memWords mr)
    else s.whenReady c c.lsNeeds fun s =>
      let r := lineAll 1 mr c s (threads c.act)
      match badsOf c.act r.2 with
      | [] => lineGo kind true (memWords mr) r.2 c r.1
      | bads => r.1.guarded c bads (lineGo kind true (memWords mr) r.2)

def execCwb (dev : Bool) (mr : MemRef) : Meaning := lineWord (.cwb dev) mr
def execCinv (mr : MemRef) : Meaning := lineWord .cinv mr

/-- The lines that a line operation's threads named in global memory. -/
def Op.lines (o : Op) : List (Nat × PKind) :=
  o.items.filterMap fun i => i.pa.bind fun p => if p.2.1 = .so then none else some (p.1 / 64, p.2.1)

/-- PREF fills the core's private cache at its level 0 (R173); it may also do nothing. -/
def State.prefetch (s : State) (core : Nat) (o : Op) : State :=
  o.lines.foldl (fun s l => (s.coreRead core (l.2 = .u) (64 * l.1) 64).1) s

/-- CWB ends the core's registration of the line's words, whose latest values then stand at the slice (R173). -/
def State.writeBack (s : State) (core : Nat) (lines : List Nat) : State :=
  lines.foldl (fun s l => (span (16 * l) 16).foldl (fun s w =>
    if Map.look s.regOwner w = some core then s.unregister w false else s) s) s

/-- CINV writes registered words back and discards the core's copy of the line (R173). -/
def State.invalidateLines (s : State) (core : Nat) (lines : List Nat) : State :=
  (s.writeBack core lines).editCore core fun k => { k with copies := k.copies.filter fun p => !(lines.contains (p.1 / 16)) }

end Sys2Proof.Machine
end

