-- ==== Sys2Proof/Machine/Control.lean ====
section
/-! DEFINITION. Control (05 R136 to R151), divergence, fusion and issue (08): branches, JOIN, EXIT, traps, window and format, special registers,
waits; the clause start, the wake and the freeing of fragments. -/
namespace Sys2Proof.Machine

/-! ### The text (R40, R46, R68) -/

/-- `n` bytes at a virtual address of a context, as a die's agents fetch text and structures that a launch names. -/
def State.vbytes (s : State) (die ctx va n : Nat) : Option (List Byte) :=
  (span va n).mapM fun a => match s.leafOf die ctx a with
    | .ok l => if s.poisoned (l.pa a) 1 then none else some ((s.combine (l.pa a) 1).byte (l.pa a))
    | .error _ => none

/-- The four bytes of a word of the text; they lie in one page. -/
def State.textBytes (s : State) (die : Nat) (l : Launch) (pc : Nat) : Option (List Byte) :=
  match s.leafOf die l.ctx (l.text + pc) with
  | .ok f => if s.poisoned (f.pa (l.text + pc)) 4 then none else some ((s.combine (f.pa (l.text + pc)) 4).bytes (f.pa (l.text + pc)) 4)
  | .error _ => none

/-- A word of the text. -/
def State.textWord (s : State) (die : Nat) (l : Launch) (pc : Nat) : Option Nat := (s.textBytes die l pc).map leNat

/-- Whether a code address is a clause header of the text (R68, R136). DESIGN CHOICE (log entry 39): a byte of the clause map that does not
translate or is poisoned counts as clear, so the threads get *clause frame fault*. -/
def State.headerAt (s : State) (die : Nat) (l : Launch) (a : Nat) : Bool :=
  a % 4 = 0 && decide (a < l.tsize) &&
    match s.vbytes die l.ctx (l.cmap + a / 32) 1 with
    | some [b] => b.getLsbD (a / 4 % 8)
    | _ => false

/-- The header after the fragment's clause (R138). -/
def Frag.after (x : Frag) : Nat :=
  match x.clause with
  | some k => k.hdr + 4 * (k.len + 1)
  | none => x.pc + 4

/-- Stand at a clause header (Table 8.2). -/
def Frag.at (x : Frag) (a : Nat) : Frag := { x with pc := a, clause := none, actm := 0#32, done := 0#32, lane := false }

/-! ### Split records (R266) -/

/-- A record is in use while an entry's or another record's PREC names it. -/
def Warp.recUsed (w : Warp) (r : Nat) : Bool :=
  (Map.vals w.frags).any (fun x => x.prec.toNat = r) || w.splits.any fun p => p.1 ≠ r && p.2.prec.toNat = r

/-- Release the records that became free: nested records unwind one by one. -/
def Warp.gcSplits (w : Warp) : Warp :=
  (List.range 16).foldl (fun w _ => { w with splits := w.splits.filter fun p => w.recUsed p.1 }) w

/-- The lowest free record. -/
def Warp.freeRec (w : Warp) : Option Nat := leastBelow 16 fun i => !(Map.has w.splits i)

/-! ### Transfers (R138, R139, R269) -/

/-- The parts of a divergent split: next address and threads, in ascending order of lowest thread. -/
def partsOf (m : Mask) (next : Nat → Nat) : List (Nat × Mask) :=
  (threads m).foldl (fun l t =>
    if l.any (fun p => p.1 = next t) then l.map fun p => if p.1 = next t then (p.1, p.2 ||| bit t) else p
    else l ++ [(next t, bit t)]) []

/-- Give each part of a split a fragment: the first keeps the entry, the others take the lowest free FIDX (R264, R269). -/
def Warp.spread (w : Warp) (base : Frag) : List (Nat × Mask) → Warp
  | [] => w
  | (a, m) :: t => ({ w with frags := Map.put w.frags w.freeFidx { base.at a with mask := m } } : Warp).spread base t

/-- Divide a fragment by where its threads go (R139, R269). -/
def Warp.diverge (w : Warp) (i : Nat) (x : Frag) (parts : List (Nat × Mask)) (r : Nat) : Warp :=
  match parts with
  | [] => w
  | (a, m) :: t =>
    let base : Frag :=
      { x with rpc := BitVec.ofNat 32 x.after, sfmt := x.fmt, swin := x.win, prec := BitVec.ofNat 5 r, status := .runnable, wake := .none }
    ({ w with
        splits := Map.put w.splits r ⟨x.rpc, x.sfmt, x.swin, x.prec⟩
        frags := Map.put w.frags i { base.at a with mask := m } } : Warp).spread base t

/-- A control transfer: `target` gives each active thread's address; it is checked against the clause map (R136, R45); `link` is written in
the threads that pass (R138), with the tag that the registers read give it (Table 1.1). DESIGN CHOICE (log entry 48): where a word both faults and
diverges, the faulting parts take their FIDX before the divergent ones. -/
def transfer (use : List Opn) (link : Option Reg) (srcs : Ctx → List RTag) (target : Ctx → Nat → Nat) : Meaning :=
  withWord use [] fun c s =>
    let bads := groupBads c.act fun t => if s.headerAt (dieOf c.u.core) c.l (target c t) then none else some (Bad.of 0x03 0 0)
    let failed := bads.foldl (fun m b => m ||| b.mask) 0#32
    let f := c.fr.after
    let stay := c.fr.mask &&& ~~~failed
    let next (t : Nat) : Nat := if c.act.getLsbD t then target c t else f
    let parts := partsOf stay next
    let need := (if stay = 0#32 then bads.length - 1 else bads.length) + (parts.length - 1)
    if need ≠ 0 && (s.refuses c.f need || (decide (1 < parts.length) && c.w.freeRec = none)) then s.refuseSplit c.u.core c.f c.fr
    else
      s.guarded c bads fun c s =>
        let s := s.editWarp c.f.unit c.f.warp fun w => match link with
          | none => w
          | some d => w.putOuts (c.fullTag (tagAll (srcs c))) c.act
              fun _ => .ofRegs (c.wr d (BitVec.ofNat 32 f))
        let s := s.editCore c.u.core fun k => k.count false c.beats
        match parts with
        | [(a, _)] => s.editFrag c.f fun x => x.at a
        | _ => s.editWarp c.f.unit c.f.warp fun w => w.diverge c.f.fidx c.fr parts ((w.freeRec).getD 16)

/-- The header of the clause in progress. -/
def Ctx.hdr (c : Ctx) : Nat := (c.fr.clause.map (·.hdr)).getD c.fr.pc

/-- H + 4 × sext(off23) (R45). -/
def Ctx.branch (c : Ctx) (off : BitVec 23) : Nat := (((c.hdr : Int) + 4 * off.toInt) % 2 ^ 32).toNat

def execBra (off : BitVec 23) : Meaning := transfer [] none (fun _ => []) fun c _ => c.branch off
def execCall (off : BitVec 23) : Meaning := transfer [opV 15#7] (some 15#7) (fun _ => []) fun c _ => c.branch off
def execBrx (a : Reg) : Meaning := transfer [opV a] none (fun _ => []) fun c t => (c.rd a t).toNat
def execCallx (d a : Reg) : Meaning := transfer [opV d, opV a] (some d) (fun c => [c.tagV a]) fun c t => (c.rd a t).toNat
def execRet (a : Reg) : Meaning := transfer [opV a] none (fun _ => []) fun c t => (c.rd a t).toNat

/-! ### JOIN and EXIT (R141, R142, R270, R272) -/

/-- No reconvergence PC (R263). -/
def noRpc : Word := 0xFFFFFFFF#32

/-- The JOIN set of a fragment: the other live fragments of its warp with its reconvergence PC. -/
def Warp.joinSet (w : Warp) (i : Nat) (x : Frag) : List (Nat × Frag) :=
  w.frags.filter fun p => p.1 ≠ i && p.2.status ≠ .dead && p.2.rpc = x.rpc

/-- The values that fusion at JOIN gives the survivor (R270). -/
def Warp.reconverge (w : Warp) (x : Frag) : Frag :=
  if x.rpc = noRpc then x
  else
    match Map.look w.splits x.prec.toNat with
    | some r => { x with fmt := x.sfmt, win := x.swin, rpc := r.rpc, sfmt := r.sfmt, swin := r.swin, prec := r.prec }
    | none => { x with fmt := x.sfmt, win := x.swin }

/-- Whether a fragment is parked by a JOIN. -/
def Frag.joining (x : Frag) : Bool := x.status = .parkedWait && x.wake = .join

/-- JOIN (R141): a blocking point where it waits. Once the gang is asked to park the fragment parks before its JOIN, which is then tried again
(R337, R340). -/
def execJoin : Meaning :=
  withWord [] [] fun c s =>
    let n (s : State) : State := s.editCore c.u.core fun k => k.count false c.beats
    let x := c.fr.at c.fr.after
    match c.w.joinSet c.f.fidx c.fr with
    | [] => (n s).editWarp c.f.unit c.f.warp fun w => ({ w with frags := Map.put w.frags c.f.fidx (w.reconverge x) } : Warp).gcSplits
    | _ =>
      if c.u.parkReq then s.parkBlocking c .join
      else
        ((n s).soloStops c.f c.fr.mask).editWarp c.f.unit c.f.warp fun w =>
          { w with frags := Map.put w.frags c.f.fidx { x with status := .parkedWait, wake := .join } }

/-- The fragments of a list fuse into the lowest FIDX, which stands as R270 says. -/
def Warp.fuseGroup (w : Warp) (group : List (Nat × Frag)) : Warp :=
  match group with
  | [] => w
  | (k, y) :: rest =>
    let y := { w.reconverge y with
      mask := rest.foldl (fun m p => m ||| p.2.mask) y.mask, status := .runnable, wake := .none, lane := false }
    { w with frags := Map.put (w.frags.filter fun p => !(rest.any fun q => q.1 = p.1)) k y }

/-- Fuse the JOIN set of a fragment parked by JOIN, when no member stands outside a JOIN: every group of one F fuses and goes on (R141, R270). -/
def Warp.joinFuse (w : Warp) (i : Nat) : Warp :=
  match Map.look w.frags i with
  | none => w
  | some x =>
    if !x.joining || (w.joinSet i x).any (fun p => !p.2.joining) then w
    else
      let all := w.frags.filter fun p => p.2.joining && p.2.rpc = x.rpc
      let pcs := all.foldl (fun l p => if l.contains p.2.pc then l else l ++ [p.2.pc]) []
      (pcs.foldl (fun w pc => w.fuseGroup (all.filter fun p => p.2.pc = pc)) w).gcSplits

/-- ACCWIN of a fragment (Table 1.15). -/
def Frag.accwin (x : Frag) : Nat := x.fmt.toNat / 256

/-- The accumulator window lies within the allotment (R36). -/
def Ctx.accOk (c : Ctx) : Bool := decide (32 * c.fr.accwin + 32 ≤ c.l.acc)

/-- An accumulator row of a unit. -/
def KUnit.row (u : KUnit) (i : Nat) : AccRow := Map.lookD u.acc i AccRow.zero

/-- Write an accumulator row. -/
def KUnit.putRow (u : KUnit) (i : Nat) (r : AccRow) : KUnit := { u with acc := Map.putD u.acc i r AccRow.zero }

/-- A transaction discarded: the state is Idle and the sets are empty (Table 6.3, last row). -/
def Txn.discard (x : Txn) : Txn :=
  if x.st = .idle then x else { x with st := .idle, rset := [], wset := [], pages := [], pins := [], snapRow := none, snapMx := 0, snapFlags := 0, held := 0 }

/-- Discard a thread's transaction, where it has one: the grant is released, and its exceptions are as R94 restores them after an abort. -/
def State.discardTx (s : State) (u w t : Nat) : State :=
  match s.warp? u w with
  | none => s
  | some wp =>
    let x := wp.tx t
    let s := s.releaseSolo u w t
    let s := match x.st, x.snapRow with
      | .idle, _ => s
      | _, some r => s.editUnit u fun un => un.putRow r { un.row r with mxexc := x.snapMx }
      | _, none => s
    s.editWarp u w fun wp => (if x.st = .idle then wp else wp.setFlags t x.snapFlags).setTx t x.discard

/-- End the threads of a mask: transactions discarded, the solitary grant released. -/
def State.endThreads (s : State) (u w : Nat) (m : Mask) : State := (threads m).foldl (fun s t => s.discardTx u w t) s

/-- Whether some registered barrier of the unit has drop-on-exit set. -/
def KUnit.anyDoe (u : KUnit) : Bool := (Map.keys u.bars).any fun off => (u.bar off).doe

/-- A word that restores %mxexc of a thread's transaction waits for engine operations on the row (R94). -/
def Ctx.snapNeeds (c : Ctx) : List Need :=
  (threads c.act).filterMap fun t => if (c.w.tx t).st = .idle then none else (c.w.tx t).snapRow.map fun r => .rows (r / 32) c.act

/-- A warp whose every fragment is dead or free has ended, and its split records are released (R272). -/
def Warp.ended (w : Warp) : Bool := (Map.vals w.frags).all fun x => x.status = .dead

/-- Release the split records of a warp that has ended. -/
def Warp.settle (w : Warp) : Warp := if w.ended then { w with splits := [] } else w

/-- TABORT in a thread (Table 6.3). -/
def Txn.abort (x : Txn) (n : BitVec 8) : Txn :=
  match x.st with
  | .idle => { x with code := 9 }
  | .opened => { x.doom 4#4 with user := n }
  | .doomed => x

/-- EXIT (R142, R272): an open transaction is aborted as TABORT does, with USER 0, and discarded; the drops on drop-on-exit barriers are
releases, so they wait for what a release waits for. -/
def execExit : Meaning :=
  withWord [] [] fun c s =>
    if c.act = 0#32 then (s.editCore c.u.core fun k => k.count false 1).editFrag c.f fun x => x.at x.after
    else s.whenReady c (.tend c.act :: c.snapNeeds ++ if c.u.anyDoe then [.performed c.act false] else []) fun s =>
      let s := s.editCore c.u.core fun k => k.count false c.beats
      let s := s.editWarp c.f.unit c.f.warp fun w =>
        (threads c.act).foldl (fun w t => if (w.tx t).st = .idle then w else w.setTx t ((w.tx t).abort 0)) w
      let s := s.endThreads c.f.unit c.f.warp c.act
      let s := s.editWarp c.f.unit c.f.warp fun w => { w with exited := w.exited ||| c.act }
      let s := s.editFrag c.f fun x =>
        if x.mask &&& ~~~c.act = 0#32 then
          { x with status := .dead, wake := .none, clause := none, actm := 0#32, done := 0#32, lane := false }
        else { x.at x.after with mask := x.mask &&& ~~~c.act }
      (s.editWarp c.f.unit c.f.warp Warp.settle).dropThreads c.f.unit c.f.warp c.act

/-! ### YIELD, NOP, traps (R143 to R145) -/

/-- YIELD (R143): a blocking point; with a park request it parks and resumes at the next word. -/
def execYield : Meaning :=
  withWord [] [] fun c s =>
    let s := s.soloStops c.f c.fr.mask
    let s := (s.editWarp c.f.unit c.f.warp fun w => { w with lastYield := true }).retire c 1 false c.beats
    if c.u.parkReq then s.editFrag c.f fun x => { x with status := .parkedWait, wake := .park, lane := false } else s

/-- NOP (R143). -/
def execNop : Meaning := withWord [] [] fun c s => s.retire c 1 false c.beats

/-- A word with an unassigned opcode (R54): *illegal opcode* in every thread of the fragment. -/
def execUnassignedOpcode (_ : Word) : Meaning := withWord [] [] fun c s => s.faultAll c 0x01

/-- A trap of some threads: its record resumes at the next word (Table 16.1). -/
def trapBad (cause hint : Nat) (m : Mask) : Bad := { cause := cause, addr := 0, hint := hint, replay := false, mask := m, fb := [] }

/-- The trapping threads leave; the others go on with the next word. -/
def State.trap (s : State) (c : Ctx) (b : Bad) : State := s.guarded c [b] fun c s => s.retire c 1 false c.beats

/-- TRAP (R144). -/
def execTrap (imm : BitVec 16) : Meaning :=
  withWord [] [] fun c s => if c.act = 0#32 then s.retire c 1 false 1 else s.trap c (trapBad 0x30 imm.toNat c.act)
/-- BKPT (R144). -/
def execBkpt (imm : BitVec 16) : Meaning :=
  withWord [] [] fun c s => if c.act = 0#32 then s.retire c 1 false 1 else s.trap c (trapBad 0x31 imm.toNat c.act)

/-- TFENCE (R92, R145): it waits for the matrix work of its threads and on their rows, then traps the threads whose condition meets an
enable. -/
def execTfence : Meaning :=
  withWord [] [] fun c s =>
    s.whenReady c (.tend c.act :: .matrix c.fr.mask :: if c.accOk then [.rows c.fr.accwin c.act] else []) fun s =>
      let m := maskOf fun t => c.act.getLsbD t &&
        (trapCond (c.w.flags t) (if c.accOk then some (c.u.row (32 * c.fr.accwin + t)).mxexc else none) &&& c.fr.fmt.setWidth 5) ≠ 0#5
      if m = 0#32 then s.retire c 1 false c.beats else s.trap c (trapBad 0x32 0 m)

/-! ### Window and format (R27, R146, R147) -/

/-- Set the window base. -/
def setWindow (base : Ctx → Int) : Meaning :=
  withWord [] [] fun c s =>
    if c.act = 0#32 then s.retire c 1 false 1
    else if base c < 0 ∨ (c.w.extent : Int) ≤ base c then s.faultAll c 0x04
    else (s.editFrag c.f fun x => { x with win := BitVec.ofNat 5 ((base c).toNat / 16) }).retire c 1 false c.beats

/-- WINB (R146); the field holds imm16[15:4]. -/
def execWinb (imm : BitVec 12) : Meaning := setWindow fun _ => 16 * imm.toNat
/-- WINA (R146). -/
def execWina (imm : BitVec 12) : Meaning := setWindow fun c => c.base + 16 * imm.toInt

/-- The bits of %fmt that exist (Table 1.15). -/
def fmtBits : BitVec 14 := 0x3F1F#14

/-- SETFMT (R147). -/
def execSetfmt (mode : FmtMode) (imm : BitVec 16) : Meaning :=
  withWord [] [] fun c s =>
    if c.act = 0#32 then s.retire c 1 false 1
    else
      let v : BitVec 14 := imm.setWidth 14 &&& fmtBits
      (s.editFrag c.f fun x =>
        { x with fmt := match mode with
          | .set => v
          | .or => x.fmt ||| v
          | .clr => x.fmt &&& ~~~v }).retire c 1 false c.beats

/-! ### Special registers (R33 to R37, R91, R148, R422) -/

/-- Identity of a fragment (Table 1.8). -/
def fragIdent (core slot fidx : Nat) : Word := BitVec.ofNat 32 (core / 96 * 2 ^ 23 + core % 96 * 65536 + slot * 512 + fidx)

/-- The 32-bit and 64-bit values that SRD reads, for the registers that need no row (Table 1.5). -/
def Ctx.special (c : Ctx) (s : State) (n t : Nat) : Option (Word64 × Bool) :=
  match n with
  | 0 => some (BitVec.ofNat 64 t, false)
  | 1 => some (BitVec.ofNat 64 (c.f.warp * 65536 + c.w.slot), false)
  | 2 => some ((fragIdent c.u.core c.w.slot c.f.fidx).zeroExtend 64, false)
  | 3 => some (BitVec.ofNat 64 (c.u.core % 96), false)
  | 4 => some (BitVec.ofNat 64 (c.u.core / 96), false)
  | 5 => some (BitVec.ofNat 64 (c.u.sizeM1 * 16 + c.u.rank), false)
  | 6 => some (c.w.node, true)
  | 7 => some (s.cycle, true)
  | 8 => some (s.time, true)
  | 9 => some (c.fr.fmt.zeroExtend 64, false)
  | 10 => some ((c.w.flags t).zeroExtend 64, false)
  | 11 => some ((c.u.row (32 * c.fr.accwin + t)).mxexc.zeroExtend 64, false)
  | 12 => some (c.w.cbank.zeroExtend 64, false)
  | _ => none

/-- The tag of an SRD result (Table 1.1): %tix is affine, per-thread registers are general, the others uniform. -/
def srdTag (n : Nat) : RTag :=
  match n with
  | 0 => .affine
  | 10 => .general
  | 11 => .general
  | _ => .uniform

/-- What a word needs to read or write %fflags or %mxexc: no TEND of its threads in flight, no engine operation on its rows. -/
def Ctx.flagNeeds (c : Ctx) (n : Nat) : List Need :=
  if n = 11 then [.tend c.act, .rows c.fr.accwin c.act] else if n = 10 then [.tend c.act] else []

/-- SRD (R33, R148): with no active thread it passes, and no thread is there to fault. -/
def execSrd (d : Reg) (imm : BitVec 16) : Meaning :=
  let n := imm.toNat
  let pair : Bool := n = 6 || n = 7 || n = 8
  withWord [⟨d.toNat, if pair then 2 else 1, 1⟩] [] fun c s =>
    let scalar : Bool := c.fr.mask = allThreads && (c.act = allThreads || c.act = 0#32) && srdTag n != .general && decide (n ≤ 12)
    if c.act = 0#32 then s.retire c 1 scalar 1
    else if decide (12 < n) || (pair && d.toNat % 2 ≠ 0) then s.faultActive c 0x05 0
    else if n = 11 && !c.accOk then s.faultActive c 0x06 0
    else s.whenReady c (c.flagNeeds n) fun s =>
      (s.editWarp c.f.unit c.f.warp fun w =>
        w.putOuts (c.fullTag (srdTag n)) c.act fun t => match c.special s n t with
          | some (v, true) => .ofRegs (c.wrP d v)
          | some (v, false) => .ofRegs (c.wr d (v.setWidth 32))
          | none => .ofRegs []).retire c 1 scalar c.beats

/-- The warps, resident before evicted ones and live before ended ones, that stand or stood in the slot that an identity word points to (R422): the
context of each, and the fragment that the word then names. A CORE that the die lacks has none. -/
def State.atIdent (s : State) (ident : Nat) : List (Nat × FragRef) :=
  let core := field ident 23 23 * 96 + field ident 22 16
  let hits (us : Map KUnit) (ended : Bool) : List (Nat × FragRef) :=
    us.flatMap fun p =>
      if p.2.core = core then
        (p.2.warps.filter fun q => q.2.slot = field ident 15 9 && q.2.ended == ended).map fun q =>
          (((Map.look s.launches p.2.launch).map (·.ctx)).getD 0, ⟨p.1, q.1, field ident 3 0⟩)
      else []
  if 96 ≤ field ident 22 16 then []
  else hits s.units false ++ hits s.units true ++ hits s.evicted false ++ hits s.evicted true

/-- The fragment of a context that an identity word names. -/
def State.named (s : State) (ctx ident : Nat) : Option FragRef := ((s.atIdent ident).find? fun p => p.1 = ctx).map (·.2)

/-- What an identity word names belongs to another context. -/
def State.foreign (s : State) (ctx ident : Nat) : Bool := (s.named ctx ident).isNone && s.atIdent ident ≠ []

/-- PARAM fits its action (Table 16.5), where that does not depend on the target. -/
def repairOk (act param : Nat) : Bool :=
  match act with
  | 1 => decide (param < 65536)
  | 2 => field param 30 16 = 0 && (field param 31 31 = 0 || field param 15 0 = 0)
  | 3 => param ≠ 0
  | 4 => decide (param < 16)
  | 5 => param = 0
  | _ => false

/-- A number that no fragment of the warp waits under for a repair. -/
def Warp.freshRepair (w : Warp) : Nat :=
  (Map.vals w.frags).foldl (fun m x => match x.wake with
    | .repair q => max m (q + 1)
    | _ => m) 0

/-- SWR of %frag (R35, R422): it asks for a repair and waits until it has taken effect. -/
def State.swrFrag (s : State) (c : Ctx) (a : Reg) : State :=
  let id := (c.rd a c.low).toNat
  if a.toNat % 2 ≠ 0 || !c.l.handler || field id 8 4 ≠ 0 then s.faultActive c 0x05 0
  else
    let param := (c.w.reg (c.base + a.toNat + 1) c.low).toNat
    if !(repairOk (field id 31 24) param) || s.foreign c.l.ctx id then s.faultActive c 0x39 0
    else ({ s with repairs := s.repairs ++ [(c.f, BitVec.ofNat 64 (param * 2 ^ 32 + id))] } : State).parkAt c (.repair c.w.freshRepair)

/-- What SWR writes to the registers that it may write, but for %frag (R35 to R37, R91, R148). -/
def State.swrPut (s : State) (c : Ctx) (a : Reg) (n : Nat) : State :=
  if n = 9 then s.editFrag c.f fun x => { x with fmt := (c.rd a c.low).setWidth 14 &&& fmtBits }
  else if n = 10 then s.editWarp c.f.unit c.f.warp fun w => (threads c.act).foldl (fun w t => w.setFlags t ((c.rd a t).setWidth 5)) w
  else if n = 11 then
    s.editUnit c.f.unit fun u =>
      (threads c.act).foldl (fun u t =>
        let i := 32 * c.fr.accwin + t
        u.putRow i { u.row i with mxexc := (c.rd a t).setWidth 24 }) u
  else s.editWarp c.f.unit c.f.warp fun w => { w with cbank := (c.rd a c.low).setWidth 2 }

/-- SWR (R33, R35 to R37, R148, R422): with no active thread it passes. -/
def execSwr (a : Reg) (imm : BitVec 16) : Meaning :=
  let n := imm.toNat
  withWord [⟨a.toNat, if n = 2 then 2 else 1, 1⟩] [] fun c s =>
    if c.act = 0#32 then s.retire c 1 false 1
    else if n = 2 then s.swrFrag c a
    else if n < 9 || decide (12 < n) then s.faultActive c 0x05 0
    else if n = 11 && !c.accOk then s.faultActive c 0x06 0
    else s.whenReady c (c.flagNeeds n) fun s => (s.swrPut c a n).retire c 1 false c.beats

/-! ### Waits (R149 to R151) -/

/-- Every flag of a mask is zero for a fragment (R32). -/
def KUnit.flagsClear (u : KUnit) (warp : Nat) (m : BitVec 12) (x : Mask) : Bool :=
  (List.range 12).all fun k => !(m.getLsbD k) || u.flagValue warp k x = 0

/-- WAITF (R149). -/
def execWaitf (mask : BitVec 12) : Meaning :=
  withWord [] [] fun c s =>
    if c.u.flagsClear c.f.warp mask c.fr.mask then s.retire c 1 false c.beats else s.parkAt c (.flags mask)

/-- WAITP (R150). -/
def waitPath (p : PathId) (use : List Opn) (limit : Ctx → Nat) : Meaning :=
  withWord use [] fun c s =>
    if c.act = 0#32 || decide (c.u.pathCount p ≤ limit c) then s.retire c 1 false c.beats
    else s.parkBlocking c (.path p (limit c))

/-- WAITP with a register threshold: the minimum over the active threads. -/
def execWaitpReg (p : PathId) (a : Reg) : Meaning :=
  waitPath p [opV a] fun c => (threads c.act).foldl (fun m t => min m (c.rd a t).toNat) 0xFFFFFFFF
def execWaitpImm (p : PathId) (n : BitVec 8) : Meaning := waitPath p [] fun _ => n.toNat

/-- CLKW (R151): the largest time over the active threads. -/
def execClkw (a : Reg) : Meaning :=
  withWord [opP a] [] fun c s =>
    let t := (threads c.act).foldl (fun m t => max m (c.rdP a t).toNat) 0
    if c.act = 0#32 || decide (t ≤ s.time.toNat) then s.retire c 1 false c.beats else s.parkBlocking c (.clock t)

/-! ### Issue (R41, R42, R46, R271, R280, R281) -/

/-- The header at which a fragment stands. -/
def State.header (s : State) (die : Nat) (l : Launch) (x : Frag) : Option Nat := if x.pc < l.tsize then s.textWord die l x.pc else none

/-- What selecting a clause finds: the clause and its header word; a failed check; or a word at a code address that cannot be fetched. -/
inductive Opening where
  | clause (k : Clause) (hdr : Nat)
  | frame
  | unread (pc : Nat)
  deriving DecidableEq, Repr

/-- Pre-decode of the body words from index w (R46): whether a check fails, or the address of a word that cannot be fetched; `fuel` bounds the
clause's length. -/
def State.predecode (s : State) (die : Nat) (l : Launch) (h len : Nat) : Nat → Nat → Nat → Except (Option Nat) Unit
  | 0, w, _ => if w = len + 1 then .ok () else .error none
  | fuel + 1, w, ll =>
    if len < w then if w = len + 1 then .ok () else .error none
    else
      match s.textWord die l (h + 4 * w) with
      | none => .error (some (h + 4 * w))
      | some i =>
        if controlTransfer i && w + literals i ≠ len then .error none
        else
          let ll := if longLatency i then ll + 1 else ll
          if 2 < ll then .error none else s.predecode die l h len fuel (w + 1 + literals i) ll

/-- The clause that a header word starts, when the pre-decode passes (R46, Table 2.1). A word that cannot be fetched is a fault of its own
(log entry 39). -/
def State.openClause (s : State) (die : Nat) (l : Launch) (h : Nat) : Opening :=
  if l.tsize ≤ h then .frame
  else
    match s.textWord die l h with
    | none => .unread h
    | some w =>
      let len := field w 11 8
      let s1 := field w 19 16
      let s2 := field w 15 12
      if field w 1 0 ≠ 0 || len = 0 || (decide (12 ≤ s1) && decide (s1 ≤ 14)) || (decide (12 ≤ s2) && decide (s2 ≤ 14)) then .frame
      else if l.tsize < h + 4 * (len + 1) then .frame
      else
        match s.predecode die l h len 16 1 0 with
        | .ok () => .clause ⟨h, len, s1, s2, field w 2 2 = 1, 0⟩ w
        | .error none => .frame
        | .error (some a) => .unread a

/-- A word of the text that cannot be fetched: *poisoned data* where its bytes are poisoned, else *translation fault* at their address, which goes
to the fault buffer as a read (R351). -/
def State.fetchFault (s : State) (core : Nat) (f : FragRef) (l : Launch) (x : Frag) (pc : Nat) : State :=
  let va := l.text + pc
  let b := Bad.of 0x16 (BitVec.ofNat 64 va) x.mask
  match s.leafOf (dieOf core) l.ctx va with
  | .ok _ => (s.takeFaults f [{ b with cause := 0x19 }]).1
  | .error m => (s.takeFaults f [{ b with fb := [fbLane l.ctx va 1 0 0 m] }]).1

/-- The long-latency words of a clause's body from index w. -/
def State.llWords (s : State) (die : Nat) (l : Launch) (h len : Nat) : Nat → Nat → Nat
  | 0, _ => 0
  | fuel + 1, w =>
    if len < w then 0
    else
      match s.textWord die l (h + 4 * w) with
      | none => 0
      | some i => (if longLatency i then 1 else 0) + s.llWords die l h len fuel (w + 1 + literals i)

/-- The guard of a clause header (R42). -/
def guardMask (w : Warp) (hdr : Nat) (m : Mask) : Mask :=
  if field hdr 7 7 = 0 then m
  else maskOf fun t => m.getLsbD t && (w.pred (BitVec.ofNat 3 (field hdr 5 3)) t == !(field hdr 6 6 = 1))

/-- A fragment that issues no word: its warp's HOLD (R279); a gang that drains (Table 11.9, step 4); a quiesce, which holds every warp but a trap handler's (R368); stopped clocks
(R445). -/
def State.held (s : State) (l : Launch) (x : Frag) : Bool :=
  x.hold || l.st = .draining || (s.dev.quiesced && !l.handler) || s.dev.halted

/-- The flags of a clause have room for its long-latency operations (R32): none would rise beyond 63. With no active thread none is issued. -/
def State.flagRoom (s : State) (u : KUnit) (l : Launch) (warp : Nat) (w : Warp) (x : Frag) (h : Nat) : Bool :=
  let n := s.llWords (dieOf u.core) l x.pc (field h 11 8) 16 1
  let used (k : Nat) : Nat := (if 1 ≤ n && field h 19 16 = k then 1 else 0) + if 2 ≤ n && field h 15 12 = k then 1 else 0
  guardMask w h x.mask = 0#32 || (List.range 12).all fun k => used k = 0 || decide (u.flagValue warp k x.mask + used k ≤ 63)

/-- A fragment is a candidate in its lane (R280); a start hold (R335) holds it back. -/
def State.candidate (s : State) (u : KUnit) (l : Launch) (warp : Nat) (w : Warp) (x : Frag) : Bool :=
  x.status = .runnable && !s.held l x && !u.startHold &&
    match x.clause with
    | some _ => true
    | none =>
      match s.header (dieOf u.core) l x with
      | none => true
      | some h =>
        u.flagsClear warp (BitVec.ofNat 12 (field h 31 20)) x.mask &&
          (field h 7 7 = 0 || !(u.ops.any fun o => o.writesPred warp (BitVec.ofNat 3 (field h 5 3)) x.mask)) && s.flagRoom u l warp w x h

/-- The lane's fragment still holds it: it has not parked or ended its clause since the lane selected it. -/
def State.laneBusy (s : State) (ln : Lane) : Bool :=
  match ln.cur with
  | none => false
  | some f =>
    match s.launchOf f.unit, s.frag? f with
    | some l, some x => x.status = .runnable && x.clause.isSome && x.lane && !s.held l x
    | _, _ => false

/-- The warps of a lane that have a candidate, oldest first: unit, warp, slot bit 6, candidates (R17, R281). DESIGN CHOICE (log entry
70): a unit's age is that of its first admission, also after it was evicted and admitted again. -/
def State.laneWarps (s : State) (core lane : Nat) : List (Nat × Nat × Bool × List Nat) :=
  s.units.flatMap fun p =>
    if p.2.core ≠ core then []
    else
      match Map.look s.launches p.2.launch with
      | none => []
      | some l =>
        p.2.warps.filterMap fun q =>
          if q.2.slot % 64 ≠ lane then none
          else
            match (q.2.frags.filter fun x => s.candidate p.2 l q.1 q.2 x.2).map (·.1) with
            | [] => none
            | c => some (p.1, q.1, decide (64 ≤ q.2.slot), c)

/-- The candidate whose FIDX comes first after the last issuing one, cyclically (R281). -/
def nextFidx (last : Nat) (c : List Nat) : Nat :=
  ((List.range 16).map fun i => (last + 1 + i) % 16).find? (fun i => c.contains i) |>.getD (c.headD 0)

/-- The choice between the two warps of a lane (R281): age, unless the older one yielded or has won four times running. DESIGN CHOICE
(log entry 70): where both yielded, the older one wins. -/
def State.chooseWarp (s : State) (ln : Lane) (a b : Nat × Nat × Bool × List Nat) : (Nat × Nat × Bool × List Nat) × Nat :=
  let yields (x : Nat × Nat × Bool × List Nat) : Bool := ((s.warp? x.1 x.2.1).map (·.lastYield)).getD false
  let pick :=
    if 4 ≤ ln.run then if a.2.2.1 = ln.lastHigh then b else a
    else if yields a && !yields b then b
    else a
  (pick, if pick.2.2.1 = ln.lastHigh then ln.run + 1 else 1)

/-- Meeting (R271): fragments of the warp at a clause boundary that agree with fragment i fuse with it. -/
def Warp.meet (w : Warp) (i : Nat) : Warp × Nat :=
  match Map.look w.frags i with
  | none => (w, i)
  | some x =>
    let mates := w.frags.filter fun p => p.2.status = .runnable && p.2.clause.isNone && sameForFusion x p.2
    match mates with
    | (k, y) :: rest@(_ :: _) =>
      let y := { y with mask := rest.foldl (fun m p => m ||| p.2.mask) y.mask }
      ({ w with frags := Map.put (w.frags.filter fun p => !(rest.any fun q => q.1 = p.1)) k y }, k)
    | _ => (w, i)

/-- Start or continue a fragment in its lane (R46, R47, R280). A fragment that fuses with others as it is selected starts the clause only where the
fused fragment is a candidate too: its flags are tested, and its guard evaluated, for all its threads (R41, R42). Faults of its issued words are
taken first (R165). -/
def State.startFrag (s : State) (u w i : Nat) : State × FragRef :=
  let f : FragRef := ⟨u, w, i⟩
  if s.hasLate f then (s.takeLate f, f)
  else
    match s.warp? u w with
    | none => (s, f)
    | some wp =>
      if ((Map.look wp.frags i).map (·.clause.isSome)).getD false then (s.editFrag f fun x => { x with lane := true }, f)
      else
        let m := wp.meet i
        let s := s.editWarp u w fun _ => m.1
        let f : FragRef := ⟨u, w, m.2⟩
        match s.unit? u, s.launchOf u, s.frag? f with
        | some un, some l, some x =>
          let die := dieOf un.core
          if s.hasLate f then (s.takeLate f, f)
          else if !(s.candidate un l w m.1 x) then (s, f)
          else
            match s.openClause die l x.pc with
            | .clause k h =>
              let s := s.holdLeaf die l.ctx (l.text + x.pc)
              ((s.editFrag f fun x =>
                { x with clause := some k, actm := guardMask m.1 h x.mask, done := 0#32, pc := x.pc + 4, lane := true }).editWarp u w
                  fun w => { w with lastYield := k.yld }, f)
            | .frame => ((s.takeFaults f [Bad.of 0x03 0 x.mask]).1, f)
            | .unread a => (s.fetchFault un.core f l x a, f)
        | _, _, _ => (s, f)

/-- The lane selects its next candidate (event CLAUSE_START). -/
def execClauseStart (core lane : Nat) : Meaning := fun s =>
  .next <|
    let ln := Map.lookD (s.core core).lanes lane Lane.idle
    if s.laneBusy ln || decide (64 ≤ lane) then s
    else
      let go (x : Nat × Nat × Bool × List Nat) (run : Nat) (loser : Option (Nat × Nat)) : State :=
        let i := nextFidx (((s.warp? x.1 x.2.1).map (·.lastFidx)).getD 15) x.2.2.2
        let s := match loser with
          | some (u, w) => s.editWarp u w fun w => { w with lastYield := false }
          | none => s
        let r := s.startFrag x.1 x.2.1 i
        let s := r.1.editWarp x.1 x.2.1 fun w => { w with lastFidx := r.2.fidx }
        s.editCore core fun k => { k with lanes := Map.put k.lanes lane { cur := some r.2, lastHigh := x.2.2.1, run := run } }
      match s.laneWarps core lane with
      | [] => s
      | [x] => go x 0 none
      | a :: b :: _ =>
        let p := s.chooseWarp ln a b
        let other := if p.1 = a then b else a
        go p.1 p.2 (some (other.1, other.2.1))

/-! ### Waking and freeing (R267, R268) -/

/-- The wake condition of a parked fragment (Table 8.3), but for those that another event ends. -/
def State.wakes (s : State) (u : KUnit) (l : Launch) (f : FragRef) (x : Frag) : Bool :=
  match x.wake with
  | .flags m => u.flagsClear f.warp m x.mask
  | .path p n => decide (u.pathCount p ≤ n)
  | .barrier off tok _ => !(u.registered off) || (u.bar off).passed tok
  | .chunks k m => Map.lookD u.bitmaps k 0#64 &&& m = m
  | .clock t => decide (t ≤ s.time.toNat)
  | .ljoin ctx a => match Map.look s.records (ctx * 2 ^ 56 + a) with
    | some r => r.pending = 0
    | none => true
  | .issue needs _ => needs.all fun n => n.met s u f x
  | .mesh d q => !((s.core u.core).contrib.contains (d, q))
  | .park => !u.parkReq && l.st = .resident
  | _ => false

/-- The waits that are blocking points (Table 8.3). -/
def Wake.blocking : Wake → Bool
  | .path _ _ => true
  | .barrier _ _ _ => true
  | .chunks _ _ => true
  | .clock _ => true
  | .join => true
  | .ljoin _ _ => true
  | .issue _ r => r
  | .park => true
  | _ => false

/-- A waiter's barrier has passed its token, or is no longer registered (R198). -/
def KUnit.passedBy (u : KUnit) (x : Frag) : Bool :=
  match x.wake with
  | .barrier off tok _ => !(u.registered off) || (u.bar off).passed tok
  | _ => false

/-- A parked fragment becomes runnable when its condition holds (event FRAGMENT_WAKE); while a park request stands, one parked at a blocking
point stays parked (R337). A JOIN set that is complete fuses (R270). -/
def execFragmentWake (f : FragRef) : Meaning := fun s =>
  .next <|
    match s.unit? f.unit, s.launchOf f.unit, s.frag? f with
    | some u, some l, some x =>
      if u.parkReq && x.wake.blocking then s
      else if x.joining then s.editWarp f.unit f.warp fun w => w.joinFuse f.fidx
      else if (x.status = .parkedWait || x.status = .parkedBarrier) && s.wakes u l f x then
        match x.wake with
        | .barrier off _ _ => s.releaseSome f.unit off (u.bar off).inv u.passedBy
        | _ => s.editFrag f fun x => { x with status := .runnable, wake := .none }
      else s
    | _, _, _ => s

/-- A dead fragment is free once every load of its threads is complete (event DEAD_FRAGMENT_FREE). -/
def execDeadFragmentFree (f : FragRef) : Meaning := fun s =>
  .next <|
    match s.unit? f.unit, s.frag? f with
    | some u, some x =>
      if x.status = .dead && !(u.ops.any fun o => o.warp = f.warp && o.dst.isSome && o.pendingThreads &&& x.mask ≠ 0#32) then
        s.editWarp f.unit f.warp fun w => ({ w with frags := Map.del w.frags f.fidx } : Warp).gcSplits
      else s
    | _, _ => s

end Sys2Proof.Machine
end

