-- ==== Sys2Proof/Machine/Circlet.lean ====
section
/-! DEFINITION. The Circlet (06 R206 to R212, 13): stations and passes, the instructions that queue operations, and the application of
operations to beads. -/
namespace Sys2Proof.Machine

/-! ### Geometry (R369 to R371) -/

/-- The station of a core by package index: rows of the mesh in turn, alternating direction. -/
def stationOf (core : Nat) : Nat :=
  let y := core % 96 / 12
  let x := core % 12
  96 * (core / 96) + (if y % 2 = 0 then 12 * y + x else 12 * y + (11 - x))

/-- Ring position of a station. -/
def stationPos (st : Nat) : Nat := 128 * (st / 96) + st % 96 + st % 96 / 3

/-- Where a bead stands at a cycle (R370). -/
def beadPos (b cycle : Nat) : Nat := (b % 256 + cycle) % 256

/-- Position of a bead's seam (R371). -/
def seamPos (b : Nat) : Nat := stationPos (b % 192)

/-- PAR of Table 13.2: it toggles at each pass of the seam. -/
def beadParity (b cycle : Nat) : Bool := (cycle + (beadPos b 0 + 256 - seamPos b) % 256) / 256 % 2 = 1

/-- A bead. -/
def State.bead (s : State) (b : Nat) : Bead := Map.lookD s.beads b Bead.vacant

/-- Change a bead. -/
def State.editBead (s : State) (b : Nat) (g : Bead → Bead) : State := { s with beads := Map.put s.beads b (g (s.bead b)) }

/-- Make a bead vacant; only the number of its last pass stays. -/
def Bead.clearOut (x : Bead) : Bead := { Bead.vacant with last := x.last, clear := x.clear }

/-- The payload as it goes home. -/
def Bead.bytes (x : Bead) : List Byte := (List.range 16).flatMap fun i => leBytes 4 (Map.lookD x.payload i 0#32).toNat

/-! ### Results -/

/-- Give a thread of a Circlet operation its result: vd unless its warp's thread is dead, and the operation completes with its last
thread (R208 to R212). -/
def State.circResult (s : State) (u op t : Nat) (v : Word) : State :=
  match (s.unit? u).bind fun un => un.op? op with
  | none => s
  | some o =>
    let s := match o.dst with
      | none => s
      | some d => s.editWarp u o.warp fun w => if w.live.getLsbD t then (w.setReg d.reg t v).setRtag d.reg .general else w
    let left := match o.kind with
      | .circ m => m &&& ~~~(bit t)
      | _ => 0#32
    s.editUnit u fun un =>
      let un := un.editOp op fun o => { o with kind := .circ left }
      if left = 0#32 then un.complete op else un

/-- Withdraw a faulting thread from a Circlet operation. -/
def State.circDrop (s : State) (u op t : Nat) : State :=
  match (s.unit? u).bind fun un => un.op? op with
  | none => s
  | some o =>
    let left := match o.kind with
      | .circ m => m &&& ~~~(bit t)
      | _ => 0#32
    s.editUnit u fun un =>
      let un := un.editOp op fun o => { o with kind := .circ left, mask := o.mask &&& ~~~(bit t) }
      if left = 0#32 then un.complete op else un

/-! ### The instructions (R206 to R211) -/

/-- A bead operand that Table 6.11 does not allow. -/
def beadBad (v : Word) (hdrOk wordOk : Bool) : Bool :=
  let n := v.toNat
  field n 31 17 ≠ 0 || field n 11 9 ≠ 0 || (field n 16 16 = 1 && (!hdrOk || field n 15 12 ≠ 0)) || (field n 15 12 ≠ 0 && !wordOk)

/-- The quota map of a context as one of the device's checks finds it (R381): the cached entry, or the table, while they differ. -/
def State.quotaMap (s : State) (ctx : Nat) : State × List Byte :=
  if s.dev.circTab = 0 then (s, [])
  else
    let here := (s.fetch (s.dev.circTab + 64 * ctx) 64).getD []
    match Map.look s.quota ctx with
    | none => ({ s with quota := Map.put s.quota ctx here }, here)
    | some old =>
      if old = here then (s, old)
      else
        let c := s.choose
        if c.1 then (c.2, old) else ({ c.2 with quota := Map.put c.2.quota ctx here }, here)

/-- Whether a quota map allows a bead. -/
def quotaAllows (m : List Byte) (b : Nat) : Bool := (m.getD (b / 8) 0#8).getLsbD (b % 8)

/-- A thread's home for BOARD (R208): 64 bytes at the cursor of cb, readable and writable, aligned, in global space, release-consistent. A
ring-held line is no fault here: the slice answers it with status 2. -/
def Ctx.boardHome (c : Ctx) (s : State) (b : CapReg) (t : Nat) : State × Except Bad (Nat × Leaf) :=
  let a := (c.cap b t).cursor
  let want (k : AccKind) : Want := { size := 64, need := 3, kind := k, align := true, order := true, spaces := [0] }
  match c.early s (want .store) (c.cap b t) (c.capTag b t) false a with
  | some cause => (s, .error (Bad.of cause (BitVec.ofNat 64 a) 0))
  | none =>
    match c.page s (want .store) false a with
    | (s, .error x) => (s, .error { x with addr := BitVec.ofNat 64 a })
    | (s, .ok l) =>
      if !l.rd then (s, .error (Bad.of 0x12 (BitVec.ofNat 64 a) 0))
      else if nodeSpec c.w.node && !(s.specPage c.w.node l) then (s, .error (Bad.of 0x15 (BitVec.ofNat 64 a) 0))
      else if l.kind ≠ .rc then (s, .error (Bad.of 0x17 (BitVec.ofNat 64 a) 0))
      else (s, .ok (l.pa a / 64, l))

/-- A Circlet word's parts: kind, destination, bead operand, whether HDR and WORD may be set, the operands of a thread, and for BOARD
the capability of the home. -/
structure CircIns where
  kind : CircKind
  d : Reg
  a : Reg
  hdrOk : Bool
  wordOk : Bool
  x : Ctx → Nat → Word
  y : Ctx → Nat → Word
  home : Option CapReg

/-- Check one thread at issue (R206, R208): its place in a queued operation, or its fault. -/
def CircIns.thread (i : CircIns) (c : Ctx) (s : State) (t : Nat) : State × Except Bad CircThread :=
  let v := c.rd i.a t
  let at0 (home : Nat) (page : Nat × Nat) : CircThread := ⟨t, field v.toNat 15 12, field v.toNat 16 16 = 1, i.x c t, i.y c t, home, page⟩
  if beadBad v i.hdrOk i.wordOk then (s, .error (Bad.of 0x24 (v.zeroExtend 64) 0))
  else
    match i.home with
    | none => (s, .ok (at0 0 (0, 0)))
    | some b =>
      match c.boardHome s b t with
      | (s, .error x) => (s, .error x)
      | (s, .ok (line, l)) =>
        let q := s.quotaMap c.l.ctx
        if quotaAllows q.2 (v.toNat % 512) then (q.1, .ok (at0 line (l.vbase, l.size))) else (q.1, .error (Bad.of 0x26 (v.zeroExtend 64) 0))

/-- Check every active thread, in beat order. -/
def CircIns.all (i : CircIns) (c : Ctx) : State → List Nat → State × List (Nat × Except Bad CircThread)
  | s, [] => (s, [])
  | s, t :: ts =>
    let r := i.thread c s t
    let q := i.all c r.1 ts
    (q.1, (t, r.2) :: q.2)

/-- One queued operation per bead, in the order of lowest thread (R207). -/
def circGroups (l : List (Nat × CircThread)) : List (Nat × List CircThread) :=
  l.foldl (fun g p =>
    if g.any (fun x => x.1 = p.1) then g.map fun x => if x.1 = p.1 then (x.1, x.2 ++ [p.2]) else x else g ++ [(p.1, [p.2])]) []

/-- The threads that passed, by bead. -/
def CircIns.groups (i : CircIns) (l : List (Nat × Except Bad CircThread)) (c : Ctx) : List (Nat × List CircThread) :=
  circGroups (l.filterMap fun p => match p.2 with
    | .ok x => if c.act.getLsbD p.1 then some ((c.rd i.a p.1).toNat % 512, x) else none
    | .error _ => none)

/-- Queue the operations of the threads that passed, and hold the word until they are applied (R207); with none left the word passes. -/
def CircIns.go (i : CircIns) (l : List (Nat × Except Bad CircThread)) (c : Ctx) (s : State) : State :=
  let g := i.groups l c
  if c.act = 0#32 then s.skipLl c 1
  else s.whenReady c (.station g.length :: s.pinNeeds (if i.home.isSome then g.flatMap fun p => p.2.map fun x => [64 * x.home] else [])) fun s =>
    let id := ((s.unit? c.f.unit).map (·.nextOp)).getD 0
    let s := s.accessDoom c c.act
    let s := s.issue c (some .rg) c.act (.circ c.act) []
      (some { reg := c.base + i.d.toNat, n := 1, size := 4, sext := false, cap := false }) none
    let s := s.editFrag c.f fun x => { x with clause := c.fr.clause }
    let s := s.editCore c.u.core fun k =>
      { k with station := k.station ++ g.map fun p =>
          { unit := c.f.unit, op := id, ctx := c.l.ctx, kind := i.kind, bead := p.1, entry := s.cycle.toNat, ths := p.2 } }
    s.parkAt c (.station id)

/-- The faults found at issue. -/
def circBads (m : Mask) (l : List (Nat × Except Bad CircThread)) : List Bad :=
  groupBads m fun t => match Map.look l t with
    | some (.error b) => some b
    | _ => none

/-- Run a Circlet word that queues operations. -/
def CircIns.run (i : CircIns) (use : List Opn) : Meaning :=
  withWord use [] fun c s =>
    if c.act = 0#32 then s.skipLl c 1
    else s.whenReady c (llNeeds .rg ++ [.tend c.act]) fun s =>
      let r := i.all c s (threads c.act)
      match circBads c.act r.2 with
      | [] => i.go r.2 c r.1
      | bads => r.1.guarded c bads (i.go r.2)

/-- No operand. -/
def noX (_ : Ctx) (_ : Nat) : Word := 0#32

/-- BOARD (R208): the pair va gives the bead operand and the key. -/
def execBoard (d a : Reg) (b : CapReg) : Meaning :=
  CircIns.run ⟨.board, d, a, false, false, fun c t => c.w.reg (c.base + a.toNat + 1) t, noX, some b⟩ [opV d, opP a, opC b]

/-- ALIGHT (R209). -/
def execAlight (d a : Reg) : Meaning := CircIns.run ⟨.alight, d, a, false, false, noX, noX, none⟩ [opV d, opV a]

/-- BCAP with one operand register (R210). -/
def bcapWord (k : CircKind) (d a b : Reg) : Meaning :=
  CircIns.run ⟨k, d, a, false, true, fun c t => c.rd b t, noX, none⟩ [opV d, opV a, opV b]

def execBcapAdd (d a b : Reg) : Meaning := bcapWord .add d a b
def execBcapMin (m : Bool) (d a b : Reg) : Meaning := bcapWord (if m then .minN else .minI) d a b
def execBcapMax (m : Bool) (d a b : Reg) : Meaning := bcapWord (if m then .maxN else .maxI) d a b
def execBcapAnd (d a b : Reg) : Meaning := bcapWord .and d a b
def execBcapOr (d a b : Reg) : Meaning := bcapWord .or d a b
def execBcapSwap (d a b : Reg) : Meaning := bcapWord .swap d a b
def execBcapFadd (d a b : Reg) : Meaning := bcapWord .fadd d a b

/-- BCAP.cas (R210): the pair vb gives the compare value and the new value. -/
def execBcapCas (d a b : Reg) : Meaning :=
  CircIns.run ⟨.cas, d, a, false, true, fun c t => c.rd b t, fun c t => c.w.reg (c.base + b.toNat + 1) t, none⟩ [opV d, opV a, opP b]

/-- BREAD (R211). -/
def execBread (d a : Reg) : Meaning := CircIns.run ⟨.read, d, a, true, true, noX, noX, none⟩ [opV d, opV a]

/-- BPASS (R211): it waits for the next pass of the bead named by the lowest active thread. -/
def execBpass (a : Reg) : Meaning :=
  withWord [opV a] [] fun c s =>
    if c.act = 0#32 then s.retire c 1 false 1
    else s.whenReady c [.tend c.act] fun s =>
      s.guarded c (groupBads c.act fun t => if beadBad (c.rd a t) false false then some (Bad.of 0x24 ((c.rd a t).zeroExtend 64) 0) else none)
        fun c s =>
          if c.act = 0#32 then s.retire c 1 false 1
          else (s.accessDoom c c.act).parkAt c (.bead ((c.rd a c.low).toNat % 512))

/-! ### Application at a pass (R207 to R210, R373 to R380, Table 6.12) -/

/-- The new payload word of a BCAP (R210). -/
def bcapNew (k : CircKind) (old x y : Word) : Word :=
  match k with
  | .add => old + x
  | .minI => if x.toInt < old.toInt then x else old
  | .minN => if x.toNat < old.toNat then x else old
  | .maxI => if old.toInt < x.toInt then x else old
  | .maxN => if old.toNat < x.toNat then x else old
  | .and => old &&& x
  | .or => old ||| x
  | .swap => x
  | .cas => if old = x then y else old
  | .fadd => memAddF32 old x
  | _ => old

/-- The bead operand that a thread gave. -/
def CircThread.operand (x : CircThread) (b : Nat) : Nat := (if x.hdr then 65536 else 0) + 4096 * x.word + b

/-- The BOARD that a poisoned bead still carries as it is freed answers one of the three statuses: the spec says none (log entry 20). -/
def State.dropBoard (s : State) (v : Bead) : State :=
  match v.req with
  | some (u, op, t) => ({ s with freeIx := s.freeIx + 1 } : State).circResult u op t (BitVec.ofNat 32 (Config.freeNat s.freeIx % 3))
  | none => s

/-- One thread of an operation at its bead: the state after it, and the cause if the thread faults. A bead whose header was lost is poisoned with
CTX 0: every operation takes *bead fault* on it (R385). -/
def State.applyThread (s : State) (o : StOp) (st : Nat) (x : CircThread) : State × Option Nat :=
  let b := s.bead o.bead
  match o.kind with
  | .board =>
    if b.st = .vacant then
      (s.editBead o.bead fun v =>
        { v.clearOut with
          home := x.home, bstn := st, ctx := o.ctx, st := .boarding, key := x.x, vpage := x.vpage, req := some (o.unit, o.op, x.thread) }, none)
    else if b.st = .poisoned && b.ctx = 0 then (s, some 0x24)
    else (s.circResult o.unit o.op x.thread 1#32, none)
  | .alight =>
    if b.st = .vacant || b.ctx ≠ o.ctx then (s, some 0x24)
    else
      (({ s with
          homeWrites := s.homeWrites ++
            [{ bead := o.bead, line := b.home, bytes := if b.st = .poisoned then none else some b.bytes
               req := some (o.unit, o.op, x.thread), ofClear := false }] } : State).editBead o.bead Bead.clearOut |>.dropBoard b, none)
  | k =>
    if b.st = .vacant || b.ctx ≠ o.ctx then (s, some 0x24)
    else if b.st = .poisoned then (s, some 0x25)
    else
      let old := Map.lookD b.payload x.word 0#32
      let s := s.editBead o.bead fun v => { v with payload := Map.putD v.payload x.word (bcapNew k old x.x x.y) 0#32 }
      (s.circResult o.unit o.op x.thread (if k = .read && x.hdr then b.key else old), none)

/-- The threads of an operation in beat order: the state, the threads applied, and those that fault. -/
def State.applyThreads (s : State) (o : StOp) (st : Nat) : List CircThread → State × Mask × List (Nat × Bad)
  | [] => (s, 0#32, [])
  | x :: xs =>
    let r := s.applyThread o st x
    let q := r.1.applyThreads o st xs
    match r.2 with
    | none => (q.1, q.2.1 ||| bit x.thread, q.2.2)
    | some cause => (q.1, q.2.1, (x.thread, Bad.of cause (BitVec.ofNat 64 (x.operand o.bead)) 0) :: q.2.2)

/-- Whether a fragment waits for its Circlet operations. -/
def Frag.atStation (x : Frag) (op : Nat) : Bool := x.status = .parkedWait && x.wake = .station op

/-- Note the threads applied in every fragment that stands at the word (R207, R274). -/
def State.circMark (s : State) (u : Nat) (o : Op) (m : Mask) : State :=
  s.editWarp u o.warp fun w =>
    { w with
      frags := Map.each w.frags fun _ x =>
        if x.atStation o.id || (x.status = .parkedFault && x.pc = o.at_.pc) then
          { x with done := x.done ||| (m &&& x.mask), frec := x.frec.map fun r => { r with done := r.done ||| (m &&& r.mask) } }
        else x }

/-- The faulting threads of an operation leave the fragments that wait for it. -/
def State.circFaults (s : State) (u : Nat) (o : Op) (l : List (Nat × Bad)) : State :=
  match s.warp? u o.warp with
  | none => s
  | some w =>
    ((w.frags.filter fun p => p.2.atStation o.id).map (·.1)).foldl (fun s i =>
      match s.frag? ⟨u, o.warp, i⟩ with
      | none => s
      | some x => (s.takeFaults ⟨u, o.warp, i⟩ (groupBads (maskOf fun t => x.mask.getLsbD t && Map.has l t) (Map.look l))).1) s

/-- The word retires once all of its operations are applied (R207). -/
def State.circRetire (s : State) (core u : Nat) (o : Op) : State :=
  if (s.core core).station.any fun x => x.unit = u && x.op = o.id then s
  else
    match s.warp? u o.warp with
    | none => s
    | some w =>
      let s := ((Map.vals w.frags).filter fun x => x.atStation o.id).foldl (fun s x => s.editCore core fun k => k.count false x.beats) s
      s.editWarp u o.warp fun w =>
        { w with
          frags := Map.each w.frags fun _ x =>
            if x.atStation o.id then { x.passLl.nextWord 1 with status := .runnable, wake := .none } else x }

/-- Apply one queued operation whole (R374). -/
def State.applyOp (s : State) (core st : Nat) (o : StOp) : State :=
  let s := s.editCore core fun k => { k with station := k.station.filter fun x => x ≠ o }
  let r := s.applyThreads o st o.ths
  match (s.unit? o.unit).bind fun un => un.op? o.op with
  | none => r.1
  | some p =>
    let s := r.1.circMark o.unit p r.2.1
    let s := r.2.2.foldl (fun s x => s.circDrop o.unit o.op x.1) (s.circFaults o.unit p r.2.2)
    s.circRetire core o.unit p

/-- An operation that waits for a boarding bead of its own context (R207). -/
def State.circHeld (s : State) (o : StOp) : Bool :=
  o.kind ≠ .board && (s.bead o.bead).st = .boarding && (s.bead o.bead).ctx = o.ctx

/-- Up to n operations in queue order; one that waits for a boarding bead ends application (R374). -/
def State.applyOps (s : State) (core st : Nat) : Nat → List StOp → State
  | _, [] => s
  | 0, _ => s
  | n + 1, o :: os => if s.circHeld o then s else (s.applyOp core st o).applyOps core st n os

/-- The slice's answer reaches a boarding bead at its boarding station (R208, Table 13.3). A bead that was poisoned meanwhile stays poisoned (R385). -/
def State.boardStep (s : State) (b st : Nat) : State :=
  let v := s.bead b
  let tell (s : State) (x : Word) : State := match v.req with
    | some (u, op, t) => s.circResult u op t x
    | none => s
  if v.req.isNone || v.bstn ≠ st then s
  else
    match v.reply with
    | none => s
    | some none =>
      tell (s.editBead b fun v => if v.st = .poisoned then { v with req := none, reply := none } else v.clearOut) 2#32
    | some (some (bs, bad)) =>
      tell
        (s.editBead b fun v =>
          { v with
            payload := (List.range 16).foldl (fun m i => Map.putD m i (BitVec.ofNat 32 (leNat ((bs.drop (4 * i)).take 4))) 0#32) []
            st := if bad || v.st = .poisoned then .poisoned else .aboard, req := none, reply := none })
        0#32

/-- A line's mark for a bead goes, unless a write of the bead to the line is still on its way (R380). -/
def State.unmark (s : State) (line b : Nat) : State :=
  if Map.look s.ringHeld line = some b && !(s.homeWrites.any fun w => w.line = line && w.bead = b) then
    { s with ringHeld := Map.del s.ringHeld line }
  else s

/-- A clear takes effect at station 0 (R383). A BOARD that the bead still carries is withdrawn with status 2. -/
def State.clearStep (s : State) (b st : Nat) : State :=
  let v := s.bead b
  if !v.clear || st ≠ 0 then s
  else
    let s := s.editBead b fun v => { v.clearOut with clear := false }
    let write (line : Nat) (bs : Option (List Byte)) : HomeWrite := ⟨b, line, bs, none, true⟩
    let lost := v.st = .poisoned && v.ctx = 0
    let ws : List HomeWrite :=
      if lost then (s.ringHeld.filter fun p => p.2 = b).map fun p => write p.1 none
      else
        match v.st with
        | .aboard => [write v.home (some v.bytes)]
        | .poisoned => [write v.home none]
        | _ => []
    let s := match v.req with
      | some (u, op, t) => (if v.st = BeadSt.boarding then State.unmark s v.home b else s).circResult u op t 2#32
      | none => s
    { s with homeWrites := s.homeWrites ++ ws, dev := { s.dev with circBusy := ws ≠ [] } }

/-- A fragment that waits for a bead's pass (R211). -/
def Frag.atPass (x : Frag) (b : Nat) : Bool := x.status = .parkedWait && x.wake = .bead b

/-- BPASS returns at the pass, after the operations applied at it (R376). -/
def State.passStep (s : State) (b core : Nat) : State :=
  let l := (Map.vals s.units).flatMap fun un =>
    if un.core = core then (Map.vals un.warps).flatMap fun w => (Map.vals w.frags).filter fun x => x.atPass b else []
  let s := l.foldl (fun s x => s.editCore core fun k => k.count false x.beats) s
  { s with
    units := Map.each s.units fun _ un =>
      if un.core ≠ core then un
      else
        { un with
          warps := Map.each un.warps fun _ w =>
            { w with
              frags := Map.each w.frags fun _ x =>
                if x.atPass b then { x.nextWord 1 with status := .runnable, wake := .none } else x } } }

/-- The core of a station. -/
def coreAt (st : Nat) : Nat := ((List.range 192).find? fun c => stationOf c = st).getD 0

/-- Whether a bead stands at a station and has not been served there in this cycle. -/
def State.standsAt (s : State) (b st : Nat) : Bool :=
  beadPos b s.cycle.toNat = stationPos st && (s.bead b).last ≠ s.cycle.toNat + 1

/-- A queued operation is eligible at a pass in this cycle (R374). -/
def State.eligible (s : State) (b : Nat) (o : StOp) : Bool := o.bead = b && decide (o.entry + 2 ≤ s.cycle.toNat)

/-- A bead passes a station (event BEAD_PASS): an answer to its BOARD first, then a clear, then up to 4 eligible operations, then the BPASS
that wait for it. -/
def execBeadPass (b st : Nat) : Meaning := fun s =>
  .next <|
    if decide (512 ≤ b) || decide (192 ≤ st) || !s.standsAt b st then s
    else
      let core := coreAt st
      let s := s.editBead b fun v => { v with last := s.cycle.toNat + 1 }
      let s := (s.boardStep b st).clearStep b st
      let l := (s.core core).station.filter fun o => s.eligible b o
      (s.applyOps core st 4 l).passStep b core

/-- Something waits for a pass that falls in this cycle: time does not go on before it. -/
def State.ringDue (s : State) : Bool :=
  (s.cores.any fun p => p.2.station.any fun o => s.standsAt o.bead (stationOf p.1) && s.eligible o.bead o) ||
  (s.beads.any fun p =>
    (p.2.req.isSome && p.2.reply.isSome && s.standsAt p.1 p.2.bstn) || (p.2.clear && s.standsAt p.1 0)) ||
  (s.units.any fun p => (Map.vals p.2.warps).any fun w => (Map.vals w.frags).any fun x =>
    x.status = .parkedWait && match x.wake with
      | .bead b => s.standsAt b (stationOf p.2.core)
      | _ => false)

/-- The home slice answers a mark request (event BOARD_MARK_REPLY; R208, R379, Table 13.3). It waits for the lock of a
transaction, and for the bead's own payload of an earlier ALIGHT of the same line. -/
def execBoardMarkReply (b : Nat) : Meaning := fun s =>
  .next <|
    let v := s.bead b
    let pa := 64 * v.home
    if v.req.isNone || v.reply.isSome then s
    else
      match Map.look s.ringHeld v.home with
      | some x => if x = b then s else s.editBead b fun v => { v with reply := some none }
      | none =>
        if s.migLocked pa then s.editBead b fun v => { v with reply := some none }
        else if s.lineBusy none pa false then s
        else
          let r := s.homeRead pa 64
          let s := (wordsOf pa 64).foldl (fun s w => s.unregister w true) r.1
          let s := { s.recallWatches (sectorsOf pa 64) none with ringHeld := Map.put s.ringHeld v.home b }
          s.editBead b fun v => { v with reply := some (some (r.2, s.poisoned pa 64)) }

/-- Poison the 8-byte words of a range (R428, R429). -/
def poisonRange (p : NSet) (a n : Nat) : NSet := (span (a / 8) ((a + n - 1) / 8 + 1 - a / 8)).foldl NSet.add p

/-- A payload reaches its slice: it is written, or the line is poisoned, and the mark goes (event ALIGHT_HOME_WRITE; R209, R380, R383). Two writes
of one line come in the order in which they left. -/
def execAlightHomeWrite (k : Nat) : Meaning := fun s =>
  .next <| whole (fun s =>
    match s.homeWrites[k]? with
    | none => s
    | some w =>
      if (s.homeWrites.take k).any fun x => x.line = w.line then s
      else
      let pa := 64 * w.line
      let s := match w.bytes with
        | some bs => s.agentWrite pa bs
        | none =>
          let s := s.agentWrite pa (s.bytes pa 64)
          { s with poison := poisonRange s.poison pa 64 }
      let s := ({ s with homeWrites := s.homeWrites.eraseIdx k } : State).unmark w.line w.bead
      let s := match w.req with
        | some (u, op, t) => s.circResult u op t (if w.bytes.isNone then 1#32 else 0#32)
        | none => s
      if w.ofClear && !(s.homeWrites.any (·.ofClear)) then { s with dev := { s.dev with circBusy := false } } else s) s

/-- CIRC_CMD OP 1 (R381, R383): the cached quota map of a context goes. -/
def execCircQuotaInvalidate (ctx : Nat) : Meaning := fun s =>
  .next <| if s.dev.circBusy || decide (4096 ≤ ctx) then s else { s with quota := Map.del s.quota ctx }

/-- CIRC_CMD OP 2 (R383): the clear waits for the bead's next pass of station 0. -/
def execCircClearBead (b : Nat) : Meaning := fun s =>
  .next <|
    if s.dev.circBusy || decide (512 ≤ b) then s
    else ({ s with dev := { s.dev with circBusy := true } } : State).editBead b fun v => { v with clear := true }

/-- When a context ID is freed its beads become vacant and their marks go; nothing is written (R382). -/
def State.freeBeads (s : State) (ctx : Nat) : State :=
  (s.beads.filter fun p => p.2.ctx = ctx && p.2.st ≠ .vacant).foldl (fun s p =>
    (s.editBead p.1 Bead.clearOut).unmark p.2.home p.1) s

end Sys2Proof.Machine
end

