-- ==== Sys2Proof/Machine/Kill.lean ====
section
/-! DEFINITION. Kills (R142, R199, R275, R424) and fatal faults (R426, R427): of a fragment, a warp, a unit, a cluster; also of what an evicted
unit's image holds. -/
namespace Sys2Proof.Machine

/-- A fragment dies: its threads are killed, drop from every registered barrier, and lose their transactions; its record is discarded
(R275). A warp that ends with it holds no slot and no banks any longer (R142). -/
def State.killFrag (s : State) (f : FragRef) : State :=
  match s.frag? f with
  | none => s
  | some x =>
    if x.status = .dead then s
    else
      let s := s.endThreads f.unit f.warp x.mask
      let s := { s with soloQueue := s.soloQueue.filter fun k => !(k.1 = f.unit && k.2.1 = f.warp && x.mask.getLsbD k.2.2) }
      let s := s.editWarp f.unit f.warp fun w => { w with killed := w.killed ||| x.mask }
      let s := s.editFrag f fun x =>
        { x with status := .dead, wake := .none, hold := false, frec := none, clause := none, actm := 0#32, done := 0#32, lane := false }
      (s.editWarp f.unit f.warp Warp.settle).dropKilled f.unit f.warp x.mask

/-- Every fragment of a warp dies. -/
def State.killWarp (s : State) (u w : Nat) : State :=
  match s.warp? u w with
  | none => s
  | some wp => (Map.keys wp.frags).foldl (fun s i => s.killFrag ⟨u, w, i⟩) s

/-- Every warp of a unit dies. -/
def State.killUnit (s : State) (u : Nat) : State :=
  match s.unit? u with
  | none => s
  | some un => (Map.keys un.warps).foldl (fun s w => s.killWarp u w) s

/-- Every warp of a unit dies and the unit will end faulted or cancelled (R325). -/
def State.endUnit (s : State) (u : Nat) (cancel : Bool) : State :=
  (s.killUnit u).editUnit u fun un =>
    { un with endFault := un.endFault || !cancel, endCancel := un.endCancel || cancel, cut := true }

/-- A warp that has not ended dies by a cancel or the tree unit, and its unit will end cancelled (R325, R394). -/
def State.cancelWarp (s : State) (u w : Nat) : State :=
  match s.warp? u w with
  | none => s
  | some wp =>
    if wp.ended then s
    else (s.killWarp u w).editUnit u fun un => { un with endCancel := true }

/-- A warp is tagged with one of some nodes of a sequence. -/
def Warp.taggedIn (w : Warp) (sq : Nat) (slots : NSet) : Bool :=
  nodeSpec w.node && nodeSeq w.node = sq && NSet.has slots (nodeSlot w.node)

/-- A warp that the tree unit kills (R394). -/
def State.pruneWarp (s : State) (u w : Nat) : State := (s.editWarp u w fun x => { x with pruned := x.pruned || !x.ended }).cancelWarp u w

/-- Kill the warps of a unit tagged with some nodes; the unit will end cancelled (R394). -/
def State.killTagged (s : State) (u sq : Nat) (slots : NSet) : State :=
  match s.unit? u with
  | none => s
  | some un =>
    (un.warps.filter fun p => p.2.taggedIn sq slots).foldl (fun s p => s.pruneWarp u p.1) s

/-- Act on an evicted unit's image as on a resident unit (R340, R422, R424). -/
def State.inImage (s : State) (u : Nat) (g : State → State) : State :=
  match Map.look s.evicted u with
  | none => s
  | some un =>
    let s := g { s with units := Map.put s.units u un, evicted := Map.del s.evicted u }
    match s.unit? u with
    | none => s
    | some un => { s with units := Map.del s.units u, evicted := Map.put s.evicted u un }

/-- Act on a unit where it is, resident or evicted. -/
def State.onUnit (s : State) (u : Nat) (g : State → State) : State := if Map.has s.units u then g s else s.inImage u g

/-- Post a unit record (R417) with the next serial of the unit's core. -/
def State.postUnit (s : State) (u cause : Nat) (fatal : Bool) (hint pc : Nat) (addr : Word64) : State :=
  match s.unit? u with
  | none => s
  | some un =>
    let lrec := ((Map.look s.launches un.launch).map (·.lrec)).getD 0
    let serial := (s.core un.core).serial
    ({ s with posts := s.posts ++ [.unit un.core cause fatal hint (s.ctxOf u) pc addr lrec un.index serial] } : State).editCore un.core
      fun k => { k with serial := k.serial + 1#16 }

/-- Every fragment of every warp is dead or free (R272). -/
def KUnit.ended (un : KUnit) : Bool := (Map.vals un.warps).all Warp.ended

/-- A unit is lost to a fatal fault or a cluster kill: every warp of it dies, it posts one record and will end faulted (R426). -/
def State.loseUnit (s : State) (u cause : Nat) : State :=
  match s.unit? u with
  | none => s
  | some un => if un.lost then s else ((s.endUnit u false).postUnit u cause true 0 0 0).editUnit u fun un => { un with lost := true }

/-- A fatal fault of a unit (R426, R427): its scratchpad freezes, every warp of it and of its cluster dies, each unit posts its record
and will end faulted. -/
def State.fatal (s : State) (u cause : Nat) : State :=
  match s.unit? u with
  | none => s
  | some un =>
    ((Map.vals un.mates).filter (· ≠ u)).foldl (fun s v => s.onUnit v fun s => s.loseUnit v 0x82)
      ((s.editUnit u fun un => { un with frozen := true }).loseUnit u cause)

end Sys2Proof.Machine
end

