-- ==== Sys2Proof/Machine/Hallmark.lean ====
section
/-! DEFINITION. Hallmark (14 R397 to R406): pages, counts, pins, own entries in block tables and in the hash table, lookup and flattening. -/
namespace Sys2Proof.Machine

/-! ### Pages (R393, R399, R404 to R406) -/

/-- Owner of a reference that no node owns (R251). -/
def prefixOwner : Nat := 1024

/-- CRC-32C of one more byte, reflected (R405). -/
def crcByte (c : Word) (b : Byte) : Word :=
  (List.range 8).foldl (fun c _ => if c.getLsbD 0 then (c >>> 1) ^^^ 0x82F63B78#32 else c >>> 1) (c ^^^ b.zeroExtend 32)

/-- CRC-32C of a list of bytes (R405). -/
def crc32c (l : List Byte) : Word := ~~~(l.foldl crcByte 0xFFFFFFFF#32)

/-- The checksum of a page, with every standing reduction on it combined first (R180). -/
def State.pageCrc (s : State) (p : Nat) : State × Word :=
  let t := s.agentRead (s.pageAddr p) 131072
  (t, crc32c (t.bytes (s.pageAddr p) 131072))

/-- Drop the held translations of a page: all of them, or those that allow a write (R405, R406). -/
def State.dropPageTlb (s : State) (p : Nat) (writesOnly : Bool) : State :=
  { s with dies := Map.each s.dies fun _ d =>
      { d with tlb := d.tlb.filter fun e => !(e.leaf.kv = some p && (!writesOnly || e.leaf.wr)) } }

/-- Change a page. -/
def State.editPage (s : State) (p : Nat) (g : KvPage → KvPage) : State := { s with pages := Map.edit s.pages p g }

/-- One more reference to a page; from 1 to 2 it is sealed (R405). -/
def State.addRef (s : State) (p : Nat) (r : KvRef) : State :=
  let s := s.editPage p fun g => { g with refs := g.refs ++ [r] }
  match Map.look s.pages p with
  | some g =>
    if g.refs.length = 2 then
      let r := s.pageCrc p
      (r.1.dropPageTlb p true).editPage p fun g => { g with crc := r.2 }
    else s
  | none => s

/-- Take the first reference of a sequence's entry off a list. -/
def dropRefFrom (sq key : Nat) : List KvRef → List KvRef
  | [] => []
  | r :: t => if r.sq = sq && r.key = key then t else r :: dropRefFrom sq key t

/-- One reference less; at 0 the page's translations are invalidated (R406), and PAGE_FREE frees it once its pins are 0. -/
def State.dropRef (s : State) (p sq key : Nat) : State :=
  let s := s.editPage p fun g => { g with refs := dropRefFrom sq key g.refs }
  match Map.look s.pages p with
  | some g => if g.refs = [] then s.dropPageTlb p false else s
  | none => s

/-- The lowest free index of a die's pool as a page number (R399). -/
def State.freePage (s : State) (die : Nat) : Option Nat :=
  (leastBelow (min (s.die die).hmN (s.pages.length + 1)) fun i => !(Map.has s.pages (2147483648 * die + i))).map
    (2147483648 * die + ·)

/-- Allocate a page for a context: from the home die's pool, else from the other's (R399). -/
def State.allocPage (s : State) (die ctx : Nat) (r : KvRef) : Option (Nat × State) :=
  ((s.freePage die).or (s.freePage (1 - die))).map fun p =>
    (p, { s with pages := Map.put s.pages p { ctx := ctx, refs := [r], crc := 0 } })

/-! ### Own entries (R400, R403) -/

/-- The sequence table has an entry for a sequence (R386). -/
def State.inTable (s : State) (sq : Nat) : Bool :=
  let d := s.die (sq % 2)
  decide (d.stabLog2n ≤ 23) && decide (sq / 2 < 2 ^ d.stabLog2n) && decide (sq < 2 ^ 24)

/-- A sequence that commands see: in the table, open and not being closed (R386). -/
def State.openSeq (s : State) (sq : Nat) : Option Seq :=
  (Map.look s.seqs sq).bind fun q => if q.closing || !(s.inTable sq) then none else some q

/-- A sequence of a context (R386). -/
def State.seqFor (s : State) (ctx sq : Nat) : Option Seq := (s.openSeq sq).bind fun q => if q.ctx = ctx then some q else none

/-- Change a sequence. -/
def State.editSeq (s : State) (sq : Nat) (g : Seq → Seq) : State := { s with seqs := Map.edit s.seqs sq g }

/-- Positions per block. -/
def Seq.positions (q : Seq) : Nat := 2 ^ q.ppb

/-- The key of an own entry in page references. -/
def entryKey (b l : Nat) : Nat := 4096 * b + l

/-- An own entry found: where its 8 bytes lie, the overflow entry that holds it, page and fill limit. -/
structure OwnEntry where
  pa : Nat
  ovf : Option Nat
  page : Nat
  fill : Nat
  deriving DecidableEq, Repr

/-- A number as Hallmark reads it at a physical address; unreadable bytes read as nothing. -/
def State.phys8 (s : State) (pa : Nat) : Option Nat := (s.fetch pa 8).map leNat

/-- The fields of an own entry (Table 14.6), when it is present. -/
def ownAt (pa : Nat) (ovf : Option Nat) (e : Nat) : Option OwnEntry :=
  if field e 63 63 = 1 then some ⟨pa, ovf, field e 31 0, field e 47 40 + 1⟩ else none

/-- The words of an own entry. -/
def ownWord (page fill : Nat) : Nat := 2 ^ 63 + (fill - 1) % 256 * 2 ^ 40 + page % 2 ^ 32

/-- The key of a hash slot. -/
def hashKey (sq b l : Nat) : Nat := sq + b * 2 ^ 24 + l * 2 ^ 41

/-- The probe slots of a key (R403); none where HM_HASH.LOG2N is out of range. -/
def Die.probes (d : Die) (sq b l : Nat) : List Nat :=
  if 8 ≤ d.hmHashLog2n && d.hmHashLog2n ≤ 24 then
    let h := (sq * 0x9E3779B1 + l * 0x85EBCA6B + b * 0xC2B2AE35) % 2 ^ 32
    let i0 := h / 2 ^ (32 - d.hmHashLog2n)
    (List.range 16).map fun j => d.hmHashBase + 16 * ((i0 + j) % 2 ^ d.hmHashLog2n)
  else []

/-- Look a key up among the probes; the flag says that they ended without a free slot, so the overflow chain is walked. -/
def State.probe (s : State) (key : Nat) : List Nat → Option OwnEntry × Bool
  | [] => (none, true)
  | pa :: t =>
    match s.phys8 pa, s.phys8 (pa + 8) with
    | some k, some e =>
      if field e 63 63 = 0 && field e 62 62 = 0 then (none, false)
      else if field e 63 63 = 1 && k = key then (ownAt (pa + 8) none e, false)
      else s.probe key t
    | _, _ => s.probe key t

/-- Physical address of an overflow entry. -/
def Die.ovfAt (d : Die) (i : Nat) : Nat := d.hmOvfBase + 32 * i

/-- Look a key up in the overflow chain. -/
def State.chainFind (s : State) (d : Die) (key : Nat) : List Nat → Option OwnEntry
  | [] => none
  | i :: t =>
    match s.phys8 (d.ovfAt i), s.phys8 (d.ovfAt i + 8) with
    | some k, some e => if k = key && field e 63 63 = 1 then ownAt (d.ovfAt i + 8) (some i) e else s.chainFind d key t
    | _, _ => s.chainFind d key t

/-- The own entry of a block and layer (R400, R403). -/
def State.own (s : State) (sq : Nat) (q : Seq) (b l : Nat) : Option OwnEntry :=
  if q.hash then
    let d := s.die (sq % 2)
    match d.probes sq b l with
    | [] => none
    | ps =>
      match s.probe (hashKey sq b l) ps with
      | (some e, _) => some e
      | (none, true) => s.chainFind d (hashKey sq b l) d.ovf
      | (none, false) => none
  else if b < q.nblk then
    let pa := q.btab + 8 * (b * q.nlayer + l)
    (s.phys8 pa).bind (ownAt pa none)
  else none

/-- Write 8 bytes of a structure of the device. -/
def State.write8 (s : State) (pa x : Nat) : State := s.agentWrite pa (leBytes 8 x)

/-- The first probe slot an insert may take. -/
def State.vacant (s : State) (ps : List Nat) : Option Nat :=
  ps.find? fun pa => match s.phys8 (pa + 8) with
    | some e => field e 63 63 = 0
    | none => false

/-- Make or replace an own entry; nothing when the hash table has no room (R403). -/
def State.putOwn (s : State) (sq : Nat) (q : Seq) (b l page fill : Nat) : Option State :=
  match s.own sq q b l with
  | some e => some (s.write8 e.pa (ownWord page fill))
  | none =>
    if q.hash then
      let d := s.die (sq % 2)
      match d.probes sq b l with
      | [] => none
      | ps =>
        match s.vacant ps with
        | some pa => some ((s.write8 pa (hashKey sq b l)).write8 (pa + 8) (ownWord page fill))
        | none =>
          (leastBelow (min (16 * d.hmOvfN) (d.ovf.length + 1)) fun i => !(d.ovf.contains i)).map fun i =>
            let a := d.ovfAt i
            let next := (d.ovf.head?.map d.ovfAt).getD 0
            let s := (((s.write8 a (hashKey sq b l)).write8 (a + 8) (ownWord page fill)).write8 (a + 16) next).write8 (a + 24) 0
            s.editDie (sq % 2) fun d => { d with ovf := i :: d.ovf }
    else if b < q.nblk then some (s.write8 (q.btab + 8 * (b * q.nlayer + l)) (ownWord page fill))
    else none

/-- The entry before an overflow entry in the chain. -/
def before (i : Nat) : List Nat → Option Nat
  | a :: b :: t => if b = i then some a else before i (b :: t)
  | _ => none

/-- Remove an own entry (R403): T is set in a hash slot, an overflow entry is unlinked. -/
def State.delOwn (s : State) (sq : Nat) (q : Seq) (e : OwnEntry) : State :=
  match e.ovf with
  | some i =>
    let d := s.die (sq % 2)
    let next := ((s.phys8 (d.ovfAt i + 16)).getD 0)
    let s := match before i d.ovf with
      | some j => s.write8 (d.ovfAt j + 16) next
      | none => s
    (s.write8 e.pa 0).editDie (sq % 2) fun d => { d with ovf := d.ovf.filter (· ≠ i) }
  | none => s.write8 e.pa (if q.hash then 2 ^ 62 else 0)

/-- Release an own entry as KVREL does (R257); nothing where there is none. -/
def State.release (s : State) (sq : Nat) (q : Seq) (b l : Nat) : Option State :=
  (s.own sq q b l).map fun e => (s.delOwn sq q e).dropRef e.page sq (entryKey b l)

/-- Whether the block can hold an own entry of the sequence (R400). -/
def Seq.takes (q : Seq) (b : Nat) : Bool := q.hash || decide (b < q.nblk)

/-! ### Lookup (R401) -/

/-- What a lookup finds: nothing, a fifth level, or a page with its fill limit and whether the entry is the sequence's own. -/
inductive Look where
  | none
  | deep
  | hit (page fill : Nat) (own : Bool)
  deriving DecidableEq, Repr

/-- Lookup from sequence x with `fuel` levels left; `first` while x is the sequence itself. -/
def State.lookFrom (s : State) (b l : Nat) : Nat → Nat → Bool → Nat → Look
  | fuel, x, first, lim =>
    match Map.look s.seqs x with
    | none => .none
    | some q =>
      match s.own x q b l with
      | some e => if first then .hit e.page e.fill true else .hit e.page (min e.fill (lim - b * q.positions)) false
      | none =>
        match q.par with
        | none => .none
        | some p =>
          let lim := min lim q.forklen
          if lim ≤ b * q.positions then .none
          else
            match fuel with
            | 0 => .deep
            | fuel + 1 => s.lookFrom b l fuel p false lim

/-- Lookup(s, b, l). -/
def State.lookKv (s : State) (sq b l : Nat) : Look := s.lookFrom b l 4 sq true (2 ^ 20)

/-! ### Flattening (R402) -/

/-- Turn one inherited entry into an own one; the flag says whether the flattening goes on. -/
def State.flattenEntry (s : State) (sq : Nat) (b l : Nat) : State × Bool :=
  match Map.look s.seqs sq with
  | none => (s, false)
  | some q =>
    match s.lookFrom b l s.seqs.length sq true (2 ^ 20) with
    | .hit p f false =>
      if 65535 ≤ ((Map.look s.pages p).map (·.refs.length)).getD 0 then (s, false)
      else
        match s.putOwn sq q b l p f with
        | none => (s, false)
        | some s => (s.addRef p ⟨sq, entryKey b l, prefixOwner⟩, true)
    | _ => (s, true)

/-- Flatten a sequence: every block below its fork and every layer, then the parent link goes. A stopped flattening leaves the link. -/
def State.flatten (s : State) (sq : Nat) : State × Bool :=
  match Map.look s.seqs sq with
  | none => (s, false)
  | some q =>
    if q.par = none then (s, true)
    else
      let n := (q.forklen + q.positions - 1) / q.positions
      let r := (List.range (n * q.nlayer)).foldl (fun (r : State × Bool) i =>
        if r.2 then r.1.flattenEntry sq (i / q.nlayer) (i % q.nlayer) else r) (s, true)
      (r.1.editSeq sq fun q => if r.2 then { q with par := none, hint := false } else { q with hint := true }, r.2)

/-! ### Events -/

/-- A page of count 0 and no pins is freed (event PAGE_FREE; R404). -/
def execPageFree (p : Nat) : Meaning := fun s =>
  .next <|
    match Map.look s.pages p with
    | some g => if g.refs = [] && s.pins p = 0 then { s with pages := Map.del s.pages p } else s
    | none => s

/-- The sealed pages of a die, ascending. -/
def State.sealed (s : State) (die : Nat) : List Nat :=
  (s.pages.filter fun x => x.1 / 2147483648 = die && decide (2 ≤ x.2.refs.length)).map (·.1)

/-- The scrubber checks the next sealed page (event HALLMARK_SCRUB_CHECK; R405). -/
def execHallmarkScrubCheck (die : Nat) : Meaning := fun s =>
  .next <| s |> whole fun s =>
    let d := s.die die
    let l := s.sealed die
    match (l.find? fun p => decide (d.scrubNext ≤ p)).or l.head? with
    | none => s
    | some p =>
      if d.hmScrub = 0 then s
      else
        let s := s.editDie die fun d => { d with scrubNext := p + 1 }
        let r := s.pageCrc p
        let s := r.1
        if ((Map.look s.pages p).map (·.crc)) = some r.2 then s
        else
          { s with poison := (span (s.pageAddr p / 8) 16384).foldl NSet.add s.poison }.editDie die fun d =>
            { d with hmCrcErr := min (d.hmCrcErr + 1) 0xFFFFFFFF, hmLast := p }

end Sys2Proof.Machine
end

