-- ==== Sys2Proof/Machine/Trap.lean ====
section
/-! DEFINITION. Messages to the host (R438), the images of fragments and fault records (Tables 8.1 and 16.2), the trap table, and what happens
when a context's handler fails (16 R417 to R425). -/
namespace Sys2Proof.Machine

/-! ### Messages -/

/-- A byte of the MSI-X table; an entry nothing has written is masked, as the standard has it. -/
def Dev.msixByte (d : Dev) (i : Nat) : Byte := Map.lookD d.msix i (if i % 16 = 12 then 1#8 else 0#8)

/-- Send an MSI-X vector, with the message of its table entry: none beyond the table; a masked one stands in the PBA (R438). -/
def State.sendMsix (s : State) (v : Nat) : State :=
  if 2048 ≤ v then s
  else if (s.dev.msixByte (16 * v + 12)).getLsbD 0 then { s with dev := { s.dev with pba := NSet.add s.dev.pba v } }
  else
    let n (o k : Nat) : Nat := leNat ((span (16 * v + o) k).map s.dev.msixByte)
    { s with out := s.out ++ [.msix v (n 0 8) (BitVec.ofNat 32 (n 8 4))] }

/-- Change the device's registers. -/
def State.editDev (s : State) (g : Dev → Dev) : State := { s with dev := g s.dev }

/-- Set bits of DEV_ERR; VEC is sent when one becomes 1 (Table 16.4). -/
def State.raiseErr (s : State) (set : Dev → Dev) : State :=
  let d := set s.dev
  let rises := (d.errReplace && !s.dev.errReplace) || (d.errRetired && !s.dev.errRetired) || (d.errHfail && !s.dev.errHfail)
    || (d.errUncorr && !s.dev.errUncorr)
  let s := { s with dev := d }
  if rises then s.sendMsix d.errVec else s

/-! ### Images (R265, R417) -/

/-- STATE of Table 8.1. -/
def FStatus.bits : FStatus → Nat
  | .runnable => 1
  | .parkedWait => 2
  | .parkedBarrier => 3
  | .parkedFault => 4
  | .dead => 5

/-- WAKE code of Table 8.3. DESIGN CHOICE (log entry 19): a fragment that waits for its queued Circlet operations (R207) has code 8, which the table
names for a full station queue only. -/
def Wake.bits : Wake → Nat
  | .none => 0
  | .flags _ => 1
  | .path _ _ => 2
  | .barrier _ _ _ => 3
  | .chunks _ _ => 4
  | .clock _ => 5
  | .join => 6
  | .ljoin _ _ => 7
  | .issue _ _ => 8
  | .station _ => 8
  | .repair _ => 8
  | .mesh _ _ => 9
  | .bead _ => 10
  | .park => 11

/-- The 32-byte image of a fragment table entry (Table 8.1). -/
def Frag.image (x : Frag) (core slot fidx : Nat) : Nat :=
  x.mask.toNat * 2 ^ 224 + x.pc % 2 ^ 32 * 2 ^ 192 + ((x.clause.map (·.hdr)).getD 0xFFFFFFFF) % 2 ^ 32 * 2 ^ 160 + x.rpc.toNat * 2 ^ 128
    + x.actm.toNat * 2 ^ 96 + x.fmt.toNat * 2 ^ 82 + x.sfmt.toNat * 2 ^ 68 + x.win.toNat * 2 ^ 63 + x.swin.toNat * 2 ^ 58
    + x.prec.toNat * 2 ^ 53 + x.status.bits * 2 ^ 50 + x.wake.bits * 2 ^ 46 + x.frec.isSome.toNat * 2 ^ 45 + x.hold.toNat * 2 ^ 44
    + fidx % 16 * 2 ^ 40 + slot % 128 * 2 ^ 33 + core % 96 * 2 ^ 26 + core / 96 % 2 * 2 ^ 25

/-- The fields of a fault record (Table 16.2). -/
structure RecFields where
  cause : Nat
  flags : Nat
  serial : BitVec 16
  hint : Nat
  ctx : Nat
  pc : Nat
  mask : Mask
  done : Mask
  frag : Word
  addr : Word64
  lrec : Nat
  uidx : Nat
  entry : Nat

/-- The 128 bytes of a fault record posted at a time. -/
def RecFields.bytes (r : RecFields) (time : Word64) : List Byte :=
  leBytes 1 r.cause ++ leBytes 1 r.flags ++ leBytes 2 r.serial.toNat ++ leBytes 2 r.hint ++ leBytes 2 r.ctx ++ leBytes 4 r.pc
    ++ leBytes 4 r.mask.toNat ++ leBytes 4 r.done.toNat ++ leBytes 4 r.frag.toNat ++ leBytes 8 r.addr.toNat ++ leBytes 8 r.lrec
    ++ leBytes 4 r.uidx ++ leBytes 4 0 ++ leBytes 8 time.toNat ++ leBytes 8 0 ++ leBytes 32 r.entry ++ leBytes 32 0

/-! ### The trap table (R419) -/

/-- A trap table entry (Table 16.3). -/
structure TrapEntry where
  ring : Nat
  log2n : Nat
  valid : Bool
  failed : Bool
  hqueue : Nat
  prod : Nat
  cons : Nat
  fails : Nat
  pkt : Nat
  usable : Bool
  deriving DecidableEq, Repr

/-- Physical address of a context's entry. -/
def State.trapAt (s : State) (ctx : Nat) : Nat := s.dev.trapBase + 64 * ctx

/-- Read a context's entry; nothing where it is unreadable. It is usable only while DEV_TRAPTAB.EN is 1 (R425). -/
def State.trapEntry (s : State) (ctx : Nat) : Option TrapEntry :=
  (s.fetch (s.trapAt ctx) 64).map fun b =>
    let n (o k : Nat) : Nat := leNat ((b.drop o).take k)
    let e : TrapEntry :=
      { ring := n 0 8, log2n := n 8 1, valid := field (n 9 1) 0 0 = 1, failed := field (n 9 1) 1 1 = 1, hqueue := n 10 2, prod := n 12 4
        cons := n 16 4, fails := n 20 4, pkt := n 24 8, usable := false }
    { e with
      usable := s.dev.trapEn && e.valid && decide (4 ≤ e.log2n) && decide (e.log2n ≤ 12) && e.ring % 4096 = 0 && field (n 9 1) 7 2 = 0
        && decide (e.hqueue < 8192) && n 32 32 = 0 }

/-- Write a field of an entry. -/
def State.trapPut (s : State) (ctx off n x : Nat) : State := s.agentWrite (s.trapAt ctx + off) (leBytes n x)

/-- Whether a context's handler has failed. -/
def State.trapFailed (s : State) (ctx : Nat) : Bool := ((s.trapEntry ctx).map (·.failed)).getD false

/-- Kill a fragment by a handler's failure or repair; its unit will end faulted (R325). -/
def State.repairKill (s : State) (f : FragRef) : State :=
  s.onUnit f.unit fun s => (s.killFrag f).editUnit f.unit fun un => { un with endFault := true }

/-- The parked-fault fragments of a context, resident and evicted. -/
def State.parkedOf (s : State) (ctx : Nat) : List FragRef :=
  (s.units ++ s.evicted).flatMap fun p =>
    if ((Map.look s.launches p.2.launch).map (·.ctx)) = some ctx then
      p.2.warps.flatMap fun w => (w.2.frags.filter fun x => x.2.status = .parkedFault).map fun x => ⟨p.1, w.1, x.1⟩
    else []

/-- A unit, resident or evicted. -/
def State.anyUnit (s : State) (u : Nat) : Option KUnit :=
  match s.unit? u with
  | some un => some un
  | none => Map.look s.evicted u

/-- The context a posting belongs to. -/
def State.postCtx (s : State) : Post → Nat
  | .frag f _ => (((s.anyUnit f.unit).bind fun un => Map.look s.launches un.launch).map (·.ctx)).getD 0
  | .unit _ _ _ _ ctx _ _ _ _ _ => ctx


/-- A fragment with the record that a posting names still attached, and its unit and warp. -/
def State.recorded (s : State) (f : FragRef) (serial : BitVec 16) : Option (KUnit × Warp × Frag × FaultRec) :=
  (s.anyUnit f.unit).bind fun un => (Map.look un.warps f.warp).bind fun w => (Map.look w.frags f.fidx).bind fun x =>
    x.frec.bind fun r => if r.serial = serial then some (un, w, x, r) else none

/-- The core that attached a record, which posts it, wherever the fragment is now (R418). -/
def State.postCore (s : State) : Post → Nat
  | .frag f serial => ((s.recorded f serial).map (·.2.2.2.core)).getD 0
  | .unit core _ _ _ _ _ _ _ _ _ => core

/-- The fields of a record to post (Table 16.2); nothing when the fragment's record is discarded. -/
def State.postFields (s : State) (p : Post) : Option RecFields :=
  match p with
  | .frag f serial =>
    (s.recorded f serial).map fun v =>
      let un := v.1
      let r := v.2.2.2
      { cause := r.cause, flags := if r.replay then 4 else 0, serial := serial, hint := r.hint, ctx := s.postCtx p, pc := r.pc
        mask := v.2.2.1.mask, done := r.done, frag := fragIdent un.core v.2.1.slot f.fidx, addr := r.addr
        lrec := ((Map.look s.launches un.launch).map (·.lrec)).getD 0, uidx := un.index
        entry := v.2.2.1.image un.core v.2.1.slot f.fidx }
  | .unit _ cause fatal hint ctx pc addr lrec uidx serial =>
    some
      { cause := cause, flags := if fatal then 3 else 1, serial := serial, hint := hint, ctx := ctx, pc := pc, mask := 0, done := 0, frag := 0
        addr := addr, lrec := lrec, uidx := uidx, entry := 0 }

/-- The trap ring has room for a record (R419). -/
def TrapEntry.room (e : TrapEntry) : Bool := decide ((e.prod + 2 ^ 32 - e.cons) % 2 ^ 32 < 2 ^ e.log2n)

/-- Write a record to the trap ring (R419). -/
def State.ringRecord (s : State) (ctx : Nat) (e : TrapEntry) (r : RecFields) : State :=
  (s.agentWrite (e.ring + 128 * (e.prod % 2 ^ e.log2n)) (r.bytes s.time)).trapPut ctx 12 4 (e.prod + 1)

/-- Post what waits for a context while its ring has room, and discard the rest (R425). -/
def State.flushPosts (s : State) (ctx : Nat) : State :=
  let s := (s.posts.filter fun p => s.postCtx p = ctx).foldl (fun s p =>
    match s.trapEntry ctx, s.postFields p with
    | some e, some r => if e.usable && e.room then s.ringRecord ctx e r else s
    | _, _ => s) s
  { s with posts := s.posts.filter fun p => s.postCtx p ≠ ctx }

/-- Set FAILED in a context's entry and leave the rest of its byte (R419). -/
def State.putFailed (s : State) (ctx : Nat) : State :=
  match s.fetch (s.trapAt ctx + 9) 1 with
  | some [b] => s.agentWrite (s.trapAt ctx + 9) [b ||| 2#8]
  | _ => s

/-- A context's handler fails (R425): FAILED is set, its records are posted while there is room or discarded, its parked-fault fragments are
killed, HFAIL is set. `ring` is clear where there is no ring to post to. -/
def State.failHandler (s : State) (ctx : Nat) (ring : Bool) : State :=
  let s := (s.putFailed ctx).editDev fun d => { d with trapLost := NSet.set d.trapLost ctx !ring }
  let s := if ring then s.flushPosts ctx else { s with posts := s.posts.filter fun p => s.postCtx p ≠ ctx }
  let s := (s.parkedOf ctx).foldl (fun s f => s.repairKill f) s
  s.raiseErr fun d => { d with errHfail := true }

/-- The handler of a job is complete, and another may start (R420). -/
def State.handlerOver (s : State) (ctx job : Nat) : State :=
  if (Map.look s.handlers ctx).any fun h => h.job = job then { s with handlers := Map.del s.handlers ctx } else s

/-- A handler launch of a context has ended with a RESULT, or could not be made (R420, R425): FAILS follows. -/
def State.handlerEnded (s : State) (ctx result : Nat) : State :=
  match s.trapEntry ctx with
  | none => s
  | some e =>
    if result = 2 || result = 3 then s
    else if result = 0 then s.trapPut ctx 20 4 0
    else
      let s := s.trapPut ctx 20 4 (e.fails + 1)
      if 4 ≤ e.fails + 1 && !e.failed then s.failHandler ctx true else s

end Sys2Proof.Machine
end

