-- ==== Sys2Proof/Machine/Queue.lean ====
section
/-! DEFINITION. Queues and completion records (11 R313 to R329): descriptors, rings, registration, End and Try, cancellation. -/
namespace Sys2Proof.Machine

/-! ### Queues (R313 to R317) -/

/-- A queue descriptor (Table 11.2). -/
structure QDesc where
  ring : Nat
  log2n : Nat
  prio : Nat
  ctx : Nat
  hostw : Bool
  devw : Bool
  sys : Bool
  irqen : Bool
  slice : Nat
  parklim : Nat
  runlim : Nat
  msix : Nat
  argroot : Nat
  save : Nat
  savelen : Nat
  deriving DecidableEq, Repr

/-- Read 64 bytes as a descriptor, within its limits (R314). -/
def QDesc.of (b : List Byte) : Option QDesc :=
  let n (o k : Nat) : Nat := leNat ((b.drop o).take k)
  let f := n 0x0C 4
  let d : QDesc :=
    { ring := n 0 8, log2n := n 8 1, prio := n 9 1, ctx := n 0x0A 2, hostw := field f 1 1 = 1, devw := field f 2 2 = 1, sys := field f 3 3 = 1
      irqen := field f 4 4 = 1, slice := n 0x10 4, parklim := n 0x14 4, runlim := n 0x18 4, msix := n 0x1C 2, argroot := n 0x20 16
      save := n 0x30 8, savelen := n 0x38 8 }
  if field f 0 0 = 1 && field f 31 5 = 0 && d.ring % 4096 = 0 && decide (4 ≤ d.log2n) && decide (d.log2n ≤ 16) && decide (d.prio ≤ 7)
      && decide (1 ≤ d.ctx) && decide (d.ctx ≤ 4095) && decide (10 ≤ d.slice) && decide (d.slice ≤ 10000) && decide (1 ≤ d.parklim)
      && decide (d.parklim ≤ 1000000) && decide (d.runlim ≤ 3600000) && n 0x1E 2 = 0 && d.save % 4096 = 0 && d.savelen % 4096 = 0
  then some d else none

/-- Home die of a queue (R313). -/
def queueDie (q : Nat) : Nat := q / 4096

/-- Physical address of a queue's descriptor (R314). -/
def State.descAt (s : State) (q : Nat) : Nat := (s.die (queueDie q)).qtab + 64 * (q % 4096)

/-- The descriptor of a queue, when it is valid. -/
def State.qdesc (s : State) (q : Nat) : Option QDesc := if q < 8192 then (s.fetch (s.descAt q) 64).bind QDesc.of else none

/-- The scheduler of a queue's home die serves it (Table 11.1). -/
def State.qsOn (s : State) (q : Nat) : Bool := decide (q < 8192) && (s.die (queueDie q)).qsEn

/-- A queue's own registers. -/
def State.queue (s : State) (q : Nat) : Queue := Map.lookD s.queues q Queue.idle

/-- Change a queue. -/
def State.editQueue (s : State) (q : Nat) (g : Queue → Queue) : State := { s with queues := Map.put s.queues q (g (s.queue q)) }

/-- Packets between HEAD and TAIL. -/
def Queue.count (x : Queue) (log2n : Nat) : Nat := (x.tail + 2 ^ log2n - x.head) % 2 ^ log2n

/-- Physical address of a ring entry. -/
def QDesc.at (d : QDesc) (i : Nat) : Nat := d.ring + 128 * (i % 2 ^ d.log2n)

/-- The place of the next doorbell among all of them. -/
def State.nextBell (s : State) : Nat := ((Map.vals s.queues).flatMap (·.bells)).foldl (fun m b => max m b.1) 0 + 1

/-- The place of a queue's first unserved doorbell (R316); 0 when every doorbell is served. -/
def Queue.bell (x : Queue) : Nat := (x.bells.head?.map (·.1)).getD 0

/-- A doorbell moves TAIL; it stands unserved until HEAD has passed every packet it announced. One that TAIL has moved back behind is gone. -/
def Queue.rung (x : Queue) (n order tail : Nat) : Queue :=
  let far (i : Nat) : Nat := (i + n - x.head) % n
  let old := x.bells.filter fun b => decide (far b.2 ≤ far tail)
  { x with
    tail := tail, err := false
    bells := if far tail = 0 || old.any (fun b => b.2 = tail) then old else old ++ [(order, tail)] }

/-- The slot of its die that a queue is mapped to. -/
def State.slotOf (s : State) (q : Nat) : Option (Nat × QSlot) := (s.die (queueDie q)).slots.find? fun p => p.2.queue = q

/-- Change a slot. -/
def State.editSlot (s : State) (die n : Nat) (g : QSlot → QSlot) : State :=
  s.editDie die fun d => { d with slots := Map.edit d.slots n g }

/-- Unmap a queue. -/
def State.unmap (s : State) (q : Nat) : State :=
  s.editDie (queueDie q) fun d => { d with slots := d.slots.filter fun p => p.2.queue ≠ q }

/-- The launch of a queue that a slot has taken and that is not admitted. -/
def State.takenOf (s : State) (q : Nat) : Option Nat := (s.launches.find? fun p => p.2.queue = q && p.2.st = .taken).map (·.1)

/-- Move TAIL: a doorbell. A queue that it leaves with no packet and no launch that awaits admission loses its slot (R316). -/
def State.ring (s : State) (q : Nat) (d : QDesc) (tail : Nat) : State :=
  let b := s.nextBell
  let s := s.editQueue q fun x => { x.rung (2 ^ d.log2n) b tail with ctx := d.ctx }
  if (s.queue q).head = (s.queue q).tail && (s.takenOf q).isNone then s.unmap q else s

/-- Append a packet to a ring and ring the doorbell (R260, R420); nothing when the ring is full. -/
def State.append (s : State) (q : Nat) (d : QDesc) (p : List Byte) : Option State :=
  let x := s.queue q
  if 2 ^ d.log2n - 1 ≤ x.count d.log2n then none
  else some ((s.agentWrite (d.at x.tail) p).ring q d ((x.tail + 1) % 2 ^ d.log2n))

/-- HEAD advances by one; a queue left with nothing loses its slot (R316, R317). -/
def State.pass (s : State) (q : Nat) : State :=
  match s.qdesc q with
  | none => s
  | some d =>
    let s := s.editQueue q fun x =>
      let h := (x.head + 1) % 2 ^ d.log2n
      { x with head := h, bells := x.bells.dropWhile fun b => b.2 = h }
    let s := match s.slotOf q with
      | some (n, _) => s.editSlot (queueDie q) n fun v => { v with taken := none }
      | none => s
    if (s.queue q).head = (s.queue q).tail then s.unmap q else s

/-! ### Records (R323 to R327) -/

/-- The key of a record of a context. -/
def recKey (ctx a : Nat) : Nat := ctx * 2 ^ 56 + a

/-- A record of a context. -/
def State.record (s : State) (ctx a : Nat) : Option Rec := if a < 2 ^ 56 then Map.look s.records (recKey ctx a) else none

/-- Write a record. -/
def State.putRec (s : State) (ctx a : Nat) (r : Rec) : State := { s with records := Map.put s.records (recKey ctx a) r }

/-- Change a record. -/
def State.editRec (s : State) (ctx a : Nat) (g : Rec → Rec) : State := { s with records := Map.edit s.records (recKey ctx a) g }

/-- The physical address of a structure at a virtual address that a scheduler reads and writes; it lies in one page. -/
def State.schedPa (s : State) (ctx a : Nat) : Option Nat :=
  if 2 ^ 56 ≤ a then none
  else
    match s.leafAny ctx a with
    | .ok l => if l.rd && l.wr then some (l.pa a) else none
    | .error _ => none

/-- STATUS of a record (Table 11.6). -/
def Rec.status (r : Rec) : Nat := r.opened.toNat + r.done.toNat * 2 + r.creq.toNat * 4 + r.level * 16 + r.result * 256

/-- The 64 bytes of a record. -/
def Rec.bytes (r : Rec) : List Byte :=
  leBytes 4 r.pending ++ leBytes 4 r.faulted ++ leBytes 4 r.cancelled ++ leBytes 4 r.status ++ leBytes 8 r.parent ++ leBytes 4 r.tag.toNat
    ++ leBytes 4 r.ended ++ leBytes 8 r.tstart.toNat ++ leBytes 8 r.tdone.toNat ++ leBytes 16 0

/-- A record as memory holds it. -/
def Rec.of (b : List Byte) : Rec :=
  let n (o k : Nat) : Nat := leNat ((b.drop o).take k)
  let st := n 0x0C 4
  { pending := n 0 4, faulted := n 4 4, cancelled := n 8 4, opened := field st 0 0 = 1, done := field st 1 1 = 1, creq := field st 2 2 = 1
    level := field st 5 4, result := field st 15 8, parent := n 0x10 8, tag := BitVec.ofNat 32 (n 0x18 4), ended := n 0x1C 4
    tstart := BitVec.ofNat 64 (n 0x20 8), tdone := BitVec.ofNat 64 (n 0x28 8), irq := none }

/-- A record that the scheduler has cached, else the one memory holds. -/
def State.loadRec (s : State) (ctx a : Nat) : Option Rec :=
  match s.record ctx a with
  | some r => some r
  | none => (s.schedPa ctx a).map fun pa => Rec.of ((s.combine pa 64).bytes pa 64)

/-- The scheduler's read of a record that it has not cached (R304). -/
def State.readRec (s : State) (ctx a : Nat) : State :=
  match s.record ctx a, s.schedPa ctx a with
  | none, some pa => s.agentRead pa 64
  | _, _ => s

/-- The record's image is written when DONE is set (R327). -/
def State.writeRec (s : State) (ctx a : Nat) (r : Rec) : State :=
  match s.schedPa ctx a with
  | some pa => s.agentWrite pa r.bytes
  | none => s

/-- How an ended child counts (R326): by RESULT. -/
def Rec.endChild (p : Rec) (result : Nat) : Rec :=
  let p := { p with pending := p.pending - 1, ended := p.ended + 1 }
  if result = 1 || (decide (4 ≤ result) && decide (result ≤ 10)) then { p with faulted := p.faulted + 1 }
  else if result = 2 || result = 3 then { p with cancelled := p.cancelled + 1 }
  else p

/-- RESULT that Try sets. -/
def Rec.outcome (r : Rec) : Nat :=
  if r.result ≠ 0 then r.result else if r.creq then 2 else if 0 < r.faulted then 1 else if 0 < r.cancelled then 2 else 0

/-- What follows for a trap handler when a record completes (R420, R425). -/
def State.handlerHook (s : State) (ctx a result : Nat) : State :=
  match Map.look s.handlers ctx with
  | none => s
  | some h =>
    let s := if h.lrec = a then s.handlerEnded ctx result else s
    s.handlerOver ctx a

/-- Try applies to a record (R326). -/
def Rec.ready (r : Rec) : Bool := !r.done && r.pending = 0 && (!r.opened || r.creq)

/-- A record completed by Try at a time. -/
def Rec.finish (r : Rec) (time : Word64) : Rec := { r with result := r.outcome, done := true, tdone := time }

/-- Try(X) of R326, and End of its parents; `fuel` bounds the levels. -/
def State.tryRec : Nat → State → Nat → Nat → State
  | 0, s, _, _ => s
  | fuel + 1, s, ctx, a =>
    match s.record ctx a with
    | none => s
    | some r =>
      if !r.ready then s
      else
        let r := r.finish s.time
        let s := (s.putRec ctx a r).writeRec ctx a r
        let s := s.handlerHook ctx a r.result
        let s := if r.parent ≠ 0 then State.tryRec fuel (s.editRec ctx r.parent fun p => p.endChild r.result) ctx r.parent else s
        match r.irq with
        | some v => if r.level = 0 then s.sendMsix v else s
        | none => s

/-- Try(X). -/
def State.tryAt (s : State) (ctx a : Nat) : State := State.tryRec 8 s ctx a

/-- A unit of a launch has ended, as RESULT-like class: 0 normal, 1 faulted, 2 cancelled (R325, R326). -/
def State.endChildOf (s : State) (ctx a cls : Nat) : State := (s.editRec ctx a fun p => p.endChild cls).tryAt ctx a

/-- A record completes with a RESULT and no unit (R324). -/
def State.closeRec (s : State) (ctx a result : Nat) : State :=
  (s.editRec ctx a fun r => { r with pending := 0, result := if r.result = 0 then result else r.result }).tryAt ctx a

/-! ### Cancellation (R329) -/

/-- The records of a context at or below one. -/
def State.below (s : State) (ctx a : Nat) : List Nat :=
  let mine := s.records.filter fun p => p.1 / 2 ^ 56 = ctx
  (List.range 4).foldl (fun (l : List Nat) _ =>
    mine.foldl (fun l p => if p.2.parent ≠ 0 && l.contains p.2.parent && !(l.contains (p.1 % 2 ^ 56)) then l ++ [p.1 % 2 ^ 56] else l) l) [a]

/-- Whether a launch belongs to some records of a context. -/
def Launch.under (l : Launch) (ctx : Nat) (recs : List Nat) : Bool :=
  l.ctx = ctx && (recs.contains l.lrec || l.chain.any recs.contains)

/-- Drop a launch that a slot has taken; HEAD advances. -/
def State.dropTaken (s : State) (n : Nat) (l : Launch) : State := ({ s with launches := Map.del s.launches n } : State).pass l.queue

/-- Take a unit out of the machine: its cluster sees its rank end (R154), and its engine queue entries go. -/
def State.removeUnit (s : State) (u : Nat) : State :=
  match s.unit? u with
  | none => s
  | some un =>
    let s := { s with units := Map.each (Map.del s.units u) fun v x =>
      if x.launch = un.launch && (Map.vals un.mates).contains v then { x with rankEnded := NSet.add x.rankEnded un.rank } else x }
    s.editCore un.core fun k => { k with eng := k.eng.filter fun p => p.1 ≠ u }

/-- A launch with no unit left leaves the machine. -/
def State.gcLaunch (s : State) (n : Nat) : State :=
  if (s.units ++ s.evicted).any fun p => p.2.launch = n then s else { s with launches := Map.del s.launches n }

/-- An evicted unit is resumed no more: its banks are unmarked without a spill (R338). -/
def State.dropEvicted (s : State) (u : Nat) : State :=
  { s with
    evicted := Map.del s.evicted u
    cores := Map.each s.cores fun _ k => { k with marks := k.marks.filter fun m => m.unit ≠ u } }

/-- End an evicted launch's units without resuming them, as RESULT-like class; their images are discarded. -/
def State.discardEvicted (s : State) (n : Nat) (l : Launch) (cls : Nat) : State :=
  let us := (s.evicted.filter fun p => p.2.launch = n).map (·.1)
  (us.foldl (fun s u => (s.dropEvicted u).endChildOf l.ctx l.lrec cls) s).gcLaunch n

/-- A gang is asked to park no more: what ends it takes precedence over its pre-emption (R330, R337). -/
def State.unpark (s : State) (n : Nat) : State :=
  { s with
    launches := Map.edit s.launches n fun l => { l with st := .resident }
    units := Map.each s.units fun _ un => if un.launch = n then { un with parkReq := false } else un }

/-- Cancel one launch (R329, steps 2 to 4). A gang that is being pre-empted is saved no more, and its units end here (R330). -/
def State.cancelLaunch (s : State) (n : Nat) : State :=
  match Map.look s.launches n with
  | none => s
  | some l =>
    match l.st with
    | .taken => (s.closeRec l.ctx l.lrec 2).dropTaken n l
    | .evicted => s.discardEvicted n l 2
    | _ =>
      let s := if l.st = .resident then s else s.unpark n
      (s.units.filter fun p => p.2.launch = n).foldl (fun s p => (Map.keys p.2.warps).foldl (fun s w => s.cancelWarp p.1 w) s) s

/-- A cancel of a record (R329): whether it is accepted (0), too late (1), or names no record (2). -/
def State.cancelRec (s : State) (ctx a : Nat) : State × Nat :=
  match s.record ctx a with
  | none => (s, 2)
  | some r =>
    if r.done then (s, 1)
    else
      let recs := s.below ctx a
      let s := recs.foldl (fun s x => s.editRec ctx x fun r => if r.done then r else { r with creq := true }) s
      let ls := (s.launches.filter fun p => p.2.under ctx recs).map (·.1)
      let s := ls.foldl State.cancelLaunch s
      (recs.reverse.foldl (fun s x => s.tryAt ctx x) s, 0)

end Sys2Proof.Machine
end

