-- ==== Sys2Proof/Machine/Packet.lean ====
section
/-! DEFINITION. Command packets (11 R318 to R322, R324), code objects (02 R66 to R70), and the registration of a launch. -/
namespace Sys2Proof.Machine

/-! ### Packets (R318) -/

/-- The fields of a command packet (Table 11.4). -/
structure Pkt where
  ctl : Nat
  tag : Nat
  job : Nat
  phase : Nat
  graph : Nat
  lrec : Nat
  features : Nat
  start : Nat
  tco : Nat
  units : Nat
  warps : Nat
  rsv0 : Nat
  wait0 : Nat
  wait1 : Nat
  args : Nat
  rsv1 : Nat
  deriving DecidableEq, Repr

/-- Read 128 bytes as a packet. -/
def Pkt.of (b : List Byte) : Pkt :=
  let n (o k : Nat) : Nat := leNat ((b.drop o).take k)
  { ctl := n 0 4, tag := n 4 4, job := n 8 8, phase := n 0x10 8, graph := n 0x18 8, lrec := n 0x20 8, features := n 0x28 16, start := n 0x38 8
    tco := n 0x40 8, units := n 0x48 4, warps := n 0x4C 1, rsv0 := n 0x4D 3, wait0 := n 0x50 8, wait1 := n 0x58 8, args := n 0x60 8
    rsv1 := n 0x68 24 }

/-- TYPE of a packet. -/
def Pkt.type (p : Pkt) : Nat := field p.ctl 3 0
/-- WMARK. -/
def Pkt.wmark (p : Pkt) : Bool := field p.ctl 7 7 = 1
/-- NARG. -/
def Pkt.narg (p : Pkt) : Nat := field p.ctl 11 8
/-- KIDX. -/
def Pkt.kidx (p : Pkt) : Nat := field p.ctl 31 16

/-- A packet that the scheduler has marked withdrawn (R331). -/
def Pkt.withdrawn (p : Pkt) : Bool := p.type = 3 && p.wmark

/-- An address that is a multiple of 64. -/
def al64 (a : Nat) : Bool := a % 64 = 0

/-- The form a packet must have, its record addresses' translation aside (R318). -/
def Pkt.formed (p : Pkt) : Bool :=
  decide (p.type ≤ 2) && !p.wmark && field p.ctl 15 12 = 0 && decide (p.narg ≤ 8) && p.rsv0 = 0 && p.rsv1 = 0 &&
    match p.type with
    | 1 =>
      p.job ≠ 0 && al64 p.job && al64 p.phase && al64 p.graph && al64 p.lrec && p.tco % 256 = 0 && decide (1 ≤ p.units)
        && decide (p.units < 2 ^ 24) && decide (1 ≤ p.warps) && decide (p.warps ≤ 32) && al64 p.wait0 && al64 p.wait1 && p.args % 16 = 0
    | 2 => al64 p.lrec
    | _ => true

/-- The packet is well formed in its queue's context. -/
def State.pktOk (s : State) (ctx : Nat) (p : Pkt) : Bool := p.formed && (p.type = 0 || (s.schedPa ctx p.lrec).isSome)

/-- A malformed packet: STATUS counts it, and a record of the context at its LREC takes RESULT *malformed*, whatever it held (R318). -/
def State.malformed (s : State) (q ctx : Nat) (p : Pkt) : State :=
  let s := s.editQueue q fun x => { x with malf := min (x.malf + 1) 65535 }
  if !(al64 p.lrec) then s
  else
    match s.record ctx p.lrec with
    | none => s
    | some r =>
      let r := { r with result := 5 }
      let s := s.putRec ctx p.lrec r
      if r.done then s.writeRec ctx p.lrec r else s.tryAt ctx p.lrec

/-! ### Code objects (R66 to R70) -/

/-- Whether `n` bytes of a context's address space translate, may be read, and are not poisoned. -/
def State.readable (s : State) (ctx va n : Nat) : Bool :=
  n = 0 ||
    (span (va / 131072) ((va + n - 1) / 131072 + 1 - va / 131072)).all fun p =>
      match s.leafAny ctx (131072 * p) with
      | .ok l =>
        let lo := max va (131072 * p)
        let hi := min (va + n) (131072 * p + 131072)
        l.rd && !(s.poisoned (l.pa lo) (hi - lo))
      | .error _ => false

/-- A number of `n` bytes at a virtual address. -/
def State.vnum (s : State) (ctx va n : Nat) : Nat := ((s.vbytes (Config.heldPick s.cycle.toNat ctx (va / 131072) % 2) ctx va n).map leNat).getD 0

/-- The header of a code object (Table 2.10). -/
structure Tco where
  magic : Nat
  vmaj : Nat
  features : Nat
  nkern : Nat
  ktab : Nat
  text : Nat
  tsize : Nat
  cmap : Nat
  data : Nat
  dsize : Nat
  rsv : Nat
  deriving DecidableEq, Repr

/-- Read the header of a code object. -/
def State.tco (s : State) (ctx a : Nat) : Tco :=
  let n (o k : Nat) : Nat := s.vnum ctx (a + o) k
  { magic := n 0 4, vmaj := n 4 2, features := n 8 16, nkern := n 0x18 4, ktab := n 0x1C 4, text := n 0x20 4, tsize := n 0x24 4
    cmap := n 0x28 4, data := n 0x2C 4, dsize := n 0x30 4, rsv := n 0x34 12 }

/-- Size of the clause map. -/
def Tco.cmapSize (t : Tco) : Nat := ((t.tsize + 31) / 32 + 3) / 4 * 4

/-- The regions of an object: offset and size (R69). -/
def Tco.regions (t : Tco) : List (Nat × Nat) :=
  [(0, 64), (t.ktab, 32 * t.nkern), (t.text, t.tsize), (t.cmap, t.cmapSize), (t.data, t.dsize)]

/-- Two regions share a byte. -/
def meets (x y : Nat × Nat) : Bool := decide (x.1 < y.1 + y.2) && decide (y.1 < x.1 + x.2) && x.2 ≠ 0 && y.2 ≠ 0

/-- No two regions of a list overlap. -/
def disjoint : List (Nat × Nat) → Bool
  | [] => true
  | x :: t => !(t.any (meets x)) && disjoint t

/-- A kernel descriptor (Table 2.11). -/
structure Kern where
  entry : Nat
  regs : Nat
  acc : Nat
  scratch : Nat
  cluster : Nat
  flags : Nat
  rsv : Nat
  name : List Byte
  deriving DecidableEq, Repr

/-- Read a kernel descriptor. -/
def State.kern (s : State) (ctx a : Nat) (t : Tco) (i : Nat) : Kern :=
  let n (o k : Nat) : Nat := s.vnum ctx (a + t.ktab + 32 * i + o) k
  { entry := n 0 4, regs := n 4 2, acc := n 6 2, scratch := n 8 4, cluster := n 12 1, flags := n 13 1, rsv := n 14 2
    name := leBytes 16 (n 16 16) }

/-- A kernel's name (Tables 2.9 and 2.11): 1 to 16 ASCII characters, then zeros. -/
def nameOk (l : List Byte) : Bool :=
  let chars := l.takeWhile (· ≠ 0#8)
  chars ≠ [] && chars.all (fun b => decide (b.toNat < 128)) && (l.drop chars.length).all (· = 0#8)

/-- The limits of Table 2.9. -/
def Kern.ok (k : Kern) : Bool :=
  nameOk k.name &&
  decide (16 ≤ k.regs) && decide (k.regs ≤ 512) && k.regs % 16 = 0 && decide (k.acc ≤ 1536) && k.acc % 32 = 0 && decide (k.scratch ≤ 524288)
    && k.scratch % 256 = 0 && decide (1 ≤ k.cluster) && decide (k.cluster ≤ 8) && decide (k.flags ≤ 1) && k.rsv = 0

/-- A code address is a header in the clause map of an object. -/
def State.mapped (s : State) (ctx a : Nat) (t : Tco) (e : Nat) : Bool :=
  e % 4 = 0 && decide (e < t.tsize) && (s.vnum ctx (a + t.cmap + e / 32) 1) / 2 ^ (e / 4 % 8) % 2 = 1

/-- DEV_FEATCAP (R70). -/
def featCap : Nat := 0x0FFFFFFF

/-- A code object passes R69, and the launch's features R1. -/
def State.tcoOk (s : State) (ctx a features : Nat) : Bool :=
  s.readable ctx a 64 &&
    let t := s.tco ctx a
    t.magic = 0x43545856 && t.vmaj = 1 && t.rsv = 0 && decide (t.features ||| features ≤ featCap) && t.nkern ≠ 0 && t.text % 256 = 0
      && t.tsize % 4 = 0 && t.ktab % 4 = 0 && t.cmap % 4 = 0 && t.regions.all (fun r => decide (r.1 + r.2 ≤ 2 ^ 32)) && disjoint t.regions
      && t.regions.all (fun r => s.readable ctx (a + r.1) r.2)
      && (List.range t.nkern).all fun i => (s.kern ctx a t i).ok && s.mapped ctx a t (s.kern ctx a t i).entry

/-! ### Arguments (R321) -/

/-- A capability on [base, base + len), rounded out as CBND.round rounds, with its cursor at the rounded base. -/
def grant (space perm base len : Nat) : Cap × Bool :=
  Cap.narrow { rsv := 0, space := space, perm := perm, topm := 0, basem := 0, exp := 63, cursor := base } true false len

/-- The capability of an argument entry; nothing when it is denied. -/
def argCap (d : QDesc) (tco : Nat) (t : Tco) (e : Nat) : Option (BitVec 128) :=
  let base := field e 55 0
  let space := field e 59 56
  let len := field e 111 64
  let perm := field e 119 112
  let root := Cap.of (BitVec.ofNat 128 d.argroot)
  if field e 63 60 ≠ 0 then none
  else
    match field e 127 120 with
    | 0 =>
      let g := grant space (perm &&& root.perm) base len
      let g : Cap := if d.sys then g.1 else { g.1 with perm := g.1.perm % 128 }
      if root.ok && space = root.space && (grant space 0 base len).2 && root.covers g then some g.bits else none
    | 1 => if base = 0 && len = 0 && perm = 0 && space = 0 then
        let g := grant 0 3 (tco + t.data) t.dsize
        if g.2 then some g.1.bits else none
      else none
    | 2 => if space = 1 && decide (base + len ≤ 2 ^ 19) && perm &&& 0x37 = perm then some (grant 1 perm base len).1.bits else none
    | 3 => if space = 2 && decide (base + len ≤ 2 ^ 22) && perm &&& 0x37 = perm then some (grant 2 perm base len).1.bits else none
    | _ => none

/-- The argument capabilities of a packet; nothing when one is denied. -/
def State.arguments (s : State) (d : QDesc) (p : Pkt) (t : Tco) : Option (List (BitVec 128)) :=
  (List.range p.narg).mapM fun i =>
    if s.readable d.ctx (p.args + 16 * i) 16 then argCap d p.tco t (s.vnum d.ctx (p.args + 16 * i) 16) else none

/-! ### What a launch needs (R26, R332, R333, R339) -/

/-- Size of a unit's save image (R339). -/
def imageSize (acc scratch regs warps : Nat) : Nat :=
  (35648 + 576 * acc + scratch + scratch / 128 + 2064 * (warps * regs / 16) + 16448 * 16 + 4095) / 4096 * 4096

/-- What one unit of a launch takes: registers a warp, accumulator rows, scratchpad bytes, the FIFOs, warps, fragment entries; and its cluster's
size. -/
structure Demand where
  regs : Nat
  acc : Nat
  scratch : Nat
  stream : Bool
  warps : Nat
  frags : Nat
  cluster : Nat
  deriving DecidableEq, Repr

/-- What is free on a core: warp slots and register banks of each quadrant, accumulator rows, scratchpad bytes, the FIFOs, fragment entries. -/
structure Room where
  quads : List (Nat × Nat)
  acc : Nat
  scratch : Nat
  stream : Bool
  frags : Nat
  deriving DecidableEq, Repr

/-- An idle core (R16, R26, R264). -/
def Room.idle : Room := { quads := List.replicate 4 (32, 128), acc := 1536, scratch := 524288, stream := true, frags := 1024 }

/-- Units that fit in a core's room (Table 1.3, R332). -/
def Demand.units (d : Demand) (r : Room) : Nat :=
  let upTo (need have_ : Nat) (n : Nat) : Nat := if need = 0 then n else min n (have_ / need)
  let byWarps := (r.quads.map fun q => min q.1 (q.2 / (d.regs / 16))).sum / d.warps
  let n := upTo d.acc r.acc (upTo d.scratch r.scratch (upTo d.frags r.frags byWarps))
  if d.stream then if r.stream then min n 1 else 0 else n

/-- Active cores (R431). -/
def State.activeCores (s : State) : List Nat := (span 0 192).filter fun c => !(NSet.has s.dev.retCores c)

/-- The cores of every 4 × 2 and 2 × 4 rectangle of a die's mesh (R3, R332). -/
def rectangles (die : Nat) : List (List Nat) :=
  let rect (w h : Nat) : List (List Nat) :=
    (List.range (9 - h)).flatMap fun y => (List.range (13 - w)).map fun x =>
      (List.range h).flatMap fun j => (List.range w).map fun i => 96 * die + 12 * (y + j) + x + i
  rect 4 2 ++ rect 2 4

/-- Place `left` units of a cluster on some of the cores of a list, and go on with the room that is left. -/
def placeOn (go : Map Nat → Bool) : List Nat → Nat → Map Nat → Bool
  | [], left, m => left = 0 && go m
  | c :: cs, left, m =>
    let top := min (Map.lookD m c 0) left
    (List.range (top + 1)).any fun j => placeOn go cs (left - (top - j)) (Map.put m c (Map.lookD m c 0 - (top - j)))

/-- Whether clusters of the sizes listed can be placed, each on cores of one rectangle (R332). -/
def packs : List Nat → Map Nat → Bool
  | [], _ => true
  | n :: t, m => (rectangles 0 ++ rectangles 1).any fun r => placeOn (packs t) r n m

/-- Whether the units of a launch can be placed at one moment, given how many each core takes (R332). -/
def Demand.fits (d : Demand) (units : Nat) (m : Map Nat) : Bool :=
  decide (units ≤ (Map.vals m).sum) &&
    (decide (d.cluster ≤ 1)
      || packs (List.replicate (units / d.cluster) d.cluster ++ if units % d.cluster = 0 then [] else [units % d.cluster]) m)

/-- Whether a launch could be placed on an idle package (R333). -/
def State.couldFit (s : State) (d : Demand) (units : Nat) : Bool := d.fits units (s.activeCores.map fun c => (c, d.units Room.idle))

/-- What a unit of a kernel takes. -/
def Kern.demand (k : Kern) (warps : Nat) : Demand :=
  { regs := k.regs, acc := k.acc, scratch := k.scratch, stream := k.flags = 1, warps := warps, frags := warps, cluster := k.cluster }

/-! ### Registration (R324) -/

/-- How the walk of a chain ended. -/
inductive ChainEnd where
  | whole
  | failed (result : Nat)
  | cancelled
  deriving DecidableEq, Repr

/-- Register the levels of a chain from the outermost inward: `y` is the level registered just before. Answers the state, the level the
packet reports to, and how the walk ended (R324). A record takes the TAG of the packet that first registers it (log entry 35). -/
def State.registerChain (s : State) (ctx : Nat) (tag : Word) (y : Option Nat) : List (Nat × Nat) → State × Option Nat × ChainEnd
  | [] => (s, y, .whole)
  | (level, x) :: rest =>
    let s := s.readRec ctx x
    match s.schedPa ctx x, s.loadRec ctx x with
    | some _, some r =>
      if r.level ≠ level || (r.parent ≠ 0 && some r.parent ≠ y) then (s, y, .failed 8)
      else if r.done || (!r.opened && !r.creq) then (s, y, .failed 9)
      else if r.creq then (s.putRec ctx x r, some x, .cancelled)
      else
        let r := if (s.record ctx x).isNone then { r with tag := tag } else r
        let s := match r.parent, y with
          | 0, some p => (s.putRec ctx x { r with parent := p }).editRec ctx p fun q => { q with pending := q.pending + 1 }
          | _, _ => s.putRec ctx x r
        s.registerChain ctx tag (some x) rest
    | _, _ => (s, y, .failed 8)

/-- The parent chain of a packet, outermost first, with the level each field names (R323). -/
def Pkt.chain (p : Pkt) : List (Nat × Nat) :=
  (3, p.job) :: ((if p.phase = 0 then [] else [(2, p.phase)]) ++ (if p.graph = 0 then [] else [(1, p.graph)]))

/-- Write a launch's own record (R324). -/
def State.launchRecord (s : State) (d : QDesc) (p : Pkt) (y : Option Nat) : State :=
  let s := match y with
    | some a => s.editRec d.ctx a fun r => { r with pending := r.pending + 1 }
    | none => s
  s.putRec d.ctx p.lrec
    { pending := p.units, faulted := 0, cancelled := 0, opened := false, done := false, creq := false, level := 0, result := 0
      parent := y.getD 0, tag := BitVec.ofNat 32 p.tag, ended := 0, tstart := 0, tdone := 0
      irq := if field p.ctl 5 5 = 1 && d.irqen then some d.msix else none }

/-- The RESULT with which a LAUNCH fails at registration (R319, R320), or the launch it makes. DESIGN CHOICE (log entry 35): where several conditions
hold, the first in this order: object or feature, kernel index, arguments, too large, translation of a WAIT field. -/
def State.makeLaunch (s : State) (q : Nat) (d : QDesc) (p : Pkt) (handler : Bool) : Except Nat Launch :=
  if !(s.tcoOk d.ctx p.tco p.features) then .error 4
  else
    let t := s.tco d.ctx p.tco
    if t.nkern ≤ p.kidx then .error 5
    else
      match s.arguments d p t with
      | none => .error 7
      | some args =>
        let k := s.kern d.ctx p.tco t p.kidx
        let untranslated (a : Nat) : Bool := a ≠ 0 && (decide (2 ^ 56 ≤ a) || match s.leafAny d.ctx a with
          | .ok _ => false
          | .error _ => true)
        if !(s.couldFit (k.demand p.warps) p.units) || decide (d.savelen < p.units * imageSize k.acc k.scratch k.regs p.warps) then .error 6
        else if untranslated p.wait0 || untranslated p.wait1 then .error 5
        else
          .ok
            { ctx := d.ctx, text := p.tco + t.text, tsize := t.tsize, cmap := p.tco + t.cmap, entry := k.entry, regs := k.regs, acc := k.acc
              scratch := k.scratch, cluster := k.cluster, stream := k.flags = 1, handler := handler, lrec := p.lrec, queue := q
              tag := BitVec.ofNat 32 p.tag, units := p.units, warps := p.warps, kidx := p.kidx, args := args, uidx := field p.ctl 6 6 = 1
              start := BitVec.ofNat 64 p.start, waitPrev := field p.ctl 4 4 = 1, wait0 := p.wait0, wait1 := p.wait1
              chain := p.chain.map (·.2), prio := d.prio, st := .taken, order := s.nextLaunch, regTime := s.time, admitTime := 0
              admitted := false, parkTime := 0, blocking := false }

/-- Register a LAUNCH: its chain, its record, and the launch, which waits for admission; nothing waits when it fails or is cancelled. The
number of the launch is answered when it waits. -/
def State.registerLaunch (s : State) (q : Nat) (d : QDesc) (p : Pkt) (handler : Bool) : State × Option Nat :=
  let r := s.registerChain d.ctx (BitVec.ofNat 32 p.tag) none p.chain
  let s := r.1.launchRecord d p r.2.1
  match r.2.2 with
  | .failed c => (s.closeRec d.ctx p.lrec c, none)
  | .cancelled => (s.closeRec d.ctx p.lrec 2, none)
  | .whole =>
    match s.makeLaunch q d p handler with
    | .error c => (s.closeRec d.ctx p.lrec c, none)
    | .ok l => ({ s with launches := Map.put s.launches s.nextLaunch l, nextLaunch := s.nextLaunch + 1 }, some s.nextLaunch)

/-- CLOSE of a record that no packet has registered (R327): its memory changes, and no record of the context comes to be; it has no parent
(log entry 35). Where it was to be a trap handler's job, another handler may start (R420). -/
def State.closeUnregistered (s : State) (ctx a : Nat) (r : Rec) : State :=
  let r := { r with opened := false, parent := 0 }
  if r.ready then (s.writeRec ctx a (r.finish s.time)).handlerOver ctx a else s.writeRec ctx a r

/-- CLOSE (R320): OPEN is cleared in the record at LREC, which is then tried; a record that is not OPEN is left alone. The image of a record that
is DONE follows. -/
def State.closeLevel (s : State) (ctx a : Nat) : State :=
  let s := s.readRec ctx a
  match s.record ctx a, s.loadRec ctx a with
  | some r, _ =>
    if !r.opened then s
    else
      let r := { r with opened := false }
      let s := s.putRec ctx a r
      if r.done then s.writeRec ctx a r else s.tryAt ctx a
  | none, some r => if r.opened then s.closeUnregistered ctx a r else s
  | none, none => s

end Sys2Proof.Machine
end

