-- ==== Sys2Proof/Machine/Matrix.lean ====
section
/-! DEFINITION. The arithmetic of the matrix engine (03 R76 to R78, R86 to R89): one K step of one accumulator row, and the row operations of
07 R222 to R226. -/
namespace Sys2Proof.Machine

/-! ### Values -/

/-- Round24 (R86): a 24-bit significand, ties to even, exponents unbounded. -/
def round24 (x : FVal) : FVal :=
  match x with
  | .fin neg m e =>
    if bitLen m ≤ 24 then .fin neg m e
    else
      let q := e + bitLen m - 24
      .fin neg (roundAt .rn neg m e q).1 q
  | v => v

/-- An input element (R86, R89): a subnormal becomes zero of its sign and is counted, a signalling NaN is counted. -/
def matIn (f : Fmt) (x : Nat) : FVal × RowEv :=
  match f.val x with
  | .nan sig => (.nan false, ⟨0, 0, if sig then 1 else 0⟩)
  | .fin neg m e => if m ≠ 0 ∧ m < 2 ^ f.mb then (.fin neg 0 e, ⟨1, 0, 0⟩) else (.fin neg m e, RowEv.zero)
  | v => (v, RowEv.zero)

/-- A K4 code through a codebook (R76, R77): a NaN entry is a reserved code, which counts one invalid. -/
def k4In (cb : BitVec 256) (code : Nat) : FVal × RowEv :=
  let e := cb.toNat / 2 ^ (16 * code) % 65536
  if (bf16.val e).isNan then (.nan false, ⟨0, 0, 1⟩) else matIn bf16 e

/-- A sum at a node: rounded by Round24, with an invalid for infinities of opposite sign. -/
def matSum (x y : FVal) : FVal × RowEv :=
  let r := fadd .rn x y
  (round24 r.1, ⟨0, 0, if r.2 then 1 else 0⟩)

/-- The products of a step, with the invalids of zero times infinity. -/
def matProds (as bs : List FVal) : List FVal × RowEv :=
  let ps := List.zipWith fmul as bs
  (ps.map (·.1), ps.foldl (fun e p => e.plus ⟨0, 0, if p.2 then 1 else 0⟩) RowEv.zero)

/-- The sum of a step (R87): pairs in order, by width. -/
def matTree (ps : List FVal) : FVal × RowEv :=
  match ps with
  | [p] => (p, RowEv.zero)
  | [p, q] => matSum p q
  | [p, q, r, t] =>
    let x := matSum p q
    let y := matSum r t
    let z := matSum x.1 y.1
    (z.1, (x.2.plus y.2).plus z.2)
  | _ => (.fin false 0 0, RowEv.zero)

/-- WriteAcc (R87). -/
def writeAcc (x : FVal) : Word × RowEv :=
  match x with
  | .nan _ => (0x7FC00000#32, RowEv.zero)
  | v =>
    let r := f32.round .rn v
    let ovf := if r.2 &&& flOF ≠ 0#5 then 1 else 0
    if r.1 % 2 ^ 31 ≠ 0 ∧ r.1 % 2 ^ 31 < 2 ^ 23 then (BitVec.ofNat 32 (r.1 / 2 ^ 31 * 2 ^ 31), ⟨1, ovf, 0⟩)
    else (BitVec.ofNat 32 r.1, ⟨0, ovf, 0⟩)

/-- One floating-point step of one element (R87, R89); `as` is decoded already. -/
def floatStep (as : List FVal) (bs : List (FVal × RowEv)) (acc : Word) : Word × RowEv :=
  let p := matProds as (bs.map (·.1))
  let s := matTree p.1
  let a := matIn f32 acc.toNat
  let t := fadd .rn a.1 s.1
  let w := writeAcc t.1
  (w.1, (((bs.foldl (fun e b => e.plus b.2) RowEv.zero).plus p.2).plus s.2).plus ((a.2.plus ⟨0, 0, if t.2 then 1 else 0⟩).plus w.2))

/-- One integer step of one element (R88). -/
def intStep (acc : Word) (sum : Int) : Word × RowEv :=
  let t := acc.toInt + sum
  (BitVec.ofInt 32 t, ⟨0, if t < -(2 ^ 31) ∨ 2 ^ 31 - 1 < t then 1 else 0, 0⟩)

/-! ### K steps (Tables 3.5, 7.2, 7.3) -/

/-- Number of K steps of n registers. -/
def MmaKind.steps (k : MmaKind) (n : Nat) : Nat :=
  match k with
  | .k4 => 2 * n
  | .xor => n / 4
  | .and => n / 4
  | _ => n

/-- Bytes of a B slab. -/
def MmaKind.slab : MmaKind → Nat
  | .k4 => 1024
  | .xor => 2048
  | .and => 2048
  | _ => 512

/-- `n` bits of a word from bit lo. -/
def wbits (w : Word) (lo n : Nat) : Nat := w.toNat / 2 ^ lo % 2 ^ n

/-- A little-endian number among the bytes of a slab. -/
def slabAt (b : Nat → Byte) (off n : Nat) : Nat := ((List.range n).map fun i => (b (off + i)).toNat * 256 ^ i).sum

/-- The A elements of a floating-point step s: thread row a, codebook cb. -/
def matA (k : MmaKind) (a : List Word) (cb : BitVec 256) (s : Nat) : List (FVal × RowEv) :=
  match k with
  | .bf16 => [matIn bf16 (wbits (a.getD s 0) 0 16), matIn bf16 (wbits (a.getD s 0) 16 16)]
  | .f16 => [matIn f16 (wbits (a.getD s 0) 0 16), matIn f16 (wbits (a.getD s 0) 16 16)]
  | .f32 => [matIn f32 (a.getD s 0).toNat]
  | .k4 => (List.range 4).map fun m => k4In cb (wbits (a.getD (s / 2) 0) (4 * (4 * (s % 2) + m)) 4)
  | _ => []

/-- The B elements of column j in a floating-point step. -/
def matB (k : MmaKind) (b : Nat → Byte) (j : Nat) : List (FVal × RowEv) :=
  match k with
  | .bf16 => (List.range 2).map fun m => matIn bf16 (slabAt b (4 * j + 2 * m) 2)
  | .f16 => (List.range 2).map fun m => matIn f16 (slabAt b (4 * j + 2 * m) 2)
  | .f32 => [matIn f32 (slabAt b (4 * j) 4)]
  | .k4 => (List.range 4).map fun m => matIn bf16 (slabAt b (8 * j + 2 * m) 2)
  | _ => []

/-- What an integer step adds to column j. -/
def matInt (k : MmaKind) (a : List Word) (b : Nat → Byte) (s j : Nat) : Int :=
  match k with
  | .i8 =>
    ((List.range 4).map fun m => (BitVec.ofNat 8 (wbits (a.getD s 0) (8 * m) 8)).toInt * (b (4 * j + m)).toInt).sum
  | .xor => ((List.range 4).map fun i => (popCount (a.getD (4 * s + i) 0 ^^^ BitVec.ofNat 32 (slabAt b (16 * j + 4 * i) 4)) : Int)).sum
  | .and => ((List.range 4).map fun i => (popCount (a.getD (4 * s + i) 0 &&& BitVec.ofNat 32 (slabAt b (16 * j + 4 * i) 4)) : Int)).sum
  | _ => 0

/-- Kinds that accumulate in INT32. -/
def MmaKind.isInt : MmaKind → Bool
  | .i8 => true
  | .xor => true
  | .and => true
  | _ => false

/-- An element of a row. -/
def AccRow.get (r : AccRow) (j : Nat) : Word := Map.lookD r.data j 0#32

/-- Write an element of a row. -/
def AccRow.set (r : AccRow) (j : Nat) (x : Word) : AccRow := { r with data := Map.putD r.data j x 0#32 }

/-- Count events into a row. -/
def AccRow.count (r : AccRow) (e : RowEv) : AccRow := { r with mxexc := mxCount r.mxexc e }

/-- Change every element of a row, counting. -/
def AccRow.mapCols (r : AccRow) (n : Nat) (f : Nat → Word → Word × RowEv) : AccRow :=
  let q := (List.range n).foldl (fun (p : AccRow × RowEv) j => let x := f j (p.1.get j); (p.1.set j x.1, p.2.plus x.2)) (r, RowEv.zero)
  q.1.count q.2

/-- One K step of one row (R87, R88): the A elements count once, the B and accumulator elements for each column. -/
def AccRow.kstep (r : AccRow) (k : MmaKind) (a : List Word) (cb : BitVec 256) (b : Nat → Byte) (s : Nat) : AccRow :=
  if k.isInt then r.mapCols 128 fun j acc => intStep acc (matInt k a b s j)
  else
    let as := matA k a cb s
    (r.mapCols 128 fun j acc => floatStep (as.map (·.1)) (matB k b j) acc).count (as.foldl (fun e x => e.plus x.2) RowEv.zero)

/-! ### Row operations (R221 to R227) -/

/-- ACCMX (R225): the maximum of the first n elements, and of one more when there is one. -/
def AccRow.maxOf (r : AccRow) (n : Nat) (extra : Option Word) : Word × AccRow :=
  let xs := ((List.range n).map r.get) ++ extra.toList
  let flush (x : Word) : Word × Nat := if x.toNat % 2 ^ 31 < 2 ^ 23 && x.toNat % 2 ^ 31 ≠ 0 then (x &&& 0x80000000#32, 1) else (x, 0)
  let ys := xs.map fun x => (flush x).1
  let fl := (xs.map fun x => (flush x).2).sum
  if ys.any fun y => (f32.val y.toNat).isNan then (0x7FC00000#32, r.count ⟨fl, 0, 1⟩)
  else
    match ys with
    | [] => (0#32, r)
    | y :: t => (t.foldl (fun m x => if fltTotal (f32.val m.toNat) (f32.val x.toNat) then x else m) y, r.count ⟨fl, 0, 0⟩)

/-- One element of ACCEXS (R226). -/
def expElem (m x : Word) : Word × RowEv :=
  match f32.val x.toNat with
  | .inf true => (0#32, RowEv.zero)
  | v =>
    if v.isNan || (f32.val m.toNat).isNan then (0x7FC00000#32, ⟨0, 0, 1⟩)
    else
      let z := (f32.add .rn x.toNat ((m ^^^ 0x80000000#32).toNat)).1
      let y := (fex2 .rn z).1
      let fin := match f32.val z with
        | .fin _ _ _ => true
        | _ => false
      if y = f32.inf then (BitVec.ofNat 32 y, ⟨0, if fin then 1 else 0, 0⟩)
      else if y % 2 ^ 31 ≠ 0 ∧ y % 2 ^ 31 < 2 ^ 23 then (0#32, ⟨1, 0, 0⟩)
      else (BitVec.ofNat 32 y, RowEv.zero)

/-- One level of the sum tree. -/
def sumLevel : List FVal → List FVal
  | x :: y :: t => (round24 (fadd .rn x y).1) :: sumLevel t
  | l => l

/-- ACCEXS on a row (R226): the elements exponentiated, and their sum. -/
def AccRow.expSum (r : AccRow) (n : Nat) (m : Word) : Word × AccRow :=
  let r := r.mapCols n fun _ x => expElem m x
  let ys := (List.range 128).map fun j => if j < n then f32.val (r.get j).toNat else .fin false 0 0
  let s := (List.range 7).foldl (fun l _ => sumLevel l) ys
  let w := writeAcc (s.headD (.fin false 0 0))
  (w.1, r.count w.2)

/-- ACCMSK on a row (R227). -/
def AccRow.maskOut (r : AccRow) : AccRow :=
  (List.range 128).foldl (fun r j => if r.plane.getLsbD j then r else r.set j 0xFF800000#32) r

/-- Bytes of an element in the scratchpad. -/
def AccFmt.bytes : AccFmt → Nat
  | .f32 => 4
  | .bf16 => 2
  | .f16 => 2
  | .i8 => 1

/-- An element as ACCLD widens it (R222). -/
def accWiden (f : AccFmt) (x : Nat) : Word :=
  match f with
  | .bf16 => BitVec.ofNat 32 (fcvt bf16 f32 .rn x).1
  | .f16 => BitVec.ofNat 32 (fcvt f16 f32 .rn x).1
  | _ => BitVec.ofNat 32 x

/-- An element as ACCST narrows it (R222): subnormal results become zero. -/
def narrowAcc (f : Fmt) (x : Word) : Nat × RowEv :=
  let r := fcvt f32 f .rn x.toNat
  let ovf := if r.2 &&& flOF ≠ 0#5 then 1 else 0
  let mag := r.1 % f.signBit
  if mag ≠ 0 ∧ mag < 2 ^ f.mb then (r.1 / f.signBit * f.signBit, ⟨1, ovf, 0⟩) else (r.1, ⟨0, ovf, 0⟩)

/-- An element quantised by ACCST.i8 (R223). The spec states no result for an infinity times a zero: `free` stands for it. -/
def quantise (x sc : Word) (free : Byte) : Nat × RowEv :=
  if (f32.val x.toNat).isNan || (f32.val sc.toNat).isNan then (0, ⟨0, 0, 1⟩)
  else
    let y := (f32.mul .rn x.toNat sc.toNat).1
    match f32.val y with
    | .nan _ => (free.toNat, RowEv.zero)
    | .inf neg => (if neg then 128 else 127, ⟨0, 1, 0⟩)
    | .fin neg m e =>
      let n := (toIntegral .rn neg m e).1
      if neg then if 128 < n then (128, ⟨0, 1, 0⟩) else ((256 - n) % 256, RowEv.zero)
      else if 127 < n then (127, ⟨0, 1, 0⟩) else (n, RowEv.zero)

/-- A row image (Table 7.4). -/
def AccRow.image (r : AccRow) : List Byte :=
  ((List.range 128).flatMap fun j => leBytes 4 (r.get j).toNat) ++ leBytes 16 r.plane.toNat ++ leBytes 4 r.mxexc.toNat
    ++ List.replicate 44 0#8

/-- A row from its image (R224). -/
def AccRow.ofImage (b : Nat → Byte) : AccRow :=
  { data := (List.range 128).foldl (fun m j => Map.putD m j (BitVec.ofNat 32 (slabAt b (4 * j) 4)) 0#32) []
    plane := BitVec.ofNat 128 (slabAt b 512 16), mxexc := BitVec.ofNat 24 (slabAt b 528 4), poison := false }

end Sys2Proof.Machine
end

