-- ==== Sys2Proof/Machine/Exchange.lean ====
section
/-! DEFINITION. Lane exchange (04 R129 to R135): words that gather a value from every active thread and deliver results in a second
pass (R20). -/
namespace Sys2Proof.Machine

/-- The shape of a cross-thread word (R129): two passes; results are computed from the values before the word. -/
def exchAlu (use : List Opn) (ps : List (BitVec 3)) (words : Nat) (tag : RTag) (out : Ctx → Nat → Out) : Alu :=
  { use := use, ps := ps, words := words, passes := 2, int := false, srcs := fun _ => [], tag := fun _ => tag, out := out }

/-- A cross-thread word. -/
def exchange (use : List Opn) (ps : List (BitVec 3)) (words : Nat) (tag : RTag) (out : Ctx → Nat → Out) : Meaning :=
  (exchAlu use ps words tag out).run

/-- BALLOT (R131). -/
def execBallot (d : Reg) (a : PredSrc) : Meaning :=
  exchange [opV d] [a.p] 1 .uniform fun c _ =>
    .ofRegs (c.wr d ((threads c.act).foldl (fun m u => if c.rdPred a u then m ||| bit u else m) 0#32))

/-- VOTE.every (R131). -/
def execVoteEvery (d : PredReg) (a : PredSrc) : Meaning :=
  exchange [] [d, a.p] 1 .uniform fun c _ => .ofPred d ((threads c.act).all fun u => c.rdPred a u)
/-- VOTE.some (R131). -/
def execVoteSome (d : PredReg) (a : PredSrc) : Meaning :=
  exchange [] [d, a.p] 1 .uniform fun c _ => .ofPred d ((threads c.act).any fun u => c.rdPred a u)
/-- VOTE.agree (R131). -/
def execVoteAgree (d : PredReg) (a : PredSrc) : Meaning :=
  exchange [] [d, a.p] 1 .uniform fun c _ => .ofPred d ((threads c.act).all fun u => c.rdPred a u == c.rdPred a c.low)

/-- Segment width of SHFL (Table 4.8). -/
def shflW : ShflWidth → Nat
  | .w32 => 32
  | .w16 => 16
  | .w8 => 8

/-- SHFL (R132): `src` gives the source thread, if there is one; a thread whose source is outside or not active keeps its vd. The destination is
general in any case, also where every active thread keeps its vd (Table 1.1). -/
def shfl (d a : Reg) (b : Opd) (src : Ctx → Nat → Option Nat) : Meaning :=
  let x := exchAlu (opV d :: opV a :: opdV b) [] (opdWords b) .general fun c t =>
    match src c t with
    | some u => if c.act.getLsbD u then .ofRegs (c.wr d (c.rd a u)) else .ofRegs []
    | none => .ofRegs []
  withWord x.use x.ps fun c s =>
    (s.editWarp c.f.unit c.f.warp fun _ =>
      if c.act = 0#32 then x.warp c else (x.warp c).setRtag (c.base + d.toNat) .general).retire c x.words false (x.passes * c.beats)

def execShflIdx (m : ShflWidth) (d a : Reg) (b : Opd) : Meaning :=
  shfl d a b fun c t => some (t / shflW m * shflW m + (c.rdO b t).toNat % shflW m)
def execShflUp (m : ShflWidth) (d a : Reg) (b : Opd) : Meaning :=
  shfl d a b fun c t =>
    let n := (c.rdO b c.low).toNat
    if n < shflW m && t / shflW m * shflW m + n ≤ t then some (t - n) else none
def execShflDown (m : ShflWidth) (d a : Reg) (b : Opd) : Meaning :=
  shfl d a b fun c t =>
    let n := (c.rdO b c.low).toNat
    if n < shflW m && t + n < t / shflW m * shflW m + shflW m then some (t + n) else none
def execShflXor (m : ShflWidth) (d a : Reg) (b : Opd) : Meaning :=
  shfl d a b fun c t => some (t ^^^ ((c.rdO b c.low).toNat % shflW m))

/-- XCHM (R133): one masked shift-and-exchange step; the distance is the number of trailing ones of the thread's mask. -/
def execXchm (d a : Reg) (b : Opd) : Meaning :=
  exchange (opV d :: opV a :: opdV b) [] (opdWords b) .general fun c t =>
    let m := c.rdO b t
    let j := ctz (~~~m)
    let x := c.rd a t
    if j = 32 then .ofRegs (c.wr d x)
    else
      let s := t ^^^ j
      let y := if s < 32 && c.act.getLsbD s then c.rd a s else 0#32
      if t &&& j = 0 then .ofRegs (c.wr d ((x &&& m) ||| ((y &&& m) <<< j)))
      else .ofRegs (c.wr d ((x &&& ~~~m) ||| ((y >>> j) &&& m)))

/-- A fold step with the exceptions it raises. -/
abbrev FoldStep := Word → Word → Word × BitVec 5

/-- Op of R134 on integers. -/
def foldInt (op : FoldOp) (signed : Bool) : FoldStep := fun acc x =>
  (match op with
    | .add => acc + x
    | .min => if signed then minI acc x else minN acc x
    | .max => if signed then maxI acc x else maxN acc x, flNone)

/-- Op of R134 on bits. -/
def foldBits (op : BitOp) : FoldStep := fun acc x =>
  (match op with
    | .and => acc &&& x
    | .or => acc ||| x
    | .xor => acc ^^^ x, flNone)

/-- Op of R134 on FP32. -/
def foldF32 (m : RMode) (op : FoldOp) : FoldStep := fun acc x =>
  let r := match op with
    | .add => f32.add m acc.toNat x.toNat
    | .min => f32.min acc.toNat x.toNat
    | .max => f32.max acc.toNat x.toNat
  (BitVec.ofNat 32 r.1, r.2)

/-- Canon of R134 for FP32: a NaN becomes the canonical NaN, a signalling one raises invalid. -/
def canonF32 (x : Word) : Word × BitVec 5 :=
  let v := f32.val x.toNat
  (if v.isNan then 0x7FC00000#32 else x, nvIf v.isSnan)

/-- Canon for the other types. -/
def canonInt (x : Word) : Word × BitVec 5 := (x, flNone)

/-- The fold of a list of values in order (R134): the accumulator and the exceptions of every step. -/
def foldSteps (canon : Word → Word × BitVec 5) (step : FoldStep) : List Word → Word × BitVec 5
  | [] => (0#32, flNone)
  | x :: xs =>
    xs.foldl (fun (p : Word × BitVec 5) y => let r := step p.1 y; (r.1, p.2 ||| r.2)) (canon x)

/-- The values of va over the active threads, ascending. -/
def Ctx.gather (c : Ctx) (a : Reg) : List Word := (threads c.act).map fun u => c.rd a u

/-- REDW (R134). -/
def redw (d a : Reg) (canon : Word → Word × BitVec 5) (step : FoldStep) : Meaning :=
  exchange [opV d, opV a] [] 1 .uniform fun c _ =>
    let r := foldSteps canon step (c.gather a)
    ⟨c.wr d r.1, [], r.2⟩

def execRedwI32 (d a : Reg) (op : FoldOp) : Meaning := redw d a canonInt (foldInt op true)
def execRedwN32 (d a : Reg) (op : FoldOp) : Meaning := redw d a canonInt (foldInt op false)
def execRedwF32 (m : RMode) (d a : Reg) (op : FoldOp) : Meaning := redw d a canonF32 (foldF32 m op)
def execRedwB (d a : Reg) (op : BitOp) : Meaning := redw d a canonInt (foldBits op)

/-- SCANW (R135): each thread's fold over the threads up to it, or before it; exceptions of the whole scan go to every thread.
DESIGN CHOICE (log entry 63): an exclusive scan does not make the step with the last active thread's X, which no result uses, and raises nothing for
it. -/
def scanw (d a : Reg) (excl : Bool) (ident : Word) (canon : Word → Word × BitVec 5) (step : FoldStep) : Meaning :=
  exchange [opV d, opV a] [] 1 .general fun c t =>
    let xs := c.gather a
    let i := ((threads c.act).filter fun u => u < t).length
    let n := if excl then i else i + 1
    let all := if excl then xs.length - 1 else xs.length
    ⟨c.wr d (if n = 0 then ident else (foldSteps canon step (xs.take n)).1), [], (foldSteps canon step (xs.take all)).2⟩

/-- The identities of R135. -/
def identI32 : FoldOp → Word
  | .add => 0
  | .min => 0x7FFFFFFF#32
  | .max => 0x80000000#32
def identN32 : FoldOp → Word
  | .add => 0
  | .min => 0xFFFFFFFF#32
  | .max => 0
def identF32 : FoldOp → Word
  | .add => 0
  | .min => 0x7F800000#32
  | .max => 0xFF800000#32

def execScanwI32 (d a : Reg) (op : FoldOp) (excl : Bool) : Meaning := scanw d a excl (identI32 op) canonInt (foldInt op true)
def execScanwN32 (d a : Reg) (op : FoldOp) (excl : Bool) : Meaning := scanw d a excl (identN32 op) canonInt (foldInt op false)
def execScanwF32 (m : RMode) (d a : Reg) (op : FoldOp) (excl : Bool) : Meaning :=
  scanw d a excl (identF32 op) canonF32 (foldF32 m op)

end Sys2Proof.Machine
end

