-- ==== Sys2Proof/Machine/Mesh.lean ====
section
/-! DEFINITION. Mesh reduction (06 R201 to R205, 12 R362, R363): MRED, MRWAIT, the combining tree, and the descriptors. -/
namespace Sys2Proof.Machine

/-! ### Descriptors (Table 12.10) -/

/-- Number of nodes. -/
def MDesc.count (d : MDesc) : Nat := d.nnodes + 1
/-- A node entry. -/
def MDesc.node (d : MDesc) (i : Nat) : Nat := (Map.lookD d.nodes i 0#32).toNat
/-- CONTRIB of a node. -/
def nodeContrib (e : Nat) : Bool := field e 31 31 = 1
/-- Whether a node names a child in direction dir: 0 west, 1 north, 2 east, 3 south. -/
def nodeChild (e dir : Nat) : Bool := field e (30 - dir) (30 - dir) = 1
/-- PARENT of a node. -/
def nodeParent (e : Nat) : Nat := field e 26 24
/-- CORE of a node. -/
def nodeCore (e : Nat) : Nat := field e 6 0

/-- The neighbouring core of a router in a direction (R3). -/
def neighbour (core dir : Nat) : Option Nat :=
  let x := core % 12
  let y := core / 12
  match dir with
  | 0 => if 0 < x then some (core - 1) else none
  | 1 => if 0 < y then some (core - 12) else none
  | 2 => if x < 11 then some (core + 1) else none
  | _ => if y < 7 then some (core + 12) else none

/-- The direction back. -/
def back (dir : Nat) : Nat := (dir + 2) % 4

/-- The node that stands on a core. -/
def MDesc.nodeAt (d : MDesc) (core : Nat) : Option Nat := leastBelow d.count fun i => nodeCore (d.node i) = core

/-- The child of a node in a direction. -/
def MDesc.child (d : MDesc) (i dir : Nat) : Option Nat :=
  if nodeChild (d.node i) dir then (neighbour (nodeCore (d.node i)) dir).bind d.nodeAt else none

/-- The root. -/
def MDesc.root (d : MDesc) : Nat := (leastBelow d.count fun i => nodeParent (d.node i) = 4).getD 0

/-- The member number of a core. -/
def MDesc.member (d : MDesc) (core : Nat) : Option Nat :=
  leastBelow d.count fun i => nodeContrib (d.node i) && nodeCore (d.node i) = core

/-- The mask of the members. -/
def MDesc.members (d : MDesc) : Word64 :=
  (List.range d.count).foldl (fun m i => if nodeContrib (d.node i) then m ||| (1#64 <<< i) else m) 0#64

/-- The nodes reached from a set in one more level. -/
def MDesc.spread (d : MDesc) (l : NSet) : NSet :=
  l.foldl (fun r i => (List.range 4).foldl (fun r dir => match d.child i dir with
    | some c => NSet.add r c
    | none => r) r) l

/-- The nodes reached from the root. -/
def MDesc.reach (d : MDesc) : Nat → NSet
  | 0 => [d.root]
  | n + 1 => d.spread (d.reach n)

/-- Validation (R363). -/
def MDesc.ok (d : MDesc) (retired : Nat → Bool) : Bool :=
  let ns := List.range d.count
  decide (64 ≤ d.timeout) && (ns.filter fun i => nodeParent (d.node i) = 4).length = 1
    && ns.all (fun i => decide (nodeParent (d.node i) ≤ 4) && decide (nodeCore (d.node i) < 96) && !(retired (nodeCore (d.node i))))
    && ns.all (fun i => ns.all fun j => i = j || nodeCore (d.node i) ≠ nodeCore (d.node j))
    && ns.all (fun i => (List.range 4).all fun dir =>
        !(nodeChild (d.node i) dir) || match d.child i dir with
          | some c => nodeParent (d.node c) = back dir
          | none => false)
    && ns.all fun i => NSet.has (d.reach d.count) i

/-- A descriptor of a die. -/
def State.desc (s : State) (die n : Nat) : MDesc := Map.lookD (s.die die).descs n MDesc.reset

/-- Change a descriptor. -/
def State.editDesc (s : State) (die n : Nat) (g : MDesc → MDesc) : State :=
  s.editDie die fun d => { d with descs := Map.put d.descs n (g (Map.lookD d.descs n MDesc.reset)) }

/-- Drop what the cores of a die hold of a descriptor: sequence numbers start afresh (R363). -/
def State.forgetSeqs (s : State) (die n : Nat) : State :=
  { s with
    cores := Map.each s.cores fun c k =>
      if dieOf c = die then { k with mesh := Map.del k.mesh (64 * die + n), contrib := k.contrib.filter fun p => p.1 ≠ n } else k }

/-- Writing VALID 1 (event MRED_DESC_VALIDATE; R363). While VALID is 1, such a write changes nothing. -/
def execMredDescValidate (die n : Nat) (ctl : Word) : Meaning := fun s =>
  .next <|
    if decide (2 ≤ die) || decide (64 ≤ n) || (s.desc die n).valid then s
    else
      let d : MDesc := { s.desc die n with nnodes := field ctl.toNat 29 24, timeout := field ctl.toNat 23 0, seqs := [] }
      let ok := d.ok fun c => NSet.has s.dev.retCores (96 * die + c)
      (s.editDesc die n fun _ => { d with valid := ok, err := !ok }).forgetSeqs die n

/-- Writing VALID 0 (event MRED_DESC_INVALIDATE; R363): sequences in flight end as failures. -/
def execMredDescInvalidate (die n : Nat) : Meaning := fun s =>
  .next <|
    if decide (2 ≤ die) || decide (64 ≤ n) then s
    else (s.editDesc die n fun d => { d with valid := false, seqs := [] }).forgetSeqs die n

/-! ### MRED and MRWAIT (R201, R202, R204, R205) -/

/-- How a sequence number stands at a core (R205). -/
inductive SeqPlace where
  | older | current | ahead
  deriving DecidableEq, Repr

/-- Compare modulo 256. -/
def seqPlace (c : Option Nat) (q : Nat) : SeqPlace :=
  match c with
  | none => .ahead
  | some c => if q = c then .current else if (c + 256 - q) % 256 ≤ 128 then .older else .ahead

/-- A handle (R201): descriptor and sequence, or nothing where it faults. -/
def Ctx.handle (c : Ctx) (s : State) (v : Word) : Option (Nat × Nat) :=
  let n := v.toNat
  let d := field n 5 0
  let m := s.desc (dieOf c.u.core) d
  if field n 7 6 ≠ 0 || field n 31 16 ≠ 0 || !m.valid || (m.member (c.u.core % 96)).isNone then none else some (d, field n 15 8)

/-- Where a sequence stands at the executing core. -/
def Ctx.place (c : Ctx) (s : State) (d q : Nat) : SeqPlace :=
  seqPlace ((Map.look (s.core c.u.core).mesh (64 * dieOf c.u.core + d)).map (·.seqNo)) q

/-- MRED (R202). -/
def execMred (op : FoldOp) (ty : MredTy) (a b : Reg) : Meaning :=
  withWord [opV a, opV b] [] fun c s =>
    if c.act = 0#32 then s.skipLl c 1
    else s.whenReady c (llNeeds .mr ++ [.tend c.act]) fun s =>
      match c.handle s (c.rd b c.low) with
      | none => s.faultLl c 0x22 0
      | some (d, q) =>
        let k := s.core c.u.core
        if c.place s d q ≠ .ahead || k.contrib.contains (d, q) then s.faultLl c 0x22 0
        else
          let die := dieOf c.u.core
          let vals : Map Word := (threads c.act).map fun t => (t, c.rd a t)
          let s := (s.accessDoom c c.act).editDesc die d fun m =>
            let x := Map.lookD m.seqs q { op := op, ty := ty, bad := false, given := [], nodes := [], reached := [] }
            { m with
              seqs := Map.put m.seqs q
                { x with bad := x.bad || x.op ≠ op || x.ty ≠ ty, given := Map.put x.given (c.u.core % 96) (vals, c.f.unit, c.u.nextOp) } }
          let s := s.editCore c.u.core fun k => { k with contrib := k.contrib ++ [(d, q)] }
          (s.issue c (some .mr) c.act (.mred d q) [] none none).retire c 1 false c.beats

/-- MRWAIT (R204): not a blocking point. -/
def execMrwait (d b : Reg) : Meaning :=
  withWord [opV d, opV b] [] fun c s =>
    if c.act = 0#32 then s.retire c 1 false 1
    else
      match c.handle s (c.rd b c.low) with
      | none => s.faultActive c 0x22 0
      | some (n, q) =>
        match c.place s n q, Map.look (s.core c.u.core).mesh (64 * dieOf c.u.core + n) with
        | .ahead, _ => if (s.core c.u.core).contrib.contains (n, q) then s.parkAt c (.mesh n q) else s.faultActive c 0x22 0
        | .current, some r =>
          if r.bad || !r.gave then s.faultActive c 0x22 0
          else if r.missing ≠ 0#64 then s.faultActive c 0x23 r.missing
          else
            (s.editWarp c.f.unit c.f.warp fun w =>
              w.putOuts .general c.act fun t => .ofRegs (c.wr d (Map.lookD r.vals t 0#32))).retire c 1 false c.beats
        | _, _ => s.faultActive c 0x22 0

/-! ### The tree (R203, R204) -/

/-- Canon of R203. -/
def mredCanon (ty : MredTy) (x : Word) : Word :=
  match ty with
  | .f32 => (canonF32 x).1
  | _ => x

/-- Op of R203. -/
def mredOp (op : FoldOp) (ty : MredTy) (a b : Word) : Word :=
  match ty with
  | .f32 => (foldF32 .rn op a b).1
  | .i32 => (foldInt op true a b).1
  | .n32 => (foldInt op false a b).1

/-- The identity at the root (R135). -/
def mredIdent (op : FoldOp) (ty : MredTy) : Word :=
  match ty with
  | .f32 => identF32 op
  | .i32 => identI32 op
  | .n32 => identN32 op

/-- Fold one element over the inputs in order. -/
def foldElem (op : FoldOp) (ty : MredTy) (ins : List MPart) (e : Nat) : Option Word :=
  ins.foldl (fun acc p => match acc, Map.look p.vals e with
    | none, some x => some (mredCanon ty x)
    | some a, some x => some (mredOp op ty a x)
    | a, none => a) none

/-- The partial of a node over the inputs present: west, north, east, south, own. -/
def foldNode (op : FoldOp) (ty : MredTy) (n : MNode) : MPart :=
  let ins := (List.range 5).filterMap fun i => Map.look n.ins i
  { vals := (List.range 32).filterMap fun e => (foldElem op ty ins e).map fun x => (e, x)
    members := ins.foldl (fun m p => m ||| p.members) 0#64 }

/-- A node at its first input. -/
def MNode.fresh (cycle : Nat) : MNode := { ins := [], start := cycle, out := none }

/-- The inputs that a node names. -/
def MDesc.named (d : MDesc) (i : Nat) : List Nat :=
  ((List.range 4).filter fun dir => nodeChild (d.node i) dir) ++ if nodeContrib (d.node i) then [4] else []

/-- What arrives at a node from a source: a child's partial, or its own contribution. -/
def MDesc.input (d : MDesc) (x : MSeq) (i src : Nat) : Option MPart :=
  if !((d.named i).contains src) then none
  else if src = 4 then
    (Map.look x.given (nodeCore (d.node i))).map fun g => { vals := g.1, members := 1#64 <<< i }
  else (d.child i src).bind fun c => (Map.look x.nodes c).bind (·.out)

/-- Change a sequence in flight. -/
def State.editSeqOf (s : State) (die n q : Nat) (x : MSeq) : State := s.editDesc die n fun d => { d with seqs := Map.put d.seqs q x }

/-- Whether a node stands on a retired core (R431). DESIGN CHOICE (log entry 67): nothing that arrives there is kept, its timer starts all the
same, and only the root forwards anything, which with nothing kept is a timeout. -/
def State.nodeRetired (s : State) (die n i : Nat) : Bool := NSet.has s.dev.retCores (96 * die + nodeCore ((s.desc die n).node i))

/-- The router of a core has accepted, or discarded, the contribution of an MRED, or its sequence is over (R202, R204). -/
def State.mredAccepted (s : State) (core n q u op : Nat) : Bool :=
  let d := s.desc (dieOf core) n
  match Map.look d.seqs q, d.member (core % 96) with
  | some x, some i =>
    (Map.look x.given (core % 96)).all fun g =>
      g.2 ≠ (u, op) || (Map.look x.nodes i).any fun m => m.out.isSome || Map.has m.ins 4 || s.nodeRetired (dieOf core) n i
  | _, _ => true

/-- An input arrives at a node (event MESH_REDUCTION_INPUT); with the last named one the node forwards its partial. One that comes after
that is discarded. -/
def execMeshReductionInput (die n q i src : Nat) : Meaning := fun s =>
  .next <|
    let d := s.desc die n
    match Map.look d.seqs q with
    | none => s
    | some x =>
      match d.input x i src with
      | none => s
      | some p =>
        let m := Map.lookD x.nodes i (MNode.fresh s.cycle.toNat)
        if m.out.isSome || Map.has m.ins src || decide (d.count ≤ i) then s
        else
          let m := if s.nodeRetired die n i then m else { m with ins := Map.put m.ins src p }
          let m := if (d.named i).all fun k => Map.has m.ins k then { m with out := some (foldNode x.op x.ty m) } else m
          s.editSeqOf die n q { x with nodes := Map.put x.nodes i m }

/-- A node's timer expires (event MESH_REDUCTION_TIMEOUT). -/
def execMeshReductionTimeout (die n q i : Nat) : Meaning := fun s =>
  .next <|
    let d := s.desc die n
    match Map.look d.seqs q with
    | none => s
    | some x =>
      match Map.look x.nodes i with
      | none => s
      | some m =>
        if m.out.isSome || decide (s.cycle.toNat < m.start + d.timeout) || s.nodeRetired die n i && i ≠ d.root then s
        else s.editSeqOf die n q { x with nodes := Map.put x.nodes i { m with out := some (foldNode x.op x.ty m) } }

/-- The root's result, or its timeout, reaches a member core (event MESH_REDUCTION_RESULT; R204). -/
def execMeshReductionResult (die n q core : Nat) : Meaning := fun s =>
  .next <|
    let d := s.desc die n
    match Map.look d.seqs q with
    | none => s
    | some x =>
      match (Map.look x.nodes d.root).bind (·.out), d.member core with
      | some p, some _ =>
        if NSet.has x.reached core then s
        else
          let r : MeshResult :=
            { seqNo := q, vals := (List.range 32).map fun e => (e, Map.lookD p.vals e (mredIdent x.op x.ty))
              missing := d.members &&& ~~~p.members, bad := x.bad
              gave := (s.core (96 * die + core)).contrib.contains (n, q) }
          let s := s.editCore (96 * die + core) fun k =>
            { k with mesh := Map.put k.mesh (64 * die + n) r, contrib := k.contrib.filter fun c => c ≠ (n, q) }
          let reached := NSet.add x.reached core
          if (List.range d.count).all fun i => !(nodeContrib (d.node i)) || NSet.has reached (nodeCore (d.node i)) then
            s.editDesc die n fun d => { d with seqs := Map.del d.seqs q }
          else s.editSeqOf die n q { x with reached := reached }
      | _, _ => s

end Sys2Proof.Machine
end

