-- ==== Sys2Proof/Machine/Sync.lean ====
section
/-! DEFINITION. Fences, transactions, and the completion of memory operations (06 R183 to R190, 05 R172). -/
namespace Sys2Proof.Machine

/-! ### Fences (R183, R184) -/

/-- Add an operation that no path counts and no flag records. -/
def State.addOp (s : State) (c : Ctx) (mask : Mask) (kind : OpKind) (dst : Option Dst) : State := s.putOp c none none mask kind [] dst none

/-- FENCE (R183): it stands among the accesses of its threads; FENCE.thread orders nothing. -/
def execFence (m : FenceKind) (sc : Scope) : Meaning :=
  withWord [] [] fun c s =>
    (if c.act = 0#32 || sc = .thread then s else s.addOp c c.act (.fence m sc) none).retire c 1 false c.beats

/-- XFENCE (R184): every access that has left the first path's counter has performed; with the ls path second it is an acquire fence at
its scope (R290). -/
def execXfence (sc : Scope) (_ b : PathId) : Meaning :=
  withWord [] [] fun c s =>
    (if c.act ≠ 0#32 && b = .ls && wideScope sc then s.selfInvalidate c.u.core true else s).retire c 1 false c.beats

/-! ### Transactions (R185, R188, R189) -/

/-- Threads of TBEGIN that open a solitary transaction: Idle with a count of 16 (R188). -/
def Ctx.wantSolo (c : Ctx) : List Nat := (threads c.act).filter fun t => (c.w.tx t).st = .idle && (c.w.tx t).count = 16

/-- Open a transaction with its snapshot (R94, Table 6.3). -/
def Ctx.open (c : Ctx) (x : Txn) (t : Nat) (solo : Bool) : Txn :=
  let row := 32 * c.fr.accwin + t
  { x with
    st := .opened, code := 0, user := 0, solo := solo, rset := [], wset := [], pages := [], pins := [], snapFlags := c.w.flags t
    snapRow := if c.accOk then some row else none, snapMx := if c.accOk then (c.u.row row).mxexc else 0 }

/-- TBEGIN (R185, R188): threads that need the solitary grant ask for it in beat order and wait. A solitary Open thread that runs it is doomed
with NEST as any other is: Table 6.3 makes no exception, though point 5 of R188 does not list the code (DEDUCED, log entry 16). -/
def execTbegin : Meaning :=
  withWord [] [] fun c s =>
    if c.act = 0#32 then s.retire c 1 false 1
    else s.whenReady c (.tend c.act :: if c.accOk then [.rows c.fr.accwin c.act] else []) fun s =>
      let want := c.wantSolo
      let key (t : Nat) : Nat × Nat × Nat := (c.f.unit, c.f.warp, t)
      if want.all fun t => s.soloHolder = some (key t) then
        (s.editWarp c.f.unit c.f.warp fun w =>
          (threads c.act).foldl (fun w t =>
            let x := w.tx t
            w.setTx t (match x.st with
              | .idle => c.open x t (want.contains t)
              | _ => x.doom 7#4)) w).retire c 1 false c.beats
      else
        let ask := want.filter fun t => s.soloHolder ≠ some (key t) && !(s.soloQueue.contains (key t))
        ({ s with soloQueue := s.soloQueue ++ ask.map key } : State).await c (want.map .grant) false

/-- The solitary grant passes to the next waiting thread (event SOLITARY_GRANT). -/
def execSolitaryGrant : Meaning := fun s =>
  .next <|
    match s.soloHolder, s.soloQueue with
    | none, (u, w, t) :: rest =>
      if ((s.warp? u w).map fun x => x.live.getLsbD t).getD false then { s with soloHolder := some (u, w, t), soloQueue := rest }
      else { s with soloQueue := rest }
    | _, _ => s

/-- TABORT (R189, Table 6.3). -/
def execTabort (n : BitVec 7) : Meaning :=
  withWord [] [] fun c s =>
    s.whenReady c [.tend c.act] fun s =>
      (s.editWarp c.f.unit c.f.warp fun w =>
        (threads c.act).foldl (fun w t =>
          w.setTx t ((w.tx t).abort (n.zeroExtend 8))) w).retire c 1 false c.beats

/-- STATE of Table 6.5. -/
def TxState.bits : TxState → Nat
  | .idle => 0
  | .opened => 1
  | .doomed => 2

/-- The status word of Table 6.5. -/
def Txn.status (x : Txn) : Word :=
  BitVec.ofNat 32 (x.user.toNat * 65536 + x.count * 256 + x.solo.toNat * 128 + x.st.bits * 32 + x.code.toNat)

/-- TSTAT (R189). -/
def execTstat (d : Reg) : Meaning :=
  withWord [opV d] [] fun c s =>
    s.whenReady c [.tend c.act] fun s =>
      (s.editWarp c.f.unit c.f.warp fun w => w.putOuts .general c.act fun t => .ofRegs (c.wr d (c.w.tx t).status)).retire c 1 false c.beats

/-- TEND (R187): it is issued on the ls path and commits when it completes. What its threads raised so far is set aside until then. -/
def execTend (d : PredReg) : Meaning :=
  withWord [] [d] fun c s =>
    if c.act = 0#32 then s.skipLl c 1
    else s.whenReady c (c.lsNeeds ++ c.snapNeeds) fun s =>
      let s := s.editWarp c.f.unit c.f.warp fun w =>
        (threads c.act).foldl (fun w t => (w.setTx t { w.tx t with held := (w.tx t).held ||| w.flags t }).setFlags t 0) w
      (s.issue c (some .ls) c.act .tend [] none (some d)).retire c 1 false c.beats

/-! ### Commit (R187) -/

/-- Two sets of words meet. -/
def wordsMeet {α β : Type} (x : Map α) (y : Map β) : Bool := x.any fun p => Map.has y p.1

/-- The INTRA check of a pair. -/
def Txn.clashes (u t : Txn) : Bool := wordsMeet u.wset t.rset || wordsMeet u.wset t.wset || wordsMeet u.rset t.wset

/-- Replace a thread's transaction. -/
def State.setTx (s : State) (u w t : Nat) (x : Txn) : State := s.editWarp u w fun wp => wp.setTx t x

/-- The INTRA loop: the lower thread wins, but a solitary thread wins always (R187, R188). -/
def State.intra (s : State) (u w : Nat) (ts : List Nat) : State :=
  ts.foldl (fun s t =>
    (ts.filter fun v => decide (v < t)).foldl (fun s v =>
      let x := s.tx u w v
      let y := s.tx u w t
      if x.st = .opened && y.st = .opened && x.clashes y then
        if s.soloHolder = some (u, w, t) then s.setTx u w v (x.doom 2#4) else s.setTx u w t (y.doom 2#4)
      else s) s) s

/-- The lines of a transaction's sets meet a line that the solitary thread holds. -/
def State.soloMeets (s : State) (u w t : Nat) (x : Txn) : Bool :=
  match s.soloHolder with
  | none => false
  | some (a, b, c) =>
    (a, b, c) ≠ (u, w, t) &&
      (Map.keys x.rset ++ Map.keys x.wset).any fun k => (s.tx a b c).touches (k / 16)

/-- Every word of the read set holds its recorded value. -/
def State.validates (s : State) : List (Nat × Word) → State × Bool
  | [] => (s, true)
  | (k, v) :: t =>
    let r := s.homeRead (4 * k) 4
    let q := r.1.validates t
    (q.1, (leNat r.2 = v.toNat) && q.2)

/-- The bytes that a transaction has buffered, by address. -/
def Txn.stored (x : Txn) : Map Byte :=
  x.wset.flatMap fun p => (List.range 4).filterMap fun i =>
    if p.2.2.getLsbD i then some (4 * p.1 + i, (p.2.1 >>> (8 * i)).setWidth 8) else none

/-- Open threads of the warp that commit at another TEND and whose sets meet the words of a commit are doomed with CONFLICT (R277). DEDUCED (log
entry 16): where only their sectors meet, R357's recall stands. -/
def State.doomMates (s : State) (u w t : Nat) (mates : List Nat) (x : Txn) : State :=
  s.editWarp u w fun wp => (List.range 32).foldl (fun wp v =>
    let y := wp.tx v
    if v = t || mates.contains v || s.soloHolder = some (u, w, v) || !(wordsMeet x.wset y.rset || wordsMeet x.wset y.wset) then wp
    else wp.setTx v (y.doom 1#4)) wp

/-- Write a committed transaction at the slices: the bytes it stored, a run of neighbours as one write. Watches of the other threads of the same TEND are not recalled. -/
def State.writeSet (s : State) (u w t : Nat) (mates : List Nat) (x : Txn) : State :=
  let s := s.doomMates u w t mates x
  let keep := mates.map fun v => (v, s.tx u w v)
  let core := (s.unit? u).map (·.core)
  let s := (runsOf x.stored).foldl (fun s p => s.homeWrite (some (u, w, t)) core p.1 p.2 false) s
  keep.foldl (fun s p => s.setTx u w p.1 p.2) s

/-- Commit or abort one thread's transaction against memory. A combination that the reads bring about may recall it (R357). -/
def State.commitThread (s : State) (u w : Nat) (ts : List Nat) (t : Nat) : State × Bool :=
  let x := s.tx u w t
  if x.st ≠ .opened then (s, false)
  else if s.soloMeets u w t x then (s.setTx u w t (x.doom 1#4), false)
  else
    let r := s.validates x.rset
    let y := r.1.tx u w t
    if r.2 && y.st = .opened then (r.1.writeSet u w t ts x, true) else (r.1.setTx u w t (y.doom 1#4), false)

/-- The commit loop. -/
def State.commitAll (s : State) (u w : Nat) (all : List Nat) : List Nat → State × Mask
  | [] => (s, 0#32)
  | t :: ts =>
    let r := s.commitThread u w all t
    let q := r.1.commitAll u w all ts
    (q.1, if r.2 then q.2 ||| bit t else q.2)

/-- COUNT after an abort (R188). -/
def abortCount (n : Nat) (code : BitVec 4) : Nat := if code = 1 || code = 2 || code = 5 then min (n + 1) 16 else n

/-- End one thread's transaction: Table 6.3, R94, R188. -/
def State.endTx (s : State) (u w t : Nat) (ok : Bool) : State :=
  let x := s.tx u w t
  let s := s.releaseSolo u w t
  let s := s.editWarp u w fun wp =>
    wp.setFlags t ((if ok || x.st = .idle then x.held else x.snapFlags) ||| wp.flags t)
  let s := match ok, x.st, x.snapRow with
    | false, .doomed, some r => s.editUnit u fun un => un.putRow r { un.row r with mxexc := x.snapMx }
    | _, _, _ => s
  s.setTx u w t
    (match x.st with
      | .idle => { x with code := 9, held := 0 }
      | _ =>
        { x with
          st := .idle, code := if ok then 0 else x.code, count := if ok then 0 else abortCount x.count x.code, rset := [], wset := []
          pages := [], pins := [], held := 0, snapRow := none, snapMx := 0, snapFlags := 0 })

/-- A TEND commits (R187): INTRA checks, the commits in ascending order, then pd and the transaction states. -/
def State.commit (s : State) (u : Nat) (o : Op) : State :=
  let live := ((s.warp? u o.warp).map (·.live)).getD 0#32
  let ts := threads (o.mask &&& live)
  let r := (s.intra u o.warp ts).commitAll u o.warp ts ts
  let s := ts.foldl (fun s t => s.endTx u o.warp t (r.2.getLsbD t)) r.1
  let s := if r.2 = 0#32 then s else match s.unit? u with
    | some un => s.selfInvalidate un.core false
    | none => s
  match o.pd with
  | none => s
  | some p => s.editWarp u o.warp fun w => ts.foldl (fun w t => w.setPred p t (r.2.getLsbD t)) w

/-! ### Completion (R172, Table 5.7) -/

/-- A word in the destination of every thread of an operation that is live. -/
def State.giveAll (s : State) (u : Nat) (o : Op) (v : Word) : State :=
  match o.dst with
  | none => s
  | some d => s.editWarp u o.warp fun w =>
    (threads (o.mask &&& w.live)).foldl (fun w t => (w.setReg d.reg t v).setRtag d.reg .general) w

/-- What LNCH's append gives: the state, and the word of R260 (status, and the ring index of a queued packet). DESIGN CHOICE (log entry 58): with
status 1 or 2, where no packet is queued, bits [31:16] are zero. -/
def State.lnch (s : State) (ctx q : Nat) (p : List Byte) : State × Word :=
  match s.qdesc q with
  | none => (s, 2)
  | some d =>
    if !(s.qsOn q) || d.ctx ≠ ctx || !d.devw then (s, 2)
    else
      match s.append q d p with
      | none => (s, 1)
      | some t => (t, BitVec.ofNat 32 ((s.queue q).tail % 65536 * 65536))

/-- A memory operation completes (event MEMORY_OP_COMPLETE): its flag falls, and its counter in issue order. Killed threads whose accesses
have now performed drop from their barriers (R288). -/
def execMemoryOpComplete (u op : Nat) : Meaning := fun s =>
  .next <| whole (fun s => State.settleDrops (u := u) <|
    match s.unit? u with
    | none => s
    | some un =>
      match un.op? op with
      | none => s
      | some o =>
        let fin (s : State) : State := s.editUnit u fun un => un.complete op
        if o.done then s
        else
          match o.kind with
          | .mem _ _ => if o.items.all (·.done) then fin s else s
          | .cbld _ => if o.items.all (·.done) then fin s else s
          | .fence m sc =>
            if earlierDone un.ops o (fun i => m ≠ .acq || reads i.kind) then
              fin (if m ≠ .rel && wideScope sc then s.selfInvalidate un.core true else s)
            else s
          | .pref l2 =>
            let c := s.choose
            fin (if !l2 && c.1 then c.2.prefetch un.core o else c.2)
          | .cwb _ => fin (s.writeBack un.core (o.lines.map (·.1)))
          | .cinv => fin (s.invalidateLines un.core (o.lines.map (·.1)))
          | .tend =>
            if Op.tendReady un.ops o && !s.commitHeld u o then fin (s.commit u o) else s
          | .mred n q => if s.mredAccepted un.core n q u op then fin s else s
          | .launch q p =>
            let r := s.lnch (s.ctxOf u) q p
            fin (r.1.giveAll u o r.2)
          | .cancel a =>
            let ctx := s.ctxOf u
            ((fin (s.giveAll u o (BitVec.ofNat 32 (s.cancelRec ctx a).2))).cancelRec ctx a).1
          | _ => s) s

end Sys2Proof.Machine
end

