-- ==== Sys2Proof/Machine/Engine.lean ====
section
/-! DEFINITION. The matrix engine and its queue (07 R213 to R228, R241, R446): the matrix and accumulator instructions, K steps, queued row
operations, and what an engine does when it fails. -/
namespace Sys2Proof.Machine

/-! ### Engine failures, kill (R241, R446) -/

/-- The threads of a mask in a warp that are live. -/
def KUnit.liveOf (u : KUnit) (warp : Nat) (m : Mask) : Mask := m &&& (((Map.look u.warps warp).map (·.live)).getD 0#32)

/-- No issuing thread is live and at least one ended by a kill: the operation stops at its next boundary (R446). -/
def KUnit.stopsNow (u : KUnit) (warp : Nat) (m : Mask) : Bool :=
  u.liveOf warp m = 0#32 && m &&& (((Map.look u.warps warp).map (·.killed)).getD 0#32) ≠ 0#32

/-- An engine operation of some threads fails (R241): the issuing fragment, or another that holds a live one of the threads, parks with
*transfer fault* at its next instruction boundary; with none live, a unit record is posted. -/
def State.engineFail (s : State) (u warp fidx : Nat) (m : Mask) (pc under recAddr : Nat) : State :=
  match s.unit? u, s.warp? u warp with
  | some _, some w =>
    let held (x : Frag) : Mask := if x.status = .dead then 0#32 else x.mask &&& m &&& w.live
    let issuer := w.frags.filter fun p => p.1 = fidx && held p.2 ≠ 0#32
    match issuer ++ w.frags.filter fun p => held p.2 ≠ 0#32 with
    | (_, x) :: _ =>
      s.postLate u warp
        ⟨none, [{ cause := 0x2A, addr := BitVec.ofNat 64 recAddr, hint := under, replay := false, mask := held x, fb := [] }]⟩
    | [] => s.postUnit u 0x40 false under pc (BitVec.ofNat 64 recAddr)
  | _, _ => s

/-! ### Issue (R214, R215) -/

/-- Registers v_r to v_(r+n-1): beyond v127 is outside every window (R216). -/
def opRun (r : Reg) (n : Nat) : Opn := ⟨r.toNat, if 128 < r.toNat + n then 1024 else n, 1⟩

/-- A matrix or accumulator word: registers named, whether it is long-latency on mx, whether it reads the rows, its result, its check of
unit-level operands, what it does at issue beside queuing, and the operation. -/
structure EngIns where
  use : List Opn
  ll : Bool
  reads : Bool
  dst : Option Reg
  check : Ctx → Option (Nat × Word64)
  onIssue : Ctx → State → State
  kind : Ctx → EngKind

/-- Put the word's operation into the engine queue of its core; with no thread left the word passes, in the beats that it takes of one thread
(R18, R216). -/
def EngIns.go (i : EngIns) (beats : Ctx → Nat) (c : Ctx) (s : State) : State :=
  if c.act = 0#32 then s.passBeats c i.ll 1 (beats c)
  else s.whenReady c ((if i.ll then llNeeds .mx else []) ++ [.tend c.act, .engine]) fun s =>
    let id := ((s.unit? c.f.unit).map (·.nextOp)).getD 0
    let kind : OpKind := .engine (i.kind c) c.fr.accwin
    let dst : Option Dst := i.dst.map fun d => { reg := c.base + d.toNat, n := 1, size := 4, sext := false, cap := false }
    let s := if i.ll then s.issue c (some .mx) c.act kind [] none none else s.addOp c c.act kind dst
    let s := i.onIssue c s
    (s.editCore c.u.core fun k => { k with eng := k.eng ++ [(c.f.unit, id)] }).retire c 1 false (beats c)

/-- The active threads whose row is poisoned (R429). -/
def Ctx.poisonBads (c : Ctx) : List Bad :=
  groupBads c.act fun t => if (c.u.row (32 * c.fr.accwin + t)).poison then some (Bad.of 0x19 0 0) else none

/-- Run a matrix or accumulator word. A poisoned row that a queued operation may still clear is awaited (R215, R429). -/
def EngIns.run (i : EngIns) (beats : Ctx → Nat) : Meaning :=
  withWord i.use [] fun c s =>
    if c.act = 0#32 then s.passBeats c i.ll 1 (beats c)
    else if !c.accOk then s.faultWord c i.ll 1 (Bad.of 0x06 0 0)
    else
      match i.check c with
      | some (cause, a) => s.faultWord c i.ll 1 (Bad.of cause a 0)
      | none =>
        match (if i.reads then c.poisonBads else []) with
        | [] => i.go beats c s
        | bads => s.whenReady c [.rows c.fr.accwin c.act] fun s => s.guarded c bads (i.go beats)

/-- The descriptor checks of R217: cause, if one fails. -/
def descCheck (c : Ctx) (k : MmaKind) (scr : Bool) (n : Nat) (v : Word) : Option Nat :=
  let x := v.toNat
  if scr then
    if field x 31 19 ≠ 0 then some 0x28
    else if x % 64 ≠ 0 then some 0x14
    else if c.l.scratch < x + k.steps n * k.slab then some 0x13
    else none
  else if field x 31 2 ≠ 0 then some 0x28
  else if !c.l.stream then some 0x29
  else none

/-- A stream FIFO of a unit. -/
def KUnit.stream? (u : KUnit) (f : Nat) : Stream := Map.lookD u.streams f Stream.empty

/-- Change a stream FIFO. -/
def KUnit.editStream (u : KUnit) (f : Nat) (g : Stream → Stream) : KUnit := { u with streams := Map.put u.streams f (g (u.stream? f)) }

/-- MMA and MMAB (R216 to R218): a `.fifo` operation takes its slab bytes off the stream at issue. -/
def mmaWord (k : MmaKind) (scr : Bool) (nm1 : BitVec 7) (a b : Reg) : Meaning :=
  let n := nm1.toNat + 1
  let len := k.steps n * k.slab
  EngIns.run
    { use := [opRun a n, opV b], ll := true, reads := true, dst := none
      check := fun c =>
        let v := c.rd b c.low
        if (k = .xor || k = .and) && n % 4 ≠ 0 then some (0x01, 0)
        else (descCheck c k scr n v).map fun x => (x, v.zeroExtend 64)
      onIssue := fun c s =>
        if scr then s
        else s.editUnit c.f.unit fun u => u.editStream ((c.rd b c.low).toNat) fun f => { f with c := f.c + len }
      kind := fun c =>
        let v := (c.rd b c.low).toNat
        .mma k n (if scr then none else some v) (if scr then v else (c.u.stream? v).c)
          ((threads c.act).map fun t => (t, (List.range n).map fun i => c.w.reg (c.base + a.toNat + i) t)) c.w.cbank.toNat 0 }
    fun c => c.beats * ((n + 7) / 8)

def execMmaBf16 (m : Bool) (d : BitVec 7) (a b : Reg) : Meaning := mmaWord .bf16 m d a b
def execMmaF16 (m : Bool) (d : BitVec 7) (a b : Reg) : Meaning := mmaWord .f16 m d a b
def execMmaF32 (m : Bool) (d : BitVec 7) (a b : Reg) : Meaning := mmaWord .f32 m d a b
def execMmaK4 (m : Bool) (d : BitVec 7) (a b : Reg) : Meaning := mmaWord .k4 m d a b
def execMmaI8 (m : Bool) (d : BitVec 7) (a b : Reg) : Meaning := mmaWord .i8 m d a b
def execMmabXor (m : Bool) (d : BitVec 7) (a b : Reg) : Meaning := mmaWord .xor m d a b
def execMmabAnd (m : Bool) (d : BitVec 7) (a b : Reg) : Meaning := mmaWord .and m d a b

/-- Nothing at issue beside queuing. -/
def noIssue (_ : Ctx) (s : State) : State := s
/-- No unit-level operand. -/
def noCheck (_ : Ctx) : Option (Nat × Word64) := none

/-- ACCZ (R221). -/
def acczWord (all : Bool) : Meaning :=
  EngIns.run ⟨[], false, false, none, noCheck, noIssue, fun _ => .accz all⟩ Ctx.beats

def execAccz : Meaning := acczWord false
def execAcczAll : Meaning := acczWord true

/-- The tile offset of R222 and R224, in rows of rb bytes. -/
def tileCheck (a : Reg) (rb : Nat) (c : Ctx) : Option (Nat × Word64) :=
  let v := c.rd a c.low
  let top := (threads c.act).foldl (fun m t => max m t) 0
  if field v.toNat 31 19 ≠ 0 || decide (c.l.scratch < v.toNat + (top + 1) * rb) then some (0x13, v.zeroExtend 64)
  else if v.toNat % 64 ≠ 0 then some (0x14, v.zeroExtend 64)
  else none

/-- The tile offset of the lowest active thread. -/
def Ctx.tile (c : Ctx) (a : Reg) : Nat := (c.rd a c.low).toNat

/-- ACCLD (R222). -/
def accldWord (f : AccFmt) (a : Reg) : Meaning :=
  EngIns.run ⟨[opV a], true, false, none, tileCheck a (128 * f.bytes), noIssue, fun c => .accld f (c.tile a)⟩ Ctx.beats

/-- ACCST (R222). -/
def accstWord (f : AccFmt) (a : Reg) : Meaning :=
  EngIns.run ⟨[opV a], true, true, none, tileCheck a (128 * f.bytes), noIssue, fun c => .accst f (c.tile a) []⟩ Ctx.beats

def execAccldF32 (a : Reg) : Meaning := accldWord .f32 a
def execAccldBf16 (a : Reg) : Meaning := accldWord .bf16 a
def execAccldF16 (a : Reg) : Meaning := accldWord .f16 a
def execAccstF32 (a : Reg) : Meaning := accstWord .f32 a
def execAccstBf16 (a : Reg) : Meaning := accstWord .bf16 a
def execAccstF16 (a : Reg) : Meaning := accstWord .f16 a

/-- ACCST.i8 (R223): a scale per thread. -/
def execAccstI8 (a b : Reg) : Meaning :=
  EngIns.run
    ⟨[opV a, opV b], true, true, none, tileCheck a 128, noIssue,
      fun c => .accst .i8 (c.tile a) ((threads c.act).map fun t => (t, c.rd b t))⟩ Ctx.beats

/-- ACCSV (R224). -/
def execAccsv (a : Reg) : Meaning :=
  EngIns.run ⟨[opV a], true, true, none, tileCheck a 576, noIssue, fun c => .accsv (c.tile a)⟩ Ctx.beats

/-- ACCRS (R224). -/
def execAccrs (a : Reg) : Meaning :=
  EngIns.run ⟨[opV a], true, false, none, tileCheck a 576, noIssue, fun c => .accrs (c.tile a)⟩ Ctx.beats

/-- ACCMX (R225): with `.acc` the old vd takes part. -/
def execAccmx (m : Bool) (d : Reg) (b : BitVec 7) : Meaning :=
  EngIns.run
    ⟨[opV d], false, true, some d, noCheck, noIssue,
      fun c => .accmx (b.toNat + 1) (if m then some ((threads c.act).map fun t => (t, c.rd d t)) else none)⟩ Ctx.beats

/-- ACCEXS (R226). -/
def execAccexs (d a : Reg) (b : BitVec 7) : Meaning :=
  EngIns.run
    ⟨[opV d, opV a], false, true, some d, noCheck, noIssue,
      fun c => .accexs (b.toNat + 1) ((threads c.act).map fun t => (t, c.rd a t))⟩ Ctx.beats

/-- ACCMSK (R227). -/
def execAccmsk : Meaning := EngIns.run ⟨[], false, true, none, noCheck, noIssue, fun _ => .accmsk⟩ Ctx.beats

/-- CBLD (R228): 32 bytes at the cursor of the lowest active thread's capability. -/
def execCbld (k : BitVec 2) (a : CapReg) : Meaning :=
  withWord [opC a] [] fun c s =>
    if c.act = 0#32 then s.skipLl c 1
    else s.whenReady c (c.lsNeeds ++ [.codebook k.toNat]) fun s =>
      let w : Want := { size := 32, need := 1, kind := .load, align := true, order := false, spaces := [0, 1] }
      let at0 := (c.cap a c.low).cursor
      match c.check s w (c.rdC a c.low) (c.capTag a c.low) false at0 with
      | (s, .error b) => s.faultWord c true 1 b
      | (s, .ok locs) =>
        (s.issue c (some .ls) c.act (.cbld k.toNat) (itemsOf w c.low at0 locs 0 0 false false false) none none).retire c 1 false c.beats

/-! ### What the engine does (R215, R218, R219) -/

/-- The operation of a unit that comes first in its core's engine queue. -/
def State.firstEng (s : State) (core u : Nat) : Option (KUnit × Op) :=
  match (s.core core).eng.find? fun p => p.1 = u, s.unit? u with
  | some p, some un => (un.op? p.2).map fun o => (un, o)
  | _, _ => none

/-- An engine operation is complete: it leaves the queue, and its flag and the mx counter fall. -/
def State.engDone (s : State) (core u id : Nat) : State :=
  (s.editUnit u fun un => un.complete id).editCore core fun k => { k with eng := k.eng.filter fun p => p ≠ (u, id) }

/-- Give a live thread the result of an engine operation. -/
def State.laneResult (s : State) (u : Nat) (o : Op) (t : Nat) (v : Word) : State :=
  match o.dst with
  | none => s
  | some d => s.editWarp u o.warp fun w => if w.live.getLsbD t then (w.setReg d.reg t v).setRtag d.reg .general else w

/-- Change the rows of an operation's threads. -/
def KUnit.editRows (u : KUnit) (win : Nat) (m : Mask) (g : Nat → AccRow → AccRow) : KUnit :=
  (threads m).foldl (fun u t => u.putRow (32 * win + t) (g t (u.row (32 * win + t)))) u

/-- Byte x of a stream (R220). -/
def Stream.at (f : Stream) (x : Nat) : Byte := Map.lookD f.bytes (x % 32768) 0#8

/-- An engine read of poisoned scratchpad bytes fails (R429): the operation ends under R241. -/
def State.engPoison (s : State) (core u : Nat) (o : Op) (off : Nat) : State :=
  (s.engDone core u o.id).engineFail u o.warp o.fidx o.mask o.at_.pc 0x19 off

/-- A matrix operation of a gang that drains goes no further (Table 11.9, step 3), unless an operation of another kind, which must complete before
the unit is saved (step 4), is queued behind it. -/
def State.mmaStops (s : State) (un : KUnit) (o : Op) : Bool :=
  ((Map.look s.launches un.launch).map fun l => decide (l.st = .draining)).getD false
    && un.ops.all fun x => x.done || decide (x.id ≤ o.id) || match x.kind with
      | .engine (.mma _ _ _ _ _ _ _) _ => true
      | .engine _ _ => false
      | _ => true

/-- One K step (event MATRIX_K_STEP). -/
def execMatrixKStep (core u : Nat) : Meaning := fun s =>
  .next <|
    match s.firstEng core u with
    | none => s
    | some (un, o) =>
      match o.kind with
      | .engine (.mma k n fifo start a cb step) win =>
        if un.stopsNow o.warp o.mask then s.engDone core u o.id
        else
          let slab := k.slab
          let from0 := start + step * slab
          let ready := match fifo with
            | some f => decide (from0 + slab ≤ (un.stream? f).l)
            | none => true
          let later := k = .k4 && (un.ops.takeWhile fun x => x.id ≠ o.id).any fun x => !x.done && x.kind = .cbld cb
          if !ready || later || s.mmaStops un o then s
          else if fifo.isNone && un.spoisoned from0 slab then s.engPoison core u o from0
          else
            let b (x : Nat) : Byte := match fifo with
              | some f => (un.stream? f).at (from0 + x)
              | none => un.sbyte (from0 + x)
            let s := s.editUnit u fun un =>
              (un.editRows win o.mask fun t r => r.kstep k (Map.lookD a t []) (Map.lookD un.cbs cb 0) b step).editOp o.id fun o =>
                { o with kind := .engine (.mma k n fifo start a cb (step + 1)) win }
            if step + 1 < k.steps n then s else s.engDone core u o.id
      | _ => s

/-- Narrow a row to the scratchpad (R222, R223): its bytes and the counted row. -/
def AccRow.narrowed (r : AccRow) (f : AccFmt) (sc : Word) (free : Nat → Byte) : List Byte × AccRow :=
  let one (j : Nat) : Nat × RowEv := match f with
    | .f32 => ((r.get j).toNat, RowEv.zero)
    | .bf16 => narrowAcc bf16 (r.get j)
    | .f16 => narrowAcc f16 (r.get j)
    | .i8 => quantise (r.get j) sc (free j)
  ((List.range 128).flatMap fun j => leBytes f.bytes (one j).1,
    r.count ((List.range 128).foldl (fun e j => e.plus (one j).2) RowEv.zero))

/-- Write the scratchpad as the matrix engine does, in pieces of 16 bytes: a registered barrier word is left as it is, since only barrier
instructions, copy completions and drops write it (R192; log entry 60). -/
def KUnit.sputRows (u : KUnit) (off : Nat) (bs : List Byte) : KUnit :=
  (List.range ((bs.length + 15) / 16)).foldl (fun u i =>
    let p := (bs.drop (16 * i)).take 16
    if u.barrierIn (off + 16 * i) p.length then u else u.sput (off + 16 * i) p false) u

/-- A queued row operation runs to completion (event ENGINE_QUEUE_OP). DESIGN CHOICE (log entry 60): an ACCST or ACCSV writes all its rows in
one step, where R222 lets a racing LD see each byte old or new. -/
def execEngineQueueOp (core u : Nat) : Meaning := fun s =>
  .next <|
    match s.firstEng core u with
    | none => s
    | some (un, o) =>
      match o.kind with
      | .engine k win =>
        let fin (s : State) : State := s.engDone core u o.id
        let ts := threads o.mask
        match k with
        | .mma _ _ _ _ _ _ _ => s
        | .accz all =>
          fin (s.editUnit u fun un => un.editRows win o.mask fun _ r =>
            if all then AccRow.zero else { r with data := [], poison := false })
        | .accld f off =>
          let rb := 128 * f.bytes
          if ts.any fun t => un.spoisoned (off + t * rb) rb then s.engPoison core u o off
          else
            fin (s.editUnit u fun un => un.editRows win o.mask fun t r =>
              { r with
                data := (List.range 128).foldl (fun m j =>
                  Map.putD m j (accWiden f (slabAt (fun i => un.sbyte (off + t * rb + i)) (j * f.bytes) f.bytes)) 0#32) []
                poison := false })
        | .accst f off sc =>
          let rb := 128 * f.bytes
          let ix := s.freeIx
          fin
            (({ s with freeIx := ix + 4096 } : State).editUnit u fun un =>
              ts.foldl (fun un t =>
                let x := (un.row (32 * win + t)).narrowed f (Map.lookD sc t 0#32) fun j => Config.freeByte (ix + 128 * t + j)
                (un.sputRows (off + t * rb) x.1).putRow (32 * win + t) x.2) un)
        | .accsv off =>
          fin (s.editUnit u fun un => ts.foldl (fun un t => un.sputRows (off + 576 * t) (un.row (32 * win + t)).image) un)
        | .accrs off =>
          if ts.any fun t => un.spoisoned (off + 576 * t) 532 then s.engPoison core u o off
          else fin (s.editUnit u fun un => un.editRows win o.mask fun t _ => AccRow.ofImage fun i => un.sbyte (off + 576 * t + i))
        | .accmx n old =>
          fin (ts.foldl (fun s t =>
            let x := (un.row (32 * win + t)).maxOf n (old.bind fun m => Map.look m t)
            (s.editUnit u fun un => un.putRow (32 * win + t) x.2).laneResult u o t x.1) s)
        | .accexs n mx =>
          fin (ts.foldl (fun s t =>
            let x := (un.row (32 * win + t)).expSum n (Map.lookD mx t 0#32)
            (s.editUnit u fun un => un.putRow (32 * win + t) x.2).laneResult u o t x.1) s)
        | .accmsk => fin (s.editUnit u fun un => un.editRows win o.mask fun _ r => r.maskOut)
        | .maskg ready planes =>
          if !ready then s
          else
            fin (s.editUnit u fun un => un.editRows win o.mask fun t r =>
              match Map.look planes t with
              | some p => { r with plane := p }
              | none => r)
      | _ => s

end Sys2Proof.Machine
end

