-- ==== Sys2Proof/Machine/Transfer.lean ====
section
/-! DEFINITION. The transfer engine (07 R229 to R242): records, the transfer instructions, record fetch, chunks, and chains. -/
namespace Sys2Proof.Machine

/-! ### Records (R229, Tables 7.5, 7.6) -/

/-- A parsed record. Sizes and coordinates of dimensions at or above NDIM are 1 and 0. -/
structure TRec where
  own : Bool
  baren : Bool
  dsp : Nat
  fill : Nat
  ndim : Nat
  ety : Nat
  op : Nat
  bar : Nat
  next : Nat
  src : Nat
  dst : Nat
  ext : List Nat
  box : List Nat
  stride : List Nat
  coord : List Int
  half : Bool
  neg : Bool
  rotRest : Nat
  table : Nat
  rsv : Bool
  deriving DecidableEq, Repr

/-- Bytes per element. -/
def TRec.esize (r : TRec) : Nat := [1, 2, 2, 4].getD r.ety 4

/-- Elements of the box. -/
def TRec.elems (r : TRec) : Nat := r.box.foldl (· * ·) 1

/-- The tile byte count. -/
def TRec.bytes (r : TRec) : Nat := r.elems * r.esize

/-- Chunks of the record (R231). -/
def TRec.chunks (r : TRec) : Nat := (r.bytes + 511) / 512

/-- Read a record with a coordinate override (R235, R236). -/
def TRec.of (b : List Byte) (co : List Word) : TRec :=
  let u (o n : Nat) : Nat := leNat ((b.drop o).take n)
  let ctl := u 0 4
  let nd := field ctl 10 8
  let dst := u 0x18 8
  { own := field ctl 31 31 = 1, baren := field ctl 16 16 = 1, dsp := field ctl 15 14, fill := field ctl 12 11, ndim := nd
    ety := field ctl 7 4, op := field ctl 3 0, bar := u 4 4, next := u 8 8, src := u 0x10 8
    dst := match co[5]? with
      | some w => dst / 2 ^ 32 * 2 ^ 32 + w.toNat
      | none => dst
    ext := (List.range (min nd 5)).map fun d => u (0x20 + 4 * d) 4
    box := (List.range 5).map fun d => if d < nd then u (0x34 + d) 1 + 1 else 1
    stride := 0 :: (List.range 4).map fun d => u (0x40 + 8 * d) 8
    coord := (List.range 5).map fun d => match co[d]? with
      | some w => w.toInt
      | none => (BitVec.ofNat 32 (u (0x60 + 4 * d) 4)).toInt
    half := field (u 0x3C 4) 1 1 = 1, neg := field (u 0x3C 4) 0 0 = 1, rotRest := u 0x3C 4, table := u 0x78 8
    rsv := field ctl 30 17 ≠ 0 || field ctl 13 13 ≠ 0 || u 0x39 3 ≠ 0 || u 0x74 4 ≠ 0 }

/-- The limits of Tables 7.5 and 7.6 and of R233; a SKIP record is well formed in a chain only. -/
def TRec.ok (r : TRec) (stream chain : Bool) : Bool :=
  !r.rsv && decide (1 ≤ r.ndim) && decide (r.ndim ≤ 5) && decide (r.ety ≤ 3) && (stream || r.dsp ≠ 3) && r.fill ≠ 3
    && (r.ety ≠ 0 || r.fill = 0) && (decide (r.op ≤ 1) || (r.op = 2 && chain)) && r.ext.all (fun e => e ≠ 0) && r.src % r.esize = 0
    && decide (r.bytes ≤ 32768) && (!stream || !r.baren)
    && (if r.op = 1 then
          r.ety ≠ 0 && r.box.headD 1 % 2 = 0 && r.coord.headD 0 = 0 && decide (r.rotRest < 4) && r.table % 8 = 0
        else r.rotRest = 0 && r.table = 0)

/-- The box index of element i in dimension d. -/
def TRec.index (r : TRec) (i d : Nat) : Nat := i / (r.box.take d).foldl (· * ·) 1 % r.box.getD d 1

/-- The coordinate of element i in dimension d. -/
def TRec.at (r : TRec) (i d : Nat) : Int := r.coord.getD d 0 + r.index i d

/-- Whether element i lies inside the tensor. -/
def TRec.inside (r : TRec) (i : Nat) : Bool :=
  (List.range r.ndim).all fun d => decide (0 ≤ r.at i d) && decide (r.at i d < r.ext.getD d 0)

/-- The layout offset of an element that lies inside. -/
def TRec.offset (r : TRec) (i : Nat) : Nat :=
  ((r.at i 0).toNat * r.esize) + ((List.range r.ndim).map fun d => if d = 0 then 0 else (r.at i d).toNat * r.stride.getD d 0).sum

/-- The fill value (R230). -/
def TRec.fillValue (r : TRec) : Nat :=
  match r.ety, r.fill with
  | 1, 1 => 0xFF80
  | 1, 2 => 0x7FC0
  | 2, 1 => 0xFC00
  | 2, 2 => 0x7E00
  | 3, 1 => 0xFF800000
  | 3, 2 => 0x7FC00000
  | _, _ => 0

/-- The elements of a chunk. -/
def TRec.chunkElems (r : TRec) (c : Nat) : List Nat :=
  let n := 512 / r.esize
  span (c * n) (min n (r.elems - c * n))

/-! ### Engine accesses (R229, R241) -/

/-- What an engine access finds: the physical bytes, a translation to wait for (address, whether malformed), a pin to wait for, or a failure's
cause. -/
inductive EngPa where
  | ok (pas : List Nat)
  | wait
  | miss (va : Nat) (malf : Bool)
  | bad (cause : Nat)
  deriving DecidableEq, Repr

/-- A job of a unit, by its operation. -/
def KUnit.job? (u : KUnit) (op : Nat) : Option Job := u.jobs.find? fun j => j.op = op

/-- Change a job. -/
def State.editJob (s : State) (u op : Nat) (g : Job → Job) : State :=
  s.editUnit u fun un => { un with jobs := un.jobs.map fun j => if j.op = op then g j else j }

/-- A transfer pins the aperture page of a translation until it completes (R404). -/
def State.pinJob (s : State) (u : Nat) (j : Job) (l : Leaf) : State :=
  if l.kv.isNone then s else s.editJob u j.op fun j => if j.pins.contains l then j else { j with pins := j.pins ++ [l] }

/-- A pin that a translation would take is beyond 65,535, and waits (R404). -/
def State.pinWaits (s : State) (u : Nat) (j : Job) (l : Leaf) : Bool :=
  match l.kv with
  | none => false
  | some p => decide (65535 ≤ s.pins p) && !((((s.unit? u).bind fun un => un.job? j.op).map (·.pins)).getD []).any fun x => x.kv = some p

/-- A job issued by a warp tagged with one of some nodes of a sequence. -/
def Job.taggedIn (j : Job) (sq : Nat) (slots : NSet) : Bool :=
  nodeSpec j.node && nodeSeq j.node = sq && NSet.has slots (nodeSlot j.node)

/-- The speculative-store rule for a job's write, with the tag its warp held at issue (R241). Once that tag is committed, what lay below it
belongs to the prefix or to a node of its sequence: the job is not withdrawn. -/
def State.jobMayWrite (s : State) (j : Job) (l : Leaf) : Bool :=
  !(nodeSpec j.node) || s.specPage j.node l || j.kept && match l.kv.bind fun p => Map.look s.pages p with
    | some g => g.refs.all fun r => r.sq = nodeSeq j.node
    | none => false

/-- What an engine access finds for an address: a translation that the transfer's pin keeps serves where none is left otherwise (R406). -/
def State.engLeaf (s : State) (u : Nat) (un : KUnit) (j : Job) (va : Nat) : State × Except Bool Leaf :=
  match s.xlate un.core (s.ctxOf u) va with
  | (s, .error m) => (s, match j.pins.find? fun l => l.covers va with | some l => .ok l | none => .error m)
  | (s, .ok l) => (s.pinJob u j l, .ok l)

/-- Translate the bytes of an engine access and make its checks (R241). -/
def State.engPas (s₀ : State) (u : Nat) (un : KUnit) (j : Job) (write : Bool) : List Nat → State × EngPa
  | [] => (s₀, .ok [])
  | va :: vs =>
    match s₀.engLeaf u un j va with
    | (s, .error m) => (s, .miss va m)
    | (s, .ok l) =>
      if (write && !l.wr) || (!write && !l.rd) then (s, .bad 0x12)
      else if s₀.pinWaits u j l then (s₀, .wait)
      else if write && !(s.jobMayWrite j l) then (s, .bad 0x15)
      else if (s.ringBead (l.pa va)).isSome then (s, .bad 0x18)
      else if !write && s.poisoned (l.pa va) 1 then (s, .bad 0x19)
      else
        match s.engPas u un j write vs with
        | (s, .ok ps) => (s, .ok (l.pa va :: ps))
        | r => r

/-- The virtual addresses of n bytes. -/
def vaSpan (va n : Nat) : List Nat := (span va n).map (· % 2 ^ 56)

/-- Engine bytes at the coherence point. -/
def State.engRead (s : State) (pas : List Nat) : State × List Byte :=
  pas.foldl (fun p a => let r := p.1.homeRead a 1; (r.1, p.2 ++ r.2)) (s, [])

/-- Write engine bytes at the slices, a run of neighbours as one write, dropping the issuing core's copies of the words (R232, R297). -/
def State.engWrite (s : State) (core : Nat) (l : List (Nat × Byte)) : State :=
  (runsOf (l.foldl (fun m p => Map.put m p.1 p.2) [])).foldl (fun s p => s.homeWrite none (some core) p.1 p.2 false) s

/-- Whether an address range of a job meets a line locked for its access. -/
def State.engBusy (s : State) (pas : List Nat) (write : Bool) : Bool := pas.any fun a => s.lineBusy none a write

/-! ### Ends of jobs -/

/-- L advances over the ranges that are written below it (R236). -/
def Stream.settle (f : Stream) : Nat → Stream
  | 0 => f
  | n + 1 =>
    match f.landed.find? fun p => p.1 = f.l with
    | some p => ({ f with l := f.l + p.2, landed := f.landed.erase p } : Stream).settle n
    | none => f

/-- A chain slot of a unit. -/
def KUnit.chain (u : KUnit) (slot : Nat) : Chain := Map.lookD u.chains slot Chain.idle

/-- Change a chain slot. -/
def KUnit.editChain (u : KUnit) (slot : Nat) (g : Chain → Chain) : KUnit := { u with chains := Map.put u.chains slot (g (u.chain slot)) }

/-- A job leaves the engine: its operation completes, its flag and the xe counter fall. -/
def State.endJob (s : State) (u op : Nat) : State :=
  s.editUnit u fun un => ({ un with jobs := un.jobs.filter fun j => j.op ≠ op } : KUnit).complete op

/-- A chain leaves the running state: its operation and every XSTOP that waits for its slot complete (R237, R239). -/
def State.endChain (s : State) (u slot op : Nat) (st : ChainSt) (ptr : Nat) : State :=
  (s.endJob u op).editUnit u fun un =>
    let un := un.editChain slot fun c => { c with st := st, ptr := ptr, stopReq := false }
    ((un.ops.filter fun o => o.kind = .xstop slot).map (·.id)).foldl (fun un id => un.complete id) un

/-- The record's address as a number. -/
def RecAddr.num : RecAddr → Nat
  | .global va => va
  | .scratch off => off

/-- An operation of the engine fails (R241): a chain slot becomes faulted at the record; the issuing fragment is told. -/
def State.failJob (s : State) (u : Nat) (j : Job) (cause : Nat) : State :=
  let s := s.engineFail u j.warp j.fidx j.mask j.pc cause j.addr.num
  match j.kind with
  | .chain slot => s.endChain u slot j.op .faulted j.addr.num
  | _ => s.endJob u j.op

/-- An access of a job that does not translate waits in the die's fault service (R241, R351). -/
def State.missJob (s : State) (un : KUnit) (u : Nat) (j : Job) (va kind : Nat) (malf : Bool) : State :=
  (s.editJob u j.op fun j => { j with waitVa := some va }).postFbs un.core [fbLane (s.ctxOf u) va kind 1 0 malf]

/-- An XTILE or XSTRM that no live thread issued, and a killed one did, stops at a chunk boundary (R446); a chain does not. -/
def KUnit.stopsJob (un : KUnit) (j : Job) : Bool :=
  match j.kind with
  | .chain _ => false
  | _ => un.stopsNow j.warp j.mask

/-- A chain stops at its next record boundary: its unit is cancelled or killed, or every thread of the warp that ran its XCHAIN has ended and at
least one was killed (R242, R394, R446). -/
def KUnit.stopsChain (un : KUnit) (j : Job) : Bool :=
  un.cut || match Map.look un.warps j.warp with
    | some w => w.live = 0#32 && w.killed ≠ 0#32
    | none => true

/-! ### The instructions (R234 to R240) -/

/-- The record's capability at issue (R235): checks 1 to 5 as 128 bytes needing read, in global or scratch space. -/
def Ctx.recCheck (c : Ctx) (s : State) (a : CapReg) : Except (Nat × Word64) RecAddr :=
  let w : Want := { size := 128, need := 1, kind := .load, align := true, order := false, spaces := [0, 1] }
  let k := c.cap a c.low
  match c.early s w k (c.capTag a c.low) false k.cursor with
  | some cause => .error (cause, BitVec.ofNat 64 k.cursor)
  | none => .ok (if k.space = 1 then .scratch k.cursor else .global k.cursor)

/-- Start a job. -/
def State.addJob (s : State) (c : Ctx) (kind : JobKind) (addr : RecAddr) (co : List Word) (id : Nat) : State :=
  s.editUnit c.f.unit fun u =>
    { u with
      jobs := u.jobs ++
        [{ op := id, kind := kind, addr := addr, co := co, record := none, vals := [], sent := [], start := 0, chunks := []
           node := c.w.node, warp := c.f.warp, fidx := c.f.fidx, mask := c.act, pc := c.fr.pc, waitVa := none, failed := false, pins := [], kept := false }] }

/-- The override registers of the lowest active thread. -/
def Ctx.override (c : Ctx) (b : Option Reg) (n : Nat) : List Word :=
  match b with
  | none => []
  | some r => (List.range n).map fun i => c.w.reg (c.base + r.toNat + i) c.low

/-- XTILE (R235): the bitmap is cleared at issue. -/
def xtileWord (k : BitVec 4) (a : CapReg) (b : Option Reg) : Meaning :=
  withWord (opC a :: (b.map fun r => opRun r 6).toList) [] fun c s =>
    if c.act = 0#32 then s.skipLl c 1
    else
      match c.recCheck s a with
      | .error (cause, x) => s.faultLl c cause x
      | .ok addr =>
        s.whenReady c (llNeeds .xe ++ [.bitmap k.toNat]) fun s =>
          let s := s.addJob c (.tile k.toNat) addr (c.override b 6) c.u.nextOp
          let s := s.editUnit c.f.unit fun u => { u with bitmaps := Map.putD u.bitmaps k.toNat 0#64 0#64 }
          (s.issue c (some .xe) c.act .copy [] none none).retire c 1 false c.beats

def execXtile (k : BitVec 4) (a : CapReg) : Meaning := xtileWord k a none
def execXtileCo (k : BitVec 4) (a : CapReg) (b : Reg) : Meaning := xtileWord k a (some b)

/-- XSTRM (R236). -/
def xstrmWord (f : BitVec 2) (a : CapReg) (b : Option Reg) : Meaning :=
  withWord (opC a :: (b.map fun r => opRun r 5).toList) [] fun c s =>
    if c.act = 0#32 then s.skipLl c 1
    else
      match c.recCheck s a with
      | .error (cause, x) => s.faultLl c cause x
      | .ok addr =>
        if !c.l.stream then s.faultLl c 0x29 0
        else s.whenReady c (llNeeds .xe) fun s =>
          let s := s.addJob c (.stream f.toNat) addr (c.override b 5) c.u.nextOp
          (s.issue c (some .xe) c.act .copy [] none none).retire c 1 false c.beats

def execXstrm (k : BitVec 2) (a : CapReg) : Meaning := xstrmWord k a none
def execXstrmCo (k : BitVec 2) (a : CapReg) (b : Reg) : Meaning := xstrmWord k a (some b)

/-- A chain channel of a die that no running slot holds. -/
def State.freeChannel (s : State) (die : Nat) : Option Nat :=
  leastBelow 64 fun n => !(s.units.any fun p =>
    dieOf p.2.core = die && p.2.chains.any fun q => q.2.st = .running && q.2.channel = n)

/-- XCHAIN (R237). The context's channel map, which no rule describes, gives it a free channel or not, by a free choice. -/
def execXchain (d a b : Reg) : Meaning :=
  withWord [opV d, opP a, opV b] [] fun c s =>
    if c.act = 0#32 then s.skipLl c 1
    else
      let v := (c.rd b c.low).toNat
      let slot := v % 4
      let answer (s : State) (x : Word) : State :=
        s.editWarp c.f.unit c.f.warp fun w => w.putOuts .general c.act fun _ => .ofRegs (c.wr d x)
      if field v 31 2 ≠ 0 then s.faultLl c 0x2A 0
      else if (c.u.chain slot).st = .running then ((answer s 1).editFrag c.f Frag.passLl).retire c 1 false c.beats
      else
        match s.freeChannel (dieOf c.u.core), s.choose with
        | some n, (true, s) => s.whenReady c (llNeeds .xe) fun s =>
          let s := s.addJob c (.chain slot) (.global (c.rdP a c.low).toNat) [] c.u.nextOp
          let s := s.editUnit c.f.unit fun u => u.editChain slot fun x =>
            { x with st := .running, recs := 0, ptr := (c.rdP a c.low).toNat, stopReq := false, channel := n, again := none }
          ((answer s 0).issue c (some .xe) c.act (.chain slot) [] none none).retire c 1 false c.beats
        | none, _ => ((answer s 2).editFrag c.f Frag.passLl).retire c 1 false c.beats
        | some _, (false, s) => ((answer s 2).editFrag c.f Frag.passLl).retire c 1 false c.beats

/-- STATE of Table 7.10. -/
def ChainSt.bits : ChainSt → Nat
  | .idle => 0
  | .running => 1
  | .stopped => 2
  | .faulted => 3

/-- XSTAT (R239). -/
def execXstat (m : Bool) (d b : Reg) : Meaning :=
  withWord [if m then opP d else opV d, opV b] [] fun c s =>
    let x := c.u.chain ((c.rd b c.low).toNat % 4)
    (s.editWarp c.f.unit c.f.warp fun w => w.putOuts .general c.act fun _ =>
      .ofRegs (if m then c.wrP d (BitVec.ofNat 64 x.ptr) else c.wr d (BitVec.ofNat 32 (x.recs.toNat * 256 + x.st.bits)))).retire c 1 false c.beats

/-- XSTOP (R239): at once complete on a slot that is not running. -/
def execXstop (b : Reg) : Meaning :=
  withWord [opV b] [] fun c s =>
    if c.act = 0#32 then s.skipLl c 1
    else s.whenReady c (llNeeds .xe) fun s =>
      let slot := (c.rd b c.low).toNat % 4
      let id := c.u.nextOp
      let s := s.issue c (some .xe) c.act (.xstop slot) [] none none
      let s :=
        if (c.u.chain slot).st = .running then s.editUnit c.f.unit fun u => u.editChain slot fun x => { x with stopReq := true }
        else s.editUnit c.f.unit fun u => u.complete id
      s.retire c 1 false c.beats

/-- CHKT (R240). -/
def execChkt (d : PredReg) (a : Reg) (k : BitVec 4) : Meaning :=
  withWord [opP a] [d] fun c s =>
    let m := c.rdP a c.low
    let v : Bool := Map.lookD c.u.bitmaps k.toNat 0#64 &&& m = m
    (s.editWarp c.f.unit c.f.warp fun w => w.putOuts .general c.act fun _ => .ofPred d v).retire c 1 false c.beats

/-- CHKW (R240). -/
def execChkw (a : Reg) (k : BitVec 4) : Meaning :=
  withWord [opP a] [] fun c s =>
    let m := c.rdP a c.low
    if c.act = 0#32 || Map.lookD c.u.bitmaps k.toNat 0#64 &&& m = m then s.retire c 1 false c.beats
    else s.parkBlocking c (.chunks k.toNat m)

/-! ### Record fetch (R231, R235, R236, R241) -/

/-- The unit whose scratchpad a record writes, with the offset; nothing where that unit has ended (R154). -/
def TRec.target (r : TRec) (un : KUnit) (u : Nat) : Option (Nat × Nat) :=
  if r.dsp = 1 then
    let rank := field r.dst 21 19
    if NSet.has un.rankEnded rank then none else (Map.look un.mates rank).map fun t => (t, r.dst % 2 ^ 19)
  else some (u, r.dst % 2 ^ 19)

/-- The checks made when the record is read: the cause of a failure. A cluster rank beyond %clu is malformed (R235), as is a bad BAR
(R231); a tile that passes the allotment is a bounds fault (R241). -/
def TRec.refusal (r : TRec) (un : KUnit) (u scratch : Nat) (stream chain : Bool) : Option Nat :=
  if !(r.ok stream chain) then some 0
  else if r.op ≠ 2 && !stream && r.dsp = 1 && decide (un.sizeM1 < field r.dst 21 19) then some 0
  else if r.baren && (field r.bar 31 23 ≠ 0 || field r.bar 18 0 % 16 ≠ 0 || (field r.bar 22 22 = 1 && decide (un.sizeM1 < field r.bar 21 19))
      || decide (scratch < field r.bar 18 0 + 16)) then some 0
  else if r.op = 2 || stream || r.dsp = 2 then none
  else
    match r.target un u with
    | none => some 0x11
    | some (_, off) => if scratch < off + r.bytes then some 0x13 else none

/-- The bytes of a job's record, or what its fetch meets. -/
def State.fetchRecord (s : State) (u : Nat) (un : KUnit) (j : Job) : State × Except EngPa (List Byte) :=
  match j.addr with
  | .scratch off => if un.spoisoned off 128 then (s, .error (.bad 0x19)) else (s, .ok (un.sbytes off 128))
  | .global va =>
    if va % 128 ≠ 0 then (s, .error (.bad 0))
    else
      match s.engPas u un j false (vaSpan va 128) with
      | (s, .ok pas) =>
        if s.engBusy pas false then (s, .error (.ok []))
        else
          let r := s.engRead pas
          (r.1, .ok r.2)
      | (s, e) => (s, .error e)

/-- The addresses of the elements of a record, inside ones only. -/
def TRec.addrs (r : TRec) (base : Nat) (is : List Nat) : List Nat :=
  is.flatMap fun i => if r.inside i then vaSpan (base + r.offset i) r.esize else []

/-- The values of elements: memory's inside, the fill value outside. -/
def TRec.values (r : TRec) (bs : List Byte) : List Nat → List Word
  | [] => []
  | i :: is =>
    if r.inside i then BitVec.ofNat 32 (leNat (bs.take r.esize)) :: r.values (bs.drop r.esize) is
    else BitVec.ofNat 32 r.fillValue :: r.values bs is

/-- The format of an element type. -/
def TRec.fmt (r : TRec) : Fmt :=
  match r.ety with
  | 1 => bf16
  | 2 => f16
  | _ => f32

/-- Rotate a pair (R233). -/
def rotPair (f : Fmt) (neg : Bool) (cs sn x y : Nat) : Nat × Nat :=
  let xv := (fcvt f f32 .rn x).1
  let yv := (fcvt f f32 .rn y).1
  let sn := if neg then (BitVec.ofNat 32 sn ^^^ 0x80000000#32).toNat else sn
  let u := ((BitVec.ofNat 32 (f32.mul .rn yv sn).1) ^^^ 0x80000000#32).toNat
  let v := (f32.mul .rn yv cs).1
  ((fcvt f32 f .rn (f32.fma .rn false false xv cs u).1).1, (fcvt f32 f .rn (f32.fma .rn false false xv sn v).1).1)

/-- The elements of a ROTK record after rotation: `vals` in packed order, `tab` the table's words. -/
def TRec.rotated (r : TRec) (vals : List Word) (tab : List Nat) : List Word :=
  let d := r.box.headD 1
  (List.range r.elems).map fun i =>
    let h := i % d
    let row := i - h
    let m := if r.half then h % (d / 2) else h / 2
    let ix := row + if r.half then m else 2 * m
    let iy := row + if r.half then m + d / 2 else 2 * m + 1
    if r.inside ix && r.inside iy then
      let p := rotPair r.fmt r.neg (tab.getD (2 * m) 0) (tab.getD (2 * m + 1) 0) (vals.getD ix 0).toNat (vals.getD iy 0).toNat
      BitVec.ofNat 32 (if i = ix then p.1 else p.2)
    else vals.getD i 0

/-- The words of a table. -/
def wordsOfBytes : List Byte → Nat → List Nat
  | _, 0 => []
  | bs, n + 1 => leNat (bs.take 4) :: wordsOfBytes (bs.drop 4) n

/-- A record that has been read takes its place in the engine: a stream range is taken off W in issue order (R220); a ROTK record reads its table
and its source (R233). -/
def State.loadJob (s : State) (un : KUnit) (u : Nat) (j : Job) (b : List Byte) (r : TRec) : State :=
  let keep (s : State) (vals : Map Word) : State :=
    match j.kind with
    | .stream f =>
      (s.editUnit u fun un => un.editStream f fun x => { x with w := x.w + r.bytes }).editJob u j.op fun j =>
        { j with record := some b, vals := vals, start := (un.stream? f).w }
    | _ => s.editJob u j.op fun j => { j with record := some b, vals := vals }
  if r.op ≠ 1 then keep s []
  else
    let d := r.box.headD 1
    match s.engPas u un j false (vaSpan r.table (4 * d)) with
    | (_, .wait) => s
    | (s, .miss va m) => s.missJob un u j va 1 m
    | (s, .bad c) => s.failJob u j c
    | (s, .ok tp) =>
      match s.engPas u un j false (r.addrs r.src (List.range r.elems)) with
      | (_, .wait) => s
      | (s, .miss va m) => s.missJob un u j va 1 m
      | (s, .bad c) => s.failJob u j c
      | (s, .ok sp) =>
        if s.engBusy (tp ++ sp) false then s
        else
          let t := s.engRead tp
          let v := t.1.engRead sp
          keep v.1 ((List.range r.elems).zip (r.rotated (r.values v.2 (List.range r.elems)) (wordsOfBytes t.2 d)))

/-- Read and check a job's record. -/
def State.fetchJob (s : State) (un : KUnit) (u : Nat) (j : Job) : State :=
  let scratch := ((s.launchOf u).map (·.scratch)).getD 0
  let stream := match j.kind with | .stream _ => true | _ => false
  let chain := match j.kind with | .chain _ => true | _ => false
  match s.fetchRecord u un j with
  | (s, .error (.miss va m)) => s.missJob un u j va 1 m
  | (s, .error (.bad c)) => s.failJob u j c
  | (_, .error (.ok _)) | (_, .error .wait) => s
  | (s, .ok b) =>
    let r := TRec.of b j.co
    if chain && !r.own then
      match j.kind with
      | .chain slot => s.endChain u slot j.op .idle j.addr.num
      | _ => s
    else
      match r.refusal un u scratch stream chain with
      | some c => s.failJob u j c
      | none => s.loadJob un u j b r

/-- An earlier stream job of the same FIFO has not read its record: ranges are taken in issue order. -/
def KUnit.streamWaits (u : KUnit) (j : Job) : Bool :=
  match j.kind with
  | .stream _ => (u.jobs.takeWhile fun x => x.op ≠ j.op).any fun x => x.kind = j.kind && x.record.isNone
  | _ => false

/-- The engine reads and checks a record (event TRANSFER_RECORD_FETCH). -/
def execTransferRecordFetch (u op : Nat) : Meaning := fun s =>
  .next <|
    match s.unit? u with
    | none => s
    | some un =>
      match un.job? op with
      | none => s
      | some j =>
        if un.stopsJob j then s.endJob u j.op
        else if j.failed then s.failJob u j 0x16
        else if j.record.isSome || j.waitVa.isSome || un.streamWaits j then s
        else
          match j.kind with
          | .chain _ => s
          | _ => s.fetchJob un u j

/-! ### Chunks (R230 to R233) -/

/-- A byte of a stream FIFO written. -/
def Stream.write (f : Stream) (at0 : Nat) (bs : List Byte) : Stream :=
  { f with bytes := (List.range bs.length).foldl (fun m i => Map.putD m ((at0 + i) % 32768) (bs.getD i 0#8) 0#8) f.bytes }

/-- Elements of a chunk reach a scratchpad; one that meets a registered barrier word is dropped (R193). DESIGN CHOICE (log entry 61): each such
element is one write that CORE_STRAY counts. -/
def State.tileScratch (s : State) (core t off e : Nat) (l : List (Nat × Word)) : State :=
  l.foldl (fun s p =>
    match s.unit? t with
    | none => s
    | some un =>
      if un.barrierIn (off + p.1 * e) e then s.stray core
      else s.editUnit t fun un => un.sput (off + p.1 * e) (leBytes e p.2.toNat) false) s

/-- A byte of a stream range, once its element is known. -/
def Job.byte? (j : Job) (e x : Nat) : Option Byte := (Map.look j.vals (x / e)).map fun (v : Word) => (v >>> (8 * (x % e))).setWidth 8

/-- The aligned 64-byte pieces of the stream that a chunk of n bytes touches, numbered from the first of the range. -/
def Job.pieces (j : Job) (c n : Nat) : List Nat :=
  let lo := (j.start % 64 + 512 * c) / 64
  span lo ((j.start % 64 + 512 * c + n - 1) / 64 + 1 - lo)

/-- The bytes of a piece that lie in the range, when all of them are known (R220). -/
def Job.piece? (j : Job) (r : TRec) (k : Nat) : Option (List (Nat × Byte)) :=
  let lo := 64 * k - j.start % 64
  (span lo (min (64 * (k + 1) - j.start % 64) r.bytes - lo)).mapM fun x => (j.byte? r.esize x).map fun b => (j.start + x, b)

/-- Write pieces of a stream. -/
def State.putPieces (s : State) (u f : Nat) (j : Job) (r : TRec) (ks : List Nat) : State :=
  s.editUnit u fun un => un.editStream f fun x =>
    (ks.filterMap (j.piece? r)).foldl (fun x l => l.foldl (fun x p => x.write p.1 [p.2]) x) x

/-- A chunk that covers all 8 bytes of a poisoned scratchpad word clears its mark (R429); elements dropped at a barrier word cover nothing. -/
def State.chunkCovers (s : State) (un : KUnit) (u : Nat) (r : TRec) (c : Nat) : State :=
  match r.target un u with
  | none => s
  | some (t, off) => s.editUnit t fun v =>
    if v.frozen then v
    else
      let is := (r.chunkElems c).filter fun i => !(v.barrierIn (off + i * r.esize) r.esize)
      let m : Map Byte := (is.flatMap fun i => span (off + i * r.esize) r.esize).foldl (fun m a => Map.put m a 0#8) []
      { v with spoison := (runsOf m).foldl (fun p x => clearPoison p x.1 x.2.length) v.spoison }

/-- The chunk is complete: its bitmap bit, then its posting (R231). -/
def State.chunkDone (s : State) (un : KUnit) (u : Nat) (j : Job) (r : TRec) (c : Nat) : State :=
  let s := s.editJob u j.op fun j => { j with chunks := NSet.add j.chunks c }
  let s := match j.kind with
    | .tile k => s.editUnit u fun un => { un with bitmaps := Map.put un.bitmaps k (Map.lookD un.bitmaps k 0#64 ||| (1#64 <<< c)) }
    | _ => s
  let n := (r.chunkElems c).length * r.esize
  let s :=
    if r.baren then
      let tgt := if field r.bar 22 22 = 1 then
          (if NSet.has un.rankEnded (field r.bar 21 19) then none else Map.look un.mates (field r.bar 21 19))
        else some u
      s.postBar un.core tgt (field r.bar 18 0) n
    else s
  if j.chunks.length + 1 < r.chunks then s
  else
    match j.kind with
    | .chain _ => s
    | .tile _ => s.endJob u j.op
    | .stream f =>
      (s.editUnit u fun un => un.editStream f fun x =>
        ({ x with landed := x.landed ++ [(j.start, r.bytes)] } : Stream).settle (x.landed.length + 1)).endJob u j.op

/-- A subset of a list, by free choices. -/
def State.someOf (s : State) (l : List Nat) : State × List Nat :=
  ({ s with freeIx := s.freeIx + l.length }, (l.zip (List.range l.length)).filterMap fun p => if Config.freeBit (s.freeIx + p.2) then some p.1 else none)

/-- What a chunk of a job is: the elements, and what may be written apart: elements of a scratchpad, the pieces of a stream (R220, R230). -/
def State.unsent (j : Job) (r : TRec) (c : Nat) : List Nat :=
  let l := match j.kind with
    | .stream _ => (j.pieces c ((r.chunkElems c).length * r.esize)).filter fun k => (j.piece? r k).isSome
    | _ => r.chunkElems c
  l.filter fun x => !(NSet.has j.sent x)

/-- Write elements of a scratchpad or pieces of a stream, once each. -/
def State.send (s : State) (un : KUnit) (u : Nat) (j : Job) (r : TRec) (l : List Nat) : State :=
  let s := match j.kind with
    | .stream f => s.putPieces u f j r l
    | _ => match r.target un u with
      | some (t, off) => s.tileScratch un.core t off r.esize (l.map fun i => (i, Map.lookD j.vals i 0))
      | none => s
  s.editJob u j.op fun j => { j with sent := l.foldl NSet.add j.sent }

/-- The values of a chunk's elements are read once (R230); a ROTK record's are known already. -/
def State.readChunk (s : State) (un : KUnit) (u : Nat) (j : Job) (r : TRec) (c : Nat) (go : Job → State → State) : State :=
  let is := r.chunkElems c
  if is.all (Map.has j.vals) then go j s
  else
    match s.engPas u un j false (r.addrs r.src is) with
    | (_, .wait) => s
    | (s, .miss va m) => s.missJob un u j va 1 m
    | (s, .bad x) => s.failJob u j x
    | (s, .ok sp) =>
      if s.engBusy sp false then s
      else
        let rd := s.engRead sp
        let vals := (is.zip (r.values rd.2 is)).foldl (fun m p => Map.put m p.1 p.2) j.vals
        go { j with vals := vals } (rd.1.editJob u j.op fun j => { j with vals := vals })

/-- The writes of a chunk: those of a global destination perform together as the chunk completes (R231, R302); those of a scratchpad or a stream
may come some first, and the rest as it completes. -/
def State.writeChunk (s : State) (un : KUnit) (u : Nat) (j : Job) (r : TRec) (c : Nat) : State :=
  let stream := match j.kind with | .stream _ => true | _ => false
  if r.dsp = 2 && !stream then
    let is := r.chunkElems c
    match s.engPas u un j true (r.addrs r.dst is) with
    | (_, .wait) => s
    | (s, .miss va m) => s.missJob un u j va 2 m
    | (s, .bad x) => s.failJob u j x
    | (s, .ok dp) =>
      if s.engBusy dp true then s
      else
        let bs := is.flatMap fun i => if r.inside i then leBytes r.esize (Map.lookD j.vals i 0).toNat else []
        (s.engWrite un.core (dp.zip bs)).chunkDone un u j r c
  else
    let l := State.unsent j r c
    match s.choose with
    | (true, s) => let q := s.someOf l; q.1.send un u j r q.2
    | (false, s) =>
      let s := s.send un u j r l
      (if stream then s else s.chunkCovers un u r c).chunkDone un u j r c

/-- A chain whose warp the tree unit killed may stop at a chunk boundary, in state faulted at the record in progress, as R394 has it, or go on to its
record boundary, as R446 has it: a free choice (log entry 59). -/
def State.maybeStopChain (s : State) (un : KUnit) (u : Nat) (j : Job) (go : State → State) : State :=
  match j.kind with
  | .chain slot =>
    if un.stopsChain j && !un.cut && ((Map.look un.warps j.warp).map (·.pruned)).getD false then
      match s.choose with
      | (true, s) => s.endChain u slot j.op .faulted j.addr.num
      | (false, s) => go s
    else go s
  | _ => go s

/-- A chunk of a record completes, or some of it is written ahead of that (event CHUNK_COMPLETE). -/
def execChunkComplete (u op c : Nat) : Meaning := fun s =>
  .next <|
    match s.unit? u with
    | none => s
    | some un =>
      match un.job? op with
      | none => s
      | some j =>
        match j.record with
        | none => s
        | some b =>
          let r := TRec.of b j.co
          if un.stopsJob j then s.endJob u j.op
          else if j.failed then s.failJob u j 0x16
          else if j.waitVa.isSome || NSet.has j.chunks c || decide (r.chunks ≤ c) || r.op = 2 then s
          else s.maybeStopChain un u j fun s =>
            let stream := match j.kind with | .stream _ => true | _ => false
            if r.dsp ≠ 2 && !stream && (r.target un u).isNone then s.failJob u j 0x11
            else s.readChunk un u j r c fun j s => s.writeChunk un u j r c

/-! ### Chains (R238, R239, R242) -/

/-- Clear OWN in a chain record once its writes are performed (R238). -/
def State.clearOwn (s : State) (un : KUnit) (u : Nat) (j : Job) (b : List Byte) : State × EngPa :=
  match s.engPas u un j true (vaSpan j.addr.num 4) with
  | (s, .ok pas) =>
    if s.engBusy pas true then (s, .ok [])
    else (s.engWrite un.core (pas.zip (leBytes 4 (leNat (b.take 4) % 2 ^ 31))), .ok pas)
  | r => r

/-- The unit is being evicted: its gang has parked (R337). -/
def State.evicting (s : State) (un : KUnit) : Bool :=
  match Map.look s.launches un.launch with
  | some l => l.st = .draining
  | none => false

/-- A stopped slot that was running at eviction binds a channel on its new die, when one is free, and goes on (R242). -/
def State.resumeChain (s : State) (un : KUnit) (u slot : Nat) : State :=
  match (un.chain slot).again.filter (fun j => !(un.stopsChain j)), s.freeChannel (dieOf un.core) with
  | some j, some n =>
    s.editUnit u fun un =>
      { un.editChain slot fun x => { x with st := .running, stopReq := false, channel := n, again := none } with
        nextOp := un.nextOp + 1, jobs := un.jobs ++ [{ j with op := un.nextOp }] }
  | _, _ => s

/-- A chain channel takes its next step (event CHAIN_RECORD_STEP): it reads the record at its pointer, or, with every chunk complete, clears OWN
and goes on to NEXT. -/
def execChainRecordStep (u slot : Nat) : Meaning := fun s =>
  .next <|
    match s.unit? u with
    | none => s
    | some un =>
      match un.jobs.find? fun j => j.kind = .chain slot with
      | none => if s.evicting un then s else s.resumeChain un u slot
      | some j =>
        if j.failed then s.failJob u j 0x16
        else if j.waitVa.isSome then s
        else
          match j.record with
          | none => if un.stopsChain j then s.endChain u slot j.op .stopped j.addr.num
            else if j.addr.num = 0 then s.endChain u slot j.op .idle 0 else s.fetchJob un u j
          | some b =>
            let r := TRec.of b j.co
            if r.op ≠ 2 && decide (j.chunks.length < r.chunks) then s
            else
              match s.clearOwn un u j b with
              | (_, .wait) => s
              | (s, .miss va m) => s.missJob un u j va 2 m
              | (s, .bad c) => s.failJob u j c
              | (s, .ok []) => s
              | (s, .ok _) =>
                let s := s.editUnit u fun un => un.editChain slot fun x => { x with recs := x.recs + 1#24, ptr := r.next }
                if (un.chain slot).stopReq || un.stopsChain j then s.endChain u slot j.op .stopped r.next
                else if s.evicting un then
                  (s.endChain u slot j.op .stopped r.next).editUnit u fun un => un.editChain slot fun x =>
                    { x with again := some { j with addr := .global r.next, record := none, vals := [], sent := [], chunks := [], waitVa := none, pins := [] } }
                else s.editJob u j.op fun j => { j with addr := .global r.next, record := none, vals := [], sent := [], chunks := [], pins := [] }

end Sys2Proof.Machine
end

