-- ==== Sys2Proof/Machine/Save.lean ====
section
/-! DEFINITION. Save images (11 R338 to R341): their layout, the registers that stay behind in marked banks, and the restoring of a unit. Log entry
62 gives the places that Table 11.10 leaves open. -/
namespace Sys2Proof.Machine

/-! ### Sections (Table 11.10) -/

/-- Offsets of the sections before the accumulator rows. -/
def imgBankmap : Nat := 0x40
/-- STREAM. -/
def imgStream : Nat := 0x90
/-- CHAINS. -/
def imgChains : Nat := 0xF0
/-- BITMAPS. -/
def imgBitmaps : Nat := 0x140
/-- CODEBOOKS. -/
def imgCodebooks : Nat := 0x1C0
/-- BARTAB. -/
def imgBartab : Nat := 0x240
/-- FRAGS. -/
def imgFrags : Nat := 0x1340
/-- SPLITS. -/
def imgSplits : Nat := 0x5340
/-- WARPS. -/
def imgWarps : Nat := 0x6340
/-- ACC. -/
def imgAcc : Nat := 0x8B40

/-- SCRATCH of a unit of a launch. -/
def Launch.imgScratch (l : Launch) : Nat := imgAcc + 576 * l.acc
/-- SCRTAGS. -/
def Launch.imgTags (l : Launch) : Nat := l.imgScratch + l.scratch
/-- REGS. -/
def Launch.imgRegs (l : Launch) : Nat := l.imgTags + l.scratch / 128
/-- Register banks of a warp. -/
def Launch.warpBanks (l : Launch) : Nat := l.regs / 16
/-- Register banks of a unit. -/
def Launch.banks (l : Launch) : Nat := l.warps * l.warpBanks
/-- MXOPS. -/
def Launch.imgMxops (l : Launch) : Nat := l.imgRegs + 2064 * l.banks

/-! ### What is written (R339) -/

/-- Sixteen fragment entries of a warp. -/
def Warp.fragImages (w : Warp) (core : Nat) : List Byte :=
  (List.range 16).flatMap fun i => leBytes 32 (match Map.look w.frags i with
    | some x => x.image core w.slot i
    | none => 0)

/-- Sixteen split records of a warp. -/
def Warp.splitImages (w : Warp) : List Byte :=
  (List.range 16).flatMap fun i => match Map.look w.splits i with
    | some r => leBytes 4 r.rpc.toNat ++ leBytes 4 (r.sfmt.toNat + r.swin.toNat * 2 ^ 14 + r.prec.toNat * 2 ^ 19)
    | none => leBytes 8 0

/-- The WARPS entry of a warp. -/
def Warp.stateImage (w : Warp) : List Byte :=
  ((List.range 7).flatMap fun p => leBytes 4 (Map.lookD w.preds p 0#32).toNat) ++ leBytes 4 w.exited.toNat ++ leBytes 8 w.node.toNat
    ++ leBytes 4 w.cbank.toNat ++ leBytes 20 0 ++ ((List.range 32).flatMap fun t => leBytes 4 (w.flags t).toNat)
    ++ (List.range 32).flatMap fun t => leBytes 4 (w.tx t).status.toNat

/-- A register bank of a warp: 16 registers of 32 threads, then the tags of 4 quads. -/
def Warp.bankImage (w : Warp) (j : Nat) : List Byte :=
  ((List.range 512).flatMap fun k => leBytes 4 (w.reg (16 * j + k / 32) (k % 32)).toNat)
    ++ (List.range 4).flatMap fun q => leBytes 4 (Map.lookD w.qtags (4 * j + q) 0#32).toNat

/-- What 32 warps give, zero where the unit has fewer. -/
def KUnit.perWarp (un : KUnit) (n : Nat) (g : Warp → List Byte) : List Byte :=
  (List.range 32).flatMap fun i => match Map.look un.warps i with
    | some w => g w
    | none => List.replicate n 0#8

/-- The sixteen barrier table entries. -/
def KUnit.barImages (un : KUnit) : List Byte :=
  (List.range 16).flatMap fun i => match un.bars[i]? with
    | some (off, b) => leBytes 4 off ++ leBytes 4 1 ++ leBytes 8 0 ++ leBytes 128 b.arrived.toNat ++ leBytes 128 b.dropped.toNat
    | none => List.replicate 272 0#8

/-- A matrix operation, which may be saved unfinished. -/
def Op.isMma (o : Op) : Bool :=
  match o.kind with
  | .engine (.mma _ _ _ _ _ _ _) _ => true
  | _ => false

/-- The matrix operations of a unit that are stopped or queued, in queue order. -/
def KUnit.mxops (un : KUnit) : List Op := un.ops.filter fun o => o.isMma && !o.done

/-- The opcode of a matrix instruction (07). -/
def MmaKind.opcode : MmaKind → Nat
  | .bf16 => 0x190
  | .f16 => 0x191
  | .f32 => 0x192
  | .k4 => 0x193
  | .i8 => 0x194
  | .xor => 0x195
  | .and => 0x196

/-- The MXOPS entry of an operation: the descriptor is what R217 gives the instruction, the stream position the number of the first byte of its
slab. DESIGN CHOICE (log entry 62): the sizes and offsets of the header's fields, and A's copy thread by thread. -/
def Op.mxImage (o : Op) : List Byte :=
  match o.kind with
  | .engine (.mma k n fifo start a cb step) win =>
    let n4 (x : Nat) : List Byte := leBytes 4 x
    n4 k.opcode ++ n4 n ++ n4 (fifo.getD start) ++ n4 step ++ n4 win ++ n4 cb ++ n4 o.mask.toNat ++ n4 (o.flag.getD 15)
      ++ leBytes 8 (if fifo.isSome then start else 0) ++ leBytes 24 0
      ++ (List.range 32).flatMap fun t => (List.range 128).flatMap fun i => n4 ((Map.lookD a t []).getD i 0#32).toNat
  | _ => []

/-- The parts of a unit's image from HDR to SCRTAGS. Until a bank is spilled BANKMAP is zero. DESIGN CHOICE (log entry 62): the sizes and offsets of
HDR's fields after the magic. -/
def KUnit.imageHead (un : KUnit) (l : Launch) : List Byte :=
  leBytes 4 0x49535856 ++ leBytes 4 1 ++ leBytes 4 un.index ++ leBytes 8 l.lrec ++ leBytes 4 l.kidx ++ leBytes 4 l.warps
    ++ leBytes 4 un.mxops.length ++ leBytes 4 l.ctx ++ leBytes 28 0
    ++ leBytes 64 0
    ++ leBytes 4 0 ++ leBytes 2 un.mxops.length ++ leBytes 10 0
    ++ ((List.range 4).flatMap fun f => let x := un.stream? f; leBytes 8 x.w ++ leBytes 8 x.l ++ leBytes 8 x.c)
    ++ ((List.range 4).flatMap fun k => let x := un.chain k; leBytes 8 (x.recs.toNat * 256 + x.st.bits) ++ leBytes 8 x.ptr)
    ++ leBytes 16 0
    ++ ((List.range 16).flatMap fun k => leBytes 8 (Map.lookD un.bitmaps k 0#64).toNat)
    ++ ((List.range 4).flatMap fun k => leBytes 32 (Map.lookD un.cbs k 0).toNat)
    ++ un.barImages ++ un.perWarp 512 (fun w => w.fragImages un.core) ++ un.perWarp 128 Warp.splitImages ++ un.perWarp 320 Warp.stateImage
    ++ ((List.range l.acc).flatMap fun i => (un.row i).image) ++ un.sbytes 0 l.scratch
    ++ (List.range (l.scratch / 128)).flatMap fun i =>
      leBytes 1 ((List.range 8).map fun j => if NSet.has un.stags (8 * i + j) then 2 ^ j else 0).sum

/-- MXOPS of a unit. -/
def KUnit.imageMx (un : KUnit) : List Byte := un.mxops.flatMap Op.mxImage

/-! ### Writing and reading a pool -/

/-- Write bytes at a virtual address of a context, page by page; a page that does not translate takes none. -/
def State.schedWrite (s : State) (ctx va : Nat) (bs : List Byte) : Nat → State
  | 0 => s
  | fuel + 1 =>
    if bs = [] then s
    else
      let n := 4096 - va % 4096
      let s := match s.schedPa ctx va with
        | some pa => s.agentWrite pa (bs.take n)
        | none => s
      s.schedWrite ctx (va + n) (bs.drop n) fuel

/-- The bytes that a pool holds where `dflt` would be written: a page that does not translate gives those. -/
def State.schedRead (s : State) (ctx va : Nat) (dflt : List Byte) : Nat → List Byte
  | 0 => []
  | fuel + 1 =>
    if dflt = [] then []
    else
      let n := 4096 - va % 4096
      let here := dflt.take n
      (match s.schedPa ctx va with
        | some pa => (s.combine pa here.length).bytes pa here.length
        | none => here) ++ s.schedRead ctx (va + n) (dflt.drop n) fuel

/-- Write part of a unit's image. -/
def State.imageWrite (s : State) (l : Launch) (un : KUnit) (off : Nat) (bs : List Byte) : State :=
  s.schedWrite l.ctx (un.image + off) bs (bs.length / 4096 + 2)

/-- Read part of a unit's image. -/
def State.imageRead (s : State) (l : Launch) (un : KUnit) (off : Nat) (dflt : List Byte) : List Byte :=
  s.schedRead l.ctx (un.image + off) dflt (dflt.length / 4096 + 2)

/-- Write a unit's image; its registers stay in their banks (R338, R339). -/
def State.writeImage (s : State) (un : KUnit) (l : Launch) : State :=
  (s.imageWrite l un 0 (un.imageHead l)).imageWrite l un l.imgMxops un.imageMx

/-- The places at which two lists of bytes differ, with what the second has there. -/
def diffs (at0 : Nat) : List Byte → List Byte → List (Nat × Byte)
  | x :: xs, y :: ys => if x = y then diffs (at0 + 1) xs ys else (at0, y) :: diffs (at0 + 1) xs ys
  | _, _ => []

/-- What has changed of an evicted unit is written to its image. -/
def State.syncImage (old s : State) (u : Nat) : State :=
  match Map.look old.evicted u, Map.look s.evicted u with
  | some a, some b =>
    if a = b then s
    else
      match Map.look s.launches b.launch with
      | none => s
      | some l => (diffs 0 (a.imageHead l) (b.imageHead l)).foldl (fun s p => s.imageWrite l b p.1 [p.2]) s
  | _, _ => s

/-- An event acts on saved units in their images too (R340, R422, R424). -/
def imaged (g : State → State) (s : State) : State := (Map.keys s.evicted).foldl (fun t u => State.syncImage s t u) (g s)

/-- An event that happens whole or waits, and acts on saved units in their images. -/
def wholeImaged (g : State → State) : State → State := whole (imaged g)

/-! ### Banks that stay behind (R338, R341) -/

/-- Quadrant of a slot (R16, R17). -/
def quadrantOf (slot : Nat) : Nat := slot % 64 / 16

/-- The banks of an evicted unit stay in its core's register file; a warp that has ended holds none (R142). -/
def KUnit.markAll (un : KUnit) (u : Nat) (l : Launch) : List Mark :=
  (List.range l.banks).filterMap fun b => (Map.look un.warps (b / l.warpBanks)).bind fun w =>
    if w.ended then none else some ⟨u, b, quadrantOf w.slot⟩

/-- A unit's own registers of a bank, as an image holds them. -/
def KUnit.bankImage (un : KUnit) (l : Launch) (b : Nat) : List Byte :=
  ((Map.look un.warps (b / l.warpBanks)).map fun w => w.bankImage (b % l.warpBanks)).getD (List.replicate 2064 0#8)

/-- Spill a marked bank to its unit's image: its registers and tags, and its bit of BANKMAP. -/
def State.spill (s : State) (core : Nat) (m : Mark) : State :=
  let s := s.editCore core fun k => { k with marks := k.marks.erase m }
  match Map.look s.evicted m.unit with
  | none => s
  | some un =>
    match Map.look s.launches un.launch with
    | none => s
    | some l =>
      let s := s.imageWrite l un (l.imgRegs + 2064 * m.bank) (un.bankImage l m.bank)
      let at0 := imgBankmap + m.bank / 8
      let old := leNat (s.imageRead l un at0 [0#8])
      s.imageWrite l un at0 (leBytes 1 (old ||| 2 ^ (m.bank % 8)))

/-- Spill every marked bank of a core that a test picks out. -/
def State.spillAll (s : State) (core : Nat) (p : Mark → Bool) : State := ((s.core core).marks.filter p).foldl (fun s m => s.spill core m) s

/-- Register banks that the live warps of a core hold in a quadrant. -/
def State.banksUsed (s : State) (core quad : Nat) : Nat :=
  (s.units.map fun p =>
    if p.2.core = core then
      (((Map.vals p.2.warps).filter fun w => quadrantOf w.slot = quad && !w.ended).map fun w => w.extent / 16).sum
    else 0).sum

/-- Units that have come to a core claim banks: unmarked ones first, then the marked ones, in the order they were marked (log entry 37). -/
def State.claimBanks (s : State) (core : Nat) : State :=
  (List.range 4).foldl (fun s q =>
    let marked := (s.core core).marks.filter fun m => m.quad = q
    (marked.take (s.banksUsed core q + marked.length - 128)).foldl (fun s m => s.spill core m) s) s

/-! ### Restoring a unit (R340) -/

/-- A number in a list of bytes. -/
def numAt (b : List Byte) (off n : Nat) : Nat := leNat ((b.drop off).take n)

/-- STATE of an entry (Table 8.1). -/
def FStatus.ofBits : Nat → Option FStatus
  | 1 => some .runnable
  | 2 => some .parkedWait
  | 3 => some .parkedBarrier
  | 4 => some .parkedFault
  | 5 => some .dead
  | _ => none

/-- A new fragment of a warp (R263). -/
def Frag.fresh (entry : Nat) : Frag :=
  { mask := allThreads, pc := entry, rpc := noRpc, actm := 0, fmt := 0, sfmt := 0, win := 0, swin := 0, prec := 31, status := .runnable
    wake := .none, hold := false, frec := none, clause := none, done := 0, lane := false }

/-- A fragment from its entry (Table 8.1). What the entry does not hold, the operands of its wait and of its clause among them, is as it was
saved, unless the pool has been changed so that it no longer fits: then the word at PC is tried again (log entry 62). -/
def Frag.ofImage (old : Option Frag) (n : Nat) (clause : Nat → Nat → Option Clause → Option Clause) : Option Frag :=
  (FStatus.ofBits (field n 52 50)).map fun st =>
    let o := old.getD (Frag.fresh 0)
    let waits := st = .parkedWait || st = .parkedBarrier
    { mask := BitVec.ofNat 32 (field n 255 224), pc := field n 223 192, rpc := BitVec.ofNat 32 (field n 159 128)
      actm := BitVec.ofNat 32 (field n 127 96), fmt := BitVec.ofNat 14 (field n 95 82), sfmt := BitVec.ofNat 14 (field n 81 68)
      win := BitVec.ofNat 5 (field n 67 63), swin := BitVec.ofNat 5 (field n 62 58), prec := BitVec.ofNat 5 (field n 57 53), status := st
      wake := if waits then if o.status = st && o.wake.bits = field n 49 46 then o.wake else .park else .none
      hold := field n 44 44 = 1, frec := if field n 45 45 = 1 then o.frec else none
      clause := clause (field n 191 160) (field n 223 192) o.clause, done := o.done, lane := false }

/-- The clause in progress at a header, with the place reached in it. -/
def State.clauseAt (s : State) (die : Nat) (l : Launch) (hdr pc : Nat) (old : Option Clause) : Option Clause :=
  if hdr = 0xFFFFFFFF then none
  else if (old.map (·.hdr)) = some hdr then old
  else
    match s.openClause die l hdr with
    | .clause k _ => some { k with ll := s.llWords die l hdr ((pc - hdr) / 4 - 1) 16 1 }
    | _ => none

/-- A thread's transaction from its TSTAT word: as it was saved where the word agrees; else what the word says, with nothing in its sets. -/
def Txn.ofImage (old : Txn) (v : Nat) : Txn :=
  if old.status.toNat = v then old
  else
    { Txn.idle with
      st := [.idle, .opened, .doomed].getD (field v 6 5) .idle, code := BitVec.ofNat 4 (field v 3 0), user := BitVec.ofNat 8 (field v 23 16)
      count := field v 15 8, solo := field v 7 7 = 1 }

/-- A split record from its 8 bytes. -/
def SplitRec.ofImage (n : Nat) : SplitRec :=
  ⟨BitVec.ofNat 32 (field n 31 0), BitVec.ofNat 14 (field n 45 32), BitVec.ofNat 5 (field n 50 46), BitVec.ofNat 5 (field n 55 51)⟩

/-- A warp from the image's head, its registers aside. -/
def Warp.ofImage (w : Warp) (b : List Byte) (i : Nat) (clause : Nat → Nat → Option Clause → Option Clause) : Warp :=
  let fs := (b.drop (imgFrags + 512 * i)).take 512
  let ss := (b.drop (imgSplits + 128 * i)).take 128
  let ws := (b.drop (imgWarps + 320 * i)).take 320
  { w with
    frags := (List.range 16).filterMap fun k => (Frag.ofImage (Map.look w.frags k) (numAt fs (32 * k) 32) clause).map fun x => (k, x)
    splits := (List.range 16).filterMap fun k =>
      let n := numAt ss (8 * k) 8
      if n ≠ 0 || Map.has w.splits k then some (k, SplitRec.ofImage n) else none
    preds := (List.range 7).foldl (fun m p => Map.putD m p (BitVec.ofNat 32 (numAt ws (4 * p) 4)) 0#32) []
    exited := BitVec.ofNat 32 (numAt ws 28 4), node := BitVec.ofNat 64 (numAt ws 32 8), cbank := BitVec.ofNat 2 (numAt ws 40 4)
    fflags := (List.range 32).foldl (fun m t => Map.putD m t (BitVec.ofNat 5 (numAt ws (64 + 4 * t) 4)) 0#5) []
    txn := (List.range 32).foldl (fun m t => Map.putD m t ((w.tx t).ofImage (numAt ws (192 + 4 * t) 4)) Txn.idle) [] }

/-- An unfinished matrix operation from its MXOPS entry. -/
def Op.ofImage (o : Op) (b : List Byte) : Op :=
  match o.kind with
  | .engine (.mma k _ fifo _ _ _ _) _ =>
    let kind := ([MmaKind.bf16, .f16, .f32, .k4, .i8, .xor, .and].find? fun x => x.opcode = numAt b 0 4).getD k
    let a := b.drop 64
    let copy := (threads (BitVec.ofNat 32 (numAt b 24 4))).map fun t =>
      (t, (List.range (numAt b 4 4)).map fun i => BitVec.ofNat 32 (numAt a (512 * t + 4 * i) 4))
    { o with
      kind := .engine (.mma kind (numAt b 4 4) (fifo.map fun _ => numAt b 8 4 % 4) (if fifo.isSome then numAt b 32 8 else numAt b 8 4) copy
        (numAt b 20 4 % 4) (numAt b 12 4)) (numAt b 16 4)
      mask := BitVec.ofNat 32 (numAt b 24 4), flag := if numAt b 28 4 < 12 then some (numAt b 28 4) else none }
  | _ => o

/-- The unit's operations, with the first `n` unfinished matrix operations as MXOPS has them. -/
def KUnit.opsOf (un : KUnit) (n : Nat) (mx : List Byte) : List Op :=
  ((List.range un.mxops.length).zip un.mxops).filterMap fun p =>
    if p.1 < n then some (p.2.ofImage ((mx.drop (16448 * p.1)).take 16448)) else none

/-- A unit from its image, its registers aside (Table 11.10); `b` is the part from HDR to SCRTAGS, `mx` MXOPS. What the image does not hold is as it
was saved. -/
def KUnit.ofImage (un : KUnit) (l : Launch) (b mx : List Byte) (clause : Nat → Nat → Option Clause → Option Clause) : KUnit :=
  let acc := b.drop imgAcc
  let row (i : Nat) : AccRow :=
    let r := (acc.drop (576 * i)).take 576
    { AccRow.ofImage (fun k => r.getD k 0#8) with poison := (un.row i).poison }
  let tags := ((b.drop l.imgTags).take (l.scratch / 128))
  { un with
    warps := Map.each un.warps fun i w => w.ofImage b i clause
    streams := (List.range 4).foldl (fun m f =>
      let x := un.stream? f
      let n (k : Nat) : Nat := numAt b (imgStream + 24 * f + 8 * k) 8
      Map.putD m f { x with w := n 0, l := n 1, c := n 2 } Stream.empty) []
    chains := (List.range 4).foldl (fun m k =>
      let v := numAt b (imgChains + 16 * k) 8
      Map.putD m k
        { un.chain k with
          recs := BitVec.ofNat 24 (v / 256), st := [ChainSt.idle, .running, .stopped, .faulted].getD (v % 256) .idle
          ptr := numAt b (imgChains + 16 * k + 8) 8 } Chain.idle) []
    bitmaps := (List.range 16).foldl (fun m k => Map.putD m k (BitVec.ofNat 64 (numAt b (imgBitmaps + 8 * k) 8)) 0#64) []
    cbs := (List.range 4).foldl (fun m k => Map.putD m k (BitVec.ofNat 256 (numAt b (imgCodebooks + 32 * k) 32)) 0) []
    bars := (List.range 16).foldl (fun m k =>
      let r := (b.drop (imgBartab + 272 * k)).take 272
      if numAt r 4 4 = 0 then m
      else Map.put m (numAt r 0 4) { arrived := BitVec.ofNat 1024 (numAt r 16 128), dropped := BitVec.ofNat 1024 (numAt r 144 128) }) []
    acc := (List.range l.acc).foldl (fun m i => Map.putD m i (row i) AccRow.zero) []
    scratch := ((List.range l.scratch).zip ((b.drop l.imgScratch).take l.scratch)).filter fun p => p.2 ≠ 0#8
    stags := ((List.range (l.scratch / 128)).zip tags).flatMap fun p =>
      (List.range 8).filterMap fun j => if p.2.getLsbD j then some (8 * p.1 + j) else none
    ops := un.opsOf (numAt b 28 4) mx }

/-- A register bank of a warp from an image. -/
def Warp.loadBank (w : Warp) (j : Nat) (b : List Byte) : Warp :=
  let w := (List.range 512).foldl (fun w k => w.setReg (16 * j + k / 32) (k % 32) (BitVec.ofNat 32 (numAt b (4 * k) 4))) w
  { w with qtags := (List.range 4).foldl (fun m q => Map.putD m (4 * j + q) (BitVec.ofNat 32 (numAt b (2048 + 4 * q) 4)) 0#32) w.qtags }

/-- Whether a unit's marked banks all stand on a core in the quadrants that its warps now have. -/
def State.banksHere (s : State) (u : Nat) (un : KUnit) (l : Launch) : Bool :=
  s.cores.all fun c => (s.core c.1).marks.all fun m => m.unit ≠ u || (c.1 = un.core && (un.markAll u l).contains m)

/-- Restore an evicted unit that has its new place: from its image, and its registers from the banks that stayed where it comes back to them, else
from the image (R338, R340). -/
def State.restoreUnit (s : State) (u : Nat) (un : KUnit) (l : Launch) : State × KUnit :=
  let here := s.banksHere u un l
  let s := if here then s else (Map.keys s.cores).foldl (fun s c => s.spillAll c fun m => m.unit = u) s
  let kept := if here then ((s.core un.core).marks.filter fun m => m.unit = u).map (·.bank) else []
  let b := s.imageRead l un 0 (un.imageHead l)
  let mx := s.imageRead l un l.imgMxops un.imageMx
  let back := un.ofImage l b mx (s.clauseAt (dieOf un.core) l)
  let back := (List.range l.banks).foldl (fun (v : KUnit) i =>
    if kept.contains i then v
    else
      let r := s.imageRead l un (l.imgRegs + 2064 * i) (un.bankImage l i)
      v.editWarp (i / l.warpBanks) fun w => w.loadBank (i % l.warpBanks) r) back
  (s.editCore un.core fun k => { k with marks := k.marks.filter fun m => m.unit ≠ u }, back)

end Sys2Proof.Machine
end

