-- ==== Sys2Proof/Machine/Sched.lean ====
section
/-! DEFINITION. The queue scheduler (11 R315 to R342): doorbells, mapping, packets, admission, pre-emption, ends of units. -/
namespace Sys2Proof.Machine

/-- Units of %time in a microsecond (Table 1.14). -/
def usec : Nat := 65536000

/-- Whether `n` microseconds have passed since a time. -/
def State.passedUs (s : State) (since : Word64) (n : Nat) : Bool := decide (n * usec ≤ (s.time - since).toNat)

/-- Whether more than `n` microseconds have passed since a time. -/
def State.longerUs (s : State) (since : Word64) (n : Nat) : Bool := decide (n * usec < (s.time - since).toNat)

/-! ### Doorbells (R315, R329, R331) -/

/-- A host write of TAIL (event DOORBELL_TAIL). DEDUCED (log entry 35): bits [LOG2N:0] are read, so that a TAIL a whole ring or more beyond HEAD
places too many packets; the queue's TAIL is its value modulo the ring size. DESIGN CHOICE (log entry 35): a write that finds the descriptor invalid
sets ERR and is dropped. -/
def execDoorbellTail (q : Nat) (tail : Word) : Meaning := fun s =>
  .next <|
    if !(s.qsOn q) then s
    else
      match s.qdesc q with
      | none => s.editQueue q fun x => { x with err := true }
      | some d =>
        let t := tail.toNat % 2 ^ (d.log2n + 1)
        if !d.hostw then s
        else if (s.queue q).head + 2 ^ d.log2n ≤ t then s.editQueue q fun x => { x with err := true }
        else s.ring q d (t % 2 ^ d.log2n)

/-- Mark a packet in the ring withdrawn (R331). -/
def State.markWithdrawn (s : State) (d : QDesc) (i : Nat) (p : Pkt) : State :=
  s.agentWrite (d.at i) (leBytes 4 (p.ctl / 256 * 256 + p.ctl / 16 % 8 * 16 + 128 + 3))

/-- Withdraw the packet at a ring index when it carries the tag (R331). -/
def State.withdrawAt (s : State) (q : Nat) (d : QDesc) (tag : Word) (i : Nat) : State :=
  let s := s.agentRead (d.at i) 128
  match s.fetch (d.at i) 128 with
  | none => s
  | some b =>
    let p := Pkt.of b
    if p.tag ≠ tag.toNat || p.withdrawn then s
    else
      let taken := if i = (s.queue q).head then s.takenOf q else none
      let s := s.markWithdrawn d i p
      match taken with
      | some l =>
        match Map.look s.launches l with
        | some x =>
          let s : State := { s with launches := Map.del s.launches l }
          let s := match s.slotOf q with
            | some (n, _) => s.editSlot (queueDie q) n fun v => { v with taken := none }
            | none => s
          s.closeRec x.ctx x.lrec 3
        | none => s
      | none =>
        if p.type = 1 && s.pktOk d.ctx p then
          let r := s.registerChain d.ctx (BitVec.ofNat 32 p.tag) none p.chain
          (r.1.launchRecord d p r.2.1).closeRec d.ctx p.lrec 3
        else s

/-- WITHDRAW with CANCEL 0 (event DOORBELL_WITHDRAW; R331). -/
def State.withdraw (s : State) (q : Nat) (tag : Word) : State :=
  match s.qdesc q with
  | none => s
  | some d =>
    let x := s.queue q
    ((List.range (x.count d.log2n)).map fun j => (x.head + j) % 2 ^ d.log2n).foldl (fun s i => s.withdrawAt q d tag i) s

def execDoorbellWithdraw (q : Nat) (tag : Word) : Meaning := fun s =>
  .next (if s.qsOn q then wholeImaged (fun s => s.withdraw q tag) s else s)

/-- WITHDRAW with CANCEL 1: the job of every admitted launch with the tag is cancelled too (R331). -/
def execDoorbellWithdrawCancel (q : Nat) (tag : Word) : Meaning := fun s =>
  .next <| s |> wholeImaged fun s =>
    if !(s.qsOn q) then s
    else
      let s := s.withdraw q tag
      let jobs := (Map.vals s.launches).filterMap fun l =>
        if l.queue = q && l.tag = tag && l.st ≠ .taken then l.chain.head?.map fun j => (l.ctx, j) else none
      jobs.foldl (fun s j => (s.cancelRec j.1 j.2).1) s

/-- A host cancel (event DOORBELL_CANCEL; R329); one that names no record of the queue's context is ignored. -/
def execDoorbellCancel (q : Nat) (va : Word64) : Meaning := fun s =>
  .next <| s |> wholeImaged fun s =>
    if !(s.qsOn q) then s
    else
      match s.qdesc q with
      | none => s
      | some d => (s.cancelRec d.ctx va.toNat).1

/-! ### Slots (R316, R317, R341) -/

/-- The queue has work for a slot. -/
def State.hasWork (s : State) (q : Nat) : Bool := (s.queue q).head ≠ (s.queue q).tail || (s.takenOf q).isSome

/-- Contexts resident on a die (R341). -/
def State.resident (s : State) (die : Nat) : List Nat :=
  let a := (Map.vals (s.die die).slots).filterMap fun v => (s.qdesc v.queue).map (·.ctx)
  let b := s.units.filterMap fun p => if dieOf p.2.core = die then some (s.ctxOf p.1) else none
  (a ++ b).foldl (fun l x => if l.contains x then l else x :: l) []

/-- The context of a marked bank. -/
def State.markCtx (s : State) (m : Mark) : Nat :=
  (((Map.look s.evicted m.unit).bind fun un => Map.look s.launches un.launch).map (·.ctx)).getD 0

/-- Contexts that only marked banks keep resident on a die (R341). -/
def State.marked (s : State) (die : Nat) : List Nat :=
  let live := s.resident die
  (s.cores.flatMap fun p => if dieOf p.1 = die then p.2.marks.map s.markCtx else []).foldl
    (fun l x => if live.contains x || l.contains x then l else l ++ [x]) []

/-- A context may become resident on a die: marked banks give way (R341). -/
def State.ctxFits (s : State) (die ctx : Nat) : Bool := (s.resident die).contains ctx || decide ((s.resident die).length < 32)

/-- A context becomes resident on a die: where 32 are, one that only marked banks keep there loses them. -/
def State.enterCtx (s : State) (die ctx : Nat) : State :=
  let old := s.marked die
  if (s.resident die).contains ctx || old.contains ctx || decide ((s.resident die).length + old.length < 32) then s
  else
    match old with
    | [] => s
    | x :: _ => (Map.keys s.cores).foldl (fun s c => if dieOf c = die then s.spillAll c fun m => s.markCtx m = x else s) s

/-- A queue that waits for a slot of its die (R316). -/
def State.waitsSlot (s : State) (q : Nat) : Option QDesc :=
  if s.qsOn q && s.hasWork q && (s.slotOf q).isNone then s.qdesc q else none

/-- Queue p comes before queue q in the order of mapping. -/
def State.mapsBefore (s : State) (p q : Nat) : Bool :=
  match s.waitsSlot p, s.waitsSlot q with
  | some a, some b => decide (b.prio < a.prio) || (a.prio = b.prio && decide ((s.queue p).bell < (s.queue q).bell))
  | _, _ => false

/-- Admission is stopped while the partition is quiesced, but for trap handlers (R368). -/
def State.admits (s : State) : Bool := !s.dev.quiesced

/-- A queue is mapped onto a free slot (event QUEUE_MAP). -/
def execQueueMap (q : Nat) : Meaning := fun s =>
  .next <| s |> whole fun s =>
    let s := if s.qsOn q then s.agentRead (s.descAt q) 64 else s
    if s.qsOn q && s.hasWork q && (s.slotOf q).isNone && (s.qdesc q).isNone then s.editQueue q fun x => { x with err := true }
    else
      match s.waitsSlot q, leastBelow 64 fun i => !(Map.has (s.die (queueDie q)).slots i) with
      | some d, some n =>
        let rival (p : Nat × Queue) : Bool :=
          queueDie p.1 = queueDie q && s.mapsBefore p.1 q && ((s.qdesc p.1).map fun d => s.ctxFits (queueDie q) d.ctx).getD false
        if s.queues.any rival || !(s.ctxFits (queueDie q) d.ctx) then s
        else
          (s.enterCtx (queueDie q) d.ctx).editDie (queueDie q) fun v =>
            { v with slots := Map.put v.slots n { queue := q, since := s.time, taken := s.takenOf q } }
      | _, _ => s

/-- A slot's SLICE is over and another queue waits: the queue loses its slot (event SLICE_EXPIRY; R316). -/
def execSliceExpiry (die slot : Nat) : Meaning := fun s =>
  .next <|
    match Map.look (s.die die).slots slot with
    | none => s
    | some v =>
      match s.qdesc v.queue with
      | none => s.unmap v.queue
      | some d =>
        let full := (s.die die).slots.length = 64
        let rival := s.queues.any fun p => queueDie p.1 = die && match s.waitsSlot p.1 with
          | some x => decide (d.prio ≤ x.prio)
          | none => false
        if s.passedUs v.since d.slice && full && rival then s.unmap v.queue else s

/-- The packet at HEAD is the one that started a trap handler launch (R420, R421). -/
def State.handlerAt (s : State) (q : Nat) (d : QDesc) : Bool :=
  match Map.look s.handlers d.ctx with
  | some h => h.queue = q && h.idx = some (s.queue q).head
  | none => false

/-- The handler's packet has left the ring. -/
def State.handlerTaken (s : State) (ctx : Nat) : State :=
  { s with handlers := Map.edit s.handlers ctx fun h => { h with idx := none } }

/-- A slot takes the packet at HEAD, checks and registers it (event PACKET_TAKE; R317, R318, R320, R324). -/
def execPacketTake (die slot : Nat) : Meaning := fun s =>
  .next <| s |> wholeImaged fun s =>
    match Map.look (s.die die).slots slot with
    | none => s
    | some v =>
      let q := v.queue
      match s.qdesc q with
      | none => s
      | some d =>
        if v.taken.isSome || (s.queue q).head = (s.queue q).tail || !(s.qsOn q) then s
        else
          let handler := s.handlerAt q d
          let s := if handler then s.handlerTaken d.ctx else s
          let s := s.agentRead (d.at (s.queue q).head) 128
          match s.fetch (d.at (s.queue q).head) 128 with
          | none =>
            let s := s.editQueue q fun x => { x with malf := min (x.malf + 1) 65535 }
            (if handler then s.handlerEnded d.ctx 5 else s).pass q
          | some b =>
            let p := Pkt.of b
            if p.withdrawn then s.pass q
            else if !(s.pktOk d.ctx p) then (if handler then (s.malformed q d.ctx p).handlerEnded d.ctx 5 else s.malformed q d.ctx p).pass q
            else
              match p.type with
              | 1 =>
                match s.registerLaunch q d p handler with
                | (s, none) => s.pass q
                | (s, some l) => s.editSlot die slot fun v => { v with taken := some l }
              | 2 => (s.closeLevel d.ctx p.lrec).pass q
              | _ => s.pass q

/-! ### Admission (R320, R332 to R335, R340) -/

/-- What a unit takes on its core. -/
structure Share where
  core : Nat
  slots : List Nat
  regs : Nat
  acc : Nat
  scratch : Nat
  stream : Bool
  frags : Nat
  deriving DecidableEq, Repr

/-- Fragment entries that a unit holds. -/
def KUnit.entries (un : KUnit) : Nat := ((Map.vals un.warps).map fun w => w.frags.length).sum

/-- What a unit of a launch takes on a core. -/
def Launch.share (l : Launch) (core : Nat) (slots : List Nat) (frags : Nat) : Share :=
  { core := core, slots := slots, regs := l.regs, acc := l.acc, scratch := l.scratch, stream := l.stream, frags := frags }

/-- Of slots that stand for a unit's warps, in their order, those of warps that have not ended: an ended warp holds no slot and no banks (R142). -/
def KUnit.liveSlots (un : KUnit) (slots : List Nat) : List Nat :=
  ((Map.vals un.warps).zip slots).filterMap fun p => if p.1.ended then none else some p.2

/-- What a resident unit holds. -/
def State.shareOf (s : State) (un : KUnit) : Option Share :=
  (Map.look s.launches un.launch).map fun l => l.share un.core (un.liveSlots ((Map.vals un.warps).map (·.slot))) un.entries

/-- No number occurs twice. -/
def distinct : List Nat → Bool
  | [] => true
  | x :: t => !(t.contains x) && distinct t

/-- Banks that shares take in a quadrant. -/
def quadBanks (l : List Share) (k : Nat) : Nat := (l.map fun n => (n.slots.filter fun x => quadrantOf x = k).length * (n.regs / 16)).sum

/-- A core holds what is asked of it (R26, R332). -/
def coreHolds (l : List Share) : Bool :=
  let slots := l.flatMap (·.slots)
  distinct slots && slots.all (fun x => decide (x < 128)) && (List.range 4).all (fun k => decide (quadBanks l k ≤ 128)) &&
    decide ((l.map (·.acc)).sum ≤ 1536) && decide ((l.map (·.scratch)).sum ≤ 524288) && decide ((l.filter (·.stream)).length ≤ 1)
    && decide ((l.map (·.frags)).sum ≤ 1024)

/-- What is free on a core beside some shares. -/
def roomBeside (l : List Share) : Room :=
  let slots := l.flatMap (·.slots)
  { quads := (List.range 4).map fun k => (32 - (slots.filter fun x => quadrantOf x = k).length, 128 - quadBanks l k)
    acc := 1536 - (l.map (·.acc)).sum, scratch := 524288 - (l.map (·.scratch)).sum, stream := !(l.any (·.stream))
    frags := 1024 - (l.map (·.frags)).sum }

/-- What is free on a core, were some launches gone. -/
def State.roomOf (s : State) (core : Nat) (gone : List Nat) : Room :=
  roomBeside ((Map.vals s.units).filterMap fun un => if un.core = core && !(gone.contains un.launch) then s.shareOf un else none)

/-- Mesh coordinates of a core (R3). -/
def meshX (core : Nat) : Nat := core % 96 % 12
/-- North to south. -/
def meshY (core : Nat) : Nat := core % 96 / 12

/-- The spread of a list of numbers is below a bound. -/
def within (l : List Nat) (n : Nat) : Bool := l.all fun a => l.all fun b => decide (a < b + n)

/-- The cores of a cluster are on one die, within a 4 × 2 or a 2 × 4 rectangle (R332). -/
def clusterFits (cores : List Nat) : Bool :=
  cores.all (fun a => cores.all fun b => dieOf a = dieOf b) &&
    ((within (cores.map meshX) 4 && within (cores.map meshY) 2) || (within (cores.map meshX) 2 && within (cores.map meshY) 4))

/-- The units of each cluster of a launch, by position in the list of cores. -/
def clustersOf (n : Nat) (cores : List (Nat × Nat)) : Bool :=
  (Map.keys cores).all fun i => clusterFits ((cores.filter fun p => p.1 / max n 1 = i / max n 1).map (·.2))

/-- The waits of R320 hold, and the start time is near (R335). -/
def State.waitsHold (s : State) (l : Launch) : Bool :=
  let ready (a : Nat) : Bool := a = 0 || ((s.record l.ctx a).map (·.done)).getD false
  !(l.waitPrev && (Map.vals s.launches).any fun m => m.queue = l.queue && decide (m.order < l.order)) && ready l.wait0 && ready l.wait1
    && (l.start = 0 || decide (l.start.toNat ≤ s.time.toNat + (s.die (queueDie l.queue)).lead * usec))

/-- A launch is a candidate (R334): evicted, or at the head of a slot with its waits done. -/
def State.isCandidate (s : State) (n : Nat) (l : Launch) : Bool :=
  match l.st with
  | .evicted => true
  | .taken => ((s.slotOf l.queue).map fun v => decide (v.2.taken = some n)).getD false && s.waitsHold l
  | _ => false

/-- The time that orders candidates of one priority. -/
def Launch.since (l : Launch) : Nat :=
  match l.st with
  | .evicted => l.admitTime.toNat
  | _ => l.regTime.toNat

/-- Candidate a comes before candidate b (R334): evicted gangs, then descending PRIO, then time. -/
def Launch.before (a b : Launch) : Bool :=
  let ea := decide (a.st = .evicted)
  let eb := decide (b.st = .evicted)
  (ea && !eb) || (ea = eb && (decide (b.prio < a.prio) || (a.prio = b.prio && decide (a.since < b.since))))

/-- A blocking candidate holds back every other one of equal or lower priority, but a blocking one of its own priority that comes before it (R334,
log entry 36); of two that came at one time the one registered first. -/
def State.heldBack (s : State) (n : Nat) (l : Launch) : Bool :=
  s.launches.any fun p =>
    p.1 ≠ n && p.2.blocking && s.isCandidate p.1 p.2 && decide (l.prio ≤ p.2.prio) &&
      !(l.blocking && l.prio = p.2.prio && (l.before p.2 || (!(p.2.before l) && decide (n < p.1))))

/-- The images of a queue's units: address and size. -/
def State.images (s : State) (q : Nat) : List (Nat × Nat) :=
  (s.units ++ s.evicted).filterMap fun p =>
    (Map.look s.launches p.2.launch).bind fun l =>
      if l.queue = q then some (p.2.image, imageSize l.acc l.scratch l.regs l.warps) else none

/-- A place for an image of a size in a save pool: the implementation's choice where it is free, else the lowest (R339). -/
def imagePlace (d : QDesc) (used : List (Nat × Nat)) (size pick : Nat) : Option Nat :=
  let free (a : Nat) : Bool := decide (a + size ≤ d.save + d.savelen) && !(used.any (meets (a, size)))
  let choice := d.save + 4096 * (pick % max (d.savelen / 4096) 1)
  if free choice then some choice else (d.save :: used.map fun r => r.1 + r.2).find? free

/-- Places for the images of n units. -/
def imagePlaces (d : QDesc) (size ix : Nat) : Nat → List (Nat × Nat) → Option (List Nat)
  | 0, _ => some []
  | n + 1, used =>
    match imagePlace d used size (Config.freeNat (ix + n)) with
    | none => none
    | some a => (imagePlaces d size ix n ((a, size) :: used)).map (a :: ·)

/-- A new warp with its arguments (R7, R321, R322). -/
def Warp.fresh (l : Launch) (slot index : Nat) : Warp :=
  let w : Warp :=
    { slot := slot, extent := l.regs, regs := [], rtags := [], qtags := [], preds := [], cbank := 0, node := 0, fflags := [], txn := []
      exited := 0, killed := 0, frags := [(0, Frag.fresh l.entry)], splits := [], lastFidx := 15, lastYield := false, lates := [], pruned := false }
  let w := (List.range l.args.length).foldl (fun w k =>
    (threads allThreads).foldl (fun w t => w.setQuad .uniform (4 * k) t (l.args.getD k 0) true) w) w
  if l.uidx then
    (threads allThreads).foldl (fun w t =>
      (w.setReg (4 * l.args.length) t (BitVec.ofNat 32 index)).setReg (4 * l.args.length + 1) t (BitVec.ofNat 32 l.units)) w
  else w

/-- A new unit (R7). -/
def KUnit.fresh (n : Nat) (l : Launch) (index : Nat) (p : Placement) (mates : Map Nat) (image : Nat) (hold : Bool) : KUnit :=
  let c := max l.cluster 1
  { launch := n, index := index, core := p.core, warps := (List.range l.warps).map fun w => (w, Warp.fresh l (p.slots.getD w 0) index)
    scratch := [], stags := [], spoison := [], frozen := false, acc := [], cbs := [], bitmaps := [], streams := [], chains := [], bars := []
    ops := [], nextOp := 0, jobs := [], rank := index % c, sizeM1 := min c (l.units - index / c * c) - 1, mates := mates, rankEnded := []
    startHold := hold, parkReq := false, endFault := false, endCancel := false, cut := false, lost := false, drops := [], image := image }

/-- Give a resumed unit its new place (R340). -/
def KUnit.rehome (un : KUnit) (p : Placement) : KUnit :=
  { un with
    core := p.core, parkReq := false
    warps := (List.range un.warps.length).filterMap fun i =>
      un.warps[i]?.map fun x => (x.1, { x.2 with slot := p.slots.getD i x.2.slot }) }

/-- The times of a launch's first admission in its record and those above it (Table 11.6). -/
def State.stamp (s : State) (l : Launch) : State :=
  (l.lrec :: l.chain).foldl (fun s a => s.editRec l.ctx a fun r => if r.tstart = 0 then { r with tstart := s.time } else r) s

/-- Whether a placement fits beside what is resident. -/
def State.fits (s : State) (ctx : Nat) (shares : List Share) : Bool :=
  let old := (Map.vals s.units).filterMap s.shareOf
  shares.all fun n =>
    decide (n.core < 192) && !(NSet.has s.dev.retCores n.core) && s.ctxFits (dieOf n.core) ctx
      && coreHolds ((old ++ shares).filter fun x => x.core = n.core)

/-- The evicted units of a launch. -/
def State.saved (s : State) (n : Nat) : List (Nat × KUnit) := s.evicted.filter fun p => p.2.launch = n

/-- Warps of a unit that have not ended. -/
def KUnit.liveWarps (un : KUnit) : Nat := ((Map.vals un.warps).filter fun w => !w.ended).length

/-- What the units of a candidate take; of an evicted gang's units, each as many slots, banks and fragment entries as the largest (log entry
36). -/
def State.demandOf (s : State) (n : Nat) (l : Launch) : Demand :=
  { regs := l.regs, acc := l.acc, scratch := l.scratch, stream := l.stream, cluster := l.cluster
    warps := match l.st with
      | .evicted => (s.saved n).foldl (fun m p => max m p.2.liveWarps) 1
      | _ => l.warps
    frags := match l.st with
      | .evicted => (s.saved n).foldl (fun m p => max m p.2.entries) 0
      | _ => l.warps }

/-- The units of a candidate that each core can take, were some launches gone. -/
def State.capacity (s : State) (n : Nat) (l : Launch) (gone : List Nat) : Map Nat :=
  let d := s.demandOf n l
  let dies := (List.range 2).filter fun x => s.ctxFits x l.ctx
  (s.activeCores.filter fun c => dies.contains (dieOf c)).map fun c => (c, d.units (s.roomOf c gone))

/-- The units that a candidate still has to place: of an evicted gang, those that were saved. -/
def State.toPlace (s : State) (n : Nat) (l : Launch) : Nat :=
  match l.st with
  | .evicted => (s.saved n).length
  | _ => l.units

/-- A candidate can be placed, were some launches gone (R332). -/
def State.placeable (s : State) (n : Nat) (l : Launch) (gone : List Nat) : Bool :=
  (s.demandOf n l).fits (s.toPlace n l) (s.capacity n l gone) &&
    match l.st with
    | .evicted => true
    | _ => match s.qdesc l.queue with
      | some d => (imagePlaces d (imageSize l.acc l.scratch l.regs l.warps) s.freeIx l.units (s.images l.queue)).isSome
      | none => false

/-- Admission is stopped while the partition is quiesced, but for trap handlers (R368). -/
def State.admitsLaunch (s : State) (l : Launch) : Bool := s.admits || l.handler

/-- A candidate that the scheduler considers earlier and that fits comes first (R334). -/
def State.outranked (s : State) (n : Nat) (l : Launch) : Bool :=
  s.launches.any fun p =>
    p.1 ≠ n && s.isCandidate p.1 p.2 && p.2.before l && s.admitsLaunch p.2 && !(s.heldBack p.1 p.2) && s.placeable p.1 p.2 []

/-- The contexts of units to be placed become resident on their dies (R341). -/
def State.enterAll (s : State) (ctx : Nat) (cores : List Nat) : State := cores.foldl (fun s c => s.enterCtx (dieOf c) ctx) s

/-- Units have come to cores: the banks they need are claimed, and what their launch happens after is seen there (R292, R338). -/
def State.arrive (s : State) (cores : List Nat) : State :=
  (cores.foldl (fun l c => if l.contains c then l else l ++ [c]) []).foldl (fun s c => (s.claimBanks c).selfInvalidate c true) s

/-- Admit a taken launch: its units are placed and start (R332, R335). -/
def State.admitNew (s : State) (n : Nat) (l : Launch) (d : QDesc) (place : List Placement) : State :=
  let shares := place.map fun p => l.share p.core p.slots l.warps
  let cores := (List.range place.length).map fun i => (i, (place.getD i ⟨0, []⟩).core)
  match imagePlaces d (imageSize l.acc l.scratch l.regs l.warps) s.freeIx l.units (s.images l.queue) with
  | none => s
  | some imgs =>
    if place.length ≠ l.units || place.any (fun p => p.slots.length ≠ l.warps) || !(s.fits l.ctx shares) || !(clustersOf l.cluster cores) then s
    else
      let s := s.enterAll l.ctx (place.map (·.core))
      let c := max l.cluster 1
      let base := s.nextUnit
      let hold := l.start ≠ 0 && decide (s.time.toNat < l.start.toNat)
      let units : List (Nat × KUnit) := (List.range l.units).map fun i =>
        let first := i / c * c
        let mates := (List.range (min c (l.units - first))).map fun r => (r, base + first + r)
        (base + i, KUnit.fresh n l i (place.getD i ⟨0, []⟩) mates (imgs.getD i 0) hold)
      let s := { s with
        freeIx := s.freeIx + l.units, units := units.foldl (fun (m : Map KUnit) (p : Nat × KUnit) => Map.put m p.1 p.2) s.units, nextUnit := base + l.units
        launches := Map.put s.launches n { l with st := .resident, admitted := true, admitTime := s.time, blocking := false } }
      ((s.arrive (place.map (·.core))).stamp l).pass l.queue

/-- Kill the warps of a unit tagged with nodes whose kill is on its way to the core the unit was evicted from (R340). -/
def State.killPruned (s : State) (u core : Nat) : State :=
  (s.kills.filter fun k => NSet.has k.cores core).foldl (fun s k => s.killTagged u k.sq k.slots) s

/-- Resume one unit of an evicted gang on its new place (R340): its matrix operations are queued again in their order. -/
def State.resumeUnit (s : State) (l : Launch) (u : Nat) (un : KUnit) (p : Placement) : State :=
  let r := s.restoreUnit u (un.rehome p) l
  let back := r.2
  let s := ({ r.1 with units := Map.put r.1.units u back, evicted := Map.del r.1.evicted u } : State).editCore back.core fun k =>
    { k with eng := k.eng ++ back.mxops.map fun o => (u, o.id) }
  s.killPruned u un.core

/-- Resume an evicted gang on new places (R340). -/
def State.admitAgain (s : State) (n : Nat) (l : Launch) (place : List Placement) : State :=
  let us := s.saved n
  let pairs := us.zip place
  let shares := pairs.map fun x => l.share x.2.core (x.1.2.liveSlots x.2.slots) x.1.2.entries
  let cores := pairs.map fun x => (x.1.2.index, x.2.core)
  if place.length ≠ us.length || pairs.any (fun x => x.2.slots.length ≠ x.1.2.warps.length) || !(s.fits l.ctx shares)
      || !(clustersOf l.cluster cores) then s
  else
    let s := pairs.foldl (fun s x => s.resumeUnit l x.1.1 x.1.2 x.2) (s.enterAll l.ctx (place.map (·.core)))
    let s := { s with launches := Map.put s.launches n { l with st := .resident, blocking := false } }
    s.arrive (place.map (·.core))

/-- A gang is placed whole (event GANG_ADMISSION). -/
def execGangAdmission (n : Nat) (place : List Placement) : Meaning := fun s =>
  .next <| s |> whole fun s =>
    match Map.look s.launches n with
    | none => s
    | some l =>
      if !(s.admitsLaunch l) || !(s.isCandidate n l) || s.heldBack n l || s.outranked n l then s
      else
        match l.st with
        | .evicted => s.admitAgain n l place
        | _ =>
          match s.qdesc l.queue with
          | some d => s.admitNew n l d place
          | none => s

/-- A start hold ends (event START_HOLD_RELEASE; R335). -/
def execStartHoldRelease (u : Nat) : Meaning := fun s =>
  .next <|
    match s.unit? u, s.launchOf u with
    | some un, some l =>
      if un.startHold && decide (l.start.toNat ≤ s.time.toNat) && !un.parkReq then s.editUnit u fun un => { un with startHold := false } else s
    | _, _ => s

/-! ### Pre-emption (R334, R337 to R340) -/

/-- A park request to every core of a gang; the PARKLIM timer starts (Table 11.9, step 1). -/
def State.parkGang (s : State) (n : Nat) : State :=
  { s with
    launches := Map.edit s.launches n fun l => { l with st := .parking, parkTime := s.time }
    units := Map.each s.units fun _ un => if un.launch = n then { un with parkReq := true } else un }

/-- The youngest of some gangs: the one admitted last. -/
def youngest (l : List (Nat × Launch)) : Option Nat :=
  (l.foldl (fun (m : Option (Nat × Launch)) p =>
    match m with
    | some x => if x.2.admitTime.toNat ≤ p.2.admitTime.toNat then some p else m
    | none => some p) none).map (·.1)

/-- The gangs that are being pre-empted. -/
def State.parkingGangs (s : State) : List Nat := (s.launches.filter fun p => p.2.st = .parking || p.2.st = .draining).map (·.1)

/-- The gang to pre-empt next for a candidate (R334): the youngest of lower priority whose end would let some core take more of its units, unless
the cores have room for it once the gangs being pre-empted are gone. -/
def State.victim (s : State) (n : Nat) (l : Launch) : Option Nat :=
  let gone := s.parkingGangs
  if (s.demandOf n l).fits (s.toPlace n l) (s.capacity n l gone) then none
  else
    let now := s.capacity n l gone
    youngest (s.launches.filter fun p => p.2.st = .resident && decide (p.2.prio < l.prio) && decide (s.capacity n l (p.1 :: gone) ≠ now))

/-- A candidate that has waited longer than SLICE without fitting becomes blocking, and a gang of lower priority whose resources it needs is asked to
park (event CANDIDATE_BLOCKING; R334). DESIGN CHOICE (log entry 36): a launch's waiting time counts from its registration, the time included in which
its own waits of R320 did not hold; an evicted gang's counts from its eviction. -/
def execCandidateBlocking (n : Nat) : Meaning := fun s =>
  .next <|
    match Map.look s.launches n with
    | none => s
    | some l =>
      match s.qdesc l.queue with
      | none => s
      | some d =>
        let since := match l.st with
          | .evicted => l.parkTime
          | _ => l.regTime
        if !(s.admitsLaunch l) || !(s.isCandidate n l) || !(s.longerUs since d.slice) || s.placeable n l [] then s
        else
          let t := { s with launches := Map.put s.launches n { l with blocking := true } }
          match s.victim n l with
          | some m => t.parkGang m
          | none => t

/-- A fragment is parked for pre-emption (R337). -/
def Frag.parked (x : Frag) : Bool :=
  match x.status with
  | .parkedFault => true
  | .dead => true
  | .runnable => x.hold
  | _ => x.hold || x.wake.blocking

/-- Every warp of a unit is parked. -/
def KUnit.parked (un : KUnit) : Bool := un.startHold || (Map.vals un.warps).all fun w => (Map.vals w.frags).all Frag.parked

/-- The units of a launch. -/
def State.unitsOf (s : State) (n : Nat) : List (Nat × KUnit) := s.units.filter fun p => p.2.launch = n

/-- Doom every Open transaction of a warp with EVICT (R190). -/
def Warp.evictTx (w : Warp) : Warp := { w with txn := Map.each w.txn fun _ x => x.doom 8#4 }

/-- Every warp of the gang is parked (event GANG_PARKED; Table 11.9, step 3): its transactions are doomed; its chains are asked to stop and
its matrix operations stop, since the launch is draining. -/
def execGangParked (n : Nat) : Meaning := fun s =>
  .next <|
    match Map.look s.launches n with
    | none => s
    | some l =>
      if l.st = .parking && (s.unitsOf n).all fun p => p.2.parked then
        { s with
          launches := Map.put s.launches n { l with st := .draining }
          units := Map.each s.units fun _ un =>
            if un.launch = n then { un with warps := Map.each un.warps fun _ w => w.evictTx } else un }
      else s

/-- Nothing but matrix operations is in flight for a unit (Table 11.9, step 4). -/
def KUnit.drained (un : KUnit) : Bool :=
  un.ops.all Op.isMma && un.jobs = [] && (Map.vals un.chains).all fun c => c.st ≠ .running

/-- A thread that the eviction doomed loses its transaction: its exceptions are restored (R94), STATE becomes 0 and CODE stays EVICT (R339). -/
def State.endEvicted (s : State) (u w t : Nat) : State :=
  match s.warp? u w with
  | none => s
  | some wp =>
    let x := wp.tx t
    if x.st = .doomed && x.code = 8#4 then s.discardTx u w t else s

/-- The transactions of a unit end with its eviction (R190). -/
def State.endTxs (s : State) (u : Nat) : State :=
  match s.unit? u with
  | none => s
  | some un => (Map.keys un.warps).foldl (fun s w => (threads allThreads).foldl (fun s t => s.endEvicted u w t) s) s

/-- Evict one unit: its image is written, its banks are marked, and the rest of what it held on its core is released (R338, Table 11.9, steps 5
and 6). -/
def State.evictUnit (s : State) (l : Launch) (u : Nat) : State :=
  let s := s.endTxs u
  match s.unit? u with
  | none => s
  | some un =>
    let s := s.writeImage un l
    ({ s with units := Map.del s.units u, evicted := Map.put s.evicted u un } : State).editCore un.core fun k =>
      { k with eng := k.eng.filter fun p => p.1 ≠ u, marks := k.marks ++ un.markAll u l }

/-- A launch that waits, or an evicted gang, no longer fits the cores that are left (R431). -/
def State.tooLarge (s : State) (l : Launch) : Bool :=
  (l.st = .taken || l.st = .evicted) &&
    !(s.couldFit { regs := l.regs, acc := l.acc, scratch := l.scratch, stream := l.stream, warps := l.warps, frags := l.warps, cluster := l.cluster }
      l.units)

/-- It ends with RESULT *too large*. -/
def State.endTooLarge (s : State) (n : Nat) (l : Launch) : State :=
  match l.st with
  | .evicted => (s.editRec l.ctx l.lrec fun r => if r.done || r.result ≠ 0 then r else { r with result := 6 }).discardEvicted n l 1
  | _ => (s.closeRec l.ctx l.lrec 6).dropTaken n l

/-- Every path of the gang has drained: it is evicted (event GANG_DRAINED; R337, R339, R212, R242). A gang of which a unit has ended is not saved:
that unit leaves first. -/
def execGangDrained (n : Nat) : Meaning := fun s =>
  .next <| s |> wholeImaged fun s =>
    match Map.look s.launches n with
    | none => s
    | some l =>
      let us := s.unitsOf n
      if l.st = .draining && us ≠ [] && us.all fun p => p.2.drained && !p.2.ended then
        let s := us.foldl (fun s p => s.evictUnit l p.1) s
        let l := { l with st := .evicted, parkTime := s.time }
        let s : State := { s with launches := Map.put s.launches n l }
        if s.tooLarge l then s.endTooLarge n l else s
      else s

/-! ### Watchdogs (R337) -/

/-- Kill a gang by a watchdog: every unit ends faulted, and the launch's RESULT is *watchdog*; it is asked to park no more. -/
def State.watchdog (s : State) (n : Nat) (l : Launch) : State :=
  let s := s.editRec l.ctx l.lrec fun r => if r.done || r.result ≠ 0 then r else { r with result := 10 }
  match l.st with
  | .evicted => s.discardEvicted n l 1
  | _ => ((s.unitsOf n).foldl (fun s p => s.endUnit p.1 false) s).unpark n

/-- PARKLIM ends before the gang has drained (event PARKLIM_EXPIRY). -/
def execParklimExpiry (n : Nat) : Meaning := fun s =>
  .next <| s |> whole fun s =>
    match Map.look s.launches n with
    | none => s
    | some l =>
      match s.qdesc l.queue with
      | none => s
      | some d => if (l.st = .parking || l.st = .draining) && s.passedUs l.parkTime d.parklim then s.watchdog n l else s

/-- RUNLIM, in milliseconds from first admission, ends while the launch is incomplete (event RUNLIM_EXPIRY). -/
def execRunlimExpiry (n : Nat) : Meaning := fun s =>
  .next <| s |> whole fun s =>
    match Map.look s.launches n with
    | none => s
    | some l =>
      match s.qdesc l.queue with
      | none => s
      | some d => if l.admitted && d.runlim ≠ 0 && s.passedUs l.admitTime (1000 * d.runlim) then s.watchdog n l else s

/-! ### Ends (R272, R325, R326, R342) -/

/-- How a unit ended: 0 normal, 1 faulted, 2 cancelled (R325). -/
def KUnit.endClass (un : KUnit) : Nat := if un.endFault then 1 else if un.endCancel then 2 else 0

/-- Accesses of other units to a unit's scratchpad are in flight: they have passed their checks, and perform before it goes (R154). -/
def State.reachedBy (s : State) (u : Nat) : Bool :=
  s.units.any fun p => p.2.ops.any fun o => o.items.any fun i => !i.done && i.locs.any fun l => match l with
    | .scr v _ => v = u
    | _ => false

/-- Every warp of a unit has ended and nothing it issued is in flight: the unit leaves its core and counts in its record (event UNIT_END). -/
def execUnitEnd (u : Nat) : Meaning := fun s =>
  .next <| s |> wholeImaged fun s =>
    match s.unit? u, s.launchOf u with
    | some un, some l =>
      if un.ended && un.ops = [] && un.jobs = [] && !(s.reachedBy u) && (Map.vals un.chains).all fun c => c.st ≠ .running then
        ((s.removeUnit u).endChildOf l.ctx l.lrec un.endClass).gcLaunch un.launch
      else s
    | _, _ => s

end Sys2Proof.Machine
end

