-- ==== Sys2Proof/Machine/Context.lean ====
section
/-! DEFINITION. The end of a context (00 R6, R8; 11 R342; 13 R382): what stands in the device under an ID that is freed is reclaimed, so that its
next holder sees none of it. -/
namespace Sys2Proof.Machine

/-! ### Launches and queues -/

/-- A unit leaves the machine at once, with all that it has in flight. -/
def State.eraseUnit (s : State) (u : Nat) : State :=
  let s := (s.killUnit u).removeUnit u
  { s with
    cores := Map.each s.cores fun _ k => { k with station := k.station.filter fun o => o.unit ≠ u }
    treeQ := s.treeQ.filter fun k => k.unit ≠ u, repairs := s.repairs.filter fun r => r.1.unit ≠ u
    soloQueue := s.soloQueue.filter fun k => k.1 ≠ u }

/-- The launches of a context end: their units leave, resident and evicted, with their fault records. -/
def State.eraseLaunches (s : State) (ctx : Nat) : State :=
  let gone := (s.launches.filter fun p => p.2.ctx = ctx).map (·.1)
  let s := { s with posts := s.posts.filter fun p => s.postCtx p ≠ ctx }
  let s := ((s.units.filter fun p => gone.contains p.2.launch).map (·.1)).foldl State.eraseUnit s
  let s := ((s.evicted.filter fun p => gone.contains p.2.launch).map (·.1)).foldl State.dropEvicted s
  { s with launches := s.launches.filter fun p => !(gone.contains p.1) }

/-- CTX of a queue's descriptor, valid or not (Table 11.2). -/
def State.queueCtx (s : State) (q : Nat) : Option Nat :=
  (s.fetch (s.descAt q + 10) 2).map leNat

/-- A queue of a context: its packets came under a descriptor of the context (R6); before any came, the descriptor tells, or what has been taken
from it. -/
def State.queueOf (s : State) (ctx q : Nat) : Bool :=
  (s.queue q).ctx = ctx || ((s.queue q).ctx = 0 && s.queueCtx q = some ctx) || s.launches.any fun p => p.2.ctx = ctx && p.2.queue = q

/-- The queues of a context. -/
def State.queuesOf (s : State) (ctx : Nat) : List Nat := (Map.keys s.queues).filter (s.queueOf ctx)

/-- A queue as nothing has touched it, on no slot. -/
def State.resetQueue (s : State) (q : Nat) : State :=
  let s := s.unmap q
  { s with queues := Map.del s.queues q }

/-! ### Trees and pages -/

/-- A sequence goes with its own entries, in block tables and in the hash table (R8, R403). DESIGN CHOICE (log entry 68): with a Close in progress
on it, BUSY of TREE_CMD falls and RES stays as it was; R387 says only what a Close that is carried through answers. -/
def State.eraseSeq (s : State) (sq : Nat) : State :=
  let keys := s.pages.flatMap fun p => (p.2.refs.filter fun r => r.sq = sq).map (·.key)
  let s := keys.foldl (fun s k =>
    match Map.look s.seqs sq with
    | none => s
    | some q => (s.release sq q (k / 4096) (k % 4096)).getD s) s
  let busy := ((Map.look s.seqs sq).map (·.closing)).getD false
  let s := if busy then s.editDie (sq % 2) fun d => { d with treeBusy := false } else s
  { s with
    seqs := Map.del s.seqs sq, kills := s.kills.filter fun k => k.sq ≠ sq, copies := s.copies.filter fun c => c.sq ≠ sq }

/-- The sequences and pages of a context go. -/
def State.eraseTrees (s : State) (ctx : Nat) : State :=
  let s := ((s.seqs.filter fun p => p.2.ctx = ctx).map (·.1)).foldl State.eraseSeq s
  let s := ((s.pages.filter fun p => p.2.ctx = ctx).map (·.1)).foldl (fun s p => s.dropPageTlb p false) s
  { s with pages := s.pages.filter fun p => p.2.ctx ≠ ctx, shoots := s.shoots.filter fun x => x.ctx ≠ ctx }

/-! ### Capability tags in memory (R6) -/

/-- A tag in a private copy that is a context's, or stands no longer at the home. -/
def State.tagGone (s : State) (ctx g : Nat) : Bool := Map.look s.tagBy g = some ctx || !(NSet.has s.tags g)

/-- A context's tags in global memory are cleared, and the private copies that hold one go (R6). -/
def State.eraseTags (s : State) (ctx : Nat) : State :=
  { s with
    tags := s.tags.filter fun g => Map.look s.tagBy g ≠ some ctx
    tagBy := s.tagBy.filter fun p => p.2 ≠ ctx
    cores := Map.each s.cores fun _ k => { k with copies := k.copies.filter fun p => !(p.2.tag && s.tagGone ctx (p.1 / 4)) } }

/-! ### The event -/

/-- A context ID is freed (event CONTEXT_ID_FREE; R8, R342, R382). -/
def execContextIdFree (ctx : Nat) : Meaning := fun s =>
  .next <| s |> whole fun s =>
    let qs := s.queuesOf ctx
    let s := qs.foldl State.resetQueue (s.eraseLaunches ctx)
    let s := ((s.eraseTrees ctx).freeBeads ctx).eraseTags ctx
    { s with
      dies := Map.each s.dies fun _ d => { d with exports := Map.del d.exports ctx, tlb := d.tlb.filter fun e => e.ctx ≠ ctx }
      records := s.records.filter fun p => p.1 / 2 ^ 56 ≠ ctx
      handlers := Map.del s.handlers ctx
      quota := Map.del s.quota ctx }

end Sys2Proof.Machine
end

