-- ==== Sys2Proof/Machine/Csr.lean ====
section
/-! DEFINITION. The control registers behind BAR0 (17 R435, Tables 17.2 and 17.3): what a host reads there, and what a plain write stores. Writes
that start a command are events of their own. -/
namespace Sys2Proof.Machine

/-! ### The map of BAR0 (Table 17.2) -/

/-- Where an offset of BAR0 lies. -/
inductive CsrAt where
  | device (o : Nat)
  | route (d : Nat)
  | report (o : Nat)
  | msix (o : Nat)
  | pba (o : Nat)
  | die (d o : Nat)
  | desc (d n o : Nat)
  | core (c o : Nat)
  | none
  deriving DecidableEq, Repr

/-- A die's region. -/
def dieAt (d o : Nat) : CsrAt :=
  if o < 0x10000 then .die d o
  else if o < 0x18000 then .desc d ((o - 0x10000) / 512) (o % 512)
  else if 0x800000 ≤ o ∧ o < 0x800000 + 96 * 0x10000 then .core (96 * d + (o - 0x800000) / 0x10000) (o % 0x10000)
  else .none

/-- The region of an offset. -/
def csrAt (o : Nat) : CsrAt :=
  if o < 0x10000 then .device o
  else if o < 0x14000 then .route ((o - 0x10000) / 8)
  else if 0x100000 ≤ o ∧ o < 0x101000 then .report (o - 0x100000)
  else if 0xF00000 ≤ o ∧ o < 0xF08000 then .msix (o - 0xF00000)
  else if 0xF80000 ≤ o ∧ o < 0xF80100 then .pba (o - 0xF80000)
  else if 0x1000000 ≤ o ∧ o < 0x2000000 then dieAt 0 (o - 0x1000000)
  else if 0x2000000 ≤ o ∧ o < 0x3000000 then dieAt 1 (o - 0x2000000)
  else .none

/-! ### Reading -/

/-- A bit of a register. -/
def bitAt (b : Bool) (n : Nat) : Nat := if b then 2 ^ n else 0

/-- DEV_HEALTH (Table 16.4). -/
def Dev.health (d : Dev) : Nat :=
  bitAt d.healthReplace 63 + d.retLim * 2 ^ 24 + d.retPorts.length * 2 ^ 18 + d.retSlices.length % 256 * 2 ^ 10
    + (d.retCores.filter fun c => 96 ≤ c).length % 32 * 2 ^ 5 + (d.retCores.filter fun c => c < 96).length % 32

/-- DEV_ERR (Table 16.4). -/
def Dev.err (d : Dev) : Nat :=
  d.errVec * 2 ^ 48 + bitAt d.errReplace 3 + bitAt d.errRetired 2 + bitAt d.errHfail 1 + bitAt d.errUncorr 0

/-- DEV_BOOT (Table 17.5). -/
def Dev.boot (d : Dev) : Nat := d.fwsvn * 2 ^ 16 + d.errc * 2 ^ 8 + d.stage

/-- The 64-bit device register at an offset (Table 17.3). -/
def State.devReg (s : State) (o : Nat) : Nat :=
  let d := s.dev
  match o with
  | 0x000 => 0x0FFFFFFF
  | 0x010 => d.ctxt
  | 0x018 => d.tlbiVa.toNat
  | 0x020 => bitAt d.tlbiBusy 63 + bitAt d.tlbiErr 62 + d.tlbiN * 2 ^ 16 + d.tlbiScope * 2 ^ 14 + d.tlbiCtx
  | 0x028 => bitAt d.quiesced 63 + bitAt d.lost 62 + d.lostDev * 2 ^ 51 + d.lostLim * 2 ^ 40 + d.nmThresh * 2 ^ 32 + d.devNum
  | 0x030 => d.trapBase + bitAt d.trapEn 0
  | 0x038 => d.err
  | 0x040 => d.health
  | 0x048 => d.circTab
  | 0x050 => bitAt d.circBusy 31
  | 0x058 => d.circU * 2 ^ 32 + d.circC
  | 0x060 => d.boot
  | 0x068 => d.pwr * 2 ^ 48 + d.tmax * 2 ^ 40 + bitAt d.therm 33 + bitAt d.plim 32 + d.clk
  | 0x070 => bitAt d.attBusy 63 + bitAt d.attErr 62 + d.attVec * 2 ^ 16
  | 0x0A0 => d.hwin
  | _ =>
    if 0x080 ≤ o ∧ o < 0x0A0 then leNat ((span (o - 0x080) 8).map fun i => Map.lookD d.nonce i 0#8) else 0

/-- The 64-bit die register at an offset. -/
def State.dieReg (s : State) (die o : Nat) : Nat :=
  let d := s.die die
  let page := 2147483648 * die + d.hmQuery
  let refs := ((Map.look s.pages page).map fun g => g.refs.length).getD 0
  match o with
  | 0x000 => d.qtab + d.lead * 16 + bitAt d.qsEn 0
  | 0x008 => d.fqBase + d.fqLog2n * 256 + bitAt d.fqEn 0
  | 0x010 => d.fqVec * 2 ^ 48 + d.fqProd * 2 ^ 16 + d.fqCons
  | 0x020 => d.migSrcReg
  | 0x028 => d.migDstReg
  | 0x030 => d.migSizeReg * 64 + d.migState
  | 0x038 => bitAt d.nocRand 16 + d.nocThresh * 256 + d.nocWin * 16 + bitAt d.nocMode 0
  | 0x040 => d.stabBase + d.stabLog2n
  | 0x048 => bitAt d.treeBusy 63 + d.treeRes * 2 ^ 59
  | 0x050 => d.hmBase
  | 0x058 => d.hmN
  | 0x060 => d.hmHashBase + d.hmHashLog2n
  | 0x068 => d.hmOvfBase + d.hmOvfN
  | 0x070 => d.hmScrub
  | 0x078 => d.hmCrcErr * 2 ^ 32 + d.hmLast
  | 0x080 => refs % 65536 * 2 ^ 48 + min (s.pins page) 65535 * 2 ^ 32 + bitAt (decide (2 ≤ refs)) 31 + d.hmQuery
  | 0x088 => d.eccU * 2 ^ 32 + d.eccC
  | 0x090 => d.scrubPeriod
  | _ => 0

/-- The 64-bit core register at an offset. -/
def CoreSt.reg (k : CoreSt) (o : Nat) : Nat :=
  match o with
  | 0x000 => k.pmcWarp.toNat
  | 0x008 => k.pmcScalar.toNat
  | 0x010 => k.pmcBeats.toNat
  | 0x018 => k.stray.toNat
  | 0x020 => k.eccU.toNat * 2 ^ 32 + k.eccC.toNat
  | _ => 0

/-- A 32-bit register of a mesh-reduction descriptor (Table 12.10). -/
def MDesc.reg (d : MDesc) (o : Nat) : Nat :=
  if o = 0 then bitAt d.valid 31 + bitAt d.err 30 + d.nnodes * 2 ^ 24 + d.timeout
  else if 0x40 ≤ o ∧ o < 0x140 then d.node ((o - 0x40) / 4)
  else 0

/-- The registers that are 32 bits wide: CIRC_CMD, DIE_FQACK, DIE_MIG_CMD, NOC_CTL. -/
def narrowReg : CsrAt → Bool
  | .device o => o = 0x050
  | .die _ o => o = 0x018 || o = 0x030 || o = 0x038
  | .desc _ _ _ => true
  | _ => false

/-- A 64-bit register, or half of one, or a 32-bit register: the register's offset and the bit at which the access starts; nothing for any other
access (R435). -/
def csrPart (size o : Nat) : Option (Nat × Nat) :=
  if size = 8 ∧ o % 8 = 0 then some (o, 0)
  else if size = 4 ∧ o % 4 = 0 then some (o / 8 * 8, 8 * (o % 8))
  else none

/-- The pending bits of the MSI-X PBA. -/
def Dev.pbaWord (d : Dev) (o : Nat) : Nat := ((List.range 64).map fun i => bitAt (NSet.has d.pba (8 * o + i)) i).sum

/-- What a host reads from BAR0 (R435): zero before stage 4 but for the device region (R439), and for any other access than the listed ones. -/
def State.csr (s : State) (off size : Nat) : Nat :=
  let at0 := csrAt off
  let early := s.dev.stage ≠ 4 && match at0 with
    | .device _ => false
    | _ => true
  if early then 0
  else
    match csrPart size off with
    | none => 0
    | some (o, lo) =>
      let part (x : Nat) : Nat := x / 2 ^ lo % 2 ^ (8 * size)
      match csrAt o with
      | .device r => if narrowReg (.device r) && size = 8 then 0 else part (s.devReg r)
      | .route d => part (Map.lookD s.dev.brRt d 0#64).toNat
      | .report r => part (leNat ((span r 8).map fun i => s.dev.report.getD i 0#8))
      | .msix r => part (leNat ((span r 8).map s.dev.msixByte))
      | .pba r => part (s.dev.pbaWord r)
      | .die d r => if narrowReg (.die d r) && (size = 8 || lo ≠ 0) then 0 else part (s.dieReg d r)
      | .desc d n r => if size = 8 then 0 else (s.desc d n).reg (r + lo / 8)
      | .core c r => part ((s.core c).reg r)
      | .none => 0

/-- What a host reads in BAR2 (Table 11.3): HEAD and STATUS of a doorbell page; zero elsewhere, before stage 4 (R439), and while the home die's
EN is 0 (Table 11.1). -/
def State.doorbell (s : State) (off size : Nat) : Nat :=
  let q := off / 4096
  let x := s.queue q
  if s.dev.stage ≠ 4 || !(s.qsOn q) || size ≠ 4 then 0
  else
    match off % 4096 with
    | 0x004 => x.head
    | 0x018 =>
      let slot := s.slotOf q
      bitAt slot.isSome 0 + bitAt x.err 1 + (slot.map (·.1)).getD 0 % 256 * 2 ^ 8 + min x.malf 65535 * 2 ^ 16
    | _ => 0

/-! ### Plain writes -/

/-- A write of 1 clears. -/
def w1c (b : Bool) (v n : Nat) : Bool := b && !(field v n n = 1)

/-- A counter that a host write of zero clears. -/
def clearIf0 (x v hi lo : Nat) : Nat := if field v hi lo = 0 then 0 else x

/-- A plain write of a 64-bit device register. -/
def Dev.writeReg (d : Dev) (o v : Nat) : Dev :=
  match o with
  | 0x010 => { d with ctxt := field v 51 12 * 4096 }
  | 0x018 => { d with tlbiVa := BitVec.ofNat 64 (field v 55 17 * 131072) }
  | 0x020 => if d.tlbiBusy then { d with tlbiErr := true } else { d with tlbiErr := w1c d.tlbiErr v 62 }
  | 0x028 => { d with lostLim := field v 47 40, nmThresh := field v 39 32, devNum := field v 10 0 }
  | 0x030 => { d with trapBase := field v 63 12 * 4096, trapEn := field v 0 0 = 1 }
  | 0x038 =>
    { d with
      errVec := field v 63 48, errReplace := w1c d.errReplace v 3, errRetired := w1c d.errRetired v 2, errHfail := w1c d.errHfail v 1
      errUncorr := w1c d.errUncorr v 0 }
  | 0x040 => { d with retLim := field v 31 24 }
  | 0x048 => { d with circTab := field v 63 12 * 4096 }
  | 0x058 => { d with circU := clearIf0 d.circU v 63 32, circC := clearIf0 d.circC v 31 0 }
  | 0x070 => { d with attErr := w1c d.attErr v 62, attVec := field v 26 16 }
  | 0x0A0 => { d with hwin := field v 51 0 / 2 ^ d.bar4 * 2 ^ d.bar4 }
  | _ =>
    if 0x080 ≤ o ∧ o < 0x0A0 then { d with nonce := putBytes d.nonce (o - 0x080) (leBytes 8 v) } else d

/-- A plain write of a die register; `used` says whether a page of the die's pool is in use. -/
def Die.writeReg (d : Die) (o v : Nat) (used : Bool) : Die :=
  match o with
  | 0x000 => { d with qtab := field v 63 12 * 4096, lead := field v 11 4, qsEn := field v 0 0 = 1 }
  | 0x008 => { d with fqBase := field v 63 12 * 4096, fqLog2n := field v 11 8, fqEn := field v 0 0 = 1 }
  | 0x010 => { d with fqVec := field v 63 48, fqCons := field v 15 0 }
  | 0x020 => { d with migSrcReg := field v 51 17 * 131072 }
  | 0x028 => { d with migDstReg := field v 51 17 * 131072 }
  | 0x030 => { d with migSizeReg := field v 7 6 }
  | 0x038 =>
    let w := field v 7 4
    { d with nocRand := field v 16 16 = 1, nocThresh := field v 15 8, nocWin := if 8 ≤ w then w else 10 }
  | 0x040 => { d with stabBase := field v 63 12 * 4096, stabLog2n := field v 4 0 }
  | 0x050 => if used then d else { d with hmBase := field v 63 17 * 131072 }
  | 0x058 => if used then d else { d with hmN := field v 30 0 }
  | 0x060 => { d with hmHashBase := field v 63 12 * 4096, hmHashLog2n := field v 4 0 }
  | 0x068 => { d with hmOvfBase := field v 63 12 * 4096, hmOvfN := field v 11 0 }
  | 0x070 => { d with hmScrub := field v 31 0 }
  | 0x078 => { d with hmCrcErr := clearIf0 d.hmCrcErr v 63 32 }
  | 0x080 => { d with hmQuery := field v 30 0 }
  | 0x088 => { d with eccU := clearIf0 d.eccU v 63 32, eccC := clearIf0 d.eccC v 31 0 }
  | 0x090 => { d with scrubPeriod := field v 15 0 }
  | _ => d

/-- A plain write of a core register: a write of zero clears a counter. -/
def CoreSt.writeReg (k : CoreSt) (o v : Nat) : CoreSt :=
  match o with
  | 0x000 => if v = 0 then { k with pmcWarp := 0 } else k
  | 0x008 => if v = 0 then { k with pmcScalar := 0 } else k
  | 0x010 => if v = 0 then { k with pmcBeats := 0 } else k
  | 0x018 => if field v 31 0 = 0 then { k with stray := 0 } else k
  | 0x020 => { k with eccU := if field v 63 32 = 0 then 0 else k.eccU, eccC := if field v 31 0 = 0 then 0 else k.eccC }
  | _ => k

/-- A plain write of a descriptor's register while it is not valid (R362, R363): reserved bits are not stored. -/
def MDesc.writeReg (d : MDesc) (o v : Nat) : MDesc :=
  if d.valid then d
  else if o = 0 then (if field v 31 31 = 1 then d else { d with nnodes := field v 29 24, timeout := field v 23 0 })
  else if 0x40 ≤ o ∧ o < 0x140 then
    { d with nodes := Map.put d.nodes ((o - 0x40) / 4) (BitVec.ofNat 32 (field v 31 24 * 2 ^ 24 + field v 6 0)) }
  else d

/-- A routing table entry as it is stored (Table 12.11). -/
def routeBits (v : Nat) : Word64 :=
  BitVec.ofNat 64 (min (field v 63 61) 4 * 2 ^ 61 + field v 54 11 * 2 ^ 11 + field v 6 0)

/-- A write of the MSI-X table (R438): a pending vector that is no longer masked is sent. -/
def State.writeMsix (s : State) (o : Nat) (bs : List Byte) : State :=
  let v := o / 16
  let m := (List.range bs.length).foldl (fun m i => Map.put m (o + i) (bs.getD i 0#8)) s.dev.msix
  let s := s.editDev fun d => { d with msix := m }
  if NSet.has s.dev.pba v && !((s.dev.msixByte (16 * v + 12)).getLsbD 0) then
    (s.editDev fun d => { d with pba := NSet.del d.pba v }).sendMsix v
  else s

/-- A page of a die's pool is in use. -/
def State.poolUsed (s : State) (die : Nat) : Bool := s.pages.any fun p => p.1 / 2147483648 = die

/-- A host write to BAR0 that starts no command (event CSR_WRITE; R435): nothing before stage 4, and nothing at a width that is not the
register's own. -/
def execCsrWrite (off size : Nat) (val : Word64) : Meaning := fun s =>
  .next <|
    let v := val.toNat % 2 ^ (8 * size)
    let at0 := csrAt off
    let wide := size = 8 && off % 8 = 0 && !narrowReg at0
    let narrow := size = 4 && off % 4 = 0 && narrowReg at0
    if s.dev.stage ≠ 4 then s
    else
      match at0 with
      | .device o => if wide then s.editDev fun d => d.writeReg o v else s
      | .route d => if wide then s.editDev fun x => { x with brRt := Map.put x.brRt d (routeBits v) } else s
      | .msix o => if (size = 4 && off % 4 = 0) || (size = 8 && off % 8 = 0) then s.writeMsix o (leBytes size v) else s
      | .die d o => if wide || narrow then s.editDie d fun x => x.writeReg o v (s.poolUsed d) else s
      | .desc d n o => if narrow then s.editDesc d n fun x => x.writeReg o v else s
      | .core c o => if wide then s.editCore c fun k => k.writeReg o v else s
      | _ => s

end Sys2Proof.Machine
end

