-- ==== Sys2Proof/Machine/Errors.lean ====
section
/-! DEFINITION. Soft errors, retirement and replacement (16 R428 to R433; 13 R385). -/
namespace Sys2Proof.Machine

/-- A counter that stops at 0xFFFF_FFFF. -/
def satInc (n : Nat) : Nat := min (n + 1) 0xFFFFFFFF

/-- CORE_ECC counts an error. -/
def CoreSt.ecc (k : CoreSt) (uncorr : Bool) : CoreSt :=
  if uncorr then { k with eccU := BitVec.ofNat 32 (satInc k.eccU.toNat) } else { k with eccC := BitVec.ofNat 32 (satInc k.eccC.toNat) }

/-- DIE_MEMECC counts an error. -/
def Die.ecc (d : Die) (uncorr : Bool) : Die :=
  if uncorr then { d with eccU := satInc d.eccU } else { d with eccC := satInc d.eccC }

/-- CIRC_ECC counts an error. -/
def State.circEcc (s : State) (uncorr : Bool) : State :=
  s.editDev fun d => if uncorr then { d with circU := satInc d.circU } else { d with circC := satInc d.circC }

/-! ### Retirement (R431, R433) -/

/-- Retired cores of a die. -/
def Dev.coresOf (d : Dev) (die : Nat) : Nat := (d.retCores.filter fun c => dieOf c = die).length

/-- The thresholds of R433 are passed. -/
def Dev.wantsReplace (d : Dev) : Bool :=
  decide (2 < d.coresOf 0) || decide (2 < d.coresOf 1) || decide (4 < d.retSlices.length) || decide (3 < d.retPorts.length)

/-- REPLACE past a threshold. -/
def Dev.judge (d : Dev) : Dev := if d.wantsReplace then { d with errReplace := true, healthReplace := true } else d

/-- Retire a component at run time (R431): the firmware writes it into the configuration record, then RETIRED, and REPLACE past a threshold. -/
def State.retireWith (s : State) (g : Dev → Dev) : State :=
  s.raiseErr fun d =>
    let d := g d
    Dev.judge { d with errRetired := true, mapCores := d.retCores, mapSlices := d.retSlices, mapPorts := d.retPorts }

/-- Every waiting launch that no longer fits ends with RESULT *too large*. -/
def State.dropTooLarge (s : State) : State :=
  (s.launches.filter fun p => s.tooLarge p.2).foldl (fun s p => s.endTooLarge p.1 p.2) s

/-- A core retires (Table 16.10): no unit is admitted to it, its resident gangs are pre-empted, and a waiting launch that no longer fits ends. -/
def State.retireCore (s : State) (core : Nat) : State :=
  let s := s.retireWith fun d => { d with retCores := NSet.add d.retCores core }
  let gangs := (s.launches.filter fun p => p.2.st = .resident && s.units.any fun u => u.2.launch = p.1 && u.2.core = core).map (·.1)
  (gangs.foldl State.parkGang s).dropTooLarge

/-- An uncorrectable error of a component is recorded (R428, R431): DEV_ERR.UNCORR; at RETLIM the component retires. -/
def State.recordUncorr (s : State) (comp : Nat) : State :=
  let n := Map.lookD s.dev.compErr comp 0 + 1
  let s := s.raiseErr fun d => { d with errUncorr := true, compErr := Map.put d.compErr comp n }
  if s.dev.retLim = 0 || decide (n < s.dev.retLim) then s
  else if 1024 ≤ comp then (if NSet.has s.dev.retCores (comp - 1024) then s else s.retireCore (comp - 1024))
  else if NSet.has s.dev.retSlices comp then s
  else s.retireWith fun d => { d with retSlices := NSet.add d.retSlices comp }

/-- An uncorrectable error in a core. -/
def State.coreUncorr (s : State) (core : Nat) : State := (s.editCore core fun k => k.ecc true).recordUncorr (1024 + core)

/-! ### The errors (Table 16.9) -/

/-- The 8-byte word of a scratchpad is poisoned; a poisoned barrier word loses the unit's state. -/
def State.scratchError (s : State) (u off : Nat) : State :=
  match s.unit? u, s.launchOf u with
  | some un, some l =>
    if l.scratch ≤ off then s
    else
      let s := (s.editUnit u fun un => { un with spoison := NSet.add un.spoison (off / 8) }).coreUncorr un.core
      if un.barrierIn (off / 8 * 8) 8 then s.fatal u 0x80 else s
  | _, _ => s

/-- An error in a private cache: a clean word is fetched again and counts as corrected; a registered one goes to its slice poisoned. -/
def State.cacheError (s : State) (core pa : Nat) : State :=
  let ws := wordsOf (pa / 8 * 8) 8
  let s' := ws.foldl (fun s w => s.editCore core fun k => k.dropWord w) s
  if ws.any fun w => Map.look s.regOwner w = some core then
    let s' := ws.foldl (fun s w => if Map.look s.regOwner w = some core then s.unregister w true else s) s'
    ({ s' with poison := NSet.add s'.poison (pa / 8) } : State).coreUncorr core
  else s'.editCore core fun k => k.ecc false

/-- An error in a bead (R385): word 16 stands for its header. -/
def State.beadError (s : State) (b word : Nat) : State :=
  let s := (s.circEcc true).raiseErr fun d => { d with errUncorr := true }
  s.editBead b fun v =>
    if 16 ≤ word then { v with st := .poisoned, ctx := 0 }
    else
      match v.st with
      | .vacant => { v with payload := [] }
      | _ => { v with st := .poisoned }

/-- An uncorrectable error (event UNCORRECTABLE_ERROR; R428). -/
def execUncorrectableError (e : ErrSite) : Meaning := fun s =>
  .next <| s |> wholeImaged fun s =>
    match e with
    | .unitState u =>
      match s.unit? u with
      | some un => (s.coreUncorr un.core).fatal u 0x80
      | none => s
    | .scratch u off => s.scratchError u off
    | .accRow u row =>
      match s.unit? u, s.launchOf u with
      | some un, some l =>
        if l.acc ≤ row then s
        else (s.editUnit u fun un => un.putRow row { un.row row with poison := true }).coreUncorr un.core
      | _, _ => s
    | .cache core pa => if s.installed pa && decide (core < 192) then s.cacheError core pa else s
    | .l2 slice pa =>
      if s.installed pa && slice = s.sliceOf (s.holder pa) pa then
        (({ s with poison := NSet.add s.poison (pa / 8) } : State).editDie (s.holder pa) fun d => d.ecc true).recordUncorr slice
      else s
    | .dram pa =>
      if s.installed pa then
        (({ s with poison := NSet.add s.poison (pa / 8) } : State).editDie (s.holder pa) fun d => d.ecc true).raiseErr fun d =>
          { d with errUncorr := true }
      else s
    | .bead b word => if b < 512 then s.beadError b word else s

/-- The core of a unit counts a corrected error. -/
def State.unitCorr (s : State) (u : Nat) : State :=
  match s.unit? u with
  | some un => s.editCore un.core fun k => k.ecc false
  | none => s

/-- A corrected error (event CORRECTABLE_ERROR; R428): the value stands, and it is counted. -/
def execCorrectableError (e : ErrSite) : Meaning := fun s =>
  .next <|
    match e with
    | .unitState u => s.unitCorr u
    | .scratch u _ => s.unitCorr u
    | .accRow u _ => s.unitCorr u
    | .cache core _ => if core < 192 then s.editCore core fun k => k.ecc false else s
    | .l2 slice pa => if s.installed pa && slice = s.sliceOf (s.holder pa) pa then s.editDie (s.holder pa) fun d => d.ecc false else s
    | .dram pa => if s.installed pa then s.editDie (s.holder pa) fun d => d.ecc false else s
    | .bead b _ => if b < 512 then s.circEcc false else s

/-- The patrol scrubber has read the lines of a die (event PATROL_SCRUB; R430): it changes no value, and what it finds comes as an error of
its own. -/
def execPatrolScrub (_ : Nat) : Meaning := fun s => .next s

/-- A Bridle port fails (event BRIDLE_PORT_FAIL; R431): routing entries that name it act as MINV = 0. -/
def execBridlePortFail (port : Nat) : Meaning := fun s =>
  .next <|
    if decide (36 ≤ port) || NSet.has s.dev.retPorts port then s
    else s.retireWith fun d => { d with retPorts := NSet.add d.retPorts port }

end Sys2Proof.Machine
end

