-- ==== Sys2Proof/Machine/Repair.lean ====
section
/-! DEFINITION. Repair actions and trap handling (08 R274, R275; 16 R417 to R425): what a write of %frag does when it takes effect, the posting
of fault records, the start of a handler launch. -/
namespace Sys2Proof.Machine

/-! ### A repair action takes effect -/

/-- What becomes of a repair request: it waits, it has taken effect, or the handler's write faults. -/
inductive Repaired where
  | wait
  | done (s : State)
  | bad (cause : Nat)

/-- The fragments that wait for the request of a handler's fragment: it, and what was split off it. -/
def Warp.repairers (w : Warp) (x : Frag) : List Nat :=
  (w.frags.filter fun p => p.2.status = .parkedWait && p.2.wake = x.wake).map (·.1)

/-- Let the handler's write go on after its action, or fault. -/
def State.repairAnswer (s : State) (f : FragRef) (cause : Option Nat) : State :=
  match s.unit? f.unit, s.warp? f.unit f.warp, s.frag? f with
  | some u, some w, some x =>
    match x.status, x.wake with
    | .parkedWait, .repair _ =>
      (w.repairers x).foldl (fun s i =>
        let g : FragRef := { f with fidx := i }
        let s := s.editFrag g fun y => { y with status := .runnable, wake := .none }
        match s.frag? g with
        | none => s
        | some y =>
          let pass (s : State) : State := (s.editCore u.core fun k => k.count false y.beats).editFrag g fun y => y.nextWord 1
          match cause with
          | none => pass s
          | some n =>
            match s.takeFaults g [Bad.of n 0 (y.actm &&& ~~~y.done)] with
            | (s, true) => pass s
            | (s, false) => s) s
    | _, _ => s
  | _, _, _ => s

/-- Take a request of an action from the list of requests, with its target. A target that is free or dead is ignored (R422). -/
def State.repairStep (s : State) (q act : Nat) (go : State → FragRef → FragRef → Frag → Nat → Repaired) : State :=
  match s.repairs[q]? with
  | none => s
  | some (f, v) =>
    let ident := v.toNat % 2 ^ 32
    if field ident 31 24 ≠ act then s
    else
      let next := s.repairs.eraseIdx q
      let fin (s : State) (c : Option Nat) : State := ({ s with repairs := next } : State).repairAnswer f c
      let gone := fin s none
      match s.named (s.ctxOf f.unit) ident with
      | none => gone
      | some t =>
        match (s.anyUnit t.unit).bind fun un => (Map.look un.warps t.warp).bind fun w => Map.look w.frags t.fidx with
        | none => gone
        | some x =>
          if x.status = .dead then gone
          else
            match go s f t x (v.toNat / 2 ^ 32) with
            | .wait => s
            | .done s => fin s none
            | .bad c => fin s (some c)

/-- The record attached to a fragment has the serial of PARAM (R422 check 4). -/
def Frag.serialIs (x : Frag) (param : Nat) : Bool := (x.frec.map fun r => decide (r.serial.toNat = param % 65536)).getD false

/-- The handler's earlier accesses, which a RESUME releases (R423), are still to perform. -/
def State.releaseWaits (s : State) (f : FragRef) : Bool :=
  match s.unit? f.unit, s.frag? f with
  | some un, some x => !(un.performedBy f.warp (x.actm &&& ~~~x.done) false)
  | _, _ => false

/-- RESUME (event REPAIR_RESUME): the fragment goes on as R274 says; its first clause is an acquire at .dev (R423). -/
def execRepairResume (q : Nat) : Meaning := fun s =>
  .next <| s |> wholeImaged fun s => s.repairStep q 1 fun s f t x param =>
    if !x.serialIs param then .done s
    else if s.releaseWaits f then .wait
    else
      let s := s.onUnit t.unit fun s => s.resumeFault t
      .done (match s.unit? t.unit with
        | some un => s.selfInvalidate un.core false
        | none => s)

/-- KILL (event REPAIR_KILL). -/
def execRepairKill (q : Nat) : Meaning := fun s =>
  .next <| s |> wholeImaged fun s => s.repairStep q 2 fun s _ t x param =>
    if param < 2 ^ 31 && !x.serialIs param then .done s else .done (s.repairKill t)

/-- A record restricted to some threads. -/
def FaultRec.only (r : FaultRec) (m : Mask) : FaultRec := { r with mask := r.mask &&& m, done := r.done &&& m }

/-- A fragment restricted to some threads (R275). -/
def Frag.only (x : Frag) (m : Mask) : Frag :=
  { x with mask := x.mask &&& m, actm := x.actm &&& m, done := x.done &&& m, frec := x.frec.map fun r => r.only m }

/-- Whether a fragment is parked. -/
def Frag.isParked (x : Frag) : Bool := x.status = .parkedWait || x.status = .parkedBarrier || x.status = .parkedFault

/-- A split by repair is refused (R275, R279); the core's table does not bound an evicted image. -/
def State.splitRefused (s : State) (t : FragRef) : Bool :=
  if Map.has s.units t.unit then s.refuses t 1
  else
    match (Map.look s.evicted t.unit).bind fun un => Map.look un.warps t.warp with
    | some w => decide (16 < w.fragCount + 1)
    | none => true

/-- SPLIT (event REPAIR_SPLIT). DEDUCED (log entry 28): the subset that the handler names becomes the new fragment, with the lowest free FIDX, also
where it holds the lowest thread (R275 against R264). -/
def execRepairSplit (q : Nat) : Meaning := fun s =>
  .next <| s |> wholeImaged fun s => s.repairStep q 3 fun s _ t x param =>
    let m : Mask := BitVec.ofNat 32 param
    if !x.isParked || m = 0#32 || m = x.mask || m &&& ~~~x.mask ≠ 0#32 then .bad 0x39
    else if s.splitRefused t then .bad 0x38
    else
      .done (s.onUnit t.unit fun s => s.editWarp t.unit t.warp fun w =>
        { w with frags := Map.put (Map.put w.frags t.fidx (x.only (~~~m))) w.freeFidx (x.only m) })

/-- Force-fuse fragment y, whose FIDX is j, into fragment x, whose FIDX is i (R275). -/
def Frag.fuse (x y : Frag) (i j : Nat) : Frag :=
  let low := if i < j then x else y
  let x := { x with
    mask := x.mask ||| y.mask, actm := if x.clause.isSome then x.actm ||| y.mask else x.actm, fmt := low.fmt, win := low.win }
  match x.frec with
  | some r => { x with done := x.done ||| y.mask, frec := some { r with mask := x.mask, done := r.done ||| y.mask } }
  | none => x

/-- FUSE (event REPAIR_FUSE). Of a target that is neither free nor dead, a fragment B that is, or that is the target itself, makes an invalid repair
action (R275; log entry 28). -/
def execRepairFuse (q : Nat) : Meaning := fun s =>
  .next <| s |> wholeImaged fun s => s.repairStep q 4 fun s _ t x param =>
    match ((s.anyUnit t.unit).bind fun un => Map.look un.warps t.warp).bind fun w => Map.look w.frags param with
    | none => .bad 0x39
    | some y =>
      if param = t.fidx || y.status = .dead then .bad 0x39
      else
        .done (s.onUnit t.unit fun s => s.editWarp t.unit t.warp fun w =>
          ({ w with frags := Map.put (Map.del w.frags param) t.fidx (x.fuse y t.fidx param) } : Warp).gcSplits)

/-- KILLWARP (event REPAIR_KILLWARP). -/
def execRepairKillwarp (q : Nat) : Meaning := fun s =>
  .next <| s |> wholeImaged fun s => s.repairStep q 5 fun s _ t _ _ =>
    .done (s.onUnit t.unit fun s => (s.killWarp t.unit t.warp).editUnit t.unit fun un => { un with endFault := true })

/-! ### Posting (R418, R419, R425) -/

/-- Whether a posting is the record of a fragment of a trap handler's warp. -/
def State.ofHandler (s : State) (p : Post) : Option Nat :=
  match p with
  | .frag f serial =>
    (s.recorded f serial).bind fun v =>
      (Map.look s.launches v.1.launch).bind fun l => if l.handler then some f.unit else none
  | .unit _ _ _ _ _ _ _ _ _ _ => none

/-- The postings of a context that no earlier one of its core stands before. -/
def State.firstPosts (s : State) (ctx : Nat) : List Post :=
  (s.posts.filter fun p => s.postCtx p = ctx).foldl (fun l p => if l.any fun x => s.postCore x = s.postCore p then l else l ++ [p]) []

/-- Post one record, or do what R425 says where it cannot be posted. -/
def State.postOne (s : State) (ctx : Nat) (p : Post) : State :=
  let gone : State := { s with posts := s.posts.erase p }
  match s.postFields p with
  | none => gone
  | some r =>
    match s.trapEntry ctx with
    | none => s.failHandler ctx false
    | some e =>
      if !e.usable then s.failHandler ctx false
      else if e.failed then
        let s := if e.room && !(NSet.has s.dev.trapLost ctx) then gone.ringRecord ctx e r else gone
        (s.parkedOf ctx).foldl (fun s f => s.repairKill f) s
      else if e.room then gone.ringRecord ctx e r
      else s

/-- The next record of a context is posted (event FAULT_RECORD_POST); a fault of the handler itself ends its unit instead. In a context whose
handler has failed a fault that waits for the driver kills its fragment too. -/
def execFaultRecordPost (ctx : Nat) : Meaning := fun s =>
  .next <| s |> wholeImaged fun s =>
    let s := s.agentRead (s.trapAt ctx) 64
    match (s.posts.filter fun p => s.postCtx p = ctx).find? fun p => (s.ofHandler p).isSome with
    | some p =>
      match s.ofHandler p with
      | some u => ({ s with posts := s.posts.erase p } : State).onUnit u fun s => s.fatal u 0x81
      | none => s
    | none =>
      match s.firstPosts ctx with
      | [] => if s.trapFailed ctx then (s.parkedOf ctx).foldl (fun s f => s.repairKill f) s else s
      | p :: ps =>
        let n := Config.freeNat s.freeIx % (ps.length + 1)
        ({ s with freeIx := s.freeIx + 1 } : State).postOne ctx ((p :: ps).getD n p)

/-! ### Starting a handler (R420) -/

/-- A CLOSE packet of a record. -/
def closePacket (lrec : Nat) : List Byte := leBytes 4 2 ++ leBytes 28 0 ++ leBytes 8 lrec ++ leBytes 88 0

/-- The bytes of a job record that software would initialise (R324): OPEN, LEVEL 3. -/
def jobRecord : List Byte := leBytes 12 0 ++ leBytes 4 (1 + 3 * 16) ++ leBytes 48 0

/-- The home scheduler starts a handler launch (event HANDLER_LAUNCH_START; R420, R425). -/
def execHandlerLaunchStart (ctx : Nat) : Meaning := fun s =>
  .next <| s |> wholeImaged fun s =>
    let s := s.agentRead (s.trapAt ctx) 64
    match s.trapEntry ctx with
    | none => s
    | some e =>
      if !e.usable || e.failed || e.prod = e.cons || Map.has s.handlers ctx then s
      else
        let s := s.agentRead e.pkt 128
        match s.fetch e.pkt 128, s.qdesc e.hqueue with
        | some b, some d =>
          let p := Pkt.of b
          match s.schedPa ctx p.job with
          | none => s.handlerEnded ctx 1
          | some pa =>
            if p.type ≠ 1 || p.job = 0 || !al64 p.job || p.phase ≠ 0 || p.graph ≠ 0 || d.ctx ≠ ctx || !d.sys then s.handlerEnded ctx 1
            else if !(s.qsOn e.hqueue) || decide (2 ^ d.log2n < (s.queue e.hqueue).count d.log2n + 3) then s
            else
              let at0 := (s.queue e.hqueue).tail
              let s := s.agentWrite pa jobRecord
              let s : State := { s with records := Map.del s.records (recKey ctx p.job) }
              match s.append e.hqueue d b with
              | none => s
              | some s =>
                match s.append e.hqueue d (closePacket p.job) with
                | none => s
                | some s => { s with handlers := Map.put s.handlers ctx { job := p.job, lrec := p.lrec, queue := e.hqueue, idx := some at0 } }
        | _, _ => s.handlerEnded ctx 1

end Sys2Proof.Machine
end

