-- ==== Sys2Proof/Machine/Tree.lean ====
section
/-! DEFINITION. Token trees and masks (07 R243 to R258, 14 R386 to R396): the instructions, their commands at the home tree unit, pruning,
commits, and the driver's commands. -/
namespace Sys2Proof.Machine

/-! ### Operands (R244, R253) -/

/-- A node operand (Table 7.14). -/
structure NodeOp where
  sq : Nat
  c : Bool
  slot : Nat
  pos : Nat
  deriving DecidableEq, Repr

/-- Read a node operand; nothing when it is malformed. POS may be non-zero only where it is read. -/
def NodeOp.of (x : Word64) (readsPos : Bool) : Option NodeOp :=
  let lo := field x.toNat 31 0
  let hi := field x.toNat 63 32
  let o : NodeOp := ⟨field lo 23 0, field hi 10 10 = 1, field hi 9 0, field hi 30 11⟩
  if field lo 31 24 ≠ 0 || field hi 31 31 ≠ 0 || (o.c && o.slot ≠ 0) || (o.pos ≠ 0 && !(readsPos && o.c)) then none else some o

/-- A block operand: sequence and block. -/
def blockOp (x : Word64) : Option (Nat × Nat) :=
  let lo := field x.toNat 31 0
  let hi := field x.toNat 63 32
  if field lo 31 24 ≠ 0 || field hi 31 17 ≠ 0 then none else some (field lo 23 0, field hi 16 0)

/-- A tree result word (Table 7.15). -/
def treeWord (status state value : Nat) : Word64 := BitVec.ofNat 64 (status * 2 ^ 28 + state * 2 ^ 26 + value)

/-! ### The instructions -/

/-- The commands of a word's threads, in beat order, at the end of what is in transit (R245). -/
def State.sendTree (s : State) (c : Ctx) (id : Nat) (m : Mask) (ask : TreeAsk) (a b : Nat → Word64) : State :=
  { s with
    treeQ := s.treeQ ++ (threads m).map fun t =>
      { unit := c.f.unit, warp := c.f.warp, fidx := c.f.fidx, op := id, thread := t, ask := ask, ctx := c.l.ctx, a := a t, b := b t
        node := c.w.node } }

/-- A tree or KV word (R243): it issues on the tr path, and each active thread sends a command; `n` is the width of its result. -/
def treeIns (use : List Opn) (d : Option (Reg × Nat)) (ask : TreeAsk) (a b : Ctx → Nat → Word64) : Meaning :=
  withWord use [] fun c s =>
    if c.act = 0#32 then s.skipLl c 1
    else s.whenReady c (llNeeds .tr) fun s =>
      let dst : Option Dst := d.map fun p => { reg := c.base + p.1.toNat, n := p.2, size := 4 * p.2, sext := false, cap := false }
      let s := s.sendTree c c.u.nextOp c.act ask (a c) (b c)
      (s.issue c (some .tr) c.act (.tree c.act) [] dst none).retire c 1 false c.beats

/-- No second operand. -/
def noB (_ : Ctx) (_ : Nat) : Word64 := 0#64

/-- The pair of a register field. -/
def pairOf (a : Reg) (c : Ctx) (t : Nat) : Word64 := c.rdP a t

/-- A word operand, widened. -/
def wordOf (b : Reg) (c : Ctx) (t : Nat) : Word64 := (c.rd b t).zeroExtend 64

/-- NFORK (R246). -/
def execNfork (d a : Reg) : Meaning := treeIns [opV d, opP a] (some (d, 1)) .fork (pairOf a) noB
/-- NPRUNE (R247). -/
def execNprune (d a : Reg) : Meaning := treeIns [opV d, opP a] (some (d, 1)) .prune (pairOf a) noB
/-- NCOMMIT (R248). -/
def execNcommit (m : Bool) (d a : Reg) : Meaning := treeIns [opV d, opP a] (some (d, 1)) (.commit m) (pairOf a) noB
/-- NQUERY (R249). -/
def execNquery (m : Bool) (d a : Reg) : Meaning := treeIns [opV d, opP a] (some (d, 1)) (.query m) (pairOf a) noB
/-- KVMAP (R254, R255). -/
def execKvmap (m : Bool) (d a b : Reg) : Meaning := treeIns [opP d, opP a, opV b] (some (d, 2)) (.map m) (pairOf a) (wordOf b)
/-- KVREF (R256). -/
def execKvref (d a b : Reg) : Meaning := treeIns [opV d, opP a, opP b] (some (d, 1)) .ref (pairOf a) (pairOf b)
/-- KVREL (R257). -/
def execKvrel (d a b : Reg) : Meaning := treeIns [opV d, opP a, opV b] (some (d, 1)) .rel (pairOf a) (wordOf b)
/-- KVSHOOT (R258). -/
def execKvshoot (a b : Reg) : Meaning := treeIns [opP a, opP b] none .shoot (pairOf a) (pairOf b)

/-- %node of a tag (Table 1.12). -/
def nodeTag (o : NodeOp) : Word64 := BitVec.ofNat 64 (2 ^ 63 + o.sq * 2 ^ 32 + (if o.c then 0 else 2 ^ 10 + o.slot))

/-- NTAG (R250). -/
def execNtag (a : Reg) : Meaning :=
  withWord [opP a] [] fun c s =>
    if c.act = 0#32 then s.retire c 1 false 1
    else
      match NodeOp.of (c.rdP a c.low) false with
      | none => s.faultActive c 0x2B 0
      | some o =>
        if (nodeSpec c.w.node && nodeTag o ≠ c.w.node) || (((Map.look s.seqs o.sq).map fun q => decide (q.ctx ≠ c.l.ctx)).getD false)
        then s.faultActive c 0x2B 0
        else
          let s := s.editWarp c.f.unit c.f.warp fun w => { w with node := nodeTag o }
          (s.sendTree c 0 (bit c.low) .tag (fun _ => c.rdP a c.low) fun _ => 0#64).retire c 1 false c.beats

/-- NTAG.clr (R250): the warp carries no tag. -/
def execNtagClr : Meaning :=
  withWord [] [] fun c s =>
    if c.act = 0#32 then s.retire c 1 false 1
    else if nodeSpec c.w.node then s.faultActive c 0x2B 0
    else (s.editWarp c.f.unit c.f.warp fun w => { w with node := w.node &&& ~~~(1#64 <<< 63) }).retire c 1 false c.beats

/-- MASKG's key start (R252). -/
def maskStartOk (node : Bool) (k0 : Nat) : Bool := if node then k0 % 128 = 0 && decide (k0 ≤ 896) else decide (k0 < 2 ^ 20)

/-- MASKG of the threads whose operand is well formed, with the key start that was checked: an operation of the engine queue, and a command per
thread; with none left the word passes. -/
def maskgGo (node : Bool) (a : Reg) (k0 : Word) (c : Ctx) (s : State) : State :=
  if c.act = 0#32 then s.skipLl c 1
  else s.whenReady c (llNeeds .tr ++ [.engine]) fun s =>
    let id := ((s.unit? c.f.unit).map (·.nextOp)).getD 0
    let s := s.sendTree c id c.act (.mask node) (pairOf a c) fun _ => k0.zeroExtend 64
    let s := s.issue c (some .tr) c.act (.engine (.maskg false []) c.fr.accwin) [] none none
    (s.editCore c.u.core fun k => { k with eng := k.eng ++ [(c.f.unit, id)] }).retire c 1 false c.beats

/-- MASKG (R252). -/
def execMaskg (m : Bool) (a b : Reg) : Meaning :=
  withWord [opP a, opV b] [] fun c s =>
    if c.act = 0#32 then s.skipLl c 1
    else if !c.accOk then s.faultLl c 0x06 0
    else if !(maskStartOk m (c.rd b c.low).toNat) then s.faultLl c 0x2B 0
    else
      let bads := groupBads c.act fun t => if (NodeOp.of (c.rdP a t) true).isNone then some (Bad.of 0x2B 0 0) else none
      s.guarded c bads (maskgGo m a (c.rd b c.low))

/-! ### Results and faults of commands -/

/-- Take a thread off a tree operation. -/
def Op.treeLess (o : Op) (t : Nat) (drop : Bool) : Op :=
  let mask := if drop then o.mask &&& ~~~(bit t) else o.mask
  match o.kind with
  | .tree m => { o with kind := .tree (m &&& ~~~(bit t)), mask := mask }
  | .engine (.maskg _ p) w => { o with mask := mask, kind := .engine (.maskg ((threads mask).all fun t => Map.has p t) p) w }
  | _ => o

/-- Every thread of a tree operation is answered. -/
def Op.answered (o : Op) : Bool :=
  match o.kind with
  | .tree m => m = 0#32
  | .engine (.maskg ready _) _ => ready
  | _ => false

/-- A thread of a tree operation is answered. With the last one the operation's faults are taken, by cause (R165), and one that is not of the
engine queue completes. -/
def State.treeLess (s : State) (u op t : Nat) (drop : Bool) : State :=
  let s := s.editUnit u fun un => un.editOp op fun o => o.treeLess t drop
  match (s.unit? u).bind fun un => un.op? op with
  | none => s
  | some o =>
    if !o.answered then s
    else
      let s := s.settle u op
      match o.kind with
      | .tree _ => s.editUnit u fun un => un.complete op
      | _ => s

/-- Write a command's result to its thread. -/
def State.treeDone (s : State) (u op t : Nat) (v : Word64) : State :=
  match (s.unit? u).bind fun un => un.op? op with
  | none => s
  | some o =>
    let s := match o.dst with
      | none => s
      | some d => s.editWarp u o.warp fun w =>
        if w.live.getLsbD t then
          (List.range d.n).foldl (fun w i => (w.setReg (d.reg + i) t ((v >>> (32 * i)).setWidth 32)).setRtag (d.reg + i) .general) w
        else w
    s.treeLess u op t false

/-- A command's thread faults at its word (R254, R252, R258). -/
def State.treeFault (s : State) (k : TreeCmd) (cause hint : Nat) : State :=
  let b : Bad := { Bad.of cause 0 (bit k.thread) with hint := hint }
  (s.editUnit k.unit fun un => un.editOp k.op fun o => { o with fails := addBad o.fails b }).treeLess k.unit k.op k.thread true

/-- Answer a command. -/
def State.answer (s : State) (k : TreeCmd) (v : Word64) : State := s.treeDone k.unit k.op k.thread v

/-! ### Pruning (R247, R389, R392) -/

/-- The live node in a slot. -/
def Seq.live (q : Seq) (slot : Nat) : Option Node := (Map.look q.slots slot).bind fun x => if x.pruning then none else some x

/-- The live nodes whose vector holds a slot's bit: the node and its live descendants (R388). -/
def Seq.subtree (q : Seq) (slot : Nat) : NSet := (q.slots.filter fun p => !p.2.pruning && p.2.vec.getLsbD slot).map (·.1)

/-- Nodes enter the pruning state, and a kill goes to every core (R247, R392). It reaches what was evicted from a core there too, or as that is
resumed (R340). -/
def State.pruneSlots (s : State) (sq : Nat) (slots : NSet) : State :=
  if slots = [] then s
  else
    let s := s.editSeq sq fun q =>
      { q with slots := Map.each q.slots fun i x => if NSet.has slots i then { x with pruning := true } else x }
    { s with kills := s.kills ++ [{ sq := sq, slots := slots, cores := List.range 192 }] }

/-- A prune kill reaches a core (event PRUNE_KILL_DELIVERY; R392). -/
def execPruneKillDelivery (k core : Nat) : Meaning := fun s =>
  .next <| s |> wholeImaged fun s =>
    match s.kills[k]? with
    | none => s
    | some x =>
      if !(NSet.has x.cores core) then s
      else
        let us := ((s.units ++ s.evicted).filter fun p => p.2.core = core).map (·.1)
        let s := us.foldl (fun s u => s.onUnit u fun s => s.killTagged u x.sq x.slots) s
        let left := NSet.del x.cores core
        { s with kills := if left = [] then s.kills.eraseIdx k else s.kills.set k { x with cores := left } }

/-- Release every own entry of a sequence that an owner holds (R251, R387). -/
def State.releaseOwned (s : State) (sq owner : Nat) : State :=
  let keys := s.pages.flatMap fun p => (p.2.refs.filter fun r => r.sq = sq && r.owner = owner).map (·.key)
  keys.foldl (fun s k =>
    match Map.look s.seqs sq with
    | none => s
    | some q => (s.release sq q (k / 4096) (k % 4096)).getD s) s

/-- A sequence whose Close has nothing left to release ends; RES becomes 0 (R387). -/
def State.finishClose (s : State) (sq : Nat) : State :=
  match Map.look s.seqs sq with
  | none => s
  | some q =>
    if q.closing && q.slots = [] then
      ({ s with seqs := Map.del s.seqs sq } : State).editDie (sq % 2) fun d => { d with treeBusy := false, treeRes := 0 }
    else s

/-- The vector of another node of a sequence names a slot. -/
def State.namesSlot (s : State) (sq slot : Nat) : Bool :=
  ((Map.look s.seqs sq).map fun q => q.slots.any fun p => p.1 ≠ slot && p.2.vec.getLsbD slot).getD false

/-- %node with SPEC and SLOT zero. -/
def despec (n : Word64) : Word64 := n &&& ~~~(0x7FF#64)

/-- A command that waits at the tree unit carries no tag of some nodes any longer: what it comes to own is owned by the committed prefix (R251). -/
def TreeCmd.rewrite (k : TreeCmd) (sq : Nat) (slots : NSet) : TreeCmd :=
  if nodeSpec k.node && nodeSeq k.node = sq && NSet.has slots (nodeSlot k.node) then { k with node := despec k.node } else k

/-- A pruned slot's kills and releases are done, and it becomes free (event PRUNE_RELEASE_DONE; R389): while the vector of another node names
it, it is not freed yet (R388). -/
def execPruneReleaseDone (sq slot : Nat) : Meaning := fun s =>
  .next <| s |> whole fun s =>
    match (Map.look s.seqs sq).bind fun q => Map.look q.slots slot with
    | none => s
    | some x =>
      if !x.pruning || (s.kills.any fun k => k.sq = sq && NSet.has k.slots slot) || s.namesSlot sq slot then s
      else
        let s := { s with treeQ := s.treeQ.map fun (k : TreeCmd) => k.rewrite sq [slot] }
        ((s.releaseOwned sq slot).editSeq sq fun q => { q with slots := Map.del q.slots slot }).finishClose sq

/-! ### Tree commands at the home (R246 to R249) -/

/-- The bit of a slot. -/
def slotBit (s : Nat) : BitVec 1024 := 1#1024 <<< s

/-- NFORK (R246). -/
def State.doFork (s : State) (k : TreeCmd) : State × Word64 :=
  match NodeOp.of k.a false with
  | none => (s, treeWord 6 0 0)
  | some o =>
    match s.seqFor k.ctx o.sq with
    | none => (s, treeWord 3 0 0)
    | some q =>
      match (if o.c then some (none, q.len, 0#1024) else (q.live o.slot).map fun x => (some o.slot, x.pos + 1, x.vec)) with
      | none => (s, treeWord 1 0 0)
      | some (par, pos, vec) =>
        match leastBelow 1024 fun i => !(Map.has q.slots i) with
        | none => (s, treeWord 2 0 0)
        | some n =>
          if 2 ^ 20 ≤ pos then (s, treeWord 4 0 0)
          else
            (s.editSeq o.sq fun q =>
              { q with slots := Map.put q.slots n { pruning := false, parent := par, pos := pos, vec := vec ||| slotBit n } },
              treeWord 0 0 n)

/-- NPRUNE (R247). -/
def State.doPrune (s : State) (k : TreeCmd) : State × Word64 :=
  match NodeOp.of k.a false with
  | none => (s, treeWord 6 0 0)
  | some o =>
    if o.c then (s, treeWord 6 0 0)
    else
      match s.seqFor k.ctx o.sq with
      | none => (s, treeWord 3 0 0)
      | some q =>
        if (q.live o.slot).isNone then (s, treeWord 1 0 0)
        else (s.pruneSlots o.sq (q.subtree o.slot), treeWord 0 0 (q.subtree o.slot).length)

/-- The path from the committed prefix to a live node: the slots of its vector (R388). -/
def Seq.path (q : Seq) (x : Node) : NSet := (q.slots.filter fun p => x.vec.getLsbD p.1).map (·.1)

/-- The live nodes that are neither on the path nor below the node in a slot (R248). -/
def Seq.off (q : Seq) (slot : Nat) (path : NSet) : NSet :=
  (q.slots.filter fun p => !p.2.pruning && !(NSet.has path p.1) && !(p.2.vec.getLsbD slot)).map (·.1)

/-- NCOMMIT up to the %node rewrites (R248, R390): a status at once, or a commit that waits. -/
def State.doCommit (s : State) (k : TreeCmd) (p : Bool) : State × Option Word64 :=
  match NodeOp.of k.a false with
  | none => (s, some (treeWord 6 0 0))
  | some o =>
    if o.c then (s, some (treeWord 6 0 0))
    else
      match s.seqFor k.ctx o.sq with
      | none => (s, some (treeWord 3 0 0))
      | some q =>
        match q.live o.slot with
        | none => (s, some (treeWord 1 0 0))
        | some x =>
          if !p && q.off o.slot (q.path x) ≠ [] then (s, some (treeWord 5 0 0))
          else (s.editSeq o.sq fun q => { q with commit := some ⟨k.unit, k.op, k.thread, o.slot⟩ }, none)

/-- Rewrite the tags of a unit's warps (R248). A transfer keeps the tag that its warp held at issue, and is not withdrawn (R241). -/
def KUnit.rewriteTags (un : KUnit) (sq : Nat) (slots : NSet) : KUnit :=
  { un with
    warps := Map.each un.warps fun _ w => if w.taggedIn sq slots then { w with node := despec w.node } else w
    jobs := un.jobs.map fun j => { j with kept := j.kept || j.taggedIn sq slots } }

/-- Every core has acknowledged the rewrite of %node, and the commit retires (event NODE_REWRITE_ACK; R248, R390). -/
def execNodeRewriteAck (sq : Nat) : Meaning := fun s =>
  .next <| s |> wholeImaged fun s =>
    match Map.look s.seqs sq with
    | none => s
    | some q =>
      match q.commit with
      | none => s
      | some m =>
        match q.live m.tip with
        | none => s
        | some x =>
          let path := q.path x
          let len := q.len + path.length
          let s := s.pruneSlots sq (q.off m.tip path)
          let mask := path.foldl (fun v i => v ||| slotBit i) 0#1024
          let s := s.editSeq sq fun q =>
            { q with
              commit := none, len := len
              slots := Map.each (q.slots.filter fun p => !(NSet.has path p.1)) fun _ y =>
                { y with vec := y.vec &&& ~~~mask, parent := if y.parent = some m.tip then none else y.parent } }
          let s := { s with
            pages := Map.each s.pages fun _ g =>
              { g with refs := g.refs.map fun (r : KvRef) => if r.sq = sq && NSet.has path r.owner then { r with owner := prefixOwner } else r }
            treeQ := s.treeQ.map fun (k : TreeCmd) => k.rewrite sq path
            units := Map.each s.units fun _ un => un.rewriteTags sq path
            evicted := Map.each s.evicted fun _ un => un.rewriteTags sq path }
          s.treeDone m.unit m.op m.thread (treeWord 0 0 len)

/-- NQUERY (R249). -/
def State.doQuery (s : State) (k : TreeCmd) (len : Bool) : Word64 :=
  let sq := field k.a.toNat 23 0
  if field k.a.toNat 31 24 ≠ 0 then treeWord 6 0 0
  else if len then
    match s.seqFor k.ctx sq with
    | none => treeWord 3 0 0
    | some q => treeWord 0 0 q.len
  else
    match NodeOp.of k.a false with
    | none => treeWord 6 0 0
    | some o =>
      match s.seqFor k.ctx sq with
      | none => treeWord 3 0 0
      | some q =>
        if o.c then treeWord 0 1 q.len
        else
          match Map.look q.slots o.slot with
          | none => treeWord 0 0 0
          | some x => treeWord 0 (if x.pruning then 2 else 1) x.pos

/-- One bit of a mask plane (R252). -/
def Seq.visible (q : Seq) (node : Bool) (o : NodeOp) (x : Option Node) (k : Nat) : Bool :=
  if node then
    !o.c && match x with
      | some x => (q.live k).isSome && x.vec.getLsbD k
      | none => false
  else
    match (if o.c then some o.pos else x.map (·.pos)) with
    | some p => decide (k < q.len) && decide (k ≤ p)
    | none => false

/-- A mask plane (R252, R396). -/
def Seq.plane (q : Seq) (node : Bool) (o : NodeOp) (k0 : Nat) : BitVec 128 :=
  let x := if o.c then none else q.live o.slot
  (List.range 128).foldl (fun m j => if q.visible node o x (k0 + j) then m ||| 1#128 <<< j else m) 0#128

/-- MASKG of one thread (R252). -/
def State.doMask (s : State) (k : TreeCmd) (node : Bool) : State :=
  match (NodeOp.of k.a true).bind fun o => (s.seqFor k.ctx o.sq).map fun q => (o, q) with
  | none => s.treeFault k 0x2B 0
  | some (o, q) =>
    let p := q.plane node o k.b.toNat
    (s.editUnit k.unit fun un => un.editOp k.op fun op => match op.kind with
      | .engine (.maskg r m) w => { op with kind := .engine (.maskg r (Map.put m k.thread p)) w }
      | _ => op).treeLess k.unit k.op k.thread false

/-! ### KV commands at the home (R254 to R258) -/

/-- The owner of a reference that a command makes (R251). -/
def TreeCmd.owner (k : TreeCmd) (sq : Nat) (q : Seq) : Nat :=
  if nodeSpec k.node && nodeSeq k.node = sq && Map.has q.slots (nodeSlot k.node) then nodeSlot k.node else prefixOwner

/-- The context's aperture base, while its KVAP is valid (R397, R398). -/
def State.aperture (s : State) (ctx : Nat) : Option Nat :=
  match s.ctxEntry ctx with
  | .ok e => if kvapValid e.kvap then some (kvBase e.kvap) else none
  | .error _ => none

/-- The common checks of a KV command: sequence, block, table, aperture base; or a status. -/
def State.kvTarget (s : State) (k : TreeCmd) : Except Nat (Nat × Nat × Seq × Nat) :=
  match blockOp k.a with
  | none => .error 6
  | some (sq, b) =>
    match s.aperture k.ctx with
    | none => .error 6
    | some base =>
      match s.seqFor k.ctx sq with
      | none => .error 3
      | some q => .ok (sq, b, q, base)

/-- KVMAP's result pair. -/
def kvPair (base p : Nat) : Word64 := BitVec.ofNat 64 (base + 131072 * p)

/-- A lookup found a fifth level: the sequence is flattened and the thread faults (R254, R402). -/
def State.tooDeep (s : State) (k : TreeCmd) (sq : Nat) : State :=
  let hint := ((Map.look s.seqs sq).map fun q => if q.hint then 1 else 0).getD 0
  (s.flatten sq).1.treeFault k 0x2C hint

/-- KVMAP, the read form (R254). DESIGN CHOICE (log entry 30), as in KVMAP.w, KVREF and KVREL: reserved bits of vb are tested after the look-up of
the sequence, so that both together answer NOSEQ. -/
def State.doMap (s : State) (k : TreeCmd) : State :=
  match s.kvTarget k with
  | .error e => s.answer k (BitVec.ofNat 64 e)
  | .ok (sq, b, q, base) =>
    let l := field k.b.toNat 15 0
    if field k.b.toNat 31 16 ≠ 0 || decide (q.nlayer ≤ l) then s.answer k 6
    else
      match s.lookKv sq b l with
      | .none => s.answer k 1
      | .deep => s.tooDeep k sq
      | .hit p _ _ => s.answer k (kvPair base p)

/-- A fresh page for KVMAP.w, with the positions to copy from an old page (R255). -/
def State.freshPage (s : State) (k : TreeCmd) (sq b l : Nat) (q : Seq) (base : Nat) (old : Option (Nat × Nat × Bool)) : State :=
  match s.allocPage (sq % 2) k.ctx ⟨sq, entryKey b l, k.owner sq q⟩ with
  | none => s.answer k 4
  | some (p, t) =>
    match t.putOwn sq q b l p q.positions with
    | none => s.answer k 4
    | some t =>
      match old with
      | none => t.answer k (kvPair base p)
      | some (src, fill, own) =>
        let t := if own then t.dropRef src sq (entryKey b l) else t
        { t with
          copies := t.copies ++
            [{ sq := sq, unit := k.unit, op := k.op, thread := k.thread, src := src, dst := p, bytes := fill * 2 ^ (17 - q.ppb)
               res := kvPair base p }] }

/-- KVMAP.w (R255). -/
def State.doMapW (s : State) (k : TreeCmd) : State :=
  match s.kvTarget k with
  | .error e => s.answer k (BitVec.ofNat 64 e)
  | .ok (sq, b, q, base) =>
    let l := field k.b.toNat 15 0
    let r := field k.b.toNat 23 16
    if field k.b.toNat 31 24 ≠ 0 || decide (q.nlayer ≤ l) || decide (q.positions ≤ r) || !(q.takes b) then s.answer k 6
    else
      match s.lookKv sq b l with
      | .deep => s.tooDeep k sq
      | .none => s.freshPage k sq b l q base none
      | .hit p f own =>
        if own && ((Map.look s.pages p).map (·.refs.length)) = some 1 then s.answer k (kvPair base p)
        else if r < f then s.answer k 7
        else s.freshPage k sq b l q base (some (p, f, own))

/-- KVREF (R256). -/
def State.doRef (s : State) (k : TreeCmd) : State :=
  match s.kvTarget k with
  | .error e => s.answer k (BitVec.ofNat 64 e)
  | .ok (sq, b, q, _) =>
    let l := field k.b.toNat 15 0
    let f := field k.b.toNat 23 16 + 1
    let p := field k.b.toNat 63 32
    if field k.b.toNat 31 24 ≠ 0 || decide (q.nlayer ≤ l) then s.answer k 6
    else
      match Map.look s.pages p with
      | none => s.answer k 6
      | some g =>
        if g.refs = [] || g.ctx ≠ k.ctx || !(q.takes b) then s.answer k 6
        else if 65535 ≤ g.refs.length then s.answer k 2
        else if q.positions < f then s.answer k 6
        else
          match s.putOwn sq q b l p f with
          | none => s.answer k 4
          | some t =>
            let t := t.addRef p ⟨sq, entryKey b l, k.owner sq q⟩
            match s.own sq q b l with
            | some e => (t.dropRef e.page sq (entryKey b l)).answer k 0
            | none => t.answer k 0

/-- KVREL (R257). -/
def State.doRel (s : State) (k : TreeCmd) : State :=
  match s.kvTarget k with
  | .error e => s.answer k (BitVec.ofNat 64 e)
  | .ok (sq, b, q, _) =>
    let l := field k.b.toNat 15 0
    if field k.b.toNat 31 16 ≠ 0 || decide (q.nlayer ≤ l) then s.answer k 6
    else
      match s.release sq q b l with
      | none => s.answer k 5
      | some t => t.answer k 0

/-- The pages that Lookup gives for a range, or nothing where one lookup needs a fifth level. -/
def State.rangePages (s : State) (sq : Nat) : List (Nat × Nat) → Option (List Nat)
  | [] => some []
  | (b, l) :: t =>
    match s.lookKv sq b l with
    | .deep => none
    | .none => s.rangePages sq t
    | .hit p _ _ => (s.rangePages sq t).map (p :: ·)

/-- KVSHOOT (R258, R406). -/
def State.doShoot (s : State) (k : TreeCmd) : State :=
  match s.kvTarget k with
  | .error _ => s.treeFault k 0x2B 0
  | .ok (sq, b, q, _) =>
    let n := field k.b.toNat 31 0
    let l := field k.b.toNat 63 32
    let every : Bool := l = 0xFFFFFFFF
    if n = 0 || decide (2 ^ 17 < b + n) || (!every && decide (q.nlayer ≤ l)) then s.treeFault k 0x2B 0
    else
      let layers := if every then List.range q.nlayer else [l]
      match s.rangePages sq ((span b n).flatMap fun x => layers.map fun y => (x, y)) with
      | none => s.tooDeep k sq
      | some ps => { s with shoots := s.shoots ++ [{ unit := k.unit, op := k.op, thread := k.thread, ctx := k.ctx, pages := ps }] }

/-- Every translation buffer has acknowledged (event KVSHOOT_ACK; R258, R406). -/
def execKvshootAck (k : Nat) : Meaning := fun s =>
  .next <|
    match s.shoots[k]? with
    | none => s
    | some x =>
      let s := x.pages.foldl (fun s p => s.dropPageTlb p false) { s with shoots := s.shoots.eraseIdx k }
      s.treeDone x.unit x.op x.thread 0

/-- The marks of poison carried by a copy of n bytes (R429). -/
def copyPoison (p : NSet) (src dst n : Nat) : NSet :=
  (List.range (n / 8)).foldl (fun q i => if NSet.has p (src / 8 + i) then NSet.add q (dst / 8 + i) else q) p

/-- Some line of a range is ring-held (R379). -/
def State.ringIn (s : State) (pa n : Nat) : Bool := s.ringHeld.any fun p => decide (pa < 64 * p.1 + 64) && decide (64 * p.1 < pa + n)

/-- A page copy meets a ring-held line and fails under R241 (R379): the thread's command ends without a result, and its fragment parks with
*transfer fault*, underlying cause *ring-held line*. DESIGN CHOICE (log entry 30): ADDR is zero, since no record is at fault, and the own entry
stays as the command made it. -/
def State.copyFails (s : State) (x : PageCopy) : State :=
  match (s.unit? x.unit).bind fun un => un.op? x.op with
  | none => s
  | some o => (s.treeLess x.unit x.op x.thread true).engineFail x.unit o.warp o.fidx (bit x.thread) o.at_.pc 0x18 0

/-- A page copy is complete, and KVMAP.w returns (event HALLMARK_COPY_COMPLETE; R255). While its pins pass 65,535 it waits (R404). -/
def execHallmarkCopyComplete (k : Nat) : Meaning := fun s =>
  .next <| s |> whole fun s =>
    match s.copies[k]? with
    | none => s
    | some x =>
      let src := s.pageAddr x.src
      let dst := s.pageAddr x.dst
      if 65535 < s.pins x.src then s
      else
        let t := { s with copies := s.copies.eraseIdx k }
        if s.ringIn src x.bytes || s.ringIn dst x.bytes then t.copyFails x
        else
          let t := t.agentRead src x.bytes
          let t := t.agentWrite dst (t.bytes src x.bytes)
          ({ t with poison := copyPoison t.poison src dst x.bytes } : State).treeDone x.unit x.op x.thread x.res

/-! ### Arrival (R245) -/

/-- Perform a command at its place in the order. -/
def State.perform (s : State) (k : TreeCmd) : State :=
  match k.ask with
  | .fork => let r := s.doFork k; r.1.answer k r.2
  | .prune => let r := s.doPrune k; r.1.answer k r.2
  | .commit p => match s.doCommit k p with
    | (s, some v) => s.answer k v
    | (s, none) => s
  | .query len => s.answer k (s.doQuery k len)
  | .map w => if w then s.doMapW k else s.doMap k
  | .ref => s.doRef k
  | .rel => s.doRel k
  | .shoot => s.doShoot k
  | .mask node => s.doMask k node
  | .tag =>
    match NodeOp.of k.a false with
    | none => s
    | some o =>
      let lives := ((s.openSeq o.sq).map fun q => o.c || (q.live o.slot).isSome).getD false
      if lives then s
      else s.onUnit k.unit fun s => s.pruneWarp k.unit k.warp

/-- A sequence's next command waits: for a commit's rewrites (R390), or for a copy. -/
def State.seqWaits (s : State) (sq : Nat) : Bool :=
  (((Map.look s.seqs sq).map fun q => q.commit.isSome).getD false) || s.copies.any fun c => c.sq = sq

/-- A command arrives and is performed (event TREE_COMMAND_ARRIVAL): the commands of one fragment arrive in issue order (R245). -/
def execTreeCommandArrival (k : Nat) : Meaning := fun s =>
  .next <| s |> wholeImaged fun s =>
    match s.treeQ[k]? with
    | none => s
    | some x =>
      if (s.treeQ.take k).any (fun y => y.unit = x.unit && y.warp = x.warp && y.fidx = x.fidx) || s.seqWaits (field x.a.toNat 23 0) then s
      else ({ s with treeQ := s.treeQ.eraseIdx k } : State).perform x

/-! ### The driver's commands (R387) -/

/-- Report RES. -/
def State.treeRes (s : State) (die res : Nat) : State := s.editDie die fun d => { d with treeRes := res }

/-- A sequence's store as ranges of physical memory (R387). -/
def storeOf (nodes btab nblk nlayer : Nat) (hash : Bool) : List (Nat × Nat) :=
  (nodes, 262144) :: (if hash then [] else [(btab, 8 * nblk * nlayer)])

/-- Two ranges share a byte. -/
def overlaps (x y : Nat × Nat) : Bool := decide (x.1 < y.1 + y.2) && decide (y.1 < x.1 + x.2) && decide (0 < x.2) && decide (0 < y.2)

/-- A sequence table entry as Open reads it (Table 14.1): the sequence it makes; nothing for a bad entry. -/
def State.seqEntry (s : State) (e : List Byte) : Option Seq :=
  let n (o k : Nat) : Nat := leNat ((e.drop o).take k)
  let ctl := n 0 4
  let hash := field ctl 12 12 = 1
  let par := field ctl 13 13 = 1
  let kvap := match s.ctxEntry (field ctl 11 0) with
    | .ok c => c.kvap
    | .error _ => 0
  if field ctl 31 14 ≠ 0 || field ctl 11 0 = 0 || field (n 4 4) 31 24 ≠ 0 || (!par && n 4 4 ≠ 0) || decide (2 ^ 20 < n 8 4)
      || (!par && n 8 4 ≠ 0) || decide (2 ^ 20 < n 12 4) || (!hash && n 16 8 % 4096 ≠ 0) || decide (2 ^ 17 < n 24 4) || n 28 4 ≠ 0
      || n 32 8 % 4096 ≠ 0 || n 40 24 ≠ 0 || decide (n 12 4 < n 8 4) then none
  else
    some
      { ctx := field ctl 11 0, hash := hash, par := if par then some (n 4 4) else none, forklen := n 8 4, len := n 12 4, btab := n 16 8
        nblk := n 24 4, store := n 32 8, nlayer := field kvap 15 4, ppb := field kvap 3 0, slots := [], commit := none, hint := false
        closing := false }

/-- Physical address of a sequence's entry, when the table has it (R386). -/
def State.seqEntryAt (s : State) (sq : Nat) : Option Nat :=
  if s.inTable sq then some ((s.die (sq % 2)).stabBase + 64 * (sq / 2)) else none

/-- Whether a sequence's parent allows the Open (R387, R447). -/
def State.parentOk (s : State) (q : Seq) : Bool :=
  match q.par with
  | none => true
  | some p =>
    match s.seqFor q.ctx p with
    | none => false
    | some x => decide (q.forklen ≤ x.len) && x.nlayer = q.nlayer && x.ppb = q.ppb

/-- Open (R387). -/
def execTreeCmdOpen (die sq : Nat) : Meaning := fun s =>
  .next <| s |> whole fun s =>
    if (s.die die).treeBusy then s
    else if sq % 2 ≠ die then s.treeRes die 2
    else if Map.has s.seqs sq then s.treeRes die 1
    else
      let s := match s.seqEntryAt sq with
        | some a => s.agentRead a 64
        | none => s
      match ((s.seqEntryAt sq).bind fun a => s.fetch a 64).bind s.seqEntry with
      | none => s.treeRes die 2
      | some q =>
        let mine := storeOf q.store q.btab q.nblk q.nlayer q.hash
        if (Map.vals s.seqs).any fun x => (storeOf x.store x.btab x.nblk x.nlayer x.hash).any fun r => mine.any (overlaps r) then s.treeRes die 2
        else if !(s.parentOk q) then s.treeRes die 3
        else ({ s with seqs := Map.put s.seqs sq q } : State).treeRes die 0

/-- Close (R387): it waits for a commit or copy before it. -/
def execTreeCmdClose (die sq : Nat) : Meaning := fun s =>
  .next <| s |> whole fun s =>
    if (s.die die).treeBusy then s
    else if sq % 2 ≠ die then s.treeRes die 2
    else
      match s.openSeq sq with
      | none => s.treeRes die 2
      | some q =>
        if (Map.vals s.seqs).any fun x => x.par = some sq then s.treeRes die 4
        else if s.seqWaits sq then s
        else
          let s := s.pruneSlots sq ((q.slots.filter fun p => !p.2.pruning).map (·.1))
          let s := s.releaseOwned sq prefixOwner
          let s := match s.seqEntryAt sq with
            | some a => s.agentWrite (a + 12) (leBytes 4 q.len)
            | none => s
          let s := s.editSeq sq fun q => { q with closing := true }
          (s.editDie die fun d => { d with treeBusy := true }).finishClose sq

/-- Flatten (R387, R402). -/
def execTreeCmdFlatten (die sq : Nat) : Meaning := fun s =>
  .next <| s |> whole fun s =>
    if (s.die die).treeBusy then s
    else if sq % 2 ≠ die then s.treeRes die 2
    else
      match s.openSeq sq with
      | none => s.treeRes die 2
      | some _ =>
        if s.seqWaits sq then s
        else
          let r := s.flatten sq
          r.1.treeRes die (if r.2 then 0 else 5)

end Sys2Proof.Machine
end

