-- ==== Sys2Proof/Machine/Fabric.lean ====
section
/-! DEFINITION. Translation faults and invalidation, page migration, the network's routing mode, peer packets and partition quiesce (12 R350 to
R368). -/
namespace Sys2Proof.Machine

/-! ### The fault queue (R351 to R353) -/

/-- Entries of a die's core that are not yet in its fault queue, least recent first. -/
def CoreSt.uncopied (k : CoreSt) : List (Nat × FbEntry) := k.fbuf.filter fun p => !p.2.copied

/-- The next of them. -/
def CoreSt.nextFb (k : CoreSt) : Option (Nat × FbEntry) :=
  k.uncopied.foldl (fun (m : Option (Nat × FbEntry)) p => match m with
    | some x => if p.2.ord < x.2.ord then some p else m
    | none => some p) none

/-- The 32 bytes of a fault queue entry (Table 12.5). -/
def FbEntry.bytes (e : FbEntry) (core idx : Nat) : List Byte :=
  leBytes 8 e.va ++ leBytes 2 e.ctx ++ leBytes 1 e.src ++ leBytes 1 e.kind ++ leBytes 2 (core % 96) ++ leBytes 1 idx ++ leBytes 1 0
    ++ leBytes 2 e.dev ++ leBytes 14 0

/-- The next entry of a die to copy, in posting order, with its core. -/
def State.nextCopy (s : State) (die : Nat) : Option (Nat × Nat × FbEntry) :=
  s.cores.foldl (fun (m : Option (Nat × Nat × FbEntry)) p =>
    if dieOf p.1 ≠ die then m
    else
      match m, p.2.nextFb with
      | some x, some y => if y.2.ord < x.2.2.ord then some (p.1, y) else m
      | none, some y => some (p.1, y)
      | m, none => m) none

/-- A buffer entry is copied to the die's fault queue (event FAULT_QUEUE_COPY; R352). -/
def execFaultQueueCopy (die : Nat) : Meaning := fun s =>
  .next <| s |> whole fun s =>
    let d := s.die die
    let used := (d.fqProd + 65536 - d.fqCons) % 65536
    if !d.fqEn || decide (d.fqLog2n < 4) || decide (12 < d.fqLog2n) || decide (2 ^ d.fqLog2n ≤ used) then s
    else
      match s.nextCopy die with
      | none => s
      | some (core, i, e) =>
        let s := s.agentWrite (d.fqBase + 32 * (d.fqProd % 2 ^ d.fqLog2n)) (e.bytes core i)
        let s := s.editCore core fun k => { k with fbuf := Map.edit k.fbuf i fun e => { e with copied := true } }
        let s := s.editDie die fun d => { d with fqProd := (d.fqProd + 1) % 65536 }
        if used = 0 then s.sendMsix d.fqVec else s

/-- The fragments parked on a core's entry, resident and evicted. -/
def State.joined (s : State) (core : Nat) (e : FbEntry) : List FragRef :=
  (s.units ++ s.evicted).flatMap fun p =>
    if ((Map.look s.launches p.2.launch).map (·.ctx)) = some e.ctx then
      p.2.warps.flatMap fun w => (w.2.frags.filter fun x => x.2.status = .parkedFault && match x.2.frec with
        | some r => r.await.contains (core, e.range)
        | none => false).map fun x => ⟨p.1, w.1, x.1⟩
    else []

/-- The transfers of a core's units that wait for an entry. -/
def State.waitingJobs (s : State) (core : Nat) (e : FbEntry) : List (Nat × Job) :=
  if e.src = 3 then []
  else
    s.units.flatMap fun p =>
      if p.2.core = core && s.ctxOf p.1 = e.ctx then
        (p.2.jobs.filter fun j => (j.waitVa.map (· / 131072)) = some (e.va / 131072)).map fun j => (p.1, j)
      else []

/-- Free an entry; a post that waits for room takes its place in order (R351). -/
def State.freeFb (s : State) (core i : Nat) : State :=
  let s := s.editCore core fun k => { k with fbuf := Map.del k.fbuf i }
  match (s.core core).fwait with
  | [] => s
  | e :: es => (s.editCore core fun k => { k with fwait := es }).postFbs core [e]

/-- The driver answers an entry: it is freed, and what is still parked on it goes on. -/
def State.answerFb (s : State) (die c i : Nat) (frag : State → FragRef → State) (job : State → Nat × Job → State) : State :=
  let core := 96 * die + c
  match Map.look (s.core core).fbuf i with
  | none => s
  | some e =>
    if 96 ≤ c then s
    else
      let fs := s.joined core e
      let js := s.waitingJobs core e
      js.foldl job (fs.foldl (fun s f => s.onUnit f.unit fun s => frag s f) (s.freeFb core i))

/-- The driver answers Retry (event DIE_FQACK_RETRY; R353). -/
def execDieFqackRetry (die c i : Nat) : Meaning := fun s =>
  .next <| s |> wholeImaged fun s =>
    s.answerFb die c i State.resumeFault fun s p => s.editJob p.1 p.2.op fun j => { j with waitVa := none }

/-- A parked fragment is handed to its context's trap handler with its record (R353): it no longer waits for the driver. -/
def State.handOver (s : State) (f : FragRef) : State :=
  match (s.frag? f).bind (·.frec) with
  | none => s
  | some r =>
    let s := s.editFrag f fun x => { x with frec := x.frec.map fun r => { r with await := [] } }
    { s with posts := s.posts ++ [.frag f r.serial] }

/-- The driver answers Fail (event DIE_FQACK_FAIL; R353). -/
def execDieFqackFail (die c i : Nat) : Meaning := fun s =>
  .next <| s |> wholeImaged fun s =>
    s.answerFb die c i State.handOver fun s p =>
      (s.editJob p.1 p.2.op fun j => { j with failed := true }).failJob p.1 { p.2 with failed := true } 0x16

/-! ### Invalidation (R347, R350) -/

/-- DEV_TLBI_CMD takes a command with the range that DEV_TLBI_VA holds: ignored while BUSY, which sets ERR. -/
def State.tlbi (s : State) (scope ctx npages : Nat) : State :=
  s.editDev fun d =>
    if d.tlbiBusy then { d with tlbiErr := true }
    else { d with tlbiBusy := true, tlbiScope := scope, tlbiCtx := ctx % 4096, tlbiN := npages % 2 ^ 24, tlbiBase := d.tlbiVa }

/-- SCOPE 0 (event TLBI_RANGE). -/
def execTlbiRange (ctx npages : Nat) : Meaning := fun s => .next (s.tlbi 0 ctx npages)
/-- SCOPE 1 (event TLBI_CONTEXT): the NPAGES that the write stores has no effect, and is free. -/
def execTlbiContext (ctx : Nat) : Meaning := fun s =>
  .next (({ s with freeIx := s.freeIx + 1 } : State).tlbi 1 ctx (Config.freeNat s.freeIx))
/-- SCOPE 2 (event TLBI_ALL): the CTX and NPAGES that the write stores have no effect, and are free. -/
def execTlbiAll : Meaning := fun s =>
  .next (({ s with freeIx := s.freeIx + 2 } : State).tlbi 2 (Config.freeNat s.freeIx) (Config.freeNat (s.freeIx + 1)))

/-- The invalidation in progress covers a page of a context. -/
def Dev.tlbiHits (d : Dev) (ctx base size : Nat) : Bool :=
  let lo := d.tlbiBase.toNat / 131072 * 131072
  match d.tlbiScope with
  | 0 => ctx = d.tlbiCtx && decide (base < lo + 131072 * d.tlbiN) && decide (lo < base + size)
  | 1 => ctx = d.tlbiCtx
  | _ => true

/-- An access in flight uses a translation, or an export entry, that the invalidation removes; a write held at a locked line does not count,
since it is translated again. -/
def State.tlbiUses (s : State) (ctx : Nat) (i : Item) : Bool :=
  !i.done && i.locs.any fun l => match l with
    | .phys pa _ c _ g => s.dev.tlbiHits c g.base g.size && !(writes i.kind && s.migLocked pa)
    | .peer _ _ _ _ => decide (1 ≤ s.dev.tlbiScope) && s.dev.tlbiHits ctx 0 0
    | _ => false

/-- An open transaction has words in a page whose translation goes; one with words in a locked source has them moved at SWITCH. -/
def State.tlbiTx (s : State) (un : KUnit) (ctx : Nat) : Bool :=
  (Map.vals un.warps).any fun w => (Map.vals w.txn).any fun x =>
    x.st = .opened && x.pages.any (fun g => s.dev.tlbiHits ctx g.1 g.2.1) &&
      !((Map.keys x.rset ++ Map.keys x.wset).any fun k => s.migLocked (4 * k))

/-- A BOARD whose home was found through a page is still queued or unanswered, or a transfer holds a pinned translation of one. -/
def State.tlbiHeld (s : State) : Bool :=
  (s.units.any fun p => p.2.jobs.any fun j => j.pins.any fun l => s.dev.tlbiHits (s.ctxOf p.1) l.vbase l.size)
    || ((Map.vals s.cores).any fun k => k.station.any fun o =>
      o.kind = .board && o.ths.any fun x => s.dev.tlbiHits o.ctx x.vpage.1 x.vpage.2)
    || (Map.vals s.beads).any fun b => b.st = .boarding && s.dev.tlbiHits b.ctx b.vpage.1 b.vpage.2

/-- No access can use what the invalidation removes any longer: the entries are gone, and BUSY clears (event TLBI_COMPLETE). -/
def execTlbiComplete : Meaning := fun s =>
  .next <|
    if !s.dev.tlbiBusy || s.tlbiHeld || s.units.any fun p =>
        (p.2.ops.any fun o => o.items.any (s.tlbiUses (s.ctxOf p.1))) || s.tlbiTx p.2 (s.ctxOf p.1) then s
    else
      let d := s.dev
      { s with
        dies := Map.each s.dies fun _ v =>
          { v with
            tlb := v.tlb.filter fun e => !(d.tlbiHits e.ctx e.leaf.vbase e.leaf.size)
            exports := if d.tlbiScope = 0 then v.exports else v.exports.filter fun p => !(d.tlbiHits p.1 0 0) }
        dev := { d with tlbiBusy := false } }

/-! ### Migration (R358 to R360) -/

/-- Size of a page by SIZE (Table 12.2). -/
def pageSize (z : Nat) : Nat := 2 ^ (17 + [0, 4, 9, 0].getD z 0)

/-- DIE_MIG_CMD GO (event MIGRATION_GO; R358, R359): errors, a ring-held line, then the source is locked. SIZE is a field of its own, which the
write stores also where STATE ignores its GO. -/
def execMigrationGo (die size : Nat) : Meaning := fun s =>
  .next <|
    let d := s.die die
    let n := pageSize size
    if 2 ≤ die then s
    else if d.migState ≠ 0 && d.migState ≠ 4 && d.migState ≠ 5 then s.editDie die fun d => { d with migSizeReg := size % 4 }
    else
      let s := s.editDie die fun d =>
        { d with migSizeReg := size % 4, migSize := size % 4, migSrc := d.migSrcReg, migDst := d.migDstReg }
      let d := s.die die
      if decide (3 ≤ size) || d.migSrc % n ≠ 0 || d.migDst % n ≠ 0 || meets (d.migSrc, n) (d.migDst, n) || !(s.installed d.migSrc)
          || !(s.installed d.migDst) then s.editDie die fun d => { d with migState := 5 }
      else if s.ringHeld.any fun p => decide (d.migSrc ≤ 64 * p.1) && decide (64 * p.1 < d.migSrc + n) then
        s.editDie die fun d => { d with migState := 4 }
      else
        let s := s.combine d.migSrc n
        let s := (wordsOf d.migSrc n).foldl (fun s w => s.unregister w true) s
        (s.recallWatches (sectorsOf d.migSrc n) none).editDie die fun d => { d with migState := 2 }

/-- The tags of a range carried to another. -/
def copyTags (old new : NSet) (src dst n : Nat) : NSet :=
  (List.range (n / 16)).foldl (fun q i => if NSet.has old (src / 16 + i) then NSet.add q (dst / 16 + i) else q) new

/-- The contexts that own those tags. -/
def copyTagBy (old new : Map Nat) (src dst n : Nat) : Map Nat :=
  (List.range (n / 16)).foldl (fun m i => match Map.look old (src / 16 + i) with
    | some c => Map.put m (dst / 16 + i) c
    | none => m) new

/-- The copy of data, tags and poison marks is made (event MIGRATION_COPY_DONE). No core keeps a copy of what the frame held before. -/
def execMigrationCopyDone (die : Nat) : Meaning := fun s =>
  .next <| s |> whole fun s =>
    let d := s.die die
    let n := pageSize d.migSize
    if d.migState ≠ 1 && d.migState ≠ 2 then s
    else
      let t := s
      let s := (s.agentWrite d.migDst (s.bytes d.migSrc n)).dropCopies d.migDst n
      let s : State := { s with
        poison := copyPoison s.poison d.migSrc d.migDst n, tags := copyTags t.tags s.tags d.migSrc d.migDst n
        tagBy := copyTagBy t.tagBy s.tagBy d.migSrc d.migDst n }
      s.editDie die fun d => { d with migState := 3 }

/-- An item that waits at the source of a die's migration. -/
def Die.holds (d : Die) (i : Item) : Bool :=
  !i.done && writes i.kind && i.locs.any fun l => match l with
    | .phys pa _ _ _ _ => decide (d.migSrc ≤ pa) && decide (pa < d.migSrc + pageSize d.migSize)
    | _ => false

/-- Translate a byte again, as an access of a core's. -/
def State.again (s : State) (die : Nat) : ByteLoc → Option ByteLoc
  | .phys _ _ c va _ => match s.leafOf die c va with
    | .ok l => some (.phys (l.pa va) l.kind c va l.use)
    | .error _ => none
  | l => some l

/-- Every held write is translated again by its issuer (R360); one that no longer translates faults. -/
def State.retranslate (s : State) (d : Die) : State :=
  let held := s.units.flatMap fun p => p.2.ops.flatMap fun o => (o.items.filter d.holds).map fun i => (p.1, o.id, i)
  held.foldl (fun s x =>
    match s.unit? x.1 with
    | none => s
    | some un =>
      match x.2.2.locs.mapM (s.again (dieOf un.core)) with
      | some locs =>
        s.editUnit x.1 fun un => un.editOp x.2.1 fun o => { o with items := o.items.map fun i => if i = x.2.2 then { i with locs := locs } else i }
      | none =>
        let fb := match x.2.2.locs with
          | .phys _ _ c v _ :: _ => [fbLane c v (kindBits x.2.2.kind) 0 0 (match s.leafOf (dieOf un.core) c v with
            | .error m => m
            | .ok _ => false)]
          | _ => []
        (s.editUnit x.1 fun un => un.editOp x.2.1 fun o => if o.items.contains x.2.2 then o.fail x.2.2 0x16 0 fb else o).settle x.1 x.2.1) s

/-- The virtual address of a word of a transaction's sets: it lies in one of the pages they use. -/
def Txn.vaOf (x : Txn) (k : Nat) : Option Nat :=
  (x.pages.find? fun g => decide (g.2.2 ≤ 4 * k) && decide (4 * k < g.2.2 + g.2.1)).map fun g => g.1 + (4 * k - g.2.2)

/-- A word of a transaction's sets, translated again where it lies in the source of a migration (R360); nothing where no translation is found. -/
def State.wordAgain (s : State) (d : Die) (die ctx : Nat) (x : Txn) (k : Nat) : Option Nat :=
  if d.migSrc ≤ 4 * k ∧ 4 * k < d.migSrc + pageSize d.migSize then
    match x.vaOf k with
    | none => some k
    | some va => match s.leafOf die ctx va with
      | .ok l => some (l.pa va / 4)
      | .error _ => none
  else some k

/-- A transaction with its words where they now lie, and a virtual address of it that is no longer mapped. A word without a translation stays. -/
def State.txnAgain (s : State) (d : Die) (die ctx : Nat) (x : Txn) : Txn × Option Nat :=
  let go (k : Nat) : Nat := (s.wordAgain d die ctx x k).getD k
  let page (g : Nat × Nat × Nat) : Nat × Nat × Nat := match s.leafOf die ctx g.1 with
    | .ok l => if d.migSrc ≤ g.2.2 ∧ g.2.2 < d.migSrc + pageSize d.migSize then (l.vbase, l.size, l.frame) else g
    | .error _ => g
  ({ x with
      rset := x.rset.foldl (fun m p => Map.put m (go p.1) p.2) [], wset := x.wset.foldl (fun m p => Map.put m (go p.1) p.2) []
      pages := x.pages.map page },
    ((Map.keys x.rset ++ Map.keys x.wset).find? fun k => (s.wordAgain d die ctx x k).isNone).bind x.vaOf)

/-- The threads of the TENDs of a warp that have still to commit. -/
def KUnit.tends (un : KUnit) (w : Nat) : List Op := un.ops.filter fun o => o.warp = w && o.kind = .tend && !o.done

/-- The transactions of a thread are translated again (R360). A commit that the lock holds and that finds no translation faults its thread at TEND,
as a held write's thread does. -/
def State.threadAgain (s : State) (d : Die) (u w t : Nat) : State :=
  match s.unit? u with
  | none => s
  | some un =>
    let x := s.tx u w t
    if x.st ≠ .opened then s
    else
      let r := s.txnAgain d (dieOf un.core) (s.ctxOf u) x
      match r.2, (un.tends w).find? fun o => o.mask.getLsbD t && s.commitHeld u o with
      | some va, some o =>
        let b : Bad :=
          { Bad.of 0x16 (BitVec.ofNat 64 va) (bit t) with
            fb := [fbLane (s.ctxOf u) va (kindBits .store) 0 0 (match s.leafOf (dieOf un.core) (s.ctxOf u) va with
              | .error m => m
              | .ok _ => false)] }
        (s.editUnit u fun un => un.editOp o.id fun o => o.drop t).postLate u w ⟨some o.at_, [b]⟩
      | _, _ => s.setTx u w t r.1

/-- Every transaction with words in the source. -/
def State.txnsAgain (s : State) (d : Die) : State :=
  let keys := s.units.flatMap fun p => p.2.warps.flatMap fun w => (Map.keys w.2.txn).map fun t => (p.1, w.1, t)
  keys.foldl (fun s k => s.threadAgain d k.1 k.2.1 k.2.2) s

/-- SWITCH (event MIGRATION_SWITCH; R360): the locks go, and what they held goes to DST. -/
def execMigrationSwitch (die : Nat) : Meaning := fun s =>
  .next <|
    let d := s.die die
    if d.migState ≠ 3 then s
    else
      ((s.retranslate d).txnsAgain d).editDie die fun d => { d with migState := 0 }

/-- The undefined contents of a migration's target after an ABORT: each granule is free bytes without a tag, or has been copied whole. -/
def State.halfCopy (s : State) (src dst n : Nat) : State :=
  let at0 := s.freeIx
  let copied (i : Nat) : Bool := Config.freeBit (at0 + i)
  let bytes := (List.range n).map fun j => if copied (j / 16) then s.byte (src + j) else Config.freeByte (at0 + n / 16 + j)
  let kept (g : Nat) : Bool := decide (src / 16 ≤ g) && decide (g < (src + n) / 16) && copied (g - src / 16)
  let t := s.tags.filter kept
  let y := s.tagBy.filter fun p => kept p.1
  let s := (({ s with freeIx := at0 + n / 16 + n } : State).agentWrite dst bytes).dropCopies dst n
  { s with tags := copyTags t s.tags src dst n, tagBy := copyTagBy y s.tagBy src dst n }

/-- ABORT (event MIGRATION_ABORT; R360): the locks go, held writes perform at the source, and DST is undefined. -/
def execMigrationAbort (die : Nat) : Meaning := fun s =>
  .next <| s |> whole fun s =>
    let d := s.die die
    if decide (1 ≤ d.migState) && decide (d.migState ≤ 3) then
      (s.halfCopy d.migSrc d.migDst (pageSize d.migSize)).editDie die fun d => { d with migState := 0 }
    else s

/-! ### Routing (R361) -/

/-- A load window ends (event NOC_WINDOW_EXPIRY): `imbalance` is how far, in percent, the busiest link's load exceeded the mean. -/
def execNocWindowExpiry (die imbalance : Nat) : Meaning := fun s =>
  .next <|
    if 2 ≤ die then s
    else
      s.editDie die fun d =>
        let t := max d.nocThresh 1
        { d with nocMode := if imbalance < t then false else if d.nocRand && decide (t < imbalance) then true else d.nocMode }

/-! ### Peer packets (R365 to R367) -/

/-- What one access of a packet does at this module: the state, the value it returns, and the cause with which its thread faults, 0 for none; the
value is then the bead number of a ring-held line (R349, R379). -/
def State.peerAccess (s : State) (ctx : Nat) (a : PeerAccess) : State × BitVec 128 × Nat :=
  match s.leafAny ctx a.va with
  | .error _ => (s, 0, 0x19)
  | .ok l =>
    let pa := l.pa a.va
    if (reads a.kind && !l.rd) || (writes a.kind && !l.wr) then (s, 0, 0x19)
    else
      match s.ringBead pa with
      | some b => (s, BitVec.ofNat 128 b, 0x18)
      | none =>
        if (reads a.kind || isRmw a.kind) && s.poisoned pa a.size then (s, 0, 0x19)
        else
          let bs := leBytes a.size a.data.toNat
          match a.kind with
          | .load => let r := s.homeRead pa a.size; (r.1, BitVec.ofNat 128 (leNat r.2), 0)
          | .loadCap => let r := s.homeRead pa a.size; (r.1, BitVec.ofNat 128 (leNat r.2), 0)
          | .store => (s.homeWrite none none pa bs false, 0, 0)
          | .storeCap => (s.homeWrite none none pa bs false, 0, 0)
          | .atom op => let r := s.rmwHome none none pa op a.size (a.data.setWidth 64) a.cmp; (r.1, r.2.zeroExtend 128, 0)
          | .red op => let r := s.rmwHome none none pa op a.size (a.data.setWidth 64) 0; (r.1, 0, 0)

/-- An access of a packet waits at its line. -/
def State.peerBusy (s : State) (ctx : Nat) (a : PeerAccess) : Bool :=
  match s.leafAny ctx a.va with
  | .ok l => s.lineBusy none (l.pa a.va) (s.wouldWrite a.kind (l.pa a.va) a.size a.cmp)
  | .error _ => false

/-- Perform a packet and acknowledge each of its accesses. -/
def State.performPacket (s : State) (p : PeerPacket) : State :=
  p.accs.foldl (fun s a =>
    let r := s.peerAccess p.ctx a
    { r.1 with out := r.1.out ++ [.peerAck p.dev p.die p.seqNo a.thread r.2.1 r.2.2] }) s

/-- Perform buffered packets of a sending die in sequence order (R366). -/
def State.drainPeer (s : State) (key : Nat) : Nat → State
  | 0 => s
  | fuel + 1 =>
    let x := Map.lookD s.peerRx key ⟨0, []⟩
    match x.buf.find? fun p => p.seqNo = x.next with
    | none => s
    | some p =>
      if p.accs.any (s.peerBusy p.ctx) then s
      else
        ({ s with peerRx := Map.put s.peerRx key { next := x.next + 1, buf := x.buf.filter fun q => q.seqNo ≠ p.seqNo } } : State).performPacket p
          |>.drainPeer key fuel

/-- A packet of a peer's die arrives (event PEER_PACKET_ARRIVAL): it waits for its turn; what can perform performs. -/
def execPeerPacketArrival (p : PeerPacket) : Meaning := fun s =>
  .next <|
    if decide (2048 ≤ p.dev) || decide (2 ≤ p.die) then s
    else
      let key := 2 * p.dev + p.die
      let x := Map.lookD s.peerRx key ⟨0, []⟩
      let buf := if p.seqNo < x.next || x.buf.any (fun q => q.seqNo = p.seqNo) then x.buf else x.buf ++ [p]
      ({ s with peerRx := Map.put s.peerRx key { x with buf := buf } } : State).drainPeer key (buf.length + 1)

/-- A peer acknowledges one access of a thread (event PEER_ACK; R366), packets in sending order. A cause other than 0 faults the thread at check
9 or 10 (R349). -/
def execPeerAck (u op t : Nat) (val : BitVec 128) (cause : Nat) : Meaning := fun s =>
  .next <|
    match s.unit? u with
    | none => s
    | some un =>
      match un.op? op with
      | none => s
      | some o =>
        match o.items.find? fun i => i.thread = t && !i.done with
        | none => s
        | some i =>
          match i.locs with
          | .peer dev _ _ q :: _ =>
            let die := dieOf un.core
            if !(mayPerform un.ops o i) || (s.unacked die dev).any (fun k => decide (k < q)) || NSet.has s.dev.lostSet dev then s
            else if cause = 0x18 || cause = 0x19 then
              (s.editUnit u fun un => un.editOp op fun o => o.fail i cause (if cause = 0x18 then val.toNat % 512 else 0) []).settle u op
            else if cause ≠ 0 then s
            else
              let s := if reads i.kind then s.deliver u o i (leBytes i.locs.length val.toNat) false else s
              ((s.acquired un.core o i).editUnit u fun un => un.editOp op fun o => o.mark i).settle u op
          | _ => s

/-! ### Peer loss and quiesce (R368) -/

/-- The next part of an operation that goes to a device and has not performed. -/
def Op.lostItem (o : Op) (dev : Nat) : Option Item :=
  o.items.find? fun i => !i.done && match i.locs with
    | .peer d _ _ _ :: _ => d = dev
    | _ => false

/-- The threads of an operation whose accesses to a device did not perform fault with *partition quiesce*, ADDR being the device's number. -/
def Op.lose (dev : Nat) : Nat → Op → Op
  | 0, o => o
  | n + 1, o => match o.lostItem dev with
    | some i => Op.lose dev n (o.failAt i 0x3A 0 (BitVec.ofNat 64 dev) [])
    | none => o

/-- The contexts of this module, each with the core that posts for it: those with a unit, resident or saved, or a launch, and those whose trap
entry is usable. DESIGN CHOICE (log entry 42): core 0 posts for one without a unit. -/
def State.contextsHere (s : State) : List (Nat × Nat) :=
  let at0 (p : Nat × KUnit) : Nat × Nat := (((Map.look s.launches p.2.launch).map (·.ctx)).getD 0, p.2.core)
  let all := (s.units ++ s.evicted).map at0 ++ s.launches.map (fun p => (p.2.ctx, 0)) ++
    if s.dev.trapEn then
      ((span 1 4095).filter fun c => ((s.trapEntry c).map (·.usable)).getD false).map fun c => (c, 0)
    else []
  all.foldl (fun l x => if l.any fun y => y.1 = x.1 then l else l ++ [x]) []

/-- One unit record for each context: its trap handler is entered with the lost device's number. -/
def State.postLoss (s : State) (dev : Nat) : State :=
  s.contextsHere.foldl (fun s x =>
    let k := s.core x.2
    ({ s with posts := s.posts ++ [.unit x.2 0x3A false 0 x.1 0 (BitVec.ofNat 64 dev) 0 0 k.serial] } : State).editCore x.2 fun k =>
      { k with serial := k.serial + 1#16 }) s

/-- This module quiesces over a lost device, once until QUIESCED is cleared (Table 12.12, steps 1 to 5). -/
def State.quiesce (s : State) (dev : Nat) : State :=
  if NSet.has s.dev.lostSet dev then s
  else
    let s := s.editDev fun d => { d with quiesced := true, lostSet := NSet.add d.lostSet dev }
    let s := (s.units.flatMap fun p => p.2.ops.map fun o => (p.1, o.id)).foldl (fun s x =>
      (s.editUnit x.1 fun un => un.editOp x.2 (Op.lose dev 32)).settle x.1 x.2) s
    s.postLoss dev

/-- A peer is lost (event PEER_LOSS): LOST and LOSTDEV, the report to the fabric manager, then the quiesce. -/
def execPeerLoss (dev : Nat) : Meaning := fun s =>
  .next <|
    if 2048 ≤ dev then s
    else
      let s := s.editDev fun d => if d.lost then d else { d with lost := true, lostDev := dev }
      ({ s with out := s.out ++ [.peerLost dev] } : State).quiesce dev

/-- The fabric manager's quiesce arrives (event QUIESCE_RECEIVED). -/
def execQuiesceReceived (dev : Nat) : Meaning := fun s => .next (if 2048 ≤ dev then s else s.quiesce dev)

/-- The fabric manager clears QUIESCED (event QUIESCE_CLEAR; Table 12.12, step 6). -/
def execQuiesceClear : Meaning := fun s => .next (s.editDev fun d => { d with quiesced := false, lost := false, lostSet := [] })

end Sys2Proof.Machine
end

