-- ==== Sys2Proof/Machine/Fp.lean ====
section
/-! DEFINITION. Lane floating-point arithmetic and conversions (04 R120 to R128). -/
namespace Sys2Proof.Machine

/-- A 32-bit register from a patterned result. -/
def fOut (c : Ctx) (d : Reg) (r : FRes) : Out := ⟨c.wr d (BitVec.ofNat 32 r.1), [], r.2⟩

/-- A floating-point word of two register sources. -/
def fbin (d a b : Reg) (f : Nat → Nat → FRes) : Meaning :=
  Alu.run
    { use := [opV d, opV a, opV b], ps := [], words := 1, passes := 1, int := false
      srcs := fun c => [c.tagV a, c.tagV b], tag := fun c => tagAll [c.tagV a, c.tagV b]
      out := fun c t => fOut c d (f (c.rd a t).toNat (c.rd b t).toNat) }

/-- A floating-point word that also reads vd (R98). -/
def facc (d a b : Reg) (f : Nat → Nat → Nat → FRes) : Meaning :=
  Alu.run
    { use := [opV d, opV a, opV b], ps := [], words := 1, passes := 1, int := false
      srcs := fun c => [c.tagV d, c.tagV a, c.tagV b], tag := fun c => tagAll [c.tagV d, c.tagV a, c.tagV b]
      out := fun c t => fOut c d (f (c.rd d t).toNat (c.rd a t).toNat (c.rd b t).toNat) }

/-- A floating-point word of one source. -/
def fun1 (d a : Reg) (f : Nat → FRes) : Meaning :=
  Alu.run
    { use := [opV d, opV a], ps := [], words := 1, passes := 1, int := false
      srcs := fun c => [c.tagV a], tag := fun c => tagAll [c.tagV a]
      out := fun c t => fOut c d (f (c.rd a t).toNat) }

def execFaddF32 (m : RMode) (d a b : Reg) : Meaning := fbin d a b (f32.add m)
def execFmulF32 (m : RMode) (d a b : Reg) : Meaning := fbin d a b (f32.mul m)
def execFfmaF32 (m : RMode) (d a b : Reg) : Meaning := facc d a b fun z x y => f32.fma m false false x y z
def execFfmaNpF32 (m : RMode) (d a b : Reg) : Meaning := facc d a b fun z x y => f32.fma m true false x y z
def execFfmaNcF32 (m : RMode) (d a b : Reg) : Meaning := facc d a b fun z x y => f32.fma m false true x y z
def execFfmaNpcF32 (m : RMode) (d a b : Reg) : Meaning := facc d a b fun z x y => f32.fma m true true x y z

/-- A floating-point word whose b operand may be a literal. -/
def fbinO (d a : Reg) (b : Opd) (f : Nat → Nat → FRes) : Meaning :=
  Alu.run
    { use := opV d :: opV a :: opdV b, ps := [], words := opdWords b, passes := 1, int := false
      srcs := fun c => c.tagV a :: c.tagO b, tag := tag2 a b
      out := fun c t => fOut c d (f (c.rd a t).toNat (c.rdO b t).toNat) }

def execFminF32 (d a : Reg) (b : Opd) : Meaning := fbinO d a b f32.min
def execFmaxF32 (d a : Reg) (b : Opd) : Meaning := fbinO d a b f32.max

/-- FSET (R123): a signalling NaN source raises invalid. -/
def execFsetF32 (m : PredMode) (d : PredReg) (cc : FCmp) (a : Reg) (b : Opd) : Meaning :=
  Alu.run
    { use := opV a :: opdV b, ps := [d], words := opdWords b, passes := 1, int := false
      srcs := fun c => c.tagV a :: c.tagO b ++ predSrcs m d c, tag := fun _ => .general
      out := fun c t =>
        let x := f32.val (c.rd a t).toNat
        let y := f32.val (c.rdO b t).toNat
        ⟨[], [(d, predPut m (c.w.pred d t) (fcmpHolds cc x y))], nvIf (x.isSnan || y.isSnan)⟩ }

/-- FCLASS (R124). -/
def execFclassF32 (d a : Reg) : Meaning := fun1 d a fun x => (fclass x, nvIf (f32.val x).isSnan)
def execFrndF32 (m : RMode) (d a : Reg) : Meaning := fun1 d a (frnd m)
def execFrcpF32 (m : RMode) (d a : Reg) : Meaning := fun1 d a (frcp m)
def execFrsqF32 (m : RMode) (d a : Reg) : Meaning := fun1 d a (frsq m)
def execFsqrtF32 (m : RMode) (d a : Reg) : Meaning := fun1 d a (fsqrt m)
def execFex2F32 (m : RMode) (d a : Reg) : Meaning := fun1 d a (fex2 m)
def execFlg2F32 (m : RMode) (d a : Reg) : Meaning := fun1 d a (flg2 m)
def execFsinF32 (m : RMode) (d a : Reg) : Meaning := fun1 d a (fsin m)
def execFcosF32 (m : RMode) (d a : Reg) : Meaning := fun1 d a (fcos m)
def execFtanhF32 (m : RMode) (d a : Reg) : Meaning := fun1 d a (ftanh m)

/-- Elements 0 and 1 of a paired register (R72). -/
def lo16 (x : Nat) : Nat := x % 65536
def hi16 (x : Nat) : Nat := x / 65536 % 65536
/-- A pair of element results: exceptions are ORed (R126, R81). -/
def pair16 (e0 e1 : FRes) : FRes := (e0.1 + 65536 * e1.1, e0.2 ||| e1.2)

def execHadd2Bf16x2 (m : RMode) (d a b : Reg) : Meaning :=
  fbin d a b fun x y => pair16 (bf16.add m (lo16 x) (lo16 y)) (bf16.add m (hi16 x) (hi16 y))
def execHadd2F16x2 (m : RMode) (d a b : Reg) : Meaning :=
  fbin d a b fun x y => pair16 (f16.add m (lo16 x) (lo16 y)) (f16.add m (hi16 x) (hi16 y))
def execHmul2Bf16x2 (m : RMode) (d a b : Reg) : Meaning :=
  fbin d a b fun x y => pair16 (bf16.mul m (lo16 x) (lo16 y)) (bf16.mul m (hi16 x) (hi16 y))
def execHmul2F16x2 (m : RMode) (d a b : Reg) : Meaning :=
  fbin d a b fun x y => pair16 (f16.mul m (lo16 x) (lo16 y)) (f16.mul m (hi16 x) (hi16 y))
def execHfma2Bf16x2 (m : RMode) (d a b : Reg) : Meaning :=
  facc d a b fun z x y =>
    pair16 (bf16.fma m false false (lo16 x) (lo16 y) (lo16 z)) (bf16.fma m false false (hi16 x) (hi16 y) (hi16 z))
def execHfma2F16x2 (m : RMode) (d a b : Reg) : Meaning :=
  facc d a b fun z x y =>
    pair16 (f16.fma m false false (lo16 x) (lo16 y) (lo16 z)) (f16.fma m false false (hi16 x) (hi16 y) (hi16 z))

/-! ### Conversions (R81 to R84, R127, R128) -/

def execFcvtF32F16 (d a : Reg) : Meaning := fun1 d a fun x => fcvt f16 f32 .rn (lo16 x)
def execFcvtF32Bf16 (d a : Reg) : Meaning := fun1 d a fun x => fcvt bf16 f32 .rn (lo16 x)
def execFcvtF16F32 (m : RMode) (d a : Reg) : Meaning := fun1 d a (fcvt f32 f16 m)
def execFcvtBf16F32 (m : RMode) (d a : Reg) : Meaning := fun1 d a (fcvt f32 bf16 m)
def execFcvtF16Bf16 (m : RMode) (d a : Reg) : Meaning := fun1 d a fun x => fcvt bf16 f16 m (lo16 x)
def execFcvtBf16F16 (m : RMode) (d a : Reg) : Meaning := fun1 d a fun x => fcvt f16 bf16 m (lo16 x)
def execFcvtF16x2F32 (m : RMode) (d a b : Reg) : Meaning := fbin d a b fun x y => pair16 (fcvt f32 f16 m x) (fcvt f32 f16 m y)
def execFcvtBf16x2F32 (m : RMode) (d a b : Reg) : Meaning := fbin d a b fun x y => pair16 (fcvt f32 bf16 m x) (fcvt f32 bf16 m y)

/-- FCVT from an integer of w low bits of the source register. -/
def fromInt (m : RMode) (signed : Bool) (w : Nat) (x : Nat) : FRes :=
  icvt m (if signed then (BitVec.ofNat w x).toInt else ((BitVec.ofNat w x).toNat : Int))

def execFcvtF32I32 (m : RMode) (d a : Reg) : Meaning := fun1 d a (fromInt m true 32)
def execFcvtF32N32 (m : RMode) (d a : Reg) : Meaning := fun1 d a (fromInt m false 32)

/-- FCVT from a 64-bit integer pair. -/
def fcvtFrom64 (m : RMode) (signed : Bool) (d a : Reg) : Meaning :=
  Alu.run
    { use := [opV d, opP a], ps := [], words := 1, passes := 1, int := false
      srcs := fun c => c.tagP a, tag := fun c => tagAll (c.tagP a)
      out := fun c t => fOut c d (fromInt m signed 64 (c.rdP a t).toNat) }
def execFcvtF32I64 (m : RMode) (d a : Reg) : Meaning := fcvtFrom64 m true d a
def execFcvtF32N64 (m : RMode) (d a : Reg) : Meaning := fcvtFrom64 m false d a

/-- FCVT to an integer type of w bits, extended to 32 bits as the type is signed or unsigned (R82). -/
def toInt32 (m : RMode) (signed : Bool) (w : Nat) (x : Nat) : FRes :=
  let r := if signed then fcvtInt m (-(2 ^ (w - 1))) (2 ^ (w - 1) - 1) x else fcvtInt m 0 (2 ^ w - 1) x
  ((BitVec.ofInt 32 r.1).toNat, r.2)

def execFcvtI32F32 (m : RMode) (d a : Reg) : Meaning := fun1 d a (toInt32 m true 32)
def execFcvtN32F32 (m : RMode) (d a : Reg) : Meaning := fun1 d a (toInt32 m false 32)
def execFcvtI16F32 (m : RMode) (d a : Reg) : Meaning := fun1 d a (toInt32 m true 16)
def execFcvtN16F32 (m : RMode) (d a : Reg) : Meaning := fun1 d a (toInt32 m false 16)
def execFcvtI8F32 (m : RMode) (d a : Reg) : Meaning := fun1 d a (toInt32 m true 8)
def execFcvtN8F32 (m : RMode) (d a : Reg) : Meaning := fun1 d a (toInt32 m false 8)

/-- FCVT to a 64-bit integer pair. -/
def fcvtTo64 (m : RMode) (signed : Bool) (d a : Reg) : Meaning :=
  Alu.run
    { use := [opP d, opV a], ps := [], words := 1, passes := 1, int := false
      srcs := fun c => [c.tagV a], tag := fun c => tagAll [c.tagV a]
      out := fun c t =>
        let r := if signed then fcvtInt m (-(2 ^ 63)) (2 ^ 63 - 1) (c.rd a t).toNat else fcvtInt m 0 (2 ^ 64 - 1) (c.rd a t).toNat
        ⟨c.wrP d (BitVec.ofInt 64 r.1), [], r.2⟩ }
def execFcvtI64F32 (m : RMode) (d a : Reg) : Meaning := fcvtTo64 m true d a
def execFcvtN64F32 (m : RMode) (d a : Reg) : Meaning := fcvtTo64 m false d a

def execFcvtF32I16 (d a : Reg) : Meaning := fun1 d a (fromInt .rn true 16)
def execFcvtF32N16 (d a : Reg) : Meaning := fun1 d a (fromInt .rn false 16)
def execFcvtF32I8 (d a : Reg) : Meaning := fun1 d a (fromInt .rn true 8)
def execFcvtF32N8 (d a : Reg) : Meaning := fun1 d a (fromInt .rn false 8)

end Sys2Proof.Machine
end

