-- ==== Sys2Proof/Machine/Hash.lean ====
section
/-! DEFINITION. The hash functions that 17 R440 to R443 name: SHA-384 and SHA-512 of FIPS 180-4, and the sponge of FIPS 202 under ML-DSA and
Ed25519. The spec fixes them by name only: PRESUMED from the standards (log entry 8). -/
namespace Sys2Proof.Machine

/-! ### SHA-512 and SHA-384 (FIPS 180-4) -/

/-- Bytes as a number, most significant first. -/
def beNat (l : List Byte) : Nat := l.foldl (fun n b => 256 * n + b.toNat) 0

/-- The low bytes of a number, most significant first. -/
def beBytes (n x : Nat) : List Byte := (leBytes n x).reverse

/-- The largest number of `n` bits whose k-th power is at most x. -/
def rootOf (k x : Nat) : Nat → Nat
  | 0 => 0
  | n + 1 => let r := 2 * rootOf k (x / 2 ^ k) n; if (r + 1) ^ k ≤ x then r + 1 else r

/-- The first primes. -/
def primes (n : Nat) : List Nat :=
  ((List.range 410).filter fun p => decide (2 ≤ p) && (List.range p).all fun d => decide (d < 2) || p % d ≠ 0).take n

/-- The first 64 bits of the fractional part of a k-th root. -/
def rootFrac (k p : Nat) : BitVec 64 := BitVec.ofNat 64 (rootOf k (p * 2 ^ (64 * k)) 72)

/-- The constants K of the rounds. -/
def sha512K : List (BitVec 64) := (primes 80).map (rootFrac 3)

/-- The initial hash values. -/
def sha512Init : List (BitVec 64) := (primes 8).map (rootFrac 2)
def sha384Init : List (BitVec 64) := ((primes 16).drop 8).map (rootFrac 2)

/-- The message with its padding. -/
def shaPad (m : List Byte) : List Byte := m ++ [0x80#8] ++ List.replicate ((239 - m.length % 128) % 128) 0#8 ++ beBytes 16 (8 * m.length)

/-- A list in pieces of n, of which there are `fuel` at the most. -/
def pieces {α : Type} (n : Nat) : Nat → List α → List (List α)
  | 0, _ => []
  | fuel + 1, l => if l.isEmpty then [] else l.take n :: pieces n fuel (l.drop n)

/-- The message schedule of a block: newest word first. -/
def shaSchedule : Nat → List (BitVec 64) → List (BitVec 64)
  | 0, w => w
  | n + 1, w =>
    let x (i : Nat) : BitVec 64 := w.getD (i - 1) 0
    let s0 := (x 15).rotateRight 1 ^^^ (x 15).rotateRight 8 ^^^ (x 15) >>> 7
    let s1 := (x 2).rotateRight 19 ^^^ (x 2).rotateRight 61 ^^^ (x 2) >>> 6
    shaSchedule n ((s1 + x 7 + s0 + x 16) :: w)

/-- One round on the eight working variables. -/
def shaRound (v : List (BitVec 64)) (kw : BitVec 64 × BitVec 64) : List (BitVec 64) :=
  match v with
  | [a, b, c, d, e, f, g, h] =>
    let t1 := h + (e.rotateRight 14 ^^^ e.rotateRight 18 ^^^ e.rotateRight 41) + ((e &&& f) ^^^ (~~~e &&& g)) + kw.1 + kw.2
    let t2 := (a.rotateRight 28 ^^^ a.rotateRight 34 ^^^ a.rotateRight 39) + ((a &&& b) ^^^ (a &&& c) ^^^ (b &&& c))
    [t1 + t2, a, b, c, d + t1, e, f, g]
  | l => l

/-- One block. -/
def shaBlock (h : List (BitVec 64)) (b : List Byte) : List (BitVec 64) :=
  let w := (pieces 8 16 b).map fun x => BitVec.ofNat 64 (beNat x)
  let v := (sha512K.zip (shaSchedule 64 w.reverse).reverse).foldl shaRound h
  (h.zip v).map fun p => p.1 + p.2

/-- The hash of a message from an initial value. -/
def sha2 (init : List (BitVec 64)) (m : List Byte) : List Byte :=
  let l := shaPad m
  ((pieces 128 (l.length / 128) l).foldl shaBlock init).flatMap fun w => beBytes 8 w.toNat

def sha512 (m : List Byte) : List Byte := sha2 sha512Init m
def sha384 (m : List Byte) : List Byte := (sha2 sha384Init m).take 48

/-! ### SHAKE128 and SHAKE256 (FIPS 202) -/

/-- One step of the linear feedback shift register of the round constants. -/
def keccakLfsr (r : Nat) : Nat := if 128 ≤ r then (2 * r) % 256 ^^^ 0x71 else 2 * r

/-- The register after a number of steps. -/
def keccakBit : Nat → Nat
  | 0 => 1
  | n + 1 => keccakLfsr (keccakBit n)

/-- The constant of a round. -/
def keccakRC (i : Nat) : BitVec 64 :=
  (List.range 7).foldl (fun c j => if keccakBit (j + 7 * i) % 2 = 1 then c ||| 1#64 <<< (2 ^ j - 1) else c) 0

/-- Where the t-th step of rho and pi stands. -/
def keccakWalk : Nat → Nat × Nat
  | 0 => (1, 0)
  | t + 1 => let p := keccakWalk t; (p.2, (2 * p.1 + 3 * p.2) % 5)

/-- The rotation of lane (x, y). -/
def keccakRot (x y : Nat) : Nat :=
  match (List.range 24).find? fun t => keccakWalk t = (x, y) with
  | some t => (t + 1) * (t + 2) / 2 % 64
  | none => 0

/-- The rotations, by x + 5y. -/
def keccakRots : List Nat := (List.range 25).map fun i => keccakRot (i % 5) (i / 5)

/-- One round on the lanes, by x + 5y. -/
def keccakRound (rots : List Nat) (a : List (BitVec 64)) (rc : BitVec 64) : List (BitVec 64) :=
  let at0 (l : List (BitVec 64)) (x y : Nat) : BitVec 64 := l.getD (x % 5 + 5 * (y % 5)) 0
  let c := (List.range 5).map fun x => at0 a x 0 ^^^ at0 a x 1 ^^^ at0 a x 2 ^^^ at0 a x 3 ^^^ at0 a x 4
  let d := (List.range 5).map fun x => c.getD ((x + 4) % 5) 0 ^^^ (c.getD ((x + 1) % 5) 0).rotateLeft 1
  let a := (List.range 25).map fun i => a.getD i 0 ^^^ d.getD (i % 5) 0
  -- lane (x, y) after pi is lane (x + 3y, x) before it
  let b := (List.range 25).map fun i =>
    let x := (i % 5 + 3 * (i / 5)) % 5
    let y := i % 5
    (at0 a x y).rotateLeft (rots.getD (x + 5 * y) 0)
  let e := (List.range 25).map fun i => at0 b (i % 5) (i / 5) ^^^ (~~~(at0 b (i % 5 + 1) (i / 5)) &&& at0 b (i % 5 + 2) (i / 5))
  match e with
  | x :: t => (x ^^^ rc) :: t
  | [] => []

/-- Keccak-f[1600]. -/
def keccakF (a : List (BitVec 64)) : List (BitVec 64) := ((List.range 24).map keccakRC).foldl (keccakRound keccakRots) a

/-- The message padded for a rate, in bytes, with the suffix of SHAKE. -/
def shakePad (rate : Nat) (m : List Byte) : List Byte :=
  let n := rate - m.length % rate
  m ++ if n = 1 then [0x9F#8] else 0x1F#8 :: List.replicate (n - 2) 0#8 ++ [0x80#8]

/-- Absorb the blocks of a message. -/
def absorb (rate : Nat) (m : List Byte) : List (BitVec 64) :=
  let l := shakePad rate m
  (pieces rate (l.length / rate) l).foldl (fun a b =>
    let w := (pieces 8 25 b).map fun x => BitVec.ofNat 64 (leNat x)
    keccakF ((List.range 25).map fun i => a.getD i 0 ^^^ w.getD i 0)) (List.replicate 25 0)

/-- Squeeze n blocks. -/
def squeeze (rate : Nat) : Nat → List (BitVec 64) → List Byte
  | 0, _ => []
  | n + 1, a => ((a.flatMap fun w => leBytes 8 w.toNat).take rate) ++ squeeze rate n (keccakF a)

/-- n bytes of SHAKE256, and of SHAKE128. -/
def shake256 (m : List Byte) (n : Nat) : List Byte := (squeeze 136 ((n + 135) / 136) (absorb 136 m)).take n
def shake128 (m : List Byte) (n : Nat) : List Byte := (squeeze 168 ((n + 167) / 168) (absorb 168 m)).take n

end Sys2Proof.Machine
end

