-- ==== Sys2Proof/Machine/Ed25519.lean ====
section
/-! DEFINITION. Pure Ed25519 (RFC 8032), which 17 R440 to R443 name: keys, signatures, verification. The spec fixes it by name only: PRESUMED from
the standard (log entry 8). -/
namespace Sys2Proof.Machine

/-- The field's prime. -/
def edP : Nat := 2 ^ 255 - 19

/-- The order of the base point. -/
def edL : Nat := 2 ^ 252 + 27742317777372353535851937790883648493

/-- A power modulo m, over the low `fuel` bits of the exponent. -/
def powMod (m x : Nat) : Nat → Nat → Nat
  | 0, _ => 1 % m
  | fuel + 1, e =>
    let r := powMod m (x * x % m) fuel (e / 2)
    if e % 2 = 1 then r * x % m else r

/-- Arithmetic in the field. -/
def fpow (x e : Nat) : Nat := powMod edP (x % edP) 256 e
def finv (x : Nat) : Nat := fpow x (edP - 2)
def fsub (a b : Nat) : Nat := (a + (edP - b % edP)) % edP

/-- The curve's constant d, and a square root of -1. -/
def edD : Nat := fsub 0 (121665 * finv 121666)
def edI : Nat := fpow 2 ((edP - 1) / 4)

/-- A point in extended coordinates: x = X/Z, y = Y/Z, xy = T/Z. -/
structure EdPoint where
  x : Nat
  y : Nat
  z : Nat
  t : Nat
  deriving DecidableEq, Repr

/-- The neutral point. -/
def EdPoint.zero : EdPoint := ⟨0, 1, 1, 0⟩

/-- Addition. -/
def EdPoint.add (p q : EdPoint) : EdPoint :=
  let a := fsub p.y p.x * fsub q.y q.x % edP
  let b := (p.y + p.x) * (q.y + q.x) % edP
  let c := 2 * p.t * q.t % edP * edD % edP
  let d := 2 * p.z * q.z % edP
  let e := fsub b a
  let f := fsub d c
  let g := (d + c) % edP
  let h := (b + a) % edP
  ⟨e * f % edP, g * h % edP, f * g % edP, e * h % edP⟩

/-- A multiple, over the low `fuel` bits of the scalar. -/
def EdPoint.mul (p : EdPoint) : Nat → Nat → EdPoint
  | 0, _ => .zero
  | fuel + 1, n =>
    let q := (p.add p).mul fuel (n / 2)
    if n % 2 = 1 then q.add p else q

/-- Two points are one. -/
def EdPoint.same (p q : EdPoint) : Bool := p.x * q.z % edP = q.x * p.z % edP && p.y * q.z % edP = q.y * p.z % edP

/-- The x of a y and a sign, where there is one. -/
def edX (y sign : Nat) : Option Nat :=
  let u := fsub (y * y) 1
  let v := (edD * (y * y % edP) + 1) % edP
  let x := u * fpow v 3 % edP * fpow (u * fpow v 7 % edP) ((edP - 5) / 8) % edP
  let r := v * (x * x % edP) % edP
  let root := if r = u then some x else if r = fsub 0 u then some (x * edI % edP) else none
  root.bind fun x => if x = 0 && sign = 1 then none else some (if x % 2 = sign then x else fsub 0 x)

/-- A point from its 32 bytes. -/
def edDecode (b : List Byte) : Option EdPoint :=
  let n := leNat (b.take 32)
  let y := n % 2 ^ 255
  if b.length ≠ 32 || decide (edP ≤ y) then none else (edX y (n / 2 ^ 255)).map fun x => ⟨x, y, 1, x * y % edP⟩

/-- The 32 bytes of a point. -/
def edEncode (p : EdPoint) : List Byte :=
  let i := finv p.z
  leBytes 32 (p.y * i % edP + p.x * i % edP % 2 * 2 ^ 255)

/-- The base point. -/
def edBase : EdPoint :=
  let y := 4 * finv 5 % edP
  let x := (edX y 0).getD 0
  ⟨x, y, 1, x * y % edP⟩

/-- The scalar and the prefix of a private key. -/
def edSecret (sk : List Byte) : Nat × List Byte :=
  let h := sha512 sk
  (leNat (h.take 32) % 2 ^ 254 / 8 * 8 + 2 ^ 254, h.drop 32)

/-- The public key of a private key. -/
def ed25519Public (sk : List Byte) : List Byte := edEncode (edBase.mul 256 (edSecret sk).1)

/-- The signature of a message under a private key. -/
def ed25519Sign (sk m : List Byte) : List Byte :=
  let k := edSecret sk
  let r := leNat (sha512 (k.2 ++ m)) % edL
  let enc := edEncode (edBase.mul 256 r)
  let c := leNat (sha512 (enc ++ ed25519Public sk ++ m)) % edL
  enc ++ leBytes 32 ((r + c * k.1) % edL)

/-- Verification: public key, message, signature. DESIGN CHOICE (log entry 8): of the two group equations that RFC 8032 allows, the one with the
cofactor. -/
def ed25519Verify (pk m sig : List Byte) : Bool :=
  match edDecode pk, edDecode (sig.take 32) with
  | some a, some r =>
    let s := leNat (sig.drop 32)
    let c := leNat (sha512 (sig.take 32 ++ pk ++ m)) % edL
    sig.length = 64 && decide (s < edL) && ((edBase.mul 256 s).mul 4 8).same ((r.add (a.mul 256 c)).mul 4 8)
  | _, _ => false

end Sys2Proof.Machine
end

