-- ==== Sys2Proof/Machine/MlDsa.lean ====
section
/-! DEFINITION. Pure ML-DSA-65 (FIPS 204), which 17 R440 to R443 name: keys, signatures, verification. The spec fixes it by name only: PRESUMED
from the standard (log entry 8). A polynomial is the list of its 256 coefficients, as integers modulo q in [0, q) unless a function says
otherwise. -/
namespace Sys2Proof.Machine.MlDsa

/-! ### Parameters (FIPS 204, Table 1) -/

def q : Nat := 8380417
/-- Rows and columns of A. -/
def k : Nat := 6
def l : Nat := 5
def gamma1 : Nat := 2 ^ 19
def gamma2 : Nat := (q - 1) / 32
def tau : Nat := 49
def eta : Nat := 4
def beta : Nat := tau * eta
def omega : Nat := 55

abbrev Poly := List Nat

/-! ### Polynomials -/

/-- The polynomial with given coefficients. -/
def poly (f : Nat → Nat) : Poly := (List.range 256).map f

def padd (a b : Poly) : Poly := List.zipWith (fun x y => (x + y) % q) a b
def psub (a b : Poly) : Poly := List.zipWith (fun x y => (x + (q - y)) % q) a b
/-- The product of two transforms. -/
def pmul (a b : Poly) : Poly := List.zipWith (fun x y => x * y % q) a b

/-- The bits of a byte reversed. -/
def rev8 (i : Nat) : Nat := (List.range 8).foldl (fun n j => 2 * n + i / 2 ^ j % 2) 0

/-- The powers of the 512-th root of unity. -/
def zetas : Array Nat := ((List.range 512).foldl (fun (a : Array Nat × Nat) _ => (a.1.push a.2, a.2 * 1753 % q)) (#[], 1)).1

/-- The transform: the values at the odd powers ζ^(2·rev8(i)+1). -/
def ntt (w : Poly) : Poly :=
  poly fun i =>
    let e := 2 * rev8 i + 1
    (w.foldl (fun (s : Nat × Nat) x => ((s.1 + x * zetas.getD (s.2 % 512) 0) % q, s.2 + e)) (0, 0)).1

/-- Its inverse. -/
def nttInv (w : Poly) : Poly :=
  let ws := w.zip ((List.range 256).map fun i => 512 - (2 * rev8 i + 1))
  poly fun j => (ws.foldl (fun s p => (s + p.1 * zetas.getD (p.2 * j % 512) 0) % q) 0) * 8347681 % q

/-- The representative of x modulo a nearest to zero. -/
def modPm (x a : Nat) : Int := let r := x % a; if 2 * r ≤ a then (r : Int) else (r : Int) - a

/-- An integer modulo q. -/
def ofInt (x : Int) : Nat := (x % q).toNat

/-- The absolute value of a coefficient. -/
def absq (x : Nat) : Nat := (modPm x q).natAbs

/-- Every coefficient of a list of polynomials is less than b in absolute value. -/
def below (b : Nat) (v : List Poly) : Bool := v.all fun p => p.all fun x => decide (absq x < b)

/-! ### Rounding (FIPS 204, 7.4) -/

/-- Power2Round. -/
def power2Round (r : Nat) : Nat × Int := let r0 := modPm r 8192; (((r : Int) - r0).toNat / 8192, r0)

/-- Decompose. -/
def decompose (r : Nat) : Nat × Int :=
  let r0 := modPm r (2 * gamma2)
  if (r : Int) - r0 = (q : Int) - 1 then (0, r0 - 1) else (((r : Int) - r0).toNat / (2 * gamma2), r0)

def highBits (r : Nat) : Nat := (decompose r).1

/-- MakeHint. -/
def makeHint (z r : Nat) : Bool := highBits r ≠ highBits ((r + z) % q)

/-- UseHint. -/
def useHint (h : Bool) (r : Nat) : Nat :=
  let d := decompose r
  if h then (if 0 < d.2 then (d.1 + 1) % 16 else (d.1 + 15) % 16) else d.1

/-! ### Encodings (FIPS 204, 7.1 and 7.2) -/

/-- Numbers of n bits each as bytes. -/
def packBits (n : Nat) (p : List Nat) : List Byte := leBytes (n * p.length / 8) (p.foldr (fun x a => x + 2 ^ n * a) 0)

/-- The m numbers of n bits in some bytes. -/
def unpackBits (n m : Nat) (b : List Byte) : List Nat := let x := leNat b; (List.range m).map fun i => x / 2 ^ (n * i) % 2 ^ n

/-- Coefficients in [-a, b] as n-bit numbers b - x, and back. -/
def packFrom (n b : Nat) (p : Poly) : List Byte := packBits n (p.map fun x => ((b : Int) - modPm x q).toNat)
def unpackFrom (n b : Nat) (s : List Byte) : Poly := (unpackBits n 256 s).map fun x => ofInt ((b : Int) - x)

/-- HintBitPack. -/
def packHint (h : List (List Bool)) : List Byte :=
  let at1 (p : List Bool) : List Nat := (List.range 256).filter fun i => p.getD i false
  let y := h.flatMap at1
  let ends := (List.range k).map fun i => ((h.take (i + 1)).flatMap at1).length
  ((y ++ List.replicate (omega - y.length) 0) ++ ends).map fun x => BitVec.ofNat 8 x

/-- HintBitUnpack; nothing where the bytes are malformed. -/
def unpackHint (b : List Byte) : Option (List (List Bool)) :=
  let y := (b.take omega).map (·.toNat)
  let ends := (b.drop omega).map (·.toNat)
  let lo (i : Nat) : Nat := if i = 0 then 0 else ends.getD (i - 1) 0
  let run (i : Nat) : List Nat := (y.take (ends.getD i 0)).drop (lo i)
  let rising (l : List Nat) : Bool := (l.zip (l.drop 1)).all fun p => decide (p.1 < p.2)
  if (List.range k).all (fun i => decide (lo i ≤ ends.getD i 0) && decide (ends.getD i 0 ≤ omega) && rising (run i))
      && (y.drop (ends.getD (k - 1) 0)).all (· = 0) then
    some ((List.range k).map fun i => (List.range 256).map fun j => (run i).contains j)
  else none

/-! ### Sampling (FIPS 204, 7.3) -/

/-- A bound on the bytes of SHAKE output that a rejection sampler reads: beyond it lies a chance of less than 2⁻²⁵⁶. -/
def sampleBytes : Nat := 1680

/-- Triples of a list. -/
def triples : List Byte → List (Byte × Byte × Byte)
  | a :: b :: c :: t => (a, b, c) :: triples t
  | _ => []

/-- RejNTTPoly. -/
def rejNtt (seed : List Byte) : Poly :=
  ((triples (shake128 seed sampleBytes)).filterMap fun t =>
    let z := t.1.toNat + 256 * t.2.1.toNat + 65536 * (t.2.2.toNat % 128)
    if z < q then some z else none).take 256

/-- RejBoundedPoly. -/
def rejBounded (seed : List Byte) : Poly :=
  (((shake256 seed sampleBytes).flatMap fun b => [b.toNat % 16, b.toNat / 16]).filterMap fun (z : Nat) =>
    if z < 9 then some (ofInt ((eta : Int) - (z : Int))) else none).take 256

/-- ExpandA, by rows. -/
def expandA (rho : List Byte) : List (List Poly) :=
  (List.range k).map fun r => (List.range l).map fun s => rejNtt (rho ++ leBytes 1 s ++ leBytes 1 r)

/-- ExpandS. -/
def expandS (rho : List Byte) : List Poly × List Poly :=
  ((List.range l).map fun r => rejBounded (rho ++ leBytes 2 r), (List.range k).map fun r => rejBounded (rho ++ leBytes 2 (r + l)))

/-- ExpandMask. -/
def expandMask (rho : List Byte) (mu : Nat) : List Poly :=
  (List.range l).map fun r => unpackFrom 20 gamma1 (shake256 (rho ++ leBytes 2 (mu + r)) 640)

/-- The inner loop of SampleInBall: the coefficient i of the τ last, with what is left of the hash. -/
def inBall (signs : Nat) : Nat → Poly → List Byte → Poly
  | 0, c, _ => c
  | n + 1, c, h =>
    let i := 255 - n
    match h.dropWhile fun b => decide (i < b.toNat) with
    | [] => c
    | j :: t => inBall signs n ((c.set i (c.getD j.toNat 0)).set j.toNat (if signs / 2 ^ (i + tau - 256) % 2 = 1 then q - 1 else 1)) t

/-- SampleInBall. -/
def sampleInBall (rho : List Byte) : Poly :=
  let h := shake256 rho sampleBytes
  inBall (leNat (h.take 8)) tau (List.replicate 256 0) (h.drop 8)

/-! ### Keys, signatures, verification (FIPS 204, 6) -/

/-- The product of A and a vector of transforms. -/
def mulA (a : List (List Poly)) (v : List Poly) : List Poly :=
  a.map fun row => (row.zip v).foldl (fun s p => padd s (pmul p.1 p.2)) (poly fun _ => 0)

/-- The key pair of a seed, private key first. -/
def keyPair (xi : List Byte) : List Byte × List Byte :=
  let h := shake256 (xi ++ leBytes 1 k ++ leBytes 1 l) 128
  let rho := h.take 32
  let s := expandS ((h.drop 32).take 64)
  let t := List.zipWith padd ((mulA (expandA rho) (s.1.map ntt)).map nttInv) s.2
  let pk := rho ++ t.flatMap fun p => packBits 10 (p.map fun x => (power2Round x).1)
  (rho ++ h.drop 96 ++ shake256 pk 64 ++ (s.1 ++ s.2).flatMap (packFrom 4 eta)
    ++ t.flatMap (fun p => packFrom 13 4096 (p.map fun x => ofInt (power2Round x).2)), pk)

/-- The bytes of w1. -/
def w1Encode (w : List Poly) : List Byte := w.flatMap (packBits 4)

/-- Attempts at a signature: the counter κ rises by l with each. -/
def attempts (a : List (List Poly)) (mu rho : List Byte) (s1 s2 t0 : List Poly) : Nat → Nat → List Byte
  | 0, _ => []
  | fuel + 1, kappa =>
    let y := expandMask rho kappa
    let w := (mulA a (y.map ntt)).map nttInv
    let c0 := shake256 (mu ++ w1Encode (w.map fun p => p.map highBits)) 48
    let c := ntt (sampleInBall c0)
    let times (v : List Poly) : List Poly := v.map fun p => nttInv (pmul c p)
    let z := List.zipWith padd y (times s1)
    let r := List.zipWith psub w (times s2)
    let ct0 := times t0
    let neg (p : Poly) : Poly := p.map fun x => (q - x) % q
    let hint := List.zipWith (fun z r => List.zipWith makeHint z r) (ct0.map neg) (List.zipWith padd r ct0)
    if below (gamma1 - beta) z && (r.all fun p => p.all fun x => decide ((decompose x).2.natAbs < gamma2 - beta)) && below gamma2 ct0
        && decide ((hint.map fun p => (p.filter id).length).sum ≤ omega) then
      c0 ++ z.flatMap (packFrom 20 gamma1) ++ packHint hint
    else attempts a mu rho s1 s2 t0 fuel (kappa + l)

/-- The message of a pure signature with an empty context string. -/
def pureMessage (m : List Byte) : List Byte := [0#8, 0#8] ++ m

/-- The signature of a message under a private key, with 32 random bytes. The standard bounds no attempts: after 1,000, which comes about with a
chance of less than 2⁻²⁵⁶, there is none. -/
def sign (sk m rnd : List Byte) : List Byte :=
  let part (o n : Nat) : List Byte := (sk.drop o).take n
  let vec (o n w b : Nat) : List Poly := (List.range n).map fun i => ntt (unpackFrom w b (part (o + 32 * w * i) (32 * w)))
  let mu := shake256 (part 64 64 ++ pureMessage m) 64
  attempts (expandA (part 0 32)) mu (shake256 (part 32 32 ++ rnd ++ mu) 64) (vec 128 l 4 eta) (vec (128 + 128 * l) k 4 eta)
    (vec (128 + 128 * (l + k)) k 13 4096) 1000 0

/-- Verification: public key, message, signature. -/
def verify (pk m sig : List Byte) : Bool :=
  let c0 := sig.take 48
  let z := (List.range l).map fun i => unpackFrom 20 gamma1 ((sig.drop (48 + 640 * i)).take 640)
  match unpackHint (sig.drop (48 + 640 * l)) with
  | none => false
  | some h =>
    let t1 := (List.range k).map fun i => unpackBits 10 256 ((pk.drop (32 + 320 * i)).take 320)
    let c := ntt (sampleInBall c0)
    let az := mulA (expandA (pk.take 32)) (z.map ntt)
    let w := List.zipWith (fun x t => nttInv (psub x (pmul c (ntt (t.map (· * 8192)))))) az t1
    let w1 := List.zipWith (fun h p => List.zipWith useHint h p) h w
    pk.length = 1952 && sig.length = 3309 && below (gamma1 - beta) z
      && c0 = shake256 (shake256 (shake256 pk 64 ++ pureMessage m) 64 ++ w1Encode w1) 48

end Sys2Proof.Machine.MlDsa
end

