-- ==== Sys2Proof/Machine/HostPort.lean ====
section
/-! DEFINITION. Host access to device memory through BAR4, boot, attestation and power (17 R436 to R445). -/
namespace Sys2Proof.Machine

/-! ### BAR4 (R436, R437, R441) -/

/-- Bytes of the staging buffer. -/
def stagingSize : Nat := 67108864

/-- A host write through BAR4 (event HOST_BAR4_WRITE): into the staging buffer before stage 4 and in recovery; else at the holder's slice, where a
locked line makes it wait. Bytes with no memory behind them are ignored. -/
def execHostBar4Write (off : Nat) (bs : List Byte) : Meaning := fun s =>
  .next <|
    if s.dev.stage ≠ 4 then
      if off + bs.length ≤ stagingSize then s.editDev fun d => { d with staging := putBytes d.staging off bs } else s
    else if 2 ^ s.dev.bar4 < off + bs.length then s
    else
      let pa := s.dev.hwin + off
      let pas := span pa bs.length
      if pas.any fun a => s.lineBusy none a true then s
      else if pas.all s.installed then s.homeWrite none none pa bs false
      else
        (List.range bs.length).foldl (fun s i =>
          if s.installed (pa + i) then s.homeWrite none none (pa + i) [bs.getD i 0#8] false else s) s

/-- The slice's value of a byte: its own where the word is registered and not written back (R297, R437). -/
def State.sliceByte (s : State) (pa : Nat) : Byte :=
  if !s.installed pa then 0#8
  else if (Map.look s.regOwner (pa / 4)).isSome then Map.lookD s.slice pa (s.byte pa)
  else s.byte pa

/-- A host read through BAR4 (event HOST_BAR4_READ): partials are combined first; the data goes to the host. -/
def execHostBar4Read (off n : Nat) : Meaning := fun s =>
  .next <|
    if s.dev.stage ≠ 4 then
      { s with out := s.out ++ [.barData off ((span off n).map fun i => if i < stagingSize then Map.lookD s.dev.staging i 0#8 else 0#8)] }
    else if 2 ^ s.dev.bar4 < off + n then s
    else
      let pa := s.dev.hwin + off
      if (span pa n).any fun a => s.lineBusy none a false then s
      else
        let s := if n = 0 then s else s.combine pa n
        { s with out := s.out ++ [.barData off ((span pa n).map s.sliceByte)] }

/-- The host resizes BAR4 to 2^log2 bytes (event BAR4_RESIZE; R436): the bits of BASE below the size clear. -/
def execBar4Resize (log2 : Nat) : Meaning := fun s =>
  .next <|
    if 28 ≤ log2 ∧ log2 ≤ 39 then s.editDev fun d => { d with bar4 := log2, hwin := d.hwin / 2 ^ log2 * 2 ^ log2 } else s

/-! ### Signed images (R440, Table 17.6) -/

/-- Header fields of an image. -/
structure Signed where
  magic : Nat
  kind : Nat
  svn : Nat
  len : Nat
  rsv : Nat
  keys : List Byte
  edpk : List Byte
  edsig : List Byte
  mlpk : List Byte
  mlsig : List Byte
  message : List Byte
  body : List Byte
  deriving DecidableEq, Repr

/-- Read an image. -/
def Signed.of (b : List Byte) : Signed :=
  let p (o n : Nat) : List Byte := (b.drop o).take n
  let len := leNat (p 8 4)
  { magic := leNat (p 0 4), kind := leNat (p 4 2), svn := leNat (p 6 2), len := len, rsv := leNat (p 0x0C 52) + leNat (p 0x152D 3)
    keys := p 0x40 (32 + 1952), edpk := p 0x40 32, mlpk := p 0x60 1952, edsig := p 0x800 64, mlsig := p 0x840 3309
    message := p 0 0x40 ++ p 0x1530 len, body := p 0x1530 len }

/-- The length of an image in bytes. -/
def Signed.size (x : Signed) : Nat := 0x1530 + x.len

/-- ERRC of an image of a KIND against a floor (R440, Table 17.5), 0 where it is accepted. -/
def Signed.errc (x : Signed) (kind floor have0 : Nat) : Nat :=
  if sha384 x.keys ≠ beBytes 48 Config.rootKeyHash.toNat then 3
  else if x.magic ≠ 0x4D495856 || x.kind ≠ kind || x.rsv ≠ 0 || decide (67108864 < x.len) || decide (have0 < x.size)
      || !(ed25519Verify x.edpk x.message x.edsig) || !(MlDsa.verify x.mlpk x.message x.mlsig) then kind
  else if x.svn < floor then 4
  else 0

/-- ERRC of an image in flash. -/
def flashErrc (b : List Byte) (kind floor : Nat) : Nat := (Signed.of b).errc kind floor b.length

/-! ### Reset, boot, recovery (R9, R439, R441) -/

/-- Power-on reset: every module-span item is lost but the two signed images in flash, of which the configuration record holds the retirement map
(R9). What has gone out has gone out; the schedule of moves and the number of the next free choice are the model's own. -/
def State.powerOn (s : State) : State :=
  { State.reset with
    sched := s.sched, freeIx := s.freeIx, out := s.out
    dev := { Dev.reset with
      flashCfg := s.dev.flashCfg, flashFw := s.dev.flashFw, cfgFloor := s.dev.cfgFloor, mapCores := s.dev.mapCores, mapSlices := s.dev.mapSlices
      mapPorts := s.dev.mapPorts } }

/-- Event POWER_ON_RESET. -/
def execPowerOnReset : Meaning := fun s => .next s.powerOn

/-- Event POWER_OFF (R9): the device stands still until the next power-on reset. -/
def execPowerOff : Meaning := fun s => .next (s.powerOn.editDev fun d => { d with halted := true })

/-- Installed memory: per die 192 GiB of HBM4 and 1 TiB of DDR-5 (R2). -/
def installedMemory : List Region :=
  [{ base := 0, size := 192 * 2 ^ 30, die := 0 }, { base := 2 ^ 40, size := 192 * 2 ^ 30, die := 1 }, { base := 2 ^ 42, size := 2 ^ 40, die := 0 },
   { base := 2 ^ 43, size := 2 ^ 40, die := 1 }]

/-- Recovery with an error code. -/
def Dev.recover (d : Dev) (errc : Nat) : Dev := { d with stage := 15, errc := errc }

/-- The body of the configuration record. -/
def Dev.record (d : Dev) : List Byte := (Signed.of d.flashCfg).body

/-- The floor that the configuration record in flash holds for a KIND (R440). -/
def Dev.floor (d : Dev) (kind : Nat) : Nat := Config.recordFloor d.record kind

/-- The identity that a configuration record's body gives (R442): the seed and the private keys come from it by derivations that the spec leaves open. -/
def identityOf (body : List Byte) : Identity :=
  let seed := Config.identitySeed (Config.recordSecret body Config.pufKey)
  let ed := leBytes 32 (Config.ed25519Secret seed).toNat
  let ml := MlDsa.keyPair (leBytes 32 (Config.mlDsaSeed seed).toNat)
  ⟨seed, ed, ed25519Public ed, ml.1, ml.2⟩

/-- A verifier accepts the identity when both signatures of the record's certificate over both public keys verify (R442). -/
def Dev.identityAccepted (d : Dev) : Bool :=
  let keys := d.identity.edPub ++ d.identity.mlPub
  let cert := Config.recordCertificate d.record
  ed25519Verify Config.vexlekKeys.1 keys cert.1 && MlDsa.verify Config.vexlekKeys.2 keys cert.2

/-- What stage 1 takes from an accepted configuration record: the retirement map (R432, R433), the slices that serve
(R354), identity (R442). -/
def Dev.loadRecord (d : Dev) : Dev :=
  Dev.judge { d with
    stage := 2, identity := identityOf d.record
    retCores := d.mapCores, retSlices := d.mapSlices, retPorts := d.mapPorts, offSlices := d.mapSlices }

/-- A boot stage ends (event BOOT_STAGE_COMPLETE; Table 17.4): the verification of stages 1 and 2 decides there, `ok` says whether memory trained
at stage 3. -/
def execBootStageComplete (ok : Bool) : Meaning := fun s =>
  .next <|
    let d := s.dev
    match d.stage with
    | 0 => s.editDev fun d => { d with stage := 1 }
    | 1 =>
      let e := flashErrc d.flashCfg 1 d.cfgFloor
      if e = 0 then s.raiseErr Dev.loadRecord else s.editDev fun d => d.recover e
    | 2 =>
      let e := flashErrc d.flashFw 2 (d.floor 2)
      s.editDev fun d => if e = 0 then { d with stage := 3, fwsvn := (Signed.of d.flashFw).svn } else d.recover e
    | 3 =>
      if ok then ({ s with mem := [], tags := [], tagBy := [], poison := [], memMap := installedMemory } : State).editDev fun d => { d with stage := 4 }
      else s.editDev fun d => d.recover 5
    | _ => s

/-- Numbers of a list below a bound, as a set. -/
def setOf (l : List Nat) (n : Nat) : NSet := (l.filter fun x => decide (x < n)).foldl NSet.add []

/-- An accepted image replaces its KIND in flash; a configuration record brings its retirement map, and is held to the floor of the record it
replaces (R440). -/
def Dev.install (d : Dev) (img : List Byte) (x : Signed) : Dev :=
  if x.kind = 1 then
    { d with
      flashCfg := img, cfgFloor := d.floor 1, mapCores := setOf (Config.recordCores x.body) 192, mapSlices := setOf (Config.recordSlices x.body) 384
      mapPorts := setOf (Config.recordPorts x.body) 36 }
  else { d with flashFw := img }

/-- COMMIT (event BOOT_COMMIT; R441): in recovery the staged image is verified; accepted, it goes to flash and the device resets. -/
def execBootCommit : Meaning := fun s =>
  .next <|
    if s.dev.stage ≠ 15 then s
    else
      let b (n : Nat) : List Byte := (span 0 n).map fun i => Map.lookD s.dev.staging i 0#8
      let x := Signed.of (b (0x1530 + leNat (((span 8 4).map fun i => Map.lookD s.dev.staging i 0#8))))
      let kind := if x.kind = 1 then 1 else 2
      let e := x.errc kind (s.dev.floor kind) stagingSize
      if e = 0 then (s.editDev fun d => d.install (b x.size) x).powerOn else s.editDev fun d => { d with errc := e }

/-! ### Attestation (R443) -/

/-- GO (event ATTEST_GO): the nonce, DEV_HEALTH and %time are taken as they stand. -/
def execAttestGo : Meaning := fun s =>
  .next <|
    s.editDev fun d =>
      if d.attBusy then { d with attErr := true }
      else
        { d with
          attBusy := true, attNonce := (span 0 32).map fun i => Map.lookD d.nonce i 0#8, attHealth := BitVec.ofNat 64 d.health
          attTime := s.time }

/-- A list of bytes of a given length. -/
def padTo (n : Nat) (l : List Byte) : List Byte := (List.range n).map fun i => l.getD i 0#8

/-- The report of Table 17.7, signed under both identity keys; ML-DSA takes 32 random bytes. -/
def Dev.makeReport (d : Dev) (rnd : List Byte) : List Byte :=
  let cfg := Signed.of d.flashCfg
  let now := Config.recordBytes d.flashCfg d.mapCores d.mapSlices d.mapPorts
  let m := leBytes 4 0x52415856 ++ leBytes 4 3629 ++ padTo 32 d.attNonce ++ leBytes 16 (Config.recordSerial cfg.body).toNat
    ++ sha384 d.flashFw ++ sha384 now ++ leBytes 4 d.fwsvn ++ leBytes 4 cfg.svn
    ++ leBytes 16 0x0FFFFFFF ++ leBytes 8 d.attHealth.toNat ++ leBytes 8 d.attTime.toNat ++ leBytes 8 (d.reports + 1) ++ leBytes 56 0
  m ++ ed25519Sign d.identity.edPriv m ++ padTo 3309 (MlDsa.sign d.identity.mlPriv m rnd)

/-- The report is ready (event ATTEST_COMPLETE). -/
def execAttestComplete : Meaning := fun s =>
  .next <|
    if s.dev.attBusy then
      let r := s.freeBytes 32
      (r.1.editDev fun d => { d with report := d.makeReport r.2, reports := d.reports + 1, attBusy := false }).sendMsix s.dev.attVec
    else s

/-! ### Power (R445) -/

/-- The clock drops by 100 MHz, to 700 at the least (event THROTTLE_STEP_DOWN), for a die's temperature or for power. -/
def execThrottleStepDown (thermal : Bool) : Meaning := fun s =>
  .next <| s.editDev fun d =>
    { d with clk := max (d.clk - 100) 700, therm := d.therm || thermal, plim := d.plim || !thermal }

/-- The cause has cleared, and the clock rises, by a number of steps that the spec leaves open (event THROTTLE_RECOVERY); at 1,400 MHz nothing is
throttled. -/
def execThrottleRecovery : Meaning := fun s =>
  .next <|
    let left := (1400 - s.dev.clk) / 100
    let clk := s.dev.clk + 100 * (1 + Config.freeNat s.freeIx % max left 1)
    if left = 0 then s
    else
      ({ s with freeIx := s.freeIx + 1 } : State).editDev fun d =>
        { d with clk := clk, therm := d.therm && decide (clk < 1400), plim := d.plim && decide (clk < 1400) }

/-- At 115 °C every clock stops (event THERMAL_SHUTDOWN). -/
def execThermalShutdown : Meaning := fun s => .next (s.editDev fun d => { d with halted := true })

end Sys2Proof.Machine
end

