-- ==== Sys2Proof/Machine/LaunchWord.lean ====
section
/-! DEFINITION. Device launch (07 R259 to R262): LNCH, LCANCEL, LJOIN. -/
namespace Sys2Proof.Machine

/-- Checks 1 to 5 on the capability of a launch instruction: `need` permissions over `size` bytes of global space, at a multiple of 64. -/
def Ctx.launchCap (c : Ctx) (s : State) (a : CapReg) (size need : Nat) : Except Nat Nat :=
  let w : Want := { size := size, need := need, kind := .load, align := false, order := false, spaces := [0] }
  let k := c.cap a c.low
  match c.early s w k (c.capTag a c.low) false k.cursor with
  | some cause => .error cause
  | none => if k.cursor % 64 ≠ 0 then .error 0x14 else .ok k.cursor

/-- The packet as a load reads it (R260): checks 7, 9 and 10, then its 128 bytes; nothing yet while one of its lines is locked (R188). -/
def Ctx.readPacket (c : Ctx) (s : State) (a : CapReg) (va : Nat) : State × Except Bad (Option (List Byte)) :=
  let w : Want := { size := 128, need := 1, kind := .load, align := false, order := false, spaces := [0] }
  match c.late s w (c.cap a c.low) false va with
  | (s, .error b) => (s, .error b)
  | (s, .ok locs) =>
    let at' (i : Nat) : Nat × PKind := match locs[i]? with
      | some (.phys pa k _ _ _) => (pa, k)
      | _ => (0, .rc)
    let self := some (c.f.unit, c.f.warp, c.low)
    if s.poisoned (at' 0).1 64 || s.poisoned (at' 64).1 64 then (s, .error (Bad.of 0x19 0 0))
    else if s.lineBusy self (at' 0).1 false || s.lineBusy self (at' 64).1 false then (s, .ok none)
    else
      let r := s.loadPhys c.u.core false (at' 0).2 (at' 0).1 64
      let q := r.1.loadPhys c.u.core false (at' 64).2 (at' 64).1 64
      (q.1, .ok (some (r.2.1 ++ q.2.1)))

/-- Issue a launch operation, which no path counts. -/
def State.launchOp (s : State) (c : Ctx) (d : Reg) (k : OpKind) : State :=
  let dst : Dst := { reg := c.base + d.toNat, n := 1, size := 4, sext := false, cap := false }
  (s.issue c none c.act k [] (some dst) none).retire c 1 false c.beats

/-- LNCH (R260). It is a release: it waits for the earlier accesses of its threads, those on unordered pages among them. A read of the packet that
meets a locked line is made again. -/
def execLnch (d : Reg) (a : CapReg) (b : Reg) : Meaning :=
  withWord [opV d, opC a, opV b] [] fun c s =>
    if c.act = 0#32 then s.skipLl c 1
    else
      let q := (c.rd b c.low).toNat
      if 8192 ≤ q then s.faultLl c 0x2D 0
      else
        match c.launchCap s a 128 9 with
        | .error cause => s.faultLl c cause (BitVec.ofNat 64 (c.cap a c.low).cursor)
        | .ok va =>
          s.whenReady c [.flag, .performed c.act true] fun s =>
            match c.readPacket s a va with
            | (s, .error e) => s.faultWord c true 1 { e with addr := BitVec.ofNat 64 va }
            | (_, .ok none) => s
            | (s, .ok (some p)) => s.launchOp c d (.launch q p)

/-- LCANCEL (R261). -/
def execLcancel (d : Reg) (a : CapReg) : Meaning :=
  withWord [opV d, opC a] [] fun c s =>
    if c.act = 0#32 then s.skipLl c 1
    else
      match c.launchCap s a 64 2 with
      | .error cause => s.faultLl c cause (BitVec.ofNat 64 (c.cap a c.low).cursor)
      | .ok va => s.whenReady c [.flag] fun s => s.launchOp c d (.cancel va)

/-- LJOIN (R262): it waits for the pending count, and returns as an acquire at .dev scope. -/
def execLjoin (d : Reg) (a : CapReg) : Meaning :=
  withWord [opV d, opC a] [] fun c s =>
    if c.act = 0#32 then s.retire c 1 false 1
    else
      match c.launchCap s a 64 1 with
      | .error cause => s.faultActive c cause (BitVec.ofNat 64 (c.cap a c.low).cursor)
      | .ok va =>
        match s.record c.l.ctx va with
        | none => s.faultActive c 0x2D (BitVec.ofNat 64 va)
        | some r =>
          if r.pending ≠ 0 then s.parkBlocking c (.ljoin c.l.ctx va)
          else
            ((s.selfInvalidate c.u.core false).editWarp c.f.unit c.f.warp fun w =>
              w.putOuts (c.fullTag (tagAll (c.tagC a))) c.act fun _ => .ofRegs (c.wr d (BitVec.ofNat 32 r.status))).retire c 1 false c.beats

end Sys2Proof.Machine
end

