-- ==== Sys2Proof/Machine/Dispatch.lean ====
section
/-! DEFINITION. The meaning of every instruction, one arm per constructor. -/
namespace Sys2Proof.Machine

def exec (i : Instr) (s : State) : Host.Outcome State Fault Refusal :=
  match i with
  | .addI32 m d a b => Sys2Proof.Machine.execAddI32 m d a b s
  | .addI64 m d a b => Sys2Proof.Machine.execAddI64 m d a b s
  | .subI32 m d a b => Sys2Proof.Machine.execSubI32 m d a b s
  | .subI64 m d a b => Sys2Proof.Machine.execSubI64 m d a b s
  | .addiI32 d a imm => Sys2Proof.Machine.execAddiI32 d a imm s
  | .addiI64 d a imm => Sys2Proof.Machine.execAddiI64 d a imm s
  | .mulI32 d a b => Sys2Proof.Machine.execMulI32 d a b s
  | .mulI64 d a b => Sys2Proof.Machine.execMulI64 d a b s
  | .mulhI32 d a b => Sys2Proof.Machine.execMulhI32 d a b s
  | .mulhN32 d a b => Sys2Proof.Machine.execMulhN32 d a b s
  | .mulhI64 d a b => Sys2Proof.Machine.execMulhI64 d a b s
  | .mulhN64 d a b => Sys2Proof.Machine.execMulhN64 d a b s
  | .madI32 d a b => Sys2Proof.Machine.execMadI32 d a b s
  | .madI64 d a b => Sys2Proof.Machine.execMadI64 d a b s
  | .addcN32 m d a b => Sys2Proof.Machine.execAddcN32 m d a b s
  | .leaN32 m d a b => Sys2Proof.Machine.execLeaN32 m d a b s
  | .minI32 d a b => Sys2Proof.Machine.execMinI32 d a b s
  | .minN32 d a b => Sys2Proof.Machine.execMinN32 d a b s
  | .minI64 d a b => Sys2Proof.Machine.execMinI64 d a b s
  | .minN64 d a b => Sys2Proof.Machine.execMinN64 d a b s
  | .maxI32 d a b => Sys2Proof.Machine.execMaxI32 d a b s
  | .maxN32 d a b => Sys2Proof.Machine.execMaxN32 d a b s
  | .maxI64 d a b => Sys2Proof.Machine.execMaxI64 d a b s
  | .maxN64 d a b => Sys2Proof.Machine.execMaxN64 d a b s
  | .absI32 m d a => Sys2Proof.Machine.execAbsI32 m d a s
  | .absI64 m d a => Sys2Proof.Machine.execAbsI64 m d a s
  | .negI32 m d a => Sys2Proof.Machine.execNegI32 m d a s
  | .negI64 m d a => Sys2Proof.Machine.execNegI64 m d a s
  | .isetI32 m d cc a b => Sys2Proof.Machine.execIsetI32 m d cc a b s
  | .isetN32 m d cc a b => Sys2Proof.Machine.execIsetN32 m d cc a b s
  | .isetI64 m d cc a b => Sys2Proof.Machine.execIsetI64 m d cc a b s
  | .isetN64 m d cc a b => Sys2Proof.Machine.execIsetN64 m d cc a b s
  | .andB d a b => Sys2Proof.Machine.execAndB d a b s
  | .orB d a b => Sys2Proof.Machine.execOrB d a b s
  | .xorB d a b => Sys2Proof.Machine.execXorB d a b s
  | .andnB d a b => Sys2Proof.Machine.execAndnB d a b s
  | .shlB d a b => Sys2Proof.Machine.execShlB d a b s
  | .shrB d a b => Sys2Proof.Machine.execShrB d a b s
  | .sarB d a b => Sys2Proof.Machine.execSarB d a b s
  | .rotlB d a b => Sys2Proof.Machine.execRotlB d a b s
  | .shliB d a imm => Sys2Proof.Machine.execShliB d a imm s
  | .shriB d a imm => Sys2Proof.Machine.execShriB d a imm s
  | .sariB d a imm => Sys2Proof.Machine.execSariB d a imm s
  | .fshlB d a b => Sys2Proof.Machine.execFshlB d a b s
  | .bfxN32 d a b => Sys2Proof.Machine.execBfxN32 d a b s
  | .bfxI32 d a b => Sys2Proof.Machine.execBfxI32 d a b s
  | .bfiB d a b => Sys2Proof.Machine.execBfiB d a b s
  | .prmtB d a b => Sys2Proof.Machine.execPrmtB d a b s
  | .popcB d a => Sys2Proof.Machine.execPopcB d a s
  | .clzB d a => Sys2Proof.Machine.execClzB d a s
  | .ctzB d a => Sys2Proof.Machine.execCtzB d a s
  | .brevB d a => Sys2Proof.Machine.execBrevB d a s
  | .selB m d a b => Sys2Proof.Machine.execSelB m d a b s
  | .movB d a => Sys2Proof.Machine.execMovB d a s
  | .movBLit d lit => Sys2Proof.Machine.execMovBLit d lit s
  | .movi d imm => Sys2Proof.Machine.execMovi d imm s
  | .movh d imm => Sys2Proof.Machine.execMovh d imm s
  | .pset m d a b => Sys2Proof.Machine.execPset m d a b s
  | .pmovToReg d a => Sys2Proof.Machine.execPmovToReg d a s
  | .pmovToPred d a => Sys2Proof.Machine.execPmovToPred d a s
  | .pmovPack d => Sys2Proof.Machine.execPmovPack d s
  | .pmovUnpack a => Sys2Proof.Machine.execPmovUnpack a s
  | .shlN64 d a b => Sys2Proof.Machine.execShlN64 d a b s
  | .shrN64 d a b => Sys2Proof.Machine.execShrN64 d a b s
  | .sarI64 d a b => Sys2Proof.Machine.execSarI64 d a b s
  | .movN64 d a => Sys2Proof.Machine.execMovN64 d a s
  | .movN64Lit d lit => Sys2Proof.Machine.execMovN64Lit d lit s
  | .andN64 d a b => Sys2Proof.Machine.execAndN64 d a b s
  | .orN64 d a b => Sys2Proof.Machine.execOrN64 d a b s
  | .xorN64 d a b => Sys2Proof.Machine.execXorN64 d a b s
  | .andnN64 d a b => Sys2Proof.Machine.execAndnN64 d a b s
  | .popcN64 d a => Sys2Proof.Machine.execPopcN64 d a s
  | .clzN64 d a => Sys2Proof.Machine.execClzN64 d a s
  | .ctzN64 d a => Sys2Proof.Machine.execCtzN64 d a s
  | .brevN64 d a => Sys2Proof.Machine.execBrevN64 d a s
  | .selN64 m d a b => Sys2Proof.Machine.execSelN64 m d a b s
  | .leaN64 m d a b => Sys2Proof.Machine.execLeaN64 m d a b s
  | .faddF32 m d a b => Sys2Proof.Machine.execFaddF32 m d a b s
  | .fmulF32 m d a b => Sys2Proof.Machine.execFmulF32 m d a b s
  | .ffmaF32 m d a b => Sys2Proof.Machine.execFfmaF32 m d a b s
  | .ffmaNpF32 m d a b => Sys2Proof.Machine.execFfmaNpF32 m d a b s
  | .ffmaNcF32 m d a b => Sys2Proof.Machine.execFfmaNcF32 m d a b s
  | .ffmaNpcF32 m d a b => Sys2Proof.Machine.execFfmaNpcF32 m d a b s
  | .fminF32 d a b => Sys2Proof.Machine.execFminF32 d a b s
  | .fmaxF32 d a b => Sys2Proof.Machine.execFmaxF32 d a b s
  | .fsetF32 m d cc a b => Sys2Proof.Machine.execFsetF32 m d cc a b s
  | .fclassF32 d a => Sys2Proof.Machine.execFclassF32 d a s
  | .frndF32 m d a => Sys2Proof.Machine.execFrndF32 m d a s
  | .frcpF32 m d a => Sys2Proof.Machine.execFrcpF32 m d a s
  | .frsqF32 m d a => Sys2Proof.Machine.execFrsqF32 m d a s
  | .fsqrtF32 m d a => Sys2Proof.Machine.execFsqrtF32 m d a s
  | .fex2F32 m d a => Sys2Proof.Machine.execFex2F32 m d a s
  | .flg2F32 m d a => Sys2Proof.Machine.execFlg2F32 m d a s
  | .fsinF32 m d a => Sys2Proof.Machine.execFsinF32 m d a s
  | .fcosF32 m d a => Sys2Proof.Machine.execFcosF32 m d a s
  | .ftanhF32 m d a => Sys2Proof.Machine.execFtanhF32 m d a s
  | .hadd2Bf16x2 m d a b => Sys2Proof.Machine.execHadd2Bf16x2 m d a b s
  | .hadd2F16x2 m d a b => Sys2Proof.Machine.execHadd2F16x2 m d a b s
  | .hmul2Bf16x2 m d a b => Sys2Proof.Machine.execHmul2Bf16x2 m d a b s
  | .hmul2F16x2 m d a b => Sys2Proof.Machine.execHmul2F16x2 m d a b s
  | .hfma2Bf16x2 m d a b => Sys2Proof.Machine.execHfma2Bf16x2 m d a b s
  | .hfma2F16x2 m d a b => Sys2Proof.Machine.execHfma2F16x2 m d a b s
  | .fcvtF32F16 d a => Sys2Proof.Machine.execFcvtF32F16 d a s
  | .fcvtF32Bf16 d a => Sys2Proof.Machine.execFcvtF32Bf16 d a s
  | .fcvtF16F32 m d a => Sys2Proof.Machine.execFcvtF16F32 m d a s
  | .fcvtBf16F32 m d a => Sys2Proof.Machine.execFcvtBf16F32 m d a s
  | .fcvtF16Bf16 m d a => Sys2Proof.Machine.execFcvtF16Bf16 m d a s
  | .fcvtBf16F16 m d a => Sys2Proof.Machine.execFcvtBf16F16 m d a s
  | .fcvtF16x2F32 m d a b => Sys2Proof.Machine.execFcvtF16x2F32 m d a b s
  | .fcvtBf16x2F32 m d a b => Sys2Proof.Machine.execFcvtBf16x2F32 m d a b s
  | .fcvtF32I32 m d a => Sys2Proof.Machine.execFcvtF32I32 m d a s
  | .fcvtF32N32 m d a => Sys2Proof.Machine.execFcvtF32N32 m d a s
  | .fcvtF32I64 m d a => Sys2Proof.Machine.execFcvtF32I64 m d a s
  | .fcvtF32N64 m d a => Sys2Proof.Machine.execFcvtF32N64 m d a s
  | .fcvtI32F32 m d a => Sys2Proof.Machine.execFcvtI32F32 m d a s
  | .fcvtN32F32 m d a => Sys2Proof.Machine.execFcvtN32F32 m d a s
  | .fcvtI64F32 m d a => Sys2Proof.Machine.execFcvtI64F32 m d a s
  | .fcvtN64F32 m d a => Sys2Proof.Machine.execFcvtN64F32 m d a s
  | .fcvtI16F32 m d a => Sys2Proof.Machine.execFcvtI16F32 m d a s
  | .fcvtN16F32 m d a => Sys2Proof.Machine.execFcvtN16F32 m d a s
  | .fcvtI8F32 m d a => Sys2Proof.Machine.execFcvtI8F32 m d a s
  | .fcvtN8F32 m d a => Sys2Proof.Machine.execFcvtN8F32 m d a s
  | .fcvtF32I16 d a => Sys2Proof.Machine.execFcvtF32I16 d a s
  | .fcvtF32N16 d a => Sys2Proof.Machine.execFcvtF32N16 d a s
  | .fcvtF32I8 d a => Sys2Proof.Machine.execFcvtF32I8 d a s
  | .fcvtF32N8 d a => Sys2Proof.Machine.execFcvtF32N8 d a s
  | .ballot d a => Sys2Proof.Machine.execBallot d a s
  | .voteEvery d a => Sys2Proof.Machine.execVoteEvery d a s
  | .voteSome d a => Sys2Proof.Machine.execVoteSome d a s
  | .voteAgree d a => Sys2Proof.Machine.execVoteAgree d a s
  | .shflIdx m d a b => Sys2Proof.Machine.execShflIdx m d a b s
  | .shflUp m d a b => Sys2Proof.Machine.execShflUp m d a b s
  | .shflDown m d a b => Sys2Proof.Machine.execShflDown m d a b s
  | .shflXor m d a b => Sys2Proof.Machine.execShflXor m d a b s
  | .xchm d a b => Sys2Proof.Machine.execXchm d a b s
  | .redwI32 d a op => Sys2Proof.Machine.execRedwI32 d a op s
  | .redwN32 d a op => Sys2Proof.Machine.execRedwN32 d a op s
  | .redwF32 m d a op => Sys2Proof.Machine.execRedwF32 m d a op s
  | .redwB d a op => Sys2Proof.Machine.execRedwB d a op s
  | .scanwI32 d a op excl => Sys2Proof.Machine.execScanwI32 d a op excl s
  | .scanwN32 d a op excl => Sys2Proof.Machine.execScanwN32 d a op excl s
  | .scanwF32 m d a op excl => Sys2Proof.Machine.execScanwF32 m d a op excl s
  | .bra off => Sys2Proof.Machine.execBra off s
  | .call off => Sys2Proof.Machine.execCall off s
  | .brx a => Sys2Proof.Machine.execBrx a s
  | .callx d a => Sys2Proof.Machine.execCallx d a s
  | .ret a => Sys2Proof.Machine.execRet a s
  | .join => Sys2Proof.Machine.execJoin s
  | .exit => Sys2Proof.Machine.execExit s
  | .yield => Sys2Proof.Machine.execYield s
  | .nop => Sys2Proof.Machine.execNop s
  | .trap imm => Sys2Proof.Machine.execTrap imm s
  | .tfence => Sys2Proof.Machine.execTfence s
  | .bkpt imm => Sys2Proof.Machine.execBkpt imm s
  | .winb imm => Sys2Proof.Machine.execWinb imm s
  | .wina imm => Sys2Proof.Machine.execWina imm s
  | .setfmt mode imm => Sys2Proof.Machine.execSetfmt mode imm s
  | .srd d imm => Sys2Proof.Machine.execSrd d imm s
  | .swr a imm => Sys2Proof.Machine.execSwr a imm s
  | .waitf mask => Sys2Proof.Machine.execWaitf mask s
  | .waitpReg p a => Sys2Proof.Machine.execWaitpReg p a s
  | .waitpImm p n => Sys2Proof.Machine.execWaitpImm p n s
  | .clkw a => Sys2Proof.Machine.execClkw a s
  | .cbndExact d a b => Sys2Proof.Machine.execCbndExact d a b s
  | .cbndRound d a b => Sys2Proof.Machine.execCbndRound d a b s
  | .cbndLit d a lit => Sys2Proof.Machine.execCbndLit d a lit s
  | .cprm d a b => Sys2Proof.Machine.execCprm d a b s
  | .cadd d a b => Sys2Proof.Machine.execCadd d a b s
  | .cget d a sel => Sys2Proof.Machine.execCget d a sel s
  | .ctstTag d a => Sys2Proof.Machine.execCtstTag d a s
  | .ctstSub d a b => Sys2Proof.Machine.execCtstSub d a b s
  | .cdrv d a b => Sys2Proof.Machine.execCdrv d a b s
  | .ldN8 d mr => Sys2Proof.Machine.execLdN8 d mr s
  | .ldI8 d mr => Sys2Proof.Machine.execLdI8 d mr s
  | .ldN16 d mr => Sys2Proof.Machine.execLdN16 d mr s
  | .ldI16 d mr => Sys2Proof.Machine.execLdI16 d mr s
  | .ldN32 d mr => Sys2Proof.Machine.execLdN32 d mr s
  | .ldN64 d mr => Sys2Proof.Machine.execLdN64 d mr s
  | .ldaN32 sc d mr => Sys2Proof.Machine.execLdaN32 sc d mr s
  | .ldaN64 sc d mr => Sys2Proof.Machine.execLdaN64 sc d mr s
  | .stN8 d mr => Sys2Proof.Machine.execStN8 d mr s
  | .stN16 d mr => Sys2Proof.Machine.execStN16 d mr s
  | .stN32 d mr => Sys2Proof.Machine.execStN32 d mr s
  | .stN64 d mr => Sys2Proof.Machine.execStN64 d mr s
  | .stlN32 sc d mr => Sys2Proof.Machine.execStlN32 sc d mr s
  | .stlN64 sc d mr => Sys2Proof.Machine.execStlN64 sc d mr s
  | .ldc d mr => Sys2Proof.Machine.execLdc d mr s
  | .stc d mr => Sys2Proof.Machine.execStc d mr s
  | .pref l2 mr => Sys2Proof.Machine.execPref l2 mr s
  | .cwb dev mr => Sys2Proof.Machine.execCwb dev mr s
  | .cinv mr => Sys2Proof.Machine.execCinv mr s
  | .atomAddN32 sc d mr => Sys2Proof.Machine.execAtomAddN32 sc d mr s
  | .atomAddN64 sc d mr => Sys2Proof.Machine.execAtomAddN64 sc d mr s
  | .atomAddF32 sc d mr => Sys2Proof.Machine.execAtomAddF32 sc d mr s
  | .atomMinI32 sc d mr => Sys2Proof.Machine.execAtomMinI32 sc d mr s
  | .atomMinN32 sc d mr => Sys2Proof.Machine.execAtomMinN32 sc d mr s
  | .atomMinI64 sc d mr => Sys2Proof.Machine.execAtomMinI64 sc d mr s
  | .atomMinN64 sc d mr => Sys2Proof.Machine.execAtomMinN64 sc d mr s
  | .atomMaxI32 sc d mr => Sys2Proof.Machine.execAtomMaxI32 sc d mr s
  | .atomMaxN32 sc d mr => Sys2Proof.Machine.execAtomMaxN32 sc d mr s
  | .atomMaxI64 sc d mr => Sys2Proof.Machine.execAtomMaxI64 sc d mr s
  | .atomMaxN64 sc d mr => Sys2Proof.Machine.execAtomMaxN64 sc d mr s
  | .atomAndN32 sc d mr => Sys2Proof.Machine.execAtomAndN32 sc d mr s
  | .atomAndN64 sc d mr => Sys2Proof.Machine.execAtomAndN64 sc d mr s
  | .atomOrN32 sc d mr => Sys2Proof.Machine.execAtomOrN32 sc d mr s
  | .atomOrN64 sc d mr => Sys2Proof.Machine.execAtomOrN64 sc d mr s
  | .atomXorN32 sc d mr => Sys2Proof.Machine.execAtomXorN32 sc d mr s
  | .atomXorN64 sc d mr => Sys2Proof.Machine.execAtomXorN64 sc d mr s
  | .atomExchN32 sc d mr => Sys2Proof.Machine.execAtomExchN32 sc d mr s
  | .atomExchN64 sc d mr => Sys2Proof.Machine.execAtomExchN64 sc d mr s
  | .atomCasN32 sc d mr => Sys2Proof.Machine.execAtomCasN32 sc d mr s
  | .atomCasN64 sc d mr => Sys2Proof.Machine.execAtomCasN64 sc d mr s
  | .redAddN32 sc d mr => Sys2Proof.Machine.execRedAddN32 sc d mr s
  | .redAddN64 sc d mr => Sys2Proof.Machine.execRedAddN64 sc d mr s
  | .redAddF32 sc d mr => Sys2Proof.Machine.execRedAddF32 sc d mr s
  | .redMinI32 sc d mr => Sys2Proof.Machine.execRedMinI32 sc d mr s
  | .redMinN32 sc d mr => Sys2Proof.Machine.execRedMinN32 sc d mr s
  | .redMinI64 sc d mr => Sys2Proof.Machine.execRedMinI64 sc d mr s
  | .redMinN64 sc d mr => Sys2Proof.Machine.execRedMinN64 sc d mr s
  | .redMaxI32 sc d mr => Sys2Proof.Machine.execRedMaxI32 sc d mr s
  | .redMaxN32 sc d mr => Sys2Proof.Machine.execRedMaxN32 sc d mr s
  | .redMaxI64 sc d mr => Sys2Proof.Machine.execRedMaxI64 sc d mr s
  | .redMaxN64 sc d mr => Sys2Proof.Machine.execRedMaxN64 sc d mr s
  | .redAndN32 sc d mr => Sys2Proof.Machine.execRedAndN32 sc d mr s
  | .redAndN64 sc d mr => Sys2Proof.Machine.execRedAndN64 sc d mr s
  | .redOrN32 sc d mr => Sys2Proof.Machine.execRedOrN32 sc d mr s
  | .redOrN64 sc d mr => Sys2Proof.Machine.execRedOrN64 sc d mr s
  | .redXorN32 sc d mr => Sys2Proof.Machine.execRedXorN32 sc d mr s
  | .redXorN64 sc d mr => Sys2Proof.Machine.execRedXorN64 sc d mr s
  | .fence m sc => Sys2Proof.Machine.execFence m sc s
  | .xfence sc a b => Sys2Proof.Machine.execXfence sc a b s
  | .tbegin => Sys2Proof.Machine.execTbegin s
  | .tend d => Sys2Proof.Machine.execTend d s
  | .tabort b => Sys2Proof.Machine.execTabort b s
  | .tstat d => Sys2Proof.Machine.execTstat d s
  | .barinit a b => Sys2Proof.Machine.execBarinit a b s
  | .bararr d a b => Sys2Proof.Machine.execBararr d a b s
  | .bararrNobytes d a => Sys2Proof.Machine.execBararrNobytes d a s
  | .bararrLit d a lit => Sys2Proof.Machine.execBararrLit d a lit s
  | .barwait d a b => Sys2Proof.Machine.execBarwait d a b s
  | .bartst d a b => Sys2Proof.Machine.execBartst d a b s
  | .bardrop a => Sys2Proof.Machine.execBardrop a s
  | .barinv a => Sys2Proof.Machine.execBarinv a s
  | .barinvFree a => Sys2Proof.Machine.execBarinvFree a s
  | .barexp a b => Sys2Proof.Machine.execBarexp a b s
  | .barexpLit a lit => Sys2Proof.Machine.execBarexpLit a lit s
  | .mred op ty a b => Sys2Proof.Machine.execMred op ty a b s
  | .mrwait d b => Sys2Proof.Machine.execMrwait d b s
  | .board d a b => Sys2Proof.Machine.execBoard d a b s
  | .alight d a => Sys2Proof.Machine.execAlight d a s
  | .bcapAdd d a b => Sys2Proof.Machine.execBcapAdd d a b s
  | .bcapMin m d a b => Sys2Proof.Machine.execBcapMin m d a b s
  | .bcapMax m d a b => Sys2Proof.Machine.execBcapMax m d a b s
  | .bcapAnd d a b => Sys2Proof.Machine.execBcapAnd d a b s
  | .bcapOr d a b => Sys2Proof.Machine.execBcapOr d a b s
  | .bcapSwap d a b => Sys2Proof.Machine.execBcapSwap d a b s
  | .bcapCas d a b => Sys2Proof.Machine.execBcapCas d a b s
  | .bcapFadd d a b => Sys2Proof.Machine.execBcapFadd d a b s
  | .bread d a => Sys2Proof.Machine.execBread d a s
  | .bpass a => Sys2Proof.Machine.execBpass a s
  | .mmaBf16 m d a b => Sys2Proof.Machine.execMmaBf16 m d a b s
  | .mmaF16 m d a b => Sys2Proof.Machine.execMmaF16 m d a b s
  | .mmaF32 m d a b => Sys2Proof.Machine.execMmaF32 m d a b s
  | .mmaK4 m d a b => Sys2Proof.Machine.execMmaK4 m d a b s
  | .mmaI8 m d a b => Sys2Proof.Machine.execMmaI8 m d a b s
  | .mmabXor m d a b => Sys2Proof.Machine.execMmabXor m d a b s
  | .mmabAnd m d a b => Sys2Proof.Machine.execMmabAnd m d a b s
  | .accz => Sys2Proof.Machine.execAccz s
  | .acczAll => Sys2Proof.Machine.execAcczAll s
  | .accldF32 a => Sys2Proof.Machine.execAccldF32 a s
  | .accstF32 a => Sys2Proof.Machine.execAccstF32 a s
  | .accsv a => Sys2Proof.Machine.execAccsv a s
  | .accrs a => Sys2Proof.Machine.execAccrs a s
  | .accmx m d b => Sys2Proof.Machine.execAccmx m d b s
  | .accexs d a b => Sys2Proof.Machine.execAccexs d a b s
  | .accmsk => Sys2Proof.Machine.execAccmsk s
  | .cbld k a => Sys2Proof.Machine.execCbld k a s
  | .accldBf16 a => Sys2Proof.Machine.execAccldBf16 a s
  | .accldF16 a => Sys2Proof.Machine.execAccldF16 a s
  | .accstBf16 a => Sys2Proof.Machine.execAccstBf16 a s
  | .accstF16 a => Sys2Proof.Machine.execAccstF16 a s
  | .accstI8 a b => Sys2Proof.Machine.execAccstI8 a b s
  | .xtile k a => Sys2Proof.Machine.execXtile k a s
  | .xtileCo k a b => Sys2Proof.Machine.execXtileCo k a b s
  | .xstrm k a => Sys2Proof.Machine.execXstrm k a s
  | .xstrmCo k a b => Sys2Proof.Machine.execXstrmCo k a b s
  | .xchain d a b => Sys2Proof.Machine.execXchain d a b s
  | .xstat m d b => Sys2Proof.Machine.execXstat m d b s
  | .xstop b => Sys2Proof.Machine.execXstop b s
  | .chkt d a k => Sys2Proof.Machine.execChkt d a k s
  | .chkw a k => Sys2Proof.Machine.execChkw a k s
  | .nfork d a => Sys2Proof.Machine.execNfork d a s
  | .nprune d a => Sys2Proof.Machine.execNprune d a s
  | .ncommit m d a => Sys2Proof.Machine.execNcommit m d a s
  | .nquery m d a => Sys2Proof.Machine.execNquery m d a s
  | .ntag a => Sys2Proof.Machine.execNtag a s
  | .ntagClr => Sys2Proof.Machine.execNtagClr s
  | .maskg m a b => Sys2Proof.Machine.execMaskg m a b s
  | .kvmap m d a b => Sys2Proof.Machine.execKvmap m d a b s
  | .kvref d a b => Sys2Proof.Machine.execKvref d a b s
  | .kvrel d a b => Sys2Proof.Machine.execKvrel d a b s
  | .kvshoot a b => Sys2Proof.Machine.execKvshoot a b s
  | .lnch d a b => Sys2Proof.Machine.execLnch d a b s
  | .lcancel d a => Sys2Proof.Machine.execLcancel d a s
  | .ljoin d a => Sys2Proof.Machine.execLjoin d a s
  | .repairResume q => Sys2Proof.Machine.execRepairResume q s
  | .repairKill q => Sys2Proof.Machine.execRepairKill q s
  | .repairSplit q => Sys2Proof.Machine.execRepairSplit q s
  | .repairFuse q => Sys2Proof.Machine.execRepairFuse q s
  | .repairKillwarp q => Sys2Proof.Machine.execRepairKillwarp q s
  | .clauseStart core lane => Sys2Proof.Machine.execClauseStart core lane s
  | .fragmentWake f => Sys2Proof.Machine.execFragmentWake f s
  | .deadFragmentFree f => Sys2Proof.Machine.execDeadFragmentFree f s
  | .memoryOpComplete u op => Sys2Proof.Machine.execMemoryOpComplete u op s
  | .sliceAccess u op t => Sys2Proof.Machine.execSliceAccess u op t s
  | .solitaryGrant => Sys2Proof.Machine.execSolitaryGrant s
  | .peerPacketArrival p => Sys2Proof.Machine.execPeerPacketArrival p s
  | .peerAck u op t val bad => Sys2Proof.Machine.execPeerAck u op t val bad s
  | .matrixKStep core u => Sys2Proof.Machine.execMatrixKStep core u s
  | .engineQueueOp core u => Sys2Proof.Machine.execEngineQueueOp core u s
  | .transferRecordFetch u job => Sys2Proof.Machine.execTransferRecordFetch u job s
  | .chunkComplete u job chunk => Sys2Proof.Machine.execChunkComplete u job chunk s
  | .chainRecordStep u slot => Sys2Proof.Machine.execChainRecordStep u slot s
  | .meshReductionInput die desc sq node src => Sys2Proof.Machine.execMeshReductionInput die desc sq node src s
  | .meshReductionTimeout die desc sq node => Sys2Proof.Machine.execMeshReductionTimeout die desc sq node s
  | .meshReductionResult die desc sq core => Sys2Proof.Machine.execMeshReductionResult die desc sq core s
  | .beadPass bead station => Sys2Proof.Machine.execBeadPass bead station s
  | .boardMarkReply bead => Sys2Proof.Machine.execBoardMarkReply bead s
  | .alightHomeWrite k => Sys2Proof.Machine.execAlightHomeWrite k s
  | .treeCommandArrival k => Sys2Proof.Machine.execTreeCommandArrival k s
  | .nodeRewriteAck sq => Sys2Proof.Machine.execNodeRewriteAck sq s
  | .pruneKillDelivery k core => Sys2Proof.Machine.execPruneKillDelivery k core s
  | .pruneReleaseDone sq slot => Sys2Proof.Machine.execPruneReleaseDone sq slot s
  | .hallmarkCopyComplete k => Sys2Proof.Machine.execHallmarkCopyComplete k s
  | .pageFree page => Sys2Proof.Machine.execPageFree page s
  | .hallmarkScrubCheck die => Sys2Proof.Machine.execHallmarkScrubCheck die s
  | .kvshootAck k => Sys2Proof.Machine.execKvshootAck k s
  | .treeCmdOpen die sq => Sys2Proof.Machine.execTreeCmdOpen die sq s
  | .treeCmdClose die sq => Sys2Proof.Machine.execTreeCmdClose die sq s
  | .treeCmdFlatten die sq => Sys2Proof.Machine.execTreeCmdFlatten die sq s
  | .doorbellTail q tail => Sys2Proof.Machine.execDoorbellTail q tail s
  | .doorbellWithdraw q tag => Sys2Proof.Machine.execDoorbellWithdraw q tag s
  | .doorbellWithdrawCancel q tag => Sys2Proof.Machine.execDoorbellWithdrawCancel q tag s
  | .doorbellCancel q va => Sys2Proof.Machine.execDoorbellCancel q va s
  | .queueMap q => Sys2Proof.Machine.execQueueMap q s
  | .sliceExpiry die slot => Sys2Proof.Machine.execSliceExpiry die slot s
  | .packetTake die slot => Sys2Proof.Machine.execPacketTake die slot s
  | .gangAdmission l place => Sys2Proof.Machine.execGangAdmission l place s
  | .startHoldRelease u => Sys2Proof.Machine.execStartHoldRelease u s
  | .candidateBlocking l => Sys2Proof.Machine.execCandidateBlocking l s
  | .gangParked l => Sys2Proof.Machine.execGangParked l s
  | .gangDrained l => Sys2Proof.Machine.execGangDrained l s
  | .parklimExpiry l => Sys2Proof.Machine.execParklimExpiry l s
  | .runlimExpiry l => Sys2Proof.Machine.execRunlimExpiry l s
  | .unitEnd u => Sys2Proof.Machine.execUnitEnd u s
  | .contextIdFree ctx => Sys2Proof.Machine.execContextIdFree ctx s
  | .faultQueueCopy die => Sys2Proof.Machine.execFaultQueueCopy die s
  | .dieFqackRetry die core idx => Sys2Proof.Machine.execDieFqackRetry die core idx s
  | .dieFqackFail die core idx => Sys2Proof.Machine.execDieFqackFail die core idx s
  | .tlbiRange ctx npages => Sys2Proof.Machine.execTlbiRange ctx npages s
  | .tlbiContext ctx => Sys2Proof.Machine.execTlbiContext ctx s
  | .tlbiAll => Sys2Proof.Machine.execTlbiAll s
  | .tlbiComplete => Sys2Proof.Machine.execTlbiComplete s
  | .migrationGo die size => Sys2Proof.Machine.execMigrationGo die size s
  | .migrationCopyDone die => Sys2Proof.Machine.execMigrationCopyDone die s
  | .migrationSwitch die => Sys2Proof.Machine.execMigrationSwitch die s
  | .migrationAbort die => Sys2Proof.Machine.execMigrationAbort die s
  | .nocWindowExpiry die imbalance => Sys2Proof.Machine.execNocWindowExpiry die imbalance s
  | .mredDescValidate die n ctl => Sys2Proof.Machine.execMredDescValidate die n ctl s
  | .mredDescInvalidate die n => Sys2Proof.Machine.execMredDescInvalidate die n s
  | .peerLoss dev => Sys2Proof.Machine.execPeerLoss dev s
  | .quiesceReceived dev => Sys2Proof.Machine.execQuiesceReceived dev s
  | .quiesceClear => Sys2Proof.Machine.execQuiesceClear s
  | .bridlePortFail port => Sys2Proof.Machine.execBridlePortFail port s
  | .circQuotaInvalidate ctx => Sys2Proof.Machine.execCircQuotaInvalidate ctx s
  | .circClearBead bead => Sys2Proof.Machine.execCircClearBead bead s
  | .faultRecordPost ctx => Sys2Proof.Machine.execFaultRecordPost ctx s
  | .handlerLaunchStart ctx => Sys2Proof.Machine.execHandlerLaunchStart ctx s
  | .uncorrectableError e => Sys2Proof.Machine.execUncorrectableError e s
  | .correctableError e => Sys2Proof.Machine.execCorrectableError e s
  | .patrolScrub die => Sys2Proof.Machine.execPatrolScrub die s
  | .hostBar4Write off bytes => Sys2Proof.Machine.execHostBar4Write off bytes s
  | .hostBar4Read off n => Sys2Proof.Machine.execHostBar4Read off n s
  | .bar4Resize log2 => Sys2Proof.Machine.execBar4Resize log2 s
  | .csrWrite off size val => Sys2Proof.Machine.execCsrWrite off size val s
  | .powerOnReset => Sys2Proof.Machine.execPowerOnReset s
  | .bootStageComplete ok => Sys2Proof.Machine.execBootStageComplete ok s
  | .powerOff => Sys2Proof.Machine.execPowerOff s
  | .bootCommit => Sys2Proof.Machine.execBootCommit s
  | .attestGo => Sys2Proof.Machine.execAttestGo s
  | .attestComplete => Sys2Proof.Machine.execAttestComplete s
  | .throttleStepDown thermal => Sys2Proof.Machine.execThrottleStepDown thermal s
  | .throttleRecovery => Sys2Proof.Machine.execThrottleRecovery s
  | .thermalShutdown => Sys2Proof.Machine.execThermalShutdown s
  | .unassignedOpcode w => Sys2Proof.Machine.execUnassignedOpcode w s

end Sys2Proof.Machine
end

