-- ==== Sys2Proof/Machine/Fetch.lean ====
section
/-! DEFINITION. What a step needs beside the meanings: fetching and decoding a fragment's next word (R40, R52, R53), the clock (R33), which
moves may act, and the placing of one instruction where the next step fetches it. -/
namespace Sys2Proof.Machine

/-! ### Fetching a word -/

/-- The bytes of the instruction at a code address: its word and, where the word takes one, its literal (R52). -/
def State.instrBytes (s : State) (die : Nat) (l : Launch) (pc : Nat) : Option (List Byte) :=
  match s.textBytes die l pc with
  | none => none
  | some b => if literals (leNat b) = 0 then some b else (s.textBytes die l (pc + 4)).map fun x => b ++ x

/-- A warp of a trap handler's unit has faulted, which ends the unit at once (R425): none of its warps issues another word before
FAULT_RECORD_POST has ended it. -/
def State.handlerFaulted (s : State) (u : Nat) (l : Launch) : Bool :=
  l.handler && s.posts.any fun p => match p with
    | .frag f _ => f.unit = u
    | .unit _ _ _ _ _ _ _ _ _ _ => false

/-- The fragment a lane is working on issues its next word: it has kept its lane since the lane selected it, and is runnable, inside a clause and not
held (R47, R280). With it come its core and launch. -/
def State.mayIssue (s : State) (f : FragRef) : Option (Nat × Launch × Frag) :=
  match s.unit? f.unit, s.warp? f.unit f.warp, s.frag? f, s.launchOf f.unit with
  | some u, some w, some x, some l =>
    if ((Map.look (s.core u.core).lanes (w.slot % 64)).bind (·.cur)) = some f && x.lane && x.status = .runnable && x.clause.isSome && !s.held l x
      && !(s.handlerFaulted f.unit l)
    then some (u.core, l, x) else none
  | _, _, _, _ => none

/-- The address of the part of an instruction that cannot be fetched: its word, else its literal. The record of the fault has it as ADDR, while PC
stays at the instruction: DESIGN CHOICE (log entry 39), since no rule gives ADDR for a fetch. -/
def State.unreadAt (s : State) (die : Nat) (l : Launch) (pc : Nat) : Nat := if (s.textBytes die l pc).isSome then pc + 4 else pc

/-- The cause of a word that decodes to nothing (R53 steps 1 to 3). -/
def rejectCause : Reject → Nat
  | .illegalModifier => 0x02
  | _ => 0x01

/-- A word that decodes to nothing faults in every thread of its fragment (R53). -/
def State.rejectWord (s : State) (f : FragRef) (x : Frag) (r : Reject) : State :=
  (s.takeFaults f [Bad.of (rejectCause r) 0 x.mask]).1

/-! ### The clock (R33, R445) -/

/-- Units of %time, 2⁻¹⁶ ns, that a number of cycles of 1 MHz take. -/
def timePerMhz : Nat := 65536000

/-- Units of %time in a millisecond. -/
def timePerMs : Nat := 1000 * timePerMhz

/-- What the device measures (Table 17.9): the power over the last millisecond, and the temperature, which comes from outside, are free values. -/
def State.measure (s : State) : State :=
  { s with
    freeIx := s.freeIx + 2
    dev := { s.dev with pwr := Config.freeNat s.freeIx % 2 ^ 16, tmax := Config.freeNat (s.freeIx + 1) % 2 ^ 8 } }

/-- One cycle: %cycle rises by one, %time by the cycle's length at the present clock, with the remainder kept; at the end of each millisecond the
device measures. -/
def State.advance (s : State) : State :=
  let n := s.timeRem + timePerMhz
  let c := max s.dev.clk 1
  let t : State := { s with cycle := s.cycle + 1#64, time := s.time + BitVec.ofNat 64 (n / c), timeRem := n % c }
  if s.time.toNat / timePerMs = t.time.toNat / timePerMs then t else t.measure

/-- A tick waits for whatever the Circlet does in the present cycle; a halted device has no clock (R445). -/
def State.tick (s : State) : State := if s.dev.halted || s.ringDue then s else s.advance

/-! ### Which moves act -/

/-- The rows of the opcode table that are events: they have no word. -/
def isEvent (i : Instr) : Bool := (encode i).isEmpty

/-- The events that act on a halted device (R445). -/
def wakesHalted : Instr → Bool
  | .powerOff => true
  | .powerOnReset => true
  | _ => false

/-- The events that are a host's write of a command register (Tables 11.3 and 17.3), but for DEV_BOOT's COMMIT. -/
def hostCommand : Instr → Bool
  | .doorbellTail _ _ => true
  | .doorbellWithdraw _ _ => true
  | .doorbellWithdrawCancel _ _ => true
  | .doorbellCancel _ _ => true
  | .tlbiRange _ _ => true
  | .tlbiContext _ => true
  | .tlbiAll => true
  | .dieFqackRetry _ _ _ => true
  | .dieFqackFail _ _ _ => true
  | .migrationGo _ _ => true
  | .migrationSwitch _ => true
  | .migrationAbort _ => true
  | .mredDescValidate _ _ _ => true
  | .mredDescInvalidate _ _ => true
  | .treeCmdOpen _ _ => true
  | .treeCmdClose _ _ => true
  | .treeCmdFlatten _ _ => true
  | .circQuotaInvalidate _ => true
  | .circClearBead _ => true
  | .attestGo => true
  | _ => false

/-- An event acts unless the device is halted; a host's command has an effect from boot stage 4 on (R439; log entry 7). -/
def State.mayHappen (s : State) (i : Instr) : Bool :=
  isEvent i && (!s.dev.halted || wakesHalted i) && (decide (s.dev.stage = 4) || !hostCommand i)

/-- Take the next move of the schedule; where none is listed, any move may come (a free choice). -/
def State.nextMove (s : State) : Move × State :=
  match s.sched with
  | m :: rest => (m, { s with sched := rest })
  | [] => (Config.freeMove s.freeIx, { s with freeIx := s.freeIx + 1 })

/-! ### Placing one instruction -/

/-- Physical address of the context table, tables and page used to place an instruction. -/
def placeBase : Nat := 0x10000

/-- The page tables that map the first page of context 1 to the physical page at 0x60000, readable, and the context's entry. -/
def placeTables (s : State) : State :=
  let s := s.put (placeBase + 32) (leBytes 8 (0x20000 + 1)) false
  let s := s.put (placeBase + 40) (leBytes 24 0) false
  let s := s.put 0x20000 (leBytes 8 (0x30000 + 1)) false
  let s := s.put 0x30000 (leBytes 8 (0x40000 + 1)) false
  s.put 0x40000 (leBytes 8 (0x60000 + 0x183)) false

/-- The launch that a placed instruction belongs to. -/
def placeLaunch : Launch :=
  { ctx := 1, text := 0, tsize := 0x100, cmap := 0x1000, entry := 0, regs := 512, acc := 1024, scratch := 4096, cluster := 1
    stream := false, handler := false, lrec := 0, queue := 0, tag := 0, units := 1, warps := 1, kidx := 0, args := [], uidx := false
    start := 0, waitPrev := false, wait0 := 0, wait1 := 0, chain := [], prio := 0, st := .resident, order := 0, regTime := 0
    admitTime := 0, admitted := true, parkTime := 0, blocking := false }

/-- Its fragment: every thread active, standing at the first body word of a clause of 15. -/
def placeFrag : Frag :=
  { mask := allThreads, pc := 4, rpc := noRpc, actm := allThreads, fmt := 0, sfmt := 0, win := 0, swin := 0, prec := 31
    status := .runnable, wake := .none, hold := false, frec := none
    clause := some { hdr := 0, len := 15, set1 := 15, set2 := 15, yld := false, ll := 0 }, done := 0, lane := true }

/-- Its warp. -/
def placeWarp : Warp :=
  { slot := 0, extent := 512, regs := [], rtags := [], qtags := [], preds := [], cbank := 0, node := 0, fflags := [], txn := []
    exited := 0, killed := 0, frags := [(0, placeFrag)], splits := [], lastFidx := 0, lastYield := false
    lates := [], pruned := false }

/-- Its unit. -/
def placeUnit (launch : Nat) : KUnit :=
  { launch := launch, index := 0, core := 0, warps := [(0, placeWarp)], scratch := [], stags := [], spoison := [], frozen := false
    acc := [], cbs := [], bitmaps := [], streams := [], chains := [], bars := [], ops := [], nextOp := 0, jobs := [], rank := 0
    sizeM1 := 0, mates := [(0, 0)], rankEnded := [], startHold := false, parkReq := false, endFault := false, endCancel := false
    cut := false, lost := false, drops := [], image := 0 }

/-- A resident unit with one warp whose text page holds the bytes at its fragment's next word, and that word as the next move. -/
def State.place (s : State) (bs : List Byte) : State :=
  let u := s.nextUnit
  let l := s.nextLaunch
  let s := placeTables { s with
    memMap := { base := 0, size := 0x100000, die := 0 } :: s.memMap, dev := { s.dev with ctxt := placeBase, stage := 4 } }
  let s := s.put 0x60004 bs false
  let s := s.editCore 0 fun k => { k with lanes := Map.put k.lanes 0 { cur := some ⟨u, 0, 0⟩, lastHigh := false, run := 0 } }
  { s with
    units := Map.put s.units u { placeUnit l with mates := [(0, u)] }, nextUnit := u + 1
    launches := Map.put s.launches l placeLaunch, nextLaunch := l + 1, sched := [.word ⟨u, 0, 0⟩] }

end Sys2Proof.Machine
end

