-- ==== Sys2Proof/Machine/Step.lean ====
section
/-! DEFINITION. One step: the next move of the schedule, which is a fragment's word, an event, or one cycle of the clock. -/
namespace Sys2Proof.Machine

/-- A fragment's next word: faults of its issued words are taken first (R165); else the word is fetched, decoded, and run with that fragment as the
executing one. -/
noncomputable def wordStep (f : FragRef) (s : State) : Host.Outcome State Fault Refusal :=
  match s.mayIssue f with
  | none => .next s
  | some (core, l, x) =>
    if s.hasLate f then .next (s.takeLate f)
    else
      match s.instrBytes (dieOf core) l x.pc with
      | none => .next (s.fetchFault core f l x (s.unreadAt (dieOf core) l x.pc))
      | some bs =>
        match decode bs with
        | .error r => .next (s.rejectWord f x r)
        | .ok (i, _) => exec i { s with cur := some f }

/-- An event that may happen acts; any other changes nothing. -/
noncomputable def eventStep (i : Instr) (s : State) : Host.Outcome State Fault Refusal :=
  if s.mayHappen i then exec i s else .next s

/-- One move. -/
noncomputable def moveStep (m : Move) (s : State) : Host.Outcome State Fault Refusal :=
  match m with
  | .word f => wordStep f s
  | .event i => eventStep i s
  | .tick => .next s.tick

/-- One step of the machine. -/
noncomputable def step (s : State) : Host.Outcome State Fault Refusal := moveStep s.nextMove.1 s.nextMove.2

/-- The state with one instruction, given by the bits of its words, where the next step fetches it. -/
def State.withFetchWord (s : State) (nbits w : Nat) : State :=
  let v := w % 2 ^ nbits
  s.place (bytesOfWord (v % 4294967296) ++ bytesOfWord (v / 4294967296 % 4294967296))

end Sys2Proof.Machine
end

