-- ==== Sys2Proof/Machine/Scope.lean ====
section
/-! DEFINITION. Scope instances and their members (09 R286, Table 9.1), and the scope condition of synchronisation (R291). -/
namespace Sys2Proof.Machine

/-- An agent that may be a member of a scope instance: a thread; the engine operations of a unit; the tree unit, Hallmark, Filigree and queue
scheduler of a die; another module of the partition; the host. -/
inductive Agent where
  | thread (u w t : Nat)
  | engine (u : Nat)
  | dieUnits (die : Nat)
  | peer (dev : Nat)
  | host
  deriving DecidableEq, Repr

/-- The resident unit that a thread or an engine operation belongs to, with its number. -/
def State.unitOfAgent (s : State) : Agent → Option (Nat × KUnit)
  | .thread u w t => if t < 32 && (s.warp? u w).isSome then (s.unit? u).map fun un => (u, un) else none
  | .engine u => (s.unit? u).map fun un => (u, un)
  | _ => none

/-- The thread or engine operation belongs to a unit that satisfies a test. -/
def State.agentIn (s : State) (x : Agent) (p : Nat → KUnit → Bool) : Bool :=
  match s.unitOfAgent x with
  | some (u, un) => p u un
  | none => false

/-- Whether an agent is a member of the instance of a scope that thread t of warp w of unit u has (Table 9.1). -/
def State.member (s : State) (sc : Scope) (u w t : Nat) (x : Agent) : Bool :=
  let package : Bool := s.agentIn x (fun _ _ => true) || match x with
    | .dieUnits d => decide (d < 2)
    | _ => false
  let partition : Bool := package || match x with
    | .peer d => s.inPartition d
    | _ => false
  match s.unit? u with
  | none => false
  | some un =>
    match sc with
    | .thread => x = .thread u w t && (s.unitOfAgent x).isSome
    | .warp => s.agentIn x fun v _ => v = u && match x with
      | .thread _ k _ => k = w
      | _ => false
    | .unit => s.agentIn x fun v _ => v = u
    | .cluster => s.agentIn x fun v _ => v = u || (Map.vals un.mates).contains v
    | .die => s.agentIn x fun _ vn => dieOf vn.core = dieOf un.core
    | .dev => package
    | .part => partition
    | .sys => partition || x = .host

/-- The scope condition of R291: each of two threads is a member of the instance of the other's scope. -/
def State.scopesMeet (s : State) (sa : Scope) (a : Nat × Nat × Nat) (sb : Scope) (b : Nat × Nat × Nat) : Bool :=
  s.member sa a.1 a.2.1 a.2.2 (.thread b.1 b.2.1 b.2.2) && s.member sb b.1 b.2.1 b.2.2 (.thread a.1 a.2.1 a.2.2)

end Sys2Proof.Machine
end

