-- ==== Sys2Proof/Safety.lean ====
section
/-! DEFINITION. The terms in which claims about the machine are made: when a word may act, what a word of the lanes changes and
what it leaves alone. -/
namespace Sys2Proof.Machine

/-- The word of the executing fragment `c` is past the tests of R53 step 4 and the interlock of R19: its registers lie in the window and are
aligned, and nothing in flight is still to write one of them. -/
def Ready (s : State) (c : Ctx) (use : List Opn) (ps : List PredReg) : Prop :=
  s.ctx? = some c ∧ c.inWindow use = true ∧ aligned use = true ∧ c.interlocked use ps = false

/-- The counter of a path, or the flag that the fragment's next long-latency word is bound to, has no room (R32, R299). -/
def Ctx.full (c : Ctx) (p : Option PathId) : Bool :=
  (match p with
    | some q => decide (4095 ≤ c.u.pathCount q)
    | none => false)
  || match c.fr.flag with
    | some k => decide (63 ≤ c.u.flagValue c.f.warp k c.fr.mask)
    | none => false

/-- A commit of active threads of the executing fragment is in flight (R187). -/
def Ctx.tendPending (c : Ctx) : Bool := c.u.tendBusy c.f.warp c.act

/-- An access of active threads of the executing fragment outside unordered pages has still to perform, or a commit of theirs to be made (R288). -/
def Ctx.unperformed (c : Ctx) : Bool := !(c.u.performedBy c.f.warp c.act false)

/-- What a word writes in the registers of a warp, by register or quad or predicate and thread, and the exceptions it raises by thread. -/
structure Delta where
  reg : Nat → Nat → Option Word
  quad : Nat → Nat → Option Bool
  pred : PredReg → Nat → Option Bool
  ff : Nat → BitVec 5

/-- The last value that a list of writes gives a register. -/
def lastWrite {α : Type} {β : Type} [DecidableEq α] (l : List (α × β)) (r : α) : Option β := (l.reverse.find? fun p => p.1 = r).map (·.2)

/-- The writes of a word whose active threads write what `out` says: a register written clears the capability tag of its quad (R30), and
p7 is never written (R31). -/
def Delta.of (m : Mask) (out : Nat → Out) : Delta where
  reg r t := if m.getLsbD t then lastWrite (out t).regs r else none
  quad q t := if m.getLsbD t && (out t).regs.any (fun p => p.1 / 4 = q) then some false else none
  pred p t := if m.getLsbD t && p ≠ 7#3 then lastWrite (out t).preds p else none
  ff t := if m.getLsbD t then (out t).ff else 0#5

/-- Warp `v` is warp `w` with the writes of `d`, and nothing else but register tags changed. -/
structure WarpEffect (w v : Warp) (d : Delta) : Prop where
  rest : v = { w with regs := v.regs, rtags := v.rtags, qtags := v.qtags, preds := v.preds, fflags := v.fflags }
  reg : ∀ r t, t < 32 → v.reg r t = (d.reg r t).getD (w.reg r t)
  quad : ∀ q t, t < 32 → v.qtag q t = (d.quad q t).getD (w.qtag q t)
  pred : ∀ p t, t < 32 → v.pred p t = (d.pred p t).getD (w.pred p t)
  flags : ∀ t, t < 32 → v.flags t = w.flags t ||| d.ff t

/-- State `t` is state `s` after a word of fragment `c.f`: warp `v` stands in place of its warp but for the fragment itself, which is now `x`;
the core's counters of retired words may have moved (Table 1.2); every other fragment, warp, unit and core, all of memory and every
other part of the state are as they were. -/
structure Becomes (s t : State) (c : Ctx) (v : Warp) (x : Frag) : Prop where
  rest : t = { s with units := t.units, cores := t.cores }
  cores : ∀ k, k ≠ c.u.core → t.core k = s.core k
  core : t.core c.u.core =
    { s.core c.u.core with
      pmcWarp := (t.core c.u.core).pmcWarp, pmcScalar := (t.core c.u.core).pmcScalar, pmcBeats := (t.core c.u.core).pmcBeats }
  units : ∀ u, u ≠ c.f.unit → t.unit? u = s.unit? u
  unit : ∃ ws, t.unit? c.f.unit = some { c.u with warps := ws } ∧ ∀ w, w ≠ c.f.warp → Map.look ws w = Map.look c.u.warps w
  warp : ∃ fs, t.warp? c.f.unit c.f.warp = some { v with frags := fs } ∧ (∀ i, i ≠ c.f.fidx → Map.look fs i = Map.look v.frags i)
    ∧ Map.look fs c.f.fidx = some x

/-- The fragment retired a word of `n` words: it has advanced, and the core has counted one retired warp instruction (Table 1.2). -/
def Retired (s t : State) (c : Ctx) (n : Nat) (v : Warp) : Prop :=
  Becomes s t c v (c.fr.nextWord n) ∧ (t.core c.u.core).pmcWarp = (s.core c.u.core).pmcWarp + 1#64

/-- No thread of the fragment holds the solitary grant (R188). -/
def NotSolitary (s : State) (c : Ctx) : Prop := ∀ t < 32, c.fr.mask.getLsbD t = true → s.soloHolder ≠ some (c.f.unit, c.f.warp, t)

/-- The whole fragment parks with a fault record and hands it to the poster (R273, R417): nothing else of the machine changes but the
core's serial number. -/
structure FaultsWhole (s t : State) (c : Ctx) (cause : Nat) (addr : Word64) (hint : Nat) (replay : Bool) : Prop where
  rest : t = { s with units := t.units, cores := t.cores, posts := s.posts ++ [.frag c.f (s.core c.u.core).serial] }
  cores : ∀ k, k ≠ c.u.core → t.core k = s.core k
  core : t.core c.u.core = { s.core c.u.core with serial := (s.core c.u.core).serial + 1#16 }
  units : ∀ u, u ≠ c.f.unit → t.unit? u = s.unit? u
  unit : ∃ ws, t.unit? c.f.unit = some { c.u with warps := ws } ∧ ∀ w, w ≠ c.f.warp → Map.look ws w = Map.look c.u.warps w
  warp : ∃ fs, t.warp? c.f.unit c.f.warp = some { c.w with frags := fs } ∧ ∀ i, i ≠ c.f.fidx → Map.look fs i = Map.look c.w.frags i
  frag : t.frag? c.f = some
    { c.fr with
      actm := c.fr.actm &&& c.fr.mask, done := c.fr.done &&& c.fr.mask, status := .parkedFault, wake := .none
      frec := some
        { cause := cause, replay := replay, serial := (s.core c.u.core).serial, hint := hint, pc := c.fr.pc, mask := c.fr.mask
          done := c.fr.done &&& c.fr.mask, addr := addr, core := c.u.core, await := [] }
      lane := false }

/-- Instruction `i` completes for the executing fragment `c`: it answers a next state in which the active threads have written what `out`
says and nothing else of the machine has changed but the fragment's position and the core's counters. -/
def Writes (i : Instr) (s : State) (c : Ctx) (n : Nat) (out : Nat → Out) : Prop :=
  ∃ t v, exec i s = .next t ∧ WarpEffect c.w v (Delta.of c.act out) ∧ Retired s t c n v

/-- The writes of a word that puts the 128 bits and the tag of `q` into the four registers from `r` up in each active thread. -/
def Delta.ofQuad (m : Mask) (r : Nat) (q : Nat → BitVec 128 × Bool) : Delta where
  reg x t := if m.getLsbD t && decide (r ≤ x) && decide (x < r + 4) then some ((q t).1.extractLsb' (32 * (x - r)) 32) else none
  quad x t := if m.getLsbD t && x = r / 4 then some (q t).2 else none
  pred _ _ := none
  ff _ := 0#5

/-- The word completes and writes quad cd, with its tag, in the active threads, and nothing else. -/
def WritesQuad (i : Instr) (s : State) (c : Ctx) (n : Nat) (d : CapReg) (q : Nat → BitVec 128 × Bool) : Prop :=
  ∃ t v, exec i s = .next t ∧ WarpEffect c.w v (Delta.ofQuad c.act (c.base + 4 * d.toNat) q) ∧ Retired s t c n v

/-- The word completes and writes a capability with its tag into cd in the active threads, and nothing else. -/
def WritesCap (i : Instr) (s : State) (c : Ctx) (n : Nat) (d : CapReg) (r : Nat → Cap × Bool) : Prop :=
  WritesQuad i s c n d fun t => ((r t).1.bits, (r t).2)

/-! ### Memory accesses (05 R163 to R170, 06 R174 to R178) -/

/-- A memory word's access (Tables 5.3, 5.6, 6.1): reads need permission 0, writes 1, atomics 0 to 2, update-only reductions 1 and 2; plain loads
and stores need no alignment; acquires and releases are ordered; atomics and reductions do not name host space. -/
def accessForm (kind : AccKind) (size regs : Nat) (acq rel : Option Scope) (sext : Bool) (d : Reg) (mr : MemRef) : MemIns :=
  { want :=
      { size := size
        need := match kind with
          | .load => 1
          | .loadCap => 1
          | .store => 2
          | .storeCap => 2
          | .atom _ => 7
          | .red _ => 6
        kind := kind, align := !(kind = .load || kind = .store) || acq.isSome || rel.isSome, order := acq.isSome || rel.isSome
        spaces := if isRmw kind then [0, 1, 2, 3] else [0, 1, 2, 3, 4] }
    reg := d, regs := regs, ral := regs, acq := acq, rel := rel, sext := sext, mr := mr }

/-- The scope of an atomic: scope 0 asks for no order (R178). -/
def scopeOf (sc : Scope) : Option Scope := if sc = .thread then none else some sc

/-- The access of each memory word of 05 and 06. -/
def accessOf : Instr → Option MemIns
  | .ldN8 d mr => some (accessForm .load 1 1 none none false d mr)
  | .ldI8 d mr => some (accessForm .load 1 1 none none true d mr)
  | .ldN16 d mr => some (accessForm .load 2 1 none none false d mr)
  | .ldI16 d mr => some (accessForm .load 2 1 none none true d mr)
  | .ldN32 d mr => some (accessForm .load 4 1 none none false d mr)
  | .ldN64 d mr => some (accessForm .load 8 2 none none false d mr)
  | .stN8 d mr => some (accessForm .store 1 1 none none false d mr)
  | .stN16 d mr => some (accessForm .store 2 1 none none false d mr)
  | .stN32 d mr => some (accessForm .store 4 1 none none false d mr)
  | .stN64 d mr => some (accessForm .store 8 2 none none false d mr)
  | .ldc d mr => some (accessForm .loadCap 16 4 none none false d mr)
  | .stc d mr => some (accessForm .storeCap 16 4 none none false d mr)
  | .ldaN32 sc d mr => some (accessForm .load 4 1 (some sc) none false d mr)
  | .stlN32 sc d mr => some (accessForm .store 4 1 none (some sc) false d mr)
  | .ldaN64 sc d mr => some (accessForm .load 8 2 (some sc) none false d mr)
  | .stlN64 sc d mr => some (accessForm .store 8 2 none (some sc) false d mr)
  | .atomAddN32 sc d mr => some (accessForm (.atom .addN) 4 1 (scopeOf sc) (scopeOf sc) false d mr)
  | .atomAddN64 sc d mr => some (accessForm (.atom .addN) 8 2 (scopeOf sc) (scopeOf sc) false d mr)
  | .atomAddF32 sc d mr => some (accessForm (.atom .addF) 4 1 (scopeOf sc) (scopeOf sc) false d mr)
  | .atomMinI32 sc d mr => some (accessForm (.atom .minI) 4 1 (scopeOf sc) (scopeOf sc) false d mr)
  | .atomMinI64 sc d mr => some (accessForm (.atom .minI) 8 2 (scopeOf sc) (scopeOf sc) false d mr)
  | .atomMinN32 sc d mr => some (accessForm (.atom .minN) 4 1 (scopeOf sc) (scopeOf sc) false d mr)
  | .atomMinN64 sc d mr => some (accessForm (.atom .minN) 8 2 (scopeOf sc) (scopeOf sc) false d mr)
  | .atomMaxI32 sc d mr => some (accessForm (.atom .maxI) 4 1 (scopeOf sc) (scopeOf sc) false d mr)
  | .atomMaxI64 sc d mr => some (accessForm (.atom .maxI) 8 2 (scopeOf sc) (scopeOf sc) false d mr)
  | .atomMaxN32 sc d mr => some (accessForm (.atom .maxN) 4 1 (scopeOf sc) (scopeOf sc) false d mr)
  | .atomMaxN64 sc d mr => some (accessForm (.atom .maxN) 8 2 (scopeOf sc) (scopeOf sc) false d mr)
  | .atomAndN32 sc d mr => some (accessForm (.atom .andB) 4 1 (scopeOf sc) (scopeOf sc) false d mr)
  | .atomAndN64 sc d mr => some (accessForm (.atom .andB) 8 2 (scopeOf sc) (scopeOf sc) false d mr)
  | .atomOrN32 sc d mr => some (accessForm (.atom .orB) 4 1 (scopeOf sc) (scopeOf sc) false d mr)
  | .atomOrN64 sc d mr => some (accessForm (.atom .orB) 8 2 (scopeOf sc) (scopeOf sc) false d mr)
  | .atomXorN32 sc d mr => some (accessForm (.atom .xorB) 4 1 (scopeOf sc) (scopeOf sc) false d mr)
  | .atomXorN64 sc d mr => some (accessForm (.atom .xorB) 8 2 (scopeOf sc) (scopeOf sc) false d mr)
  | .atomExchN32 sc d mr => some (accessForm (.atom .exch) 4 1 (scopeOf sc) (scopeOf sc) false d mr)
  | .atomExchN64 sc d mr => some (accessForm (.atom .exch) 8 2 (scopeOf sc) (scopeOf sc) false d mr)
  | .atomCasN32 sc d mr => some (accessForm (.atom .cas) 4 2 (scopeOf sc) (scopeOf sc) false d mr)
  | .atomCasN64 sc d mr => some (accessForm (.atom .cas) 8 4 (scopeOf sc) (scopeOf sc) false d mr)
  | .redAddN32 sc d mr => some (accessForm (.red .addN) 4 1 none (scopeOf sc) false d mr)
  | .redAddN64 sc d mr => some (accessForm (.red .addN) 8 2 none (scopeOf sc) false d mr)
  | .redAddF32 sc d mr => some (accessForm (.red .addF) 4 1 none (scopeOf sc) false d mr)
  | .redMinI32 sc d mr => some (accessForm (.red .minI) 4 1 none (scopeOf sc) false d mr)
  | .redMinI64 sc d mr => some (accessForm (.red .minI) 8 2 none (scopeOf sc) false d mr)
  | .redMinN32 sc d mr => some (accessForm (.red .minN) 4 1 none (scopeOf sc) false d mr)
  | .redMinN64 sc d mr => some (accessForm (.red .minN) 8 2 none (scopeOf sc) false d mr)
  | .redMaxI32 sc d mr => some (accessForm (.red .maxI) 4 1 none (scopeOf sc) false d mr)
  | .redMaxI64 sc d mr => some (accessForm (.red .maxI) 8 2 none (scopeOf sc) false d mr)
  | .redMaxN32 sc d mr => some (accessForm (.red .maxN) 4 1 none (scopeOf sc) false d mr)
  | .redMaxN64 sc d mr => some (accessForm (.red .maxN) 8 2 none (scopeOf sc) false d mr)
  | .redAndN32 sc d mr => some (accessForm (.red .andB) 4 1 none (scopeOf sc) false d mr)
  | .redAndN64 sc d mr => some (accessForm (.red .andB) 8 2 none (scopeOf sc) false d mr)
  | .redOrN32 sc d mr => some (accessForm (.red .orB) 4 1 none (scopeOf sc) false d mr)
  | .redOrN64 sc d mr => some (accessForm (.red .orB) 8 2 none (scopeOf sc) false d mr)
  | .redXorN32 sc d mr => some (accessForm (.red .xorB) 4 1 none (scopeOf sc) false d mr)
  | .redXorN64 sc d mr => some (accessForm (.red .xorB) 8 2 none (scopeOf sc) false d mr)
  | _ => none

/-- Check n + 1 of R164 on the access of thread t through a memory operand, for n up to 6; `stag` says that it stores a tagged
capability. -/
def Ctx.test (c : Ctx) (s : State) (w : Want) (mr : MemRef) (stag : Bool) (t n : Nat) : Prop :=
  let k := c.cap mr.c t
  let a := c.addr mr t
  match n with
  | 0 => c.capTag mr.c t = true ∧ k.bounds ≠ none ∧ k.rsv = 0
  | 1 => k.space ∈ w.spaces ∧ (k.space = 1 → a < 2 ^ 19)
      ∧ (k.space = 2 → a < 2 ^ 22 ∧ a / 2 ^ 19 ≤ c.u.sizeM1 ∧ a / 2 ^ 19 ∉ c.u.rankEnded)
      ∧ (k.space = 3 → s.inPartition (a / 2 ^ 45) = true)
  | 2 => k.perm &&& w.need = w.need ∧ (stag = true → k.has 4 = true ∧ k.space ≠ 3 ∧ k.space ≠ 4)
  | 3 => (∃ b e, k.bounds = some (b, e) ∧ b ≤ a ∧ a + w.size ≤ e)
      ∧ (k.space = 1 ∨ k.space = 2 → a % 2 ^ 19 + w.size ≤ c.l.scratch)
  | 4 => w.align = true → a % w.size = 0
  | 5 => writes w.kind = true → nodeSpec c.w.node = true → k.space = 0 ∨ k.space = 3 ∨ k.space = 4 → k.has 6 = true
  | _ => writes w.kind = true → k.space = 1 ∨ k.space = 2 → ∀ x, s.unit? (c.target k.space a) = some x → ∀ b ∈ Map.keys x.bars,
      a % 2 ^ 19 + w.size ≤ b ∨ b + 16 ≤ a % 2 ^ 19

/-- The cause of each of those checks (R164). -/
def testCause (n : Nat) : Nat := [0x10, 0x11, 0x12, 0x13, 0x14, 0x15, 0x20].getD n 0

/-- Checks 7 and 8 of R164 pass on the leaf of an address. -/
structure Ctx.Grants (c : Ctx) (s : State) (w : Want) (stag : Bool) (va : Nat) (l : Leaf) : Prop where
  walk : s.walk c.l.ctx va = .ok l
  rd : reads w.kind = true → l.rd = true
  wr : writes w.kind = true → l.wr = true
  tag : stag = true → l.tag = true
  spec : writes w.kind = true → nodeSpec c.w.node = true → s.specPage c.w.node l = true
  order : w.order = true → l.kind ≠ .u

/-- Checks 7 to 9 of R164 pass for thread t, whose bytes lie at `l`. -/
def Ctx.Lies (c : Ctx) (s : State) (w : Want) (mr : MemRef) (stag : Bool) (t : Nat) (l : List ByteLoc) : Prop :=
  let k := c.cap mr.c t
  let a := c.addr mr t
  (k.space = 1 ∨ k.space = 2 → l = (span (a % 2 ^ 19) w.size).map (.scr (c.target k.space a)))
  ∧ (k.space = 4 → (writes w.kind = true → nodeSpec c.w.node = false) ∧ l = (span a w.size).map .host)
  ∧ (k.space = 3 → ∃ e x, Map.look (s.die (dieOf c.u.core)).exports c.l.ctx = some e
      ∧ findWindow e (a / 2 ^ 45) (a % 2 ^ 45) w.size = some x ∧ x.perm &&& (w.need &&& 7) = w.need &&& 7
      ∧ (∀ v ∈ span (a % 2 ^ 45) w.size,
          (writes w.kind = true → nodeSpec c.w.node = true → Config.peerSpec (a / 2 ^ 45) x.tctx (v / 131072) = true)
          ∧ (w.order = true → Config.peerKind (a / 2 ^ 45) x.tctx (v / 131072) ≠ .u))
      ∧ l = (span (a % 2 ^ 45) w.size).map fun v => .peer (a / 2 ^ 45) x.tctx v 0)
  ∧ (k.space = 0 → ∃ p q : Leaf, c.Grants s w stag a p
      ∧ (p.covers (a + w.size - 1) = false → c.Grants s w stag (a + w.size - 1) q)
      ∧ (∀ v ∈ span a w.size, s.ringBead ((if p.covers v then p else q).pa v) = none)
      ∧ l = (span a w.size).map fun v => .phys ((if p.covers v then p else q).pa v) (if p.covers v then p else q).kind c.l.ctx v (if p.covers v then p else q).use)

/-- Every translation that the core's die holds for the fragment's context is what the walk gives, and no update-only partial stands on the
entries that such a walk reads, so that it combines nothing (R180). -/
def HeldTrue (s : State) (c : Ctx) : Prop :=
  (∀ va, s.combineWalk c.l.ctx va = s) ∧ ∀ e ∈ (s.die (dieOf c.u.core)).tlb, e.ctx = c.l.ctx → ∀ va, e.leaf.covers va = true → s.walk c.l.ctx va = .ok e.leaf

/-- The fragment after a long-latency word of `n` words: the next such word of its clause takes the second flag (R43). -/
def Frag.passed (x : Frag) (n : Nat) : Frag :=
  ({ x with clause := x.clause.map fun k => { k with ll := k.ll + 1 } } : Frag).nextWord n

/-- The operation that the fragment's present word puts in flight, for its active threads; the first long-latency word of a clause has the
flag SET1, the second SET2, and 15 is none (R43); its place in the core's issue order is the core's stamp. -/
def Ctx.newOp (c : Ctx) (s : State) (path : Option PathId) (kind : OpKind) (items : List Item) (dst : Option Dst) (pd : Option PredReg) : Op :=
  { id := c.u.nextOp, warp := c.f.warp, fidx := c.f.fidx, path := path
    flag := c.fr.clause.bind fun k => if (if k.ll = 0 then k.set1 else k.set2) < 12 then some (if k.ll = 0 then k.set1 else k.set2) else none
    mask := c.act, kind := kind, items := items, dst := dst, pd := pd
    at_ := ⟨c.fr.pc, c.fr.clause, c.fr.actm, c.fr.fmt, c.fr.win⟩, fails := [], ord := (s.core c.u.core).stamp, done := false }

/-- State `t` is state `s` after the fragment's word put operation `o` in flight, of length `n`: warp `v` stands in place of its warp but for
the fragment itself; held translations, packet numbers and counters of retired words may have moved; nothing else has. -/
structure Issued (s t : State) (c : Ctx) (n : Nat) (o : Op) (v : Warp) : Prop where
  rest : t = { s with units := t.units, cores := t.cores, dies := t.dies, peerSeq := t.peerSeq }
  dies : ∀ d, t.die d = { s.die d with tlb := (t.die d).tlb }
  cores : ∀ k, k ≠ c.u.core → t.core k = s.core k
  core : t.core c.u.core =
    { s.core c.u.core with
      stamp := (s.core c.u.core).stamp + 1, pmcWarp := (s.core c.u.core).pmcWarp + 1#64, pmcScalar := (t.core c.u.core).pmcScalar
      pmcBeats := (t.core c.u.core).pmcBeats }
  units : ∀ u, u ≠ c.f.unit → t.unit? u = s.unit? u
  unit : ∃ ws, t.unit? c.f.unit = some { c.u with warps := ws, nextOp := c.u.nextOp + 1, ops := c.u.ops ++ [o] }
    ∧ ∀ w, w ≠ c.f.warp → Map.look ws w = Map.look c.u.warps w
  warp : ∃ fs, t.warp? c.f.unit c.f.warp = some { v with frags := fs } ∧ (∀ i, i ≠ c.f.fidx → Map.look fs i = Map.look v.frags i)
    ∧ Map.look fs c.f.fidx = some (c.fr.passed n)

/-- Part `i` of operation `op` of unit `u` has performed; a part that reads has kept what it read. -/
def Performed (s t : State) (u op : Nat) (i : Item) : Prop :=
  ∃ un vn data, s.unit? u = some un ∧ t.unit? u = some vn ∧ vn.ops = un.ops.map fun x =>
    if x.id = op then
      { x with items := x.items.map fun j =>
          if j.thread = i.thread && j.off = i.off then { j with done := true, data := if reads i.kind then data else j.data } else j }
    else x

/-- The value that an atomic of `n` bytes stores (R177, Table 6.1). -/
def rmwValue (op : RmwOp) (n old x cmp : Nat) : Nat :=
  let sg (v : Nat) : Int := (BitVec.ofNat (8 * n) v).toInt
  match op with
  | .addN => (old + x) % 256 ^ n
  | .addF => (memAddF32 (BitVec.ofNat 32 old) (BitVec.ofNat 32 x)).toNat
  | .minI => if sg x < sg old then x else old
  | .minN => min old x
  | .maxI => if sg old < sg x then x else old
  | .maxN => max old x
  | .andB => old &&& x
  | .orB => old ||| x
  | .xorB => old ^^^ x
  | .exch => x
  | .cas => if old = cmp then x else old

/-- The words that a load of `n` bytes puts into consecutive registers (R167). -/
def loadWord (n : Nat) (sext : Bool) (v k : Nat) : Word :=
  if n < 4 then (if sext then (BitVec.ofNat (8 * n) v).signExtend 32 else BitVec.ofNat 32 v) else BitVec.ofNat 32 (v / 2 ^ (32 * k))

/-- Register `a` of the lowest active thread names a barrier of the fragment's own unit at a scratch offset (R191): by the offset alone, or with the
unit's own rank. -/
def Ctx.BarAt (c : Ctx) (a : Reg) (off : Nat) : Prop :=
  off % 16 = 0 ∧ off + 16 ≤ c.l.scratch ∧ off < 2 ^ 19 ∧
    ((c.rd a c.low).toNat = off
      ∨ (c.u.rank < 8 ∧ c.u.rank ≤ c.u.sizeM1 ∧ (c.rd a c.low).toNat = 2 ^ 22 + c.u.rank * 2 ^ 19 + off))

/-- A bead operand that Table 6.11 allows: reserved bits zero, HDR only for BREAD and then without WORD, and WORD only for BCAP and BREAD. -/
def beadOperand (hdr word : Bool) (v : Word) : Prop :=
  v.toNat < 2 ^ 17 ∧ v.toNat / 2 ^ 9 % 8 = 0 ∧ (v.toNat / 2 ^ 16 % 2 = 1 → hdr = true ∧ v.toNat / 2 ^ 12 % 16 = 0)
    ∧ (v.toNat / 2 ^ 12 % 16 ≠ 0 → word = true)

/-- The Circlet words but BOARD and BPASS: what they do, vd, va, whether HDR and WORD may be set, registers named, and a thread's operand and
new value (R209 to R211). -/
def circOf (c : Ctx) : Instr → Option (CircKind × Reg × Reg × Bool × Bool × List Opn × (Nat → Word) × (Nat → Word))
  | .alight d a => some (.alight, d, a, false, false, [opV d, opV a], fun _ => 0#32, fun _ => 0#32)
  | .bcapAdd d a b => some (.add, d, a, false, true, [opV d, opV a, opV b], c.rd b, fun _ => 0#32)
  | .bcapAnd d a b => some (.and, d, a, false, true, [opV d, opV a, opV b], c.rd b, fun _ => 0#32)
  | .bcapOr d a b => some (.or, d, a, false, true, [opV d, opV a, opV b], c.rd b, fun _ => 0#32)
  | .bcapSwap d a b => some (.swap, d, a, false, true, [opV d, opV a, opV b], c.rd b, fun _ => 0#32)
  | .bcapFadd d a b => some (.fadd, d, a, false, true, [opV d, opV a, opV b], c.rd b, fun _ => 0#32)
  | .bcapMin m d a b => some (if m then .minN else .minI, d, a, false, true, [opV d, opV a, opV b], c.rd b, fun _ => 0#32)
  | .bcapMax m d a b => some (if m then .maxN else .maxI, d, a, false, true, [opV d, opV a, opV b], c.rd b, fun _ => 0#32)
  | .bcapCas d a b => some (.cas, d, a, false, true, [opV d, opV a, opP b], c.rd b, fun u => c.w.reg (c.base + b.toNat + 1) u)
  | .bread d a => some (.read, d, a, true, true, [opV d, opV a], fun _ => 0#32, fun _ => 0#32)
  | _ => none

/-- The word that a BCAP or BREAD leaves in the bead (R210, R211). -/
def circValue (k : CircKind) (old x y : Word) : Word :=
  match k with
  | .add => old + x
  | .minI => if x.slt old then x else old
  | .minN => if x.ult old then x else old
  | .maxI => if old.slt x then x else old
  | .maxN => if old.ult x then x else old
  | .and => old &&& x
  | .or => old ||| x
  | .swap => x
  | .cas => if old = x then y else old
  | .fadd => memAddF32 old x
  | _ => old

/-- The matrix words: kind, whether B is a scratchpad tile, n - 1, va and vb (R216, Table 7.1). -/
def mmaOf : Instr → Option (MmaKind × Bool × BitVec 7 × Reg × Reg)
  | .mmaBf16 m d a b => some (.bf16, m, d, a, b)
  | .mmaF16 m d a b => some (.f16, m, d, a, b)
  | .mmaF32 m d a b => some (.f32, m, d, a, b)
  | .mmaK4 m d a b => some (.k4, m, d, a, b)
  | .mmaI8 m d a b => some (.i8, m, d, a, b)
  | .mmabXor m d a b => some (.xor, m, d, a, b)
  | .mmabAnd m d a b => some (.and, m, d, a, b)
  | _ => none

/-- An accumulator word: the registers it names, whether it is long-latency, whether it reads rows, its result, its tile (register and row bytes), and
the operation it queues. -/
structure AccWord where
  use : List Opn
  ll : Bool
  reads : Bool
  dst : Option Reg
  tile : Option (Reg × Nat)
  kind : EngKind

/-- The accumulator words (R221 to R227, Table 7.5). -/
def accOf (c : Ctx) : Instr → Option AccWord
  | .accz => some ⟨[], false, false, none, none, .accz false⟩
  | .acczAll => some ⟨[], false, false, none, none, .accz true⟩
  | .accldF32 a => some ⟨[opV a], true, false, none, some (a, 512), .accld .f32 (c.rd a c.low).toNat⟩
  | .accldBf16 a => some ⟨[opV a], true, false, none, some (a, 256), .accld .bf16 (c.rd a c.low).toNat⟩
  | .accldF16 a => some ⟨[opV a], true, false, none, some (a, 256), .accld .f16 (c.rd a c.low).toNat⟩
  | .accstF32 a => some ⟨[opV a], true, true, none, some (a, 512), .accst .f32 (c.rd a c.low).toNat []⟩
  | .accstBf16 a => some ⟨[opV a], true, true, none, some (a, 256), .accst .bf16 (c.rd a c.low).toNat []⟩
  | .accstF16 a => some ⟨[opV a], true, true, none, some (a, 256), .accst .f16 (c.rd a c.low).toNat []⟩
  | .accstI8 a b =>
    some ⟨[opV a, opV b], true, true, none, some (a, 128), .accst .i8 (c.rd a c.low).toNat ((threads c.act).map fun t => (t, c.rd b t))⟩
  | .accsv a => some ⟨[opV a], true, true, none, some (a, 576), .accsv (c.rd a c.low).toNat⟩
  | .accrs a => some ⟨[opV a], true, false, none, some (a, 576), .accrs (c.rd a c.low).toNat⟩
  | .accmx m d b =>
    some ⟨[opV d], false, true, some d, none,
      .accmx (b.toNat + 1) (if m then some ((threads c.act).map fun t => (t, c.rd d t)) else none)⟩
  | .accexs d a b =>
    some ⟨[opV d, opV a], false, true, some d, none, .accexs (b.toNat + 1) ((threads c.act).map fun t => (t, c.rd a t))⟩
  | .accmsk => some ⟨[], false, true, none, none, .accmsk⟩
  | _ => none

/-- The words that send a command per thread to a home tree unit: registers named, vd and its width, what they ask, and a thread's operands (R246 to R249,
R254 to R258). -/
def treeOf (c : Ctx) : Instr → Option (List Opn × Option (Reg × Nat) × TreeAsk × (Nat → Word64) × (Nat → Word64))
  | .nfork d a => some ([opV d, opP a], some (d, 1), .fork, c.rdP a, fun _ => 0#64)
  | .nprune d a => some ([opV d, opP a], some (d, 1), .prune, c.rdP a, fun _ => 0#64)
  | .ncommit m d a => some ([opV d, opP a], some (d, 1), .commit m, c.rdP a, fun _ => 0#64)
  | .nquery m d a => some ([opV d, opP a], some (d, 1), .query m, c.rdP a, fun _ => 0#64)
  | .kvmap m d a b => some ([opP d, opP a, opV b], some (d, 2), .map m, c.rdP a, fun t => (c.rd b t).zeroExtend 64)
  | .kvref d a b => some ([opV d, opP a, opP b], some (d, 1), .ref, c.rdP a, c.rdP b)
  | .kvrel d a b => some ([opV d, opP a, opV b], some (d, 1), .rel, c.rdP a, fun t => (c.rd b t).zeroExtend 64)
  | .kvshoot a b => some ([opP a, opP b], none, .shoot, c.rdP a, c.rdP b)
  | _ => none

/-- No update-only partial waits anywhere (R180): what memory holds is what a read returns. -/
def State.NoPartials (s : State) : Prop := ∀ k, (s.core k).reds = [] ∧ (s.core k).held = []

/-- Memory of `t` is memory of `s` but for the bytes `bs` at a physical address. -/
def Stored (s t : State) (pa : Nat) (bs : List Byte) : Prop :=
  ∀ a, t.byte a = if pa ≤ a ∧ a < pa + bs.length then bs.getD (a - pa) 0#8 else s.byte a

/-! ### Matrix arithmetic (R86 to R89) -/

/-- A subnormal pattern. -/
def Fmt.subnormal (f : Fmt) (p : Nat) : Bool := decide (p % f.signBit ≠ 0) && decide (p % f.signBit < 2 ^ f.mb)

/-- A pattern, a subnormal one as zero of its sign (R86). -/
def Fmt.flush (f : Fmt) (p : Nat) : Nat := if f.subnormal p then p / f.signBit * f.signBit else p

/-- The value with which a pattern enters a matrix step (R86). -/
def Fmt.enters (f : Fmt) (p : Nat) : FVal := if (f.val p).isNan then .nan false else f.val (f.flush p)

/-- The counters of a row after events (R35, R89, Table 1.17): each stops at 255. -/
def mxAfter (x : BitVec 24) (flush ovf inv : Nat) : BitVec 24 :=
  BitVec.ofNat 24
    (min 255 (x.toNat / 65536 + flush) * 65536 + min 255 (x.toNat / 256 % 256 + ovf) * 256 + min 255 (x.toNat % 256 + inv))

/-- Node j of level k of the sum tree of R226. -/
def treeSum (y : Nat → FVal) : Nat → Nat → FVal
  | 0, j => y j
  | k + 1, j => round24 (fadd .rn (treeSum y k (2 * j)) (treeSum y k (2 * j + 1))).1

/-! ### The numbers that patterns stand for (R73) -/

/-- R82, R125: the integer that a rounding mode selects for a number. -/
def IntegerFor (mode : RMode) (x : ℚ) (n : ℤ) : Prop :=
  match mode with
  | .rn => |(n : ℚ) - x| ≤ 1 / 2 ∧ (|(n : ℚ) - x| = 1 / 2 → n % 2 = 0)
  | .rz => n = if 0 ≤ x then ⌊x⌋ else ⌈x⌉
  | .ru => n = ⌈x⌉
  | .rd => n = ⌊x⌋

/-- The rational number of a finite value; 0 for the others. -/
def FVal.rat : FVal → ℚ
  | .fin neg m e => (if neg then -1 else 1) * m * 2 ^ e
  | _ => 0

/-- The pattern is a finite number of the format. -/
def Fmt.Finite (f : Fmt) (x : Nat) : Prop := x < 2 * f.signBit ∧ x % f.signBit < f.inf

/-- The number of a pattern. -/
def Fmt.rat (f : Fmt) (x : Nat) : ℚ := (f.val x).rat

/-- R79: finite pattern `r` is the rounding of `x` in a mode, where `x` does not overflow. -/
def Fmt.Nearest (f : Fmt) (mode : RMode) (x : ℚ) (r : Nat) : Prop :=
  match mode with
  | .rn => ∀ y, f.Finite y → |f.rat r - x| ≤ |f.rat y - x| ∧ (|f.rat r - x| = |f.rat y - x| → f.rat y ≠ f.rat r → r % 2 = 0)
  | .rz => |f.rat r| ≤ |x| ∧ ∀ y, f.Finite y → |f.rat y| ≤ |x| → |f.rat y| ≤ |f.rat r|
  | .ru => x ≤ f.rat r ∧ ∀ y, f.Finite y → x ≤ f.rat y → f.rat r ≤ f.rat y
  | .rd => f.rat r ≤ x ∧ ∀ y, f.Finite y → f.rat y ≤ x → f.rat y ≤ f.rat r

/-- R79: a number whose rounding with an unbounded exponent exceeds the largest finite number. -/
def Fmt.Overflows (f : Fmt) (mode : RMode) (x : ℚ) : Prop :=
  match mode with
  | .rn => (2 - 2 ^ (-(f.mb + 1 : Int))) * 2 ^ f.bias ≤ |x|
  | .rz => 2 ^ (f.bias + 1) ≤ |x|
  | .ru => if 0 ≤ x then f.rat f.maxFin < x else x ≤ -2 ^ (f.bias + 1)
  | .rd => if 0 ≤ x then 2 ^ (f.bias + 1) ≤ x else x < -f.rat f.maxFin

end Sys2Proof.Machine
end

