-- ==== Sys2Proof/Certificates/Slice0/Obligations.lean ====
section
/-! DEFINITION. The statements about the model, from the rules of the spec. -/

section
open Sys2Proof Sys2Proof.Machine

/-! ### Integer arithmetic, compares, logic and moves (04) -/

/-- (1) R103: ADD, SUB, ADDI, NEG and ABS write the wrapped or the clamped result in each active thread, and change nothing else.

(2) R104, R105, R106: MUL, MULH, MAD, ADDC and LEA write the part of the exact product or sum that the rules name; ADDC also writes its
carry predicate.

(3) R107, R111: MIN and MAX write the smaller or the larger source, signed or unsigned; SEL writes the source its predicate names. -/
def Obligations.IntegerArithmetic : Prop :=
  (
    ∀ (s : State) (c : Ctx) (d a : Reg),
      (∀ b, Ready s c (opV d :: opV a :: opdV b) [] →
        Writes (.addI32 .wrap d a b) s c (opdWords b) (fun t => .ofRegs (c.wr d (c.rd a t + c.rdO b t)))
        ∧ Writes (.addI32 .satI d a b) s c (opdWords b) (fun t => .ofRegs (c.wr d
            (BitVec.ofInt 32 (max (-2147483648) (min ((c.rd a t).toInt + (c.rdO b t).toInt) 2147483647)))))
        ∧ Writes (.addI32 .satN d a b) s c (opdWords b) (fun t => .ofRegs (c.wr d
            (BitVec.ofNat 32 (min ((c.rd a t).toNat + (c.rdO b t).toNat) 4294967295))))
        ∧ Writes (.subI32 .wrap d a b) s c (opdWords b) (fun t => .ofRegs (c.wr d (c.rd a t - c.rdO b t)))
        ∧ Writes (.subI32 .satI d a b) s c (opdWords b) (fun t => .ofRegs (c.wr d
            (BitVec.ofInt 32 (max (-2147483648) (min ((c.rd a t).toInt - (c.rdO b t).toInt) 2147483647)))))
        ∧ Writes (.subI32 .satN d a b) s c (opdWords b) (fun t => .ofRegs (c.wr d
            (BitVec.ofNat 32 ((c.rd a t).toNat - (c.rdO b t).toNat)))))
      ∧ (∀ b, Ready s c (opP d :: opP a :: opdP b) [] →
        Writes (.addI64 .wrap d a b) s c (opdWords b) (fun t => .ofRegs (c.wrP d (c.rdP a t + c.rdO64 true b t)))
        ∧ Writes (.addI64 .satI d a b) s c (opdWords b) (fun t => .ofRegs (c.wrP d
            (BitVec.ofInt 64 (max (-9223372036854775808) (min ((c.rdP a t).toInt + (c.rdO64 true b t).toInt) 9223372036854775807)))))
        ∧ Writes (.addI64 .satN d a b) s c (opdWords b) (fun t => .ofRegs (c.wrP d
            (BitVec.ofNat 64 (min ((c.rdP a t).toNat + (c.rdO64 true b t).toNat) 18446744073709551615))))
        ∧ Writes (.subI64 .wrap d a b) s c (opdWords b) (fun t => .ofRegs (c.wrP d (c.rdP a t - c.rdO64 true b t)))
        ∧ Writes (.subI64 .satI d a b) s c (opdWords b) (fun t => .ofRegs (c.wrP d
            (BitVec.ofInt 64 (max (-9223372036854775808) (min ((c.rdP a t).toInt - (c.rdO64 true b t).toInt) 9223372036854775807)))))
        ∧ Writes (.subI64 .satN d a b) s c (opdWords b) (fun t => .ofRegs (c.wrP d
            (BitVec.ofNat 64 ((c.rdP a t).toNat - (c.rdO64 true b t).toNat)))))
      ∧ (Ready s c [opV d, opV a] [] →
        (∀ imm, Writes (.addiI32 d a imm) s c 1 (fun t => .ofRegs (c.wr d (c.rd a t + imm.signExtend 32))))
        ∧ Writes (.negI32 false d a) s c 1 (fun t => .ofRegs (c.wr d (-(c.rd a t))))
        ∧ Writes (.negI32 true d a) s c 1 (fun t => .ofRegs (c.wr d
            (if c.rd a t = 0x80000000#32 then 0x7FFFFFFF#32 else -(c.rd a t))))
        ∧ Writes (.absI32 false d a) s c 1 (fun t => .ofRegs (c.wr d (if (c.rd a t).msb then -(c.rd a t) else c.rd a t)))
        ∧ Writes (.absI32 true d a) s c 1 (fun t => .ofRegs (c.wr d
            (if c.rd a t = 0x80000000#32 then 0x7FFFFFFF#32 else if (c.rd a t).msb then -(c.rd a t) else c.rd a t))))
      ∧ (Ready s c [opP d, opP a] [] →
        (∀ imm, Writes (.addiI64 d a imm) s c 1 (fun t => .ofRegs (c.wrP d (c.rdP a t + imm.signExtend 64))))
        ∧ Writes (.negI64 false d a) s c 1 (fun t => .ofRegs (c.wrP d (-(c.rdP a t))))
        ∧ Writes (.negI64 true d a) s c 1 (fun t => .ofRegs (c.wrP d
            (if c.rdP a t = 0x8000000000000000#64 then 0x7FFFFFFFFFFFFFFF#64 else -(c.rdP a t))))
        ∧ Writes (.absI64 false d a) s c 1 (fun t => .ofRegs (c.wrP d (if (c.rdP a t).msb then -(c.rdP a t) else c.rdP a t)))
        ∧ Writes (.absI64 true d a) s c 1 (fun t => .ofRegs (c.wrP d
            (if c.rdP a t = 0x8000000000000000#64 then 0x7FFFFFFFFFFFFFFF#64 else if (c.rdP a t).msb then -(c.rdP a t)
              else c.rdP a t)))))
  ∧ (
    ∀ (s : State) (c : Ctx) (d a : Reg),
      (∀ b, Ready s c (opV d :: opV a :: opdV b) [] →
        Writes (.mulI32 d a b) s c (opdWords b) (fun t => .ofRegs (c.wr d
            (((c.rd a t).signExtend 64 * (c.rdO b t).signExtend 64).extractLsb' 0 32)))
        ∧ Writes (.mulhI32 d a b) s c (opdWords b) (fun t => .ofRegs (c.wr d
            (((c.rd a t).signExtend 64 * (c.rdO b t).signExtend 64).extractLsb' 32 32)))
        ∧ Writes (.mulhN32 d a b) s c (opdWords b) (fun t => .ofRegs (c.wr d
            (((c.rd a t).zeroExtend 64 * (c.rdO b t).zeroExtend 64).extractLsb' 32 32)))
        ∧ Writes (.madI32 d a b) s c (opdWords b) (fun t => .ofRegs (c.wr d (c.rd a t * c.rdO b t + c.rd d t))))
      ∧ (∀ b, Ready s c (opP d :: opP a :: opdP b) [] →
        Writes (.mulI64 d a b) s c (opdWords b) (fun t => .ofRegs (c.wrP d
            (((c.rdP a t).signExtend 128 * (c.rdO64 true b t).signExtend 128).extractLsb' 0 64)))
        ∧ Writes (.mulhI64 d a b) s c (opdWords b) (fun t => .ofRegs (c.wrP d
            (((c.rdP a t).signExtend 128 * (c.rdO64 true b t).signExtend 128).extractLsb' 64 64)))
        ∧ Writes (.mulhN64 d a b) s c (opdWords b) (fun t => .ofRegs (c.wrP d
            (((c.rdP a t).zeroExtend 128 * (c.rdO64 false b t).zeroExtend 128).extractLsb' 64 64)))
        ∧ Writes (.madI64 d a b) s c (opdWords b) (fun t => .ofRegs (c.wrP d (c.rdP a t * c.rdO64 true b t + c.rdP d t))))
      ∧ (∀ (q : BitVec 2) (b : Reg), Ready s c [opV d, opV a, opV b] [q.zeroExtend 3] →
        Writes (.addcN32 q d a b) s c 1 (fun t =>
          { regs := c.wr d (c.rd a t + c.rd b t + (if c.w.pred (q.zeroExtend 3) t then 1#32 else 0#32))
            preds := [(q.zeroExtend 3,
              decide (2 ^ 32 ≤ (c.rd a t).toNat + (c.rd b t).toNat + if c.w.pred (q.zeroExtend 3) t then 1 else 0))]
            ff := 0#5 }))
      ∧ (∀ (k : BitVec 2) (b : Reg), Ready s c [opV d, opV a, opV b] [] →
        Writes (.leaN32 k d a b) s c 1 (fun t => .ofRegs (c.wr d (c.rd a t + BitVec.ofNat 32 ((c.rd b t).toNat * 2 ^ (k.toNat + 1))))))
      ∧ (∀ (k : BitVec 2) (b : Reg), Ready s c [opP d, opP a, opV b] [] →
        Writes (.leaN64 k d a b) s c 1 (fun t => .ofRegs (c.wrP d (c.rdP a t + BitVec.ofInt 64 ((c.rd b t).toInt * 2 ^ (k.toNat + 1)))))))
  ∧ (
    ∀ (s : State) (c : Ctx) (d a : Reg),
      (∀ b, Ready s c (opV d :: opV a :: opdV b) [] →
        Writes (.minI32 d a b) s c (opdWords b) (fun t => .ofRegs (c.wr d (if (c.rd a t).slt (c.rdO b t) then c.rd a t else c.rdO b t)))
        ∧ Writes (.maxI32 d a b) s c (opdWords b) (fun t => .ofRegs (c.wr d (if (c.rd a t).slt (c.rdO b t) then c.rdO b t else c.rd a t)))
        ∧ Writes (.minN32 d a b) s c (opdWords b) (fun t => .ofRegs (c.wr d (if (c.rd a t).ult (c.rdO b t) then c.rd a t else c.rdO b t)))
        ∧ Writes (.maxN32 d a b) s c (opdWords b) (fun t => .ofRegs (c.wr d (if (c.rd a t).ult (c.rdO b t) then c.rdO b t else c.rd a t))))
      ∧ (∀ b, Ready s c (opP d :: opP a :: opdP b) [] →
        Writes (.minI64 d a b) s c (opdWords b) (fun t => .ofRegs (c.wrP d
            (if (c.rdP a t).slt (c.rdO64 true b t) then c.rdP a t else c.rdO64 true b t)))
        ∧ Writes (.maxI64 d a b) s c (opdWords b) (fun t => .ofRegs (c.wrP d
            (if (c.rdP a t).slt (c.rdO64 true b t) then c.rdO64 true b t else c.rdP a t)))
        ∧ Writes (.minN64 d a b) s c (opdWords b) (fun t => .ofRegs (c.wrP d
            (if (c.rdP a t).ult (c.rdO64 false b t) then c.rdP a t else c.rdO64 false b t)))
        ∧ Writes (.maxN64 d a b) s c (opdWords b) (fun t => .ofRegs (c.wrP d
            (if (c.rdP a t).ult (c.rdO64 false b t) then c.rdO64 false b t else c.rdP a t))))
      ∧ (∀ (q : BitVec 2) (b : Reg), Ready s c [opV d, opV a, opV b] [q.zeroExtend 3] →
        Writes (.selB q d a b) s c 1 (fun t => .ofRegs (c.wr d (if c.w.pred (q.zeroExtend 3) t then c.rd a t else c.rd b t))))
      ∧ (∀ (q : BitVec 2) (b : Reg), Ready s c [opP d, opP a, opP b] [q.zeroExtend 3] →
        Writes (.selN64 q d a b) s c 1 (fun t => .ofRegs (c.wrP d (if c.w.pred (q.zeroExtend 3) t then c.rdP a t else c.rdP b t)))))

/-- (1) R108 to R110: ISET, PSET and PMOV write the predicate or the register that the rules name; p7 is never written.

(2) R112 to R115: the logic and shift words; a count of the width or more gives zero, or the sign, and FSHL of count 0 keeps vd.

(3) R116 to R119: bit fields, PRMT, the counts and the moves. A field that reaches past bit 31 is cut off there; a count of a zero source
is the width. -/
def Obligations.CompareLogicAndMoves : Prop :=
  (
    ∀ (s : State) (c : Ctx),
      (∀ m p cc a b, Ready s c (opV a :: opdV b) [p] →
        (∀ r : Word → Word → Bool,
          (r = match cc with
            | .eq => fun x y => x == y
            | .ne => fun x y => x != y
            | .lt => fun x y => x.slt y
            | .le => fun x y => !(y.slt x)
            | .gt => fun x y => y.slt x
            | .ge => fun x y => !(x.slt y)) →
          Writes (.isetI32 m p cc a b) s c (opdWords b) (fun t => .ofPred p (match m with
            | .set => r (c.rd a t) (c.rdO b t)
            | .and => c.w.pred p t && r (c.rd a t) (c.rdO b t)
            | .or => c.w.pred p t || r (c.rd a t) (c.rdO b t))))
        ∧ (∀ r : Word → Word → Bool,
          (r = match cc with
            | .eq => fun x y => x == y
            | .ne => fun x y => x != y
            | .lt => fun x y => x.ult y
            | .le => fun x y => !(y.ult x)
            | .gt => fun x y => y.ult x
            | .ge => fun x y => !(x.ult y)) →
          Writes (.isetN32 m p cc a b) s c (opdWords b) (fun t => .ofPred p (match m with
            | .set => r (c.rd a t) (c.rdO b t)
            | .and => c.w.pred p t && r (c.rd a t) (c.rdO b t)
            | .or => c.w.pred p t || r (c.rd a t) (c.rdO b t)))))
      ∧ (∀ m p cc a b, Ready s c (opP a :: opdP b) [p] →
        (∀ r : Word64 → Word64 → Bool,
          (r = match cc with
            | .eq => fun x y => x == y
            | .ne => fun x y => x != y
            | .lt => fun x y => x.slt y
            | .le => fun x y => !(y.slt x)
            | .gt => fun x y => y.slt x
            | .ge => fun x y => !(x.slt y)) →
          Writes (.isetI64 m p cc a b) s c (opdWords b) (fun t => .ofPred p (match m with
            | .set => r (c.rdP a t) (c.rdO64 true b t)
            | .and => c.w.pred p t && r (c.rdP a t) (c.rdO64 true b t)
            | .or => c.w.pred p t || r (c.rdP a t) (c.rdO64 true b t))))
        ∧ (∀ r : Word64 → Word64 → Bool,
          (r = match cc with
            | .eq => fun x y => x == y
            | .ne => fun x y => x != y
            | .lt => fun x y => x.ult y
            | .le => fun x y => !(y.ult x)
            | .gt => fun x y => y.ult x
            | .ge => fun x y => !(x.ult y)) →
          Writes (.isetN64 m p cc a b) s c (opdWords b) (fun t => .ofPred p (match m with
            | .set => r (c.rdP a t) (c.rdO64 false b t)
            | .and => c.w.pred p t && r (c.rdP a t) (c.rdO64 false b t)
            | .or => c.w.pred p t || r (c.rdP a t) (c.rdO64 false b t)))))
      ∧ (∀ m p a b, Ready s c [] [p, a.p, b.p] →
        Writes (.pset m p a b) s c 1 (fun t => .ofPred p (match m with
          | .and => c.rdPred a t && c.rdPred b t
          | .or => c.rdPred a t || c.rdPred b t
          | .xor => c.rdPred a t ^^ c.rdPred b t)))
      ∧ (∀ d a, Ready s c [opV d] [a.p] →
        Writes (.pmovToReg d a) s c 1 (fun t => .ofRegs (c.wr d (if c.rdPred a t then 1#32 else 0#32))))
      ∧ (∀ p a, Ready s c [opV a] [p] →
        Writes (.pmovToPred p a) s c 1 (fun t => .ofPred p (c.rd a t != 0#32)))
      ∧ (∀ d, Ready s c [opV d] [0, 1, 2, 3, 4, 5, 6] →
        Writes (.pmovPack d) s c 1 (fun t => .ofRegs (c.wr d (BitVec.ofNat 32
          (128 + ((List.range 7).map fun p => if c.w.pred (BitVec.ofNat 3 p) t then 2 ^ p else 0).sum)))))
      ∧ (∀ a, Ready s c [opV a] [0, 1, 2, 3, 4, 5, 6] →
        Writes (.pmovUnpack a) s c 1 (fun t =>
          { regs := [], preds := (List.range 7).map fun p => (BitVec.ofNat 3 p, (c.rd a t).getLsbD p), ff := 0#5 })))
  ∧ (
    ∀ (s : State) (c : Ctx) (d a : Reg),
      (∀ b, Ready s c (opV d :: opV a :: opdV b) [] →
        Writes (.andB d a b) s c (opdWords b) (fun t => .ofRegs (c.wr d (c.rd a t &&& c.rdO b t)))
        ∧ Writes (.orB d a b) s c (opdWords b) (fun t => .ofRegs (c.wr d (c.rd a t ||| c.rdO b t)))
        ∧ Writes (.xorB d a b) s c (opdWords b) (fun t => .ofRegs (c.wr d (c.rd a t ^^^ c.rdO b t)))
        ∧ Writes (.andnB d a b) s c (opdWords b) (fun t => .ofRegs (c.wr d (c.rd a t &&& ~~~(c.rdO b t))))
        ∧ Writes (.shlB d a b) s c (opdWords b) (fun t => .ofRegs (c.wr d (c.rd a t <<< (c.rdO b t).toNat)))
        ∧ Writes (.shrB d a b) s c (opdWords b) (fun t => .ofRegs (c.wr d (c.rd a t >>> (c.rdO b t).toNat)))
        ∧ Writes (.sarB d a b) s c (opdWords b) (fun t => .ofRegs (c.wr d ((c.rd a t).sshiftRight (c.rdO b t).toNat)))
        ∧ Writes (.rotlB d a b) s c (opdWords b) (fun t => .ofRegs (c.wr d ((c.rd a t).rotateLeft ((c.rdO b t).toNat % 32))))
        ∧ Writes (.fshlB d a b) s c (opdWords b) (fun t => .ofRegs (c.wr d
            ((((c.rd d t ++ c.rd a t : BitVec 64) <<< ((c.rdO b t).toNat % 32)).extractLsb' 32 32)))))
      ∧ (∀ b, Ready s c (opP d :: opP a :: opdP b) [] →
        Writes (.andN64 d a b) s c (opdWords b) (fun t => .ofRegs (c.wrP d (c.rdP a t &&& c.rdO64 false b t)))
        ∧ Writes (.orN64 d a b) s c (opdWords b) (fun t => .ofRegs (c.wrP d (c.rdP a t ||| c.rdO64 false b t)))
        ∧ Writes (.xorN64 d a b) s c (opdWords b) (fun t => .ofRegs (c.wrP d (c.rdP a t ^^^ c.rdO64 false b t)))
        ∧ Writes (.andnN64 d a b) s c (opdWords b) (fun t => .ofRegs (c.wrP d (c.rdP a t &&& ~~~(c.rdO64 false b t)))))
      ∧ (∀ b, Ready s c (opP d :: opP a :: opdV b) [] →
        Writes (.shlN64 d a b) s c (opdWords b) (fun t => .ofRegs (c.wrP d (c.rdP a t <<< (c.rdO b t).toNat)))
        ∧ Writes (.shrN64 d a b) s c (opdWords b) (fun t => .ofRegs (c.wrP d (c.rdP a t >>> (c.rdO b t).toNat)))
        ∧ Writes (.sarI64 d a b) s c (opdWords b) (fun t => .ofRegs (c.wrP d ((c.rdP a t).sshiftRight (c.rdO b t).toNat))))
      ∧ (∀ imm : BitVec 5, Ready s c [opV d, opV a] [] →
        Writes (.shliB d a imm) s c 1 (fun t => .ofRegs (c.wr d (c.rd a t <<< imm.toNat)))
        ∧ Writes (.shriB d a imm) s c 1 (fun t => .ofRegs (c.wr d (c.rd a t >>> imm.toNat)))
        ∧ Writes (.sariB d a imm) s c 1 (fun t => .ofRegs (c.wr d ((c.rd a t).sshiftRight imm.toNat)))))
  ∧ (
    ∀ (s : State) (c : Ctx) (d a : Reg),
      (∀ b, Ready s c (opV d :: opV a :: opdV b) [] →
        (∀ pos len : Nat → Nat, (∀ t, pos t = (c.rdO b t).toNat % 256) → (∀ t, len t = min ((c.rdO b t).toNat / 256 % 256) (32 - pos t)) →
          Writes (.bfxN32 d a b) s c (opdWords b) (fun t => .ofRegs (c.wr d
              (BitVec.ofNat 32 ((c.rd a t).toNat / 2 ^ pos t % 2 ^ len t))))
          ∧ Writes (.bfxI32 d a b) s c (opdWords b) (fun t => .ofRegs (c.wr d
              ((BitVec.ofNat (len t) ((c.rd a t).toNat / 2 ^ pos t)).signExtend 32)))
          ∧ Writes (.bfiB d a b) s c (opdWords b) (fun t => .ofRegs (c.wr d
              (if 31 < pos t then c.rd d t
               else BitVec.ofNat 32 ((c.rd d t).toNat % 2 ^ pos t + (c.rd a t).toNat % 2 ^ len t * 2 ^ pos t
                 + (c.rd d t).toNat / 2 ^ (pos t + len t) * 2 ^ (pos t + len t))))))
        ∧ (∀ byte : Nat → Nat → BitVec 8,
            (∀ t k, byte t k =
              let pool : BitVec 64 := c.rd a t ++ c.rd d t
              let y := (c.rdO b t).toNat
              let x := pool.extractLsb' (8 * (y / 2 ^ (3 * k) % 8)) 8
              let act := y / 2 ^ (12 + 2 * k) % 4
              if act = 0 then x else if act = 1 then 0#8 else if act = 2 then (if x.msb then 0xFF#8 else 0#8) else x.reverse) →
          Writes (.prmtB d a b) s c (opdWords b) (fun t => .ofRegs (c.wr d (byte t 3 ++ byte t 2 ++ byte t 1 ++ byte t 0)))))
      ∧ (Ready s c [opV d, opV a] [] →
        Writes (.popcB d a) s c 1 (fun t => .ofRegs (c.wr d (BitVec.ofNat 32 ((List.range 32).countP fun i => (c.rd a t).getLsbD i))))
        ∧ Writes (.clzB d a) s c 1 (fun t => .ofRegs (c.wr d (BitVec.ofNat 32
            (if c.rd a t = 0 then 32 else 31 - (c.rd a t).toNat.log2))))
        ∧ (∃ n : Nat → Nat, Writes (.ctzB d a) s c 1 (fun t => .ofRegs (c.wr d (BitVec.ofNat 32 (n t))))
            ∧ ∀ t, (c.rd a t = 0 ∧ n t = 32) ∨ (n t < 32 ∧ (c.rd a t).getLsbD (n t) = true ∧ ∀ i < n t, (c.rd a t).getLsbD i = false))
        ∧ Writes (.brevB d a) s c 1 (fun t => .ofRegs (c.wr d (c.rd a t).reverse))
        ∧ Writes (.movB d a) s c 1 (fun t => .ofRegs (c.wr d (c.rd a t))))
      ∧ (Ready s c [opV d, opP a] [] →
        Writes (.popcN64 d a) s c 1 (fun t => .ofRegs (c.wr d (BitVec.ofNat 32 ((List.range 64).countP fun i => (c.rdP a t).getLsbD i))))
        ∧ Writes (.clzN64 d a) s c 1 (fun t => .ofRegs (c.wr d (BitVec.ofNat 32
            (if c.rdP a t = 0 then 64 else 63 - (c.rdP a t).toNat.log2))))
        ∧ (∃ n : Nat → Nat, Writes (.ctzN64 d a) s c 1 (fun t => .ofRegs (c.wr d (BitVec.ofNat 32 (n t))))
            ∧ ∀ t, (c.rdP a t = 0 ∧ n t = 64) ∨ (n t < 64 ∧ (c.rdP a t).getLsbD (n t) = true ∧ ∀ i < n t, (c.rdP a t).getLsbD i = false)))
      ∧ (Ready s c [opP d, opP a] [] →
        Writes (.brevN64 d a) s c 1 (fun t => .ofRegs (c.wrP d (c.rdP a t).reverse))
        ∧ Writes (.movN64 d a) s c 1 (fun t => .ofRegs (c.wrP d (c.rdP a t))))
      ∧ (Ready s c [opV d] [] →
        (∀ lit, Writes (.movBLit d lit) s c 2 (fun _ => .ofRegs (c.wr d lit)))
        ∧ (∀ imm, Writes (.movi d imm) s c 1 (fun _ => .ofRegs (c.wr d (imm.signExtend 32))))
        ∧ (∀ imm, Writes (.movh d imm) s c 1 (fun _ => .ofRegs (c.wr d (imm ++ 0#16)))))
      ∧ (Ready s c [opP d] [] →
        ∀ lit, Writes (.movN64Lit d lit) s c 2 (fun _ => .ofRegs (c.wrP d (lit.zeroExtend 64)))))

/-! ### Floating-point arithmetic and conversions (03, 04) -/

/-- (1) R120 to R125: the FP32 words write, in each active thread, the pattern of the operation and OR its exceptions into %fflags.

(2) R127, R128, with R81 to R83: every FCVT reads the low bits or the pair that Table 4.7 names, and writes its pattern or its integer,
extended as its type is signed or unsigned.
(The model's choices: log entry 9.) -/
def Obligations.FloatAndConversionWords : Prop :=
  (
    ∀ (s : State) (c : Ctx) (d a : Reg),
      (∀ (m : RMode) (b : Reg), Ready s c [opV d, opV a, opV b] [] →
        let x := fun t => (c.rd a t).toNat
        let y := fun t => (c.rd b t).toNat
        let z := fun t => (c.rd d t).toNat
        Writes (.faddF32 m d a b) s c 1 (fun t => fOut c d (f32.add m (x t) (y t)))
        ∧ Writes (.fmulF32 m d a b) s c 1 (fun t => fOut c d (f32.mul m (x t) (y t)))
        ∧ Writes (.ffmaF32 m d a b) s c 1 (fun t => fOut c d (f32.fma m false false (x t) (y t) (z t)))
        ∧ Writes (.ffmaNpF32 m d a b) s c 1 (fun t => fOut c d (f32.fma m true false (x t) (y t) (z t)))
        ∧ Writes (.ffmaNcF32 m d a b) s c 1 (fun t => fOut c d (f32.fma m false true (x t) (y t) (z t)))
        ∧ Writes (.ffmaNpcF32 m d a b) s c 1 (fun t => fOut c d (f32.fma m true true (x t) (y t) (z t)))
        ∧ Writes (.hadd2Bf16x2 m d a b) s c 1 (fun t => fOut c d
            (pair16 (bf16.add m (x t % 2 ^ 16) (y t % 2 ^ 16)) (bf16.add m (x t / 2 ^ 16) (y t / 2 ^ 16))))
        ∧ Writes (.hadd2F16x2 m d a b) s c 1 (fun t => fOut c d
            (pair16 (f16.add m (x t % 2 ^ 16) (y t % 2 ^ 16)) (f16.add m (x t / 2 ^ 16) (y t / 2 ^ 16))))
        ∧ Writes (.hmul2Bf16x2 m d a b) s c 1 (fun t => fOut c d
            (pair16 (bf16.mul m (x t % 2 ^ 16) (y t % 2 ^ 16)) (bf16.mul m (x t / 2 ^ 16) (y t / 2 ^ 16))))
        ∧ Writes (.hmul2F16x2 m d a b) s c 1 (fun t => fOut c d
            (pair16 (f16.mul m (x t % 2 ^ 16) (y t % 2 ^ 16)) (f16.mul m (x t / 2 ^ 16) (y t / 2 ^ 16))))
        ∧ Writes (.hfma2Bf16x2 m d a b) s c 1 (fun t => fOut c d
            (pair16 (bf16.fma m false false (x t % 2 ^ 16) (y t % 2 ^ 16) (z t % 2 ^ 16))
              (bf16.fma m false false (x t / 2 ^ 16) (y t / 2 ^ 16) (z t / 2 ^ 16))))
        ∧ Writes (.hfma2F16x2 m d a b) s c 1 (fun t => fOut c d
            (pair16 (f16.fma m false false (x t % 2 ^ 16) (y t % 2 ^ 16) (z t % 2 ^ 16))
              (f16.fma m false false (x t / 2 ^ 16) (y t / 2 ^ 16) (z t / 2 ^ 16)))))
      ∧ (∀ b, Ready s c (opV d :: opV a :: opdV b) [] →
        Writes (.fminF32 d a b) s c (opdWords b) (fun t => fOut c d (f32.min (c.rd a t).toNat (c.rdO b t).toNat))
        ∧ Writes (.fmaxF32 d a b) s c (opdWords b) (fun t => fOut c d (f32.max (c.rd a t).toNat (c.rdO b t).toNat)))
      ∧ (∀ m p cc b, Ready s c (opV a :: opdV b) [p] →
        Writes (.fsetF32 m p cc a b) s c (opdWords b) (fun t =>
          let x := f32.val (c.rd a t).toNat
          let y := f32.val (c.rdO b t).toNat
          let r := fcmpHolds cc x y
          { regs := []
            preds := [(p, match m with
              | .set => r
              | .and => c.w.pred p t && r
              | .or => c.w.pred p t || r)]
            ff := if x.isSnan || y.isSnan then 0b10000#5 else 0#5 }))
      ∧ (∀ m : RMode, Ready s c [opV d, opV a] [] →
        let x := fun t => (c.rd a t).toNat
        Writes (.fclassF32 d a) s c 1 (fun t => fOut c d (fclass (x t), if (f32.val (x t)).isSnan then 0b10000#5 else 0#5))
        ∧ Writes (.frndF32 m d a) s c 1 (fun t => fOut c d (frnd m (x t)))
        ∧ Writes (.frcpF32 m d a) s c 1 (fun t => fOut c d (frcp m (x t)))
        ∧ Writes (.frsqF32 m d a) s c 1 (fun t => fOut c d (frsq m (x t)))
        ∧ Writes (.fsqrtF32 m d a) s c 1 (fun t => fOut c d (fsqrt m (x t)))
        ∧ Writes (.fex2F32 m d a) s c 1 (fun t => fOut c d (fex2 m (x t)))
        ∧ Writes (.flg2F32 m d a) s c 1 (fun t => fOut c d (flg2 m (x t)))
        ∧ Writes (.fsinF32 m d a) s c 1 (fun t => fOut c d (fsin m (x t)))
        ∧ Writes (.fcosF32 m d a) s c 1 (fun t => fOut c d (fcos m (x t)))
        ∧ Writes (.ftanhF32 m d a) s c 1 (fun t => fOut c d (ftanh m (x t)))))
  ∧ (
    ∀ (s : State) (c : Ctx) (d a : Reg) (m : RMode),
      (Ready s c [opV d, opV a] [] →
        let x := fun t => (c.rd a t).toNat
        Writes (.fcvtF32F16 d a) s c 1 (fun t => fOut c d (fcvt f16 f32 .rn (x t % 2 ^ 16)))
        ∧ Writes (.fcvtF32Bf16 d a) s c 1 (fun t => fOut c d (fcvt bf16 f32 .rn (x t % 2 ^ 16)))
        ∧ Writes (.fcvtF16F32 m d a) s c 1 (fun t => fOut c d (fcvt f32 f16 m (x t)))
        ∧ Writes (.fcvtBf16F32 m d a) s c 1 (fun t => fOut c d (fcvt f32 bf16 m (x t)))
        ∧ Writes (.fcvtF16Bf16 m d a) s c 1 (fun t => fOut c d (fcvt bf16 f16 m (x t % 2 ^ 16)))
        ∧ Writes (.fcvtBf16F16 m d a) s c 1 (fun t => fOut c d (fcvt f16 bf16 m (x t % 2 ^ 16)))
        ∧ Writes (.fcvtF32I32 m d a) s c 1 (fun t => fOut c d (icvt m (c.rd a t).toInt))
        ∧ Writes (.fcvtF32N32 m d a) s c 1 (fun t => fOut c d (icvt m (x t)))
        ∧ Writes (.fcvtF32I16 d a) s c 1 (fun t => fOut c d (icvt .rn ((c.rd a t).setWidth 16).toInt))
        ∧ Writes (.fcvtF32N16 d a) s c 1 (fun t => fOut c d (icvt .rn (x t % 2 ^ 16 : Nat)))
        ∧ Writes (.fcvtF32I8 d a) s c 1 (fun t => fOut c d (icvt .rn ((c.rd a t).setWidth 8).toInt))
        ∧ Writes (.fcvtF32N8 d a) s c 1 (fun t => fOut c d (icvt .rn (x t % 2 ^ 8 : Nat)))
        ∧ (∀ w : Nat, ∀ i, (w = 32 ∧ i = .fcvtI32F32 m d a) ∨ (w = 16 ∧ i = .fcvtI16F32 m d a) ∨ (w = 8 ∧ i = .fcvtI8F32 m d a) →
            Writes i s c 1 (fun t =>
              let r := fcvtInt m (-2 ^ (w - 1)) (2 ^ (w - 1) - 1) (x t)
              { regs := c.wr d (BitVec.ofInt 32 r.1), preds := [], ff := r.2 }))
        ∧ (∀ w : Nat, ∀ i, (w = 32 ∧ i = .fcvtN32F32 m d a) ∨ (w = 16 ∧ i = .fcvtN16F32 m d a) ∨ (w = 8 ∧ i = .fcvtN8F32 m d a) →
            Writes i s c 1 (fun t =>
              let r := fcvtInt m 0 (2 ^ w - 1) (x t)
              { regs := c.wr d (BitVec.ofInt 32 r.1), preds := [], ff := r.2 })))
      ∧ (∀ b, Ready s c [opV d, opV a, opV b] [] →
        Writes (.fcvtF16x2F32 m d a b) s c 1 (fun t => fOut c d
            (pair16 (fcvt f32 f16 m (c.rd a t).toNat) (fcvt f32 f16 m (c.rd b t).toNat)))
        ∧ Writes (.fcvtBf16x2F32 m d a b) s c 1 (fun t => fOut c d
            (pair16 (fcvt f32 bf16 m (c.rd a t).toNat) (fcvt f32 bf16 m (c.rd b t).toNat))))
      ∧ (Ready s c [opV d, opP a] [] →
        Writes (.fcvtF32I64 m d a) s c 1 (fun t => fOut c d (icvt m (c.rdP a t).toInt))
        ∧ Writes (.fcvtF32N64 m d a) s c 1 (fun t => fOut c d (icvt m (c.rdP a t).toNat)))
      ∧ (Ready s c [opP d, opV a] [] →
        Writes (.fcvtI64F32 m d a) s c 1 (fun t =>
            let r := fcvtInt m (-9223372036854775808) 9223372036854775807 (c.rd a t).toNat
            { regs := c.wrP d (BitVec.ofInt 64 r.1), preds := [], ff := r.2 })
        ∧ Writes (.fcvtN64F32 m d a) s c 1 (fun t =>
            let r := fcvtInt m 0 18446744073709551615 (c.rd a t).toNat
            { regs := c.wrP d (BitVec.ofInt 64 r.1), preds := [], ff := r.2 })))

/-- R79, R80: rounding a non-zero number to FP32, FP16 or BF16 gives the representable number that the mode names, with the number's sign, or on
overflow the pattern of Table 3.3; inexact, underflow and overflow are raised exactly as R79 and R80 say. -/
def Obligations.RoundingMeetsR79 : Prop :=
  ∀ f, f = f32 ∨ f = f16 ∨ f = bf16 → ∀ (mode : RMode) (neg : Bool) (m : Nat) (e : Int), m ≠ 0 →
    ∀ (x : ℚ) (r : Nat) (fl : BitVec 5), x = (if neg then -1 else 1) * m * 2 ^ e → (r, fl) = f.roundFin mode neg m e →
      (f.Overflows mode x → fl = 0b00101#5 ∧ r = (if neg then f.signBit else 0) + (match mode, neg with
        | .rn, _ => f.inf
        | .rz, _ => f.inf - 1
        | .ru, false => f.inf
        | .ru, true => f.inf - 1
        | .rd, false => f.inf - 1
        | .rd, true => f.inf))
      ∧ (¬ f.Overflows mode x →
        f.Finite r ∧ f.Nearest mode x r ∧ (r / f.signBit = if neg then 1 else 0)
          ∧ fl = (if f.rat r = x then 0#5 else if r % f.signBit ≠ 0 ∧ r % f.signBit < 2 ^ f.mb then 0b00011#5 else 0b00001#5))

/-- (1) R75, R121: sums, products and fused products of finite numbers are the exact number rounded once, an exact zero of opposite signs being
-0 in .rd only; the NaN and infinity cases give what R75 says.

(2) R75, R80, R95, R122: what FMIN, FMAX, FRCP, FRSQ, FSQRT, FLG2, FEX2, FSIN, FCOS and FTANH answer for NaN, zero, infinite and
negative inputs.

(3) R81 to R83, R123 to R125, Tables 4.3 and 4.6: FCVT between formats rounds the number once, and keeps zeros, infinities and NaNs; FCVT to an integer type
gives the integer that the mode selects, saturated, and from one the integer rounded once; FRND gives that integer as a number with the sign of its
source; FSET compares numbers, infinities and NaNs; FCLASS sets the bit of its operand's class. -/
def Obligations.FloatResultsExact : Prop :=
  (
    ∀ f, f = f32 ∨ f = f16 ∨ f = bf16 → ∀ (mode : RMode) (x y z : Nat),
      (f.Finite x → f.Finite y →
        (f.rat x + f.rat y ≠ 0 → ∃ (neg : Bool) (m : Nat) (e : Int), m ≠ 0 ∧ f.rat x + f.rat y = (if neg then -1 else 1) * m * 2 ^ e
          ∧ f.add mode x y = f.roundFin mode neg m e)
        ∧ (f.rat x + f.rat y = 0 → f.add mode x y =
            (if x / f.signBit = 1 ∧ y / f.signBit = 1 ∨ (x / f.signBit ≠ y / f.signBit ∧ mode = .rd) then f.signBit else 0, 0#5))
        ∧ (f.rat x * f.rat y ≠ 0 → ∃ (neg : Bool) (m : Nat) (e : Int), m ≠ 0 ∧ f.rat x * f.rat y = (if neg then -1 else 1) * m * 2 ^ e
          ∧ f.mul mode x y = f.roundFin mode neg m e)
        ∧ (f.rat x * f.rat y = 0 → f.mul mode x y = (if x / f.signBit = y / f.signBit then 0 else f.signBit, 0#5))
        ∧ (f.Finite z → ∀ np nc : Bool, (if np then -1 else 1) * (f.rat x * f.rat y) + (if nc then -1 else 1) * f.rat z ≠ 0 →
          ∃ (neg : Bool) (m : Nat) (e : Int), m ≠ 0
            ∧ (if np then -1 else 1) * (f.rat x * f.rat y) + (if nc then -1 else 1) * f.rat z = (if neg then -1 else 1) * m * 2 ^ e
            ∧ f.fma mode np nc x y z = f.roundFin mode neg m e))
      ∧ ((f.val x).isNan = true ∨ (f.val y).isNan = true →
        f.add mode x y = (f.nan, if (f.val x).isSnan || (f.val y).isSnan then 0b10000#5 else 0#5)
        ∧ f.mul mode x y = (f.nan, if (f.val x).isSnan || (f.val y).isSnan then 0b10000#5 else 0#5))
      ∧ (∀ a : Bool, f.val x = .inf a → f.val y = .inf !a → f.add mode x y = (f.nan, 0b10000#5))
      ∧ (∀ a : Bool, f.val x = .inf a → f.val y = .inf a → f.add mode x y = ((if a then f.signBit else 0) + f.inf, 0#5))
      ∧ (∀ a : Bool, f.val x = .inf a → f.Finite y → f.add mode x y = ((if a then f.signBit else 0) + f.inf, 0#5))
      ∧ ((f.val x).isInf = true → (f.val y).isZero = true →
        f.mul mode x y = (f.nan, 0b10000#5) ∧ (∀ np nc : Bool, f.fma mode np nc x y z = (f.nan, 0b10000#5))))
  ∧ (
    ∀ (mode : RMode) (x y : Nat),
      (f32.val x = .nan true ∨ f32.val x = .nan false →
        ∀ r, r = (0x7FC00000, if (f32.val x).isSnan then 0b10000#5 else 0#5) →
          frcp mode x = r ∧ frsq mode x = r ∧ fsqrt mode x = r ∧ fex2 mode x = r ∧ flg2 mode x = r ∧ fsin mode x = r ∧ fcos mode x = r
            ∧ ftanh mode x = r ∧ frnd mode x = r)
      ∧ ((f32.val x).isNan = true → (f32.val y).isNan = false → (f32.min x y).1 = y ∧ (f32.max x y).1 = y)
      ∧ ((f32.val x).isNan = false → (f32.val y).isNan = true → (f32.min x y).1 = x ∧ (f32.max x y).1 = x)
      ∧ ((f32.val x).isNan = true → (f32.val y).isNan = true → (f32.min x y).1 = 0x7FC00000 ∧ (f32.max x y).1 = 0x7FC00000)
      ∧ (f32.Finite x → f32.Finite y → f32.rat x < f32.rat y → f32.min x y = (x, 0#5) ∧ f32.min y x = (x, 0#5) ∧ f32.max x y = (y, 0#5)
        ∧ f32.max y x = (y, 0#5))
      ∧ f32.min 0x80000000 0 = (0x80000000, 0#5) ∧ f32.min 0 0x80000000 = (0x80000000, 0#5)
      ∧ f32.max 0x80000000 0 = (0, 0#5) ∧ f32.max 0 0x80000000 = (0, 0#5)
      ∧ frcp mode 0 = (0x7F800000, 0b01000#5) ∧ frcp mode 0x80000000 = (0xFF800000, 0b01000#5)
      ∧ frcp mode 0x7F800000 = (0, 0#5) ∧ frcp mode 0xFF800000 = (0x80000000, 0#5)
      ∧ frsq mode 0 = (0x7F800000, 0b01000#5) ∧ frsq mode 0x80000000 = (0xFF800000, 0b01000#5) ∧ frsq mode 0x7F800000 = (0, 0#5)
      ∧ fsqrt mode 0x80000000 = (0x80000000, 0#5) ∧ fsqrt mode 0 = (0, 0#5) ∧ fsqrt mode 0x7F800000 = (0x7F800000, 0#5)
      ∧ (0x80000000 < x → x ≤ 0xFF800000 →
        frsq mode x = (0x7FC00000, 0b10000#5) ∧ fsqrt mode x = (0x7FC00000, 0b10000#5) ∧ flg2 mode x = (0x7FC00000, 0b10000#5))
      ∧ flg2 mode 0 = (0xFF800000, 0b01000#5) ∧ flg2 mode 0x80000000 = (0xFF800000, 0b01000#5)
      ∧ fex2 mode 0xFF800000 = (0, 0#5) ∧ fex2 mode 0x7F800000 = (0x7F800000, 0#5) ∧ fex2 mode 0 = (0x3F800000, 0#5)
      ∧ (x = 0x7F800000 ∨ x = 0xFF800000 → fsin mode x = (0x7FC00000, 0b10000#5) ∧ fcos mode x = (0x7FC00000, 0b10000#5))
      ∧ fsin mode 0x80000000 = (0x80000000, 0#5) ∧ fsin mode 0 = (0, 0#5) ∧ fcos mode 0 = (0x3F800000, 0#5)
      ∧ fcos mode 0x80000000 = (0x3F800000, 0#5) ∧ ftanh mode 0 = (0, 0#5) ∧ ftanh mode 0x80000000 = (0x80000000, 0#5)
      ∧ ftanh mode 0x7F800000 = (0x3F800000, 0#5) ∧ ftanh mode 0xFF800000 = (0xBF800000, 0#5))
  ∧ (
    (∀ f g, f = f32 ∨ f = f16 ∨ f = bf16 → g = f32 ∨ g = f16 ∨ g = bf16 → ∀ (mode : RMode) (x : Nat), x < 2 * f.signBit →
      (f.Finite x → f.rat x ≠ 0 → ∃ (neg : Bool) (m : Nat) (e : Int), m ≠ 0 ∧ f.rat x = (if neg then -1 else 1) * m * 2 ^ e
        ∧ fcvt f g mode x = g.roundFin mode neg m e)
      ∧ (f.Finite x → f.rat x = 0 → fcvt f g mode x = (if f.signBit ≤ x then g.signBit else 0, 0#5))
      ∧ (x % f.signBit = f.inf → fcvt f g mode x = ((if f.signBit ≤ x then g.signBit else 0) + g.inf, 0#5))
      ∧ (f.inf < x % f.signBit → fcvt f g mode x = (g.nan, if x % f.signBit < f.nan then 0b10000#5 else 0#5)))
    ∧ (∀ (mode : RMode) (x : Nat), x < 2 ^ 32 →
      (∀ lo hi : ℤ, lo ≤ 0 → 0 < hi →
        (f32.inf < x % 2 ^ 31 → fcvtInt mode lo hi x = (0, 0b10000#5))
        ∧ (x = 0x7F800000 → fcvtInt mode lo hi x = (hi, 0b10000#5)) ∧ (x = 0xFF800000 → fcvtInt mode lo hi x = (lo, 0b10000#5))
        ∧ (f32.Finite x → ∃ n : ℤ, IntegerFor mode (f32.rat x) n ∧ fcvtInt mode lo hi x =
            if hi < n then (hi, 0b10000#5) else if n < lo then (lo, 0b10000#5) else (n, if (n : ℚ) = f32.rat x then 0#5 else 0b00001#5)))
      ∧ (f32.Finite x → (frnd mode x).2 = 0#5 ∧ f32.Finite (frnd mode x).1 ∧ (frnd mode x).1 / 2 ^ 31 = x / 2 ^ 31
        ∧ ∃ n : ℤ, IntegerFor mode (f32.rat x) n ∧ f32.rat (frnd mode x).1 = n)
      ∧ (x = 0x7F800000 ∨ x = 0xFF800000 → frnd mode x = (x, 0#5))
      ∧ (f32.inf < x % 2 ^ 31 → frnd mode x = (0x7FC00000, if x % 2 ^ 31 < 0x7FC00000 then 0b10000#5 else 0#5))
      ∧ (∀ neg : Bool, x / 2 ^ 31 = (if neg then 1 else 0) → ∀ y, y = x % 2 ^ 31 → fclass x =
          if y = 0 then 2 ^ (if neg then 3 else 4) else if y < 2 ^ 23 then 2 ^ (if neg then 2 else 5)
          else if y < 0x7F800000 then 2 ^ (if neg then 1 else 6) else if y = 0x7F800000 then 2 ^ (if neg then 0 else 7)
          else if y < 0x7FC00000 then 2 ^ 8 else 2 ^ 9))
    ∧ (∀ (mode : RMode) (n : ℤ), icvt mode n = if n = 0 then (0, 0#5) else f32.roundFin mode (decide (n < 0)) n.natAbs 0)
    ∧ ∀ x y : Nat,
      let holds := fun cc => fcmpHolds cc (f32.val x) (f32.val y) = true
      let order := fun lt eq gt un : Prop => (holds .eq ↔ eq) ∧ (holds .ne ↔ ¬ eq) ∧ (holds .lt ↔ lt) ∧ (holds .le ↔ lt ∨ eq)
        ∧ (holds .gt ↔ gt) ∧ (holds .ge ↔ gt ∨ eq) ∧ (holds .un ↔ un) ∧ (holds .ord ↔ ¬ un)
      (f32.Finite x → f32.Finite y → order (f32.rat x < f32.rat y) (f32.rat x = f32.rat y) (f32.rat y < f32.rat x) False)
      ∧ ((f32.val x).isNan = true ∨ (f32.val y).isNan = true → order False False False True)
      ∧ (∀ a, f32.val x = .inf a → f32.Finite y → order (a = true) False (a = false) False)
      ∧ (∀ b, f32.Finite x → f32.val y = .inf b → order (b = false) False (b = true) False)
      ∧ ∀ a b, f32.val x = .inf a → f32.val y = .inf b → order (a = true ∧ b = false) (a = b) (a = false ∧ b = true) False)

/-! ### Lane exchange (04 R129 to R135) -/

/-- (1) R131 to R133: BALLOT and VOTE combine the predicate over the active threads, SHFL reads the thread that its form names, keeping vd where
that thread is outside the segment or not active, and XCHM makes one masked exchange step.

(2) R134: REDW folds va over the active threads in ascending order, one step at a time, and writes the result and, for .f32, every
exception of the fold to each of them.

(3) R135: SCANW gives the active thread of rank k the fold of the first k + 1 values, or in the exclusive form of the first k, rank 0 taking the
identity; every active thread takes every exception.
(The model's choices: log entry 63, for the exceptions of SCANW.excl.) -/
def Obligations.WarpExchange : Prop :=
  (
    ∀ (s : State) (c : Ctx),
      (∀ d a, Ready s c [opV d] [a.p] →
        ∃ v : Word, Writes (.ballot d a) s c 1 (fun _ => .ofRegs (c.wr d v))
          ∧ ∀ u < 32, v.getLsbD u = (c.act.getLsbD u && c.rdPred a u))
      ∧ (∀ p a, Ready s c [] [p, a.p] →
        (∃ b, Writes (.voteEvery p a) s c 1 (fun _ => .ofPred p b) ∧ (b = true ↔ ∀ u ∈ threads c.act, c.rdPred a u = true))
        ∧ (∃ b, Writes (.voteSome p a) s c 1 (fun _ => .ofPred p b) ∧ (b = true ↔ ∃ u ∈ threads c.act, c.rdPred a u = true))
        ∧ (∃ b, Writes (.voteAgree p a) s c 1 (fun _ => .ofPred p b)
            ∧ (b = true ↔ ∀ u ∈ threads c.act, ∀ v ∈ threads c.act, c.rdPred a u = c.rdPred a v)))
      ∧ (∀ m d a b, Ready s c (opV d :: opV a :: opdV b) [] → ∀ w, w = (match m with | .w32 => 32 | .w16 => 16 | .w8 => 8) →
        let first := fun n => c.act.getLsbD n = true ∧ ∀ i < n, c.act.getLsbD i = false
        Writes (.shflIdx m d a b) s c (opdWords b) (fun t =>
            let x := t - t % w + (c.rdO b t).toNat % w
            .ofRegs (if c.act.getLsbD x then c.wr d (c.rd a x) else []))
        ∧ (∀ l, first l → ∀ n, n = (c.rdO b l).toNat →
          Writes (.shflUp m d a b) s c (opdWords b) (fun t =>
              .ofRegs (if n < w ∧ t - t % w + n ≤ t ∧ c.act.getLsbD (t - n) = true then c.wr d (c.rd a (t - n)) else []))
          ∧ Writes (.shflDown m d a b) s c (opdWords b) (fun t =>
              .ofRegs (if n < w ∧ t + n < t - t % w + w ∧ c.act.getLsbD (t + n) = true then c.wr d (c.rd a (t + n)) else []))
          ∧ Writes (.shflXor m d a b) s c (opdWords b) (fun t =>
              .ofRegs (if c.act.getLsbD (t ^^^ (n % w)) then c.wr d (c.rd a (t ^^^ (n % w))) else []))))
      ∧ (∀ d a b, Ready s c (opV d :: opV a :: opdV b) [] → ∀ j : Nat → Nat,
        (∀ t, (c.rdO b t = 0xFFFFFFFF#32 ∧ j t = 32)
          ∨ (j t < 32 ∧ (c.rdO b t).getLsbD (j t) = false ∧ ∀ i < j t, (c.rdO b t).getLsbD i = true)) →
        Writes (.xchm d a b) s c (opdWords b) (fun t =>
          let m := c.rdO b t
          let x := c.rd a t
          let y := if c.act.getLsbD (t ^^^ j t) then c.rd a (t ^^^ j t) else 0#32
          .ofRegs (c.wr d
            (if j t = 32 then x else if t &&& j t = 0 then (x &&& m) ||| ((y &&& m) <<< j t) else (x &&& ~~~m) ||| ((y >>> j t) &&& m))))))
  ∧ (
    ∀ (s : State) (c : Ctx) (d a : Reg) (u : Nat) (us : List Nat), threads c.act = u :: us → Ready s c [opV d, opV a] [] →
      (∀ op, Writes (.redwI32 d a op) s c 1 (fun _ => .ofRegs (c.wr d (us.foldl (fun acc v => match op with
          | .add => acc + c.rd a v
          | .min => if (c.rd a v).slt acc then c.rd a v else acc
          | .max => if acc.slt (c.rd a v) then c.rd a v else acc) (c.rd a u)))))
      ∧ (∀ op, Writes (.redwN32 d a op) s c 1 (fun _ => .ofRegs (c.wr d (us.foldl (fun acc v => match op with
          | .add => acc + c.rd a v
          | .min => if (c.rd a v).ult acc then c.rd a v else acc
          | .max => if acc.ult (c.rd a v) then c.rd a v else acc) (c.rd a u)))))
      ∧ (∀ op, Writes (.redwB d a op) s c 1 (fun _ => .ofRegs (c.wr d (us.foldl (fun acc v => match op with
          | .and => acc &&& c.rd a v
          | .or => acc ||| c.rd a v
          | .xor => acc ^^^ c.rd a v) (c.rd a u)))))
      ∧ (∀ (m : RMode) (op : FoldOp) (r : Word × BitVec 5),
        r = us.foldl (fun (acc : Word × BitVec 5) v =>
            let q := match op with
              | .add => f32.add m acc.1.toNat (c.rd a v).toNat
              | .min => f32.min acc.1.toNat (c.rd a v).toNat
              | .max => f32.max acc.1.toNat (c.rd a v).toNat
            (BitVec.ofNat 32 q.1, acc.2 ||| q.2))
          (if (f32.val (c.rd a u).toNat).isNan then 0x7FC00000#32 else c.rd a u,
            if (f32.val (c.rd a u).toNat).isSnan then 0b10000#5 else 0#5) →
        Writes (.redwF32 m d a op) s c 1 (fun _ => { regs := c.wr d r.1, preds := [], ff := r.2 })))
  ∧ (
    ∀ (s : State) (c : Ctx) (d a : Reg) (excl : Bool), c.act ≠ 0#32 → Ready s c [opV d, opV a] [] →
      ∀ rank : Nat → Nat, (∀ t, rank t = ((threads c.act).filter fun v => v < t).length) →
      ∀ n : Nat → Nat, (∀ t, n t = if excl then rank t else rank t + 1) →
      let xs := (threads c.act).map fun v => c.rd a v
      (∀ op (f : Word → Word → Word), f = (match op with
          | .add => fun x y => x + y
          | .min => fun x y => if y.slt x then y else x
          | .max => fun x y => if x.slt y then y else x) →
        Writes (.scanwI32 d a op excl) s c 1 (fun t => .ofRegs (c.wr d (match xs.take (n t), op with
          | [], .add => 0#32
          | [], .min => 0x7FFFFFFF#32
          | [], .max => 0x80000000#32
          | y :: ys, _ => ys.foldl f y))))
      ∧ (∀ op (f : Word → Word → Word), f = (match op with
          | .add => fun x y => x + y
          | .min => fun x y => if y.ult x then y else x
          | .max => fun x y => if x.ult y then y else x) →
        Writes (.scanwN32 d a op excl) s c 1 (fun t => .ofRegs (c.wr d (match xs.take (n t), op with
          | [], .add => 0#32
          | [], .min => 0xFFFFFFFF#32
          | [], .max => 0#32
          | y :: ys, _ => ys.foldl f y))))
      ∧ (∀ (m : RMode) (op : FoldOp) (g : List Word → Word × BitVec 5),
        (∀ y ys, g (y :: ys) = ys.foldl (fun (acc : Word × BitVec 5) x =>
            let q := match op with
              | .add => f32.add m acc.1.toNat x.toNat
              | .min => f32.min acc.1.toNat x.toNat
              | .max => f32.max acc.1.toNat x.toNat
            (BitVec.ofNat 32 q.1, acc.2 ||| q.2))
          (if (f32.val y.toNat).isNan then 0x7FC00000#32 else y, if (f32.val y.toNat).isSnan then 0b10000#5 else 0#5)) →
        g [] = (match op with
          | .add => 0#32
          | .min => 0x7F800000#32
          | .max => 0xFF800000#32, 0#5) →
        Writes (.scanwF32 m d a op excl) s c 1 (fun t =>
          { regs := c.wr d (g (xs.take (n t))).1, preds := []
            ff := (g (if excl then xs.dropLast else xs)).2 })))

/-! ### Capabilities (05 R152 to R162) -/

/-- (1) R156 to R159: CBND, CPRM and CADD write the quad cd of each active thread, with the fields and the tag that the rules compute from
ca's bits, and change nothing else.

(2) R160, R161: CGET reads one decoded field of ca as data; CTST.tag reads the tag; CTST.sub holds exactly when cb grants nothing that ca
does not.

(3) R162: where every active thread's cb is tagged, well formed and has derive, and its ca is malformed or lies within it, CDRV completes: cd
takes ca's bits untagged where ca is malformed or has a reserved field set, and otherwise a tagged capability with ca's space,
permissions, cursor and bounds, encoded with the least EXP that represents them from that cursor. Where the fragment's threads are all active
and each has a cb that is untagged, malformed, reserved or without derive, or a well-formed ca not within cb, CDRV is a permission fault of
the whole fragment and writes nothing.
(The model's choices: log entry 46.) -/
def Obligations.CapabilityWords : Prop :=
  (
    ∀ (s : State) (c : Ctx) (d a : CapReg),
      (∀ (i : Instr) (n : Nat) (ops : List Opn) (len : Nat → Nat) (exact : Bool),
        (∃ b : Reg, i = .cbndExact d a b ∧ n = 1 ∧ ops = [opC d, opC a, opP b] ∧ exact = true ∧ ∀ t, len t = (c.rdP b t).toNat)
          ∨ (∃ b : Reg, i = .cbndRound d a b ∧ n = 1 ∧ ops = [opC d, opC a, opP b] ∧ exact = false ∧ ∀ t, len t = (c.rdP b t).toNat)
          ∨ (∃ lit : Word, i = .cbndLit d a lit ∧ n = 2 ∧ ops = [opC d, opC a] ∧ exact = true ∧ ∀ t, len t = lit.toNat) →
        Ready s c ops [] →
        ∃ r : Nat → Cap × Bool, WritesCap i s c n d r ∧ ∀ t,
          let k := c.cap a t
          let lo := k.cursor
          let hi := lo + len t
          (r t).1.space = k.space ∧ (r t).1.perm = k.perm ∧ (r t).1.basem = 0
          ∧ (lo = 0 → hi = 2 ^ 56 → (r t).1.exp = 63 ∧ (r t).1.topm = 0 ∧ (r t).1.cursor = 0
              ∧ ((r t).2 = true ↔ c.capTag a t = true ∧ k.rsv = 0 ∧ k.bounds = some (0, 2 ^ 56)))
          ∧ (¬ (lo = 0 ∧ hi = 2 ^ 56) → ∀ e ≤ 36, ceilDiv hi (2 ^ e) - lo / 2 ^ e ≤ 2 ^ 20 - 1 →
              (∀ e' < e, 2 ^ 20 - 1 < ceilDiv hi (2 ^ e') - lo / 2 ^ e') →
              let rb := lo / 2 ^ e * 2 ^ e
              let rt := ceilDiv hi (2 ^ e) * 2 ^ e
              (r t).1.exp = e ∧ (r t).1.cursor = rb ∧ (r t).1.topm * 2 ^ e = rt - rb
              ∧ ((r t).2 = true ↔ c.capTag a t = true ∧ k.rsv = 0 ∧ hi ≤ 2 ^ 56 ∧ (exact = true → rb = lo ∧ rt = hi)
                  ∧ ∃ b0 t0, k.bounds = some (b0, t0) ∧ b0 ≤ rb ∧ rt ≤ t0))
          ∧ (¬ (lo = 0 ∧ hi = 2 ^ 56) → (∀ e ≤ 36, 2 ^ 20 - 1 < ceilDiv hi (2 ^ e) - lo / 2 ^ e) → (r t).2 = false))
      ∧ (∀ b, Ready s c (opC d :: opC a :: opdV b) [] →
        WritesCap (.cprm d a b) s c (opdWords b) d (fun t =>
          ({ c.cap a t with perm := (c.cap a t).perm &&& (c.rdO b t).toNat % 256 }, c.capTag a t)))
      ∧ (∀ b, Ready s c (opC d :: opC a :: opdV b) [] →
        ∃ r : Nat → Cap × Bool, WritesCap (.cadd d a b) s c (opdWords b) d r ∧ ∀ t,
          let k := c.cap a t
          ((r t).1.cursor : Int) = ((k.cursor : Int) + (c.rdO b t).toInt) % 2 ^ 56
          ∧ (r t).1.space = k.space ∧ (r t).1.perm = k.perm ∧ (r t).1.exp = k.exp
          ∧ ((r t).2 = true → c.capTag a t = true ∧ k.bounds ≠ none ∧ (r t).1.bounds = k.bounds)
          ∧ (k.bounds = none → (r t).2 = false ∧ (r t).1.basem = k.basem ∧ (r t).1.topm = k.topm)
          ∧ (k.exp = 63 → k.bounds ≠ none → (r t).2 = c.capTag a t)
          ∧ (k.exp ≠ 63 → ∀ b0 t0, k.bounds = some (b0, t0) → ∀ anchor, anchor = (r t).1.cursor / 2 ^ k.exp * 2 ^ k.exp →
              ((r t).2 = true ↔ c.capTag a t = true ∧ b0 ≤ anchor ∧ anchor ≤ t0 ∧ (anchor - b0) / 2 ^ k.exp ≤ 2 ^ 20 - 1
                ∧ (t0 - anchor) / 2 ^ k.exp ≤ 2 ^ 20 - 1))))
  ∧ (
    ∀ (s : State) (c : Ctx) (a : CapReg),
      (∀ (d : Reg) (sel : CgetSel), sel = .perm ∨ sel = .space → Ready s c [opV d, opC a] [] →
        Writes (.cget d a sel) s c 1 (fun t => .ofRegs (c.wr d (BitVec.ofNat 32
          (if sel = .perm then (c.cap a t).perm else (c.cap a t).space)))))
      ∧ (∀ d : Reg, Ready s c [opP d, opC a] [] →
        Writes (.cget d a .cur) s c 1 (fun t => .ofRegs (c.wrP d (BitVec.ofNat 64 (c.cap a t).cursor)))
        ∧ Writes (.cget d a .base) s c 1 (fun t => .ofRegs (c.wrP d (BitVec.ofNat 64 (match (c.cap a t).bounds with
            | some (b, _) => b
            | none => 0))))
        ∧ Writes (.cget d a .top) s c 1 (fun t => .ofRegs (c.wrP d (BitVec.ofNat 64 (match (c.cap a t).bounds with
            | some (_, e) => e
            | none => 0))))
        ∧ Writes (.cget d a .len) s c 1 (fun t => .ofRegs (c.wrP d (BitVec.ofNat 64 (match (c.cap a t).bounds with
            | some (b, e) => e - b
            | none => 0))))
        ∧ Writes (.cget d a .off) s c 1 (fun t => .ofRegs (c.wrP d (match (c.cap a t).bounds with
            | some (b, _) => BitVec.ofNat 64 (c.cap a t).cursor - BitVec.ofNat 64 b
            | none => 0#64))))
      ∧ (∀ p, Ready s c [opC a] [p] → Writes (.ctstTag p a) s c 1 (fun t => .ofPred p (c.capTag a t)))
      ∧ (∀ p b, Ready s c [opC a, opC b] [p] →
        ∃ v : Nat → Bool, Writes (.ctstSub p a b) s c 1 (fun t => .ofPred p (v t)) ∧ ∀ t,
          (v t = true ↔ c.capTag a t = true ∧ c.capTag b t = true ∧ (c.cap a t).space = (c.cap b t).space
            ∧ (c.cap b t).perm &&& (c.cap a t).perm = (c.cap b t).perm
            ∧ ∃ b0 t0 b1 t1, (c.cap a t).bounds = some (b0, t0) ∧ (c.cap b t).bounds = some (b1, t1) ∧ b0 ≤ b1 ∧ t1 ≤ t0)))
  ∧ (
    ∀ (s : State) (c : Ctx) (d a b : CapReg), Ready s c [opC d, opC a, opC b] [] →
      (∀ t ∈ threads c.act, c.capTag b t = true ∧ (c.cap b t).bounds ≠ none ∧ (c.cap b t).rsv = 0 ∧ (c.cap b t).perm / 128 % 2 = 1
        ∧ ((c.cap a t).bounds = none ∨ (c.cap a t).rsv ≠ 0 ∨ (c.cap b t).covers (c.cap a t) = true)) →
      ∃ q : Nat → BitVec 128 × Bool, WritesQuad (.cdrv d a b) s c 1 d q ∧ ∀ t,
        ((c.cap a t).bounds = none ∨ (c.cap a t).rsv ≠ 0 → q t = (c.rdC a t, false))
        ∧ ((c.cap a t).bounds ≠ none → (c.cap a t).rsv = 0 →
          (q t).2 = true ∧ (Cap.of (q t).1).bounds = (c.cap a t).bounds ∧ (Cap.of (q t).1).space = (c.cap a t).space
            ∧ (Cap.of (q t).1).perm = (c.cap a t).perm ∧ (Cap.of (q t).1).cursor = (c.cap a t).cursor
            ∧ (Cap.of (q t).1).rsv = 0 ∧ ((c.cap a t).bounds ≠ some (0, 2 ^ 56) → (Cap.of (q t).1).exp ≤ (c.cap a t).exp)
            ∧ ((c.cap a t).bounds = some (0, 2 ^ 56) → (Cap.of (q t).1).exp = 63)
            ∧ ∀ b0 t0, (c.cap a t).bounds = some (b0, t0) → (b0, t0) ≠ (0, 2 ^ 56) → ∀ e < (Cap.of (q t).1).exp,
                let anchor := (c.cap a t).cursor / 2 ^ e * 2 ^ e
                ¬ (b0 % 2 ^ e = 0 ∧ t0 % 2 ^ e = 0 ∧ b0 ≤ anchor ∧ anchor ≤ t0 ∧ (anchor - b0) / 2 ^ e ≤ 2 ^ 20 - 1
                    ∧ (t0 - anchor) / 2 ^ e ≤ 2 ^ 20 - 1)))
  ∧ (
    ∀ (s : State) (c : Ctx) (d a b : CapReg), Ready s c [opC d, opC a, opC b] [] → c.act ≠ 0#32 → c.act = c.fr.mask → NotSolitary s c →
      (∀ t ∈ threads c.act,
        (c.capTag b t = false ∨ (c.cap b t).bounds = none ∨ (c.cap b t).rsv ≠ 0 ∨ (c.cap b t).perm / 128 % 2 = 0)
        ∨ ((c.cap a t).bounds ≠ none ∧ (c.cap a t).rsv = 0 ∧ (c.cap b t).covers (c.cap a t) = false)) →
      ∃ t, exec (.cdrv d a b) s = .next t ∧ FaultsWhole s t c 0x12 0 0 true)

/-! ### Control, waits and special registers (05 R136 to R151, 08) -/

/-- (1) R138, R139: where every thread of the fragment is active and goes to one clause header, BRA, CALL, BRX, CALLX and RET continue the
fragment whole at it; CALL writes the address of the header after its clause to v15, and CALLX to vd.

(2) R139, R269: a guarded BRA of which some threads are active and some are not splits the fragment in two, in ascending order of lowest
thread: the first part keeps its entry, the second takes the lowest free FIDX; both have the header after the clause as reconvergence PC
and a split record that holds what the fragment had before.

(3) R42, R136, R138: a control transfer with no active thread goes to the header after its clause; one whose every thread has a target that is
no clause header of the text faults whole with clause frame fault. -/
def Obligations.ControlTransfers : Prop :=
  (
    ∀ (s : State) (c : Ctx) (k : Clause) (f : Nat), c.fr.clause = some k → f = k.hdr + 4 * (k.len + 1) → c.fr.mask ≠ 0#32 →
      c.act = c.fr.mask →
      let stand := fun a : Nat => { c.fr with pc := a, clause := none, actm := 0#32, done := 0#32, lane := false }
      (∀ off : BitVec 23, ∀ a : Nat, (a : Int) = ((k.hdr : Int) + 4 * off.toInt) % 2 ^ 32 → s.headerAt (dieOf c.u.core) c.l a = true →
        (Ready s c [] [] → ∃ t, exec (.bra off) s = .next t ∧ Becomes s t c c.w (stand a))
        ∧ (Ready s c [opV 15#7] [] → ∃ t v, exec (.call off) s = .next t ∧ Becomes s t c v (stand a)
            ∧ WarpEffect c.w v (Delta.of c.act fun _ => .ofRegs [(c.base + 15, BitVec.ofNat 32 f)])))
      ∧ (∀ (r : Reg) (a : Nat), (∀ t ∈ threads c.act, (c.rd r t).toNat = a) → s.headerAt (dieOf c.u.core) c.l a = true →
        (Ready s c [opV r] [] →
          (∃ t, exec (.brx r) s = .next t ∧ Becomes s t c c.w (stand a))
          ∧ (∃ t, exec (.ret r) s = .next t ∧ Becomes s t c c.w (stand a)))
        ∧ (∀ d : Reg, Ready s c [opV d, opV r] [] →
          ∃ t v, exec (.callx d r) s = .next t ∧ Becomes s t c v (stand a)
            ∧ WarpEffect c.w v (Delta.of c.act fun _ => .ofRegs (c.wr d (BitVec.ofNat 32 f))))))
  ∧ (
    ∀ (s : State) (c : Ctx) (k : Clause) (f a : Nat) (off : BitVec 23) (r : Nat), c.fr.clause = some k → f = k.hdr + 4 * (k.len + 1) →
      Ready s c [] [] → (a : Int) = ((k.hdr : Int) + 4 * off.toInt) % 2 ^ 32 → s.headerAt (dieOf c.u.core) c.l a = true → a ≠ f → c.fr.done = 0#32 →
      c.act ≠ 0#32 → c.fr.mask &&& ~~~c.act ≠ 0#32 → c.fr.mask &&& c.act = c.act → s.refuses c.f 1 = false → c.w.freeRec = some r →
      ∃ t w, exec (.bra off) s = .next t ∧ t = { s with units := t.units, cores := t.cores } ∧ t.warp? c.f.unit c.f.warp = some w
        ∧ w = { c.w with frags := w.frags, splits := w.splits }
        ∧ Map.look w.splits r = some ⟨c.fr.rpc, c.fr.sfmt, c.fr.swin, c.fr.prec⟩ ∧ (∀ i, i ≠ r → Map.look w.splits i = Map.look c.w.splits i)
        ∧ ∀ x : Frag,
          x = { c.fr with
            rpc := BitVec.ofNat 32 f, sfmt := c.fr.fmt, swin := c.fr.win, prec := BitVec.ofNat 5 r, status := .runnable, wake := .none
            clause := none, actm := 0#32, done := 0#32, lane := false } →
          ∀ taken rest : Frag, taken = { x with pc := a, mask := c.act } → rest = { x with pc := f, mask := c.fr.mask &&& ~~~c.act } →
          (lowest c.fr.mask = lowest c.act →
            Map.look w.frags c.f.fidx = some taken ∧ Map.look w.frags c.w.freeFidx = some rest)
          ∧ (lowest c.fr.mask ≠ lowest c.act →
            Map.look w.frags c.f.fidx = some rest ∧ Map.look w.frags c.w.freeFidx = some taken)
          ∧ ∀ i, i ≠ c.f.fidx → i ≠ c.w.freeFidx → Map.look w.frags i = Map.look c.w.frags i)
  ∧ (
    ∀ (s : State) (c : Ctx) (k : Clause) (f : Nat), c.fr.clause = some k → f = k.hdr + 4 * (k.len + 1) → c.fr.mask ≠ 0#32 →
      let stand := { c.fr with pc := f, clause := none, actm := 0#32, done := 0#32, lane := false }
      (c.act = 0#32 →
        (∀ off, (Ready s c [] [] → ∃ t, exec (.bra off) s = .next t ∧ Becomes s t c c.w stand)
          ∧ (Ready s c [opV 15#7] [] → ∃ t, exec (.call off) s = .next t ∧ Becomes s t c c.w stand))
        ∧ (∀ r, Ready s c [opV r] [] →
          (∃ t, exec (.brx r) s = .next t ∧ Becomes s t c c.w stand) ∧ (∃ t, exec (.ret r) s = .next t ∧ Becomes s t c c.w stand)))
      ∧ (c.act = c.fr.mask → NotSolitary s c →
        (∀ off : BitVec 23,
          (∀ a : Nat, (a : Int) = ((k.hdr : Int) + 4 * off.toInt) % 2 ^ 32 → s.headerAt (dieOf c.u.core) c.l a = false) →
          (Ready s c [] [] → ∃ t, exec (.bra off) s = .next t ∧ FaultsWhole s t c 0x03 0 0 true)
          ∧ (Ready s c [opV 15#7] [] → ∃ t, exec (.call off) s = .next t ∧ FaultsWhole s t c 0x03 0 0 true))
        ∧ (∀ r, Ready s c [opV r] [] → (∀ t ∈ threads c.act, s.headerAt (dieOf c.u.core) c.l (c.rd r t).toNat = false) →
          (∃ t, exec (.brx r) s = .next t ∧ FaultsWhole s t c 0x03 0 0 true)
          ∧ (∃ t, exec (.ret r) s = .next t ∧ FaultsWhole s t c 0x03 0 0 true))))

/-- (1) R143, R146, R147: NOP changes nothing; YIELD prefers the warp's other lane mate, and parks at the next word under a park request; SETFMT,
WINB and WINA change the fragment's %fmt or window base, not at all without an active thread, and a base outside the extent faults.

(2) R149 to R151: WAITF goes on when every flag it names is zero for the fragment, WAITP when the path's counter is at or below the
threshold, CLKW when %time has reached the largest time of its active threads; until then each parks, WAITP and CLKW at a blocking
point, where a gang asked to park waits for the end of that (R337).

(3) R144, R145, R92, R54: TRAP and BKPT stop their active threads with their cause and imm16 as hint; TFENCE does so where an enabled condition
holds, and otherwise goes on; a word with an unassigned opcode is an illegal opcode in every thread. Without an active thread TRAP and
BKPT have no effect.
(The model's choices: log entry 11.) -/
def Obligations.NopYieldWaitsAndTraps : Prop :=
  (
    (
      ∀ (s : State) (c : Ctx), Ready s c [] [] →
        (∃ t, exec .nop s = .next t ∧ Retired s t c 1 c.w)
        ∧ (NotSolitary s c → c.u.parkReq = false → ∃ t, exec .yield s = .next t ∧ Retired s t c 1 { c.w with lastYield := true })
        ∧ (NotSolitary s c → c.u.parkReq = true → ∃ t, exec .yield s = .next t
            ∧ Becomes s t c { c.w with lastYield := true } { c.fr.nextWord 1 with status := .parkedWait, wake := .park, lane := false })
        ∧ (∀ mode imm, c.act ≠ 0#32 → ∃ t, exec (.setfmt mode imm) s = .next t
            ∧ Becomes s t c c.w { c.fr.nextWord 1 with
                fmt := match mode with
                  | .set => imm.setWidth 14 &&& 0x3F1F#14
                  | .or => c.fr.fmt ||| (imm.setWidth 14 &&& 0x3F1F#14)
                  | .clr => c.fr.fmt &&& ~~~(imm.setWidth 14 &&& 0x3F1F#14) })
        ∧ (∀ imm : BitVec 12, c.act ≠ 0#32 →
            (16 * imm.toNat < c.w.extent → ∃ t, exec (.winb imm) s = .next t
              ∧ Becomes s t c c.w { c.fr.nextWord 1 with win := BitVec.ofNat 5 imm.toNat })
            ∧ (c.w.extent ≤ 16 * imm.toNat → c.fr.mask ≠ 0#32 → NotSolitary s c →
              ∃ t, exec (.winb imm) s = .next t ∧ FaultsWhole s t c 0x04 0 0 true)
            ∧ (∀ b : Nat, (b : Int) = 16 * (c.fr.win.toNat : Int) + 16 * imm.toInt → b < c.w.extent → ∃ t, exec (.wina imm) s = .next t
              ∧ Becomes s t c c.w { c.fr.nextWord 1 with win := BitVec.ofNat 5 (b / 16) })
            ∧ (16 * (c.fr.win.toNat : Int) + 16 * imm.toInt < 0 ∨ (c.w.extent : Int) ≤ 16 * (c.fr.win.toNat : Int) + 16 * imm.toInt →
              c.fr.mask ≠ 0#32 → NotSolitary s c → ∃ t, exec (.wina imm) s = .next t ∧ FaultsWhole s t c 0x04 0 0 true))
        ∧ (c.act = 0#32 → (∀ mode imm, ∃ t, exec (.setfmt mode imm) s = .next t ∧ Retired s t c 1 c.w)
            ∧ ∀ imm, (∃ t, exec (.winb imm) s = .next t ∧ Retired s t c 1 c.w) ∧ (∃ t, exec (.wina imm) s = .next t ∧ Retired s t c 1 c.w)))
    ∧ (
      ∀ (s : State) (c : Ctx),
        (∀ m : BitVec 12, Ready s c [] [] →
          ((∀ k < 12, m.getLsbD k = true → c.u.flagValue c.f.warp k c.fr.mask = 0) →
            ∃ t, exec (.waitf m) s = .next t ∧ Retired s t c 1 c.w)
          ∧ ((∃ k < 12, m.getLsbD k = true ∧ c.u.flagValue c.f.warp k c.fr.mask ≠ 0) →
            ∃ t, exec (.waitf m) s = .next t ∧ Becomes s t c c.w { c.fr with status := .parkedWait, wake := .flags m, lane := false }))
        ∧ (∀ (p : PathId) (n : BitVec 8), Ready s c [] [] →
          (c.act = 0#32 ∨ c.u.pathCount p ≤ n.toNat → ∃ t, exec (.waitpImm p n) s = .next t ∧ Retired s t c 1 c.w)
          ∧ (c.act ≠ 0#32 → n.toNat < c.u.pathCount p → NotSolitary s c →
            ∃ t, exec (.waitpImm p n) s = .next t ∧ Becomes s t c c.w { c.fr with status := .parkedWait, wake := if c.u.parkReq then .park else .path p n.toNat, lane := false }))
        ∧ (∀ (p : PathId) (a : Reg), Ready s c [opV a] [] →
          (c.act = 0#32 → ∃ t, exec (.waitpReg p a) s = .next t ∧ Retired s t c 1 c.w)
          ∧ (∀ n : Nat, (∃ u ∈ threads c.act, (c.rd a u).toNat = n) → (∀ u ∈ threads c.act, n ≤ (c.rd a u).toNat) →
            (c.u.pathCount p ≤ n → ∃ t, exec (.waitpReg p a) s = .next t ∧ Retired s t c 1 c.w)
            ∧ (n < c.u.pathCount p → NotSolitary s c →
              ∃ t, exec (.waitpReg p a) s = .next t ∧ Becomes s t c c.w { c.fr with status := .parkedWait, wake := if c.u.parkReq then .park else .path p n, lane := false })))
        ∧ (∀ a : Reg, Ready s c [opP a] [] →
          (c.act = 0#32 → ∃ t, exec (.clkw a) s = .next t ∧ Retired s t c 1 c.w)
          ∧ (∀ n : Nat, (∃ u ∈ threads c.act, (c.rdP a u).toNat = n) → (∀ u ∈ threads c.act, (c.rdP a u).toNat ≤ n) →
            (n ≤ s.time.toNat → ∃ t, exec (.clkw a) s = .next t ∧ Retired s t c 1 c.w)
            ∧ (s.time.toNat < n → NotSolitary s c →
              ∃ t, exec (.clkw a) s = .next t ∧ Becomes s t c c.w { c.fr with status := .parkedWait, wake := if c.u.parkReq then .park else .clock n, lane := false })))))
  ∧ (
    ∀ (s : State) (c : Ctx), Ready s c [] [] → c.fr.mask ≠ 0#32 →
      (∀ imm : BitVec 16,
        (c.act = 0#32 → (∃ t, exec (.trap imm) s = .next t ∧ Retired s t c 1 c.w) ∧ (∃ t, exec (.bkpt imm) s = .next t ∧ Retired s t c 1 c.w))
        ∧ (c.act = c.fr.mask → NotSolitary s c →
          (∃ t, exec (.trap imm) s = .next t ∧ FaultsWhole s t c 0x30 0 imm.toNat false)
          ∧ (∃ t, exec (.bkpt imm) s = .next t ∧ FaultsWhole s t c 0x31 0 imm.toNat false))
        ∧ (c.act ≠ 0#32 → c.fr.mask &&& ~~~c.act ≠ 0#32 → c.fr.mask &&& c.act = c.act → NotSolitary s c → s.refuses c.f 1 = false →
          ∀ i cause, (i = .trap imm ∧ cause = 0x30) ∨ (i = .bkpt imm ∧ cause = 0x31) →
          ∃ t, exec i s = .next t
            ∧ t.frag? c.f = some
                (({ c.fr with
                    mask := c.fr.mask &&& ~~~c.act, actm := c.fr.actm &&& (c.fr.mask &&& ~~~c.act)
                    done := c.fr.done &&& (c.fr.mask &&& ~~~c.act) } : Frag).nextWord 1)
            ∧ t.frag? { c.f with fidx := c.w.freeFidx } = some
                { c.fr with
                  mask := c.act, actm := c.fr.actm &&& c.act, done := c.fr.done &&& c.act, status := .parkedFault, wake := .none
                  frec := some
                    { cause := cause, replay := false, serial := (s.core c.u.core).serial, hint := imm.toNat, pc := c.fr.pc, mask := c.act
                      done := c.fr.done &&& c.act, addr := 0, core := c.u.core, await := [] }
                  lane := false }
            ∧ t.posts = s.posts ++ [.frag { c.f with fidx := c.w.freeFidx } (s.core c.u.core).serial] ∧ t.mem = s.mem))
      ∧ (c.tendPending = false → (32 * c.fr.accwin + 32 ≤ c.l.acc → c.u.rowsBusy c.fr.accwin c.act = false) →
        (∀ o ∈ c.u.ops, o.done = true ∨ o.warp ≠ c.f.warp ∨ o.mask &&& c.fr.mask = 0#32 ∨ ∀ e w, o.kind ≠ .engine e w) →
        ∀ cond : Nat → BitVec 5,
          (∀ u, cond u = (c.w.flags u ||| if 32 * c.fr.accwin + 32 ≤ c.l.acc then
              let x := (c.u.row (32 * c.fr.accwin + u)).mxexc
              (if x.extractLsb' 0 8 = 0#8 then 0#5 else 0b10000#5) ||| (if x.extractLsb' 8 8 = 0#8 then 0#5 else 0b00100#5)
                ||| (if x.extractLsb' 16 8 = 0#8 then 0#5 else 0b00010#5)
            else 0#5) &&& c.fr.fmt.setWidth 5) →
          ((∀ u ∈ threads c.act, cond u = 0#5) → ∃ t, exec .tfence s = .next t ∧ Retired s t c 1 c.w)
          ∧ (c.act = c.fr.mask → (∀ u ∈ threads c.act, cond u ≠ 0#5) → NotSolitary s c →
            ∃ t, exec .tfence s = .next t ∧ FaultsWhole s t c 0x32 0 0 false))
      ∧ (∀ w, NotSolitary s c → ∃ t, exec (.unassignedOpcode w) s = .next t ∧ FaultsWhole s t c 0x01 0 0 true))

/-- (1) R33, R34, R91, R148: SRD reads each special register of Table 1.5 into vd, or a pair for the 64-bit ones, in each active thread.

(2) R33, R35 to R37, R91, R148: SWR writes %fmt and %cbank from the lowest active thread, %fflags and %mxexc in each active thread; a number not in
Table 1.5, or a read-only one, is a special register fault, and %mxexc of a window beyond the allotment an accumulator window fault. -/
def Obligations.SpecialRegisters : Prop :=
  (
    ∀ (s : State) (c : Ctx) (d : Reg),
      (Ready s c [⟨d.toNat, 1, 1⟩] [] →
        Writes (.srd d 0x00) s c 1 (fun t => .ofRegs (c.wr d (BitVec.ofNat 32 t)))
        ∧ Writes (.srd d 0x01) s c 1 (fun _ => .ofRegs (c.wr d (BitVec.ofNat 32 (c.f.warp * 2 ^ 16 + c.w.slot))))
        ∧ Writes (.srd d 0x02) s c 1 (fun _ => .ofRegs (c.wr d
            (BitVec.ofNat 32 (c.u.core / 96 * 2 ^ 23 + c.u.core % 96 * 2 ^ 16 + c.w.slot * 2 ^ 9 + c.f.fidx))))
        ∧ Writes (.srd d 0x03) s c 1 (fun _ => .ofRegs (c.wr d (BitVec.ofNat 32 (c.u.core % 96))))
        ∧ (c.u.core < 192 → Writes (.srd d 0x04) s c 1 (fun _ => .ofRegs (c.wr d (if c.u.core < 96 then 0#32 else 1#32))))
        ∧ Writes (.srd d 0x05) s c 1 (fun _ => .ofRegs (c.wr d (BitVec.ofNat 32 (c.u.sizeM1 * 2 ^ 4 + c.u.rank))))
        ∧ Writes (.srd d 0x09) s c 1 (fun _ => .ofRegs (c.wr d (c.fr.fmt.zeroExtend 32)))
        ∧ (c.tendPending = false → Writes (.srd d 0x0A) s c 1 (fun t => .ofRegs (c.wr d ((c.w.flags t).zeroExtend 32))))
        ∧ (c.tendPending = false → 32 * c.fr.accwin + 32 ≤ c.l.acc → c.u.rowsBusy c.fr.accwin c.act = false →
            Writes (.srd d 0x0B) s c 1 (fun t => .ofRegs (c.wr d ((c.u.row (32 * c.fr.accwin + t)).mxexc.zeroExtend 32))))
        ∧ Writes (.srd d 0x0C) s c 1 (fun _ => .ofRegs (c.wr d (c.w.cbank.zeroExtend 32))))
      ∧ (Ready s c [⟨d.toNat, 2, 1⟩] [] → d.toNat % 2 = 0 →
        Writes (.srd d 0x06) s c 1 (fun _ => .ofRegs (c.wrP d c.w.node))
        ∧ Writes (.srd d 0x07) s c 1 (fun _ => .ofRegs (c.wrP d s.cycle))
        ∧ Writes (.srd d 0x08) s c 1 (fun _ => .ofRegs (c.wrP d s.time))))
  ∧ (
    ∀ (s : State) (c : Ctx) (a : Reg), Ready s c [⟨a.toNat, 1, 1⟩] [] →
      (∀ low, (c.act.getLsbD low = true ∧ ∀ i < low, c.act.getLsbD i = false) →
        (∃ t, exec (.swr a 0x09) s = .next t ∧ Becomes s t c c.w { c.fr.nextWord 1 with fmt := (c.rd a low).setWidth 14 &&& 0x3F1F#14 })
        ∧ (∃ t, exec (.swr a 0x0C) s = .next t ∧ Retired s t c 1 { c.w with cbank := (c.rd a low).setWidth 2 }))
      ∧ (c.tendPending = false → ∃ t v, exec (.swr a 0x0A) s = .next t ∧ Retired s t c 1 v ∧ v = { c.w with fflags := v.fflags }
          ∧ ∀ u < 32, v.flags u = if c.act.getLsbD u then (c.rd a u).setWidth 5 else c.w.flags u)
      ∧ (c.tendPending = false → 32 * c.fr.accwin + 32 ≤ c.l.acc → c.u.rowsBusy c.fr.accwin c.act = false →
          ∃ t un, exec (.swr a 0x0B) s = .next t ∧ t.unit? c.f.unit = some un ∧ t.mem = s.mem
            ∧ (∀ u < 32, un.row (32 * c.fr.accwin + u) = { c.u.row (32 * c.fr.accwin + u) with
                mxexc := if c.act.getLsbD u then (c.rd a u).setWidth 24 else (c.u.row (32 * c.fr.accwin + u)).mxexc })
            ∧ (∀ r, r < 32 * c.fr.accwin ∨ 32 * c.fr.accwin + 32 ≤ r → un.row r = c.u.row r)
            ∧ un.scratch = c.u.scratch ∧ un.ops = c.u.ops ∧ t.frag? c.f = some (c.fr.nextWord 1))
      ∧ (c.act = c.fr.mask → c.fr.mask ≠ 0#32 → NotSolitary s c →
        (∀ n : BitVec 16, n.toNat < 9 ∨ 12 < n.toNat → n ≠ 2#16 → ∃ t, exec (.swr a n) s = .next t ∧ FaultsWhole s t c 0x05 0 0 true)
        ∧ (∀ n : BitVec 16, 12 < n.toNat → ∃ t, exec (.srd a n) s = .next t ∧ FaultsWhole s t c 0x05 0 0 true)
        ∧ (c.l.acc < 32 * c.fr.accwin + 32 →
          (∃ t, exec (.swr a 0x0B) s = .next t ∧ FaultsWhole s t c 0x06 0 0 true)
          ∧ (∃ t, exec (.srd a 0x0B) s = .next t ∧ FaultsWhole s t c 0x06 0 0 true))))

/-- (1) R141, R270: JOIN with no other live fragment of its reconvergence PC continues at the header after its clause with the format, window and
reconvergence state saved at the split; with one, it parks there, or before the JOIN where its gang is asked to park (R337). When FRAGMENT_WAKE finds
none of them outside a JOIN, those that stand at one address fuse: the lowest FIDX survives with the threads of all and the saved format,
window and reconvergence state, and goes on; the others' entries are free; every other fragment is as it was.

(2) R142, R272: EXIT of every thread of a fragment, where no transaction is open, no commit is in flight and no barrier drops on exit, leaves the
threads exited and the fragment dead; threads that are not active continue at the header after the clause.
(The model's choices: log entry 11.) -/
def Obligations.JoinAndExit : Prop :=
  (
    ∀ (s : State) (c : Ctx) (k : Clause) (f : Nat), c.fr.clause = some k → f = k.hdr + 4 * (k.len + 1) → Ready s c [] [] →
      let stand := { c.fr with pc := f, clause := none, actm := 0#32, done := 0#32, lane := false }
      let others := fun i => ∃ x, i ≠ c.f.fidx ∧ (i, x) ∈ c.w.frags ∧ x.status ≠ .dead ∧ x.rpc = c.fr.rpc
      ((∃ i, others i) → NotSolitary s c →
        (c.u.parkReq = false → ∃ t, exec .join s = .next t ∧ Becomes s t c c.w { stand with status := .parkedWait, wake := .join, lane := false })
        ∧ (c.u.parkReq = true → ∃ t, exec .join s = .next t ∧ Becomes s t c c.w { c.fr with status := .parkedWait, wake := .park, lane := false }))
      ∧ ((∀ i, ¬ others i) → ∃ t, exec .join s = .next t ∧ t.mem = s.mem ∧ t.frag? c.f = some
          (if c.fr.rpc = 0xFFFFFFFF#32 then stand
           else match Map.look c.w.splits c.fr.prec.toNat with
            | some r => { stand with fmt := c.fr.sfmt, win := c.fr.swin, rpc := r.rpc, sfmt := r.sfmt, swin := r.swin, prec := r.prec }
            | none => { stand with fmt := c.fr.sfmt, win := c.fr.swin })))
  ∧ (
    ∀ (s : State) (g : FragRef) (u : KUnit) (l : Launch) (w : Warp) (x : Frag), s.unit? g.unit = some u → s.launchOf g.unit = some l →
      Map.look u.warps g.warp = some w → Map.rising w.frags = true → Map.look w.frags g.fidx = some x →
      x.status = .parkedWait → x.wake = .join → u.parkReq = false →
      (∀ i y, Map.look w.frags i = some y → y.status ≠ .dead → y.rpc = x.rpc → y.status = .parkedWait ∧ y.wake = .join) →
      ∃ t v, exec (.fragmentWake g) s = .next t ∧ t.mem = s.mem ∧ t.warp? g.unit g.warp = some v
        ∧ (∀ j, (Map.look v.frags j).isSome = true → (Map.look w.frags j).isSome = true)
        ∧ ∀ i y, Map.look w.frags i = some y →
          let fuses := fun z : Frag => z.status = .parkedWait ∧ z.wake = .join ∧ z.rpc = x.rpc ∧ z.pc = y.pc
          (¬ fuses y → Map.look v.frags i = some y)
          ∧ (fuses y → (∃ j z, j < i ∧ Map.look w.frags j = some z ∧ fuses z) → Map.look v.frags i = none)
          ∧ (fuses y → (∀ j z, j < i → Map.look w.frags j = some z → ¬ fuses z) →
            ∃ m : Mask, (∀ b < 32, m.getLsbD b = true ↔ ∃ j z, Map.look w.frags j = some z ∧ fuses z ∧ z.mask.getLsbD b = true)
              ∧ Map.look v.frags i = some
                { (if y.rpc = 0xFFFFFFFF#32 then y
                   else match Map.look w.splits y.prec.toNat with
                    | some r => { y with fmt := y.sfmt, win := y.swin, rpc := r.rpc, sfmt := r.sfmt, swin := r.swin, prec := r.prec }
                    | none => { y with fmt := y.sfmt, win := y.swin }) with
                  mask := m, status := .runnable, wake := .none, lane := false }))
  ∧ (
    ∀ (s : State) (c : Ctx) (k : Clause) (f : Nat), c.fr.clause = some k → f = k.hdr + 4 * (k.len + 1) → Ready s c [] [] →
      c.tendPending = false → (∀ b ∈ c.u.bars, (c.u.bar b.1).doe = false) → (∀ t ∈ threads c.act, (c.w.tx t).st = .idle) →
      NotSolitary s c → c.act ≠ 0#32 → c.fr.mask &&& c.act = c.act →
      ∃ t w, exec .exit s = .next t ∧ t.mem = s.mem ∧ t.warp? c.f.unit c.f.warp = some w ∧ w.exited = c.w.exited ||| c.act
        ∧ w.regs = c.w.regs ∧ w.preds = c.w.preds ∧ w.killed = c.w.killed
        ∧ (∀ i, i ≠ c.f.fidx → Map.look w.frags i = Map.look c.w.frags i)
        ∧ Map.look w.frags c.f.fidx = some
            (if c.fr.mask &&& ~~~c.act = 0#32 then { c.fr with status := .dead, wake := .none, clause := none, actm := 0#32, done := 0#32, lane := false }
             else { c.fr with pc := f, clause := none, actm := 0#32, done := 0#32, lane := false, mask := c.fr.mask &&& ~~~c.act }))

/-! ### Memory (05 R163 to R173, 06 R174 to R182, 09) -/

/-- R163 to R170, R175, R178: a load, store, capability move, atomic or update-only reduction whose active threads pass every check puts one
operation in flight on the ls path, with the parts of each thread where its bytes lie, and goes on where its packets to each device find room
among 256 (R366) and its pins to each page among 65,535 (R404); memory and registers are as they were, and an Open thread whose access is not transactional is Doomed with ACCESS (R186). With no active thread nothing is issued.
(The model's choices: log entry 13.) -/
def Obligations.MemoryWordsIssue : Prop :=
  ∀ (s : State) (c : Ctx) (i : Instr) (m : MemIns), accessOf i = some m →
    Ready s c (⟨m.reg.toNat, m.regs, 1⟩ :: memOpn m.mr) [] → m.reg.toNat % m.regs = 0 →
    (c.act = 0#32 → ∃ t, exec i s = .next t ∧ Becomes s t c c.w (c.fr.passed (memWords m.mr)))
    ∧ ∀ l : Nat → List ByteLoc, c.act ≠ 0#32 → c.full (some .ls) = false → c.tendPending = false → HeldTrue s c →
      (∀ t ∈ threads c.act, (∀ n < 7, c.test s m.want m.mr (m.stag c t) t n) ∧ c.Lies s m.want m.mr (m.stag c t) t (l t)) →
      ∀ items : List Item,
        items = (threads c.act).flatMap (fun t => itemsOf m.want t (c.addr m.mr t) (l t) (m.data c t) (m.cmp c t) (m.stag c t)
          (m.want.kind = .loadCap && (c.cap m.mr.c t).has 5 && (l t).all (·.tags))
          (((c.w.tx t).st = .opened && txAccess m.want (l t)) || ((c.w.tx t).st = .doomed && isStore m.want.kind))) →
      (∀ p ∈ peersOf items, (s.unacked (dieOf c.u.core) p.1).length + p.2 ≤ 256) →
      (∀ p ∈ Map.keys s.pages, ∀ k, k = ((threads c.act).filter fun t => (l t).any fun b => match b with
        | .phys pa _ _ _ _ => s.inPage p pa
        | _ => false).length → k = 0 ∨ s.pins p + k ≤ 65535) →
      ∃ t v, exec i s = .next t
        ∧ Issued s t c (memWords m.mr)
            (c.newOp s (some .ls) (.mem m.acq m.rel) (s.numberPeers (dieOf c.u.core) items).2
              (if reads m.want.kind then
                some
                  { reg := c.base + m.reg.toNat
                    n := if m.want.kind = .loadCap then 4 else if m.want.size = 8 then 2 else 1
                    size := m.want.size, sext := m.sext, cap := m.want.kind = .loadCap }
               else none) none) v
        ∧ v = { c.w with txn := v.txn }
        ∧ ∀ u < 32, v.tx u = if c.act.getLsbD u && (c.w.tx u).st = .opened && !(txAccess m.want (l u)) then
            { c.w.tx u with st := .doomed, code := 6#4 } else c.w.tx u

/-- R164, R175: an access whose every thread fails the same check faults with that check's cause and the lowest thread's address; the checks come in
the order of R164, so a thread fails check n only if it passes those before it. A data register out of line is an illegal opcode.
(The model's choices: log entry 12.) -/
def Obligations.AccessFaultsInOrder : Prop :=
  ∀ (s : State) (c : Ctx) (i : Instr), c.act ≠ 0#32 → c.act = c.fr.mask → NotSolitary s c →
    (∀ m, accessOf i = some m → Ready s c (⟨m.reg.toNat, m.regs, 1⟩ :: memOpn m.mr) [] →
      (m.reg.toNat % m.regs ≠ 0 → ∃ t, exec i s = .next t ∧ FaultsWhole s t c 0x01 0 0 true)
      ∧ (m.reg.toNat % m.regs = 0 → c.full (some .ls) = false → c.tendPending = false →
        ∀ n < 7, (∀ t ∈ threads c.act, (∀ k < n, c.test s m.want m.mr (m.stag c t) t k) ∧ ¬ c.test s m.want m.mr (m.stag c t) t n) →
        ∀ low, lowest c.act = some low → ∃ t, exec i s = .next t ∧
          FaultsWhole s t c (testCause n) (BitVec.ofNat 64 (c.addr m.mr low)) 0 true))
    ∧ (∀ mr : MemRef, ((∃ dev, i = .cwb dev mr) ∨ i = .cinv mr) → Ready s c (memOpn mr) [] → c.full (some .ls) = false →
      c.tendPending = false → ∀ w : Want, w = ⟨1, 1, .load, false, false, [0, 1, 2, 3, 4]⟩ →
      ∀ n < 7, (∀ t ∈ threads c.act, (∀ k < n, c.test s w mr false t k) ∧ ¬ c.test s w mr false t n) →
        ∀ low, lowest c.act = some low → ∃ t, exec i s = .next t ∧
          FaultsWhole s t c (testCause n) (BitVec.ofNat 64 (c.addr mr low)) 0 true)

/-- (1) R164, R173: PREF, CWB and CINV put a line operation in flight for the active threads; PREF drops the threads that fail a check and never faults; CWB
and CINV doom the Open threads that run them (R186).

(2) R173: the completion of a line operation: CWB ends the core's registration of the words of its lines and keeps its copies, CINV also
discards them; memory keeps its bytes. -/
def Obligations.LineOperations : Prop :=
  (
    ∀ (s : State) (c : Ctx) (mr : MemRef), Ready s c (memOpn mr) [] →
      (c.act = 0#32 → ∀ i : Instr, (∃ l2, i = .pref l2 mr) ∨ (∃ dev, i = .cwb dev mr) ∨ i = .cinv mr →
        ∃ t, exec i s = .next t ∧ Becomes s t c c.w (c.fr.passed (memWords mr)))
      ∧ (c.act ≠ 0#32 → c.full (some .ls) = false → c.tendPending = false →
        (∀ l2, (∀ t ∈ threads c.act, c.capTag mr.c t = false) →
          ∃ t, exec (.pref l2 mr) s = .next t ∧ Issued s t c (memWords mr) (c.newOp s (some .ls) (.pref l2) [] none none) c.w)
        ∧ (HeldTrue s c → ∀ (l : Nat → List ByteLoc) (w : Want), w = ⟨1, 1, .load, false, false, [0, 1, 2, 3, 4]⟩ →
          (∀ t ∈ threads c.act, (∀ n < 7, c.test s w mr false t n) ∧ c.Lies s w mr false t (l t)) →
          ∀ items : List Item, items = (threads c.act).map (fun t => ⟨t, c.addr mr t, 0, l t, .load, 0#128, false, 0#64, false, false, true⟩) →
          (∀ l2, ∃ t, exec (.pref l2 mr) s = .next t ∧ Issued s t c (memWords mr) (c.newOp s (some .ls) (.pref l2) items none none) c.w)
          ∧ ∀ (i : Instr) (k : OpKind), (∃ dev, i = .cwb dev mr ∧ k = .cwb dev) ∨ (i = .cinv mr ∧ k = .cinv) →
            ∃ t v, exec i s = .next t ∧ Issued s t c (memWords mr) (c.newOp s (some .ls) k items none none) v ∧ v = { c.w with txn := v.txn }
              ∧ ∀ u < 32, v.tx u = if c.act.getLsbD u && (c.w.tx u).st = .opened then { c.w.tx u with st := .doomed, code := 6#4 } else c.w.tx u)))
  ∧ (
    ∀ (s : State) (u op : Nat) (un : KUnit) (o : Op), s.unit? u = some un → un.op? op = some o → o.done = false → un.drops = [] → s.stalled = false →
      let lines := o.items.filterMap fun i => match i.locs with
        | .phys pa k _ _ _ :: _ => if k = .so then none else some (pa / 64)
        | _ => none
      (∀ dev, o.kind = .cwb dev → ∃ t, exec (.memoryOpComplete u op) s = .next t ∧ t.mem = s.mem ∧ t.tags = s.tags
        ∧ (t.core un.core).copies = (s.core un.core).copies
        ∧ (∀ w, Map.look t.regOwner w = if w / 16 ∈ lines ∧ Map.look s.regOwner w = some un.core then none else Map.look s.regOwner w)
        ∧ (t.unit? u).map (·.ops) = some (un.complete op).ops)
      ∧ (o.kind = .cinv → ∃ t, exec (.memoryOpComplete u op) s = .next t ∧ t.mem = s.mem ∧ t.tags = s.tags
        ∧ (∀ w, Map.look (t.core un.core).copies w = if w / 16 ∈ lines then none else Map.look (s.core un.core).copies w)
        ∧ (∀ w, Map.look t.regOwner w = if w / 16 ∈ lines ∧ Map.look s.regOwner w = some un.core then none else Map.look s.regOwner w)
        ∧ (t.unit? u).map (·.ops) = some (un.complete op).ops))

/-- R167, R168, R177 in scratchpad and cluster space: a store puts its bytes there with the granules' tags; a load and an atomic bring what
stood there into the destination of a live thread once the thread's last byte is read, an atomic stores the value of its operation, and nothing
else changes but the private copies that an acquire at .cluster scope or wider drops (R297). The parts are those that no other part of the operation
overlaps.
(The model's choices: log entry 13.) -/
def Obligations.ScratchAccessPerforms : Prop :=
  ∀ (s : State) (u op x : Nat) (un un2 : KUnit) (o : Op) (i : Item) (tu off n : Nat), s.unit? u = some un → un.op? op = some o →
    (o.items.find? fun y => y.thread = x && !y.done) = some i → mayPerform un.ops o i = true → i.tx = false → 0 < n → o.fails = [] →
    (writes i.kind = true → (o.items.filter fun y => !y.done && writes y.kind && y.overlaps i) = [i]) →
    i.locs = (span off n).map (.scr tu) → s.unit? tu = some un2 → (isStore i.kind = false → un2.spoisoned off n = false) →
    let old := leNat (un2.sbytes off n)
    let stored := fun (un3 : KUnit) (v : Nat) => ∀ b, un3.sbyte b = if off ≤ b ∧ b < off + n then BitVec.ofNat 8 (v / 256 ^ (b - off)) else un2.sbyte b
    let kept := fun t : State => t = { s with units := t.units, cores := t.cores } ∧ (∀ k, k ≠ tu → k ≠ u → t.unit? k = s.unit? k)
      ∧ ∀ k, t.core k = (if reads i.kind = true ∧ o.wideAcq = true then s.selfInvalidate un.core false else s).core k
    (i.kind = .store ∨ i.kind = .storeCap → un2.frozen = false →
      ∃ t un3, exec (.sliceAccess u op x) s = .next t ∧ kept t
        ∧ t.unit? tu = some un3 ∧ un3.warps = un2.warps ∧ un3.bars = un2.bars ∧ un3.acc = un2.acc ∧ stored un3 i.data.toNat
        ∧ (∀ g, NSet.has un3.stags g = if off / 16 ≤ g ∧ g ≤ (off + n - 1) / 16 then decide (i.kind = .storeCap) && i.tag else NSet.has un2.stags g)
        ∧ Performed s t u op i)
    ∧ (∀ (d : Dst) (w : Warp), o.dst = some d → s.warp? u o.warp = some w → w.live.getLsbD x = true → x < 32 →
      let mine := o.items.filter fun y => y.thread = x
      let value := leNat (mine.flatMap fun y => if y.off = i.off then un2.sbytes off n else leBytes y.locs.length y.data.toNat)
      (i.kind = .load ∨ (∃ a, i.kind = .atom a) → d.cap = false → d.size ∈ [1, 2, 4, 8] → d.n = max 1 (d.size / 4) →
        ∃ t v, exec (.sliceAccess u op x) s = .next t ∧ kept t
          ∧ t.warp? u o.warp = some v ∧ v = { w with regs := v.regs, rtags := v.rtags, qtags := v.qtags }
          ∧ (∀ r y, y < 32 → v.reg r y = if y = x ∧ d.reg ≤ r ∧ r < d.reg + d.n ∧ ∀ z ∈ mine, z.done = true ∨ z.off = i.off then
              loadWord d.size d.sext value (r - d.reg) else w.reg r y)
          ∧ (i.kind = .load → ∀ un3, t.unit? tu = some un3 → un3.scratch = un2.scratch)
          ∧ (∀ a, i.kind = .atom a → n = 4 ∨ n = 8 → (a = .addF → n = 4) → i.data.toNat < 256 ^ n → i.cmp.toNat < 256 ^ n → un2.frozen = false →
              ∀ un3, t.unit? tu = some un3 → stored un3 (rmwValue a n old i.data.toNat i.cmp.toNat))
          ∧ Performed s t u op i)
      ∧ (i.kind = .loadCap → d.cap = true → n = 16 → d.size = 16 → d.n = 4 → mine = [i] →
        ∃ t v, exec (.sliceAccess u op x) s = .next t ∧ t.warp? u o.warp = some v
          ∧ v = { w with regs := v.regs, rtags := v.rtags, qtags := v.qtags } ∧ v.quad d.reg x = BitVec.ofNat 128 old
          ∧ v.qtag (d.reg / 4) x = (NSet.has un2.stags (off / 16) && i.ctag && (Cap.of (BitVec.ofNat 128 old)).ok)
          ∧ kept t ∧ Performed s t u op i))
    ∧ (∀ a, i.kind = .red a → n = 4 ∨ n = 8 → (a = .addF → n = 4) → a ≠ .cas → i.data.toNat < 256 ^ n → un2.frozen = false →
      s.redFirst un.core o i = false →
      ∃ t un3, exec (.sliceAccess u op x) s = .next t ∧ kept t ∧ t.unit? tu = some un3 ∧ un3.warps = un2.warps
        ∧ stored un3 (rmwValue a n old i.data.toNat 0) ∧ Performed s t u op i)

/-- R167, R168, R177, R180, R290, R297 in global memory, where no update-only partial stands: a store and an atomic change at the coherence
point the bytes they name and no other; a load and an atomic bring the bytes that stood there into the destination once the thread's last byte is
read, where the core's own copies are not older; a reduction on a strongly ordered page performs at the home, on another it is gathered in the core
and memory keeps its bytes. The parts are those that no other part of the operation overlaps.
(The model's choices: log entries 13 and 14.) -/
def Obligations.GlobalAccessPerforms : Prop :=
  ∀ (s : State) (u op x : Nat) (un : KUnit) (o : Op) (i : Item) (pa n cx va : Nat) (k : PKind) (g : PageUse), s.unit? u = some un →
    un.op? op = some o →
    (o.items.find? fun y => y.thread = x && !y.done) = some i → mayPerform un.ops o i = true → i.tx = false → 0 < n → o.fails = [] →
    (writes i.kind = true → (o.items.filter fun y => !y.done && writes y.kind && y.overlaps i) = [i]) →
    i.locs.head? = some (.phys pa k cx va g) → i.locs.length = n → s.lineBusy (some (u, o.warp, x)) pa (writes i.kind) = false →
    s.ringBead pa = none → (reads i.kind = true ∨ (k = .so ∧ isRmw i.kind = true) → s.poisoned pa n = false) → (∀ j, (s.core j).reds = [] ∧ (s.core j).held = []) →
    (∀ z ∈ i.locs, (match z with | .peer _ _ _ _ => false | _ => true) = true) →
    let old := leNat (s.bytes pa n)
    let stored := fun (t : State) (v : Nat) => ∀ a, t.byte a = if pa ≤ a ∧ a < pa + n then BitVec.ofNat 8 (v / 256 ^ (a - pa)) else s.byte a
    let regsKept := fun t : State => ∀ a b, (t.warp? a b).map (fun w => (w.regs, w.preds, w.qtags, w.frags)) =
      (s.warp? a b).map fun w => (w.regs, w.preds, w.qtags, w.frags)
    (i.kind = .store ∨ i.kind = .storeCap →
      ∃ t, exec (.sliceAccess u op x) s = .next t ∧ stored t i.data.toNat ∧ regsKept t ∧ t.dev = s.dev ∧ t.dies = s.dies
        ∧ (∀ g, NSet.has t.tags g = if pa / 16 ≤ g ∧ g ≤ (pa + n - 1) / 16 then decide (i.kind = .storeCap) && i.tag else NSet.has s.tags g)
        ∧ (i.kind = .storeCap → i.tag = true → Map.look t.tagBy (pa / 16) = some (s.ctxOf u)))
    ∧ (∀ (d : Dst) (w : Warp), o.dst = some d → s.warp? u o.warp = some w → w.live.getLsbD x = true → x < 32 →
      let mine := o.items.filter fun y => y.thread = x
      let value := leNat (mine.flatMap fun y => if y.off = i.off then s.bytes pa n else leBytes y.locs.length y.data.toNat)
      let whole := ∀ z ∈ mine, z.done = true ∨ z.off = i.off
      (i.kind = .load → d.cap = false → d.size ∈ [1, 2, 4, 8] → d.n = max 1 (d.size / 4) →
        (∀ q ∈ wordsOf pa n, ∀ y, Map.look (s.core un.core).copies q = some y → y.val = BitVec.ofNat 32 (leNat (s.bytes (4 * q) 4))) →
        ∃ t v, exec (.sliceAccess u op x) s = .next t ∧ t.mem = s.mem ∧ t.tags = s.tags ∧ t.warp? u o.warp = some v
          ∧ v = { w with regs := v.regs, rtags := v.rtags, qtags := v.qtags, txn := v.txn } ∧ (∀ y, (w.tx y).st ≠ .opened → v.tx y = w.tx y)
          ∧ (∀ r y, y < 32 → v.reg r y = if y = x ∧ d.reg ≤ r ∧ r < d.reg + d.n ∧ whole then loadWord d.size d.sext value (r - d.reg) else w.reg r y)
          ∧ Performed s t u op i)
      ∧ (i.kind = .loadCap → d.cap = true → n = 16 → pa % 16 = 0 → d.size = 16 → d.n = 4 → mine = [i] →
        (∀ q ∈ wordsOf pa n, ∀ y, Map.look (s.core un.core).copies q = some y →
          y.val = BitVec.ofNat 32 (leNat (s.bytes (4 * q) 4)) ∧ y.tag = NSet.has s.tags (pa / 16)) →
        ∃ t v, exec (.sliceAccess u op x) s = .next t ∧ t.mem = s.mem ∧ t.tags = s.tags ∧ t.warp? u o.warp = some v
          ∧ v.quad d.reg x = BitVec.ofNat 128 old
          ∧ v.qtag (d.reg / 4) x = (NSet.has s.tags (pa / 16) && i.ctag && (Cap.of (BitVec.ofNat 128 old)).ok))
      ∧ (∀ a, i.kind = .atom a → d.cap = false → n = d.size → n = 4 ∨ n = 8 → d.n = n / 4 → mine = [i] → (a = .addF → n = 4) →
        i.data.toNat < 256 ^ n → i.cmp.toNat < 256 ^ n →
        ∃ t v, exec (.sliceAccess u op x) s = .next t ∧ stored t (rmwValue a n old i.data.toNat i.cmp.toNat) ∧ t.warp? u o.warp = some v
          ∧ (∀ r y, y < 32 → v.reg r y = if y = x ∧ d.reg ≤ r ∧ r < d.reg + n / 4 then loadWord n d.sext old (r - d.reg) else w.reg r y)))
    ∧ (∀ a, i.kind = .red a → n = 4 ∨ n = 8 → (a = .addF → n = 4) → a ≠ .cas → i.data.toNat < 256 ^ n → s.redFirst un.core o i = false →
      (k = .so → ∃ t, exec (.sliceAccess u op x) s = .next t ∧ stored t (rmwValue a n old i.data.toNat 0) ∧ regsKept t)
      ∧ (k ≠ .so → ∃ t, exec (.sliceAccess u op x) s = .next t ∧ t.mem = s.mem ∧ regsKept t
        ∧ (t.core un.core).partial? (pa / 4) = some
            ⟨a, n, if a = .addF ∧ (f32.val (i.data.toNat % 2 ^ 32)).isNan = true then 0x7FC00000#64 else i.data.setWidth 64⟩))

/-- R164, R165, R179, R181: a part whose line is held by the ring, or that would read poisoned bytes, as a reduction does that performs at once, does not
perform: its thread's share leaves the
operation, and when no part is left to perform the thread faults at the word, whose fragment is runnable, with *ring-held line* or *poisoned data*, the
address of its access, and the bead as hint. Memory keeps its bytes.
(The model's choices: log entry 12.) -/
def Obligations.AccessFailsAsItPerforms : Prop :=
  ∀ (s : State) (u op x : Nat) (un : KUnit) (o : Op) (i : Item) (a r : Option Scope) (pa cx va : Nat) (k : PKind) (g : PageUse),
    s.unit? u = some un → un.op? op = some o → (o.items.find? fun y => y.thread = x && !y.done) = some i → mayPerform un.ops o i = true →
    i.tx = false → o.fails = [] → o.kind = .mem a r → x < 32 → (writes i.kind = true → o.together i = [i]) → s.redFirst un.core o i = false →
    i.peer = false → i.locs.head? = some (.phys pa k cx va g) → s.lineBusy (some (u, o.warp, x)) pa (writes i.kind) = false →
    ∀ cause hint, (s.ringBead pa = some hint ∧ cause = 0x18)
        ∨ (s.ringBead pa = none ∧ (reads i.kind = true ∨ (k = .so ∧ isRmw i.kind = true)) ∧ s.poisoned pa i.locs.length = true ∧ cause = 0x19
          ∧ hint = 0) →
      ∃ t, exec (.sliceAccess u op x) s = .next t ∧ t.mem = s.mem ∧ t.tags = s.tags ∧ t.regOwner = s.regOwner
        ∧ ((∃ y ∈ o.items, y.thread ≠ x ∧ y.done = false) → t.units = (s.editUnit u fun v => v.editOp op fun o => o.fail i cause hint []).units)
        ∧ ∀ (w : Warp) (f : Nat) (fr : Frag), s.warp? u o.warp = some w → w.frags = [(f, fr)] → w.lates = [] → fr.status = .runnable →
          fr.mask = bit x → s.soloHolder ≠ some (u, o.warp, x) → (∀ y ∈ o.items, y.thread = x ∨ y.done = true) →
          ∃ fr', t.frag? ⟨u, o.warp, f⟩ = some fr' ∧ fr'.status = .parkedFault ∧ fr'.mask = fr.mask ∧ fr'.pc = o.at_.pc
            ∧ fr'.clause = o.at_.clause ∧ fr'.fmt = o.at_.fmt ∧ fr'.win = o.at_.win
            ∧ fr'.frec = some
                { cause := cause, replay := true, serial := (s.core un.core).serial, hint := hint, pc := o.at_.pc, mask := fr.mask, done := 0#32
                  addr := BitVec.ofNat 64 i.addr, core := un.core, await := [] }
            ∧ t.posts = s.posts ++ [.frag ⟨u, o.warp, f⟩ (s.core un.core).serial]

/-- R32, R172, R299: a memory operation whose every part has performed completes, where no drop of killed threads waits for it (R288): its flag falls by
one for the fragments that share a thread with it; its path counter falls if no earlier operation of the path is in flight, and otherwise when those have completed.
(The model's choices: log entry 13.) -/
def Obligations.OperationCompletes : Prop :=
  ∀ (s : State) (u op : Nat) (un : KUnit) (o : Op) (p : PathId) (before after : List Op), s.unit? u = some un →
    un.ops = before ++ o :: after → o.id = op → (∀ x ∈ before ++ after, x.id ≠ op ∧ x.done = false) → o.done = false → o.path = some p → un.drops = [] → s.stalled = false →
    (∃ a r, o.kind = .mem a r) → (∀ i ∈ o.items, i.done = true) →
    ∃ t vn, exec (.memoryOpComplete u op) s = .next t ∧ t = { s with units := t.units } ∧ (∀ k, k ≠ u → t.unit? k = s.unit? k)
      ∧ t.unit? u = some vn ∧ vn = { un with ops := vn.ops }
      ∧ (∀ w k m, vn.flagValue w k m = un.flagValue w k m - if o.warp = w ∧ o.flag = some k ∧ o.mask &&& m ≠ 0#32 then 1 else 0)
      ∧ ((∀ x ∈ before, x.path ≠ some p) → vn.ops = before ++ after ∧ vn.pathCount p + 1 = un.pathCount p)
      ∧ ((∃ x ∈ before, x.path = some p) → vn.ops = before ++ { o with done := true } :: after ∧ vn.pathCount p = un.pathCount p)


/-! ### Fences, transactions and barriers (06 R183 to R200) -/

/-- R183, R184, R286, R290: FENCE wider than one thread stands among the accesses of its active threads until those it orders have performed, and then
invalidates at a wide scope; FENCE.thread orders nothing; XFENCE with the ls path second drops the private copies that the core has not
registered, at a wide scope, and otherwise changes nothing. The instance of a scope that a thread has holds the threads, engine operations and other
agents that Table 9.1 lists.
(The model's choices: log entry 17.) -/
def Obligations.FencesStandAndFall : Prop :=
  (∀ (s : State) (c : Ctx), Ready s c [] [] →
    (∀ m sc, (c.act = 0#32 ∨ sc = .thread → ∃ t, exec (.fence m sc) s = .next t ∧ Retired s t c 1 c.w)
      ∧ (c.act ≠ 0#32 → sc ≠ .thread → ∃ t ws fs, exec (.fence m sc) s = .next t ∧ t.mem = s.mem
          ∧ t.unit? c.f.unit = some { c.u with
              warps := ws, nextOp := c.u.nextOp + 1
              ops := c.u.ops ++ [{ c.newOp s none (.fence m sc) [] none none with flag := none }] }
          ∧ t.warp? c.f.unit c.f.warp = some { c.w with frags := fs } ∧ Map.look fs c.f.fidx = some (c.fr.nextWord 1)
          ∧ ∀ i, i ≠ c.f.fidx → Map.look fs i = Map.look c.w.frags i))
    ∧ ∀ sc a b, let wide := sc ≠ .thread ∧ sc ≠ .warp ∧ sc ≠ .unit
      (c.act = 0#32 ∨ b ≠ .ls ∨ ¬ wide → ∃ t, exec (.xfence sc a b) s = .next t ∧ Retired s t c 1 c.w)
      ∧ (c.act ≠ 0#32 → b = .ls → wide → ∃ t, exec (.xfence sc a b) s = .next t ∧ t.mem = s.mem
          ∧ t.frag? c.f = some (c.fr.nextWord 1)
          ∧ ∀ x, Map.look (t.core c.u.core).copies x =
              if Map.look s.regOwner x = some c.u.core then Map.look (s.core c.u.core).copies x else none))
  ∧ (∀ (s : State) (u op : Nat) (un : KUnit) (o : Op) (m : FenceKind) (sc : Scope) (before after : List Op), s.unit? u = some un →
      un.ops = before ++ o :: after → o.id = op → (∀ x ∈ before ++ after, x.id ≠ op ∧ x.done = false) → o.done = false →
      o.path = none → o.kind = .fence m sc → un.drops = [] → s.stalled = false →
      ((∀ x ∈ before, x.warp = o.warp → ∀ i ∈ x.items, i.done = true ∨ o.mask.getLsbD i.thread = false) →
        ∃ t, exec (.memoryOpComplete u op) s = .next t ∧ t.mem = s.mem ∧ (t.unit? u).map (·.ops) = some (before ++ after))
      ∧ ((∃ x ∈ before, x.warp = o.warp ∧ ∃ i ∈ x.items, i.done = false ∧ o.mask.getLsbD i.thread = true) → m ≠ .acq →
        exec (.memoryOpComplete u op) s = .next s))
  ∧ ∀ (s : State) (u w t v x y : Nat) (un vn : KUnit), s.unit? u = some un → s.unit? v = some vn → (s.warp? v x).isSome = true → t < 32 → y < 32 →
    let holds := fun (sc : Scope) (a : Agent) => s.member sc u w t a = true
    (holds .thread (.thread v x y) ↔ v = u ∧ x = w ∧ y = t) ∧ (holds .warp (.thread v x y) ↔ v = u ∧ x = w) ∧ (holds .unit (.thread v x y) ↔ v = u)
      ∧ (holds .unit (.engine v) ↔ v = u) ∧ (holds .cluster (.thread v x y) ↔ v = u ∨ v ∈ Map.vals un.mates)
      ∧ (holds .cluster (.engine v) ↔ v = u ∨ v ∈ Map.vals un.mates) ∧ (holds .die (.thread v x y) ↔ vn.core / 96 = un.core / 96)
      ∧ (holds .die (.engine v) ↔ vn.core / 96 = un.core / 96)
      ∧ (∀ sc, sc = .dev ∨ sc = .part ∨ sc = .sys → holds sc (.thread v x y) ∧ holds sc (.engine v) ∧ ∀ d < 2, holds sc (.dieUnits d))
      ∧ (∀ d, ¬ holds .die (.dieUnits d)) ∧ (∀ d, holds .part (.peer d) ↔ s.inPartition d = true) ∧ (∀ d, ¬ holds .dev (.peer d))
      ∧ holds .sys .host ∧ ¬ holds .part .host

/-- (1) R94, R185, R188, R189, Tables 6.3 to 6.5: TBEGIN opens the transactions of its Idle threads with their snapshot and dooms its Open ones with NEST; TABORT
dooms Open threads with EXPLICIT and its number, and gives Idle ones code 9; TSTAT reads the status word.

(2) R188: a TBEGIN of an Idle thread whose COUNT is 16 asks for the solitary grant, in beat order, and waits; SOLITARY_GRANT gives the grant, when nobody
holds it, to the thread that has waited longest; with the grant the TBEGIN opens a solitary transaction.
(The model's choices: log entries 11 and 16.) -/
def Obligations.TransactionWords : Prop :=
  (
    ∀ (s : State) (c : Ctx), c.tendPending = false →
      (Ready s c [] [] →
        (c.act = 0#32 → ∃ t, exec .tbegin s = .next t ∧ Retired s t c 1 c.w)
        ∧ (c.act ≠ 0#32 → c.u.rowsBusy c.fr.accwin c.act = false →
          (∀ u ∈ threads c.act, (c.w.tx u).st = .idle → (c.w.tx u).count ≠ 16) →
          ∃ t v, exec .tbegin s = .next t ∧ Retired s t c 1 v ∧ v = { c.w with txn := v.txn }
            ∧ ∀ u < 32, v.tx u =
                if c.act.getLsbD u then
                  match (c.w.tx u).st with
                  | .idle =>
                    { c.w.tx u with
                      st := .opened, code := 0#4, user := 0#8, solo := false, rset := [], wset := [], pages := [], pins := [], snapFlags := c.w.flags u
                      snapRow := if 32 * c.fr.accwin + 32 ≤ c.l.acc then some (32 * c.fr.accwin + u) else none
                      snapMx := if 32 * c.fr.accwin + 32 ≤ c.l.acc then (c.u.row (32 * c.fr.accwin + u)).mxexc else 0#24 }
                  | .opened => { c.w.tx u with st := .doomed, code := 7#4 }
                  | .doomed => c.w.tx u
                else c.w.tx u)
        ∧ (∀ n : BitVec 7, ∃ t v, exec (.tabort n) s = .next t ∧ Retired s t c 1 v ∧ v = { c.w with txn := v.txn }
            ∧ ∀ u < 32, v.tx u =
                if c.act.getLsbD u then
                  match (c.w.tx u).st with
                  | .idle => { c.w.tx u with code := 9#4 }
                  | .opened => { c.w.tx u with st := .doomed, code := 4#4, user := n.zeroExtend 8 }
                  | .doomed => c.w.tx u
                else c.w.tx u))
      ∧ (∀ d : Reg, Ready s c [opV d] [] → Writes (.tstat d) s c 1 (fun u =>
          let x := c.w.tx u
          .ofRegs (c.wr d (BitVec.ofNat 32 (x.user.toNat * 2 ^ 16 + x.count * 2 ^ 8 + (if x.solo then 2 ^ 7 else 0)
            + (match x.st with | .idle => 0 | .opened => 1 | .doomed => 2) * 2 ^ 5 + x.code.toNat))))))
  ∧ (
    (∀ (s : State) (c : Ctx) (u : Nat), Ready s c [] [] → c.tendPending = false → c.u.rowsBusy c.fr.accwin c.act = false →
      threads c.act = [u] → (c.w.tx u).st = .idle → (c.w.tx u).count = 16 →
      (s.soloHolder ≠ some (c.f.unit, c.f.warp, u) → (c.f.unit, c.f.warp, u) ∉ s.soloQueue →
        ∃ t, exec .tbegin s = .next t ∧ t.soloQueue = s.soloQueue ++ [(c.f.unit, c.f.warp, u)] ∧ t.soloHolder = s.soloHolder ∧ t.mem = s.mem
          ∧ t.frag? c.f = some { c.fr with status := .parkedWait, wake := .issue [.grant u] false, lane := false })
      ∧ (s.soloHolder = some (c.f.unit, c.f.warp, u) →
        ∃ t v, exec .tbegin s = .next t ∧ Retired s t c 1 v ∧ (v.tx u).st = .opened ∧ (v.tx u).solo = true ∧ (v.tx u).rset = [] ∧ (v.tx u).wset = []))
    ∧ ∀ (s : State) (u w t : Nat) (rest : List (Nat × Nat × Nat)) (wp : Warp), s.soloHolder = none → s.soloQueue = (u, w, t) :: rest →
        s.warp? u w = some wp → wp.live.getLsbD t = true →
        exec .solitaryGrant s = .next { s with soloHolder := some (u, w, t), soloQueue := rest })

/-- R186, R404: while a thread is Open, a store of a word to global memory that is not unordered is buffered, pins its aperture page and writes nothing, a load of a word records
its value and answers the buffered bytes where there are some; a ninth read word or a fifth written word dooms with CAPACITY; a Doomed
thread's store is discarded. -/
def Obligations.TransactionalAccess : Prop :=
  ∀ (s : State) (u op x : Nat) (un : KUnit) (o : Op) (i : Item) (pa cx va : Nat) (k : PKind) (g : PageUse) (w : Warp), s.unit? u = some un →
    un.op? op = some o → o.fails = [] → (writes i.kind = true → (o.items.filter fun y => !y.done && writes y.kind && y.overlaps i) = [i]) → (o.items.find? fun y => y.thread = x && !y.done) = some i → mayPerform un.ops o i = true → i.tx = true → x < 32 →
    s.warp? u o.warp = some w → i.locs = (span pa 4).map (fun a => .phys a k cx (va + (a - pa)) g) → pa % 4 = 0 →
    s.lineBusy (some (u, o.warp, x)) pa (writes i.kind) = false → s.ringBead pa = none →
    (∀ j, (s.core j).reds = [] ∧ (s.core j).held = []) →
    let page := (g.base, g.size, pa - (va - g.base))
    let pages := if (w.tx x).pages.contains page then (w.tx x).pages else page :: (w.tx x).pages
    let pins := match (Map.keys s.pages).find? fun p => s.inPage p pa with
      | some p => if (w.tx x).pins.contains (p, op) then (w.tx x).pins else (p, op) :: (w.tx x).pins
      | none => (w.tx x).pins
    (i.kind = .store → (w.tx x).st = .opened →
      ∃ t v, exec (.sliceAccess u op x) s = .next t ∧ t.mem = s.mem ∧ t.warp? u o.warp = some v ∧ v = { w with txn := v.txn }
        ∧ (Map.rising (w.tx x).wset = true → (Map.has (w.tx x).wset (pa / 4) = true ∧ (w.tx x).wset.length ≤ 4) ∨ (w.tx x).wset.length < 4 →
            v.tx x = { w.tx x with wset := (v.tx x).wset, pages := pages, pins := pins }
            ∧ ∀ q, Map.look (v.tx x).wset q = if q = pa / 4 then some (i.data.setWidth 32, 0xF#4) else Map.look (w.tx x).wset q)
        ∧ (Map.rising (w.tx x).wset = true → Map.has (w.tx x).wset (pa / 4) = false → (w.tx x).wset.length = 4 →
            v.tx x = { w.tx x with st := .doomed, code := 3#4, pages := pages })
        ∧ Performed s t u op i)
    ∧ (i.kind = .store → (w.tx x).st ≠ .opened → ∃ t, exec (.sliceAccess u op x) s = .next t ∧ t = { s with units := t.units }
        ∧ t.warp? u o.warp = some w ∧ Performed s t u op i)
    ∧ (∀ d, i.kind = .load → (w.tx x).st = .opened → o.dst = some d → d.cap = false → d.size = 4 → d.n = 1 → (o.items.filter fun y => y.thread = x) = [i] → w.live.getLsbD x = true →
      s.poisoned pa 4 = false → Map.has (w.tx x).rset (pa / 4) = false → ∀ old : Word, old.toNat = leNat (s.bytes pa 4) →
      ((w.tx x).rset.length = 8 → ∃ t v, exec (.sliceAccess u op x) s = .next t ∧ t.mem = s.mem ∧ t.warp? u o.warp = some v
        ∧ v.tx x = { w.tx x with st := .doomed, code := 3#4, pages := pages } ∧ v.reg d.reg x = old ∧ Performed s t u op i)
      ∧ ((w.tx x).rset.length < 8 → ∃ t v, exec (.sliceAccess u op x) s = .next t ∧ t.mem = s.mem ∧ t.warp? u o.warp = some v
        ∧ (∀ q, Map.look (v.tx x).rset q = if q = pa / 4 then some old else Map.look (w.tx x).rset q)
        ∧ (v.tx x).st = .opened ∧ (v.tx x).wset = (w.tx x).wset ∧ (v.tx x).pages = pages
        ∧ (Map.look (w.tx x).wset (pa / 4) = none → v.reg d.reg x = old)
        ∧ (∀ b, Map.look (w.tx x).wset (pa / 4) = some (b, 0xF#4) → v.reg d.reg x = b) ∧ Performed s t u op i))

/-- R187, R94, R188: TEND is issued on the ls path and commits as it completes. A thread whose read words all hold the values recorded writes its write
set, its pd is true and its transaction ends with COUNT 0; one that finds another value writes nothing, its pd is false, its flags
are those of the snapshot and those raised since, and it ends with code CONFLICT and one more abort.
(The model's choices: log entry 16.) -/
def Obligations.TendCommitsOrAborts : Prop :=
  (∀ (s : State) (c : Ctx) (d : PredReg), Ready s c [] [d] →
    (c.act = 0#32 → ∃ t, exec (.tend d) s = .next t ∧ Becomes s t c c.w (c.fr.passed 1))
    ∧ (c.act ≠ 0#32 → c.full (some .ls) = false → c.tendPending = false →
      (∀ u ∈ threads c.act, ∀ r, (c.w.tx u).snapRow = some r → c.u.rowsBusy (r / 32) c.act = false) →
      ∃ t v, exec (.tend d) s = .next t ∧ Issued s t c 1 (c.newOp s (some .ls) .tend [] none (some d)) v
        ∧ v = { c.w with txn := v.txn, fflags := v.fflags }
        ∧ ∀ u < 32, v.tx u = (if c.act.getLsbD u then { c.w.tx u with held := c.w.flags u } else c.w.tx u)
            ∧ v.flags u = if c.act.getLsbD u then 0#5 else c.w.flags u))
  ∧ ∀ (s : State) (u op x : Nat) (un : KUnit) (o : Op) (p : PredReg) (w : Warp), s.unit? u = some un → un.op? op = some o → o.done = false →
      o.kind = .tend → un.drops = [] → s.stalled = false → o.pd = some p → p ≠ 7#3 → x < 32 → o.mask = bit x → s.warp? u o.warp = some w → w.live = allThreads →
      (w.tx x).st = .opened → s.soloHolder = none → Map.rising (w.tx x).wset = true → Map.rising (w.tx x).rset = true →
      earlierDone un.ops o (fun i => i.tx || !i.un) = true → s.commitHeld u o = false →
      (∀ j, (s.core j).reds = [] ∧ (s.core j).held = []) →
      ((∀ q ∈ (w.tx x).rset, leNat (s.bytes (4 * q.1) 4) = q.2.toNat) →
        ∃ t v, exec (.memoryOpComplete u op) s = .next t ∧ t.warp? u o.warp = some v ∧ v.pred p x = true ∧ v.regs = w.regs
          ∧ (v.tx x).st = .idle ∧ (v.tx x).code = 0#4 ∧ (v.tx x).count = 0 ∧ v.flags x = (w.tx x).held ||| w.flags x
          ∧ (∀ a, t.byte a = match Map.look (w.tx x).wset (a / 4) with
              | some (b, m) => if m.getLsbD (a % 4) then BitVec.ofNat 8 (b.toNat / 256 ^ (a % 4)) else s.byte a
              | none => s.byte a)
          ∧ (t.unit? u).map (·.ops) = some (un.complete op).ops)
      ∧ ((∃ q ∈ (w.tx x).rset, leNat (s.bytes (4 * q.1) 4) ≠ q.2.toNat) →
        ∃ t v, exec (.memoryOpComplete u op) s = .next t ∧ t.warp? u o.warp = some v ∧ v.pred p x = false ∧ v.regs = w.regs
          ∧ (v.tx x).st = .idle ∧ (v.tx x).code = 1#4 ∧ (v.tx x).count = min ((w.tx x).count + 1) 16
          ∧ v.flags x = (w.tx x).snapFlags ||| w.flags x ∧ t.mem = s.mem
          ∧ (t.unit? u).map (·.ops) = some (un.complete op).ops)

/-- (1) R192 to R197, R199, R200: the barrier words on a barrier that is good: BARINIT registers it with its expected count, bytes and mode; BARARR takes the
active threads and its bytes off the phase and gives the phase as token, and completes the phase when both reach zero; BAREXP adds
bytes; BARDROP drops the threads for good; BARINV invalidates, and frees the entry in its .free form.

(2) R191, R198: BARTST says whether the barrier has passed the token or is invalid; BARWAIT goes on with INV when it has, and parks at the barrier
when it has not; a barrier word on an offset that is not registered is a barrier fault in its active threads.

(3) R196, R197, R199, R200: so are BARARR, BAREXP, BARDROP and BARINV on such an offset, and a BARARR of a thread that has arrived or is dropped, or of more
threads than the phase still expects; on an invalidated barrier BARARR gives the phase and changes nothing else, and BAREXP changes nothing.
(The model's choices: log entries 17 and 18.) -/
def Obligations.BarrierWords : Prop :=
  (
    ∀ (s : State) (c : Ctx) (a : Reg) (off : Nat), c.act ≠ 0#32 → c.BarAt a off → c.u.frozen = false → c.u.hasWaiter off = false →
      let bar := c.u.bar off
      let n := popCount c.act
      let after := fun (t : State) (un : KUnit) (w : Nat) => t.unit? c.f.unit = some un ∧ t.frag? c.f = some (c.fr.nextWord w) ∧ t.mem = s.mem
        ∧ (∀ k, k ≠ c.f.unit → t.unit? k = s.unit? k) ∧ un.ops = c.u.ops
        ∧ (∀ b, b < off ∨ off + 16 ≤ b → un.sbyte b = c.u.sbyte b) ∧ ∀ k, k ≠ off → Map.look un.bars k = Map.look c.u.bars k
      (∀ (b : Reg) (exp mode : Nat) (doe : Bool), Ready s c [opV a, opP b] [] →
        (c.rd b c.low).toNat = exp + mode * 2 ^ 16 + (if doe then 2 ^ 18 else 0) → 1 ≤ exp → exp ≤ 8192 → mode ≤ 1 →
        Map.has c.u.bars off = true ∨ c.u.bars.length < 16 →
        ∃ t un, exec (.barinit a b) s = .next t ∧ after t un 1 ∧ Map.look un.bars off = some ⟨0, 0⟩
          ∧ un.bar off = ⟨if mode = 1 then (c.rdP b c.low >>> 32).setWidth 32 else 0#32, (c.rdP b c.low >>> 32).setWidth 32, exp, exp, 0#16,
              false, doe, mode, true⟩)
      ∧ (bar.valid = true → ∀ bits, Map.look c.u.bars off = some bits →
        (∀ (i : Instr) (w : Nat) (use : List Opn) (d : Reg) (y : Word),
          (∃ b, i = .bararr d a b ∧ w = 1 ∧ use = [opV d, opV a, opV b] ∧ y = c.rd b c.low)
            ∨ (i = .bararrNobytes d a ∧ w = 1 ∧ use = [opV d, opV a] ∧ y = 0#32) ∨ (i = .bararrLit d a y ∧ w = 2 ∧ use = [opV d, opV a]) →
          Ready s c use [] → c.unperformed = false → bar.inv = false → n ≤ bar.thrrem →
          (bits.arrived ||| bits.dropped) &&& (c.act.zeroExtend 1024 <<< (32 * c.f.warp)) = 0#1024 →
          ∃ t un v, exec i s = .next t ∧ after t un w ∧ t.warp? c.f.unit c.f.warp = some v
            ∧ (∀ r u, u < 32 → v.reg r u = if r = c.base + d.toNat ∧ c.act.getLsbD u = true then bar.phase.zeroExtend 32 else c.w.reg r u)
            ∧ (bar.thrrem ≠ n ∨ bar.bal + y ≠ 0#32 → un.bar off = { bar with thrrem := bar.thrrem - n, bal := bar.bal + y }
                ∧ Map.look un.bars off = some { bits with arrived := bits.arrived ||| (c.act.zeroExtend 1024 <<< (32 * c.f.warp)) })
            ∧ (bar.thrrem = n → bar.bal + y = 0#32 →
                un.bar off = { bar with phase := bar.phase + 1#16, thrrem := bar.threxp, bal := if bar.mode = 1 then bar.balrld else 0#32 }
                ∧ Map.look un.bars off = some { bits with arrived := 0 }))
        ∧ (∀ (i : Instr) (w : Nat) (use : List Opn) (y : Word),
          (∃ b, i = .barexp a b ∧ w = 1 ∧ use = [opV a, opV b] ∧ y = c.rd b c.low) ∨ (i = .barexpLit a y ∧ w = 2 ∧ use = [opV a]) →
          Ready s c use [] → bar.inv = false → bar.thrrem ≠ 0 ∨ bar.bal + y ≠ 0#32 →
          ∃ t un, exec i s = .next t ∧ after t un w ∧ un.bar off = { bar with bal := bar.bal + y } ∧ Map.look un.bars off = some bits)
        ∧ (Ready s c [opV a] [] →
          (c.unperformed = false → n ≤ bar.threxp → n ≤ bar.thrrem → bar.thrrem ≠ n →
            (bits.arrived ||| bits.dropped) &&& (c.act.zeroExtend 1024 <<< (32 * c.f.warp)) = 0#1024 → c.f.warp < 32 →
            ∃ t un, exec (.bardrop a) s = .next t ∧ after t un 1
              ∧ un.bar off = { bar with threxp := bar.threxp - n, thrrem := bar.thrrem - n }
              ∧ Map.look un.bars off = some { bits with dropped := bits.dropped ||| (c.act.zeroExtend 1024 <<< (32 * c.f.warp)) })
          ∧ (∃ t un, exec (.barinv a) s = .next t ∧ after t un 1 ∧ un.bar off = { bar with inv := true } ∧ Map.look un.bars off = some bits)
          ∧ (∃ t un, exec (.barinvFree a) s = .next t ∧ after t un 1 ∧ un.bar off = { bar with inv := true, valid := false }
              ∧ (Map.rising c.u.bars = true → Map.look un.bars off = none)))))
  ∧ (
    ∀ (s : State) (c : Ctx) (a b : Reg) (p : PredReg) (off : Nat), c.act ≠ 0#32 → c.BarAt a off → Ready s c [opV a, opV b] [p] →
      let bar := c.u.bar off
      let passed := bar.phase ≠ (c.rd b c.low).setWidth 16 ∨ bar.inv = true
      (Map.has c.u.bars off = true → bar.valid = true →
        (c.u.sizeM1 = 0 → (passed → Writes (.bartst p a b) s c 1 (fun _ => .ofPred p true) ∧ Writes (.barwait p a b) s c 1 (fun _ => .ofPred p bar.inv))
          ∧ (¬ passed → Writes (.bartst p a b) s c 1 (fun _ => .ofPred p false)))
        ∧ (¬ passed → NotSolitary s c → ∃ t, exec (.barwait p a b) s = .next t ∧ Becomes s t c c.w { c.fr with
            status := if c.u.parkReq then .parkedWait else .parkedBarrier
            wake := if c.u.parkReq then .park else .barrier off ((c.rd b c.low).setWidth 16) p, lane := false })
        ∧ (c.u.sizeM1 ≠ 0 → passed → Map.rising (s.core c.u.core).copies = true → ∀ i v, (i = .bartst p a b ∧ v = true) ∨ (i = .barwait p a b ∧ v = bar.inv) →
            ∃ t w fs, exec i s = .next t ∧ t.mem = s.mem ∧ t.warp? c.f.unit c.f.warp = some { w with frags := fs }
              ∧ WarpEffect c.w w (Delta.of c.act fun _ => .ofPred p v) ∧ Map.look fs c.f.fidx = some (c.fr.nextWord 1)
              ∧ ∀ x, Map.look (t.core c.u.core).copies x = match Map.look (s.core c.u.core).copies x with
                | some y => if Map.look s.regOwner x = some c.u.core ∨ y.uPage = true then some y else none
                | none => none))
      ∧ ((Map.has c.u.bars off = false ∨ bar.valid = false) → c.act = c.fr.mask → NotSolitary s c → ∀ i : Instr,
          i = .barwait p a b ∨ i = .bartst p a b →
          ∃ t, exec i s = .next t ∧ FaultsWhole s t c 0x20 ((c.rd a c.low).zeroExtend 64) 0 true))
  ∧ (
    ∀ (s : State) (c : Ctx) (a d : Reg) (off : Nat), c.act ≠ 0#32 → c.BarAt a off →
      let bar := c.u.bar off
      let known := Map.has c.u.bars off = true ∧ bar.valid = true
      let arrives := fun (i : Instr) (w : Nat) (use : List Opn) => (∃ b, i = .bararr d a b ∧ w = 1 ∧ use = [opV d, opV a, opV b])
        ∨ (i = .bararrNobytes d a ∧ w = 1 ∧ use = [opV d, opV a]) ∨ (∃ y, i = .bararrLit d a y ∧ w = 2 ∧ use = [opV d, opV a])
      let expects := fun (i : Instr) (w : Nat) (use : List Opn) => (∃ b, i = .barexp a b ∧ w = 1 ∧ use = [opV a, opV b])
        ∨ (∃ y, i = .barexpLit a y ∧ w = 2 ∧ use = [opV a])
      ∀ (i : Instr) (w : Nat) (use : List Opn), Ready s c use [] →
        (¬ known → c.act = c.fr.mask → NotSolitary s c →
          arrives i w use ∨ expects i w use ∨ ((i = .bardrop a ∨ i = .barinv a ∨ i = .barinvFree a) ∧ use = [opV a]) →
          ∃ t, exec i s = .next t ∧ FaultsWhole s t c 0x20 ((c.rd a c.low).zeroExtend 64) 0 true)
        ∧ (known → bar.inv = false → arrives i w use → c.unperformed = false → c.act = c.fr.mask → NotSolitary s c →
          ∀ bits, Map.look c.u.bars off = some bits →
          (bits.arrived ||| bits.dropped) &&& (c.act.zeroExtend 1024 <<< (32 * c.f.warp)) ≠ 0#1024 ∨ bar.thrrem < popCount c.act →
          ∃ t, exec i s = .next t ∧ FaultsWhole s t c 0x20 ((c.rd a c.low).zeroExtend 64) 0 true)
        ∧ (known → bar.inv = true → arrives i w use → c.unperformed = false →
          Writes i s c w fun _ => .ofRegs (c.wr d (bar.phase.zeroExtend 32)))
        ∧ (known → bar.inv = true → expects i w use → ∃ t, exec i s = .next t ∧ Retired s t c w c.w))

/-- R196, R194, R198: an arrival at another unit's barrier of the cluster takes the threads off that barrier, and an arrival that completes a phase lets the
fragment of another warp that waits there go on with its pd false.
(The model's choices: log entry 18.) -/
def Obligations.BarrierArrivalsRelease : Prop :=
  ∀ (s : State) (c : Ctx) (a d : Reg) (off : Nat), c.act ≠ 0#32 → Ready s c [opV d, opV a] [] → c.unperformed = false →
    let n := popCount c.act
    (∀ (rank bu : Nat) (un : KUnit), (c.rd a c.low).toNat = 2 ^ 22 + rank * 2 ^ 19 + off → off % 16 = 0 → off + 16 ≤ c.l.scratch → off < 2 ^ 19 →
      rank ≠ c.u.rank → rank ≤ c.u.sizeM1 → rank < 8 → rank ∉ c.u.rankEnded → Map.look c.u.mates rank = some bu → bu ≠ c.f.unit →
      s.unit? bu = some un → un.frozen = false → Map.has un.bars off = true → (un.bar off).valid = true → (un.bar off).inv = false →
      n < (un.bar off).thrrem →
      ∃ t un2, exec (.bararrNobytes d a) s = .next t ∧ t.unit? bu = some un2 ∧ un2.warps = un.warps ∧ un2.bars = un.bars
        ∧ un2.bar off = { un.bar off with thrrem := (un.bar off).thrrem - n } ∧ t.frag? c.f = some (c.fr.nextWord 1))
    ∧ (c.BarAt a off → c.u.frozen = false → c.u.parkReq = false → ∀ bits, Map.look c.u.bars off = some bits → (c.u.bar off).valid = true →
      (c.u.bar off).inv = false → (c.u.bar off).thrrem = n → (c.u.bar off).bal = 0#32 →
      (bits.arrived ||| bits.dropped) &&& (c.act.zeroExtend 1024 <<< (32 * c.f.warp)) = 0#1024 →
      ∀ (w2 : Nat) (wp : Warp) (j : Nat) (x : Frag) (tok : BitVec 16) (pd : PredReg), w2 ≠ c.f.warp → Map.look c.u.warps w2 = some wp →
        wp.frags = [(j, x)] → x.status = .parkedBarrier → x.wake = .barrier off tok pd →
        ∃ t v, exec (.bararrNobytes d a) s = .next t ∧ t.warp? c.f.unit w2 = some v ∧ v.regs = wp.regs
          ∧ v.frags = [(j, { x.nextWord 1 with status := .runnable, wake := .none })]
          ∧ ∀ q u, u < 32 → v.pred q u = if q = pd ∧ q ≠ 7#3 ∧ (x.actm &&& ~~~x.done).getLsbD u = true then false else wp.pred q u)

/-! ### Mesh reduction and the Circlet (06 R201 to R212, 12 R362, R363, 13) -/

/-- (1) R201, R202, R205: MRED of a core that is a member of a valid descriptor, to a sequence ahead of the last one completed there and not yet given, hands
over the vector of its active threads, on the mr path; a handle that is bad, a core that is no member, or a sequence that is not ahead is
a reduction fault in its active threads.

(2) R204, R205: MRWAIT on the sequence last completed at the core writes its elements to vd, or faults with reduction timeout and the mask of missing members, or
with reduction fault where contributions disagreed or the core gave none; on a sequence ahead it parks if the core has contributed, and faults if not.
(The model's choices: log entry 22.) -/
def Obligations.MeshWords : Prop :=
  (
    ∀ (s : State) (c : Ctx) (op : FoldOp) (ty : MredTy) (a b : Reg), Ready s c [opV a, opV b] [] →
      (c.act = 0#32 → ∃ t, exec (.mred op ty a b) s = .next t ∧ Becomes s t c c.w (c.fr.passed 1))
      ∧ (c.act ≠ 0#32 → c.full (some .mr) = false → c.tendPending = false →
        (∀ d q : Nat, d < 64 → q < 256 → (c.rd b c.low).toNat = d + 256 * q → (s.desc (dieOf c.u.core) d).valid = true →
          (∃ i ≤ (s.desc (dieOf c.u.core) d).nnodes, nodeContrib ((s.desc (dieOf c.u.core) d).node i) = true
            ∧ nodeCore ((s.desc (dieOf c.u.core) d).node i) = c.u.core % 96) →
          let last := Map.look (s.core c.u.core).mesh (64 * dieOf c.u.core + d)
          let ahead := ∀ r, last = some r → 1 ≤ ((q : Int) - r.seqNo) % 256 ∧ ((q : Int) - r.seqNo) % 256 ≤ 127
          (ahead → (d, q) ∉ (s.core c.u.core).contrib →
            ∃ t v x, exec (.mred op ty a b) s = .next t ∧ t.mem = s.mem
              ∧ Map.look (t.desc (dieOf c.u.core) d).seqs q = some x
              ∧ Map.look x.given (c.u.core % 96) = some ((threads c.act).map (fun u => (u, c.rd a u)), c.f.unit, c.u.nextOp)
              ∧ (∀ y, Map.look (s.desc (dieOf c.u.core) d).seqs q = some y → x.bad = (y.bad || decide (y.op ≠ op) || decide (y.ty ≠ ty)))
              ∧ (t.core c.u.core).contrib = (s.core c.u.core).contrib ++ [(d, q)]
              ∧ (t.unit? c.f.unit).map (·.ops) = some (c.u.ops ++ [c.newOp s (some .mr) (.mred d q) [] none none])
              ∧ t.warp? c.f.unit c.f.warp = some v ∧ v.regs = c.w.regs ∧ t.frag? c.f = some (c.fr.passed 1))
          ∧ (¬ ahead ∨ (d, q) ∈ (s.core c.u.core).contrib → c.act = c.fr.mask → NotSolitary s c →
            ∃ t, exec (.mred op ty a b) s = .next t ∧ FaultsWhole s t c 0x22 0 0 true))
        ∧ (c.act = c.fr.mask → NotSolitary s c → ∀ n : Nat, (c.rd b c.low).toNat = n →
          n / 2 ^ 6 % 4 ≠ 0 ∨ 2 ^ 16 ≤ n ∨ (s.desc (dieOf c.u.core) (n % 64)).valid = false
            ∨ (∀ i ≤ (s.desc (dieOf c.u.core) (n % 64)).nnodes, nodeContrib ((s.desc (dieOf c.u.core) (n % 64)).node i) = false
                ∨ nodeCore ((s.desc (dieOf c.u.core) (n % 64)).node i) ≠ c.u.core % 96) →
          ∃ t, exec (.mred op ty a b) s = .next t ∧ FaultsWhole s t c 0x22 0 0 true)))
  ∧ (
    ∀ (s : State) (c : Ctx) (vd b : Reg) (d q : Nat), Ready s c [opV vd, opV b] [] → d < 64 → q < 256 → (c.rd b c.low).toNat = d + 256 * q →
      (s.desc (dieOf c.u.core) d).valid = true →
      (∃ i ≤ (s.desc (dieOf c.u.core) d).nnodes, nodeContrib ((s.desc (dieOf c.u.core) d).node i) = true
        ∧ nodeCore ((s.desc (dieOf c.u.core) d).node i) = c.u.core % 96) → c.act ≠ 0#32 →
      let last := Map.look (s.core c.u.core).mesh (64 * dieOf c.u.core + d)
      let ahead := ∀ r, last = some r → 1 ≤ ((q : Int) - r.seqNo) % 256 ∧ ((q : Int) - r.seqNo) % 256 ≤ 127
      (∀ r, last = some r → r.seqNo = q → r.bad = false → r.gave = true → r.missing = 0#64 →
        Writes (.mrwait vd b) s c 1 (fun u => .ofRegs (c.wr vd (Map.lookD r.vals u 0#32))))
      ∧ (ahead → (d, q) ∈ (s.core c.u.core).contrib →
        ∃ t, exec (.mrwait vd b) s = .next t ∧ Becomes s t c c.w { c.fr with status := .parkedWait, wake := .mesh d q, lane := false })
      ∧ (c.act = c.fr.mask → NotSolitary s c →
        (∀ r, last = some r → r.seqNo = q → r.bad = false → r.gave = true → r.missing ≠ 0#64 →
          ∃ t, exec (.mrwait vd b) s = .next t ∧ FaultsWhole s t c 0x23 r.missing 0 true)
        ∧ (∀ r, last = some r → (r.seqNo = q ∧ (r.bad = true ∨ r.gave = false)) ∨ (128 ≤ ((q : Int) - r.seqNo) % 256) →
          ∃ t, exec (.mrwait vd b) s = .next t ∧ FaultsWhole s t c 0x22 0 0 true)
        ∧ (ahead → (d, q) ∉ (s.core c.u.core).contrib →
          ∃ t, exec (.mrwait vd b) s = .next t ∧ FaultsWhole s t c 0x22 0 0 true)))

/-- (1) R203, R204: an input arrives once at a node that names it; the node forwards, with the last named input or when its timer expires, for each element
the combination of the inputs that have it, west, north, east, south and own in this order, under the operation and type, the first made canonical,
and the members of all inputs; the root's result reaches a member core with the identity of R135 for absent elements and the mask of missing members.
What arrives at a node of a retired core is not kept, and only a root there forwards when its timer expires (log entry 67).

(2) R363: a write of VALID = 1 makes a descriptor valid exactly if it is sound: TIMEOUT at least 64, one root, no reserved PARENT, no core twice, outside the
mesh or retired, every child direction leading to a node that points back, every node reached from the root. VALID = 0 ends its sequences.

(3) R202: an MRED completes when its router has taken its contribution, and not before.
(The model's choices: log entries 22 and 67.) -/
def Obligations.MeshTreeCombines : Prop :=
  (∀ (s : State) (die n q i : Nat) (x : MSeq) (m : MNode), Map.look (s.desc die n).seqs q = some x →
    i < (s.desc die n).count →
    let after := fun (t : State) (y : MSeq) => y.given = x.given ∧ y.op = x.op ∧ y.ty = x.ty ∧ t.mem = s.mem ∧ t.cores = s.cores ∧ t.units = s.units
    let op := fun a b : Word => match x.ty, x.op with
      | .f32, .add => BitVec.ofNat 32 (f32.add .rn a.toNat b.toNat).1
      | .f32, .min => BitVec.ofNat 32 (f32.min a.toNat b.toNat).1
      | .f32, .max => BitVec.ofNat 32 (f32.max a.toNat b.toNat).1
      | .i32, .min => if b.slt a then b else a
      | .n32, .min => if b.ult a then b else a
      | .i32, .max => if a.slt b then b else a
      | .n32, .max => if a.ult b then b else a
      | _, .add => a + b
    let canon := fun a : Word => if x.ty = .f32 ∧ (f32.val a.toNat).isNan = true then 0x7FC00000#32 else a
    let identity : Word := match x.ty, x.op with
      | .f32, .min => 0x7F800000#32
      | .f32, .max => 0xFF800000#32
      | .i32, .min => 0x7FFFFFFF#32
      | .n32, .min => 0xFFFFFFFF#32
      | .i32, .max => 0x80000000#32
      | _, _ => 0#32
    let retired := NSet.has s.dev.retCores (96 * die + nodeCore ((s.desc die n).node i)) = true
    let folds := fun (ins : Map MPart) (p : MPart) =>
      (∀ j < 64, p.members.getLsbD j = true ↔ ∃ k < 5, ∃ z, Map.look ins k = some z ∧ z.members.getLsbD j = true)
      ∧ ∀ e < 32, Map.look p.vals e =
        match (List.range 5).filterMap fun k => (Map.look ins k).bind fun z => Map.look z.vals e with
        | [] => none
        | y :: ys => some (ys.foldl op (canon y))
    (∀ src p, (s.desc die n).input x i src = some p → Map.look x.nodes i = some m ∨ (Map.look x.nodes i = none ∧ m = ⟨[], s.cycle.toNat, none⟩) →
      m.out = none → Map.has m.ins src = false →
      (retired → ¬ (∀ k ∈ (s.desc die n).named i, Map.has m.ins k = true) →
        ∃ t y, exec (.meshReductionInput die n q i src) s = .next t ∧ Map.look (t.desc die n).seqs q = some y ∧ after t y
          ∧ Map.look y.nodes i = some m)
      ∧ (¬ retired → ∃ t y, exec (.meshReductionInput die n q i src) s = .next t ∧ Map.look (t.desc die n).seqs q = some y ∧ after t y
        ∧ (¬ (∀ k ∈ (s.desc die n).named i, k = src ∨ Map.has m.ins k = true) →
            Map.look y.nodes i = some { m with ins := Map.put m.ins src p })
        ∧ ((∀ k ∈ (s.desc die n).named i, k = src ∨ Map.has m.ins k = true) →
            ∃ r, Map.look y.nodes i = some { m with ins := Map.put m.ins src p, out := some r } ∧ folds (Map.put m.ins src p) r)))
    ∧ (Map.look x.nodes i = some m → m.out = none →
      (m.start + (s.desc die n).timeout ≤ s.cycle.toNat → ¬ retired ∨ i = (s.desc die n).root →
        ∃ t y r, exec (.meshReductionTimeout die n q i) s = .next t ∧ Map.look (t.desc die n).seqs q = some y ∧ after t y
          ∧ Map.look y.nodes i = some { m with out := some r } ∧ folds m.ins r)
      ∧ (s.cycle.toNat < m.start + (s.desc die n).timeout ∨ (retired ∧ i ≠ (s.desc die n).root) → exec (.meshReductionTimeout die n q i) s = .next s))
    ∧ (∀ p core, (Map.look x.nodes (s.desc die n).root).bind (·.out) = some p → ((s.desc die n).member core).isSome = true →
      NSet.has x.reached core = false →
      ∃ t r, exec (.meshReductionResult die n q core) s = .next t ∧ t.mem = s.mem ∧ t.units = s.units
        ∧ Map.look (t.core (96 * die + core)).mesh (64 * die + n) = some r ∧ r.seqNo = q ∧ r.bad = x.bad
        ∧ r.missing = (s.desc die n).members &&& ~~~p.members ∧ (∀ e < 32, Map.lookD r.vals e 0#32 = (Map.look p.vals e).getD identity)
        ∧ (r.gave = true ↔ (n, q) ∈ (s.core (96 * die + core)).contrib)
        ∧ (n, q) ∉ (t.core (96 * die + core)).contrib))
  ∧ ∀ (s : State) (die n : Nat), die < 2 → n < 64 →
    ((s.desc die n).valid = true → ∀ ctl, exec (.mredDescValidate die n ctl) s = .next s)
    ∧ ((s.desc die n).valid = false →
      (∀ ctl : Word, ctl.toNat % 2 ^ 24 < 64 → ∃ t, exec (.mredDescValidate die n ctl) s = .next t
        ∧ (t.desc die n).valid = false ∧ (t.desc die n).err = true ∧ t.mem = s.mem)
      ∧ (∀ core timeout : Nat, 64 ≤ timeout → timeout < 2 ^ 24 → core < 96 → 96 * die + core ∉ s.dev.retCores →
        (s.desc die n).node 0 = 2 ^ 31 + 4 * 2 ^ 24 + core →
        ∃ t, exec (.mredDescValidate die n (BitVec.ofNat 32 timeout)) s = .next t ∧ (t.desc die n).valid = true ∧ (t.desc die n).err = false
          ∧ (t.desc die n).seqs = [] ∧ (t.desc die n).timeout = timeout ∧ t.mem = s.mem)
      ∧ ∀ ctl : Word,
        let last := ctl.toNat / 2 ^ 24 % 64
        let node := (s.desc die n).node
        let next := fun core dir : Nat =>
          if dir = 0 ∧ 0 < core % 12 then some (core - 1) else if dir = 1 ∧ 12 ≤ core then some (core - 12)
          else if dir = 2 ∧ core % 12 < 11 then some (core + 1) else if dir = 3 ∧ core < 84 then some (core + 12) else none
        let leads := fun i j : Nat => j ≤ last ∧ ∃ dir < 4, nodeChild (node i) dir = true ∧ next (nodeCore (node i)) dir = some (nodeCore (node j))
        ∃ t, exec (.mredDescValidate die n ctl) s = .next t ∧ t.mem = s.mem ∧ (t.desc die n).err = !(t.desc die n).valid
          ∧ (t.desc die n).nnodes = last ∧ (t.desc die n).timeout = ctl.toNat % 2 ^ 24 ∧ (t.desc die n).seqs = []
          ∧ ((t.desc die n).valid = true ↔
            64 ≤ ctl.toNat % 2 ^ 24 ∧ (∃! r, r ≤ last ∧ nodeParent (node r) = 4)
            ∧ (∀ i ≤ last, nodeParent (node i) ≤ 4 ∧ nodeCore (node i) < 96 ∧ 96 * die + nodeCore (node i) ∉ s.dev.retCores)
            ∧ (∀ i ≤ last, ∀ j ≤ last, nodeCore (node i) = nodeCore (node j) → i = j)
            ∧ (∀ i ≤ last, ∀ dir < 4, nodeChild (node i) dir = true →
              ∃ j ≤ last, next (nodeCore (node i)) dir = some (nodeCore (node j)) ∧ nodeParent (node j) = (dir + 2) % 4)
            ∧ ∀ r ≤ last, ∀ i ≤ last, nodeParent (node r) = 4 → Relation.ReflTransGen leads r i))
    ∧ ∃ t, exec (.mredDescInvalidate die n) s = .next t ∧ (t.desc die n).valid = false ∧ (t.desc die n).seqs = [] ∧ t.mem = s.mem ∧ t.units = s.units
    ∧ ∀ (u op : Nat) (un : KUnit) (o : Op) (q i : Nat) (x : MSeq) (vals : Map Word), dieOf un.core = die → s.unit? u = some un → un.op? op = some o →
      o.done = false → o.kind = .mred n q → un.drops = [] → s.stalled = false → Map.look (s.desc die n).seqs q = some x →
      (s.desc die n).member (un.core % 96) = some i → Map.look x.given (un.core % 96) = some (vals, u, op) →
      (∀ m, Map.look x.nodes i = some m → m.out.isSome = true ∨ Map.has m.ins 4 = true →
        ∃ t, exec (.memoryOpComplete u op) s = .next t ∧ (t.unit? u).map (·.ops) = some (un.complete op).ops ∧ t.mem = s.mem)
      ∧ (Map.look x.nodes i = none → exec (.memoryOpComplete u op) s = .next s)

/-- (1) R206, R207, R209 to R211: ALIGHT, BCAP and BREAD queue one operation per bead that their active threads name, in the order of lowest thread, each with its
threads in beat order, and the fragment waits at the word; BPASS waits for the next pass of its bead; an operand that is not of Table 6.11
is a bead fault.

(2) R206 to R208, R381: BOARD of one thread whose home is 64 aligned bytes of readable, writable, release-consistent global memory, for a bead that its
context's quota map allows, queues the operation with its key and home line, where its home page takes one more pin (R404); a bead outside the map is a quota fault.
(The model's choices: log entry 19.) -/
def Obligations.CircletWords : Prop :=
  (
    ∀ (s : State) (c : Ctx) (i : Instr) (k : CircKind) (d a : Reg) (hdr word : Bool) (use : List Opn) (x y : Nat → Word),
      circOf c i = some (k, d, a, hdr, word, use, x, y) → Ready s c use [] → c.tendPending = false →
      (c.act = 0#32 → ∃ t, exec i s = .next t ∧ Becomes s t c c.w (c.fr.passed 1))
      ∧ (c.act ≠ 0#32 → c.full (some .rg) = false →
        ((∀ u ∈ threads c.act, beadOperand hdr word (c.rd a u)) →
          ∀ l : List StOp,
            l = (((threads c.act).map fun u => (c.rd a u).toNat % 512).eraseDups.map fun b =>
              { unit := c.f.unit, op := c.u.nextOp, ctx := c.l.ctx, kind := k, bead := b, entry := s.cycle.toNat
                ths := ((threads c.act).filter fun u => (c.rd a u).toNat % 512 = b).map fun u =>
                  ⟨u, (c.rd a u).toNat / 2 ^ 12 % 16, decide ((c.rd a u).toNat / 2 ^ 16 % 2 = 1), x u, y u, 0, (0, 0)⟩ }) →
          (s.core c.u.core).station.length + l.length ≤ 64 →
          ∃ t v, exec i s = .next t ∧ t.mem = s.mem ∧ (t.core c.u.core).station = (s.core c.u.core).station ++ l
            ∧ (t.unit? c.f.unit).map (·.ops) = some (c.u.ops ++ [c.newOp s (some .rg) (.circ c.act) []
                (some { reg := c.base + d.toNat, n := 1, size := 4, sext := false, cap := false }) none])
            ∧ t.warp? c.f.unit c.f.warp = some v ∧ v.regs = c.w.regs
            ∧ t.frag? c.f = some { c.fr with status := .parkedWait, wake := .station c.u.nextOp, lane := false })
        ∧ (c.act = c.fr.mask → NotSolitary s c → (∀ u ∈ threads c.act, ¬ beadOperand hdr word (c.rd a u)) →
          ∀ low, lowest c.act = some low → ∃ t, exec i s = .next t ∧ FaultsWhole s t c 0x24 ((c.rd a low).zeroExtend 64) 0 true))
      ∧ (Ready s c [opV a] [] → c.act ≠ 0#32 → (∀ u ∈ threads c.act, beadOperand false false (c.rd a u)) →
          ∃ t v, exec (.bpass a) s = .next t ∧ t.mem = s.mem ∧ t.warp? c.f.unit c.f.warp = some v ∧ v.regs = c.w.regs
            ∧ t.frag? c.f = some { c.fr with status := .parkedWait, wake := .bead ((c.rd a c.low).toNat % 512), lane := false }))
  ∧ (
    ∀ (s : State) (c : Ctx) (d a : Reg) (b : CapReg) (u : Nat) (p : Leaf) (map : List Byte), Ready s c [opV d, opP a, opC b] [] →
      c.tendPending = false → c.full (some .rg) = false → threads c.act = [u] → HeldTrue s c → beadOperand false false (c.rd a u) →
      (∀ n < 7, c.test s ⟨64, 3, .store, true, true, [0]⟩ ⟨b, .short 0⟩ false u n) →
      c.Grants s ⟨64, 3, .store, true, true, [0]⟩ false (c.cap b u).cursor p → p.rd = true → p.kind = .rc →
      s.dev.circTab ≠ 0 → s.fetch (s.dev.circTab + 64 * c.l.ctx) 64 = some map →
      Map.look s.quota c.l.ctx = none ∨ Map.look s.quota c.l.ctx = some map →
      let bead := (c.rd a u).toNat % 512
      let allowed := (map.getD (bead / 8) 0#8).getLsbD (bead % 8)
      (allowed = true → (s.core c.u.core).station.length < 64 →
        (∀ q ∈ Map.keys s.pages, s.inPage q (64 * (p.pa (c.cap b u).cursor / 64)) = true → s.pins q < 65535) →
        ∃ t v, exec (.board d a b) s = .next t ∧ t.mem = s.mem
          ∧ (t.core c.u.core).station = (s.core c.u.core).station ++
              [{ unit := c.f.unit, op := c.u.nextOp, ctx := c.l.ctx, kind := .board, bead := bead, entry := s.cycle.toNat
                 ths := [⟨u, 0, false, c.w.reg (c.base + a.toNat + 1) u, 0#32, p.pa (c.cap b u).cursor / 64, (p.vbase, p.size)⟩] }]
          ∧ (t.unit? c.f.unit).map (·.ops) = some (c.u.ops ++ [c.newOp s (some .rg) (.circ c.act) []
              (some { reg := c.base + d.toNat, n := 1, size := 4, sext := false, cap := false }) none])
          ∧ t.warp? c.f.unit c.f.warp = some v ∧ v.regs = c.w.regs
          ∧ t.frag? c.f = some { c.fr with status := .parkedWait, wake := .station c.u.nextOp, lane := false })
      ∧ (allowed = false → c.fr.mask = c.act → NotSolitary s c → ∃ t x, exec (.board d a b) s = .next t ∧ t.mem = s.mem
          ∧ t.frag? c.f = some x ∧ x.status = .parkedFault ∧ (x.frec.map fun r => (r.cause, r.addr)) = some (0x26, (c.rd a u).zeroExtend 64)))

/-- R207 to R210, R370, R373 to R376: a bead that passes a station applies the eligible operation queued there for it: a BCAP or BREAD of its context gives the
old word, or the header's key, and stores the new word; BOARD makes a vacant bead carry the home and answers 1 for another that has not lost its header; ALIGHT sends the
payload home and leaves the bead vacant. A bead that nothing waits for changes nothing but its own last pass.
(The model's choices: log entries 19, 20 and 21.) -/
def Obligations.BeadPassApplies : Prop :=
  ∀ (s : State) (b core : Nat), b < 512 → core < 192 → (b % 256 + s.cycle.toNat) % 256 = stationPos (stationOf core) →
    (s.bead b).last ≠ s.cycle.toNat + 1 → (s.bead b).req = none → (s.bead b).clear = false →
    (∀ un wn x, un ∈ Map.vals s.units → wn ∈ Map.vals un.warps → x ∈ Map.vals wn.frags → x.wake ≠ .bead b) →
    ((∀ o ∈ (s.core core).station, o.bead = b → s.cycle.toNat < o.entry + 2) →
      ∃ t, exec (.beadPass b (stationOf core)) s = .next t ∧ t.bead b = { s.bead b with last := s.cycle.toNat + 1 }
        ∧ t.mem = s.mem ∧ t.cores = s.cores ∧ t.units = s.units ∧ ∀ k, k ≠ b → t.bead k = s.bead k)
    ∧ ∀ (o : StOp) (x : CircThread) (un : KUnit) (p : Op) (w : Warp) (dst : Dst),
      ((s.core core).station.filter fun o => o.bead = b && decide (o.entry + 2 ≤ s.cycle.toNat)) = [o] → o.ths = [x] → x.thread < 32 →
      s.unit? o.unit = some un → un.op? o.op = some p → p.kind = .circ (bit x.thread) → p.done = false → p.dst = some dst →
      s.warp? o.unit p.warp = some w → w.live.getLsbD x.thread = true →
      ((s.bead b).st = .aboard → (s.bead b).ctx = o.ctx → o.kind ≠ .board → o.kind ≠ .alight →
        ∃ t v, exec (.beadPass b (stationOf core)) s = .next t ∧ t.mem = s.mem ∧ o ∉ (t.core core).station
          ∧ (t.bead b).st = .aboard
          ∧ (∀ k, Map.lookD (t.bead b).payload k 0#32 =
              if k = x.word then circValue o.kind (Map.lookD (s.bead b).payload k 0#32) x.x x.y else Map.lookD (s.bead b).payload k 0#32)
          ∧ t.warp? o.unit p.warp = some v
          ∧ v.reg dst.reg x.thread = if o.kind = .read ∧ x.hdr = true then (s.bead b).key else Map.lookD (s.bead b).payload x.word 0#32)
      ∧ ((s.bead b).st = .vacant → o.kind = .board →
        ∃ t, exec (.beadPass b (stationOf core)) s = .next t ∧ t.mem = s.mem ∧ t.bead b =
          { payload := [], home := x.home, bstn := stationOf core, ctx := o.ctx, st := .boarding, key := x.x
            req := some (o.unit, o.op, x.thread), reply := none, vpage := x.vpage, clear := false, last := s.cycle.toNat + 1 })
      ∧ ((s.bead b).st = .poisoned → (s.bead b).ctx = 0 → o.kind = .board →
        ∃ t, exec (.beadPass b (stationOf core)) s = .next t ∧ t.mem = s.mem ∧ t.bead b = { s.bead b with last := s.cycle.toNat + 1 })
      ∧ ((s.bead b).st ≠ .vacant → ¬ ((s.bead b).st = .poisoned ∧ (s.bead b).ctx = 0) → o.kind = .board →
        ∃ t v, exec (.beadPass b (stationOf core)) s = .next t ∧ t.mem = s.mem ∧ t.warp? o.unit p.warp = some v ∧ v.reg dst.reg x.thread = 1#32
          ∧ t.bead b = { s.bead b with last := s.cycle.toNat + 1 })
      ∧ ((s.bead b).st = .aboard → (s.bead b).ctx = o.ctx → o.kind = .alight →
        ∃ t, exec (.beadPass b (stationOf core)) s = .next t ∧ t.mem = s.mem ∧ (t.bead b).st = .vacant
          ∧ t.homeWrites = s.homeWrites ++
              [{ bead := b, line := (s.bead b).home, bytes := some (s.bead b).bytes, req := some (o.unit, o.op, x.thread), ofClear := false }])

/-! ### The matrix engine (07 R213 to R228) -/

/-- (1) R213 to R218: MMA and MMAB whose accumulator window is in the allotment, whose rows are clean and whose descriptor is good queue one operation on the
engine, with the A registers copied, on the mx path; a `.fifo` one takes its slab bytes off the stream. A window outside the allotment, a
descriptor with reserved bits, a misaligned or too long B tile, and a FIFO in a kernel without streams fault every active thread.

(2) R213, R215, R221 to R228: the accumulator words queue their operation on the engine with their operands taken at issue, those of Table 7.5 that move rows on
the mx path and the others without a flag; CBLD puts a read of 32 bytes in flight on the ls path. A tile out of range or out of line
faults every active thread, and so does a window outside the allotment.
(The model's choices: log entries 23 and 24.) -/
def Obligations.EngineWordsQueue : Prop :=
  (
    ∀ (s : State) (c : Ctx) (i : Instr) (k : MmaKind) (scr : Bool) (nm1 : BitVec 7) (a b : Reg), mmaOf i = some (k, scr, nm1, a, b) →
      let n := nm1.toNat + 1
      let v := (c.rd b c.low).toNat
      let steps := match k with
        | .k4 => 2 * n
        | .xor => n / 4
        | .and => n / 4
        | _ => n
      let slab := match k with
        | .k4 => 1024
        | .xor => 2048
        | .and => 2048
        | _ => 512
      let inAcc := 32 * (c.fr.fmt.toNat / 256) + 32 ≤ c.l.acc
      Ready s c [opRun a n, opV b] [] →
      (c.act = 0#32 → ∃ t, exec i s = .next t ∧ Becomes s t c c.w (c.fr.passed 1))
      ∧ (c.act ≠ 0#32 → inAcc → (k = .xor ∨ k = .and → n % 4 = 0) → (∀ u ∈ threads c.act, (c.u.row (32 * (c.fr.fmt.toNat / 256) + u)).poison = false) →
        c.full (some .mx) = false → c.tendPending = false → (s.core c.u.core).eng.length < 16 →
        (scr = true → v < 2 ^ 19 ∧ v % 64 = 0 ∧ v + steps * slab ≤ c.l.scratch) → (scr = false → v < 4 ∧ c.l.stream = true) →
        ∃ t un, exec i s = .next t ∧ t.mem = s.mem ∧ t.unit? c.f.unit = some un ∧ un.acc = c.u.acc ∧ un.scratch = c.u.scratch
          ∧ un.ops = c.u.ops ++ [c.newOp s (some .mx) (.engine (.mma k n (if scr then none else some v) (if scr then v else (c.u.stream? v).c)
              ((threads c.act).map fun u => (u, (List.range n).map fun j => c.w.reg (c.base + a.toNat + j) u)) c.w.cbank.toNat 0)
              (c.fr.fmt.toNat / 256)) [] none none]
          ∧ (∀ f, un.stream? f = if scr = false ∧ f = v then { c.u.stream? f with c := (c.u.stream? f).c + steps * slab } else c.u.stream? f)
          ∧ (t.core c.u.core).eng = (s.core c.u.core).eng ++ [(c.f.unit, c.u.nextOp)]
          ∧ (t.warp? c.f.unit c.f.warp).map (·.regs) = some c.w.regs ∧ t.frag? c.f = some (c.fr.passed 1))
      ∧ (c.act = c.fr.mask → c.act ≠ 0#32 → NotSolitary s c →
        (¬ inAcc → ∃ t, exec i s = .next t ∧ FaultsWhole s t c 0x06 0 0 true)
        ∧ (inAcc → (k = .xor ∨ k = .and) → n % 4 ≠ 0 → ∃ t, exec i s = .next t ∧ FaultsWhole s t c 0x01 0 0 true)
        ∧ (inAcc → (k = .xor ∨ k = .and → n % 4 = 0) →
          ∀ cause, (scr = true ∧ 2 ^ 19 ≤ v ∧ cause = 0x28) ∨ (scr = true ∧ v < 2 ^ 19 ∧ v % 64 ≠ 0 ∧ cause = 0x14)
              ∨ (scr = true ∧ v < 2 ^ 19 ∧ v % 64 = 0 ∧ c.l.scratch < v + steps * slab ∧ cause = 0x13)
              ∨ (scr = false ∧ 4 ≤ v ∧ cause = 0x28) ∨ (scr = false ∧ v < 4 ∧ c.l.stream = false ∧ cause = 0x29) →
            ∃ t, exec i s = .next t ∧ FaultsWhole s t c cause ((c.rd b c.low).zeroExtend 64) 0 true)))
  ∧ (
    (∀ (s : State) (c : Ctx) (i : Instr) (x : AccWord), accOf c i = some x → Ready s c x.use [] →
      let inAcc := 32 * (c.fr.fmt.toNat / 256) + 32 ≤ c.l.acc
      let kind : OpKind := .engine x.kind (c.fr.fmt.toNat / 256)
      let after := if x.ll then c.fr.passed 1 else c.fr.nextWord 1
      (c.act = 0#32 → ∃ t, exec i s = .next t ∧ Becomes s t c c.w after)
      ∧ (c.act ≠ 0#32 → inAcc → (x.ll = true → c.full (some .mx) = false) → c.tendPending = false → (s.core c.u.core).eng.length < 16 →
        (x.reads = true → ∀ u ∈ threads c.act, (c.u.row (32 * (c.fr.fmt.toNat / 256) + u)).poison = false) →
        (∀ a rb, x.tile = some (a, rb) → (c.rd a c.low).toNat < 2 ^ 19 ∧ (c.rd a c.low).toNat % 64 = 0
          ∧ ∀ u ∈ threads c.act, (c.rd a c.low).toNat + (u + 1) * rb ≤ c.l.scratch) →
        ∃ t un, exec i s = .next t ∧ t.mem = s.mem ∧ t.unit? c.f.unit = some un ∧ un.acc = c.u.acc ∧ un.scratch = c.u.scratch
          ∧ un.ops = c.u.ops ++
              [if x.ll then c.newOp s (some .mx) kind [] none none
               else { c.newOp s none kind [] (x.dst.map fun d => ⟨c.base + d.toNat, 1, 4, false, false⟩) none with flag := none }]
          ∧ (t.core c.u.core).eng = (s.core c.u.core).eng ++ [(c.f.unit, c.u.nextOp)]
          ∧ (t.warp? c.f.unit c.f.warp).map (·.regs) = some c.w.regs ∧ t.frag? c.f = some after)
      ∧ (c.act = c.fr.mask → c.act ≠ 0#32 → NotSolitary s c →
        (¬ inAcc → ∃ t, exec i s = .next t ∧ FaultsWhole s t c 0x06 0 0 true)
        ∧ (∀ a rb, x.tile = some (a, rb) → inAcc →
          (2 ^ 19 ≤ (c.rd a c.low).toNat ∨ (∃ u ∈ threads c.act, c.l.scratch < (c.rd a c.low).toNat + (u + 1) * rb) →
            ∃ t, exec i s = .next t ∧ FaultsWhole s t c 0x13 ((c.rd a c.low).zeroExtend 64) 0 true)
          ∧ ((c.rd a c.low).toNat < 2 ^ 19 → (∀ u ∈ threads c.act, (c.rd a c.low).toNat + (u + 1) * rb ≤ c.l.scratch) →
            (c.rd a c.low).toNat % 64 ≠ 0 → ∃ t, exec i s = .next t ∧ FaultsWhole s t c 0x14 ((c.rd a c.low).zeroExtend 64) 0 true))))
    ∧ ∀ (s : State) (c : Ctx) (k : BitVec 2) (a : CapReg), Ready s c [opC a] [] →
      (c.act = 0#32 → ∃ t, exec (.cbld k a) s = .next t ∧ Becomes s t c c.w (c.fr.passed 1))
      ∧ ∀ (low : Nat) (l : List ByteLoc) (w : Want), lowest c.act = some low → w = ⟨32, 1, .load, true, false, [0, 1]⟩ → c.full (some .ls) = false →
        c.tendPending = false → HeldTrue s c →
        (∀ o ∈ c.u.ops, o.done = true ∨ ∀ n f st aa step win, o.kind ≠ .engine (.mma .k4 n f st aa k.toNat step) win) →
        (∀ n < 7, c.test s w ⟨a, .short 0⟩ false low n) → c.Lies s w ⟨a, .short 0⟩ false low l →
        ∃ t, exec (.cbld k a) s = .next t ∧ Issued s t c 1
          (c.newOp s (some .ls) (.cbld k.toNat) [⟨low, (c.cap a low).cursor, 0, l, .load, 0#128, false, 0#64, false, false, false⟩] none none) c.w)

/-- R88, R218, Tables 3.5, 7.2, 7.3: a K step of an integer matrix operation on a scratchpad tile adds to each column of each row of its threads the
products, or the counts of bits, of one slab, wrapping mod 2³², and counts in OVF, up to 255, each sum that the element cannot hold; every other row stays; after the last step the operation is complete. -/
def Obligations.IntegerMatrixStep : Prop :=
  ∀ (s : State) (core u : Nat) (un : KUnit) (o : Op) (k : MmaKind) (n start cb step win : Nat) (a : Map (List Word)), s.unit? u = some un →
    (s.core core).eng.find? (fun p => p.1 = u) = some (u, o.id) → un.op? o.id = some o → o.kind = .engine (.mma k n none start a cb step) win →
    un.liveOf o.warp o.mask ≠ 0#32 → (Map.look s.launches un.launch).map (·.st) ≠ some .draining → k = .i8 ∨ k = .xor ∨ k = .and →
    let slab := if k = .i8 then 512 else 2048
    let from0 := start + step * slab
    un.spoisoned from0 slab = false →
    let aw := fun x j => (Map.lookD a x []).getD j 0#32
    let bw := fun off => BitVec.ofNat 32 (leNat (un.sbytes (from0 + off) 4))
    let sum : Nat → Nat → Int := fun x j => ((List.range 4).map fun m => match k with
      | .i8 => ((aw x step).extractLsb' (8 * m) 8).toInt * (un.sbyte (from0 + 4 * j + m)).toInt
      | .xor => (popCount (aw x (4 * step + m) ^^^ bw (16 * j + 4 * m)) : Int)
      | _ => (popCount (aw x (4 * step + m) &&& bw (16 * j + 4 * m)) : Int)).sum
    ∃ t vn, exec (.matrixKStep core u) s = .next t ∧ t.unit? u = some vn ∧ t.mem = s.mem ∧ vn.warps = un.warps ∧ vn.scratch = un.scratch
      ∧ (∀ x j, o.mask.getLsbD x = true → x < 32 → j < 128 →
          Map.lookD (vn.row (32 * win + x)).data j 0#32 = BitVec.ofInt 32 ((Map.lookD (un.row (32 * win + x)).data j 0#32).toInt + sum x j))
      ∧ (∀ x, o.mask.getLsbD x = true → x < 32 →
          let old := un.row (32 * win + x)
          let wide := (List.range 128).countP fun j =>
            let v := (Map.lookD old.data j 0#32).toInt + sum x j
            decide (v < -2147483648) || decide (2147483647 < v)
          vn.row (32 * win + x) = { old with
            data := (vn.row (32 * win + x)).data
            mxexc := old.mxexc.extractLsb' 16 8 ++ BitVec.ofNat 8 (min 255 ((old.mxexc.extractLsb' 8 8).toNat + wide))
              ++ old.mxexc.extractLsb' 0 8 })
      ∧ (∀ r, (∀ x < 32, o.mask.getLsbD x = true → r ≠ 32 * win + x) → vn.row r = un.row r)
      ∧ (step + 1 < (if k = .i8 then n else n / 4) → (t.core core).eng = (s.core core).eng
          ∧ vn.ops = un.ops.map fun y => if y.id = o.id then { y with kind := .engine (.mma k n none start a cb (step + 1)) win } else y)
      ∧ ((if k = .i8 then n else n / 4) ≤ step + 1 → (t.core core).eng = (s.core core).eng.filter (fun p => p ≠ (u, o.id))
          ∧ ∀ y ∈ vn.ops, y.id = o.id → y.done = true)

/-- (1) R221 to R227: ACCZ clears the elements of the rows of its threads, and everything in its .all form; ACCLD fills rows from the scratchpad, unchanged
or widened; ACCST moves them there, unchanged, narrowed or quantised by each thread's scale, and counts what it flushes, what overflows and, when it
quantises, NaNs; ACCSV stores row images and ACCRS takes them; ACCMX gives the largest element, or a NaN, and counts; ACCEXS exponentiates elements in
place and gives the sum of the fixed tree; ACCMSK puts negative infinity where the mask plane is 0; MASKG, once its planes are ready, sets them. None
writes a registered barrier word (R192; log entry 60). The operation is then complete and off the queue.

(2) R77, R86, R87, R89, Table 3.5: a K step of a floating-point matrix operation on a scratchpad tile adds to each column of each row of its threads the sum
of its exact products, rounded by Round24 pair by pair, and rounds and flushes what it writes; it counts flushed inputs and results, overflows and
invalid operations, those of A once for the row. Round24 gives the nearest number of 24 bits.
(The model's choices: log entries 23 and 60.) -/
def Obligations.AccumulatorOperations : Prop :=
  (∀ (s : State) (core u : Nat) (un : KUnit) (o : Op) (k : EngKind) (win : Nat), s.unit? u = some un →
    (s.core core).eng.find? (fun p => p.1 = u) = some (u, o.id) → un.op? o.id = some o → o.kind = .engine k win →
    let mine := fun r => ∃ x < 32, o.mask.getLsbD x = true ∧ r = 32 * win + x
    let col := fun (un : KUnit) r j => Map.lookD (un.row r).data j 0#32
    let put := fun (vn : KUnit) a n v => leNat (vn.sbytes a n) = if Map.has un.bars (a / 16 * 16) = true then leNat (un.sbytes a n) else v
    let aligned := fun off => off % 16 = 0 ∧ ∀ b ∈ Map.keys un.bars, b % 16 = 0
    let ends := fun (t : State) (vn : KUnit) => exec (.engineQueueOp core u) s = .next t ∧ t.unit? u = some vn ∧ t.mem = s.mem
      ∧ (t.core core).eng = (s.core core).eng.filter (fun p => p ≠ (u, o.id)) ∧ ∀ y ∈ vn.ops, y.id = o.id → y.done = true
    let done := fun (t : State) (vn : KUnit) => ends t vn ∧ vn.warps = un.warps
    let gives := fun (t : State) (reg : Nat) (v : Nat → Word) => ∀ w, s.warp? u o.warp = some w → ∃ w2, t.warp? u o.warp = some w2
      ∧ w2 = { w with regs := w2.regs, rtags := w2.rtags, qtags := w2.qtags }
      ∧ ∀ r x, x < 32 → w2.reg r x = if r = reg ∧ (o.mask &&& w.live).getLsbD x = true then v x else w.reg r x
    let half := fun f : AccFmt => if f = .bf16 then bf16 else f16
    let count := fun p : Nat → Bool => (List.range 128).countP p
    (∀ all, k = .accz all → ∃ t vn, done t vn ∧ vn.scratch = un.scratch ∧ (∀ r, ¬ mine r → vn.row r = un.row r)
      ∧ ∀ r, mine r → (∀ j, col vn r j = 0#32) ∧ (vn.row r).poison = false
          ∧ (all = true → (vn.row r).plane = BitVec.allOnes 128 ∧ (vn.row r).mxexc = 0#24)
          ∧ (all = false → (vn.row r).plane = (un.row r).plane ∧ (vn.row r).mxexc = (un.row r).mxexc))
    ∧ (∀ off, k = .accld .f32 off → (∀ x ∈ threads o.mask, un.spoisoned (off + 512 * x) 512 = false) →
      ∃ t vn, done t vn ∧ vn.scratch = un.scratch ∧ (∀ r, ¬ mine r → vn.row r = un.row r)
        ∧ ∀ x < 32, o.mask.getLsbD x = true → (vn.row (32 * win + x)).plane = (un.row (32 * win + x)).plane
          ∧ ∀ j < 128, col vn (32 * win + x) j = BitVec.ofNat 32 (leNat (un.sbytes (off + 512 * x + 4 * j) 4)))
    ∧ (∀ off sc, k = .accst .f32 off sc → un.frozen = false → aligned off →
      ∃ t vn, done t vn ∧ (∀ x < 32, o.mask.getLsbD x = true → ∀ j < 128, put vn (off + 512 * x + 4 * j) 4 (col un (32 * win + x) j).toNat)
        ∧ (∀ b, (∀ x < 32, o.mask.getLsbD x = true → b < off + 512 * x ∨ off + 512 * x + 512 ≤ b) → vn.sbyte b = un.sbyte b)
        ∧ ∀ r j, col vn r j = col un r j)
    ∧ (∀ f off, k = .accld f off → f = .bf16 ∨ f = .f16 → (∀ x ∈ threads o.mask, un.spoisoned (off + 256 * x) 256 = false) →
      ∃ t vn, done t vn ∧ vn.scratch = un.scratch ∧ (∀ r, ¬ mine r → vn.row r = un.row r)
        ∧ ∀ x < 32, o.mask.getLsbD x = true → (vn.row (32 * win + x)) = { un.row (32 * win + x) with data := (vn.row (32 * win + x)).data, poison := false }
          ∧ ∀ j < 128, col vn (32 * win + x) j = BitVec.ofNat 32 (fcvt (half f) f32 .rn (leNat (un.sbytes (off + 256 * x + 2 * j) 2))).1)
    ∧ (∀ f off sc, k = .accst f off sc → f = .bf16 ∨ f = .f16 → un.frozen = false → aligned off →
      let conv := fun x j => fcvt f32 (half f) .rn (col un (32 * win + x) j).toNat
      ∃ t vn, done t vn
        ∧ (∀ x < 32, o.mask.getLsbD x = true → (∀ j < 128, put vn (off + 256 * x + 2 * j) 2 ((half f).flush (conv x j).1))
          ∧ vn.row (32 * win + x) = { un.row (32 * win + x) with
              mxexc := mxAfter (un.row (32 * win + x)).mxexc (count fun j => (half f).subnormal (conv x j).1)
                (count fun j => (conv x j).2.getLsbD 2) 0 })
        ∧ (∀ b, (∀ x < 32, o.mask.getLsbD x = true → b < off + 256 * x ∨ off + 256 * x + 256 ≤ b) → vn.sbyte b = un.sbyte b)
        ∧ ∀ r, ¬ mine r → vn.row r = un.row r)
    ∧ (∀ off sc, k = .accst .i8 off sc → un.frozen = false → aligned off →
      let e := fun x j => (col un (32 * win + x) j).toNat
      let by' := fun x => (Map.lookD sc x 0#32).toNat
      let y := fun x j => (f32.mul .rn (e x j) (by' x)).1
      let nan := fun x j => (f32.val (e x j)).isNan || (f32.val (by' x)).isNan
      ∃ (t : State) (vn : KUnit) (q : Nat → Nat → ℤ), done t vn
        ∧ (∀ x < 32, o.mask.getLsbD x = true → (∀ j < 128, put vn (off + 128 * x + j) 1 (BitVec.ofInt 8 (q x j)).toNat
            ∧ (nan x j = true → q x j = 0) ∧ (nan x j = false → f32.val (y x j) = .inf false → q x j = 127)
            ∧ (nan x j = false → f32.val (y x j) = .inf true → q x j = -128)
            ∧ (nan x j = false → f32.Finite (y x j) → ∃ n, IntegerFor .rn (f32.rat (y x j)) n ∧ q x j = max (-128) (min 127 n)))
          ∧ ∃ wide : Nat → Bool, (∀ j, wide j = true ↔ nan x j = false ∧ ((f32.val (y x j)).isInf = true
              ∨ (f32.Finite (y x j) ∧ ∃ n, IntegerFor .rn (f32.rat (y x j)) n ∧ (n < -128 ∨ 127 < n))))
            ∧ vn.row (32 * win + x) = { un.row (32 * win + x) with
                mxexc := mxAfter (un.row (32 * win + x)).mxexc 0 (count wide) (count (nan x)) })
        ∧ (∀ b, (∀ x < 32, o.mask.getLsbD x = true → b < off + 128 * x ∨ off + 128 * x + 128 ≤ b) → vn.sbyte b = un.sbyte b)
        ∧ ∀ r, ¬ mine r → vn.row r = un.row r)
    ∧ (∀ off, k = .accrs off → (∀ x ∈ threads o.mask, un.spoisoned (off + 576 * x) 532 = false) →
      ∃ t vn, done t vn ∧ vn.scratch = un.scratch ∧ (∀ r, ¬ mine r → vn.row r = un.row r)
        ∧ ∀ x < 32, o.mask.getLsbD x = true → (vn.row (32 * win + x)).poison = false
          ∧ (vn.row (32 * win + x)).plane = BitVec.ofNat 128 (leNat (un.sbytes (off + 576 * x + 512) 16))
          ∧ (vn.row (32 * win + x)).mxexc = BitVec.ofNat 24 (leNat (un.sbytes (off + 576 * x + 528) 4))
          ∧ ∀ j < 128, col vn (32 * win + x) j = BitVec.ofNat 32 (leNat (un.sbytes (off + 576 * x + 4 * j) 4)))
    ∧ (∀ n acc d, k = .accmx n acc → 1 ≤ n → n ≤ 128 → o.dst = some d →
      let old := fun x => acc.bind fun m => Map.look m x
      let takes := fun x => (List.range n).map (fun j => (col un (32 * win + x) j).toNat) ++ ((old x).map (·.toNat)).toList
      let nan := fun x => (takes x).any fun e => (f32.val e).isNan
      ∃ (t : State) (vn : KUnit) (v : Nat → Word), ends t vn ∧ gives t d.reg v ∧ vn.scratch = un.scratch ∧ (∀ r, ¬ mine r → vn.row r = un.row r)
        ∧ ∀ x < 32, o.mask.getLsbD x = true →
          vn.row (32 * win + x) = { un.row (32 * win + x) with
            mxexc := mxAfter (un.row (32 * win + x)).mxexc ((takes x).countP f32.subnormal) 0 (if nan x then 1 else 0) }
          ∧ (nan x = true → v x = 0x7FC00000#32)
          ∧ (nan x = false → (∃ e ∈ takes x, (v x).toNat = f32.flush e)
            ∧ ∀ e ∈ takes x, fltTotal (f32.val (v x).toNat) (f32.val (f32.flush e)) = false))
    ∧ (∀ n mx d, k = .accexs n mx → n ≤ 128 → o.dst = some d →
      let e := fun x j => (col un (32 * win + x) j).toNat
      let m := fun x => (Map.lookD mx x 0#32).toNat
      let nan := fun x j => decide (j < n) && f32.val (e x j) ≠ .inf true && ((f32.val (e x j)).isNan || (f32.val (m x)).isNan)
      let plain := fun x j => decide (j < n) && f32.val (e x j) ≠ .inf true && !(nan x j)
      let z := fun x j => (f32.add .rn (e x j) (m x ^^^ 0x80000000)).1
      let y := fun x j => if nan x j then 0x7FC00000 else if plain x j then f32.flush (fex2 .rn (z x j)).1 else 0
      let sum := fun x => f32.round .rn (treeSum (fun j => f32.val (y x j)) 7 0)
      ∃ t vn, ends t vn ∧ gives t d.reg (fun x => BitVec.ofNat 32 (f32.flush (sum x).1)) ∧ vn.scratch = un.scratch
        ∧ (∀ r, ¬ mine r → vn.row r = un.row r)
        ∧ ∀ x < 32, o.mask.getLsbD x = true → (∀ j < n, col vn (32 * win + x) j = BitVec.ofNat 32 (y x j))
          ∧ (∀ j, n ≤ j → col vn (32 * win + x) j = col un (32 * win + x) j)
          ∧ vn.row (32 * win + x) = { un.row (32 * win + x) with
              data := (vn.row (32 * win + x)).data
              mxexc := mxAfter (un.row (32 * win + x)).mxexc
                ((count fun j => plain x j && f32.subnormal (fex2 .rn (z x j)).1) + if f32.subnormal (sum x).1 then 1 else 0)
                ((count fun j => plain x j && decide ((fex2 .rn (z x j)).1 = 0x7F800000) && !(f32.val (z x j)).isInf && !(f32.val (z x j)).isNan)
                  + if (sum x).2.getLsbD 2 then 1 else 0)
                (count (nan x)) })
    ∧ (∀ off, k = .accsv off → un.frozen = false → aligned off →
      ∃ t vn, done t vn ∧ vn.acc = un.acc
        ∧ (∀ x < 32, o.mask.getLsbD x = true → (∀ j < 128, put vn (off + 576 * x + 4 * j) 4 (col un (32 * win + x) j).toNat)
            ∧ put vn (off + 576 * x + 512) 16 (un.row (32 * win + x)).plane.toNat
            ∧ put vn (off + 576 * x + 528) 4 (un.row (32 * win + x)).mxexc.toNat)
        ∧ ∀ b, (∀ x < 32, o.mask.getLsbD x = true → b < off + 576 * x ∨ off + 576 * x + 576 ≤ b) → vn.sbyte b = un.sbyte b)
    ∧ (k = .accmsk → ∃ t vn, done t vn ∧ vn.scratch = un.scratch ∧ (∀ r, ¬ mine r → vn.row r = un.row r)
      ∧ ∀ r j, mine r → j < 128 → col vn r j = if (un.row r).plane.getLsbD j then col un r j else 0xFF800000#32)
    ∧ (∀ planes, k = .maskg true planes → ∃ t vn, done t vn ∧ vn.scratch = un.scratch ∧ (∀ r, ¬ mine r → vn.row r = un.row r)
      ∧ ∀ x < 32, o.mask.getLsbD x = true → vn.row (32 * win + x) =
          match Map.look planes x with
          | some p => { un.row (32 * win + x) with plane := p }
          | none => un.row (32 * win + x)))
  ∧ (∀ (s : State) (core u : Nat) (un : KUnit) (o : Op) (k : MmaKind) (n start cb step win : Nat) (a : Map (List Word)), s.unit? u = some un →
    (s.core core).eng.find? (fun p => p.1 = u) = some (u, o.id) → un.op? o.id = some o → o.kind = .engine (.mma k n none start a cb step) win →
    un.liveOf o.warp o.mask ≠ 0#32 → (Map.look s.launches un.launch).map (·.st) ≠ some .draining →
    k = .bf16 ∨ k = .f16 ∨ k = .f32 ∨ k = .k4 → (∀ p ∈ un.ops.takeWhile fun p => p.id ≠ o.id, p.done = true ∨ p.kind ≠ .cbld cb) →
    let g := if k = .f16 then f16 else if k = .f32 then f32 else bf16
    let wide := if k = .f32 then 1 else if k = .k4 then 4 else 2
    let slab := if k = .k4 then 1024 else 512
    let from0 := start + step * slab
    un.spoisoned from0 slab = false →
    let word := fun x i => ((Map.lookD a x []).getD i 0#32).toNat
    let entry := fun x m => (Map.lookD un.cbs cb 0#256).toNat / 2 ^ (16 * (word x (step / 2) / 2 ^ (16 * (step % 2) + 4 * m) % 16)) % 2 ^ 16
    let ain := fun x m => if k = .k4 then entry x m else if k = .f32 then word x step else word x step / 2 ^ (16 * m) % 2 ^ 16
    let bin := fun j m => if k = .f32 then leNat (un.sbytes (from0 + 4 * j) 4) else leNat (un.sbytes (from0 + 2 * (wide * j + m)) 2)
    let prod := fun x j m => fmul (g.enters (ain x m)) (g.enters (bin j m))
    let plus := fun v w : FVal => fadd .rn v w
    let acc := fun x j => (Map.lookD (un.row (32 * win + x)).data j 0#32).toNat
    let lo := fun x j => plus (prod x j 0).1 (prod x j 1).1
    let hi := fun x j => plus (prod x j 2).1 (prod x j 3).1
    let both := fun x j => plus (round24 (lo x j).1) (round24 (hi x j).1)
    let s0 := fun x j => if k = .f32 then (prod x j 0).1 else if k = .k4 then round24 (both x j).1 else round24 (lo x j).1
    let last := fun x j => plus (f32.enters (acc x j)) (s0 x j)
    let res := fun x j => f32.round .rn (last x j).1
    let nb := fun b : Bool => if b then 1 else 0
    let tally := fun f : Nat → Nat => ((List.range wide).map f).sum
    let cols := fun f : Nat → Nat => ((List.range 128).map f).sum
    ∃ t vn, exec (.matrixKStep core u) s = .next t ∧ t.unit? u = some vn ∧ t.mem = s.mem ∧ vn.warps = un.warps ∧ vn.scratch = un.scratch
      ∧ (∀ r, (∀ x < 32, o.mask.getLsbD x = true → r ≠ 32 * win + x) → vn.row r = un.row r)
      ∧ (∀ x < 32, o.mask.getLsbD x = true →
        (∀ j < 128, Map.lookD (vn.row (32 * win + x)).data j 0#32 = BitVec.ofNat 32 (f32.flush (res x j).1))
        ∧ vn.row (32 * win + x) = { un.row (32 * win + x) with
            data := (vn.row (32 * win + x)).data
            mxexc := mxAfter (un.row (32 * win + x)).mxexc
              (tally (fun m => nb (g.subnormal (ain x m)))
                + cols fun j => tally (fun m => nb (g.subnormal (bin j m))) + nb (f32.subnormal (acc x j)) + nb (f32.subnormal (res x j).1))
              (cols fun j => nb ((res x j).2.getLsbD 2))
              (tally (fun m => nb (if k = .k4 then (g.val (ain x m)).isNan else (g.val (ain x m)).isSnan))
                + cols fun j => tally (fun m => nb (g.val (bin j m)).isSnan + nb (prod x j m).2) + nb (f32.val (acc x j)).isSnan
                  + (if k = .f32 then 0 else nb (lo x j).2) + (if k = .k4 then nb (hi x j).2 + nb (both x j).2 else 0) + nb (last x j).2) })
      ∧ (step + 1 < (if k = .k4 then 2 * n else n) → (t.core core).eng = (s.core core).eng
          ∧ vn.ops = un.ops.map fun y => if y.id = o.id then { y with kind := .engine (.mma k n none start a cb (step + 1)) win } else y)
      ∧ ((if k = .k4 then 2 * n else n) ≤ step + 1 → (t.core core).eng = (s.core core).eng.filter (fun p => p ≠ (u, o.id))
          ∧ ∀ y ∈ vn.ops, y.id = o.id → y.done = true))
  ∧ ∀ (neg : Bool) (m : Nat) (e : ℤ), ∃ (r : Nat) (q : ℤ), round24 (.fin neg m e) = .fin neg r q ∧ r ≤ 2 ^ 24
      ∧ (m < 2 ^ 24 → r = m ∧ q = e)
      ∧ (2 ^ 24 ≤ m → 2 ^ 23 ≤ r ∧ |(r : ℚ) * 2 ^ q - m * 2 ^ e| * 2 ≤ 2 ^ q ∧ (|(r : ℚ) * 2 ^ q - m * 2 ^ e| * 2 = 2 ^ q → r % 2 = 0))


/-! ### Transfers (07 R229 to R242) -/

/-- (1) R234 to R237: XTILE and XSTRM whose record's capability passes checks 1 to 5 start a transfer on the xe path, XTILE with its chunk bitmap cleared; one
that fails a check faults its active threads with the capability's cursor, and XSTRM without streams is a stream fault. XCHAIN answers 1 for a
running slot, and otherwise 0 with the slot running, or 2 where no channel is to be had. XSTOP completes at once on a slot that is not
running, and else asks it to stop.

(2) R239, R240: XSTAT reads a slot's state and records done, or its resume pointer; CHKT says whether every chunk named by the lowest active thread's pair
is complete; CHKW goes on when it is so and parks at a blocking point when it is not.
(The model's choices: log entries 25 and 26.) -/
def Obligations.TransferWords : Prop :=
  (
    ∀ (s : State) (c : Ctx),
      let job := fun (kind : JobKind) (addr : RecAddr) (co : List Word) =>
        ({ op := c.u.nextOp, kind := kind, addr := addr, co := co, record := none, vals := [], sent := [], start := 0, chunks := [], node := c.w.node
           warp := c.f.warp, fidx := c.f.fidx, mask := c.act, pc := c.fr.pc, waitVa := none, failed := false, pins := [], kept := false } : Job)
      let ovr := fun (r : Reg) (n : Nat) => (List.range n).map fun j => c.w.reg (c.base + r.toNat + j) c.low
      let begun := fun (t : State) (un : KUnit) (kind : OpKind) (js : List Job) => t.mem = s.mem ∧ t.unit? c.f.unit = some un
        ∧ un.ops = c.u.ops ++ [c.newOp s (some .xe) kind [] none none] ∧ un.jobs = c.u.jobs ++ js ∧ un.scratch = c.u.scratch ∧ un.acc = c.u.acc
        ∧ t.frag? c.f = some (c.fr.passed 1)
      (∀ (i : Instr) (a : CapReg) (use : List Opn) (kind : JobKind) (co : List Word),
        ((∃ k : BitVec 4, kind = .tile k.toNat ∧ ((i = .xtile k a ∧ use = [opC a] ∧ co = [])
            ∨ ∃ b, i = .xtileCo k a b ∧ use = [opC a, opRun b 6] ∧ co = ovr b 6))
          ∨ (∃ k : BitVec 2, kind = .stream k.toNat ∧ ((i = .xstrm k a ∧ use = [opC a] ∧ co = [])
            ∨ ∃ b, i = .xstrmCo k a b ∧ use = [opC a, opRun b 5] ∧ co = ovr b 5))) →
        Ready s c use [] →
        (c.act = 0#32 → ∃ t, exec i s = .next t ∧ Becomes s t c c.w (c.fr.passed 1))
        ∧ (c.act ≠ 0#32 → c.full (some .xe) = false → (∀ n < 7, c.test s ⟨128, 1, .load, true, false, [0, 1]⟩ ⟨a, .short 0⟩ false c.low n) →
          (∀ k, kind = .tile k → ∀ j ∈ c.u.jobs, j.kind ≠ .tile k) → (∀ k, kind = .stream k → c.l.stream = true) →
          ∃ t un, exec i s = .next t
            ∧ begun t un .copy [job kind (if (c.cap a c.low).space = 1 then .scratch (c.cap a c.low).cursor else .global (c.cap a c.low).cursor) co]
            ∧ (t.warp? c.f.unit c.f.warp).map (·.regs) = some c.w.regs
            ∧ ∀ k, Map.lookD un.bitmaps k 0#64 = if kind = .tile k then 0#64 else Map.lookD c.u.bitmaps k 0#64)
        ∧ (c.act ≠ 0#32 → c.act = c.fr.mask → NotSolitary s c →
          (∀ n < 7, (∀ m < n, c.test s ⟨128, 1, .load, true, false, [0, 1]⟩ ⟨a, .short 0⟩ false c.low m) →
            ¬ c.test s ⟨128, 1, .load, true, false, [0, 1]⟩ ⟨a, .short 0⟩ false c.low n →
            ∃ t, exec i s = .next t ∧ FaultsWhole s t c (testCause n) (BitVec.ofNat 64 (c.cap a c.low).cursor) 0 true)
          ∧ ((∃ k, kind = .stream k) → (∀ n < 7, c.test s ⟨128, 1, .load, true, false, [0, 1]⟩ ⟨a, .short 0⟩ false c.low n) → c.l.stream = false →
            ∃ t, exec i s = .next t ∧ FaultsWhole s t c 0x29 0 0 true)))
      ∧ (∀ d a b : Reg, Ready s c [opV d, opP a, opV b] [] →
        (c.act = 0#32 → ∃ t, exec (.xchain d a b) s = .next t ∧ Becomes s t c c.w (c.fr.passed 1))
        ∧ (c.act ≠ 0#32 → ∀ slot < 4, (c.rd b c.low).toNat = slot →
          let wrote := fun (t : State) (x : Word) => ∃ v fs, t.warp? c.f.unit c.f.warp = some { v with frags := fs }
            ∧ WarpEffect c.w v (Delta.of c.act fun _ => .ofRegs (c.wr d x))
          ((c.u.chain slot).st = .running → ∃ t, exec (.xchain d a b) s = .next t ∧ wrote t 1#32 ∧ t.mem = s.mem
            ∧ t.frag? c.f = some (c.fr.passed 1) ∧ (t.unit? c.f.unit).map (fun u => (u.ops, u.jobs, u.chains)) = some (c.u.ops, c.u.jobs, c.u.chains))
          ∧ ((c.u.chain slot).st ≠ .running → c.full (some .xe) = false → ∃ t un, exec (.xchain d a b) s = .next t ∧ t.mem = s.mem ∧ t.unit? c.f.unit = some un
            ∧ t.frag? c.f = some (c.fr.passed 1)
            ∧ ((wrote t 2#32 ∧ un.ops = c.u.ops ∧ un.jobs = c.u.jobs ∧ un.chains = c.u.chains)
              ∨ (wrote t 0#32 ∧ begun t un (.chain slot) [job (.chain slot) (.global (c.rdP a c.low).toNat) []]
                ∧ (un.chain slot).st = .running ∧ (un.chain slot).recs = 0#24 ∧ (un.chain slot).ptr = (c.rdP a c.low).toNat
                ∧ ∀ k, k ≠ slot → un.chain k = c.u.chain k)))))
      ∧ (∀ b : Reg, Ready s c [opV b] [] →
        (c.act = 0#32 → ∃ t, exec (.xstop b) s = .next t ∧ Becomes s t c c.w (c.fr.passed 1))
        ∧ (c.act ≠ 0#32 → ∀ slot < 4, (c.rd b c.low).toNat = slot → c.full (some .xe) = false →
          ((c.u.chain slot).st = .running → ∃ t un, exec (.xstop b) s = .next t ∧ begun t un (.xstop slot) []
            ∧ (un.chain slot) = { c.u.chain slot with stopReq := true } ∧ ∀ k, k ≠ slot → un.chain k = c.u.chain k)
          ∧ ((c.u.chain slot).st ≠ .running → (∀ o ∈ c.u.ops, o.id ≠ c.u.nextOp) → ∃ t un, exec (.xstop b) s = .next t ∧ t.mem = s.mem
            ∧ t.unit? c.f.unit = some un ∧ un.chains = c.u.chains ∧ t.frag? c.f = some (c.fr.passed 1)
            ∧ ∀ o ∈ un.ops, o.id = c.u.nextOp → o.done = true))))
  ∧ (
    ∀ (s : State) (c : Ctx),
      (∀ d b : Reg, (Ready s c [opV d, opV b] [] → ∀ x, x = c.u.chain ((c.rd b c.low).toNat % 4) →
          Writes (.xstat false d b) s c 1 (fun _ => .ofRegs (c.wr d (BitVec.ofNat 32 (x.recs.toNat * 2 ^ 8
            + match x.st with | .idle => 0 | .running => 1 | .stopped => 2 | .faulted => 3)))))
        ∧ (Ready s c [opP d, opV b] [] → Writes (.xstat true d b) s c 1 (fun _ => .ofRegs (c.wrP d
            (BitVec.ofNat 64 (c.u.chain ((c.rd b c.low).toNat % 4)).ptr)))))
      ∧ ∀ (a : Reg) (k : BitVec 4), let m := c.rdP a c.low
        let have_ := Map.lookD c.u.bitmaps k.toNat 0#64
        let all := ∀ j < 64, m.getLsbD j = true → have_.getLsbD j = true
        (∀ p : PredReg, Ready s c [opP a] [p] → (all → Writes (.chkt p a k) s c 1 (fun _ => .ofPred p true))
          ∧ (¬ all → Writes (.chkt p a k) s c 1 (fun _ => .ofPred p false)))
        ∧ (Ready s c [opP a] [] → (c.act = 0#32 ∨ all → ∃ t, exec (.chkw a k) s = .next t ∧ Retired s t c 1 c.w)
          ∧ (c.act ≠ 0#32 → ¬ all → NotSolitary s c →
            ∃ t, exec (.chkw a k) s = .next t ∧ Becomes s t c c.w { c.fr with status := .parkedWait, wake := if c.u.parkReq then .park else .chunks k.toNat m, lane := false })))

/-- R229 to R232, R235, R238, R446: the engine reads a tile's record from the scratchpad and keeps it; a chunk of a plain record reads its elements once, puts
each that was not written ahead of it, or the fill value, at its place in the unit's scratchpad and sets the chunk's bit, or writes some elements ahead of that;
a chain at pointer 0 becomes idle, one whose record is complete counts it, clears OWN in memory and goes on to NEXT, and one of an ended warp that was
killed stops at its pointer.
(The model's choices: log entry 25.) -/
def Obligations.TransferEngineSteps : Prop :=
  ∀ (s : State) (u op : Nat) (un : KUnit) (j : Job), s.unit? u = some un → un.job? op = some j → un.stopsNow j.warp j.mask = false →
    j.failed = false → j.waitVa = none → (∀ k, (s.core k).reds = [] ∧ (s.core k).held = []) →
    (∀ k off b l, j.kind = .tile k → j.addr = .scratch off → j.record = none → un.spoisoned off 128 = false → b = un.sbytes off 128 →
      s.launchOf u = some l → (TRec.of b j.co).refusal un u l.scratch false false = none → (TRec.of b j.co).op = 0 →
      ∃ t vn, exec (.transferRecordFetch u op) s = .next t ∧ t = { s with units := t.units } ∧ t.unit? u = some vn
        ∧ vn = { un with jobs := un.jobs.map fun x => if x.op = op then { x with record := some b, vals := [] } else x })
    ∧ (∀ k b r ch (val : Nat → Word), j.kind = .tile k → j.record = some b → r = TRec.of b j.co → r.op = 0 → r.dsp = 0 → r.baren = false →
      r.dst < 2 ^ 19 → (∀ x ∈ un.jobs, x.op = op → x = j) → NSet.has j.chunks ch = false → ch < r.chunks →
      let is := r.chunkElems ch
      (∀ i ∈ is, Map.look j.vals i = some (val i))
        ∨ (j.vals = [] ∧ ∃ s1 sp, s.engPas u un j false (r.addrs r.src is) = (s1, .ok sp)
            ∧ (∀ a ∈ sp, s.lineBusy none a false = false) ∧ is.map val = r.values (sp.map s.byte) is) →
      un.frozen = false → (∀ i ∈ is, un.barrierIn (r.dst + i * r.esize) r.esize = false) →
      let elem := fun (vn : KUnit) i => vn.sbytes (r.dst + i * r.esize) r.esize
      let put := fun (vn : KUnit) (new : Nat → Bool) =>
        (∀ i ∈ is, if new i = true ∧ NSet.has j.sent i = false then leNat (elem vn i) = (val i).toNat % 256 ^ r.esize else elem vn i = elem un i)
        ∧ ∀ b, (∀ i ∈ is, b < r.dst + i * r.esize ∨ r.dst + (i + 1) * r.esize ≤ b) → vn.sbyte b = un.sbyte b
      ∃ t vn, exec (.chunkComplete u op ch) s = .next t ∧ t.mem = s.mem ∧ t.unit? u = some vn ∧ vn.warps = un.warps
        ∧ ((put vn (fun _ => true) ∧ Map.lookD vn.bitmaps k 0#64 = Map.lookD un.bitmaps k 0#64 ||| (1#64 <<< ch)
              ∧ (j.chunks.length + 1 < r.chunks → ∃ vals sent pins, (∀ i ∈ is, Map.look vals i = some (val i) ∧ NSet.has sent i = true)
                ∧ (∀ l ∈ j.pins, l ∈ pins)
                ∧ vn.jobs = un.jobs.map fun x =>
                    if x.op = op then { x with vals := vals, sent := sent, chunks := NSet.add j.chunks ch, pins := pins } else x)
              ∧ (r.chunks ≤ j.chunks.length + 1 → vn.jobs = un.jobs.filter (fun x => x.op ≠ op) ∧ ∀ o ∈ vn.ops, o.id = op → o.done = true))
          ∨ (vn.bitmaps = un.bitmaps ∧ ∃ vals sent pins, put vn (NSet.has sent) ∧ (∀ l ∈ j.pins, l ∈ pins) ∧ (∀ i ∈ is, Map.look vals i = some (val i))
              ∧ (∀ i, NSet.has sent i = true → NSet.has j.sent i = true ∨ i ∈ is)
              ∧ vn.jobs = un.jobs.map fun x => if x.op = op then { x with vals := vals, sent := sent, pins := pins } else x)))
    ∧ (∀ slot va, j.kind = .chain slot → (un.jobs.find? fun x => x.kind = .chain slot) = some j → j.addr = .global va →
      (j.record = none → un.stopsChain j = true → ∃ t vn, exec (.chainRecordStep u slot) s = .next t ∧ t.mem = s.mem ∧ t.unit? u = some vn
        ∧ (vn.chain slot).st = .stopped ∧ (vn.chain slot).ptr = va ∧ (vn.chain slot).recs = (un.chain slot).recs
        ∧ vn.jobs = un.jobs.filter (fun x => x.op ≠ op))
      ∧ (va = 0 → j.record = none → un.stopsChain j = false → ∃ t vn, exec (.chainRecordStep u slot) s = .next t ∧ t.mem = s.mem ∧ t.unit? u = some vn
        ∧ (vn.chain slot).st = .idle ∧ (vn.chain slot).ptr = 0 ∧ (vn.chain slot).recs = (un.chain slot).recs ∧ vn.jobs = un.jobs.filter (fun x => x.op ≠ op))
      ∧ (∀ b s1 pas, j.record = some b → b.length = 128 → (TRec.of b j.co).op = 2 ∨ (TRec.of b j.co).chunks ≤ j.chunks.length →
        s.engPas u un j true (vaSpan va 4) = (s1, .ok pas) → (∀ a ∈ pas, s.lineBusy none a true = false) →
        pas.Nodup → (un.chain slot).stopReq = false → un.stopsChain j = false → s.evicting un = false →
        ∃ t vn, exec (.chainRecordStep u slot) s = .next t ∧ t.unit? u = some vn ∧ (vn.chain slot).recs = (un.chain slot).recs + 1#24
          ∧ (vn.chain slot).ptr = leNat ((b.drop 8).take 8) ∧ (vn.chain slot).st = (un.chain slot).st
          ∧ leNat (pas.map t.byte) = leNat (b.take 4) % 2 ^ 31 ∧ (∀ a, a ∉ pas → t.byte a = s.byte a)
          ∧ vn.jobs = un.jobs.map fun x =>
              if x.op = op then { x with addr := .global (leNat ((b.drop 8).take 8)), record := none, vals := [], sent := [], chunks := [], pins := [] } else x))

/-! ### Token trees, masks and KV pages (07 R243 to R258, 14) -/

/-- R243, R245, R250, R252: a tree or KV word puts an operation in flight on the tr path and sends one command per active thread, in beat order, to the home tree
unit; NTAG sets the warp's %node at once and reports it; NTAG.clr takes the tag away; MASKG also takes a place in the engine queue. A bad operand of
NTAG, NTAG to another node or NTAG.clr while SPEC is 1, a sequence of another context, and a bad key start of MASKG are tree faults.
(The model's choices: log entry 30.) -/
def Obligations.TreeWordsSend : Prop :=
  ∀ (s : State) (c : Ctx),
    let cmd := fun (id u : Nat) (ask : TreeAsk) (a b : Word64) =>
      ({ unit := c.f.unit, warp := c.f.warp, fidx := c.f.fidx, op := id, thread := u, ask := ask, ctx := c.l.ctx, a := a, b := b, node := c.w.node } : TreeCmd)
    (∀ (i : Instr) (use : List Opn) (dst : Option (Reg × Nat)) (ask : TreeAsk) (a b : Nat → Word64), treeOf c i = some (use, dst, ask, a, b) →
      Ready s c use [] →
      (c.act = 0#32 → ∃ t, exec i s = .next t ∧ Becomes s t c c.w (c.fr.passed 1))
      ∧ (c.act ≠ 0#32 → c.full (some .tr) = false → ∃ t, exec i s = .next t ∧ t = { s with units := t.units, cores := t.cores, treeQ := t.treeQ }
        ∧ t.treeQ = s.treeQ ++ (threads c.act).map (fun u => cmd c.u.nextOp u ask (a u) (b u))
        ∧ (t.unit? c.f.unit).map (·.ops) = some (c.u.ops ++ [c.newOp s (some .tr) (.tree c.act) []
            (dst.map fun p => { reg := c.base + p.1.toNat, n := p.2, size := 4 * p.2, sext := false, cap := false }) none])
        ∧ (t.warp? c.f.unit c.f.warp).map (·.regs) = some c.w.regs ∧ t.frag? c.f = some (c.fr.passed 1)))
    ∧ (∀ a : Reg, Ready s c [opP a] [] →
      (c.act = 0#32 → ∃ t, exec (.ntag a) s = .next t ∧ Retired s t c 1 c.w)
      ∧ (c.act ≠ 0#32 → ∀ sq slot : Nat, ∀ pre : Bool, sq < 2 ^ 24 → slot < 1024 → (pre = true → slot = 0) →
        (c.rdP a c.low).toNat = sq + 2 ^ 32 * (slot + if pre then 2 ^ 10 else 0) →
        ∀ tag : Word64, tag = BitVec.ofNat 64 (2 ^ 63 + sq * 2 ^ 32 + if pre then 0 else 2 ^ 10 + slot) →
        (nodeSpec c.w.node = false ∨ c.w.node = tag) → (∀ q, Map.look s.seqs sq = some q → q.ctx = c.l.ctx) →
        ∃ t fs, exec (.ntag a) s = .next t ∧ t.mem = s.mem ∧ t.treeQ = s.treeQ ++ [cmd 0 c.low .tag (c.rdP a c.low) 0#64]
          ∧ t.warp? c.f.unit c.f.warp = some { c.w with node := tag, frags := fs } ∧ Map.look fs c.f.fidx = some (c.fr.nextWord 1))
      ∧ (c.act = c.fr.mask → c.act ≠ 0#32 → NotSolitary s c →
        ((c.rdP a c.low).toNat / 2 ^ 24 % 2 ^ 8 ≠ 0 ∨ 2 ^ 43 ≤ (c.rdP a c.low).toNat →
          ∃ t, exec (.ntag a) s = .next t ∧ FaultsWhole s t c 0x2B 0 0 true)
        ∧ ∀ sq slot : Nat, ∀ pre : Bool, sq < 2 ^ 24 → slot < 1024 → (c.rdP a c.low).toNat = sq + 2 ^ 32 * (slot + if pre then 2 ^ 10 else 0) →
          (pre = true ∧ slot ≠ 0)
            ∨ (nodeSpec c.w.node = true ∧ c.w.node ≠ BitVec.ofNat 64 (2 ^ 63 + sq * 2 ^ 32 + if pre then 0 else 2 ^ 10 + slot))
            ∨ (∃ q, Map.look s.seqs sq = some q ∧ q.ctx ≠ c.l.ctx) →
          ∃ t, exec (.ntag a) s = .next t ∧ FaultsWhole s t c 0x2B 0 0 true))
    ∧ (Ready s c [] [] →
      (c.act = 0#32 → ∃ t, exec .ntagClr s = .next t ∧ Retired s t c 1 c.w)
      ∧ (c.act ≠ 0#32 → nodeSpec c.w.node = false → ∃ t, exec .ntagClr s = .next t ∧ Retired s t c 1 { c.w with node := c.w.node &&& ~~~(1#64 <<< 63) })
      ∧ (c.act = c.fr.mask → c.act ≠ 0#32 → NotSolitary s c → nodeSpec c.w.node = true →
        ∃ t, exec .ntagClr s = .next t ∧ FaultsWhole s t c 0x2B 0 0 true))
    ∧ ∀ (m : Bool) (a b : Reg), Ready s c [opP a, opV b] [] → let k0 := (c.rd b c.low).toNat
      let good := if m then k0 % 128 = 0 ∧ k0 ≤ 896 else k0 < 2 ^ 20
      (c.act = 0#32 → ∃ t, exec (.maskg m a b) s = .next t ∧ Becomes s t c c.w (c.fr.passed 1))
      ∧ (c.act ≠ 0#32 → 32 * (c.fr.fmt.toNat / 256) + 32 ≤ c.l.acc → good → (∀ u ∈ threads c.act, NodeOp.of (c.rdP a u) true ≠ none) →
        c.full (some .tr) = false → (s.core c.u.core).eng.length < 16 →
        ∃ t, exec (.maskg m a b) s = .next t ∧ t.mem = s.mem
          ∧ t.treeQ = s.treeQ ++ (threads c.act).map (fun u => cmd c.u.nextOp u (.mask m) (c.rdP a u) (BitVec.ofNat 64 k0))
          ∧ (t.unit? c.f.unit).map (·.ops) = some (c.u.ops ++ [c.newOp s (some .tr) (.engine (.maskg false []) (c.fr.fmt.toNat / 256)) [] none none])
          ∧ (t.core c.u.core).eng = (s.core c.u.core).eng ++ [(c.f.unit, c.u.nextOp)] ∧ t.frag? c.f = some (c.fr.passed 1))
      ∧ (c.act = c.fr.mask → c.act ≠ 0#32 → NotSolitary s c → 32 * (c.fr.fmt.toNat / 256) + 32 ≤ c.l.acc → ¬ good →
        ∃ t, exec (.maskg m a b) s = .next t ∧ FaultsWhole s t c 0x2B 0 0 true)

/-- R246 to R249, R252, R254, R386, R388: what the home tree unit does with the command first in transit, for a sequence of the command's context that is open,
lies in its die's table and waits for nothing: NQUERY answers position and state; NFORK takes the lowest free slot for a child with its parent's vector and its own bit; NPRUNE
makes a node and its descendants pruning and answers their number; a command on no sequence answers NOSEQ, on a node that is not live DEAD; KVMAP
answers the address of the page of the sequence's own block entry.
(The model's choices: log entries 30 and 31.) -/
def Obligations.TreeCommandsPerform : Prop :=
  ∀ (s : State) (x : TreeCmd) (rest : List TreeCmd) (un : KUnit) (o : Op) (w : Warp) (d : Dst) (sq slot : Nat) (pre : Bool), s.treeQ = x :: rest →
    s.unit? x.unit = some un → un.op? x.op = some o → o.kind = .tree (bit x.thread) → o.dst = some d → d.n ≤ 2 → s.warp? x.unit o.warp = some w →
    x.thread < 32 → w.live.getLsbD x.thread = true → sq < 2 ^ 24 → slot < 1024 → (pre = true → slot = 0) →
    x.a.toNat = sq + 2 ^ 32 * (slot + if pre then 2 ^ 10 else 0) → s.seqWaits sq = false → s.evicted = [] → s.stalled = false → o.fails = [] →
    let answers := fun (t : State) (n : Nat) => exec (.treeCommandArrival 0) s = .next t ∧ t.treeQ = rest ∧ t.mem = s.mem
      ∧ (∀ r < d.n, ∃ v, t.warp? x.unit o.warp = some v ∧ v.reg (d.reg + r) x.thread = BitVec.ofNat 32 (n / 2 ^ (32 * r)))
      ∧ ∀ vn, t.unit? x.unit = some vn → ∀ y ∈ vn.ops, y.id = x.op → y.done = true
    ((Map.look s.seqs sq = none ∨ 2 ^ (s.die (sq % 2)).stabLog2n ≤ sq / 2 ∨ ∃ q, Map.look s.seqs sq = some q ∧ (q.closing = true ∨ q.ctx ≠ x.ctx)) →
      x.ask = .fork ∨ x.ask = .query false ∨ x.ask = .query true ∨ (x.ask = .prune ∧ pre = false) → ∃ t, answers t (3 * 2 ^ 28) ∧ t.seqs = s.seqs)
    ∧ ∀ q : Seq, Map.look s.seqs sq = some q → (s.die (sq % 2)).stabLog2n ≤ 23 → sq / 2 < 2 ^ (s.die (sq % 2)).stabLog2n → q.closing = false →
      q.ctx = x.ctx →
      (x.ask = .query true → ∃ t, answers t q.len ∧ t.seqs = s.seqs)
      ∧ (x.ask = .query false → (pre = true → ∃ t, answers t (2 ^ 26 + q.len) ∧ t.seqs = s.seqs)
        ∧ (pre = false → ∀ y, Map.look q.slots slot = some y → ∃ t, answers t ((if y.pruning then 2 else 1) * 2 ^ 26 + y.pos) ∧ t.seqs = s.seqs)
        ∧ (pre = false → Map.look q.slots slot = none → ∃ t, answers t 0 ∧ t.seqs = s.seqs))
      ∧ (x.ask = .fork → ∀ (par : Option Nat) (pos : Nat) (vec : BitVec 1024),
        (pre = true ∧ par = none ∧ pos = q.len ∧ vec = 0#1024)
          ∨ (pre = false ∧ par = some slot ∧ ∃ y, Map.look q.slots slot = some y ∧ y.pruning = false ∧ pos = y.pos + 1 ∧ vec = y.vec) →
        (∀ n < 1024, Map.look q.slots n = none → (∀ m < n, Map.look q.slots m ≠ none) → pos < 2 ^ 20 →
          ∃ t r, answers t n ∧ Map.look t.seqs sq = some r
            ∧ r = { q with slots := Map.put q.slots n { pruning := false, parent := par, pos := pos, vec := vec ||| (1#1024 <<< n) } }
            ∧ ∀ k, k ≠ sq → Map.look t.seqs k = Map.look s.seqs k)
        ∧ ((∀ n < 1024, Map.look q.slots n ≠ none) → ∃ t, answers t (2 * 2 ^ 28) ∧ t.seqs = s.seqs))
      ∧ (x.ask = .fork ∨ x.ask = .prune ∨ (∃ p, x.ask = .commit p) → pre = false → (∀ y, Map.look q.slots slot = some y → y.pruning = true) →
          ∃ t, answers t (2 ^ 28) ∧ t.seqs = s.seqs)
      ∧ (x.ask = .prune → pre = false → ∀ y, Map.look q.slots slot = some y → y.pruning = false → y.vec.getLsbD slot = true →
        ∃ t r, answers t (q.slots.filter fun p => !p.2.pruning && p.2.vec.getLsbD slot).length ∧ Map.look t.seqs sq = some r
          ∧ (Map.rising q.slots = true → ∀ n z, Map.look q.slots n = some z →
              Map.look r.slots n = some { z with pruning := z.pruning || z.vec.getLsbD slot })
          ∧ r.len = q.len ∧ t.kills.length = s.kills.length + 1)
      ∧ (x.ask = .map false → pre = false → slot < q.nblk → d.n = 2 → ∀ l e kv, x.b.toNat = l → l < q.nlayer → l < 2 ^ 16 → q.hash = false → kvapValid kv = true →
        (∃ a b c, s.ctxEntry x.ctx = .ok ⟨a, b, c, kv⟩) → s.fetch (q.btab + 8 * (slot * q.nlayer + l)) 8 = some (leBytes 8 e) → 2 ^ 63 ≤ e → e < 2 ^ 64 →
        ∃ t, answers t (kvBase kv + 131072 * (e % 2 ^ 32)) ∧ t.seqs = s.seqs)

/-- R248, R388 to R390, R392: NCOMMIT without .prune on a node with live nodes off its path answers BRANCH and changes no sequence; otherwise it waits for
the %node rewrites, after which the committed length has grown by the path, its slots are free, and its bits are gone from every vector; a prune
kill that reaches a core kills the warps tagged with its nodes; a pruned slot whose kills and releases are done is free, unless the vector of
another node still names it, while which it stays.
(The model's choices: log entry 30.) -/
def Obligations.CommitsAndPrunes : Prop :=
  ∀ (s : State) (sq : Nat) (q : Seq), Map.look s.seqs sq = some q → s.evicted = [] → s.stalled = false →
    (∀ (x : TreeCmd) (rest : List TreeCmd) (p : Bool) (slot : Nat) (y : Node), s.treeQ = x :: rest → x.ask = .commit p → slot < 1024 → sq < 2 ^ 24 →
      x.a.toNat = sq + 2 ^ 32 * slot → s.seqWaits sq = false → (s.die (sq % 2)).stabLog2n ≤ 23 → sq / 2 < 2 ^ (s.die (sq % 2)).stabLog2n →
      q.closing = false → q.ctx = x.ctx → Map.look q.slots slot = some y → y.pruning = false →
      (p = true ∨ (∀ z ∈ q.slots, z.2.pruning = true ∨ y.vec.getLsbD z.1 = true ∨ z.2.vec.getLsbD slot = true) →
        ∃ t r, exec (.treeCommandArrival 0) s = .next t ∧ t.treeQ = rest ∧ t.units = s.units ∧ t.mem = s.mem ∧ Map.look t.seqs sq = some r
          ∧ r = { q with commit := some ⟨x.unit, x.op, x.thread, slot⟩ })
      ∧ (p = false → (∃ z ∈ q.slots, z.2.pruning = false ∧ y.vec.getLsbD z.1 = false ∧ z.2.vec.getLsbD slot = false) →
        ∀ un o w d, s.unit? x.unit = some un → un.op? x.op = some o → o.kind = .tree (bit x.thread) → o.fails = [] → o.dst = some d → d.n = 1 →
          s.warp? x.unit o.warp = some w → x.thread < 32 → w.live.getLsbD x.thread = true →
          ∃ t v, exec (.treeCommandArrival 0) s = .next t ∧ t.treeQ = rest ∧ t.mem = s.mem ∧ t.seqs = s.seqs ∧ t.kills = s.kills
            ∧ t.pages = s.pages ∧ t.warp? x.unit o.warp = some v ∧ v.reg d.reg x.thread = BitVec.ofNat 32 (5 * 2 ^ 28)))
    ∧ (∀ (m : Commit) (y : Node), q.commit = some m → Map.look q.slots m.tip = some y → y.pruning = false → Map.rising q.slots = true →
      let path := (q.slots.filter fun p => y.vec.getLsbD p.1).map (·.1)
      (∀ z ∈ q.slots, z.2.pruning = true ∨ y.vec.getLsbD z.1 = true ∨ z.2.vec.getLsbD m.tip = true) →
      ∃ t r, exec (.nodeRewriteAck sq) s = .next t ∧ t.mem = s.mem ∧ Map.look t.seqs sq = some r ∧ r.commit = none ∧ r.len = q.len + path.length
        ∧ (∀ n ∈ path, Map.look r.slots n = none)
        ∧ ∀ n z, n ∉ path → Map.look q.slots n = some z → ∃ z2, Map.look r.slots n = some z2 ∧ z2.pos = z.pos ∧ z2.pruning = z.pruning
            ∧ (∀ j < 1024, z2.vec.getLsbD j = (z.vec.getLsbD j && !(path.contains j)))
            ∧ z2.parent = if z.parent = some m.tip then none else z.parent)
    ∧ (∀ (x : PruneKill) (core u wi : Nat) (un : KUnit) (w : Warp), s.kills = [x] → core ∈ x.cores → s.unit? u = some un → un.core = core → un.bars = [] →
      Map.look un.warps wi = some w → nodeSpec w.node = true → nodeSeq w.node = x.sq → nodeSlot w.node ∈ x.slots →
      ∃ t v, exec (.pruneKillDelivery 0 core) s = .next t ∧ t.mem = s.mem ∧ t.warp? u wi = some v ∧ (∀ i y, Map.look v.frags i = some y → y.status = .dead)
        ∧ ∀ z ∈ t.kills, core ∉ z.cores)
    ∧ (∀ (slot : Nat) (y : Node), Map.look q.slots slot = some y → y.pruning = true → s.kills = [] → s.pages = [] → q.closing = false →
      ((∃ p ∈ q.slots, p.1 ≠ slot ∧ p.2.vec.getLsbD slot = true) → exec (.pruneReleaseDone sq slot) s = .next s)
      ∧ ((∀ p ∈ q.slots, p.1 ≠ slot → p.2.vec.getLsbD slot = false) → ∃ t r, exec (.pruneReleaseDone sq slot) s = .next t ∧ t.mem = s.mem ∧ t.units = s.units ∧ Map.look t.seqs sq = some r ∧ Map.look r.slots slot = none
        ∧ ∀ n, n ≠ slot → Map.look r.slots n = Map.look q.slots n))

/-- R255, R258, R298, R379, R387, R404 to R406: a page copy moves the bytes and answers; it waits while a line of its destination is locked or its page has
more than 65,535 pins, and fails, writing nothing, where a line of it is ring-held; a shoot-down drops the held translations of its pages and answers; a page without
references and pins is freed, and one with references stays; the scrubber poisons a sealed page whose checksum differs; Open makes a sequence of a good
entry, Close of one with nothing to release ends it, and Flatten of one without a parent does nothing; each reports RES.
(The model's choices: log entries 30 and 32.) -/
def Obligations.PagesAndSequences : Prop :=
  ∀ s : State, s.stalled = false →
    let clear := fun (a n : Nat) => ∀ p ∈ s.ringHeld, 64 * p.1 + 64 ≤ a ∨ a + n ≤ 64 * p.1
    (∀ x : PageCopy, s.copies = [x] → s.NoPartials → clear (s.pageAddr x.src) x.bytes → clear (s.pageAddr x.dst) x.bytes →
      x.bytes ≠ 0 → s.pageAddr x.dst % 64 = 0 → s.lineBusy none (s.pageAddr x.dst) true = true →
      exec (.hallmarkCopyComplete 0) s = .next s)
    ∧ (∀ x : PageCopy, s.copies = [x] → 65535 < s.pins x.src → exec (.hallmarkCopyComplete 0) s = .next s)
    ∧ (∀ x : PageCopy, s.copies = [x] → s.pins x.src ≤ 65535 → ¬ (clear (s.pageAddr x.src) x.bytes ∧ clear (s.pageAddr x.dst) x.bytes) → x.bytes ≠ 0 →
      ∃ t, exec (.hallmarkCopyComplete 0) s = .next t ∧ t.copies = [] ∧ t.mem = s.mem
        ∧ ∀ un o w, s.unit? x.unit = some un → un.op? x.op = some o → s.warp? x.unit o.warp = some w →
            ∃ v, t.warp? x.unit o.warp = some v ∧ ∀ r u, v.reg r u = w.reg r u)
    ∧ (∀ x : PageCopy, s.copies = [x] → s.NoPartials → (∀ a, s.lineBusy none a true = false) → s.pins x.src ≤ 65535 →
      clear (s.pageAddr x.src) x.bytes → clear (s.pageAddr x.dst) x.bytes →
      s.pageAddr x.src + 131072 ≤ s.pageAddr x.dst ∨ s.pageAddr x.dst + 131072 ≤ s.pageAddr x.src → x.bytes ≤ 131072 →
      ∃ t, exec (.hallmarkCopyComplete 0) s = .next t ∧ t.copies = []
        ∧ (∀ a, t.byte a = if s.pageAddr x.dst ≤ a ∧ a < s.pageAddr x.dst + x.bytes then s.byte (s.pageAddr x.src + (a - s.pageAddr x.dst)) else s.byte a)
        ∧ ∀ un o w d, s.unit? x.unit = some un → un.op? x.op = some o → o.fails = [] → o.kind = .tree (bit x.thread) → o.dst = some d → d.n = 2 →
            s.warp? x.unit o.warp = some w → x.thread < 32 → w.live.getLsbD x.thread = true →
            ∃ v, t.warp? x.unit o.warp = some v ∧ v.reg d.reg x.thread = x.res.setWidth 32 ∧ v.reg (d.reg + 1) x.thread = (x.res >>> 32).setWidth 32)
    ∧ (∀ x : Shoot, s.shoots = [x] → ∃ t, exec (.kvshootAck 0) s = .next t ∧ t.shoots = [] ∧ t.mem = s.mem
      ∧ ∀ k p, p ∈ x.pages → ∀ e ∈ (t.die k).tlb, e.leaf.kv ≠ some p)
    ∧ (∀ p g, Map.look s.pages p = some g → (g.refs = [] → s.pins p = 0 → exec (.pageFree p) s = .next { s with pages := Map.del s.pages p })
      ∧ (g.refs ≠ [] ∨ s.pins p ≠ 0 → exec (.pageFree p) s = .next s))
    ∧ (∀ die p g, s.pages = [(p, g)] → p / 2147483648 = die → 2 ≤ g.refs.length → (s.die die).hmScrub ≠ 0 → s.NoPartials →
      (∀ a, s.lineBusy none a false = false) →
      (g.crc = crc32c (s.bytes (s.pageAddr p) 131072) → ∃ t, exec (.hallmarkScrubCheck die) s = .next t ∧ t.poison = s.poison ∧ t.mem = s.mem ∧ (t.die die).hmCrcErr = (s.die die).hmCrcErr)
      ∧ (g.crc ≠ crc32c (s.bytes (s.pageAddr p) 131072) → ∃ t, exec (.hallmarkScrubCheck die) s = .next t ∧ t.mem = s.mem
          ∧ (t.die die).hmCrcErr = min ((s.die die).hmCrcErr + 1) 0xFFFFFFFF ∧ (t.die die).hmLast = p
          ∧ ∀ i < 16384, NSet.has t.poison ((s.pageAddr p) / 8 + i) = true))
    ∧ ∀ die sq, (s.die die).treeBusy = false →
      (sq % 2 ≠ die → ∀ i : Instr, i = .treeCmdOpen die sq ∨ i = .treeCmdClose die sq ∨ i = .treeCmdFlatten die sq →
        ∃ t, exec i s = .next t ∧ (t.die die).treeRes = 2 ∧ t.seqs = s.seqs ∧ t.mem = s.mem)
      ∧ (sq % 2 = die →
        (Map.has s.seqs sq = true → ∃ t, exec (.treeCmdOpen die sq) s = .next t ∧ (t.die die).treeRes = 1 ∧ t.seqs = s.seqs)
        ∧ (∀ a e q, s.seqs = [] → s.seqEntryAt sq = some a → s.fetch a 64 = some e → s.seqEntry e = some q → q.par = none → s.NoPartials →
          (∀ b, s.lineBusy none b true = false) →
          ∃ t, exec (.treeCmdOpen die sq) s = .next t ∧ t.seqs = [(sq, q)] ∧ (t.die die).treeRes = 0 ∧ t.mem = s.mem)
        ∧ (∀ q a, s.seqs = [(sq, q)] → q.closing = false → q.slots = [] → q.par ≠ some sq → s.pages = [] → s.seqWaits sq = false → s.seqEntryAt sq = some a →
          (∀ k, (s.core k).reds = [] ∧ (s.core k).held = []) → (∀ b, s.lineBusy none b true = false) → q.len < 2 ^ 32 →
          ∃ t, exec (.treeCmdClose die sq) s = .next t ∧ t.seqs = [] ∧ (t.die die).treeRes = 0 ∧ (t.die die).treeBusy = false
            ∧ leNat (t.bytes (a + 12) 4) = q.len)
        ∧ (Map.look s.seqs sq = none ∨ 2 ^ (s.die die).stabLog2n ≤ sq / 2 → ∀ i : Instr, i = .treeCmdClose die sq ∨ i = .treeCmdFlatten die sq →
          ∃ t, exec i s = .next t ∧ (t.die die).treeRes = 2 ∧ t.seqs = s.seqs ∧ t.mem = s.mem)
        ∧ (∀ q a, Map.look s.seqs sq = some q → s.seqEntryAt sq = some a → q.closing = false → q.par = none → s.seqWaits sq = false →
          ∃ t, exec (.treeCmdFlatten die sq) s = .next t ∧ (t.die die).treeRes = 0 ∧ t.seqs = s.seqs ∧ t.mem = s.mem))

/-! ### Launch words, repair and fault records (07 R259 to R262, 08 R274, R275, 16 R417 to R425) -/

/-- R259 to R262, R329: LNCH puts the 128 bytes at its capability's cursor in flight for its queue, LCANCEL its record's address; what
completes them answers the status and appends the packet at TAIL, or cancels. LJOIN waits while its record's pending count is not zero and then writes the
record's status word. Each answers the first check of R164 that fails, a queue beyond 8191, an address that is no record, and a cursor out
of line with its fault in the active threads. LNCH waits for every earlier access of its threads, and none of its packet's lines is locked.
(The model's choices: log entries 38 and 58.) -/
def Obligations.LaunchWords : Prop :=
  ∀ (s : State) (c : Ctx) (d : Reg) (a : CapReg),
    let at0 := (c.cap a c.low).cursor
    let tests := fun (w : Want) => ∀ n < 7, c.test s w ⟨a, .short 0⟩ false c.low n
    let faulty := fun (i : Instr) (w : Want) =>
      (∀ n < 7, (∀ m < n, c.test s w ⟨a, .short 0⟩ false c.low m) → ¬ c.test s w ⟨a, .short 0⟩ false c.low n →
        ∃ t, exec i s = .next t ∧ FaultsWhole s t c (testCause n) (BitVec.ofNat 64 at0) 0 true)
      ∧ (tests w → at0 % 64 ≠ 0 → ∃ t, exec i s = .next t ∧ FaultsWhole s t c 0x14 (BitVec.ofNat 64 at0) 0 true)
    let dst : Dst := { reg := c.base + d.toNat, n := 1, size := 4, sext := false, cap := false }
    (∀ (b : Reg) (w : Want), Ready s c [opV d, opC a, opV b] [] → w = ⟨128, 9, .load, false, false, [0]⟩ →
      (c.act = 0#32 → ∃ t, exec (.lnch d a b) s = .next t ∧ Becomes s t c c.w (c.fr.passed 1))
      ∧ (c.act = c.fr.mask → c.act ≠ 0#32 → NotSolitary s c →
        (8192 ≤ (c.rd b c.low).toNat → ∃ t, exec (.lnch d a b) s = .next t ∧ FaultsWhole s t c 0x2D 0 0 true)
        ∧ ((c.rd b c.low).toNat < 8192 → faulty (.lnch d a b) w))
      ∧ (c.act ≠ 0#32 → (c.rd b c.low).toNat < 8192 → tests w → at0 % 64 = 0 → c.full none = false →
        c.u.performedBy c.f.warp c.act true = true → HeldTrue s c →
        s.NoPartials → (s.core c.u.core).copies = [] →
        ∀ l, c.Lies s ⟨128, 1, .load, false, false, [0]⟩ ⟨a, .short 0⟩ false c.low l → (∀ pa k x v g, .phys pa k x v g ∈ l →
          s.poisoned pa 1 = false ∧ s.lineBusy (some (c.f.unit, c.f.warp, c.low)) pa false = false) →
        ∃ t un o, exec (.lnch d a b) s = .next t ∧ t.mem = s.mem ∧ t.tags = s.tags ∧ t.queues = s.queues ∧ t.records = s.records
          ∧ t.unit? c.f.unit = some un ∧ un.ops = c.u.ops ++ [o]
          ∧ o = { c.newOp s none (.launch (c.rd b c.low).toNat (l.map fun x => match x with
              | .phys pa _ _ _ _ => s.byte pa
              | _ => 0#8)) [] (some dst) none with ord := o.ord }
          ∧ t.frag? c.f = some (c.fr.passed 1)))
    ∧ (Ready s c [opV d, opC a] [] →
      (∀ w : Want, w = ⟨64, 2, .load, false, false, [0]⟩ →
        (c.act = 0#32 → ∃ t, exec (.lcancel d a) s = .next t ∧ Becomes s t c c.w (c.fr.passed 1))
        ∧ (c.act = c.fr.mask → c.act ≠ 0#32 → NotSolitary s c → faulty (.lcancel d a) w)
        ∧ (c.act ≠ 0#32 → tests w → at0 % 64 = 0 → c.full none = false →
          ∃ t, exec (.lcancel d a) s = .next t ∧ Issued s t c 1 (c.newOp s none (.cancel at0) [] (some dst) none) c.w))
      ∧ (∀ w : Want, w = ⟨64, 1, .load, false, false, [0]⟩ →
        (c.act = 0#32 → ∃ t, exec (.ljoin d a) s = .next t ∧ Retired s t c 1 c.w)
        ∧ (c.act = c.fr.mask → c.act ≠ 0#32 → NotSolitary s c → faulty (.ljoin d a) w
          ∧ (tests w → at0 % 64 = 0 → s.record c.l.ctx at0 = none →
            ∃ t, exec (.ljoin d a) s = .next t ∧ FaultsWhole s t c 0x2D (BitVec.ofNat 64 at0) 0 true))
        ∧ (c.act ≠ 0#32 → tests w → at0 % 64 = 0 → ∀ r, s.record c.l.ctx at0 = some r →
          (r.pending ≠ 0 → NotSolitary s c →
            ∃ t, exec (.ljoin d a) s = .next t ∧ Becomes s t c c.w { c.fr with status := .parkedWait, wake := if c.u.parkReq then .park else .ljoin c.l.ctx at0, lane := false })
          ∧ (r.pending = 0 → ∃ t v fs, exec (.ljoin d a) s = .next t ∧ t = { s with units := t.units, cores := t.cores }
            ∧ WarpEffect c.w v (Delta.of c.act fun _ => .ofRegs (c.wr d (BitVec.ofNat 32
                (r.opened.toNat + 2 * r.done.toNat + 4 * r.creq.toNat + 16 * r.level + 256 * r.result))))
            ∧ t.warp? c.f.unit c.f.warp = some { v with frags := fs } ∧ Map.look fs c.f.fidx = some (c.fr.nextWord 1)
            ∧ ∀ p ∈ (t.core c.u.core).copies, Map.look s.regOwner p.1 = some c.u.core ∨ p.2.uPage = true))))
    ∧ ∀ (u op : Nat) (un : KUnit) (o : Op) (w : Warp) (x : Dst), s.unit? u = some un → un.op? op = some o → o.done = false → o.dst = some x →
      s.warp? u o.warp = some w → s.stalled = false →
      let gives := fun (t : State) (v : Word) => exec (.memoryOpComplete u op) s = .next t
        ∧ (∃ wn, t.warp? u o.warp = some wn ∧ ∀ k < 32, o.mask.getLsbD k = true → w.live.getLsbD k = true → wn.reg x.reg k = v)
        ∧ ∀ vn, t.unit? u = some vn → ∀ y ∈ vn.ops, y.id = op → y.done = true
      (∀ q p, o.kind = .launch q p → q < 8192 →
        ((s.die (q / 4096)).qsEn = false ∨ s.qdesc q = none ∨ (∃ y, s.qdesc q = some y ∧ (y.ctx ≠ s.ctxOf u ∨ y.devw = false)) →
          ∃ t, gives t 2#32 ∧ t.mem = s.mem ∧ t.queues = s.queues)
        ∧ ∀ y, (s.die (q / 4096)).qsEn = true → s.qdesc q = some y → y.ctx = s.ctxOf u → y.devw = true → let n := 2 ^ y.log2n
          (n - 1 ≤ ((s.queue q).tail + n - (s.queue q).head) % n → ∃ t, gives t 1#32 ∧ t.mem = s.mem ∧ t.queues = s.queues)
          ∧ (((s.queue q).tail + n - (s.queue q).head) % n < n - 1 → s.NoPartials → (∀ a, s.lineBusy none a true = false) → p.length = 128 →
            ∃ t, gives t (BitVec.ofNat 32 ((s.queue q).tail % 65536 * 65536)) ∧ Stored s t (y.ring + 128 * ((s.queue q).tail % n)) p
              ∧ (t.queue q).tail = ((s.queue q).tail + 1) % n ∧ (t.queue q).head = (s.queue q).head
              ∧ ∀ k, k ≠ q → t.queue k = s.queue k))
      ∧ ∀ va, o.kind = .cancel va →
        (s.record (s.ctxOf u) va = none → ∃ t, gives t 2#32 ∧ t.mem = s.mem ∧ t.records = s.records)
        ∧ ∀ r, s.record (s.ctxOf u) va = some r →
          (r.done = true → ∃ t, gives t 1#32 ∧ t.mem = s.mem ∧ t.records = s.records)
          ∧ (r.done = false → (∀ a, s.lineBusy none a true = false) → ∃ t y, gives t 0#32 ∧ t.record (s.ctxOf u) va = some y ∧ y.creq = true)

/-- R274, R275, R422 to R424: a repair request takes effect at the fragment it names, and the handler's write goes on: RESUME makes it runnable, at the
next word after a trap, KILL kills it, SPLIT parts it by a mask, FUSE takes in another fragment of its warp, KILLWARP kills the warp;
a RESUME or KILL whose serial is not the record's does nothing, and so does every action on a dead fragment; a SPLIT mask that is no proper
part, and a FUSE with a fragment that is dead or free, fault the handler's write.
(The model's choices: log entry 28.) -/
def Obligations.RepairActs : Prop :=
  ∀ (s : State) (f g : FragRef) (v : Word64) (hu un : KUnit) (hw w : Warp) (hx x : Frag), s.repairs = [(f, v)] →
    s.unit? f.unit = some hu → Map.look hu.warps f.warp = some hw → hw.frags = [(f.fidx, hx)] → hx.status = .parkedWait → (∃ k, hx.wake = .repair k) →
    s.named (s.ctxOf f.unit) (v.toNat % 2 ^ 32) = some g → g.unit ≠ f.unit →
    s.unit? g.unit = some un → Map.look un.warps g.warp = some w → Map.look w.frags g.fidx = some x → s.stalled = false → s.evicted = [] →
    let act := v.toNat / 2 ^ 24 % 2 ^ 8
    let param := v.toNat / 2 ^ 32
    let goesOn := fun (t : State) => t.repairs = [] ∧ t.frag? f = some (Frag.nextWord { hx with status := .runnable, wake := .none } 1)
    let named := fun (r : FaultRec) => x.frec = some r ∧ r.serial.toNat = param % 65536
    let refused := fun (i : Instr) => hx.actm &&& ~~~hx.done = hx.mask → hx.mask ≠ 0#32 →
      ∃ t y r, exec i s = .next t ∧ t.repairs = [] ∧ t.frag? g = some x ∧ t.mem = s.mem ∧ t.frag? f = some y ∧ y.status = .parkedFault
        ∧ y.frec = some r ∧ r.cause = 0x39
    (x.status = .dead →
      ∀ i : Instr, (act = 1 ∧ i = .repairResume 0) ∨ (act = 2 ∧ i = .repairKill 0) ∨ (act = 3 ∧ i = .repairSplit 0)
          ∨ (act = 4 ∧ i = .repairFuse 0) ∨ (act = 5 ∧ i = .repairKillwarp 0) →
        ∃ t, exec i s = .next t ∧ goesOn t ∧ t.frag? g = some x ∧ t.mem = s.mem)
    ∧ (x.status ≠ .dead →
    (act = 1 →
      ((∀ r, ¬ named r) → ∃ t, exec (.repairResume 0) s = .next t ∧ goesOn t ∧ t.frag? g = some x ∧ t.mem = s.mem)
      ∧ ∀ r, named r → x.status = .parkedFault → s.releaseWaits f = false →
        ∃ t, exec (.repairResume 0) s = .next t ∧ goesOn t ∧ t.mem = s.mem
          ∧ (let y := { x with status := .runnable, wake := .none, frec := none }
            t.frag? g = some
              (if r.cause = 0x38 then { y with hold := false }
               else if r.replay = false ∧ (r.cause = 0x30 ∨ r.cause = 0x31 ∨ r.cause = 0x32) then y.nextWord 1 else y))
          ∧ ∀ p ∈ (t.core un.core).copies, Map.look s.regOwner p.1 = some un.core ∨ p.2.uPage = true)
    ∧ (act = 2 →
      (param < 2 ^ 31 → (∀ r, ¬ named r) → ∃ t, exec (.repairKill 0) s = .next t ∧ goesOn t ∧ t.frag? g = some x ∧ t.mem = s.mem)
      ∧ (2 ^ 31 ≤ param ∨ (∃ r, named r) →
        ∃ t vn y, exec (.repairKill 0) s = .next t ∧ goesOn t ∧ t.unit? g.unit = some vn ∧ vn.endFault = true ∧ t.frag? g = some y
          ∧ y.status = .dead ∧ y.frec = none ∧ y.mask = x.mask
          ∧ (t.warp? g.unit g.warp).map (·.killed) = some (w.killed ||| x.mask)))
    ∧ (act = 3 → ∀ m : Mask, m = BitVec.ofNat 32 param →
      (x.isParked = true → m ≠ 0#32 → m ≠ x.mask → m &&& ~~~x.mask = 0#32 → s.refuses g 1 = false → ∀ n < 16, Map.look w.frags n = none →
        (∀ k < n, Map.look w.frags k ≠ none) →
        ∃ t y z, exec (.repairSplit 0) s = .next t ∧ goesOn t ∧ t.mem = s.mem ∧ t.frag? g = some y ∧ t.frag? { g with fidx := n } = some z
          ∧ y.mask = x.mask &&& ~~~m ∧ z.mask = m ∧ y.pc = x.pc ∧ z.pc = x.pc ∧ y.status = x.status ∧ z.status = x.status
          ∧ y.clause = x.clause ∧ z.clause = x.clause ∧ y.wake = x.wake ∧ z.wake = x.wake)
      ∧ (m = 0#32 ∨ m = x.mask ∨ m &&& ~~~x.mask ≠ 0#32 → refused (.repairSplit 0)))
    ∧ (act = 4 → param = g.fidx ∨ (∀ y, Map.look w.frags param = some y → y.status = .dead) → refused (.repairFuse 0))
    ∧ (act = 4 → ∀ y, param ≠ g.fidx → Map.look w.frags param = some y → y.status ≠ .dead →
      ∃ t z, exec (.repairFuse 0) s = .next t ∧ goesOn t ∧ t.mem = s.mem ∧ t.frag? g = some z ∧ t.frag? { g with fidx := param } = none
        ∧ z.mask = x.mask ||| y.mask ∧ z.pc = x.pc ∧ z.status = x.status ∧ z.clause = x.clause
        ∧ z.fmt = (if g.fidx < param then x.fmt else y.fmt) ∧ z.win = if g.fidx < param then x.win else y.win)
    ∧ (act = 5 → ∃ t vn wn, exec (.repairKillwarp 0) s = .next t ∧ goesOn t ∧ t.unit? g.unit = some vn ∧ vn.endFault = true
      ∧ Map.look vn.warps g.warp = some wn ∧ ∀ i y, Map.look wn.frags i = some y → y.status = .dead))

/-- R417 to R420: the record of a parked fragment is written to its context's trap ring at PROD, which then grows by one; where records wait, the context's
scheduler starts its handler: the job's record is set up, the handler's packet and a CLOSE go into its queue.
(The model's choices: log entry 29.) -/
def Obligations.FaultRecordsPosted : Prop :=
  ∀ (s : State) (ctx : Nat) (e : TrapEntry), s.NoPartials → s.stalled = false → s.evicted = [] →
    (∀ a, s.lineBusy none a true = false) → s.trapEntry ctx = some e → e.usable = true → e.failed = false →
    (∀ (f : FragRef) (serial : BitVec 16) (un : KUnit) (w : Warp) (x : Frag) (r : FaultRec) (l : Launch),
      s.posts = [.frag f serial] → s.unit? f.unit = some un → Map.look un.warps f.warp = some w → Map.look w.frags f.fidx = some x →
      x.frec = some r → r.serial = serial → Map.look s.launches un.launch = some l → l.handler = false → l.ctx = ctx → r.cause < 256 → r.hint < 65536 →
      ctx < 65536 → r.pc < 2 ^ 32 → l.lrec < 2 ^ 64 → un.index < 2 ^ 32 →
      let at0 := e.ring + 128 * (e.prod % 2 ^ e.log2n)
      (at0 + 128 ≤ s.trapAt ctx + 12 ∨ s.trapAt ctx + 16 ≤ at0) → (e.prod + 2 ^ 32 - e.cons) % 2 ^ 32 < 2 ^ e.log2n →
      ∃ t, exec (.faultRecordPost ctx) s = .next t ∧ t.posts = [] ∧ t.frag? f = some x
        ∧ leNat (t.bytes at0 1) = r.cause ∧ leNat (t.bytes (at0 + 1) 1) = (if r.replay then 4 else 0)
        ∧ leNat (t.bytes (at0 + 2) 2) = serial.toNat ∧ leNat (t.bytes (at0 + 4) 2) = r.hint ∧ leNat (t.bytes (at0 + 6) 2) = ctx
        ∧ leNat (t.bytes (at0 + 8) 4) = r.pc ∧ leNat (t.bytes (at0 + 12) 4) = x.mask.toNat ∧ leNat (t.bytes (at0 + 16) 4) = r.done.toNat
        ∧ leNat (t.bytes (at0 + 20) 4) = (fragIdent un.core w.slot f.fidx).toNat ∧ leNat (t.bytes (at0 + 24) 8) = r.addr.toNat
        ∧ leNat (t.bytes (at0 + 32) 8) = l.lrec ∧ leNat (t.bytes (at0 + 40) 4) = un.index ∧ leNat (t.bytes (at0 + 48) 8) = s.time.toNat
        ∧ leNat (t.bytes (s.trapAt ctx + 12) 4) = (e.prod + 1) % 2 ^ 32
        ∧ ∀ b, (b < at0 ∨ at0 + 128 ≤ b) → (b < s.trapAt ctx + 12 ∨ s.trapAt ctx + 16 ≤ b) → t.byte b = s.byte b)
    ∧ (e.prod = e.cons → exec (.handlerLaunchStart ctx) s = .next s)
    ∧ ∀ (b : List Byte) (p : Pkt) (d : QDesc) (pa : Nat), e.prod ≠ e.cons → Map.look s.handlers ctx = none → s.fetch e.pkt 128 = some b → p = Pkt.of b →
      s.qdesc e.hqueue = some d → p.type = 1 → p.job ≠ 0 → p.job % 64 = 0 → p.phase = 0 → p.graph = 0 → d.ctx = ctx → d.sys = true →
      (s.die (e.hqueue / 4096)).qsEn = true → s.schedPa ctx p.job = some pa →
      let n := 2 ^ d.log2n
      let tail := (s.queue e.hqueue).tail
      (tail + n - (s.queue e.hqueue).head) % n + 3 ≤ n →
      (∀ i < 64, ∀ j < 128, pa + i ≠ d.ring + 128 * (tail % n) + j ∧ pa + i ≠ d.ring + 128 * ((tail + 1) % n) + j) →
      ∃ t, exec (.handlerLaunchStart ctx) s = .next t ∧ (t.queue e.hqueue).tail = (tail + 2) % n
        ∧ Map.look t.handlers ctx = some { job := p.job, lrec := p.lrec, queue := e.hqueue, idx := some tail }
        ∧ leNat (t.bytes pa 64) = 0x31 * 2 ^ 96 ∧ t.bytes (d.ring + 128 * (tail % n)) 128 = b
        ∧ leNat (t.bytes (d.ring + 128 * ((tail + 1) % n)) 1) = 2 ∧ leNat (t.bytes (d.ring + 128 * ((tail + 1) % n) + 32) 8) = p.job

/-! ### Queues, admission and pre-emption (11) -/

/-- R315, R316, R329, R331: a doorbell on a registered queue that the host may write moves TAIL and stands unserved behind those that still stand, one that
would place too many packets is ignored but sets ERR, and so does one on an unregistered queue; one that leaves its queue with no packet and
nothing taken takes it off its slot; WITHDRAW marks the
packets with its tag in the ring, and ends the launch that a slot has taken with RESULT withdrawn; WITHDRAW with CANCEL cancels the job of an admitted
launch with the tag; a host cancel sets CREQ in its record, and does nothing to a completed or an unknown one.
(The model's choices: log entry 35.) -/
def Obligations.QueueDoorbells : Prop :=
  ∀ (s : State) (q : Nat), q < 8192 → s.stalled = false → (∀ a, s.lineBusy none a true = false) →
    ((s.die (q / 4096)).qsEn = false → ∀ (x : Word) (va : Word64), exec (.doorbellTail q x) s = .next s ∧ exec (.doorbellWithdraw q x) s = .next s
      ∧ exec (.doorbellWithdrawCancel q x) s = .next s ∧ exec (.doorbellCancel q va) s = .next s)
    ∧ ((s.die (q / 4096)).qsEn = true → s.qdesc q = none → ∀ x : Word, ∃ t, exec (.doorbellTail q x) s = .next t ∧ t = { s with queues := t.queues }
        ∧ t.queue q = { s.queue q with err := true } ∧ ∀ k, k ≠ q → t.queue k = s.queue k)
    ∧ ∀ d : QDesc, (s.die (q / 4096)).qsEn = true → s.qdesc q = some d → ∀ n, n = 2 ^ d.log2n →
      (∀ x : Word, (d.hostw = false → exec (.doorbellTail q x) s = .next s)
        ∧ (d.hostw = true → ∃ t, exec (.doorbellTail q x) s = .next t ∧ t = { s with queues := t.queues, dies := t.dies }
          ∧ (∀ k, k ≠ q → t.queue k = s.queue k)
          ∧ ((s.queue q).head + n ≤ x.toNat % (2 * n) ∨ x.toNat % n ≠ (s.queue q).head ∨ s.takenOf q ≠ none → t.dies = s.dies)
          ∧ ((s.queue q).head + n ≤ x.toNat % (2 * n) → t.queue q = { s.queue q with err := true })
          ∧ (x.toNat % (2 * n) < (s.queue q).head + n →
            t.queue q = { s.queue q with tail := x.toNat % n, err := false, bells := (t.queue q).bells, ctx := d.ctx }
            ∧ (x.toNat % n = (s.queue q).head → s.takenOf q = none → t.slotOf q = none ∧ (∀ k, t.die k = { s.die k with slots := (t.die k).slots })
              ∧ ∀ k v, v ∈ (t.die k).slots ↔ v ∈ (s.die k).slots ∧ (k = q / 4096 → v.2.queue ≠ q))
            ∧ ((s.queue q).head < n → x.toNat % n ≠ (s.queue q).head → (t.queue q).bells ≠ [])
            ∧ ∀ b, (s.queue q).bells.head? = some b → (b.2 + n - (s.queue q).head) % n ≤ (x.toNat % n + n - (s.queue q).head) % n →
                (t.queue q).bells.head? = some b)))
      ∧ (∀ (b : List Byte) (p : Pkt) (tag : Word), (s.queue q).head < n → (s.queue q).tail = ((s.queue q).head + 1) % n → s.NoPartials → s.evicted = [] →
        s.fetch (d.ring + 128 * (s.queue q).head) 128 = some b → p = Pkt.of b →
        (p.tag ≠ tag.toNat ∨ p.withdrawn = true → exec (.doorbellWithdraw q tag) s = .next s)
        ∧ (p.tag = tag.toNat → p.withdrawn = false → p.type ≠ 1 → s.takenOf q = none →
          ∃ t, exec (.doorbellWithdraw q tag) s = .next t ∧ t.records = s.records ∧ t.launches = s.launches ∧ t.queues = s.queues
            ∧ Stored s t (d.ring + 128 * (s.queue q).head) (leBytes 4 (p.ctl / 256 * 256 + p.ctl / 16 % 8 * 16 + 131)))
        ∧ (p.tag = tag.toNat → p.withdrawn = false → ∀ l x r, s.takenOf q = some l → Map.look s.launches l = some x → s.record x.ctx x.lrec = some r →
          r.done = false → r.opened = false → r.result = 0 →
          ∃ t r2, exec (.doorbellWithdraw q tag) s = .next t ∧ Map.look t.launches l = none ∧ t.queues = s.queues
            ∧ t.record x.ctx x.lrec = some r2 ∧ r2.done = true ∧ r2.result = 3 ∧ r2.pending = 0))
      ∧ (∀ (tag : Word) (m : Nat) (l : Launch) (j : Nat) (r : Rec), (s.queue q).head = (s.queue q).tail → s.launches = [(m, l)] → l.queue = q → l.tag = tag →
        l.st ≠ .taken → l.chain.head? = some j → s.record l.ctx j = some r → r.done = false → (s.queue q).head < n →
        ∃ t r2, exec (.doorbellWithdrawCancel q tag) s = .next t ∧ t.record l.ctx j = some r2 ∧ r2.creq = true)
      ∧ (∀ va : Word64, (s.record d.ctx va.toNat = none → exec (.doorbellCancel q va) s = .next s)
        ∧ ∀ r, s.record d.ctx va.toNat = some r →
          (r.done = true → exec (.doorbellCancel q va) s = .next s)
          ∧ (r.done = false → ∃ t r2, exec (.doorbellCancel q va) s = .next t ∧ t.record d.ctx va.toNat = some r2 ∧ r2.creq = true))

/-- R316 to R318, R320, R324: a waiting queue takes the lowest free slot of its die; a slot whose SLICE is over gives way to a waiting queue of at least its
priority; a slot takes the packet at HEAD: a malformed one is counted and passed, a CLOSE clears OPEN in its record, a LAUNCH that can run is
registered and taken, and one that cannot completes with its RESULT.
(The model's choices: log entry 35.) -/
def Obligations.QueuesMapAndTake : Prop :=
  ∀ (s : State) (q die : Nat) (d : QDesc), q < 8192 → die = q / 4096 → (s.die die).qsEn = true → s.qdesc q = some d → s.stalled = false →
    (∀ n < 64, s.NoPartials → (∀ a, s.lineBusy none a true = false) → (∀ j, (s.core j).marks = []) → (s.queue q).head ≠ (s.queue q).tail → s.slotOf q = none → (∀ k, k ≠ q → s.waitsSlot k = none) → (s.resident die).length < 32 →
      Map.look (s.die die).slots n = none → (∀ m < n, Map.look (s.die die).slots m ≠ none) →
      ∃ t, exec (.queueMap q) s = .next t ∧ t = { s with dies := t.dies }
        ∧ Map.look (t.die die).slots n = some { queue := q, since := s.time, taken := s.takenOf q }
        ∧ ∀ k, k ≠ n → Map.look (t.die die).slots k = Map.look (s.die die).slots k)
    ∧ (∀ n v, Map.look (s.die die).slots n = some v → v.queue = q →
      ((s.time - v.since).toNat < d.slice * 65536000 ∨ (s.die die).slots.length ≠ 64 ∨ (∀ k, s.waitsSlot k = none) →
        exec (.sliceExpiry die n) s = .next s)
      ∧ (d.slice * 65536000 ≤ (s.time - v.since).toNat → (s.die die).slots.length = 64 →
        (∃ k x, (Map.look s.queues k).isSome = true ∧ k / 4096 = die ∧ s.waitsSlot k = some x ∧ d.prio ≤ x.prio) →
        ∃ t, exec (.sliceExpiry die n) s = .next t ∧ t = { s with dies := t.dies } ∧ t.slotOf q = none))
    ∧ ∀ (n : Nat) (v : QSlot) (b : List Byte) (p : Pkt) (m : Nat), m = 2 ^ d.log2n → (∀ a, s.lineBusy none a true = false) → s.evicted = [] → Map.rising (s.die die).slots = true →
      (∀ k x, (k, x) ∈ (s.die die).slots → x.queue = q → k = n) →
      Map.look (s.die die).slots n = some v → v.queue = q → v.taken = none → (s.queue q).head ≠ (s.queue q).tail → s.handlers = [] → s.NoPartials →
      s.fetch (d.ring + 128 * ((s.queue q).head % m)) 128 = some b → p = Pkt.of b →
      let passed := fun (t : State) => exec (.packetTake die n) s = .next t ∧ (t.queue q).head = ((s.queue q).head + 1) % m
        ∧ (t.queue q).tail = (s.queue q).tail
      (p.withdrawn = true → ∃ t, passed t ∧ (t.queue q).malf = (s.queue q).malf ∧ t.mem = s.mem ∧ t.records = s.records ∧ t.launches = s.launches)
      ∧ (p.withdrawn = false → s.pktOk d.ctx p = false → s.record d.ctx p.lrec = none →
        ∃ t, passed t ∧ (t.queue q).malf = min ((s.queue q).malf + 1) 65535 ∧ t.mem = s.mem ∧ t.records = s.records ∧ t.launches = s.launches)
      ∧ (s.pktOk d.ctx p = true → p.type = 0 → ∃ t, passed t ∧ t.mem = s.mem ∧ t.records = s.records ∧ t.launches = s.launches)
      ∧ (s.pktOk d.ctx p = true → p.type = 2 → ∀ r, s.record d.ctx p.lrec = some r → r.opened = true → r.done = false → r.pending ≠ 0 →
        ∃ t, passed t ∧ t.mem = s.mem ∧ t.record d.ctx p.lrec = some { r with opened := false })
      ∧ (s.pktOk d.ctx p = true → p.type = 1 → p.phase = 0 → p.graph = 0 → p.job ≠ p.lrec → ∀ pa r, s.schedPa d.ctx p.job = some pa →
        s.record d.ctx p.job = some r → r.level = 3 → r.parent = 0 → r.done = false → r.opened = true → r.creq = false →
        (∀ x, s.schedPa d.ctx p.lrec = some x → x + 64 ≤ (s.die die).qtab + 64 * (q % 4096) ∨ (s.die die).qtab + 64 * (q % 4096) + 64 ≤ x) →
        (∀ l, s.makeLaunch q d p false = .ok l →
          ∃ t r2, exec (.packetTake die n) s = .next t ∧ t.mem = s.mem ∧ t.queues = s.queues ∧ Map.look t.launches s.nextLaunch = some l
            ∧ t.nextLaunch = s.nextLaunch + 1 ∧ Map.look (t.die die).slots n = some { v with taken := some s.nextLaunch }
            ∧ t.record d.ctx p.job = some { r with pending := r.pending + 1 }
            ∧ t.record d.ctx p.lrec = some r2 ∧ r2.pending = p.units ∧ r2.done = false ∧ r2.parent = p.job ∧ r2.tag.toNat = p.tag)
        ∧ ∀ c, c ≠ 0 → s.makeLaunch q d p false = .error c →
          ∃ t r2, passed t ∧ t.launches = s.launches ∧ t.record d.ctx p.lrec = some r2 ∧ r2.done = true ∧ r2.result = c)

/-- R7, R321, R322, R332, R335, R340: a gang whose placement holds is admitted whole: each unit stands on its core with its warps, every warp one fragment of 32 threads at
the entry, its capabilities in c0 up and, where the packet asks, its index and the number of units after them; scratchpad and accumulators are zero. An
evicted gang goes on at its new places as its image has it, with the registers of the banks that stayed behind where it comes back to them. A start hold
ends at its time. (The model's choices: log entries 36, 37 and 62.) -/
def Obligations.GangsAdmitted : Prop :=
  ∀ (s : State) (l : Launch), s.stalled = false → (∀ (n : Nat) (d : QDesc) (place : List Placement), Map.look s.launches n = some l → s.isCandidate n l = true →
    s.heldBack n l = false → s.outranked n l = false → s.dev.quiesced = false →
    (l.st = .taken → (∀ j, (s.core j).marks = []) → s.qdesc l.queue = some d → place.length = l.units → (∀ p ∈ place, p.slots.length = l.warps) →
      (imagePlaces d (imageSize l.acc l.scratch l.regs l.warps) s.freeIx l.units (s.images l.queue)).isSome = true →
      s.fits l.ctx (place.map fun p => { core := p.core, slots := p.slots, regs := l.regs, acc := l.acc, scratch := l.scratch, stream := l.stream, frags := l.warps })
        = true →
      clustersOf l.cluster ((List.range place.length).map fun i => (i, (place.getD i ⟨0, []⟩).core)) = true →
      ∃ t, exec (.gangAdmission n place) s = .next t ∧ t.mem = s.mem ∧ t.nextUnit = s.nextUnit + l.units
        ∧ (Map.look t.launches n).map (·.st) = some .resident ∧ (t.queue l.queue).head = ((s.queue l.queue).head + 1) % 2 ^ d.log2n
        ∧ (∀ k, k < s.nextUnit ∨ s.nextUnit + l.units ≤ k → t.unit? k = s.unit? k)
        ∧ ∀ i < l.units, ∃ un, t.unit? (s.nextUnit + i) = some un ∧ un.launch = n ∧ un.index = i ∧ un.core = (place.getD i ⟨0, []⟩).core
          ∧ un.scratch = [] ∧ un.stags = [] ∧ un.acc = [] ∧ un.bars = [] ∧ un.ops = [] ∧ (un.startHold = true ↔ l.start ≠ 0 ∧ s.time.toNat < l.start.toNat)
          ∧ ∀ k < l.warps, ∃ w x, Map.look un.warps k = some w ∧ w.slot = (place.getD i ⟨0, []⟩).slots.getD k 0 ∧ w.extent = l.regs ∧ w.frags = [(0, x)]
            ∧ x.mask = allThreads ∧ x.pc = l.entry ∧ x.status = .runnable ∧ x.fmt = 0#14 ∧ x.win = 0#5 ∧ x.rpc = 0xFFFFFFFF#32
            ∧ w.preds = [] ∧ w.node = 0#64 ∧ w.exited = 0#32 ∧ w.killed = 0#32
            ∧ (∀ j < l.args.length, ∀ t < 32, w.quad (4 * j) t = l.args.getD j 0 ∧ w.qtag j t = true)
            ∧ (l.uidx = true → ∀ t < 32, w.reg (4 * l.args.length) t = BitVec.ofNat 32 i ∧ w.reg (4 * l.args.length + 1) t = BitVec.ofNat 32 l.units))
    ∧ (∀ u un p, l.st = .evicted → s.evicted = [(u, un)] → un.launch = n → place = [p] → p.slots.length = un.warps.length → s.kills = [] →
      (∀ a, s.lineBusy none a true = false) → s.enterCtx (dieOf p.core) l.ctx = s → Map.rising un.warps = true →
      s.fits l.ctx [{ core := p.core, slots := ((Map.vals un.warps).zip p.slots).filterMap (fun x => if x.1.ended then none else some x.2)
                      regs := l.regs, acc := l.acc, scratch := l.scratch, stream := l.stream
                      frags := ((Map.vals un.warps).map fun w => w.frags.length).sum }] = true →
      clustersOf l.cluster [(un.index, p.core)] = true →
      ∀ b, b = s.imageRead l (un.rehome p) 0 ((un.rehome p).imageHead l) →
      (s.banksHere u (un.rehome p) l = true → ∃ t vn, exec (.gangAdmission n place) s = .next t ∧ t.evicted = []
        ∧ (Map.look t.launches n).map (·.st) = some .resident ∧ t.unit? u = some vn ∧ vn.core = p.core ∧ vn.parkReq = false
        ∧ vn.launch = un.launch ∧ vn.index = un.index ∧ vn.rank = un.rank ∧ vn.mates = un.mates
        ∧ (∀ off < l.scratch, vn.sbyte off = b.getD (l.imgScratch + off) 0#8)
        ∧ ∀ i < un.warps.length, ∀ k w, un.warps[i]? = some (k, w) → ∃ v, Map.look vn.warps k = some v ∧ v.slot = p.slots.getD i w.slot
          ∧ v.extent = w.extent ∧ v.killed = w.killed
          ∧ v.exited.toNat = leNat ((b.drop (imgWarps + 320 * k + 28)).take 4)
          ∧ (∀ j < 16, ∀ x, Map.look v.frags j = some x →
              x.pc = leNat ((b.drop (imgFrags + 512 * k + 32 * j + 24)).take 4) ∧ x.mask.toNat = leNat ((b.drop (imgFrags + 512 * k + 32 * j + 28)).take 4))
          ∧ ((∀ j < l.regs / 16, ∃ m ∈ (s.core p.core).marks, m.unit = u ∧ m.bank = k * (l.regs / 16) + j) → v.regs = w.regs ∧ v.qtags = w.qtags))))
    ∧ ∀ u un, s.unit? u = some un → s.launchOf u = some l →
      (un.startHold = true → un.parkReq = false → l.start.toNat ≤ s.time.toNat →
        ∃ t, exec (.startHoldRelease u) s = .next t ∧ t = { s with units := t.units } ∧ t.unit? u = some { un with startHold := false }
          ∧ ∀ k, k ≠ u → t.unit? k = s.unit? k)
      ∧ (un.startHold = false ∨ s.time.toNat < l.start.toNat → exec (.startHoldRelease u) s = .next s)

/-- R190, R334, R337 to R340: a candidate that has waited longer than its SLICE and does not fit becomes blocking, and where the cores lack room for it the
gang of lower priority whose resources it needs is asked to park; once its warps are parked its open transactions are doomed with EVICT, and once its paths have drained its units leave
their cores, with the registers of their live warps in banks that stay marked, unless a unit has ended. A gang that has not drained within PARKLIM, or not completed
within RUNLIM, is killed with RESULT watchdog.
(The model's choices: log entries 36 and 37.) -/
def Obligations.PreemptionAndWatchdogs : Prop :=
  ∀ (s : State) (n : Nat) (l : Launch) (d : QDesc), Map.look s.launches n = some l → s.qdesc l.queue = some d → s.stalled = false →
    (∀ a, s.lineBusy none a true = false) →
    let waited := fun (since : Word64) (us : Nat) => us * 65536000 ≤ (s.time - since).toNat
    let longer := fun (since : Word64) (us : Nat) => us * 65536000 < (s.time - since).toNat
    (l.st = .taken ∨ l.st = .evicted → s.dev.quiesced = false → s.isCandidate n l = true →
      (¬ longer (if l.st = .evicted then l.parkTime else l.regTime) d.slice ∨ s.placeable n l [] = true → exec (.candidateBlocking n) s = .next s)
      ∧ (longer (if l.st = .evicted then l.parkTime else l.regTime) d.slice → s.placeable n l [] = false → ∀ m g, m ≠ n →
        s.launches.filter (fun p => p.2.st = .resident) = [(m, g)] → Map.look s.launches m = some g →
        (∀ p ∈ s.launches, p.2.st ≠ .parking ∧ p.2.st ≠ .draining) →
        let roomFor := (s.demandOf n l).fits (s.toPlace n l) (s.capacity n l [])
        ∃ t, exec (.candidateBlocking n) s = .next t ∧ t.mem = s.mem ∧ (Map.look t.launches n).map (·.blocking) = some true
          ∧ (g.prio < l.prio → roomFor = false → s.capacity n l [m] ≠ s.capacity n l [] → (Map.look t.launches m).map (·.st) = some .parking ∧ (Map.look t.launches m).map (·.parkTime) = some s.time
            ∧ ∀ u un, s.unit? u = some un → t.unit? u = some (if un.launch = m then { un with parkReq := true } else un))
          ∧ (l.prio ≤ g.prio ∨ roomFor = true ∨ s.capacity n l [m] = s.capacity n l [] → t.units = s.units ∧ Map.look t.launches m = some g)))
    ∧ (l.st = .parking → (∀ p ∈ s.units, p.2.launch = n → p.2.parked = true) →
      ∃ t, exec (.gangParked n) s = .next t ∧ t.mem = s.mem ∧ (Map.look t.launches n).map (·.st) = some .draining
        ∧ ∀ u un, s.unit? u = some un → ∃ vn, t.unit? u = some vn
          ∧ (un.launch ≠ n → vn = un)
          ∧ (un.launch = n → ∀ k w, Map.look un.warps k = some w → ∃ v, Map.look vn.warps k = some v ∧ v = { w with txn := v.txn }
            ∧ ∀ j x, Map.look w.txn j = some x →
              Map.look v.txn j = some (if x.st = .opened then { x with st := .doomed, code := 8#4 } else x)))
    ∧ (l.st = .draining → ∀ u un, s.units = [(u, un)] → un.launch = n → un.drained = true → s.evicted = [] →
      (un.ended = true → exec (.gangDrained n) s = .next s)
      ∧ (un.ended = false → s.tooLarge { l with st := .evicted, parkTime := s.time } = false →
        ∃ t vn, exec (.gangDrained n) s = .next t ∧ t.units = [] ∧ t.evicted = [(u, vn)] ∧ (Map.look t.launches n).map (·.st) = some .evicted
          ∧ vn.core = un.core ∧ vn.ops = un.ops ∧ vn.scratch = un.scratch ∧ vn.chains = un.chains ∧ vn.streams = un.streams
          ∧ (∀ k w, Map.look un.warps k = some w → ∃ v, Map.look vn.warps k = some v ∧ v.regs = w.regs ∧ v.qtags = w.qtags ∧ v.frags = w.frags
            ∧ ∀ j < 32, v.tx j = if (w.tx j).st = .doomed ∧ (w.tx j).code = 8#4 then (w.tx j).discard else w.tx j)
          ∧ (t.core un.core).eng = (s.core un.core).eng.filter (fun p => p.1 ≠ u)
          ∧ (∀ k w, Map.look un.warps k = some w → w.ended = false → ∀ b, k * (l.regs / 16) ≤ b → b < (k + 1) * (l.regs / 16) → b < l.banks →
              ∃ m ∈ (t.core un.core).marks, m.unit = u ∧ m.bank = b)))
    ∧ ∀ (i : Instr) (due : Prop), (i = .parklimExpiry n ∧ (due ↔ (l.st = .parking ∨ l.st = .draining) ∧ waited l.parkTime d.parklim))
        ∨ (i = .runlimExpiry n ∧ (due ↔ l.admitted = true ∧ d.runlim ≠ 0 ∧ waited l.admitTime (1000 * d.runlim))) →
      (¬ due → exec i s = .next s)
      ∧ (due → l.st ≠ .evicted → ∀ u un, s.units = [(u, un)] → un.launch = n →
        ∃ t vn, exec i s = .next t ∧ t.mem = s.mem ∧ t.unit? u = some vn ∧ vn.endFault = true ∧ vn.parkReq = false
          ∧ (∀ k w, Map.look vn.warps k = some w → ∀ j x, Map.look w.frags j = some x → x.status = .dead)
          ∧ ∀ r, s.record l.ctx l.lrec = some r → t.record l.ctx l.lrec = some (if r.done = true ∨ r.result ≠ 0 then r else { r with result := 10 }))

/-- R8, R272, R325, R326, R342, R382: a unit whose warps have ended and which has nothing in flight leaves its core, and its launch's record counts one unit less, as faulted
or cancelled where it ended so; a record at zero completes, and the parent that it was registered under counts it by its RESULT and completes in turn
where nothing is left to wait for. A context ID is freed with all that stood under it: units, launches, queues, records, sequences, pages, beads, held translations, and the
capability tags that its accesses made. (The model's choices: log entry 34.) -/
def Obligations.UnitsEndAndContextsFree : Prop :=
  ∀ s : State, s.stalled = false → (∀ a, s.lineBusy none a true = false) →
    (∀ u un l r, s.unit? u = some un → s.evicted = [] → s.launchOf u = some l → un.ended = true → un.ops = [] → un.jobs = [] → s.reachedBy u = false → (∀ k c, Map.look un.chains k = some c → c.st ≠ .running) →
      Map.rising un.chains = true → s.record l.ctx l.lrec = some r → r.done = false → r.opened = false → 0 < r.pending →
      (∀ x y z, s.record l.ctx x = some y → y.parent ≠ 0 → s.record l.ctx y.parent = some z → y.level < z.level) →
      ∃ t v, exec (.unitEnd u) s = .next t ∧ t.unit? u = none ∧ t.record l.ctx l.lrec = some v ∧ v.pending = r.pending - 1 ∧ v.ended = r.ended + 1
        ∧ v.faulted = r.faulted + (if un.endFault then 1 else 0)
        ∧ v.cancelled = r.cancelled + (if !un.endFault && un.endCancel then 1 else 0)
        ∧ (1 < r.pending → v.done = false ∧ t.mem = s.mem)
        ∧ (r.pending = 1 → v.done = true ∧ v.tdone = s.time
          ∧ v.result = (if r.result ≠ 0 then r.result else if r.creq then 2 else if 0 < v.faulted then 1 else if 0 < v.cancelled then 2 else 0))
        ∧ ∀ p, r.parent ≠ 0 → s.record l.ctx r.parent = some p → 0 < p.pending →
          (1 < r.pending → t.record l.ctx r.parent = some p)
          ∧ (r.pending = 1 → ∃ p2, t.record l.ctx r.parent = some p2 ∧ p2.pending = p.pending - 1 ∧ p2.ended = p.ended + 1
            ∧ p2.faulted = p.faulted + (if v.result = 1 ∨ (4 ≤ v.result ∧ v.result ≤ 10) then 1 else 0)
            ∧ p2.cancelled = p.cancelled + (if v.result = 2 ∨ v.result = 3 then 1 else 0)
            ∧ (1 < p.pending ∨ p.done = true ∨ (p.opened = true ∧ p.creq = false) → p2.done = p.done ∧ p2.result = p.result)
            ∧ (p.pending = 1 → p.done = false → p.opened = false ∨ p.creq = true → p2.done = true ∧ p2.tdone = s.time
              ∧ p2.result = (if p.result ≠ 0 then p.result else if p.creq then 2 else if 0 < p2.faulted then 1
                  else if 0 < p2.cancelled then 2 else 0))))
    ∧ (∀ u un, s.unit? u = some un → un.ended = false ∨ un.ops ≠ [] ∨ un.jobs ≠ [] ∨ s.reachedBy u = true → exec (.unitEnd u) s = .next s)
    ∧ ∀ ctx, Map.rising s.launches = true → Map.rising s.seqs = true →
      ∃ t, exec (.contextIdFree ctx) s = .next t ∧ ((∀ p ∈ s.seqs, p.2.ctx ≠ ctx) → t.mem = s.mem)
        ∧ (∀ u un l, s.unit? u = some un → s.launchOf u = some l → 
          (l.ctx = ctx → t.unit? u = none) ∧ (l.ctx ≠ ctx → (∀ p ∈ s.seqs, p.2.ctx ≠ ctx) → t.unit? u = some un))
        ∧ (∀ p ∈ t.seqs, p.2.ctx ≠ ctx) ∧ (∀ p ∈ t.pages, p.2.ctx ≠ ctx) ∧ (∀ p ∈ t.launches, p.2.ctx ≠ ctx) ∧ (∀ a, t.record ctx a = none)
        ∧ (∀ q, (s.queue q).ctx = ctx ∨ ((s.queue q).ctx = 0 ∧ s.queueCtx q = some ctx) → t.queue q = Queue.idle) ∧ (∀ k, ∀ e ∈ (t.die k).tlb, e.ctx ≠ ctx)
        ∧ Map.look t.quota ctx = none ∧ Map.look t.handlers ctx = none ∧ (∀ k, Map.look (t.die k).exports ctx = none)
        ∧ (∀ p ∈ s.launches, p.2.ctx ≠ ctx → p ∈ t.launches) ∧ (∀ p ∈ s.seqs, p.2.ctx ≠ ctx → p ∈ t.seqs)
        ∧ (∀ k c a, c ≠ ctx → a < 2 ^ 56 → s.record c a = some k → t.record c a = some k)
        ∧ (∀ b, (s.bead b).ctx = ctx → (s.bead b).st ≠ .vacant → (t.bead b).st = .vacant)
        ∧ (∀ g, Map.look s.tagBy g = some ctx → NSet.has t.tags g = false)
        ∧ ((∀ p ∈ s.seqs, p.2.ctx ≠ ctx) → ∀ g, NSet.has s.tags g = true → Map.look s.tagBy g ≠ some ctx → NSet.has t.tags g = true)

/-! ### Translation faults, invalidation, migration, peers (12) -/

/-- R347, R349 to R353: an entry of a core's fault buffer is copied to the die's fault queue, which then has one more; Retry frees the entry, makes the
fragments parked on it runnable and lets the transfers that wait for it go on; Fail hands the fragments' records to the trap handler; an invalidation command is refused while one is in progress, and
completes, when nothing in flight and no pin of a transfer and no BOARD uses what it covers, with the held translations that it covers gone, and but for a range the export entries.
(The model's choices: log entry 39.) -/
def Obligations.TranslationFaultsAnswered : Prop :=
  ∀ s : State, s.stalled = false →
    (∀ (die core idx : Nat) (e : FbEntry), (∀ a, s.lineBusy none a true = false) → Map.rising s.cores = true → (s.core core).nextFb = some (idx, e) → Map.look (s.core core).fbuf idx = some e → core / 96 = die →
      (∀ p ∈ s.cores, p.1 / 96 = die → p.2.nextFb.isSome = true → p.1 = core) → (Map.look s.cores core).isSome = true → s.NoPartials →
      e.va < 2 ^ 64 → e.ctx < 2 ^ 16 → e.src < 256 → e.kind < 256 → e.dev < 2 ^ 16 → idx < 256 →
      let d := s.die die
      let used := (d.fqProd + 65536 - d.fqCons) % 65536
      let at0 := d.fqBase + 32 * (d.fqProd % 2 ^ d.fqLog2n)
      (d.fqEn = false ∨ 2 ^ d.fqLog2n ≤ used → exec (.faultQueueCopy die) s = .next s)
      ∧ (d.fqEn = true → 4 ≤ d.fqLog2n → d.fqLog2n ≤ 12 → used < 2 ^ d.fqLog2n →
        ∃ t, exec (.faultQueueCopy die) s = .next t
          ∧ leNat (t.bytes at0 8) = e.va ∧ leNat (t.bytes (at0 + 8) 2) = e.ctx ∧ leNat (t.bytes (at0 + 10) 1) = e.src
          ∧ leNat (t.bytes (at0 + 11) 1) = e.kind ∧ leNat (t.bytes (at0 + 12) 2) = core % 96 ∧ leNat (t.bytes (at0 + 14) 2) = idx
          ∧ leNat (t.bytes (at0 + 16) 2) = e.dev ∧ leNat (t.bytes (at0 + 18) 14) = 0
          ∧ (∀ a, a < at0 ∨ at0 + 32 ≤ a → t.byte a = s.byte a) ∧ (t.die die).fqProd = (d.fqProd + 1) % 65536
          ∧ Map.look (t.core core).fbuf idx = some { e with copied := true }
          ∧ (used ≠ 0 → t.out = s.out)
          ∧ (used = 0 → d.fqVec < 2048 → (s.dev.msixByte (16 * d.fqVec + 12)).getLsbD 0 = false →
            let entry := fun (o n : Nat) => leNat ((List.range n).map fun i => s.dev.msixByte (16 * d.fqVec + o + i))
            t.out = s.out ++ [.msix d.fqVec (entry 0 8) (BitVec.ofNat 32 (entry 8 4))])))
    ∧ (∀ (die c idx : Nat) (e : FbEntry), c < 96 → Map.look (s.core (96 * die + c)).fbuf idx = some e → (s.core (96 * die + c)).fwait = [] →
      s.evicted = [] →
      (∃ t, exec (.dieFqackRetry die c idx) s = .next t ∧ t.mem = s.mem ∧ Map.look (t.core (96 * die + c)).fbuf idx = none
        ∧ ∀ (f : FragRef) (x : Frag) (r : FaultRec), s.frag? f = some x → (s.launchOf f.unit).map (·.ctx) = some e.ctx → x.status = .parkedFault →
            x.frec = some r → (96 * die + c, decide (e.src = 3), e.va / 131072) ∈ r.await → r.replay = true →
            ∃ y, t.frag? f = some y ∧ y.status = .runnable ∧ y.frec = none ∧ y.pc = x.pc ∧ y.mask = x.mask ∧ y.clause = x.clause)
      ∧ (e.src ≠ 3 → ∃ t, exec (.dieFqackRetry die c idx) s = .next t ∧ ∀ u un, s.unit? u = some un → un.core = 96 * die + c → s.ctxOf u = e.ctx →
          ∃ vn, t.unit? u = some vn ∧ ∀ j ∈ un.jobs, ∀ va, j.waitVa = some va → va / 131072 = e.va / 131072 →
            ∃ k ∈ vn.jobs, k.op = j.op ∧ k.waitVa = none)
      ∧ ∀ (f : FragRef) (x : Frag) (r : FaultRec), s.joined (96 * die + c) e = [f] → s.waitingJobs (96 * die + c) e = [] → s.frag? f = some x →
          x.frec = some r →
          ∃ t, exec (.dieFqackFail die c idx) s = .next t ∧ t.mem = s.mem ∧ Map.look (t.core (96 * die + c)).fbuf idx = none
            ∧ t.frag? f = some { x with frec := some { r with await := [] } } ∧ t.posts = s.posts ++ [.frag f r.serial])
    ∧ (s.dev.tlbiBusy = true → ∀ i ctx n, i = .tlbiRange ctx n ∨ i = .tlbiContext ctx ∨ i = .tlbiAll →
      ∃ x, exec i s = .next { s with freeIx := x, dev := { s.dev with tlbiErr := true } })
    ∧ (s.dev.tlbiBusy = false →
      exec .tlbiComplete s = .next s
      ∧ ∀ ctx < 4096, ∀ n < 2 ^ 24,
        let took := fun (x scope c k : Nat) => { s with
          freeIx := x, dev := { s.dev with tlbiBusy := true, tlbiScope := scope, tlbiCtx := c, tlbiN := k, tlbiBase := s.dev.tlbiVa } }
        exec (.tlbiRange ctx n) s = .next (took s.freeIx 0 ctx n)
        ∧ (∃ x k, exec (.tlbiContext ctx) s = .next (took x 1 ctx k))
        ∧ ∃ x c k, exec .tlbiAll s = .next (took x 2 c k))
    ∧ (s.dev.tlbiBusy = true →
      let covers := fun (ctx base size : Nat) =>
        (s.dev.tlbiScope = 0 ∧ ctx = s.dev.tlbiCtx ∧ base < s.dev.tlbiBase.toNat / 131072 * 131072 + 131072 * s.dev.tlbiN
            ∧ s.dev.tlbiBase.toNat / 131072 * 131072 < base + size)
        ∨ (s.dev.tlbiScope = 1 ∧ ctx = s.dev.tlbiCtx) ∨ 2 ≤ s.dev.tlbiScope
      ((∃ p ∈ s.units, ∃ j ∈ p.2.jobs, ∃ l ∈ j.pins, covers (s.ctxOf p.1) l.vbase l.size) ∨
          (∃ b ∈ Map.vals s.beads, b.st = .boarding ∧ covers b.ctx b.vpage.1 b.vpage.2) → exec .tlbiComplete s = .next s)
      ∧ ((∀ p ∈ s.units, p.2.ops = [] ∧ (∀ j ∈ p.2.jobs, j.pins = []) ∧ ∀ w ∈ Map.vals p.2.warps, ∀ x ∈ Map.vals w.txn, x.st ≠ .opened) →
      (∀ b ∈ Map.vals s.beads, b.st ≠ .boarding) → (∀ k ∈ Map.vals s.cores, ∀ o ∈ k.station, o.kind ≠ .board) →
      ∃ t, exec .tlbiComplete s = .next t ∧ t = { s with dies := t.dies, dev := { s.dev with tlbiBusy := false } }
        ∧ (∀ k e, e ∈ (t.die k).tlb ↔ e ∈ (s.die k).tlb ∧ ¬ covers e.ctx e.leaf.vbase e.leaf.size)
        ∧ ∀ k c, Map.look (t.die k).exports c =
            if (s.dev.tlbiScope = 1 ∧ c = s.dev.tlbiCtx) ∨ 2 ≤ s.dev.tlbiScope then none else Map.look (s.die k).exports c))

/-- R358 to R360: GO on pages that are aligned, installed and apart, none of whose lines is ring-held, ends the registrations of the source and locks it; an error or a ring-held
line is reported in STATE. The copy gives the destination the source's bytes, tags and poison. SWITCH ends the migration, ABORT leaves the source as it is, with no tag at the
destination but of a granule copied whole; a write held at the source goes where its address now translates to.
(The model's choices: log entry 40.) -/
def Obligations.MigrationMovesPages : Prop :=
  ∀ (s : State) (die : Nat), die < 2 → s.NoPartials → s.stalled = false →
    (∀ z src dst n, n = 2 ^ (17 + [0, 4, 9, 0].getD z 0) → src = (s.die die).migSrcReg → dst = (s.die die).migDstReg →
      ((s.die die).migState ≠ 0 → (s.die die).migState ≠ 4 → (s.die die).migState ≠ 5 →
        ∃ t, exec (.migrationGo die z) s = .next t ∧ t = { s with dies := t.dies } ∧ t.die die = { s.die die with migSizeReg := z % 4 })
      ∧ ((s.die die).migState = 0 ∨ (s.die die).migState = 4 ∨ (s.die die).migState = 5 →
        (3 ≤ z ∨ src % n ≠ 0 ∨ dst % n ≠ 0 ∨ (src < dst + n ∧ dst < src + n) ∨ s.installed src = false ∨ s.installed dst = false →
          ∃ t, exec (.migrationGo die z) s = .next t ∧ t = { s with dies := t.dies } ∧ (t.die die).migState = 5)
        ∧ (z < 3 → src % n = 0 → dst % n = 0 → (src + n ≤ dst ∨ dst + n ≤ src) → s.installed src = true → s.installed dst = true →
          ((∃ p ∈ s.ringHeld, src ≤ 64 * p.1 ∧ 64 * p.1 < src + n) →
            ∃ t, exec (.migrationGo die z) s = .next t ∧ t = { s with dies := t.dies } ∧ (t.die die).migState = 4)
          ∧ ((∀ p ∈ s.ringHeld, ¬ (src ≤ 64 * p.1 ∧ 64 * p.1 < src + n)) →
            ∃ t, exec (.migrationGo die z) s = .next t ∧ t.mem = s.mem ∧ (t.die die).migState = 2 ∧ (t.die die).migSrc = src ∧ (t.die die).migDst = dst
              ∧ (∀ w, src ≤ 4 * w → 4 * w < src + n → Map.look t.regOwner w = none) ∧ ∀ a, src ≤ a → a < src + n → t.migLocked a = true))))
    ∧ ∀ src dst n, src = (s.die die).migSrc → dst = (s.die die).migDst → n = 2 ^ (17 + [0, 4, 9, 0].getD (s.die die).migSize 0) →
      ((s.die die).migState ≠ 1 → (s.die die).migState ≠ 2 → exec (.migrationCopyDone die) s = .next s)
      ∧ ((s.die die).migState = 1 ∨ (s.die die).migState = 2 → src % 16 = 0 → dst % 64 = 0 → src + n ≤ dst ∨ dst + n ≤ src →
        (∀ a, dst ≤ a → a < dst + n → s.lineBusy none a true = false) →
        ∃ t, exec (.migrationCopyDone die) s = .next t ∧ (t.die die).migState = 3
          ∧ (∀ a, t.byte a = if dst ≤ a ∧ a < dst + n then s.byte (src + (a - dst)) else s.byte a)
          ∧ (∀ i < n / 16, NSet.has t.tags (dst / 16 + i) = NSet.has s.tags (src / 16 + i))
          ∧ (∀ i < n / 8, NSet.has t.poison (dst / 8 + i) = NSet.has s.poison (src / 8 + i))
          ∧ ∀ k, ∀ p ∈ (t.core k).copies, 4 * p.1 < dst ∨ dst + n ≤ 4 * p.1)
      ∧ ((s.die die).migState ≠ 3 → exec (.migrationSwitch die) s = .next s)
      ∧ ((s.die die).migState = 3 →
        ((∀ p ∈ s.units, p.2.ops = []) →
          ∃ t, exec (.migrationSwitch die) s = .next t ∧ t = { s with dies := t.dies, units := t.units } ∧ (t.die die).migState = 0)
        ∧ ∀ (u : Nat) (un : KUnit) (o : Op) (i : Item) (pa va cx : Nat) (k : PKind) (g : PageUse) (leaf : Leaf), s.units = [(u, un)] → un.ops = [o] → o.kind ≠ .tend → o.items = [i] → i.done = false →
          writes i.kind = true → i.locs = [.phys pa k cx va g] → src ≤ pa → pa < src + n → s.walk cx va = .ok leaf →
          (∀ e ∈ (s.die (un.core / 96)).tlb, e.ctx = cx → e.leaf.covers va = true → e.leaf = leaf) →
          ∃ t vn, exec (.migrationSwitch die) s = .next t ∧ t.mem = s.mem ∧ (t.die die).migState = 0 ∧ t.unit? u = some vn
            ∧ vn.ops = [{ o with items := [{ i with locs := [.phys (leaf.pa va) leaf.kind cx va leaf.use] }] }])
      ∧ ((s.die die).migState < 1 ∨ 3 < (s.die die).migState → exec (.migrationAbort die) s = .next s)
      ∧ (1 ≤ (s.die die).migState → (s.die die).migState ≤ 3 → src % 16 = 0 → dst % 64 = 0 →
        (∀ a, dst ≤ a → a < dst + n → s.lineBusy none a true = false) →
        ∃ t, exec (.migrationAbort die) s = .next t ∧ (t.die die).migState = 0 ∧ (∀ a, a < dst ∨ dst + n ≤ a → t.byte a = s.byte a)
          ∧ ∀ i < n / 16, NSet.has t.tags (dst / 16 + i) = true →
              NSet.has s.tags (src / 16 + i) = true ∧ ∀ j < 16, t.byte (dst + 16 * i + j) = s.byte (src + 16 * i + j))

/-- R361, R365 to R368: the routing mode follows the load window; a packet that is the next of its sender performs and is acknowledged, a later one waits for its
turn, an earlier one is not performed again; an acknowledgement performs the access it answers. A lost peer is noted, the fabric manager is told, and the module quiesces, with one unit record for
a context that has a unit; it quiesces once over each lost device, and runs again once the fabric manager clears it.
(The model's choices: log entries 41, 42 and 52.) -/
def Obligations.PeersAndQuiesce : Prop :=
  ∀ s : State,
    (∀ (die x thr : Nat) (d : Die) (mode : Bool), die < 2 → d = s.die die → thr = max d.nocThresh 1 →
      (x < thr ∧ mode = false) ∨ (thr < x ∧ mode = (d.nocRand || d.nocMode)) ∨ (x = thr ∧ mode = d.nocMode) →
      ∃ t, exec (.nocWindowExpiry die x) s = .next t ∧ t = { s with dies := t.dies } ∧ (∀ k, k ≠ die → t.die k = s.die k)
        ∧ t.die die = { d with nocMode := mode })
    ∧ (∀ (p : PeerPacket) (next : Nat), p.dev < 2048 → p.die < 2 → Map.lookD s.peerRx (2 * p.dev + p.die) ⟨0, []⟩ = ⟨next, []⟩ →
      (p.seqNo < next → ∃ t, exec (.peerPacketArrival p) s = .next t ∧ t = { s with peerRx := t.peerRx }
        ∧ Map.lookD t.peerRx (2 * p.dev + p.die) ⟨0, []⟩ = ⟨next, []⟩)
      ∧ (next < p.seqNo → ∃ t, exec (.peerPacketArrival p) s = .next t ∧ t = { s with peerRx := t.peerRx }
        ∧ Map.lookD t.peerRx (2 * p.dev + p.die) ⟨0, []⟩ = ⟨next, [p]⟩)
      ∧ ∀ (a : PeerAccess) (l : Leaf), p.seqNo = next → p.accs = [a] → s.leafAny p.ctx a.va = .ok l → s.ringBead (l.pa a.va) = none →
        s.lineBusy none (l.pa a.va) (writes a.kind) = false → s.NoPartials → 0 < a.size →
        let after := fun (t : State) (v : BitVec 128) => exec (.peerPacketArrival p) s = .next t
          ∧ t.out = s.out ++ [.peerAck p.dev p.die next a.thread v 0] ∧ Map.lookD t.peerRx (2 * p.dev + p.die) ⟨0, []⟩ = ⟨next + 1, []⟩
        (a.kind = .store → l.wr = true → ∃ t, after t 0 ∧ Stored s t (l.pa a.va) (leBytes a.size a.data.toNat))
        ∧ (a.kind = .load → l.rd = true → s.poisoned (l.pa a.va) a.size = false →
          ∃ t, after t (BitVec.ofNat 128 (leNat (s.bytes (l.pa a.va) a.size))) ∧ t.mem = s.mem)
        ∧ (∀ op, a.kind = .atom op → a.size = 4 ∨ a.size = 8 → (op = .addF → a.size = 4) → a.data.toNat < 256 ^ a.size → a.cmp.toNat < 256 ^ a.size →
          l.rd = true → l.wr = true → s.poisoned (l.pa a.va) a.size = false → let old := leNat (s.bytes (l.pa a.va) a.size)
          ∃ t, after t (BitVec.ofNat 128 old) ∧ Stored s t (l.pa a.va) (leBytes a.size (rmwValue op a.size old a.data.toNat a.cmp.toNat))))
    ∧ (∀ (u op x q dev tctx va : Nat) (val : BitVec 128) (un : KUnit) (o : Op) (i : Item) (rest : List ByteLoc), s.unit? u = some un → un.op? op = some o →
      (o.items.find? fun y => y.thread = x && !y.done) = some i → i.locs = .peer dev tctx va q :: rest → mayPerform un.ops o i = true →
      (∀ k ∈ s.unacked (un.core / 96) dev, q ≤ k) → NSet.has s.dev.lostSet dev = false → o.fails = [] →
      (reads i.kind = false → ∃ t, exec (.peerAck u op x val 0) s = .next t ∧ t = { s with units := t.units } ∧ Performed s t u op i)
      ∧ (i.kind = .load → ∀ (d : Dst) (w : Warp), o.dst = some d → d.cap = false → d.size = i.locs.length → d.size ∈ [1, 2, 4, 8] →
        d.n = max 1 (d.size / 4) → (o.items.filter fun y => y.thread = x) = [i] → val.toNat < 256 ^ d.size → s.warp? u o.warp = some w → w.live.getLsbD x = true → x < 32 →
        ∃ t v, exec (.peerAck u op x val 0) s = .next t ∧ t = { s with units := t.units, cores := t.cores } ∧ t.warp? u o.warp = some v
          ∧ (∀ k, t.core k = (if o.wideAcq = true ∧ i.tx = false then s.selfInvalidate un.core false else s).core k)
          ∧ ∀ r y, y < 32 → v.reg r y = if y = x ∧ d.reg ≤ r ∧ r < d.reg + max 1 (d.size / 4) then loadWord d.size d.sext val.toNat (r - d.reg) else w.reg r y))
    ∧ (∀ dev < 2048,
      let noted := if s.dev.lost then s.dev else { s.dev with lost := true, lostDev := dev }
      let told := s.out ++ [.peerLost dev]
      (NSet.has s.dev.lostSet dev = true → exec (.quiesceReceived dev) s = .next s ∧ exec (.peerLoss dev) s = .next { s with dev := noted, out := told })
      ∧ (NSet.has s.dev.lostSet dev = false → ∀ i d1 outs, (i = .peerLoss dev ∧ d1 = noted ∧ outs = told) ∨ (i = .quiesceReceived dev ∧ d1 = s.dev ∧ outs = s.out) →
        let d2 := { d1 with quiesced := true, lostSet := NSet.add s.dev.lostSet dev }
        s.evicted = [] → s.dev.trapEn = false →
        (s.units = [] → s.launches = [] → exec i s = .next { s with dev := d2, out := outs })
        ∧ ∀ u un, s.units = [(u, un)] → un.ops = [] → (∀ p ∈ s.launches, p.2.ctx = s.ctxOf u) →
          ∃ t, exec i s = .next t ∧ t = { s with dev := d2, out := outs, posts := t.posts, cores := t.cores } ∧ t.posts = s.posts ++
            [.unit un.core 0x3A false 0 (s.ctxOf u) 0 (BitVec.ofNat 64 dev) 0 0 (s.core un.core).serial]))
    ∧ exec .quiesceClear s = .next { s with dev := { s.dev with quiesced := false, lost := false, lostSet := [] } }

/-! ### Soft errors, the host's side, boot and power (16 R428 to R433, 17) -/

/-- R385, R428 to R433: an uncorrectable error poisons what it strikes, is counted where it lies and sets UNCORR; in a unit's own state it ends the unit; a bead's payload or header is
poisoned; at RETLIM errors a core or a slice retires: a core's resident gangs are pre-empted. A corrected error is counted and changes no value. The patrol scrubber changes no value. A failed Bridle port is retired,
and past a threshold REPLACE is set.
(The model's choices: log entries 5, 33 and 34.) -/
def Obligations.SoftErrors : Prop :=
  ∀ s : State, s.stalled = false → s.evicted = [] →
    (∀ (u : Nat) (un : KUnit) (l : Launch), s.unit? u = some un → s.launchOf u = some l → s.dev.retLim = 0 →
      (∀ off, off < l.scratch → un.barrierIn (off / 8 * 8) 8 = false →
        ∃ t vn, exec (.uncorrectableError (.scratch u off)) s = .next t ∧ t.mem = s.mem ∧ t.unit? u = some vn ∧ vn = { un with spoison := vn.spoison }
          ∧ vn.spoisoned off 1 = true ∧ t.dev.errUncorr = true
          ∧ (t.core un.core).eccU = BitVec.ofNat 32 (min ((s.core un.core).eccU.toNat + 1) 0xFFFFFFFF))
      ∧ (∀ row, row < l.acc → ∃ t vn, exec (.uncorrectableError (.accRow u row)) s = .next t ∧ t.mem = s.mem ∧ t.unit? u = some vn ∧ vn.row row = { un.row row with poison := true }
          ∧ (∀ k, k ≠ row → vn.row k = un.row k) ∧ vn.warps = un.warps ∧ t.dev.errUncorr = true
          ∧ (t.core un.core).eccU = BitVec.ofNat 32 (min ((s.core un.core).eccU.toNat + 1) 0xFFFFFFFF))
      ∧ (un.frozen = false → un.lost = false → un.mates = [] →
        ∃ t vn, exec (.uncorrectableError (.unitState u)) s = .next t ∧ t.mem = s.mem ∧ t.unit? u = some vn ∧ vn.frozen = true ∧ vn.endFault = true
          ∧ (∀ k w, Map.look vn.warps k = some w → ∀ j x, Map.look w.frags j = some x → x.status = .dead)
          ∧ t.posts = s.posts ++ [.unit un.core 0x80 true 0 l.ctx 0 0 l.lrec un.index (s.core un.core).serial] ∧ t.dev.errUncorr = true
          ∧ (t.core un.core).eccU = BitVec.ofNat 32 (min ((s.core un.core).eccU.toNat + 1) 0xFFFFFFFF)))
    ∧ (∀ (u row : Nat) (un : KUnit) (l : Launch), s.unit? u = some un → s.launchOf u = some l → row < l.acc → s.dev.retLim ≠ 0 →
        NSet.has s.dev.retCores un.core = false → s.launches.rising = true → (∀ p ∈ s.launches, p.2.st ≠ .taken ∧ p.2.st ≠ .evicted) →
        ∃ t, exec (.uncorrectableError (.accRow u row)) s = .next t ∧ t.dev.errUncorr = true
          ∧ Map.lookD t.dev.compErr (1024 + un.core) 0 = Map.lookD s.dev.compErr (1024 + un.core) 0 + 1
          ∧ (Map.lookD s.dev.compErr (1024 + un.core) 0 + 1 < s.dev.retLim → t.dev.retCores = s.dev.retCores ∧ t.launches = s.launches)
          ∧ (s.dev.retLim ≤ Map.lookD s.dev.compErr (1024 + un.core) 0 + 1 →
            t.dev.retCores = NSet.add s.dev.retCores un.core ∧ t.dev.mapCores = t.dev.retCores ∧ t.dev.errRetired = true
            ∧ ∀ n g, Map.look s.launches n = some g →
              Map.look t.launches n = some (if g.st = .resident ∧ (∃ p ∈ s.units, p.2.launch = n ∧ p.2.core = un.core)
                then { g with st := .parking, parkTime := s.time } else g)))
    ∧ (∀ pa, s.installed pa = true → ∃ t, exec (.uncorrectableError (.dram pa)) s = .next t ∧ t.mem = s.mem ∧ t.units = s.units ∧ t.poisoned pa 1 = true
        ∧ t.dev.errUncorr = true ∧ (t.die (s.holder pa)).eccU = min ((s.die (s.holder pa)).eccU + 1) 0xFFFFFFFF ∧ (t.die (s.holder pa)).eccC = (s.die (s.holder pa)).eccC)
    ∧ (∀ pa slice, s.installed pa = true → slice < 384 → slice = s.sliceOf (s.holder pa) pa → NSet.has s.dev.retSlices slice = false →
        ∃ t, exec (.uncorrectableError (.l2 slice pa)) s = .next t ∧ t.mem = s.mem ∧ t.poisoned pa 1 = true ∧ t.dev.errUncorr = true
          ∧ Map.lookD t.dev.compErr slice 0 = Map.lookD s.dev.compErr slice 0 + 1
          ∧ (t.die (s.holder pa)).eccU = min ((s.die (s.holder pa)).eccU + 1) 0xFFFFFFFF
          ∧ (s.dev.retLim ≠ 0 → s.dev.retLim ≤ Map.lookD s.dev.compErr slice 0 + 1 → NSet.has t.dev.retSlices slice = true ∧ t.dev.errRetired = true)
          ∧ (s.dev.retLim = 0 ∨ Map.lookD s.dev.compErr slice 0 + 1 < s.dev.retLim → t.dev.retSlices = s.dev.retSlices))
    ∧ (∀ core pa, s.installed pa = true → core < 192 → (∀ w, w / 2 = pa / 8 → Map.look s.regOwner w ≠ some core) →
        ∃ t, exec (.uncorrectableError (.cache core pa)) s = .next t ∧ t = { s with cores := t.cores }
          ∧ (t.core core).eccC = BitVec.ofNat 32 (min ((s.core core).eccC.toNat + 1) 0xFFFFFFFF)
          ∧ (∀ w, w / 2 = pa / 8 → Map.look (t.core core).copies w = none)
          ∧ ∀ w, w / 2 ≠ pa / 8 → Map.look (t.core core).copies w = Map.look (s.core core).copies w)
    ∧ (∀ b < 512, ∀ word, ∃ t, exec (.uncorrectableError (.bead b word)) s = .next t ∧ t.mem = s.mem ∧ t.units = s.units ∧ t.dev.errUncorr = true
        ∧ t.dev.circU = min (s.dev.circU + 1) 0xFFFFFFFF
        ∧ (∀ k, k ≠ b → t.bead k = s.bead k)
        ∧ t.bead b = (if 16 ≤ word then { s.bead b with st := .poisoned, ctx := 0 }
          else if (s.bead b).st = .vacant then { s.bead b with payload := [] } else { s.bead b with st := .poisoned }))
    ∧ (∀ core pa, core < 192 → ∃ t, exec (.correctableError (.cache core pa)) s = .next t ∧ t = { s with cores := t.cores }
        ∧ t.core core = { s.core core with eccC := BitVec.ofNat 32 (min ((s.core core).eccC.toNat + 1) 0xFFFFFFFF) } ∧ ∀ k, k ≠ core → t.core k = s.core k)
    ∧ (∀ pa, s.installed pa = true → ∃ t, exec (.correctableError (.dram pa)) s = .next t ∧ t = { s with dies := t.dies }
        ∧ (t.die (s.holder pa)).eccC = min ((s.die (s.holder pa)).eccC + 1) 0xFFFFFFFF ∧ (t.die (s.holder pa)).eccU = (s.die (s.holder pa)).eccU)
    ∧ (∀ die, exec (.patrolScrub die) s = .next s)
    ∧ ∀ port, (36 ≤ port ∨ NSet.has s.dev.retPorts port = true → exec (.bridlePortFail port) s = .next s)
      ∧ (port < 36 → NSet.has s.dev.retPorts port = false →
        ∃ t, exec (.bridlePortFail port) s = .next t ∧ t = { s with dev := t.dev, out := t.out } ∧ t.dev.retPorts = NSet.add s.dev.retPorts port ∧ t.dev.errRetired = true
          ∧ (3 ≤ s.dev.retPorts.length → t.dev.errReplace = true ∧ t.dev.healthReplace = true))

/-- R313, R315, R435 to R438: a host write through BAR4 reaches the staging buffer until boot is over, and then memory in the window, but waits on a locked line; a read gives what stands
there; a resize clears the bits of HWIN below the new size; a register is written at its own width only, and not before boot is over. A doorbell page reads HEAD and STATUS, and zero elsewhere and while its die's EN is 0.
(The model's choices: log entries 5, 7 and 44.) -/
def Obligations.HostPort : Prop :=
  ∀ s : State,
    (∀ (off : Nat) (bs : List Byte),
      (s.dev.stage ≠ 4 → off + bs.length ≤ 67108864 → ∃ t, exec (.hostBar4Write off bs) s = .next t ∧ t = { s with dev := { s.dev with staging := t.dev.staging } }
        ∧ ∀ i, Map.lookD t.dev.staging i 0#8 = if off ≤ i ∧ i < off + bs.length then bs.getD (i - off) 0#8 else Map.lookD s.dev.staging i 0#8)
      ∧ (s.dev.stage ≠ 4 → 67108864 < off + bs.length → exec (.hostBar4Write off bs) s = .next s)
      ∧ (s.dev.stage = 4 → 2 ^ s.dev.bar4 < off + bs.length → exec (.hostBar4Write off bs) s = .next s)
      ∧ (s.dev.stage = 4 → off + bs.length ≤ 2 ^ s.dev.bar4 → s.NoPartials →
        ((∃ i < bs.length, s.lineBusy none (s.dev.hwin + off + i) true = true) → exec (.hostBar4Write off bs) s = .next s)
        ∧ ((∀ i < bs.length, s.lineBusy none (s.dev.hwin + off + i) true = false ∧ s.installed (s.dev.hwin + off + i) = true) →
          ∃ t, exec (.hostBar4Write off bs) s = .next t ∧ Stored s t (s.dev.hwin + off) bs)))
    ∧ (∀ off n,
      (s.dev.stage ≠ 4 → off + n ≤ 67108864 →
        exec (.hostBar4Read off n) s = .next { s with out := s.out ++ [.barData off ((List.range n).map fun i => Map.lookD s.dev.staging (off + i) 0#8)] })
      ∧ (s.dev.stage = 4 → off + n ≤ 2 ^ s.dev.bar4 → (∃ i < n, s.lineBusy none (s.dev.hwin + off + i) false = true) → exec (.hostBar4Read off n) s = .next s)
      ∧ (s.dev.stage = 4 → off + n ≤ 2 ^ s.dev.bar4 → s.NoPartials → (∀ i < n, s.lineBusy none (s.dev.hwin + off + i) false = false) →
        (∀ i < n, s.installed (s.dev.hwin + off + i) = true ∧ Map.look s.regOwner ((s.dev.hwin + off + i) / 4) = none) →
        exec (.hostBar4Read off n) s = .next { s with out := s.out ++ [.barData off (s.bytes (s.dev.hwin + off) n)] }))
    ∧ (∀ k, (k < 28 ∨ 39 < k → exec (.bar4Resize k) s = .next s)
      ∧ (28 ≤ k → k ≤ 39 → exec (.bar4Resize k) s = .next { s with dev := { s.dev with bar4 := k, hwin := s.dev.hwin / 2 ^ k * 2 ^ k } }))
    ∧ (∀ (off size : Nat) (v : Word64),
      (s.dev.stage ≠ 4 → exec (.csrWrite off size v) s = .next s)
      ∧ (s.dev.stage = 4 →
        exec (.csrWrite 0x10 8 v) s = .next { s with dev := { s.dev with ctxt := v.toNat / 4096 % 2 ^ 40 * 4096 } }
        ∧ exec (.csrWrite 0x10 4 v) s = .next s
        ∧ exec (.csrWrite 0x18 8 v) s = .next { s with dev := { s.dev with tlbiVa := BitVec.ofNat 64 (v.toNat / 131072 % 2 ^ 39 * 131072) } }
        ∧ exec (.csrWrite 0x30 8 v) s = .next { s with dev := { s.dev with trapBase := v.toNat / 4096 % 2 ^ 52 * 4096, trapEn := v.getLsbD 0 } }
        ∧ exec (.csrWrite 0x40 8 v) s = .next { s with dev := { s.dev with retLim := v.toNat / 2 ^ 24 % 256 } }
        ∧ exec (.csrWrite 0xA0 8 v) s = .next { s with dev := { s.dev with hwin := v.toNat % 2 ^ 52 / 2 ^ s.dev.bar4 * 2 ^ s.dev.bar4 } }
        ∧ (∀ d < 2, ∃ t, exec (.csrWrite (0x1000000 * (d + 1)) 8 v) s = .next t ∧ t = { s with dies := t.dies }
          ∧ t.die d = { s.die d with qtab := v.toNat / 4096 % 2 ^ 52 * 4096, lead := v.toNat / 16 % 256, qsEn := v.getLsbD 0 }
          ∧ ∀ k, k ≠ d → t.die k = s.die k)
        ∧ ∀ c < 96, v = 0 → ∃ t, exec (.csrWrite (0x1800000 + 0x10000 * c) 8 v) s = .next t ∧ t = { s with cores := t.cores }
          ∧ t.core c = { s.core c with pmcWarp := 0 }))
    ∧ ∀ q < 8192,
      (∀ o < 4096, ∀ size, s.dev.stage ≠ 4 ∨ (s.die (q / 4096)).qsEn = false ∨ (o ≠ 4 ∧ o ≠ 24) ∨ size ≠ 4 → s.doorbell (4096 * q + o) size = 0)
      ∧ (s.dev.stage = 4 → (s.die (q / 4096)).qsEn = true → s.doorbell (4096 * q + 4) 4 = (s.queue q).head
        ∧ (s.doorbell (4096 * q + 24) 4 % 2 = 1 ↔ (s.slotOf q).isSome = true)
        ∧ (s.doorbell (4096 * q + 24) 4 / 2 % 2 = 1 ↔ (s.queue q).err = true)
        ∧ s.doorbell (4096 * q + 24) 4 / 65536 = min (s.queue q).malf 65535)

/-- R9, R432, R433, R439 to R445: power-on reset, boot stages with the verification of the two images, the identity and the retirement map that stage 1
takes from the configuration record, recovery and COMMIT; attestation takes the nonce, health and time at GO, counts its reports and signs them with both
identity keys; the clock drops by 100 MHz to 700 at the least and rises again to 1,400; a shutdown or power-off stops the device until it is reset.
(The model's choices: log entries 5, 8 and 43.) -/
def Obligations.BootPowerAttestation : Prop :=
  ∀ s : State,
    (∃ t, exec .powerOnReset s = .next t ∧ t = { State.reset with sched := s.sched, freeIx := s.freeIx, out := s.out, dev := t.dev }
      ∧ t.dev = { Dev.reset with
          flashCfg := s.dev.flashCfg, flashFw := s.dev.flashFw, cfgFloor := s.dev.cfgFloor, mapCores := s.dev.mapCores, mapSlices := s.dev.mapSlices
          mapPorts := s.dev.mapPorts }
      ∧ exec .powerOff s = .next { t with dev := { t.dev with halted := true } })
    ∧ (∀ ok, let d := s.dev
      (d.stage = 0 → exec (.bootStageComplete ok) s = .next { s with dev := { d with stage := 1 } })
      ∧ (d.stage = 1 → ∀ body, body = (Signed.of d.flashCfg).body → ∀ e, e = flashErrc d.flashCfg 1 d.cfgFloor →
          (e ≠ 0 → exec (.bootStageComplete ok) s = .next { s with dev := { d with stage := 15, errc := e } })
          ∧ (e = 0 → ∃ t, exec (.bootStageComplete ok) s = .next t ∧ t = { s with dev := t.dev, out := t.out } ∧ t.dev.stage = 2
            ∧ t.dev.retCores = d.mapCores ∧ t.dev.retSlices = d.mapSlices ∧ t.dev.retPorts = d.mapPorts
            ∧ t.dev.identity.seed = Config.identitySeed (Config.recordSecret body Config.pufKey)
            ∧ t.dev.identity.edPriv = leBytes 32 (Config.ed25519Secret t.dev.identity.seed).toNat
            ∧ t.dev.identity.edPub = ed25519Public t.dev.identity.edPriv
            ∧ (t.dev.identity.mlPriv, t.dev.identity.mlPub) = MlDsa.keyPair (leBytes 32 (Config.mlDsaSeed t.dev.identity.seed).toNat)
            ∧ t.dev.offSlices = d.mapSlices
            ∧ (3 < d.mapPorts.length → t.dev.errReplace = true ∧ t.dev.healthReplace = true)))
      ∧ (d.stage = 2 → ∀ e, e = flashErrc d.flashFw 2 (Config.recordFloor (Signed.of d.flashCfg).body 2) → exec (.bootStageComplete ok) s = .next { s with dev :=
          (if e = 0 then { d with stage := 3, fwsvn := (Signed.of d.flashFw).svn } else { d with stage := 15, errc := e }) })
      ∧ (d.stage = 3 → ok = false → exec (.bootStageComplete ok) s = .next { s with dev := { d with stage := 15, errc := 5 } })
      ∧ (d.stage = 3 → ok = true → ∃ t, exec (.bootStageComplete ok) s = .next t ∧ t.dev = { d with stage := 4 } ∧ t.poison = [] ∧ ∀ a, t.byte a = 0#8)
      ∧ (d.stage = 4 ∨ d.stage = 15 → exec (.bootStageComplete ok) s = .next s))
    ∧ (s.dev.stage ≠ 15 → exec .bootCommit s = .next s)
    ∧ (∀ (n len kind : Nat) (img : List Byte), s.dev.stage = 15 → (∀ i, i < n → img.getD i 0#8 = Map.lookD s.dev.staging i 0#8) → img.length = n →
      n = 0x1530 + len → len = leNat ((List.range 4).map fun i => Map.lookD s.dev.staging (8 + i) 0#8) → kind = 1 ∨ kind = 2 → (Signed.of img).kind = kind →
      let e := (Signed.of img).errc kind (Config.recordFloor (Signed.of s.dev.flashCfg).body kind) 67108864
      (e ≠ 0 → exec .bootCommit s = .next { s with dev := { s.dev with errc := e } })
      ∧ (e = 0 → ∃ t, exec .bootCommit s = .next t ∧ t.dev.stage = 0
        ∧ (kind = 1 → t.dev.flashCfg = img ∧ t.dev.flashFw = s.dev.flashFw
          ∧ t.dev.cfgFloor = Config.recordFloor (Signed.of s.dev.flashCfg).body 1) ∧ (kind = 2 → t.dev.flashFw = img ∧ t.dev.flashCfg = s.dev.flashCfg ∧ t.dev.cfgFloor = s.dev.cfgFloor)))
    ∧ (s.dev.attBusy = true → exec .attestGo s = .next { s with dev := { s.dev with attErr := true } })
    ∧ (s.dev.attBusy = false → exec .attestComplete s = .next s ∧ exec .attestGo s = .next { s with dev := { s.dev with
        attBusy := true, attNonce := (List.range 32).map fun i => Map.lookD s.dev.nonce i 0#8, attHealth := BitVec.ofNat 64 s.dev.health, attTime := s.time } })
    ∧ (s.dev.attBusy = true → ∃ t, exec .attestComplete s = .next t ∧ t = { s with freeIx := t.freeIx, dev := t.dev, out := t.out } ∧ t.dev.attBusy = false
        ∧ t.dev.reports = s.dev.reports + 1 ∧ t.dev.report.length = 3629
        ∧ (t.dev.report.drop 256).take 64 = ed25519Sign s.dev.identity.edPriv (t.dev.report.take 256)
        ∧ (∃ rnd : List Byte, rnd.length = 32 ∧ t.dev.report.drop 320 = padTo 3309 (MlDsa.sign s.dev.identity.mlPriv (t.dev.report.take 256) rnd))
        ∧ (s.dev.attNonce.length = 32 → (t.dev.report.drop 8).take 32 = s.dev.attNonce))
    ∧ (∀ thermal, exec (.throttleStepDown thermal) s = .next { s with dev := { s.dev with
        clk := max (s.dev.clk - 100) 700, therm := s.dev.therm || thermal, plim := s.dev.plim || !thermal } })
    ∧ (1400 ≤ s.dev.clk → exec .throttleRecovery s = .next s)
    ∧ (∀ k, s.dev.clk + 100 * k = 1400 → 0 < k → ∃ t, exec .throttleRecovery s = .next t ∧ t = { s with freeIx := s.freeIx + 1, dev := t.dev }
        ∧ s.dev.clk < t.dev.clk ∧ t.dev.clk ≤ 1400 ∧ (t.dev.clk = 1400 → t.dev.therm = false ∧ t.dev.plim = false)
        ∧ (t.dev.clk < 1400 → t.dev.therm = s.dev.therm ∧ t.dev.plim = s.dev.plim))
    ∧ exec .thermalShutdown s = .next { s with dev := { s.dev with halted := true } }
    ∧ ∀ i, s.dev.halted = true → s.sched = [.event i] → i ≠ .powerOff → i ≠ .powerOnReset → step s = .next { s with sched := [] }

/-! ### Circlet homes, issue and fragments (13, 02, 08) -/

/-- R208, R209, R379 to R383: the slice answers a boarding bead with the line's bytes and holds the line for it, refuses where another bead holds it or a migration locks it, and
waits for the lines that a transaction's commit locks; the answer reaches the bead at its boarding station; a payload that comes home is written there, or poisons the line, and the
line is free again, and a payload whose line is locked waits; CIRC_CMD drops a context's quota map, or asks for a bead's clear, which happens at station 0.
(The model's choices: log entries 19, 20 and 21.) -/
def Obligations.CircletHomes : Prop :=
  ∀ (s : State) (b : Nat),
    ((s.bead b).req = none ∨ (s.bead b).reply ≠ none → exec (.boardMarkReply b) s = .next s)
    ∧ ((s.bead b).req ≠ none → (s.bead b).reply = none → ∀ pa, pa = 64 * (s.bead b).home →
      (∀ x, s.ringBead pa = some x → x ≠ b → exec (.boardMarkReply b) s = .next { s with beads := Map.put s.beads b { s.bead b with reply := some none } })
      ∧ (s.ringBead pa = none → s.migLocked pa = true →
        exec (.boardMarkReply b) s = .next { s with beads := Map.put s.beads b { s.bead b with reply := some none } })
      ∧ (s.ringBead pa = none → s.migLocked pa = false → s.lineBusy none pa false = true → exec (.boardMarkReply b) s = .next s)
      ∧ (s.ringBead pa = none → s.migLocked pa = false → s.lineBusy none pa false = false → s.NoPartials →
        ∃ t, exec (.boardMarkReply b) s = .next t ∧ t.mem = s.mem ∧ t.ringBead pa = some b
          ∧ t.bead b = { s.bead b with reply := some (some (s.bytes pa 64, s.poisoned pa 64)) } ∧ (∀ k, k ≠ b → t.bead k = s.bead k)
          ∧ ∀ w, w / 16 = (s.bead b).home → Map.look t.regOwner w = none))
    ∧ (∀ (st u op x : Nat) (bs : List Byte) (un : KUnit) (o : Op) (w : Warp) (d : Dst), b < 512 → st < 192 → (b % 256 + s.cycle.toNat) % 256 = stationPos st →
      (s.bead b).last ≠ s.cycle.toNat + 1 → (s.bead b).st = .boarding → (s.bead b).req = some (u, op, x) → (s.bead b).bstn = st → (s.bead b).clear = false →
      (s.core (coreAt st)).station = [] → s.unit? u = some un → un.op? op = some o → o.kind = .circ (bit x) → o.dst = some d → s.warp? u o.warp = some w →
      x < 32 → w.live.getLsbD x = true →
      ((s.bead b).reply = some (some (bs, false)) → bs.length = 64 →
        ∃ t v, exec (.beadPass b st) s = .next t ∧ t.mem = s.mem ∧ (t.bead b).st = .aboard ∧ (t.bead b).req = none ∧ (t.bead b).ctx = (s.bead b).ctx
          ∧ (t.bead b).home = (s.bead b).home
          ∧ (∀ i < 16, Map.lookD (t.bead b).payload i 0#32 = BitVec.ofNat 32 (leNat ((bs.drop (4 * i)).take 4)))
          ∧ t.warp? u o.warp = some v ∧ v.reg d.reg x = 0#32)
      ∧ ((s.bead b).reply = some none → ∃ t v, exec (.beadPass b st) s = .next t ∧ t.mem = s.mem ∧ (t.bead b).st = .vacant
          ∧ t.warp? u o.warp = some v ∧ v.reg d.reg x = 2#32))
    ∧ (∀ (k : Nat) (h : HomeWrite), s.NoPartials → s.stalled = false →
      (s.homeWrites[k]? = none → exec (.alightHomeWrite k) s = .next s)
      ∧ (s.homeWrites[k]? = some h → s.lineBusy none (64 * h.line) true = true → (∀ bs, h.bytes = some bs → bs ≠ [] ∧ bs.length ≤ 64) →
        exec (.alightHomeWrite k) s = .next s)
      ∧ (s.homeWrites[k]? = some h → h.ofClear = false → s.lineBusy none (64 * h.line) true = false →
        (∀ x ∈ s.homeWrites.eraseIdx k, x.line ≠ h.line) → (∀ y, s.ringBead (64 * h.line) = some y → y = h.bead) →
        (∀ bs, h.bytes = some bs → bs.length = 64 → ∃ t, exec (.alightHomeWrite k) s = .next t ∧ Stored s t (64 * h.line) bs ∧ t.ringBead (64 * h.line) = none
          ∧ t.homeWrites = s.homeWrites.eraseIdx k)
        ∧ (h.bytes = none → ∃ t, exec (.alightHomeWrite k) s = .next t ∧ (∀ a, t.byte a = s.byte a) ∧ t.ringBead (64 * h.line) = none
          ∧ (∀ i < 64, t.poisoned (64 * h.line + i) 1 = true) ∧ t.homeWrites = s.homeWrites.eraseIdx k)
        ∧ ∀ (u op x : Nat) (un : KUnit) (o : Op) (w : Warp) (d : Dst), h.req = some (u, op, x) → s.unit? u = some un → un.op? op = some o → o.kind = .circ (bit x) →
            o.dst = some d → s.warp? u o.warp = some w → x < 32 → w.live.getLsbD x = true →
            ∃ t v vn, exec (.alightHomeWrite k) s = .next t ∧ t.warp? u o.warp = some v ∧ v.reg d.reg x = (if h.bytes = none then 1#32 else 0#32)
              ∧ t.unit? u = some vn ∧ ∀ y ∈ vn.ops, y.id = op → y.done = true))
    ∧ (s.dev.circBusy = true → ∀ n, exec (.circQuotaInvalidate n) s = .next s ∧ exec (.circClearBead n) s = .next s)
    ∧ (s.dev.circBusy = false →
      (∀ ctx < 4096, exec (.circQuotaInvalidate ctx) s = .next { s with quota := Map.del s.quota ctx })
      ∧ (b < 512 → exec (.circClearBead b) s =
          .next { s with dev := { s.dev with circBusy := true }, beads := Map.put s.beads b { s.bead b with clear := true } }))
    ∧ (b < 512 → (b % 256 + s.cycle.toNat) % 256 = stationPos 0 → (s.bead b).last ≠ s.cycle.toNat + 1 → (s.bead b).st = .aboard → (s.bead b).req = none →
      (s.bead b).clear = true → (s.core (coreAt 0)).station = [] →
      ∃ t, exec (.beadPass b 0) s = .next t ∧ t.mem = s.mem ∧ (t.bead b).st = .vacant ∧ (t.bead b).clear = false ∧ t.dev.circBusy = true
        ∧ t.homeWrites = s.homeWrites ++ [{ bead := b, line := (s.bead b).home, bytes := some (s.bead b).bytes, req := none, ofClear := true }])
    ∧ (b < 512 → (b % 256 + s.cycle.toNat) % 256 = stationPos 0 → (s.bead b).last ≠ s.cycle.toNat + 1 → (s.bead b).st = .poisoned → (s.bead b).ctx ≠ 0 →
      (s.bead b).req = none → (s.bead b).clear = true → (s.core (coreAt 0)).station = [] →
      ∃ t, exec (.beadPass b 0) s = .next t ∧ t.mem = s.mem ∧ (t.bead b).st = .vacant ∧ (t.bead b).clear = false ∧ t.dev.circBusy = true
        ∧ t.homeWrites = s.homeWrites ++ [{ bead := b, line := (s.bead b).home, bytes := none, req := none, ofClear := true }])

/-- R40, R42, R46, R47, R267, R268, R280, R337: a lane without work starts its candidate's clause: length, bindings and yield come from the header word, the threads active are those of
the guard, and the position moves to the first body word; a header that does not pass, or a word of the clause that cannot be fetched, faults the whole fragment. A parked fragment becomes runnable when its
condition holds, and one at a blocking point stays parked while a park request stands. A dead fragment that no load is to write is freed.
(The model's choices: log entries 11, 39 and 47.) -/
def Obligations.ClausesStartFragmentsWake : Prop :=
  ∀ s : State,
    (∀ (core lane u wi i : Nat) (high : Bool) (un : KUnit) (l : Launch) (w : Warp) (x : Frag), lane < 64 →
      s.laneBusy (Map.lookD (s.core core).lanes lane Lane.idle) = false → s.laneWarps core lane = [(u, wi, high, [i])] → s.unit? u = some un → un.core = core → i < 16 →
      s.launchOf u = some l → Map.look un.warps wi = some w → w.frags = [(i, x)] → x.clause = none → x.status = .runnable →
      w.lates = [] → s.candidate un l wi w x = true →
      (∀ k h, s.openClause (dieOf core) l x.pc = .clause k h → s.combineWalk l.ctx (l.text + x.pc) = s →
        ∃ t y, exec (.clauseStart core lane) s = .next t ∧ t.mem = s.mem ∧ t.frag? ⟨u, wi, i⟩ = some y ∧ y = { x with clause := some k, actm := y.actm, done := 0#32, pc := x.pc + 4, lane := true }
          ∧ (s.textWord (dieOf core) l x.pc = some h → k = { hdr := x.pc, len := h / 2 ^ 8 % 16, set1 := h / 2 ^ 16 % 16, set2 := h / 2 ^ 12 % 16, yld := decide (h / 4 % 2 = 1), ll := 0 })
          ∧ (∀ n < 32, y.actm.getLsbD n = (x.mask.getLsbD n && (decide (h / 2 ^ 7 % 2 = 0) || (w.pred (BitVec.ofNat 3 (h / 8 % 8)) n != decide (h / 64 % 2 = 1)))))
          ∧ (Map.look (t.core core).lanes lane).bind (·.cur) = some ⟨u, wi, i⟩ ∧ (t.warp? u wi).map (·.regs) = some w.regs)
      ∧ (x.mask ≠ 0#32 → ∀ cause, (s.openClause (dieOf core) l x.pc = .frame ∧ cause = 0x03)
          ∨ (∃ a, s.openClause (dieOf core) l x.pc = .unread a ∧ (((∃ p, s.leafOf (dieOf core) l.ctx (l.text + a) = .ok p) ∧ cause = 0x19)
            ∨ ((∃ m, s.leafOf (dieOf core) l.ctx (l.text + a) = .error m) ∧ cause = 0x16))) →
        ∃ t y r, exec (.clauseStart core lane) s = .next t ∧ t.mem = s.mem ∧ t.frag? ⟨u, wi, i⟩ = some y ∧ y.status = .parkedFault ∧ y.frec = some r
          ∧ r.cause = cause ∧ r.mask = x.mask))
    ∧ (∀ core lane, s.laneBusy (Map.lookD (s.core core).lanes lane Lane.idle) = true ∨ s.laneWarps core lane = [] → exec (.clauseStart core lane) s = .next s)
    ∧ (∀ (f : FragRef) (u : KUnit) (l : Launch) (x : Frag), s.unit? f.unit = some u → s.launchOf f.unit = some l → s.frag? f = some x → x.status = .parkedWait →
      let goes := ∃ t, exec (.fragmentWake f) s = .next t ∧ t = { s with units := t.units } ∧ t.frag? f = some { x with status := .runnable, wake := .none }
        ∧ ∀ g, g ≠ f → t.frag? g = s.frag? g
      let stays := exec (.fragmentWake f) s = .next s
      (∀ (needs : List Need) (remote : Bool), x.wake = .issue needs remote →
        ((∀ n ∈ needs, n.met s u f x = true) → u.parkReq = false ∨ remote = false → goes)
        ∧ ((∃ n ∈ needs, n.met s u f x = false) ∨ (u.parkReq = true ∧ remote = true) → stays))
      ∧ (∀ m : BitVec 12, x.wake = .flags m → ((∀ k < 12, m.getLsbD k = true → u.flagValue f.warp k x.mask = 0) → goes)
        ∧ ((∃ k < 12, m.getLsbD k = true ∧ u.flagValue f.warp k x.mask ≠ 0) → stays))
      ∧ (∀ (due : Prop), (∃ p n, x.wake = .path p n ∧ (due ↔ u.pathCount p ≤ n)) ∨ (∃ n, x.wake = .clock n ∧ (due ↔ n ≤ s.time.toNat))
          ∨ (∃ k m, x.wake = .chunks k m ∧ (due ↔ Map.lookD u.bitmaps k 0#64 &&& m = m)) →
        (u.parkReq = false → due → goes) ∧ (u.parkReq = true ∨ ¬ due → stays)))
    ∧ ∀ (f : FragRef) (u : KUnit) (x : Frag), s.unit? f.unit = some u → s.frag? f = some x →
      (x.status ≠ .dead → exec (.deadFragmentFree f) s = .next s)
      ∧ (x.status = .dead → (∀ o ∈ u.ops, o.warp = f.warp → o.dst = none ∨ o.pendingThreads &&& x.mask = 0#32) →
        ∃ t, exec (.deadFragmentFree f) s = .next t ∧ t = { s with units := t.units } ∧ t.frag? f = none ∧ ∀ g, g ≠ f → t.frag? g = s.frag? g)

/-! ### The whole machine -/

/-- R40, R47, R53: the step of a lane's fragment that is runnable inside a clause fetches the word at its position and is that word's meaning, with the fragment as the
executing one; words that do not decode, or cannot be fetched, fault it; faults of words it has issued are taken first (R165); a trap handler's unit of
which a warp has faulted issues none (R425). An event that may happen acts: a host's command not before boot stage 4; a tick adds one to %cycle (R33); DEV_PWR's PWR and TMAX move only where a millisecond of %time ends (Table 17.9).
(The model's choices: log entries 1, 7, 39, 43 and 49.) -/
def Obligations.StepRunsWord : Prop :=
  ∀ (s : State) (rest : List Move),
    (∀ (f : FragRef) (u : KUnit) (l : Launch) (w : Warp) (x : Frag) (ln : Lane), s.sched = .word f :: rest → s.unit? f.unit = some u → s.launchOf f.unit = some l →
      Map.look u.warps f.warp = some w → Map.look w.frags f.fidx = some x → Map.look (s.core u.core).lanes (w.slot % 64) = some ln → ln.cur = some f →
      x.status = .runnable → x.lane = true → x.clause ≠ none → x.hold = false → l.st ≠ .draining → s.dev.quiesced = false ∨ l.handler = true →
      s.dev.halted = false → (l.handler = true → ∀ g n, Post.frag g n ∈ s.posts → g.unit ≠ f.unit) →
      (s.hasLate f = true → step s = .next (({ s with sched := rest } : State).takeLate f))
      ∧ (s.hasLate f = false →
      (∀ bs i more, s.instrBytes (u.core / 96) l x.pc = some bs → decode bs = .ok (i, more) → step s = exec i { s with sched := rest, cur := some f })
      ∧ (∀ bs, s.instrBytes (u.core / 96) l x.pc = some bs → x.mask ≠ 0#32 → ∀ e cause, decode bs = .error e → (e = .illegalModifier ∧ cause = 0x02) ∨ (e ≠ .illegalModifier ∧ cause = 0x01) →
        ∃ t y r, step s = .next t ∧ t.mem = s.mem ∧ t.frag? f = some y ∧ y.status = .parkedFault ∧ y.frec = some r ∧ r.cause = cause ∧ r.mask = x.mask)
      ∧ (s.instrBytes (u.core / 96) l x.pc = none → x.mask ≠ 0#32 → ∀ a cause, a = s.unreadAt (u.core / 96) l x.pc →
          ((∃ p, s.leafOf (u.core / 96) l.ctx (l.text + a) = .ok p) ∧ cause = 0x19) ∨ ((∃ m, s.leafOf (u.core / 96) l.ctx (l.text + a) = .error m) ∧ cause = 0x16) →
          ∃ t y r, step s = .next t ∧ t.mem = s.mem ∧ t.frag? f = some y ∧ y.status = .parkedFault ∧ y.frec = some r ∧ r.cause = cause ∧ r.mask = x.mask)))
    ∧ (∀ f, s.sched = .word f :: rest → s.unit? f.unit = none → step s = .next { s with sched := rest })
    ∧ (∀ i, s.sched = .event i :: rest → encode i = [] → s.dev.halted = false → s.dev.stage = 4 ∨ hostCommand i = false →
      step s = exec i { s with sched := rest })
    ∧ (∀ i, s.sched = .event i :: rest → hostCommand i = true → s.dev.stage ≠ 4 → step s = .next { s with sched := rest })
    ∧ (∀ i, s.sched = .event i :: rest → encode i ≠ [] → step s = .next { s with sched := rest })
    ∧ (s.sched = .tick :: rest → s.dev.halted = false → s.ringDue = false → s.dev.clk ≠ 0 →
      ∃ t, step s = .next t ∧ t = { s with sched := rest, cycle := s.cycle + 1#64, time := t.time, timeRem := t.timeRem, freeIx := t.freeIx, dev := t.dev }
        ∧ t.dev = { s.dev with pwr := t.dev.pwr, tmax := t.dev.tmax }
        ∧ (s.time.toNat / timePerMs = t.time.toNat / timePerMs → t.freeIx = s.freeIx ∧ t.dev = s.dev)
        ∧ t.time = s.time + BitVec.ofNat 64 ((s.timeRem + 65536000) / s.dev.clk) ∧ t.timeRem = (s.timeRem + 65536000) % s.dev.clk)

/-- A few words written out from the encodings of 02 and 04 to 07 decode to the instructions they stand for. -/
def Obligations.DecodeWords : Prop :=
  decodeTableWord 32 0x02040840 = some (.addiI32 4 4 64)
  ∧ decodeTableWord 32 0x0E088286 = some (.isetI32 .set 2 .lt 5 (.reg 6))
  ∧ decodeTableWord 32 0x31A2858C = some (.ffmaNpF32 .rz 10 11 12)
  ∧ decodeTableWord 32 0x14030405 = some (.shliB 3 2 5)
  ∧ decodeTableWord 32 0x1B07FFFE = some (.movi 7 0xFFFE)
  ∧ decodeTableWord 64 0xFFFF64604000 = some (.xchm 1 0 (.lit 0xFFFF))
  ∧ decodeTableWord 32 0x8020C108 = some (.cbndRound 3 2 8)
  ∧ decodeTableWord 32 0xD280C200 = some (.xtile 3 4)

/-- Decoding the bytes of a well-formed word gives it back, with every operand at every value its encoding admits. -/
def Obligations.DecodeEncode : Prop :=
  ∀ i : Instr, i.wf = true → encode i ≠ [] → decode ((encode i).flatMap bytesOfWord) = .ok (i, [])

/-- R7 to R9, R13, R372, R435, R439: after power-on reset the device is at boot stage 0, nothing is resident, all memory reads zero, unpoisoned and untagged, every bead is
vacant and the registers of Table 17.3 hold their reset values; memory is in its canonical form.
(The model's choices: log entries 3 and 4.) -/
def Obligations.ResetState : Prop :=
  let s := State.reset
  s.dev.stage = 0 ∧ s.cycle = 0#64 ∧ s.time = 0#64 ∧ (∀ a, s.byte a = 0#8) ∧ s.tags = [] ∧ s.poison = [] ∧ s.units = [] ∧ s.launches = [] ∧ s.evicted = []
    ∧ (∀ b, (s.bead b).st = .vacant ∧ (s.bead b).payload = []) ∧ s.ringHeld = [] ∧ s.seqs = [] ∧ s.pages = [] ∧ s.regOwner = [] ∧ s.soloHolder = none ∧ s.stalled = false
    ∧ (∀ c, (s.core c).pmcWarp = 0#64 ∧ (s.core c).stray = 0#32 ∧ (s.core c).copies = [] ∧ (s.core c).fbuf = [])
    ∧ (∀ c, (s.core c).pmcScalar = 0#64 ∧ (s.core c).pmcBeats = 0#64 ∧ (s.core c).eccU = 0#32 ∧ (s.core c).eccC = 0#32)
    ∧ (∀ d, let x := s.die d
      x.qtab = 0 ∧ x.lead = 20 ∧ x.qsEn = false
      ∧ x.fqBase = 0 ∧ x.fqLog2n = 0 ∧ x.fqEn = false ∧ x.fqVec = 0 ∧ x.fqProd = 0 ∧ x.fqCons = 0
      ∧ x.migSrcReg = 0 ∧ x.migDstReg = 0 ∧ x.migSizeReg = 0 ∧ x.migState = 0
      ∧ x.nocRand = true ∧ x.nocThresh = 25 ∧ x.nocWin = 10 ∧ x.nocMode = false
      ∧ x.stabBase = 0 ∧ x.stabLog2n = 0 ∧ x.treeBusy = false ∧ x.treeRes = 0
      ∧ x.hmBase = 0 ∧ x.hmN = 0 ∧ x.hmHashBase = 0 ∧ x.hmHashLog2n = 0 ∧ x.hmOvfBase = 0 ∧ x.hmOvfN = 0
      ∧ x.hmScrub = 0 ∧ x.hmCrcErr = 0 ∧ x.hmLast = 0 ∧ x.hmQuery = 0 ∧ x.eccU = 0 ∧ x.eccC = 0 ∧ x.scrubPeriod = 1000
      ∧ x.tlb = [] ∧ x.slots = [] ∧ x.descs = [])
    ∧ (let x := s.dev
      x.ctxt = 0 ∧ x.tlbiVa = 0#64 ∧ x.tlbiBusy = false ∧ x.tlbiErr = false
      ∧ x.quiesced = false ∧ x.lost = false ∧ x.lostDev = 0 ∧ x.lostLim = 100 ∧ x.nmThresh = 32 ∧ x.devNum = 0 ∧ x.brRt = []
      ∧ x.trapBase = 0 ∧ x.trapEn = false
      ∧ x.errVec = 0 ∧ x.errReplace = false ∧ x.errRetired = false ∧ x.errHfail = false ∧ x.errUncorr = false ∧ x.healthReplace = false ∧ x.retLim = 4
      ∧ x.circTab = 0 ∧ x.circBusy = false ∧ x.circOp = 0 ∧ x.circArg = 0 ∧ x.circU = 0 ∧ x.circC = 0
      ∧ x.errc = 0 ∧ x.fwsvn = 0 ∧ x.clk = 1400 ∧ x.therm = false ∧ x.plim = false ∧ x.pwr = 0 ∧ x.tmax = 0
      ∧ x.attBusy = false ∧ x.attErr = false ∧ x.attVec = 0 ∧ x.reports = 0 ∧ x.nonce = [] ∧ x.hwin = 0 ∧ x.bar4 = 28)
    ∧ Memory.wf s.mem = true

/-- Every step keeps memory in its canonical form: addresses rise strictly and no entry holds what an unlisted address reads as. And no step leaves
a write half done: the mark of a write that had to wait is clear again when the step ends (R298, R304).
(The model's choices: log entries 4 and 64.) -/
def Obligations.StepKeepsMemoryCanonical : Prop :=
  ∀ s t : State, step s = .next t → (Memory.wf s.mem = true → Memory.wf t.mem = true) ∧ (s.stalled = false → t.stalled = false)

/-- Every step of every state answers a next state: no word and no event stops the machine.
(The model's choices: log entry 1.) -/
def Obligations.EveryStepGoesOn : Prop :=
  ∀ s : State, ∃ t, step s = .next t

/-- R33: nothing but a tick moves %cycle and %time, but for the resets of the device (power-on reset, power-off, an accepted COMMIT), which clear them.
(The model's choices: log entries 1 and 53.) -/
def Obligations.OnlyTicksMoveTime : Prop :=
  ∀ (s t : State) (m : Move) (rest : List Move), s.sched = m :: rest → step s = .next t →
    (m ≠ .tick → m ≠ .event .powerOnReset → m ≠ .event .powerOff → m ≠ .event .bootCommit → t.cycle = s.cycle ∧ t.time = s.time)
    ∧ (m = .tick → (t.cycle = s.cycle ∧ t.time = s.time) ∨ t.cycle = s.cycle + 1#64)

end
end

