-- ==== Sys2Proof/Laws/Map.lean ====
section
/-! SUPPORT. What the operations of `Map`, of sets of numbers and of thread masks do. -/
namespace Sys2Proof.Machine

variable {α β : Type}

/-! ### Look, put, delete, edit -/

@[simp] theorem Map.look_nil (n : Nat) : Map.look ([] : Map α) n = none := rfl

theorem Map.look_cons (k : Nat) (v : α) (t : Map α) (n : Nat) :
    Map.look ((k, v) :: t) n = if k = n then some v else Map.look t n := rfl

theorem Map.look_put (m : Map α) (n k : Nat) (x : α) :
    Map.look (Map.put m n x) k = if k = n then some x else Map.look m k := by
  induction m with
  | nil => simp only [Map.put, Map.look_cons, Map.look_nil, eq_comm]
  | cons p t ih =>
    obtain ⟨a, v⟩ := p
    simp only [Map.put]
    by_cases hk : k = n
    · subst hk
      rw [if_pos rfl] at ih ⊢
      split_ifs with h1 h2
      · simp [Map.look_cons]
      · simp [Map.look_cons]
      · simp only [Map.look_cons, ih, if_neg (Ne.symm h2)]
    · have hk' : ¬ n = k := fun h => hk h.symm
      rw [if_neg hk] at ih ⊢
      split_ifs with h1 h2
      · simp [Map.look_cons, hk']
      · simp [Map.look_cons, hk', ← h2]
      · simp only [Map.look_cons, ih]

@[simp] theorem Map.look_put_self (m : Map α) (n : Nat) (x : α) : Map.look (Map.put m n x) n = some x := by
  simp [Map.look_put]

theorem Map.look_put_ne (m : Map α) {n k : Nat} (x : α) (h : k ≠ n) : Map.look (Map.put m n x) k = Map.look m k := by
  simp [Map.look_put, h]

theorem Map.look_del (m : Map α) (n k : Nat) : Map.look (Map.del m n) k = if k = n then none else Map.look m k := by
  induction m with
  | nil => simp [Map.del]
  | cons p t ih =>
    obtain ⟨a, v⟩ := p
    simp only [Map.del]
    by_cases hk : k = n
    · subst hk
      rw [if_pos rfl] at ih ⊢
      split_ifs with h1
      · exact ih
      · simpa [Map.look_cons, h1] using ih
    · rw [if_neg hk] at ih ⊢
      split_ifs with h1
      · have : ¬ a = k := fun h => hk (by omega)
        simpa [Map.look_cons, this] using ih
      · simp only [Map.look_cons, ih]

@[simp] theorem Map.look_del_self (m : Map α) (n : Nat) : Map.look (Map.del m n) n = none := by simp [Map.look_del]

theorem Map.look_edit (m : Map α) (n k : Nat) (f : α → α) :
    Map.look (Map.edit m n f) k = if k = n then (Map.look m k).map f else Map.look m k := by
  unfold Map.edit
  cases h : Map.look m n with
  | none => split_ifs with hk <;> simp_all
  | some v => simp only [Map.look_put]; split_ifs with hk <;> simp_all

theorem Map.look_edit_self (m : Map α) (n : Nat) (f : α → α) : Map.look (Map.edit m n f) n = (Map.look m n).map f := by
  simp [Map.look_edit]

theorem Map.look_edit_ne (m : Map α) {n k : Nat} (f : α → α) (h : k ≠ n) : Map.look (Map.edit m n f) k = Map.look m k := by
  simp [Map.look_edit, h]

theorem Map.lookD_put (m : Map α) (n k : Nat) (x d : α) :
    Map.lookD (Map.put m n x) k d = if k = n then x else Map.lookD m k d := by
  simp only [Map.lookD, Map.look_put]; split_ifs <;> rfl

/-- Reading after a write of a map with a default. -/
theorem Map.lookD_putD [DecidableEq α] (m : Map α) (n k : Nat) (x d : α) :
    Map.lookD (Map.putD m n x d) k d = if k = n then x else Map.lookD m k d := by
  unfold Map.putD
  by_cases h : x = d
  · simp only [if_pos h, Map.lookD, Map.look_del]; split_ifs <;> simp [h]
  · simp only [if_neg h, Map.lookD_put]

@[simp] theorem Map.lookD_putD_self [DecidableEq α] (m : Map α) (n : Nat) (x d : α) :
    Map.lookD (Map.putD m n x d) n d = x := by simp [Map.lookD_putD]

theorem Map.lookD_putD_ne [DecidableEq α] (m : Map α) {n k : Nat} (x d : α) (h : k ≠ n) :
    Map.lookD (Map.putD m n x d) k d = Map.lookD m k d := by simp [Map.lookD_putD, h]

theorem Map.look_each (m : Map α) (f : Nat → α → β) (n : Nat) : Map.look (Map.each m f) n = (Map.look m n).map (f n) := by
  induction m with
  | nil => rfl
  | cons p t ih =>
    obtain ⟨a, v⟩ := p
    simp only [Map.each, List.map_cons, Map.look_cons] at *
    split_ifs with h
    · subst h; rfl
    · exact ih

theorem Map.has_put (m : Map α) (n k : Nat) (x : α) : Map.has (Map.put m n x) k = (decide (k = n) || Map.has m k) := by
  simp only [Map.has, Map.look_put]; split_ifs with h <;> simp [h]

theorem Map.put_put (m : Map α) (n : Nat) (x y : α) : Map.put (Map.put m n x) n y = Map.put m n y := by
  induction m with
  | nil => simp [Map.put]
  | cons p t ih =>
    obtain ⟨a, v⟩ := p
    simp only [Map.put]
    split_ifs with h1 h2
    · simp [Map.put]
    · simp [Map.put]
    · simp only [Map.put, if_neg h1, if_neg h2, ih]

theorem Map.edit_edit (m : Map α) (n : Nat) (f g : α → α) : Map.edit (Map.edit m n f) n g = Map.edit m n fun x => g (f x) := by
  unfold Map.edit
  cases h : Map.look m n with
  | none => simp [h]
  | some v => simp [Map.put_put]

/-! ### The rising form -/

/-- `k` lies below every key. -/
def Map.below (k : Nat) (m : Map α) : Prop := ∀ p ∈ m, k < p.1

theorem Map.rising_cons (k : Nat) (v : α) (m : Map α) :
    Map.rising ((k, v) :: m) = true ↔ Map.below k m ∧ Map.rising m = true := by
  induction m generalizing k v with
  | nil => simp [Map.rising, Map.below]
  | cons p t ih =>
    obtain ⟨a, w⟩ := p
    simp only [Map.rising, Bool.and_eq_true, decide_eq_true_eq]
    constructor
    · rintro ⟨h, hr⟩
      refine ⟨?_, hr⟩
      intro q hq
      rcases List.mem_cons.1 hq with rfl | hq
      · exact h
      · exact lt_trans h ((ih a w).1 hr |>.1 q hq)
    · rintro ⟨hb, hr⟩
      exact ⟨hb (a, w) (by simp), hr⟩

theorem Map.mem_put {m : Map α} {n : Nat} {x : α} {p : Nat × α} (h : p ∈ Map.put m n x) : p = (n, x) ∨ p ∈ m := by
  induction m with
  | nil => simpa [Map.put] using h
  | cons q t ih =>
    obtain ⟨a, v⟩ := q
    simp only [Map.put] at h
    split_ifs at h <;> simp only [List.mem_cons] at h ⊢ <;> tauto

theorem Map.rising_put (m : Map α) (n : Nat) (x : α) (h : Map.rising m = true) : Map.rising (Map.put m n x) = true := by
  induction m with
  | nil => rfl
  | cons q t ih =>
    obtain ⟨a, v⟩ := q
    obtain ⟨hb, hr⟩ := (Map.rising_cons a v t).1 h
    simp only [Map.put]
    split_ifs with h1 h2
    · refine (Map.rising_cons _ _ _).2 ⟨?_, h⟩
      intro p hp
      rcases List.mem_cons.1 hp with rfl | hp
      · exact h1
      · exact lt_trans h1 (hb p hp)
    · subst h2; exact (Map.rising_cons _ _ _).2 ⟨hb, hr⟩
    · refine (Map.rising_cons _ _ _).2 ⟨?_, ih hr⟩
      intro p hp
      rcases Map.mem_put hp with rfl | hp
      · show a < n; omega
      · exact hb p hp

theorem Map.mem_del {m : Map α} {n : Nat} {p : Nat × α} (h : p ∈ Map.del m n) : p ∈ m := by
  induction m with
  | nil => simp [Map.del] at h
  | cons q t ih =>
    obtain ⟨a, v⟩ := q
    simp only [Map.del] at h
    split_ifs at h
    · exact List.mem_cons_of_mem _ (ih h)
    · rcases List.mem_cons.1 h with rfl | h
      · simp
      · exact List.mem_cons_of_mem _ (ih h)

theorem Map.rising_del (m : Map α) (n : Nat) (h : Map.rising m = true) : Map.rising (Map.del m n) = true := by
  induction m with
  | nil => rfl
  | cons q t ih =>
    obtain ⟨a, v⟩ := q
    obtain ⟨hb, hr⟩ := (Map.rising_cons a v t).1 h
    simp only [Map.del]
    split_ifs
    · exact ih hr
    · exact (Map.rising_cons _ _ _).2 ⟨fun p hp => hb p (Map.mem_del hp), ih hr⟩

theorem Map.rising_edit (m : Map α) (n : Nat) (f : α → α) (h : Map.rising m = true) : Map.rising (Map.edit m n f) = true := by
  unfold Map.edit; split
  · exact Map.rising_put _ _ _ h
  · exact h

theorem Map.rising_putD [DecidableEq α] (m : Map α) (n : Nat) (x d : α) (h : Map.rising m = true) :
    Map.rising (Map.putD m n x d) = true := by
  unfold Map.putD; split_ifs
  · exact Map.rising_del _ _ h
  · exact Map.rising_put _ _ _ h

/-! ### Masks of threads -/

theorem bit_getLsbD (t i : Nat) (h : i < 32) : (bit t).getLsbD i = decide (i = t) := by
  simp only [bit, BitVec.getLsbD_shiftLeft, BitVec.getLsbD_one, h, decide_true, Bool.true_and]
  by_cases h1 : i = t
  · simp [h1]
  · by_cases h2 : i < t
    · simp [h1, h2]
    · have : i - t ≠ 0 := by omega
      simp [h1, this]

theorem mem_threads {m : Mask} {t : Nat} : t ∈ threads m ↔ t < 32 ∧ m.getLsbD t = true := by simp [threads]

theorem threads_nodup (m : Mask) : (threads m).Nodup := List.Nodup.filter _ List.nodup_range

theorem allThreads_getLsbD (t : Nat) (h : t < 32) : allThreads.getLsbD t = true := by
  revert h; revert t; decide

theorem threads_zero : threads 0#32 = [] := by decide

end Sys2Proof.Machine
end

