-- ==== Sys2Proof/Laws/Access.lean ====
section
/-! SUPPORT. The memory words and the checks of R164: every one runs its access, and the checks of `Ctx.early` are those of
`Ctx.test`, in their order. -/
namespace Sys2Proof.Machine

set_option maxHeartbeats 4000000 in
/-- Each memory word of 05 and 06 runs its access. -/
theorem accessOf_run {i : Instr} {m : MemIns} (h : accessOf i = some m) (s : State) : exec i s = m.run s := by
  cases i <;> simp only [accessOf, reduceCtorEq, Option.some.injEq] at h <;> subst h <;>
    refine congrFun (congrArg MemIns.run ?_) s <;> first
    | rfl
    | (rename_i sc _ _; cases sc <;> rfl)

/-- No barrier word stands in a span of scratchpad. -/
theorem barrierIn_false (u : KUnit) (off n : Nat) :
    u.barrierIn off n = false ↔ ∀ b ∈ Map.keys u.bars, off + n ≤ b ∨ b + 16 ≤ off := by
  unfold KUnit.barrierIn
  rw [List.any_eq_false]
  constructor <;> intro h b hb <;> have := h b hb <;> simp at this ⊢ <;> omega

/-- A set has a number that it lists. -/
theorem NSet.has_iff (s : NSet) (n : Nat) : NSet.has s n = true ↔ n ∈ s := by
  unfold NSet.has; simp

/-- A chain of checks finds nothing where the first does not fail and the rest finds nothing. -/
theorem check_none {p : Prop} [Decidable p] {x : Nat} {y : Option Nat} : (if p then some x else y) = none ↔ ¬p ∧ y = none := by
  split <;> simp [*]

/-- Where checks 1 to 6 of R164 find nothing, each of them holds. -/
theorem tests_of_early {c : Ctx} {s : State} {w : Want} {mr : MemRef} {stag : Bool} {t : Nat}
    (h : c.early s w (c.cap mr.c t) (c.capTag mr.c t) stag (c.addr mr t) = none) : ∀ n < 7, c.test s w mr stag t n := by
  unfold Ctx.early at h
  simp only [check_none] at h
  obtain ⟨h0, h1, h2, h3, h4, h5, h6, -⟩ := h
  intro n hn
  interval_cases n
  · simp [Cap.ok] at h0
    exact ⟨h0.1, fun hb => by simp [hb] at h0, h0.2.2⟩
  · simp at h1
    obtain ⟨⟨⟨⟨⟨a1, a2⟩, a3⟩, a4⟩, a5⟩, a6⟩ := h1
    refine ⟨a1, a3, fun hs => ?_, a5⟩
    obtain ⟨⟨b1, b2⟩, b3⟩ := a4 hs
    rw [Nat.mod_eq_of_lt (by omega)] at b2 b3
    refine ⟨b1, b2, fun hm => ?_⟩
    have e := (NSet.has_iff _ _).2 hm
    simp only [show (2 : Nat) ^ 19 = 524288 from rfl] at e
    rw [e] at b3; nomatch b3
  · simp at h2
    exact ⟨h2.1, fun ht => by have := h2.2 ht; tauto⟩
  · simp only [Bool.or_eq_true, not_or, Bool.not_eq_true', Bool.not_eq_false, Bool.and_eq_true, decide_eq_true_eq] at h3
    constructor
    · cases hb : (c.cap mr.c t).bounds with
      | none => simp [hb] at h3
      | some p => simp [hb] at h3; exact ⟨p.1, p.2, rfl, h3.1.1, h3.1.2⟩
    · intro hs; have := h3.2; omega
  · intro ha; simp [ha] at h4; exact h4
  · intro a b d
    simp only [a, b, Bool.true_and, Bool.and_eq_true, Bool.or_eq_true, decide_eq_true_eq, Bool.not_eq_true', not_and, Bool.not_eq_false] at h5
    exact h5 (by tauto)
  · intro a b x hx
    refine (barrierIn_false _ _ _).1 ?_
    by_contra hc
    simp only [Bool.not_eq_false] at hc
    apply h6
    simp only [a, hx, Option.map_some, Option.getD_some, Bool.true_and, Bool.and_eq_true, Bool.or_eq_true, decide_eq_true_eq]
    exact ⟨b, hc⟩

end Sys2Proof.Machine
end

