-- ==== Sys2Proof/Laws/State.lean ====
section
/-! SUPPORT. What each update of the state does to each field, one lemma per field, true by definition; and how the parts of the state
read after a part is changed. -/
namespace Sys2Proof.Machine


/-! ### `State.setCore` -/

@[simp] theorem State.setCore_sched (s : State) (k : Nat) (v : CoreSt) : (s.setCore k v).sched = s.sched := rfl
@[simp] theorem State.setCore_cur (s : State) (k : Nat) (v : CoreSt) : (s.setCore k v).cur = s.cur := rfl
@[simp] theorem State.setCore_freeIx (s : State) (k : Nat) (v : CoreSt) : (s.setCore k v).freeIx = s.freeIx := rfl
@[simp] theorem State.setCore_stalled (s : State) (k : Nat) (v : CoreSt) : (s.setCore k v).stalled = s.stalled := rfl
@[simp] theorem State.setCore_cycle (s : State) (k : Nat) (v : CoreSt) : (s.setCore k v).cycle = s.cycle := rfl
@[simp] theorem State.setCore_time (s : State) (k : Nat) (v : CoreSt) : (s.setCore k v).time = s.time := rfl
@[simp] theorem State.setCore_timeRem (s : State) (k : Nat) (v : CoreSt) : (s.setCore k v).timeRem = s.timeRem := rfl
@[simp] theorem State.setCore_mem (s : State) (k : Nat) (v : CoreSt) : (s.setCore k v).mem = s.mem := rfl
@[simp] theorem State.setCore_tags (s : State) (k : Nat) (v : CoreSt) : (s.setCore k v).tags = s.tags := rfl
@[simp] theorem State.setCore_tagBy (s : State) (k : Nat) (v : CoreSt) : (s.setCore k v).tagBy = s.tagBy := rfl
@[simp] theorem State.setCore_poison (s : State) (k : Nat) (v : CoreSt) : (s.setCore k v).poison = s.poison := rfl
@[simp] theorem State.setCore_memMap (s : State) (k : Nat) (v : CoreSt) : (s.setCore k v).memMap = s.memMap := rfl
@[simp] theorem State.setCore_regOwner (s : State) (k : Nat) (v : CoreSt) : (s.setCore k v).regOwner = s.regOwner := rfl
@[simp] theorem State.setCore_slice (s : State) (k : Nat) (v : CoreSt) : (s.setCore k v).slice = s.slice := rfl
@[simp] theorem State.setCore_units (s : State) (k : Nat) (v : CoreSt) : (s.setCore k v).units = s.units := rfl
@[simp] theorem State.setCore_nextUnit (s : State) (k : Nat) (v : CoreSt) : (s.setCore k v).nextUnit = s.nextUnit := rfl
@[simp] theorem State.setCore_evicted (s : State) (k : Nat) (v : CoreSt) : (s.setCore k v).evicted = s.evicted := rfl
@[simp] theorem State.setCore_dies (s : State) (k : Nat) (v : CoreSt) : (s.setCore k v).dies = s.dies := rfl
@[simp] theorem State.setCore_dev (s : State) (k : Nat) (v : CoreSt) : (s.setCore k v).dev = s.dev := rfl
@[simp] theorem State.setCore_launches (s : State) (k : Nat) (v : CoreSt) : (s.setCore k v).launches = s.launches := rfl
@[simp] theorem State.setCore_nextLaunch (s : State) (k : Nat) (v : CoreSt) : (s.setCore k v).nextLaunch = s.nextLaunch := rfl
@[simp] theorem State.setCore_queues (s : State) (k : Nat) (v : CoreSt) : (s.setCore k v).queues = s.queues := rfl
@[simp] theorem State.setCore_records (s : State) (k : Nat) (v : CoreSt) : (s.setCore k v).records = s.records := rfl
@[simp] theorem State.setCore_soloHolder (s : State) (k : Nat) (v : CoreSt) : (s.setCore k v).soloHolder = s.soloHolder := rfl
@[simp] theorem State.setCore_soloQueue (s : State) (k : Nat) (v : CoreSt) : (s.setCore k v).soloQueue = s.soloQueue := rfl
@[simp] theorem State.setCore_posts (s : State) (k : Nat) (v : CoreSt) : (s.setCore k v).posts = s.posts := rfl
@[simp] theorem State.setCore_repairs (s : State) (k : Nat) (v : CoreSt) : (s.setCore k v).repairs = s.repairs := rfl
@[simp] theorem State.setCore_handlers (s : State) (k : Nat) (v : CoreSt) : (s.setCore k v).handlers = s.handlers := rfl
@[simp] theorem State.setCore_beads (s : State) (k : Nat) (v : CoreSt) : (s.setCore k v).beads = s.beads := rfl
@[simp] theorem State.setCore_ringHeld (s : State) (k : Nat) (v : CoreSt) : (s.setCore k v).ringHeld = s.ringHeld := rfl
@[simp] theorem State.setCore_homeWrites (s : State) (k : Nat) (v : CoreSt) : (s.setCore k v).homeWrites = s.homeWrites := rfl
@[simp] theorem State.setCore_quota (s : State) (k : Nat) (v : CoreSt) : (s.setCore k v).quota = s.quota := rfl
@[simp] theorem State.setCore_seqs (s : State) (k : Nat) (v : CoreSt) : (s.setCore k v).seqs = s.seqs := rfl
@[simp] theorem State.setCore_treeQ (s : State) (k : Nat) (v : CoreSt) : (s.setCore k v).treeQ = s.treeQ := rfl
@[simp] theorem State.setCore_pages (s : State) (k : Nat) (v : CoreSt) : (s.setCore k v).pages = s.pages := rfl
@[simp] theorem State.setCore_kills (s : State) (k : Nat) (v : CoreSt) : (s.setCore k v).kills = s.kills := rfl
@[simp] theorem State.setCore_copies (s : State) (k : Nat) (v : CoreSt) : (s.setCore k v).copies = s.copies := rfl
@[simp] theorem State.setCore_shoots (s : State) (k : Nat) (v : CoreSt) : (s.setCore k v).shoots = s.shoots := rfl
@[simp] theorem State.setCore_peerSeq (s : State) (k : Nat) (v : CoreSt) : (s.setCore k v).peerSeq = s.peerSeq := rfl
@[simp] theorem State.setCore_peerRx (s : State) (k : Nat) (v : CoreSt) : (s.setCore k v).peerRx = s.peerRx := rfl
@[simp] theorem State.setCore_out (s : State) (k : Nat) (v : CoreSt) : (s.setCore k v).out = s.out := rfl

/-! ### `State.editCore` -/

@[simp] theorem State.editCore_sched (s : State) (k : Nat) (g : CoreSt → CoreSt) : (s.editCore k g).sched = s.sched := rfl
@[simp] theorem State.editCore_cur (s : State) (k : Nat) (g : CoreSt → CoreSt) : (s.editCore k g).cur = s.cur := rfl
@[simp] theorem State.editCore_freeIx (s : State) (k : Nat) (g : CoreSt → CoreSt) : (s.editCore k g).freeIx = s.freeIx := rfl
@[simp] theorem State.editCore_stalled (s : State) (k : Nat) (g : CoreSt → CoreSt) : (s.editCore k g).stalled = s.stalled := rfl
@[simp] theorem State.editCore_cycle (s : State) (k : Nat) (g : CoreSt → CoreSt) : (s.editCore k g).cycle = s.cycle := rfl
@[simp] theorem State.editCore_time (s : State) (k : Nat) (g : CoreSt → CoreSt) : (s.editCore k g).time = s.time := rfl
@[simp] theorem State.editCore_timeRem (s : State) (k : Nat) (g : CoreSt → CoreSt) : (s.editCore k g).timeRem = s.timeRem := rfl
@[simp] theorem State.editCore_mem (s : State) (k : Nat) (g : CoreSt → CoreSt) : (s.editCore k g).mem = s.mem := rfl
@[simp] theorem State.editCore_tags (s : State) (k : Nat) (g : CoreSt → CoreSt) : (s.editCore k g).tags = s.tags := rfl
@[simp] theorem State.editCore_tagBy (s : State) (k : Nat) (g : CoreSt → CoreSt) : (s.editCore k g).tagBy = s.tagBy := rfl
@[simp] theorem State.editCore_poison (s : State) (k : Nat) (g : CoreSt → CoreSt) : (s.editCore k g).poison = s.poison := rfl
@[simp] theorem State.editCore_memMap (s : State) (k : Nat) (g : CoreSt → CoreSt) : (s.editCore k g).memMap = s.memMap := rfl
@[simp] theorem State.editCore_regOwner (s : State) (k : Nat) (g : CoreSt → CoreSt) : (s.editCore k g).regOwner = s.regOwner := rfl
@[simp] theorem State.editCore_slice (s : State) (k : Nat) (g : CoreSt → CoreSt) : (s.editCore k g).slice = s.slice := rfl
@[simp] theorem State.editCore_units (s : State) (k : Nat) (g : CoreSt → CoreSt) : (s.editCore k g).units = s.units := rfl
@[simp] theorem State.editCore_nextUnit (s : State) (k : Nat) (g : CoreSt → CoreSt) : (s.editCore k g).nextUnit = s.nextUnit := rfl
@[simp] theorem State.editCore_evicted (s : State) (k : Nat) (g : CoreSt → CoreSt) : (s.editCore k g).evicted = s.evicted := rfl
@[simp] theorem State.editCore_dies (s : State) (k : Nat) (g : CoreSt → CoreSt) : (s.editCore k g).dies = s.dies := rfl
@[simp] theorem State.editCore_dev (s : State) (k : Nat) (g : CoreSt → CoreSt) : (s.editCore k g).dev = s.dev := rfl
@[simp] theorem State.editCore_launches (s : State) (k : Nat) (g : CoreSt → CoreSt) : (s.editCore k g).launches = s.launches := rfl
@[simp] theorem State.editCore_nextLaunch (s : State) (k : Nat) (g : CoreSt → CoreSt) : (s.editCore k g).nextLaunch = s.nextLaunch := rfl
@[simp] theorem State.editCore_queues (s : State) (k : Nat) (g : CoreSt → CoreSt) : (s.editCore k g).queues = s.queues := rfl
@[simp] theorem State.editCore_records (s : State) (k : Nat) (g : CoreSt → CoreSt) : (s.editCore k g).records = s.records := rfl
@[simp] theorem State.editCore_soloHolder (s : State) (k : Nat) (g : CoreSt → CoreSt) : (s.editCore k g).soloHolder = s.soloHolder := rfl
@[simp] theorem State.editCore_soloQueue (s : State) (k : Nat) (g : CoreSt → CoreSt) : (s.editCore k g).soloQueue = s.soloQueue := rfl
@[simp] theorem State.editCore_posts (s : State) (k : Nat) (g : CoreSt → CoreSt) : (s.editCore k g).posts = s.posts := rfl
@[simp] theorem State.editCore_repairs (s : State) (k : Nat) (g : CoreSt → CoreSt) : (s.editCore k g).repairs = s.repairs := rfl
@[simp] theorem State.editCore_handlers (s : State) (k : Nat) (g : CoreSt → CoreSt) : (s.editCore k g).handlers = s.handlers := rfl
@[simp] theorem State.editCore_beads (s : State) (k : Nat) (g : CoreSt → CoreSt) : (s.editCore k g).beads = s.beads := rfl
@[simp] theorem State.editCore_ringHeld (s : State) (k : Nat) (g : CoreSt → CoreSt) : (s.editCore k g).ringHeld = s.ringHeld := rfl
@[simp] theorem State.editCore_homeWrites (s : State) (k : Nat) (g : CoreSt → CoreSt) : (s.editCore k g).homeWrites = s.homeWrites := rfl
@[simp] theorem State.editCore_quota (s : State) (k : Nat) (g : CoreSt → CoreSt) : (s.editCore k g).quota = s.quota := rfl
@[simp] theorem State.editCore_seqs (s : State) (k : Nat) (g : CoreSt → CoreSt) : (s.editCore k g).seqs = s.seqs := rfl
@[simp] theorem State.editCore_treeQ (s : State) (k : Nat) (g : CoreSt → CoreSt) : (s.editCore k g).treeQ = s.treeQ := rfl
@[simp] theorem State.editCore_pages (s : State) (k : Nat) (g : CoreSt → CoreSt) : (s.editCore k g).pages = s.pages := rfl
@[simp] theorem State.editCore_kills (s : State) (k : Nat) (g : CoreSt → CoreSt) : (s.editCore k g).kills = s.kills := rfl
@[simp] theorem State.editCore_copies (s : State) (k : Nat) (g : CoreSt → CoreSt) : (s.editCore k g).copies = s.copies := rfl
@[simp] theorem State.editCore_shoots (s : State) (k : Nat) (g : CoreSt → CoreSt) : (s.editCore k g).shoots = s.shoots := rfl
@[simp] theorem State.editCore_peerSeq (s : State) (k : Nat) (g : CoreSt → CoreSt) : (s.editCore k g).peerSeq = s.peerSeq := rfl
@[simp] theorem State.editCore_peerRx (s : State) (k : Nat) (g : CoreSt → CoreSt) : (s.editCore k g).peerRx = s.peerRx := rfl
@[simp] theorem State.editCore_out (s : State) (k : Nat) (g : CoreSt → CoreSt) : (s.editCore k g).out = s.out := rfl

/-! ### `State.editUnit` -/

@[simp] theorem State.editUnit_sched (s : State) (u : Nat) (g : KUnit → KUnit) : (s.editUnit u g).sched = s.sched := rfl
@[simp] theorem State.editUnit_cur (s : State) (u : Nat) (g : KUnit → KUnit) : (s.editUnit u g).cur = s.cur := rfl
@[simp] theorem State.editUnit_freeIx (s : State) (u : Nat) (g : KUnit → KUnit) : (s.editUnit u g).freeIx = s.freeIx := rfl
@[simp] theorem State.editUnit_stalled (s : State) (u : Nat) (g : KUnit → KUnit) : (s.editUnit u g).stalled = s.stalled := rfl
@[simp] theorem State.editUnit_cycle (s : State) (u : Nat) (g : KUnit → KUnit) : (s.editUnit u g).cycle = s.cycle := rfl
@[simp] theorem State.editUnit_time (s : State) (u : Nat) (g : KUnit → KUnit) : (s.editUnit u g).time = s.time := rfl
@[simp] theorem State.editUnit_timeRem (s : State) (u : Nat) (g : KUnit → KUnit) : (s.editUnit u g).timeRem = s.timeRem := rfl
@[simp] theorem State.editUnit_mem (s : State) (u : Nat) (g : KUnit → KUnit) : (s.editUnit u g).mem = s.mem := rfl
@[simp] theorem State.editUnit_tags (s : State) (u : Nat) (g : KUnit → KUnit) : (s.editUnit u g).tags = s.tags := rfl
@[simp] theorem State.editUnit_tagBy (s : State) (u : Nat) (g : KUnit → KUnit) : (s.editUnit u g).tagBy = s.tagBy := rfl
@[simp] theorem State.editUnit_poison (s : State) (u : Nat) (g : KUnit → KUnit) : (s.editUnit u g).poison = s.poison := rfl
@[simp] theorem State.editUnit_memMap (s : State) (u : Nat) (g : KUnit → KUnit) : (s.editUnit u g).memMap = s.memMap := rfl
@[simp] theorem State.editUnit_regOwner (s : State) (u : Nat) (g : KUnit → KUnit) : (s.editUnit u g).regOwner = s.regOwner := rfl
@[simp] theorem State.editUnit_slice (s : State) (u : Nat) (g : KUnit → KUnit) : (s.editUnit u g).slice = s.slice := rfl
@[simp] theorem State.editUnit_nextUnit (s : State) (u : Nat) (g : KUnit → KUnit) : (s.editUnit u g).nextUnit = s.nextUnit := rfl
@[simp] theorem State.editUnit_evicted (s : State) (u : Nat) (g : KUnit → KUnit) : (s.editUnit u g).evicted = s.evicted := rfl
@[simp] theorem State.editUnit_cores (s : State) (u : Nat) (g : KUnit → KUnit) : (s.editUnit u g).cores = s.cores := rfl
@[simp] theorem State.editUnit_dies (s : State) (u : Nat) (g : KUnit → KUnit) : (s.editUnit u g).dies = s.dies := rfl
@[simp] theorem State.editUnit_dev (s : State) (u : Nat) (g : KUnit → KUnit) : (s.editUnit u g).dev = s.dev := rfl
@[simp] theorem State.editUnit_launches (s : State) (u : Nat) (g : KUnit → KUnit) : (s.editUnit u g).launches = s.launches := rfl
@[simp] theorem State.editUnit_nextLaunch (s : State) (u : Nat) (g : KUnit → KUnit) : (s.editUnit u g).nextLaunch = s.nextLaunch := rfl
@[simp] theorem State.editUnit_queues (s : State) (u : Nat) (g : KUnit → KUnit) : (s.editUnit u g).queues = s.queues := rfl
@[simp] theorem State.editUnit_records (s : State) (u : Nat) (g : KUnit → KUnit) : (s.editUnit u g).records = s.records := rfl
@[simp] theorem State.editUnit_soloHolder (s : State) (u : Nat) (g : KUnit → KUnit) : (s.editUnit u g).soloHolder = s.soloHolder := rfl
@[simp] theorem State.editUnit_soloQueue (s : State) (u : Nat) (g : KUnit → KUnit) : (s.editUnit u g).soloQueue = s.soloQueue := rfl
@[simp] theorem State.editUnit_posts (s : State) (u : Nat) (g : KUnit → KUnit) : (s.editUnit u g).posts = s.posts := rfl
@[simp] theorem State.editUnit_repairs (s : State) (u : Nat) (g : KUnit → KUnit) : (s.editUnit u g).repairs = s.repairs := rfl
@[simp] theorem State.editUnit_handlers (s : State) (u : Nat) (g : KUnit → KUnit) : (s.editUnit u g).handlers = s.handlers := rfl
@[simp] theorem State.editUnit_beads (s : State) (u : Nat) (g : KUnit → KUnit) : (s.editUnit u g).beads = s.beads := rfl
@[simp] theorem State.editUnit_ringHeld (s : State) (u : Nat) (g : KUnit → KUnit) : (s.editUnit u g).ringHeld = s.ringHeld := rfl
@[simp] theorem State.editUnit_homeWrites (s : State) (u : Nat) (g : KUnit → KUnit) : (s.editUnit u g).homeWrites = s.homeWrites := rfl
@[simp] theorem State.editUnit_quota (s : State) (u : Nat) (g : KUnit → KUnit) : (s.editUnit u g).quota = s.quota := rfl
@[simp] theorem State.editUnit_seqs (s : State) (u : Nat) (g : KUnit → KUnit) : (s.editUnit u g).seqs = s.seqs := rfl
@[simp] theorem State.editUnit_treeQ (s : State) (u : Nat) (g : KUnit → KUnit) : (s.editUnit u g).treeQ = s.treeQ := rfl
@[simp] theorem State.editUnit_pages (s : State) (u : Nat) (g : KUnit → KUnit) : (s.editUnit u g).pages = s.pages := rfl
@[simp] theorem State.editUnit_kills (s : State) (u : Nat) (g : KUnit → KUnit) : (s.editUnit u g).kills = s.kills := rfl
@[simp] theorem State.editUnit_copies (s : State) (u : Nat) (g : KUnit → KUnit) : (s.editUnit u g).copies = s.copies := rfl
@[simp] theorem State.editUnit_shoots (s : State) (u : Nat) (g : KUnit → KUnit) : (s.editUnit u g).shoots = s.shoots := rfl
@[simp] theorem State.editUnit_peerSeq (s : State) (u : Nat) (g : KUnit → KUnit) : (s.editUnit u g).peerSeq = s.peerSeq := rfl
@[simp] theorem State.editUnit_peerRx (s : State) (u : Nat) (g : KUnit → KUnit) : (s.editUnit u g).peerRx = s.peerRx := rfl
@[simp] theorem State.editUnit_out (s : State) (u : Nat) (g : KUnit → KUnit) : (s.editUnit u g).out = s.out := rfl

/-! ### `State.editWarp` -/

@[simp] theorem State.editWarp_sched (s : State) (u w : Nat) (g : Warp → Warp) : (s.editWarp u w g).sched = s.sched := rfl
@[simp] theorem State.editWarp_cur (s : State) (u w : Nat) (g : Warp → Warp) : (s.editWarp u w g).cur = s.cur := rfl
@[simp] theorem State.editWarp_freeIx (s : State) (u w : Nat) (g : Warp → Warp) : (s.editWarp u w g).freeIx = s.freeIx := rfl
@[simp] theorem State.editWarp_stalled (s : State) (u w : Nat) (g : Warp → Warp) : (s.editWarp u w g).stalled = s.stalled := rfl
@[simp] theorem State.editWarp_cycle (s : State) (u w : Nat) (g : Warp → Warp) : (s.editWarp u w g).cycle = s.cycle := rfl
@[simp] theorem State.editWarp_time (s : State) (u w : Nat) (g : Warp → Warp) : (s.editWarp u w g).time = s.time := rfl
@[simp] theorem State.editWarp_timeRem (s : State) (u w : Nat) (g : Warp → Warp) : (s.editWarp u w g).timeRem = s.timeRem := rfl
@[simp] theorem State.editWarp_mem (s : State) (u w : Nat) (g : Warp → Warp) : (s.editWarp u w g).mem = s.mem := rfl
@[simp] theorem State.editWarp_tags (s : State) (u w : Nat) (g : Warp → Warp) : (s.editWarp u w g).tags = s.tags := rfl
@[simp] theorem State.editWarp_tagBy (s : State) (u w : Nat) (g : Warp → Warp) : (s.editWarp u w g).tagBy = s.tagBy := rfl
@[simp] theorem State.editWarp_poison (s : State) (u w : Nat) (g : Warp → Warp) : (s.editWarp u w g).poison = s.poison := rfl
@[simp] theorem State.editWarp_memMap (s : State) (u w : Nat) (g : Warp → Warp) : (s.editWarp u w g).memMap = s.memMap := rfl
@[simp] theorem State.editWarp_regOwner (s : State) (u w : Nat) (g : Warp → Warp) : (s.editWarp u w g).regOwner = s.regOwner := rfl
@[simp] theorem State.editWarp_slice (s : State) (u w : Nat) (g : Warp → Warp) : (s.editWarp u w g).slice = s.slice := rfl
@[simp] theorem State.editWarp_nextUnit (s : State) (u w : Nat) (g : Warp → Warp) : (s.editWarp u w g).nextUnit = s.nextUnit := rfl
@[simp] theorem State.editWarp_evicted (s : State) (u w : Nat) (g : Warp → Warp) : (s.editWarp u w g).evicted = s.evicted := rfl
@[simp] theorem State.editWarp_cores (s : State) (u w : Nat) (g : Warp → Warp) : (s.editWarp u w g).cores = s.cores := rfl
@[simp] theorem State.editWarp_dies (s : State) (u w : Nat) (g : Warp → Warp) : (s.editWarp u w g).dies = s.dies := rfl
@[simp] theorem State.editWarp_dev (s : State) (u w : Nat) (g : Warp → Warp) : (s.editWarp u w g).dev = s.dev := rfl
@[simp] theorem State.editWarp_launches (s : State) (u w : Nat) (g : Warp → Warp) : (s.editWarp u w g).launches = s.launches := rfl
@[simp] theorem State.editWarp_nextLaunch (s : State) (u w : Nat) (g : Warp → Warp) : (s.editWarp u w g).nextLaunch = s.nextLaunch := rfl
@[simp] theorem State.editWarp_queues (s : State) (u w : Nat) (g : Warp → Warp) : (s.editWarp u w g).queues = s.queues := rfl
@[simp] theorem State.editWarp_records (s : State) (u w : Nat) (g : Warp → Warp) : (s.editWarp u w g).records = s.records := rfl
@[simp] theorem State.editWarp_soloHolder (s : State) (u w : Nat) (g : Warp → Warp) : (s.editWarp u w g).soloHolder = s.soloHolder := rfl
@[simp] theorem State.editWarp_soloQueue (s : State) (u w : Nat) (g : Warp → Warp) : (s.editWarp u w g).soloQueue = s.soloQueue := rfl
@[simp] theorem State.editWarp_posts (s : State) (u w : Nat) (g : Warp → Warp) : (s.editWarp u w g).posts = s.posts := rfl
@[simp] theorem State.editWarp_repairs (s : State) (u w : Nat) (g : Warp → Warp) : (s.editWarp u w g).repairs = s.repairs := rfl
@[simp] theorem State.editWarp_handlers (s : State) (u w : Nat) (g : Warp → Warp) : (s.editWarp u w g).handlers = s.handlers := rfl
@[simp] theorem State.editWarp_beads (s : State) (u w : Nat) (g : Warp → Warp) : (s.editWarp u w g).beads = s.beads := rfl
@[simp] theorem State.editWarp_ringHeld (s : State) (u w : Nat) (g : Warp → Warp) : (s.editWarp u w g).ringHeld = s.ringHeld := rfl
@[simp] theorem State.editWarp_homeWrites (s : State) (u w : Nat) (g : Warp → Warp) : (s.editWarp u w g).homeWrites = s.homeWrites := rfl
@[simp] theorem State.editWarp_quota (s : State) (u w : Nat) (g : Warp → Warp) : (s.editWarp u w g).quota = s.quota := rfl
@[simp] theorem State.editWarp_seqs (s : State) (u w : Nat) (g : Warp → Warp) : (s.editWarp u w g).seqs = s.seqs := rfl
@[simp] theorem State.editWarp_treeQ (s : State) (u w : Nat) (g : Warp → Warp) : (s.editWarp u w g).treeQ = s.treeQ := rfl
@[simp] theorem State.editWarp_pages (s : State) (u w : Nat) (g : Warp → Warp) : (s.editWarp u w g).pages = s.pages := rfl
@[simp] theorem State.editWarp_kills (s : State) (u w : Nat) (g : Warp → Warp) : (s.editWarp u w g).kills = s.kills := rfl
@[simp] theorem State.editWarp_copies (s : State) (u w : Nat) (g : Warp → Warp) : (s.editWarp u w g).copies = s.copies := rfl
@[simp] theorem State.editWarp_shoots (s : State) (u w : Nat) (g : Warp → Warp) : (s.editWarp u w g).shoots = s.shoots := rfl
@[simp] theorem State.editWarp_peerSeq (s : State) (u w : Nat) (g : Warp → Warp) : (s.editWarp u w g).peerSeq = s.peerSeq := rfl
@[simp] theorem State.editWarp_peerRx (s : State) (u w : Nat) (g : Warp → Warp) : (s.editWarp u w g).peerRx = s.peerRx := rfl
@[simp] theorem State.editWarp_out (s : State) (u w : Nat) (g : Warp → Warp) : (s.editWarp u w g).out = s.out := rfl

/-! ### `State.editFrag` -/

@[simp] theorem State.editFrag_sched (s : State) (f : FragRef) (g : Frag → Frag) : (s.editFrag f g).sched = s.sched := rfl
@[simp] theorem State.editFrag_cur (s : State) (f : FragRef) (g : Frag → Frag) : (s.editFrag f g).cur = s.cur := rfl
@[simp] theorem State.editFrag_freeIx (s : State) (f : FragRef) (g : Frag → Frag) : (s.editFrag f g).freeIx = s.freeIx := rfl
@[simp] theorem State.editFrag_stalled (s : State) (f : FragRef) (g : Frag → Frag) : (s.editFrag f g).stalled = s.stalled := rfl
@[simp] theorem State.editFrag_cycle (s : State) (f : FragRef) (g : Frag → Frag) : (s.editFrag f g).cycle = s.cycle := rfl
@[simp] theorem State.editFrag_time (s : State) (f : FragRef) (g : Frag → Frag) : (s.editFrag f g).time = s.time := rfl
@[simp] theorem State.editFrag_timeRem (s : State) (f : FragRef) (g : Frag → Frag) : (s.editFrag f g).timeRem = s.timeRem := rfl
@[simp] theorem State.editFrag_mem (s : State) (f : FragRef) (g : Frag → Frag) : (s.editFrag f g).mem = s.mem := rfl
@[simp] theorem State.editFrag_tags (s : State) (f : FragRef) (g : Frag → Frag) : (s.editFrag f g).tags = s.tags := rfl
@[simp] theorem State.editFrag_tagBy (s : State) (f : FragRef) (g : Frag → Frag) : (s.editFrag f g).tagBy = s.tagBy := rfl
@[simp] theorem State.editFrag_poison (s : State) (f : FragRef) (g : Frag → Frag) : (s.editFrag f g).poison = s.poison := rfl
@[simp] theorem State.editFrag_memMap (s : State) (f : FragRef) (g : Frag → Frag) : (s.editFrag f g).memMap = s.memMap := rfl
@[simp] theorem State.editFrag_regOwner (s : State) (f : FragRef) (g : Frag → Frag) : (s.editFrag f g).regOwner = s.regOwner := rfl
@[simp] theorem State.editFrag_slice (s : State) (f : FragRef) (g : Frag → Frag) : (s.editFrag f g).slice = s.slice := rfl
@[simp] theorem State.editFrag_nextUnit (s : State) (f : FragRef) (g : Frag → Frag) : (s.editFrag f g).nextUnit = s.nextUnit := rfl
@[simp] theorem State.editFrag_evicted (s : State) (f : FragRef) (g : Frag → Frag) : (s.editFrag f g).evicted = s.evicted := rfl
@[simp] theorem State.editFrag_cores (s : State) (f : FragRef) (g : Frag → Frag) : (s.editFrag f g).cores = s.cores := rfl
@[simp] theorem State.editFrag_dies (s : State) (f : FragRef) (g : Frag → Frag) : (s.editFrag f g).dies = s.dies := rfl
@[simp] theorem State.editFrag_dev (s : State) (f : FragRef) (g : Frag → Frag) : (s.editFrag f g).dev = s.dev := rfl
@[simp] theorem State.editFrag_launches (s : State) (f : FragRef) (g : Frag → Frag) : (s.editFrag f g).launches = s.launches := rfl
@[simp] theorem State.editFrag_nextLaunch (s : State) (f : FragRef) (g : Frag → Frag) : (s.editFrag f g).nextLaunch = s.nextLaunch := rfl
@[simp] theorem State.editFrag_queues (s : State) (f : FragRef) (g : Frag → Frag) : (s.editFrag f g).queues = s.queues := rfl
@[simp] theorem State.editFrag_records (s : State) (f : FragRef) (g : Frag → Frag) : (s.editFrag f g).records = s.records := rfl
@[simp] theorem State.editFrag_soloHolder (s : State) (f : FragRef) (g : Frag → Frag) : (s.editFrag f g).soloHolder = s.soloHolder := rfl
@[simp] theorem State.editFrag_soloQueue (s : State) (f : FragRef) (g : Frag → Frag) : (s.editFrag f g).soloQueue = s.soloQueue := rfl
@[simp] theorem State.editFrag_posts (s : State) (f : FragRef) (g : Frag → Frag) : (s.editFrag f g).posts = s.posts := rfl
@[simp] theorem State.editFrag_repairs (s : State) (f : FragRef) (g : Frag → Frag) : (s.editFrag f g).repairs = s.repairs := rfl
@[simp] theorem State.editFrag_handlers (s : State) (f : FragRef) (g : Frag → Frag) : (s.editFrag f g).handlers = s.handlers := rfl
@[simp] theorem State.editFrag_beads (s : State) (f : FragRef) (g : Frag → Frag) : (s.editFrag f g).beads = s.beads := rfl
@[simp] theorem State.editFrag_ringHeld (s : State) (f : FragRef) (g : Frag → Frag) : (s.editFrag f g).ringHeld = s.ringHeld := rfl
@[simp] theorem State.editFrag_homeWrites (s : State) (f : FragRef) (g : Frag → Frag) : (s.editFrag f g).homeWrites = s.homeWrites := rfl
@[simp] theorem State.editFrag_quota (s : State) (f : FragRef) (g : Frag → Frag) : (s.editFrag f g).quota = s.quota := rfl
@[simp] theorem State.editFrag_seqs (s : State) (f : FragRef) (g : Frag → Frag) : (s.editFrag f g).seqs = s.seqs := rfl
@[simp] theorem State.editFrag_treeQ (s : State) (f : FragRef) (g : Frag → Frag) : (s.editFrag f g).treeQ = s.treeQ := rfl
@[simp] theorem State.editFrag_pages (s : State) (f : FragRef) (g : Frag → Frag) : (s.editFrag f g).pages = s.pages := rfl
@[simp] theorem State.editFrag_kills (s : State) (f : FragRef) (g : Frag → Frag) : (s.editFrag f g).kills = s.kills := rfl
@[simp] theorem State.editFrag_copies (s : State) (f : FragRef) (g : Frag → Frag) : (s.editFrag f g).copies = s.copies := rfl
@[simp] theorem State.editFrag_shoots (s : State) (f : FragRef) (g : Frag → Frag) : (s.editFrag f g).shoots = s.shoots := rfl
@[simp] theorem State.editFrag_peerSeq (s : State) (f : FragRef) (g : Frag → Frag) : (s.editFrag f g).peerSeq = s.peerSeq := rfl
@[simp] theorem State.editFrag_peerRx (s : State) (f : FragRef) (g : Frag → Frag) : (s.editFrag f g).peerRx = s.peerRx := rfl
@[simp] theorem State.editFrag_out (s : State) (f : FragRef) (g : Frag → Frag) : (s.editFrag f g).out = s.out := rfl

/-! ### `State.editDie` -/

@[simp] theorem State.editDie_sched (s : State) (k : Nat) (g : Die → Die) : (s.editDie k g).sched = s.sched := rfl
@[simp] theorem State.editDie_cur (s : State) (k : Nat) (g : Die → Die) : (s.editDie k g).cur = s.cur := rfl
@[simp] theorem State.editDie_freeIx (s : State) (k : Nat) (g : Die → Die) : (s.editDie k g).freeIx = s.freeIx := rfl
@[simp] theorem State.editDie_stalled (s : State) (k : Nat) (g : Die → Die) : (s.editDie k g).stalled = s.stalled := rfl
@[simp] theorem State.editDie_cycle (s : State) (k : Nat) (g : Die → Die) : (s.editDie k g).cycle = s.cycle := rfl
@[simp] theorem State.editDie_time (s : State) (k : Nat) (g : Die → Die) : (s.editDie k g).time = s.time := rfl
@[simp] theorem State.editDie_timeRem (s : State) (k : Nat) (g : Die → Die) : (s.editDie k g).timeRem = s.timeRem := rfl
@[simp] theorem State.editDie_mem (s : State) (k : Nat) (g : Die → Die) : (s.editDie k g).mem = s.mem := rfl
@[simp] theorem State.editDie_tags (s : State) (k : Nat) (g : Die → Die) : (s.editDie k g).tags = s.tags := rfl
@[simp] theorem State.editDie_tagBy (s : State) (k : Nat) (g : Die → Die) : (s.editDie k g).tagBy = s.tagBy := rfl
@[simp] theorem State.editDie_poison (s : State) (k : Nat) (g : Die → Die) : (s.editDie k g).poison = s.poison := rfl
@[simp] theorem State.editDie_memMap (s : State) (k : Nat) (g : Die → Die) : (s.editDie k g).memMap = s.memMap := rfl
@[simp] theorem State.editDie_regOwner (s : State) (k : Nat) (g : Die → Die) : (s.editDie k g).regOwner = s.regOwner := rfl
@[simp] theorem State.editDie_slice (s : State) (k : Nat) (g : Die → Die) : (s.editDie k g).slice = s.slice := rfl
@[simp] theorem State.editDie_units (s : State) (k : Nat) (g : Die → Die) : (s.editDie k g).units = s.units := rfl
@[simp] theorem State.editDie_nextUnit (s : State) (k : Nat) (g : Die → Die) : (s.editDie k g).nextUnit = s.nextUnit := rfl
@[simp] theorem State.editDie_evicted (s : State) (k : Nat) (g : Die → Die) : (s.editDie k g).evicted = s.evicted := rfl
@[simp] theorem State.editDie_cores (s : State) (k : Nat) (g : Die → Die) : (s.editDie k g).cores = s.cores := rfl
@[simp] theorem State.editDie_dev (s : State) (k : Nat) (g : Die → Die) : (s.editDie k g).dev = s.dev := rfl
@[simp] theorem State.editDie_launches (s : State) (k : Nat) (g : Die → Die) : (s.editDie k g).launches = s.launches := rfl
@[simp] theorem State.editDie_nextLaunch (s : State) (k : Nat) (g : Die → Die) : (s.editDie k g).nextLaunch = s.nextLaunch := rfl
@[simp] theorem State.editDie_queues (s : State) (k : Nat) (g : Die → Die) : (s.editDie k g).queues = s.queues := rfl
@[simp] theorem State.editDie_records (s : State) (k : Nat) (g : Die → Die) : (s.editDie k g).records = s.records := rfl
@[simp] theorem State.editDie_soloHolder (s : State) (k : Nat) (g : Die → Die) : (s.editDie k g).soloHolder = s.soloHolder := rfl
@[simp] theorem State.editDie_soloQueue (s : State) (k : Nat) (g : Die → Die) : (s.editDie k g).soloQueue = s.soloQueue := rfl
@[simp] theorem State.editDie_posts (s : State) (k : Nat) (g : Die → Die) : (s.editDie k g).posts = s.posts := rfl
@[simp] theorem State.editDie_repairs (s : State) (k : Nat) (g : Die → Die) : (s.editDie k g).repairs = s.repairs := rfl
@[simp] theorem State.editDie_handlers (s : State) (k : Nat) (g : Die → Die) : (s.editDie k g).handlers = s.handlers := rfl
@[simp] theorem State.editDie_beads (s : State) (k : Nat) (g : Die → Die) : (s.editDie k g).beads = s.beads := rfl
@[simp] theorem State.editDie_ringHeld (s : State) (k : Nat) (g : Die → Die) : (s.editDie k g).ringHeld = s.ringHeld := rfl
@[simp] theorem State.editDie_homeWrites (s : State) (k : Nat) (g : Die → Die) : (s.editDie k g).homeWrites = s.homeWrites := rfl
@[simp] theorem State.editDie_quota (s : State) (k : Nat) (g : Die → Die) : (s.editDie k g).quota = s.quota := rfl
@[simp] theorem State.editDie_seqs (s : State) (k : Nat) (g : Die → Die) : (s.editDie k g).seqs = s.seqs := rfl
@[simp] theorem State.editDie_treeQ (s : State) (k : Nat) (g : Die → Die) : (s.editDie k g).treeQ = s.treeQ := rfl
@[simp] theorem State.editDie_pages (s : State) (k : Nat) (g : Die → Die) : (s.editDie k g).pages = s.pages := rfl
@[simp] theorem State.editDie_kills (s : State) (k : Nat) (g : Die → Die) : (s.editDie k g).kills = s.kills := rfl
@[simp] theorem State.editDie_copies (s : State) (k : Nat) (g : Die → Die) : (s.editDie k g).copies = s.copies := rfl
@[simp] theorem State.editDie_shoots (s : State) (k : Nat) (g : Die → Die) : (s.editDie k g).shoots = s.shoots := rfl
@[simp] theorem State.editDie_peerSeq (s : State) (k : Nat) (g : Die → Die) : (s.editDie k g).peerSeq = s.peerSeq := rfl
@[simp] theorem State.editDie_peerRx (s : State) (k : Nat) (g : Die → Die) : (s.editDie k g).peerRx = s.peerRx := rfl
@[simp] theorem State.editDie_out (s : State) (k : Nat) (g : Die → Die) : (s.editDie k g).out = s.out := rfl

/-! ### `State.parkAt` -/

@[simp] theorem State.parkAt_sched (s : State) (c : Ctx) (w : Wake) : (s.parkAt c w).sched = s.sched := rfl
@[simp] theorem State.parkAt_cur (s : State) (c : Ctx) (w : Wake) : (s.parkAt c w).cur = s.cur := rfl
@[simp] theorem State.parkAt_freeIx (s : State) (c : Ctx) (w : Wake) : (s.parkAt c w).freeIx = s.freeIx := rfl
@[simp] theorem State.parkAt_stalled (s : State) (c : Ctx) (w : Wake) : (s.parkAt c w).stalled = s.stalled := rfl
@[simp] theorem State.parkAt_cycle (s : State) (c : Ctx) (w : Wake) : (s.parkAt c w).cycle = s.cycle := rfl
@[simp] theorem State.parkAt_time (s : State) (c : Ctx) (w : Wake) : (s.parkAt c w).time = s.time := rfl
@[simp] theorem State.parkAt_timeRem (s : State) (c : Ctx) (w : Wake) : (s.parkAt c w).timeRem = s.timeRem := rfl
@[simp] theorem State.parkAt_mem (s : State) (c : Ctx) (w : Wake) : (s.parkAt c w).mem = s.mem := rfl
@[simp] theorem State.parkAt_tags (s : State) (c : Ctx) (w : Wake) : (s.parkAt c w).tags = s.tags := rfl
@[simp] theorem State.parkAt_tagBy (s : State) (c : Ctx) (w : Wake) : (s.parkAt c w).tagBy = s.tagBy := rfl
@[simp] theorem State.parkAt_poison (s : State) (c : Ctx) (w : Wake) : (s.parkAt c w).poison = s.poison := rfl
@[simp] theorem State.parkAt_memMap (s : State) (c : Ctx) (w : Wake) : (s.parkAt c w).memMap = s.memMap := rfl
@[simp] theorem State.parkAt_regOwner (s : State) (c : Ctx) (w : Wake) : (s.parkAt c w).regOwner = s.regOwner := rfl
@[simp] theorem State.parkAt_slice (s : State) (c : Ctx) (w : Wake) : (s.parkAt c w).slice = s.slice := rfl
@[simp] theorem State.parkAt_nextUnit (s : State) (c : Ctx) (w : Wake) : (s.parkAt c w).nextUnit = s.nextUnit := rfl
@[simp] theorem State.parkAt_evicted (s : State) (c : Ctx) (w : Wake) : (s.parkAt c w).evicted = s.evicted := rfl
@[simp] theorem State.parkAt_cores (s : State) (c : Ctx) (w : Wake) : (s.parkAt c w).cores = s.cores := rfl
@[simp] theorem State.parkAt_dies (s : State) (c : Ctx) (w : Wake) : (s.parkAt c w).dies = s.dies := rfl
@[simp] theorem State.parkAt_dev (s : State) (c : Ctx) (w : Wake) : (s.parkAt c w).dev = s.dev := rfl
@[simp] theorem State.parkAt_launches (s : State) (c : Ctx) (w : Wake) : (s.parkAt c w).launches = s.launches := rfl
@[simp] theorem State.parkAt_nextLaunch (s : State) (c : Ctx) (w : Wake) : (s.parkAt c w).nextLaunch = s.nextLaunch := rfl
@[simp] theorem State.parkAt_queues (s : State) (c : Ctx) (w : Wake) : (s.parkAt c w).queues = s.queues := rfl
@[simp] theorem State.parkAt_records (s : State) (c : Ctx) (w : Wake) : (s.parkAt c w).records = s.records := rfl
@[simp] theorem State.parkAt_soloHolder (s : State) (c : Ctx) (w : Wake) : (s.parkAt c w).soloHolder = s.soloHolder := rfl
@[simp] theorem State.parkAt_soloQueue (s : State) (c : Ctx) (w : Wake) : (s.parkAt c w).soloQueue = s.soloQueue := rfl
@[simp] theorem State.parkAt_posts (s : State) (c : Ctx) (w : Wake) : (s.parkAt c w).posts = s.posts := rfl
@[simp] theorem State.parkAt_repairs (s : State) (c : Ctx) (w : Wake) : (s.parkAt c w).repairs = s.repairs := rfl
@[simp] theorem State.parkAt_handlers (s : State) (c : Ctx) (w : Wake) : (s.parkAt c w).handlers = s.handlers := rfl
@[simp] theorem State.parkAt_beads (s : State) (c : Ctx) (w : Wake) : (s.parkAt c w).beads = s.beads := rfl
@[simp] theorem State.parkAt_ringHeld (s : State) (c : Ctx) (w : Wake) : (s.parkAt c w).ringHeld = s.ringHeld := rfl
@[simp] theorem State.parkAt_homeWrites (s : State) (c : Ctx) (w : Wake) : (s.parkAt c w).homeWrites = s.homeWrites := rfl
@[simp] theorem State.parkAt_quota (s : State) (c : Ctx) (w : Wake) : (s.parkAt c w).quota = s.quota := rfl
@[simp] theorem State.parkAt_seqs (s : State) (c : Ctx) (w : Wake) : (s.parkAt c w).seqs = s.seqs := rfl
@[simp] theorem State.parkAt_treeQ (s : State) (c : Ctx) (w : Wake) : (s.parkAt c w).treeQ = s.treeQ := rfl
@[simp] theorem State.parkAt_pages (s : State) (c : Ctx) (w : Wake) : (s.parkAt c w).pages = s.pages := rfl
@[simp] theorem State.parkAt_kills (s : State) (c : Ctx) (w : Wake) : (s.parkAt c w).kills = s.kills := rfl
@[simp] theorem State.parkAt_copies (s : State) (c : Ctx) (w : Wake) : (s.parkAt c w).copies = s.copies := rfl
@[simp] theorem State.parkAt_shoots (s : State) (c : Ctx) (w : Wake) : (s.parkAt c w).shoots = s.shoots := rfl
@[simp] theorem State.parkAt_peerSeq (s : State) (c : Ctx) (w : Wake) : (s.parkAt c w).peerSeq = s.peerSeq := rfl
@[simp] theorem State.parkAt_peerRx (s : State) (c : Ctx) (w : Wake) : (s.parkAt c w).peerRx = s.peerRx := rfl
@[simp] theorem State.parkAt_out (s : State) (c : Ctx) (w : Wake) : (s.parkAt c w).out = s.out := rfl

/-! ### `State.retire` -/

@[simp] theorem State.retire_sched (s : State) (c : Ctx) (n : Nat) (b : Bool) (k : Nat) : (s.retire c n b k).sched = s.sched := rfl
@[simp] theorem State.retire_cur (s : State) (c : Ctx) (n : Nat) (b : Bool) (k : Nat) : (s.retire c n b k).cur = s.cur := rfl
@[simp] theorem State.retire_freeIx (s : State) (c : Ctx) (n : Nat) (b : Bool) (k : Nat) : (s.retire c n b k).freeIx = s.freeIx := rfl
@[simp] theorem State.retire_stalled (s : State) (c : Ctx) (n : Nat) (b : Bool) (k : Nat) : (s.retire c n b k).stalled = s.stalled := rfl
@[simp] theorem State.retire_cycle (s : State) (c : Ctx) (n : Nat) (b : Bool) (k : Nat) : (s.retire c n b k).cycle = s.cycle := rfl
@[simp] theorem State.retire_time (s : State) (c : Ctx) (n : Nat) (b : Bool) (k : Nat) : (s.retire c n b k).time = s.time := rfl
@[simp] theorem State.retire_timeRem (s : State) (c : Ctx) (n : Nat) (b : Bool) (k : Nat) : (s.retire c n b k).timeRem = s.timeRem := rfl
@[simp] theorem State.retire_mem (s : State) (c : Ctx) (n : Nat) (b : Bool) (k : Nat) : (s.retire c n b k).mem = s.mem := rfl
@[simp] theorem State.retire_tags (s : State) (c : Ctx) (n : Nat) (b : Bool) (k : Nat) : (s.retire c n b k).tags = s.tags := rfl
@[simp] theorem State.retire_tagBy (s : State) (c : Ctx) (n : Nat) (b : Bool) (k : Nat) : (s.retire c n b k).tagBy = s.tagBy := rfl
@[simp] theorem State.retire_poison (s : State) (c : Ctx) (n : Nat) (b : Bool) (k : Nat) : (s.retire c n b k).poison = s.poison := rfl
@[simp] theorem State.retire_memMap (s : State) (c : Ctx) (n : Nat) (b : Bool) (k : Nat) : (s.retire c n b k).memMap = s.memMap := rfl
@[simp] theorem State.retire_regOwner (s : State) (c : Ctx) (n : Nat) (b : Bool) (k : Nat) : (s.retire c n b k).regOwner = s.regOwner := rfl
@[simp] theorem State.retire_slice (s : State) (c : Ctx) (n : Nat) (b : Bool) (k : Nat) : (s.retire c n b k).slice = s.slice := rfl
@[simp] theorem State.retire_nextUnit (s : State) (c : Ctx) (n : Nat) (b : Bool) (k : Nat) : (s.retire c n b k).nextUnit = s.nextUnit := rfl
@[simp] theorem State.retire_evicted (s : State) (c : Ctx) (n : Nat) (b : Bool) (k : Nat) : (s.retire c n b k).evicted = s.evicted := rfl
@[simp] theorem State.retire_dies (s : State) (c : Ctx) (n : Nat) (b : Bool) (k : Nat) : (s.retire c n b k).dies = s.dies := rfl
@[simp] theorem State.retire_dev (s : State) (c : Ctx) (n : Nat) (b : Bool) (k : Nat) : (s.retire c n b k).dev = s.dev := rfl
@[simp] theorem State.retire_launches (s : State) (c : Ctx) (n : Nat) (b : Bool) (k : Nat) : (s.retire c n b k).launches = s.launches := rfl
@[simp] theorem State.retire_nextLaunch (s : State) (c : Ctx) (n : Nat) (b : Bool) (k : Nat) : (s.retire c n b k).nextLaunch = s.nextLaunch := rfl
@[simp] theorem State.retire_queues (s : State) (c : Ctx) (n : Nat) (b : Bool) (k : Nat) : (s.retire c n b k).queues = s.queues := rfl
@[simp] theorem State.retire_records (s : State) (c : Ctx) (n : Nat) (b : Bool) (k : Nat) : (s.retire c n b k).records = s.records := rfl
@[simp] theorem State.retire_soloHolder (s : State) (c : Ctx) (n : Nat) (b : Bool) (k : Nat) : (s.retire c n b k).soloHolder = s.soloHolder := rfl
@[simp] theorem State.retire_soloQueue (s : State) (c : Ctx) (n : Nat) (b : Bool) (k : Nat) : (s.retire c n b k).soloQueue = s.soloQueue := rfl
@[simp] theorem State.retire_posts (s : State) (c : Ctx) (n : Nat) (b : Bool) (k : Nat) : (s.retire c n b k).posts = s.posts := rfl
@[simp] theorem State.retire_repairs (s : State) (c : Ctx) (n : Nat) (b : Bool) (k : Nat) : (s.retire c n b k).repairs = s.repairs := rfl
@[simp] theorem State.retire_handlers (s : State) (c : Ctx) (n : Nat) (b : Bool) (k : Nat) : (s.retire c n b k).handlers = s.handlers := rfl
@[simp] theorem State.retire_beads (s : State) (c : Ctx) (n : Nat) (b : Bool) (k : Nat) : (s.retire c n b k).beads = s.beads := rfl
@[simp] theorem State.retire_ringHeld (s : State) (c : Ctx) (n : Nat) (b : Bool) (k : Nat) : (s.retire c n b k).ringHeld = s.ringHeld := rfl
@[simp] theorem State.retire_homeWrites (s : State) (c : Ctx) (n : Nat) (b : Bool) (k : Nat) : (s.retire c n b k).homeWrites = s.homeWrites := rfl
@[simp] theorem State.retire_quota (s : State) (c : Ctx) (n : Nat) (b : Bool) (k : Nat) : (s.retire c n b k).quota = s.quota := rfl
@[simp] theorem State.retire_seqs (s : State) (c : Ctx) (n : Nat) (b : Bool) (k : Nat) : (s.retire c n b k).seqs = s.seqs := rfl
@[simp] theorem State.retire_treeQ (s : State) (c : Ctx) (n : Nat) (b : Bool) (k : Nat) : (s.retire c n b k).treeQ = s.treeQ := rfl
@[simp] theorem State.retire_pages (s : State) (c : Ctx) (n : Nat) (b : Bool) (k : Nat) : (s.retire c n b k).pages = s.pages := rfl
@[simp] theorem State.retire_kills (s : State) (c : Ctx) (n : Nat) (b : Bool) (k : Nat) : (s.retire c n b k).kills = s.kills := rfl
@[simp] theorem State.retire_copies (s : State) (c : Ctx) (n : Nat) (b : Bool) (k : Nat) : (s.retire c n b k).copies = s.copies := rfl
@[simp] theorem State.retire_shoots (s : State) (c : Ctx) (n : Nat) (b : Bool) (k : Nat) : (s.retire c n b k).shoots = s.shoots := rfl
@[simp] theorem State.retire_peerSeq (s : State) (c : Ctx) (n : Nat) (b : Bool) (k : Nat) : (s.retire c n b k).peerSeq = s.peerSeq := rfl
@[simp] theorem State.retire_peerRx (s : State) (c : Ctx) (n : Nat) (b : Bool) (k : Nat) : (s.retire c n b k).peerRx = s.peerRx := rfl
@[simp] theorem State.retire_out (s : State) (c : Ctx) (n : Nat) (b : Bool) (k : Nat) : (s.retire c n b k).out = s.out := rfl

/-! ### `Warp.setReg` -/

@[simp] theorem Warp.setReg_slot (s : Warp) (r t : Nat) (x : Word) : (s.setReg r t x).slot = s.slot := rfl
@[simp] theorem Warp.setReg_extent (s : Warp) (r t : Nat) (x : Word) : (s.setReg r t x).extent = s.extent := rfl
@[simp] theorem Warp.setReg_rtags (s : Warp) (r t : Nat) (x : Word) : (s.setReg r t x).rtags = s.rtags := rfl
@[simp] theorem Warp.setReg_preds (s : Warp) (r t : Nat) (x : Word) : (s.setReg r t x).preds = s.preds := rfl
@[simp] theorem Warp.setReg_cbank (s : Warp) (r t : Nat) (x : Word) : (s.setReg r t x).cbank = s.cbank := rfl
@[simp] theorem Warp.setReg_node (s : Warp) (r t : Nat) (x : Word) : (s.setReg r t x).node = s.node := rfl
@[simp] theorem Warp.setReg_fflags (s : Warp) (r t : Nat) (x : Word) : (s.setReg r t x).fflags = s.fflags := rfl
@[simp] theorem Warp.setReg_txn (s : Warp) (r t : Nat) (x : Word) : (s.setReg r t x).txn = s.txn := rfl
@[simp] theorem Warp.setReg_exited (s : Warp) (r t : Nat) (x : Word) : (s.setReg r t x).exited = s.exited := rfl
@[simp] theorem Warp.setReg_killed (s : Warp) (r t : Nat) (x : Word) : (s.setReg r t x).killed = s.killed := rfl
@[simp] theorem Warp.setReg_frags (s : Warp) (r t : Nat) (x : Word) : (s.setReg r t x).frags = s.frags := rfl
@[simp] theorem Warp.setReg_splits (s : Warp) (r t : Nat) (x : Word) : (s.setReg r t x).splits = s.splits := rfl
@[simp] theorem Warp.setReg_lastFidx (s : Warp) (r t : Nat) (x : Word) : (s.setReg r t x).lastFidx = s.lastFidx := rfl
@[simp] theorem Warp.setReg_lastYield (s : Warp) (r t : Nat) (x : Word) : (s.setReg r t x).lastYield = s.lastYield := rfl
@[simp] theorem Warp.setReg_lates (s : Warp) (r t : Nat) (x : Word) : (s.setReg r t x).lates = s.lates := rfl
@[simp] theorem Warp.setReg_pruned (s : Warp) (r t : Nat) (x : Word) : (s.setReg r t x).pruned = s.pruned := rfl

/-! ### `Warp.setRtag` -/

@[simp] theorem Warp.setRtag_slot (s : Warp) (r : Nat) (x : RTag) : (s.setRtag r x).slot = s.slot := rfl
@[simp] theorem Warp.setRtag_extent (s : Warp) (r : Nat) (x : RTag) : (s.setRtag r x).extent = s.extent := rfl
@[simp] theorem Warp.setRtag_regs (s : Warp) (r : Nat) (x : RTag) : (s.setRtag r x).regs = s.regs := rfl
@[simp] theorem Warp.setRtag_qtags (s : Warp) (r : Nat) (x : RTag) : (s.setRtag r x).qtags = s.qtags := rfl
@[simp] theorem Warp.setRtag_preds (s : Warp) (r : Nat) (x : RTag) : (s.setRtag r x).preds = s.preds := rfl
@[simp] theorem Warp.setRtag_cbank (s : Warp) (r : Nat) (x : RTag) : (s.setRtag r x).cbank = s.cbank := rfl
@[simp] theorem Warp.setRtag_node (s : Warp) (r : Nat) (x : RTag) : (s.setRtag r x).node = s.node := rfl
@[simp] theorem Warp.setRtag_fflags (s : Warp) (r : Nat) (x : RTag) : (s.setRtag r x).fflags = s.fflags := rfl
@[simp] theorem Warp.setRtag_txn (s : Warp) (r : Nat) (x : RTag) : (s.setRtag r x).txn = s.txn := rfl
@[simp] theorem Warp.setRtag_exited (s : Warp) (r : Nat) (x : RTag) : (s.setRtag r x).exited = s.exited := rfl
@[simp] theorem Warp.setRtag_killed (s : Warp) (r : Nat) (x : RTag) : (s.setRtag r x).killed = s.killed := rfl
@[simp] theorem Warp.setRtag_frags (s : Warp) (r : Nat) (x : RTag) : (s.setRtag r x).frags = s.frags := rfl
@[simp] theorem Warp.setRtag_splits (s : Warp) (r : Nat) (x : RTag) : (s.setRtag r x).splits = s.splits := rfl
@[simp] theorem Warp.setRtag_lastFidx (s : Warp) (r : Nat) (x : RTag) : (s.setRtag r x).lastFidx = s.lastFidx := rfl
@[simp] theorem Warp.setRtag_lastYield (s : Warp) (r : Nat) (x : RTag) : (s.setRtag r x).lastYield = s.lastYield := rfl
@[simp] theorem Warp.setRtag_lates (s : Warp) (r : Nat) (x : RTag) : (s.setRtag r x).lates = s.lates := rfl
@[simp] theorem Warp.setRtag_pruned (s : Warp) (r : Nat) (x : RTag) : (s.setRtag r x).pruned = s.pruned := rfl

/-! ### `Warp.setQtag` -/

@[simp] theorem Warp.setQtag_slot (s : Warp) (q t : Nat) (b : Bool) : (s.setQtag q t b).slot = s.slot := rfl
@[simp] theorem Warp.setQtag_extent (s : Warp) (q t : Nat) (b : Bool) : (s.setQtag q t b).extent = s.extent := rfl
@[simp] theorem Warp.setQtag_regs (s : Warp) (q t : Nat) (b : Bool) : (s.setQtag q t b).regs = s.regs := rfl
@[simp] theorem Warp.setQtag_rtags (s : Warp) (q t : Nat) (b : Bool) : (s.setQtag q t b).rtags = s.rtags := rfl
@[simp] theorem Warp.setQtag_preds (s : Warp) (q t : Nat) (b : Bool) : (s.setQtag q t b).preds = s.preds := rfl
@[simp] theorem Warp.setQtag_cbank (s : Warp) (q t : Nat) (b : Bool) : (s.setQtag q t b).cbank = s.cbank := rfl
@[simp] theorem Warp.setQtag_node (s : Warp) (q t : Nat) (b : Bool) : (s.setQtag q t b).node = s.node := rfl
@[simp] theorem Warp.setQtag_fflags (s : Warp) (q t : Nat) (b : Bool) : (s.setQtag q t b).fflags = s.fflags := rfl
@[simp] theorem Warp.setQtag_txn (s : Warp) (q t : Nat) (b : Bool) : (s.setQtag q t b).txn = s.txn := rfl
@[simp] theorem Warp.setQtag_exited (s : Warp) (q t : Nat) (b : Bool) : (s.setQtag q t b).exited = s.exited := rfl
@[simp] theorem Warp.setQtag_killed (s : Warp) (q t : Nat) (b : Bool) : (s.setQtag q t b).killed = s.killed := rfl
@[simp] theorem Warp.setQtag_frags (s : Warp) (q t : Nat) (b : Bool) : (s.setQtag q t b).frags = s.frags := rfl
@[simp] theorem Warp.setQtag_splits (s : Warp) (q t : Nat) (b : Bool) : (s.setQtag q t b).splits = s.splits := rfl
@[simp] theorem Warp.setQtag_lastFidx (s : Warp) (q t : Nat) (b : Bool) : (s.setQtag q t b).lastFidx = s.lastFidx := rfl
@[simp] theorem Warp.setQtag_lastYield (s : Warp) (q t : Nat) (b : Bool) : (s.setQtag q t b).lastYield = s.lastYield := rfl
@[simp] theorem Warp.setQtag_lates (s : Warp) (q t : Nat) (b : Bool) : (s.setQtag q t b).lates = s.lates := rfl
@[simp] theorem Warp.setQtag_pruned (s : Warp) (q t : Nat) (b : Bool) : (s.setQtag q t b).pruned = s.pruned := rfl

/-! ### `Warp.setFlags` -/

@[simp] theorem Warp.setFlags_slot (s : Warp) (t : Nat) (x : BitVec 5) : (s.setFlags t x).slot = s.slot := rfl
@[simp] theorem Warp.setFlags_extent (s : Warp) (t : Nat) (x : BitVec 5) : (s.setFlags t x).extent = s.extent := rfl
@[simp] theorem Warp.setFlags_regs (s : Warp) (t : Nat) (x : BitVec 5) : (s.setFlags t x).regs = s.regs := rfl
@[simp] theorem Warp.setFlags_rtags (s : Warp) (t : Nat) (x : BitVec 5) : (s.setFlags t x).rtags = s.rtags := rfl
@[simp] theorem Warp.setFlags_qtags (s : Warp) (t : Nat) (x : BitVec 5) : (s.setFlags t x).qtags = s.qtags := rfl
@[simp] theorem Warp.setFlags_preds (s : Warp) (t : Nat) (x : BitVec 5) : (s.setFlags t x).preds = s.preds := rfl
@[simp] theorem Warp.setFlags_cbank (s : Warp) (t : Nat) (x : BitVec 5) : (s.setFlags t x).cbank = s.cbank := rfl
@[simp] theorem Warp.setFlags_node (s : Warp) (t : Nat) (x : BitVec 5) : (s.setFlags t x).node = s.node := rfl
@[simp] theorem Warp.setFlags_txn (s : Warp) (t : Nat) (x : BitVec 5) : (s.setFlags t x).txn = s.txn := rfl
@[simp] theorem Warp.setFlags_exited (s : Warp) (t : Nat) (x : BitVec 5) : (s.setFlags t x).exited = s.exited := rfl
@[simp] theorem Warp.setFlags_killed (s : Warp) (t : Nat) (x : BitVec 5) : (s.setFlags t x).killed = s.killed := rfl
@[simp] theorem Warp.setFlags_frags (s : Warp) (t : Nat) (x : BitVec 5) : (s.setFlags t x).frags = s.frags := rfl
@[simp] theorem Warp.setFlags_splits (s : Warp) (t : Nat) (x : BitVec 5) : (s.setFlags t x).splits = s.splits := rfl
@[simp] theorem Warp.setFlags_lastFidx (s : Warp) (t : Nat) (x : BitVec 5) : (s.setFlags t x).lastFidx = s.lastFidx := rfl
@[simp] theorem Warp.setFlags_lastYield (s : Warp) (t : Nat) (x : BitVec 5) : (s.setFlags t x).lastYield = s.lastYield := rfl
@[simp] theorem Warp.setFlags_lates (s : Warp) (t : Nat) (x : BitVec 5) : (s.setFlags t x).lates = s.lates := rfl
@[simp] theorem Warp.setFlags_pruned (s : Warp) (t : Nat) (x : BitVec 5) : (s.setFlags t x).pruned = s.pruned := rfl

/-! ### `Warp.setTx` -/

@[simp] theorem Warp.setTx_slot (s : Warp) (t : Nat) (x : Txn) : (s.setTx t x).slot = s.slot := rfl
@[simp] theorem Warp.setTx_extent (s : Warp) (t : Nat) (x : Txn) : (s.setTx t x).extent = s.extent := rfl
@[simp] theorem Warp.setTx_regs (s : Warp) (t : Nat) (x : Txn) : (s.setTx t x).regs = s.regs := rfl
@[simp] theorem Warp.setTx_rtags (s : Warp) (t : Nat) (x : Txn) : (s.setTx t x).rtags = s.rtags := rfl
@[simp] theorem Warp.setTx_qtags (s : Warp) (t : Nat) (x : Txn) : (s.setTx t x).qtags = s.qtags := rfl
@[simp] theorem Warp.setTx_preds (s : Warp) (t : Nat) (x : Txn) : (s.setTx t x).preds = s.preds := rfl
@[simp] theorem Warp.setTx_cbank (s : Warp) (t : Nat) (x : Txn) : (s.setTx t x).cbank = s.cbank := rfl
@[simp] theorem Warp.setTx_node (s : Warp) (t : Nat) (x : Txn) : (s.setTx t x).node = s.node := rfl
@[simp] theorem Warp.setTx_fflags (s : Warp) (t : Nat) (x : Txn) : (s.setTx t x).fflags = s.fflags := rfl
@[simp] theorem Warp.setTx_exited (s : Warp) (t : Nat) (x : Txn) : (s.setTx t x).exited = s.exited := rfl
@[simp] theorem Warp.setTx_killed (s : Warp) (t : Nat) (x : Txn) : (s.setTx t x).killed = s.killed := rfl
@[simp] theorem Warp.setTx_frags (s : Warp) (t : Nat) (x : Txn) : (s.setTx t x).frags = s.frags := rfl
@[simp] theorem Warp.setTx_splits (s : Warp) (t : Nat) (x : Txn) : (s.setTx t x).splits = s.splits := rfl
@[simp] theorem Warp.setTx_lastFidx (s : Warp) (t : Nat) (x : Txn) : (s.setTx t x).lastFidx = s.lastFidx := rfl
@[simp] theorem Warp.setTx_lastYield (s : Warp) (t : Nat) (x : Txn) : (s.setTx t x).lastYield = s.lastYield := rfl
@[simp] theorem Warp.setTx_lates (s : Warp) (t : Nat) (x : Txn) : (s.setTx t x).lates = s.lates := rfl
@[simp] theorem Warp.setTx_pruned (s : Warp) (t : Nat) (x : Txn) : (s.setTx t x).pruned = s.pruned := rfl

/-! ### `Warp.editFrag` -/

@[simp] theorem Warp.editFrag_slot (s : Warp) (i : Nat) (g : Frag → Frag) : (s.editFrag i g).slot = s.slot := rfl
@[simp] theorem Warp.editFrag_extent (s : Warp) (i : Nat) (g : Frag → Frag) : (s.editFrag i g).extent = s.extent := rfl
@[simp] theorem Warp.editFrag_regs (s : Warp) (i : Nat) (g : Frag → Frag) : (s.editFrag i g).regs = s.regs := rfl
@[simp] theorem Warp.editFrag_rtags (s : Warp) (i : Nat) (g : Frag → Frag) : (s.editFrag i g).rtags = s.rtags := rfl
@[simp] theorem Warp.editFrag_qtags (s : Warp) (i : Nat) (g : Frag → Frag) : (s.editFrag i g).qtags = s.qtags := rfl
@[simp] theorem Warp.editFrag_preds (s : Warp) (i : Nat) (g : Frag → Frag) : (s.editFrag i g).preds = s.preds := rfl
@[simp] theorem Warp.editFrag_cbank (s : Warp) (i : Nat) (g : Frag → Frag) : (s.editFrag i g).cbank = s.cbank := rfl
@[simp] theorem Warp.editFrag_node (s : Warp) (i : Nat) (g : Frag → Frag) : (s.editFrag i g).node = s.node := rfl
@[simp] theorem Warp.editFrag_fflags (s : Warp) (i : Nat) (g : Frag → Frag) : (s.editFrag i g).fflags = s.fflags := rfl
@[simp] theorem Warp.editFrag_txn (s : Warp) (i : Nat) (g : Frag → Frag) : (s.editFrag i g).txn = s.txn := rfl
@[simp] theorem Warp.editFrag_exited (s : Warp) (i : Nat) (g : Frag → Frag) : (s.editFrag i g).exited = s.exited := rfl
@[simp] theorem Warp.editFrag_killed (s : Warp) (i : Nat) (g : Frag → Frag) : (s.editFrag i g).killed = s.killed := rfl
@[simp] theorem Warp.editFrag_splits (s : Warp) (i : Nat) (g : Frag → Frag) : (s.editFrag i g).splits = s.splits := rfl
@[simp] theorem Warp.editFrag_lastFidx (s : Warp) (i : Nat) (g : Frag → Frag) : (s.editFrag i g).lastFidx = s.lastFidx := rfl
@[simp] theorem Warp.editFrag_lastYield (s : Warp) (i : Nat) (g : Frag → Frag) : (s.editFrag i g).lastYield = s.lastYield := rfl
@[simp] theorem Warp.editFrag_lates (s : Warp) (i : Nat) (g : Frag → Frag) : (s.editFrag i g).lates = s.lates := rfl
@[simp] theorem Warp.editFrag_pruned (s : Warp) (i : Nat) (g : Frag → Frag) : (s.editFrag i g).pruned = s.pruned := rfl

/-! ### `KUnit.editWarp` -/

@[simp] theorem KUnit.editWarp_launch (s : KUnit) (w : Nat) (g : Warp → Warp) : (s.editWarp w g).launch = s.launch := rfl
@[simp] theorem KUnit.editWarp_index (s : KUnit) (w : Nat) (g : Warp → Warp) : (s.editWarp w g).index = s.index := rfl
@[simp] theorem KUnit.editWarp_core (s : KUnit) (w : Nat) (g : Warp → Warp) : (s.editWarp w g).core = s.core := rfl
@[simp] theorem KUnit.editWarp_scratch (s : KUnit) (w : Nat) (g : Warp → Warp) : (s.editWarp w g).scratch = s.scratch := rfl
@[simp] theorem KUnit.editWarp_stags (s : KUnit) (w : Nat) (g : Warp → Warp) : (s.editWarp w g).stags = s.stags := rfl
@[simp] theorem KUnit.editWarp_spoison (s : KUnit) (w : Nat) (g : Warp → Warp) : (s.editWarp w g).spoison = s.spoison := rfl
@[simp] theorem KUnit.editWarp_frozen (s : KUnit) (w : Nat) (g : Warp → Warp) : (s.editWarp w g).frozen = s.frozen := rfl
@[simp] theorem KUnit.editWarp_acc (s : KUnit) (w : Nat) (g : Warp → Warp) : (s.editWarp w g).acc = s.acc := rfl
@[simp] theorem KUnit.editWarp_cbs (s : KUnit) (w : Nat) (g : Warp → Warp) : (s.editWarp w g).cbs = s.cbs := rfl
@[simp] theorem KUnit.editWarp_bitmaps (s : KUnit) (w : Nat) (g : Warp → Warp) : (s.editWarp w g).bitmaps = s.bitmaps := rfl
@[simp] theorem KUnit.editWarp_streams (s : KUnit) (w : Nat) (g : Warp → Warp) : (s.editWarp w g).streams = s.streams := rfl
@[simp] theorem KUnit.editWarp_chains (s : KUnit) (w : Nat) (g : Warp → Warp) : (s.editWarp w g).chains = s.chains := rfl
@[simp] theorem KUnit.editWarp_bars (s : KUnit) (w : Nat) (g : Warp → Warp) : (s.editWarp w g).bars = s.bars := rfl
@[simp] theorem KUnit.editWarp_ops (s : KUnit) (w : Nat) (g : Warp → Warp) : (s.editWarp w g).ops = s.ops := rfl
@[simp] theorem KUnit.editWarp_nextOp (s : KUnit) (w : Nat) (g : Warp → Warp) : (s.editWarp w g).nextOp = s.nextOp := rfl
@[simp] theorem KUnit.editWarp_jobs (s : KUnit) (w : Nat) (g : Warp → Warp) : (s.editWarp w g).jobs = s.jobs := rfl
@[simp] theorem KUnit.editWarp_rank (s : KUnit) (w : Nat) (g : Warp → Warp) : (s.editWarp w g).rank = s.rank := rfl
@[simp] theorem KUnit.editWarp_sizeM1 (s : KUnit) (w : Nat) (g : Warp → Warp) : (s.editWarp w g).sizeM1 = s.sizeM1 := rfl
@[simp] theorem KUnit.editWarp_mates (s : KUnit) (w : Nat) (g : Warp → Warp) : (s.editWarp w g).mates = s.mates := rfl
@[simp] theorem KUnit.editWarp_rankEnded (s : KUnit) (w : Nat) (g : Warp → Warp) : (s.editWarp w g).rankEnded = s.rankEnded := rfl
@[simp] theorem KUnit.editWarp_startHold (s : KUnit) (w : Nat) (g : Warp → Warp) : (s.editWarp w g).startHold = s.startHold := rfl
@[simp] theorem KUnit.editWarp_parkReq (s : KUnit) (w : Nat) (g : Warp → Warp) : (s.editWarp w g).parkReq = s.parkReq := rfl
@[simp] theorem KUnit.editWarp_endFault (s : KUnit) (w : Nat) (g : Warp → Warp) : (s.editWarp w g).endFault = s.endFault := rfl
@[simp] theorem KUnit.editWarp_endCancel (s : KUnit) (w : Nat) (g : Warp → Warp) : (s.editWarp w g).endCancel = s.endCancel := rfl
@[simp] theorem KUnit.editWarp_cut (s : KUnit) (w : Nat) (g : Warp → Warp) : (s.editWarp w g).cut = s.cut := rfl
@[simp] theorem KUnit.editWarp_lost (s : KUnit) (w : Nat) (g : Warp → Warp) : (s.editWarp w g).lost = s.lost := rfl
@[simp] theorem KUnit.editWarp_drops (s : KUnit) (w : Nat) (g : Warp → Warp) : (s.editWarp w g).drops = s.drops := rfl
@[simp] theorem KUnit.editWarp_image (s : KUnit) (w : Nat) (g : Warp → Warp) : (s.editWarp w g).image = s.image := rfl

/-! ### `KUnit.editOp` -/

@[simp] theorem KUnit.editOp_launch (s : KUnit) (i : Nat) (g : Op → Op) : (s.editOp i g).launch = s.launch := rfl
@[simp] theorem KUnit.editOp_index (s : KUnit) (i : Nat) (g : Op → Op) : (s.editOp i g).index = s.index := rfl
@[simp] theorem KUnit.editOp_core (s : KUnit) (i : Nat) (g : Op → Op) : (s.editOp i g).core = s.core := rfl
@[simp] theorem KUnit.editOp_warps (s : KUnit) (i : Nat) (g : Op → Op) : (s.editOp i g).warps = s.warps := rfl
@[simp] theorem KUnit.editOp_scratch (s : KUnit) (i : Nat) (g : Op → Op) : (s.editOp i g).scratch = s.scratch := rfl
@[simp] theorem KUnit.editOp_stags (s : KUnit) (i : Nat) (g : Op → Op) : (s.editOp i g).stags = s.stags := rfl
@[simp] theorem KUnit.editOp_spoison (s : KUnit) (i : Nat) (g : Op → Op) : (s.editOp i g).spoison = s.spoison := rfl
@[simp] theorem KUnit.editOp_frozen (s : KUnit) (i : Nat) (g : Op → Op) : (s.editOp i g).frozen = s.frozen := rfl
@[simp] theorem KUnit.editOp_acc (s : KUnit) (i : Nat) (g : Op → Op) : (s.editOp i g).acc = s.acc := rfl
@[simp] theorem KUnit.editOp_cbs (s : KUnit) (i : Nat) (g : Op → Op) : (s.editOp i g).cbs = s.cbs := rfl
@[simp] theorem KUnit.editOp_bitmaps (s : KUnit) (i : Nat) (g : Op → Op) : (s.editOp i g).bitmaps = s.bitmaps := rfl
@[simp] theorem KUnit.editOp_streams (s : KUnit) (i : Nat) (g : Op → Op) : (s.editOp i g).streams = s.streams := rfl
@[simp] theorem KUnit.editOp_chains (s : KUnit) (i : Nat) (g : Op → Op) : (s.editOp i g).chains = s.chains := rfl
@[simp] theorem KUnit.editOp_bars (s : KUnit) (i : Nat) (g : Op → Op) : (s.editOp i g).bars = s.bars := rfl
@[simp] theorem KUnit.editOp_nextOp (s : KUnit) (i : Nat) (g : Op → Op) : (s.editOp i g).nextOp = s.nextOp := rfl
@[simp] theorem KUnit.editOp_jobs (s : KUnit) (i : Nat) (g : Op → Op) : (s.editOp i g).jobs = s.jobs := rfl
@[simp] theorem KUnit.editOp_rank (s : KUnit) (i : Nat) (g : Op → Op) : (s.editOp i g).rank = s.rank := rfl
@[simp] theorem KUnit.editOp_sizeM1 (s : KUnit) (i : Nat) (g : Op → Op) : (s.editOp i g).sizeM1 = s.sizeM1 := rfl
@[simp] theorem KUnit.editOp_mates (s : KUnit) (i : Nat) (g : Op → Op) : (s.editOp i g).mates = s.mates := rfl
@[simp] theorem KUnit.editOp_rankEnded (s : KUnit) (i : Nat) (g : Op → Op) : (s.editOp i g).rankEnded = s.rankEnded := rfl
@[simp] theorem KUnit.editOp_startHold (s : KUnit) (i : Nat) (g : Op → Op) : (s.editOp i g).startHold = s.startHold := rfl
@[simp] theorem KUnit.editOp_parkReq (s : KUnit) (i : Nat) (g : Op → Op) : (s.editOp i g).parkReq = s.parkReq := rfl
@[simp] theorem KUnit.editOp_endFault (s : KUnit) (i : Nat) (g : Op → Op) : (s.editOp i g).endFault = s.endFault := rfl
@[simp] theorem KUnit.editOp_endCancel (s : KUnit) (i : Nat) (g : Op → Op) : (s.editOp i g).endCancel = s.endCancel := rfl
@[simp] theorem KUnit.editOp_cut (s : KUnit) (i : Nat) (g : Op → Op) : (s.editOp i g).cut = s.cut := rfl
@[simp] theorem KUnit.editOp_lost (s : KUnit) (i : Nat) (g : Op → Op) : (s.editOp i g).lost = s.lost := rfl
@[simp] theorem KUnit.editOp_drops (s : KUnit) (i : Nat) (g : Op → Op) : (s.editOp i g).drops = s.drops := rfl
@[simp] theorem KUnit.editOp_image (s : KUnit) (i : Nat) (g : Op → Op) : (s.editOp i g).image = s.image := rfl

/-! ### `KUnit.complete` -/

@[simp] theorem KUnit.complete_launch (s : KUnit) (i : Nat) : (s.complete i).launch = s.launch := rfl
@[simp] theorem KUnit.complete_index (s : KUnit) (i : Nat) : (s.complete i).index = s.index := rfl
@[simp] theorem KUnit.complete_core (s : KUnit) (i : Nat) : (s.complete i).core = s.core := rfl
@[simp] theorem KUnit.complete_warps (s : KUnit) (i : Nat) : (s.complete i).warps = s.warps := rfl
@[simp] theorem KUnit.complete_scratch (s : KUnit) (i : Nat) : (s.complete i).scratch = s.scratch := rfl
@[simp] theorem KUnit.complete_stags (s : KUnit) (i : Nat) : (s.complete i).stags = s.stags := rfl
@[simp] theorem KUnit.complete_spoison (s : KUnit) (i : Nat) : (s.complete i).spoison = s.spoison := rfl
@[simp] theorem KUnit.complete_frozen (s : KUnit) (i : Nat) : (s.complete i).frozen = s.frozen := rfl
@[simp] theorem KUnit.complete_acc (s : KUnit) (i : Nat) : (s.complete i).acc = s.acc := rfl
@[simp] theorem KUnit.complete_cbs (s : KUnit) (i : Nat) : (s.complete i).cbs = s.cbs := rfl
@[simp] theorem KUnit.complete_bitmaps (s : KUnit) (i : Nat) : (s.complete i).bitmaps = s.bitmaps := rfl
@[simp] theorem KUnit.complete_streams (s : KUnit) (i : Nat) : (s.complete i).streams = s.streams := rfl
@[simp] theorem KUnit.complete_chains (s : KUnit) (i : Nat) : (s.complete i).chains = s.chains := rfl
@[simp] theorem KUnit.complete_bars (s : KUnit) (i : Nat) : (s.complete i).bars = s.bars := rfl
@[simp] theorem KUnit.complete_nextOp (s : KUnit) (i : Nat) : (s.complete i).nextOp = s.nextOp := rfl
@[simp] theorem KUnit.complete_jobs (s : KUnit) (i : Nat) : (s.complete i).jobs = s.jobs := rfl
@[simp] theorem KUnit.complete_rank (s : KUnit) (i : Nat) : (s.complete i).rank = s.rank := rfl
@[simp] theorem KUnit.complete_sizeM1 (s : KUnit) (i : Nat) : (s.complete i).sizeM1 = s.sizeM1 := rfl
@[simp] theorem KUnit.complete_mates (s : KUnit) (i : Nat) : (s.complete i).mates = s.mates := rfl
@[simp] theorem KUnit.complete_rankEnded (s : KUnit) (i : Nat) : (s.complete i).rankEnded = s.rankEnded := rfl
@[simp] theorem KUnit.complete_startHold (s : KUnit) (i : Nat) : (s.complete i).startHold = s.startHold := rfl
@[simp] theorem KUnit.complete_parkReq (s : KUnit) (i : Nat) : (s.complete i).parkReq = s.parkReq := rfl
@[simp] theorem KUnit.complete_endFault (s : KUnit) (i : Nat) : (s.complete i).endFault = s.endFault := rfl
@[simp] theorem KUnit.complete_endCancel (s : KUnit) (i : Nat) : (s.complete i).endCancel = s.endCancel := rfl
@[simp] theorem KUnit.complete_cut (s : KUnit) (i : Nat) : (s.complete i).cut = s.cut := rfl
@[simp] theorem KUnit.complete_lost (s : KUnit) (i : Nat) : (s.complete i).lost = s.lost := rfl
@[simp] theorem KUnit.complete_drops (s : KUnit) (i : Nat) : (s.complete i).drops = s.drops := rfl
@[simp] theorem KUnit.complete_image (s : KUnit) (i : Nat) : (s.complete i).image = s.image := rfl

/-! ### `CoreSt.count` -/

@[simp] theorem CoreSt.count_lanes (s : CoreSt) (b : Bool) (n : Nat) : (s.count b n).lanes = s.lanes := rfl
@[simp] theorem CoreSt.count_eng (s : CoreSt) (b : Bool) (n : Nat) : (s.count b n).eng = s.eng := rfl
@[simp] theorem CoreSt.count_station (s : CoreSt) (b : Bool) (n : Nat) : (s.count b n).station = s.station := rfl
@[simp] theorem CoreSt.count_copies (s : CoreSt) (b : Bool) (n : Nat) : (s.count b n).copies = s.copies := rfl
@[simp] theorem CoreSt.count_reds (s : CoreSt) (b : Bool) (n : Nat) : (s.count b n).reds = s.reds := rfl
@[simp] theorem CoreSt.count_held (s : CoreSt) (b : Bool) (n : Nat) : (s.count b n).held = s.held := rfl
@[simp] theorem CoreSt.count_marks (s : CoreSt) (b : Bool) (n : Nat) : (s.count b n).marks = s.marks := rfl
@[simp] theorem CoreSt.count_fbuf (s : CoreSt) (b : Bool) (n : Nat) : (s.count b n).fbuf = s.fbuf := rfl
@[simp] theorem CoreSt.count_fwait (s : CoreSt) (b : Bool) (n : Nat) : (s.count b n).fwait = s.fwait := rfl
@[simp] theorem CoreSt.count_serial (s : CoreSt) (b : Bool) (n : Nat) : (s.count b n).serial = s.serial := rfl
@[simp] theorem CoreSt.count_stray (s : CoreSt) (b : Bool) (n : Nat) : (s.count b n).stray = s.stray := rfl
@[simp] theorem CoreSt.count_eccU (s : CoreSt) (b : Bool) (n : Nat) : (s.count b n).eccU = s.eccU := rfl
@[simp] theorem CoreSt.count_eccC (s : CoreSt) (b : Bool) (n : Nat) : (s.count b n).eccC = s.eccC := rfl
@[simp] theorem CoreSt.count_mesh (s : CoreSt) (b : Bool) (n : Nat) : (s.count b n).mesh = s.mesh := rfl
@[simp] theorem CoreSt.count_contrib (s : CoreSt) (b : Bool) (n : Nat) : (s.count b n).contrib = s.contrib := rfl
@[simp] theorem CoreSt.count_stamp (s : CoreSt) (b : Bool) (n : Nat) : (s.count b n).stamp = s.stamp := rfl

/-! ### `CoreSt.dropWord` -/

@[simp] theorem CoreSt.dropWord_lanes (s : CoreSt) (w : Nat) : (s.dropWord w).lanes = s.lanes := rfl
@[simp] theorem CoreSt.dropWord_eng (s : CoreSt) (w : Nat) : (s.dropWord w).eng = s.eng := rfl
@[simp] theorem CoreSt.dropWord_station (s : CoreSt) (w : Nat) : (s.dropWord w).station = s.station := rfl
@[simp] theorem CoreSt.dropWord_reds (s : CoreSt) (w : Nat) : (s.dropWord w).reds = s.reds := rfl
@[simp] theorem CoreSt.dropWord_held (s : CoreSt) (w : Nat) : (s.dropWord w).held = s.held := rfl
@[simp] theorem CoreSt.dropWord_marks (s : CoreSt) (w : Nat) : (s.dropWord w).marks = s.marks := rfl
@[simp] theorem CoreSt.dropWord_fbuf (s : CoreSt) (w : Nat) : (s.dropWord w).fbuf = s.fbuf := rfl
@[simp] theorem CoreSt.dropWord_fwait (s : CoreSt) (w : Nat) : (s.dropWord w).fwait = s.fwait := rfl
@[simp] theorem CoreSt.dropWord_serial (s : CoreSt) (w : Nat) : (s.dropWord w).serial = s.serial := rfl
@[simp] theorem CoreSt.dropWord_pmcWarp (s : CoreSt) (w : Nat) : (s.dropWord w).pmcWarp = s.pmcWarp := rfl
@[simp] theorem CoreSt.dropWord_pmcScalar (s : CoreSt) (w : Nat) : (s.dropWord w).pmcScalar = s.pmcScalar := rfl
@[simp] theorem CoreSt.dropWord_pmcBeats (s : CoreSt) (w : Nat) : (s.dropWord w).pmcBeats = s.pmcBeats := rfl
@[simp] theorem CoreSt.dropWord_stray (s : CoreSt) (w : Nat) : (s.dropWord w).stray = s.stray := rfl
@[simp] theorem CoreSt.dropWord_eccU (s : CoreSt) (w : Nat) : (s.dropWord w).eccU = s.eccU := rfl
@[simp] theorem CoreSt.dropWord_eccC (s : CoreSt) (w : Nat) : (s.dropWord w).eccC = s.eccC := rfl
@[simp] theorem CoreSt.dropWord_mesh (s : CoreSt) (w : Nat) : (s.dropWord w).mesh = s.mesh := rfl
@[simp] theorem CoreSt.dropWord_contrib (s : CoreSt) (w : Nat) : (s.dropWord w).contrib = s.contrib := rfl
@[simp] theorem CoreSt.dropWord_stamp (s : CoreSt) (w : Nat) : (s.dropWord w).stamp = s.stamp := rfl

/-! ### `Warp.setPred` -/

@[simp] theorem Warp.setPred_slot (s : Warp) (p : BitVec 3) (t : Nat) (b : Bool) : (s.setPred p t b).slot = s.slot := by
  unfold Warp.setPred; split <;> rfl
@[simp] theorem Warp.setPred_extent (s : Warp) (p : BitVec 3) (t : Nat) (b : Bool) : (s.setPred p t b).extent = s.extent := by
  unfold Warp.setPred; split <;> rfl
@[simp] theorem Warp.setPred_regs (s : Warp) (p : BitVec 3) (t : Nat) (b : Bool) : (s.setPred p t b).regs = s.regs := by
  unfold Warp.setPred; split <;> rfl
@[simp] theorem Warp.setPred_rtags (s : Warp) (p : BitVec 3) (t : Nat) (b : Bool) : (s.setPred p t b).rtags = s.rtags := by
  unfold Warp.setPred; split <;> rfl
@[simp] theorem Warp.setPred_qtags (s : Warp) (p : BitVec 3) (t : Nat) (b : Bool) : (s.setPred p t b).qtags = s.qtags := by
  unfold Warp.setPred; split <;> rfl
@[simp] theorem Warp.setPred_cbank (s : Warp) (p : BitVec 3) (t : Nat) (b : Bool) : (s.setPred p t b).cbank = s.cbank := by
  unfold Warp.setPred; split <;> rfl
@[simp] theorem Warp.setPred_node (s : Warp) (p : BitVec 3) (t : Nat) (b : Bool) : (s.setPred p t b).node = s.node := by
  unfold Warp.setPred; split <;> rfl
@[simp] theorem Warp.setPred_fflags (s : Warp) (p : BitVec 3) (t : Nat) (b : Bool) : (s.setPred p t b).fflags = s.fflags := by
  unfold Warp.setPred; split <;> rfl
@[simp] theorem Warp.setPred_txn (s : Warp) (p : BitVec 3) (t : Nat) (b : Bool) : (s.setPred p t b).txn = s.txn := by
  unfold Warp.setPred; split <;> rfl
@[simp] theorem Warp.setPred_exited (s : Warp) (p : BitVec 3) (t : Nat) (b : Bool) : (s.setPred p t b).exited = s.exited := by
  unfold Warp.setPred; split <;> rfl
@[simp] theorem Warp.setPred_killed (s : Warp) (p : BitVec 3) (t : Nat) (b : Bool) : (s.setPred p t b).killed = s.killed := by
  unfold Warp.setPred; split <;> rfl
@[simp] theorem Warp.setPred_frags (s : Warp) (p : BitVec 3) (t : Nat) (b : Bool) : (s.setPred p t b).frags = s.frags := by
  unfold Warp.setPred; split <;> rfl
@[simp] theorem Warp.setPred_splits (s : Warp) (p : BitVec 3) (t : Nat) (b : Bool) : (s.setPred p t b).splits = s.splits := by
  unfold Warp.setPred; split <;> rfl
@[simp] theorem Warp.setPred_lastFidx (s : Warp) (p : BitVec 3) (t : Nat) (b : Bool) : (s.setPred p t b).lastFidx = s.lastFidx := by
  unfold Warp.setPred; split <;> rfl
@[simp] theorem Warp.setPred_lastYield (s : Warp) (p : BitVec 3) (t : Nat) (b : Bool) : (s.setPred p t b).lastYield = s.lastYield := by
  unfold Warp.setPred; split <;> rfl
@[simp] theorem Warp.setPred_lates (s : Warp) (p : BitVec 3) (t : Nat) (b : Bool) : (s.setPred p t b).lates = s.lates := by
  unfold Warp.setPred; split <;> rfl
@[simp] theorem Warp.setPred_pruned (s : Warp) (p : BitVec 3) (t : Nat) (b : Bool) : (s.setPred p t b).pruned = s.pruned := by
  unfold Warp.setPred; split <;> rfl

/-! ### Reading a part after a part is changed -/

theorem State.core_editCore (s : State) (k j : Nat) (g : CoreSt → CoreSt) :
    (s.editCore k g).core j = if j = k then g (s.core k) else s.core j := by
  simp only [State.editCore, State.setCore, State.core, Map.lookD_put]

theorem State.die_editDie (s : State) (k j : Nat) (g : Die → Die) : (s.editDie k g).die j = if j = k then g (s.die k) else s.die j := by
  simp only [State.editDie, State.die, Map.lookD_put]

theorem State.unit?_editUnit (s : State) (u v : Nat) (g : KUnit → KUnit) :
    (s.editUnit u g).unit? v = if v = u then (s.unit? u).map g else s.unit? v := by
  simp only [State.editUnit, State.unit?, Map.look_edit]
  split_ifs with h
  · rw [h]
  · rfl

@[simp] theorem State.unit?_editCore (s : State) (k u : Nat) (g : CoreSt → CoreSt) : (s.editCore k g).unit? u = s.unit? u := rfl

@[simp] theorem State.core_editUnit (s : State) (u k : Nat) (g : KUnit → KUnit) : (s.editUnit u g).core k = s.core k := rfl

@[simp] theorem State.core_editWarp (s : State) (u w k : Nat) (g : Warp → Warp) : (s.editWarp u w g).core k = s.core k := rfl

@[simp] theorem State.core_editFrag (s : State) (f : FragRef) (k : Nat) (g : Frag → Frag) : (s.editFrag f g).core k = s.core k := rfl

@[simp] theorem State.byte_editUnit (s : State) (u a : Nat) (g : KUnit → KUnit) : (s.editUnit u g).byte a = s.byte a := rfl

@[simp] theorem State.byte_editCore (s : State) (k a : Nat) (g : CoreSt → CoreSt) : (s.editCore k g).byte a = s.byte a := rfl

theorem State.editUnit_editUnit (s : State) (u : Nat) (g h : KUnit → KUnit) :
    (s.editUnit u g).editUnit u h = s.editUnit u fun x => h (g x) := by
  simp only [State.editUnit, Map.edit_edit]

theorem State.editWarp_editWarp (s : State) (u w : Nat) (g h : Warp → Warp) :
    (s.editWarp u w g).editWarp u w h = s.editWarp u w fun x => h (g x) := by
  simp only [State.editWarp, State.editUnit_editUnit, KUnit.editWarp, Map.edit_edit]

theorem State.editCore_editCore (s : State) (k : Nat) (g h : CoreSt → CoreSt) :
    (s.editCore k g).editCore k h = s.editCore k fun x => h (g x) := by
  simp only [State.editCore, State.setCore, State.core, Map.lookD_put, if_true, Map.put_put]

theorem State.editWarp_editCore (s : State) (u w k : Nat) (g : Warp → Warp) (h : CoreSt → CoreSt) :
    (s.editCore k h).editWarp u w g = (s.editWarp u w g).editCore k h := rfl

theorem State.editFrag_eq (s : State) (f : FragRef) (g : Frag → Frag) :
    s.editFrag f g = s.editWarp f.unit f.warp fun w => w.editFrag f.fidx g := rfl

theorem State.retire_eq (s : State) (c : Ctx) (n : Nat) (b : Bool) (k : Nat) :
    s.retire c n b k = (s.editWarp c.f.unit c.f.warp fun w => w.editFrag c.f.fidx fun x => x.nextWord n).editCore c.u.core
      fun x => x.count b k := rfl

/-- What it takes for a fragment to be the executing one. -/
theorem State.ctx?_some {s : State} {c : Ctx} (h : s.ctx? = some c) :
    s.cur = some c.f ∧ s.unit? c.f.unit = some c.u ∧ Map.look c.u.warps c.f.warp = some c.w
      ∧ Map.look s.launches c.u.launch = some c.l ∧ Map.look c.w.frags c.f.fidx = some c.fr := by
  unfold State.ctx? at h
  split at h
  · simp at h
  · rename_i f hf
    split at h
    · simp at h
    · rename_i u hu
      split at h
      · rename_i w l hw hl
        obtain ⟨x, hx, rfl⟩ := Option.map_eq_some_iff.1 h
        exact ⟨hf, hu, hw, hl, hx⟩
      · simp at h

theorem State.warp?_of_ctx {s : State} {c : Ctx} (h : s.ctx? = some c) : s.warp? c.f.unit c.f.warp = some c.w := by
  obtain ⟨_, hu, hw, _⟩ := State.ctx?_some h
  simp [State.warp?, hu, hw]

theorem State.frag?_of_ctx {s : State} {c : Ctx} (h : s.ctx? = some c) : s.frag? c.f = some c.fr := by
  obtain ⟨_, hu, hw, _, hf⟩ := State.ctx?_some h
  simp [State.frag?, State.warp?, hu, hw, hf]

end Sys2Proof.Machine
end

