-- ==== Sys2Proof/Laws/Word.lean ====
section
/-! SUPPORT. What a word of the lanes does, said once: its writes in the warp, and its retirement. -/
namespace Sys2Proof.Machine

/-! ### Registers, tags and predicates after one write -/

theorem key_eq {r r' t t' : Nat} (h : t < 32) (h' : t' < 32) : 32 * r' + t' = 32 * r + t ↔ r' = r ∧ t' = t := by omega

theorem Warp.reg_setQtag (w : Warp) (q t : Nat) (b : Bool) (r t' : Nat) : (w.setQtag q t b).reg r t' = w.reg r t' := rfl
theorem Warp.reg_setRtag (w : Warp) (r t' : Nat) (a : Nat) (x : RTag) : (w.setRtag a x).reg r t' = w.reg r t' := rfl
theorem Warp.qtag_setRtag (w : Warp) (q t' : Nat) (a : Nat) (x : RTag) : (w.setRtag a x).qtag q t' = w.qtag q t' := rfl

theorem Warp.reg_setReg (w : Warp) (r t : Nat) (x : Word) (r' t' : Nat) (h : t < 32) (h' : t' < 32) :
    (w.setReg r t x).reg r' t' = if r' = r ∧ t' = t then x else w.reg r' t' := by
  simp only [Warp.setReg, Warp.reg_setQtag]
  simp only [Warp.reg, Map.lookD_putD, key_eq h h']

theorem or_bit_getLsbD (m : Mask) (t i : Nat) (h : i < 32) : (m ||| bit t).getLsbD i = if i = t then true else m.getLsbD i := by
  simp only [BitVec.getLsbD_or, bit_getLsbD t i h]
  by_cases e : i = t <;> simp [e]

theorem andn_bit_getLsbD (m : Mask) (t i : Nat) (h : i < 32) : (m &&& ~~~bit t).getLsbD i = if i = t then false else m.getLsbD i := by
  simp only [BitVec.getLsbD_and, BitVec.getLsbD_not, bit_getLsbD t i h, h, decide_true, Bool.true_and]
  by_cases e : i = t <;> simp [e]

theorem Warp.qtag_setQtag (w : Warp) (q t : Nat) (b : Bool) (q' t' : Nat) (h' : t' < 32) :
    (w.setQtag q t b).qtag q' t' = if q' = q ∧ t' = t then b else w.qtag q' t' := by
  simp only [Warp.setQtag, Warp.qtag, Map.lookD_putD]
  by_cases hq : q' = q
  · subst hq
    cases b <;> simp only [if_true, Bool.false_eq_true, if_false, or_bit_getLsbD _ _ _ h', andn_bit_getLsbD _ _ _ h', true_and]
  · simp [hq]

theorem Warp.qtag_setReg (w : Warp) (r t : Nat) (x : Word) (q t' : Nat) (h' : t' < 32) :
    (w.setReg r t x).qtag q t' = if q = r / 4 ∧ t' = t then false else w.qtag q t' := by
  simp only [Warp.setReg, Warp.qtag_setQtag _ _ _ _ _ _ h']
  rfl

theorem Warp.pred_setPred (w : Warp) (p : BitVec 3) (t : Nat) (b : Bool) (p' : BitVec 3) (t' : Nat) (h' : t' < 32) :
    (w.setPred p t b).pred p' t' = if p' = p ∧ t' = t ∧ p ≠ 7#3 then b else w.pred p' t' := by
  unfold Warp.setPred
  by_cases hp : p = 7#3
  · simp [hp]
  · simp only [if_neg hp, Warp.pred, Map.lookD_putD]
    by_cases h7 : p' = 7#3
    · subst h7; simp [Ne.symm hp]
    · by_cases e : p' = p
      · subst e
        cases b <;>
          simp only [if_true, Bool.false_eq_true, if_false, or_bit_getLsbD _ _ _ h', andn_bit_getLsbD _ _ _ h', true_and,
            ne_eq, hp, not_false_eq_true, and_true]
      · have e' : ¬ p'.toNat = p.toNat := fun h => e (BitVec.eq_of_toNat_eq h)
        simp [h7, e, e']

theorem Warp.flags_setFlags (w : Warp) (t : Nat) (x : BitVec 5) (t' : Nat) :
    (w.setFlags t x).flags t' = if t' = t then x else w.flags t' := by
  simp only [Warp.setFlags, Warp.flags, Map.lookD_putD]

/-! ### The writes of one thread -/

theorem lastWrite_nil {α β : Type} [DecidableEq α] (r : α) : lastWrite ([] : List (α × β)) r = none := rfl

theorem lastWrite_cons {α β : Type} [DecidableEq α] (p : α × β) (l : List (α × β)) (r : α) :
    lastWrite (p :: l) r = match lastWrite l r with
      | some x => some x
      | none => if p.1 = r then some p.2 else none := by
  simp only [lastWrite, List.reverse_cons, List.find?_append]
  cases h : l.reverse.find? (fun p => p.1 = r) <;> simp [List.find?_cons]
  split_ifs <;> simp_all

/-- The register writes of one thread. -/
def writeRegs (tag : RTag) (t : Nat) (l : List (Nat × Word)) (w : Warp) : Warp :=
  l.foldl (fun w p => (w.setReg p.1 t p.2).setRtag p.1 tag) w
/-- The predicate writes of one thread. -/
def writePreds (t : Nat) (l : List (BitVec 3 × Bool)) (w : Warp) : Warp := l.foldl (fun w p => w.setPred p.1 t p.2) w

theorem Warp.putOut_eq (w : Warp) (tag : RTag) (t : Nat) (o : Out) :
    w.putOut tag t o =
      (writePreds t o.preds (writeRegs tag t o.regs w)).setFlags t ((writePreds t o.preds (writeRegs tag t o.regs w)).flags t ||| o.ff) := rfl

theorem writeRegs_rest (tag : RTag) (t : Nat) (l : List (Nat × Word)) (w : Warp) :
    writeRegs tag t l w =
      { w with regs := (writeRegs tag t l w).regs, rtags := (writeRegs tag t l w).rtags, qtags := (writeRegs tag t l w).qtags } := by
  induction l generalizing w with
  | nil => rfl
  | cons p l ih =>
    have := ih ((w.setReg p.1 t p.2).setRtag p.1 tag)
    exact this

theorem writeRegs_reg (tag : RTag) (t : Nat) (l : List (Nat × Word)) (w : Warp) (r t' : Nat) (h : t < 32) (h' : t' < 32) :
    (writeRegs tag t l w).reg r t' = if t' = t then (lastWrite l r).getD (w.reg r t') else w.reg r t' := by
  induction l generalizing w with
  | nil => simp [writeRegs, lastWrite_nil]
  | cons p l ih =>
    have := ih ((w.setReg p.1 t p.2).setRtag p.1 tag)
    simp only [Warp.reg_setRtag, Warp.reg_setReg _ _ _ _ _ _ h h'] at this
    rw [show writeRegs tag t (p :: l) w = writeRegs tag t l ((w.setReg p.1 t p.2).setRtag p.1 tag) from rfl, this, lastWrite_cons]
    cases hl : lastWrite l r with
    | none =>
      by_cases e : t' = t
      · by_cases e2 : p.1 = r
        · simp [e, e2]
        · have e3 : ¬ r = p.1 := fun h => e2 h.symm
          simp [e, e2, e3]
      · simp [e]
    | some x => by_cases e : t' = t <;> simp [e]

theorem writeRegs_qtag (tag : RTag) (t : Nat) (l : List (Nat × Word)) (w : Warp) (q t' : Nat) (h' : t' < 32) :
    (writeRegs tag t l w).qtag q t' = if t' = t ∧ l.any (fun p => p.1 / 4 = q) = true then false else w.qtag q t' := by
  induction l generalizing w with
  | nil => simp [writeRegs]
  | cons p l ih =>
    have := ih ((w.setReg p.1 t p.2).setRtag p.1 tag)
    rw [show writeRegs tag t (p :: l) w = writeRegs tag t l ((w.setReg p.1 t p.2).setRtag p.1 tag) from rfl, this, Warp.qtag_setRtag,
      Warp.qtag_setReg _ _ _ _ _ _ h']
    by_cases e : t' = t
    · by_cases e2 : q = p.1 / 4
      · simp [e, e2]
      · have e3 : ¬ p.1 / 4 = q := fun h => e2 h.symm
        simp only [List.any_cons, e3, decide_false, Bool.false_or, e2, false_and, if_false]
    · simp [e]

theorem writePreds_rest (t : Nat) (l : List (BitVec 3 × Bool)) (w : Warp) :
    writePreds t l w = { w with preds := (writePreds t l w).preds } := by
  induction l generalizing w with
  | nil => rfl
  | cons p l ih =>
    have := ih (w.setPred p.1 t p.2)
    rw [show writePreds t (p :: l) w = writePreds t l (w.setPred p.1 t p.2) from rfl]
    refine this.trans ?_
    have e : w.setPred p.1 t p.2 = { w with preds := (w.setPred p.1 t p.2).preds } := by unfold Warp.setPred; split <;> rfl
    rw [e]

theorem writePreds_pred (t : Nat) (l : List (BitVec 3 × Bool)) (w : Warp) (p : BitVec 3) (t' : Nat) (h' : t' < 32) :
    (writePreds t l w).pred p t' = if t' = t ∧ p ≠ 7#3 then (lastWrite l p).getD (w.pred p t') else w.pred p t' := by
  induction l generalizing w with
  | nil => simp [writePreds, lastWrite_nil]
  | cons x l ih =>
    have := ih (w.setPred x.1 t x.2)
    rw [show writePreds t (x :: l) w = writePreds t l (w.setPred x.1 t x.2) from rfl, this, lastWrite_cons]
    simp only [Warp.pred_setPred _ _ _ _ _ _ h']
    cases hl : lastWrite l p with
    | none =>
      by_cases e : t' = t
      · by_cases e7 : p = 7#3
        · subst e7
          by_cases e2 : 7#3 = x.1
          · simp [e, ← e2]
          · simp [e2]
        · by_cases e2 : x.1 = p
          · subst e2; simp [e, e7]
          · have e3 : ¬ p = x.1 := fun h => e2 h.symm
            simp [e, e2, e3]
      · simp [e]
    | some y =>
      by_cases e : t' = t
      · by_cases e7 : p = 7#3
        · subst e7
          by_cases e2 : 7#3 = x.1
          · simp [e, ← e2]
          · simp [e2]
        · simp [e, e7]
      · simp [e]

theorem writePreds_reg (t : Nat) (l : List (BitVec 3 × Bool)) (w : Warp) (r t' : Nat) : (writePreds t l w).reg r t' = w.reg r t' := by
  rw [writePreds_rest]; rfl
theorem writePreds_qtag (t : Nat) (l : List (BitVec 3 × Bool)) (w : Warp) (q t' : Nat) : (writePreds t l w).qtag q t' = w.qtag q t' := by
  rw [writePreds_rest]; rfl
theorem writePreds_flags (t : Nat) (l : List (BitVec 3 × Bool)) (w : Warp) (t' : Nat) : (writePreds t l w).flags t' = w.flags t' := by
  rw [writePreds_rest]; rfl
theorem writeRegs_pred (tag : RTag) (t : Nat) (l : List (Nat × Word)) (w : Warp) (p : BitVec 3) (t' : Nat) :
    (writeRegs tag t l w).pred p t' = w.pred p t' := by
  rw [writeRegs_rest]; rfl
theorem writeRegs_flags (tag : RTag) (t : Nat) (l : List (Nat × Word)) (w : Warp) (t' : Nat) :
    (writeRegs tag t l w).flags t' = w.flags t' := by
  rw [writeRegs_rest]; rfl

/-! ### The writes of all active threads -/

theorem WarpEffect.refl (w : Warp) (d : Delta) (hr : ∀ r t, t < 32 → d.reg r t = none) (hq : ∀ q t, t < 32 → d.quad q t = none)
    (hp : ∀ p t, t < 32 → d.pred p t = none) (hf : ∀ t, t < 32 → d.ff t = 0#5) : WarpEffect w w d :=
  ⟨rfl, fun r t h => by simp [hr r t h], fun q t h => by simp [hq q t h], fun p t h => by simp [hp p t h], fun t h => by simp [hf t h]⟩

/-- The writes of the threads of a list. -/
def Delta.ofList (ts : List Nat) (out : Nat → Out) : Delta where
  reg r t := if t ∈ ts then lastWrite (out t).regs r else none
  quad q t := if t ∈ ts ∧ (out t).regs.any (fun p => p.1 / 4 = q) = true then some false else none
  pred p t := if t ∈ ts ∧ p ≠ 7#3 then lastWrite (out t).preds p else none
  ff t := if t ∈ ts then (out t).ff else 0#5

theorem putOuts_list (tag : RTag) (out : Nat → Out) (ts : List Nat) (w : Warp) (hnd : ts.Nodup) (hlt : ∀ t ∈ ts, t < 32) :
    WarpEffect w (ts.foldl (fun w t => w.putOut tag t (out t)) w) (Delta.ofList ts out) := by
  induction ts generalizing w with
  | nil => exact WarpEffect.refl _ _ (by simp [Delta.ofList]) (by simp [Delta.ofList]) (by simp [Delta.ofList]) (by simp [Delta.ofList])
  | cons u ts ih =>
    have hu : u < 32 := hlt u (by simp)
    have hnot : u ∉ ts := (List.nodup_cons.1 hnd).1
    have ih := ih (w.putOut tag u (out u)) (List.nodup_cons.1 hnd).2 (fun t ht => hlt t (List.mem_cons_of_mem _ ht))
    rw [List.foldl_cons]
    have hrest : w.putOut tag u (out u) = { w with
        regs := (w.putOut tag u (out u)).regs, rtags := (w.putOut tag u (out u)).rtags, qtags := (w.putOut tag u (out u)).qtags,
        preds := (w.putOut tag u (out u)).preds, fflags := (w.putOut tag u (out u)).fflags } := by
      rw [Warp.putOut_eq, writePreds_rest, writeRegs_rest]; rfl
    have hreg : ∀ r t, t < 32 → (w.putOut tag u (out u)).reg r t =
        if t = u then (lastWrite (out u).regs r).getD (w.reg r t) else w.reg r t := by
      intro r t ht
      rw [Warp.putOut_eq]
      exact (writePreds_reg _ _ _ _ _).trans (writeRegs_reg tag u _ _ r t hu ht)
    have hquad : ∀ q t, t < 32 → (w.putOut tag u (out u)).qtag q t =
        if t = u ∧ (out u).regs.any (fun p => p.1 / 4 = q) = true then false else w.qtag q t := by
      intro q t ht
      rw [Warp.putOut_eq]
      exact (writePreds_qtag _ _ _ _ _).trans (writeRegs_qtag tag u _ _ q t ht)
    have hpred : ∀ p t, t < 32 → (w.putOut tag u (out u)).pred p t =
        if t = u ∧ p ≠ 7#3 then (lastWrite (out u).preds p).getD (w.pred p t) else w.pred p t := by
      intro p t ht
      rw [Warp.putOut_eq]
      refine (writePreds_pred u _ _ p t ht).trans ?_
      rw [writeRegs_pred]
    have hff : ∀ t, (w.putOut tag u (out u)).flags t = if t = u then w.flags t ||| (out u).ff else w.flags t := by
      intro t
      rw [Warp.putOut_eq, Warp.flags_setFlags, writePreds_flags, writePreds_flags, writeRegs_flags, writeRegs_flags]
      split_ifs with h
      · rw [h]
      · rfl
    refine ⟨?_, ?_, ?_, ?_, ?_⟩
    · refine ih.rest.trans ?_
      rw [hrest]
    · intro r t ht
      rw [ih.reg r t ht, hreg r t ht]
      by_cases e : t = u
      · subst e; simp [Delta.ofList, hnot]
      · simp [Delta.ofList, e]
    · intro q t ht
      rw [ih.quad q t ht, hquad q t ht]
      by_cases e : t = u
      · subst e
        by_cases e2 : (out t).regs.any (fun p => p.1 / 4 = q) = true
        · simp [Delta.ofList, hnot, e2]
        · simp [Delta.ofList, hnot, e2]
      · by_cases e2 : (out t).regs.any (fun p => p.1 / 4 = q) = true
        · simp [Delta.ofList, e, e2]
        · simp [Delta.ofList, e, e2]
    · intro p t ht
      rw [ih.pred p t ht, hpred p t ht]
      by_cases e : t = u
      · subst e
        by_cases e2 : p = 7#3
        · simp [Delta.ofList, e2]
        · simp [Delta.ofList, hnot, e2]
      · simp [Delta.ofList, e]
    · intro t ht
      rw [ih.flags t ht, hff]
      by_cases e : t = u
      · subst e; simp [Delta.ofList, hnot]
      · simp [Delta.ofList, e]

/-- The writes of the active threads are those that `Delta.of` says. -/
theorem Warp.putOuts_effect (w : Warp) (tag : RTag) (m : Mask) (out : Nat → Out) : WarpEffect w (w.putOuts tag m out) (Delta.of m out) := by
  have h := putOuts_list tag out (threads m) w (threads_nodup m) (fun t ht => (mem_threads.1 ht).1)
  refine ⟨h.rest, ?_, ?_, ?_, ?_⟩
  · intro r t ht
    refine (h.reg r t ht).trans ?_
    simp [Delta.of, Delta.ofList, mem_threads, ht]
  · intro q t ht
    refine (h.quad q t ht).trans ?_
    by_cases e2 : (out t).regs.any (fun p => p.1 / 4 = q) = true
    · simp [Delta.of, Delta.ofList, mem_threads, ht, e2]
    · simp [Delta.of, Delta.ofList, e2]
  · intro p t ht
    refine (h.pred p t ht).trans ?_
    simp [Delta.of, Delta.ofList, mem_threads, ht]
  · intro t ht
    refine (h.flags t ht).trans ?_
    simp [Delta.of, Delta.ofList, mem_threads, ht]

/-! ### Retirement -/

/-- Changing the executing warp by `g` and its core's counters by `k`: what the fragment and the rest become. -/
theorem becomes_edit {s : State} {c : Ctx} (h : s.ctx? = some c) (g : Warp → Warp) (k : CoreSt → CoreSt) {v : Warp} {x : Frag}
    (hk : ∀ x, k x = { x with pmcWarp := (k x).pmcWarp, pmcScalar := (k x).pmcScalar, pmcBeats := (k x).pmcBeats })
    (hg : g c.w = { v with frags := (g c.w).frags }) (ho : ∀ i, i ≠ c.f.fidx → Map.look (g c.w).frags i = Map.look v.frags i)
    (hx : Map.look (g c.w).frags c.f.fidx = some x) :
    Becomes s ((s.editWarp c.f.unit c.f.warp g).editCore c.u.core k) c v x := by
  obtain ⟨_, hu, hw, _, _⟩ := State.ctx?_some h
  have hunit : ∀ u, ((s.editWarp c.f.unit c.f.warp g).editCore c.u.core k).unit? u =
      if u = c.f.unit then some { c.u with warps := Map.edit c.u.warps c.f.warp g } else s.unit? u := by
    intro u
    simp only [State.editWarp, State.unit?_editUnit, State.unit?_editCore]
    split_ifs with e
    · simp [hu, KUnit.editWarp]
    · rfl
  have hcore : ∀ j, ((s.editWarp c.f.unit c.f.warp g).editCore c.u.core k).core j =
      if j = c.u.core then k (s.core c.u.core) else s.core j := by
    intro j
    simp only [State.core_editCore, State.core_editWarp]
  refine ⟨rfl, ?_, ?_, ?_, ?_, ?_⟩
  · intro j hj
    rw [hcore, if_neg hj]
  · rw [hcore, if_pos rfl]
    exact hk _
  · intro u hne
    rw [hunit, if_neg hne]
  · refine ⟨_, (hunit _).trans (if_pos rfl), ?_⟩
    intro w hne
    simp only [Map.look_edit, if_neg hne]
  · refine ⟨(g c.w).frags, ?_, ho, hx⟩
    simp only [State.warp?, hunit, if_true, Option.bind_some, Map.look_edit, hw, Option.map_some]
    rw [hg]

theorem editCore_self (s : State) (k : Nat) : ∀ j, (s.editCore k fun x => x).core j = s.core j := by
  intro j
  rw [State.core_editCore]
  split_ifs with e
  · rw [e]
  · rfl

/-- Changing the executing warp alone. -/
theorem becomes_editWarp {s : State} {c : Ctx} (h : s.ctx? = some c) (g : Warp → Warp) {v : Warp} {x : Frag}
    (hg : g c.w = { v with frags := (g c.w).frags }) (ho : ∀ i, i ≠ c.f.fidx → Map.look (g c.w).frags i = Map.look v.frags i)
    (hx : Map.look (g c.w).frags c.f.fidx = some x) :
    Becomes s (s.editWarp c.f.unit c.f.warp g) c v x := by
  have b := becomes_edit h g (fun x => x) (fun _ => rfl) hg ho hx
  exact ⟨rfl, fun _ _ => rfl, rfl, b.units, b.unit, b.warp⟩

/-- Changing the executing fragment alone, as parking at a wait does. -/
theorem becomes_editFrag {s : State} {c : Ctx} (h : s.ctx? = some c) (g : Frag → Frag) : Becomes s (s.editFrag c.f g) c c.w (g c.fr) := by
  obtain ⟨_, _, _, _, hf⟩ := State.ctx?_some h
  refine becomes_editWarp h _ rfl ?_ ?_
  · intro i hne
    simp only [Warp.editFrag, Map.look_edit, if_neg hne]
  · simp [Warp.editFrag, Map.look_edit, hf]

/-- A word that puts warp `v`, with the fragments it had, in place of its own, and retires. -/
theorem retired_edit {s : State} {c : Ctx} (h : s.ctx? = some c) (g : Warp → Warp) {v : Warp} (hv : g c.w = v) (hf : v.frags = c.w.frags)
    (n : Nat) (b : Bool) (k : Nat) : Retired s ((s.editWarp c.f.unit c.f.warp g).retire c n b k) c n v := by
  obtain ⟨_, _, _, _, hfr⟩ := State.ctx?_some h
  subst hv
  rw [State.retire_eq, State.editWarp_editWarp]
  refine ⟨becomes_edit h _ _ (fun _ => rfl) rfl ?_ ?_, ?_⟩
  · intro i hne
    simp only [Warp.editFrag, Map.look_edit, if_neg hne]
  · simp [Warp.editFrag, Map.look_edit, hf, hfr]
  · simp [State.core_editCore, CoreSt.count]

/-- A word that only retires. -/
theorem retired_self {s : State} {c : Ctx} (h : s.ctx? = some c) (n : Nat) (b : Bool) (k : Nat) : Retired s (s.retire c n b k) c n c.w := by
  obtain ⟨_, _, _, _, hfr⟩ := State.ctx?_some h
  rw [State.retire_eq]
  refine ⟨becomes_edit h _ _ (fun _ => rfl) rfl ?_ ?_, ?_⟩
  · intro i hne
    simp only [Warp.editFrag, Map.look_edit, if_neg hne]
  · simp [Warp.editFrag, Map.look_edit, hfr]
  · simp [State.core_editCore, CoreSt.count]

theorem Frag.nextWord_fmt (x : Frag) (n : Nat) (y : BitVec 14) :
    ({ x with fmt := y } : Frag).nextWord n = { x.nextWord n with fmt := y } := by
  obtain ⟨_, _, _, _, _, _, _, _, _, _, _, _, _, k, _⟩ := x
  cases k with
  | none => rfl
  | some k => simp only [Frag.nextWord]; split <;> rfl

theorem Frag.nextWord_win (x : Frag) (n : Nat) (y : BitVec 5) :
    ({ x with win := y } : Frag).nextWord n = { x.nextWord n with win := y } := by
  obtain ⟨_, _, _, _, _, _, _, _, _, _, _, _, _, k, _⟩ := x
  cases k with
  | none => rfl
  | some k => simp only [Frag.nextWord]; split <;> rfl

/-- A word that changes its fragment and retires. -/
theorem becomes_frag_retire {s : State} {c : Ctx} (h : s.ctx? = some c) (g : Frag → Frag) (n : Nat) (b : Bool) (k : Nat) :
    Becomes s ((s.editFrag c.f g).retire c n b k) c c.w ((g c.fr).nextWord n) := by
  obtain ⟨_, _, _, _, hfr⟩ := State.ctx?_some h
  rw [State.retire_eq, State.editFrag_eq, State.editWarp_editWarp]
  refine becomes_edit h _ _ (fun _ => rfl) rfl ?_ ?_
  · intro i hne
    simp only [Warp.editFrag, Map.look_edit, if_neg hne]
  · simp [Warp.editFrag, Map.look_edit, hfr]

/-- What `withWord` answers where the word is ready. -/
theorem withWord_ready {s : State} {c : Ctx} {use : List Opn} {ps : List (BitVec 3)} (h : Ready s c use ps)
    (body : Ctx → State → State) : withWord use ps body s = .next (body c s) := by
  obtain ⟨h1, h2, h3, h4⟩ := h
  simp [withWord, h1, h2, h3, h4]

/-- A word that is ready answers what its body makes of the state. -/
theorem exec_ready {i : Instr} {s : State} {c : Ctx} {use : List Opn} {ps : List (BitVec 3)} {P : State → Prop} (h : Ready s c use ps)
    (m : State → Host.Outcome State Fault Refusal) (he : exec i s = m s) {body : Ctx → State → State} (hb : m = withWord use ps body)
    (hp : P (body c s)) : ∃ t, exec i s = .next t ∧ P t :=
  ⟨_, by rw [he, hb]; exact withWord_ready h body, hp⟩

/-- What a register word does where it is ready. -/
theorem Alu.run_writes {s : State} {c : Ctx} (a : Alu) (h : Ready s c a.use a.ps) :
    ∃ t v, a.run s = .next t ∧ WarpEffect c.w v (Delta.of c.act (a.out c)) ∧ Retired s t c a.words v := by
  have he := Warp.putOuts_effect c.w (a.result c) c.act (a.out c)
  refine ⟨_, a.warp c, withWord_ready h _, he, retired_edit h.1 _ rfl ?_ _ _ _⟩
  rw [show a.warp c = c.w.putOuts (a.result c) c.act (a.out c) from rfl, he.rest]

end Sys2Proof.Machine
end

