-- ==== Sys2Proof/Laws/Fault.lean ====
section
/-! SUPPORT. What taking a fault does (R273, R417): grouping, the whole fragment parked, and the words whose checks all pass. -/
namespace Sys2Proof.Machine

theorem soloStops_none {s : State} {f : FragRef} {m : Mask} (h : ∀ t < 32, m.getLsbD t = true → s.soloHolder ≠ some (f.unit, f.warp, t)) :
    s.soloStops f m = s := by
  unfold State.soloStops
  have : ∀ l : List Nat, (∀ t ∈ l, s.soloHolder ≠ some (f.unit, f.warp, t)) →
      l.foldl (fun s t => if s.soloHolder = some (f.unit, f.warp, t)
        then (s.doomThread f.unit f.warp t 6#4).releaseSolo f.unit f.warp t else s) s = s := by
    intro l
    induction l with
    | nil => intro _; rfl
    | cons t l ih =>
      intro hl
      rw [List.foldl_cons, if_neg (hl t (by simp))]
      exact ih fun u hu => hl u (List.mem_cons_of_mem _ hu)
  exact this _ fun t ht => h t (mem_threads.1 ht).1 (mem_threads.1 ht).2

theorem NotSolitary.stops {s : State} {c : Ctx} (h : NotSolitary s c) : s.soloStops c.f c.fr.mask = s := soloStops_none h

/-- No thread fails its checks: nothing to group. -/
theorem groupBads_none {m : Mask} {p : Nat → Option Bad} (h : ∀ t ∈ threads m, p t = none) : groupBads m p = [] := by
  unfold groupBads
  have : ∀ l : List Nat, (∀ t ∈ l, p t = none) → ∀ acc : List Bad, l.foldl (fun l t =>
      match p t with
      | none => l
      | some b => addBad l { b with mask := bit t }) acc = acc := by
    intro l
    induction l with
    | nil => intro _ _; rfl
    | cons t l ih =>
      intro hl acc
      rw [List.foldl_cons, hl t (by simp)]
      exact ih (fun u hu => hl u (List.mem_cons_of_mem _ hu)) acc
  exact this _ h []

theorem guarded_nil (s : State) (c : Ctx) (go : Ctx → State → State) : s.guarded c [] go = go c s := rfl

/-- Entries of ranges that are all listed join what is listed. -/
theorem joinFbs_self {l m : List FbEntry} (h : ∀ x ∈ m, x ∈ l) : joinFbs l m = l := by
  unfold joinFbs
  induction m with
  | nil => rfl
  | cons x m ih =>
    have hx : l.any (·.joins x) = true := List.any_eq_true.2 ⟨x, h x (by simp), by simp [FbEntry.joins]⟩
    rw [List.foldl_cons, if_pos hx]
    exact ih fun y hy => h y (List.mem_cons_of_mem _ hy)

/-- Every thread of a mask fails with one and the same cause: one group, whose mask is the mask. -/
theorem groupBads_all {m : Mask} {p : Nat → Option Bad} {b : Bad} (hm : m ≠ 0#32) (h : ∀ t ∈ threads m, p t = some b) :
    groupBads m p = [{ b with mask := m }] := by
  unfold groupBads
  have step : ∀ l : List Nat, (∀ t ∈ l, p t = some b) → ∀ x : Mask, l.foldl (fun l t =>
      match p t with
      | none => l
      | some b => addBad l { b with mask := bit t }) [{ b with mask := x }] = [{ b with mask := l.foldl (fun x t => x ||| bit t) x }] := by
    intro l
    induction l with
    | nil => intro _ _; rfl
    | cons t l ih =>
      intro hl x
      rw [List.foldl_cons, hl t (by simp)]
      simp only [addBad, List.any_cons, decide_true, Bool.true_or, if_true, List.map_cons, List.map_nil, List.foldl_cons,
        joinFbs_self (fun _ hx => hx : ∀ x ∈ b.fb, x ∈ b.fb)]
      exact ih (fun u hu => hl u (List.mem_cons_of_mem _ hu)) _
  have hor : ∀ (l : List Nat) (x : Mask) (i : Nat), i < 32 → (l.foldl (fun x t => x ||| bit t) x).getLsbD i = (x.getLsbD i || l.contains i) := by
    intro l
    induction l with
    | nil => intro x i _; simp
    | cons t l ih =>
      intro x i hi
      rw [List.foldl_cons, ih _ _ hi, or_bit_getLsbD _ _ _ hi]
      by_cases e : i = t <;> simp [e]
  cases hl : threads m with
  | nil =>
    exfalso
    apply hm
    apply BitVec.eq_of_getLsbD_eq
    intro i hi
    by_contra hc
    have : i ∈ threads m := mem_threads.2 ⟨hi, by simpa using hc⟩
    rw [hl] at this
    simp at this
  | cons t l =>
    have h0 := h t (by rw [hl]; simp)
    rw [List.foldl_cons, h0]
    simp only [addBad, List.any_nil, Bool.false_eq_true, if_false, List.nil_append]
    have := step l (fun u hu => h u (by rw [hl]; exact List.mem_cons_of_mem _ hu)) (bit t)
    refine this.trans ?_
    congr 2
    apply BitVec.eq_of_getLsbD_eq
    intro i hi
    rw [hor _ _ _ hi, bit_getLsbD _ _ hi]
    have hmem : i ∈ threads m ↔ i = t ∨ i ∈ l := by rw [hl]; simp
    rw [mem_threads] at hmem
    by_cases e : m.getLsbD i = true
    · have := hmem.1 ⟨hi, e⟩
      rw [e]
      rcases this with q | q <;> simp [q]
    · have hn : ¬ (i = t ∨ i ∈ l) := fun q => e (hmem.2 q).2
      push Not at hn
      simp [hn.1, hn.2, e]

/-- One fault that covers the whole fragment parks it whole. -/
theorem takeFaults_whole {s : State} {c : Ctx} (h : s.ctx? = some c) (hs : NotSolitary s c) {b : Bad} (hm : b.mask = c.fr.mask)
    (h0 : c.fr.mask ≠ 0#32) (hfb : b.fb = []) :
    (s.takeFaults c.f [b]).2 = false ∧ FaultsWhole s (s.takeFaults c.f [b]).1 c b.cause b.addr b.hint b.replay := by
  obtain ⟨_, hu, hw, _, hf⟩ := State.ctx?_some h
  have hfr : s.frag? c.f = some c.fr := State.frag?_of_ctx h
  have e1 : (0#32 ||| b.mask) = c.fr.mask := by rw [hm]; simp
  have e2 : c.fr.mask &&& ~~~c.fr.mask = 0#32 := by
    apply BitVec.eq_of_getLsbD_eq
    intro i hi
    simp
  have key : s.takeFaults c.f [b] = ((s.attach c.u.core c.f c.fr b.mask b), false) := by
    simp only [State.takeFaults, State.takeFaultsAs, badMask, hu, hfr, List.foldl_cons, List.foldl_nil, e1, if_neg h0, e2, if_true, hs.stops, ne_eq, not_true_eq_false, decide_false,
      Bool.false_and, Bool.false_eq_true, if_false, State.splitParts]
  rw [key]
  refine ⟨rfl, ?_⟩
  let park : Warp → Warp := fun w =>
    { w with frags := Map.put w.frags c.f.fidx (c.fr.parkFault b.mask (b.record c.fr b.mask (s.core c.u.core).serial c.u.core)) }
  have hatt : s.attach c.u.core c.f c.fr b.mask b =
      { (s.editWarp c.f.unit c.f.warp park).editCore c.u.core fun k => { k with serial := k.serial + 1#16 } with
        posts := s.posts ++ [.frag c.f (s.core c.u.core).serial] } := by
    have hb : (if ((s.launchOf c.f.unit).map (·.handler)).getD false then { b with fb := [] } else b) = b := by
      cases b
      simp only at hfb
      subst hfb
      simp
    simp only [State.attach, hb, hfb]
    rfl
  have hunit : ∀ u, (s.attach c.u.core c.f c.fr b.mask b).unit? u =
      if u = c.f.unit then some { c.u with warps := Map.edit c.u.warps c.f.warp park } else s.unit? u := by
    intro u
    rw [hatt]
    have : ∀ (x : State) (p : List Post), ({ x with posts := p } : State).unit? u = x.unit? u := fun _ _ => rfl
    rw [this]
    simp only [State.editWarp, State.unit?_editUnit, State.unit?_editCore]
    split_ifs with e
    · simp [hu, KUnit.editWarp]
    · rfl
  have hcore : ∀ j, (s.attach c.u.core c.f c.fr b.mask b).core j =
      if j = c.u.core then { s.core c.u.core with serial := (s.core c.u.core).serial + 1#16 } else s.core j := by
    intro j
    rw [hatt]
    have : ∀ (x : State) (p : List Post), ({ x with posts := p } : State).core j = x.core j := fun _ _ => rfl
    rw [this]
    simp only [State.core_editCore, State.core_editWarp]
  have hwarp : (s.attach c.u.core c.f c.fr b.mask b).warp? c.f.unit c.f.warp = some { c.w with
      frags := Map.put c.w.frags c.f.fidx (c.fr.parkFault b.mask (b.record c.fr b.mask (s.core c.u.core).serial c.u.core)) } := by
    simp only [State.warp?, hunit, if_true, Option.bind_some, Map.look_edit, hw, Option.map_some]
    rfl
  refine ⟨?_, ?_, ?_, ?_, ?_, ?_, ?_⟩
  · rw [hatt]
    rfl
  · intro j hj
    rw [hcore, if_neg hj]
  · rw [hcore, if_pos rfl]
  · intro u hne
    rw [hunit, if_neg hne]
  · refine ⟨_, (hunit _).trans (if_pos rfl), ?_⟩
    intro w hne
    simp only [Map.look_edit, if_neg hne]
  · refine ⟨_, hwarp, ?_⟩
    intro i hne
    simp only [Map.look_put, if_neg hne]
  · simp only [State.frag?, hwarp, Option.bind_some, Map.look_put_self]
    simp only [Frag.parkFault, Bad.record, hm, hfb, List.map_nil]

/-- A fault of every thread of the fragment (R53). -/
theorem faultAll_whole {s : State} {c : Ctx} (h : s.ctx? = some c) (hs : NotSolitary s c) (h0 : c.fr.mask ≠ 0#32) (k : Nat) :
    FaultsWhole s (s.faultAll c k) c k 0 0 true := (takeFaults_whole h hs (b := Bad.of k 0 c.fr.mask) rfl h0 rfl).2

/-- A fault of every active thread, where all are active. -/
theorem faultActive_whole {s : State} {c : Ctx} (h : s.ctx? = some c) (hs : NotSolitary s c) (ha : c.act = c.fr.mask)
    (h0 : c.fr.mask ≠ 0#32) (k : Nat) (a : Word64) : FaultsWhole s (s.faultActive c k a) c k a 0 true := by
  obtain ⟨h2, h1⟩ := takeFaults_whole h hs (b := Bad.of k a c.act) ha h0 rfl
  have e : s.takeFaults c.f [Bad.of k a c.act] = ((s.takeFaults c.f [Bad.of k a c.act]).1, false) := by rw [← h2]
  unfold State.faultActive State.faultWord
  rw [show ({ Bad.of k a 0 with mask := c.act } : Bad) = Bad.of k a c.act from rfl, e, if_neg (by rw [ha]; exact h0)]
  exact h1

/-- Parking at a blocking point other than a barrier's: with WAKE 11 where the gang is asked to park. -/
theorem parkBlocking_becomes {s : State} {c : Ctx} (h : s.ctx? = some c) (hs : NotSolitary s c) (w : Wake)
    (hw : ∀ a b d, w ≠ .barrier a b d) : Becomes s (s.parkBlocking c w) c c.w { c.fr with status := .parkedWait, wake := c.blockWake w, lane := false } := by
  unfold State.parkBlocking State.parkAt
  rw [hs.stops]
  unfold Ctx.blockWake
  cases w <;> first
    | (split_ifs <;> exact becomes_editFrag h _)
    | exact absurd rfl (hw _ _ _)

end Sys2Proof.Machine
end

