-- ==== Sys2Proof/Laws/Memory.lean ====
section
/-! SUPPORT. Memory: a read after a write, and that every memory operation keeps the canonical form. -/
namespace Sys2Proof.Machine

/-! ### Bytes after a write -/

theorem lookD_putBytes (bs : List Byte) (m : List Host.Cell) (pa a : Nat) :
    Map.lookD (putBytes m pa bs) a 0#8 = if pa ≤ a ∧ a < pa + bs.length then bs.getD (a - pa) 0#8 else Map.lookD m a 0#8 := by
  induction bs generalizing m pa with
  | nil => simp only [putBytes, List.length_nil]; rw [if_neg (by omega)]
  | cons b t ih =>
    simp only [putBytes, ih, List.length_cons, Map.lookD_putD]
    by_cases h : a = pa
    · subst h; rw [if_neg (by omega), if_pos (by omega)]; simp
    · by_cases h2 : pa + 1 ≤ a ∧ a < pa + 1 + t.length
      · rw [if_pos h2, if_pos (by omega)]
        have e : a - pa = (a - (pa + 1)) + 1 := by omega
        simp [e]
      · rw [if_neg h2, if_neg h, if_neg (by omega)]

/-- A byte after a write: the byte written, and every other address as before. -/
theorem State.byte_put (s : State) (pa : Nat) (bs : List Byte) (tag : Bool) (a : Nat) :
    (s.put pa bs tag).byte a = if pa ≤ a ∧ a < pa + bs.length then bs.getD (a - pa) 0#8 else s.byte a := by
  unfold State.put
  split_ifs with h0 h1 h1
  · subst h0; simp at h1; omega
  · rfl
  · simp only [State.byte, lookD_putBytes, if_pos h1]
  · simp only [State.byte, lookD_putBytes, if_neg h1]

/-! ### The canonical form -/

theorem Memory.wf_iff (m : List Host.Cell) : Memory.wf m = true ↔ Map.rising m = true ∧ ∀ p ∈ m, p.2 ≠ 0#8 := by
  simp [Memory.wf, List.all_eq_true]

theorem Memory.wf_nil : Memory.wf [] = true := rfl

/-- Memory after reset is canonical. -/
theorem Memory.wf_reset : Memory.wf State.reset.mem = true := rfl

theorem Memory.wf_putD (m : List Host.Cell) (n : Nat) (x : Byte) (h : Memory.wf m = true) : Memory.wf (Map.putD m n x 0#8) = true := by
  rw [Memory.wf_iff] at h ⊢
  refine ⟨Map.rising_putD _ _ _ _ h.1, fun p hp => ?_⟩
  unfold Map.putD at hp
  split_ifs at hp with hx
  · exact h.2 p (Map.mem_del hp)
  · rcases Map.mem_put hp with rfl | hp
    · exact hx
    · exact h.2 p hp

theorem Memory.wf_putBytes (bs : List Byte) (m : List Host.Cell) (pa : Nat) (h : Memory.wf m = true) :
    Memory.wf (putBytes m pa bs) = true := by
  induction bs generalizing m pa with
  | nil => exact h
  | cons b t ih => exact ih _ _ (Memory.wf_putD _ _ _ h)

theorem State.put_wf (s : State) (pa : Nat) (bs : List Byte) (tag : Bool) (h : Memory.wf s.mem = true) :
    Memory.wf (s.put pa bs tag).mem = true := by
  unfold State.put
  split_ifs
  · exact h
  · exact Memory.wf_putBytes _ _ _ h

/-! ### Operations that leave the bytes of memory alone -/

@[simp] theorem State.editCore_memory (s : State) (k : Nat) (f : CoreSt → CoreSt) : (s.editCore k f).mem = s.mem := rfl

@[simp] theorem State.unregister_memory (s : State) (w : Nat) (b : Bool) : (s.unregister w b).mem = s.mem := by
  unfold State.unregister
  split
  · rfl
  · dsimp only; split_ifs <;> rfl

@[simp] theorem State.register_memory (s : State) (w c : Nat) : (s.register w c).mem = s.mem := rfl

@[simp] theorem State.recallWatches_memory (s : State) (l : List Nat) (x : Option (Nat × Nat × Nat)) : (s.recallWatches l x).mem = s.mem := rfl

@[simp] theorem State.selfInvalidate_memory (s : State) (c : Nat) (b : Bool) : (s.selfInvalidate c b).mem = s.mem := rfl

/-- A property of the state that every step of a fold keeps holds after the fold. -/
theorem foldl_keeps {α β : Type} (P : β → Prop) (f : β → α → β) (l : List α) (b : β) (h : P b) (hf : ∀ x a, P x → P (f x a)) :
    P (l.foldl f b) := by
  induction l generalizing b with
  | nil => exact h
  | cons a t ih => exact ih _ (hf _ _ h)

/-! ### The operations of 09 keep the form -/

theorem State.combineCore_wf (s : State) (c w : Nat) (h : Memory.wf s.mem = true) : Memory.wf (s.combineCore c w).mem = true := by
  unfold State.combineCore
  split
  · exact h
  · rw [State.unregister_memory]
    exact State.put_wf _ _ _ _ h

theorem State.combine_wf (s : State) (pa n : Nat) (h : Memory.wf s.mem = true) : Memory.wf (s.combine pa n).mem = true := by
  refine foldl_keeps (fun s : State => Memory.wf s.mem = true) _ _ _ h fun s w h => ?_
  refine foldl_keeps (fun s : State => Memory.wf s.mem = true) _ _ _ h fun s c h => ?_
  have h1 := State.combineCore_wf s c w h
  dsimp only
  split
  · split_ifs
    · exact State.combineCore_wf _ _ _ h1
    · exact h1
  · exact h1

theorem State.homeWrite_wf (s : State) (self : Option (Nat × Nat × Nat)) (core : Option Nat) (pa : Nat) (bs : List Byte) (tag : Bool)
    (h : Memory.wf s.mem = true) : Memory.wf (s.homeWrite self core pa bs tag).mem = true := by
  refine State.put_wf _ _ _ _ ?_
  rw [State.recallWatches_memory]
  refine foldl_keeps (fun s : State => Memory.wf s.mem = true) _ _ _ (State.combine_wf s _ _ h) fun s w h => ?_
  cases core <;> simpa using h

@[simp] theorem State.fillWords_memory (s : State) (c : Nat) (ws : List Nat) (u : Bool) : (s.fillWords c ws u).mem = s.mem := rfl

theorem State.coreWrite_wf (s : State) (self : Option (Nat × Nat × Nat)) (core : Nat) (u : Bool) (pa : Nat) (bs : List Byte) (tag : Bool)
    (h : Memory.wf s.mem = true) : Memory.wf (s.coreWrite self core u pa bs tag).mem = true := by
  unfold State.coreWrite
  split_ifs
  · exact State.homeWrite_wf _ _ _ _ _ _ h
  · dsimp only
    rw [State.fillWords_memory]
    refine State.put_wf _ _ _ _ ?_
    rw [State.recallWatches_memory]
    refine foldl_keeps (fun s : State => Memory.wf s.mem = true) _ _ _ (State.combine_wf s _ _ h) fun s w h => ?_
    rw [State.register_memory]
    split_ifs
    · exact h
    · rw [State.unregister_memory]; exact h

theorem State.homeRead_wf (s : State) (pa n : Nat) (h : Memory.wf s.mem = true) : Memory.wf (s.homeRead pa n).1.mem = true :=
  State.combine_wf s pa n h

@[simp] theorem State.choose_memory (s : State) : s.choose.2.mem = s.mem := rfl

theorem State.makeRoom_wf (s : State) (core line : Nat) (h : Memory.wf s.mem = true) : Memory.wf (s.makeRoom core line).mem = true := by
  unfold State.makeRoom
  split
  · exact h
  · dsimp only
    split_ifs
    · rw [State.unregister_memory]; exact h
    · exact h

theorem State.sliceRoom_wf (s : State) (line : Nat) (h : Memory.wf s.mem = true) : Memory.wf (s.sliceRoom line).mem = true := by
  unfold State.sliceRoom
  split
  · exact h
  · dsimp only
    split_ifs
    · rw [State.recallWatches_memory]
      refine foldl_keeps (fun s : State => Memory.wf s.mem = true) _ _ _ (State.combine_wf _ _ _ (by exact h)) fun s w h => ?_
      rw [State.unregister_memory]; exact h
    · exact h

theorem State.coreRead_wf (s : State) (core : Nat) (u : Bool) (pa n : Nat) (h : Memory.wf s.mem = true) :
    Memory.wf (s.coreRead core u pa n).1.mem = true := by
  unfold State.coreRead
  split_ifs with h1
  · exact State.homeRead_wf _ _ _ h
  · extract_lets here _ take
    have ht : Memory.wf take.2.mem = true := by
      unfold take
      split
      · exact h
      · split_ifs <;> exact h
    generalize take = p at ht ⊢
    obtain ⟨_ | x, s'⟩ := p
    · exact State.homeRead_wf _ _ _ (State.sliceRoom_wf _ _ (State.makeRoom_wf _ _ _ ht))
    · exact ht

theorem State.agentWrite_wf (s : State) (pa : Nat) (bs : List Byte) (h : Memory.wf s.mem = true) : Memory.wf (s.agentWrite pa bs).mem = true := by
  unfold State.agentWrite
  split_ifs
  · exact h
  · exact State.homeWrite_wf _ _ _ _ _ _ h

theorem State.agentRead_wf (s : State) (pa n : Nat) (h : Memory.wf s.mem = true) : Memory.wf (s.agentRead pa n).mem = true := by
  unfold State.agentRead
  split_ifs
  · exact h
  · exact State.combine_wf _ _ _ h

/-! ### Events that happen whole (R298, R304) -/

/-- An event that happens whole leaves no write half done. -/
theorem whole_stalled (g : State → State) (s : State) (h : s.stalled = false) : (whole g s).stalled = false := by
  unfold whole
  dsimp only
  split_ifs with e
  · exact h
  · simpa using e

/-- It keeps whatever it keeps where none of its writes waits. -/
theorem whole_keeps (P : State → Prop) (g : State → State) (s : State) (h : P s) (hg : P (g s)) : P (whole g s) := by
  unfold whole
  dsimp only
  split_ifs
  · exact h
  · exact hg

end Sys2Proof.Machine
end

