-- ==== Sys2Proof/Tests/Slice0.lean ====
section
/-! SUPPORT. Tests: ill-formed terms refused, words written out from the spec's encodings, single instructions on small states, and for
every statement with hypotheses a state and operands that meet them. -/
namespace Sys2Proof.Tests
open Sys2Proof Sys2Proof.Machine
set_option Elab.async false

/-! ### Well-formedness: a literal stands in the default form only, offset 0x40 marks a literal, an unassigned word has no opcode -/

theorem test_wf_sat_literal : Instr.wf (.addI32 .satI 1 2 (.lit 3)) = false := by decide
theorem test_wf_sat_literal64 : Instr.wf (.addI64 .satN 2 4 (.lit 3)) = false := by decide
theorem test_wf_sub_literal : Instr.wf (.subI32 .satN 1 2 (.lit 3)) = false ∧ Instr.wf (.subI64 .satI 2 4 (.lit 3)) = false := by decide
theorem test_wf_iset_literal : Instr.wf (.isetI32 .and 1 .lt 2 (.lit 3)) = false ∧ Instr.wf (.isetN32 .or 1 .lt 2 (.lit 3)) = false := by decide
theorem test_wf_iset64_literal : Instr.wf (.isetI64 .or 1 .lt 2 (.lit 3)) = false ∧ Instr.wf (.isetN64 .and 1 .lt 2 (.lit 3)) = false := by decide
theorem test_wf_fset_literal : Instr.wf (.fsetF32 .and 1 .lt 2 (.lit 3)) = false := by decide
theorem test_wf_shfl_literal : Instr.wf (.shflIdx .w16 1 2 (.lit 3)) = false ∧ Instr.wf (.shflXor .w8 1 2 (.lit 3)) = false := by decide
theorem test_wf_shfl_updown_literal : Instr.wf (.shflUp .w16 1 2 (.lit 3)) = false ∧ Instr.wf (.shflDown .w8 1 2 (.lit 3)) = false := by decide
theorem test_wf_offset40 : Instr.wf (.ldN32 1 ⟨2, .short 0x40⟩) = false ∧ Instr.wf (.stN64 2 ⟨2, .short 0x40⟩) = false := by decide
theorem test_wf_offset40_rmw : Instr.wf (.atomAddN32 .dev 1 ⟨2, .short 0x40⟩) = false ∧ Instr.wf (.redAddF32 .dev 1 ⟨2, .short 0x40⟩) = false := by
  decide
theorem test_wf_offset40_line : Instr.wf (.pref true ⟨2, .short 0x40⟩) = false ∧ Instr.wf (.cwb false ⟨2, .short 0x40⟩) = false
    ∧ Instr.wf (.cinv ⟨2, .short 0x40⟩) = false := by decide
theorem test_wf_unassigned : Instr.wf (.unassignedOpcode 0x00000000) = false ∧ Instr.wf (.unassignedOpcode 0xDE000000) = false := by decide
theorem test_wf_good : Instr.wf (.addI32 .wrap 1 2 (.lit 3)) = true ∧ Instr.wf (.isetI32 .and 1 .lt 2 (.reg 3)) = true
    ∧ Instr.wf (.ldN32 1 ⟨2, .short 0x3F⟩) = true ∧ Instr.wf (.unassignedOpcode 0xFFFFFFFF) = true := by decide

/-! ### Decoding: words built from the fields of R48 (Table 2.2), or given by the spec's examples -/

/-- Format RRR: op [31:23], md [22:21], d [20:14], a [13:7], b [6:0]. -/
def rrr (op md d a b : Nat) : Nat := op * 2 ^ 23 + md * 2 ^ 21 + d * 2 ^ 14 + a * 2 ^ 7 + b
/-- Format RI: op [31:23], d [22:16], a [15:9], imm9 [8:0]. -/
def ri (op d a imm : Nat) : Nat := op * 2 ^ 23 + d * 2 ^ 16 + a * 2 ^ 9 + imm
/-- Format RW: op [31:23], d [22:16], imm16 [15:0]. -/
def rw16 (op d imm : Nat) : Nat := op * 2 ^ 23 + d * 2 ^ 16 + imm
/-- Format BR: op [31:23], off23 [22:0]. -/
def br (op off : Nat) : Nat := op * 2 ^ 23 + off
/-- Format RM: op [31:23], sc [22:20], d [19:13], c [12:8], b [7:1], x [0]. -/
def rm (op sc d c b x : Nat) : Nat := op * 2 ^ 23 + sc * 2 ^ 20 + d * 2 ^ 13 + c * 2 ^ 8 + b * 2 + x
/-- Two words, the first in the low bits. -/
def two (w lit : Nat) : Nat := w + lit * 2 ^ 32

/-- 04, Table 4.9. -/
theorem test_decode_iset : decodeTableWord 32 0x0E088286 = some (.isetI32 .set 2 .lt 5 (.reg 6)) := by decide
theorem test_decode_ffma : decodeTableWord 32 0x31A2858C = some (.ffmaNpF32 .rz 10 11 12) := by decide
theorem test_decode_shli : decodeTableWord 32 0x14030405 = some (.shliB 3 2 5) := by decide
theorem test_decode_movi : decodeTableWord 32 0x1B07FFFE = some (.movi 7 0xFFFE) := by decide
theorem test_decode_ballot : decodeTableWord 32 0x60008480 = some (.ballot 2 ⟨1, true⟩) := by decide
theorem test_decode_xchm : decodeTableWord 64 (two 0x64604000 0xFFFF) = some (.xchm 1 0 (.lit 0xFFFF)) := by decide
/-- 05, the encoding examples. -/
theorem test_decode_cbnd : decodeTableWord 32 0x8020C108 = some (.cbndRound 3 2 8) := by decide
theorem test_decode_ld : decodeTableWord 32 0x8A014321 = some (.ldN32 10 ⟨3, .short 16⟩) := by decide
/-- 02, the example program. -/
theorem test_decode_addi : decodeTableWord 32 0x02040840 = some (.addiI32 4 4 64) := by decide
/-- 06, the encoding examples. -/
theorem test_decode_barinit : decodeTableWord 32 0xBB800104 = some (.barinit 2 4) := by decide
theorem test_decode_bararr : decodeTableWord 64 (two 0xBC618100 0x3000) = some (.bararrLit 6 2 0x3000) := by decide
theorem test_decode_bararr_nobytes : decodeTableWord 32 0xBC218100 = some (.bararrNobytes 6 2) := by decide
theorem test_decode_barwait : decodeTableWord 32 0xBC804106 = some (.barwait 1 2 6) := by decide
/-- 07, the encoding examples. -/
theorem test_decode_xtile : decodeTableWord 32 0xD280C200 = some (.xtile 3 4) := by decide
theorem test_decode_chkw : decodeTableWord 32 0xD5800403 = some (.chkw 8 3) := by decide
theorem test_decode_ncommit : decodeTableWord 32 0xD9250500 = some (.ncommit true 20 10) := by decide
theorem test_decode_maskg : decodeTableWord 32 0xDAA0060E = some (.maskg true 12 14) := by decide
/-- One word of each other family, from its encoding table. -/
theorem test_decode_add_sat : decodeTableWord 32 (rrr 0x000 2 127 126 125) = some (.addI32 .satN 127 126 (.reg 125)) := by decide
theorem test_decode_add_literal : decodeTableWord 64 (two (rrr 0x000 3 1 2 0) 0x80000000) = some (.addI32 .wrap 1 2 (.lit 0x80000000)) := by decide
theorem test_decode_addi64 : decodeTableWord 32 (ri 0x005 8 6 0x100) = some (.addiI64 8 6 0x100) := by decide
theorem test_decode_lea : decodeTableWord 32 (rrr 0x00F 3 5 6 7) = some (.leaN32 3 5 6 7) := by decide
theorem test_decode_prmt : decodeTableWord 32 (rrr 0x02F 0 5 6 7) = some (.prmtB 5 6 (.reg 7)) := by decide
theorem test_decode_pset : decodeTableWord 32 (rrr 0x038 0 3 7 15) = some (.pset .and 3 ⟨7, false⟩ ⟨7, true⟩) := by decide
theorem test_decode_sar64 : decodeTableWord 32 (rrr 0x03C 0 4 6 9) = some (.sarI64 4 6 (.reg 9)) := by decide
theorem test_decode_sel64 : decodeTableWord 32 (rrr 0x048 2 4 6 8) = some (.selN64 2 4 6 8) := by decide
theorem test_decode_fset : decodeTableWord 32 (rrr 0x068 1 (7 * 16 + 6) 2 3) = some (.fsetF32 .and 6 .ord 2 (.reg 3)) := by decide
theorem test_decode_hfma2 : decodeTableWord 32 (rrr 0x078 3 1 2 3) = some (.hfma2F16x2 .rd 1 2 3) := by decide
theorem test_decode_fcvt : decodeTableWord 32 (rrr 0x093 1 1 2 0) = some (.fcvtN8F32 .rz 1 2) := by decide
theorem test_decode_shfl : decodeTableWord 32 (rrr 0x0C7 2 1 2 3) = some (.shflXor .w8 1 2 (.reg 3)) := by decide
theorem test_decode_bra : decodeTableWord 32 (br 0x0E0 0x7FFFFF) = some (.bra 0x7FFFFF) := by decide
theorem test_decode_brx : decodeTableWord 32 0x71000280 = some (.brx 5) := by decide
theorem test_decode_swr : decodeTableWord 32 0x78140002 = some (.swr 20 2) := by decide
theorem test_decode_waitp : decodeTableWord 32 (ri 0x0F2 5 0 (256 + 255)) = some (.waitpImm .tr 255) := by decide
theorem test_decode_ctst : decodeTableWord 32 (rrr 0x104 1 3 4 5) = some (.ctstSub 3 4 5) := by decide
theorem test_decode_ld_reg : decodeTableWord 32 (rm 0x114 0 9 31 127 0) = some (.ldN32 9 ⟨31, .reg 127⟩) := by decide
theorem test_decode_st_literal : decodeTableWord 64 (two (rm 0x11B 0 8 2 0x40 1) 0x12345) = some (.stN64 8 ⟨2, .lit 0x12345⟩) := by decide
theorem test_decode_atom : decodeTableWord 32 (rm 0x154 5 8 2 4 1) = some (.atomCasN64 .dev 8 ⟨2, .short 4⟩) := by decide
theorem test_decode_red : decodeTableWord 32 (rm 0x170 7 8 2 4 1) = some (.redXorN64 .sys 8 ⟨2, .short 4⟩) := by decide
theorem test_decode_fence : decodeTableWord 32 0xB8A14000 = some (.fence .acq .dev) := by decide
theorem test_decode_tabort : decodeTableWord 32 0xBA80007F = some (.tabort 127) := by decide
theorem test_decode_mred : decodeTableWord 32 (rrr 0x17E 0 (2 + 4 * 2) 3 4) = some (.mred .max .n32 3 4) := by decide
theorem test_decode_bcap : decodeTableWord 32 (rrr 0x183 1 1 2 3) = some (.bcapMin true 1 2 3) := by decide
theorem test_decode_mma : decodeTableWord 32 (rrr 0x193 1 63 2 3) = some (.mmaK4 true 63 2 3) := by decide
theorem test_decode_accmx : decodeTableWord 32 (rrr 0x19C 1 4 0 127) = some (.accmx true 4 127) := by decide
theorem test_decode_kvmap : decodeTableWord 32 (rrr 0x1B6 1 4 6 7) = some (.kvmap true 4 6 7) := by decide
theorem test_decode_lnch : decodeTableWord 32 (rrr 0x1BA 0 4 6 7) = some (.lnch 4 6 7) := by decide
theorem test_decode_unassigned : decodeTableWord 32 (rrr 0x1FF 3 1 2 3) = some (.unassignedOpcode (BitVec.ofNat 32 (rrr 0x1FF 3 1 2 3))) := by
  decide

/-- R53: a non-zero unused field, an md or sc that no table lists, and a literal marked with a non-zero field are no words. -/
theorem test_reject_unused : decode (bytesOfWord (rrr 0x0E8 0 0 0 1)) = .error .illegalOpcode := by decide
theorem test_reject_md : decode (bytesOfWord (rrr 0x006 1 1 2 3)) = .error .illegalModifier := by decide
theorem test_reject_sc : decode (bytesOfWord (rm 0x114 1 9 3 2 0)) = .error .illegalModifier := by decide
theorem test_reject_short : decode [0x40#8, 0x08#8, 0x04#8] = .error .short := by decide
theorem test_reject_no_literal : decode (bytesOfWord (rrr 0x000 3 1 2 0)) = .error .short := by decide
/-- Encoding writes the word of Table 4.9 back. -/
theorem test_encode_iset : encode (.isetI32 .set 2 .lt 5 (.reg 6)) = [0x0E088286] := by decide
theorem test_encode_xchm : encode (.xchm 1 0 (.lit 0xFFFF)) = [0x64604000, 0xFFFF] := by decide

/-! ### Small states: one unit of one warp of one fragment, in lane 0 of core 0 -/

/-- Some threads of the fragment active. -/
def tActive (m a : Mask) : Frag := { placeFrag with mask := m, actm := a }
/-- Every thread active. -/
def tAll : Frag := placeFrag
/-- No thread active. -/
def tNone : Frag := tActive allThreads 0
/-- The lower half active. -/
def tHalf : Frag := tActive allThreads 0xFFFF
/-- One thread, active. -/
def tOne : Frag := tActive 1 1
/-- Every thread active, at the last window of the extent. -/
def tTop : Frag := { placeFrag with win := 24 }
/-- A warp with registers. -/
def tWarp (regs : Map Word) : Warp := { placeWarp with regs := regs }
/-- The unit with its warp and fragment. -/
def tUnit (u : KUnit) (w : Warp) (x : Frag) : KUnit := { u with warps := [(0, { w with frags := [(0, x)] })] }
/-- The machine with that unit resident, past boot. -/
def tState (u : KUnit) (w : Warp) (x : Frag) : State :=
  { State.reset with
    cur := some ⟨0, 0, 0⟩, units := [(0, tUnit u w x)], nextUnit := 1, launches := [(0, placeLaunch)], nextLaunch := 1
    cores := [(0, { CoreSt.reset with lanes := [(0, { cur := some ⟨0, 0, 0⟩, lastHigh := false, run := 0 })] })]
    dev := { Dev.reset with stage := 4 } }
/-- Its executing fragment. -/
def tCtx (u : KUnit) (w : Warp) (x : Frag) : Ctx := ⟨⟨0, 0, 0⟩, tUnit u w x, { w with frags := [(0, x)] }, x, placeLaunch⟩
/-- The plain unit. -/
def tU : KUnit := placeUnit 0
/-- The same value in a register of every thread. -/
def inAll (r : Nat) (v : Word) : Map Word := (List.range 32).map fun t => (32 * r + t, v)

/-- What register r of thread t holds after a step. -/
def regAfter (o : Host.Outcome State Fault Refusal) (r t : Nat) : Option Word :=
  match o with
  | .next s => (s.warp? 0 0).map fun w => w.reg r t
  | .fault _ => none
  | .refused _ => none

/-! ### Single instructions on small states; expected values from the spec's tables and worked examples, or worked out by hand from its rules -/

/-- The registers of a one-thread fragment: v2, v3 and v4. -/
def tRegs (x y z : Word) : Map Word := [(64, x), (96, y), (128, z)]
/-- One thread with those registers. -/
def tOneState (x y z : Word) : State := tState tU (tWarp (tRegs x y z)) tOne
/-- The state after a step. -/
def after (o : Host.Outcome State Fault Refusal) : Option State :=
  match o with
  | .next s => some s
  | .fault _ => none
  | .refused _ => none
/-- The fragment after a step. -/
def fragAfter (o : Host.Outcome State Fault Refusal) (i : Nat) : Option Frag := (after o).bind fun s => s.frag? ⟨0, 0, i⟩
/-- %fflags of a thread after a step. -/
def flagsAfter (o : Host.Outcome State Fault Refusal) (t : Nat) : Option (BitVec 5) := (after o).bind fun s => (s.warp? 0 0).map fun w => w.flags t

/-- R103. -/
theorem test_add_wraps : regAfter (exec (.addI32 .wrap 1 2 (.reg 3)) (tOneState 0xFFFFFFFF 1 0)) 1 0 = some 0 := by decide
theorem test_add_signed : regAfter (exec (.addI32 .satI 1 2 (.reg 3)) (tOneState 0x7FFFFFFF 1 0)) 1 0 = some 0x7FFFFFFF := by decide
theorem test_sub_unsigned : regAfter (exec (.subI32 .satN 1 2 (.reg 3)) (tOneState 1 2 0)) 1 0 = some 0 := by decide
theorem test_addi_negative : regAfter (exec (.addiI32 1 2 0x1FF) (tOneState 0 0 0)) 1 0 = some 0xFFFFFFFF := by decide
theorem test_add64_carries : regAfter (exec (.addI64 .wrap 4 2 (.lit 0xFFFFFFFF)) (tOneState 0 1 0)) 5 0 = some 0 := by decide
theorem test_abs_saturates : regAfter (exec (.absI32 true 1 2) (tOneState 0x80000000 0 0)) 1 0 = some 0x7FFFFFFF := by decide
theorem test_neg_wraps : regAfter (exec (.negI32 false 1 2) (tOneState 0x80000000 0 0)) 1 0 = some 0x80000000 := by decide
/-- R104 to R106. -/
theorem test_mulh_signed : regAfter (exec (.mulhI32 1 2 (.reg 3)) (tOneState 0xFFFFFFFF 0xFFFFFFFF 0)) 1 0 = some 0 := by decide
theorem test_mulh_unsigned : regAfter (exec (.mulhN32 1 2 (.reg 3)) (tOneState 0xFFFFFFFF 0xFFFFFFFF 0)) 1 0 = some 0xFFFFFFFE := by decide
theorem test_mad_source_is_destination : regAfter (exec (.madI32 2 2 (.reg 2)) (tOneState 5 0 0)) 2 0 = some 30 := by decide
theorem test_lea_shift4 : regAfter (exec (.leaN32 3 1 2 3) (tOneState 5 3 0)) 1 0 = some 53 := by decide
theorem test_addc_carry_out : (after (exec (.addcN32 0 1 2 3) (tOneState 0xFFFFFFFF 1 0))).bind (fun s => (s.warp? 0 0).map fun w => w.pred 0 0)
    = some true := by decide
/-- R107 to R111. -/
theorem test_min_signed : regAfter (exec (.minI32 1 2 (.reg 3)) (tOneState 0xFFFFFFFF 1 0)) 1 0 = some 0xFFFFFFFF := by decide
theorem test_min_unsigned : regAfter (exec (.minN32 1 2 (.reg 3)) (tOneState 0xFFFFFFFF 1 0)) 1 0 = some 1 := by decide
theorem test_iset_signed : (after (exec (.isetI32 .set 2 .lt 2 (.reg 3)) (tOneState 0xFFFFFFFF 1 0))).bind (fun s => (s.warp? 0 0).map fun w => w.pred 2 0)
    = some true := by decide
theorem test_pack_bit7 : regAfter (exec (.pmovPack 1) (tOneState 0 0 0)) 1 0 = some 0x80 := by decide
theorem test_sel_false : regAfter (exec (.selB 0 1 2 3) (tOneState 7 9 0)) 1 0 = some 9 := by decide
/-- R112 to R115. -/
theorem test_shl_full : regAfter (exec (.shlB 1 2 (.reg 3)) (tOneState 1 32 0)) 1 0 = some 0 := by decide
theorem test_sar_past : regAfter (exec (.sarB 1 2 (.reg 3)) (tOneState 0x80000000 0xFFFFFFFF 0)) 1 0 = some 0xFFFFFFFF := by decide
theorem test_rotl_mod : regAfter (exec (.rotlB 1 2 (.reg 3)) (tOneState 0x80000001 33 0)) 1 0 = some 3 := by decide
theorem test_fshl_zero : regAfter (exec (.fshlB 2 3 (.reg 4)) (tOneState 5 9 32)) 2 0 = some 5 := by decide
/-- R116 to R119: R117 names what its three selectors write. -/
theorem test_bfx_clamped : regAfter (exec (.bfxN32 1 2 (.lit 0x201C)) (tOneState 0xF0000000 0 0)) 1 0 = some 0xF := by decide
theorem test_bfx_outside : regAfter (exec (.bfxI32 1 2 (.lit 0x0820)) (tOneState 0xFFFFFFFF 0 0)) 1 0 = some 0 := by decide
theorem test_bfi_inserts : regAfter (exec (.bfiB 2 3 (.lit 0x0804)) (tOneState 0xFFFFFFFF 0 0)) 2 0 = some 0xFFFFF00F := by decide
theorem test_prmt_keeps : regAfter (exec (.prmtB 2 3 (.lit 0x688)) (tOneState 0x12345678 0x9ABCDEF0 0)) 2 0 = some 0x12345678 := by decide
theorem test_prmt_reverses : regAfter (exec (.prmtB 2 3 (.lit 0x977)) (tOneState 0 0x12345678 0)) 2 0 = some 0x78563412 := by decide
theorem test_prmt_bits : regAfter (exec (.prmtB 2 3 (.lit 0xFF977)) (tOneState 0 0x00000001 0)) 2 0 = some 0x80000000 := by decide
theorem test_clz_zero : regAfter (exec (.clzB 1 2) (tOneState 0 0 0)) 1 0 = some 32 := by decide
theorem test_ctz64 : regAfter (exec (.ctzN64 1 2) (tOneState 0 4 0)) 1 0 = some 34 := by decide
theorem test_movi : regAfter (exec (.movi 7 0xFFFE) (tOneState 0 0 0)) 7 0 = some 0xFFFFFFFE := by decide
theorem test_movh : regAfter (exec (.movh 7 0xFFFE) (tOneState 0 0 0)) 7 0 = some 0xFFFE0000 := by decide
/-- R75, R80, R122. -/
theorem test_fadd_minus_zero : regAfter (exec (.faddF32 .rd 1 2 3) (tOneState 0x3F800000 0xBF800000 0)) 1 0 = some 0x80000000 := by decide
theorem test_fmul_invalid : regAfter (exec (.fmulF32 .rn 1 2 3) (tOneState 0x7F800000 0 0)) 1 0 = some 0x7FC00000
    ∧ flagsAfter (exec (.fmulF32 .rn 1 2 3) (tOneState 0x7F800000 0 0)) 0 = some 0b10000 := by decide
theorem test_frcp_zero : regAfter (exec (.frcpF32 .rn 1 2) (tOneState 0x80000000 0 0)) 1 0 = some 0xFF800000
    ∧ flagsAfter (exec (.frcpF32 .rn 1 2) (tOneState 0x80000000 0 0)) 0 = some 0b01000 := by decide
theorem test_fmin_nan : regAfter (exec (.fminF32 1 2 (.reg 3)) (tOneState 0x7FC00000 0x40000000 0)) 1 0 = some 0x40000000 := by decide
theorem test_frnd_minus : regAfter (exec (.frndF32 .rn 1 2) (tOneState 0xBECCCCCD 0 0)) 1 0 = some 0x80000000 := by decide
theorem test_ffma_np : regAfter (exec (.ffmaNpF32 .rz 4 2 3) (tOneState 0x40000000 0x40400000 0x41200000)) 4 0 = some 0x40800000 := by decide
/-- Table 3.4. -/
theorem test_cvt_bf16_tie : regAfter (exec (.fcvtBf16F32 .rn 1 2) (tOneState 0x3F808000 0 0)) 1 0 = some 0x3F80 := by decide
theorem test_cvt_bf16_up : regAfter (exec (.fcvtBf16F32 .ru 1 2) (tOneState 0x3F808000 0 0)) 1 0 = some 0x3F81 := by decide
theorem test_cvt_bf16_overflow : regAfter (exec (.fcvtBf16F32 .rn 1 2) (tOneState 0x7F7FFFFF 0 0)) 1 0 = some 0x7F80
    ∧ flagsAfter (exec (.fcvtBf16F32 .rn 1 2) (tOneState 0x7F7FFFFF 0 0)) 0 = some 0b00101 := by decide
theorem test_cvt_bf16_max : regAfter (exec (.fcvtBf16F32 .rz 1 2) (tOneState 0x7F7FFFFF 0 0)) 1 0 = some 0x7F7F
    ∧ flagsAfter (exec (.fcvtBf16F32 .rz 1 2) (tOneState 0x7F7FFFFF 0 0)) 0 = some 0b00001 := by decide
theorem test_cvt_i32_rn : regAfter (exec (.fcvtI32F32 .rn 1 2) (tOneState 0xC0200000 0 0)) 1 0 = some 0xFFFFFFFE := by decide
theorem test_cvt_i32_rd : regAfter (exec (.fcvtI32F32 .rd 1 2) (tOneState 0xC0200000 0 0)) 1 0 = some 0xFFFFFFFD := by decide
theorem test_cvt_i8_high : regAfter (exec (.fcvtI8F32 .rn 1 2) (tOneState 0x43480000 0 0)) 1 0 = some 127
    ∧ flagsAfter (exec (.fcvtI8F32 .rn 1 2) (tOneState 0x43480000 0 0)) 0 = some 0b10000 := by decide
theorem test_cvt_n8_negative : regAfter (exec (.fcvtN8F32 .rn 1 2) (tOneState 0xBF800000 0 0)) 1 0 = some 0 := by decide
theorem test_cvt_i32_nan : regAfter (exec (.fcvtI32F32 .rn 1 2) (tOneState 0x7FC00000 0 0)) 1 0 = some 0 := by decide
/-- Four threads, of which the worked example of Table 4.10 tells. -/
def tFour : Warp := tWarp [(128, 0x3F800000), (129, 0x33800000), (130, 0x33800000), (131, 0x33800000)]
theorem test_redw_rn : regAfter (exec (.redwF32 .rn 5 4 .add) (tState tU tFour (tActive allThreads 0xF))) 5 3 = some 0x3F800000
    ∧ flagsAfter (exec (.redwF32 .rn 5 4 .add) (tState tU tFour (tActive allThreads 0xF))) 0 = some 0b00001 := by decide
theorem test_redw_ru : regAfter (exec (.redwF32 .ru 5 4 .add) (tState tU tFour (tActive allThreads 0xF))) 5 0 = some 0x3F800003
    ∧ regAfter (exec (.redwF32 .ru 5 4 .add) (tState tU tFour (tActive allThreads 0xF))) 5 4 = some 0 := by decide
/-- R135: the exclusive scan gives the first thread the identity. -/
theorem test_scanw_identity : regAfter (exec (.scanwI32 5 4 .min true) (tState tU tFour (tActive allThreads 0xF))) 5 0 = some 0x7FFFFFFF := by decide
/-- R131: no thread beyond the active ones. -/
theorem test_ballot : regAfter (exec (.ballot 5 ⟨7, false⟩) (tState tU tFour (tActive allThreads 0xF))) 5 3 = some 0xF := by decide
/-- R132: thread 3's neighbour is not active, so it keeps vd. -/
theorem test_shfl_down : regAfter (exec (.shflDown .w32 4 4 (.lit 1)) (tState tU tFour (tActive allThreads 0xF))) 4 0 = some 0x33800000
    ∧ regAfter (exec (.shflDown .w32 4 4 (.lit 1)) (tState tU tFour (tActive allThreads 0xF))) 4 3 = some 0x33800000 := by decide
/-- 05, worked example: c2, and the length in a pair (here v20, v21: v8 and v9 are registers of c2 by R29). -/
def tBounds : Cap := ⟨0, 0, 0, 0x7FF80, 0x00080, 5, 0x4000001000⟩
/-- A warp whose c2 in thread 0 is that capability, tagged. -/
def tCapWarp : Warp := (tWarp [(640, 5000001)]).setQuad .general 8 0 tBounds.bits true
theorem test_bounds_decode : tBounds.bounds = some (0x4000000000, 0x4001000000) := by decide
theorem test_cbnd_round : (after (exec (.cbndRound 3 2 20) (tState tU tCapWarp tOne))).bind (fun s => (s.warp? 0 0).map fun w =>
    (w.qtag 3 0, decide (Cap.of (w.quad 12 0) = ⟨0, 0, 0, 0x98969, 0, 3, 0x4000001000⟩))) = some (true, true) := by decide
theorem test_cbnd_exact : (after (exec (.cbndExact 3 2 20) (tState tU tCapWarp tOne))).bind (fun s => (s.warp? 0 0).map fun w => w.qtag 3 0)
    = some false := by decide
/-- R30: a data write clears the tag of its quad. -/
theorem test_tag_cleared : (after (exec (.movi 9 0) (tState tU tCapWarp tOne))).bind (fun s => (s.warp? 0 0).map fun w => w.qtag 2 0) = some false := by
  decide
/-- R136: without an active thread control falls to the next header. -/
theorem test_bra_untaken : (fragAfter (exec (.bra 5) (tState tU (tWarp []) tNone)) 0).map (fun x => (x.pc, x.clause.isNone)) = some (64, true) := by decide
/-- R53 step 4, R49: an odd pair is an illegal opcode; R27: a register past the extent is a window fault. -/
theorem test_odd_pair : (fragAfter (exec (.addI64 .wrap 3 4 (.reg 6)) (tState tU (tWarp []) tAll)) 0).map (fun x => (x.status, x.frec.map (·.cause)))
    = some (.parkedFault, some 0x01) := by decide
theorem test_window : (fragAfter (exec (.movi 127 0) (tState tU (tWarp []) { placeFrag with win := 25 })) 0).map (fun x => x.frec.map (·.cause))
    = some (some 0x04) := by decide
/-- R143, R144: NOP goes on; TRAP stops the thread with its cause and imm16 as hint. -/
theorem test_nop : (fragAfter (exec .nop (tState tU (tWarp []) tAll)) 0).map (·.pc) = some 8 := by decide
theorem test_trap : (fragAfter (exec (.trap 0xBEEF) (tState tU (tWarp []) tAll)) 0).map (fun x => x.frec.map fun r => (r.cause, r.hint, r.replay))
    = some (some (0x30, 0xBEEF, false)) := by decide
/-- R142, R272: a fragment whose every thread exits is dead. -/
theorem test_exit : (fragAfter (exec .exit (tState tU (tWarp []) tAll)) 0).map (·.status) = some .dead := by decide +kernel
/-- R147: the two legal fields of %fmt. -/
theorem test_setfmt : (fragAfter (exec (.setfmt .set 0xFFFF) (tState tU (tWarp []) tAll)) 0).map (·.fmt) = some 0x3F1F := by decide
/-- R148, R33: %lane, and a number that Table 1.5 does not have. -/
theorem test_srd_tid : regAfter (exec (.srd 1 0) (tState tU (tWarp []) tAll)) 1 31 = some 31 := by decide
theorem test_srd_none : (fragAfter (exec (.srd 1 13) (tState tU (tWarp []) tAll)) 0).map (fun x => x.frec.map (·.cause)) = some (some 0x05) := by decide
/-- 02, R54: an unassigned opcode. -/
theorem test_unassigned : (fragAfter (exec (.unassignedOpcode 0xFFFFFFFF) (tState tU (tWarp []) tAll)) 0).map (fun x => x.frec.map (·.cause))
    = some (some 0x01) := by decide
/-- R189: TABORT outside a transaction gives code 9; R185: an Open thread is doomed with EXPLICIT and its number. -/
theorem test_tabort_idle : ((after (exec (.tabort 3) (tState tU (tWarp []) tOne))).bind fun s => (s.warp? 0 0).map fun w => (w.tx 0).code) = some 9 := by decide
theorem test_tabort_open : ((after (exec (.tabort 3) (tState tU { tWarp [] with txn := [(0, { Txn.idle with st := .opened })] } tOne))).bind fun s =>
    (s.warp? 0 0).map fun w => ((w.tx 0).st, (w.tx 0).code, (w.tx 0).user)) = some (.doomed, 4, 3) := by decide
/-- R199, R193: a barrier word written by BARINIT reads back with its expected count and mode. -/
theorem test_barinit : (after (exec (.barinit 2 4) (tState tU (tWarp [(64, 0x100), (128, 64), (160, 4096)]) tOne))).bind (fun s => (s.unit? 0).map fun u =>
    ((u.bar 0x100).threxp, (u.bar 0x100).thrrem, (u.bar 0x100).phase, (u.bar 0x100).valid)) = some (64, 64, 0, true) := by decide
/-- R439: the stages of boot; R435: no register is written before the last. -/
theorem test_boot_stage : ((after (exec (.bootStageComplete true) State.reset)).map fun s => s.dev.stage) = some 1 := by decide
theorem test_csr_early : ((after (exec (.csrWrite 0x10 8 0x1000) State.reset)).map fun s => s.dev.ctxt) = some 0 := by decide
theorem test_csr_late : ((after (exec (.csrWrite 0x10 8 0x1FFF) (tState tU (tWarp []) tAll))).map fun s => s.dev.ctxt) = some 0x1000 := by decide
/-- R445. -/
theorem test_throttle_floor : ((after (exec (.throttleStepDown true) { State.reset with dev := { Dev.reset with clk := 750 } })).map fun s => s.dev.clk)
    = some 700 := by decide

/-! ### States and operands that meet the hypotheses of the statements -/

/-- A word whose registers are in the window, aligned, and awaited by nothing may act. -/
theorem ready_of {u : KUnit} {w : Warp} {x : Frag} {s : State} {use : List Opn} {ps : List PredReg} (h : s.ctx? = some (tCtx u w x))
    (h1 : (tCtx u w x).inWindow use = true) (h2 : aligned use = true) (h3 : (tCtx u w x).interlocked use ps = false) :
    Ready s (tCtx u w x) use ps := ⟨h, h1, h2, h3⟩

/-- Nobody holds the solitary grant. -/
theorem notSolitary_of {s : State} {c : Ctx} (h : s.soloHolder = none) : NotSolitary s c := by
  intro t _ _; rw [h]; nofun

/-- A die that holds no translation holds none that is stale. -/
theorem heldTrue_of {s : State} {c : Ctx} (h : (s.die (dieOf c.u.core)).tlb = [])
    (hc : (s.cores.all fun p => p.2.reds = [] && p.2.held = []) = true) : HeldTrue s c := by
  refine ⟨fun va => by unfold State.combineWalk; rw [if_pos hc], fun e he => ?_⟩
  rw [h] at he; nomatch he

/-- No line is locked where no migration runs and nobody holds the solitary grant. -/
theorem quiet_of {s : State} (hs : s.soloHolder = none) (hd : s.dies.all (fun p => p.2.migState = 0) = true) (a : Nat) (w : Bool) :
    s.lineBusy none a w = false := by
  have hm : ∀ a, s.migLocked a = false := by
    intro a
    unfold State.migLocked
    rw [List.any_eq_false]
    intro p hp
    have := List.all_eq_true.mp hd p hp
    simp only [decide_eq_true_eq] at this
    simp [this]
  have hl : ∀ u o, s.commitLocks u o = none := fun u o => by simp [State.commitLocks, hm]
  unfold State.lineBusy State.soloLocked State.commitLocked
  rw [hs, hm]
  simp [hl]

/-- Where no die holds a translation, what translates is the walk. -/
theorem leafBy_of {s : State} (h : s.dies.all (fun p => p.2.tlb.isEmpty) = true) (die ctx va pick : Nat) : s.leafBy die ctx va pick = s.walk ctx va := by
  have hd : (s.die die).tlb = [] := by
    have : ∀ l : Map Die, l.all (fun p => p.2.tlb.isEmpty) = true → (Map.lookD l die Die.reset).tlb = [] := by
      intro l; induction l with
      | nil => intro _; rfl
      | cons p t ih =>
        obtain ⟨a, b⟩ := p
        intro hl
        simp only [List.all_cons, Bool.and_eq_true, List.isEmpty_iff] at hl
        unfold Map.lookD Map.look
        split
        · exact hl.1
        · exact ih hl.2
    exact this s.dies h
  simp [State.leafBy, State.heldOther, hd]
theorem leafAny_of {s : State} (h : s.dies.all (fun p => p.2.tlb.isEmpty) = true) (ctx va : Nat) : s.leafAny ctx va = s.walk ctx va := leafBy_of h ..
theorem leafOf_of {s : State} (h : s.dies.all (fun p => p.2.tlb.isEmpty) = true) (die ctx va : Nat) : s.leafOf die ctx va = s.walk ctx va := leafBy_of h ..
theorem schedPa_of {s : State} (h : s.dies.all (fun p => p.2.tlb.isEmpty) = true) (ctx a : Nat) :
    s.schedPa ctx a = if 2 ^ 56 ≤ a then none else match s.walk ctx a with
      | .ok l => if l.rd && l.wr then some (l.pa a) else none
      | .error _ => none := by
  unfold State.schedPa; rw [leafAny_of h]; all_goals rfl
theorem vnum_of {s : State} (h : s.dies.all (fun p => p.2.tlb.isEmpty) = true) (ctx va n : Nat) :
    s.vnum ctx va n = (((span va n).mapM fun a => match s.walk ctx a with
      | .ok l => if s.poisoned (l.pa a) 1 then none else some ((s.combine (l.pa a) 1).byte (l.pa a))
      | .error _ => none).map leNat).getD 0 := by
  unfold State.vnum State.vbytes; simp only [leafOf_of h]; all_goals rfl
theorem readable_of {s : State} (h : s.dies.all (fun p => p.2.tlb.isEmpty) = true) (ctx va n : Nat) :
    s.readable ctx va n = (n = 0 || (span (va / 131072) ((va + n - 1) / 131072 + 1 - va / 131072)).all fun p => match s.walk ctx (131072 * p) with
      | .ok l => l.rd && !(s.poisoned (l.pa (max va (131072 * p))) (min (va + n) (131072 * p + 131072) - max va (131072 * p)))
      | .error _ => false) := by
  unfold State.readable; simp only [leafAny_of h]; all_goals rfl

/-- No core holds a marked bank. -/
theorem noMarks_of {s : State} (h : s.cores.all (fun p => p.2.marks.isEmpty) = true) (j : Nat) : (s.core j).marks = [] := by
  have : ∀ l : Map CoreSt, l.all (fun p => p.2.marks.isEmpty) = true → (Map.lookD l j CoreSt.reset).marks = [] := by
    intro l; induction l with
    | nil => intro _; rfl
    | cons p t ih =>
      obtain ⟨a, b⟩ := p
      intro hl
      simp only [List.all_cons, Bool.and_eq_true, List.isEmpty_iff] at hl
      unfold Map.lookD Map.look
      split
      · exact hl.1
      · exact ih hl.2
  exact this s.cores h

/-- No core has a partial. -/
theorem noPartials_of {s : State} (h : s.cores.all (fun p => p.2.reds.isEmpty && p.2.held.isEmpty) = true) : s.NoPartials := by
  intro k
  have : ∀ l : Map CoreSt, l.all (fun p => p.2.reds.isEmpty && p.2.held.isEmpty) = true → (Map.lookD l k CoreSt.reset).reds = [] ∧ (Map.lookD l k CoreSt.reset).held = [] := by
    intro l; induction l with
    | nil => intro _; exact ⟨rfl, rfl⟩
    | cons p t ih =>
      obtain ⟨a, b⟩ := p
      intro hl
      simp only [List.all_cons, Bool.and_eq_true, List.isEmpty_iff] at hl
      unfold Map.lookD Map.look
      split
      · exact hl.1
      · exact ih hl.2
  exact this s.cores h

/-- The plain state and its executing fragment: every thread, one, half, none, and the window's last registers. -/
def sAll : State := tState tU (tWarp []) tAll
def cAll : Ctx := tCtx tU (tWarp []) tAll
def sTop : State := tState tU (tWarp []) tTop
def cTop : Ctx := tCtx tU (tWarp []) tTop
def sNone : State := tState tU (tWarp []) tNone
def cNone : Ctx := tCtx tU (tWarp []) tNone
def sHalf : State := tState tU (tWarp []) tHalf
def cHalf : Ctx := tCtx tU (tWarp []) tHalf

/-- IntegerArithmetic, CompareLogicAndMoves: registers at the window's end, pairs, a literal, predicates. -/
theorem wit_IntegerArithmetic :
    Ready sTop cTop [opV 127, opV 126, opV 125] [] ∧ Ready sTop cTop (opV 127 :: opV 126 :: opdV (.lit 1)) []
      ∧ Ready sTop cTop [opP 126, opP 124, opP 122] [] ∧ Ready sTop cTop [opV 127, opV 126] [] ∧ Ready sTop cTop [opP 126, opP 124] []
      ∧ Ready sTop cTop [opV 127, opV 0, opV 0] [3] ∧ Ready sTop cTop [opP 126, opP 0, opV 127] [] ∧ Ready sTop cTop [opP 126, opP 0, opP 124] [0] := by
  repeat' apply And.intro
  all_goals rfl

theorem wit_CompareLogicAndMoves :
    Ready sTop cTop (opV 127 :: opdV (.reg 126)) [7] ∧ Ready sTop cTop (opP 126 :: opdP (.lit 0)) [0] ∧ Ready sTop cTop [] [3, 7, 0]
      ∧ Ready sTop cTop [opV 127] [6] ∧ Ready sTop cTop [opV 0] [0, 1, 2, 3, 4, 5, 6] ∧ Ready sTop cTop (opP 126 :: opP 0 :: opdV (.reg 127)) []
      ∧ Ready sTop cTop [opV 127, opP 126] [] ∧ Ready sTop cTop [opP 126] []
      ∧ ∃ pos len : Nat → Nat, (∀ t, pos t = (cTop.rdO (.lit 0x201F) t).toNat % 256)
        ∧ (∀ t, len t = min ((cTop.rdO (.lit 0x201F) t).toNat / 256 % 256) (32 - pos t)) ∧ pos 0 = 31 ∧ len 0 = 1 := by
  refine ⟨?_, ?_, ?_, ?_, ?_, ?_, ?_, ?_, _, _, fun _ => rfl, fun _ => rfl, by decide, by decide⟩
  all_goals
    repeat' apply And.intro
    all_goals rfl

theorem wit_FloatAndConversionWords :
    Ready sTop cTop [opV 127, opV 126, opV 125] [] ∧ Ready sTop cTop (opV 127 :: opdV (.lit 0x7FC00000)) [7] ∧ Ready sTop cTop [opV 127, opV 127] []
      ∧ Ready sTop cTop [opV 127, opP 126] [] ∧ Ready sTop cTop [opP 126, opV 127] [] := by
  repeat' apply And.intro
  all_goals rfl

/-- RoundingMeetsR79: a number that overflows, and one that does not. -/
theorem wit_RoundingMeetsR79_overflow : f32.Overflows .rz ((-1) * 1 * 2 ^ (128 : Int)) ∧ f16.Overflows .rz (1 * 1 * 2 ^ (16 : Int)) := by
  constructor <;> simp [Fmt.Overflows, f32, f16, Fmt.bias]
theorem wit_RoundingMeetsR79_fits : ¬ f32.Overflows .rz (1 * 1 * 2 ^ (127 : Int)) ∧ (1 : Nat) ≠ 0 := by
  refine ⟨?_, by decide⟩
  simp [Fmt.Overflows, f32, Fmt.bias]
  norm_num

/-- FloatResultsExact: finite patterns from the least subnormal to the largest number, sums and products that are zero and that are not, NaNs,
infinities. -/
theorem wit_FloatResultsExact_classes :
    f32.Finite 1 ∧ f32.Finite 0x7F7FFFFF ∧ f16.Finite 0x7BFF ∧ bf16.Finite 0xFF7F ∧ (f32.val 0x7FC00000).isNan = true ∧ (f32.val 0x7F800001).isSnan = true
      ∧ f32.val 0x7F800000 = .inf false ∧ f32.val 0xFF800000 = .inf true ∧ (f32.val 0x80000000).isZero = true
      ∧ f32.val 0x7F800001 = .nan true ∧ 0x80000000 < 0x80000001 ∧ 0xFF800000 ≤ 0xFF800000 := by
  refine ⟨?_, ?_, ?_, ?_, by decide, by decide, by decide, by decide, by decide, by decide, by decide, by decide⟩
  all_goals exact ⟨by decide, by decide⟩
theorem wit_FloatResultsExact_numbers : f32.rat 0x3F800000 = 1 ∧ f32.rat 0xBF800000 = -1 ∧ f32.rat 0x3F800000 + f32.rat 0xBF800000 = 0
    ∧ f32.rat 0x3F800000 + f32.rat 0x3F800000 ≠ 0 ∧ f32.rat 0 * f32.rat 0x3F800000 = 0 ∧ f32.rat 0 < f32.rat 0x3F800000 := by
  have h1 : f32.rat 0x3F800000 = 1 := by
    show (FVal.rat (f32.val 0x3F800000)) = 1
    rw [show f32.val 0x3F800000 = .fin false 0x800000 (-23) by decide]; simp [FVal.rat]; norm_num
  have h2 : f32.rat 0xBF800000 = -1 := by
    show (FVal.rat (f32.val 0xBF800000)) = -1
    rw [show f32.val 0xBF800000 = .fin true 0x800000 (-23) by decide]; simp [FVal.rat]; norm_num
  have h3 : f32.rat 0 = 0 := by
    show (FVal.rat (f32.val 0)) = 0
    rw [show f32.val 0 = .fin false 0 (-149) by decide]; simp [FVal.rat]
  rw [h1, h2, h3]; norm_num

/-- WarpExchange: registers at the window's end, the lowest active thread, ranks. -/
theorem wit_WarpExchange :
    Ready sTop cTop [opV 127] [7] ∧ Ready sTop cTop [] [6, 7] ∧ Ready sTop cTop (opV 127 :: opV 126 :: opdV (.reg 125)) []
      ∧ (cHalf.act.getLsbD 0 = true ∧ ∀ i < 0, cHalf.act.getLsbD i = false) ∧ threads cTop.act = 0 :: (List.range 31).map (· + 1)
      ∧ cTop.act ≠ 0#32 ∧ (cTop.rdO (.lit 0xFFFFFFFF) 31 = 0xFFFFFFFF#32) ∧ (cTop.rdO (.lit 0x7FFFFFFF) 31).getLsbD 31 = false := by
  refine ⟨⟨rfl, rfl, rfl, rfl⟩, ⟨rfl, rfl, rfl, rfl⟩, ⟨rfl, rfl, rfl, rfl⟩, ⟨by decide, nofun⟩, by decide, by decide, by decide, by decide⟩

/-- CapabilityWords: the last capability register; a source that lies within a tagged one with derive, one that is malformed, and the whole space. -/
def tDerive : Cap := ⟨0, 0, 0xFF, 0, 0, 63, 0⟩
def tMalformed : Cap := ⟨0, 0, 0xFF, 5, 3, 40, 0x1000⟩
def tCapsWarp : Warp := (((tWarp []).setQuad .general (384 + 4 * 30) 0 tBounds.bits true).setQuad .general (384 + 4 * 29) 0 tDerive.bits true).setQuad
  .general (384 + 4 * 28) 0 tMalformed.bits true
def tTopOne : Frag := { tOne with win := 24 }
theorem wit_CapabilityWords_ready :
    Ready sTop cTop [opC 31, opC 30, opP 126] [] ∧ Ready sTop cTop (opC 31 :: opC 30 :: opdV (.lit 1)) [] ∧ Ready sTop cTop [opV 127, opC 31] []
      ∧ Ready sTop cTop [opP 126, opC 31] [] ∧ Ready sTop cTop [opC 31] [6] ∧ Ready sTop cTop [opC 31, opC 30] [0] ∧ Ready sTop cTop [opC 31, opC 30, opC 29] [] := by
  repeat' apply And.intro
  all_goals rfl
theorem wit_CapabilityWords_derive : Ready (tState tU tCapsWarp tTopOne) (tCtx tU tCapsWarp tTopOne) [opC 31, opC 30, opC 29] []
    ∧ ∀ t ∈ threads (tCtx tU tCapsWarp tTopOne).act, (tCtx tU tCapsWarp tTopOne).capTag 29 t = true ∧ ((tCtx tU tCapsWarp tTopOne).cap 29 t).bounds ≠ none
      ∧ ((tCtx tU tCapsWarp tTopOne).cap 29 t).rsv = 0 ∧ ((tCtx tU tCapsWarp tTopOne).cap 29 t).perm / 128 % 2 = 1
      ∧ ((tCtx tU tCapsWarp tTopOne).cap 29 t).covers ((tCtx tU tCapsWarp tTopOne).cap 30 t) = true
      ∧ ((tCtx tU tCapsWarp tTopOne).cap 30 t).bounds = some (0x4000000000, 0x4001000000) ∧ ((tCtx tU tCapsWarp tTopOne).cap 28 t).bounds = none := by
  refine ⟨⟨rfl, rfl, rfl, rfl⟩, by decide +kernel⟩
/-- The clauses on bounds: a length that fits at exponent 3, the whole space, and one that no exponent holds exactly. -/
theorem wit_CapabilityWords_bounds :
    (∀ e' < 3, 2 ^ 20 - 1 < ceilDiv (0x4000001000 + 5000001) (2 ^ e') - 0x4000001000 / 2 ^ e')
      ∧ ceilDiv (0x4000001000 + 5000001) (2 ^ 3) - 0x4000001000 / 2 ^ 3 ≤ 2 ^ 20 - 1 ∧ (0 : Nat) + 2 ^ 56 = 2 ^ 56 := by decide

/-- The machine with page tables: the text of context 1 at 0x60000, its clause map at 0x61000 naming headers at words 0, 16 and 32. -/
def withPages (s : State) : State :=
  let p := (placeTables { State.reset with memMap := [{ base := 0, size := 0x100000, die := 0 }], dev := { Dev.reset with ctxt := placeBase } }).put 0x61000
    [1, 0, 1, 0, 1] false
  { s with mem := p.mem, memMap := p.memMap, dev := { s.dev with ctxt := placeBase } }
/-- A fragment in the clause at 64, so that the next one is at 128. -/
def tLate (x : Frag) : Frag := { x with pc := 68, clause := some { hdr := 64, len := 15, set1 := 15, set2 := 15, yld := false, ll := 0 } }
/-- Targets in v2: header 0 in every thread, in v3 no header. -/
def tTargets : Warp := tWarp (inAll 3 2)
def sBr : State := withPages (tState tU tTargets (tLate tAll))
def cBr : Ctx := tCtx tU tTargets (tLate tAll)
theorem test_headers : sBr.headerAt 0 placeLaunch 0 = true ∧ sBr.headerAt 0 placeLaunch 64 = true ∧ sBr.headerAt 0 placeLaunch 128 = true
    ∧ sBr.headerAt 0 placeLaunch 4 = false ∧ sBr.headerAt 0 placeLaunch 2 = false := by decide +kernel

theorem wit_ControlTransfers_whole :
    cBr.fr.clause = some { hdr := 64, len := 15, set1 := 15, set2 := 15, yld := false, ll := 0 } ∧ 128 = 64 + 4 * (15 + 1) ∧ cBr.fr.mask ≠ 0#32
      ∧ cBr.act = cBr.fr.mask ∧ Ready sBr cBr [] [] ∧ ((0 : Nat) : Int) = ((64 : Nat) + 4 * (0x7FFFF0#23).toInt) % 2 ^ 32 ∧ sBr.headerAt 0 cBr.l 0 = true
      ∧ (∀ t ∈ threads cBr.act, (cBr.rd 2 t).toNat = 0) ∧ Ready sBr cBr [opV 2] [] ∧ Ready sBr cBr [opV 127, opV 2] [] :=
  ⟨rfl, rfl, by decide, by decide, ⟨rfl, rfl, rfl, rfl⟩, by decide, by decide +kernel, by decide, ⟨rfl, rfl, rfl, rfl⟩, ⟨rfl, rfl, rfl, rfl⟩⟩

def sSplit : State := withPages (tState tU tTargets (tLate tHalf))
def cSplit : Ctx := tCtx tU tTargets (tLate tHalf)
/-- Half the threads active: the lower half, which holds the lowest thread, or the upper. -/
theorem wit_ControlTransfers_split :
    cSplit.fr.clause = some { hdr := 64, len := 15, set1 := 15, set2 := 15, yld := false, ll := 0 } ∧ Ready sSplit cSplit [] []
      ∧ ((0 : Nat) : Int) = ((64 : Nat) + 4 * (0x7FFFF0#23).toInt) % 2 ^ 32 ∧ sSplit.headerAt 0 cSplit.l 0 = true ∧ (0 : Nat) ≠ 128 ∧ cSplit.fr.done = 0#32
      ∧ cSplit.act ≠ 0#32 ∧ cSplit.fr.mask &&& ~~~cSplit.act ≠ 0#32 ∧ cSplit.fr.mask &&& cSplit.act = cSplit.act ∧ sSplit.refuses cSplit.f 1 = false
      ∧ cSplit.w.freeRec = some 0 ∧ lowest cSplit.fr.mask = lowest cSplit.act :=
  ⟨rfl, ⟨rfl, rfl, rfl, rfl⟩, by decide, by decide +kernel, by decide, by decide, by decide, by decide, by decide, by decide, by decide, by decide⟩
def sSplit2 : State := withPages (tState tU tTargets (tLate (tActive allThreads 0xFFFF0000)))
def cSplit2 : Ctx := tCtx tU tTargets (tLate (tActive allThreads 0xFFFF0000))
theorem wit_ControlTransfers_split_upper : Ready sSplit2 cSplit2 [] [] ∧ cSplit2.act ≠ 0#32 ∧ cSplit2.fr.mask &&& ~~~cSplit2.act ≠ 0#32
    ∧ cSplit2.fr.mask &&& cSplit2.act = cSplit2.act ∧ lowest cSplit2.fr.mask ≠ lowest cSplit2.act :=
  ⟨⟨rfl, rfl, rfl, rfl⟩, by decide, by decide, by decide, by decide⟩

def sBrNone : State := withPages (tState tU tTargets (tLate tNone))
def cBrNone : Ctx := tCtx tU tTargets (tLate tNone)
theorem wit_ControlTransfers_untaken : cBrNone.act = 0#32 ∧ cBrNone.fr.mask ≠ 0#32 ∧ Ready sBrNone cBrNone [] [] ∧ Ready sBrNone cBrNone [opV 127] [] :=
  ⟨by decide, by decide, ⟨rfl, rfl, rfl, rfl⟩, ⟨rfl, rfl, rfl, rfl⟩⟩
/-- An offset of 1 reaches word 17, and v3 holds 2: no headers. -/
theorem wit_ControlTransfers_fault : cBr.act = cBr.fr.mask ∧ NotSolitary sBr cBr
    ∧ (∀ a : Nat, (a : Int) = ((64 : Nat) + 4 * (1#23).toInt) % 2 ^ 32 → sBr.headerAt 0 cBr.l a = false)
    ∧ (∀ t ∈ threads cBr.act, sBr.headerAt 0 cBr.l (cBr.rd 3 t).toNat = false) := by
  refine ⟨by decide, notSolitary_of rfl, fun a h => ?_, ?_⟩
  · have e : ((64 : Nat) + 4 * (1#23).toInt : Int) % 2 ^ 32 = 68 := by decide
    rw [e] at h
    have : a = 68 := by omega
    subst this; decide +kernel
  · have : ∀ t ∈ threads cBr.act, cBr.rd 3 t = 2#32 := by decide
    intro t ht; rw [this t ht]; decide +kernel

/-- NopYieldWaitsAndTraps: a park request; window bases at the edges of an extent of 512; nobody active. -/
def sPark : State := tState { tU with parkReq := true } (tWarp []) tAll
def cPark : Ctx := tCtx { tU with parkReq := true } (tWarp []) tAll
theorem wit_NopYieldWaitsAndTraps_words :
    Ready sAll cAll [] [] ∧ NotSolitary sAll cAll ∧ cAll.u.parkReq = false ∧ Ready sPark cPark [] [] ∧ cPark.u.parkReq = true ∧ cAll.act ≠ 0#32
      ∧ 16 * (31#12).toNat < cAll.w.extent ∧ cAll.w.extent ≤ 16 * (32#12).toNat
      ∧ ((496 : Nat) : Int) = 16 * (cTop.fr.win.toNat : Int) + 16 * (7#12).toInt ∧ 496 < cTop.w.extent
      ∧ (16 * (cTop.fr.win.toNat : Int) + 16 * (0xFE7#12).toInt < 0) ∧ ((cTop.w.extent : Int) ≤ 16 * (cTop.fr.win.toNat : Int) + 16 * (8#12).toInt)
      ∧ Ready sNone cNone [] [] ∧ cNone.act = 0#32 :=
  ⟨⟨rfl, rfl, rfl, rfl⟩, notSolitary_of rfl, rfl, ⟨rfl, rfl, rfl, rfl⟩, rfl, by decide, by decide, by decide, by decide, by decide, by decide, by decide,
    ⟨rfl, rfl, rfl, rfl⟩, by decide⟩
/-- An operation in flight on the ls path with flag 11. -/
def tOp (kind : OpKind) : Op :=
  { id := 0, warp := 0, fidx := 0, path := some .ls, flag := some 11, mask := 1, kind := kind, items := [], dst := none, pd := none
    at_ := ⟨4, none, 1, 0, 0⟩, fails := [], ord := 0, done := false }
def tBusy : KUnit := { tU with ops := [tOp (.mem none none)], nextOp := 1 }
def tThresholds : Warp := tWarp (inAll 2 0 ++ inAll 3 1 ++ inAll 4 5)
def sBusy : State := tState tBusy tThresholds tAll
def cBusy : Ctx := tCtx tBusy tThresholds tAll
theorem wit_NopYieldWaitsAndTraps_waits :
    Ready sBusy cBusy [] [] ∧ (∀ k < 12, (0x7FF#12).getLsbD k = true → cBusy.u.flagValue cBusy.f.warp k cBusy.fr.mask = 0)
      ∧ (∃ k < 12, (0x800#12).getLsbD k = true ∧ cBusy.u.flagValue cBusy.f.warp k cBusy.fr.mask ≠ 0)
      ∧ cBusy.u.pathCount .ls ≤ (1#8).toNat ∧ (0#8).toNat < cBusy.u.pathCount .ls ∧ NotSolitary sBusy cBusy ∧ Ready sBusy cBusy [opV 127] []
      ∧ (∃ u ∈ threads cBusy.act, (cBusy.rd 3 u).toNat = 1) ∧ (∀ u ∈ threads cBusy.act, 1 ≤ (cBusy.rd 3 u).toNat) ∧ Ready sBusy cBusy [opP 126] []
      ∧ (∃ u ∈ threads cBusy.act, (cBusy.rdP 2 u).toNat = 2 ^ 32) ∧ (∀ u ∈ threads cBusy.act, (cBusy.rdP 2 u).toNat ≤ 2 ^ 32) ∧ sBusy.time.toNat < 2 ^ 32 :=
  ⟨⟨rfl, rfl, rfl, rfl⟩, by decide, by decide, by decide, by decide, notSolitary_of rfl, ⟨rfl, rfl, rfl, rfl⟩, by decide, by decide, ⟨rfl, rfl, rfl, rfl⟩,
    by decide, by decide, by decide⟩
/-- A TFENCE whose invalid condition is enabled and raised, and one where nothing is raised; %fflags of every thread has NV. -/
def tRaised : Warp := { tWarp [] with fflags := (List.range 32).map fun t => (t, 0b10000) }
def tEnabled : Frag := { placeFrag with fmt := 0b10000 }
theorem wit_NopYieldWaitsAndTraps_traps :
    Ready (tState tU tRaised tEnabled) (tCtx tU tRaised tEnabled) [] [] ∧ (tCtx tU tRaised tEnabled).fr.mask ≠ 0#32
      ∧ (tCtx tU tRaised tEnabled).tendPending = false ∧ (tCtx tU tRaised tEnabled).u.ops = []
      ∧ (∀ u ∈ threads (tCtx tU tRaised tEnabled).act, (tCtx tU tRaised tEnabled).w.flags u &&& tEnabled.fmt.setWidth 5 ≠ 0#5)
      ∧ (tCtx tU tRaised tEnabled).act = (tCtx tU tRaised tEnabled).fr.mask ∧ 32 * tEnabled.accwin + 32 ≤ placeLaunch.acc
      ∧ cHalf.act ≠ 0#32 ∧ cHalf.fr.mask &&& ~~~cHalf.act ≠ 0#32 ∧ cHalf.fr.mask &&& cHalf.act = cHalf.act ∧ sHalf.refuses cHalf.f 1 = false
      ∧ Ready sHalf cHalf [] [] ∧ NotSolitary sHalf cHalf :=
  ⟨⟨rfl, rfl, rfl, rfl⟩, by decide, by decide, rfl, by decide, by decide, by decide, by decide, by decide, by decide, by decide, ⟨rfl, rfl, rfl, rfl⟩,
    notSolitary_of rfl⟩

/-- SpecialRegisters: the last register, the last pair; accumulators within the allotment and, in window 32, beyond it. -/
def tWin32 : Frag := { placeFrag with fmt := 0x2000 }
def cWin32 : Ctx := tCtx tU (tWarp []) tWin32
theorem wit_SpecialRegisters :
    Ready sTop cTop [⟨(127 : Reg).toNat, 1, 1⟩] [] ∧ Ready sTop cTop [⟨(126 : Reg).toNat, 2, 1⟩] [] ∧ (126 : Reg).toNat % 2 = 0 ∧ cTop.u.core < 192
      ∧ cTop.tendPending = false ∧ 32 * cTop.fr.accwin + 32 ≤ cTop.l.acc ∧ cTop.u.rowsBusy cTop.fr.accwin cTop.act = false
      ∧ (cTop.act.getLsbD 0 = true ∧ ∀ i < 0, cTop.act.getLsbD i = false) ∧ cTop.act = cTop.fr.mask ∧ cTop.fr.mask ≠ 0#32 ∧ NotSolitary sTop cTop
      ∧ 12 < (13#16).toNat ∧ (8#16).toNat < 9
      ∧ Ready (tState tU (tWarp []) tWin32) cWin32 [⟨(127 : Reg).toNat, 1, 1⟩] [] ∧ cWin32.l.acc < 32 * cWin32.fr.accwin + 32 :=
  ⟨⟨rfl, rfl, rfl, rfl⟩, ⟨rfl, rfl, rfl, rfl⟩, rfl, by decide, by decide, by decide, by decide, ⟨by decide, nofun⟩, by decide, by decide, notSolitary_of rfl,
    by decide, by decide, ⟨rfl, rfl, rfl, rfl⟩, by decide⟩

/-- JoinAndExit: another live fragment of the same reconvergence PC, none, and a fragment that waits at a JOIN alone. -/
def tPair : Warp := { tWarp [] with splits := [(0, ⟨noRpc, 0, 0, 31⟩)] }
def tSplit (m : Mask) : Frag := { tActive m m with rpc := 64, prec := 0 }
def tMate (x y : Frag) : KUnit := { tU with warps := [(0, { tPair with frags := [(0, x), (1, y)] })] }
def sJoin : State := { tState tU tPair tAll with units := [(0, tMate (tSplit 0xFFFF) (tSplit 0xFFFF0000))] }
def cJoin : Ctx := ⟨⟨0, 0, 0⟩, tMate (tSplit 0xFFFF) (tSplit 0xFFFF0000), { tPair with frags := [(0, tSplit 0xFFFF), (1, tSplit 0xFFFF0000)] }, tSplit 0xFFFF, placeLaunch⟩
theorem wit_JoinAndExit_join :
    NotSolitary sJoin cJoin ∧ Ready sJoin cJoin [] [] ∧ cJoin.fr.clause = some { hdr := 0, len := 15, set1 := 15, set2 := 15, yld := false, ll := 0 }
      ∧ (1 ≠ cJoin.f.fidx ∧ (1, tSplit 0xFFFF0000) ∈ cJoin.w.frags ∧ (tSplit 0xFFFF0000).status ≠ .dead ∧ (tSplit 0xFFFF0000).rpc = cJoin.fr.rpc)
      ∧ Ready (tState tU tPair (tSplit allThreads)) (tCtx tU tPair (tSplit allThreads)) [] []
      ∧ (∀ i, ¬ ∃ x, i ≠ (tCtx tU tPair (tSplit allThreads)).f.fidx ∧ (i, x) ∈ (tCtx tU tPair (tSplit allThreads)).w.frags ∧ x.status ≠ .dead
          ∧ x.rpc = (tCtx tU tPair (tSplit allThreads)).fr.rpc) := by
  refine ⟨notSolitary_of rfl, ⟨rfl, rfl, rfl, rfl⟩, rfl, ⟨by decide, by decide, by decide, rfl⟩, ⟨rfl, rfl, rfl, rfl⟩, ?_⟩
  rintro i ⟨x, h, hm, _⟩
  have : (i, x) = (0, tSplit allThreads) := List.mem_singleton.mp hm
  exact h (congrArg Prod.fst this)
def tAtJoin : Frag := { tSplit allThreads with status := .parkedWait, wake := .join, clause := none, pc := 64 }
theorem wit_JoinAndExit_wake :
    (tState tU tPair tAtJoin).unit? 0 = some (tUnit tU tPair tAtJoin) ∧ (tState tU tPair tAtJoin).launchOf 0 = some placeLaunch
      ∧ Map.look (tUnit tU tPair tAtJoin).warps 0 = some { tPair with frags := [(0, tAtJoin)] } ∧ tAtJoin.status = .parkedWait ∧ tAtJoin.wake = .join
      ∧ (tUnit tU tPair tAtJoin).parkReq = false := ⟨rfl, rfl, rfl, rfl, rfl, rfl⟩
theorem wit_JoinAndExit_exit :
    Ready sHalf cHalf [] [] ∧ cHalf.tendPending = false ∧ (∀ b ∈ cHalf.u.bars, (cHalf.u.bar b.1).doe = false)
      ∧ (∀ t ∈ threads cHalf.act, (cHalf.w.tx t).st = .idle) ∧ NotSolitary sHalf cHalf ∧ cHalf.act ≠ 0#32 ∧ cHalf.fr.mask &&& cHalf.act = cHalf.act :=
  ⟨⟨rfl, rfl, rfl, rfl⟩, by decide, by decide, by decide, notSolitary_of rfl, by decide, by decide⟩

/-- Pages of data in context 1: release-consistent at 0x20000 (frame 0x80000), strongly ordered at 0x40000 (0xA0000), unordered at 0x60000 (0xC0000). -/
def withData (s : State) : State :=
  let p := (((withPages s).put 0x40008 (leBytes 8 0x80583) false).put 0x40010 (leBytes 8 0xA0593) false).put 0x40018 (leBytes 8 0xC05A3) false
  { s with mem := p.mem, memMap := p.memMap, dev := p.dev }
def tLeaf : Leaf := ⟨0x20000, 0x20000, 0x80000, .rc, true, true, true, false, none⟩
def tLeafSo : Leaf := ⟨0x40000, 0x20000, 0xA0000, .so, true, true, true, false, none⟩
/-- A capability on the three pages with a cursor, and one on scratchpad. -/
def tCap (at0 : Nat) : Cap := ⟨0, 0, 0xFF, 0x80000 - at0, at0 - 0x20000, 0, at0⟩
def tScrCap (at0 : Nat) : Cap := ⟨0, 1, 0xFF, 0x1000 - at0, at0, 0, at0⟩
/-- A warp with c2 in thread 0, v4 and v5. -/
def tMemWarp (k : Cap) : Warp := (tWarp [(128, 0x11223344), (160, 0x55667788)]).setQuad .general 8 0 k.bits true
def sMem (k : Cap) : State := withData (tState tU (tMemWarp k) tOne)
def cMem (k : Cap) : Ctx := tCtx tU (tMemWarp k) tOne
theorem test_walk : (sMem (tCap 0x20010)).walk 1 0x20010 = .ok tLeaf ∧ (sMem (tCap 0x20010)).walk 1 0x40000 = .ok tLeafSo := by decide +kernel
/-- The thread passes every check of a wanted access through c2. -/
theorem tests_cMem {s : State} {c : Ctx} {w : Want} {stag : Bool} {t : Nat} {mr : MemRef}
    (h : (c.early s w (c.cap mr.c t) (c.capTag mr.c t) stag (c.addr mr t)).isNone = true) : ∀ n < 7, c.test s w mr stag t n :=
  tests_of_early (Option.isNone_iff_eq_none.mp h)
theorem threads_cMem {p : Nat → Prop} (k : Cap) (h : p 0) : ∀ t ∈ threads (cMem k).act, p t := by
  intro t ht
  have e : threads (cMem k).act = [0] := by show threads (1#32 &&& ~~~0#32) = [0]; decide
  rw [e] at ht
  rw [List.mem_singleton.mp ht]; exact h

/-- An access within one page, and one that reaches the next. -/
theorem grants_leaf {k : Cap} {w : Want} {stag : Bool} (hn : (cMem k).w.node = 0) {va : Nat} {l : Leaf} (h : (sMem k).walk 1 va = .ok l)
    (hr : l.rd = true) (hw : l.wr = true) (ht : l.tag = true) (hk : l.kind ≠ .u) : (cMem k).Grants (sMem k) w stag va l where
  walk := h
  rd _ := hr
  wr _ := hw
  tag _ := ht
  spec _ := by rw [hn]; intro h; exact absurd h (by decide)
  order _ := hk

def tStore : MemIns := accessForm .store 8 2 none none false 4 ⟨2, .short 0⟩
theorem wit_MemoryWordsIssue_global :
    accessOf (.stN64 4 ⟨2, .short 0⟩) = some tStore ∧ Ready (sMem (tCap 0x20010)) (cMem (tCap 0x20010)) (⟨4, 2, 1⟩ :: memOpn ⟨2, .short 0⟩) []
      ∧ (4 : Reg).toNat % 2 = 0 ∧ (cMem (tCap 0x20010)).act ≠ 0#32 ∧ (cMem (tCap 0x20010)).full (some .ls) = false
      ∧ (cMem (tCap 0x20010)).tendPending = false ∧ HeldTrue (sMem (tCap 0x20010)) (cMem (tCap 0x20010))
      ∧ (∀ t ∈ threads (cMem (tCap 0x20010)).act, (∀ n < 7, (cMem (tCap 0x20010)).test (sMem (tCap 0x20010)) tStore.want tStore.mr false t n)
        ∧ (cMem (tCap 0x20010)).Lies (sMem (tCap 0x20010)) tStore.want tStore.mr false t ((span 0x20010 8).map fun v => .phys (0x60000 + v) .rc 1 v tLeaf.use))
      ∧ ∀ d x v q, ByteLoc.peer d x v q ∉ (span 0x20010 8).map fun v => ByteLoc.phys (0x60000 + v) .rc 1 v tLeaf.use := by
  refine ⟨rfl, ⟨rfl, rfl, rfl, rfl⟩, rfl, by decide +kernel, by decide +kernel, by decide +kernel, heldTrue_of rfl rfl, threads_cMem _ ⟨?_, ?_⟩, by simp⟩
  · exact tests_cMem (by decide +kernel)
  · refine ⟨by decide +kernel, by decide +kernel, ?_, fun _ => ⟨tLeaf, tLeaf, ?_, fun h => absurd h (by decide +kernel), by decide +kernel, by decide +kernel⟩⟩
    · have : ((cMem (tCap 0x20010)).cap 2 0).space = 0 := by decide +kernel
      intro h; exact absurd (this.symm.trans h) (by decide)
    · exact grants_leaf (by decide +kernel) (by decide +kernel) rfl rfl rfl (by decide)
/-- Four bytes that lie on both sides of the boundary between two pages. -/
def tLoad : MemIns := accessForm .load 4 1 none none false 4 ⟨2, .short 0⟩
theorem wit_MemoryWordsIssue_two_pages :
    accessOf (.ldN32 4 ⟨2, .short 0⟩) = some tLoad ∧ Ready (sMem (tCap 0x3FFFE)) (cMem (tCap 0x3FFFE)) (⟨4, 1, 1⟩ :: memOpn ⟨2, .short 0⟩) []
      ∧ (∀ n < 7, (cMem (tCap 0x3FFFE)).test (sMem (tCap 0x3FFFE)) tLoad.want tLoad.mr false 0 n)
      ∧ (cMem (tCap 0x3FFFE)).Lies (sMem (tCap 0x3FFFE)) tLoad.want tLoad.mr false 0
          [.phys 0x9FFFE .rc 1 0x3FFFE tLeaf.use, .phys 0x9FFFF .rc 1 0x3FFFF tLeaf.use, .phys 0xA0000 .so 1 0x40000 tLeafSo.use, .phys 0xA0001 .so 1 0x40001 tLeafSo.use] := by
  refine ⟨rfl, ⟨rfl, rfl, rfl, rfl⟩, tests_cMem (by decide +kernel), ?_⟩
  refine ⟨by decide +kernel, by decide +kernel, ?_, fun _ => ⟨tLeaf, tLeafSo, ?_, fun _ => ?_, by decide +kernel, by decide +kernel⟩⟩
  · have : ((cMem (tCap 0x3FFFE)).cap 2 0).space = 0 := by decide +kernel
    intro h; exact absurd (this.symm.trans h) (by decide)
  · exact grants_leaf (by decide +kernel) (by decide +kernel) rfl rfl rfl (by decide)
  · exact grants_leaf (by decide +kernel) (by decide +kernel) rfl rfl rfl (by decide)
/-- The last four bytes of the scratchpad, by an atomic. -/
def tAtom : MemIns := accessForm (.atom .addN) 4 1 none none false 4 ⟨2, .short 0⟩
theorem wit_MemoryWordsIssue_scratch :
    accessOf (.atomAddN32 .thread 4 ⟨2, .short 0⟩) = some tAtom ∧ Ready (sMem (tScrCap 0xFFC)) (cMem (tScrCap 0xFFC)) (⟨4, 1, 1⟩ :: memOpn ⟨2, .short 0⟩) []
      ∧ (∀ n < 7, (cMem (tScrCap 0xFFC)).test (sMem (tScrCap 0xFFC)) tAtom.want tAtom.mr false 0 n)
      ∧ (cMem (tScrCap 0xFFC)).Lies (sMem (tScrCap 0xFFC)) tAtom.want tAtom.mr false 0 [.scr 0 0xFFC, .scr 0 0xFFD, .scr 0 0xFFE, .scr 0 0xFFF] := by
  refine ⟨rfl, ⟨rfl, rfl, rfl, rfl⟩, tests_cMem (by decide +kernel), by decide +kernel, by decide +kernel, ?_, ?_⟩
  · have : ((cMem (tScrCap 0xFFC)).cap 2 0).space = 1 := by decide +kernel
    intro h; exact absurd (this.symm.trans h) (by decide)
  · have : ((cMem (tScrCap 0xFFC)).cap 2 0).space = 1 := by decide +kernel
    intro h; exact absurd (this.symm.trans h) (by decide)

/-- AccessFaultsInOrder: c2 untagged fails the first check; a cursor four bytes below the top fails only the fourth; a data pair out of line. -/
theorem wit_AccessFaultsInOrder :
    cAll.act ≠ 0#32 ∧ cAll.act = cAll.fr.mask ∧ NotSolitary sAll cAll ∧ Ready sAll cAll (⟨4, 2, 1⟩ :: memOpn ⟨2, .short 0⟩) []
      ∧ cAll.full (some .ls) = false ∧ cAll.tendPending = false ∧ (∀ t ∈ threads cAll.act, ¬ cAll.test sAll tStore.want tStore.mr false t 0)
      ∧ lowest cAll.act = some 0 ∧ (5 : Reg).toNat % 2 ≠ 0 ∧ Ready sAll cAll (⟨5, 2, 1⟩ :: memOpn ⟨2, .short 0⟩) [] := by
  refine ⟨by decide, by decide, notSolitary_of rfl, ⟨rfl, rfl, rfl, rfl⟩, by decide, by decide, ?_, by decide, by decide, ⟨rfl, rfl, rfl, rfl⟩⟩
  have h : ∀ t ∈ threads cAll.act, cAll.capTag 2 t = false := by decide
  intro t ht hc
  exact absurd (hc.1.symm.trans (h t ht)) (by decide)
theorem wit_AccessFaultsInOrder_bounds :
    (cMem (tCap 0x7FFFC)).act = (cMem (tCap 0x7FFFC)).fr.mask
      ∧ (∀ n < 3, (cMem (tCap 0x7FFFC)).test (sMem (tCap 0x7FFFC)) tLoad.want tLoad.mr false 0 n)
      ∧ ¬ (cMem (tCap 0x7FFFC)).test (sMem (tCap 0x7FFFC)) tStore.want tStore.mr false 0 3 := by
  refine ⟨by decide +kernel, fun n h => tests_cMem (by decide +kernel) n (by omega), ?_⟩
  rintro ⟨⟨b, e, h, -, h2⟩, -⟩
  have hb : ((cMem (tCap 0x7FFFC)).cap 2 0).bounds = some (0x20000, 0x80000) := by decide +kernel
  have ha : (cMem (tCap 0x7FFFC)).addr ⟨2, .short 0⟩ 0 = 0x7FFFC := by decide +kernel
  rw [show tStore.mr.c = (2 : CapReg) from rfl, hb] at h
  rw [show tStore.mr = ⟨2, .short 0⟩ from rfl, ha] at h2
  injection h with h; injection h with h3 h4
  subst h4
  exact absurd h2 (by decide)

/-- LineOperations: the line of a byte of the release-consistent page; nothing tagged for a PREF that faults nobody. -/
def tLine : Want := ⟨1, 1, .load, false, false, [0, 1, 2, 3, 4]⟩
theorem wit_LineOperations_issue :
    Ready (sMem (tCap 0x20010)) (cMem (tCap 0x20010)) (memOpn ⟨2, .short 0⟩) [] ∧ (cMem (tCap 0x20010)).act ≠ 0#32
      ∧ (∀ n < 7, (cMem (tCap 0x20010)).test (sMem (tCap 0x20010)) tLine ⟨2, .short 0⟩ false 0 n)
      ∧ (cMem (tCap 0x20010)).Lies (sMem (tCap 0x20010)) tLine ⟨2, .short 0⟩ false 0 [.phys 0x80010 .rc 1 0x20010 tLeaf.use]
      ∧ (∀ t ∈ threads cAll.act, cAll.capTag 2 t = false) ∧ Ready sNone cNone (memOpn ⟨31, .reg 127⟩) []
      ∧ (cMem (tCap 0x20010)).full (some .ls) = false ∧ (cMem (tCap 0x20010)).tendPending = false ∧ HeldTrue (sMem (tCap 0x20010)) (cMem (tCap 0x20010)) := by
  refine ⟨⟨rfl, rfl, rfl, rfl⟩, by decide +kernel, tests_cMem (by decide +kernel), ?_, by decide, ⟨rfl, rfl, rfl, rfl⟩, by decide +kernel, by decide +kernel,
    heldTrue_of rfl rfl⟩
  refine ⟨by decide +kernel, by decide +kernel, ?_, fun _ => ⟨tLeaf, tLeaf, ?_, fun h => absurd h (by decide +kernel), by decide +kernel, by decide +kernel⟩⟩
  · have : ((cMem (tCap 0x20010)).cap 2 0).space = 0 := by decide +kernel
    intro h; exact absurd (this.symm.trans h) (by decide)
  · exact grants_leaf (by decide +kernel) (by decide +kernel) rfl rfl rfl (by decide)
/-- A unit with one operation in flight. -/
def tWith (o : Op) : KUnit := { tU with ops := [o], nextOp := 1 }
def tItem (kind : AccKind) (locs : List ByteLoc) (data : BitVec 128) (tx : Bool) : Item := ⟨0, 0, 0, locs, kind, data, false, 7#64, true, tx, false⟩
def tPhys (pa n : Nat) (k : PKind) : List ByteLoc := (span pa n).map fun a => .phys a k 1 (a - 0x60000) tLeaf.use
def tLineOp (k : OpKind) : Op := { tOp k with items := [tItem .load (tPhys 0x80010 1 .rc) 0 false] }
theorem wit_LineOperations_complete :
    (tState (tWith (tLineOp (.cwb true))) (tWarp []) tOne).unit? 0 = some (tUnit (tWith (tLineOp (.cwb true))) (tWarp []) tOne)
      ∧ (tUnit (tWith (tLineOp (.cwb true))) (tWarp []) tOne).op? 0 = some (tLineOp (.cwb true)) ∧ (tLineOp (.cwb true)).done = false
      ∧ (tUnit (tWith (tLineOp .cinv)) (tWarp []) tOne).op? 0 = some (tLineOp .cinv)
      ∧ (tState (tWith (tLineOp (.cwb true))) (tWarp []) tOne).stalled = false := ⟨rfl, rfl, rfl, rfl, rfl⟩

/-- ScratchAccessPerforms: a store, a load of the last byte, an atomic, a capability load, a reduction, in the unit's own scratchpad. -/
def tScrItem (kind : AccKind) (off n : Nat) : Item := tItem kind ((span off n).map (.scr 0)) 0x80 false
def tDst (n size : Nat) (cap : Bool) : Dst := ⟨4, n, size, true, cap⟩
def tScrOp (kind : AccKind) (off n : Nat) (d : Option Dst) : Op := { tOp (.mem none none) with items := [tScrItem kind off n], dst := d }
theorem wit_ScratchAccessPerforms :
    (∀ o ∈ [tScrOp .store 0xFF8 8 none, tScrOp .load 0xFFF 1 (some (tDst 1 1 false)), tScrOp (.atom .cas) 8 4 (some (tDst 1 4 false)),
        tScrOp .loadCap 16 16 (some (tDst 4 16 true)), tScrOp (.red .maxI) 8 8 none],
      (tUnit (tWith o) (tWarp []) tOne).op? 0 = some o ∧ (o.items.find? fun y => y.thread = 0 && !y.done) = o.items.head?
        ∧ o.fails = [] ∧ (tState (tWith o) (tWarp []) tOne).unit? 0 = some (tUnit (tWith o) (tWarp []) tOne)
        ∧ (∀ i ∈ o.items, mayPerform (tUnit (tWith o) (tWarp []) tOne).ops o i = true ∧ i.tx = false ∧ (tUnit (tWith o) (tWarp []) tOne).spoisoned 0 0x1000 = false
          ∧ (writes i.kind = true → (o.items.filter fun y => !y.done && writes y.kind && y.overlaps i) = [i])
          ∧ (tState (tWith o) (tWarp []) tOne).redFirst 0 o i = false ∧ i.data.toNat < 256 ^ 4 ∧ i.cmp.toNat < 256 ^ 4))
      ∧ tU.frozen = false ∧ (tWarp []).live.getLsbD 0 = true ∧ ((tWarp []).live.getLsbD 31 = true ∧ 31 < 32) := by decide

/-- GlobalAccessPerforms: the same on a page of memory where nothing is locked, held by a bead or poisoned, and no partial waits. -/
def tGlobOp (kind : AccKind) (pa n : Nat) (k : PKind) (d : Option Dst) : Op :=
  { tOp (.mem none none) with items := [tItem kind (tPhys pa n k) 0x80 false], dst := d }
def sGlob (o : Op) : State := withData (tState (tWith o) (tWarp []) tOne)
theorem wit_GlobalAccessPerforms :
    (∀ o ∈ [tGlobOp .store 0x80010 8 .rc none, tGlobOp .load 0x80011 1 .rc (some (tDst 1 1 false)), tGlobOp (.atom .addF) 0x80010 4 .rc (some (tDst 1 4 false)),
        tGlobOp .loadCap 0x80010 16 .so (some (tDst 4 16 true)), tGlobOp (.red .maxI) 0x80010 8 .so none, tGlobOp (.red .addN) 0x80010 4 .rc none],
      (tUnit (tWith o) (tWarp []) tOne).op? 0 = some o ∧ (o.items.find? fun y => y.thread = 0 && !y.done) = o.items.head?
        ∧ o.fails = []
        ∧ (∀ i ∈ o.items, mayPerform (tUnit (tWith o) (tWarp []) tOne).ops o i = true ∧ i.tx = false ∧ i.locs.length ≤ 16
          ∧ (writes i.kind = true → (o.items.filter fun y => !y.done && writes y.kind && y.overlaps i) = [i])
          ∧ (sGlob o).redFirst 0 o i = false ∧ ∀ z ∈ i.locs, (match z with | .peer _ _ _ _ => false | _ => true) = true))
      ∧ (sGlob (tGlobOp .store 0x80010 8 .rc none)).lineBusy (some (0, 0, 0)) 0x80010 true = false
      ∧ (sGlob (tGlobOp .store 0x80010 8 .rc none)).ringBead 0x80010 = none ∧ (sGlob (tGlobOp .store 0x80010 8 .rc none)).poisoned 0x80010 16 = false := by
  decide +kernel
theorem wit_GlobalAccessPerforms_partials : (sGlob (tGlobOp .store 0x80010 8 .rc none)).NoPartials ∧ ((sGlob (tGlobOp .load 0x80011 1 .rc none)).core 0).copies = [] :=
  ⟨noPartials_of rfl, rfl⟩

/-- AccessFailsAsItPerforms: a store of thread 0 to a line held by bead 511, and a load of poisoned bytes, alone in their operation. -/
def sFails (o : Op) : State := { sGlob o with ringHeld := [(0x80040 / 64, 511)], poison := [0x80010 / 8] }
theorem wit_AccessFailsAsItPerforms :
    (∀ o ∈ [tGlobOp .store 0x80040 8 .rc none, tGlobOp .load 0x80010 4 .rc (some (tDst 1 4 false))],
      (sFails o).unit? 0 = some (tUnit (tWith o) (tWarp []) tOne) ∧ (tUnit (tWith o) (tWarp []) tOne).op? 0 = some o ∧ o.fails = [] ∧ o.kind = .mem none none
        ∧ (o.items.find? fun y => y.thread = 0 && !y.done) = o.items.head? ∧ (∀ y ∈ o.items, y.thread = 0 ∨ y.done = true)
        ∧ (∀ i ∈ o.items, mayPerform (tUnit (tWith o) (tWarp []) tOne).ops o i = true ∧ i.tx = false ∧ i.peer = false
          ∧ (writes i.kind = true → o.together i = [i]) ∧ (sFails o).redFirst 0 o i = false)
        ∧ (sFails o).warp? 0 0 = some { tWarp [] with frags := [(0, tOne)] } ∧ (tWarp []).lates = [] ∧ tOne.status = .runnable ∧ tOne.mask = bit 0
        ∧ (sFails o).soloHolder = none)
      ∧ (let s := sFails (tGlobOp .store 0x80040 8 .rc none)
         s.lineBusy (some (0, 0, 0)) 0x80040 true = false ∧ s.ringBead 0x80040 = some 511 ∧ s.lineBusy (some (0, 0, 0)) 0x80010 false = false
           ∧ s.ringBead 0x80010 = none ∧ s.poisoned 0x80010 4 = true) := by
  decide +kernel
/-- A second thread's part that has still to perform. -/
def tTwoItems : Op := { tGlobOp .store 0x80040 8 .rc none with items := (tGlobOp .store 0x80040 8 .rc none).items ++ [{ tItem .store (tPhys 0x80080 8 .rc) 1 false with thread := 1 }] }
theorem wit_AccessFailsAsItPerforms_more : (∃ y ∈ tTwoItems.items, y.thread ≠ 0 ∧ y.done = false)
    ∧ ∀ i ∈ tTwoItems.items, tTwoItems.together i = [i] := by decide +kernel

/-- OperationCompletes: an operation whose parts have performed, alone on its path, and behind an earlier one. -/
def tDone : Op := { tScrOp .store 0xFF8 8 none with id := 1, items := [{ tScrItem .store 0xFF8 8 with done := true }] }
theorem wit_OperationCompletes :
    ({ tU with ops := [tDone] } : KUnit).ops = [] ++ tDone :: [] ∧ ({ tU with ops := [tScrOp .store 0 8 none, tDone] } : KUnit).ops = [tScrOp .store 0 8 none] ++ tDone :: []
      ∧ (∀ x ∈ [tScrOp .store 0 8 none] ++ [], x.id ≠ 1 ∧ x.done = false) ∧ tDone.done = false ∧ tDone.path = some .ls ∧ tDone.kind = .mem none none
      ∧ (∀ i ∈ tDone.items, i.done = true) ∧ (∀ x ∈ ([] : List Op), x.path ≠ some .ls) ∧ (∃ x ∈ [tScrOp .store 0 8 none], x.path = some .ls)
      ∧ (tState tU (tWarp []) tOne).stalled = false := by decide

/-- FencesStandAndFall: a fence that its warp's access of the fence's thread holds up, and one that nothing does. -/
def tFence : Op := { tOp (.fence .rel .dev) with id := 1, path := none, flag := none }
theorem wit_FencesStandAndFall :
    Ready sAll cAll [] [] ∧ cAll.act ≠ 0#32 ∧ Scope.dev ≠ .thread ∧ Ready sNone cNone [] [] ∧ cNone.act = 0#32
      ∧ ({ tU with ops := [tScrOp .store 0 8 none, tFence] } : KUnit).ops = [tScrOp .store 0 8 none] ++ tFence :: [] ∧ tFence.done = false ∧ tFence.path = none
      ∧ tFence.kind = .fence .rel .dev ∧ (∀ x ∈ [tScrOp .store 0 8 none] ++ [], x.id ≠ 1 ∧ x.done = false)
      ∧ (∃ x ∈ [tScrOp .store 0 8 none], x.warp = tFence.warp ∧ ∃ i ∈ x.items, i.done = false ∧ tFence.mask.getLsbD i.thread = true)
      ∧ (∀ x ∈ ([] : List Op), x.warp = tFence.warp → ∀ i ∈ x.items, i.done = true ∨ tFence.mask.getLsbD i.thread = false) ∧ sAll.stalled = false :=
  ⟨⟨rfl, rfl, rfl, rfl⟩, by decide, by decide, ⟨rfl, rfl, rfl, rfl⟩, by decide, rfl, rfl, rfl, rfl, by decide, by decide, by decide, rfl⟩

/-- TransactionWords: threads in each state of Table 6.3, a count of 16 with and without the grant, and the longest waiter of the queue. -/
def tTxWarp : Warp :=
  { tWarp [] with txn := [(0, { Txn.idle with count := 15 }), (1, { Txn.idle with st := .opened }), (31, { Txn.idle with st := .doomed, code := 1 })] }
def tSoloWarp : Warp := { tWarp [] with txn := [(0, { Txn.idle with count := 16 })] }
theorem wit_TransactionWords :
    (tCtx tU tTxWarp tAll).tendPending = false ∧ Ready (tState tU tTxWarp tAll) (tCtx tU tTxWarp tAll) [] [] ∧ Ready sNone cNone [] [] ∧ cNone.act = 0#32
      ∧ (tCtx tU tTxWarp tAll).act ≠ 0#32 ∧ (tCtx tU tTxWarp tAll).u.rowsBusy (tCtx tU tTxWarp tAll).fr.accwin (tCtx tU tTxWarp tAll).act = false
      ∧ (∀ u ∈ threads (tCtx tU tTxWarp tAll).act, ((tCtx tU tTxWarp tAll).w.tx u).st = .idle → ((tCtx tU tTxWarp tAll).w.tx u).count ≠ 16)
      ∧ Ready sTop cTop [opV 127] [] := by
  refine ⟨rfl, ⟨rfl, rfl, rfl, rfl⟩, ⟨rfl, rfl, rfl, rfl⟩, by decide, by decide, by decide, by decide, ⟨rfl, rfl, rfl, rfl⟩⟩
def sSolo : State := tState tU tSoloWarp tOne
def cSolo : Ctx := tCtx tU tSoloWarp tOne
theorem wit_TransactionWords_solitary :
    Ready sSolo cSolo [] [] ∧ Ready { sSolo with soloHolder := some (0, 0, 0) } cSolo [] [] ∧ cSolo.tendPending = false
      ∧ cSolo.u.rowsBusy cSolo.fr.accwin cSolo.act = false ∧ threads cSolo.act = [0] ∧ (cSolo.w.tx 0).st = .idle ∧ (cSolo.w.tx 0).count = 16
      ∧ sSolo.soloHolder ≠ some (0, 0, 0) ∧ (0, 0, 0) ∉ sSolo.soloQueue
      ∧ ({ sSolo with soloQueue := [(0, 0, 31), (0, 0, 0)] } : State).warp? 0 0 = some { tSoloWarp with frags := [(0, tOne)] }
      ∧ tSoloWarp.live.getLsbD 31 = true :=
  ⟨⟨rfl, rfl, rfl, rfl⟩, ⟨rfl, rfl, rfl, rfl⟩, rfl, by decide, by decide, rfl, rfl, nofun, by decide, rfl, by decide⟩

/-- TransactionalAccess: a store and a load of a word; sets that are empty, one word short of the bound, and full. -/
def tTxn (rs ws : Nat) : Txn :=
  { Txn.idle with
    st := .opened, rset := (List.range rs).map fun i => (i, 5#32), wset := (List.range ws).map fun i => (i, (6#32, 0xF#4)) }
def tTxOp (kind : AccKind) (pa : Nat) : Op :=
  { tOp (.mem none none) with
    items := [tItem kind (tPhys pa 4 .rc) 0xFFFFFFFF true], dst := if kind = .load then some (tDst 1 4 false) else none }
def tTxState (kind : AccKind) (x : Txn) : State := withData (tState (tWith (tTxOp kind 0x80010)) { tWarp [] with txn := [(0, x)] } tOne)
theorem wit_TransactionalAccess :
    (∀ kind ∈ [AccKind.store, .load], ∀ x ∈ [tTxn 0 0, tTxn 7 3, tTxn 7 4, { tTxn 0 0 with st := .doomed }],
      (tTxState kind x).unit? 0 = some (tUnit (tWith (tTxOp kind 0x80010)) { tWarp [] with txn := [(0, x)] } tOne)
        ∧ (tUnit (tWith (tTxOp kind 0x80010)) { tWarp [] with txn := [(0, x)] } tOne).op? 0 = some (tTxOp kind 0x80010)
        ∧ (∀ i ∈ (tTxOp kind 0x80010).items, mayPerform (tUnit (tWith (tTxOp kind 0x80010)) (tWarp []) tOne).ops (tTxOp kind 0x80010) i = true
          ∧ i.tx = true ∧ i.locs = (span 0x80010 4).map (fun a => .phys a .rc 1 (0x20010 + (a - 0x80010)) tLeaf.use)
          ∧ (writes i.kind = true → ((tTxOp kind 0x80010).items.filter fun y => !y.done && writes y.kind && y.overlaps i) = [i]))
        ∧ (tTxOp kind 0x80010).fails = []
        ∧ Map.rising x.wset = true ∧ Map.has x.wset (0x80010 / 4) = false ∧ Map.has x.rset (0x80010 / 4) = false ∧ x.rset.length < 8)
      ∧ (tTxState .load (tTxn 7 4)).lineBusy (some (0, 0, 0)) 0x80010 true = false ∧ (tTxState .load (tTxn 7 4)).ringBead 0x80010 = none
      ∧ (tTxState .load (tTxn 7 4)).poisoned 0x80010 4 = false ∧ (0#32).toNat = leNat ((tTxState .load (tTxn 7 4)).bytes 0x80010 4) := by
  decide +kernel
theorem wit_TransactionalAccess_partials : (tTxState .load (tTxn 7 4)).NoPartials := noPartials_of rfl

/-- TendCommitsOrAborts: a TEND to issue; one that completes with a read word that holds what was recorded, and one that finds another value. -/
def tTend : Op := { tOp .tend with mask := bit 0, pd := some 6 }
def tEndTxn (v : Word) : Txn := { Txn.idle with st := .opened, count := 15, rset := [(0x20004, v)], wset := [(0x20004, (6#32, 0xC#4))] }
def tEndState (v : Word) : State := withData (tState (tWith tTend) { tWarp [] with txn := [(0, tEndTxn v)] } tOne)
theorem wit_TendCommitsOrAborts :
    Ready sAll cAll [] [6] ∧ Ready sNone cNone [] [6] ∧ cAll.act ≠ 0#32 ∧ cAll.full (some .ls) = false ∧ cAll.tendPending = false
      ∧ (∀ u ∈ threads cAll.act, ∀ r, (cAll.w.tx u).snapRow = some r → cAll.u.rowsBusy (r / 32) cAll.act = false) := by
  refine ⟨⟨rfl, rfl, rfl, rfl⟩, ⟨rfl, rfl, rfl, rfl⟩, by decide, by decide, rfl, ?_⟩
  intro u _ r h
  exact absurd h nofun
theorem wit_TendCommitsOrAborts_commits :
    (tEndState 0).unit? 0 = some (tUnit (tWith tTend) { tWarp [] with txn := [(0, tEndTxn 0)] } tOne)
      ∧ (tUnit (tWith tTend) (tWarp []) tOne).op? 0 = some tTend ∧ tTend.done = false ∧ tTend.kind = .tend ∧ tTend.pd = some 6 ∧ tTend.mask = bit 0
      ∧ (tEndState 0).warp? 0 0 = some { tWarp [] with txn := [(0, tEndTxn 0)], frags := [(0, tOne)] } ∧ (tWarp []).live = allThreads
      ∧ (tEndTxn 0).st = .opened ∧ (tEndState 0).soloHolder = none ∧ Map.rising (tEndTxn 0).wset = true ∧ Map.rising (tEndTxn 0).rset = true
      ∧ earlierDone (tUnit (tWith tTend) (tWarp []) tOne).ops tTend (fun i => i.tx || !i.un) = true ∧ (tEndState 0).stalled = false ∧ (tEndState 0).commitHeld 0 tTend = false
      ∧ (∀ q ∈ (tEndTxn 0).rset, leNat ((tEndState 0).bytes (4 * q.1) 4) = q.2.toNat)
      ∧ (∃ q ∈ (tEndTxn 1).rset, leNat ((tEndState 1).bytes (4 * q.1) 4) ≠ q.2.toNat) := by
  decide +kernel
theorem wit_TendCommitsOrAborts_partials : (tEndState 0).NoPartials ∧ (tEndState 1).NoPartials := ⟨noPartials_of rfl, noPartials_of rfl⟩

/-- BarrierWords: a barrier at the last offset of the scratchpad, for a BARINIT, for an arrival short of the count, and for the last one. -/
def tBarU (b : BarWord) : KUnit := { ({ tU with bars := [(0xFF0, ⟨0, 0⟩)] } : KUnit).putBar 0xFF0 b with bars := [(0xFF0, ⟨0, 0⟩)] }
def tBarW : Warp := tWarp (inAll 0 0xFF0 ++ inAll 2 (1 + 2 ^ 16) ++ inAll 4 7)
/-- Of 33 threads expected, or of 32; 7 bytes short or none; phase 65535; MODE 1, which is the largest. -/
def tBar (thr : Nat) (bal : Word) : BarWord := ⟨bal, 9#32, thr, thr, 0xFFFF#16, false, false, 1, true⟩
def sBar (thr : Nat) (bal : Word) : State := tState (tBarU (tBar thr bal)) tBarW tAll
def cBar (thr : Nat) (bal : Word) : Ctx := tCtx (tBarU (tBar thr bal)) tBarW tAll
theorem wit_BarrierWords :
    (cBar 33 0).act ≠ 0#32 ∧ (cBar 33 0).u.frozen = false ∧ (cBar 33 0).u.hasWaiter 0xFF0 = false ∧ (cBar 33 0).u.bar 0xFF0 = tBar 33 0
      ∧ Map.look (cBar 33 0).u.bars 0xFF0 = some ⟨0, 0⟩ ∧ (cBar 33 0).unperformed = false ∧ popCount (cBar 33 0).act = 32
      ∧ ((0#1024 ||| 0#1024) &&& ((cBar 33 0).act.zeroExtend 1024 <<< (32 * (cBar 33 0).f.warp))) = 0#1024
      ∧ ((cBar 33 0).rd 2 (cBar 33 0).low).toNat = 1 + 1 * 2 ^ 16 + (if false then 2 ^ 18 else 0)
      ∧ ((cBar 33 0).rd 0 (cBar 33 0).low).toNat = 0xFF0 ∧ (cBar 33 0).rd 4 (cBar 33 0).low = 7#32 := by
  decide +kernel
theorem wit_BarrierWords_completes :
    (cBar 32 (-7)).u.bar 0xFF0 = tBar 32 (-7) ∧ (tBar 32 (-7)).thrrem = 32 ∧ (tBar 32 (-7)).bal + 7#32 = 0#32
      ∧ (cBar 8192 (-7)).u.bar 0xFF0 = tBar 8192 (-7) := by decide +kernel
theorem wit_BarrierWords_ready :
    Ready (sBar 33 0) (cBar 33 0) [opV 0, opP 2] [] ∧ Ready (sBar 33 0) (cBar 33 0) [opV 4, opV 0, opV 4] [] ∧ Ready (sBar 33 0) (cBar 33 0) [opV 4, opV 0] []
      ∧ Ready (sBar 33 0) (cBar 33 0) [opV 0, opV 4] [6] ∧ Ready (sBar 33 0) (cBar 33 0) [opV 0] [] ∧ (cBar 33 0).BarAt 0 0xFF0 ∧ NotSolitary (sBar 33 0) (cBar 33 0) := by
  refine ⟨⟨rfl, rfl, rfl, rfl⟩, ⟨rfl, rfl, rfl, rfl⟩, ⟨rfl, rfl, rfl, rfl⟩, ⟨rfl, rfl, rfl, rfl⟩, ⟨rfl, rfl, rfl, rfl⟩,
    ⟨by decide, by decide, by decide, .inl (by decide)⟩, notSolitary_of rfl⟩
/-- Token 7 is passed in phase 65535 and not in phase 7; nothing is registered at the offset in the plain unit; a cluster of eight. -/
theorem wit_BarrierWords_waits :
    ((cBar 33 0).u.bar 0xFF0).phase ≠ ((cBar 33 0).rd 4 (cBar 33 0).low).setWidth 16
      ∧ (let b : BarWord := { tBar 33 0 with phase := 7#16 }
         ((tCtx (tBarU b) tBarW tAll).u.bar 0xFF0).phase = ((tCtx (tBarU b) tBarW tAll).rd 4 0).setWidth 16 ∧ b.inv ≠ true)
      ∧ Map.has (tCtx tU tBarW tAll).u.bars 0xFF0 = false ∧ (tCtx tU tBarW tAll).act = (tCtx tU tBarW tAll).fr.mask
      ∧ ({ tBarU (tBar 33 0) with sizeM1 := 7, rank := 7 } : KUnit).sizeM1 ≠ 0 ∧ Map.rising ((sBar 33 0).core 0).copies = true := by
  decide +kernel

/-- BarrierArrivalsRelease: the barrier of the unit of rank 1, and a barrier that this arrival completes with a fragment of warp 1 waiting. -/
def tPeerU : KUnit := { tBarU (tBar 33 0) with rank := 1, sizeM1 := 1, mates := [(0, 0), (1, 1)] }
def tHereU : KUnit := { tU with sizeM1 := 1, mates := [(0, 0), (1, 1)] }
def tFarW : Warp := tWarp (inAll 0 (2 ^ 22 + 2 ^ 19 + 0xFF0))
def sFar : State := let s := tState tHereU tFarW tAll; { s with units := Map.put s.units 1 tPeerU, nextUnit := 2 }
theorem wit_BarrierArrivalsRelease_remote :
    Ready sFar (tCtx tHereU tFarW tAll) [opV 4, opV 0] [] ∧ (tCtx tHereU tFarW tAll).unperformed = false
      ∧ ((tCtx tHereU tFarW tAll).rd 0 (tCtx tHereU tFarW tAll).low).toNat = 2 ^ 22 + 1 * 2 ^ 19 + 0xFF0 ∧ 0xFF0 + 16 ≤ (tCtx tHereU tFarW tAll).l.scratch
      ∧ 1 < 8 ∧ 1 ≠ (tCtx tHereU tFarW tAll).f.unit ∧ 1 ≠ (tCtx tHereU tFarW tAll).u.rank ∧ 1 ≤ (tCtx tHereU tFarW tAll).u.sizeM1 ∧ 1 ∉ (tCtx tHereU tFarW tAll).u.rankEnded
      ∧ Map.look (tCtx tHereU tFarW tAll).u.mates 1 = some 1 ∧ sFar.unit? 1 = some tPeerU ∧ tPeerU.frozen = false ∧ Map.has tPeerU.bars 0xFF0 = true
      ∧ (tPeerU.bar 0xFF0).valid = true ∧ (tPeerU.bar 0xFF0).inv = false ∧ popCount (tCtx tHereU tFarW tAll).act < (tPeerU.bar 0xFF0).thrrem := by
  refine ⟨⟨rfl, rfl, rfl, rfl⟩, ?_⟩
  decide +kernel
def tWaiter : Frag := { placeFrag with status := .parkedBarrier, wake := .barrier 0xFF0 0xFFFF#16 6#3 }
def tLastU : KUnit := { tBarU (tBar 32 0) with warps := [(0, placeWarp), (1, { placeWarp with frags := [(3, tWaiter)] })] }
def tLastW : Warp := { tBarW with frags := [(0, tAll)] }
def tLastK : KUnit := { tLastU with warps := [(0, tLastW), (1, { placeWarp with frags := [(3, tWaiter)] })] }
def sLast : State := { sBar 32 0 with units := [(0, tLastK)] }
def cLast : Ctx := ⟨⟨0, 0, 0⟩, tLastK, tLastW, tAll, placeLaunch⟩
theorem wit_BarrierArrivalsRelease_release :
    Ready sLast cLast [opV 4, opV 0] [] ∧ cLast.BarAt 0 0xFF0 ∧ cLast.u.frozen = false ∧ cLast.u.parkReq = false
      ∧ Map.look cLast.u.bars 0xFF0 = some ⟨0, 0⟩ ∧ (cLast.u.bar 0xFF0).valid = true ∧ (cLast.u.bar 0xFF0).inv = false
      ∧ (cLast.u.bar 0xFF0).thrrem = popCount cLast.act ∧ (cLast.u.bar 0xFF0).bal = 0#32 ∧ cLast.unperformed = false
      ∧ Map.look cLast.u.warps 1 = some { placeWarp with frags := [(3, tWaiter)] } ∧ tWaiter.status = .parkedBarrier
      ∧ tWaiter.wake = .barrier 0xFF0 0xFFFF#16 6#3 :=
  ⟨⟨rfl, rfl, rfl, rfl⟩, ⟨by decide, by decide, by decide, .inl (by decide)⟩, rfl, rfl, rfl, by decide +kernel, by decide +kernel, by decide +kernel,
    by decide +kernel, by decide, rfl, rfl, rfl⟩

/-- MeshWords: core 0 alone in descriptor 63, sequence 255; the last sequence there 127 behind, and 128 behind; a good and a bad result. -/
def tDesc : MDesc := { MDesc.reset with valid := true, timeout := 64, nodes := [(0, 0x84000000)] }
def tMeshW : Warp := tWarp (inAll 0 0xFF3F ++ inAll 2 5)
def tMeshState (last : Option MeshResult) (contrib : List (Nat × Nat)) : State :=
  let s := tState tU tMeshW tAll
  { s with
    dies := [(0, { Die.reset with descs := [(63, tDesc)] })]
    cores := [(0, { s.core 0 with mesh := (last.map fun r => (63, r)).toList, contrib := contrib })] }
def cMesh : Ctx := tCtx tU tMeshW tAll
def tMeshResult (q : Nat) (missing : Word64) (bad : Bool) : MeshResult := ⟨q, [(0, 7), (31, 9)], missing, bad, true⟩
theorem wit_MeshWords :
    Ready (tMeshState none []) cMesh [opV 2, opV 0] [] ∧ cMesh.act ≠ 0#32 ∧ cMesh.act = cMesh.fr.mask ∧ cMesh.full (some .mr) = false ∧ cMesh.tendPending = false
      ∧ (cMesh.rd 0 cMesh.low).toNat = 63 + 256 * 255 ∧ ((tMeshState none []).desc (dieOf cMesh.u.core) 63).valid = true
      ∧ nodeContrib (((tMeshState none []).desc (dieOf cMesh.u.core) 63).node 0) = true
      ∧ nodeCore (((tMeshState none []).desc (dieOf cMesh.u.core) 63).node 0) = cMesh.u.core % 96
      ∧ NotSolitary (tMeshState none []) cMesh ∧ (63, 255) ∉ ((tMeshState none []).core 0).contrib ∧ (63, 255) ∈ ((tMeshState none [(63, 255)]).core 0).contrib
      ∧ ((255 : Int) - 128) % 256 = 127 ∧ ((255 : Int) - 127) % 256 = 128 ∧ ((255 : Int) - 254) % 256 = 1
      ∧ (cMesh.rd 2 cMesh.low).toNat = 5 ∧ ((tMeshState none []).desc (dieOf cMesh.u.core) (5 % 64)).valid = false := by
  refine ⟨⟨rfl, rfl, rfl, rfl⟩, by decide, by decide, by decide, rfl, by decide, by decide, by decide, by decide, notSolitary_of rfl, by decide, by decide,
    by decide, by decide, by decide, by decide, by decide⟩
theorem wit_MeshWords_results :
    ∀ r ∈ [tMeshResult 255 0 false, tMeshResult 255 1 false, tMeshResult 255 0 true, tMeshResult 127 0 false, tMeshResult 128 0 false,
        { tMeshResult 255 0 false with gave := false }],
      Map.look ((tMeshState (some r) []).core cMesh.u.core).mesh (64 * dieOf cMesh.u.core + 63) = some r ∧ (tMeshState (some r) []).ctx? = some cMesh := by
  decide +kernel

/-- MeshTreeCombines: a node with a child to the east; a first input of two, the last of two, an expired timer, and a result at the root. -/
def tTwo : MDesc := { tDesc with nnodes := 1, nodes := [(0, 0x94000000), (1, 0x80000001)] }
def tPart (v m : Nat) : MPart := ⟨[(0, BitVec.ofNat 32 v), (31, 0xFFFFFFFF#32)], BitVec.ofNat 64 m⟩
def tSeq (nodes : Map MNode) : MSeq := ⟨.add, .n32, false, [(0, ([(0, 3#32), (31, 2#32)], 0, 0)), (1, ([(0, 4#32)], 0, 1))], nodes, []⟩
def tNodes : Map MNode := [(0, ⟨[(2, tPart 4 2)], 0, none⟩), (1, ⟨[], 0, some (tPart 4 2)⟩)]
def tTreeState (nodes : Map MNode) (cycle : Word64) : State :=
  { sAll with cycle := cycle, dies := [(0, { Die.reset with descs := [(63, { tTwo with seqs := [(255, tSeq nodes)] })] })] }
theorem wit_MeshTreeCombines :
    Map.look ((tTreeState tNodes 64).desc 0 63).seqs 255 = some (tSeq tNodes) ∧ (tSeq tNodes).op = .add ∧ (tSeq tNodes).ty = .n32
      ∧ 0 < ((tTreeState tNodes 64).desc 0 63).count ∧ ((tTreeState tNodes 64).desc 0 63).named 0 = [2, 4]
      ∧ ((tTreeState tNodes 64).desc 0 63).input (tSeq tNodes) 0 4 = some ⟨[(0, 3#32), (31, 2#32)], 1#64⟩
      ∧ Map.look (tSeq tNodes).nodes 0 = some ⟨[(2, tPart 4 2)], 0, none⟩ ∧ Map.has [(2, tPart 4 2)] 4 = false
      ∧ ((tTreeState tNodes 64).desc 0 63).input (tSeq [(1, ⟨[], 0, some (tPart 4 2)⟩)]) 0 2 = some (tPart 4 2)
      ∧ 0 + ((tTreeState tNodes 64).desc 0 63).timeout ≤ (tTreeState tNodes 64).cycle.toNat
      ∧ (tTreeState tNodes 63).cycle.toNat < 0 + ((tTreeState tNodes 63).desc 0 63).timeout
      ∧ ((tTreeState tNodes 64).desc 0 63).root = 0 ∧ (((tTreeState tNodes 64).desc 0 63).member 1).isSome = true ∧ NSet.has (tSeq tNodes).reached 1 = false
      ∧ (Map.look (tSeq [(0, ⟨[], 0, some (tPart 4 3)⟩)]).nodes 0).bind (·.out) = some (tPart 4 3) := by
  decide +kernel
theorem wit_MeshTreeCombines_valid :
    (State.reset.desc 1 63).valid = false ∧ (0x3F00003F#32).toNat % 2 ^ 24 < 64 ∧ (tMeshState none []).desc 0 63 = { tDesc with } ∧ 96 * 0 + 0 ∉ State.reset.dev.retCores
      ∧ tDesc.node 0 = 2 ^ 31 + 4 * 2 ^ 24 + 0 := by decide +kernel
/-- Node 1 on a retired core; an MRED that its router has taken, and one that it has not. -/
def tMredOp : Op := { tOp (.mred 63 255) with path := some .mr }
def sMred (nodes : Map MNode) : State :=
  { tState (tWith tMredOp) (tWarp []) tAll with
    dies := [(0, { Die.reset with descs := [(63, { tTwo with seqs := [(255, { tSeq nodes with given := [(0, ([(0, 3#32)], 0, 0))] })] })] })] }
theorem wit_MeshTreeCombines_retired :
    (let s := { tTreeState [] 64 with dev := { State.reset.dev with retCores := [1] } }
     NSet.has s.dev.retCores (96 * 0 + nodeCore ((s.desc 0 63).node 1)) = true ∧ Map.look (tSeq []).nodes 1 = none ∧ (s.desc 0 63).root ≠ 1
       ∧ 1 < (s.desc 0 63).count)
    ∧ tMredOp.done = false ∧ (sMred []).desc 0 63 = { tTwo with seqs := [(255, { tSeq [] with given := [(0, ([(0, 3#32)], 0, 0))] })] }
    ∧ ((sMred []).desc 0 63).member 0 = some 0 ∧ (tUnit (tWith tMredOp) (tWarp []) tAll).drops = []
    ∧ (sMred []).unit? 0 = some (tUnit (tWith tMredOp) (tWarp []) tAll) ∧ (tUnit (tWith tMredOp) (tWarp []) tAll).op? 0 = some tMredOp
    ∧ Map.look (sMred [(0, ⟨[(4, tPart 3 1)], 0, none⟩)] |>.desc 0 63).seqs 255 ≠ none := by decide +kernel

/-- CircletWords: bead 511 word 15 in every thread, beads by thread, a bad operand; a station with room for exactly the operations. -/
def tBeadW (v : Word) : Warp := tWarp (inAll 0 v ++ inAll 2 3 ++ inAll 3 4)
def tBeadState (v : Word) (n : Nat) : State :=
  let s := tState tU (tBeadW v) tAll
  { s with cores := [(0, { s.core 0 with station := List.replicate n ⟨1, 0, 1, .add, 7, 0, []⟩ })] }
def cBead (v : Word) : Ctx := tCtx tU (tBeadW v) tAll
theorem wit_CircletWords :
    (∀ i ∈ [Instr.alight 4 0, .bcapAdd 4 0 2, .bcapAnd 4 0 2, .bcapOr 4 0 2, .bcapSwap 4 0 2, .bcapFadd 4 0 2, .bcapMin true 4 0 2, .bcapMin false 4 0 2,
        .bcapMax true 4 0 2, .bcapMax false 4 0 2, .bcapCas 4 0 2, .bread 4 0],
      (circOf (cBead 0x1FF) i).isSome = true ∧ (circOf cNone i).isSome = true)
      ∧ Ready (tBeadState 0x1FF 63) (cBead 0x1FF) [opV 4, opV 0, opP 2] [] ∧ Ready (tBeadState 0x1FF 63) (cBead 0x1FF) [opV 0] []
      ∧ (cBead 0x1FF).act ≠ 0#32 ∧ (cBead 0x1FF).full (some .rg) = false ∧ (cBead 0x1FF).tendPending = false
      ∧ ((tBeadState 0x1FF 63).core 0).station.length + 1 ≤ 64 ∧ (((threads (cBead 0x1FF).act).map fun u => ((cBead 0x1FF).rd 0 u).toNat % 512).eraseDups) = [511] := by
  refine ⟨by decide, ⟨rfl, rfl, rfl, rfl⟩, ⟨rfl, rfl, rfl, rfl⟩, by decide, by decide, rfl, by decide, by decide +kernel⟩
theorem wit_CircletWords_operands :
    (∀ u ∈ threads (cBead 0x1FF).act, beadOperand false false ((cBead 0x1FF).rd 0 u)) ∧ (∀ u ∈ threads (cBead 0xF1FF).act, beadOperand false true ((cBead 0xF1FF).rd 0 u))
      ∧ (∀ u ∈ threads (cBead 0x101FF).act, beadOperand true true ((cBead 0x101FF).rd 0 u)) := by
  have h : ∀ v : Word, ∀ u ∈ threads (cBead v).act, (cBead v).rd 0 u = v := by
    intro v u hu
    have : u < 32 := (mem_threads.mp hu).1
    interval_cases u <;> rfl
  refine ⟨fun u hu => ?_, fun u hu => ?_, fun u hu => ?_⟩ <;> rw [h _ u hu] <;> unfold beadOperand <;> decide
theorem wit_CircletWords_bad : ¬ beadOperand true true 0x111FF ∧ ¬ beadOperand false true 0x10000 ∧ ¬ beadOperand true true 0x200
    ∧ lowest (cBead 0x111FF).act = some 0 := by
  unfold beadOperand
  decide
/-- BOARD of bead 511 with its home on the release-consistent page, allowed by the quota map of context 1 and not. -/
def tBoardW : Warp := (tWarp [(0, 0x1FF), (32, 0xABCD)]).setQuad .general 8 0 (tCap 0x20040).bits true
def sBoard (q : List Byte) : State :=
  let s := withData (tState tU tBoardW tOne)
  ({ s with dev := { s.dev with circTab := 0xE0000 } } : State).put 0xE0040 q false
def cBoard : Ctx := tCtx tU tBoardW tOne
def tQuota : List Byte := List.replicate 63 0#8 ++ [0x80#8]
theorem wit_CircletWords_board :
    Ready (sBoard tQuota) cBoard [opV 4, opP 0, opC 2] [] ∧ cBoard.full (some .rg) = false ∧ threads cBoard.act = [0] ∧ HeldTrue (sBoard tQuota) cBoard
      ∧ beadOperand false false (cBoard.rd 0 0) ∧ (∀ n < 7, cBoard.test (sBoard tQuota) ⟨64, 3, .store, true, true, [0]⟩ ⟨2, .short 0⟩ false 0 n)
      ∧ cBoard.Grants (sBoard tQuota) ⟨64, 3, .store, true, true, [0]⟩ false (cBoard.cap 2 0).cursor tLeaf ∧ tLeaf.rd = true ∧ tLeaf.kind = .rc
      ∧ (sBoard tQuota).dev.circTab ≠ 0 ∧ (sBoard tQuota).fetch ((sBoard tQuota).dev.circTab + 64 * cBoard.l.ctx) 64 = some tQuota
      ∧ Map.look (sBoard tQuota).quota cBoard.l.ctx = none ∧ (tQuota.getD (511 / 8) 0#8).getLsbD (511 % 8) = true
      ∧ (sBoard []).fetch ((sBoard []).dev.circTab + 64 * cBoard.l.ctx) 64 = some (List.replicate 64 0#8)
      ∧ ((sBoard tQuota).core 0).station.length < 64 ∧ cBoard.fr.mask = cBoard.act ∧ Map.keys (sBoard tQuota).pages = [] ∧ NotSolitary (sBoard []) cBoard := by
  refine ⟨⟨rfl, rfl, rfl, rfl⟩, by decide +kernel, by decide +kernel, heldTrue_of rfl rfl, ?_, ?_, ?_, rfl, rfl, by decide +kernel, by decide +kernel, by decide +kernel,
    by decide +kernel, by decide +kernel, by decide +kernel, by decide +kernel, rfl, notSolitary_of rfl⟩
  · have : cBoard.rd 0 0 = 0x1FF#32 := by decide +kernel
    rw [this]; unfold beadOperand; decide
  · exact tests_of_early (mr := ⟨2, .short 0⟩) (Option.isNone_iff_eq_none.mp (by decide +kernel))
  · exact
      { walk := by decide +kernel, rd := fun _ => rfl, wr := fun _ => rfl, tag := fun _ => rfl
        spec := fun _ h => absurd h (by decide +kernel), order := fun _ => by decide }

/-- BeadPassApplies: bead 511 at station 0 in cycle 1, with a BCAP, a BOARD and an ALIGHT entered two cycles and more before, and one too late. -/
def tStOp (k : CircKind) (entry : Nat) : StOp := ⟨0, 0, 1, k, 511, entry, [⟨31, 15, false, 5, 6, 0x2000, (0, 0)⟩]⟩
def tPassOp : Op := { tOp (.circ (bit 31)) with path := some .rg, mask := bit 31, dst := some (tDst 1 4 false) }
def tPass (k : CircKind) (entry : Nat) (b : Bead) : State :=
  let s := tState (tWith tPassOp) (tWarp []) { tAll with status := .parkedWait, wake := .station 0 }
  { s with cycle := 257, beads := [(511, b)], cores := [(0, { s.core 0 with station := [tStOp k entry] })] }
def tAboard : Bead := { Bead.vacant with payload := [(15, 3)], home := 0x2000, ctx := 1, st := .aboard, key := 9 }
theorem wit_BeadPassApplies :
    (511 % 256 + (tPass .add 255 tAboard).cycle.toNat) % 256 = stationPos (stationOf 0) ∧ stationOf 0 < 192
      ∧ ((tPass .add 255 tAboard).bead 511).last ≠ (tPass .add 255 tAboard).cycle.toNat + 1 ∧ ((tPass .add 255 tAboard).bead 511).req = none
      ∧ ((tPass .add 255 tAboard).bead 511).clear = false
      ∧ (∀ k ∈ [CircKind.add, .cas, .read, .board, .alight],
          (((tPass k 255 tAboard).core 0).station.filter fun o => o.bead = 511 && decide (o.entry + 2 ≤ (tPass k 255 tAboard).cycle.toNat)) = [tStOp k 255])
      ∧ (∀ o ∈ ((tPass .add 256 tAboard).core 0).station, o.bead = 511 → (tPass .add 256 tAboard).cycle.toNat < o.entry + 2)
      ∧ (tPass .board 255 Bead.vacant).bead 511 = Bead.vacant
      ∧ ((tPass .board 255 { Bead.vacant with st := .poisoned }).bead 511).st = .poisoned ∧ ((tPass .board 255 { Bead.vacant with st := .poisoned }).bead 511).ctx = 0 ∧ ((tPass .alight 255 tAboard).bead 511).st = .aboard
      ∧ (tPass .add 255 tAboard).unit? 0 = some (tUnit (tWith tPassOp) (tWarp []) { tAll with status := .parkedWait, wake := .station 0 })
      ∧ tPassOp.done = false ∧ (∀ un ∈ Map.vals (tPass .add 255 tAboard).units, ∀ wn ∈ Map.vals un.warps, ∀ x ∈ Map.vals wn.frags, x.wake ≠ .bead 511)
      ∧ (tUnit (tWith tPassOp) (tWarp []) tAll).op? 0 = some tPassOp ∧ tPassOp.kind = .circ (bit 31) ∧ (tWarp []).live.getLsbD 31 = true := by
  decide +kernel

/-- EngineWordsQueue: the last register run of the window, K steps of each kind, a tile that ends with the scratchpad, every fault's descriptor. -/
def tMmaW (v : Word) : Warp := tWarp (inAll 0 v)
theorem wit_EngineWordsQueue :
    (∀ i ∈ [Instr.mmaBf16 true 0 127 0, .mmaF16 true 0 127 0, .mmaF32 true 0 127 0, .mmaK4 true 0 127 0, .mmaI8 true 0 127 0, .mmabXor true 3 124 0,
        .mmabAnd false 3 124 0], (mmaOf i).isSome = true)
      ∧ 0xE00 % 64 = 0 ∧ 0xE00 + 1 * 512 ≤ cAll.l.scratch ∧ 0xC00 + 2 * 1 * 512 ≤ cAll.l.scratch ∧ cAll.l.scratch < 0xE40 + 1 * 512 ∧ 0xE20 % 64 ≠ 0
      ∧ 32 * (cAll.fr.fmt.toNat / 256) + 32 ≤ cAll.l.acc ∧ (∀ u ∈ threads cAll.act, (cAll.u.row (32 * (cAll.fr.fmt.toNat / 256) + u)).poison = false)
      ∧ cAll.full (some .mx) = false ∧ (sAll.core cAll.u.core).eng.length < 16 ∧ cAll.l.stream = false
      ∧ ¬ (32 * (({ tAll with fmt := 0x2000#14 } : Frag).fmt.toNat / 256) + 32 ≤ cAll.l.acc) := by
  decide +kernel
theorem wit_EngineWordsQueue_descriptors (v : Word) : (tCtx tU (tMmaW v) tAll).rd 0 (tCtx tU (tMmaW v) tAll).low = v
    ∧ (tState tU (tMmaW v) tAll).ctx? = some (tCtx tU (tMmaW v) tAll) := by
  have h : (tCtx tU (tMmaW v) tAll).low = 0 := by show (lowest cAll.act).getD 0 = 0; decide
  exact ⟨by rw [h]; rfl, rfl⟩
theorem wit_EngineWordsQueue_ready :
    Ready sTop cTop [opRun 127 1, opV 0] [] ∧ Ready sTop cTop [opRun 124 4, opV 0] [] ∧ Ready sAll cAll [opRun 0 128, opV 0] [] ∧ Ready sNone cNone [opRun 0 128, opV 0] []
      ∧ Ready sTop cTop [opV 127, opV 126] [] ∧ Ready sTop cTop [] [] ∧ NotSolitary sAll cAll := by
  refine ⟨⟨rfl, rfl, rfl, rfl⟩, ⟨rfl, rfl, rfl, rfl⟩, ⟨rfl, rfl, rfl, rfl⟩, ⟨rfl, rfl, rfl, rfl⟩, ⟨rfl, rfl, rfl, rfl⟩, ⟨rfl, rfl, rfl, rfl⟩, notSolitary_of rfl⟩
/-- A FIFO of a kernel with streams; a tile of an accumulator word for two threads that ends with the scratchpad. -/
def tStreamL : Launch := { placeLaunch with stream := true }
def sStream : State := { tState tU (tMmaW 3) tAll with launches := [(0, tStreamL)] }
def cStream : Ctx := { tCtx tU (tMmaW 3) tAll with l := tStreamL }
theorem wit_EngineWordsQueue_fifo :
    sStream.ctx? = some cStream ∧ (cStream.rd 0 cStream.low).toNat < 4 ∧ cStream.l.stream = true
      ∧ (∀ i ∈ [Instr.accz, .acczAll, .accldF32 0, .accldBf16 0, .accldF16 0, .accstF32 0, .accstBf16 0, .accstF16 0, .accstI8 0 1, .accsv 0, .accrs 0,
          .accmx true 0 127, .accexs 0 1 127, .accmsk], (accOf cAll i).isSome = true ∧ (accOf cNone i).isSome = true)
      ∧ (let c := tCtx tU (tMmaW 0xC00) (tActive allThreads 3)
         (∀ u ∈ threads c.act, (c.rd 0 c.low).toNat + (u + 1) * 512 ≤ c.l.scratch) ∧ (c.rd 0 c.low).toNat % 64 = 0
           ∧ ∃ u ∈ threads c.act, c.l.scratch < (c.rd 0 c.low).toNat + (u + 1) * 576) := by
  decide +kernel
/-- CBLD through c2. -/
def tCbWant : Want := ⟨32, 1, .load, true, false, [0, 1]⟩
theorem wit_EngineWordsQueue_cbld :
    Ready (sMem (tCap 0x20020)) (cMem (tCap 0x20020)) [opC 2] [] ∧ lowest (cMem (tCap 0x20020)).act = some 0 ∧ (cMem (tCap 0x20020)).full (some .ls) = false
      ∧ HeldTrue (sMem (tCap 0x20020)) (cMem (tCap 0x20020)) ∧ (∀ n < 7, (cMem (tCap 0x20020)).test (sMem (tCap 0x20020)) tCbWant ⟨2, .short 0⟩ false 0 n)
      ∧ (cMem (tCap 0x20020)).Lies (sMem (tCap 0x20020)) tCbWant ⟨2, .short 0⟩ false 0 ((span 0x20020 32).map fun v => .phys (0x60000 + v) .rc 1 v tLeaf.use)
      ∧ (∀ o ∈ (cMem (tCap 0x20020)).u.ops, o.done = true ∨ ∀ n f st aa step win, o.kind ≠ .engine (.mma .k4 n f st aa 3 step) win) := by
  refine ⟨⟨rfl, rfl, rfl, rfl⟩, by decide +kernel, by decide +kernel, heldTrue_of rfl rfl, tests_cMem (by decide +kernel), ?_, by intro o h; nomatch h⟩
  refine ⟨by decide +kernel, by decide +kernel, ?_, fun _ => ⟨tLeaf, tLeaf, ?_, fun h => absurd h (by decide +kernel), by decide +kernel, by decide +kernel⟩⟩
  · have : ((cMem (tCap 0x20020)).cap 2 0).space = 0 := by decide +kernel
    intro h; exact absurd (this.symm.trans h) (by decide)
  · exact grants_leaf (by decide +kernel) (by decide +kernel) rfl rfl rfl (by decide)

/-- IntegerMatrixStep, AccumulatorOperations: one operation at the head of the queue, for each kind, with live threads and clean bytes. -/
def tEngOp (e : EngKind) (win : Nat) : Op := { tOp (.engine e win) with path := some .mx }
def sEng (e : EngKind) (win : Nat) : State :=
  let s := tState (tWith (tEngOp e win)) (tWarp []) tAll
  { s with cores := [(0, { s.core 0 with eng := [(1, 0), (0, 0), (0, 1)] })] }
theorem wit_IntegerMatrixStep :
    ∀ e ∈ [EngKind.mma .i8 2 none 0xC00 [(0, [0x7F80FF01, 5])] 0 0, .mma .i8 2 none 0xC00 [(0, [1, 2])] 0 1, .mma .xor 4 none 0x800 [(0, [1, 2, 3, 4])] 0 0,
        .mma .and 8 none 0 [] 0 0, .accz true, .accz false, .accld .f32 0, .accst .f32 0 [], .accsv 0, .accmsk, .maskg true [(0, 5)]],
      (sEng e 31).unit? 0 = some (tUnit (tWith (tEngOp e 31)) (tWarp []) tAll)
        ∧ ((sEng e 31).core 0).eng.find? (fun p => p.1 = 0) = some (0, (tEngOp e 31).id)
        ∧ (tUnit (tWith (tEngOp e 31)) (tWarp []) tAll).op? (tEngOp e 31).id = some (tEngOp e 31) ∧ (tEngOp e 31).kind = .engine e 31
        ∧ (tUnit (tWith (tEngOp e 31)) (tWarp []) tAll).liveOf (tEngOp e 31).warp (tEngOp e 31).mask ≠ 0#32
        ∧ (Map.look (sEng e 31).launches (tUnit (tWith (tEngOp e 31)) (tWarp []) tAll).launch).map (·.st) ≠ some .draining
        ∧ (0 % 16 = 0 ∧ ∀ b ∈ Map.keys (tUnit (tWith (tEngOp e 31)) (tWarp []) tAll).bars, b % 16 = 0)
        ∧ (tUnit (tWith (tEngOp e 31)) (tWarp []) tAll).spoisoned 0 0x1000 = false ∧ tU.frozen = false := by
  decide +kernel

/-- TransferWords: a record through c2 in global memory, and one that starts 64 bytes above the end of the bounds; a kernel with streams. -/
def sXf (k : Cap) : State := { sMem k with launches := [(0, tStreamL)] }
def cXf (k : Cap) : Ctx := { cMem k with l := tStreamL }
def tRecWant : Want := ⟨128, 1, .load, true, false, [0, 1]⟩
theorem wit_TransferWords :
    Ready (sXf (tCap 0x20080)) (cXf (tCap 0x20080)) [opC 2] [] ∧ Ready (sXf (tCap 0x20080)) (cXf (tCap 0x20080)) [opC 2, opRun 122 6] []
      ∧ Ready (sXf (tCap 0x20080)) (cXf (tCap 0x20080)) [opC 2, opRun 123 5] [] ∧ (cXf (tCap 0x20080)).act ≠ 0#32 ∧ (cXf (tCap 0x20080)).full (some .xe) = false
      ∧ (∀ n < 7, (cXf (tCap 0x20080)).test (sXf (tCap 0x20080)) tRecWant ⟨2, .short 0⟩ false (cXf (tCap 0x20080)).low n)
      ∧ (cXf (tCap 0x20080)).l.stream = true ∧ (cMem (tCap 0x20080)).l.stream = false ∧ (∀ j ∈ (cXf (tCap 0x20080)).u.jobs, j.kind ≠ .tile 15)
      ∧ (cXf (tCap 0x20080)).act = (cXf (tCap 0x20080)).fr.mask ∧ NotSolitary (sXf (tCap 0x20080)) (cXf (tCap 0x20080)) := by
  have h : (cXf (tCap 0x20080)).low = 0 := by decide +kernel
  refine ⟨⟨rfl, rfl, rfl, rfl⟩, ⟨rfl, rfl, rfl, rfl⟩, ⟨rfl, rfl, rfl, rfl⟩, by decide +kernel, by decide +kernel, ?_, rfl, rfl, by decide, by decide +kernel, notSolitary_of rfl⟩
  rw [h]
  exact tests_of_early (mr := ⟨2, .short 0⟩) (Option.isNone_iff_eq_none.mp (by decide +kernel))
theorem wit_TransferWords_fails :
    (∀ m < 3, (cXf (tCap 0x7FFC0)).test (sXf (tCap 0x7FFC0)) tRecWant ⟨2, .short 0⟩ false 0 m)
      ∧ ¬ (cXf (tCap 0x7FFC0)).test (sXf (tCap 0x7FFC0)) tRecWant ⟨2, .short 0⟩ false 0 3 := by
  constructor
  · intro m h
    have e : (cXf (tCap 0x7FFC0)).early (sXf (tCap 0x7FFC0)) { tRecWant with size := 64 } ((cXf (tCap 0x7FFC0)).cap 2 0) ((cXf (tCap 0x7FFC0)).capTag 2 0) false
        ((cXf (tCap 0x7FFC0)).addr ⟨2, .short 0⟩ 0) = none := by decide +kernel
    have := tests_of_early (mr := ⟨2, .short 0⟩) e m (by omega)
    interval_cases m <;> exact this
  · rintro ⟨⟨b, e, h, -, h2⟩, -⟩
    have hb : ((cXf (tCap 0x7FFC0)).cap 2 0).bounds = some (0x20000, 0x80000) := by decide +kernel
    have ha : (cXf (tCap 0x7FFC0)).addr ⟨2, .short 0⟩ 0 = 0x7FFC0 := by decide +kernel
    rw [show (⟨2, .short 0⟩ : MemRef).c = (2 : CapReg) from rfl, hb] at h
    rw [ha] at h2
    injection h with h; injection h with h3 h4
    subst h4
    exact absurd h2 (by decide)
/-- A chain slot that runs and one that does not; chunk masks that the bitmap has and has not. -/
def tChainU : KUnit := { tU with chains := [(3, { Chain.idle with st := .running, recs := 0xFFFFFF, ptr := 0xFFFFFFFFFFFFFF })], bitmaps := [(15, 1#64 <<< 63)] }
def tChainW : Warp := tWarp (inAll 0 3 ++ inAll 3 0x80000000 ++ inAll 4 1)
def sChain : State := tState tChainU tChainW tAll
def cChain : Ctx := tCtx tChainU tChainW tAll
theorem wit_TransferWords_chain :
    Ready sChain cChain [opV 4, opP 126, opV 0] [] ∧ Ready sChain cChain [opV 0] [] ∧ Ready sChain cChain [opP 126, opV 0] [] ∧ Ready sChain cChain [opP 2] [6]
      ∧ (cChain.rd 0 cChain.low).toNat = 3 ∧ (cChain.rd 1 cChain.low).toNat = 0 ∧ (cChain.u.chain 3).st = .running ∧ (cChain.u.chain 0).st ≠ .running
      ∧ cChain.full (some .xe) = false ∧  (∀ o ∈ cChain.u.ops, o.id ≠ cChain.u.nextOp) ∧ NotSolitary sChain cChain
      ∧ (∀ j < 64, (cChain.rdP 2 cChain.low).getLsbD j = true → (Map.lookD cChain.u.bitmaps 15 0#64).getLsbD j = true)
      ∧ (∃ j < 64, (cChain.rdP 4 cChain.low).getLsbD j = true ∧ (Map.lookD cChain.u.bitmaps 15 0#64).getLsbD j = false) := by
  refine ⟨⟨rfl, rfl, rfl, rfl⟩, ⟨rfl, rfl, rfl, rfl⟩, ⟨rfl, rfl, rfl, rfl⟩, ⟨rfl, rfl, rfl, rfl⟩, by decide, by decide, rfl, nofun, by decide, by decide, notSolitary_of rfl,
    by decide, ⟨0, by decide, by decide, by decide⟩⟩

/-- TransferEngineSteps: a record of 256 words whose coordinate starts one below the tensor; its second chunk, of which part is fill. -/
def tRecord (ctl next src dst ext box coord : Nat) : List Byte :=
  leBytes 4 ctl ++ leBytes 4 0 ++ leBytes 8 next ++ leBytes 8 src ++ leBytes 8 dst ++ leBytes 20 ext ++ leBytes 8 box ++ leBytes 4 0 ++ leBytes 32 0
    ++ leBytes 20 coord ++ leBytes 4 0 ++ leBytes 8 0
def tTileRec : List Byte := tRecord 0x930 0 0x20010 0x200 130 255 0xFFFFFFFF
def tJob (kind : JobKind) (addr : RecAddr) (rec : Option (List Byte)) (chunks : NSet) : Job :=
  { op := 0, kind := kind, addr := addr, co := [], record := rec, vals := [], sent := [], start := 0, chunks := chunks, node := 0, warp := 0, fidx := 0
    mask := 1, pc := 4, waitVa := none, failed := false, pins := [], kept := false }
def tXfU (j : Job) (op : OpKind) : KUnit :=
  ({ tWith { tOp op with path := some .xe } with
      jobs := [j], chains := [(3, { Chain.idle with st := .running, recs := 0xFFFFFF })] } : KUnit).sput 0xF80 tTileRec false
def sXfer (j : Job) (op : OpKind) : State :=
  let s := withData (tState (tXfU j op) (tWarp []) tOne)
  { s with dies := [(0, { Die.reset with tlb := [⟨1, tLeaf⟩] })] }
def tTileJob (rec : Option (List Byte)) (chunks : NSet) : Job := tJob (.tile 15) (.scratch 0xF80) rec chunks
theorem wit_TransferEngineSteps_fetch :
    (sXfer (tTileJob none []) .copy).unit? 0 = some (tUnit (tXfU (tTileJob none []) .copy) (tWarp []) tOne)
      ∧ (tUnit (tXfU (tTileJob none []) .copy) (tWarp []) tOne).job? 0 = some (tTileJob none [])
      ∧ (tUnit (tXfU (tTileJob none []) .copy) (tWarp []) tOne).stopsNow 0 1 = false
      ∧ (tXfU (tTileJob none []) .copy).spoisoned 0xF80 128 = false ∧ (tXfU (tTileJob none []) .copy).sbytes 0xF80 128 = tTileRec
      ∧ (sXfer (tTileJob none []) .copy).launchOf 0 = some placeLaunch
      ∧ (TRec.of tTileRec []).refusal (tUnit (tXfU (tTileJob none []) .copy) (tWarp []) tOne) 0 placeLaunch.scratch false false = none ∧ (TRec.of tTileRec []).op = 0 := by
  decide +kernel
theorem wit_TransferEngineSteps_chunk :
    (∀ l ∈ [[], [0]],
      (tUnit (tXfU (tTileJob (some tTileRec) l) .copy) (tWarp []) tOne).job? 0 = some (tTileJob (some tTileRec) l) ∧ NSet.has l 1 = false)
      ∧ (TRec.of tTileRec []).dsp = 0 ∧ (TRec.of tTileRec []).baren = false ∧ (TRec.of tTileRec []).dst < 2 ^ 19 ∧ 1 < (TRec.of tTileRec []).chunks
      ∧ (∀ x ∈ (tXfU (tTileJob (some tTileRec) [0]) .copy).jobs, x.op = 0 → x = tTileJob (some tTileRec) [0])
      ∧ (sXfer (tTileJob (some tTileRec) [0]) .copy).engPas 0 (tUnit (tXfU (tTileJob (some tTileRec) [0]) .copy) (tWarp []) tOne)
          (tTileJob (some tTileRec) [0]) false ((TRec.of tTileRec []).addrs (TRec.of tTileRec []).src ((TRec.of tTileRec []).chunkElems 1))
        = (sXfer (tTileJob (some tTileRec) [0]) .copy, .ok (span (0x80010 + 4 * 127) 12))
      ∧ (∀ a ∈ span (0x80010 + 4 * 127) 12, (sXfer (tTileJob (some tTileRec) [0]) .copy).lineBusy none a false = false)
      ∧ (∀ i ∈ (TRec.of tTileRec []).chunkElems 1, (tXfU (tTileJob (some tTileRec) [0]) .copy).barrierIn (0x200 + i * 4) 4 = false)
      ∧ tU.frozen = false := by
  decide +kernel
/-- A chain at pointer 0, and one whose record is skipped. -/
def tChainJob (va : Nat) (rec : Option (List Byte)) : Job := tJob (.chain 3) (.global va) rec []
def tSkip : List Byte := tRecord 0x80000102 0x20100 0 0 1 0 0
theorem wit_TransferEngineSteps_chain :
    ((tXfU (tChainJob 0 none) (.chain 3)).jobs.find? fun x => x.kind = .chain 3) = some (tChainJob 0 none)
      ∧ ((tXfU (tChainJob 0x20080 (some tSkip)) (.chain 3)).jobs.find? fun x => x.kind = .chain 3) = some (tChainJob 0x20080 (some tSkip))
      ∧ tSkip.length = 128 ∧ (TRec.of tSkip []).op = 2
      ∧ (sXfer (tChainJob 0x20080 (some tSkip)) (.chain 3)).engPas 0 (tUnit (tXfU (tChainJob 0x20080 (some tSkip)) (.chain 3)) (tWarp []) tOne)
          (tChainJob 0x20080 (some tSkip)) true (vaSpan 0x20080 4)
        = (sXfer (tChainJob 0x20080 (some tSkip)) (.chain 3), .ok (span 0x80080 4))
      ∧ (∀ a ∈ span 0x80080 4, (sXfer (tChainJob 0x20080 (some tSkip)) (.chain 3)).lineBusy none a true = false) ∧ (span 0x80080 4).Nodup
      ∧ ((tXfU (tChainJob 0x20080 (some tSkip)) (.chain 3)).chain 3).stopReq = false
      ∧ (sXfer (tChainJob 0x20080 (some tSkip)) (.chain 3)).evicting (tXfU (tChainJob 0x20080 (some tSkip)) (.chain 3)) = false := by
  decide +kernel
theorem wit_TransferEngineSteps_partials :
    (sXfer (tTileJob none []) .copy).NoPartials ∧ (sXfer (tTileJob (some tTileRec) [0]) .copy).NoPartials
      ∧ (sXfer (tChainJob 0x20080 (some tSkip)) (.chain 3)).NoPartials := ⟨noPartials_of rfl, noPartials_of rfl, noPartials_of rfl⟩

/-- TreeWordsSend: every tree word; tags of the committed prefix and of slot 1023 of the largest sequence number; operands out of range. -/
def tTreeW : Warp := tWarp (inAll 0 0xFFFFFF ++ inAll 1 (2 ^ 10) ++ inAll 2 0xFFFFFF ++ inAll 3 1023 ++ inAll 4 0x1000000 ++ inAll 6 896 ++ inAll 7 0xFFFFF ++ inAll 8 0x100000)
def sTree : State := tState tU tTreeW tAll
def cTree : Ctx := tCtx tU tTreeW tAll
theorem wit_TreeWordsSend :
    (∀ i ∈ [Instr.nfork 4 0, .nprune 4 0, .ncommit true 4 0, .nquery false 4 0, .kvmap true 126 0 6, .kvref 4 0 2, .kvrel 4 0 6, .kvshoot 0 2],
      (treeOf cTree i).isSome = true ∧ (treeOf cNone i).isSome = true)
      ∧ Ready sTree cTree [opP 126, opP 0, opV 6] [] ∧ Ready sTree cTree [opP 0] [] ∧ Ready sTree cTree [opP 0, opV 6] [] ∧ cTree.full (some .tr) = false
      ∧ cTree.act ≠ 0#32 ∧ cTree.act = cTree.fr.mask ∧ NotSolitary sTree cTree := by
  refine ⟨by decide, ⟨rfl, rfl, rfl, rfl⟩, ⟨rfl, rfl, rfl, rfl⟩, ⟨rfl, rfl, rfl, rfl⟩, by decide, by decide, by decide, notSolitary_of rfl⟩
theorem wit_TreeWordsSend_tags :
    (cTree.rdP 0 cTree.low).toNat = 0xFFFFFF + 2 ^ 32 * (0 + if true then 2 ^ 10 else 0)
      ∧ (cTree.rdP 2 cTree.low).toNat = 0xFFFFFF + 2 ^ 32 * (1023 + if false then 2 ^ 10 else 0)
      ∧ (cTree.rdP 4 cTree.low).toNat / 2 ^ 24 % 2 ^ 8 ≠ 0 ∧ nodeSpec cTree.w.node = false ∧ nodeSpec (BitVec.ofNat 64 (2 ^ 63 + 2 ^ 10)) = true
      ∧ Map.look sTree.seqs 0xFFFFFF = none ∧ 32 * (cTree.fr.fmt.toNat / 256) + 32 ≤ cTree.l.acc
      ∧ (cTree.rd 6 cTree.low).toNat = 896 ∧ (cTree.rd 7 cTree.low).toNat < 2 ^ 20 ∧ ¬ (cTree.rd 8 cTree.low).toNat < 2 ^ 20
      ∧ (sTree.core cTree.u.core).eng.length < 16 := by
  decide +kernel
theorem wit_TreeWordsSend_operands : ∀ u ∈ threads cTree.act, NodeOp.of (cTree.rdP 2 u) true ≠ none := by
  intro u hu
  have : u < 32 := (mem_threads.mp hu).1
  interval_cases u <;> decide

/-- TreeCommandsPerform: an open sequence with a live root, a live child in the last slot, and a pruning node; commands of each kind, first in transit. -/
def tSeqn : Seq :=
  { ctx := 1, hash := false, par := none, forklen := 0, len := 5, btab := 0x90000, nblk := 1024, store := 0xA0000, nlayer := 2, ppb := 3
    slots := [(0, ⟨false, none, 5, 1⟩), (1, ⟨true, none, 5, 2⟩), (1023, ⟨false, some 0, 6, 1 ||| 1#1024 <<< 1023⟩)], commit := none, hint := false, closing := false }
def tCmd (ask : TreeAsk) (a b : Nat) : TreeCmd := ⟨0, 0, 0, 0, 31, ask, 1, BitVec.ofNat 64 a, BitVec.ofNat 64 b, 0⟩
def tTreeOp (n : Nat) : Op := { tOp (.tree (bit 31)) with path := some .tr, mask := bit 31, dst := some (tDst n (4 * n) false) }
def sCmd (x : TreeCmd) (n : Nat) (q : Seq) : State :=
  let s := withData (tState (tWith (tTreeOp n)) (tWarp []) tAll)
  let p := (s.put (placeBase + 56) (leBytes 8 (2 ^ 49 + 0x23)) false).put (0x90000 + 8 * (1023 * 2 + 1)) (leBytes 8 (2 ^ 63 + 7)) false
  { s with mem := p.mem, treeQ := [x], seqs := [(0xFFFFFF, q)], dies := [(1, { Die.reset with stabLog2n := 23 })] }
theorem wit_TreeCommandsPerform :
    (∀ x ∈ [tCmd (.query true) 0xFFFFFF 0, tCmd (.query false) (0xFFFFFF + 2 ^ 42) 0, tCmd (.query false) (0xFFFFFF + 2 ^ 32 * 1) 0,
        tCmd (.query false) (0xFFFFFF + 2 ^ 32 * 2) 0, tCmd .fork (0xFFFFFF + 2 ^ 42) 0, tCmd .fork (0xFFFFFF + 2 ^ 32 * 1023) 0, tCmd .prune (0xFFFFFF + 2 ^ 32 * 0) 0,
        tCmd .prune (0xFFFFFF + 2 ^ 32 * 1) 0, tCmd (.query true) 0xFFFFFE 0],
      (sCmd x 1 tSeqn).treeQ = [x] ∧ (sCmd x 1 tSeqn).unit? x.unit = some (tUnit (tWith (tTreeOp 1)) (tWarp []) tAll)
        ∧ (tUnit (tWith (tTreeOp 1)) (tWarp []) tAll).op? x.op = some (tTreeOp 1) ∧ (tTreeOp 1).kind = .tree (bit x.thread)
        ∧ (sCmd x 1 tSeqn).seqWaits 0xFFFFFF = false ∧ (sCmd x 1 tSeqn).seqWaits 0xFFFFFE = false ∧ (sCmd x 1 tSeqn).evicted = [] ∧ (sCmd x 1 tSeqn).stalled = false
        ∧ ((sCmd x 1 tSeqn).die (0xFFFFFF % 2)).stabLog2n ≤ 23 ∧ 0xFFFFFF / 2 < 2 ^ ((sCmd x 1 tSeqn).die (0xFFFFFF % 2)).stabLog2n
        ∧ 2 ^ ((sCmd x 1 tSeqn).die (0xFFFFFE % 2)).stabLog2n ≤ 0xFFFFFE / 2)
      ∧ (tTreeOp 1).fails = []      ∧ (tWarp []).live.getLsbD 31 = true ∧ tSeqn.closing = false ∧ Map.look tSeqn.slots 2 = none ∧ (∀ m < 2, Map.look tSeqn.slots m ≠ none)
      ∧ Map.look tSeqn.slots 1023 = some ⟨false, some 0, 6, 1 ||| 1#1024 <<< 1023⟩ ∧ (∀ y, Map.look tSeqn.slots 1 = some y → y.pruning = true)
      ∧ Map.rising tSeqn.slots = true ∧ Map.look ([(0xFFFFFF, tSeqn)] : Map Seq) 0xFFFFFE = none := by
  refine ⟨by decide +kernel, rfl, by decide, rfl, rfl, by decide, rfl, ?_, rfl, rfl⟩
  intro y h
  exact (Option.some.inj h) ▸ rfl
theorem wit_TreeCommandsPerform_full (n : Nat) : (1024 : Nat) ≤ ((List.range 1024).map fun i => (i, (⟨false, none, 5, 0⟩ : Node))).length ∧ (n < 1 → n = 0) := by
  constructor
  · simp
  · omega
theorem wit_TreeCommandsPerform_map :
    (let s := sCmd (tCmd (.map false) (0xFFFFFF + 2 ^ 32 * 1023) 1) 2 tSeqn
     s.ctxEntry 1 = .ok ⟨0x20000, 0, 0, 2 ^ 49 + 0x23⟩ ∧ kvapValid (2 ^ 49 + 0x23) = true ∧ 1023 < tSeqn.nblk ∧ 1 < tSeqn.nlayer
       ∧ s.fetch (tSeqn.btab + 8 * (1023 * tSeqn.nlayer + 1)) 8 = some (leBytes 8 (2 ^ 63 + 7))
       ∧ (tUnit (tWith (tTreeOp 2)) (tWarp []) tAll).op? 0 = some (tTreeOp 2)) := by
  decide +kernel

/-- CommitsAndPrunes: NCOMMIT of the child; its commit that waits; a kill that reaches core 0; a pruned slot with nothing to release. -/
def tTagged : Warp := { tWarp [] with node := BitVec.ofNat 64 (2 ^ 63 + 0xFFFFFF * 2 ^ 32 + 2 ^ 10 + 1023), frags := [(0, tAll)] }
def sPrune : State :=
  { tState tU tTagged tAll with kills := [⟨0xFFFFFF, [0, 1023], [0, 191]⟩], seqs := [(0xFFFFFF, { tSeqn with commit := some ⟨0, 0, 31, 1023⟩ })] }
theorem wit_CommitsAndPrunes :
    (let s := sCmd (tCmd (.commit false) (0xFFFFFF + 2 ^ 32 * 1023) 0) 1 tSeqn
     Map.look s.seqs 0xFFFFFF = some tSeqn ∧ s.evicted = [] ∧ s.seqWaits 0xFFFFFF = false ∧ s.stalled = false)
      ∧ (∀ z ∈ tSeqn.slots, z.2.pruning = true ∨ (1 ||| 1#1024 <<< 1023).getLsbD z.1 = true ∨ z.2.vec.getLsbD 1023 = true)
      ∧ (Map.look sPrune.seqs 0xFFFFFF).bind (·.commit) = some ⟨0, 0, 31, 1023⟩
      ∧ (tSeqn.slots.filter fun p => (1 ||| 1#1024 <<< 1023).getLsbD p.1).map (·.1) = [0, 1023]
      ∧ sPrune.unit? 0 = some (tUnit tU tTagged tAll) ∧ (tUnit tU tTagged tAll).bars = [] ∧ Map.look (tUnit tU tTagged tAll).warps 0 = some tTagged
      ∧ nodeSpec tTagged.node = true ∧ nodeSeq tTagged.node = 0xFFFFFF ∧ nodeSlot tTagged.node ∈ [0, 1023]
      ∧ Map.look tSeqn.slots 1 = some ⟨true, none, 5, 2⟩ ∧ (sCmd (tCmd .fork 0 0) 1 tSeqn).kills = [] ∧ (sCmd (tCmd .fork 0 0) 1 tSeqn).pages = [] := by
  decide +kernel
/-- A live node off the tip's path; a pruned slot that a child's vector still names, and one that none names. -/
def tSide : Seq := { tSeqn with slots := tSeqn.slots.take 2 ++ [(5, ⟨false, none, 5, 1#1024 <<< 5⟩)] ++ tSeqn.slots.drop 2 }
def tBelow : Seq := { tSeqn with slots := [(1, ⟨true, none, 5, 2⟩), (2, ⟨true, some 1, 6, 6⟩)] }
theorem wit_CommitsAndPrunes_branch :
    (let s := sCmd (tCmd (.commit false) (0xFFFFFF + 2 ^ 32 * 1023) 0) 1 tSide
     Map.look s.seqs 0xFFFFFF = some tSide ∧ s.evicted = [] ∧ s.stalled = false ∧ s.seqWaits 0xFFFFFF = false ∧ (s.die 1).stabLog2n = 23)
      ∧ tSide.closing = false ∧ tSide.ctx = 1 ∧ Map.look tSide.slots 1023 = some ⟨false, some 0, 6, 1 ||| 1#1024 <<< 1023⟩
      ∧ (∃ z ∈ tSide.slots, z.2.pruning = false ∧ (1 ||| 1#1024 <<< 1023 : BitVec 1024).getLsbD z.1 = false ∧ z.2.vec.getLsbD 1023 = false)
      ∧ (tTreeOp 1).fails = [] ∧ (tDst 1 4 false).n = 1
      ∧ (∃ p ∈ tBelow.slots, p.1 ≠ 1 ∧ p.2.vec.getLsbD 1 = true) ∧ (∀ p ∈ tBelow.slots, p.1 ≠ 2 → p.2.vec.getLsbD 2 = false)
      ∧ tBelow.closing = false ∧ Map.look tBelow.slots 1 = some ⟨true, none, 5, 2⟩ ∧ Map.look tBelow.slots 2 = some ⟨true, some 1, 6, 6⟩ := by
  decide +kernel

/-- PagesAndSequences: a copy of a whole page, a shoot-down, pages with and without references, a sealed page, and the driver's commands. -/
def tDie : Die := { Die.reset with hmBase := 0x80000, hmN := 2, hmScrub := 1, stabBase := 0xF0000, stabLog2n := 0 }
def sPg : State := let s := sCmd (tCmd .fork 0 0) 2 tSeqn; { s with dies := [(0, tDie)], seqs := [] }
def tCopy : PageCopy := ⟨0xFFFFFF, 0, 0, 31, 0, 1, 131072, 5⟩
def tRefs (n : Nat) : List KvRef := List.replicate n ⟨0, 0, 1024⟩
theorem wit_PagesAndSequences_pages :
    ({ sPg with copies := [tCopy] } : State).pageAddr tCopy.src + 131072 ≤ ({ sPg with copies := [tCopy] } : State).pageAddr tCopy.dst ∧ tCopy.bytes ≤ 131072
      ∧ ({ sPg with copies := [tCopy] } : State).unit? 0 = some (tUnit (tWith (tTreeOp 2)) (tWarp []) tAll)
      ∧ ({ sPg with pages := [(1, ⟨1, [], 0⟩)] } : State).pins 1 = 0 ∧ ({ sPg with pages := [(1, ⟨1, [], 0⟩)], copies := [tCopy] } : State).pins 1 ≠ 0
      ∧ tRefs 1 ≠ [] ∧ 2 ≤ (tRefs 2).length ∧ 1 / 2147483648 = 0 ∧ (sPg.die 0).hmScrub ≠ 0 := by
  decide +kernel
theorem wit_PagesAndSequences_partials : ({ sPg with copies := [tCopy] } : State).NoPartials := noPartials_of rfl
/-- A destination that a migration locks, a ring-held line of the source, and more pins than a page takes. -/
theorem wit_PagesAndSequences_copies :
    ({ sPg with copies := [tCopy], dies := [(0, { tDie with migState := 1, migSrc := sPg.pageAddr 1 })] } : State).lineBusy none (sPg.pageAddr tCopy.dst) true = true
      ∧ sPg.pageAddr tCopy.dst % 64 = 0 ∧ tCopy.bytes ≠ 0 ∧ sPg.ringHeld = [] ∧ ({ sPg with copies := [tCopy] } : State).pins tCopy.src ≤ 65535
      ∧ ¬ (64 * (sPg.pageAddr tCopy.src / 64) + 64 ≤ sPg.pageAddr tCopy.src ∨ sPg.pageAddr tCopy.src + tCopy.bytes ≤ 64 * (sPg.pageAddr tCopy.src / 64)) := by
  decide +kernel
def tBoards : Nat × Bead := (0, { Bead.vacant with st := .boarding, home := 0x2000 })
def sPinned (n : Nat) : State := { sPg with copies := [tCopy], beads := List.replicate n tBoards }
theorem pinned (n : Nat) : n ≤ (sPinned n).pins tCopy.src := by
  have hd : (sPinned n).inPage = sPg.inPage := by
    funext p a
    unfold State.inPage State.pageAddr State.die
    rw [show (sPinned n).dies = sPg.dies by unfold sPinned; rfl]
  have p : (decide (tBoards.2.st = .boarding) && sPg.inPage tCopy.src (64 * tBoards.2.home)) = true := by decide +kernel
  have h : ((sPinned n).beads.filter fun b => b.2.st = .boarding && (sPinned n).inPage tCopy.src (64 * b.2.home)).length = n := by
    rw [hd, show (sPinned n).beads = List.replicate n tBoards by unfold sPinned; rfl, List.filter_replicate_of_pos (p := fun b : Nat × Bead => decide (b.2.st = .boarding) && sPg.inPage tCopy.src (64 * b.2.home)) p,
      List.length_replicate]
  unfold State.pins
  omega
theorem wit_PagesAndSequences_pins : 65535 < (sPinned 65536).pins tCopy.src := pinned 65536
/-- A sealed page whose checksum is right, and one whose checksum is one more. -/
def tCrc : Word := crc32c (sPg.bytes (sPg.pageAddr 1) 131072)
def sSealed (d : Word) : State := { sPg with pages := [(1, ⟨1, tRefs 2, tCrc + d⟩)] }
theorem wit_PagesAndSequences_scrub (d : Word) :
    (sSealed d).pages = [(1, ⟨1, tRefs 2, crc32c ((sSealed d).bytes ((sSealed d).pageAddr 1) 131072) + d⟩)] ∧ (sSealed d).NoPartials
      ∧ (∀ a, (sSealed d).lineBusy none a false = false) ∧ (2 ≤ (tRefs 2).length ∧ 1 / 2147483648 = 0 ∧ ((sSealed d).die 0).hmScrub ≠ 0) ∧ ∀ c : Word, c + 1#32 ≠ c := by
  have hd : (sSealed d).dies = sPg.dies := by unfold sSealed; dsimp only
  have e : (sSealed d).bytes ((sSealed d).pageAddr 1) 131072 = sPg.bytes (sPg.pageAddr 1) 131072 := by
    unfold State.bytes State.pageAddr State.die
    rw [show (sSealed d).byte = sPg.byte from funext fun a => by unfold State.byte; rw [show (sSealed d).mem = sPg.mem by unfold sSealed; dsimp only], hd]
  refine ⟨by rw [e]; unfold sSealed tCrc; exact rfl, noPartials_of rfl, fun a => quiet_of rfl rfl a false,
    ⟨by decide, by decide, by unfold State.die; rw [hd]; decide +kernel⟩, fun c h => ?_⟩
  have := congrArg BitVec.toNat h
  simp only [BitVec.toNat_add] at this
  have := c.isLt
  have : (1#32).toNat = 1 := rfl
  omega
def tEntry : List Byte := leBytes 4 1 ++ leBytes 8 0 ++ leBytes 4 (2 ^ 20) ++ leBytes 8 0x90000 ++ leBytes 4 (2 ^ 17) ++ leBytes 4 0 ++ leBytes 8 0xB0000 ++ leBytes 24 0
def sEntry : State := sPg.put 0xF0000 tEntry false
theorem wit_PagesAndSequences_commands :
    (sEntry.die 0).treeBusy = false ∧ 1 % 2 ≠ 0 ∧ sEntry.seqs = [] ∧ sEntry.seqEntryAt 0 = some 0xF0000 ∧ sEntry.fetch 0xF0000 64 = some tEntry
      ∧ (sEntry.seqEntry tEntry).isSome = true ∧ ((sEntry.seqEntry tEntry).map (·.par)) = some none
      ∧ (let s : State := { sEntry with seqs := [(0, { tSeqn with slots := [] })] }
         Map.has s.seqs 0 = true ∧ s.seqWaits 0 = false ∧ s.seqEntryAt 0 = some 0xF0000 ∧ s.pages = [] ∧ tSeqn.len < 2 ^ 32 ∧ tSeqn.par ≠ some 0)
      ∧ 2 ^ (sEntry.die 0).stabLog2n ≤ 2 / 2 := by
  decide +kernel

/-- LaunchWords: a packet, a record and a queue number through c2; a cursor out of line; a queue beyond the last. -/
def tLnW (k : Cap) : Warp := (tWarp [(0, 8191), (32, 8192)]).setQuad .general 8 0 k.bits true
def sLn (k : Cap) : State := withData (tState tU (tLnW k) tOne)
def cLn (k : Cap) : Ctx := tCtx tU (tLnW k) tOne
def tPktWant : Want := ⟨128, 9, .load, false, false, [0]⟩
theorem wit_LaunchWords :
    Ready (sLn (tCap 0x20040)) (cLn (tCap 0x20040)) [opV 4, opC 2, opV 0] [] ∧ Ready (sLn (tCap 0x20040)) (cLn (tCap 0x20040)) [opV 4, opC 2] []
      ∧ Ready sNone cNone [opV 4, opC 2, opV 0] [] ∧ (cLn (tCap 0x20040)).act ≠ 0#32 ∧ (cLn (tCap 0x20040)).act = (cLn (tCap 0x20040)).fr.mask
      ∧ NotSolitary (sLn (tCap 0x20040)) (cLn (tCap 0x20040)) ∧ HeldTrue (sLn (tCap 0x20040)) (cLn (tCap 0x20040)) ∧ (sLn (tCap 0x20040)).NoPartials
      ∧ ((cLn (tCap 0x20040)).rd 0 (cLn (tCap 0x20040)).low).toNat = 8191 ∧ ((cLn (tCap 0x20040)).rd 1 (cLn (tCap 0x20040)).low).toNat = 8192
      ∧ (cLn (tCap 0x20040)).full none = false ∧ (cLn (tCap 0x20040)).u.performedBy (cLn (tCap 0x20040)).f.warp (cLn (tCap 0x20040)).act true = true ∧ ((sLn (tCap 0x20040)).core 0).copies = []
      ∧ ((cLn (tCap 0x20040)).cap 2 (cLn (tCap 0x20040)).low).cursor % 64 = 0 ∧ ((cLn (tCap 0x20020)).cap 2 (cLn (tCap 0x20020)).low).cursor % 64 ≠ 0 := by
  refine ⟨⟨rfl, rfl, rfl, rfl⟩, ⟨rfl, rfl, rfl, rfl⟩, ⟨rfl, rfl, rfl, rfl⟩, by decide +kernel, by decide +kernel, notSolitary_of rfl, heldTrue_of rfl rfl, noPartials_of rfl, ?_⟩
  decide +kernel
theorem wit_LaunchWords_tests : ∀ at0 ∈ [0x20040, 0x20020, 0x3FFC0], ∀ w ∈ [tPktWant, ⟨64, 2, .load, false, false, [0]⟩, ⟨64, 1, .load, false, false, [0]⟩],
    (cLn (tCap at0)).low = 0 ∧ ((cLn (tCap at0)).early (sLn (tCap at0)) w ((cLn (tCap at0)).cap 2 0) ((cLn (tCap at0)).capTag 2 0) false
      ((cLn (tCap at0)).addr ⟨2, .short 0⟩ 0)).isNone = true := by decide +kernel
theorem wit_LaunchWords_lies :
    (cLn (tCap 0x3FFC0)).Lies (sLn (tCap 0x3FFC0)) ⟨128, 1, .load, false, false, [0]⟩ ⟨2, .short 0⟩ false 0
      ((span 0x3FFC0 64).map (fun v => .phys (0x60000 + v) .rc 1 v tLeaf.use) ++ (span 0x40000 64).map (fun v => .phys (0x60000 + v) .so 1 v tLeafSo.use)) := by
  refine ⟨by decide +kernel, by decide +kernel, ?_, fun _ => ⟨tLeaf, tLeafSo, ?_, fun _ => ?_, by decide +kernel, by decide +kernel⟩⟩
  · have : ((cLn (tCap 0x3FFC0)).cap 2 0).space = 0 := by decide +kernel
    intro h; exact absurd (this.symm.trans h) (by decide)
  · exact
      { walk := by decide +kernel, rd := fun _ => rfl, wr := fun _ => rfl, tag := fun _ => rfl
        spec := fun _ h => absurd h (by decide +kernel), order := fun _ => by decide }
  · exact
      { walk := by decide +kernel, rd := fun _ => rfl, wr := fun _ => rfl, tag := fun _ => rfl
        spec := fun _ h => absurd h (by decide +kernel), order := fun _ => by decide }
theorem wit_LaunchWords_free :
    (∀ v ∈ span 0x3FFC0 64 ++ span 0x40000 64, (sLn (tCap 0x3FFC0)).poisoned (0x60000 + v) 1 = false
      ∧ (sLn (tCap 0x3FFC0)).lineBusy (some (0, 0, 0)) (0x60000 + v) false = false)
      ∧ ((sLn (tCap 0x3FFC0)).core 0).copies = [] ∧ (cLn (tCap 0x3FFC0)).low = 0 ∧ ((cLn (tCap 0x3FFC0)).cap 2 0).cursor % 64 = 0 := by decide +kernel
/-- A record, whose pending count is not zero, is zero, and which is complete. -/
def tRec0 : Rec :=
  { pending := 0, faulted := 0, cancelled := 0, opened := true, done := false, creq := false, level := 3, result := 0, parent := 0, tag := 0, ended := 0
    tstart := 0, tdone := 0, irq := none }
theorem wit_LaunchWords_records :
    (∀ r ∈ [tRec0, { tRec0 with pending := 1 }, { tRec0 with done := true, opened := false }],
      ({ sLn (tCap 0x20040) with records := [(recKey 1 0x20040, r)] } : State).record (cLn (tCap 0x20040)).l.ctx 0x20040 = some r)
      ∧ (sLn (tCap 0x20040)).record 1 0x20040 = none := by decide +kernel
/-- Queue 8191 with a ring of 16 at 0xE0000, for context 1: empty, with room for one packet, and full. -/
def tQBytes (prio flags slice : Nat) : List Byte :=
  leBytes 8 0xE0000 ++ leBytes 1 4 ++ leBytes 1 prio ++ leBytes 2 1 ++ leBytes 4 flags ++ leBytes 4 slice ++ leBytes 4 1 ++ leBytes 4 1 ++ leBytes 4 0
    ++ leBytes 16 0 ++ leBytes 8 0 ++ leBytes 8 0x1000000
def tDesc0 (prio flags slice : Nat) : QDesc :=
  { ring := 0xE0000, log2n := 4, prio := prio, ctx := 1, hostw := field flags 1 1 = 1, devw := field flags 2 2 = 1, sys := field flags 3 3 = 1
    irqen := field flags 4 4 = 1, slice := slice, parklim := 1, runlim := 1, msix := 0, argroot := 0, save := 0, savelen := 0x1000000 }
def withQ (s : State) (x : Queue) (slots : Map QSlot) : State :=
  let s := withData s
  let p := (s.put 0xCFFC0 (tQBytes 7 0xF 10) false).put 0xCFF80 (tQBytes 0 1 10000) false
  { s with mem := p.mem, dies := [(1, { Die.reset with qtab := 0x90000, qsEn := true, slots := slots })], queues := [(8191, x)] }
def tLnOp (k : OpKind) : Op := { tOp k with path := none, dst := some (tDst 1 4 false) }
def sLnOp (k : OpKind) (x : Queue) : State := withQ (tState (tWith (tLnOp k)) (tWarp []) tOne) x []
theorem wit_LaunchWords_complete :
    (∀ x ∈ [{ Queue.idle with head := 2, tail := 0 }, { Queue.idle with head := 1, tail := 0 }],
      (sLnOp (.launch 8191 (leBytes 128 5)) x).qdesc 8191 = some (tDesc0 7 0xF 10) ∧ (sLnOp (.launch 8190 (leBytes 128 5)) x).qdesc 8190 = some (tDesc0 0 1 10000)
        ∧ (sLnOp (.launch 8191 (leBytes 128 5)) x).qdesc 0 = none ∧ (sLnOp (.launch 8191 (leBytes 128 5)) x).ctxOf 0 = 1
        ∧ (sLnOp (.launch 8191 (leBytes 128 5)) x).queue 8191 = x ∧ ((sLnOp (.launch 8191 (leBytes 128 5)) x).die (8191 / 4096)).qsEn = true)
      ∧ (0 + 16 - 1) % 16 = 16 - 1 ∧ (0 + 16 - 2) % 16 < 16 - 1 ∧ (leBytes 128 5).length = 128
      ∧ (sLnOp (.cancel 0x20040) Queue.idle).unit? 0 = some (tUnit (tWith (tLnOp (.cancel 0x20040))) (tWarp []) tOne)
      ∧ (tUnit (tWith (tLnOp (.cancel 0x20040))) (tWarp []) tOne).op? 0 = some (tLnOp (.cancel 0x20040)) := by
  decide +kernel
theorem wit_LaunchWords_partials :
    (sLnOp (.launch 8191 (leBytes 128 5)) { Queue.idle with head := 2, tail := 0 }).NoPartials
      ∧ (∀ a, (sLnOp (.launch 8191 (leBytes 128 5)) { Queue.idle with head := 2, tail := 0 }).lineBusy none a true = false)
      ∧ (sLnOp (.launch 8191 (leBytes 128 5)) { Queue.idle with head := 2, tail := 0 }).stalled = false :=
  ⟨noPartials_of rfl, fun a => quiet_of rfl rfl a true, rfl⟩

/-- RepairActs: a handler's fragment whose write waits, and a target in another unit: parked with a record of serial 65535, for each action. -/
def tFRec (cause : Nat) (replay : Bool) : FaultRec :=
  { cause := cause, replay := replay, serial := 0xFFFF, hint := 0xFFFF, pc := 4, mask := allThreads, done := 1, addr := 9, core := 191, await := [] }
def tHurt (cause : Nat) (replay : Bool) : Frag := { placeFrag with status := .parkedFault, hold := true, frec := some (tFRec cause replay) }
def tAsker : Frag := { placeFrag with status := .parkedWait, wake := .repair 0 }
def tVictim (x : Frag) : KUnit := { tU with core := 191, warps := [(31, { placeWarp with slot := 127, frags := [(0, placeFrag), (15, x)] })], mates := [(0, 1)] }
def sRep (v : Word64) (x : Frag) : State :=
  let s := tState tU (tWarp []) tAsker
  { s with units := Map.put s.units 1 (tVictim x), nextUnit := 2, repairs := [(⟨0, 0, 0⟩, v)] }
/-- The word of an action on it. -/
def tRepair (act param : Nat) : Word64 := BitVec.ofNat 64 (param * 2 ^ 32 + act * 2 ^ 24 + (fragIdent 191 127 15).toNat)
theorem wit_RepairActs :
    (∀ act ∈ [1, 2, 3, 4, 5], ∀ param ∈ [0xFFFF, 0, 0x80000000, 0xFFFFFFFF],
      (tRepair act param).toNat / 2 ^ 24 % 2 ^ 8 = act ∧ (tRepair act param).toNat / 2 ^ 32 = param
        ∧ (sRep (tRepair act param) (tHurt 0x30 false)).named ((sRep (tRepair act param) (tHurt 0x30 false)).ctxOf 0) ((tRepair act param).toNat % 2 ^ 32)
          = some ⟨1, 31, 15⟩)
      ∧ (sRep (tRepair 1 0xFFFF) (tHurt 0x30 false)).unit? 0 = some (tUnit tU (tWarp []) tAsker)
      ∧ (sRep (tRepair 1 0xFFFF) (tHurt 0x30 false)).unit? 1 = some (tVictim (tHurt 0x30 false))
      ∧ (tHurt 0x30 false).isParked = true ∧ (tFRec 0x30 false).serial.toNat = 0xFFFF % 65536 ∧ (tFRec 0x30 false).serial.toNat ≠ 0 % 65536
      ∧ (sRep (tRepair 1 0xFFFF) (tHurt 0x30 false)).releaseWaits ⟨0, 0, 0⟩ = false
      ∧ (sRep (tRepair 3 0x80000000) (tHurt 0x30 false)).refuses ⟨1, 31, 15⟩ 1 = false
      ∧ 0x80000000#32 ≠ allThreads ∧ 0x80000000#32 &&& ~~~allThreads = 0#32 ∧ BitVec.ofNat 32 0xFFFFFFFF = (tHurt 0x30 false).mask
      ∧ (sRep (tRepair 1 0xFFFF) (tHurt 0x30 false)).stalled = false ∧ (sRep (tRepair 1 0xFFFF) (tHurt 0x30 false)).evicted = []
      ∧ (tHurt 0x30 false).status ≠ .dead ∧ tAsker.actm &&& ~~~tAsker.done = tAsker.mask ∧ tAsker.mask ≠ 0#32 ∧ placeFrag.status ≠ .dead ∧ 2 ^ 31 ≤ 0x80000000 := by
  decide +kernel

/-- FaultRecordsPosted: a ring of 16 with room for one record, and with PROD at its last value; a handler's packet and its queue. -/
def tTrapBytes (prod cons : Nat) : List Byte :=
  leBytes 8 0x70000 ++ leBytes 1 4 ++ leBytes 1 1 ++ leBytes 2 8191 ++ leBytes 4 prod ++ leBytes 4 cons ++ leBytes 4 0 ++ leBytes 8 0x72000 ++ leBytes 32 0
def tTrapEntry (prod cons : Nat) : TrapEntry :=
  { ring := 0x70000, log2n := 4, valid := true, failed := false, hqueue := 8191, prod := prod, cons := cons, fails := 0, pkt := 0x72000, usable := true }
def tHPkt : List Byte := leBytes 4 1 ++ leBytes 4 0 ++ leBytes 8 0x20040 ++ leBytes 16 0 ++ leBytes 8 0x20080 ++ leBytes 88 0
def withTrap (s : State) (prod cons : Nat) (x : Queue) : State :=
  let s := withQ s x []
  let p := (s.put 0x71040 (tTrapBytes prod cons) false).put 0x72000 tHPkt false
  { s with mem := p.mem, dev := { s.dev with trapBase := 0x71000, trapEn := true } }
def sTrap (prod cons : Nat) (x : Queue) : State :=
  { withTrap (tState tU (tWarp []) (tHurt 0xFF true)) prod cons x with posts := [.frag ⟨0, 0, 0⟩ 0xFFFF] }
theorem wit_FaultRecordsPosted :
    (∀ p ∈ [(0xFFFFFFFF, 0xFFFFFFF0), (0, 0)], (sTrap p.1 p.2 { Queue.idle with head := 3, tail := 0 }).trapEntry 1 = some (tTrapEntry p.1 p.2)
      ∧ (p.1 + 2 ^ 32 - p.2) % 2 ^ 32 < 2 ^ 4)
      ∧ (sTrap 0xFFFFFFFF 0xFFFFFFF0 Queue.idle).unit? 0 = some (tUnit tU (tWarp []) (tHurt 0xFF true))
      ∧ Map.look (sTrap 0xFFFFFFFF 0xFFFFFFF0 Queue.idle).launches tU.launch = some placeLaunch ∧ placeLaunch.handler = false ∧ placeLaunch.ctx = 1
      ∧ (tFRec 0xFF true).cause < 256 ∧ (tFRec 0xFF true).hint < 65536 ∧ 0x70000 + 128 * (0xFFFFFFFF % 2 ^ 4) + 128 ≤ (sTrap 0 0 Queue.idle).trapAt 1 + 12
      ∧ Map.look (sTrap 1 0 Queue.idle).handlers 1 = none ∧ (sTrap 1 0 Queue.idle).fetch 0x72000 128 = some tHPkt ∧ (sTrap 1 0 Queue.idle).qdesc 8191 = some (tDesc0 7 0xF 10)
      ∧ (Pkt.of tHPkt).type = 1 ∧ (Pkt.of tHPkt).job = 0x20040 ∧ (Pkt.of tHPkt).phase = 0 ∧ (Pkt.of tHPkt).graph = 0 ∧ (tDesc0 7 0xF 10).sys = true
      ∧ (0 + 16 - 3) % 16 + 3 ≤ 16
      ∧ (sTrap 1 0 { Queue.idle with head := 3, tail := 0 }).trapEntry 1 = some (tTrapEntry 1 0) := by
  decide +kernel
theorem wit_FaultRecordsPosted_page : (sTrap 1 0 Queue.idle).schedPa 1 0x20040 = some 0x80040 := by
  rw [schedPa_of rfl]; decide +kernel
theorem wit_FaultRecordsPosted_quiet :
    ∀ a, (sTrap 0xFFFFFFFF 0xFFFFFFF0 { Queue.idle with head := 3, tail := 0 }).lineBusy none a true = false := fun a => quiet_of rfl rfl a true
theorem wit_FaultRecordsPosted_partials :
    (sTrap 0xFFFFFFFF 0xFFFFFFF0 { Queue.idle with head := 3, tail := 0 }).NoPartials
      ∧ (∀ i < 64, ∀ j < 128, 0x80040 + i ≠ 0xE0000 + 128 * (0 % 16) + j ∧ 0x80040 + i ≠ 0xE0000 + 128 * ((0 + 1) % 16) + j) := by
  refine ⟨noPartials_of rfl, fun i hi j hj => ⟨?_, ?_⟩⟩ <;> omega

/-- QueueDoorbells: queues with and without a descriptor, with HOSTW and without; one packet with the tag; a launch taken, and one admitted. -/
def tPkt (ctl tag : Nat) : List Byte := leBytes 4 ctl ++ leBytes 4 tag ++ leBytes 8 0x20040 ++ leBytes 16 0 ++ leBytes 8 0x20080 ++ leBytes 88 0
def sBell (ctl : Nat) (ls : Map Launch) (rs : Map Rec) (x : Queue) : State :=
  let s := withQ (tState tU (tWarp []) tOne) x []
  { s with mem := (s.put (0xE0000 + 128 * 15) (tPkt ctl 0xFFFFFFFF) false).mem, launches := ls, records := rs }
def tTaken : Launch := { placeLaunch with queue := 8191, st := .taken, tag := 0xFFFFFFFF, lrec := 0x20080, chain := [0x20040] }
def tRun : Launch := { placeLaunch with queue := 8191, tag := 0xFFFFFFFF, lrec := 0x20080, chain := [0x20040] }
theorem wit_QueueDoorbells :
    (let x : Queue := { Queue.idle with head := 15, tail := 0 }
     let s := sBell 2 [] [] x
     (State.reset.die (0 / 4096)).qsEn = false ∧ (s.die (8189 / 4096)).qsEn = true ∧ s.qdesc 8189 = none ∧ s.qdesc 8191 = some (tDesc0 7 0xF 10)
       ∧ (tDesc0 7 0xF 10).hostw = true ∧ s.qdesc 8190 = some (tDesc0 0 1 10000) ∧ (tDesc0 0 1 10000).hostw = false ∧ (s.queue 8191).head < 16
       ∧ (s.queue 8191).tail = ((s.queue 8191).head + 1) % 16 ∧ s.fetch (0xE0000 + 128 * (s.queue 8191).head) 128 = some (tPkt 2 0xFFFFFFFF)
       ∧ (Pkt.of (tPkt 2 0xFFFFFFFF)).tag = 0xFFFFFFFF ∧ (Pkt.of (tPkt 2 0xFFFFFFFF)).withdrawn = false ∧ (Pkt.of (tPkt 2 0xFFFFFFFF)).type ≠ 1
       ∧ (Pkt.of (tPkt 0x83 0xFFFFFFFF)).withdrawn = true ∧ s.takenOf 8191 = none
       ∧ (sBell 1 [(5, tTaken)] [(recKey 1 0x20080, { tRec0 with opened := false })] x).takenOf 8191 = some 5
       ∧ (sBell 1 [(5, tTaken)] [(recKey 1 0x20080, { tRec0 with opened := false })] x).record 1 0x20080 = some { tRec0 with opened := false }
       ∧ (sBell 1 [(5, tRun)] [(recKey 1 0x20040, tRec0)] { Queue.idle with head := 15, tail := 15 }).record 1 0x20040 = some tRec0 ∧ tRun.st ≠ .taken
       ∧ s.record 1 0x20040 = none) := by
  decide +kernel
theorem wit_QueueDoorbells_partials :
    (sBell 2 [] [] { Queue.idle with head := 15, tail := 0 }).NoPartials
      ∧ (∀ a, (sBell 2 [] [] { Queue.idle with head := 15, tail := 0 }).lineBusy none a true = false) :=
  ⟨noPartials_of rfl, fun a => quiet_of rfl rfl a true⟩

/-- QueuesMapAndTake: the last slot free, all slots in use with a slice that ends now; packets of each type at HEAD. -/
def tSlots (n : Nat) : Map QSlot := (List.range n).map fun i => (i, { queue := 4096 + i, since := 0, taken := none })
def sMapQ : State := withQ (tState tU (tWarp []) tOne) { Queue.idle with head := 15, tail := 0 } (tSlots 63)
theorem wit_QueuesMapAndTake_map :
    sMapQ.qdesc 8191 = some (tDesc0 7 0xF 10) ∧ (sMapQ.die 1).qsEn = true ∧ (sMapQ.queue 8191).head ≠ (sMapQ.queue 8191).tail ∧ sMapQ.slotOf 8191 = none
      ∧ (sMapQ.resident 1).length < 32 ∧ Map.look (sMapQ.die 1).slots 63 = none ∧ (∀ m < 63, Map.look (sMapQ.die 1).slots m ≠ none) := by
  decide +kernel
theorem wit_QueuesMapAndTake_alone : ∀ k, k ≠ 8191 → sMapQ.waitsSlot k = none := by
  intro k hk
  have h : sMapQ.hasWork k = false := by
    unfold State.hasWork
    have hq : sMapQ.queue k = Queue.idle := by
      show (Map.look ([(8191, ({ Queue.idle with head := 15, tail := 0 } : Queue))] : Map Queue) k).getD Queue.idle = Queue.idle
      unfold Map.look
      rw [if_neg (fun h => hk h.symm)]
      rfl
    have ht : sMapQ.takenOf k = none := by
      show ((([(0, placeLaunch)] : Map Launch).find? fun p => p.2.queue = k && p.2.st = .taken).map (·.1)) = none
      simp [placeLaunch]
    simp [hq, ht, Queue.idle]
  unfold State.waitsSlot
  simp [h]
def sSlice (time : Word64) : State :=
  let s := withQ (tState tU (tWarp []) tOne) { Queue.idle with head := 15, tail := 0 } ((tSlots 63) ++ [(63, { queue := 8190, since := 0, taken := none })])
  { s with time := time }
theorem wit_QueuesMapAndTake_slice :
    (let s := sSlice (BitVec.ofNat 64 (10000 * 65536000))
     s.qdesc 8190 = some (tDesc0 0 1 10000) ∧ Map.look (s.die 1).slots 63 = some { queue := 8190, since := 0, taken := none } ∧ (s.die 1).slots.length = 64
       ∧ 10000 * 65536000 ≤ (s.time - 0).toNat ∧ (sSlice (BitVec.ofNat 64 (10000 * 65536000 - 1)).toNat).time.toNat < 10000 * 65536000
       ∧ (Map.look s.queues 8191).isSome = true ∧ 8191 / 4096 = 1 ∧ s.waitsSlot 8191 = some (tDesc0 7 0xF 10) ∧ (0 : Nat) ≤ 7) := by
  decide +kernel
def sTake (p : List Byte) (rs : Map Rec) : State :=
  let s := withQ (tState tU (tWarp []) tOne) { Queue.idle with head := 15, tail := 1 } [(63, { queue := 8191, since := 0, taken := none })]
  { s with mem := (s.put (0xE0000 + 128 * 15) p false).mem, records := rs }
theorem wit_QueuesMapAndTake_take :
    (∀ p ∈ [tPkt 0x83 0, tPkt 3 0, tPkt 0 0, tPkt 2 0],
      (sTake p []).fetch ((tDesc0 7 0xF 10).ring + 128 * (15 % 16)) 128 = some p ∧ (sTake p []).handlers = [] ∧ Map.rising ((sTake p []).die 1).slots = true
        ∧ Map.look ((sTake p []).die 1).slots 63 = some { queue := 8191, since := 0, taken := none } ∧ (sTake p []).qdesc 8191 = some (tDesc0 7 0xF 10))
      ∧ (Pkt.of (tPkt 0x83 0)).withdrawn = true ∧ (Pkt.of (tPkt 3 0)).withdrawn = false
      ∧ (sTake (tPkt 3 0) []).record 1 (Pkt.of (tPkt 3 0)).lrec = none ∧ (Pkt.of (tPkt 0 0)).type = 0 ∧ (Pkt.of (tPkt 2 0)).type = 2
      ∧ (sTake (tPkt 2 0) [(recKey 1 0x20080, { tRec0 with pending := 1 })]).record 1 (Pkt.of (tPkt 2 0)).lrec = some { tRec0 with pending := 1 } := by
  decide +kernel
theorem wit_QueuesMapAndTake_formed :
    (sTake (tPkt 3 0) []).pktOk 1 (Pkt.of (tPkt 3 0)) = false ∧ (sTake (tPkt 0 0) []).pktOk 1 (Pkt.of (tPkt 0 0)) = true
      ∧ (sTake (tPkt 2 0) []).pktOk 1 (Pkt.of (tPkt 2 0)) = true := by
  simp only [State.pktOk, schedPa_of (s := sTake (tPkt 3 0) []) rfl, schedPa_of (s := sTake (tPkt 0 0) []) rfl, schedPa_of (s := sTake (tPkt 2 0) []) rfl]
  decide +kernel
/-- A LAUNCH with a code object of one kernel in the strongly ordered page, and one whose object has no good header. -/
def tObject : List Byte :=
  leBytes 4 0x43545856 ++ leBytes 2 1 ++ leBytes 2 0 ++ leBytes 16 0 ++ leBytes 4 1 ++ leBytes 4 0x40 ++ leBytes 4 0x100 ++ leBytes 4 4 ++ leBytes 4 0x200 ++ leBytes 4 0x300
    ++ leBytes 4 0 ++ leBytes 12 0 ++ (leBytes 4 0 ++ leBytes 2 16 ++ leBytes 2 0 ++ leBytes 4 0 ++ leBytes 1 1 ++ leBytes 1 0 ++ leBytes 2 0 ++ leBytes 16 0x6B)
def tLaunchPkt (tco : Nat) : List Byte :=
  leBytes 4 1 ++ leBytes 4 7 ++ leBytes 8 0x20040 ++ leBytes 16 0 ++ leBytes 8 0x20080 ++ leBytes 16 0 ++ leBytes 8 0 ++ leBytes 8 tco ++ leBytes 4 1 ++ leBytes 1 1
    ++ leBytes 3 0 ++ leBytes 16 0 ++ leBytes 8 0 ++ leBytes 24 0
def sLaunch (tco : Nat) : State :=
  let s := sTake (tLaunchPkt tco) [(recKey 1 0x20040, tRec0)]
  { s with mem := ((s.put 0xA0000 tObject false).put 0xA0200 [1] false).mem }
theorem wit_QueuesMapAndTake_launch :
    (let s := sLaunch 0x40000
     let p := Pkt.of (tLaunchPkt 0x40000)
     s.fetch ((tDesc0 7 0xF 10).ring + 128 * (15 % 16)) 128 = some (tLaunchPkt 0x40000) ∧ p.formed = true ∧ p.type = 1 ∧ p.phase = 0 ∧ p.graph = 0 ∧ p.job ≠ p.lrec
       ∧ s.record 1 p.job = some tRec0 ∧ 0x80080 + 64 ≤ (s.die 1).qtab + 64 * (8191 % 4096)) := by
  decide +kernel
theorem wit_QueuesMapAndTake_pages :
    (sLaunch 0x40000).schedPa 1 (Pkt.of (tLaunchPkt 0x40000)).job = some 0x80040 ∧ (sLaunch 0x40000).schedPa 1 (Pkt.of (tLaunchPkt 0x40000)).lrec = some 0x80080
      ∧ (sLaunch 0x40000).pktOk 1 (Pkt.of (tLaunchPkt 0x40000)) = true := by
  simp only [State.pktOk, schedPa_of (s := sLaunch 0x40000) rfl]
  decide +kernel
/-- The object's header as it is read, and a header of zeros. -/
def tTco : Tco := { magic := 0x43545856, vmaj := 1, features := 0, nkern := 1, ktab := 0x40, text := 0x100, tsize := 4, cmap := 0x200, data := 0x300, dsize := 0, rsv := 0 }
def tKern : Kern := { entry := 0, regs := 16, acc := 0, scratch := 0, cluster := 1, flags := 0, rsv := 0, name := leBytes 16 0x6B }
theorem tLaunch_tco : (sLaunch 0x40000).tco 1 0x40000 = tTco := by
  simp only [State.tco, vnum_of (s := sLaunch 0x40000) rfl]; decide +kernel
theorem tLaunch_kern : (sLaunch 0x40000).kern 1 0x40000 tTco 0 = tKern := by
  simp only [State.kern, vnum_of (s := sLaunch 0x40000) rfl]; decide +kernel
theorem tLaunch_ok : (sLaunch 0x40000).tcoOk 1 0x40000 0 = true := by
  simp only [State.tcoOk, State.mapped, tLaunch_tco, vnum_of (s := sLaunch 0x40000) rfl, readable_of (s := sLaunch 0x40000) rfl]
  rw [show List.range tTco.nkern = [0] by decide]
  simp only [List.all_cons, List.all_nil, tLaunch_kern]
  decide +kernel
theorem wit_QueuesMapAndTake_made :
    ((sLaunch 0x40000).makeLaunch 8191 (tDesc0 7 15 10) (Pkt.of (tLaunchPkt 0x40000)) false).toOption.isSome = true := by
  have h1 : (sLaunch 0x40000).tcoOk (tDesc0 7 15 10).ctx (Pkt.of (tLaunchPkt 0x40000)).tco (Pkt.of (tLaunchPkt 0x40000)).features = true := by
    rw [show (tDesc0 7 15 10).ctx = 1 from rfl, show (Pkt.of (tLaunchPkt 0x40000)).tco = 0x40000 by decide +kernel,
      show (Pkt.of (tLaunchPkt 0x40000)).features = 0 by decide +kernel]
    exact tLaunch_ok
  have h2 : (sLaunch 0x40000).tco (tDesc0 7 15 10).ctx (Pkt.of (tLaunchPkt 0x40000)).tco = tTco := by
    rw [show (tDesc0 7 15 10).ctx = 1 from rfl, show (Pkt.of (tLaunchPkt 0x40000)).tco = 0x40000 by decide +kernel]
    exact tLaunch_tco
  have h3 : (sLaunch 0x40000).kern (tDesc0 7 15 10).ctx (Pkt.of (tLaunchPkt 0x40000)).tco tTco (Pkt.of (tLaunchPkt 0x40000)).kidx = tKern := by
    rw [show (tDesc0 7 15 10).ctx = 1 from rfl, show (Pkt.of (tLaunchPkt 0x40000)).tco = 0x40000 by decide +kernel,
      show (Pkt.of (tLaunchPkt 0x40000)).kidx = 0 by decide +kernel]
    exact tLaunch_kern
  have h4 : (sLaunch 0x40000).arguments (tDesc0 7 15 10) (Pkt.of (tLaunchPkt 0x40000)) tTco = some [] := by
    unfold State.arguments
    rw [show (Pkt.of (tLaunchPkt 0x40000)).narg = 0 by decide +kernel]
    rfl
  have h5 : (sLaunch 0x40000).couldFit (tKern.demand (Pkt.of (tLaunchPkt 0x40000)).warps) (Pkt.of (tLaunchPkt 0x40000)).units = true := by decide +kernel
  unfold State.makeLaunch
  simp only [h1, h2, h3, h4, h5, show (Pkt.of (tLaunchPkt 0x40000)).wait0 = 0 by decide +kernel, show (Pkt.of (tLaunchPkt 0x40000)).wait1 = 0 by decide +kernel]
  decide +kernel
theorem wit_QueuesMapAndTake_refused :
    ((sLaunch 0x20000).makeLaunch 8191 (tDesc0 7 15 10) (Pkt.of (tLaunchPkt 0x20000)) false).toOption.isNone = true := by
  have h : (sLaunch 0x20000).tcoOk (tDesc0 7 15 10).ctx (Pkt.of (tLaunchPkt 0x20000)).tco (Pkt.of (tLaunchPkt 0x20000)).features = false := by
    rw [show (tDesc0 7 15 10).ctx = 1 from rfl, show (Pkt.of (tLaunchPkt 0x20000)).tco = 0x20000 by decide +kernel]
    have hm : ((sLaunch 0x20000).tco 1 0x20000).magic = 0 := by simp only [State.tco, vnum_of (s := sLaunch 0x20000) rfl]; decide +kernel
    unfold State.tcoOk
    simp [hm]
  unfold State.makeLaunch
  simp [h, Except.toOption]
theorem wit_QueuesMapAndTake_partials :
    (sTake (tPkt 0 0) []).NoPartials ∧ (sLaunch 0x40000).NoPartials ∧ (sLaunch 0x40000).evicted = [] ∧ (sLaunch 0x40000).stalled = false
      ∧ (∀ j, (sMapQ.core j).marks = []) ∧ (∀ a, (sLaunch 0x40000).lineBusy none a true = false)
      ∧ (∀ k x, (k, x) ∈ ((sLaunch 0x40000).die 1).slots → x.queue = 8191 → k = 63) := by
  refine ⟨noPartials_of rfl, noPartials_of rfl, rfl, rfl, noMarks_of rfl, fun a => quiet_of rfl rfl a true, ?_⟩
  intro k x h _
  rw [show ((sLaunch 0x40000).die 1).slots = [(63, { queue := 8191, since := 0, taken := none })] by decide +kernel] at h
  exact (Prod.mk.injEq _ _ _ _ ▸ List.mem_singleton.mp h : k = 63 ∧ _).1

/-- GangsAdmitted: a launch of one unit of two warps for core 191, which starts at time 7; an evicted gang of one; start holds. -/
def tGang (st : LaunchSt) (start : Word64) : Launch :=
  { placeLaunch with
    queue := 8191, st := st, regs := 64, acc := 0, scratch := 0x200, warps := 2, cluster := 8, uidx := true, args := [tBounds.bits, 5], start := start
    order := 1, lrec := 0x20080, chain := [0x20040], prio := 7 }
def tGangDesc : QDesc := tDesc0 7 0xF 10
def sGang (l : Launch) : State :=
  { withQ (tState tU (tWarp []) tOne) { Queue.idle with head := 15, tail := 0 } [(63, { queue := 8191, since := 0, taken := some 1 })] with
    launches := [(0, placeLaunch), (1, l)], nextLaunch := 2 }
def tPlace : Placement := ⟨191, [127, 0]⟩
theorem onePlace {d : QDesc} {used : List (Nat × Nat)} {size ix : Nat} (h : (d.save + size ≤ d.save + d.savelen))
    (hu : used.any (meets (d.save, size)) = false) : (imagePlaces d size ix 1 used).isSome = true := by
  have : (imagePlace d used size (Config.freeNat (ix + 0))).isSome = true := by
    unfold imagePlace
    dsimp only
    split
    · rfl
    · simp [h, hu]
  unfold imagePlaces
  split
  · next h0 => rw [h0] at this; exact absurd this (by decide)
  · rfl
theorem wit_GangsAdmitted :
    (sGang (tGang .taken 7)).isCandidate 1 (tGang .taken 7) = true ∧ (sGang (tGang .taken 7)).heldBack 1 (tGang .taken 7) = false
      ∧ (sGang (tGang .taken 7)).outranked 1 (tGang .taken 7) = false ∧ (sGang (tGang .taken 7)).stalled = false ∧ [tPlace].length = (tGang .taken 7).units
      ∧ (sGang (tGang .taken 7)).qdesc 8191 = some tGangDesc ∧ (∀ p ∈ [tPlace], p.slots.length = 2)
      ∧ (sGang (tGang .taken 7)).fits 1 ([tPlace].map fun p => { core := p.core, slots := p.slots, regs := 64, acc := 0, scratch := 0x200, stream := false, frags := 2 })
        = true
      ∧ clustersOf 8 ((List.range 1).map fun i => (i, ([tPlace].getD i ⟨0, []⟩).core)) = true := by
  decide +kernel
theorem wit_GangsAdmitted_marks : ∀ j, ((sGang (tGang .taken 7)).core j).marks = [] := noMarks_of rfl
theorem wit_GangsAdmitted_images :
    (imagePlaces tGangDesc (imageSize 0 0x200 64 2) (sGang (tGang .taken 7)).freeIx 1 ((sGang (tGang .taken 7)).images 8191)).isSome = true :=
  onePlace (by decide +kernel) (by decide +kernel)
def tGone (ops : List Op) : KUnit := { tU with launch := 1, parkReq := true, ops := ops, warps := [(0, { placeWarp with extent := 64, slot := 3 })] }
def tHere : Placement := ⟨191, [3]⟩
def sGone : State :=
  let s := { sGang (tGang .evicted 0) with evicted := [(7, tGone [])] }
  { s with cores := s.cores ++ [(191, { CoreSt.reset with marks := (tGone []).markAll 7 (tGang .evicted 0) })] }
theorem wit_GangsAdmitted_again :
    sGone.isCandidate 1 (tGang .evicted 0) = true ∧ sGone.heldBack 1 (tGang .evicted 0) = false ∧ sGone.dev.quiesced = false
      ∧ sGone.fits 1 [{ core := 191, slots := [3], regs := 64, acc := 0, scratch := 0x200, stream := false
                        frags := ((Map.vals (tGone []).warps).map fun w => w.frags.length).sum }] = true
      ∧ clustersOf 8 [((tGone []).index, 191)] = true ∧ [3].length = (tGone []).warps.length
      ∧ sGone.outranked 1 (tGang .evicted 0) = false ∧ sGone.stalled = false ∧ sGone.kills = [] ∧ Map.rising (tGone []).warps = true
      ∧ sGone.enterCtx (dieOf 191) 1 = sGone ∧ sGone.banksHere 7 ((tGone []).rehome tHere) (tGang .evicted 0) = true
      ∧ (∀ j < (tGang .evicted 0).regs / 16, ∃ m ∈ (sGone.core 191).marks, m.unit = 7 ∧ m.bank = j) := by
  decide +kernel
theorem wit_GangsAdmitted_quiet : ∀ a, sGone.lineBusy none a true = false := fun a => quiet_of rfl rfl a true
def sHold (hold : Bool) (time : Word64) : State :=
  { tState { tU with startHold := hold } (tWarp []) tOne with launches := [(0, { placeLaunch with start := 7 })], time := time }
theorem wit_GangsAdmitted_hold :
    (∀ hold : Bool, (sHold hold 7).unit? 0 = some (tUnit { tU with startHold := hold } (tWarp []) tOne)) ∧ (sHold true 6).launchOf 0 = some { placeLaunch with start := 7 }
      ∧ tU.parkReq = false ∧ (7#64).toNat ≤ (sHold true 7).time.toNat ∧ (sHold true 6).time.toNat < (7#64).toNat := by
  decide +kernel

/-- PreemptionAndWatchdogs: a candidate that has waited its SLICE of 10 µs, and one that has not; a gang that parks, one that drains, times that are over. -/
def sWaits (l : Launch) (time : Nat) : State := { sGang l with time := BitVec.ofNat 64 time }
theorem wit_PreemptionAndWatchdogs_blocking :
    (∀ l ∈ [tGang .taken 0, tGang .evicted 0, { tGang .taken 0 with prio := 0 }], (sWaits l 655360001).isCandidate 1 l = true ∧ (sWaits l 655360001).dev.quiesced = false
      ∧ (sWaits l 655360001).qdesc 8191 = some tGangDesc ∧ tGangDesc.slice * 65536000 < ((sWaits l 655360001).time - l.regTime).toNat
      ∧ ¬ tGangDesc.slice * 65536000 < ((sWaits l 655360000).time - l.regTime).toNat ∧ l.parkTime = l.regTime
      ∧ (sWaits l 655360001).launches.filter (fun p => p.2.st = .resident) = [(0, placeLaunch)])
      ∧ placeLaunch.prio < (tGang .taken 0).prio := by
  decide +kernel
/-- One core is left, and a launch that asks for more of its accumulator than the resident gang leaves. -/
def tWide (prio : Nat) : Launch := { tGang .taken 0 with acc := 1024, prio := prio }
def sTight (l : Launch) : State :=
  let s := sWaits l 655360001
  { s with dev := { s.dev with retCores := span 1 191 } }
theorem wit_PreemptionAndWatchdogs_needs :
    (∀ l ∈ [tWide 7, tWide 0], (sTight l).placeable 1 l [] = false ∧ (sTight l).isCandidate 1 l = true ∧ (sTight l).stalled = false
      ∧ (sTight l).launches.filter (fun p => p.2.st = .resident) = [(0, placeLaunch)]
      ∧ (∀ p ∈ (sTight l).launches, p.2.st ≠ .parking ∧ p.2.st ≠ .draining))
      ∧ (sTight (tWide 7)).capacity 1 (tWide 7) [0] ≠ (sTight (tWide 7)).capacity 1 (tWide 7) []
      ∧ ((sTight (tWide 7)).demandOf 1 (tWide 7)).fits ((sTight (tWide 7)).toPlace 1 (tWide 7)) ((sTight (tWide 7)).capacity 1 (tWide 7) []) = false ∧ placeLaunch.prio < (tWide 7).prio
      ∧ (tWide 0).prio ≤ placeLaunch.prio := by
  decide +kernel
theorem wit_PreemptionAndWatchdogs_quiet (l : Launch) : ∀ a, (sTight l).lineBusy none a true = false := fun a => quiet_of rfl rfl a true
theorem wit_PreemptionAndWatchdogs_placeable : (sWaits (tGang .taken 0) 655360000).placeable 1 (tGang .taken 0) [] = true := by
  have h : (imagePlaces tGangDesc (imageSize 0 0x200 64 2) (sWaits (tGang .taken 0) 655360000).freeIx 1 ((sWaits (tGang .taken 0) 655360000).images 8191)).isSome = true :=
    onePlace (by decide +kernel) (by decide +kernel)
  have hq : (sWaits (tGang .taken 0) 655360000).qdesc (tGang .taken 0).queue = some tGangDesc := by decide +kernel
  unfold State.placeable
  rw [hq, show (tGang .taken 0).st = .taken from rfl]
  refine Bool.and_eq_true_iff.mpr ⟨by decide +kernel, h⟩
def tOpenTx : Warp := { placeWarp with frags := [(3, { tHurt 0x30 false with pc := 8 })], txn := [(31, { Txn.idle with st := .opened, count := 3 })] }
def sParks (l : Launch) (un : KUnit) (time : Nat) : State := { sWaits l time with units := [(5, un)], nextUnit := 6 }
def tParks : KUnit := { tGone [] with warps := [(31, tOpenTx)] }
theorem wit_PreemptionAndWatchdogs_parked :
    Map.look (sParks (tGang .parking 0) tParks 0).launches 1 = some (tGang .parking 0) ∧ (sParks (tGang .parking 0) tParks 0).qdesc 8191 = some tGangDesc
      ∧ (∀ p ∈ (sParks (tGang .parking 0) tParks 0).units, p.2.launch = 1 → p.2.parked = true) := by
  decide +kernel
def tMmaOp : Op := tEngOp (.mma .i8 2 none 0 [] 0 0) 0
theorem wit_PreemptionAndWatchdogs_drained :
    (∀ un ∈ [tGone [], tGone [tMmaOp]], un.drained = true ∧ un.ended = false ∧ (sParks (tGang .draining 0) un 0).evicted = [])
      ∧ (sParks (tGang .draining 0) (tGone []) 0).qdesc 8191 = some tGangDesc
      ∧ (sParks (tGang .draining 0) (tGone []) 0).tooLarge { tGang .draining 0 with st := .evicted, parkTime := (sParks (tGang .draining 0) (tGone []) 0).time } = false := by
  decide +kernel
theorem wit_PreemptionAndWatchdogs_ended :
    (sParks (tGang .draining 0) { tGone [] with warps := [(0, { placeWarp with frags := [] })] } 0).units = [(5, { tGone [] with warps := [(0, { placeWarp with frags := [] })] })]
      ∧ ({ tGone [] with warps := [(0, { placeWarp with frags := [] })] } : KUnit).drained = true
      ∧ ({ tGone [] with warps := [(0, { placeWarp with frags := [] })] } : KUnit).ended = true := by
  decide +kernel
def tLrec : Rec := { tRec0 with pending := 1, opened := false }
def sDog (st : LaunchSt) (time : Nat) (r : Rec) : State := { sParks (tGang st 0) (tGone []) time with records := [(recKey 1 0x20080, r)] }
theorem wit_PreemptionAndWatchdogs_expiry :
    (∀ st ∈ [LaunchSt.parking, .draining, .resident], (sDog st 0 tLrec).qdesc 8191 = some tGangDesc ∧ (sDog st 0 tLrec).units = [(5, tGone [])])
      ∧ tGangDesc.parklim * 65536000 ≤ ((sDog .parking 65536000 tLrec).time - 0).toNat ∧ ¬ tGangDesc.parklim * 65536000 ≤ ((sDog .parking 65535999 tLrec).time - 0).toNat
      ∧ (tGang .resident 0).admitted = true ∧ tGangDesc.runlim ≠ 0
      ∧ 1000 * tGangDesc.runlim * 65536000 ≤ ((sDog .resident 65536000000 tLrec).time - (tGang .resident 0).admitTime).toNat
      ∧ ¬ 1000 * tGangDesc.runlim * 65536000 ≤ ((sDog .resident 65535999999 tLrec).time - (tGang .resident 0).admitTime).toNat
      ∧ (sDog .parking 0 tLrec).record 1 0x20080 = some tLrec := by
  decide +kernel

/-- UnitsEndAndContextsFree: a unit whose only fragment is dead, as normal, faulted and cancelled, with one unit pending and two; one with an operation. -/
def tEnded (fault cancel : Bool) : KUnit := { tU with endFault := fault, endCancel := cancel, warps := [(0, { placeWarp with frags := [(0, { placeFrag with status := .dead })] })] }
def tEndRec (n : Nat) : Rec := { tRec0 with pending := n, opened := false, parent := 0x20040, level := 2 }
/-- The record of its job. -/
def tJobRec (n : Nat) : Rec := { tRec0 with pending := n, opened := false }
def sEnded (un : KUnit) (r : Rec) : State :=
  { withData (tState tU (tWarp []) tOne) with units := [(5, un)], nextUnit := 6, launches := [(0, { placeLaunch with lrec := 0x20080 })], records := [(recKey 1 0x20040, tJobRec 1), (recKey 1 0x20080, r)] }
theorem wit_UnitsEndAndContextsFree :
    (∀ f c : Bool, ∀ n ∈ [1, 2], let s := sEnded (tEnded f c) (tEndRec n)
      s.unit? 5 = some (tEnded f c) ∧ s.launchOf 5 = some { placeLaunch with lrec := 0x20080 } ∧ (tEnded f c).ended = true ∧ Map.rising (tEnded f c).chains = true
        ∧ s.evicted = [] ∧ s.stalled = false ∧ (tEnded f c).ops = [] ∧ (tEnded f c).jobs = [] ∧ s.reachedBy 5 = false ∧ (∀ p ∈ (tEnded f c).chains, p.2.st ≠ .running)
        ∧ s.record 1 0x20080 = some (tEndRec n) ∧ (tEndRec n).done = false ∧ (tEndRec n).opened = false ∧ (tEndRec n).parent ≠ 0 ∧ 0 < (tEndRec n).pending
        ∧ s.record 1 (tEndRec n).parent = some (tJobRec 1) ∧ 0 < (tJobRec 1).pending ∧ (tJobRec 1).done = false ∧ (tJobRec 1).opened = false)
      ∧ tU.ended = false ∧ ({ tEnded false false with ops := [tOp .tend] } : KUnit).ops ≠ [] := by
  decide +kernel
theorem wit_UnitsEndAndContextsFree_quiet (un : KUnit) (r : Rec) : ∀ a, (sEnded un r).lineBusy none a true = false := fun a => quiet_of rfl rfl a true
theorem wit_UnitsEndAndContextsFree_levels (un : KUnit) (n : Nat) : ∀ x y z, (sEnded un (tEndRec n)).record 1 x = some y → y.parent ≠ 0 →
    (sEnded un (tEndRec n)).record 1 y.parent = some z → y.level < z.level := by
  have look : ∀ x y, (sEnded un (tEndRec n)).record 1 x = some y → (x = 0x20040 ∧ y = tJobRec 1) ∨ (x = 0x20080 ∧ y = tEndRec n) := by
    intro x y h
    unfold State.record at h
    split at h
    · rw [show (sEnded un (tEndRec n)).records = [(recKey 1 0x20040, tJobRec 1), (recKey 1 0x20080, tEndRec n)] from rfl] at h
      simp only [Map.look] at h
      by_cases e : recKey 1 0x20040 = recKey 1 x
      · rw [if_pos e] at h; unfold recKey at e; exact .inl ⟨by omega, (Option.some.inj h).symm⟩
      · rw [if_neg e] at h
        by_cases e2 : recKey 1 0x20080 = recKey 1 x
        · rw [if_pos e2] at h; unfold recKey at e2; exact .inr ⟨by omega, (Option.some.inj h).symm⟩
        · rw [if_neg e2] at h; nomatch h
    · nomatch h
  intro x y z h hp hz
  rcases look x y h with ⟨-, rfl⟩ | ⟨-, rfl⟩
  · exact absurd rfl hp
  · rcases look _ z hz with ⟨-, rfl⟩ | ⟨h2, -⟩
    · show 2 < 3; decide
    · exact absurd (show 0x20040 = 0x20080 from h2) (by decide)
/-- A mate's store is still to perform in the scratchpad of the unit that has ended. -/
theorem wit_UnitsEndAndContextsFree_reached :
    ({ sEnded (tEnded false false) (tEndRec 1) with
        units := [(0, { tU with ops := [{ tOp (.mem none none) with items := [tItem .store [.scr 5 8] 0x5A false] }] }), (5, tEnded false false)] } : State).reachedBy 5 = true := by
  decide +kernel
def sFrees : State :=
  { sEnded (tEnded false false) (tEndRec 1) with
    units := [], launches := [(0, placeLaunch), (1, { placeLaunch with ctx := 2 })], beads := [(511, tAboard)]
    seqs := [(0, { tSeqn with ctx := 1 }), (1, { tSeqn with ctx := 2 })], quota := [(1, tQuota)] }
theorem wit_UnitsEndAndContextsFree_context :
    (∀ p ∈ sFrees.units, sFrees.ctxOf p.1 ≠ 1) ∧ Map.rising sFrees.launches = true ∧ Map.rising sFrees.seqs = true ∧ (sFrees.bead 511).ctx = 1 ∧ (sFrees.bead 511).st ≠ .vacant
      ∧ (1, { placeLaunch with ctx := 2 }) ∈ sFrees.launches ∧ (1, { tSeqn with ctx := 2 }) ∈ sFrees.seqs
      ∧ (∃ p ∈ (sEnded tU (tEndRec 1)).units, (sEnded tU (tEndRec 1)).ctxOf p.1 = 1) := by
  decide +kernel
/-- A context without sequences: a tag that it wrote, and another context's; its queue. -/
theorem wit_UnitsEndAndContextsFree_tags :
    (let s : State :=
       { sFrees with
         seqs := [(1, { tSeqn with ctx := 2 })], tags := [0x80000 / 16, 0x80010 / 16], tagBy := [(0x80000 / 16, 2), (0x80010 / 16, 1)]
         queues := [(8191, { Queue.idle with ctx := 1 })] }
     Map.look s.tagBy (0x80010 / 16) = some 1 ∧ Map.look s.tagBy (0x80000 / 16) ≠ some 1 ∧ NSet.has s.tags (0x80010 / 16) = true ∧ NSet.has s.tags (0x80000 / 16) = true
       ∧ (s.queue 8191).ctx = 1 ∧ (∀ p ∈ s.seqs, p.2.ctx ≠ 1) ∧ s.stalled = false) := by
  decide +kernel
theorem wit_UnitsEndAndContextsFree_partials :
    ({ sFrees with seqs := [(1, { tSeqn with ctx := 2 })], tags := [0x80000 / 16, 0x80010 / 16] } : State).NoPartials := noPartials_of rfl

/-- TranslationFaultsAnswered: an entry of core 191 in a queue that is empty, that is not, and that is full; fragments that wait for the driver; invalidations. -/
def tFb : FbEntry := { ctx := 1, va := 0x1FFFFF, src := 0, kind := 255, dev := 2047, copied := false, ord := 3 }
def tFqDie (log2n cons : Nat) (en : Bool) : Die := { Die.reset with fqBase := 0xF0000, fqLog2n := log2n, fqEn := en, fqVec := 2047, fqProd := 65535, fqCons := cons }
def tFbCore : CoreSt := { CoreSt.reset with fbuf := [(255, tFb)] }
def sFq (log2n cons : Nat) (en : Bool) (f : Frag) (src : Nat) : State :=
  let s := withData (tState tU (tWarp []) f)
  { s with
    cores := s.cores ++ [(191, { tFbCore with fbuf := [(255, { tFb with src := src })] })], dies := [(1, tFqDie log2n cons en)]
    dev := { s.dev with msix := [(16 * 2047 + 12, 0xFE#8)] } }
theorem wit_TranslationFaultsAnswered_copy :
    (let s := sFq 4 65535 true tOne 0
     (s.core 191).nextFb = some (255, tFb) ∧ Map.look (s.core 191).fbuf 255 = some tFb ∧ 191 / 96 = 1
       ∧ (∀ p ∈ s.cores, p.1 / 96 = 1 → p.2.nextFb.isSome = true → p.1 = 191) ∧ (Map.look s.cores 191).isSome = true ∧ (s.die 1).fqEn = true
       ∧ ((s.die 1).fqProd + 65536 - (s.die 1).fqCons) % 65536 = 0 ∧ (s.dev.msixByte (16 * (s.die 1).fqVec + 12)).getLsbD 0 = false)
      ∧ (((sFq 12 61440 true tOne 0).die 1).fqProd + 65536 - ((sFq 12 61440 true tOne 0).die 1).fqCons) % 65536 = 2 ^ 12 - 1
      ∧ 2 ^ 4 ≤ (((sFq 4 65519 true tOne 0).die 1).fqProd + 65536 - ((sFq 4 65519 true tOne 0).die 1).fqCons) % 65536
      ∧ ((sFq 4 65535 false tOne 0).die 1).fqEn = false := by
  decide +kernel
theorem wit_TranslationFaultsAnswered_quiet (n c : Nat) (en : Bool) (f : Frag) (src : Nat) : ∀ a, (sFq n c en f src).lineBusy none a true = false :=
  fun a => quiet_of rfl rfl a true
theorem wit_TranslationFaultsAnswered_partials : (sFq 4 65535 true tOne 0).NoPartials ∧ (sFq 12 61440 true tOne 0).NoPartials := by
  refine ⟨fun k => ?_, fun k => ?_⟩
  all_goals
    by_cases h : k = 0
    · subst h; exact ⟨rfl, rfl⟩
    · by_cases h2 : k = 191
      · subst h2; exact ⟨rfl, rfl⟩
      · exact ⟨by simp [sFq, withData, withPages, State.core, Map.lookD, Map.look, tState, Ne.symm h, Ne.symm h2]; rfl, by
          simp [sFq, withData, withPages, State.core, Map.lookD, Map.look, tState, Ne.symm h, Ne.symm h2]; rfl⟩
def tAwaits (src : Nat) : Frag := { placeFrag with status := .parkedFault, frec := some { tFRec 0x12 true with addr := 0x1E0000, await := [(191, decide (src = 3), 15)] } }
theorem wit_TranslationFaultsAnswered_driver :
    (let s := sFq 4 65535 true (tAwaits 0) 0
     Map.look (s.core (96 * 1 + 95)).fbuf 255 = some tFb ∧ (s.core (96 * 1 + 95)).fwait = [] ∧ s.evicted = [] ∧ tFb.src ≠ 3 ∧ s.stalled = false
       ∧ (96 * 1 + 95, decide (tFb.src = 3), tFb.va / 131072) ∈ (tFRec 0x12 true).await ++ [(191, false, 15)] ∧ s.waitingJobs (96 * 1 + 95) tFb = []
       ∧ s.frag? ⟨0, 0, 0⟩ = some (tAwaits 0) ∧ (s.launchOf 0).map (·.ctx) = some tFb.ctx ∧ (0x1E0000#64).toNat / 131072 = tFb.va / 131072
       ∧ Map.rising s.cores = true ∧ s.joined (96 * 1 + 95) tFb = [⟨0, 0, 0⟩]) := by
  decide +kernel
def sInv (busy : Bool) (scope : Nat) : State :=
  let s := withData (tState tU (tWarp []) tOne)
  { s with
    dies := [(1, { Die.reset with tlb := [⟨1, tLeaf⟩, ⟨1, tLeafSo⟩, ⟨2, tLeaf⟩] })]
    dev := { s.dev with tlbiBusy := busy, tlbiScope := scope, tlbiCtx := 1, tlbiVa := 0x20000, tlbiBase := 0x20000, tlbiN := 1 } }
theorem wit_TranslationFaultsAnswered_inv :
    (∀ scope ∈ [0, 1, 2, 3], (sInv true scope).dev.tlbiBusy = true ∧ (sInv true scope).dev.tlbiScope = scope ∧ (sInv true scope).stalled = false)
      ∧ (∀ p ∈ (sInv true 0).units, p.2.ops = [] ∧ ∀ w ∈ Map.vals p.2.warps, ∀ x ∈ Map.vals w.txn, x.st ≠ .opened)
      ∧ (sInv false 0).dev.tlbiBusy = false ∧ (sInv false 0).dev.tlbiN < 2 ^ 24 ∧ (sInv false 0).dev.tlbiCtx < 4096 := by
  decide +kernel

/-- MigrationMovesPages: 128 KiB pages next to each other, below each other, one ring-held line at the source's end; a held write at SWITCH. -/
def sMig (st src dst z : Nat) (held : Map Nat) : State :=
  let s := withData (tState tU (tWarp []) tOne)
  { s with
    dies := [(1, { Die.reset with migState := st, migSrcReg := src, migDstReg := dst, migSrc := src, migDst := dst, migSize := z })], ringHeld := held
    regOwner := [(0x9FFFC / 4, 191)] }
theorem wit_MigrationMovesPages :
    (∀ p ∈ [(0x80000, 0xA0000), (0xA0000, 0x80000)], (sMig 0 p.1 p.2 0 []).installed p.1 = true ∧ (sMig 0 p.1 p.2 0 []).installed p.2 = true
      ∧ (p.1 + 2 ^ 17 ≤ p.2 ∨ p.2 + 2 ^ 17 ≤ p.1) ∧ p.1 % 2 ^ 17 = 0 ∧ p.2 % 2 ^ 17 = 0)
      ∧ (∀ p ∈ [(0x90000, 0xA0000), (0x80000, 0x80000), (0x80000, 0x100000), (0x100000, 0x80000)], p.1 % 2 ^ 17 ≠ 0 ∨ p.2 % 2 ^ 17 ≠ 0
        ∨ (p.1 < p.2 + 2 ^ 17 ∧ p.2 < p.1 + 2 ^ 17) ∨ (sMig 0 p.1 p.2 0 []).installed p.1 = false ∨ (sMig 0 p.1 p.2 0 []).installed p.2 = false)
      ∧ (∃ p ∈ (sMig 0 0x80000 0xA0000 0 [(0x9FFC0 / 64, 511)]).ringHeld, 0x80000 ≤ 64 * p.1 ∧ 64 * p.1 < 0x80000 + 2 ^ 17)
      ∧ (∀ p ∈ (sMig 4 0x80000 0xA0000 0 [(0xA0000 / 64, 511)]).ringHeld, ¬ (0x80000 ≤ 64 * p.1 ∧ 64 * p.1 < 0x80000 + 2 ^ 17))
      ∧ (∀ st < 6, ((sMig st 0x80000 0xA0000 0 []).die 1).migState = st) := by
  decide +kernel
theorem wit_MigrationMovesPages_partials (st src dst z : Nat) (held : Map Nat) : (sMig st src dst z held).NoPartials := noPartials_of rfl
/-- The destination's lines are free where the source's are locked. -/
theorem wit_MigrationMovesPages_lines : ∀ a, 0xA0000 ≤ a → a < 0xA0000 + 2 ^ 17 → (sMig 2 0x80000 0xA0000 0 []).lineBusy none a true = false := by
  intro a h _
  have e : (sMig 2 0x80000 0xA0000 0 []).soloLocked none a = false := rfl
  have e2 : (sMig 2 0x80000 0xA0000 0 []).migLocked a = false := by
    show ([(1, _)] : Map Die).any _ = false
    simp only [List.any_cons, List.any_nil, Bool.or_false, Bool.and_eq_false_iff, decide_eq_false_iff_not]
    right
    show ¬ a < 0x80000 + 2 ^ (17 + 0)
    omega
  unfold State.lineBusy
  rw [e, e2]; rfl
def tHeldItem : Item := tItem .store [.phys 0x9FFFF .rc 1 0x5FFFF tLeaf.use] 0x5A false
def tHeldOp : Op := { tOp (.mem none none) with items := [tHeldItem] }
def sSwitch : State := { sMig 3 0x80000 0xA0000 0 [] with units := [(5, { tU with ops := [tHeldOp] })] }
theorem wit_MigrationMovesPages_held :
    (sSwitch.die 1).migState = 3 ∧ sSwitch.units = [(5, { tU with ops := [tHeldOp] })] ∧ tHeldOp.items = [tHeldItem] ∧ tHeldItem.done = false
      ∧ writes tHeldItem.kind = true ∧ tHeldItem.locs = [.phys 0x9FFFF .rc 1 0x5FFFF tLeaf.use] ∧ 0x80000 ≤ 0x9FFFF ∧ 0x9FFFF < 0x80000 + 2 ^ 17
      ∧ sSwitch.walk 1 0x5FFFF = .ok tLeafSo ∧ (sSwitch.die 0).tlb = [] ∧ sSwitch.stalled = false := by
  decide +kernel

/-- PeersAndQuiesce: loads below, at and above the threshold; packets before, at and after their turn; accesses on the release-consistent page; a store and a load in flight. -/
def sNoc (rand mode : Bool) (thr : Nat) : State := { tState tU (tWarp []) tOne with dies := [(1, { Die.reset with nocRand := rand, nocMode := mode, nocThresh := thr })] }
theorem wit_PeersAndQuiesce_noc : (sNoc true false 25).die 1 = { Die.reset with nocRand := true, nocMode := false, nocThresh := 25 } ∧ max 0 1 = 1 := by decide +kernel
def tPeerAcc (kind : AccKind) (size : Nat) : PeerAccess := ⟨31, kind, size, 0x20010, 0x11, 5⟩
def tPeerPkt (n : Nat) (kind : AccKind) (size : Nat) : PeerPacket := ⟨2047, 1, n, 1, [tPeerAcc kind size]⟩
def sPeer : State := { withData (tState tU (tWarp []) tOne) with peerRx := [(4095, ⟨7, []⟩)] }
theorem wit_PeersAndQuiesce_packets :
    Map.lookD sPeer.peerRx (2 * 2047 + 1) ⟨0, []⟩ = ⟨7, []⟩ ∧ Map.lookD sPeer.peerRx (2 * 5 + 1) ⟨0, []⟩ = ⟨0, []⟩ ∧ sPeer.walk 1 0x20010 = .ok tLeaf ∧ sPeer.ringBead (tLeaf.pa 0x20010) = none
      ∧ sPeer.lineBusy none (tLeaf.pa 0x20010) true = false ∧ sPeer.lineBusy none (tLeaf.pa 0x20010) false = false ∧ sPeer.poisoned (tLeaf.pa 0x20010) 16 = false
      ∧ tLeaf.rd = true ∧ tLeaf.wr = true ∧ (tPeerAcc (.atom .addF) 4).data.toNat < 256 ^ 4 ∧ (tPeerAcc (.atom .cas) 8).cmp.toNat < 256 ^ 8 := by
  decide +kernel
theorem wit_PeersAndQuiesce_leaf : sPeer.leafAny 1 0x20010 = .ok tLeaf := by
  rw [leafAny_of rfl]; decide +kernel
theorem wit_PeersAndQuiesce_partials : sPeer.NoPartials := noPartials_of rfl
def tPeerItem (kind : AccKind) (n : Nat) : Item := { tItem kind ((span 0x20010 n).map fun v => .peer 2047 0 v 9) 0x80 false with thread := 31 }
def tPeerOp (kind : AccKind) (n : Nat) (d : Option Dst) : Op := { tOp (.mem none none) with items := [tPeerItem kind n], dst := d, mask := bit 31 }
def sAck (o : Op) : State := tState (tWith o) (tWarp []) tAll
theorem wit_PeersAndQuiesce_acks :
    (∀ p ∈ [(AccKind.store, 8), (.load, 8), (.load, 4), (.load, 1)], let o := tPeerOp p.1 p.2 (if p.1 = .load then some (tDst (max 1 (p.2 / 4)) p.2 false) else none)
      (sAck o).unit? 0 = some (tUnit (tWith o) (tWarp []) tAll) ∧ (tUnit (tWith o) (tWarp []) tAll).op? 0 = some o
        ∧ (o.items.find? fun y => y.thread = 31 && !y.done) = some (tPeerItem p.1 p.2) ∧ mayPerform (tUnit (tWith o) (tWarp []) tAll).ops o (tPeerItem p.1 p.2) = true
        ∧ (∀ k ∈ (sAck o).unacked 0 2047, 9 ≤ k) ∧ (sAck o).dev.lost = false ∧ o.fails = [])
      ∧ (sAck (tPeerOp .load 8 (some (tDst 2 8 false)))).warp? 0 0 = some { tWarp [] with frags := [(0, tAll)] }
      ∧ (({ tWarp [] with frags := [(0, tAll)] } : Warp).live).getLsbD 31 = true := by
  decide +kernel
def sOnly : State := tState tU (tWarp []) tOne
theorem wit_PeersAndQuiesce_quiesce :
    sOnly.units = [(0, tUnit tU (tWarp []) tOne)] ∧ (tUnit tU (tWarp []) tOne).ops = [] ∧ sOnly.dev.quiesced = false ∧ State.reset.units = [] ∧ sOnly.evicted = [] ∧ State.reset.evicted = []
      ∧ ({ sOnly with dev := { sOnly.dev with quiesced := true, lost := true } } : State).dev.quiesced = true := by
  decide +kernel

/-- SoftErrors: the last byte of scratchpad, the last row, a unit alone in its cluster; words of memory, a slice one error short of retiring, and the first port past the threshold. -/
def sErr (lim : Nat) : State :=
  let s := withData (tState { tU with mates := [], bars := [(0, ⟨0, 0⟩)] } (tWarp []) tOne)
  { s with dev := { s.dev with retLim := lim, compErr := [(383, 3)], retPorts := [1, 2, 3] }, regOwner := [(0x80010 / 4, 5)] }
theorem wit_SoftErrors :
    (sErr 0).unit? 0 = some (tUnit { tU with mates := [], bars := [(0, ⟨0, 0⟩)] } (tWarp []) tOne) ∧ (sErr 0).launchOf 0 = some placeLaunch ∧ (sErr 0).dev.retLim = 0
      ∧ (sErr 0).stalled = false ∧ (sErr 0).evicted = [] ∧ (sErr 4).stalled = false ∧ (sErr 4).evicted = []
      ∧ 4095 < placeLaunch.scratch ∧ (tUnit { tU with mates := [], bars := [(0, ⟨0, 0⟩)] } (tWarp []) tOne).barrierIn (4095 / 8 * 8) 8 = false ∧ 1023 < placeLaunch.acc
      ∧ tU.frozen = false ∧ (sErr 4).installed 0xFFFFF = true ∧ NSet.has (sErr 4).dev.retSlices 383 = false ∧ (sErr 4).dev.retLim ≠ 0
      ∧ (sErr 4).dev.retLim ≤ Map.lookD (sErr 4).dev.compErr 383 0 + 1 ∧ Map.lookD (sErr 4).dev.compErr 0 0 + 1 < (sErr 4).dev.retLim
      ∧ Map.look (sErr 4).regOwner (0x80010 / 4) ≠ some 191 ∧ (∀ p ∈ (sErr 4).regOwner, p.2 ≠ 191)
      ∧ NSet.has (sErr 4).dev.retPorts 3 = true ∧ NSet.has (sErr 4).dev.retPorts 35 = false ∧ 3 ≤ (sErr 4).dev.retPorts.length := by
  decide +kernel
theorem wit_SoftErrors_owner : ∀ w, w / 2 = 0x80010 / 8 → Map.look (sErr 4).regOwner w ≠ some 191 := by
  intro w _
  show Map.look ([(0x80010 / 4, 5)] : Map Nat) w ≠ some 191
  unfold Map.look
  split
  · decide
  · unfold Map.look; decide

/-- HostPort: the last bytes of the staging buffer and of the window, a line that a migration locks; sizes at both ends. -/
def sPort (stage hwin mig : Nat) : State :=
  let s := withData (tState tU (tWarp []) tOne)
  { s with
    dev := { s.dev with stage := stage, hwin := hwin, staging := [(67108863, 7#8)] }
    dies := [(0, { Die.reset with migState := mig, migSrc := 0x80000, migDst := 0xA0000 })] }
theorem wit_HostPort :
    (sPort 15 0 0).dev.stage ≠ 4 ∧ 67108862 + [1#8, 2#8].length ≤ 67108864 ∧ 67108864 < 67108863 + [1#8, 2#8].length
      ∧ (sPort 4 0 0).dev.stage = 4 ∧ 2 ^ (sPort 4 0 0).dev.bar4 < 2 ^ 28 - 1 + [1#8, 2#8].length
      ∧ 0x9FFFF + [1#8, 2#8].length ≤ 2 ^ (sPort 4 0 0).dev.bar4
      ∧ (∃ i < 2, (sPort 4 0 2).lineBusy none ((sPort 4 0 2).dev.hwin + 0x9FFFF + i) true = true)
      ∧ (∀ i < 2, (sPort 4 0 0).lineBusy none ((sPort 4 0 0).dev.hwin + 0x9FFFF + i) true = false ∧ (sPort 4 0 0).installed ((sPort 4 0 0).dev.hwin + 0x9FFFF + i) = true)
      ∧ (∀ i < 2, (sPort 4 0 0).lineBusy none ((sPort 4 0 0).dev.hwin + 0x9FFFF + i) false = false) ∧ (sPort 4 0 0).regOwner = [] := by
  decide +kernel
/-- The doorbell page of queue 8191, mapped, with an error and malformed packets; of a queue whose die's EN is 0. -/
theorem wit_HostPort_doorbell :
    (let s := withQ (tState tU (tWarp []) tOne) { Queue.idle with head := 3, err := true, malf := 65535 } [(63, { queue := 8191, since := 0, taken := none })]
     s.dev.stage = 4 ∧ (s.die (8191 / 4096)).qsEn = true ∧ (s.slotOf 8191).isSome = true ∧ (s.queue 8191).err = true ∧ (s.queue 8191).malf = 65535
       ∧ (s.queue 8191).head = 3 ∧ (s.die (4095 / 4096)).qsEn = false ∧ (24 : Nat) < 4096) := by
  decide +kernel
theorem wit_HostPort_partials : (sPort 4 0 0).NoPartials ∧ (sPort 4 0 2).NoPartials := ⟨noPartials_of rfl, noPartials_of rfl⟩

/-- BootPowerAttestation: each stage; a staged image whose magic is wrong, and one that is accepted where its keys and signatures verify. -/
def tStaging (magic : Nat) : Map Byte := [(0, BitVec.ofNat 8 magic), (1, 0x58#8), (2, 0x49#8), (3, 0x4D#8), (4, 2#8), (6, 1#8)]
def tImage (magic : Nat) : List Byte := (List.range 0x1530).map fun i => Map.lookD (tStaging magic) i 0#8
def sBoot (stage magic : Nat) : State := { State.reset with dev := { Dev.reset with stage := stage, staging := tStaging magic } }
theorem wit_BootPowerAttestation_staged (magic : Nat) :
    (∀ i, i < 0x1530 → (tImage magic).getD i 0#8 = Map.lookD (sBoot 15 magic).dev.staging i 0#8) ∧ (tImage magic).length = 0x1530 := by
  refine ⟨fun i hi => ?_, by simp [tImage]⟩
  simp [tImage, sBoot, List.getD, hi]
theorem wit_BootPowerAttestation_image :
    0x1530 = 0x1530 + leNat ((List.range 4).map fun i => Map.lookD (sBoot 15 0x56).dev.staging (8 + i) 0#8) ∧ (Signed.of (tImage 0x56)).kind = 2
      ∧ (Signed.of (tImage 0x55)).kind = 2 ∧ (Signed.of (tImage 0x55)).magic ≠ 0x4D495856 ∧ (Signed.of (tImage 0x56)).magic = 0x4D495856
      ∧ (Signed.of (tImage 0x56)).rsv = 0 ∧ (Signed.of (tImage 0x56)).len = 0 := by
  decide +kernel
theorem wit_BootPowerAttestation_refused : ∀ floor, (Signed.of (tImage 0x55)).errc 2 floor 67108864 ≠ 0 := by
  intro floor
  unfold Signed.errc
  split
  · decide
  · rw [if_pos (by simp [wit_BootPowerAttestation_image.2.2.2.1])]; decide
theorem wit_BootPowerAttestation_accepted (h : sha384 (Signed.of (tImage 0x56)).keys = beBytes 48 Config.rootKeyHash.toNat)
    (he : ed25519Verify (Signed.of (tImage 0x56)).edpk (Signed.of (tImage 0x56)).message (Signed.of (tImage 0x56)).edsig = true)
    (hf : Config.recordFloor (Signed.of (sBoot 15 0x56).dev.flashCfg).body 2 ≤ (Signed.of (tImage 0x56)).svn)
    (hm : MlDsa.verify (Signed.of (tImage 0x56)).mlpk (Signed.of (tImage 0x56)).message (Signed.of (tImage 0x56)).mlsig = true) :
    (Signed.of (tImage 0x56)).errc 2 (Config.recordFloor (Signed.of (sBoot 15 0x56).dev.flashCfg).body 2) 67108864 = 0 := by
  obtain ⟨-, hk, -, -, hg, hr, hl⟩ := wit_BootPowerAttestation_image
  unfold Signed.errc Signed.size
  rw [if_neg (by simp [h]), if_neg (by simp [hg, hk, hr, hl, he, hm]), if_neg (by omega)]
theorem wit_BootPowerAttestation :
    (∀ stage ∈ [0, 1, 2, 3, 4, 15], (sBoot stage 0x56).dev.stage = stage) ∧ (sBoot 4 0).dev.attBusy = false ∧ 1400 ≤ (sBoot 4 0).dev.clk
      ∧ ({ (sBoot 4 0).dev with attBusy := true, attNonce := List.replicate 32 7#8, clk := 700 } : Dev).attNonce.length = 32
      ∧ 700 + 100 * 7 = 1400 ∧ 0 < 7 ∧ Instr.patrolScrub 0 ≠ .powerOff ∧ Instr.patrolScrub 0 ≠ .powerOnReset := by
  decide +kernel

/-- CircletHomes: bead 511 boards at the last station; the slice's answers; payloads that come home; commands; the clear at station 0. -/
def tBoarding (reply : Option (Option (List Byte × Bool))) : Bead :=
  { Bead.vacant with home := 0x80040 / 64, bstn := 191, ctx := 1, st := .boarding, req := some (0, 0, 31), reply := reply, key := 9 }
def sHome (v : Bead) (held : Map Nat) (mig : Nat) (solo : Option (Nat × Nat × Nat)) : State :=
  let s := withData (tState (tWith tPassOp) (tWarp []) { tAll with status := .parkedWait, wake := .station 0 })
  { s with
    cycle := BitVec.ofNat 64 (stationPos 191 + 1), beads := [(511, v)], ringHeld := held, soloHolder := solo
    dies := [(0, { Die.reset with migState := mig, migSrc := 0x80000, migDst := 0xA0000 })] }
theorem wit_CircletHomes :
    ((sHome (tBoarding none) [] 0 none).bead 511).req ≠ none ∧ ((sHome (tBoarding none) [] 0 none).bead 511).reply = none
      ∧ ((sHome (tBoarding (some none)) [] 0 none).bead 511).reply ≠ none ∧ ((sHome Bead.vacant [] 0 none).bead 511).req = none
      ∧ (sHome (tBoarding none) [(0x80040 / 64, 5)] 0 none).ringBead 0x80040 = some 5 ∧ (sHome (tBoarding none) [] 0 none).ringBead 0x80040 = none
      ∧ (sHome (tBoarding none) [] 2 none).migLocked 0x80040 = true ∧ (sHome (tBoarding none) [] 0 none).migLocked 0x80040 = false
      ∧ (sHome (tBoarding none) [] 0 none).soloLocked none 0x80040 = false := by
  decide +kernel
theorem wit_CircletHomes_partials (v : Bead) (held : Map Nat) (mig : Nat) (solo : Option (Nat × Nat × Nat)) : (sHome v held mig solo).NoPartials := noPartials_of rfl
/-- A solitary transaction that has the line in its set. -/
def sSoloLine : State :=
  let s := sHome (tBoarding none) [] 0 (some (5, 0, 0))
  { s with units := Map.put s.units 5 { tU with warps := [(0, { placeWarp with txn := [(0, { Txn.idle with st := .opened, solo := true, rset := [(0x80040 / 4, 0)] })] })] } }
theorem wit_CircletHomes_solo :
    sSoloLine.ringBead 0x80040 = none ∧ sSoloLine.migLocked 0x80040 = false ∧ sSoloLine.soloLocked none 0x80040 = true := by decide +kernel
theorem wit_CircletHomes_board :
    (∀ r ∈ [some none, some (some (List.replicate 64 7#8, false))], let s := sHome (tBoarding r) [] 0 none
      (511 % 256 + s.cycle.toNat) % 256 = stationPos 191 ∧ (s.bead 511).last ≠ s.cycle.toNat + 1 ∧ (s.bead 511).st = .boarding ∧ (s.bead 511).req = some (0, 0, 31)
        ∧ (s.bead 511).bstn = 191 ∧ (s.bead 511).clear = false ∧ (s.core (coreAt 191)).station = [] ∧ (s.unit? 0).bind (fun u => u.op? 0) = some tPassOp
        ∧ tPassOp.dst = some (tDst 1 4 false) ∧ ((s.warp? 0 0).map fun w => w.live.getLsbD 31) = some true) := by
  decide +kernel
def tHomeW (bs : Option (List Byte)) (req : Option (Nat × Nat × Nat)) : HomeWrite := ⟨511, 0x80040 / 64, bs, req, false⟩
def sAlight (h : HomeWrite) : State := { sHome Bead.vacant [(0x80040 / 64, 511)] 0 none with homeWrites := [h] }
theorem wit_CircletHomes_alight :
    (∀ h ∈ [tHomeW (some (List.replicate 64 7#8)) none, tHomeW none (some (0, 0, 31))], (sAlight h).homeWrites[0]? = some h ∧ h.ofClear = false
      ∧ (sAlight h).homeWrites[1]? = none ∧ ((sAlight h).unit? 0).bind (fun u => u.op? 0) = some tPassOp ∧ ((sAlight h).warp? 0 0).map (fun w => w.live.getLsbD 31) = some true)
      ∧ (List.replicate 64 7#8).length = 64 ∧ (sAlight (tHomeW none none)).stalled = false ∧ tPassOp.kind = .circ (bit 31)
      ∧ (sAlight (tHomeW none none)).lineBusy none (64 * (0x80040 / 64)) true = false
      ∧ ({ sAlight (tHomeW none none) with dies := [(0, { Die.reset with migState := 2, migSrc := 0x80000, migDst := 0xA0000 })] } : State).lineBusy none
          (64 * (0x80040 / 64)) true = true := by
  decide +kernel
def sClear (busy : Bool) : State :=
  let s := sHome { tAboard with clear := true } [(0x2000, 511)] 0 none
  { s with cycle := 1, dev := { s.dev with circBusy := busy } }
theorem wit_CircletHomes_clear :
    (sClear true).dev.circBusy = true ∧ (sClear false).dev.circBusy = false ∧ (511 % 256 + (sClear true).cycle.toNat) % 256 = stationPos 0
      ∧ ((sClear true).bead 511).last ≠ (sClear true).cycle.toNat + 1 ∧ ((sClear true).bead 511).st = .aboard ∧ ((sClear true).bead 511).req = none
      ∧ ((sClear true).bead 511).clear = true ∧ ((sClear true).core (coreAt 0)).station = [] := by
  decide +kernel

/-- ClausesStartFragmentsWake: a header of one word with a guard on a complemented predicate, and one whose length is zero; each wake condition, met and not met. -/
def tWarpP : Warp := { tWarp [] with preds := [(3, 0xFFFF)] }
def tIdleF (pc : Nat) : Frag := { placeFrag with pc := pc, clause := none }
/-- Guard on the complement of p3, yield, length 1, and a NOP. -/
def tHeader : Nat := 0x000001DC
def sStart (pc hdr : Nat) : State :=
  let s := (withPages (tState tU tWarpP (tIdleF pc))).put 0x60040 (leBytes 4 hdr ++ leBytes 4 (0x0E8 * 2 ^ 23)) false
  { s with cores := [] }
theorem exists_ok {ε α : Type} {e : Except ε α} (h : e.toOption.isSome = true) : ∃ p, e = .ok p := by
  cases e with
  | ok p => exact ⟨p, rfl⟩
  | error _ => simp [Except.toOption] at h
theorem wit_ClausesStart :
    (let s := sStart 64 tHeader
     s.laneBusy (Map.lookD (s.core 0).lanes 0 Lane.idle) = false ∧ s.laneWarps 0 0 = [(0, 0, false, [0])] ∧ s.unit? 0 = some (tUnit tU tWarpP (tIdleF 64))
       ∧ s.launchOf 0 = some placeLaunch ∧ tU.core = 0 ∧ tWarpP.lates = [] ∧ (tIdleF 64).status = .runnable
       ∧ s.candidate (tUnit tU tWarpP (tIdleF 64)) placeLaunch 0 { tWarpP with frags := [(0, tIdleF 64)] } (tIdleF 64) = true
       ∧ (∃ k, s.openClause 0 placeLaunch 64 = .clause k tHeader) ∧ s.textWord 0 placeLaunch 64 = some tHeader
       ∧ (sStart 64 0x0000001C).openClause 0 placeLaunch 64 = .frame ∧ s.laneWarps 0 63 = []
       ∧ ({ s with poison := [(0x60040 : Nat) / 8] } : State).openClause 0 placeLaunch 64 = .unread 64
       ∧ (∃ p, ({ s with poison := [(0x60040 : Nat) / 8] } : State).leafOf 0 placeLaunch.ctx (placeLaunch.text + 64) = .ok p)
       ∧ sAll.laneBusy (Map.lookD (sAll.core 0).lanes 0 Lane.idle) = true) := by
  refine ⟨by decide +kernel, by decide +kernel, by decide +kernel, by decide +kernel, rfl, rfl, rfl, by decide +kernel, ⟨⟨64, 1, 0, 0, true, 0⟩, by decide +kernel⟩,
    by decide +kernel, by decide +kernel, by decide +kernel, by decide +kernel, ?_, by decide +kernel⟩
  rw [leafOf_of rfl]
  exact exists_ok (by decide +kernel)
def tParked (w : Wake) : Frag := { placeFrag with status := .parkedWait, wake := w }
def tWakeU (park : Bool) : KUnit := { tU with parkReq := park, ops := [tOp (.mem none none)], nextOp := 1, bitmaps := [(15, 1#64 <<< 63)] }
def sWake (park : Bool) (w : Wake) : State := { tState (tWakeU park) (tWarp []) (tParked w) with time := 7 }
theorem wit_FragmentsWake :
    (∀ w ∈ [Wake.issue [.station 63, .flag] true, .issue [] false, .flags 0x800, .flags 0x7FF, .path .ls 0, .path .ls 1, .clock 7, .clock 8, .chunks 15 (1#64 <<< 63), .chunks 15 1],
      (sWake false w).unit? 0 = some (tUnit (tWakeU false) (tWarp []) (tParked w)) ∧ (sWake true w).launchOf 0 = some placeLaunch ∧ (sWake true w).frag? ⟨0, 0, 0⟩ = some (tParked w))
      ∧ (let u := tUnit (tWakeU false) (tWarp []) (tParked (.flags 0x800))
         u.flagValue 0 11 allThreads ≠ 0 ∧ (∀ k < 12, (0x7FF#12).getLsbD k = true → u.flagValue 0 k allThreads = 0) ∧ u.pathCount .ls = 1
           ∧ Map.lookD u.bitmaps 15 0#64 &&& (1#64 <<< 63) = 1#64 <<< 63 ∧ Map.lookD u.bitmaps 15 0#64 &&& 1#64 ≠ 1#64)
      ∧ (∀ n ∈ [Need.station 63, .flag], n.met (sWake true (.issue [.station 63, .flag] true)) (tUnit (tWakeU true) (tWarp []) (tParked .none)) ⟨0, 0, 0⟩ (tParked .none) = true)
      ∧ (Need.grant 0).met (sWake false .none) (tUnit (tWakeU false) (tWarp []) (tParked .none)) ⟨0, 0, 0⟩ (tParked .none) = false
      ∧ (Need.path .ls).met (sWake false .none) (tUnit (tWakeU false) (tWarp []) (tParked .none)) ⟨0, 0, 0⟩ (tParked .none) = true := by
  decide +kernel
def sDead (ops : List Op) : State := tState { tU with ops := ops } (tWarp []) { tAll with status := .dead }
theorem wit_DeadFragments :
    (∀ ops ∈ [[], [tOp (.mem none none)]], (sDead ops).frag? ⟨0, 0, 0⟩ = some { tAll with status := .dead }
      ∧ (∀ o ∈ ops, o.warp = 0 → o.dst = none ∨ o.pendingThreads &&& allThreads = 0#32)) ∧ sAll.frag? ⟨0, 0, 0⟩ = some tAll ∧ tAll.status ≠ .dead := by
  decide +kernel

/-- StepRunsWord: a placed word, one that does not decode, one with a bad modifier; a fragment that is gone, an event, a word sent as an event, a tick. -/
def sWord (w : Nat) : State := State.reset.withFetchWord 32 w
theorem wit_StepRunsWord_word :
    (let s := sWord 0x02040840
     s.sched = [.word ⟨0, 0, 0⟩] ∧ s.unit? 0 = some { placeUnit 0 with mates := [(0, 0)] } ∧ s.launchOf 0 = some placeLaunch
       ∧ Map.look (s.core 0).lanes (placeWarp.slot % 64) = some { cur := some ⟨0, 0, 0⟩, lastHigh := false, run := 0 } ∧ placeFrag.status = .runnable
       ∧ placeFrag.clause ≠ none ∧ placeFrag.lane = true ∧ s.hasLate ⟨0, 0, 0⟩ = false ∧ placeFrag.hold = false ∧ placeLaunch.st ≠ .draining ∧ placeLaunch.handler = false ∧ s.dev.quiesced = false ∧ s.dev.halted = false) := by
  decide +kernel
theorem wit_StepRunsWord_decodes :
    (sWord 0x02040840).instrBytes 0 placeLaunch 4 = some (bytesOfWord 0x02040840) ∧ decode (bytesOfWord 0x02040840) = .ok (.addiI32 4 4 64, [])
      ∧ (sWord (rrr 0x006 1 1 2 3)).instrBytes 0 placeLaunch 4 = some (bytesOfWord (rrr 0x006 1 1 2 3)) ∧ decode (bytesOfWord (rrr 0x006 1 1 2 3)) = .error .illegalModifier
      ∧ (sWord (rrr 0x0E8 0 0 0 1)).instrBytes 0 placeLaunch 4 = some (bytesOfWord (rrr 0x0E8 0 0 0 1)) ∧ decode (bytesOfWord (rrr 0x0E8 0 0 0 1)) = .error .illegalOpcode := by
  decide +kernel
/-- A word whose bytes are poisoned; a word issued before that has faulted. -/
theorem wit_StepRunsWord_unread :
    (let s : State := { sWord 0x02040840 with poison := [(0x60004 : Nat) / 8] }
     s.instrBytes 0 placeLaunch 4 = none ∧ s.unreadAt 0 placeLaunch 4 = 4 ∧ placeFrag.mask ≠ 0#32) := by
  decide +kernel
theorem wit_StepRunsWord_leaf : ∃ p, ({ sWord 0x02040840 with poison := [(0x60004 : Nat) / 8] } : State).leafOf 0 placeLaunch.ctx (placeLaunch.text + 4) = .ok p := by
  rw [leafOf_of rfl]
  exact exists_ok (by decide +kernel)
theorem wit_StepRunsWord_late :
    ((sWord 0x02040840).editWarp 0 0 fun w => { w with lates := [⟨none, [Bad.of 0x16 0 allThreads]⟩] }).hasLate ⟨0, 0, 0⟩ = true := by
  decide +kernel
/-- Two units of one cluster. -/
def sErr2 : State := { sAll with units := sAll.units ++ [(5, { tU with mates := [(0, 0), (1, 5)] })] }
theorem wit_FencesStandAndFall_members :
    (∃ a b, sAll.unit? 0 = some a ∧ sErr2.unit? 5 = some b) ∧ (sAll.warp? 0 0).isSome = true ∧ (sErr2.warp? 5 0).isSome = true ∧ (31 : Nat) < 32 := by
  refine ⟨⟨_, _, rfl, rfl⟩, by decide, by decide, by decide⟩
theorem wit_StepRunsWord_moves :
    State.reset.unit? 0 = none ∧ encode (.patrolScrub 1) = [] ∧ encode (.addiI32 4 4 64) ≠ [] ∧ State.reset.dev.halted = false ∧ State.reset.ringDue = false
      ∧ State.reset.dev.clk ≠ 0 ∧ hostCommand (.patrolScrub 1) = false ∧ hostCommand .tlbiAll = true ∧ State.reset.dev.stage ≠ 4 := by
  decide +kernel
/-- DecodeEncode: a word with a literal, and one with each field at its largest value. -/
theorem wit_DecodeEncode :
    Instr.wf (.ffmaF32 .rz 127 127 127) = true ∧ encode (.ffmaF32 .rz 127 127 127) ≠ [] ∧ Instr.wf (.addI32 .wrap 127 127 (.lit 0xFFFFFFFF)) = true := by
  decide
/-- StepKeepsMemoryCanonical, OnlyTicksMoveTime: the state after reset, whose first move is given. -/
theorem wit_steps : Memory.wf State.reset.mem = true ∧ ({ State.reset with sched := [.tick] } : State).sched = [.tick]
    ∧ Move.event (.patrolScrub 0) ≠ .tick ∧ Move.event (.patrolScrub 0) ≠ .event .powerOnReset ∧ Move.event (.patrolScrub 0) ≠ .event .powerOff
    ∧ Move.event (.patrolScrub 0) ≠ .event .bootCommit := by
  refine ⟨rfl, rfl, ?_, ?_, ?_, ?_⟩ <;> intro h <;> injection h <;> rename_i h <;> injection h
theorem wit_steps_run : step { State.reset with sched := [.event (.patrolScrub 0)] } = .next State.reset := by rfl


/-! ### Witnesses of the clauses that the second review asked for -/

/-- CDRV: cb untagged, malformed, reserved and without derive, and a ca that cb does not cover. -/
def tNoDerive : Cap := { tDerive with perm := 0x7F }
def tReservedCap : Cap := { tDerive with rsv := 1 }
def tNarrow : Cap := ⟨0, 0, 0xFF, 0x1000, 0, 0, 0x4000000000⟩
def tFaultWarp : Warp := ((((tCapsWarp.setQuad .general (384 + 4 * 27) 0 tNoDerive.bits true).setQuad .general (384 + 4 * 26) 0 tReservedCap.bits true).setQuad
  .general (384 + 4 * 25) 0 tNarrow.bits true).setQuad .general (384 + 4 * 24) 0 tDerive.bits false)
def sFaultCap : State := tState tU tFaultWarp tTopOne
def cFaultCap : Ctx := tCtx tU tFaultWarp tTopOne
theorem wit_CapabilityWords_faults :
    (∀ b ∈ [(24 : CapReg), 25, 26, 27, 28], Ready sFaultCap cFaultCap [opC 31, opC 30, opC b] []) ∧ cFaultCap.act ≠ 0#32
      ∧ cFaultCap.act = cFaultCap.fr.mask ∧ NotSolitary sFaultCap cFaultCap ∧ threads cFaultCap.act = [0] ∧ cFaultCap.capTag 24 0 = false
      ∧ (cFaultCap.cap 28 0).bounds = none ∧ (cFaultCap.cap 26 0).rsv ≠ 0 ∧ (cFaultCap.cap 27 0).perm / 128 % 2 = 0
      ∧ (cFaultCap.cap 30 0).bounds ≠ none ∧ (cFaultCap.cap 30 0).rsv = 0 ∧ (cFaultCap.cap 25 0).covers (cFaultCap.cap 30 0) = false := by
  refine ⟨?_, by decide, by decide, notSolitary_of rfl, by decide, by decide +kernel, by decide +kernel, by decide +kernel, by decide +kernel,
    by decide +kernel, by decide +kernel, by decide +kernel⟩
  intro b hb
  simp only [List.mem_cons, List.not_mem_nil, or_false] at hb
  rcases hb with rfl | rfl | rfl | rfl | rfl <;> exact ⟨rfl, rfl, rfl, rfl⟩

/-- The conversions: zeros, infinities, quiet and signalling NaNs, the greatest finite number and the least subnormal of each format. -/
theorem wit_FloatingPoint_operands :
    (∀ f ∈ [f32, f16, bf16], 0 % f.signBit = 0 ∧ (f.signBit + f.inf) % f.signBit = f.inf ∧ f.signBit + f.inf < 2 * f.signBit
        ∧ f.inf < (f.inf + 1) % f.signBit ∧ (f.inf + 1) % f.signBit < f.nan ∧ ¬ f.nan % f.signBit < f.nan)
      ∧ (0x7F800000 < 0x7F800001 % 2 ^ 31) ∧ (f32.val 0x7FC00000).isNan = true ∧ f32.val 0xFF800000 = .inf true ∧ f32.val 0x7F800000 = .inf false
      ∧ (-128 : ℤ) ≤ 0 ∧ (0 : ℤ) < 127 := by decide +kernel
/-- JOIN: the gang asked to park; two fragments that wait at the JOIN, beside a dead one and one that waits at another address. -/
def tParkMate (x y : Frag) : KUnit := { tMate x y with parkReq := true }
def sJoinPark : State := { sJoin with units := [(0, tParkMate (tSplit 0xFFFF) (tSplit 0xFFFF0000))] }
def cJoinPark : Ctx := { cJoin with u := tParkMate (tSplit 0xFFFF) (tSplit 0xFFFF0000) }
theorem wit_JoinAndExit_park : NotSolitary sJoinPark cJoinPark ∧ Ready sJoinPark cJoinPark [] [] ∧ cJoinPark.u.parkReq = true ∧ cJoin.u.parkReq = false
    ∧ cJoinPark.fr.clause = cJoin.fr.clause ∧ (1, tSplit 0xFFFF0000) ∈ cJoinPark.w.frags :=
  ⟨notSolitary_of rfl, ⟨rfl, rfl, rfl, rfl⟩, rfl, rfl, rfl, by decide⟩
def tWaits (m : Mask) (pc : Nat) : Frag := { tAtJoin with mask := m, pc := pc }
def tFusing : Warp := { tPair with frags := [(0, tWaits 0xFF 64), (2, tWaits 0xFF00 64), (3, tWaits 0xFF0000 128), (7, { tSplit 0 with status := .dead })] }
def sFusing : State := { tState tU tPair tAll with units := [(0, { tU with warps := [(0, tFusing)] })] }
theorem wit_JoinAndExit_fuse :
    sFusing.unit? 0 = some { tU with warps := [(0, tFusing)] } ∧ sFusing.launchOf 0 = some placeLaunch ∧ Map.rising tFusing.frags = true
      ∧ Map.look tFusing.frags 2 = some (tWaits 0xFF00 64) ∧ (tWaits 0xFF00 64).status = .parkedWait ∧ (tWaits 0xFF00 64).wake = .join
      ∧ (∀ p ∈ tFusing.frags, p.2.status ≠ .dead → p.2.rpc = (tWaits 0xFF00 64).rpc → p.2.status = .parkedWait ∧ p.2.wake = .join)
      ∧ (0 < 2 ∧ Map.look tFusing.frags 0 = some (tWaits 0xFF 64) ∧ (tWaits 0xFF 64).pc = (tWaits 0xFF00 64).pc)
      ∧ (tWaits 0xFF0000 128).pc ≠ (tWaits 0xFF00 64).pc ∧ (tWaits 0xFF 64).rpc ≠ 0xFFFFFFFF#32 ∧ Map.look tFusing.splits (tWaits 0xFF 64).prec.toNat ≠ none := by
  decide +kernel

/-- The waits of a gang that is asked to park, and JOIN's BARWAIT, CHKW and LJOIN likewise. -/
def sBusyPark : State := tState { tBusy with parkReq := true } tThresholds tAll
def cBusyPark : Ctx := tCtx { tBusy with parkReq := true } tThresholds tAll
theorem wit_NopYieldWaitsAndTraps_parked :
    Ready sBusyPark cBusyPark [] [] ∧ (0#8).toNat < cBusyPark.u.pathCount .ls ∧ NotSolitary sBusyPark cBusyPark ∧ cBusyPark.u.parkReq = true
      ∧ (∃ u ∈ threads cBusyPark.act, (cBusyPark.rdP 2 u).toNat = 2 ^ 32) ∧ sBusyPark.time.toNat < 2 ^ 32 ∧ cBusy.u.parkReq = false :=
  ⟨⟨rfl, rfl, rfl, rfl⟩, by decide, notSolitary_of rfl, rfl, by decide, by decide, rfl⟩

/-- A memory word where a page of the pool holds its bytes and one pin less than the most is held; no packet to a peer. -/
def sPooled (k : Cap) : State :=
  { sMem k with dies := [(0, { (sMem k).die 0 with hmBase := 0x60000, hmN := 2 })], pages := [(1, ⟨1, [], 0⟩)] }
theorem wit_MemoryWordsIssue_pins :
    ((span 0x20010 8).any fun v => (sPooled (tCap 0x20010)).inPage 1 (0x60000 + v)) = true ∧ (sPooled (tCap 0x20010)).pins 1 + 1 ≤ 65535
      ∧ Map.keys (sMem (tCap 0x20010)).pages = []
      ∧ peersOf (itemsOf tStore.want 0 0x20010 ((span 0x20010 8).map fun v => .phys (0x60000 + v) .rc 1 v tLeaf.use) 5 0 false false false) = [] := by
  decide +kernel

/-- GlobalAccessPerforms, AccessFailsAsItPerforms: a reduction that performs at once on poisoned bytes of the strongly ordered page. -/
theorem wit_AccessFailsAsItPerforms_reduction :
    (∀ o ∈ [tGlobOp (.red .addN) 0x80010 4 .so none],
      (sFails o).unit? 0 = some (tUnit (tWith o) (tWarp []) tOne) ∧ (tUnit (tWith o) (tWarp []) tOne).op? 0 = some o ∧ o.fails = [] ∧ o.kind = .mem none none
        ∧ (o.items.find? fun y => y.thread = 0 && !y.done) = o.items.head? ∧ (∀ y ∈ o.items, y.thread = 0 ∨ y.done = true)
        ∧ (∀ i ∈ o.items, mayPerform (tUnit (tWith o) (tWarp []) tOne).ops o i = true ∧ i.tx = false ∧ i.peer = false ∧ isRmw i.kind = true
          ∧ o.together i = [i] ∧ (sFails o).redFirst 0 o i = false))
      ∧ (let s := sFails (tGlobOp (.red .addN) 0x80010 4 .so none)
         s.lineBusy (some (0, 0, 0)) 0x80010 true = false ∧ s.ringBead 0x80010 = none ∧ s.poisoned 0x80010 4 = true) := by
  decide +kernel
/-- A capability store whose granule the accessing context then owns. -/
theorem wit_GlobalAccessPerforms_tags :
    (let o := tGlobOp .storeCap 0x80010 16 .rc none
     (tUnit (tWith o) (tWarp []) tOne).op? 0 = some o ∧ (o.items.find? fun y => y.thread = 0 && !y.done) = o.items.head?
       ∧ (∀ i ∈ o.items, mayPerform (tUnit (tWith o) (tWarp []) tOne).ops o i = true
         ∧ (o.items.filter fun y => !y.done && writes y.kind && y.overlaps i) = [i])
       ∧ (sGlob o).lineBusy (some (0, 0, 0)) 0x80010 true = false ∧ (sGlob o).ringBead 0x80010 = none ∧ (sGlob o).ctxOf 0 = 1) := by
  decide +kernel
/-- OperationCompletes, FencesStandAndFall, TendCommitsOrAborts: no drop of killed threads waits. -/
theorem wit_OperationCompletes_drops : (tUnit (tWith tDone) (tWarp []) tOne).drops = [] ∧ tU.drops = [] := ⟨rfl, rfl⟩

/-- TransactionalAccess: a load of a ninth word. -/
theorem wit_TransactionalAccess_ninth :
    (let x := tTxn 8 4
     (tTxState .load x).unit? 0 = some (tUnit (tWith (tTxOp .load 0x80010)) { tWarp [] with txn := [(0, x)] } tOne)
       ∧ x.rset.length = 8 ∧ x.st = .opened ∧ Map.has x.rset (0x80010 / 4) = false ∧ (tTxOp .load 0x80010).dst = some (tDst 1 4 false)
       ∧ (tDst 1 4 false).cap = false ∧ ((tTxOp .load 0x80010).items.filter fun y => y.thread = 0) = (tTxOp .load 0x80010).items
       ∧ (tTxState .load x).lineBusy (some (0, 0, 0)) 0x80010 false = false ∧ (tTxState .load x).ringBead 0x80010 = none
       ∧ (tTxState .load x).poisoned 0x80010 4 = false) := by
  decide +kernel
theorem wit_TransactionalAccess_ninth_partials : (tTxState .load (tTxn 8 4)).NoPartials := noPartials_of rfl


/-- BarrierWords: a thread that has arrived, or more threads than the phase expects; an invalidated barrier with a waiter; no barrier at the offset. -/
def tArrivedU : KUnit := { tBarU (tBar 33 0) with bars := [(0xFF0, ⟨1, 0⟩)] }
def sArrived : State := tState tArrivedU tBarW tAll
def cArrived : Ctx := tCtx tArrivedU tBarW tAll
def tInvBarU : KUnit := tBarU { tBar 33 0 with inv := true }
def sInvBar : State := tState tInvBarU tBarW tAll
def cInvBar : Ctx := tCtx tInvBarU tBarW tAll
theorem wit_BarrierWords_bad :
    (∀ i ∈ [Instr.bararr 4 0 4, .bararrNobytes 4 0, .bararrLit 4 0 7, .barexp 0 4, .barexpLit 0 7, .bardrop 0, .barinv 0, .barinvFree 0], i.wf = true)
      ∧ Ready sArrived cArrived [opV 4, opV 0, opV 4] [] ∧ cArrived.BarAt 0 0xFF0 ∧ cArrived.act = cArrived.fr.mask ∧ cArrived.unperformed = false
      ∧ NotSolitary sArrived cArrived ∧ Map.has cArrived.u.bars 0xFF0 = true ∧ (cArrived.u.bar 0xFF0).valid = true ∧ (cArrived.u.bar 0xFF0).inv = false
      ∧ (1#1024 ||| 0#1024) &&& (cArrived.act.zeroExtend 1024 <<< (32 * cArrived.f.warp)) ≠ 0#1024
      ∧ ((cBar 31 0).u.bar 0xFF0).thrrem < popCount (cBar 31 0).act
      ∧ Ready (tState tU tBarW tAll) (tCtx tU tBarW tAll) [opV 4, opV 0, opV 4] [] ∧ (tCtx tU tBarW tAll).BarAt 0 0xFF0
      ∧ Map.has (tCtx tU tBarW tAll).u.bars 0xFF0 = false := by
  refine ⟨by decide, ⟨rfl, rfl, rfl, rfl⟩, ⟨by decide, by decide, by decide, .inl (by decide)⟩, by decide, by decide +kernel, notSolitary_of rfl, by decide +kernel,
    by decide +kernel, by decide +kernel, by decide +kernel, by decide +kernel, ⟨rfl, rfl, rfl, rfl⟩, ⟨by decide, by decide, by decide, .inl (by decide)⟩,
    by decide⟩
theorem wit_BarrierWords_invalid :
    Ready sInvBar cInvBar [opV 4, opV 0, opV 4] [] ∧ Ready sInvBar cInvBar [opV 0, opV 4] [] ∧ cInvBar.BarAt 0 0xFF0 ∧ cInvBar.act ≠ 0#32 ∧ cInvBar.unperformed = false
      ∧ Map.has cInvBar.u.bars 0xFF0 = true ∧ (cInvBar.u.bar 0xFF0).valid = true ∧ (cInvBar.u.bar 0xFF0).inv = true := by
  refine ⟨⟨rfl, rfl, rfl, rfl⟩, ⟨rfl, rfl, rfl, rfl⟩, ⟨by decide, by decide, by decide, .inl (by decide)⟩, by decide, by decide +kernel, by decide +kernel,
    by decide +kernel, by decide +kernel⟩
/-- A BARWAIT, a CHKW and an LJOIN of a gang that is asked to park. -/
theorem wit_BarrierWords_parked : (tCtx { tBarU (tBar 33 0) with parkReq := true } tBarW tAll).u.parkReq = true
    ∧ Ready (tState { tBarU (tBar 33 0) with parkReq := true } tBarW tAll) (tCtx { tBarU (tBar 33 0) with parkReq := true } tBarW tAll) [opV 0, opV 4] [6] :=
  ⟨rfl, rfl, rfl, rfl, rfl⟩

/-- MeshTreeCombines: every operation and type at a node with two inputs, and a result with an element that no core gave. -/
theorem wit_MeshTreeCombines_types :
    ∀ op ∈ [FoldOp.add, .min, .max], ∀ ty ∈ [MredTy.n32, .i32, .f32],
      let x : MSeq := { tSeq tNodes with op := op, ty := ty }
      let s : State := { tTreeState tNodes 64 with dies := [(0, { Die.reset with descs := [(63, { tTwo with seqs := [(255, x)] })] })] }
      Map.look (s.desc 0 63).seqs 255 = some x ∧ 0 < (s.desc 0 63).count ∧ (s.desc 0 63).input x 0 4 = some ⟨[(0, 3#32), (31, 2#32)], 1#64⟩
        ∧ Map.look x.nodes 0 = some ⟨[(2, tPart 4 2)], 0, none⟩ ∧ Map.has [(2, tPart 4 2)] 4 = false ∧ NSet.has s.dev.retCores (96 * 0 + nodeCore ((s.desc 0 63).node 0)) = false
        ∧ (∀ k ∈ (s.desc 0 63).named 0, k = 4 ∨ Map.has [(2, tPart 4 2)] k = true)
        ∧ Map.look ([(0, 4#32)] : Map Word) 31 = none := by
  decide +kernel
/-- Two nodes of which the eastern points back west, and a descriptor whose nodes do not. -/
theorem wit_MeshTreeCombines_sound :
    (let d := tTwo
     nodeParent (d.node 0) = 4 ∧ nodeCore (d.node 0) = 0 ∧ nodeChild (d.node 0) 2 = true ∧ nodeParent (d.node 1) = 0 ∧ nodeCore (d.node 1) = 1
       ∧ (0x01000040#32).toNat / 2 ^ 24 % 64 = d.nnodes ∧ 64 ≤ (0x01000040#32).toNat % 2 ^ 24) := by decide +kernel

/-- TreeWordsSend: a prefix bit beside a slot, another node while SPEC is 1, and a sequence of another context. -/
def tSpecW : Warp := { tWarp (inAll 0 0xFFFFFF ++ inAll 1 (2 ^ 10 + 1) ++ inAll 2 0xFFFFFF ++ inAll 3 1023) with
  node := BitVec.ofNat 64 (2 ^ 63 + 0xFFFFFF * 2 ^ 32 + 2 ^ 10 + 1022) }
theorem wit_TreeWordsSend_bad :
    (let c := tCtx tU tSpecW tAll
     (c.rdP 0 c.low).toNat = 0xFFFFFF + 2 ^ 32 * (1 + if true then 2 ^ 10 else 0) ∧ (c.rdP 2 c.low).toNat = 0xFFFFFF + 2 ^ 32 * (1023 + if false then 2 ^ 10 else 0)
       ∧ nodeSpec c.w.node = true ∧ c.w.node ≠ BitVec.ofNat 64 (2 ^ 63 + 0xFFFFFF * 2 ^ 32 + if false then 0 else 2 ^ 10 + 1023) ∧ c.act = c.fr.mask ∧ c.act ≠ 0#32)
      ∧ (let s : State := { sTree with seqs := [(0xFFFFFF, { tSeqn with ctx := 2 })] }
         (∃ q, Map.look s.seqs 0xFFFFFF = some q ∧ q.ctx ≠ cTree.l.ctx) ∧ (∀ q, Map.look sTree.seqs 0xFFFFFF = some q → q.ctx ≠ 1)) := by
  refine ⟨by decide +kernel, ⟨_, rfl, by decide⟩, fun q h => absurd h nofun⟩
theorem wit_TreeWordsSend_bad_ready : Ready (tState tU tSpecW tAll) (tCtx tU tSpecW tAll) [opP 0] [] ∧ Ready (tState tU tSpecW tAll) (tCtx tU tSpecW tAll) [opP 2] []
    ∧ NotSolitary (tState tU tSpecW tAll) (tCtx tU tSpecW tAll) := ⟨⟨rfl, rfl, rfl, rfl⟩, ⟨rfl, rfl, rfl, rfl⟩, notSolitary_of rfl⟩

/-- AccumulatorOperations: the other operations at the head of the queue, and K steps of the floating-point and K4 kinds, the first and the last. -/
def tEngDst (e : EngKind) (win : Nat) : Op := { tEngOp e win with dst := some (tDst 1 4 false) }
def sEngDst (e : EngKind) (win : Nat) : State :=
  let s := tState (tWith (tEngDst e win)) (tWarp []) tAll
  { s with cores := [(0, { s.core 0 with eng := [(1, 0), (0, 0), (0, 1)] })] }
theorem wit_AccumulatorOperations :
    ∀ e ∈ [EngKind.accld .bf16 0, .accld .f16 0xF00, .accst .bf16 0 [], .accst .f16 0 [], .accst .i8 0xF80 [(0, 0x3F800000)], .accrs 0, .accmx 1 none,
        .accmx 128 (some [(0, 0x7FC00000)]), .accexs 0 [], .accexs 128 [(0, 0x40000000)]],
      (sEngDst e 31).unit? 0 = some (tUnit (tWith (tEngDst e 31)) (tWarp []) tAll)
        ∧ ((sEngDst e 31).core 0).eng.find? (fun p => p.1 = 0) = some (0, (tEngDst e 31).id)
        ∧ (tUnit (tWith (tEngDst e 31)) (tWarp []) tAll).op? (tEngDst e 31).id = some (tEngDst e 31) ∧ (tEngDst e 31).kind = .engine e 31
        ∧ (tEngDst e 31).dst = some (tDst 1 4 false) ∧ 0xF00 % 16 = 0 ∧ 0xF80 % 16 = 0
        ∧ (∀ b ∈ Map.keys (tUnit (tWith (tEngDst e 31)) (tWarp []) tAll).bars, b % 16 = 0)
        ∧ (tUnit (tWith (tEngDst e 31)) (tWarp []) tAll).spoisoned 0 0x2000 = false ∧ tU.frozen = false := by
  decide +kernel
theorem wit_AccumulatorOperations_steps :
    ∀ e ∈ [EngKind.mma .bf16 2 none 0xC00 [(0, [0x3F803F80, 0x7FC00001])] 0 0, .mma .f16 2 none 0xC00 [(0, [0x3C003C00, 1])] 0 1,
        .mma .f32 1 none 0xE00 [(0, [0x7F800001])] 0 0, .mma .k4 1 none 0x800 [(0, [0x76543210])] 3 0, .mma .k4 1 none 0x800 [(0, [0x76543210])] 3 1],
      (sEng e 31).unit? 0 = some (tUnit (tWith (tEngOp e 31)) (tWarp []) tAll)
        ∧ ((sEng e 31).core 0).eng.find? (fun p => p.1 = 0) = some (0, (tEngOp e 31).id)
        ∧ (tUnit (tWith (tEngOp e 31)) (tWarp []) tAll).op? (tEngOp e 31).id = some (tEngOp e 31) ∧ (tEngOp e 31).kind = .engine e 31
        ∧ (tUnit (tWith (tEngOp e 31)) (tWarp []) tAll).liveOf (tEngOp e 31).warp (tEngOp e 31).mask ≠ 0#32
        ∧ (Map.look (sEng e 31).launches (tUnit (tWith (tEngOp e 31)) (tWarp []) tAll).launch).map (·.st) ≠ some .draining
        ∧ (∀ p ∈ (tUnit (tWith (tEngOp e 31)) (tWarp []) tAll).ops.takeWhile fun p => p.id ≠ (tEngOp e 31).id, p.done = true ∨ p.kind ≠ .cbld 3)
        ∧ (tUnit (tWith (tEngOp e 31)) (tWarp []) tAll).spoisoned 0x800 0x1000 = false := by
  decide +kernel

/-- RepairActs: a target that is dead, and one with no fragment beside it to fuse. -/
theorem wit_RepairActs_dead :
    (let s := sRep (tRepair 4 3) { tHurt 0x30 false with status := .dead, frec := none }
     s.unit? 1 = some (tVictim { tHurt 0x30 false with status := .dead, frec := none }) ∧ s.named (s.ctxOf 0) ((tRepair 4 3).toNat % 2 ^ 32) = some ⟨1, 31, 15⟩
       ∧ (tRepair 4 3).toNat / 2 ^ 24 % 2 ^ 8 = 4 ∧ ({ tHurt 0x30 false with status := .dead, frec := none } : Frag).status = .dead)
      ∧ (∀ y, Map.look ({ placeWarp with slot := 127, frags := [(0, placeFrag), (15, tHurt 0x30 false)] } : Warp).frags 3 = some y → y.status = .dead) := by
  refine ⟨by decide +kernel, fun y h => absurd h nofun⟩

/-- QueueDoorbells: a TAIL that leaves a mapped queue with no packet, where nothing of it is taken. -/
theorem wit_QueueDoorbells_empties :
    (let s := withQ (tState tU (tWarp []) tOne) { Queue.idle with head := 15, tail := 0 } [(63, { queue := 8191, since := 0, taken := none })]
     (s.queue 8191).head = (15#32).toNat % 16 ∧ (15#32).toNat % (2 * 16) < (s.queue 8191).head + 16 ∧ s.takenOf 8191 = none ∧ (s.slotOf 8191).isSome = true
       ∧ (s.die (8191 / 4096)).qsEn = true ∧ s.qdesc 8191 = some (tDesc0 7 0xF 10) ∧ (tDesc0 7 0xF 10).hostw = true ∧ s.stalled = false) := by
  decide +kernel

/-- TranslationFaultsAnswered: an invalidation that a transfer's translation holds up, and one that a boarding bead does. -/
theorem wit_TranslationFaultsAnswered_uses :
    (let j : Job := { tJob (.tile 15) (.scratch 0xF80) none [] with pins := [tLeaf] }
     let s : State := { sInv true 0 with units := [(0, { tU with jobs := [j] })] }
     (∃ p ∈ s.units, ∃ j ∈ p.2.jobs, ∃ l ∈ j.pins, s.ctxOf p.1 = s.dev.tlbiCtx ∧ l.vbase < s.dev.tlbiBase.toNat / 131072 * 131072 + 131072 * s.dev.tlbiN
         ∧ s.dev.tlbiBase.toNat / 131072 * 131072 < l.vbase + l.size) ∧ s.dev.tlbiScope = 0)
      ∧ (let b : Bead := { tBoarding none with vpage := (0x20000, 0x20000) }
         let s : State := { sInv true 1 with beads := [(511, b)] }
         (∃ b ∈ Map.vals s.beads, b.st = .boarding ∧ b.ctx = s.dev.tlbiCtx) ∧ s.dev.tlbiScope = 1)
      ∧ (∀ p ∈ (sInv true 0).units, ∀ j ∈ p.2.jobs, j.pins = []) ∧ (∀ b ∈ Map.vals (sInv true 0).beads, b.st ≠ .boarding)
      ∧ (∀ k ∈ Map.vals (sInv true 0).cores, ∀ o ∈ k.station, o.kind ≠ .board) := by
  decide +kernel
/-- MigrationMovesPages: a held operation that is no TEND. -/
theorem wit_MigrationMovesPages_kind : tHeldOp.kind ≠ .tend ∧ sSwitch.stalled = false := by decide +kernel

/-- PeersAndQuiesce: a second device is lost while the module is quiesced over a first, and the first is announced again. -/
def sLost : State := { sOnly with dev := { sOnly.dev with quiesced := true, lost := true, lostDev := 3, lostSet := [3] } }
theorem wit_PeersAndQuiesce_lost :
    NSet.has sLost.dev.lostSet 3 = true ∧ NSet.has sLost.dev.lostSet 2047 = false ∧ NSet.has sOnly.dev.lostSet 2047 = false ∧ sLost.evicted = []
      ∧ sLost.dev.trapEn = false ∧ sLost.units = [(0, tUnit tU (tWarp []) tOne)] ∧ (∀ p ∈ sLost.launches, p.2.ctx = sLost.ctxOf 0)
      ∧ State.reset.units = [] ∧ State.reset.launches = [] ∧ NSet.has State.reset.dev.lostSet 0 = false
      ∧ NSet.has (sAck (tPeerOp .store 8 none)).dev.lostSet 2047 = false := by
  decide +kernel

/-- SoftErrors: a unit that is still whole; the slice that holds an address; a core one error short of retiring, with its resident gang. -/
def sRetires : State := { sErr 4 with dev := { (sErr 4).dev with compErr := [(1024, 3)] } }
theorem wit_SoftErrors_retires :
    (tUnit { tU with mates := [], bars := [(0, ⟨0, 0⟩)] } (tWarp []) tOne).lost = false
      ∧ ((sErr 4).sliceOf ((sErr 4).holder 0x80010) 0x80010 < 384 → NSet.has (sErr 4).dev.retSlices ((sErr 4).sliceOf ((sErr 4).holder 0x80010) 0x80010) = false)
      ∧ sRetires.unit? 0 = some (tUnit { tU with mates := [], bars := [(0, ⟨0, 0⟩)] } (tWarp []) tOne) ∧ sRetires.launchOf 0 = some placeLaunch
      ∧ sRetires.dev.retLim ≠ 0 ∧ NSet.has sRetires.dev.retCores tU.core = false ∧ sRetires.launches.rising = true
      ∧ (∀ p ∈ sRetires.launches, p.2.st ≠ .taken ∧ p.2.st ≠ .evicted) ∧ sRetires.dev.retLim ≤ Map.lookD sRetires.dev.compErr (1024 + tU.core) 0 + 1
      ∧ Map.lookD (sErr 4).dev.compErr (1024 + tU.core) 0 + 1 < (sErr 4).dev.retLim
      ∧ Map.look sRetires.launches 0 = some placeLaunch ∧ placeLaunch.st = .resident ∧ (∃ p ∈ sRetires.units, p.2.launch = 0 ∧ p.2.core = tU.core) := by
  refine ⟨rfl, fun _ => by decide +kernel, rfl, rfl, by decide +kernel, by decide +kernel, rfl, by decide +kernel, by decide +kernel, by decide +kernel, rfl, rfl,
    by decide +kernel⟩

/-- CircletHomes: a line that a transaction locks and one that none does; a poisoned bead to be cleared. -/
theorem wit_CircletHomes_lines : (sHome (tBoarding none) [] 0 none).lineBusy none 0x80040 false = false ∧ sSoloLine.lineBusy none 0x80040 false = true := by
  decide +kernel
theorem wit_CircletHomes_clear_poisoned :
    (let s := sHome { tAboard with st := .poisoned, clear := true } [(0x2000, 511)] 0 none
     let s : State := { s with cycle := 1 }
     (511 % 256 + s.cycle.toNat) % 256 = stationPos 0 ∧ (s.bead 511).last ≠ s.cycle.toNat + 1 ∧ (s.bead 511).st = .poisoned ∧ (s.bead 511).ctx ≠ 0
       ∧ (s.bead 511).req = none ∧ (s.bead 511).clear = true ∧ (s.core (coreAt 0)).station = []) := by
  decide +kernel
/-- ClausesStartFragmentsWake: no partial waits on the text. -/
theorem wit_ClausesStart_text : (sStart 64 tHeader).combineWalk placeLaunch.ctx (placeLaunch.text + 64) = sStart 64 tHeader := by
  unfold State.combineWalk; exact if_pos rfl
/-- A die with one slice left. -/
def sOneSlice : State := { sErr 4 with dev := { (sErr 4).dev with offSlices := span 1 191 } }
theorem wit_SoftErrors_slice : sOneSlice.installed 0x80010 = true ∧ 0 = sOneSlice.sliceOf (sOneSlice.holder 0x80010) 0x80010 ∧ NSet.has sOneSlice.dev.retSlices 0 = false := by
  refine ⟨by decide +kernel, ?_, by decide +kernel⟩
  have h : sOneSlice.holder 0x80010 = 0 := by decide +kernel
  have l : ((span (192 * 0) 192).filter fun k => !(NSet.has sOneSlice.dev.offSlices k)) = [0] := by decide +kernel
  unfold State.sliceOf
  rw [h]
  dsimp only
  rw [l]
  simp [Nat.mod_one]

/-- HostPort: a read of a line that a solitary transaction locks. -/
theorem wit_HostPort_locked : sSoloLine.dev.stage = 4 ∧ 0x80040 + 1 ≤ 2 ^ sSoloLine.dev.bar4
    ∧ (∃ i < 1, sSoloLine.lineBusy none (sSoloLine.dev.hwin + 0x80040 + i) false = true) := by decide +kernel

/-- FIPS 180-4's example: SHA-384 of "abc". -/
theorem test_sha384_abc : sha384 [0x61#8, 0x62#8, 0x63#8] = beBytes 48
    0xcb00753f45a35e8bb5a03d699ac65007272c32ab0eded1631a8b605a43ff5bed8086072ba1e7cc2358baeca134c825a7 := by decide +kernel

end Sys2Proof.Tests
end

section
/-! SUPPORT. Power-on reset, boot stages, recovery, attestation and power (17 R439 to R445). -/
namespace Sys2Proof.Machine

/-! ### Power-on reset -/

/-- Settles O57: every clause is the reset value of a field, read through its accessor. -/
theorem resetState : Obligations.ResetState := by
  unfold Obligations.ResetState
  exact ⟨rfl, rfl, rfl, fun _ => rfl, rfl, rfl, rfl, rfl, rfl, fun _ => ⟨rfl, rfl⟩, rfl, rfl, rfl, rfl, rfl, rfl,
    fun _ => ⟨rfl, rfl, rfl, rfl⟩, fun _ => ⟨rfl, rfl, rfl, rfl⟩,
    fun _ => by simp [State.die, State.reset, Map.lookD, Die.reset], by simp [State.reset, Dev.reset], Memory.wf_reset⟩

/-! ### What the events mean -/

theorem exec_bootStageComplete (ok : Bool) (s : State) : exec (.bootStageComplete ok) s = execBootStageComplete ok s := rfl
theorem exec_bootCommit (s : State) : exec .bootCommit s = execBootCommit s := rfl
theorem exec_attestGo (s : State) : exec .attestGo s = execAttestGo s := rfl
theorem exec_attestComplete (s : State) : exec .attestComplete s = execAttestComplete s := rfl
theorem exec_throttleRecovery (s : State) : exec .throttleRecovery s = execThrottleRecovery s := rfl

/-! ### Messages and DEV_ERR -/

/-- An interrupt changes the pending bits and what has gone out. -/
theorem State.sendMsix_eq (s : State) (v : Nat) :
    ∃ p o, s.sendMsix v = { s with dev := { s.dev with pba := p }, out := o } := by
  unfold State.sendMsix
  split_ifs
  · exact ⟨s.dev.pba, s.out, rfl⟩
  · exact ⟨_, s.out, rfl⟩
  · exact ⟨s.dev.pba, _, rfl⟩

/-- Raising bits of DEV_ERR changes the device as told, and may send an interrupt. -/
theorem State.raiseErr_eq (s : State) (g : Dev → Dev) :
    ∃ p o, s.raiseErr g = { s with dev := { g s.dev with pba := p }, out := o } := by
  unfold State.raiseErr
  dsimp only
  split_ifs
  · exact State.sendMsix_eq { s with dev := g s.dev } _
  · exact ⟨(g s.dev).pba, s.out, rfl⟩

/-- R433 sets REPLACE in both registers and nothing else. -/
theorem Dev.judge_eq (d : Dev) : ∃ a b, d.judge = { d with errReplace := a, healthReplace := b } := by
  unfold Dev.judge
  split_ifs
  · exact ⟨_, _, rfl⟩
  · exact ⟨d.errReplace, d.healthReplace, rfl⟩

/-- More than three retired ports ask for a replacement (R433). -/
theorem Dev.judge_of_ports {d : Dev} (h : 3 < d.retPorts.length) : d.judge = { d with errReplace := true, healthReplace := true } := by
  unfold Dev.judge
  rw [if_pos]
  simp [Dev.wantsReplace, h]

/-! ### Lengths of hashes and signatures -/

@[simp] theorem leBytes_length (n x : Nat) : (leBytes n x).length = n := by
  induction n generalizing x with
  | zero => rfl
  | succ n ih => simp [leBytes, ih]

@[simp] theorem beBytes_length (n x : Nat) : (beBytes n x).length = n := by simp [beBytes]

@[simp] theorem padTo_length (n : Nat) (l : List Byte) : (padTo n l).length = n := by simp [padTo]

theorem padTo_eq_self {n : Nat} {l : List Byte} (h : l.length = n) : padTo n l = l := by
  subst h
  refine List.ext_getElem (by simp) fun i h1 h2 => ?_
  simp [padTo, h2]

theorem shaRound_length (v : List (BitVec 64)) (kw : BitVec 64 × BitVec 64) : (shaRound v kw).length = v.length := by
  unfold shaRound; split <;> rfl

theorem shaRounds_length (l : List (BitVec 64 × BitVec 64)) (v : List (BitVec 64)) : (l.foldl shaRound v).length = v.length := by
  induction l generalizing v with
  | nil => rfl
  | cons kw l ih => rw [List.foldl_cons, ih, shaRound_length]

theorem shaBlock_length (h : List (BitVec 64)) (b : List Byte) : (shaBlock h b).length = h.length := by
  simp [shaBlock, shaRounds_length]

theorem shaBlocks_length (l : List (List Byte)) (h : List (BitVec 64)) : (l.foldl shaBlock h).length = h.length := by
  induction l generalizing h with
  | nil => rfl
  | cons b l ih => rw [List.foldl_cons, ih, shaBlock_length]

theorem sha2_length (init : List (BitVec 64)) (m : List Byte) : (sha2 init m).length = 8 * init.length := by
  have h (l : List (BitVec 64)) : (l.flatMap fun w => beBytes 8 w.toNat).length = 8 * l.length := by
    induction l with
    | nil => rfl
    | cons w l ih => simp [ih]; omega
  simp only [sha2, h, shaBlocks_length]

theorem sha384Init_length : sha384Init.length = 8 := by
  have h : ((primes 16).drop 8).length = 8 := by decide +kernel
  simpa [sha384Init] using h

@[simp] theorem sha384_length (m : List Byte) : (sha384 m).length = 48 := by
  simp [sha384, sha2_length, sha384Init_length]

@[simp] theorem ed25519Sign_length (sk m : List Byte) : (ed25519Sign sk m).length = 64 := by
  simp [ed25519Sign, edEncode]

/-! ### The attestation report (Table 17.7) -/

/-- What the report says before its signatures. -/
def Dev.reportHead (d : Dev) : List Byte :=
  let cfg := Signed.of d.flashCfg
  leBytes 4 0x52415856 ++ leBytes 4 3629 ++ padTo 32 d.attNonce ++ leBytes 16 (Config.recordSerial cfg.body).toNat
    ++ sha384 d.flashFw ++ sha384 (Config.recordBytes d.flashCfg d.mapCores d.mapSlices d.mapPorts) ++ leBytes 4 d.fwsvn ++ leBytes 4 cfg.svn
    ++ leBytes 16 0x0FFFFFFF ++ leBytes 8 d.attHealth.toNat ++ leBytes 8 d.attTime.toNat ++ leBytes 8 (d.reports + 1) ++ leBytes 56 0

theorem Dev.makeReport_eq (d : Dev) (rnd : List Byte) :
    d.makeReport rnd = d.reportHead ++ ed25519Sign d.identity.edPriv d.reportHead ++ padTo 3309 (MlDsa.sign d.identity.mlPriv d.reportHead rnd) := rfl

theorem Dev.reportHead_length (d : Dev) : d.reportHead.length = 256 := by simp [Dev.reportHead]

theorem Dev.reportHead_nonce (d : Dev) : (d.reportHead.drop 8).take 32 = padTo 32 d.attNonce := by
  simp only [Dev.reportHead, List.append_assoc]
  rw [← List.append_assoc (leBytes 4 _) (leBytes 4 _), List.drop_left' (by simp), List.take_left' (by simp)]

/-- The report's parts: 256 bytes, the signature over them under each identity key, and the nonce in its place. -/
theorem Dev.makeReport_parts (d : Dev) (rnd : List Byte) :
    (d.makeReport rnd).length = 3629 ∧ (d.makeReport rnd).take 256 = d.reportHead
      ∧ ((d.makeReport rnd).drop 256).take 64 = ed25519Sign d.identity.edPriv d.reportHead
      ∧ (d.makeReport rnd).drop 320 = padTo 3309 (MlDsa.sign d.identity.mlPriv d.reportHead rnd)
      ∧ ((d.makeReport rnd).drop 8).take 32 = padTo 32 d.attNonce := by
  have hl := d.reportHead_length
  rw [Dev.makeReport_eq]
  generalize MlDsa.sign d.identity.mlPriv d.reportHead rnd = ml
  have hn := d.reportHead_nonce
  have he := ed25519Sign_length d.identity.edPriv d.reportHead
  generalize ed25519Sign d.identity.edPriv d.reportHead = ed at he
  generalize d.reportHead = m at hl hn
  refine ⟨by simp [hl, he], ?_, ?_, ?_, ?_⟩
  · rw [List.append_assoc, List.take_left' hl]
  · rw [List.append_assoc, List.drop_left' hl, List.take_left' he]
  · exact List.drop_left' (by simp [hl, he])
  · rw [List.append_assoc, List.drop_append_of_le_length (by omega), List.take_append_of_le_length (by simp [hl]), hn]

/-- ATTEST_COMPLETE: a report under way is made, counted and announced. -/
theorem attestComplete_busy {s : State} (h : s.dev.attBusy = true) :
    ∃ p o rnd, rnd.length = 32 ∧ exec .attestComplete s = .next { s with
      freeIx := s.freeIx + 32, out := o
      dev := { s.dev with report := s.dev.makeReport rnd, reports := s.dev.reports + 1, attBusy := false, pba := p } } := by
  obtain ⟨p, o, e⟩ := State.sendMsix_eq ((s.freeBytes 32).1.editDev fun d =>
    { d with report := d.makeReport (s.freeBytes 32).2, reports := d.reports + 1, attBusy := false }) s.dev.attVec
  refine ⟨p, o, (s.freeBytes 32).2, by simp [State.freeBytes, span], ?_⟩
  rw [exec_attestComplete, execAttestComplete, if_pos h]
  exact congrArg Host.Outcome.next e

/-- ATTEST_GO of an idle block takes the nonce, DEV_HEALTH and %time. -/
theorem attestGo_idle {s : State} (h : s.dev.attBusy = false) : exec .attestGo s = .next { s with dev := { s.dev with
    attBusy := true, attNonce := (List.range 32).map fun i => Map.lookD s.dev.nonce i 0#8, attHealth := BitVec.ofNat 64 s.dev.health, attTime := s.time } } := by
  simp [exec_attestGo, execAttestGo, State.editDev, h, span]

theorem attestGo_busy {s : State} (h : s.dev.attBusy = true) : exec .attestGo s = .next { s with dev := { s.dev with attErr := true } } := by
  simp only [exec_attestGo, execAttestGo, State.editDev, h, if_true]

/-! ### Boot stages -/

/-- Stage 1 with an accepted configuration record. -/
theorem bootStage1_accepted {s : State} (ok : Bool) (hs : s.dev.stage = 1) (h0 : flashErrc s.dev.flashCfg 1 s.dev.cfgFloor = 0) :
    ∃ p o, exec (.bootStageComplete ok) s = .next { s with dev := { s.dev.loadRecord with pba := p }, out := o } := by
  obtain ⟨p, o, e⟩ := State.raiseErr_eq s Dev.loadRecord
  refine ⟨p, o, ?_⟩
  rw [exec_bootStageComplete, ← e]
  simp only [execBootStageComplete, hs, h0, if_pos]

theorem bootStage0 {s : State} (ok : Bool) (hs : s.dev.stage = 0) :
    exec (.bootStageComplete ok) s = .next { s with dev := { s.dev with stage := 1 } } := by
  simp only [exec_bootStageComplete, execBootStageComplete, hs]; rfl

theorem bootStage1_refused {s : State} (ok : Bool) (hs : s.dev.stage = 1) (h : flashErrc s.dev.flashCfg 1 s.dev.cfgFloor ≠ 0) :
    exec (.bootStageComplete ok) s = .next { s with dev := s.dev.recover (flashErrc s.dev.flashCfg 1 s.dev.cfgFloor) } := by
  simp only [exec_bootStageComplete, execBootStageComplete, hs, if_neg h]; rfl

theorem bootStage2 {s : State} (ok : Bool) (hs : s.dev.stage = 2) :
    exec (.bootStageComplete ok) s = .next { s with dev :=
      (if flashErrc s.dev.flashFw 2 (s.dev.floor 2) = 0 then { s.dev with stage := 3, fwsvn := (Signed.of s.dev.flashFw).svn }
        else s.dev.recover (flashErrc s.dev.flashFw 2 (s.dev.floor 2))) } := by
  simp only [exec_bootStageComplete, execBootStageComplete, hs]; rfl

/-- Memory trains, or the device goes into recovery. -/
theorem bootStage3 {s : State} (ok : Bool) (hs : s.dev.stage = 3) :
    exec (.bootStageComplete ok) s = .next (
      if ok then { s with mem := [], tags := [], tagBy := [], poison := [], memMap := installedMemory, dev := { s.dev with stage := 4 } }
      else { s with dev := s.dev.recover 5 }) := by
  simp only [exec_bootStageComplete, execBootStageComplete, hs]; rfl

/-- Stage 4 and recovery are no stages that end. -/
theorem bootStage_over {s : State} (ok : Bool) (hs : s.dev.stage = 4 ∨ s.dev.stage = 15) : exec (.bootStageComplete ok) s = .next s := by
  rcases hs with hs | hs <;> simp only [exec_bootStageComplete, execBootStageComplete, hs]

/-- What stage 1 takes from the record. -/
theorem Dev.loadRecord_eq (d : Dev) : ∃ a b, d.loadRecord = { d with
      stage := 2, identity := identityOf d.record, retCores := d.mapCores, retSlices := d.mapSlices, retPorts := d.mapPorts
      offSlices := d.mapSlices, errReplace := a, healthReplace := b }
    ∧ (3 < d.mapPorts.length → a = true ∧ b = true) := by
  let e : Dev := { d with
    stage := 2, identity := identityOf d.record, retCores := d.mapCores, retSlices := d.mapSlices, retPorts := d.mapPorts, offSlices := d.mapSlices }
  by_cases h : 3 < d.mapPorts.length
  · exact ⟨true, true, Dev.judge_of_ports (d := e) h, fun _ => ⟨rfl, rfl⟩⟩
  · obtain ⟨a, b, h2⟩ := Dev.judge_eq e
    exact ⟨a, b, h2, fun h3 => absurd h3 h⟩

/-! ### Recovery -/

/-- The staged bytes up to the length of an image they hold are that image. -/
theorem stagedImage_eq {m : Map Byte} {img : List Byte} (h : ∀ i, i < img.length → img.getD i 0#8 = Map.lookD m i 0#8) :
    ((span 0 img.length).map fun i => Map.lookD m i 0#8) = img := by
  refine List.ext_getElem (by simp [span]) fun i h1 h2 => ?_
  have := h i h2
  simp [span, ← this, h2]

/-- LEN of an image as it stands in the staging buffer. -/
theorem Signed.len_of_staged {m : Map Byte} {img : List Byte} (h : ∀ i, i < img.length → img.getD i 0#8 = Map.lookD m i 0#8)
    (hl : 12 ≤ img.length) : (Signed.of img).len = leNat ((List.range 4).map fun i => Map.lookD m (8 + i) 0#8) := by
  have e : (img.drop 8).take 4 = (List.range 4).map fun i => Map.lookD m (8 + i) 0#8 := by
    refine List.ext_getElem (by simp; omega) fun i h1 h2 => ?_
    have hi : i < 4 := by simpa using h2
    have := h (8 + i) (by omega)
    rw [List.getElem_take, List.getElem_drop]
    simp [← this, show 8 + i < img.length by omega]
  exact congrArg leNat e

/-- COMMIT of a staged image: verified as what it says it is, it goes to flash and the device resets, or it leaves its error code. -/
theorem bootCommit_staged {s : State} {img : List Byte} {kind : Nat} (hs : s.dev.stage = 15)
    (hb : ∀ i, i < img.length → img.getD i 0#8 = Map.lookD s.dev.staging i 0#8)
    (hn : img.length = 0x1530 + leNat ((List.range 4).map fun i => Map.lookD s.dev.staging (8 + i) 0#8))
    (hk : kind = 1 ∨ kind = 2) (hi : (Signed.of img).kind = kind) :
    exec .bootCommit s = .next (
      if (Signed.of img).errc kind (s.dev.floor kind) stagingSize = 0 then (s.editDev fun d => d.install img (Signed.of img)).powerOn
      else s.editDev fun d => { d with errc := (Signed.of img).errc kind (s.dev.floor kind) stagingSize }) := by
  have hlen := Signed.len_of_staged hb (by omega)
  have himg := stagedImage_eq hb
  have hspan : ((span 8 4).map fun i => Map.lookD s.dev.staging i 0#8) = (List.range 4).map fun i => Map.lookD s.dev.staging (8 + i) 0#8 := by
    rw [span, List.map_map]; rfl
  have hsize : (Signed.of img).size = img.length := by rw [Signed.size, hlen, hn]
  have hkind : (if (Signed.of img).kind = 1 then 1 else 2) = kind := by rcases hk with rfl | rfl <;> simp [hi]
  rw [exec_bootCommit, execBootCommit, if_neg (by simp [hs])]
  simp only [hspan, ← hn, himg, hsize, hkind]

/-! ### Power -/

/-- Recovery of the clock from k steps below 1,400 MHz. -/
theorem throttleRecovery_below {s : State} {k : Nat} (h : s.dev.clk + 100 * k = 1400) (hk : 0 < k) :
    ∃ j, 0 < j ∧ j ≤ k ∧ exec .throttleRecovery s = .next { s with
      freeIx := s.freeIx + 1
      dev := { s.dev with
        clk := s.dev.clk + 100 * j, therm := s.dev.therm && decide (s.dev.clk + 100 * j < 1400)
        plim := s.dev.plim && decide (s.dev.clk + 100 * j < 1400) } } := by
  have hleft : (1400 - s.dev.clk) / 100 = k := by omega
  have hj := Nat.mod_lt (Config.freeNat s.freeIx) hk
  refine ⟨1 + Config.freeNat s.freeIx % k, by omega, by omega, ?_⟩
  rw [exec_throttleRecovery]
  simp only [execThrottleRecovery, hleft, if_neg (show ¬ k = 0 by omega), show max k 1 = k by omega]
  rfl

/-- A halted device answers no event but power-off and power-on reset. -/
theorem step_halted {s : State} {i : Instr} (h : s.dev.halted = true) (hs : s.sched = [.event i]) (h1 : i ≠ .powerOff) (h2 : i ≠ .powerOnReset) :
    step s = .next { s with sched := [] } := by
  have hw : wakesHalted i = false := by
    unfold wakesHalted
    split
    · exact absurd rfl h1
    · exact absurd rfl h2
    · rfl
  simp [step, State.nextMove, hs, moveStep, eventStep, State.mayHappen, h, hw]

theorem throttleRecovery_full {s : State} (h : 1400 ≤ s.dev.clk) : exec .throttleRecovery s = .next s := by
  simp only [exec_throttleRecovery, execThrottleRecovery, if_pos (show (1400 - s.dev.clk) / 100 = 0 by omega)]

/-! ### The statement -/

/-- Settles O51: each event by its own meaning. -/
theorem bootPowerAttestation : Obligations.BootPowerAttestation := by
  unfold Obligations.BootPowerAttestation
  intro s
  refine ⟨⟨s.powerOn, rfl, rfl, rfl, rfl⟩, fun ok => ?stages, fun h => congrArg Host.Outcome.next (if_pos h), ?commit, attestGo_busy,
    fun h => ⟨?idle, attestGo_idle h⟩, fun h => ?report, fun _ => rfl, throttleRecovery_full, fun k h hk => ?clock, rfl,
    fun i h hs h1 h2 => step_halted h hs h1 h2⟩
  case stages =>
    refine ⟨bootStage0 ok, fun h body hb e he => ⟨fun hne => ?_, fun h0 => ?_⟩, fun h e he => ?_, fun h hok => ?_, fun h hok => ?_, bootStage_over ok⟩
    · subst he; exact bootStage1_refused ok h hne
    · subst hb
      obtain ⟨p, o, ht⟩ := bootStage1_accepted ok h (he ▸ h0)
      obtain ⟨a, b, hl, hports⟩ := s.dev.loadRecord_eq
      rw [hl] at ht
      exact ⟨_, ht, rfl, rfl, rfl, rfl, rfl, rfl, rfl, rfl, rfl, rfl, hports⟩
    · subst he; exact bootStage2 ok h
    · subst hok; exact bootStage3 false h
    · subst hok; exact ⟨_, bootStage3 true h, rfl, rfl, fun _ => rfl⟩
  case commit =>
    intro n len kind img hs hb hn hlen hl hk hi
    subst hn hl
    have ht := bootCommit_staged hs hb hlen hk hi
    refine ⟨fun hne => ht.trans (congrArg _ (if_neg hne)), fun h0 => ⟨_, ht.trans (congrArg _ (if_pos h0)), rfl, fun h1 => ?_, fun h2 => ?_⟩⟩
    · subst h1; simp [State.powerOn, State.editDev, Dev.install, hi, Dev.floor, Dev.record]
    · subst h2; simp [State.powerOn, State.editDev, Dev.install, hi]
  case idle => rw [exec_attestComplete, execAttestComplete, if_neg (by simp [h])]
  case report =>
    obtain ⟨p, o, rnd, hr, ht⟩ := attestComplete_busy h
    obtain ⟨hlen, hhead, hed, hml, hn⟩ := s.dev.makeReport_parts rnd
    refine ⟨_, ht, rfl, rfl, rfl, hlen, ?_, ⟨rnd, hr, ?_⟩, fun h32 => hn.trans (padTo_eq_self h32)⟩
    · rw [hhead]; exact hed
    · rw [hhead]; exact hml
  case clock =>
    obtain ⟨j, hj0, hj, ht⟩ := throttleRecovery_below h hk
    refine ⟨_, ht, rfl, ?_, ?_, ?_, ?_⟩ <;> dsimp only
    · omega
    · omega
    · intro h14; simp [h14]
    · intro hlt; simp [hlt]

end Sys2Proof.Machine
end

section
/-! SUPPORT. Admission of a taken gang (11 R332 to R339), and a state in which it reads another descriptor than it was admitted under. -/
namespace Sys2Proof.Machine

/-- The only candidate of its turn is admitted as `admitNew` has it, where no write of that waits. -/
theorem gangAdmission_taken {s : State} {n : Nat} {l : Launch} {d : QDesc} {place : List Placement} (hl : Map.look s.launches n = some l)
    (ha : s.admitsLaunch l = true) (hc : s.isCandidate n l = true) (hh : s.heldBack n l = false) (ho : s.outranked n l = false)
    (ht : l.st = .taken) (hd : s.qdesc l.queue = some d) (hs : (s.admitNew n l d place).stalled = false) :
    exec (.gangAdmission n place) s = .next (s.admitNew n l d place) := by
  have e : exec (.gangAdmission n place) s = execGangAdmission n place s := rfl
  rw [e]
  simp only [execGangAdmission, whole, hl, ha, hc, hh, ho, ht, hd, hs, Bool.not_true, Bool.or_self, Bool.false_eq_true, if_false]

/-- A gang that has been placed, before HEAD passes its packet: what `admitNew` does but for that. -/
def State.placed (s : State) (n : Nat) (l : Launch) (place : List Placement) (imgs : List Nat) : State :=
  let cores := place.map (·.core)
  let s := s.enterAll l.ctx cores
  let c := max l.cluster 1
  let hold := l.start ≠ 0 && decide (s.time.toNat < l.start.toNat)
  let units : List (Nat × KUnit) := (List.range l.units).map fun i =>
    let mates := (List.range (min c (l.units - i / c * c))).map fun r => (r, s.nextUnit + i / c * c + r)
    (s.nextUnit + i, KUnit.fresh n l i (place.getD i ⟨0, []⟩) mates (imgs.getD i 0) hold)
  (State.arrive { s with
    freeIx := s.freeIx + l.units, units := units.foldl (fun (m : Map KUnit) (p : Nat × KUnit) => Map.put m p.1 p.2) s.units, nextUnit := s.nextUnit + l.units
    launches := Map.put s.launches n { l with st := .resident, admitted := true, admitTime := s.time, blocking := false } } cores).stamp l

/-- A placement that holds is carried out, and HEAD passes the packet. -/
theorem State.admitNew_eq {s : State} {n : Nat} {l : Launch} {d : QDesc} {place : List Placement} {imgs : List Nat}
    (himg : imagePlaces d (imageSize l.acc l.scratch l.regs l.warps) s.freeIx l.units (s.images l.queue) = some imgs)
    (hlen : place.length = l.units) (hslots : ∀ p ∈ place, p.slots.length = l.warps)
    (hfit : s.fits l.ctx (place.map fun p => l.share p.core p.slots l.warps) = true)
    (hclu : clustersOf l.cluster ((List.range place.length).map fun i => (i, (place.getD i ⟨0, []⟩).core)) = true) :
    s.admitNew n l d place = (s.placed n l place imgs).pass l.queue := by
  have hany : place.any (fun p => p.slots.length ≠ l.warps) = false := by
    rw [List.any_eq_false]
    exact fun p hp => by simp [hslots p hp]
  unfold State.admitNew
  rw [himg]
  exact if_neg (by rw [hany, hfit, hclu]; simp [hlen])

/-- HEAD moves on by one in the ring of the descriptor as it then reads. -/
theorem State.pass_head {s : State} {q : Nat} {d : QDesc} (h : s.qdesc q = some d) :
    ((s.pass q).queue q).head = ((s.queue q).head + 1) % 2 ^ d.log2n := by
  have hput (t : State) (g : Queue → Queue) : (t.editQueue q g).queue q = g (t.queue q) := by simp [State.editQueue, State.queue, Map.lookD_put]
  have hslot (t : State) (n : Nat) (g : QSlot → QSlot) : (t.editSlot (queueDie q) n g).queue q = t.queue q := rfl
  have hunmap (t : State) : (t.unmap q).queue q = t.queue q := rfl
  unfold State.pass
  simp only [h]
  split <;> split_ifs <;> simp only [hunmap, hslot, hput]

/-- Passing a packet writes no memory, so nothing waits. -/
theorem State.pass_stalled (s : State) (q : Nat) : (s.pass q).stalled = s.stalled := by
  unfold State.pass
  split
  · rfl
  · dsimp only
    split <;> split <;> rfl

/-- A pool with room for one image has one place for it. -/
theorem imagePlace_only {d : QDesc} {size : Nat} (h : d.savelen = size) (pick : Nat) : imagePlace d [] size pick = some d.save := by
  unfold imagePlace
  dsimp only
  split_ifs with hf
  · simp only [List.any_nil, Bool.not_false, Bool.and_true, decide_eq_true_eq] at hf
    exact congrArg some (by omega)
  · simp [h]

theorem imagePlaces_only {d : QDesc} {size : Nat} (h : d.savelen = size) (ix : Nat) : imagePlaces d size ix 1 [] = some [d.save] := by
  simp [imagePlaces, imagePlace_only h]

/-! ### A list of cores out of order

Cores 1 and 0 each hold a partial of the word of the queue's descriptor that has LOG2N. The partials combine in the order of the list (R180): core 1
adds 1, then core 0 sets the word to LOG2N 4. Admission to core 0 puts that core, changed, before core 1, and from then on the word reads as LOG2N 5. -/

/-- A partial of the word at 0x1008. -/
def descPartial (op : RmwOp) (val : Word64) : CoreSt :=
  { CoreSt.reset with reds := [{ sector := 0x1008 / 64, vals := [(0x1008 / 4, { op := op, size := 4, val := val })] }] }

/-- The launch that the queue's slot has taken: one unit of one warp. -/
def takenLaunch : Launch := { placeLaunch with st := .taken }

/-- The descriptor of the queue before the admission: a ring of 16, and a pool for one image. -/
def ringOf16 : QDesc :=
  { ring := 0, log2n := 4, prio := 0, ctx := 1, hostw := false, devw := false, sys := false, irqen := false, slice := 10, parklim := 1, runlim := 0, msix := 0
    argroot := 0, save := 0, savelen := 0xEB000 }

/-- Queue 0 with HEAD at 15, its descriptor at 0x1000, and the two cores out of order. -/
def unsortedCores : State :=
  { State.reset with
    mem := [(0x1008, 4), (0x100A, 1), (0x100C, 1), (0x1010, 10), (0x1014, 1), (0x1039, 0xB0), (0x103A, 0x0E)]
    memMap := [{ base := 0, size := 0x2000, die := 0 }], cores := [(1, descPartial .addN 1), (0, descPartial .exch 0x10004)]
    launches := [(0, takenLaunch)], nextLaunch := 1, queues := [(0, { Queue.idle with head := 15 })]
    dies := [(0, { Die.reset with qtab := 0x1000, qsEn := true, slots := [(0, { queue := 0, since := 0, taken := some 0 })] })] }

/-- The unit goes to slot 0 of core 0. -/
def core0 : Placement := ⟨0, [0]⟩

/-- The launch is the only candidate, and its descriptor is valid. -/
theorem unsortedCores_candidate :
    Map.look unsortedCores.launches 0 = some takenLaunch ∧ unsortedCores.stalled = false ∧ unsortedCores.isCandidate 0 takenLaunch = true
      ∧ unsortedCores.heldBack 0 takenLaunch = false ∧ unsortedCores.outranked 0 takenLaunch = false ∧ unsortedCores.dev.quiesced = false
      ∧ unsortedCores.admitsLaunch takenLaunch = true ∧ unsortedCores.qdesc 0 = some ringOf16 := by
  decide +kernel

/-- Its placement holds. -/
theorem unsortedCores_fits :
    unsortedCores.fits 1 ([core0].map fun p => { core := p.core, slots := p.slots, regs := 512, acc := 1024, scratch := 4096, stream := false, frags := 1 }) = true
      ∧ clustersOf 1 ((List.range 1).map fun i => (i, ([core0].getD i ⟨0, []⟩).core)) = true ∧ ∀ p ∈ [core0], p.slots.length = 1 := by
  decide +kernel

theorem unsortedCores_marks (j : Nat) : (unsortedCores.core j).marks = [] := by
  simp only [State.core, unsortedCores, Map.lookD, Map.look]
  split_ifs <;> rfl

/-- No image stands in the pool, whose length is that of the unit's image. -/
theorem unsortedCores_pool : unsortedCores.images takenLaunch.queue = []
    ∧ ringOf16.savelen = imageSize takenLaunch.acc takenLaunch.scratch takenLaunch.regs takenLaunch.warps := by
  decide +kernel

theorem unsortedCores_image :
    imagePlaces ringOf16 (imageSize takenLaunch.acc takenLaunch.scratch takenLaunch.regs takenLaunch.warps) unsortedCores.freeIx takenLaunch.units
      (unsortedCores.images takenLaunch.queue) = some [ringOf16.save] := by
  obtain ⟨hused, hlen⟩ := unsortedCores_pool
  rw [hused]
  exact imagePlaces_only hlen _

/-- Once the gang is placed, the descriptor reads as that of a ring of 32. -/
theorem unsortedCores_placed :
    (unsortedCores.placed 0 takenLaunch [core0] [ringOf16.save]).qdesc 0 = some { ringOf16 with log2n := 5 }
      ∧ ((unsortedCores.placed 0 takenLaunch [core0] [ringOf16.save]).queue 0).head = 15
      ∧ (unsortedCores.placed 0 takenLaunch [core0] [ringOf16.save]).stalled = false := by
  decide +kernel

/-- So the admission moves HEAD to 16. -/
theorem unsortedCores_admitted : ∃ t, exec (.gangAdmission 0 [core0]) unsortedCores = .next t ∧ (t.queue 0).head = 16 := by
  obtain ⟨hl, -, hc, hh, ho, -, ha, hd⟩ := unsortedCores_candidate
  obtain ⟨hfit, hclu, hslots⟩ := unsortedCores_fits
  obtain ⟨hdesc, hhead, hrun⟩ := unsortedCores_placed
  have hadmit := State.admitNew_eq (n := 0) unsortedCores_image rfl hslots hfit hclu
  refine ⟨_, gangAdmission_taken hl ha hc hh ho rfl hd (by rw [hadmit, State.pass_stalled, hrun]), ?_⟩
  rw [hadmit]
  exact (State.pass_head hdesc).trans (by rw [hhead]; rfl)

/-- Refutes O43: no premise puts the list of cores in key order. In `unsortedCores` the admission changes the order in which partials of the queue's
descriptor combine, so that HEAD moves from 15 to 16, where the ring of 16 entries that the gang was admitted under has it at 0. -/
theorem not_gangsAdmitted : ¬ Obligations.GangsAdmitted := by
  unfold Obligations.GangsAdmitted
  intro h
  obtain ⟨hl, hst, hc, hh, ho, hq, -, hd⟩ := unsortedCores_candidate
  obtain ⟨hfit, hclu, hslots⟩ := unsortedCores_fits
  obtain ⟨t', ht', h16⟩ := unsortedCores_admitted
  obtain ⟨t, ht, -, -, -, h0, -⟩ := ((h unsortedCores takenLaunch hst).1 0 ringOf16 [core0] hl hc hh ho hq).1 rfl unsortedCores_marks hd rfl hslots
    (by rw [unsortedCores_image]; rfl) hfit hclu
  obtain rfl : t' = t := by injection ht'.symm.trans ht
  exact absurd (h16.symm.trans h0) (by decide)

end Sys2Proof.Machine
end

section
/-! SUPPORT. The end of a context whose unit shares its number with another unit (00 R8, 11 R342). -/
namespace Sys2Proof.Machine

/-- A unit without warps of launch 1, of context 1, and one of launch 2, of context 2, both listed as unit 0. -/
def doubledUnit : State :=
  { State.reset with
    units := [(0, { placeUnit 1 with warps := [] }), (0, { placeUnit 2 with warps := [] })]
    launches := [(1, placeLaunch), (2, { placeLaunch with ctx := 2 })] }

/-- Freeing context 2 takes unit 0 away. -/
theorem doubledUnit_freed : ∃ t, exec (.contextIdFree 2) doubledUnit = .next t ∧ t.unit? 0 = none :=
  ⟨_, rfl, by decide +kernel⟩

/-- No line of a state without migration and without a solitary thread is busy. -/
theorem doubledUnit_quiet (a : Nat) : doubledUnit.lineBusy none a true = false := by
  simp [State.lineBusy, State.migLocked, State.soloLocked, State.commitLocked, doubledUnit, State.reset, placeUnit]

/-- Refutes O45: no premise puts the list of units in key order. In `doubledUnit` unit 0 is a unit of context 1, and a second entry under the same
number is one of context 2; the end of context 2 removes both. -/
theorem not_unitsEndAndContextsFree : ¬ Obligations.UnitsEndAndContextsFree := by
  unfold Obligations.UnitsEndAndContextsFree
  intro h
  obtain ⟨t, ht, -, hunits, -⟩ := (h doubledUnit rfl doubledUnit_quiet).2.2 2 rfl rfl
  obtain ⟨t', ht', hnone⟩ := doubledUnit_freed
  rw [ht'] at ht
  injection ht with ht
  subst ht
  have hkept := (hunits 0 _ _ rfl rfl).2 (by decide) (by simp [doubledUnit, State.reset])
  exact absurd (hnone.symm.trans hkept) nofun

end Sys2Proof.Machine
end

section
/-! SUPPORT. SRD and SWR: what each special register reads as and how it is written (01 R33 to R37, 03 R91, 05 R148). -/
namespace Sys2Proof.Machine

theorem exec_srd (d : Reg) (n : BitVec 16) (s : State) : exec (.srd d n) s = execSrd d n s := rfl
theorem exec_swr (a : Reg) (n : BitVec 16) (s : State) : exec (.swr a n) s = execSwr a n s := rfl

/-! ### What a word that touches %fflags or %mxexc waits for -/

/-- No commit of a mask's threads is in flight where none of a wider one's is. -/
theorem KUnit.tendBusy_mono {un : KUnit} {w : Nat} {m : Mask} (h : un.tendBusy w m = false) (k : Mask) : un.tendBusy w (m &&& k) = false := by
  unfold KUnit.tendBusy at h ⊢
  rw [List.any_eq_false] at h ⊢
  intro o ho hk
  refine h o ho ?_
  simp only [Bool.and_eq_true, decide_eq_true_eq] at hk ⊢
  obtain ⟨⟨hw, hm⟩, hkind⟩ := hk
  refine ⟨⟨hw, fun e => hm ?_⟩, hkind⟩
  rw [← BitVec.and_assoc, e, BitVec.zero_and]

/-- No engine operation works on the rows of a mask's threads where none does on those of a wider one's. -/
theorem KUnit.rowsBusy_mono {un : KUnit} {win : Nat} {m : Mask} (h : un.rowsBusy win m = false) (k : Mask) :
    un.rowsBusy win (m &&& k) = false := by
  unfold KUnit.rowsBusy at h ⊢
  rw [List.any_eq_false] at h ⊢
  intro o ho hk
  refine h o ho ?_
  cases hkind : o.kind <;> simp only [hkind, Bool.and_eq_true, Bool.and_false, Bool.false_eq_true, decide_eq_true_eq] at hk ⊢
  obtain ⟨hdone, hwin, hm⟩ := hk
  refine ⟨hdone, hwin, fun e => hm ?_⟩
  rw [← BitVec.and_assoc, e, BitVec.zero_and]

/-- A special register is ready: %fflags with no commit of the active threads in flight, %mxexc with no engine operation on their rows besides. -/
def Ctx.freeToTouch (c : Ctx) (n : Nat) : Prop :=
  (n = 10 ∨ n = 11 → c.tendPending = false) ∧ (n = 11 → 32 * c.fr.accwin + 32 ≤ c.l.acc ∧ c.u.rowsBusy c.fr.accwin c.act = false)

theorem Ctx.ready_flagNeeds {c : Ctx} {n : Nat} (h : c.freeToTouch n) (s : State) : s.ready c (c.flagNeeds n) = true := by
  obtain ⟨ht, hr⟩ := h
  unfold Ctx.flagNeeds
  split_ifs with h11 h10
  · have htend := KUnit.tendBusy_mono (ht (.inr h11)) c.fr.mask
    have hrows := KUnit.rowsBusy_mono (hr h11).2 c.fr.mask
    simp [State.ready, Need.met, htend, hrows]
  · have htend := KUnit.tendBusy_mono (ht (.inl h10)) c.fr.mask
    simp [State.ready, Need.met, htend]
  · rfl

theorem whenReady_ready {s : State} {c : Ctx} {l : List Need} (h : s.ready c l = true) (body : State → State) : s.whenReady c l body = body s :=
  if_pos h

/-! ### SRD -/

/-- The special registers of 64 bits (Table 1.5). -/
def srdPair (n : Nat) : Bool := n = 6 || n = 7 || n = 8

/-- What an active thread writes as it reads a special register. -/
def srdOut (s : State) (c : Ctx) (d : Reg) (n t : Nat) : Out :=
  match c.special s n t with
  | some (v, true) => .ofRegs (c.wrP d v)
  | some (v, false) => .ofRegs (c.wr d (v.setWidth 32))
  | none => .ofRegs []

/-- With no active thread a word writes nothing. -/
theorem WarpEffect.none_active (w : Warp) (out : Nat → Out) : WarpEffect w w (Delta.of 0#32 out) :=
  WarpEffect.refl _ _ (by simp [Delta.of]) (by simp [Delta.of]) (by simp [Delta.of]) (by simp [Delta.of])

/-- SRD of a register that there is, at an even vd where it has 64 bits, writes its value in each active thread. -/
theorem srd_writes {s : State} {c : Ctx} {d : Reg} {n : BitVec 16} (hn : n.toNat ≤ 12)
    (h : Ready s c [⟨d.toNat, if srdPair n.toNat then 2 else 1, 1⟩] []) (hpair : srdPair n.toNat = true → d.toNat % 2 = 0)
    (hfree : c.freeToTouch n.toNat) : Writes (.srd d n) s c 1 (srdOut s c d n.toNat) := by
  have hrun (P : State → Prop) := exec_ready (P := P) h (execSrd d n) (exec_srd d n s) rfl
  by_cases h0 : c.act = 0#32
  · obtain ⟨t, ht, hp⟩ := hrun (fun t => Retired s t c 1 c.w) (by simpa only [if_pos h0] using retired_self h.1 1 _ 1)
    exact ⟨t, c.w, ht, h0 ▸ WarpEffect.none_active _ _, hp⟩
  · have heff := Warp.putOuts_effect c.w (c.fullTag (srdTag n.toNat)) c.act (srdOut s c d n.toNat)
    have hfrags : (c.w.putOuts (c.fullTag (srdTag n.toNat)) c.act (srdOut s c d n.toNat)).frags = c.w.frags := by rw [heff.rest]
    have hok : ¬ (decide (12 < n.toNat) || (srdPair n.toNat && decide (d.toNat % 2 ≠ 0))) = true := by
      simpa [show ¬ 12 < n.toNat by omega] using hpair
    have hacc : ¬ (decide (n.toNat = 11) && !c.accOk) = true := by
      simpa [Ctx.accOk] using fun e => (hfree.2 e).1
    obtain ⟨t, ht, hp⟩ := hrun (fun t => Retired s t c 1 (c.w.putOuts (c.fullTag (srdTag n.toNat)) c.act (srdOut s c d n.toNat))) (by
      dsimp only
      split_ifs with hbad
      · exact absurd hbad hok
      · rw [whenReady_ready (Ctx.ready_flagNeeds hfree s)]
        exact retired_edit h.1 _ rfl hfrags _ _ _)
    exact ⟨t, _, ht, heff, hp⟩

/-- SRD faults, where every thread of the fragment is active. -/
theorem srd_faults {s : State} {c : Ctx} {d : Reg} {n : BitVec 16} (h : Ready s c [⟨d.toNat, 1, 1⟩] []) (hpair : srdPair n.toNat = false)
    (ha : c.act = c.fr.mask) (h0 : c.fr.mask ≠ 0#32) (hs : NotSolitary s c) {cause : Nat}
    (hc : (12 < n.toNat ∧ cause = 0x05) ∨ (n.toNat = 11 ∧ c.accOk = false ∧ cause = 0x06)) :
    ∃ t, exec (.srd d n) s = .next t ∧ FaultsWhole s t c cause 0 0 true := by
  have h1 : Ready s c [⟨d.toNat, if srdPair n.toNat then 2 else 1, 1⟩] [] := by simpa [hpair] using h
  have hact : ¬ c.act = 0#32 := ha ▸ h0
  refine exec_ready h1 (execSrd d n) (exec_srd d n s) rfl ?_
  dsimp only
  rw [if_neg hact]
  rcases hc with ⟨hn, rfl⟩ | ⟨hn, hacc, rfl⟩
  · rw [if_pos (by simp [hn])]
    exact faultActive_whole h.1 hs ha h0 0x05 0
  · rw [if_neg (by simp [hn]), if_pos (by simp [hn, hacc])]
    exact faultActive_whole h.1 hs ha h0 0x06 0

/-! ### SWR -/

/-- SWR of a register that may be written, in a fragment with active threads: the write, and then the word retires. -/
theorem swr_runs {s : State} {c : Ctx} {a : Reg} {n : BitVec 16} {P : State → Prop} (h : Ready s c [⟨a.toNat, 1, 1⟩] []) (h9 : 9 ≤ n.toNat)
    (h12 : n.toNat ≤ 12) (hfree : c.freeToTouch n.toNat) (hnone : c.act = 0#32 → P (s.retire c 1 false 1))
    (hsome : c.act ≠ 0#32 → P ((s.swrPut c a n.toNat).retire c 1 false c.beats)) : ∃ t, exec (.swr a n) s = .next t ∧ P t := by
  have h1 : Ready s c [⟨a.toNat, if n.toNat = 2 then 2 else 1, 1⟩] [] := by rwa [if_neg (by omega)]
  refine exec_ready h1 (execSwr a n) (exec_swr a n s) rfl ?_
  split_ifs with h0 h2 hbad hacc
  · exact hnone h0
  · omega
  · simp at hbad; omega
  · simp only [Bool.and_eq_true, decide_eq_true_eq, Bool.not_eq_true', Ctx.accOk, decide_eq_false_iff_not] at hacc
    exact absurd (hfree.2 hacc.1).1 hacc.2
  · rw [whenReady_ready (Ctx.ready_flagNeeds hfree s)]
    exact hsome h0

/-- SWR faults, where every thread of the fragment is active. -/
theorem swr_faults {s : State} {c : Ctx} {a : Reg} {n : BitVec 16} (h : Ready s c [⟨a.toNat, 1, 1⟩] []) (h2 : n.toNat ≠ 2)
    (ha : c.act = c.fr.mask) (h0 : c.fr.mask ≠ 0#32) (hs : NotSolitary s c) {cause : Nat}
    (hc : ((n.toNat < 9 ∨ 12 < n.toNat) ∧ cause = 0x05) ∨ (n.toNat = 11 ∧ c.accOk = false ∧ cause = 0x06)) :
    ∃ t, exec (.swr a n) s = .next t ∧ FaultsWhole s t c cause 0 0 true := by
  have h1 : Ready s c [⟨a.toNat, if n.toNat = 2 then 2 else 1, 1⟩] [] := by rwa [if_neg h2]
  have hact : ¬ c.act = 0#32 := ha ▸ h0
  refine exec_ready h1 (execSwr a n) (exec_swr a n s) rfl ?_
  rw [if_neg hact, if_neg h2]
  rcases hc with ⟨hn, rfl⟩ | ⟨hn, hacc, rfl⟩
  · rw [if_pos (by simpa using hn)]
    exact faultActive_whole h.1 hs ha h0 0x05 0
  · rw [if_neg (by simp [hn]), if_pos (by simp [hn, hacc])]
    exact faultActive_whole h.1 hs ha h0 0x06 0

/-- The lowest active thread. -/
theorem Ctx.low_eq {c : Ctx} {low : Nat} (h : c.act.getLsbD low = true) (hlow : ∀ i < low, c.act.getLsbD i = false) : c.low = low := by
  have hlt : low < 32 := BitVec.lt_of_getLsbD h
  have hfind : lowest c.act = some low := by
    unfold lowest
    rw [List.find?_range_eq_some]
    exact ⟨h, by simpa using hlt, fun i hi => by simp [hlow i hi]⟩
  simp [Ctx.low, hfind]

/-- A write of some rows of a unit, one thread after another, changes those rows alone. -/
theorem KUnit.row_putRow (u : KUnit) (i j : Nat) (r : AccRow) : (u.putRow i r).row j = if j = i then r else u.row j := by
  simp only [KUnit.row, KUnit.putRow, Map.lookD_putD]

/-- The flags of a warp after a write of those of some threads. -/
theorem Warp.flags_foldl_setFlags (g : Nat → BitVec 5) (ts : List Nat) (w : Warp) (u : Nat) :
    (ts.foldl (fun w t => w.setFlags t (g t)) w).flags u = if u ∈ ts then g u else w.flags u := by
  induction ts generalizing w with
  | nil => simp
  | cons t ts ih =>
    rw [List.foldl_cons, ih, Warp.flags_setFlags]
    by_cases ht : u ∈ ts <;> by_cases e : u = t <;> simp [ht, e]

/-- Only %fflags of the warp has changed. -/
theorem Warp.foldl_setFlags_rest (g : Nat → BitVec 5) (ts : List Nat) (w : Warp) :
    ts.foldl (fun w t => w.setFlags t (g t)) w = { w with fflags := (ts.foldl (fun w t => w.setFlags t (g t)) w).fflags } := by
  induction ts generalizing w with
  | nil => rfl
  | cons t ts ih => exact ih (w.setFlags t (g t))

/-- The row at which a window's thread writes %mxexc, for the threads of a list. -/
def KUnit.putMx (u : KUnit) (base : Nat) (g : Nat → BitVec 24) (ts : List Nat) : KUnit :=
  ts.foldl (fun u t => u.putRow (base + t) { u.row (base + t) with mxexc := g t }) u

/-- Only the accumulator of the unit has changed. -/
theorem KUnit.putMx_rest (u : KUnit) (base : Nat) (g : Nat → BitVec 24) (ts : List Nat) : u.putMx base g ts = { u with acc := (u.putMx base g ts).acc } := by
  induction ts generalizing u with
  | nil => rfl
  | cons t ts ih => exact ih (u.putRow (base + t) { u.row (base + t) with mxexc := g t })

theorem KUnit.putMx_row (u : KUnit) (base : Nat) (g : Nat → BitVec 24) (ts : List Nat) (i : Nat) :
    (u.putMx base g ts).row i = if base ≤ i ∧ i - base ∈ ts then { u.row i with mxexc := g (i - base) } else u.row i := by
  induction ts generalizing u with
  | nil => simp [KUnit.putMx]
  | cons t ts ih =>
    have e : u.putMx base g (t :: ts) = (u.putRow (base + t) { u.row (base + t) with mxexc := g t }).putMx base g ts := rfl
    rw [e, ih, KUnit.row_putRow]
    by_cases hi : i = base + t
    · subst hi; simp
    · have hne : ¬ (base ≤ i ∧ i - base = t) := by omega
      by_cases hb : base ≤ i
      · have : i - base ≠ t := by omega
        simp [hi, hb, this]
      · simp [hi, hb]

/-- SWR of %fmt takes the bits that exist of the lowest active thread's value. -/
theorem swr_fmt {s : State} {c : Ctx} {a : Reg} (h : Ready s c [⟨a.toNat, 1, 1⟩] []) {low : Nat} (hact : c.act.getLsbD low = true)
    (hlow : ∀ i < low, c.act.getLsbD i = false) : ∃ t, exec (.swr a 0x09) s = .next t
      ∧ Becomes s t c c.w { c.fr.nextWord 1 with fmt := (c.rd a low).setWidth 14 &&& 0x3F1F#14 } := by
  have h0 : c.act ≠ 0#32 := fun e => by simp [e] at hact
  refine swr_runs h (by decide) (by decide) (by simp [Ctx.freeToTouch]) (fun e => absurd e h0) fun _ => ?_
  rw [← Frag.nextWord_fmt, ← Ctx.low_eq hact hlow]
  exact becomes_frag_retire h.1 _ 1 false c.beats

/-- SWR of %cbank. -/
theorem swr_cbank {s : State} {c : Ctx} {a : Reg} (h : Ready s c [⟨a.toNat, 1, 1⟩] []) {low : Nat} (hact : c.act.getLsbD low = true)
    (hlow : ∀ i < low, c.act.getLsbD i = false) : ∃ t, exec (.swr a 0x0C) s = .next t
      ∧ Retired s t c 1 { c.w with cbank := (c.rd a low).setWidth 2 } := by
  have h0 : c.act ≠ 0#32 := fun e => by simp [e] at hact
  refine swr_runs h (by decide) (by decide) (by simp [Ctx.freeToTouch]) (fun e => absurd e h0) fun _ => ?_
  rw [← Ctx.low_eq hact hlow]
  exact retired_edit h.1 _ rfl rfl 1 false c.beats

/-- SWR of %fflags writes those of each active thread. -/
theorem swr_fflags {s : State} {c : Ctx} {a : Reg} (h : Ready s c [⟨a.toNat, 1, 1⟩] []) (ht : c.tendPending = false) :
    ∃ t v, exec (.swr a 0x0A) s = .next t ∧ Retired s t c 1 v ∧ v = { c.w with fflags := v.fflags }
      ∧ ∀ u < 32, v.flags u = if c.act.getLsbD u then (c.rd a u).setWidth 5 else c.w.flags u := by
  let v : Warp := (threads c.act).foldl (fun w t => w.setFlags t ((c.rd a t).setWidth 5)) c.w
  have hrest : v = { c.w with fflags := v.fflags } := Warp.foldl_setFlags_rest _ _ _
  have hfrags : v.frags = c.w.frags := by rw [hrest]
  have hflags (u : Nat) (hu : u < 32) : v.flags u = if c.act.getLsbD u then (c.rd a u).setWidth 5 else c.w.flags u := by
    simp only [v, Warp.flags_foldl_setFlags, mem_threads, hu, true_and]
  have hnone : c.act = 0#32 → v = c.w := fun e => by simp [v, e, threads]
  obtain ⟨t, hx, hp⟩ := swr_runs (n := 0x0A) (P := fun t => Retired s t c 1 v) h (by decide) (by decide) (by simp [Ctx.freeToTouch, ht])
    (fun e => hnone e ▸ retired_self h.1 1 false 1) fun _ => retired_edit (v := v) h.1 _ rfl hfrags 1 false c.beats
  exact ⟨t, v, hx, hp, hrest, hflags⟩

/-- Retiring changes of a unit its warps alone, and moves the fragment on. -/
theorem State.retire_unit {s : State} {c : Ctx} {un : KUnit} {w : Warp} {x : Frag} (hu : s.unit? c.f.unit = some un)
    (hw : Map.look un.warps c.f.warp = some w) (hx : Map.look w.frags c.f.fidx = some x) (n : Nat) (b : Bool) (k : Nat) :
    ∃ ws, (s.retire c n b k).unit? c.f.unit = some { un with warps := ws } ∧ (s.retire c n b k).frag? c.f = some (x.nextWord n) := by
  have hun : (s.retire c n b k).unit? c.f.unit =
      some (un.editWarp c.f.warp fun w => w.editFrag c.f.fidx fun x => x.nextWord n) := by
    simp [State.retire_eq, State.editWarp, State.unit?_editUnit, hu]
  refine ⟨_, hun, ?_⟩
  simp [State.frag?, State.warp?, hun, KUnit.editWarp, Map.look_edit, hw, Warp.editFrag, hx]

/-- SWR of %mxexc writes the counters of each active thread's row of the window, and nothing else of the unit but the fragment's position. -/
theorem swr_mxexc {s : State} {c : Ctx} {a : Reg} (h : Ready s c [⟨a.toNat, 1, 1⟩] []) (ht : c.tendPending = false)
    (hacc : 32 * c.fr.accwin + 32 ≤ c.l.acc) (hrows : c.u.rowsBusy c.fr.accwin c.act = false) :
    ∃ t un, exec (.swr a 0x0B) s = .next t ∧ t.unit? c.f.unit = some un ∧ t.mem = s.mem
      ∧ (∀ u < 32, un.row (32 * c.fr.accwin + u) = { c.u.row (32 * c.fr.accwin + u) with
          mxexc := if c.act.getLsbD u then (c.rd a u).setWidth 24 else (c.u.row (32 * c.fr.accwin + u)).mxexc })
      ∧ (∀ r, r < 32 * c.fr.accwin ∨ 32 * c.fr.accwin + 32 ≤ r → un.row r = c.u.row r)
      ∧ un.scratch = c.u.scratch ∧ un.ops = c.u.ops ∧ t.frag? c.f = some (c.fr.nextWord 1) := by
  obtain ⟨-, hu, hw, -, hx⟩ := State.ctx?_some h.1
  let v : KUnit := c.u.putMx (32 * c.fr.accwin) (fun t => (c.rd a t).setWidth 24) (threads c.act)
  have hrest : v = { c.u with acc := v.acc } := KUnit.putMx_rest _ _ _ _
  have hnone : c.act = 0#32 → v = c.u := fun e => by simp [v, e, threads, KUnit.putMx]
  have hput : (s.swrPut c a 11).unit? c.f.unit = some v := by
    simp [State.swrPut, State.unit?_editUnit, hu, v, KUnit.putMx]
  have hmem : (s.swrPut c a 11).mem = s.mem := rfl
  have hwv : Map.look v.warps c.f.warp = some c.w := by rw [hrest]; exact hw
  obtain ⟨t, hrun, ht, ws, hun, hfr⟩ := swr_runs (n := 0x0B) (P := fun t => t.mem = s.mem ∧ ∃ ws, t.unit? c.f.unit = some { v with warps := ws }
      ∧ t.frag? c.f = some (c.fr.nextWord 1)) h (by decide) (by decide) (by simp [Ctx.freeToTouch, ht, hacc, hrows])
    (fun e => ⟨rfl, State.retire_unit ((hnone e).symm ▸ hu) hwv hx 1 false 1⟩) fun _ => ⟨hmem, State.retire_unit hput hwv hx 1 false c.beats⟩
  have hrow (r : Nat) : ({ v with warps := ws } : KUnit).row r = v.row r := rfl
  refine ⟨t, _, hrun, hun, ht, fun u hu32 => ?_, fun r hr => ?_, (by rw [hrest]), (by rw [hrest]), hfr⟩
  · rw [hrow, KUnit.putMx_row]
    simp only [mem_threads, Nat.le_add_right, Nat.add_sub_cancel_left, hu32, true_and]
    split_ifs <;> rfl
  · rw [hrow, KUnit.putMx_row, if_neg]
    rw [mem_threads]
    omega

/-! ### The statement -/

/-- SRD of a 32-bit register whose value for each thread is given. -/
theorem srd_word {s : State} {c : Ctx} {d : Reg} (h : Ready s c [⟨d.toNat, 1, 1⟩] []) {n : BitVec 16} (hn : n.toNat ≤ 12)
    (hpair : srdPair n.toNat = false) (hfree : c.freeToTouch n.toNat) {v : Nat → Word}
    (hv : ∀ t, ∃ x, c.special s n.toNat t = some (x, false) ∧ x.setWidth 32 = v t) : Writes (.srd d n) s c 1 fun t => .ofRegs (c.wr d (v t)) := by
  have hout : srdOut s c d n.toNat = fun t => .ofRegs (c.wr d (v t)) := by
    funext t
    obtain ⟨x, hx, hxv⟩ := hv t
    simp only [srdOut, hx, hxv]
  exact hout ▸ srd_writes hn (by simpa [hpair] using h) (by simp [hpair]) hfree

/-- SRD of a 64-bit register to an even vd. -/
theorem srd_wide {s : State} {c : Ctx} {d : Reg} (h : Ready s c [⟨d.toNat, 2, 1⟩] []) (hd : d.toNat % 2 = 0) {n : BitVec 16} (hn : n.toNat ≤ 12)
    (hpair : srdPair n.toNat = true) (hfree : c.freeToTouch n.toNat) {v : Word64} (hv : ∀ t, c.special s n.toNat t = some (v, true)) :
    Writes (.srd d n) s c 1 fun _ => .ofRegs (c.wrP d v) := by
  have hout : srdOut s c d n.toNat = fun _ => .ofRegs (c.wrP d v) := by
    funext t
    simp only [srdOut, hv t]
  exact hout ▸ srd_writes hn (by simpa [hpair] using h) (fun _ => hd) hfree

/-- Only %fflags and %mxexc make a word wait. -/
theorem Ctx.freeToTouch_of_ne (c : Ctx) {n : Nat} (h10 : n ≠ 10) (h11 : n ≠ 11) : c.freeToTouch n := by simp [Ctx.freeToTouch, h10, h11]

/-- The number of a core's die, of two dies. -/
theorem dieWord {core : Nat} (h : core < 192) : (BitVec.ofNat 64 (core / 96)).setWidth 32 = if core < 96 then 0#32 else 1#32 := by
  have hd : core / 96 = if core < 96 then 0 else 1 := by split_ifs <;> omega
  rw [hd]
  split_ifs <;> rfl

/-- Settles O10: SRD by the value that each number has, SWR by the part that each number writes. -/
theorem specialRegisters : Obligations.SpecialRegisters := by
  unfold Obligations.SpecialRegisters
  refine ⟨fun s c d => ⟨fun h => ?words, fun h hd => ?wides⟩, fun s c a h => ⟨fun low ⟨hact, hlow⟩ => ⟨swr_fmt h hact hlow, swr_cbank h hact hlow⟩,
    fun ht => swr_fflags h ht, fun ht hacc hrows => swr_mxexc h ht hacc hrows, fun ha h0 hs => ⟨fun n hn h2 => ?wrongWrite, fun n hn => ?wrongRead,
      fun hacc => ?beyond⟩⟩⟩
  case words =>
    have plain {n : BitVec 16} (hn : n.toNat ≤ 9 ∨ n.toNat = 12) (hpair : srdPair n.toNat = false) {v : Nat → Word}
        (hv : ∀ t, ∃ x, c.special s n.toNat t = some (x, false) ∧ x.setWidth 32 = v t) : Writes (.srd d n) s c 1 fun t => .ofRegs (c.wr d (v t)) :=
      srd_word h (by omega) hpair (c.freeToTouch_of_ne (by omega) (by omega)) hv
    refine ⟨plain (by decide) rfl fun t => ⟨_, rfl, by simp⟩,
      plain (by decide) rfl fun t => ⟨_, rfl, by simp⟩,
      plain (by decide) rfl fun t => ⟨_, rfl, by simp [fragIdent]⟩,
      plain (by decide) rfl fun t => ⟨_, rfl, by simp⟩,
      fun hcore => plain (by decide) rfl fun t => ⟨_, rfl, dieWord hcore⟩,
      plain (by decide) rfl fun t => ⟨_, rfl, by simp⟩,
      plain (by decide) rfl fun t => ⟨_, rfl, by simp⟩,
      fun ht => srd_word h (by decide) rfl ⟨fun _ => ht, fun e => absurd e (by decide)⟩ fun t => ⟨_, rfl, by simp⟩,
      fun ht hacc hrows => srd_word h (by decide) rfl ⟨fun _ => ht, fun _ => ⟨hacc, hrows⟩⟩ fun t => ⟨_, rfl, by simp⟩,
      plain (by decide) rfl fun t => ⟨_, rfl, by simp⟩⟩
  case wides =>
    have wide {n : BitVec 16} (hpair : srdPair n.toNat = true) {v : Word64} (hv : ∀ t, c.special s n.toNat t = some (v, true)) :
        Writes (.srd d n) s c 1 fun _ => .ofRegs (c.wrP d v) := by
      have hn : n.toNat = 6 ∨ n.toNat = 7 ∨ n.toNat = 8 := by simpa [srdPair, or_assoc] using hpair
      exact srd_wide h hd (by omega) hpair (c.freeToTouch_of_ne (by omega) (by omega)) hv
    exact ⟨wide rfl fun _ => rfl, wide rfl fun _ => rfl, wide rfl fun _ => rfl⟩
  case wrongWrite => exact swr_faults h (fun e => h2 (BitVec.eq_of_toNat_eq e)) ha h0 hs (.inl ⟨hn, rfl⟩)
  case wrongRead =>
    have hpair : srdPair n.toNat = false := by simp [srdPair]; omega
    exact srd_faults h hpair ha h0 hs (.inl ⟨hn, rfl⟩)
  case beyond =>
    have hno : c.accOk = false := by simpa [Ctx.accOk] using hacc
    exact ⟨swr_faults h (by decide) ha h0 hs (.inr ⟨rfl, hno, rfl⟩), srd_faults h rfl ha h0 hs (.inr ⟨rfl, hno, rfl⟩)⟩

end Sys2Proof.Machine
end

section
/-! SUPPORT. A memory operation completes: its flag and its path's counter fall (01 R32, 05 R172, 09 R299). -/
namespace Sys2Proof.Machine

/-! ### Operations that leave the list (R172, R299) -/

/-- Draining keeps a run of incomplete operations, and from then on holds back their paths as well. -/
theorem drainOps_append_incomplete {l : List Op} (h : ∀ x ∈ l, x.done = false) (r : List Op) (held : List PathId) :
    ∃ held', (∀ q, q ∈ held' ↔ q ∈ held ∨ ∃ x ∈ l, x.path = some q) ∧ drainOps (l ++ r) held = l ++ drainOps r held' := by
  induction l generalizing held with
  | nil => exact ⟨held, by simp, rfl⟩
  | cons o l ih =>
    have ho : o.done = false := h o (by simp)
    have hl : ∀ x ∈ l, x.done = false := fun x hx => h x (by simp [hx])
    cases hp : o.path with
    | none =>
      obtain ⟨held', hmem, heq⟩ := ih hl held
      exact ⟨held', by simp [hmem, hp], by simp [drainOps, hp, ho, heq]⟩
    | some p =>
      by_cases hc : p ∈ held
      · obtain ⟨held', hmem, heq⟩ := ih hl held
        refine ⟨held', fun q => ?_, by simp [drainOps, hp, hc, heq]⟩
        by_cases hq : p = q
        · subst hq; simp [hmem, hc]
        · simp [hmem, hp, hq]
      · obtain ⟨held', hmem, heq⟩ := ih hl (p :: held)
        refine ⟨held', fun q => ?_, by simp [drainOps, hp, ho, hc, heq]⟩
        simp [hmem, hp, or_assoc, or_left_comm, eq_comm]

/-- A list of incomplete operations has nothing to drain. -/
theorem drainOps_incomplete {l : List Op} (h : ∀ x ∈ l, x.done = false) (held : List PathId) : drainOps l held = l := by
  obtain ⟨held', -, heq⟩ := drainOps_append_incomplete h [] held
  simpa [drainOps] using heq

/-- The operations once one of them is done: it goes, unless an earlier one of its path is still in flight. -/
theorem drainOps_done {before after : List Op} {o : Op} {p : PathId} (h : ∀ x ∈ before ++ after, x.done = false) (hp : o.path = some p) :
    drainOps (before ++ { o with done := true } :: after) [] =
      if ∃ x ∈ before, x.path = some p then before ++ { o with done := true } :: after else before ++ after := by
  obtain ⟨held, hmem, heq⟩ :=
    drainOps_append_incomplete (fun x hx => h x (List.mem_append_left after hx)) ({ o with done := true } :: after) []
  have hafter : drainOps after held = after := drainOps_incomplete (fun x hx => h x (by simp [hx])) held
  have hheld : p ∈ held ↔ ∃ x ∈ before, x.path = some p := by simp [hmem]
  rw [heq]
  simp only [drainOps, hp, List.contains_iff_mem, hheld, if_true, hafter]
  split_ifs <;> rfl

/-- Completing an operation among incomplete ones marks it and drains the list. -/
theorem KUnit.complete_ops {un : KUnit} {before after : List Op} {o : Op} {p : PathId} (hops : un.ops = before ++ o :: after)
    (h : ∀ x ∈ before ++ after, x.id ≠ o.id ∧ x.done = false) (hp : o.path = some p) :
    (un.complete o.id).ops =
      if ∃ x ∈ before, x.path = some p then before ++ { o with done := true } :: after else before ++ after := by
  have hkeep {l : List Op} (hl : ∀ x ∈ l, x.id ≠ o.id) : l.map (fun x => if x.id = o.id then { x with done := true } else x) = l :=
    (List.map_congr_left fun x hx => if_neg (hl x hx)).trans (List.map_id _)
  have hb := hkeep fun x hx => (h x (List.mem_append_left _ hx)).1
  have ha := hkeep fun x hx => (h x (List.mem_append_right _ hx)).1
  rw [← drainOps_done (fun x hx => (h x hx).2) hp]
  simp only [KUnit.complete, hops, List.map_append, List.map_cons, if_true, hb, ha]

/-- The operation of a number that no other one has. -/
theorem KUnit.op?_mid {un : KUnit} {before after : List Op} {o : Op} (hops : un.ops = before ++ o :: after)
    (h : ∀ x ∈ before, x.id ≠ o.id) : un.op? o.id = some o := by
  have : before.find? (fun x => x.id = o.id) = none := List.find?_eq_none.2 (by simpa using h)
  simp [KUnit.op?, hops, List.find?_append, this]

/-- The flag of an operation falls with its completion, for the masks that share a thread with it (R32). -/
theorem KUnit.flagValue_complete {un : KUnit} {before after : List Op} {o : Op} {p : PathId} (hops : un.ops = before ++ o :: after)
    (h : ∀ x ∈ before ++ after, x.id ≠ o.id ∧ x.done = false) (hnot : o.done = false) (hp : o.path = some p) (w k : Nat) (m : Mask) :
    (un.complete o.id).flagValue w k m =
      un.flagValue w k m - if o.warp = w ∧ o.flag = some k ∧ o.mask &&& m ≠ 0#32 then 1 else 0 := by
  have hrest : (un.complete o.id).flagValue w k m = ((before ++ after).filter fun o =>
      o.warp = w && !o.done && o.flag = some k && o.mask &&& m ≠ 0#32).length := by
    unfold KUnit.flagValue
    rw [KUnit.complete_ops hops h hp]
    split_ifs <;> simp
  rw [hrest]
  unfold KUnit.flagValue
  rw [hops]
  by_cases hcount : o.warp = w ∧ o.flag = some k ∧ o.mask &&& m ≠ 0#32
  · simp [hnot, hcount]
  · have hskip : (decide (o.warp = w) && !o.done && decide (o.flag = some k) && decide (o.mask &&& m ≠ 0#32)) = false := by
      simpa [hnot] using hcount
    simp only [if_neg hcount, List.filter_append, List.filter_cons, hskip, Bool.false_eq_true, if_false, Nat.sub_zero]

/-! ### The event -/

/-- No drop of killed threads is due where none waits. -/
theorem State.settleDrops_none {s : State} {u : Nat} {un : KUnit} (hu : s.unit? u = some un) (hd : un.drops = []) : s.settleDrops u = s := by
  simp [State.settleDrops, hu, hd]

/-- MEMORY_OP_COMPLETE of a memory operation whose parts have all performed completes it. -/
theorem memoryOpComplete_performed {s : State} {u op : Nat} {un : KUnit} {o : Op} (hu : s.unit? u = some un) (ho : un.op? op = some o)
    (hnot : o.done = false) (hkind : ∃ a r, o.kind = .mem a r) (hitems : ∀ i ∈ o.items, i.done = true) (hd : un.drops = []) (hs : s.stalled = false) :
    exec (.memoryOpComplete u op) s = .next (s.editUnit u fun un => un.complete op) := by
  obtain ⟨a, r, hk⟩ := hkind
  have hall : o.items.all (·.done) = true := List.all_eq_true.2 hitems
  have hunit : (s.editUnit u fun un => un.complete op).unit? u = some (un.complete op) := by simp [State.unit?_editUnit, hu]
  have hset := State.settleDrops_none hunit hd
  have e : exec (.memoryOpComplete u op) s = execMemoryOpComplete u op s := rfl
  rw [e]
  simp only [execMemoryOpComplete, whole, hu, ho, hnot, hk, hall, if_true, Bool.false_eq_true, if_false, hset, State.editUnit_stalled, hs]

/-- Settles O18: the operation is done, and the list of the unit's operations says which counters have fallen. -/
theorem operationCompletes : Obligations.OperationCompletes := by
  unfold Obligations.OperationCompletes
  intro s u op un o p before after hu hops hid hothers hnot hpath hd hs hkind hitems
  subst hid
  have hfind := KUnit.op?_mid hops fun x hx => (hothers x (List.mem_append_left _ hx)).1
  have hunit : (s.editUnit u fun un => un.complete o.id).unit? u = some (un.complete o.id) := by simp [State.unit?_editUnit, hu]
  have hlist := KUnit.complete_ops hops hothers hpath
  refine ⟨_, _, memoryOpComplete_performed hu hfind hnot hkind hitems hd hs, rfl, fun k hk => ?others, hunit, rfl, fun w k m => ?flags,
    fun hfree => ?falls, fun hheld => ?waits⟩
  case others => rw [State.unit?_editUnit, if_neg hk]
  case flags => exact KUnit.flagValue_complete hops hothers hnot hpath w k m
  case falls =>
    rw [if_neg (by simpa using hfree)] at hlist
    refine ⟨hlist, ?_⟩
    simp [KUnit.pathCount, hlist, hops, hpath]
    omega
  case waits =>
    rw [if_pos hheld] at hlist
    refine ⟨hlist, ?_⟩
    simp [KUnit.pathCount, hlist, hops, hpath]

end Sys2Proof.Machine
end

section
/-! SUPPORT. What one step is: a fragment's word, an event or a tick (01 R33, 02 R40 to R53). -/
namespace Sys2Proof.Machine

/-! ### One move -/

/-- A step makes the first move that is listed. -/
theorem step_listed {s : State} {m : Move} {rest : List Move} (h : s.sched = m :: rest) : step s = moveStep m { s with sched := rest } := by
  simp only [step, State.nextMove, h]

/-- A fragment issues its next word where its lane works on it, it is runnable inside a clause, and neither the gang, the device nor a fault of
its handler holds it (R47, R280, R425). -/
theorem State.mayIssue_of {s : State} {f : FragRef} {u : KUnit} {l : Launch} {w : Warp} {x : Frag} {ln : Lane} (hu : s.unit? f.unit = some u)
    (hl : s.launchOf f.unit = some l) (hw : Map.look u.warps f.warp = some w) (hx : Map.look w.frags f.fidx = some x)
    (hln : Map.look (s.core u.core).lanes (w.slot % 64) = some ln) (hcur : ln.cur = some f) (hrun : x.status = .runnable) (hlane : x.lane = true)
    (hcl : x.clause ≠ none) (hheld : s.held l x = false) (hfault : s.handlerFaulted f.unit l = false) :
    s.mayIssue f = some (u.core, l, x) := by
  have hw2 : s.warp? f.unit f.warp = some w := by simp [State.warp?, hu, hw]
  have hx2 : s.frag? f = some x := by simp [State.frag?, hw2, hx]
  have hsome : x.clause.isSome = true := Option.isSome_iff_ne_none.2 hcl
  simp [State.mayIssue, hu, hw2, hx2, hl, hln, hcur, hrun, hlane, hsome, hheld, hfault]

/-- No fault waits to end the unit: it is no handler's, or no record of its warps waits to be posted. -/
theorem State.handlerFaulted_false {s : State} {u : Nat} {l : Launch} (h : l.handler = true → ∀ g n, Post.frag g n ∈ s.posts → g.unit ≠ u) :
    s.handlerFaulted u l = false := by
  unfold State.handlerFaulted
  cases hl : l.handler with
  | false => rfl
  | true =>
    rw [Bool.true_and, List.any_eq_false]
    intro p hp
    cases p with
    | frag g n => simpa using h hl g n hp
    | unit => simp

/-- A fragment that issues takes its standing faults first (R165). -/
theorem wordStep_late {s : State} {f : FragRef} {core : Nat} {l : Launch} {x : Frag} (h : s.mayIssue f = some (core, l, x))
    (hlate : s.hasLate f = true) : wordStep f s = .next (s.takeLate f) := by
  simp only [wordStep, h, hlate, if_true]

section
variable {s : State} {f : FragRef} {core : Nat} {l : Launch} {x : Frag} (h : s.mayIssue f = some (core, l, x)) (hlate : s.hasLate f = false)
include h hlate

theorem wordStep_decoded {bs more : List Byte} {i : Instr} (hbs : s.instrBytes (dieOf core) l x.pc = some bs) (hd : decode bs = .ok (i, more)) :
    wordStep f s = exec i { s with cur := some f } := by
  simp only [wordStep, h, hlate, hbs, hd, Bool.false_eq_true, if_false]

theorem wordStep_rejected {bs : List Byte} {e : Reject} (hbs : s.instrBytes (dieOf core) l x.pc = some bs) (hd : decode bs = .error e) :
    wordStep f s = .next (s.rejectWord f x e) := by
  simp only [wordStep, h, hlate, hbs, hd, Bool.false_eq_true, if_false]

theorem wordStep_unread (hbs : s.instrBytes (dieOf core) l x.pc = none) :
    wordStep f s = .next (s.fetchFault core f l x (s.unreadAt (dieOf core) l x.pc)) := by
  simp only [wordStep, h, hlate, hbs, Bool.false_eq_true, if_false]

end

/-! ### What is fetched does not depend on the schedule -/

/-- The state with other moves to come. -/
def State.withSched (s : State) (r : List Move) : State := { s with sched := r }

section
variable (s : State) (r : List Move)

theorem State.unregister_withSched (w : Nat) (b : Bool) : (s.withSched r).unregister w b = (s.unregister w b).withSched r := by
  have e : (s.withSched r).regOwner = s.regOwner := rfl
  unfold State.unregister
  rw [e]
  split
  · rfl
  · cases b <;> rfl

theorem State.put_withSched (pa : Nat) (bs : List Byte) (tag : Bool) : (s.withSched r).put pa bs tag = (s.put pa bs tag).withSched r := by
  unfold State.put
  split_ifs <;> rfl

theorem State.combineCore_withSched (c w : Nat) : (s.withSched r).combineCore c w = (s.combineCore c w).withSched r := by
  have e : (s.withSched r).core c = s.core c := rfl
  unfold State.combineCore
  rw [e]
  split
  · rfl
  · rw [← State.unregister_withSched, ← State.put_withSched]
    rfl

theorem State.combine_withSched (pa n : Nat) : (s.withSched r).combine pa n = (s.combine pa n).withSched r := by
  refine List.foldl_hom (fun s : State => s.withSched r) fun s w => ?_
  refine List.foldl_hom (fun s : State => s.withSched r) fun s c => ?_
  have e (t : State) : (t.withSched r).core c = t.core c := rfl
  dsimp only
  rw [State.combineCore_withSched, e]
  split
  · split_ifs
    · rw [State.combineCore_withSched]
    · rfl
  · rfl

theorem State.fetch_withSched (pa n : Nat) : (s.withSched r).fetch pa n = s.fetch pa n := by
  unfold State.fetch
  rw [State.combine_withSched]
  rfl

theorem State.ctxEntry_withSched (ctx : Nat) : (s.withSched r).ctxEntry ctx = s.ctxEntry ctx := by
  unfold State.ctxEntry
  rw [State.fetch_withSched]
  rfl

theorem State.tableAt_withSched (pa : Nat) : (s.withSched r).tableAt pa = s.tableAt pa := by
  unfold State.tableAt
  rw [State.fetch_withSched]

theorem State.leafAt_withSched (table va : Nat) : (s.withSched r).leafAt table va = s.leafAt table va := by
  unfold State.leafAt
  simp only [State.fetch_withSched]

theorem State.walk_withSched (ctx va : Nat) : (s.withSched r).walk ctx va = s.walk ctx va := by
  unfold State.walk
  simp only [State.ctxEntry_withSched, State.tableAt_withSched, State.leafAt_withSched]
  rfl

theorem State.leafOf_withSched (die ctx va : Nat) : (s.withSched r).leafOf die ctx va = s.leafOf die ctx va := by
  unfold State.leafOf State.leafBy State.heldOther
  simp only [State.walk_withSched]
  rfl

theorem State.textBytes_withSched (die : Nat) (l : Launch) (pc : Nat) : (s.withSched r).textBytes die l pc = s.textBytes die l pc := by
  unfold State.textBytes
  simp only [State.leafOf_withSched, State.combine_withSched]
  rfl

theorem State.instrBytes_withSched (die : Nat) (l : Launch) (pc : Nat) : (s.withSched r).instrBytes die l pc = s.instrBytes die l pc := by
  unfold State.instrBytes
  simp only [State.textBytes_withSched]

theorem State.unreadAt_withSched (die : Nat) (l : Launch) (pc : Nat) : (s.withSched r).unreadAt die l pc = s.unreadAt die l pc := by
  unfold State.unreadAt
  rw [State.textBytes_withSched]

end

/-! ### A fault of the whole fragment (R273) -/

/-- State `t` has the memory of `s` and fragment `f` parked with a record of a cause for the threads of a mask. -/
def ParksAt (s t : State) (f : FragRef) (cause : Nat) (m : Mask) : Prop :=
  t.mem = s.mem ∧ ∃ y r, t.frag? f = some y ∧ y.status = .parkedFault ∧ y.frec = some r ∧ r.cause = cause ∧ r.mask = m

/-- Posts to a fault buffer change the core alone. -/
theorem State.postFbs_keeps (s : State) (core : Nat) (l : List FbEntry) :
    (s.postFbs core l).mem = s.mem ∧ (s.postFbs core l).units = s.units :=
  foldl_keeps (fun t : State => t.mem = s.mem ∧ t.units = s.units) _ _ _ ⟨rfl, rfl⟩ fun _ _ h => h

/-- Attaching a record parks the fragment. -/
theorem State.attach_parks {s : State} {f : FragRef} {w : Warp} (hw : s.warp? f.unit f.warp = some w) (core : Nat) (fr : Frag) (m : Mask) (b : Bad) :
    ParksAt s (s.attach core f fr m b) f b.cause m := by
  obtain ⟨u, hu, hwu⟩ := Option.bind_eq_some_iff.1 hw
  unfold State.attach
  extract_lets b' serial r t t'
  have hcause : b'.cause = b.cause := by unfold b'; split <;> rfl
  have hfrag : t'.frag? f = some (fr.parkFault m r) := by
    have e : t'.frag? f = t.frag? f := rfl
    rw [e]
    simp [t, State.frag?, State.warp?, State.editWarp, State.unit?_editUnit, hu, KUnit.editWarp, Map.look_edit, hwu, Map.look_put_self]
  have hrec : ∀ t2 : State, t2.mem = s.mem → t2.units = t'.units → ParksAt s t2 f b.cause m := fun t2 hm hun => by
    have e : t2.frag? f = t'.frag? f := by simp only [State.frag?, State.warp?, State.unit?, hun]
    exact ⟨hm, _, r, e.trans hfrag, rfl, rfl, hcause, rfl⟩
  split
  · exact hrec _ rfl rfl
  · obtain ⟨hm, hun⟩ := State.postFbs_keeps t' core b'.fb
    exact hrec _ hm hun

/-- A warp after a warp is changed. -/
theorem State.warp?_editWarp (s : State) (u w v x : Nat) (g : Warp → Warp) :
    (s.editWarp u w g).warp? v x = if v = u ∧ x = w then (s.warp? u w).map g else s.warp? v x := by
  simp only [State.warp?, State.editWarp, State.unit?_editUnit, KUnit.editWarp]
  by_cases hv : v = u
  · subst hv
    cases s.unit? v with
    | none => simp
    | some un => by_cases hx : x = w <;> simp [Map.look_edit, hx]
  · simp [hv]

/-- A solitary thread that stops keeps its warp in place, and memory as it is. -/
theorem State.soloStops_keeps (s : State) (f : FragRef) (m : Mask) (u w : Nat) (h : (s.warp? u w).isSome = true) :
    (s.soloStops f m).mem = s.mem ∧ ((s.soloStops f m).warp? u w).isSome = true := by
  refine foldl_keeps (fun t : State => t.mem = s.mem ∧ (t.warp? u w).isSome = true) _ _ _ ⟨rfl, h⟩ fun t i ⟨hm, ht⟩ => ?_
  have hdoom : ((t.doomThread f.unit f.warp i 6#4).warp? u w).isSome = true := by
    rw [State.doomThread, State.warp?_editWarp]
    split_ifs with e
    · obtain ⟨rfl, rfl⟩ := e
      rwa [Option.isSome_map]
    · exact ht
  unfold State.releaseSolo
  split_ifs
  · exact ⟨hm, hdoom⟩
  · exact ⟨hm, hdoom⟩
  · exact ⟨hm, ht⟩

/-- One fault that covers the whole fragment parks it (R53). -/
theorem State.takeFaults_parks {s : State} {f : FragRef} {x : Frag} {b : Bad} (hx : s.frag? f = some x) (h0 : x.mask ≠ 0#32)
    (hm : b.mask = x.mask) : ParksAt s (s.takeFaults f [b]).1 f b.cause x.mask := by
  obtain ⟨w, hw, -⟩ := Option.bind_eq_some_iff.1 hx
  obtain ⟨u, hu, -⟩ := Option.bind_eq_some_iff.1 hw
  obtain ⟨hmem, hsome⟩ := State.soloStops_keeps s f x.mask f.unit f.warp (by simp [hw])
  obtain ⟨w', hw'⟩ := Option.isSome_iff_exists.1 hsome
  have hall : badMask [b] = x.mask := by simp [badMask, hm]
  have hnone : x.mask &&& ~~~x.mask = 0#32 := BitVec.and_not_self x.mask
  have key : (s.takeFaults f [b]).1 = (s.soloStops f x.mask).attach u.core f x x.mask b := by
    simp only [State.takeFaults, hx, State.takeFaultsAs, hu, hall, if_neg h0, hnone, if_true, ne_eq, not_true_eq_false, decide_false,
      Bool.false_and, Bool.false_eq_true, if_false, State.splitParts, hm]
  rw [key]
  obtain ⟨ha, hrest⟩ := State.attach_parks hw' u.core x x.mask b
  exact ⟨ha.trans hmem, hrest⟩

/-- A word that decodes to nothing parks its fragment (R53 steps 1 to 3). -/
theorem State.rejectWord_parks {s : State} {f : FragRef} {x : Frag} (hx : s.frag? f = some x) (h0 : x.mask ≠ 0#32) (e : Reject) :
    ParksAt s (s.rejectWord f x e) f (rejectCause e) x.mask :=
  State.takeFaults_parks (b := Bad.of (rejectCause e) 0 x.mask) hx h0 rfl

theorem rejectCause_eq {e : Reject} {cause : Nat} (h : (e = .illegalModifier ∧ cause = 0x02) ∨ (e ≠ .illegalModifier ∧ cause = 0x01)) :
    rejectCause e = cause := by
  rcases h with ⟨rfl, rfl⟩ | ⟨he, rfl⟩
  · rfl
  · cases e
    case illegalModifier => exact absurd rfl he
    all_goals rfl

/-- A word of the text that cannot be fetched parks its fragment, with the cause that its leaf gives. -/
theorem State.fetchFault_parks {s : State} {f : FragRef} {x : Frag} (hx : s.frag? f = some x) (h0 : x.mask ≠ 0#32) (core : Nat) (l : Launch)
    {a cause : Nat} (h : ((∃ p, s.leafOf (dieOf core) l.ctx (l.text + a) = .ok p) ∧ cause = 0x19)
      ∨ ((∃ m, s.leafOf (dieOf core) l.ctx (l.text + a) = .error m) ∧ cause = 0x16)) :
    ParksAt s (s.fetchFault core f l x a) f cause x.mask := by
  unfold State.fetchFault
  rcases h with ⟨⟨p, hp⟩, rfl⟩ | ⟨⟨m, hm⟩, rfl⟩
  · simp only [hp]
    exact State.takeFaults_parks hx h0 rfl
  · simp only [hm]
    exact State.takeFaults_parks hx h0 rfl

/-! ### Events and ticks -/

/-- An event acts on a device that is not halted, and a host's command from boot stage 4 on (R439). -/
theorem eventStep_acts {s : State} {i : Instr} (he : encode i = []) (hh : s.dev.halted = false) (hs : s.dev.stage = 4 ∨ hostCommand i = false) :
    eventStep i s = exec i s := by
  have : s.mayHappen i = true := by rcases hs with h | h <;> simp [State.mayHappen, isEvent, he, hh, h]
  simp only [eventStep, this, if_true]

theorem eventStep_early {s : State} {i : Instr} (hi : hostCommand i = true) (hs : s.dev.stage ≠ 4) : eventStep i s = .next s := by
  have : s.mayHappen i = false := by simp [State.mayHappen, hi, hs]
  simp only [eventStep, this, Bool.false_eq_true, if_false]

theorem eventStep_word {s : State} {i : Instr} (he : encode i ≠ []) : eventStep i s = .next s := by
  have : s.mayHappen i = false := by simp [State.mayHappen, isEvent, he]
  simp only [eventStep, this, Bool.false_eq_true, if_false]

/-- One cycle of a running clock (R33): the counters move as the clock has it, and the device measures at the end of a millisecond. -/
theorem State.advance_eq {s : State} (hc : s.dev.clk ≠ 0) : ∃ t, s.advance = t
    ∧ t = { s with cycle := s.cycle + 1#64, time := t.time, timeRem := t.timeRem, freeIx := t.freeIx, dev := t.dev }
    ∧ t.dev = { s.dev with pwr := t.dev.pwr, tmax := t.dev.tmax }
    ∧ (s.time.toNat / timePerMs = t.time.toNat / timePerMs → t.freeIx = s.freeIx ∧ t.dev = s.dev)
    ∧ t.time = s.time + BitVec.ofNat 64 ((s.timeRem + 65536000) / s.dev.clk) ∧ t.timeRem = (s.timeRem + 65536000) % s.dev.clk := by
  have hmax : max s.dev.clk 1 = s.dev.clk := by omega
  refine ⟨_, rfl, ?_⟩
  unfold State.advance timePerMhz
  simp only [hmax]
  split_ifs with h
  · exact ⟨rfl, rfl, fun _ => ⟨rfl, rfl⟩, rfl, rfl⟩
  · exact ⟨rfl, rfl, fun he => absurd he h, rfl, rfl⟩

/-! ### The statement -/

/-- Settles O54: each kind of move by what its step is. -/
theorem stepRunsWord : Obligations.StepRunsWord := by
  unfold Obligations.StepRunsWord
  intro s rest
  refine ⟨fun f u l w x ln hsched hu hl hw hx hln hcur hrun hlane hcl hhold hdrain hq hhalt hposts => ?word, fun f hs hu => ?gone,
    fun i hs he hh hst => (step_listed hs).trans (eventStep_acts he hh hst), fun i hs hi hst => (step_listed hs).trans (eventStep_early hi hst),
    fun i hs he => (step_listed hs).trans (eventStep_word he), fun hs hh hr hc => ?tick⟩
  case word =>
    let s' : State := s.withSched rest
    have hheld : s'.held l x = false := by
      have hq' : (s.dev.quiesced && !l.handler) = false := by rcases hq with h | h <;> simp [h]
      simp [s', State.withSched, State.held, hhold, hdrain, hq', hhalt]
    have hissue : s'.mayIssue f = some (u.core, l, x) :=
      State.mayIssue_of (s := s') hu hl hw hx hln hcur hrun hlane hcl hheld (State.handlerFaulted_false hposts)
    have hfrag : s'.frag? f = some x := by
      have hu' : s'.unit? f.unit = some u := hu
      simp [State.frag?, State.warp?, hu', hw, hx]
    have hstep : step s = wordStep f s' := step_listed hsched
    refine ⟨fun hlate => hstep.trans (wordStep_late hissue hlate), fun hlate => ⟨fun bs i more hbs hd => ?_, fun bs hbs h0 e cause hd hc => ?_,
      fun hbs h0 a cause ha hc => ?_⟩⟩
    · exact hstep.trans (wordStep_decoded hissue hlate ((s.instrBytes_withSched rest _ l x.pc).trans hbs) hd)
    · obtain ⟨hm, y, r, hy⟩ := State.rejectWord_parks hfrag h0 e
      rw [rejectCause_eq hc] at hy
      exact ⟨_, y, r, hstep.trans (wordStep_rejected hissue hlate ((s.instrBytes_withSched rest _ l x.pc).trans hbs) hd), hm, hy⟩
    · subst ha
      have hunread := wordStep_unread hissue hlate ((s.instrBytes_withSched rest _ l x.pc).trans hbs)
      rw [State.unreadAt_withSched] at hunread
      obtain ⟨hm, y, r, hy⟩ := State.fetchFault_parks hfrag h0 u.core l (a := s.unreadAt (dieOf u.core) l x.pc) (cause := cause)
        (by rw [State.leafOf_withSched]; exact hc)
      exact ⟨_, y, r, hstep.trans hunread, hm, hy⟩
  case gone =>
    have hu' : ({ s with sched := rest } : State).unit? f.unit = none := hu
    rw [step_listed hs]
    simp [moveStep, wordStep, State.mayIssue, hu']
  case tick =>
    have hr' : ({ s with sched := rest } : State).ringDue = false := hr
    obtain ⟨t, ht, hrest⟩ := State.advance_eq (s := { s with sched := rest }) hc
    refine ⟨t, ?_, hrest⟩
    rw [step_listed hs, ← ht]
    simp [moveStep, State.tick, hh, hr']

end Sys2Proof.Machine
end

section
/-! SUPPORT. The clock (R33): the operations of the state leave %cycle and %time alone. One lemma per operation, in the order of the model. -/
namespace Sys2Proof.Machine

/-! ### The clock -/

/-- %cycle and %time (R33). -/
def State.clock (s : State) : Word64 × Word64 := (s.cycle, s.time)

@[simp] theorem State.clock_fields (s : State) : (s.cycle, s.time) = s.clock := rfl

/-- A change of other fields leaves the clock alone. -/
@[simp] theorem State.clock_mk (sched cur freeIx stalled cycle time timeRem mem tags tagBy poison memMap regOwner slice units nextUnit evicted cores
      dies dev launches nextLaunch queues records soloHolder soloQueue posts repairs handlers beads ringHeld homeWrites quota seqs treeQ pages kills
      copies shoots peerSeq peerRx out) :
    State.clock ⟨sched, cur, freeIx, stalled, cycle, time, timeRem, mem, tags, tagBy, poison, memMap, regOwner, slice, units, nextUnit, evicted, cores,
      dies, dev, launches, nextLaunch, queues, records, soloHolder, soloQueue, posts, repairs, handlers, beads, ringHeld, homeWrites, quota, seqs,
      treeQ, pages, kills, copies, shoots, peerSeq, peerRx, out⟩ = (cycle, time) := rfl

@[simp] theorem State.clock_ite {p : Prop} [Decidable p] (s t : State) : (if p then s else t).clock = if p then s.clock else t.clock :=
  apply_ite _ _ _ _

@[simp] theorem State.clock_foldl {α : Type} {g : State → α → State} (h : ∀ s a, (g s a).clock = s.clock) (l : List α) (s : State) :
    (l.foldl g s).clock = s.clock := by
  induction l generalizing s with
  | nil => rfl
  | cons a l ih => rw [List.foldl_cons, ih, h]

/-- The state of a pair that is given by its parts. -/
theorem State.clock_of_eq {α : Type} {p : State × α} {t : State} {x : α} {k : Word64 × Word64} (e : p = (t, x)) (h : p.1.clock = k) :
    t.clock = k := by
  subst e
  exact h

/-- A meaning that leaves the clock alone. -/
def Timeless (m : State → Host.Outcome State Fault Refusal) : Prop := ∀ s t, m s = .next t → t.clock = s.clock

/-- A meaning that always answers a next state. -/
theorem timeless_next {g : State → State} (h : ∀ s, (g s).clock = s.clock) : Timeless fun s => .next (g s) := by
  rintro s t ht
  injection ht with ht
  exact ht ▸ h s

/-! ### The operations of the state (Ops) -/

@[simp] theorem State.setCore_clock (s : State) (c : Nat) (v : CoreSt) : (s.setCore c v).clock = s.clock := rfl

@[simp] theorem State.editCore_clock (s : State) (c : Nat) (g : CoreSt → CoreSt) : (s.editCore c g).clock = s.clock := rfl

@[simp] theorem State.editUnit_clock (s : State) (u : Nat) (g : KUnit → KUnit) : (s.editUnit u g).clock = s.clock := rfl

@[simp] theorem State.editWarp_clock (s : State) (u w : Nat) (g : Warp → Warp) : (s.editWarp u w g).clock = s.clock := rfl

@[simp] theorem State.editFrag_clock (s : State) (f : FragRef) (g : Frag → Frag) : (s.editFrag f g).clock = s.clock := rfl

@[simp] theorem State.choose_clock (s : State) : (s.choose).2.clock = s.clock := rfl

theorem State.clock_of_choose {s t : State} {b : Bool} (e : s.choose = (b, t)) : t.clock = s.clock := congrArg (·.2.clock) e.symm

@[simp] theorem State.releaseSolo_clock (s : State) (u w t : Nat) : (s.releaseSolo u w t).clock = s.clock := by simp [State.releaseSolo]

@[simp] theorem State.doomThread_clock (s : State) (u w t : Nat) (code : BitVec 4) : (s.doomThread u w t code).clock = s.clock := rfl

@[simp] theorem State.soloStops_clock (s : State) (f : FragRef) (m : Mask) : (s.soloStops f m).clock = s.clock := by simp [State.soloStops]

@[simp] theorem State.postFbs_clock (s : State) (core : Nat) (l : List FbEntry) : (s.postFbs core l).clock = s.clock := by
  unfold State.postFbs
  exact State.clock_foldl (fun s a => by simp) _ _

@[simp] theorem State.attach_clock (s : State) (core : Nat) (f : FragRef) (fr : Frag) (mask : Mask) (b : Bad) :
    (s.attach core f fr mask b).clock = s.clock := by
  unfold State.attach
  dsimp only
  split <;> simp

@[simp] theorem State.refuseSplit_clock (s : State) (core : Nat) (f : FragRef) (fr : Frag) : (s.refuseSplit core f fr).clock = s.clock := by
  simp [State.refuseSplit]

@[simp] theorem State.splitParts_clock (s : State) (core : Nat) (f : FragRef) (fr : Frag) (l : List Bad) :
    (s.splitParts core f fr l).clock = s.clock := by
  induction l generalizing s with
  | nil => rfl
  | cons b bs ih =>
    unfold State.splitParts
    split
    · rfl
    · rw [ih, State.attach_clock]

@[simp] theorem State.takeFaultsAs_clock (s : State) (f : FragRef) (fr : Frag) (bads : List Bad) : (s.takeFaultsAs f fr bads).1.clock = s.clock := by
  unfold State.takeFaultsAs
  dsimp only
  repeat' split
  all_goals simp

@[simp] theorem State.takeFaults_clock (s : State) (f : FragRef) (bads : List Bad) : (s.takeFaults f bads).1.clock = s.clock := by
  unfold State.takeFaults
  split <;> simp

@[simp] theorem State.faultAll_clock (s : State) (c : Ctx) (cause : Nat) : (s.faultAll c cause).clock = s.clock := by simp [State.faultAll]

@[simp] theorem State.takeLate_clock (s : State) (f : FragRef) : (s.takeLate f).clock = s.clock := by
  unfold State.takeLate
  repeat' split
  all_goals simp

@[simp] theorem State.postLate_clock (s : State) (u w : Nat) (p : Late) : (s.postLate u w p).clock = s.clock := by
  unfold State.postLate
  dsimp only
  repeat' split
  all_goals simp

@[simp] theorem State.resumeFault_clock (s : State) (f : FragRef) : (s.resumeFault f).clock = s.clock := by
  unfold State.resumeFault
  repeat' split
  all_goals simp

@[simp] theorem State.parkAt_clock (s : State) (c : Ctx) (w : Wake) : (s.parkAt c w).clock = s.clock := rfl

@[simp] theorem State.parkBlocking_clock (s : State) (c : Ctx) (w : Wake) : (s.parkBlocking c w).clock = s.clock := by simp [State.parkBlocking]

@[simp] theorem State.await_clock (s : State) (c : Ctx) (l : List Need) (remote : Bool) : (s.await c l remote).clock = s.clock := by
  simp [State.await]

@[simp] theorem State.retire_clock (s : State) (c : Ctx) (n : Nat) (scalar : Bool) (beats : Nat) : (s.retire c n scalar beats).clock = s.clock := rfl

theorem withWord_timeless {use : List Opn} {ps : List (BitVec 3)} {body : Ctx → State → State} (h : ∀ c s, (body c s).clock = s.clock) :
    Timeless (withWord use ps body) := by
  intro s t ht
  unfold withWord at ht
  split at ht
  · exact absurd ht nofun
  · split_ifs at ht <;> injection ht with ht <;> subst ht <;> simp [h]

@[simp] theorem State.whenReady_clock (s : State) (c : Ctx) (l : List Need) (body : State → State) (hbody : ∀ t, (body t).clock = t.clock) :
    (s.whenReady c l body).clock = s.clock := by
  simp [State.whenReady, hbody]

@[simp] theorem State.passBeats_clock (s : State) (c : Ctx) (ll : Bool) (words beats : Nat) : (s.passBeats c ll words beats).clock = s.clock := by
  simp [State.passBeats]

@[simp] theorem State.passWord_clock (s : State) (c : Ctx) (ll : Bool) (words : Nat) : (s.passWord c ll words).clock = s.clock := by
  simp [State.passWord]

@[simp] theorem State.skipLl_clock (s : State) (c : Ctx) (words : Nat) : (s.skipLl c words).clock = s.clock := rfl

@[simp] theorem State.faultWord_clock (s : State) (c : Ctx) (ll : Bool) (words : Nat) (b : Bad) : (s.faultWord c ll words b).clock = s.clock := by
  unfold State.faultWord
  split_ifs
  · simp
  · split
    next t e => simp [State.clock_of_eq e (s.takeFaults_clock _ _)]
    next t e => exact State.clock_of_eq e (s.takeFaults_clock _ _)

@[simp] theorem State.faultActive_clock (s : State) (c : Ctx) (cause : Nat) (addr : Word64) : (s.faultActive c cause addr).clock = s.clock := by
  simp [State.faultActive]

@[simp] theorem State.faultLl_clock (s : State) (c : Ctx) (cause : Nat) (addr : Word64) : (s.faultLl c cause addr).clock = s.clock := by
  simp [State.faultLl]

theorem Alu.run_timeless (a : Alu) : Timeless a.run := withWord_timeless fun c s => by simp

@[simp] theorem State.finish_clock (s : State) (c : Ctx) (n : Nat) : (s.finish c n).clock = s.clock := rfl

/-! ### Capability words -/

theorem capWord_timeless (d : CapReg) (use : List Opn) (words : Nat) (f : Ctx → Nat → Cap × Bool) : Timeless (capWord d use words f) :=
  withWord_timeless fun c s => by simp

@[simp] theorem State.guarded_clock (s : State) (c : Ctx) (bads : List Bad) (go : Ctx → State → State) (hgo : ∀ c t, (go c t).clock = t.clock) :
    (s.guarded c bads go).clock = s.clock := by
  unfold State.guarded
  split
  · exact hgo c s
  · split
    next t e =>
      have ht : t.clock = s.clock := State.clock_of_eq e (s.takeFaults_clock _ _)
      split <;> simp [hgo, ht]
    next t e => exact State.clock_of_eq e (s.takeFaults_clock _ _)

/-! ### Memory and its copies (Memory) -/

@[simp] theorem State.editDie_clock (s : State) (d : Nat) (g : Die → Die) : (s.editDie d g).clock = s.clock := rfl

@[simp] theorem State.put_clock (s : State) (pa : Nat) (bs : List Byte) (tag : Bool) : (s.put pa bs tag).clock = s.clock := by simp [State.put]

@[simp] theorem State.unregister_clock (s : State) (w : Nat) (inval : Bool) : (s.unregister w inval).clock = s.clock := by
  unfold State.unregister
  split <;> simp

@[simp] theorem State.register_clock (s : State) (w core : Nat) : (s.register w core).clock = s.clock := rfl

@[simp] theorem State.recallWatches_clock (s : State) (secs : List Nat) (self : Option (Nat × Nat × Nat)) :
    (s.recallWatches secs self).clock = s.clock :=
  rfl

@[simp] theorem State.combineCore_clock (s : State) (c w : Nat) : (s.combineCore c w).clock = s.clock := by
  unfold State.combineCore
  split <;> simp

@[simp] theorem State.combine_clock (s : State) (pa n : Nat) : (s.combine pa n).clock = s.clock := by
  refine State.clock_foldl (fun s w => State.clock_foldl (fun s c => ?_) _ _) _ _
  dsimp only
  split <;> simp

@[simp] theorem State.homeWrite_clock (s : State) (self : Option (Nat × Nat × Nat)) (core : Option Nat) (pa : Nat) (bs : List Byte) (tag : Bool) :
    (s.homeWrite self core pa bs tag).clock = s.clock := by
  unfold State.homeWrite
  split <;> simp

@[simp] theorem State.fillWords_clock (s : State) (core : Nat) (ws : List Nat) (uPage : Bool) : (s.fillWords core ws uPage).clock = s.clock := rfl

@[simp] theorem State.coreWrite_clock (s : State) (self : Option (Nat × Nat × Nat)) (core : Nat) (uPage : Bool) (pa : Nat) (bs : List Byte)
    (tag : Bool) : (s.coreWrite self core uPage pa bs tag).clock = s.clock := by
  simp [State.coreWrite]

@[simp] theorem State.homeRead_clock (s : State) (pa n : Nat) : (s.homeRead pa n).1.clock = s.clock := by simp [State.homeRead]

@[simp] theorem State.dropStale_clock (s : State) (core : Nat) (ws : List Nat) : (s.dropStale core ws).clock = s.clock := by simp [State.dropStale]

@[simp] theorem State.dropCopies_clock (s : State) (pa n : Nat) : (s.dropCopies pa n).clock = s.clock := rfl

@[simp] theorem State.freshRead_clock (s : State) (core pa n : Nat) : (s.freshRead core pa n).1.clock = s.clock := by simp [State.freshRead]

@[simp] theorem State.makeRoom_clock (s : State) (core line : Nat) : (s.makeRoom core line).clock = s.clock := by
  unfold State.makeRoom
  split <;> simp

@[simp] theorem State.sliceRoom_clock (s : State) (line : Nat) : (s.sliceRoom line).clock = s.clock := by
  unfold State.sliceRoom
  split <;> simp

@[simp] theorem State.coreRead_clock (s : State) (core : Nat) (uPage : Bool) (pa n : Nat) : (s.coreRead core uPage pa n).1.clock = s.clock := by
  unfold State.coreRead
  split_ifs
  · simp
  · extract_lets here c take
    have h : take.2.clock = s.clock := by
      unfold take
      split
      · rfl
      · split_ifs <;> simp [c]
    generalize take = p at h ⊢
    obtain ⟨_ | x, t⟩ := p <;> simpa using h

@[simp] theorem State.selfInvalidate_clock (s : State) (core : Nat) (fence : Bool) : (s.selfInvalidate core fence).clock = s.clock := rfl

@[simp] theorem State.agentWrite_clock (s : State) (pa : Nat) (bs : List Byte) : (s.agentWrite pa bs).clock = s.clock := by simp [State.agentWrite]

@[simp] theorem State.agentRead_clock (s : State) (pa n : Nat) : (s.agentRead pa n).clock = s.clock := by simp [State.agentRead]

@[simp] theorem whole_clock (g : State → State) (s : State) (hg : ∀ t, (g t).clock = t.clock) : (whole g s).clock = s.clock := by simp [whole, hg]

@[simp] theorem State.combineWalk_clock (s : State) (ctx va : Nat) : (s.combineWalk ctx va).clock = s.clock := by
  unfold State.combineWalk
  dsimp only
  repeat' split
  all_goals simp

@[simp] theorem State.holdLeaf_clock (s : State) (die ctx va : Nat) : (s.holdLeaf die ctx va).clock = s.clock := by
  unfold State.holdLeaf
  dsimp only
  split <;> simp

@[simp] theorem State.xlate_clock (s : State) (core ctx va : Nat) : (s.xlate core ctx va).1.clock = s.clock := by
  unfold State.xlate
  dsimp only
  split <;> simp

@[simp] theorem State.exportsOf_clock (s : State) (die ctx : Nat) : (s.exportsOf die ctx).1.clock = s.clock := by
  unfold State.exportsOf
  dsimp only
  repeat' split
  all_goals simp

/-! ### The walk, faults of accesses, the slices (Access) -/

@[simp] theorem Ctx.page_clock (c : Ctx) (s : State) (w : Want) (stag : Bool) (va : Nat) : (c.page s w stag va).1.clock = s.clock := by
  have h := s.xlate_clock c.u.core c.l.ctx va
  unfold Ctx.page
  split
  next e => exact State.clock_of_eq e h
  next e => split_ifs <;> exact State.clock_of_eq e h

@[simp] theorem Ctx.latePeer_clock (c : Ctx) (s : State) (w : Want) (a : Nat) : (c.latePeer s w a).1.clock = s.clock := by
  have h := s.exportsOf_clock (dieOf c.u.core) c.l.ctx
  unfold Ctx.latePeer
  split
  next e => exact State.clock_of_eq e h
  next e =>
    have ht := State.clock_of_eq e h
    dsimp only
    repeat' split
    all_goals exact ht

@[simp] theorem Ctx.late_clock (c : Ctx) (s : State) (w : Want) (k : Cap) (stag : Bool) (a : Nat) : (c.late s w k stag a).1.clock = s.clock := by
  unfold Ctx.late
  split_ifs
  · rfl
  · split <;> rfl
  · simp
  · have h := c.page_clock s w stag a
    split
    next e => exact State.clock_of_eq e h
    next t l e =>
      have ht := State.clock_of_eq e h
      have h2 : (if l.covers (a + w.size - 1) then (t, .ok l) else c.page t w stag (a + w.size - 1)).1.clock = s.clock := by
        split_ifs <;> simp [ht]
      split
      next e2 => exact State.clock_of_eq e2 h2
      next e2 =>
        have ht2 := State.clock_of_eq e2 h2
        dsimp only
        split
        · exact ht2
        · split <;> exact ht2

@[simp] theorem Ctx.check_clock (c : Ctx) (s : State) (w : Want) (q : BitVec 128) (tag stag : Bool) (a : Nat) :
    (c.check s w q tag stag a).1.clock = s.clock := by
  have h := c.late_clock s w (Cap.of q) stag a
  unfold Ctx.check
  split
  · rfl
  · split
    next e => exact State.clock_of_eq e h
    next e => exact State.clock_of_eq e h

@[simp] theorem State.putOp_clock (s : State) (c : Ctx) (path : Option PathId) (flag : Option Nat) (mask : Mask) (kind : OpKind) (items : List Item)
    (dst : Option Dst) (pd : Option PredReg) : (s.putOp c path flag mask kind items dst pd).clock = s.clock :=
  rfl

@[simp] theorem State.issue_clock (s : State) (c : Ctx) (path : Option PathId) (mask : Mask) (kind : OpKind) (items : List Item) (dst : Option Dst)
    (pd : Option PredReg) : (s.issue c path mask kind items dst pd).clock = s.clock :=
  rfl

@[simp] theorem State.accessDoom_clock (s : State) (c : Ctx) (m : Mask) : (s.accessDoom c m).clock = s.clock := by
  unfold State.accessDoom
  exact State.clock_foldl (fun s a => by simp) _ _

@[simp] theorem State.numberPeers_clock (s : State) (die : Nat) (items : List Item) : (s.numberPeers die items).1.clock = s.clock := rfl

@[simp] theorem MemIns.thread_clock (m : MemIns) (c : Ctx) (s : State) (t : Nat) : (m.thread c s t).1.clock = s.clock := by
  have h := c.check_clock s m.want (c.rdC m.mr.c t) (c.capTag m.mr.c t) (m.stag c t) (c.addr m.mr t)
  unfold MemIns.thread
  dsimp only
  split
  next e => exact State.clock_of_eq e h
  next e => exact State.clock_of_eq e h

@[simp] theorem MemIns.all_clock (m : MemIns) (c : Ctx) (s : State) (l : List Nat) : (m.all c s l).1.clock = s.clock := by
  induction l generalizing s with
  | nil => rfl
  | cons t ts ih => simp [MemIns.all, ih]

@[simp] theorem MemIns.go_clock (m : MemIns) (l : List (Nat × Except Bad (List Item))) (c : Ctx) (s : State) : (m.go l c s).clock = s.clock := by
  simp [MemIns.go]

theorem MemIns.run_timeless (m : MemIns) : Timeless m.run := by
  refine withWord_timeless fun c s => ?_
  split_ifs
  · simp
  · simp
  · refine State.whenReady_clock _ _ _ _ fun s => ?_
    dsimp only
    rw [State.whenReady_clock, MemIns.all_clock]
    intro s
    split
    · simp
    · exact State.guarded_clock _ _ _ _ fun c s => m.go_clock _ c s

@[simp] theorem State.settle_clock (s : State) (u op : Nat) : (s.settle u op).clock = s.clock := by
  unfold State.settle
  split <;> simp

@[simp] theorem State.gatherRed_clock (s : State) (core pa : Nat) (op : RmwOp) (size : Nat) (x : Word64) :
    (s.gatherRed core pa op size x).clock = s.clock := by
  simp [State.gatherRed]

@[simp] theorem State.rmwHome_clock (s : State) (self : Option (Nat × Nat × Nat)) (core : Option Nat) (pa : Nat) (op : RmwOp) (size : Nat)
    (x cmp : Word64) : (s.rmwHome self core pa op size x cmp).1.clock = s.clock := by
  unfold State.rmwHome
  dsimp only
  split_ifs
  · rw [State.clock_foldl, State.homeRead_clock]
    intro s w
    split <;> simp
  · simp

@[simp] theorem State.deliver_clock (s : State) (u : Nat) (o : Op) (i : Item) (bs : List Byte) (mtag : Bool) :
    (s.deliver u o i bs mtag).clock = s.clock := by
  unfold State.deliver
  repeat' split
  all_goals simp

@[simp] theorem State.freeBytes_clock (s : State) (n : Nat) : (s.freeBytes n).1.clock = s.clock := rfl

@[simp] theorem State.acquired_clock (s : State) (core : Nat) (o : Op) (i : Item) : (s.acquired core o i).clock = s.clock := by simp [State.acquired]

@[simp] theorem State.loadPhys_clock (s : State) (core : Nat) (home : Bool) (k : PKind) (pa n : Nat) :
    (s.loadPhys core home k pa n).1.clock = s.clock := by
  unfold State.loadPhys
  split <;> simp

@[simp] theorem State.performPhys_clock (s : State) (un : KUnit) (u : Nat) (o : Op) (i : Item) (pa : Nat) (k : PKind) :
    (s.performPhys un u o i pa k).clock = s.clock := by
  unfold State.performPhys
  split <;> simp

@[simp] theorem State.performScr_clock (s : State) (u : Nat) (o : Op) (i : Item) (tu off : Nat) : (s.performScr u o i tu off).clock = s.clock := by
  unfold State.performScr
  repeat' split
  all_goals simp

@[simp] theorem State.performItem_clock (s : State) (u op : Nat) (i : Item) : (s.performItem u op i).clock = s.clock := by
  unfold State.performItem
  repeat' split
  all_goals simp

/-! ### Barriers -/

@[simp] theorem State.releaseSome_clock (s : State) (u off : Nat) (inv : Bool) (p : Frag → Bool) : (s.releaseSome u off inv p).clock = s.clock := by
  unfold State.releaseSome
  split
  · rfl
  · simp only [State.editUnit_clock]
    rw [State.clock_foldl fun s x => by simp]
    split <;> simp

@[simp] theorem State.releaseBar_clock (s : State) (u off : Nat) (inv : Bool) : (s.releaseBar u off inv).clock = s.clock := by
  unfold State.releaseBar
  split <;> simp

@[simp] theorem State.evaluate_clock (s : State) (u off : Nat) : (s.evaluate u off).clock = s.clock := by
  unfold State.evaluate
  split <;> simp

@[simp] theorem State.dropBar_clock (s : State) (u off w : Nat) (m : Mask) : (s.dropBar u off w m).clock = s.clock := by
  unfold State.dropBar
  repeat' split
  all_goals simp

@[simp] theorem State.dropThreads_clock (s : State) (u w : Nat) (m : Mask) : (s.dropThreads u w m).clock = s.clock := by
  unfold State.dropThreads
  split <;> simp

@[simp] theorem State.settleDrops_clock (s : State) (u : Nat) : (s.settleDrops u).clock = s.clock := by
  unfold State.settleDrops
  dsimp only
  repeat' split
  all_goals simp

@[simp] theorem State.dropKilled_clock (s : State) (u w : Nat) (m : Mask) : (s.dropKilled u w m).clock = s.clock := by simp [State.dropKilled]

theorem barWord_timeless {use : List Opn} {ps : List PredReg} {words : Nat} {a : Reg} {mayRemote : Bool}
    {body : Ctx → BarAddr → KUnit → State → State} (h : ∀ c ba un s, (body c ba un s).clock = s.clock) :
    Timeless (barWord use ps words a mayRemote body) := by
  refine withWord_timeless fun c s => ?_
  split_ifs
  · simp
  · split
    · simp
    · split
      · simp
      · exact h _ _ _ s

theorem bararrWord_timeless (use : List Opn) (words : Nat) (d a : Reg) (srcs : Ctx → List RTag) (y : Ctx → Word) :
    Timeless (bararrWord use words d a srcs y) := by
  refine barWord_timeless fun c ba un s => ?_
  dsimp only
  split
  · simp
  · refine State.whenReady_clock _ _ _ _ fun s => ?_
    split
    · simp
    · split
      · simp
      · split
        · simp
        · split <;> simp

@[simp] theorem State.barAcquire_clock (s : State) (c : Ctx) : (s.barAcquire c).clock = s.clock := by simp [State.barAcquire]

@[simp] theorem State.predAll_clock (s : State) (c : Ctx) (pd : PredReg) (v : Bool) : (s.predAll c pd v).clock = s.clock := rfl

theorem barinvWord_timeless (free : Bool) (a : Reg) : Timeless (barinvWord free a) := barWord_timeless fun c ba un s => by simp

theorem barexpWord_timeless (use : List Opn) (words : Nat) (a : Reg) (y : Ctx → Word) : Timeless (barexpWord use words a y) :=
  barWord_timeless fun c ba un s => by simp

@[simp] theorem State.stray_clock (s : State) (core : Nat) : (s.stray core).clock = s.clock := rfl

@[simp] theorem State.postBar_clock (s : State) (core : Nat) (u : Option Nat) (off n : Nat) : (s.postBar core u off n).clock = s.clock := by
  unfold State.postBar
  split <;> simp

/-! ### Loads and stores -/

@[simp] theorem lineAll_clock (need : Nat) (mr : MemRef) (c : Ctx) (s : State) (l : List Nat) : (lineAll need mr c s l).1.clock = s.clock := by
  induction l generalizing s with
  | nil => rfl
  | cons t ts ih => simp [lineAll, ih]

@[simp] theorem lineGo_clock (kind : OpKind) (dooms : Bool) (words : Nat) (l : List (Nat × Except Bad (List Item))) (c : Ctx) (s : State) :
    (lineGo kind dooms words l c s).clock = s.clock := by
  simp [lineGo]

theorem lineWord_timeless (kind : OpKind) (mr : MemRef) : Timeless (lineWord kind mr) := by
  refine withWord_timeless fun c s => ?_
  split_ifs
  · simp
  · refine State.whenReady_clock _ _ _ _ fun s => ?_
    dsimp only
    split
    · simp
    · rw [State.guarded_clock _ _ _ _ fun c s => lineGo_clock _ _ _ _ c s, lineAll_clock]

@[simp] theorem State.prefetch_clock (s : State) (core : Nat) (o : Op) : (s.prefetch core o).clock = s.clock := by simp [State.prefetch]

@[simp] theorem State.writeBack_clock (s : State) (core : Nat) (lines : List Nat) : (s.writeBack core lines).clock = s.clock := by
  simp [State.writeBack]

@[simp] theorem State.invalidateLines_clock (s : State) (core : Nat) (lines : List Nat) : (s.invalidateLines core lines).clock = s.clock := by
  simp [State.invalidateLines]

/-! ### Control words -/

theorem transfer_timeless (use : List Opn) (link : Option Reg) (srcs : Ctx → List RTag) (target : Ctx → Nat → Nat) :
    Timeless (transfer use link srcs target) := by
  refine withWord_timeless fun c s => ?_
  extract_lets bads failed f stay next parts need
  split
  · simp
  · refine State.guarded_clock _ _ _ _ fun c s => ?_
    clear_value parts
    dsimp only
    split <;> simp

@[simp] theorem State.discardTx_clock (s : State) (u w t : Nat) : (s.discardTx u w t).clock = s.clock := by
  unfold State.discardTx
  dsimp only
  repeat' split
  all_goals simp

@[simp] theorem State.endThreads_clock (s : State) (u w : Nat) (m : Mask) : (s.endThreads u w m).clock = s.clock := by simp [State.endThreads]

@[simp] theorem State.trap_clock (s : State) (c : Ctx) (b : Bad) : (s.trap c b).clock = s.clock := State.guarded_clock _ _ _ _ fun c s => by simp

theorem setWindow_timeless (base : Ctx → Int) : Timeless (setWindow base) := withWord_timeless fun c s => by simp

@[simp] theorem State.swrFrag_clock (s : State) (c : Ctx) (a : Reg) : (s.swrFrag c a).clock = s.clock := by simp [State.swrFrag]

@[simp] theorem State.swrPut_clock (s : State) (c : Ctx) (a : Reg) (n : Nat) : (s.swrPut c a n).clock = s.clock := by simp [State.swrPut]

theorem waitPath_timeless (p : PathId) (use : List Opn) (limit : Ctx → Nat) : Timeless (waitPath p use limit) := withWord_timeless fun c s => by simp

@[simp] theorem State.fetchFault_clock (s : State) (core : Nat) (f : FragRef) (l : Launch) (x : Frag) (pc : Nat) :
    (s.fetchFault core f l x pc).clock = s.clock := by
  unfold State.fetchFault
  dsimp only
  split <;> simp

@[simp] theorem State.startFrag_clock (s : State) (u w i : Nat) : (s.startFrag u w i).1.clock = s.clock := by
  unfold State.startFrag
  dsimp only
  repeat' split
  all_goals simp

/-! ### The Circlet -/

@[simp] theorem State.editBead_clock (s : State) (b : Nat) (g : Bead → Bead) : (s.editBead b g).clock = s.clock := rfl

@[simp] theorem State.circResult_clock (s : State) (u op t : Nat) (v : Word) : (s.circResult u op t v).clock = s.clock := by
  unfold State.circResult
  repeat' split
  all_goals simp

@[simp] theorem State.circDrop_clock (s : State) (u op t : Nat) : (s.circDrop u op t).clock = s.clock := by
  unfold State.circDrop
  split <;> simp

@[simp] theorem State.quotaMap_clock (s : State) (ctx : Nat) : (s.quotaMap ctx).1.clock = s.clock := by
  unfold State.quotaMap
  dsimp only
  repeat' split
  all_goals simp

@[simp] theorem Ctx.boardHome_clock (c : Ctx) (s : State) (b : CapReg) (t : Nat) : (c.boardHome s b t).1.clock = s.clock := by
  unfold Ctx.boardHome
  dsimp only
  split
  · rfl
  · split
    next e => exact State.clock_of_eq e (c.page_clock s _ _ _)
    next e =>
      have ht := State.clock_of_eq e (c.page_clock s _ _ _)
      split_ifs <;> exact ht

@[simp] theorem CircIns.thread_clock (i : CircIns) (c : Ctx) (s : State) (t : Nat) : (i.thread c s t).1.clock = s.clock := by
  unfold CircIns.thread
  dsimp only
  split_ifs
  · rfl
  · split
    · rfl
    · split
      next e => exact State.clock_of_eq e (c.boardHome_clock s _ t)
      next e =>
        have ht := State.clock_of_eq e (c.boardHome_clock s _ t)
        split_ifs <;> simp [ht]

@[simp] theorem CircIns.all_clock (i : CircIns) (c : Ctx) (s : State) (l : List Nat) : (i.all c s l).1.clock = s.clock := by
  induction l generalizing s with
  | nil => rfl
  | cons t ts ih => simp [CircIns.all, ih]

@[simp] theorem CircIns.go_clock (i : CircIns) (l : List (Nat × Except Bad CircThread)) (c : Ctx) (s : State) : (i.go l c s).clock = s.clock := by
  simp [CircIns.go]

theorem CircIns.run_timeless (i : CircIns) (use : List Opn) : Timeless (i.run use) := by
  refine withWord_timeless fun c s => ?_
  split_ifs
  · simp
  · refine State.whenReady_clock _ _ _ _ fun s => ?_
    dsimp only
    split
    · simp
    · rw [State.guarded_clock _ _ _ _ fun c s => i.go_clock _ c s, CircIns.all_clock]

@[simp] theorem State.dropBoard_clock (s : State) (v : Bead) : (s.dropBoard v).clock = s.clock := by
  unfold State.dropBoard
  split <;> simp

@[simp] theorem State.applyThread_clock (s : State) (o : StOp) (st : Nat) (x : CircThread) : (s.applyThread o st x).1.clock = s.clock := by
  unfold State.applyThread
  dsimp only
  repeat' split
  all_goals simp

@[simp] theorem State.applyThreads_clock (s : State) (o : StOp) (st : Nat) (l : List CircThread) : (s.applyThreads o st l).1.clock = s.clock := by
  induction l generalizing s with
  | nil => rfl
  | cons x xs ih =>
    unfold State.applyThreads
    dsimp only
    split <;> simp [ih]

@[simp] theorem State.circMark_clock (s : State) (u : Nat) (o : Op) (m : Mask) : (s.circMark u o m).clock = s.clock := rfl

@[simp] theorem State.circFaults_clock (s : State) (u : Nat) (o : Op) (l : List (Nat × Bad)) : (s.circFaults u o l).clock = s.clock := by
  unfold State.circFaults
  split
  · rfl
  · refine State.clock_foldl (fun s i => ?_) _ _
    split <;> simp

@[simp] theorem State.circRetire_clock (s : State) (core u : Nat) (o : Op) : (s.circRetire core u o).clock = s.clock := by
  unfold State.circRetire
  split
  · rfl
  · split
    · rfl
    · simp only [State.editWarp_clock]
      exact State.clock_foldl (fun s x => by simp) _ _

@[simp] theorem State.applyOp_clock (s : State) (core st : Nat) (o : StOp) : (s.applyOp core st o).clock = s.clock := by
  unfold State.applyOp
  dsimp only
  split <;> simp

@[simp] theorem State.applyOps_clock (s : State) (core st : Nat) (n : Nat) (l : List StOp) : (s.applyOps core st n l).clock = s.clock := by
  induction n generalizing s l with
  | zero => cases l <;> rfl
  | succ n ih =>
    cases l with
    | nil => rfl
    | cons o os =>
      unfold State.applyOps
      split_ifs
      · rfl
      · rw [ih, State.applyOp_clock]

@[simp] theorem State.boardStep_clock (s : State) (b st : Nat) : (s.boardStep b st).clock = s.clock := by
  unfold State.boardStep
  dsimp only
  repeat' split
  all_goals simp

@[simp] theorem State.unmark_clock (s : State) (line b : Nat) : (s.unmark line b).clock = s.clock := by simp [State.unmark]

@[simp] theorem State.clearStep_clock (s : State) (b st : Nat) : (s.clearStep b st).clock = s.clock := by
  unfold State.clearStep
  dsimp only
  repeat' split
  all_goals simp

@[simp] theorem State.passStep_clock (s : State) (b core : Nat) : (s.passStep b core).clock = s.clock := by
  unfold State.passStep
  exact State.clock_foldl (fun s a => by simp) _ _

@[simp] theorem State.freeBeads_clock (s : State) (ctx : Nat) : (s.freeBeads ctx).clock = s.clock := by simp [State.freeBeads]

/-! ### Kills -/

@[simp] theorem State.killFrag_clock (s : State) (f : FragRef) : (s.killFrag f).clock = s.clock := by
  unfold State.killFrag
  split <;> simp

@[simp] theorem State.killWarp_clock (s : State) (u w : Nat) : (s.killWarp u w).clock = s.clock := by
  unfold State.killWarp
  split <;> simp

@[simp] theorem State.killUnit_clock (s : State) (u : Nat) : (s.killUnit u).clock = s.clock := by
  unfold State.killUnit
  split <;> simp

@[simp] theorem State.endUnit_clock (s : State) (u : Nat) (cancel : Bool) : (s.endUnit u cancel).clock = s.clock := by simp [State.endUnit]

@[simp] theorem State.cancelWarp_clock (s : State) (u w : Nat) : (s.cancelWarp u w).clock = s.clock := by
  unfold State.cancelWarp
  split <;> simp

@[simp] theorem State.pruneWarp_clock (s : State) (u w : Nat) : (s.pruneWarp u w).clock = s.clock := by simp [State.pruneWarp]

@[simp] theorem State.killTagged_clock (s : State) (u sq : Nat) (slots : NSet) : (s.killTagged u sq slots).clock = s.clock := by
  unfold State.killTagged
  split <;> simp

@[simp] theorem State.inImage_clock (s : State) (u : Nat) (g : State → State) (hg : ∀ t, (g t).clock = t.clock) :
    (s.inImage u g).clock = s.clock := by
  unfold State.inImage
  dsimp only
  repeat' split
  all_goals simp [hg]

@[simp] theorem State.onUnit_clock (s : State) (u : Nat) (g : State → State) (hg : ∀ t, (g t).clock = t.clock) : (s.onUnit u g).clock = s.clock := by
  simp [State.onUnit, hg]

@[simp] theorem State.postUnit_clock (s : State) (u cause : Nat) (fatal : Bool) (hint pc : Nat) (addr : Word64) :
    (s.postUnit u cause fatal hint pc addr).clock = s.clock := by
  unfold State.postUnit
  split <;> simp

@[simp] theorem State.loseUnit_clock (s : State) (u cause : Nat) : (s.loseUnit u cause).clock = s.clock := by
  unfold State.loseUnit
  split <;> simp

@[simp] theorem State.fatal_clock (s : State) (u cause : Nat) : (s.fatal u cause).clock = s.clock := by
  unfold State.fatal
  split <;> simp

/-! ### Hallmark pages -/

@[simp] theorem State.pageCrc_clock (s : State) (p : Nat) : (s.pageCrc p).1.clock = s.clock := by simp [State.pageCrc]

@[simp] theorem State.dropPageTlb_clock (s : State) (p : Nat) (writesOnly : Bool) : (s.dropPageTlb p writesOnly).clock = s.clock := rfl

@[simp] theorem State.editPage_clock (s : State) (p : Nat) (g : KvPage → KvPage) : (s.editPage p g).clock = s.clock := rfl

@[simp] theorem State.addRef_clock (s : State) (p : Nat) (r : KvRef) : (s.addRef p r).clock = s.clock := by
  unfold State.addRef
  dsimp only
  split <;> simp

@[simp] theorem State.dropRef_clock (s : State) (p sq key : Nat) : (s.dropRef p sq key).clock = s.clock := by
  unfold State.dropRef
  dsimp only
  split <;> simp

theorem State.allocPage_clock {s t : State} {die ctx p : Nat} {r : KvRef} (h : s.allocPage die ctx r = some (p, t)) : t.clock = s.clock := by
  obtain ⟨n, -, e⟩ := Option.map_eq_some_iff.mp h
  injection e with _ e
  exact e ▸ rfl

@[simp] theorem State.editSeq_clock (s : State) (sq : Nat) (g : Seq → Seq) : (s.editSeq sq g).clock = s.clock := rfl

@[simp] theorem State.write8_clock (s : State) (pa x : Nat) : (s.write8 pa x).clock = s.clock := by simp [State.write8]

theorem State.putOwn_clock (s : State) (sq : Nat) (q : Seq) (b l page fill : Nat) : ∀ t ∈ s.putOwn sq q b l page fill, t.clock = s.clock := by
  unfold State.putOwn
  dsimp only
  repeat' split
  all_goals simp

@[simp] theorem State.delOwn_clock (s : State) (sq : Nat) (q : Seq) (e : OwnEntry) : (s.delOwn sq q e).clock = s.clock := by
  unfold State.delOwn
  dsimp only
  repeat' split
  all_goals simp

theorem State.release_clock (s : State) (sq : Nat) (q : Seq) (b l : Nat) : ∀ t ∈ s.release sq q b l, t.clock = s.clock := by simp [State.release]

@[simp] theorem State.release_getD_clock (s : State) (sq : Nat) (q : Seq) (b l : Nat) : ((s.release sq q b l).getD s).clock = s.clock := by
  cases h : s.release sq q b l with
  | none => rfl
  | some t => exact s.release_clock _ _ _ _ t h

@[simp] theorem State.flattenEntry_clock (s : State) (sq : Nat) (b l : Nat) : (s.flattenEntry sq b l).1.clock = s.clock := by
  unfold State.flattenEntry
  split
  · rfl
  · split
    · split
      · rfl
      · split
        · rfl
        next h => simpa using s.putOwn_clock _ _ _ _ _ _ _ h
    · rfl

@[simp] theorem State.flatten_clock (s : State) (sq : Nat) : (s.flatten sq).1.clock = s.clock := by
  unfold State.flatten
  split
  · rfl
  · split_ifs
    · rfl
    · simp only [State.editSeq_clock]
      refine foldl_keeps (fun p : State × Bool => p.1.clock = s.clock) _ _ _ rfl fun p i h => ?_
      split_ifs <;> simp [h]

/-! ### Trap entries and handlers -/

@[simp] theorem State.sendMsix_clock (s : State) (v : Nat) : (s.sendMsix v).clock = s.clock := by simp [State.sendMsix]

@[simp] theorem State.editDev_clock (s : State) (g : Dev → Dev) : (s.editDev g).clock = s.clock := rfl

@[simp] theorem State.raiseErr_clock (s : State) (set : Dev → Dev) : (s.raiseErr set).clock = s.clock := by simp [State.raiseErr]

@[simp] theorem State.trapPut_clock (s : State) (ctx off n x : Nat) : (s.trapPut ctx off n x).clock = s.clock := by simp [State.trapPut]

@[simp] theorem State.repairKill_clock (s : State) (f : FragRef) : (s.repairKill f).clock = s.clock := by simp [State.repairKill]

@[simp] theorem State.ringRecord_clock (s : State) (ctx : Nat) (e : TrapEntry) (r : RecFields) : (s.ringRecord ctx e r).clock = s.clock := by
  simp [State.ringRecord]

@[simp] theorem State.flushPosts_clock (s : State) (ctx : Nat) : (s.flushPosts ctx).clock = s.clock := by
  unfold State.flushPosts
  refine State.clock_foldl (fun s a => ?_) _ _
  repeat' split
  all_goals simp

@[simp] theorem State.putFailed_clock (s : State) (ctx : Nat) : (s.putFailed ctx).clock = s.clock := by
  unfold State.putFailed
  split <;> simp

@[simp] theorem State.failHandler_clock (s : State) (ctx : Nat) (ring : Bool) : (s.failHandler ctx ring).clock = s.clock := by
  simp [State.failHandler]

@[simp] theorem State.handlerOver_clock (s : State) (ctx job : Nat) : (s.handlerOver ctx job).clock = s.clock := by simp [State.handlerOver]

@[simp] theorem State.handlerEnded_clock (s : State) (ctx result : Nat) : (s.handlerEnded ctx result).clock = s.clock := by
  unfold State.handlerEnded
  split <;> simp

/-! ### Queues and launch records -/

@[simp] theorem State.editQueue_clock (s : State) (q : Nat) (g : Queue → Queue) : (s.editQueue q g).clock = s.clock := rfl

@[simp] theorem State.editSlot_clock (s : State) (die n : Nat) (g : QSlot → QSlot) : (s.editSlot die n g).clock = s.clock := rfl

@[simp] theorem State.unmap_clock (s : State) (q : Nat) : (s.unmap q).clock = s.clock := rfl

@[simp] theorem State.ring_clock (s : State) (q : Nat) (d : QDesc) (tail : Nat) : (s.ring q d tail).clock = s.clock := by simp [State.ring]

theorem State.append_clock (s : State) (q : Nat) (d : QDesc) (p : List Byte) : ∀ t ∈ s.append q d p, t.clock = s.clock := by simp [State.append]

@[simp] theorem State.pass_clock (s : State) (q : Nat) : (s.pass q).clock = s.clock := by
  unfold State.pass
  dsimp only
  repeat' split
  all_goals simp

@[simp] theorem State.putRec_clock (s : State) (ctx a : Nat) (r : Rec) : (s.putRec ctx a r).clock = s.clock := rfl

@[simp] theorem State.editRec_clock (s : State) (ctx a : Nat) (g : Rec → Rec) : (s.editRec ctx a g).clock = s.clock := rfl

@[simp] theorem State.readRec_clock (s : State) (ctx a : Nat) : (s.readRec ctx a).clock = s.clock := by
  unfold State.readRec
  split <;> simp

@[simp] theorem State.writeRec_clock (s : State) (ctx a : Nat) (r : Rec) : (s.writeRec ctx a r).clock = s.clock := by
  unfold State.writeRec
  split <;> simp

@[simp] theorem State.handlerHook_clock (s : State) (ctx a result : Nat) : (s.handlerHook ctx a result).clock = s.clock := by
  unfold State.handlerHook
  split <;> simp

@[simp] theorem State.tryRec_clock (n : Nat) (s : State) (ctx a : Nat) : (State.tryRec n s ctx a).clock = s.clock := by
  induction n generalizing s ctx a with
  | zero => rfl
  | succ n ih =>
    unfold State.tryRec
    split
    · rfl
    · split_ifs
      · rfl
      · dsimp only
        split <;> simp [ih]

@[simp] theorem State.tryAt_clock (s : State) (ctx a : Nat) : (s.tryAt ctx a).clock = s.clock := by simp [State.tryAt]

@[simp] theorem State.endChildOf_clock (s : State) (ctx a cls : Nat) : (s.endChildOf ctx a cls).clock = s.clock := by simp [State.endChildOf]

@[simp] theorem State.closeRec_clock (s : State) (ctx a result : Nat) : (s.closeRec ctx a result).clock = s.clock := by simp [State.closeRec]

@[simp] theorem State.dropTaken_clock (s : State) (n : Nat) (l : Launch) : (s.dropTaken n l).clock = s.clock := by simp [State.dropTaken]

@[simp] theorem State.removeUnit_clock (s : State) (u : Nat) : (s.removeUnit u).clock = s.clock := by
  unfold State.removeUnit
  split <;> simp

@[simp] theorem State.gcLaunch_clock (s : State) (n : Nat) : (s.gcLaunch n).clock = s.clock := by simp [State.gcLaunch]

@[simp] theorem State.dropEvicted_clock (s : State) (u : Nat) : (s.dropEvicted u).clock = s.clock := rfl

@[simp] theorem State.discardEvicted_clock (s : State) (n : Nat) (l : Launch) (cls : Nat) : (s.discardEvicted n l cls).clock = s.clock := by
  simp [State.discardEvicted]

@[simp] theorem State.unpark_clock (s : State) (n : Nat) : (s.unpark n).clock = s.clock := rfl

@[simp] theorem State.cancelLaunch_clock (s : State) (n : Nat) : (s.cancelLaunch n).clock = s.clock := by
  unfold State.cancelLaunch
  repeat' split
  all_goals simp

@[simp] theorem State.cancelRec_clock (s : State) (ctx a : Nat) : (s.cancelRec ctx a).1.clock = s.clock := by
  unfold State.cancelRec
  split
  · rfl
  · split
    · rfl
    · dsimp only
      rw [State.clock_foldl fun s x => by simp, State.clock_foldl fun s x => by simp, State.clock_foldl fun s x => by simp]

/-! ### Packets -/

@[simp] theorem State.malformed_clock (s : State) (q ctx : Nat) (p : Pkt) : (s.malformed q ctx p).clock = s.clock := by
  unfold State.malformed
  dsimp only
  repeat' split
  all_goals simp

@[simp] theorem State.registerChain_clock (s : State) (ctx : Nat) (tag : Word) (y : Option Nat) (l : List (Nat × Nat)) :
    (s.registerChain ctx tag y l).1.clock = s.clock := by
  induction l generalizing s y with
  | nil => rfl
  | cons p rest ih =>
    unfold State.registerChain
    dsimp only
    split
    · split_ifs <;> try simp
      all_goals rw [ih]; split <;> simp
    · simp

@[simp] theorem State.launchRecord_clock (s : State) (d : QDesc) (p : Pkt) (y : Option Nat) : (s.launchRecord d p y).clock = s.clock := by
  unfold State.launchRecord
  split <;> simp

@[simp] theorem State.registerLaunch_clock (s : State) (q : Nat) (d : QDesc) (p : Pkt) (handler : Bool) :
    (s.registerLaunch q d p handler).1.clock = s.clock := by
  unfold State.registerLaunch
  dsimp only
  repeat' split
  all_goals simp

@[simp] theorem State.closeUnregistered_clock (s : State) (ctx a : Nat) (r : Rec) : (s.closeUnregistered ctx a r).clock = s.clock := by
  simp [State.closeUnregistered]

@[simp] theorem State.closeLevel_clock (s : State) (ctx a : Nat) : (s.closeLevel ctx a).clock = s.clock := by
  unfold State.closeLevel
  dsimp only
  split <;> simp

/-! ### Mesh reductions -/

@[simp] theorem State.editDesc_clock (s : State) (die n : Nat) (g : MDesc → MDesc) : (s.editDesc die n g).clock = s.clock := rfl

@[simp] theorem State.forgetSeqs_clock (s : State) (die n : Nat) : (s.forgetSeqs die n).clock = s.clock := rfl

@[simp] theorem State.editSeqOf_clock (s : State) (die n q : Nat) (x : MSeq) : (s.editSeqOf die n q x).clock = s.clock := rfl

/-! ### Fences, transactions, the commit -/

@[simp] theorem State.addOp_clock (s : State) (c : Ctx) (mask : Mask) (kind : OpKind) (dst : Option Dst) :
    (s.addOp c mask kind dst).clock = s.clock :=
  rfl

@[simp] theorem State.setTx_clock (s : State) (u w t : Nat) (x : Txn) : (s.setTx u w t x).clock = s.clock := rfl

@[simp] theorem State.intra_clock (s : State) (u w : Nat) (ts : List Nat) : (s.intra u w ts).clock = s.clock := by simp [State.intra]

@[simp] theorem State.validates_clock (s : State) (l : List (Nat × Word)) : (s.validates l).1.clock = s.clock := by
  induction l generalizing s with
  | nil => rfl
  | cons p t ih => simp [State.validates, ih]

@[simp] theorem State.doomMates_clock (s : State) (u w t : Nat) (mates : List Nat) (x : Txn) : (s.doomMates u w t mates x).clock = s.clock := rfl

@[simp] theorem State.writeSet_clock (s : State) (u w t : Nat) (mates : List Nat) (x : Txn) : (s.writeSet u w t mates x).clock = s.clock := by
  unfold State.writeSet
  dsimp only
  rw [State.clock_foldl fun s p => by simp, State.clock_foldl fun s p => by simp, State.doomMates_clock]

@[simp] theorem State.commitThread_clock (s : State) (u w : Nat) (ts : List Nat) (t : Nat) : (s.commitThread u w ts t).1.clock = s.clock := by
  unfold State.commitThread
  dsimp only
  repeat' split
  all_goals simp

@[simp] theorem State.commitAll_clock (s : State) (u w : Nat) (all : List Nat) (l : List Nat) : (s.commitAll u w all l).1.clock = s.clock := by
  induction l generalizing s with
  | nil => rfl
  | cons t ts ih => simp [State.commitAll, ih]

@[simp] theorem State.endTx_clock (s : State) (u w t : Nat) (ok : Bool) : (s.endTx u w t ok).clock = s.clock := by
  unfold State.endTx
  dsimp only
  split <;> simp

@[simp] theorem State.commit_clock (s : State) (u : Nat) (o : Op) : (s.commit u o).clock = s.clock := by
  unfold State.commit
  dsimp only
  repeat' split
  all_goals simp

@[simp] theorem State.giveAll_clock (s : State) (u : Nat) (o : Op) (v : Word) : (s.giveAll u o v).clock = s.clock := by
  unfold State.giveAll
  split <;> simp

@[simp] theorem State.lnch_clock (s : State) (ctx q : Nat) (p : List Byte) : (s.lnch ctx q p).1.clock = s.clock := by
  unfold State.lnch
  split
  · rfl
  · split
    · rfl
    · split
      · rfl
      next h => exact s.append_clock _ _ _ _ h

/-! ### The matrix engine -/

@[simp] theorem State.engineFail_clock (s : State) (u warp fidx : Nat) (m : Mask) (pc under recAddr : Nat) :
    (s.engineFail u warp fidx m pc under recAddr).clock = s.clock := by
  unfold State.engineFail
  dsimp only
  repeat' split
  all_goals simp

theorem EngIns.go_clock (i : EngIns) (h : ∀ c s, (i.onIssue c s).clock = s.clock) (beats : Ctx → Nat) (c : Ctx) (s : State) :
    (i.go beats c s).clock = s.clock := by
  unfold EngIns.go
  split
  · simp
  · refine State.whenReady_clock _ _ _ _ fun s => ?_
    simp only [State.retire_clock, State.editCore_clock, h]
    split <;> simp

theorem EngIns.run_timeless (i : EngIns) (h : ∀ c s, (i.onIssue c s).clock = s.clock) (beats : Ctx → Nat) : Timeless (i.run beats) := by
  have hgo := i.go_clock h beats
  refine withWord_timeless fun c s => ?_
  split
  · simp
  · split
    · simp
    · split
      · simp
      · split
        · exact hgo c s
        · exact State.whenReady_clock _ _ _ _ fun s => State.guarded_clock _ _ _ _ hgo

theorem mmaWord_timeless (k : MmaKind) (scr : Bool) (nm1 : BitVec 7) (a b : Reg) : Timeless (mmaWord k scr nm1 a b) :=
  EngIns.run_timeless _ (fun c s => by simp) _

@[simp] theorem State.engDone_clock (s : State) (core u id : Nat) : (s.engDone core u id).clock = s.clock := rfl

@[simp] theorem State.laneResult_clock (s : State) (u : Nat) (o : Op) (t : Nat) (v : Word) : (s.laneResult u o t v).clock = s.clock := by
  unfold State.laneResult
  split <;> simp

@[simp] theorem State.engPoison_clock (s : State) (core u : Nat) (o : Op) (off : Nat) : (s.engPoison core u o off).clock = s.clock := by
  simp [State.engPoison]

/-! ### Transfers and chains -/

@[simp] theorem State.editJob_clock (s : State) (u op : Nat) (g : Job → Job) : (s.editJob u op g).clock = s.clock := rfl

@[simp] theorem State.pinJob_clock (s : State) (u : Nat) (j : Job) (l : Leaf) : (s.pinJob u j l).clock = s.clock := by simp [State.pinJob]

@[simp] theorem State.engLeaf_clock (s : State) (u : Nat) (un : KUnit) (j : Job) (va : Nat) : (s.engLeaf u un j va).1.clock = s.clock := by
  unfold State.engLeaf
  split
  next e => exact State.clock_of_eq e (s.xlate_clock _ _ _)
  next e => simp [State.clock_of_eq e (s.xlate_clock _ _ _)]

@[simp] theorem State.engPas_clock (s₀ : State) (u : Nat) (un : KUnit) (j : Job) (write : Bool) (l : List Nat) :
    (s₀.engPas u un j write l).1.clock = s₀.clock := by
  induction l generalizing s₀ with
  | nil => rfl
  | cons va vs ih =>
    unfold State.engPas
    split
    next e => exact State.clock_of_eq e (s₀.engLeaf_clock u un j va)
    next t l e =>
      have ht := State.clock_of_eq e (s₀.engLeaf_clock u un j va)
      split_ifs
      · exact ht
      · rfl
      · exact ht
      · exact ht
      · exact ht
      · split
        next e2 => exact (State.clock_of_eq e2 (ih t)).trans ht
        next => exact (ih t).trans ht

@[simp] theorem State.engRead_clock (s : State) (pas : List Nat) : (s.engRead pas).1.clock = s.clock := by
  unfold State.engRead
  refine foldl_keeps (fun p : State × List Byte => p.1.clock = s.clock) _ _ _ rfl fun p a h => ?_
  simp [h]

@[simp] theorem State.engWrite_clock (s : State) (core : Nat) (l : List (Nat × Byte)) : (s.engWrite core l).clock = s.clock := by
  simp [State.engWrite]

@[simp] theorem State.endJob_clock (s : State) (u op : Nat) : (s.endJob u op).clock = s.clock := rfl

@[simp] theorem State.endChain_clock (s : State) (u slot op : Nat) (st : ChainSt) (ptr : Nat) : (s.endChain u slot op st ptr).clock = s.clock := rfl

@[simp] theorem State.failJob_clock (s : State) (u : Nat) (j : Job) (cause : Nat) : (s.failJob u j cause).clock = s.clock := by
  unfold State.failJob
  split <;> simp

@[simp] theorem State.missJob_clock (s : State) (un : KUnit) (u : Nat) (j : Job) (va kind : Nat) (malf : Bool) :
    (s.missJob un u j va kind malf).clock = s.clock :=
  rfl

@[simp] theorem State.addJob_clock (s : State) (c : Ctx) (kind : JobKind) (addr : RecAddr) (co : List Word) (id : Nat) :
    (s.addJob c kind addr co id).clock = s.clock :=
  rfl

theorem xtileWord_timeless (k : BitVec 4) (a : CapReg) (b : Option Reg) : Timeless (xtileWord k a b) := by
  refine withWord_timeless fun c s => ?_
  split_ifs
  · simp
  · split
    · simp
    · exact State.whenReady_clock _ _ _ _ fun s => by simp

theorem xstrmWord_timeless (f : BitVec 2) (a : CapReg) (b : Option Reg) : Timeless (xstrmWord f a b) := by
  refine withWord_timeless fun c s => ?_
  split
  · simp
  · split
    · simp
    · split
      · simp
      · exact State.whenReady_clock _ _ _ _ fun s => by simp

@[simp] theorem State.fetchRecord_clock (s : State) (u : Nat) (un : KUnit) (j : Job) : (s.fetchRecord u un j).1.clock = s.clock := by
  unfold State.fetchRecord
  split
  · split_ifs <;> rfl
  · split_ifs
    · rfl
    · split
      next e =>
        have ht := State.clock_of_eq e (s.engPas_clock u un j false _)
        split_ifs <;> simp [ht]
      next e => exact State.clock_of_eq e (s.engPas_clock u un j false _)

@[simp] theorem State.loadJob_clock (s : State) (un : KUnit) (u : Nat) (j : Job) (b : List Byte) (r : TRec) :
    (s.loadJob un u j b r).clock = s.clock := by
  unfold State.loadJob
  dsimp only
  split
  · split <;> rfl
  · split
    next => rfl
    next e => simp [State.clock_of_eq e (s.engPas_clock u un j false _)]
    next e => simp [State.clock_of_eq e (s.engPas_clock u un j false _)]
    next t tp e =>
      have ht := State.clock_of_eq e (s.engPas_clock u un j false _)
      split
      next => exact ht
      next e2 => simp [(State.clock_of_eq e2 (t.engPas_clock u un j false _)).trans ht]
      next e2 => simp [(State.clock_of_eq e2 (t.engPas_clock u un j false _)).trans ht]
      next t2 sp e2 =>
        have ht2 := (State.clock_of_eq e2 (t.engPas_clock u un j false _)).trans ht
        split
        · exact ht2
        · split <;> simp [ht2]

@[simp] theorem State.fetchJob_clock (s : State) (un : KUnit) (u : Nat) (j : Job) : (s.fetchJob un u j).clock = s.clock := by
  have h := s.fetchRecord_clock u un j
  unfold State.fetchJob
  extract_lets scratch stream chain
  split
  next e => simp [State.clock_of_eq e h]
  next e => simp [State.clock_of_eq e h]
  next => rfl
  next => rfl
  next t b e =>
    have ht := State.clock_of_eq e h
    dsimp only
    split
    · split <;> simp [ht]
    · split <;> simp [ht]

@[simp] theorem State.tileScratch_clock (s : State) (core t off e : Nat) (l : List (Nat × Word)) :
    (s.tileScratch core t off e l).clock = s.clock := by
  unfold State.tileScratch
  refine State.clock_foldl (fun s a => ?_) _ _
  repeat' split
  all_goals simp

@[simp] theorem State.putPieces_clock (s : State) (u f : Nat) (j : Job) (r : TRec) (ks : List Nat) : (s.putPieces u f j r ks).clock = s.clock := rfl

@[simp] theorem State.chunkCovers_clock (s : State) (un : KUnit) (u : Nat) (r : TRec) (c : Nat) : (s.chunkCovers un u r c).clock = s.clock := by
  unfold State.chunkCovers
  split <;> simp

@[simp] theorem State.chunkDone_clock (s : State) (un : KUnit) (u : Nat) (j : Job) (r : TRec) (c : Nat) :
    (s.chunkDone un u j r c).clock = s.clock := by
  unfold State.chunkDone
  repeat' split
  all_goals simp

@[simp] theorem State.someOf_clock (s : State) (l : List Nat) : (s.someOf l).1.clock = s.clock := rfl

@[simp] theorem State.send_clock (s : State) (un : KUnit) (u : Nat) (j : Job) (r : TRec) (l : List Nat) : (s.send un u j r l).clock = s.clock := by
  unfold State.send
  repeat' split
  all_goals simp

theorem State.readChunk_clock (s : State) (un : KUnit) (u : Nat) (j : Job) (r : TRec) (c : Nat) (go : Job → State → State)
    (hgo : ∀ j s, (go j s).clock = s.clock) : (s.readChunk un u j r c go).clock = s.clock := by
  unfold State.readChunk
  dsimp only
  split
  · exact hgo j s
  · split
    next => rfl
    next e => simp [State.clock_of_eq e (s.engPas_clock u un j false _)]
    next e => simp [State.clock_of_eq e (s.engPas_clock u un j false _)]
    next e =>
      have ht := State.clock_of_eq e (s.engPas_clock u un j false _)
      split <;> simp [ht, hgo]

@[simp] theorem State.writeChunk_clock (s : State) (un : KUnit) (u : Nat) (j : Job) (r : TRec) (c : Nat) :
    (s.writeChunk un u j r c).clock = s.clock := by
  unfold State.writeChunk
  extract_lets stream is l
  split
  · split
    next => rfl
    next e => simp [State.clock_of_eq e (s.engPas_clock u un j true _)]
    next e => simp [State.clock_of_eq e (s.engPas_clock u un j true _)]
    next e =>
      have ht := State.clock_of_eq e (s.engPas_clock u un j true _)
      split <;> simp [ht]
  · split
    next e => simp [State.clock_of_choose e]
    next e =>
      dsimp only
      split <;> simp [State.clock_of_choose e]

theorem State.maybeStopChain_clock (s : State) (un : KUnit) (u : Nat) (j : Job) (go : State → State) (hgo : ∀ s, (go s).clock = s.clock) :
    (s.maybeStopChain un u j go).clock = s.clock := by
  unfold State.maybeStopChain
  split
  · split
    · split
      next e => rw [State.endChain_clock, State.clock_of_choose e]
      next e => rw [hgo, State.clock_of_choose e]
    · exact hgo s
  · exact hgo s

@[simp] theorem State.clearOwn_clock (s : State) (un : KUnit) (u : Nat) (j : Job) (b : List Byte) : (s.clearOwn un u j b).1.clock = s.clock := by
  unfold State.clearOwn
  split
  next e =>
    have ht := State.clock_of_eq e (s.engPas_clock u un j true _)
    split_ifs <;> simp [ht]
  next => exact s.engPas_clock u un j true _

@[simp] theorem State.resumeChain_clock (s : State) (un : KUnit) (u slot : Nat) : (s.resumeChain un u slot).clock = s.clock := by
  unfold State.resumeChain
  split <;> simp

/-! ### Images of saved units -/

@[simp] theorem State.schedWrite_clock (s : State) (ctx va : Nat) (bs : List Byte) (n : Nat) : (s.schedWrite ctx va bs n).clock = s.clock := by
  induction n generalizing s va bs with
  | zero => rfl
  | succ n ih =>
    unfold State.schedWrite
    split_ifs
    · rfl
    · rw [ih]
      split <;> simp

@[simp] theorem State.imageWrite_clock (s : State) (l : Launch) (un : KUnit) (off : Nat) (bs : List Byte) :
    (s.imageWrite l un off bs).clock = s.clock := by
  simp [State.imageWrite]

@[simp] theorem State.writeImage_clock (s : State) (un : KUnit) (l : Launch) : (s.writeImage un l).clock = s.clock := by simp [State.writeImage]

@[simp] theorem State.syncImage_clock (old s : State) (u : Nat) : (State.syncImage old s u).clock = s.clock := by
  unfold State.syncImage
  split
  · split_ifs
    · rfl
    · split <;> simp
  · rfl

@[simp] theorem imaged_clock {g : State → State} (h : ∀ s, (g s).clock = s.clock) (s : State) : (imaged g s).clock = s.clock := by
  unfold imaged
  rw [State.clock_foldl (fun t u => State.syncImage_clock s t u), h]

@[simp] theorem wholeImaged_clock (g : State → State) (s : State) (hg : ∀ t, (g t).clock = t.clock) : (wholeImaged g s).clock = s.clock := by
  simp [wholeImaged, hg]

@[simp] theorem State.spill_clock (s : State) (core : Nat) (m : Mark) : (s.spill core m).clock = s.clock := by
  unfold State.spill
  dsimp only
  repeat' split
  all_goals simp

@[simp] theorem State.spillAll_clock (s : State) (core : Nat) (p : Mark → Bool) : (s.spillAll core p).clock = s.clock := by simp [State.spillAll]

@[simp] theorem State.claimBanks_clock (s : State) (core : Nat) : (s.claimBanks core).clock = s.clock := by simp [State.claimBanks]

@[simp] theorem State.restoreUnit_clock (s : State) (u : Nat) (un : KUnit) (l : Launch) : (s.restoreUnit u un l).1.clock = s.clock := by
  simp [State.restoreUnit]

/-! ### Gangs -/

@[simp] theorem State.markWithdrawn_clock (s : State) (d : QDesc) (i : Nat) (p : Pkt) : (s.markWithdrawn d i p).clock = s.clock := by
  simp [State.markWithdrawn]

@[simp] theorem State.withdrawAt_clock (s : State) (q : Nat) (d : QDesc) (tag : Word) (i : Nat) : (s.withdrawAt q d tag i).clock = s.clock := by
  unfold State.withdrawAt
  dsimp only
  repeat' split
  all_goals simp

@[simp] theorem State.withdraw_clock (s : State) (q : Nat) (tag : Word) : (s.withdraw q tag).clock = s.clock := by
  unfold State.withdraw
  split <;> simp

@[simp] theorem State.enterCtx_clock (s : State) (die ctx : Nat) : (s.enterCtx die ctx).clock = s.clock := by
  unfold State.enterCtx
  dsimp only
  repeat' split
  all_goals simp

@[simp] theorem State.handlerTaken_clock (s : State) (ctx : Nat) : (s.handlerTaken ctx).clock = s.clock := rfl

@[simp] theorem State.stamp_clock (s : State) (l : Launch) : (s.stamp l).clock = s.clock := by
  unfold State.stamp
  exact State.clock_foldl (fun s a => by simp) _ _

@[simp] theorem State.enterAll_clock (s : State) (ctx : Nat) (cores : List Nat) : (s.enterAll ctx cores).clock = s.clock := by simp [State.enterAll]

@[simp] theorem State.arrive_clock (s : State) (cores : List Nat) : (s.arrive cores).clock = s.clock := by simp [State.arrive]

@[simp] theorem State.admitNew_clock (s : State) (n : Nat) (l : Launch) (d : QDesc) (place : List Placement) :
    (s.admitNew n l d place).clock = s.clock := by
  unfold State.admitNew
  split <;> simp

@[simp] theorem State.killPruned_clock (s : State) (u core : Nat) : (s.killPruned u core).clock = s.clock := by simp [State.killPruned]

@[simp] theorem State.resumeUnit_clock (s : State) (l : Launch) (u : Nat) (un : KUnit) (p : Placement) : (s.resumeUnit l u un p).clock = s.clock := by
  simp [State.resumeUnit]

@[simp] theorem State.admitAgain_clock (s : State) (n : Nat) (l : Launch) (place : List Placement) : (s.admitAgain n l place).clock = s.clock := by
  simp [State.admitAgain]

@[simp] theorem State.parkGang_clock (s : State) (n : Nat) : (s.parkGang n).clock = s.clock := rfl

@[simp] theorem State.endEvicted_clock (s : State) (u w t : Nat) : (s.endEvicted u w t).clock = s.clock := by
  unfold State.endEvicted
  split <;> simp

@[simp] theorem State.endTxs_clock (s : State) (u : Nat) : (s.endTxs u).clock = s.clock := by
  unfold State.endTxs
  split <;> simp

@[simp] theorem State.evictUnit_clock (s : State) (l : Launch) (u : Nat) : (s.evictUnit l u).clock = s.clock := by
  unfold State.evictUnit
  dsimp only
  split <;> simp

@[simp] theorem State.endTooLarge_clock (s : State) (n : Nat) (l : Launch) : (s.endTooLarge n l).clock = s.clock := by
  unfold State.endTooLarge
  split <;> simp

@[simp] theorem State.watchdog_clock (s : State) (n : Nat) (l : Launch) : (s.watchdog n l).clock = s.clock := by
  unfold State.watchdog
  split <;> simp

/-! ### Contexts -/

@[simp] theorem State.eraseUnit_clock (s : State) (u : Nat) : (s.eraseUnit u).clock = s.clock := by simp [State.eraseUnit]

@[simp] theorem State.eraseLaunches_clock (s : State) (ctx : Nat) : (s.eraseLaunches ctx).clock = s.clock := by
  unfold State.eraseLaunches
  simp only [State.clock_mk]
  rw [State.clock_fields, State.clock_foldl fun s u => by simp, State.clock_foldl fun s u => by simp]
  rfl

@[simp] theorem State.resetQueue_clock (s : State) (q : Nat) : (s.resetQueue q).clock = s.clock := rfl

@[simp] theorem State.eraseSeq_clock (s : State) (sq : Nat) : (s.eraseSeq sq).clock = s.clock := by
  unfold State.eraseSeq
  extract_lets keys t busy t'
  have ht : t.clock = s.clock := State.clock_foldl (fun s k => by split <;> simp) keys s
  have ht' : t'.clock = t.clock := by
    unfold t'
    split <;> simp
  exact ht'.trans ht

@[simp] theorem State.eraseTrees_clock (s : State) (ctx : Nat) : (s.eraseTrees ctx).clock = s.clock := by
  unfold State.eraseTrees
  simp only [State.clock_mk]
  rw [State.clock_fields, State.clock_foldl fun s u => by simp, State.clock_foldl fun s u => by simp]

@[simp] theorem State.eraseTags_clock (s : State) (ctx : Nat) : (s.eraseTags ctx).clock = s.clock := rfl

/-! ### Control registers -/

@[simp] theorem State.writeMsix_clock (s : State) (o : Nat) (bs : List Byte) : (s.writeMsix o bs).clock = s.clock := by simp [State.writeMsix]

/-! ### Errors -/

@[simp] theorem State.circEcc_clock (s : State) (uncorr : Bool) : (s.circEcc uncorr).clock = s.clock := rfl

@[simp] theorem State.retireWith_clock (s : State) (g : Dev → Dev) : (s.retireWith g).clock = s.clock := by simp [State.retireWith]

@[simp] theorem State.dropTooLarge_clock (s : State) : (s.dropTooLarge).clock = s.clock := by simp [State.dropTooLarge]

@[simp] theorem State.retireCore_clock (s : State) (core : Nat) : (s.retireCore core).clock = s.clock := by
  unfold State.retireCore
  dsimp only
  rw [State.dropTooLarge_clock, State.clock_foldl fun s u => by simp, State.retireWith_clock]

@[simp] theorem State.recordUncorr_clock (s : State) (comp : Nat) : (s.recordUncorr comp).clock = s.clock := by simp [State.recordUncorr]

@[simp] theorem State.coreUncorr_clock (s : State) (core : Nat) : (s.coreUncorr core).clock = s.clock := by simp [State.coreUncorr]

@[simp] theorem State.scratchError_clock (s : State) (u off : Nat) : (s.scratchError u off).clock = s.clock := by
  unfold State.scratchError
  split <;> simp

@[simp] theorem State.cacheError_clock (s : State) (core pa : Nat) : (s.cacheError core pa).clock = s.clock := by
  have h : ((wordsOf (pa / 8 * 8) 8).foldl (fun s w => s.editCore core fun k => k.dropWord w) s).clock = s.clock :=
    State.clock_foldl (fun s w => by simp) _ _
  unfold State.cacheError
  dsimp only
  split
  · simp only [State.coreUncorr_clock, State.clock_mk]
    rw [State.clock_fields, State.clock_foldl fun s w => by split <;> simp, h]
  · simp [h]

@[simp] theorem State.beadError_clock (s : State) (b word : Nat) : (s.beadError b word).clock = s.clock := by simp [State.beadError]

@[simp] theorem State.unitCorr_clock (s : State) (u : Nat) : (s.unitCorr u).clock = s.clock := by
  unfold State.unitCorr
  split <;> simp

/-! ### Repair -/

@[simp] theorem State.repairAnswer_clock (s : State) (f : FragRef) (cause : Option Nat) : (s.repairAnswer f cause).clock = s.clock := by
  unfold State.repairAnswer
  split
  · split
    · refine State.clock_foldl (fun s i => ?_) _ _
      dsimp only
      split
      · simp
      · split
        · simp
        · split
          next e => simp [State.clock_of_eq e (State.takeFaults_clock _ _ _)]
          next e => simp [State.clock_of_eq e (State.takeFaults_clock _ _ _)]
    · rfl
  · rfl

@[simp] theorem State.repairStep_clock (s : State) (q act : Nat) (go : State → FragRef → FragRef → Frag → Nat → Repaired)
    (hgo : ∀ s f t x p s', go s f t x p = .done s' → s'.clock = s.clock) : (s.repairStep q act go).clock = s.clock := by
  unfold State.repairStep
  split
  · rfl
  · dsimp only
    split
    · rfl
    · split
      · simp
      · split
        · simp
        · split
          · simp
          · split
            · rfl
            next e => simpa using hgo _ _ _ _ _ _ e
            · simp

@[simp] theorem State.postOne_clock (s : State) (ctx : Nat) (p : Post) : (s.postOne ctx p).clock = s.clock := by
  unfold State.postOne
  repeat' split
  all_goals simp

/-! ### Tree commands -/

@[simp] theorem State.sendTree_clock (s : State) (c : Ctx) (id : Nat) (m : Mask) (ask : TreeAsk) (a b : Nat → Word64) :
    (s.sendTree c id m ask a b).clock = s.clock :=
  rfl

theorem treeIns_timeless (use : List Opn) (d : Option (Reg × Nat)) (ask : TreeAsk) (a b : Ctx → Nat → Word64) : Timeless (treeIns use d ask a b) := by
  refine withWord_timeless fun c s => ?_
  split_ifs
  · simp
  · exact State.whenReady_clock _ _ _ _ fun s => by simp

@[simp] theorem maskgGo_clock (node : Bool) (a : Reg) (k0 : Word) (c : Ctx) (s : State) : (maskgGo node a k0 c s).clock = s.clock := by
  unfold maskgGo
  split_ifs
  · simp
  · exact State.whenReady_clock _ _ _ _ fun s => by simp

@[simp] theorem State.treeLess_clock (s : State) (u op t : Nat) (drop : Bool) : (s.treeLess u op t drop).clock = s.clock := by
  unfold State.treeLess
  dsimp only
  repeat' split
  all_goals simp

@[simp] theorem State.treeDone_clock (s : State) (u op t : Nat) (v : Word64) : (s.treeDone u op t v).clock = s.clock := by
  unfold State.treeDone
  repeat' split
  all_goals simp

@[simp] theorem State.treeFault_clock (s : State) (k : TreeCmd) (cause hint : Nat) : (s.treeFault k cause hint).clock = s.clock := by
  simp [State.treeFault]

@[simp] theorem State.answer_clock (s : State) (k : TreeCmd) (v : Word64) : (s.answer k v).clock = s.clock := by simp [State.answer]

@[simp] theorem State.pruneSlots_clock (s : State) (sq : Nat) (slots : NSet) : (s.pruneSlots sq slots).clock = s.clock := by simp [State.pruneSlots]

@[simp] theorem State.releaseOwned_clock (s : State) (sq owner : Nat) : (s.releaseOwned sq owner).clock = s.clock := by
  unfold State.releaseOwned
  refine State.clock_foldl (fun s k => ?_) _ _
  split <;> simp

@[simp] theorem State.finishClose_clock (s : State) (sq : Nat) : (s.finishClose sq).clock = s.clock := by
  unfold State.finishClose
  split <;> simp

@[simp] theorem State.doFork_clock (s : State) (k : TreeCmd) : (s.doFork k).1.clock = s.clock := by
  unfold State.doFork
  repeat' split
  all_goals simp

@[simp] theorem State.doPrune_clock (s : State) (k : TreeCmd) : (s.doPrune k).1.clock = s.clock := by
  unfold State.doPrune
  repeat' split
  all_goals simp

@[simp] theorem State.doCommit_clock (s : State) (k : TreeCmd) (p : Bool) : (s.doCommit k p).1.clock = s.clock := by
  unfold State.doCommit
  repeat' split
  all_goals simp

@[simp] theorem State.doMask_clock (s : State) (k : TreeCmd) (node : Bool) : (s.doMask k node).clock = s.clock := by
  unfold State.doMask
  split <;> simp

@[simp] theorem State.tooDeep_clock (s : State) (k : TreeCmd) (sq : Nat) : (s.tooDeep k sq).clock = s.clock := by simp [State.tooDeep]

@[simp] theorem State.doMap_clock (s : State) (k : TreeCmd) : (s.doMap k).clock = s.clock := by
  unfold State.doMap
  dsimp only
  repeat' split
  all_goals simp

@[simp] theorem State.freshPage_clock (s : State) (k : TreeCmd) (sq b l : Nat) (q : Seq) (base : Nat) (old : Option (Nat × Nat × Bool)) :
    (s.freshPage k sq b l q base old).clock = s.clock := by
  unfold State.freshPage
  split
  · simp
  next t h =>
    have ht := State.allocPage_clock h
    split
    · simp
    next t2 h2 =>
      have ht2 := (t.putOwn_clock _ _ _ _ _ _ _ h2).trans ht
      split
      · simp [ht2]
      · dsimp only
        split <;> simp [ht2]

@[simp] theorem State.doMapW_clock (s : State) (k : TreeCmd) : (s.doMapW k).clock = s.clock := by
  unfold State.doMapW
  dsimp only
  repeat' split
  all_goals simp

@[simp] theorem State.doRef_clock (s : State) (k : TreeCmd) : (s.doRef k).clock = s.clock := by
  unfold State.doRef
  split
  · simp
  · dsimp only
    split
    · simp
    · split
      · simp
      · split_ifs
        · simp
        · simp
        · simp
        · split
          · simp
          next h =>
            have ht := s.putOwn_clock _ _ _ _ _ _ _ h
            split <;> simp [ht]

@[simp] theorem State.doRel_clock (s : State) (k : TreeCmd) : (s.doRel k).clock = s.clock := by
  unfold State.doRel
  split
  · simp
  · dsimp only
    split
    · simp
    · split
      · simp
      next h => simpa using s.release_clock _ _ _ _ _ h

@[simp] theorem State.doShoot_clock (s : State) (k : TreeCmd) : (s.doShoot k).clock = s.clock := by
  unfold State.doShoot
  dsimp only
  repeat' split
  all_goals simp

@[simp] theorem State.copyFails_clock (s : State) (x : PageCopy) : (s.copyFails x).clock = s.clock := by
  unfold State.copyFails
  split <;> simp

@[simp] theorem State.perform_clock (s : State) (k : TreeCmd) : (s.perform k).clock = s.clock := by
  unfold State.perform
  split
  · simp
  · simp
  · split
    next e => simp [State.clock_of_eq e (s.doCommit_clock k _)]
    next e => exact State.clock_of_eq e (s.doCommit_clock k _)
  · simp
  · split <;> simp
  · simp
  · simp
  · simp
  · simp
  · split
    · rfl
    · dsimp only
      split
      · rfl
      · exact State.onUnit_clock _ _ _ fun s => by simp

@[simp] theorem State.treeRes_clock (s : State) (die res : Nat) : (s.treeRes die res).clock = s.clock := rfl

/-! ### The fabric -/

@[simp] theorem State.freeFb_clock (s : State) (core i : Nat) : (s.freeFb core i).clock = s.clock := by
  unfold State.freeFb
  dsimp only
  split <;> simp

@[simp] theorem State.answerFb_clock (s : State) (die c i : Nat) (frag : State → FragRef → State)
    (job : State → Nat × Job → State)
    (hfrag : ∀ t x1, (frag t x1).clock = t.clock) (hjob : ∀ t x1, (job t x1).clock = t.clock) : (s.answerFb die c i frag job).clock = s.clock := by
  unfold State.answerFb
  dsimp only
  split <;> simp [hfrag, hjob]

@[simp] theorem State.handOver_clock (s : State) (f : FragRef) : (s.handOver f).clock = s.clock := by
  unfold State.handOver
  split <;> simp

@[simp] theorem State.tlbi_clock (s : State) (scope ctx npages : Nat) : (s.tlbi scope ctx npages).clock = s.clock := rfl

@[simp] theorem State.retranslate_clock (s : State) (d : Die) : (s.retranslate d).clock = s.clock := by
  unfold State.retranslate
  refine State.clock_foldl (fun s a => ?_) _ _
  repeat' split
  all_goals simp

@[simp] theorem State.threadAgain_clock (s : State) (d : Die) (u w t : Nat) : (s.threadAgain d u w t).clock = s.clock := by
  unfold State.threadAgain
  dsimp only
  repeat' split
  all_goals simp

@[simp] theorem State.txnsAgain_clock (s : State) (d : Die) : (s.txnsAgain d).clock = s.clock := by simp [State.txnsAgain]

@[simp] theorem State.halfCopy_clock (s : State) (src dst n : Nat) : (s.halfCopy src dst n).clock = s.clock := by simp [State.halfCopy]

@[simp] theorem State.peerAccess_clock (s : State) (ctx : Nat) (a : PeerAccess) : (s.peerAccess ctx a).1.clock = s.clock := by
  unfold State.peerAccess
  dsimp only
  repeat' split
  all_goals simp

@[simp] theorem State.performPacket_clock (s : State) (p : PeerPacket) : (s.performPacket p).clock = s.clock := by simp [State.performPacket]

@[simp] theorem State.drainPeer_clock (s : State) (key : Nat) (n : Nat) : (s.drainPeer key n).clock = s.clock := by
  induction n generalizing s with
  | zero => rfl
  | succ n ih =>
    unfold State.drainPeer
    dsimp only
    split
    · rfl
    · split_ifs
      · rfl
      · simp [ih]

@[simp] theorem State.postLoss_clock (s : State) (dev : Nat) : (s.postLoss dev).clock = s.clock := by
  unfold State.postLoss
  exact State.clock_foldl (fun s a => by simp) _ _

@[simp] theorem State.quiesce_clock (s : State) (dev : Nat) : (s.quiesce dev).clock = s.clock := by simp [State.quiesce]

/-! ### Launch words -/

@[simp] theorem Ctx.readPacket_clock (c : Ctx) (s : State) (a : CapReg) (va : Nat) : (c.readPacket s a va).1.clock = s.clock := by
  unfold Ctx.readPacket
  dsimp only
  split
  next e => exact State.clock_of_eq e (c.late_clock s _ _ _ _)
  next e =>
    have ht := State.clock_of_eq e (c.late_clock s _ _ _ _)
    split_ifs <;> simp [ht]

@[simp] theorem State.launchOp_clock (s : State) (c : Ctx) (d : Reg) (k : OpKind) : (s.launchOp c d k).clock = s.clock := by simp [State.launchOp]

end Sys2Proof.Machine
end

section
/-! SUPPORT. The words and events whose meanings have a shape of their own leave the clock alone (R33). -/
namespace Sys2Proof.Machine

/-! ### Events -/

/-- An event that happens whole or waits. -/
theorem timeless_whole {g : State → State} (h : ∀ s, (g s).clock = s.clock) : Timeless fun s => .next (whole g s) :=
  timeless_next fun s => whole_clock g s h

theorem timeless_wholeImaged {g : State → State} (h : ∀ s, (g s).clock = s.clock) : Timeless fun s => .next (wholeImaged g s) :=
  timeless_next fun s => wholeImaged_clock g s h

/-! ### Capability words -/

theorem execCdrv_timeless (d a b : CapReg) : Timeless (execCdrv d a b) := withWord_timeless fun c s => State.guarded_clock _ _ _ _ fun c s => by simp

/-! ### The walk, faults of accesses, the slices (Access) -/

theorem execSliceAccess_timeless (u op t : Nat) : Timeless (execSliceAccess u op t) := timeless_next fun s => by
  repeat' split
  all_goals simp

/-! ### Barriers -/

theorem execBarinit_timeless (a b : Reg) : Timeless (execBarinit a b) := by
  refine barWord_timeless fun c ba un s => ?_
  dsimp only
  repeat' split
  all_goals simp

theorem execBarwait_timeless (d : PredReg) (a b : Reg) : Timeless (execBarwait d a b) := by
  refine barWord_timeless fun c ba un s => ?_
  dsimp only
  repeat' split
  all_goals simp

theorem execBartst_timeless (d : PredReg) (a b : Reg) : Timeless (execBartst d a b) := by
  refine barWord_timeless fun c ba un s => ?_
  dsimp only
  repeat' split
  all_goals simp

theorem execBardrop_timeless (a : Reg) : Timeless (execBardrop a) := by
  refine barWord_timeless fun c ba un s => ?_
  repeat' split
  all_goals simp

/-! ### Loads and stores -/

theorem execPref_timeless (l2 : Bool) (mr : MemRef) : Timeless (execPref l2 mr) := withWord_timeless fun c s => by simp

/-! ### Control words -/

theorem execBra_timeless (off : BitVec 23) : Timeless (execBra off) := transfer_timeless _ _ _ _

theorem execCall_timeless (off : BitVec 23) : Timeless (execCall off) := transfer_timeless _ _ _ _

theorem execBrx_timeless (a : Reg) : Timeless (execBrx a) := transfer_timeless _ _ _ _

theorem execCallx_timeless (d a : Reg) : Timeless (execCallx d a) := transfer_timeless _ _ _ _

theorem execRet_timeless (a : Reg) : Timeless (execRet a) := transfer_timeless _ _ _ _

theorem execJoin_timeless : Timeless execJoin := by
  refine withWord_timeless fun c s => ?_
  split <;> simp

theorem execExit_timeless : Timeless execExit := withWord_timeless fun c s => by simp

theorem execYield_timeless : Timeless execYield := withWord_timeless fun c s => by simp

theorem execNop_timeless : Timeless execNop := withWord_timeless fun c s => by simp

theorem execUnassignedOpcode_timeless (w : Word) : Timeless (execUnassignedOpcode w) := withWord_timeless fun c s => by simp

theorem execTrap_timeless (imm : BitVec 16) : Timeless (execTrap imm) := withWord_timeless fun c s => by simp

theorem execBkpt_timeless (imm : BitVec 16) : Timeless (execBkpt imm) := withWord_timeless fun c s => by simp

theorem execTfence_timeless : Timeless execTfence := withWord_timeless fun c s => by simp

theorem execSetfmt_timeless (mode : FmtMode) (imm : BitVec 16) : Timeless (execSetfmt mode imm) := withWord_timeless fun c s => by simp

theorem execSrd_timeless (d : Reg) (imm : BitVec 16) : Timeless (execSrd d imm) := by
  refine withWord_timeless fun c s => ?_
  extract_lets scalar
  split
  · simp
  · split
    · simp
    · split
      · simp
      · exact State.whenReady_clock _ _ _ _ fun s => by simp

theorem execSwr_timeless (a : Reg) (imm : BitVec 16) : Timeless (execSwr a imm) := withWord_timeless fun c s => by simp

theorem execWaitf_timeless (mask : BitVec 12) : Timeless (execWaitf mask) := withWord_timeless fun c s => by simp

theorem execClkw_timeless (a : Reg) : Timeless (execClkw a) := withWord_timeless fun c s => by simp

theorem execClauseStart_timeless (core lane : Nat) : Timeless (execClauseStart core lane) := timeless_next fun s => by
  repeat' split
  all_goals simp

theorem execFragmentWake_timeless (f : FragRef) : Timeless (execFragmentWake f) := timeless_next fun s => by
  repeat' split
  all_goals simp

theorem execDeadFragmentFree_timeless (f : FragRef) : Timeless (execDeadFragmentFree f) := timeless_next fun s => by
  repeat' split
  all_goals simp

/-! ### The Circlet -/

theorem execBpass_timeless (a : Reg) : Timeless (execBpass a) := withWord_timeless fun c s => by simp

theorem execBeadPass_timeless (b st : Nat) : Timeless (execBeadPass b st) := timeless_next fun s => by simp

theorem execBoardMarkReply_timeless (b : Nat) : Timeless (execBoardMarkReply b) := timeless_next fun s => by
  dsimp only
  repeat' split
  all_goals simp

theorem execAlightHomeWrite_timeless (k : Nat) : Timeless (execAlightHomeWrite k) := by
  refine timeless_whole fun s => ?_
  split
  · rfl
  next w _ =>
    split
    · rfl
    · extract_lets pa t t' t'' t3
      have ht' : t'.clock = s.clock := by
        unfold t'
        split
        · simp
        · exact s.agentWrite_clock _ _
      have ht3 : t3.clock = s.clock := by
        unfold t3
        split <;> simp [t'', ht']
      split
      · exact ht3
      · exact ht3

theorem execCircQuotaInvalidate_timeless (ctx : Nat) : Timeless (execCircQuotaInvalidate ctx) := timeless_next fun s => by simp

theorem execCircClearBead_timeless (b : Nat) : Timeless (execCircClearBead b) := timeless_next fun s => by simp

/-! ### Hallmark pages -/

theorem execPageFree_timeless (p : Nat) : Timeless (execPageFree p) := timeless_next fun s => by
  repeat' split
  all_goals simp

theorem execHallmarkScrubCheck_timeless (die : Nat) : Timeless (execHallmarkScrubCheck die) := by
  refine timeless_whole fun s => ?_
  extract_lets d l
  split
  · rfl
  next p _ =>
    split
    · rfl
    · extract_lets t r t'
      have ht : t'.clock = s.clock := t.pageCrc_clock p
      split
      · exact ht
      · rw [State.editDie_clock, State.clock_mk]
        exact ht

/-! ### Cross-thread words -/

theorem execShflIdx_timeless (m : ShflWidth) (d a : Reg) (b : Opd) : Timeless (execShflIdx m d a b) := withWord_timeless fun c s => by simp

theorem execShflUp_timeless (m : ShflWidth) (d a : Reg) (b : Opd) : Timeless (execShflUp m d a b) := withWord_timeless fun c s => by simp

theorem execShflDown_timeless (m : ShflWidth) (d a : Reg) (b : Opd) : Timeless (execShflDown m d a b) := withWord_timeless fun c s => by simp

theorem execShflXor_timeless (m : ShflWidth) (d a : Reg) (b : Opd) : Timeless (execShflXor m d a b) := withWord_timeless fun c s => by simp

/-! ### Mesh reductions -/

theorem execMredDescValidate_timeless (die n : Nat) (ctl : Word) : Timeless (execMredDescValidate die n ctl) := timeless_next fun s => by simp

theorem execMredDescInvalidate_timeless (die n : Nat) : Timeless (execMredDescInvalidate die n) := timeless_next fun s => by simp

theorem execMred_timeless (op : FoldOp) (ty : MredTy) (a b : Reg) : Timeless (execMred op ty a b) := by
  refine withWord_timeless fun c s => ?_
  split
  · simp
  · refine State.whenReady_clock _ _ _ _ fun s => ?_
    split
    · simp
    · dsimp only
      split <;> simp

theorem execMrwait_timeless (d b : Reg) : Timeless (execMrwait d b) := by
  refine withWord_timeless fun c s => ?_
  repeat' split
  all_goals simp

theorem execMeshReductionInput_timeless (die n q i src : Nat) : Timeless (execMeshReductionInput die n q i src) := timeless_next fun s => by
  dsimp only
  repeat' split
  all_goals simp

theorem execMeshReductionTimeout_timeless (die n q i : Nat) : Timeless (execMeshReductionTimeout die n q i) := timeless_next fun s => by
  dsimp only
  repeat' split
  all_goals simp

theorem execMeshReductionResult_timeless (die n q core : Nat) : Timeless (execMeshReductionResult die n q core) := timeless_next fun s => by
  dsimp only
  repeat' split
  all_goals simp

/-! ### Fences, transactions, the commit -/

theorem execFence_timeless (m : FenceKind) (sc : Scope) : Timeless (execFence m sc) := withWord_timeless fun c s => by simp

theorem execXfence_timeless (sc : Scope) (a b : PathId) : Timeless (execXfence sc a b) := by
  refine withWord_timeless fun c s => ?_
  rw [State.retire_clock]
  split <;> simp

theorem execTbegin_timeless : Timeless execTbegin := withWord_timeless fun c s => by simp

theorem execSolitaryGrant_timeless : Timeless execSolitaryGrant := timeless_next fun s => by
  repeat' split
  all_goals simp

theorem execTabort_timeless (n : BitVec 7) : Timeless (execTabort n) := withWord_timeless fun c s => State.whenReady_clock _ _ _ _ fun s => by simp

theorem execTstat_timeless (d : Reg) : Timeless (execTstat d) := withWord_timeless fun c s => State.whenReady_clock _ _ _ _ fun s => by simp

theorem execTend_timeless (d : PredReg) : Timeless (execTend d) := by
  refine withWord_timeless fun c s => ?_
  split
  · simp
  · exact State.whenReady_clock _ _ _ _ fun s => by simp

theorem execMemoryOpComplete_timeless (u op : Nat) : Timeless (execMemoryOpComplete u op) := by
  refine timeless_whole fun s => ?_
  rw [State.settleDrops_clock]
  split
  · rfl
  · split
    · rfl
    next o ho =>
      dsimp only
      split
      · rfl
      · split
        · split <;> simp
        · split <;> simp
        · split
          · split <;> simp
          · rfl
        · split <;> simp
        · simp
        · simp
        · split <;> simp
        · split <;> simp
        · simp
        · simp
        · rfl

/-! ### The matrix engine -/

theorem execCbld_timeless (k : BitVec 2) (a : CapReg) : Timeless (execCbld k a) := by
  refine withWord_timeless fun c s => ?_
  split
  · simp
  · refine State.whenReady_clock _ _ _ _ fun s => ?_
    dsimp only
    split
    next e => simp [State.clock_of_eq e (c.check_clock s _ _ _ _ _)]
    next e => simp [State.clock_of_eq e (c.check_clock s _ _ _ _ _)]

theorem execMatrixKStep_timeless (core u : Nat) : Timeless (execMatrixKStep core u) := timeless_next fun s => by
  repeat' split
  all_goals simp

theorem execEngineQueueOp_timeless (core u : Nat) : Timeless (execEngineQueueOp core u) := timeless_next fun s => by
  repeat' split
  all_goals simp

/-! ### Transfers and chains -/

theorem execXchain_timeless (d a b : Reg) : Timeless (execXchain d a b) := by
  refine withWord_timeless fun c s => ?_
  split
  · simp
  · dsimp only
    split
    · simp
    · split
      · simp
      · split
        next e => exact (State.whenReady_clock _ _ _ _ fun s => by simp).trans (State.clock_of_choose e)
        · simp
        next e => simp [State.clock_of_choose e]

theorem execXstat_timeless (m : Bool) (d b : Reg) : Timeless (execXstat m d b) := withWord_timeless fun c s => by simp

theorem execXstop_timeless (b : Reg) : Timeless (execXstop b) := withWord_timeless fun c s => by simp

theorem execChkt_timeless (d : PredReg) (a : Reg) (k : BitVec 4) : Timeless (execChkt d a k) := withWord_timeless fun c s => by simp

theorem execChkw_timeless (a : Reg) (k : BitVec 4) : Timeless (execChkw a k) := withWord_timeless fun c s => by simp

theorem execTransferRecordFetch_timeless (u op : Nat) : Timeless (execTransferRecordFetch u op) := timeless_next fun s => by
  repeat' split
  all_goals simp

theorem execChunkComplete_timeless (u op c : Nat) : Timeless (execChunkComplete u op c) := by
  refine timeless_next fun s => ?_
  split
  · rfl
  next un _ =>
    split
    · rfl
    next j _ =>
      split
      · rfl
      next b _ =>
        dsimp only
        split
        · simp
        · split
          · simp
          · split
            · rfl
            · refine State.maybeStopChain_clock _ _ _ _ _ fun s => ?_
              have hgo := s.readChunk_clock un u j (TRec.of b j.co) c _ fun j' s => s.writeChunk_clock un u j' (TRec.of b j.co) c
              rw [State.clock_ite, State.failJob_clock, hgo, ite_self]

theorem execChainRecordStep_timeless (u slot : Nat) : Timeless (execChainRecordStep u slot) := by
  refine timeless_next fun s => ?_
  split
  · rfl
  next un _ =>
    split
    · split <;> simp
    next j _ =>
      split
      · simp
      · split
        · rfl
        · split
          · split_ifs <;> simp
          next b _ =>
            have h := s.clearOwn_clock un u j b
            dsimp only
            split
            · rfl
            · split
              next => rfl
              next e => simp [State.clock_of_eq e h]
              next e => simp [State.clock_of_eq e h]
              next e => exact State.clock_of_eq e h
              next e => split_ifs <;> simp [State.clock_of_eq e h]

/-! ### Gangs -/

theorem execDoorbellTail_timeless (q : Nat) (tail : Word) : Timeless (execDoorbellTail q tail) := timeless_next fun s => by
  repeat' split
  all_goals simp

theorem execDoorbellWithdraw_timeless (q : Nat) (tag : Word) : Timeless (execDoorbellWithdraw q tag) := timeless_next fun s => by simp

theorem execDoorbellWithdrawCancel_timeless (q : Nat) (tag : Word) : Timeless (execDoorbellWithdrawCancel q tag) := timeless_next fun s => by simp

theorem execDoorbellCancel_timeless (q : Nat) (va : Word64) : Timeless (execDoorbellCancel q va) := by
  refine timeless_wholeImaged fun s => ?_
  split
  · rfl
  · split
    · rfl
    · simp

theorem execQueueMap_timeless (q : Nat) : Timeless (execQueueMap q) := by
  refine timeless_whole fun s => ?_
  extract_lets t
  have ht : t.clock = s.clock := by
    unfold t
    split <;> simp
  split
  · simp [ht]
  · split
    · split <;> simp [ht]
    · exact ht

theorem execSliceExpiry_timeless (die slot : Nat) : Timeless (execSliceExpiry die slot) := timeless_next fun s => by
  repeat' split
  all_goals simp

theorem execPacketTake_timeless (die slot : Nat) : Timeless (execPacketTake die slot) := by
  refine timeless_wholeImaged fun s => ?_
  split
  · rfl
  next v _ =>
    extract_lets q
    split
    · rfl
    next d _ =>
      split
      · rfl
      · extract_lets handler t t2 t3
        have ht : t2.clock = s.clock := by
          unfold t2 t
          split <;> simp
        split
        · split <;> simp [t3, ht]
        · dsimp only
          split
          · simp [ht]
          · split
            · split <;> simp [ht]
            · split
              · split
                next e => simp [State.clock_of_eq e (t2.registerLaunch_clock _ _ _ _), ht]
                next e => simp [State.clock_of_eq e (t2.registerLaunch_clock _ _ _ _), ht]
              · simp [ht]
              · simp [ht]

theorem execGangAdmission_timeless (n : Nat) (place : List Placement) : Timeless (execGangAdmission n place) := by
  refine timeless_whole fun s => ?_
  split
  · rfl
  · split
    · rfl
    · split
      · simp
      · split <;> simp

theorem execStartHoldRelease_timeless (u : Nat) : Timeless (execStartHoldRelease u) := timeless_next fun s => by
  repeat' split
  all_goals simp

theorem execCandidateBlocking_timeless (n : Nat) : Timeless (execCandidateBlocking n) := timeless_next fun s => by
  repeat' split
  all_goals simp

theorem execGangParked_timeless (n : Nat) : Timeless (execGangParked n) := timeless_next fun s => by
  repeat' split
  all_goals simp

theorem execGangDrained_timeless (n : Nat) : Timeless (execGangDrained n) := by
  refine timeless_wholeImaged fun s => ?_
  split
  · rfl
  next l _ =>
    extract_lets us
    split
    · have h : (us.foldl (fun s p => s.evictUnit l p.1) s).clock = s.clock := State.clock_foldl (fun s p => by simp) us s
      split
      · exact (State.endTooLarge_clock _ _ _).trans h
      · exact h
    · rfl

theorem execParklimExpiry_timeless (n : Nat) : Timeless (execParklimExpiry n) := by
  refine timeless_whole fun s => ?_
  split
  · rfl
  · split
    · rfl
    · split <;> simp

theorem execRunlimExpiry_timeless (n : Nat) : Timeless (execRunlimExpiry n) := by
  refine timeless_whole fun s => ?_
  split
  · rfl
  · split
    · rfl
    · split <;> simp

theorem execUnitEnd_timeless (u : Nat) : Timeless (execUnitEnd u) := by
  refine timeless_wholeImaged fun s => ?_
  split
  · split <;> simp
  · rfl

/-! ### Contexts -/

theorem execContextIdFree_timeless (ctx : Nat) : Timeless (execContextIdFree ctx) := by
  refine timeless_whole fun s => ?_
  simp only [State.clock_mk, State.clock_fields, State.eraseTags_clock, State.freeBeads_clock, State.eraseTrees_clock]
  exact (State.clock_foldl (fun s q => by simp) _ _).trans (s.eraseLaunches_clock ctx)

/-! ### Control registers -/

theorem execCsrWrite_timeless (off size : Nat) (val : Word64) : Timeless (execCsrWrite off size val) := timeless_next fun s => by
  dsimp only
  repeat' split
  all_goals simp

/-! ### Errors -/

theorem execUncorrectableError_timeless (e : ErrSite) : Timeless (execUncorrectableError e) := by
  refine timeless_wholeImaged fun s => ?_
  split
  · split <;> simp
  · simp
  · split
    · split <;> simp
    · rfl
  · split <;> simp
  · split <;> simp
  · split <;> simp
  · split <;> simp

theorem execCorrectableError_timeless (e : ErrSite) : Timeless (execCorrectableError e) := timeless_next fun s => by
  repeat' split
  all_goals simp

theorem execPatrolScrub_timeless (die : Nat) : Timeless (execPatrolScrub die) := timeless_next fun _ => rfl

theorem execBridlePortFail_timeless (port : Nat) : Timeless (execBridlePortFail port) := timeless_next fun s => by simp

/-! ### Repair -/

theorem execRepairResume_timeless (q : Nat) : Timeless (execRepairResume q) := by
  refine timeless_wholeImaged fun s => State.repairStep_clock _ _ _ _ fun s f t x p s' e => ?_
  dsimp only at e
  split at e
  · injection e with e
    rw [e]
  · split at e
    · exact absurd e nofun
    · injection e with e
      rw [← e]
      split <;> simp

theorem execRepairKill_timeless (q : Nat) : Timeless (execRepairKill q) := by
  refine timeless_wholeImaged fun s => State.repairStep_clock _ _ _ _ fun s f t x p s' e => ?_
  split at e
  · injection e with e
    rw [e]
  · injection e with e
    rw [← e, State.repairKill_clock]

theorem execRepairSplit_timeless (q : Nat) : Timeless (execRepairSplit q) := by
  refine timeless_wholeImaged fun s => State.repairStep_clock _ _ _ _ fun s f t x p s' e => ?_
  dsimp only at e
  split at e
  · exact absurd e nofun
  · split at e
    · exact absurd e nofun
    · injection e with e
      subst e
      exact State.onUnit_clock _ _ _ fun s => State.editWarp_clock _ _ _ _

theorem execRepairFuse_timeless (q : Nat) : Timeless (execRepairFuse q) := by
  refine timeless_wholeImaged fun s => State.repairStep_clock _ _ _ _ fun s f t x p s' e => ?_
  split at e
  · exact absurd e nofun
  · split at e
    · exact absurd e nofun
    · injection e with e
      subst e
      exact State.onUnit_clock _ _ _ fun s => State.editWarp_clock _ _ _ _

theorem execRepairKillwarp_timeless (q : Nat) : Timeless (execRepairKillwarp q) := by
  refine timeless_wholeImaged fun s => State.repairStep_clock _ _ _ _ fun s f t x p s' e => ?_
  injection e with e
  subst e
  exact State.onUnit_clock _ _ _ fun s => by simp

theorem execFaultRecordPost_timeless (ctx : Nat) : Timeless (execFaultRecordPost ctx) := by
  refine timeless_wholeImaged fun s => ?_
  extract_lets t
  have ht : t.clock = s.clock := by simp [t]
  split
  · split
    · exact (State.onUnit_clock _ _ _ fun s => by simp).trans ht
    · exact ht
  · split
    · split
      · exact (State.clock_foldl (fun s f => by simp) _ _).trans ht
      · exact ht
    · simp [ht]

theorem execHandlerLaunchStart_timeless (ctx : Nat) : Timeless (execHandlerLaunchStart ctx) := by
  refine timeless_wholeImaged fun s => ?_
  extract_lets t
  have ht : t.clock = s.clock := by simp [t]
  split
  · exact ht
  next e _ =>
    split
    · exact ht
    · extract_lets t2
      have ht2 : t2.clock = s.clock := by simp [t2, ht]
      split
      · dsimp only
        split
        · simp [ht2]
        · split_ifs
          · simp [ht2]
          · exact ht2
          · split
            · simp [ht2]
            next h =>
              have h2 := State.append_clock _ _ _ _ _ h
              split
              · simp [h2, ht2]
              next h' => simp [State.append_clock _ _ _ _ _ h', h2, ht2]
      · simp [ht2]

/-! ### Tree commands -/

theorem execNtag_timeless (a : Reg) : Timeless (execNtag a) := by
  refine withWord_timeless fun c s => ?_
  repeat' split
  all_goals simp

theorem execNtagClr_timeless : Timeless execNtagClr := withWord_timeless fun c s => by simp

theorem execMaskg_timeless (m : Bool) (a b : Reg) : Timeless (execMaskg m a b) := withWord_timeless fun c s => by simp

theorem execPruneKillDelivery_timeless (k core : Nat) : Timeless (execPruneKillDelivery k core) := by
  refine timeless_wholeImaged fun s => ?_
  split
  · rfl
  · split
    · rfl
    · exact State.clock_foldl (fun s u => State.onUnit_clock _ _ _ fun s => by simp) _ _

theorem execPruneReleaseDone_timeless (sq slot : Nat) : Timeless (execPruneReleaseDone sq slot) := by
  refine timeless_whole fun s => ?_
  split
  · rfl
  · split
    · rfl
    · simp

theorem execNodeRewriteAck_timeless (sq : Nat) : Timeless (execNodeRewriteAck sq) := by
  refine timeless_wholeImaged fun s => ?_
  split
  · rfl
  · split
    · rfl
    · split
      · rfl
      · simp

theorem execKvshootAck_timeless (k : Nat) : Timeless (execKvshootAck k) := by
  refine timeless_next fun s => ?_
  split
  · rfl
  · simp only [State.treeDone_clock]
    exact State.clock_foldl (fun s p => by simp) _ _

theorem execHallmarkCopyComplete_timeless (k : Nat) : Timeless (execHallmarkCopyComplete k) := by
  refine timeless_whole fun s => ?_
  split
  · rfl
  · dsimp only
    split
    · rfl
    · split <;> simp

theorem execTreeCommandArrival_timeless (k : Nat) : Timeless (execTreeCommandArrival k) := by
  refine timeless_wholeImaged fun s => ?_
  split
  · rfl
  · split
    · rfl
    · simp

theorem execTreeCmdOpen_timeless (die sq : Nat) : Timeless (execTreeCmdOpen die sq) := by
  refine timeless_whole fun s => ?_
  split
  · rfl
  · split
    · simp
    · split
      · simp
      · extract_lets t
        have ht : t.clock = s.clock := by
          unfold t
          split <;> simp
        split
        · simp [ht]
        · dsimp only
          split
          · simp [ht]
          · split <;> simp [ht]

theorem execTreeCmdClose_timeless (die sq : Nat) : Timeless (execTreeCmdClose die sq) := by
  refine timeless_whole fun s => ?_
  split
  · rfl
  · split
    · simp
    · split
      · simp
      · split
        · simp
        · split
          · rfl
          · simp only [State.finishClose_clock, State.editDie_clock, State.editSeq_clock]
            split <;> simp

theorem execTreeCmdFlatten_timeless (die sq : Nat) : Timeless (execTreeCmdFlatten die sq) := by
  refine timeless_whole fun s => ?_
  split
  · rfl
  · split
    · simp
    · split
      · simp
      · split
        · rfl
        · simp

/-! ### The fabric -/

theorem execFaultQueueCopy_timeless (die : Nat) : Timeless (execFaultQueueCopy die) := by
  refine timeless_whole fun s => ?_
  dsimp only
  split
  · rfl
  · split
    · rfl
    · split <;> simp

theorem execDieFqackRetry_timeless (die c i : Nat) : Timeless (execDieFqackRetry die c i) :=
  timeless_wholeImaged fun s => State.answerFb_clock _ _ _ _ _ _ (fun s f => by simp) fun s p => by simp

theorem execDieFqackFail_timeless (die c i : Nat) : Timeless (execDieFqackFail die c i) := timeless_next fun s => by simp

theorem execTlbiRange_timeless (ctx npages : Nat) : Timeless (execTlbiRange ctx npages) := timeless_next fun s => by simp

theorem execTlbiContext_timeless (ctx : Nat) : Timeless (execTlbiContext ctx) := timeless_next fun s => by simp

theorem execTlbiAll_timeless : Timeless execTlbiAll := timeless_next fun s => by simp

theorem execTlbiComplete_timeless : Timeless execTlbiComplete := timeless_next fun s => by simp

theorem execMigrationGo_timeless (die size : Nat) : Timeless (execMigrationGo die size) := timeless_next fun s => by
  dsimp only
  repeat' split
  all_goals simp

theorem execMigrationCopyDone_timeless (die : Nat) : Timeless (execMigrationCopyDone die) := timeless_next fun s => by simp

theorem execMigrationSwitch_timeless (die : Nat) : Timeless (execMigrationSwitch die) := timeless_next fun s => by simp

theorem execMigrationAbort_timeless (die : Nat) : Timeless (execMigrationAbort die) := timeless_next fun s => by simp

theorem execNocWindowExpiry_timeless (die imbalance : Nat) : Timeless (execNocWindowExpiry die imbalance) := timeless_next fun s => by simp

theorem execPeerPacketArrival_timeless (p : PeerPacket) : Timeless (execPeerPacketArrival p) := timeless_next fun s => by simp

theorem execPeerAck_timeless (u op t : Nat) (val : BitVec 128) (cause : Nat) : Timeless (execPeerAck u op t val cause) := timeless_next fun s => by
  repeat' split
  all_goals simp

theorem execPeerLoss_timeless (dev : Nat) : Timeless (execPeerLoss dev) := timeless_next fun s => by simp

theorem execQuiesceReceived_timeless (dev : Nat) : Timeless (execQuiesceReceived dev) := timeless_next fun s => by simp

theorem execQuiesceClear_timeless : Timeless execQuiesceClear := timeless_next fun s => by simp

/-! ### The host port -/

theorem execHostBar4Write_timeless (off : Nat) (bs : List Byte) : Timeless (execHostBar4Write off bs) := timeless_next fun s => by simp

theorem execHostBar4Read_timeless (off n : Nat) : Timeless (execHostBar4Read off n) := timeless_next fun s => by simp

theorem execBar4Resize_timeless (log2 : Nat) : Timeless (execBar4Resize log2) := timeless_next fun s => by simp

theorem execBootStageComplete_timeless (ok : Bool) : Timeless (execBootStageComplete ok) := timeless_next fun s => by
  dsimp only
  repeat' split
  all_goals simp

theorem execAttestGo_timeless : Timeless execAttestGo := timeless_next fun s => by simp

theorem execAttestComplete_timeless : Timeless execAttestComplete := timeless_next fun s => by simp

theorem execThrottleStepDown_timeless (thermal : Bool) : Timeless (execThrottleStepDown thermal) := timeless_next fun s => by simp

theorem execThrottleRecovery_timeless : Timeless execThrottleRecovery := timeless_next fun s => by simp

theorem execThermalShutdown_timeless : Timeless execThermalShutdown := timeless_next fun s => by simp

/-! ### Launch words -/

theorem execLnch_timeless (d : Reg) (a : CapReg) (b : Reg) : Timeless (execLnch d a b) := by
  refine withWord_timeless fun c s => ?_
  split
  · simp
  · dsimp only
    split
    · simp
    · split
      · simp
      · refine State.whenReady_clock _ _ _ _ fun s => ?_
        split
        next e => simp [State.clock_of_eq e (c.readPacket_clock s _ _)]
        next => rfl
        next e => simp [State.clock_of_eq e (c.readPacket_clock s _ _)]

theorem execLcancel_timeless (d : Reg) (a : CapReg) : Timeless (execLcancel d a) := by
  refine withWord_timeless fun c s => ?_
  repeat' split
  all_goals simp

theorem execLjoin_timeless (d : Reg) (a : CapReg) : Timeless (execLjoin d a) := by
  refine withWord_timeless fun c s => ?_
  repeat' split
  all_goals simp

end Sys2Proof.Machine
end

section
/-! SUPPORT. Only ticks and resets of the device move the clock (R33): every row of the opcode table, the decoder, the step. -/
namespace Sys2Proof.Machine

/-! ### Every row of the opcode table but the resets -/

/-- The events that reset the device, and with it the clock. -/
def ResetsDevice (i : Instr) : Prop := i = .powerOnReset ∨ i = .powerOff ∨ i = .bootCommit

theorem exec_timeless (i : Instr) (h : ¬ResetsDevice i) : Timeless (exec i) := by
  cases i
  case addI32 | addI64 | subI32 | subI64 | addiI32 | addiI64 | mulI32 | mulI64 | mulhI32 | mulhN32 | mulhI64 | mulhN64 | madI32 | madI64
    | addcN32 | leaN32 | minI32 | minN32 | minI64 | minN64 | maxI32 | maxN32 | maxI64 | maxN64 | absI32 | absI64 | negI32 | negI64 | isetI32
    | isetN32 | isetI64 | isetN64 | andB | orB | xorB | andnB | shlB | shrB | sarB | rotlB | shliB | shriB | sariB | fshlB | bfxN32 | bfxI32
    | bfiB | prmtB | popcB | clzB | ctzB | brevB | selB | movB | movBLit | movi | movh | pset | pmovToReg | pmovToPred | pmovPack | pmovUnpack
    | shlN64 | shrN64 | sarI64 | movN64 | movN64Lit | andN64 | orN64 | xorN64 | andnN64 | popcN64 | clzN64 | ctzN64 | brevN64 | selN64 | leaN64
    | faddF32 | fmulF32 | ffmaF32 | ffmaNpF32 | ffmaNcF32 | ffmaNpcF32 | fminF32 | fmaxF32 | fsetF32 | fclassF32 | frndF32 | frcpF32 | frsqF32
    | fsqrtF32 | fex2F32 | flg2F32 | fsinF32 | fcosF32 | ftanhF32 | hadd2Bf16x2 | hadd2F16x2 | hmul2Bf16x2 | hmul2F16x2 | hfma2Bf16x2
    | hfma2F16x2 | fcvtF32F16 | fcvtF32Bf16 | fcvtF16F32 | fcvtBf16F32 | fcvtF16Bf16 | fcvtBf16F16 | fcvtF16x2F32 | fcvtBf16x2F32 | fcvtF32I32
    | fcvtF32N32 | fcvtF32I64 | fcvtF32N64 | fcvtI32F32 | fcvtN32F32 | fcvtI64F32 | fcvtN64F32 | fcvtI16F32 | fcvtN16F32 | fcvtI8F32 | fcvtN8F32
    | fcvtF32I16 | fcvtF32N16 | fcvtF32I8 | fcvtF32N8 | ballot | voteEvery | voteSome | voteAgree | xchm | redwI32 | redwN32 | redwF32 | redwB
    | scanwI32 | scanwN32 | scanwF32 | cget | ctstTag | ctstSub => exact Alu.run_timeless _
  case ldN8 | ldI8 | ldN16 | ldI16 | ldN32 | ldN64 | ldaN32 | ldaN64 | stN8 | stN16 | stN32 | stN64 | stlN32 | stlN64 | ldc | stc | atomAddN32
    | atomAddN64 | atomAddF32 | atomMinI32 | atomMinN32 | atomMinI64 | atomMinN64 | atomMaxI32 | atomMaxN32 | atomMaxI64 | atomMaxN64
    | atomAndN32 | atomAndN64 | atomOrN32 | atomOrN64 | atomXorN32 | atomXorN64 | atomExchN32 | atomExchN64 | atomCasN32 | atomCasN64 | redAddN32
    | redAddN64 | redAddF32 | redMinI32 | redMinN32 | redMinI64 | redMinN64 | redMaxI32 | redMaxN32 | redMaxI64 | redMaxN64 | redAndN32
    | redAndN64 | redOrN32 | redOrN64 | redXorN32 | redXorN64 => exact MemIns.run_timeless _
  case accz | acczAll | accldF32 | accstF32 | accsv | accrs | accmx | accexs | accmsk | accldBf16 | accldF16 | accstBf16 | accstF16
    | accstI8 => exact EngIns.run_timeless _ (fun _ _ => rfl) _
  case board | alight | bcapAdd | bcapMin | bcapMax | bcapAnd | bcapOr | bcapSwap | bcapCas | bcapFadd | bread => exact CircIns.run_timeless _ _
  case nfork | nprune | ncommit | nquery | kvmap | kvref | kvrel | kvshoot => exact treeIns_timeless _ _ _ _ _
  case mmaBf16 | mmaF16 | mmaF32 | mmaK4 | mmaI8 | mmabXor | mmabAnd => exact mmaWord_timeless _ _ _ _ _
  case cbndExact | cbndRound | cbndLit | cprm | cadd => exact capWord_timeless _ _ _ _
  case bararr | bararrNobytes | bararrLit => exact bararrWord_timeless _ _ _ _ _ _
  case winb | wina => exact setWindow_timeless _
  case waitpReg | waitpImm => exact waitPath_timeless _ _ _
  case cwb | cinv => exact lineWord_timeless _ _
  case barinv | barinvFree => exact barinvWord_timeless _ _
  case barexp | barexpLit => exact barexpWord_timeless _ _ _ _
  case xtile | xtileCo => exact xtileWord_timeless _ _ _
  case xstrm | xstrmCo => exact xstrmWord_timeless _ _ _
  case shflIdx => exact execShflIdx_timeless _ _ _ _
  case shflUp => exact execShflUp_timeless _ _ _ _
  case shflDown => exact execShflDown_timeless _ _ _ _
  case shflXor => exact execShflXor_timeless _ _ _ _
  case bra => exact execBra_timeless _
  case call => exact execCall_timeless _
  case brx => exact execBrx_timeless _
  case callx => exact execCallx_timeless _ _
  case ret => exact execRet_timeless _
  case join => exact execJoin_timeless
  case exit => exact execExit_timeless
  case yield => exact execYield_timeless
  case nop => exact execNop_timeless
  case trap => exact execTrap_timeless _
  case tfence => exact execTfence_timeless
  case bkpt => exact execBkpt_timeless _
  case setfmt => exact execSetfmt_timeless _ _
  case srd => exact execSrd_timeless _ _
  case swr => exact execSwr_timeless _ _
  case waitf => exact execWaitf_timeless _
  case clkw => exact execClkw_timeless _
  case cdrv => exact execCdrv_timeless _ _ _
  case pref => exact execPref_timeless _ _
  case fence => exact execFence_timeless _ _
  case xfence sc a b => exact execXfence_timeless sc a b
  case tbegin => exact execTbegin_timeless
  case tend => exact execTend_timeless _
  case tabort => exact execTabort_timeless _
  case tstat => exact execTstat_timeless _
  case barinit => exact execBarinit_timeless _ _
  case barwait => exact execBarwait_timeless _ _ _
  case bartst => exact execBartst_timeless _ _ _
  case bardrop => exact execBardrop_timeless _
  case mred => exact execMred_timeless _ _ _ _
  case mrwait => exact execMrwait_timeless _ _
  case bpass => exact execBpass_timeless _
  case cbld => exact execCbld_timeless _ _
  case xchain => exact execXchain_timeless _ _ _
  case xstat => exact execXstat_timeless _ _ _
  case xstop => exact execXstop_timeless _
  case chkt => exact execChkt_timeless _ _ _
  case chkw => exact execChkw_timeless _ _
  case ntag => exact execNtag_timeless _
  case ntagClr => exact execNtagClr_timeless
  case maskg => exact execMaskg_timeless _ _ _
  case lnch => exact execLnch_timeless _ _ _
  case lcancel => exact execLcancel_timeless _ _
  case ljoin => exact execLjoin_timeless _ _
  case repairResume => exact execRepairResume_timeless _
  case repairKill => exact execRepairKill_timeless _
  case repairSplit => exact execRepairSplit_timeless _
  case repairFuse => exact execRepairFuse_timeless _
  case repairKillwarp => exact execRepairKillwarp_timeless _
  case clauseStart => exact execClauseStart_timeless _ _
  case fragmentWake => exact execFragmentWake_timeless _
  case deadFragmentFree => exact execDeadFragmentFree_timeless _
  case memoryOpComplete => exact execMemoryOpComplete_timeless _ _
  case sliceAccess => exact execSliceAccess_timeless _ _ _
  case solitaryGrant => exact execSolitaryGrant_timeless
  case peerPacketArrival => exact execPeerPacketArrival_timeless _
  case peerAck => exact execPeerAck_timeless _ _ _ _ _
  case matrixKStep => exact execMatrixKStep_timeless _ _
  case engineQueueOp => exact execEngineQueueOp_timeless _ _
  case transferRecordFetch => exact execTransferRecordFetch_timeless _ _
  case chunkComplete => exact execChunkComplete_timeless _ _ _
  case chainRecordStep => exact execChainRecordStep_timeless _ _
  case meshReductionInput => exact execMeshReductionInput_timeless _ _ _ _ _
  case meshReductionTimeout => exact execMeshReductionTimeout_timeless _ _ _ _
  case meshReductionResult => exact execMeshReductionResult_timeless _ _ _ _
  case beadPass => exact execBeadPass_timeless _ _
  case boardMarkReply => exact execBoardMarkReply_timeless _
  case alightHomeWrite => exact execAlightHomeWrite_timeless _
  case treeCommandArrival => exact execTreeCommandArrival_timeless _
  case nodeRewriteAck => exact execNodeRewriteAck_timeless _
  case pruneKillDelivery => exact execPruneKillDelivery_timeless _ _
  case pruneReleaseDone => exact execPruneReleaseDone_timeless _ _
  case hallmarkCopyComplete => exact execHallmarkCopyComplete_timeless _
  case pageFree => exact execPageFree_timeless _
  case hallmarkScrubCheck => exact execHallmarkScrubCheck_timeless _
  case kvshootAck => exact execKvshootAck_timeless _
  case treeCmdOpen => exact execTreeCmdOpen_timeless _ _
  case treeCmdClose => exact execTreeCmdClose_timeless _ _
  case treeCmdFlatten => exact execTreeCmdFlatten_timeless _ _
  case doorbellTail => exact execDoorbellTail_timeless _ _
  case doorbellWithdraw => exact execDoorbellWithdraw_timeless _ _
  case doorbellWithdrawCancel => exact execDoorbellWithdrawCancel_timeless _ _
  case doorbellCancel => exact execDoorbellCancel_timeless _ _
  case queueMap => exact execQueueMap_timeless _
  case sliceExpiry => exact execSliceExpiry_timeless _ _
  case packetTake => exact execPacketTake_timeless _ _
  case gangAdmission => exact execGangAdmission_timeless _ _
  case startHoldRelease => exact execStartHoldRelease_timeless _
  case candidateBlocking => exact execCandidateBlocking_timeless _
  case gangParked => exact execGangParked_timeless _
  case gangDrained => exact execGangDrained_timeless _
  case parklimExpiry => exact execParklimExpiry_timeless _
  case runlimExpiry => exact execRunlimExpiry_timeless _
  case unitEnd => exact execUnitEnd_timeless _
  case contextIdFree => exact execContextIdFree_timeless _
  case faultQueueCopy => exact execFaultQueueCopy_timeless _
  case dieFqackRetry => exact execDieFqackRetry_timeless _ _ _
  case dieFqackFail => exact execDieFqackFail_timeless _ _ _
  case tlbiRange => exact execTlbiRange_timeless _ _
  case tlbiContext => exact execTlbiContext_timeless _
  case tlbiAll => exact execTlbiAll_timeless
  case tlbiComplete => exact execTlbiComplete_timeless
  case migrationGo => exact execMigrationGo_timeless _ _
  case migrationCopyDone => exact execMigrationCopyDone_timeless _
  case migrationSwitch => exact execMigrationSwitch_timeless _
  case migrationAbort => exact execMigrationAbort_timeless _
  case nocWindowExpiry => exact execNocWindowExpiry_timeless _ _
  case mredDescValidate => exact execMredDescValidate_timeless _ _ _
  case mredDescInvalidate => exact execMredDescInvalidate_timeless _ _
  case peerLoss => exact execPeerLoss_timeless _
  case quiesceReceived => exact execQuiesceReceived_timeless _
  case quiesceClear => exact execQuiesceClear_timeless
  case bridlePortFail => exact execBridlePortFail_timeless _
  case circQuotaInvalidate => exact execCircQuotaInvalidate_timeless _
  case circClearBead => exact execCircClearBead_timeless _
  case faultRecordPost => exact execFaultRecordPost_timeless _
  case handlerLaunchStart => exact execHandlerLaunchStart_timeless _
  case uncorrectableError => exact execUncorrectableError_timeless _
  case correctableError => exact execCorrectableError_timeless _
  case patrolScrub die => exact execPatrolScrub_timeless die
  case hostBar4Write => exact execHostBar4Write_timeless _ _
  case hostBar4Read => exact execHostBar4Read_timeless _ _
  case bar4Resize => exact execBar4Resize_timeless _
  case csrWrite => exact execCsrWrite_timeless _ _ _
  case bootStageComplete => exact execBootStageComplete_timeless _
  case attestGo => exact execAttestGo_timeless
  case attestComplete => exact execAttestComplete_timeless
  case throttleStepDown => exact execThrottleStepDown_timeless _
  case throttleRecovery => exact execThrottleRecovery_timeless
  case thermalShutdown => exact execThermalShutdown_timeless
  case unassignedOpcode w => exact execUnassignedOpcode_timeless w
  case powerOnReset | powerOff | bootCommit => exact absurd (by simp [ResetsDevice]) h

/-! ### No word decodes to a reset -/

/-- What a decoder answers is no reset of the device. -/
def NoReset (e : Except Reject Instr) : Prop := ∀ i, e = .ok i → ¬ResetsDevice i

@[simp] theorem noReset_ok {i : Instr} (h : ¬ResetsDevice i) : NoReset (.ok i) := by
  rintro j hj
  injection hj with hj
  exact hj ▸ h

@[simp] theorem noReset_error (e : Reject) : NoReset (.error e) := by
  intro i hi
  cases hi

@[simp] theorem noReset_fin {z g : Prop} [Decidable z] [Decidable g] {i : Instr} (h : ¬ResetsDevice i) : NoReset (fin z g i) := by
  unfold fin
  split
  · split
    · exact noReset_ok h
    · exact noReset_error _
  · exact noReset_error _

@[simp] theorem noReset_ite {p : Prop} [Decidable p] {a b : Except Reject Instr} :
    NoReset (if p then a else b) ↔ (p → NoReset a) ∧ (¬p → NoReset b) := by
  split <;> simp [*]

theorem decodeRow00_noReset (low w lit : Nat) : NoReset (decodeRow00 low w lit) := by
  unfold decodeRow00
  split <;> simp [ResetsDevice]

theorem decodeRow01_noReset (low w lit : Nat) : NoReset (decodeRow01 low w lit) := by
  unfold decodeRow01
  split <;> simp [ResetsDevice]

theorem decodeRow02_noReset (low w lit : Nat) : NoReset (decodeRow02 low w lit) := by
  unfold decodeRow02
  split <;> simp [ResetsDevice]

theorem decodeRow03_noReset (low w lit : Nat) : NoReset (decodeRow03 low w lit) := by
  unfold decodeRow03
  split <;> simp [ResetsDevice]

theorem decodeRow04_noReset (low w lit : Nat) : NoReset (decodeRow04 low w lit) := by
  unfold decodeRow04
  split <;> simp [ResetsDevice]

theorem decodeRow06_noReset (low w lit : Nat) : NoReset (decodeRow06 low w lit) := by
  unfold decodeRow06
  split <;> simp [ResetsDevice]

theorem decodeRow07_noReset (low w lit : Nat) : NoReset (decodeRow07 low w lit) := by
  unfold decodeRow07
  split <;> simp [ResetsDevice]

theorem decodeRow08_noReset (low w lit : Nat) : NoReset (decodeRow08 low w lit) := by
  unfold decodeRow08
  split <;> simp [ResetsDevice]

theorem decodeRow09_noReset (low w lit : Nat) : NoReset (decodeRow09 low w lit) := by
  unfold decodeRow09
  split <;> simp [ResetsDevice]

theorem decodeRow0C_noReset (low w lit : Nat) : NoReset (decodeRow0C low w lit) := by
  unfold decodeRow0C
  split <;> simp [ResetsDevice]

theorem decodeRow0E_noReset (low w lit : Nat) : NoReset (decodeRow0E low w lit) := by
  unfold decodeRow0E
  split <;> simp [ResetsDevice]

theorem decodeRow0F_noReset (low w lit : Nat) : NoReset (decodeRow0F low w lit) := by
  unfold decodeRow0F
  split <;> simp [ResetsDevice]

theorem decodeRow10_noReset (low w lit : Nat) : NoReset (decodeRow10 low w lit) := by
  unfold decodeRow10
  split <;> simp [ResetsDevice]

theorem decodeRow11_noReset (low w lit : Nat) : NoReset (decodeRow11 low w lit) := by
  unfold decodeRow11
  split <;> simp [ResetsDevice]

theorem decodeRow12_noReset (low w lit : Nat) : NoReset (decodeRow12 low w lit) := by
  unfold decodeRow12
  split <;> simp [ResetsDevice]

theorem decodeRow14_noReset (low w lit : Nat) : NoReset (decodeRow14 low w lit) := by
  unfold decodeRow14
  split <;> simp [ResetsDevice]

theorem decodeRow15_noReset (low w lit : Nat) : NoReset (decodeRow15 low w lit) := by
  unfold decodeRow15
  split <;> simp [ResetsDevice]

theorem decodeRow16_noReset (low w lit : Nat) : NoReset (decodeRow16 low w lit) := by
  unfold decodeRow16
  split <;> simp [ResetsDevice]

theorem decodeRow17_noReset (low w lit : Nat) : NoReset (decodeRow17 low w lit) := by
  unfold decodeRow17
  split <;> simp [ResetsDevice]

theorem decodeRow18_noReset (low w lit : Nat) : NoReset (decodeRow18 low w lit) := by
  unfold decodeRow18
  split <;> simp [ResetsDevice]

theorem decodeRow19_noReset (low w lit : Nat) : NoReset (decodeRow19 low w lit) := by
  unfold decodeRow19
  split <;> simp [ResetsDevice]

theorem decodeRow1A_noReset (low w lit : Nat) : NoReset (decodeRow1A low w lit) := by
  unfold decodeRow1A
  split <;> simp [ResetsDevice]

theorem decodeRow1B_noReset (low w lit : Nat) : NoReset (decodeRow1B low w lit) := by
  unfold decodeRow1B
  split <;> simp [ResetsDevice]

theorem decodeWord_noReset (w lit : Nat) : NoReset (decodeWord w lit) := by
  unfold decodeWord
  split
  · exact decodeRow00_noReset _ _ _
  · exact decodeRow01_noReset _ _ _
  · exact decodeRow02_noReset _ _ _
  · exact decodeRow03_noReset _ _ _
  · exact decodeRow04_noReset _ _ _
  · exact decodeRow06_noReset _ _ _
  · exact decodeRow07_noReset _ _ _
  · exact decodeRow08_noReset _ _ _
  · exact decodeRow09_noReset _ _ _
  · exact decodeRow0C_noReset _ _ _
  · exact decodeRow0E_noReset _ _ _
  · exact decodeRow0F_noReset _ _ _
  · exact decodeRow10_noReset _ _ _
  · exact decodeRow11_noReset _ _ _
  · exact decodeRow12_noReset _ _ _
  · exact decodeRow14_noReset _ _ _
  · exact decodeRow15_noReset _ _ _
  · exact decodeRow16_noReset _ _ _
  · exact decodeRow17_noReset _ _ _
  · exact decodeRow18_noReset _ _ _
  · exact decodeRow19_noReset _ _ _
  · exact decodeRow1A_noReset _ _ _
  · exact decodeRow1B_noReset _ _ _
  · exact noReset_ok (by simp [ResetsDevice])

theorem noReset_map {e : Except Reject Instr} {bs more : List Byte} {i : Instr} (he : NoReset e) (h : e.map (·, bs) = .ok (i, more)) :
    ¬ResetsDevice i := by
  cases e with
  | error r => cases h
  | ok j =>
    cases h
    exact he i rfl

theorem decode_noReset {bs more : List Byte} {i : Instr} (h : decode bs = .ok (i, more)) : ¬ResetsDevice i := by
  unfold decode at h
  split at h
  next =>
    dsimp only at h
    split at h
    · exact noReset_map (decodeWord_noReset _ _) h
    · split at h
      · exact noReset_map (decodeWord_noReset _ _) h
      · cases h
  next => cases h

/-! ### A step -/

@[simp] theorem State.rejectWord_clock (s : State) (f : FragRef) (x : Frag) (r : Reject) : (s.rejectWord f x r).clock = s.clock := by
  simp [State.rejectWord]

/-- A fragment's next word leaves the clock alone: it is a word of the table, and never one of its resets. -/
theorem wordStep_timeless (f : FragRef) : Timeless (wordStep f) := by
  intro s t ht
  unfold wordStep at ht
  split at ht
  · injection ht with ht
    rw [ht]
  · split at ht
    · injection ht with ht
      rw [← ht, State.takeLate_clock]
    · split at ht
      · injection ht with ht
        rw [← ht, State.fetchFault_clock]
      · split at ht
        · injection ht with ht
          rw [← ht, State.rejectWord_clock]
        next hd => exact exec_timeless _ (decode_noReset hd) { s with cur := some f } t ht

theorem eventStep_timeless {i : Instr} (h : ¬ResetsDevice i) : Timeless (eventStep i) := by
  intro s t ht
  unfold eventStep at ht
  split at ht
  · exact exec_timeless i h s t ht
  · injection ht with ht
    rw [ht]

theorem moveStep_timeless {m : Move} (hm : m ≠ .tick) (hr : ∀ i, m = .event i → ¬ResetsDevice i) : Timeless (moveStep m) := by
  cases m with
  | word f => exact wordStep_timeless f
  | event i => exact eventStep_timeless (hr i rfl)
  | tick => exact absurd rfl hm

theorem State.advance_cycle (s : State) : s.advance.cycle = s.cycle + 1#64 := by
  unfold State.advance
  dsimp only
  split <;> rfl

/-- A tick adds one to %cycle, where it acts at all. -/
theorem State.tick_clock (s : State) : s.tick.clock = s.clock ∨ s.tick.cycle = s.cycle + 1#64 := by
  unfold State.tick
  split
  · exact .inl rfl
  · exact .inr s.advance_cycle

theorem State.clock_eq_iff {s t : State} : t.clock = s.clock ↔ t.cycle = s.cycle ∧ t.time = s.time := Prod.mk_inj

/-- Settles O60: no meaning but those of the three resets moves the clock, no word decodes to one of the three, and a tick adds one to %cycle or
waits. -/
theorem onlyTicksMoveTime : Obligations.OnlyTicksMoveTime := by
  unfold Obligations.OnlyTicksMoveTime
  intro s t m rest hs ht
  rw [step_listed hs] at ht
  constructor
  · intro hm hon hoff hcommit
    refine State.clock_eq_iff.mp (moveStep_timeless hm ?_ { s with sched := rest } t ht)
    rintro i rfl (rfl | rfl | rfl)
    · exact hon rfl
    · exact hoff rfl
    · exact hcommit rfl
  · rintro rfl
    injection ht with ht
    subst ht
    exact (State.tick_clock _).imp_left State.clock_eq_iff.mp

end Sys2Proof.Machine
end

section
/-! SUPPORT. The encoder and the decoder (O55, O56): codes and fields, the engines for each word format, the shapes of
operands, and the case table over the instructions. -/
namespace Sys2Proof
/-! ### Codes and fields -/

@[simp] theorem RMode.ofCode_code (m : RMode) : RMode.ofCode m.code = m := by cases m <;> rfl
@[simp] theorem PsetOp.ofCode_code (m : PsetOp) : PsetOp.ofCode m.code = m := by cases m <;> rfl
@[simp] theorem FenceKind.ofCode_code (m : FenceKind) : FenceKind.ofCode m.code = m := by cases m <;> rfl
@[simp] theorem ICmp.ofCode_code (c : ICmp) : ICmp.ofCode c.code = c := by cases c <;> rfl
@[simp] theorem FCmp.ofCode_code (c : FCmp) : FCmp.ofCode c.code = c := by cases c <;> rfl
@[simp] theorem Scope.ofCode_code (s : Scope) : Scope.ofCode s.code = s := by cases s <;> rfl
@[simp] theorem PathId.ofCode_code (p : PathId) : PathId.ofCode p.code = p := by cases p <;> rfl
@[simp] theorem FoldOp.ofCode_code (o : FoldOp) : FoldOp.ofCode o.code = o := by cases o <;> rfl
@[simp] theorem BitOp.ofCode_code (o : BitOp) : BitOp.ofCode o.code = o := by cases o <;> rfl
@[simp] theorem MredTy.ofCode_code (t : MredTy) : MredTy.ofCode t.code = t := by cases t <;> rfl
@[simp] theorem CgetSel.ofCode_code (c : CgetSel) : CgetSel.ofCode c.code = c := by cases c <;> rfl
@[simp] theorem FmtMode.ofCode_code (m : FmtMode) : FmtMode.ofCode m.code = m := by cases m <;> rfl

theorem RMode.code_lt (m : RMode) : m.code < 4 := by cases m <;> decide
theorem SatMode.code_lt (m : SatMode) : m.code < 3 := by cases m <;> decide
theorem PredMode.code_lt (m : PredMode) : m.code < 3 := by cases m <;> decide
theorem PsetOp.code_lt (m : PsetOp) : m.code < 3 := by cases m <;> decide
theorem ShflWidth.code_lt (m : ShflWidth) : m.code < 3 := by cases m <;> decide
theorem FenceKind.code_lt (m : FenceKind) : m.code < 3 := by cases m <;> decide
theorem ICmp.code_lt (c : ICmp) : c.code < 6 := by cases c <;> decide
theorem FCmp.code_lt (c : FCmp) : c.code < 8 := by cases c <;> decide
theorem Scope.code_lt (s : Scope) : s.code < 8 := by cases s <;> decide
theorem PathId.code_lt (p : PathId) : p.code < 6 := by cases p <;> decide
theorem FoldOp.code_lt (o : FoldOp) : o.code < 3 := by cases o <;> decide
theorem BitOp.code_lt (o : BitOp) : o.code < 3 := by cases o <;> decide
theorem MredTy.code_lt (t : MredTy) : t.code < 3 := by cases t <;> decide
theorem CgetSel.code_lt (c : CgetSel) : c.code < 7 := by cases c <;> decide
theorem FmtMode.code_lt (m : FmtMode) : m.code < 3 := by cases m <;> decide

theorem PredSrc.code_lt (p : PredSrc) : p.code < 16 := by
  have := Bool.toNat_lt p.neg
  unfold PredSrc.code
  omega

@[simp] theorem PredSrc.ofCode_code (p : PredSrc) : PredSrc.ofCode p.code = p := by
  obtain ⟨p, n⟩ := p
  have hp := p.isLt
  have h8 : (8 * n.toNat + p.toNat) % 8 = p.toNat := by omega
  have hd : (8 * n.toNat + p.toNat) / 8 = n.toNat := by omega
  simp only [PredSrc.ofCode, PredSrc.code, h8, hd, BitVec.ofNat_toNat, BitVec.setWidth_eq]
  cases n <;> rfl

/-! ### A word and its fields (R48 to R51) -/

/-- A word holds these fields of the RRR format. -/
structure HasRRR (w op m d a b : Nat) : Prop where
  opcode : w / 8388608 = op
  md : rrrM w = m
  fd : rrrD w = d
  fa : rrrA w = a
  fb : rrrB w = b

/-- A word holds these fields of the RI format. -/
structure HasRI (w op d a i : Nat) : Prop where
  opcode : w / 8388608 = op
  fd : riD w = d
  fa : riA w = a
  imm : riI w = i

/-- A word holds these fields of the RW format. -/
structure HasRW (w op d i : Nat) : Prop where
  opcode : w / 8388608 = op
  fd : riD w = d
  imm : rwI w = i

/-- A word holds these fields of the RM format. -/
structure HasRM (w op sc d c b x : Nat) : Prop where
  opcode : w / 8388608 = op
  scope : rmSc w = sc
  fd : rmD w = d
  fc : rmC w = c
  fb : rmB w = b
  fx : rmX w = x

theorem hasRRR_pack (op : Nat) {m d a b : Nat} (hm : m < 4) (hd : d < 128) (ha : a < 128) (hb : b < 128) :
    HasRRR (packRRR op m d a b) op m d a b := by
  constructor <;> simp only [packRRR, rrrM, rrrD, rrrA, rrrB] <;> omega

theorem hasRI_pack (op : Nat) {d a i : Nat} (hd : d < 128) (ha : a < 128) (hi : i < 512) : HasRI (packRI op d a i) op d a i := by
  constructor <;> simp only [packRI, riD, riA, riI] <;> omega

theorem hasRW_pack (op : Nat) {d i : Nat} (hd : d < 128) (hi : i < 65536) : HasRW (packRW op d i) op d i := by
  constructor <;> simp only [packRW, riD, rwI] <;> omega

theorem hasRM_pack (op : Nat) {sc d c b x : Nat} (hs : sc < 8) (hd : d < 128) (hc : c < 32) (hb : b < 128) (hx : x < 2) :
    HasRM (packRM op sc d c b x) op sc d c b x := by
  constructor <;> simp only [packRM, rmSc, rmD, rmC, rmB, rmX] <;> omega

theorem toNat_lt_of_le {n k : Nat} (x : BitVec n) (h : 2 ^ n ≤ k) : x.toNat < k := x.isLt.trans_le h

theorem lt_of_opcode {w op : Nat} (h : w / 8388608 = op) (ho : op < 512) : w < 2 ^ 32 := by omega

/-! ### The b operand and the memory operand -/

/-- md of a word whose b may be a literal: 3 in the literal form, else the code of the mode (R50). -/
def Opd.md (b : Opd) (m : Nat) : Nat := if b.isLit then 3 else m

@[simp] theorem Opd.md_reg (r : Reg) (m : Nat) : (Opd.reg r).md m = m := rfl
@[simp] theorem Opd.md_lit (l : Word) (m : Nat) : (Opd.lit l).md m = 3 := rfl

theorem Opd.litMd_eq (b : Opd) : b.litMd = b.md 0 := by cases b <;> rfl

theorem Opd.md_lt (b : Opd) {m : Nat} (h : m < 3) : b.md m < 4 := by
  cases b with
  | reg _ => exact Nat.lt_succ_of_lt h
  | lit _ => exact Nat.lt_succ_self 3

theorem Opd.regCode_lt (b : Opd) : b.regCode < 128 := by
  cases b with
  | reg r => exact r.isLt
  | lit _ => exact Nat.succ_pos 127

/-- Field b is unused in the literal form (R50). -/
theorem Opd.regCode_spare (b : Opd) {m : Nat} (h : m < 3) : b.md m ≠ 3 ∨ b.regCode = 0 := by
  cases b with
  | reg _ => exact .inl h.ne
  | lit _ => exact .inr rfl

/-- A word without a mode has md 0, or 3 in the literal form. -/
theorem Opd.md_zero (b : Opd) : b.md 0 = 0 ∨ b.md 0 = 3 := by
  cases b with
  | reg _ => exact .inl rfl
  | lit _ => exact .inr rfl

theorem SatMode.ofCode_md {m : SatMode} {b : Opd} (h : (!b.isLit || decide (m = .wrap)) = true) : SatMode.ofCode (b.md m.code) = m := by
  cases b with
  | reg _ => cases m <;> rfl
  | lit _ => simpa [Opd.isLit, SatMode.ofCode, eq_comm] using h

theorem PredMode.ofCode_md {m : PredMode} {b : Opd} (h : (!b.isLit || decide (m = .set)) = true) : PredMode.ofCode (b.md m.code) = m := by
  cases b with
  | reg _ => cases m <;> rfl
  | lit _ => simpa [Opd.isLit, PredMode.ofCode, eq_comm] using h

theorem ShflWidth.ofCode_md {m : ShflWidth} {b : Opd} (h : (!b.isLit || decide (m = .w32)) = true) :
    ShflWidth.ofCode (b.md m.code) = m := by
  cases b with
  | reg _ => cases m <;> rfl
  | lit _ => simpa [Opd.isLit, ShflWidth.ofCode, eq_comm] using h

theorem MemOff.bCode_lt (o : MemOff) : o.bCode < 128 := by
  cases o with
  | reg r => exact r.isLt
  | short i => exact i.isLt
  | lit _ => exact (by decide : 64 < 128)

theorem MemOff.xCode_lt (o : MemOff) : o.xCode < 2 := by cases o <;> simp [MemOff.xCode]

/-! ### Literals(i) of a word (R52) -/

theorem literals_plain {w op : Nat} (h : w / 8388608 = op) (hl : litOpcode op = false) (hr : rmOpcode op = false) : literals w = 0 := by
  simp [literals, h, hl, hr]

theorem HasRRR.literals_eq_zero {w op m d a b : Nat} (h : HasRRR w op m d a b) (hr : rmOpcode op = false)
    (hl : litOpcode op = false ∨ m ≠ 3) : literals w = 0 := by
  rcases hl with hl | hl <;> simp [literals, h.opcode, h.md, hr, hl]

theorem HasRRR.literals_ne_zero {w op d a b : Nat} (h : HasRRR w op 3 d a b) (hl : litOpcode op = true) : literals w ≠ 0 := by
  simp [literals, h.opcode, h.md, hl]

theorem HasRM.literals_eq_zero {w op sc d c b x : Nat} (h : HasRM w op sc d c b x) (hl : litOpcode op = false) (hx : x = 1 → b ≠ 64) :
    literals w = 0 := by
  simp only [literals, h.opcode, h.fb, h.fx, hl]
  simpa using fun _ => hx

theorem HasRM.literals_ne_zero {w op sc d c : Nat} (h : HasRM w op sc d c 64 1) (hl : litOpcode op = false) (hr : rmOpcode op = true) :
    literals w ≠ 0 := by
  simp [literals, h.opcode, h.fb, h.fx, hl, hr]

/-! ### The bytes of one word, and of a word and its literal -/

theorem wordOfBytes_bytesOfWord {w : Nat} (h : w < 2 ^ 32) :
    wordOfBytes (BitVec.ofNat 8 w) (BitVec.ofNat 8 (w / 256)) (BitVec.ofNat 8 (w / 65536)) (BitVec.ofNat 8 (w / 16777216)) = w := by
  simp only [wordOfBytes, BitVec.toNat_ofNat]
  omega

theorem decode_word {w : Nat} (h : w < 2 ^ 32) (hl : literals w = 0) {i : Instr} (hd : decodeWord w 0 = .ok i) :
    decode ([w].flatMap bytesOfWord) = .ok (i, []) := by
  simp only [List.flatMap_cons, List.flatMap_nil, bytesOfWord, List.cons_append, List.nil_append]
  unfold decode
  simp only [wordOfBytes_bytesOfWord h]
  rw [if_pos hl, hd]
  rfl

theorem decode_wordLit {w l : Nat} (h : w < 2 ^ 32) (h' : l < 2 ^ 32) (hl : literals w ≠ 0) {i : Instr} (hd : decodeWord w l = .ok i) :
    decode ([w, l].flatMap bytesOfWord) = .ok (i, []) := by
  simp only [List.flatMap_cons, List.flatMap_nil, bytesOfWord, List.cons_append, List.nil_append]
  unfold decode
  simp only [wordOfBytes_bytesOfWord h, wordOfBytes_bytesOfWord h']
  rw [if_neg hl, hd]
  rfl

/-! ### One lemma per format -/

/-- Decoding the bytes of an instruction gives it back. -/
def Instr.RoundTrips (i : Instr) : Prop := decode ((encode i).flatMap bytesOfWord) = .ok (i, [])

section
variable {op : Nat} {i : Instr} (ho : op < 512)
include ho

theorem roundTrips_rrr {m d a b : Nat} (he : encode i = [packRRR op m d a b]) (hr : rmOpcode op = false) (hl : litOpcode op = false ∨ m ≠ 3)
    (hf : m < 4 ∧ d < 128 ∧ a < 128 ∧ b < 128) (hi : ∀ w, HasRRR w op m d a b → decodeWord w 0 = .ok i) : i.RoundTrips := by
  obtain ⟨hm, hd, ha, hb⟩ := hf
  have h := hasRRR_pack op hm hd ha hb
  unfold Instr.RoundTrips
  rw [he]
  exact decode_word (lt_of_opcode h.opcode ho) (h.literals_eq_zero hr hl) (hi _ h)

theorem roundTrips_rrrLit {d a b : Nat} {l : Word} (he : encode i = [packRRR op 3 d a b, l.toNat]) (hl : litOpcode op = true)
    (hf : d < 128 ∧ a < 128 ∧ b < 128) (hi : ∀ w, HasRRR w op 3 d a b → decodeWord w l.toNat = .ok i) : i.RoundTrips := by
  obtain ⟨hd, ha, hb⟩ := hf
  have h := hasRRR_pack op (Nat.lt_succ_self 3) hd ha hb
  unfold Instr.RoundTrips
  rw [he]
  exact decode_wordLit (lt_of_opcode h.opcode ho) l.isLt (h.literals_ne_zero hl) (hi _ h)

/-- A word whose b is a register or, in the default form, a literal. -/
theorem roundTrips_opd {m d a : Nat} {b : Opd} (he : encode i = [packRRR op (b.md m) d a b.regCode] ++ b.litWords) (hr : rmOpcode op = false)
    (hl : litOpcode op = true) (hf : m < 3 ∧ d < 128 ∧ a < 128)
    (hi : ∀ w lit, HasRRR w op (b.md m) d a b.regCode → Opd.ofCode (b.md m) b.regCode lit = b → decodeWord w lit = .ok i) : i.RoundTrips := by
  obtain ⟨hm, hd, ha⟩ := hf
  cases b with
  | reg r =>
    refine roundTrips_rrr ho he hr (.inr hm.ne) ⟨Nat.lt_succ_of_lt hm, hd, ha, r.isLt⟩ fun w h => hi w 0 h ?_
    simp [Opd.ofCode, Opd.regCode, hm.ne]
  | lit l => exact roundTrips_rrrLit ho he hl ⟨hd, ha, Nat.succ_pos 127⟩ fun w h => hi w l.toNat h (by simp [Opd.ofCode])

theorem roundTrips_ri {d a k : Nat} (he : encode i = [packRI op d a k]) (hl : litOpcode op = false) (hr : rmOpcode op = false)
    (hf : d < 128 ∧ a < 128 ∧ k < 512) (hi : ∀ w, HasRI w op d a k → decodeWord w 0 = .ok i) : i.RoundTrips := by
  obtain ⟨hd, ha, hk⟩ := hf
  have h := hasRI_pack op hd ha hk
  unfold Instr.RoundTrips
  rw [he]
  exact decode_word (lt_of_opcode h.opcode ho) (literals_plain h.opcode hl hr) (hi _ h)

theorem roundTrips_rw {d k : Nat} (he : encode i = [packRW op d k]) (hl : litOpcode op = false) (hr : rmOpcode op = false)
    (hf : d < 128 ∧ k < 65536) (hi : ∀ w, HasRW w op d k → decodeWord w 0 = .ok i) : i.RoundTrips := by
  obtain ⟨hd, hk⟩ := hf
  have h := hasRW_pack op hd hk
  unfold Instr.RoundTrips
  rw [he]
  exact decode_word (lt_of_opcode h.opcode ho) (literals_plain h.opcode hl hr) (hi _ h)

theorem roundTrips_br {off : BitVec 23} (he : encode i = [packBR op off.toNat]) (hl : litOpcode op = false) (hr : rmOpcode op = false)
    (hi : ∀ w, w / 8388608 = op → w % 8388608 = off.toNat → decodeWord w 0 = .ok i) : i.RoundTrips := by
  have hop : packBR op off.toNat / 8388608 = op := by unfold packBR; omega
  have hoff : packBR op off.toNat % 8388608 = off.toNat := by unfold packBR; omega
  unfold Instr.RoundTrips
  rw [he]
  exact decode_word (lt_of_opcode hop ho) (literals_plain hop hl hr) (hi _ hop hoff)

/-- A word with a memory operand. -/
theorem roundTrips_rm {sc d : Nat} {mr : MemRef}
    (he : encode i = [packRM op sc d mr.c.toNat mr.off.bCode mr.off.xCode] ++ mr.off.litWords) (hwf : mr.off.wf = true)
    (hl : litOpcode op = false) (hr : rmOpcode op = true) (hf : sc < 8 ∧ d < 128)
    (hi : ∀ w lit, w / 8388608 = op → rmSc w = sc → rmD w = d → MemRef.ofCode (rmC w) (rmB w) (rmX w) lit = mr → decodeWord w lit = .ok i) :
    i.RoundTrips := by
  obtain ⟨hs, hd⟩ := hf
  have h := hasRM_pack op hs hd mr.c.isLt mr.off.bCode_lt mr.off.xCode_lt
  have hfields (lit : Nat) : MemRef.ofCode mr.c.toNat mr.off.bCode mr.off.xCode lit = mr →
      decodeWord (packRM op sc d mr.c.toNat mr.off.bCode mr.off.xCode) lit = .ok i := fun e =>
    hi _ lit h.opcode h.scope h.fd (by rw [h.fc, h.fb, h.fx, e])
  unfold Instr.RoundTrips
  rw [he]
  obtain ⟨c, off⟩ := mr
  cases off with
  | reg r => exact decode_word (lt_of_opcode h.opcode ho) (h.literals_eq_zero hl nofun) (hfields 0 (by simp [MemRef.ofCode, MemOff.bCode, MemOff.xCode]))
  | short k =>
    have hk : k.toNat ≠ 64 := fun e => by simp [MemOff.wf, BitVec.toNat_eq, e] at hwf
    refine decode_word (lt_of_opcode h.opcode ho) (h.literals_eq_zero hl fun _ => hk) (hfields 0 ?_)
    simp [MemRef.ofCode, MemOff.bCode, MemOff.xCode, hk]
  | lit l =>
    refine decode_wordLit (lt_of_opcode h.opcode ho) l.isLt (HasRM.literals_ne_zero h hl hr) (hfields l.toNat ?_)
    simp [MemRef.ofCode, MemOff.bCode, MemOff.xCode]

end

/-! ### One lemma per shape of operands, for the shapes that many rows share -/

section
variable {op : Nat}

/-- Two sources, the second a register or a literal. -/
theorem roundTrips_sources {k : Reg → Reg → Opd → Instr} (ho : op < 512 ∧ rmOpcode op = false ∧ litOpcode op = true)
    (he : ∀ d a b, encode (k d a b) = [packRRR op b.litMd d.toNat a.toNat b.regCode] ++ b.litWords)
    (hk : ∀ w lit, w / 8388608 = op → decodeWord w lit = fin (rrrM w ≠ 3 ∨ rrrB w = 0) (rrrM w = 0 ∨ rrrM w = 3)
      (k (BitVec.ofNat 7 (rrrD w)) (BitVec.ofNat 7 (rrrA w)) (Opd.ofCode (rrrM w) (rrrB w) lit))) {d a : Reg} {b : Opd} :
    (k d a b).RoundTrips := by
  obtain ⟨ho, hr, hl⟩ := ho
  refine roundTrips_opd ho ((he d a b).trans (by rw [b.litMd_eq])) hr hl (by omega) fun w lit h e => ?_
  simp [hk w lit h.opcode, h.md, h.fd, h.fa, h.fb, e, fin, b.md_zero, b.regCode_spare]

/-- Two capabilities and a source that is a register or a literal. -/
theorem roundTrips_capSource {k : CapReg → CapReg → Opd → Instr} (ho : op < 512 ∧ rmOpcode op = false ∧ litOpcode op = true)
    (he : ∀ d a b, encode (k d a b) = [packRRR op b.litMd d.toNat a.toNat b.regCode] ++ b.litWords)
    (hk : ∀ w lit, w / 8388608 = op → decodeWord w lit = fin (rrrD w < 32 ∧ rrrA w < 32 ∧ (rrrM w ≠ 3 ∨ rrrB w = 0)) (rrrM w = 0 ∨ rrrM w = 3)
      (k (BitVec.ofNat 5 (rrrD w)) (BitVec.ofNat 5 (rrrA w)) (Opd.ofCode (rrrM w) (rrrB w) lit))) {d a : CapReg} {b : Opd} :
    (k d a b).RoundTrips := by
  obtain ⟨ho, hr, hl⟩ := ho
  refine roundTrips_opd ho ((he d a b).trans (by rw [b.litMd_eq])) hr hl (by omega) fun w lit h e => ?_
  simp [hk w lit h.opcode, h.md, h.fd, h.fa, h.fb, e, fin, b.md_zero, b.regCode_spare, toNat_lt_of_le]

/-- A mode and two sources, the second a register or, in the default mode, a literal. -/
theorem roundTrips_sourcesMode {μ : Type} {code : μ → Nat} {ofCode : Nat → μ} {k : μ → Reg → Reg → Opd → Instr}
    (ho : op < 512 ∧ rmOpcode op = false ∧ litOpcode op = true)
    (he : ∀ m d a b, encode (k m d a b) = [packRRR op (b.md (code m)) d.toNat a.toNat b.regCode] ++ b.litWords)
    (hk : ∀ w lit, w / 8388608 = op → decodeWord w lit = fin (rrrM w ≠ 3 ∨ rrrB w = 0) True
      (k (ofCode (rrrM w)) (BitVec.ofNat 7 (rrrD w)) (BitVec.ofNat 7 (rrrA w)) (Opd.ofCode (rrrM w) (rrrB w) lit))) {d a : Reg} {m : μ} {b : Opd}
    (hm : code m < 3) (hmb : ofCode (b.md (code m)) = m) : (k m d a b).RoundTrips := by
  obtain ⟨ho, hr, hl⟩ := ho
  refine roundTrips_opd ho (he m d a b) hr hl (by omega) fun w lit h e => ?_
  simp [hk w lit h.opcode, h.md, h.fd, h.fa, h.fb, e, fin, b.regCode_spare hm, hmb]

/-- A comparison: field d holds the condition above the predicate. -/
theorem roundTrips_compare {κ : Type} {code : κ → Nat} {ofCode : Nat → κ} {g : Nat → Prop} [∀ n, Decidable (g n)]
    {k : PredMode → PredReg → κ → Reg → Opd → Instr} (ho : op < 512 ∧ rmOpcode op = false ∧ litOpcode op = true)
    (he : ∀ m d c a b, encode (k m d c a b) = [packRRR op (b.md m.code) (16 * code c + d.toNat) a.toNat b.regCode] ++ b.litWords)
    (hk : ∀ w lit, w / 8388608 = op → decodeWord w lit = fin (rrrD w / 8 % 2 = 0 ∧ (rrrM w ≠ 3 ∨ rrrB w = 0)) (g (rrrD w / 16))
      (k (PredMode.ofCode (rrrM w)) (BitVec.ofNat 3 (rrrD w % 8)) (ofCode (rrrD w / 16)) (BitVec.ofNat 7 (rrrA w))
        (Opd.ofCode (rrrM w) (rrrB w) lit))) {d : PredReg} {c : κ} {a : Reg} {m : PredMode} {b : Opd}
    (hc : code c < 8) (hg : g (code c)) (hcc : ofCode (code c) = c) (hmb : PredMode.ofCode (b.md m.code) = m) : (k m d c a b).RoundTrips := by
  obtain ⟨ho, hr, hl⟩ := ho
  have hm := m.code_lt
  have h8 : (16 * code c + d.toNat) / 8 % 2 = 0 := by omega
  have h16 : (16 * code c + d.toNat) / 16 = code c := by omega
  have hmod : (16 * code c + d.toNat) % 8 = d.toNat := by omega
  refine roundTrips_opd ho (he m d c a b) hr hl (by omega) fun w lit h e => ?_
  simp [hk w lit h.opcode, h.md, h.fd, h.fa, h.fb, e, fin, b.regCode_spare hm, hmb, h8, h16, hmod, hg, hcc]

/-- Three registers. -/
theorem roundTrips_three {k : Reg → Reg → Reg → Instr} (ho : op < 512 ∧ rmOpcode op = false)
    (he : ∀ d a b, encode (k d a b) = [packRRR op 0 d.toNat a.toNat b.toNat])
    (hk : ∀ w lit, w / 8388608 = op → decodeWord w lit = fin True (rrrM w = 0)
      (k (BitVec.ofNat 7 (rrrD w)) (BitVec.ofNat 7 (rrrA w)) (BitVec.ofNat 7 (rrrB w)))) {d a b : Reg} : (k d a b).RoundTrips := by
  refine roundTrips_rrr ho.1 (he d a b) ho.2 (.inr (by decide)) (by omega) fun w h => ?_
  simp [hk w 0 h.opcode, h.md, h.fd, h.fa, h.fb, fin]

/-- Three registers and a two-valued mode. -/
theorem roundTrips_threeFlag {k : Bool → Reg → Reg → Reg → Instr} (ho : op < 512 ∧ rmOpcode op = false ∧ litOpcode op = false)
    (he : ∀ m d a b, encode (k m d a b) = [packRRR op m.toNat d.toNat a.toNat b.toNat])
    (hk : ∀ w lit, w / 8388608 = op → decodeWord w lit = fin True (rrrM w < 2)
      (k (decide (rrrM w = 1)) (BitVec.ofNat 7 (rrrD w)) (BitVec.ofNat 7 (rrrA w)) (BitVec.ofNat 7 (rrrB w)))) {m : Bool} {d a b : Reg} :
    (k m d a b).RoundTrips := by
  have hm := m.toNat_lt
  refine roundTrips_rrr ho.1 (he m d a b) ho.2.1 (.inl ho.2.2) (by omega) fun w h => ?_
  simp [hk w 0 h.opcode, h.md, h.fd, h.fa, h.fb, fin, hm]

/-- Three registers and a rounding mode. -/
theorem roundTrips_threeRounded {k : RMode → Reg → Reg → Reg → Instr} (ho : op < 512 ∧ rmOpcode op = false ∧ litOpcode op = false)
    (he : ∀ m d a b, encode (k m d a b) = [packRRR op m.code d.toNat a.toNat b.toNat])
    (hk : ∀ w lit, w / 8388608 = op → decodeWord w lit =
      .ok (k (RMode.ofCode (rrrM w)) (BitVec.ofNat 7 (rrrD w)) (BitVec.ofNat 7 (rrrA w)) (BitVec.ofNat 7 (rrrB w)))) {m : RMode} {d a b : Reg} :
    (k m d a b).RoundTrips := by
  have hm := m.code_lt
  refine roundTrips_rrr ho.1 (he m d a b) ho.2.1 (.inl ho.2.2) (by omega) fun w h => ?_
  simp [hk w 0 h.opcode, h.md, h.fd, h.fa, h.fb]

/-- Three registers and a selector of two bits. -/
theorem roundTrips_threeSelect {k : BitVec 2 → Reg → Reg → Reg → Instr} (ho : op < 512 ∧ rmOpcode op = false ∧ litOpcode op = false)
    (he : ∀ m d a b, encode (k m d a b) = [packRRR op m.toNat d.toNat a.toNat b.toNat])
    (hk : ∀ w lit, w / 8388608 = op → decodeWord w lit =
      .ok (k (BitVec.ofNat 2 (rrrM w)) (BitVec.ofNat 7 (rrrD w)) (BitVec.ofNat 7 (rrrA w)) (BitVec.ofNat 7 (rrrB w)))) {m : BitVec 2}
    {d a b : Reg} : (k m d a b).RoundTrips := by
  refine roundTrips_rrr ho.1 (he m d a b) ho.2.1 (.inl ho.2.2) (by omega) fun w h => ?_
  simp [hk w 0 h.opcode, h.md, h.fd, h.fa, h.fb]

/-- A destination and a source. -/
theorem roundTrips_two {k : Reg → Reg → Instr} (ho : op < 512 ∧ rmOpcode op = false)
    (he : ∀ d a, encode (k d a) = [packRRR op 0 d.toNat a.toNat 0])
    (hk : ∀ w lit, w / 8388608 = op → decodeWord w lit = fin (rrrB w = 0) (rrrM w = 0) (k (BitVec.ofNat 7 (rrrD w)) (BitVec.ofNat 7 (rrrA w))))
    {d a : Reg} : (k d a).RoundTrips := by
  refine roundTrips_rrr ho.1 (he d a) ho.2 (.inr (by decide)) (by omega) fun w h => ?_
  simp [hk w 0 h.opcode, h.md, h.fd, h.fa, h.fb, fin]

/-- A destination, a source and a two-valued mode. -/
theorem roundTrips_twoFlag {k : Bool → Reg → Reg → Instr} (ho : op < 512 ∧ rmOpcode op = false ∧ litOpcode op = false)
    (he : ∀ m d a, encode (k m d a) = [packRRR op m.toNat d.toNat a.toNat 0])
    (hk : ∀ w lit, w / 8388608 = op → decodeWord w lit = fin (rrrB w = 0) (rrrM w < 2)
      (k (decide (rrrM w = 1)) (BitVec.ofNat 7 (rrrD w)) (BitVec.ofNat 7 (rrrA w)))) {m : Bool} {d a : Reg} : (k m d a).RoundTrips := by
  have hm := m.toNat_lt
  refine roundTrips_rrr ho.1 (he m d a) ho.2.1 (.inl ho.2.2) (by omega) fun w h => ?_
  simp [hk w 0 h.opcode, h.md, h.fd, h.fa, h.fb, fin, hm]

/-- A destination, a source and a rounding mode. -/
theorem roundTrips_twoRounded {k : RMode → Reg → Reg → Instr} (ho : op < 512 ∧ rmOpcode op = false ∧ litOpcode op = false)
    (he : ∀ m d a, encode (k m d a) = [packRRR op m.code d.toNat a.toNat 0])
    (hk : ∀ w lit, w / 8388608 = op → decodeWord w lit = fin (rrrB w = 0) True
      (k (RMode.ofCode (rrrM w)) (BitVec.ofNat 7 (rrrD w)) (BitVec.ofNat 7 (rrrA w)))) {m : RMode} {d a : Reg} : (k m d a).RoundTrips := by
  have hm := m.code_lt
  refine roundTrips_rrr ho.1 (he m d a) ho.2.1 (.inl ho.2.2) (by omega) fun w h => ?_
  simp [hk w 0 h.opcode, h.md, h.fd, h.fa, h.fb, fin]

/-- A source alone. -/
theorem roundTrips_source {k : Reg → Instr} (ho : op < 512 ∧ rmOpcode op = false) (he : ∀ a, encode (k a) = [packRRR op 0 0 a.toNat 0])
    (hk : ∀ w lit, w / 8388608 = op → decodeWord w lit = fin (rrrD w = 0 ∧ rrrB w = 0) (rrrM w = 0) (k (BitVec.ofNat 7 (rrrA w)))) {a : Reg} :
    (k a).RoundTrips := by
  refine roundTrips_rrr ho.1 (he a) ho.2 (.inr (by decide)) (by omega) fun w h => ?_
  simp [hk w 0 h.opcode, h.md, h.fd, h.fa, h.fb, fin]

/-- No operand. -/
theorem roundTrips_bare {i : Instr} (ho : op < 512 ∧ rmOpcode op = false) (he : encode i = [packRRR op 0 0 0 0])
    (hk : ∀ w lit, w / 8388608 = op → decodeWord w lit = fin (rrrD w = 0 ∧ rrrA w = 0 ∧ rrrB w = 0) (rrrM w = 0) i) : i.RoundTrips := by
  refine roundTrips_rrr ho.1 he ho.2 (.inr (by decide)) (by decide) fun w h => ?_
  simp [hk w 0 h.opcode, h.md, h.fd, h.fa, h.fb, fin]

/-- A register and a memory operand. -/
theorem roundTrips_memory {k : Reg → MemRef → Instr} (ho : op < 512 ∧ litOpcode op = false ∧ rmOpcode op = true)
    (he : ∀ d mr, encode (k d mr) = [packRM op 0 d.toNat mr.c.toNat mr.off.bCode mr.off.xCode] ++ mr.off.litWords)
    (hk : ∀ w lit, w / 8388608 = op → decodeWord w lit = fin True (rmSc w = 0)
      (k (BitVec.ofNat 7 (rmD w)) (MemRef.ofCode (rmC w) (rmB w) (rmX w) lit))) {d : Reg} {mr : MemRef} (hwf : mr.off.wf = true) :
    (k d mr).RoundTrips := by
  refine roundTrips_rm ho.1 (he d mr) hwf ho.2.1 ho.2.2 (by omega) fun w lit h hs hd e => ?_
  simp [hk w lit h, hs, hd, e, fin]

/-- A scope, a register and a memory operand. -/
theorem roundTrips_scopedMemory {k : Scope → Reg → MemRef → Instr} (ho : op < 512 ∧ litOpcode op = false ∧ rmOpcode op = true)
    (he : ∀ sc d mr, encode (k sc d mr) = [packRM op sc.code d.toNat mr.c.toNat mr.off.bCode mr.off.xCode] ++ mr.off.litWords)
    (hk : ∀ w lit, w / 8388608 = op → decodeWord w lit =
      .ok (k (Scope.ofCode (rmSc w)) (BitVec.ofNat 7 (rmD w)) (MemRef.ofCode (rmC w) (rmB w) (rmX w) lit))) {sc : Scope} {d : Reg} {mr : MemRef}
    (hwf : mr.off.wf = true) : (k sc d mr).RoundTrips := by
  have hs := sc.code_lt
  refine roundTrips_rm ho.1 (he sc d mr) hwf ho.2.1 ho.2.2 (by omega) fun w lit h hs hd e => ?_
  simp [hk w lit h, hs, hd, e]

end

/-! ### Rows whose fields hold codes -/

/-- The code of SCANW's field b: the exclusive bit above the operation. -/
theorem scanCode_fields (op : FoldOp) (e : Bool) :
    4 * e.toNat + op.code < 8 ∧ (4 * e.toNat + op.code) % 4 = op.code ∧ (4 * e.toNat + op.code) / 4 = e.toNat := by
  have ho := op.code_lt
  have he := e.toNat_lt
  omega

theorem pset_roundTrips (m : PsetOp) (d : PredReg) (a b : PredSrc) : (Instr.pset m d a b).RoundTrips := by
  have hm := m.code_lt
  have ha := a.code_lt
  have hb := b.code_lt
  refine roundTrips_rrr (by decide) rfl (by decide) (.inl (by decide)) (by omega) fun w h => ?_
  rw [decodeWord, h.opcode]
  simp [decodeRow03, fin, h.md, h.fd, h.fa, h.fb, hm, ha, hb, toNat_lt_of_le]

theorem cget_roundTrips (d : Reg) (a : CapReg) (sel : CgetSel) : (Instr.cget d a sel).RoundTrips := by
  have hs := sel.code_lt
  refine roundTrips_rrr (by decide) rfl (by decide) (.inl (by decide)) (by omega) fun w h => ?_
  rw [decodeWord, h.opcode]
  simp [decodeRow10, fin, h.md, h.fd, h.fa, h.fb, hs, toNat_lt_of_le]

theorem fence_roundTrips (m : FenceKind) (sc : Scope) : (Instr.fence m sc).RoundTrips := by
  have hm := m.code_lt
  have hs := sc.code_lt
  refine roundTrips_rrr (by decide) rfl (by decide) (.inl (by decide)) (by omega) fun w h => ?_
  rw [decodeWord, h.opcode]
  simp [decodeRow17, fin, h.md, h.fd, h.fa, h.fb, hm, hs]

theorem xfence_roundTrips (sc : Scope) (a b : PathId) : (Instr.xfence sc a b).RoundTrips := by
  have hs := sc.code_lt
  have ha := a.code_lt
  have hb := b.code_lt
  have h8 : a.code < 8 ∧ b.code < 8 := by omega
  refine roundTrips_rrr (by decide) rfl (by decide) (.inl (by decide)) (by omega) fun w h => ?_
  rw [decodeWord, h.opcode]
  simp [decodeRow17, fin, h.md, h.fd, h.fa, h.fb, hs, ha, hb, h8]

theorem mred_roundTrips (op : FoldOp) (ty : MredTy) (a b : Reg) : (Instr.mred op ty a b).RoundTrips := by
  have ho := op.code_lt
  have ht := ty.code_lt
  have h16 : 4 * ty.code + op.code < 16 := by omega
  have hop : (4 * ty.code + op.code) % 4 = op.code := by omega
  have hty : (4 * ty.code + op.code) / 4 = ty.code := by omega
  refine roundTrips_rrr (by decide) rfl (by decide) (.inl (by decide)) (by omega) fun w h => ?_
  rw [decodeWord, h.opcode]
  simp [decodeRow17, fin, h.md, h.fd, h.fa, h.fb, h16, hop, hty, ho, ht]

theorem pref_roundTrips (l2 : Bool) {mr : MemRef} (hwf : mr.off.wf = true) : (Instr.pref l2 mr).RoundTrips := by
  have hl := l2.toNat_lt
  refine roundTrips_rm (by decide) rfl hwf (by decide) (by decide) (by omega) fun w lit h hs hd e => ?_
  rw [decodeWord, h]
  simp [decodeRow12, fin, hs, hd, e, hl]

theorem cwb_roundTrips (dev : Bool) {mr : MemRef} (hwf : mr.off.wf = true) : (Instr.cwb dev mr).RoundTrips := by
  have hl := dev.toNat_lt
  refine roundTrips_rm (by decide) rfl hwf (by decide) (by decide) (by omega) fun w lit h hs hd e => ?_
  rw [decodeWord, h]
  cases dev <;> simp [decodeRow12, fin, hs, hd, e]

theorem cinv_roundTrips {mr : MemRef} (hwf : mr.off.wf = true) : (Instr.cinv mr).RoundTrips := by
  refine roundTrips_rm (by decide) rfl hwf (by decide) (by decide) (by decide) fun w lit h hs hd e => ?_
  rw [decodeWord, h]
  simp [decodeRow12, fin, hs, hd, e]

/-! ### A word with an unassigned opcode (R54) -/

theorem decodeRow03_unassigned {n : Nat} (h : 14 ≤ n) (w lit : Nat) : decodeRow03 n w lit = .ok (.unassignedOpcode (BitVec.ofNat 32 w)) := by
  obtain ⟨k, rfl⟩ := Nat.exists_eq_add_of_le' h
  rfl

theorem decodeRow04_unassigned {n : Nat} (h : 10 ≤ n) (w lit : Nat) : decodeRow04 n w lit = .ok (.unassignedOpcode (BitVec.ofNat 32 w)) := by
  obtain ⟨k, rfl⟩ := Nat.exists_eq_add_of_le' h
  rfl

theorem decodeRow07_unassigned {n : Nat} (h : 9 ≤ n) (w lit : Nat) : decodeRow07 n w lit = .ok (.unassignedOpcode (BitVec.ofNat 32 w)) := by
  obtain ⟨k, rfl⟩ := Nat.exists_eq_add_of_le' h
  rfl

theorem decodeRow09_unassigned {n : Nat} (h : 8 ≤ n) (w lit : Nat) : decodeRow09 n w lit = .ok (.unassignedOpcode (BitVec.ofNat 32 w)) := by
  obtain ⟨k, rfl⟩ := Nat.exists_eq_add_of_le' h
  rfl

theorem decodeRow0F_unassigned {n : Nat} (h : 4 ≤ n) (w lit : Nat) : decodeRow0F n w lit = .ok (.unassignedOpcode (BitVec.ofNat 32 w)) := by
  obtain ⟨k, rfl⟩ := Nat.exists_eq_add_of_le' h
  rfl

theorem decodeRow10_unassigned {n : Nat} (h : 6 ≤ n) (w lit : Nat) : decodeRow10 n w lit = .ok (.unassignedOpcode (BitVec.ofNat 32 w)) := by
  obtain ⟨k, rfl⟩ := Nat.exists_eq_add_of_le' h
  rfl

theorem decodeRow12_unassigned {n : Nat} (h : 3 ≤ n) (w lit : Nat) : decodeRow12 n w lit = .ok (.unassignedOpcode (BitVec.ofNat 32 w)) := by
  obtain ⟨k, rfl⟩ := Nat.exists_eq_add_of_le' h
  rfl

theorem decodeRow15_unassigned {n : Nat} (h : 5 ≤ n) (w lit : Nat) : decodeRow15 n w lit = .ok (.unassignedOpcode (BitVec.ofNat 32 w)) := by
  obtain ⟨k, rfl⟩ := Nat.exists_eq_add_of_le' h
  rfl

theorem decodeRow18_unassigned {n : Nat} (h : 12 ≤ n) (w lit : Nat) : decodeRow18 n w lit = .ok (.unassignedOpcode (BitVec.ofNat 32 w)) := by
  obtain ⟨k, rfl⟩ := Nat.exists_eq_add_of_le' h
  rfl

theorem decodeRow1A_unassigned {n : Nat} (h : 12 ≤ n) (w lit : Nat) : decodeRow1A n w lit = .ok (.unassignedOpcode (BitVec.ofNat 32 w)) := by
  obtain ⟨k, rfl⟩ := Nat.exists_eq_add_of_le' h
  rfl

theorem decodeRow1B_unassigned {n : Nat} (h : 13 ≤ n) (w lit : Nat) : decodeRow1B n w lit = .ok (.unassignedOpcode (BitVec.ofNat 32 w)) := by
  obtain ⟨k, rfl⟩ := Nat.exists_eq_add_of_le' h
  rfl

theorem decodeWord_unassigned {w : Nat} (h : assignedOpcode (w / 8388608) = false) (lit : Nat) :
    decodeWord w lit = .ok (.unassignedOpcode (BitVec.ofNat 32 w)) := by
  simp only [assignedOpcode, Bool.or_eq_false_iff, Bool.and_eq_false_iff, decide_eq_false_iff_not] at h
  unfold decodeWord
  split
  case h_1 | h_2 | h_3 | h_6 | h_8 | h_10 | h_11 | h_14 | h_16 | h_18 | h_19 | h_21 => omega
  case h_4 => exact decodeRow03_unassigned (by omega) w lit
  case h_5 => exact decodeRow04_unassigned (by omega) w lit
  case h_7 => exact decodeRow07_unassigned (by omega) w lit
  case h_9 => exact decodeRow09_unassigned (by omega) w lit
  case h_12 => exact decodeRow0F_unassigned (by omega) w lit
  case h_13 => exact decodeRow10_unassigned (by omega) w lit
  case h_15 => exact decodeRow12_unassigned (by omega) w lit
  case h_17 => exact decodeRow15_unassigned (by omega) w lit
  case h_20 => exact decodeRow18_unassigned (by omega) w lit
  case h_22 => exact decodeRow1A_unassigned (by omega) w lit
  case h_23 => exact decodeRow1B_unassigned (by omega) w lit
  case h_24 => rfl

theorem literals_unassigned {w : Nat} (h : assignedOpcode (w / 8388608) = false) : literals w = 0 := by
  simp only [assignedOpcode, Bool.or_eq_false_iff, Bool.and_eq_false_iff, decide_eq_false_iff_not] at h
  refine literals_plain rfl ?_ ?_
  · simp only [litOpcode, Bool.or_eq_false_iff, Bool.and_eq_false_iff, decide_eq_false_iff_not, beq_eq_false_iff_ne]
    omega
  · simp only [rmOpcode, Bool.or_eq_false_iff, Bool.and_eq_false_iff, decide_eq_false_iff_not]
    omega

theorem unassignedOpcode_roundTrips {w : Word} (h : assignedOpcode (w.toNat / 8388608) = false) : (Instr.unassignedOpcode w).RoundTrips := by
  refine decode_word w.isLt (literals_unassigned h) ?_
  rw [decodeWord_unassigned h, BitVec.ofNat_toNat, BitVec.setWidth_eq]

/-! ### Every word -/

/-- The case table: every instruction that has an encoding round-trips, by the shape of its row. -/
theorem roundTrips_of_wf (i : Instr) (hwf : i.wf = true) (hne : encode i ≠ []) : i.RoundTrips := by
  cases i
  case mulI32 | mulI64 | mulhI32 | mulhN32 | mulhI64 | mulhN64 | madI32 | madI64 | minI32 | minN32 | minI64 | minN64 | maxI32 | maxN32 | maxI64 |
    maxN64 | andB | orB | xorB | andnB | shlB | shrB | sarB | rotlB | fshlB | bfxN32 | bfxI32 | bfiB | prmtB | shlN64 | shrN64 | sarI64 | andN64 |
    orN64 | xorN64 | andnN64 | fminF32 | fmaxF32 | xchm =>
    exact roundTrips_sources (by decide) (fun _ _ _ => rfl) (fun _ _ h => by rw [decodeWord, h]; rfl)
  case addcN32 | leaN32 | selB | selN64 | leaN64 =>
    exact roundTrips_threeSelect (by decide) (fun _ _ _ _ => rfl) (fun _ _ h => by rw [decodeWord, h]; rfl)
  case absI32 | absI64 | negI32 | negI64 | ncommit | nquery =>
    exact roundTrips_twoFlag (by decide) (fun _ _ _ => rfl) (fun _ _ h => by rw [decodeWord, h]; rfl)
  case popcB | clzB | ctzB | brevB | popcN64 | clzN64 | ctzN64 | brevN64 | fclassF32 | fcvtF32F16 | fcvtF32Bf16 | fcvtF32I16 | fcvtF32N16 |
    fcvtF32I8 | fcvtF32N8 | callx | alight | bread | nfork | nprune =>
    exact roundTrips_two (by decide) (fun _ _ => rfl) (fun _ _ h => by rw [decodeWord, h]; rfl)
  case faddF32 | fmulF32 | ffmaF32 | ffmaNpF32 | ffmaNcF32 | ffmaNpcF32 | hadd2Bf16x2 | hadd2F16x2 | hmul2Bf16x2 | hmul2F16x2 | hfma2Bf16x2 |
    hfma2F16x2 | fcvtF16x2F32 | fcvtBf16x2F32 =>
    exact roundTrips_threeRounded (by decide) (fun _ _ _ _ => rfl) (fun _ _ h => by rw [decodeWord, h]; rfl)
  case frndF32 | frcpF32 | frsqF32 | fsqrtF32 | fex2F32 | flg2F32 | fsinF32 | fcosF32 | ftanhF32 | fcvtF16F32 | fcvtBf16F32 | fcvtF16Bf16 |
    fcvtBf16F16 | fcvtF32I32 | fcvtF32N32 | fcvtF32I64 | fcvtF32N64 | fcvtI32F32 | fcvtN32F32 | fcvtI64F32 | fcvtN64F32 | fcvtI16F32 | fcvtN16F32 |
    fcvtI8F32 | fcvtN8F32 =>
    exact roundTrips_twoRounded (by decide) (fun _ _ _ => rfl) (fun _ _ h => by rw [decodeWord, h]; rfl)
  case brx | ret | clkw | bardrop | bpass | accldF32 | accstF32 | accsv | accrs | accldBf16 | accldF16 | accstBf16 | accstF16 =>
    exact roundTrips_source (by decide) (fun _ => rfl) (fun _ _ h => by rw [decodeWord, h]; rfl)
  case join | exit | yield | nop | tfence | tbegin | accmsk =>
    exact roundTrips_bare (by decide) rfl (fun _ _ h => by rw [decodeWord, h]; rfl)
  case ldN8 | ldI8 | ldN16 | ldI16 | ldN32 | ldN64 | stN8 | stN16 | stN32 | stN64 | ldc | stc =>
    exact roundTrips_memory (by decide) (fun _ _ => rfl) (fun _ _ h => by rw [decodeWord, h]; rfl) hwf
  case ldaN32 | ldaN64 | stlN32 | stlN64 | atomAddN32 | atomAddN64 | atomAddF32 | atomMinI32 | atomMinN32 | atomMinI64 | atomMinN64 | atomMaxI32 |
    atomMaxN32 | atomMaxI64 | atomMaxN64 | atomAndN32 | atomAndN64 | atomOrN32 | atomOrN64 | atomXorN32 | atomXorN64 | atomExchN32 | atomExchN64 |
    atomCasN32 | atomCasN64 | redAddN32 | redAddN64 | redAddF32 | redMinI32 | redMinN32 | redMinI64 | redMinN64 | redMaxI32 | redMaxN32 | redMaxI64
    | redMaxN64 | redAndN32 | redAndN64 | redOrN32 | redOrN64 | redXorN32 | redXorN64 =>
    exact roundTrips_scopedMemory (by decide) (fun _ _ _ => rfl) (fun _ _ h => by rw [decodeWord, h]; rfl) hwf
  case bcapAdd | bcapAnd | bcapOr | bcapSwap | bcapCas | bcapFadd | accexs | xchain | kvref | kvrel =>
    exact roundTrips_three (by decide) (fun _ _ _ => rfl) (fun _ _ h => by rw [decodeWord, h]; rfl)
  case bcapMin | bcapMax | mmaBf16 | mmaF16 | mmaF32 | mmaK4 | mmaI8 | mmabXor | mmabAnd | kvmap =>
    exact roundTrips_threeFlag (by decide) (fun _ _ _ _ => rfl) (fun _ _ h => by rw [decodeWord, h]; rfl)
  case addI32 | addI64 | subI32 | subI64 =>
    exact roundTrips_sourcesMode (by decide) (fun _ _ _ _ => rfl) (fun _ _ h => by rw [decodeWord, h]; rfl) (SatMode.code_lt _) (SatMode.ofCode_md hwf)
  case shflIdx | shflUp | shflDown | shflXor =>
    exact roundTrips_sourcesMode (by decide) (fun _ _ _ _ => rfl) (fun _ _ h => by rw [decodeWord, h]; rfl) (ShflWidth.code_lt _) (ShflWidth.ofCode_md hwf)
  case isetI32 m d cc a b | isetN32 m d cc a b | isetI64 m d cc a b | isetN64 m d cc a b =>
    exact roundTrips_compare (g := (· < 6)) (by decide) (fun _ _ _ _ _ => rfl) (fun _ _ h => by rw [decodeWord, h]; rfl) (cc.code_lt.trans (by decide))
      cc.code_lt cc.ofCode_code (PredMode.ofCode_md hwf)
  case fsetF32 m d cc a b =>
    exact roundTrips_compare (g := fun _ => True) (by decide) (fun _ _ _ _ _ => rfl) (fun _ _ h => by rw [decodeWord, h]; rfl) cc.code_lt
      trivial cc.ofCode_code (PredMode.ofCode_md hwf)
  case cprm | cadd =>
    exact roundTrips_capSource (by decide) (fun _ _ _ => rfl) (fun _ _ h => by rw [decodeWord, h]; rfl)
  case movB | movN64 | cbndExact | cbndRound | ctstTag | ctstSub | bararr | bararrNobytes | barinv | barinvFree | barexp | accz | acczAll |
    xtile | xtileCo | xstrm | xstrmCo | ntag | ntagClr | cdrv | tend | tabort | tstat | barinit | barwait | bartst | mrwait | board | cbld |
    accstI8 | xstop | chkt | chkw | kvshoot | lnch | lcancel | ljoin =>
    refine roundTrips_rrr (by decide) rfl (by decide) (.inr (by decide)) (by omega) fun w h => ?_
    rw [decodeWord, h.opcode]
    simp [decodeRow03, decodeRow10, decodeRow17, decodeRow18, decodeRow19, decodeRow1A, decodeRow1B, fin, h.md, h.fd, h.fa, h.fb, toNat_lt_of_le]
  case pmovToPred | pmovPack | pmovUnpack =>
    refine roundTrips_rrr (by decide) rfl (by decide) (.inl (by decide)) (by omega) fun w h => ?_
    rw [decodeWord, h.opcode]
    simp [decodeRow03, fin, h.md, h.fd, h.fa, h.fb, toNat_lt_of_le]
  case movBLit | movN64Lit | cbndLit | bararrLit | barexpLit =>
    refine roundTrips_rrrLit (by decide) rfl (by decide) (by omega) fun w h => ?_
    rw [decodeWord, h.opcode]
    simp [decodeRow03, decodeRow10, decodeRow17, fin, h.md, h.fd, h.fa, h.fb, toNat_lt_of_le]
  case accmx m d b | xstat m d b | maskg m d b =>
    have hm := m.toNat_lt
    refine roundTrips_rrr (by decide) rfl (by decide) (.inl (by decide)) (by omega) fun w h => ?_
    rw [decodeWord, h.opcode]
    simp [decodeRow19, decodeRow1A, decodeRow1B, fin, h.md, h.fd, h.fa, h.fb, hm]
  case addiI32 | addiI64 | shliB | shriB | sariB =>
    refine roundTrips_ri (by decide) rfl (by decide) (by decide) (by omega) fun w h => ?_
    rw [decodeWord, h.opcode]
    simp [decodeRow00, decodeRow02, fin, h.fd, h.fa, h.imm, toNat_lt_of_le]
  case movi | movh | trap | bkpt | winb | wina | srd | swr | waitf =>
    refine roundTrips_rw (by decide) rfl (by decide) (by decide) (by omega) fun w h => ?_
    rw [decodeWord, h.opcode]
    simp [decodeRow03, decodeRow0E, decodeRow0F, fin, h.fd, h.imm, toNat_lt_of_le]
  case setfmt mode imm =>
    have hm := mode.code_lt
    refine roundTrips_rw (by decide) rfl (by decide) (by decide) (by omega) fun w h => ?_
    rw [decodeWord, h.opcode]
    simp [decodeRow0E, fin, h.fd, h.imm, hm]
  case bra | call =>
    refine roundTrips_br (by decide) rfl (by decide) (by decide) fun w h hoff => ?_
    rw [decodeWord, h]
    simp [decodeRow0E, hoff]
  case pmovToReg d q | ballot d q | voteEvery d q | voteSome d q | voteAgree d q =>
    have hq := q.code_lt
    refine roundTrips_rrr (by decide) rfl (by decide) (.inl (by decide)) (by omega) fun w h => ?_
    rw [decodeWord, h.opcode]
    simp [decodeRow03, decodeRow0C, fin, h.md, h.fd, h.fa, h.fb, hq, toNat_lt_of_le]
  case waitpReg p a | waitpImm p a =>
    have hp := p.code_lt
    have hp8 : p.code < 8 := by omega
    refine roundTrips_ri (by decide) rfl (by decide) (by decide) (by omega) fun w h => ?_
    rw [decodeWord, h.opcode]
    simp [decodeRow0F, fin, h.fd, h.fa, h.imm, hp, hp8]
  case redwI32 d a op | redwN32 d a op | redwB d a op =>
    have ho := op.code_lt
    refine roundTrips_rrr (by decide) rfl (by decide) (.inl (by decide)) (by omega) fun w h => ?_
    rw [decodeWord, h.opcode]
    simp [decodeRow0C, fin, h.md, h.fd, h.fa, h.fb, ho, Nat.lt_succ_of_lt]
  case redwF32 m d a op =>
    have hm := m.code_lt
    have ho := op.code_lt
    refine roundTrips_rrr (by decide) rfl (by decide) (.inl (by decide)) (by omega) fun w h => ?_
    rw [decodeWord, h.opcode]
    simp [decodeRow0C, fin, h.md, h.fd, h.fa, h.fb, ho, Nat.lt_succ_of_lt]
  case scanwI32 d a op e | scanwN32 d a op e =>
    obtain ⟨h8, hop, he⟩ := scanCode_fields op e
    have ho := op.code_lt
    refine roundTrips_rrr (by decide) rfl (by decide) (.inl (by decide)) (by omega) fun w h => ?_
    rw [decodeWord, h.opcode]
    simp [decodeRow0C, fin, h.md, h.fd, h.fa, h.fb, h8, hop, he, ho]
  case scanwF32 m d a op e =>
    obtain ⟨h8, hop, he⟩ := scanCode_fields op e
    have ho := op.code_lt
    have hm := m.code_lt
    refine roundTrips_rrr (by decide) rfl (by decide) (.inl (by decide)) (by omega) fun w h => ?_
    rw [decodeWord, h.opcode]
    simp [decodeRow0C, fin, h.md, h.fd, h.fa, h.fb, h8, hop, he, ho]
  case pset => exact pset_roundTrips _ _ _ _
  case cget => exact cget_roundTrips _ _ _
  case fence => exact fence_roundTrips _ _
  case xfence => exact xfence_roundTrips _ _ _
  case mred => exact mred_roundTrips _ _ _ _
  case pref => exact pref_roundTrips _ hwf
  case cwb => exact cwb_roundTrips _ hwf
  case cinv => exact cinv_roundTrips hwf
  case unassignedOpcode => exact unassignedOpcode_roundTrips ((Bool.not_eq_true' _).mp hwf)
  case repairResume | repairKill | repairSplit | repairFuse | repairKillwarp | clauseStart | fragmentWake | deadFragmentFree | memoryOpComplete |
    sliceAccess | solitaryGrant | peerPacketArrival | peerAck | matrixKStep | engineQueueOp | transferRecordFetch | chunkComplete | chainRecordStep
    | meshReductionInput | meshReductionTimeout | meshReductionResult | beadPass | boardMarkReply | alightHomeWrite | treeCommandArrival |
    nodeRewriteAck | pruneKillDelivery | pruneReleaseDone | hallmarkCopyComplete | pageFree | hallmarkScrubCheck | kvshootAck | treeCmdOpen |
    treeCmdClose | treeCmdFlatten | doorbellTail | doorbellWithdraw | doorbellWithdrawCancel | doorbellCancel | queueMap | sliceExpiry | packetTake
    | gangAdmission | startHoldRelease | candidateBlocking | gangParked | gangDrained | parklimExpiry | runlimExpiry | unitEnd | contextIdFree |
    faultQueueCopy | dieFqackRetry | dieFqackFail | tlbiRange | tlbiContext | tlbiAll | tlbiComplete | migrationGo | migrationCopyDone |
    migrationSwitch | migrationAbort | nocWindowExpiry | mredDescValidate | mredDescInvalidate | peerLoss | quiesceReceived | quiesceClear |
    bridlePortFail | circQuotaInvalidate | circClearBead | faultRecordPost | handlerLaunchStart | uncorrectableError | correctableError |
    patrolScrub | hostBar4Write | hostBar4Read | bar4Resize | csrWrite | powerOnReset | bootStageComplete | powerOff | bootCommit | attestGo |
    attestComplete | throttleStepDown | throttleRecovery | thermalShutdown =>
    exact absurd rfl hne

/-- Settles O56: an instruction with a nonempty encoding is a word, and every word round-trips (`roundTrips_of_wf`). -/
theorem decodeEncode : Obligations.DecodeEncode := by
  unfold Obligations.DecodeEncode
  exact roundTrips_of_wf

/-- Settles O55, by running the decoder on each word. -/
theorem decodeWords : Obligations.DecodeWords := by
  unfold Obligations.DecodeWords
  exact ⟨rfl, rfl, rfl, rfl, rfl, rfl, rfl, rfl⟩

end Sys2Proof
end

section
/-! SUPPORT. Every step answers a next state (O59): the meanings of words and events, then the step. -/
namespace Sys2Proof.Machine

/-! ### What a meaning answers -/

/-- A meaning answers a next state: an event's anywhere, a word's wherever a fragment executes. -/
def GoesOn (event : Bool) (f : State → Host.Outcome State Fault Refusal) : Prop :=
  ∀ s, (event = false → s.ctx?.isSome = true) → ∃ t, f s = .next t

theorem next_goesOn {event : Bool} {g : State → State} : GoesOn event fun s => .next (g s) := fun _ _ => ⟨_, rfl⟩

theorem withWord_goesOn {use : List Opn} {ps : List (BitVec 3)} {body : Ctx → State → State} : GoesOn false (withWord use ps body) := by
  intro s hs
  obtain ⟨c, hc⟩ := Option.isSome_iff_exists.mp (hs rfl)
  unfold withWord
  rw [hc]
  dsimp only
  split_ifs
  · exact ⟨_, rfl⟩
  · exact ⟨_, rfl⟩
  · exact ⟨_, rfl⟩
  · exact ⟨_, rfl⟩

/-- Every row of the opcode table: an event's meaning is a next state, a word's is `withWord`. -/
theorem exec_goesOn (i : Instr) : GoesOn (isEvent i) (exec i) := by
  cases i
  case repairResume | repairKill | repairSplit | repairFuse | repairKillwarp | clauseStart | fragmentWake | deadFragmentFree |
    memoryOpComplete | sliceAccess | solitaryGrant | peerPacketArrival | peerAck | matrixKStep | engineQueueOp | transferRecordFetch |
    chunkComplete | chainRecordStep | meshReductionInput | meshReductionTimeout | meshReductionResult | beadPass | boardMarkReply |
    alightHomeWrite | treeCommandArrival | nodeRewriteAck | pruneKillDelivery | pruneReleaseDone | hallmarkCopyComplete | pageFree |
    hallmarkScrubCheck | kvshootAck | treeCmdOpen | treeCmdClose | treeCmdFlatten | doorbellTail | doorbellWithdraw | doorbellWithdrawCancel |
    doorbellCancel | queueMap | sliceExpiry | packetTake | gangAdmission | startHoldRelease | candidateBlocking | gangParked | gangDrained |
    parklimExpiry | runlimExpiry | unitEnd | contextIdFree | faultQueueCopy | dieFqackRetry | dieFqackFail | tlbiRange | tlbiContext | tlbiAll |
    tlbiComplete | migrationGo | migrationCopyDone | migrationSwitch | migrationAbort | nocWindowExpiry | mredDescValidate | mredDescInvalidate
    | peerLoss | quiesceReceived | quiesceClear | bridlePortFail | circQuotaInvalidate | circClearBead | faultRecordPost | handlerLaunchStart |
    uncorrectableError | correctableError | patrolScrub | hostBar4Write | hostBar4Read | bar4Resize | csrWrite | powerOnReset |
    bootStageComplete | powerOff | bootCommit | attestGo | attestComplete | throttleStepDown | throttleRecovery | thermalShutdown =>
    exact next_goesOn
  case addI32 | addI64 | subI32 | subI64 | addiI32 | addiI64 | mulI32 | mulI64 | mulhI32 | mulhN32 | mulhI64 | mulhN64 | madI32 | madI64 |
    addcN32 | leaN32 | minI32 | minN32 | minI64 | minN64 | maxI32 | maxN32 | maxI64 | maxN64 | absI32 | absI64 | negI32 | negI64 | isetI32 |
    isetN32 | isetI64 | isetN64 | andB | orB | xorB | andnB | shlB | shrB | sarB | rotlB | shliB | shriB | sariB | fshlB | bfxN32 | bfxI32 |
    bfiB | prmtB | popcB | clzB | ctzB | brevB | selB | movB | movBLit | movi | movh | pset | pmovToReg | pmovToPred | pmovPack | pmovUnpack |
    shlN64 | shrN64 | sarI64 | movN64 | movN64Lit | andN64 | orN64 | xorN64 | andnN64 | popcN64 | clzN64 | ctzN64 | brevN64 | selN64 | leaN64 |
    faddF32 | fmulF32 | ffmaF32 | ffmaNpF32 | ffmaNcF32 | ffmaNpcF32 | fminF32 | fmaxF32 | fsetF32 | fclassF32 | frndF32 | frcpF32 | frsqF32 |
    fsqrtF32 | fex2F32 | flg2F32 | fsinF32 | fcosF32 | ftanhF32 | hadd2Bf16x2 | hadd2F16x2 | hmul2Bf16x2 | hmul2F16x2 | hfma2Bf16x2 | hfma2F16x2
    | fcvtF32F16 | fcvtF32Bf16 | fcvtF16F32 | fcvtBf16F32 | fcvtF16Bf16 | fcvtBf16F16 | fcvtF16x2F32 | fcvtBf16x2F32 | fcvtF32I32 | fcvtF32N32 |
    fcvtF32I64 | fcvtF32N64 | fcvtI32F32 | fcvtN32F32 | fcvtI64F32 | fcvtN64F32 | fcvtI16F32 | fcvtN16F32 | fcvtI8F32 | fcvtN8F32 | fcvtF32I16 |
    fcvtF32N16 | fcvtF32I8 | fcvtF32N8 | ballot | voteEvery | voteSome | voteAgree | xchm | redwI32 | redwN32 | redwF32 | redwB | scanwI32 |
    scanwN32 | scanwF32 | cget | ctstTag | ctstSub | ldN8 | ldI8 | ldN16 | ldI16 | ldN32 | ldN64 | ldaN32 | ldaN64 | stN8 | stN16 | stN32 |
    stN64 | stlN32 | stlN64 | ldc | stc | atomAddN32 | atomAddN64 | atomAddF32 | atomMinI32 | atomMinN32 | atomMinI64 | atomMinN64 | atomMaxI32
    | atomMaxN32 | atomMaxI64 | atomMaxN64 | atomAndN32 | atomAndN64 | atomOrN32 | atomOrN64 | atomXorN32 | atomXorN64 | atomExchN32 |
    atomExchN64 | atomCasN32 | atomCasN64 | redAddN32 | redAddN64 | redAddF32 | redMinI32 | redMinN32 | redMinI64 | redMinN64 | redMaxI32 |
    redMaxN32 | redMaxI64 | redMaxN64 | redAndN32 | redAndN64 | redOrN32 | redOrN64 | redXorN32 | redXorN64 | accz | acczAll | accldF32 |
    accstF32 | accsv | accrs | accmx | accexs | accmsk | accldBf16 | accldF16 | accstBf16 | accstF16 | accstI8 | board | alight | bcapAdd |
    bcapMin | bcapMax | bcapAnd | bcapOr | bcapSwap | bcapCas | bcapFadd | bread | nfork | nprune | ncommit | nquery | kvmap | kvref | kvrel |
    kvshoot | mmaBf16 | mmaF16 | mmaF32 | mmaK4 | mmaI8 | mmabXor | mmabAnd | cbndExact | cbndRound | cbndLit | cprm | cadd | bararr |
    bararrNobytes | bararrLit | winb | wina | waitpReg | waitpImm | cwb | cinv | barinv | barinvFree | barexp | barexpLit | xtile | xtileCo |
    xstrm | xstrmCo | shflIdx | shflUp | shflDown | shflXor | bra | call | brx | callx | ret | join | exit | yield | nop | trap | tfence | bkpt
    | setfmt | srd | swr | waitf | clkw | cdrv | pref | fence | xfence | tbegin | tend | tabort | tstat | barinit | barwait | bartst | bardrop |
    mred | mrwait | bpass | cbld | xchain | xstat | xstop | chkt | chkw | ntag | ntagClr | maskg | lnch | lcancel | ljoin | unassignedOpcode =>
    exact withWord_goesOn

/-! ### The step -/

/-- A fragment that may issue a word has its unit, warp and launch, so the word finds the executing fragment. -/
theorem State.ctx?_of_mayIssue {s : State} {f : FragRef} {r : Nat × Launch × Frag} (h : s.mayIssue f = some r) :
    ({ s with cur := some f } : State).ctx?.isSome = true := by
  unfold State.mayIssue at h
  split at h
  next u w x l hu hw hx hl =>
    simp only [State.frag?, hw, Option.bind_some] at hx
    simp only [State.warp?, State.launchOf, hu, Option.bind_some] at hw hl
    rw [State.unit?] at hu
    simp [State.ctx?, State.unit?, hu, hw, hl, hx]
  · exact absurd h nofun

theorem wordStep_goesOn (f : FragRef) (s : State) : ∃ t, wordStep f s = .next t := by
  unfold wordStep
  split
  · exact ⟨_, rfl⟩
  next h =>
    split
    · exact ⟨_, rfl⟩
    · split
      · exact ⟨_, rfl⟩
      · split
        · exact ⟨_, rfl⟩
        · exact exec_goesOn _ _ fun _ => State.ctx?_of_mayIssue h

theorem eventStep_goesOn (i : Instr) (s : State) : ∃ t, eventStep i s = .next t := by
  unfold eventStep
  split
  next h =>
    simp only [State.mayHappen, Bool.and_eq_true] at h
    obtain ⟨⟨he, _⟩, _⟩ := h
    exact exec_goesOn i s fun hw => absurd (he.symm.trans hw) Bool.true_eq_false.mp
  · exact ⟨_, rfl⟩

/-- Settles O59: a tick, an event and a word each answer a next state; the one fault of the model, a word without an executing fragment, is out of
reach, for a word issues only for a fragment that is there. -/
theorem everyStepGoesOn : Obligations.EveryStepGoesOn := by
  unfold Obligations.EveryStepGoesOn
  intro s
  unfold step
  cases s.nextMove.1 with
  | word f => exact wordStep_goesOn f _
  | event i => exact eventStep_goesOn i _
  | tick => exact ⟨_, rfl⟩

end Sys2Proof.Machine
end

section
/-! SUPPORT. NOP, YIELD, the window and the format, the waits, and the traps (O9): each word by what it needs, then a fault of some threads. -/
namespace Sys2Proof.Machine

/-! ### NOP, YIELD and the fragment's settings (R143, R146, R147) -/

section
variable {s : State} {c : Ctx}

theorem nop_retires (h : Ready s c [] []) : ∃ t, exec .nop s = .next t ∧ Retired s t c 1 c.w :=
  exec_ready h execNop rfl rfl (retired_self h.1 1 false c.beats)

theorem yield_retires (h : Ready s c [] []) (hs : NotSolitary s c) (hp : c.u.parkReq = false) :
    ∃ t, exec .yield s = .next t ∧ Retired s t c 1 { c.w with lastYield := true } := by
  refine exec_ready h execYield rfl rfl ?_
  rw [hs.stops, hp, if_neg Bool.false_ne_true]
  exact retired_edit h.1 _ rfl rfl 1 false c.beats

theorem yield_parks (h : Ready s c [] []) (hs : NotSolitary s c) (hp : c.u.parkReq = true) : ∃ t, exec .yield s = .next t
    ∧ Becomes s t c { c.w with lastYield := true } { c.fr.nextWord 1 with status := .parkedWait, wake := .park, lane := false } := by
  obtain ⟨-, -, -, -, hf⟩ := State.ctx?_some h.1
  refine exec_ready h execYield rfl rfl ?_
  rw [hs.stops, hp, if_pos rfl, State.retire_eq, State.editFrag_eq, State.editWarp_editCore, State.editWarp_editWarp, State.editWarp_editWarp]
  refine becomes_edit h.1 _ _ (fun _ => rfl) rfl (fun i hi => ?_) ?_
  · simp only [Warp.editFrag, Map.look_edit_ne _ _ hi]
  · simp [Warp.editFrag, Map.look_edit_self, hf]

theorem setfmt_sets (h : Ready s c [] []) (ha : c.act ≠ 0#32) (mode : FmtMode) (imm : BitVec 16) : ∃ t, exec (.setfmt mode imm) s = .next t
    ∧ Becomes s t c c.w { c.fr.nextWord 1 with
        fmt := match mode with
          | .set => imm.setWidth 14 &&& 0x3F1F#14
          | .or => c.fr.fmt ||| (imm.setWidth 14 &&& 0x3F1F#14)
          | .clr => c.fr.fmt &&& ~~~(imm.setWidth 14 &&& 0x3F1F#14) } := by
  refine exec_ready h (execSetfmt mode imm) rfl rfl ?_
  rw [if_neg ha, ← Frag.nextWord_fmt]
  exact becomes_frag_retire h.1 _ 1 false c.beats

theorem setfmt_idle (h : Ready s c [] []) (ha : c.act = 0#32) (mode : FmtMode) (imm : BitVec 16) :
    ∃ t, exec (.setfmt mode imm) s = .next t ∧ Retired s t c 1 c.w := by
  refine exec_ready h (execSetfmt mode imm) rfl rfl ?_
  rw [if_pos ha]
  exact retired_self h.1 1 false 1

/-! ### The window base (R27, R146) -/

theorem setWindow_sets (h : Ready s c [] []) (ha : c.act ≠ 0#32) {base : Ctx → Int} {b : Nat} (hb : base c = b) (hlt : b < c.w.extent) :
    ∃ t, setWindow base s = .next t ∧ Becomes s t c c.w { c.fr.nextWord 1 with win := BitVec.ofNat 5 (b / 16) } := by
  refine ⟨_, withWord_ready h _, ?_⟩
  rw [if_neg ha, hb, if_neg (by omega), ← Frag.nextWord_win]
  exact becomes_frag_retire h.1 _ 1 false c.beats

theorem setWindow_faults (h : Ready s c [] []) (ha : c.act ≠ 0#32) (h0 : c.fr.mask ≠ 0#32) (hs : NotSolitary s c) {base : Ctx → Int}
    (hout : base c < 0 ∨ (c.w.extent : Int) ≤ base c) : ∃ t, setWindow base s = .next t ∧ FaultsWhole s t c 0x04 0 0 true := by
  refine ⟨_, withWord_ready h _, ?_⟩
  rw [if_neg ha, if_pos hout]
  exact faultAll_whole h.1 hs h0 0x04

theorem setWindow_idle (h : Ready s c [] []) (ha : c.act = 0#32) (base : Ctx → Int) :
    ∃ t, setWindow base s = .next t ∧ Retired s t c 1 c.w := by
  refine ⟨_, withWord_ready h _, ?_⟩
  rw [if_pos ha]
  exact retired_self h.1 1 false 1

/-! ### WAITF (R149) -/

theorem KUnit.flagsClear_iff (u : KUnit) (warp : Nat) (m : BitVec 12) (x : Mask) :
    u.flagsClear warp m x = true ↔ ∀ k < 12, m.getLsbD k = true → u.flagValue warp k x = 0 := by
  simp [KUnit.flagsClear, ← Bool.not_eq_true, imp_iff_not_or]

theorem waitf_retires (h : Ready s c [] []) {m : BitVec 12} (hm : ∀ k < 12, m.getLsbD k = true → c.u.flagValue c.f.warp k c.fr.mask = 0) :
    ∃ t, exec (.waitf m) s = .next t ∧ Retired s t c 1 c.w := by
  refine exec_ready h (execWaitf m) rfl rfl ?_
  rw [if_pos ((KUnit.flagsClear_iff ..).mpr hm)]
  exact retired_self h.1 1 false c.beats

theorem waitf_parks (h : Ready s c [] []) {m : BitVec 12} (hm : ∃ k < 12, m.getLsbD k = true ∧ c.u.flagValue c.f.warp k c.fr.mask ≠ 0) :
    ∃ t, exec (.waitf m) s = .next t ∧ Becomes s t c c.w { c.fr with status := .parkedWait, wake := .flags m, lane := false } := by
  obtain ⟨k, hk, hbit, hval⟩ := hm
  refine exec_ready h (execWaitf m) rfl rfl ?_
  rw [if_neg fun hc => hval ((KUnit.flagsClear_iff ..).mp hc k hk hbit)]
  exact becomes_editFrag h.1 _

/-! ### Waits at a blocking point: WAITP and CLKW (R150, R151, R337) -/

theorem waitPath_retires {use : List Opn} (h : Ready s c use []) {p : PathId} {limit : Ctx → Nat}
    (hgo : c.act = 0#32 ∨ c.u.pathCount p ≤ limit c) : ∃ t, waitPath p use limit s = .next t ∧ Retired s t c 1 c.w := by
  refine ⟨_, withWord_ready h _, ?_⟩
  rw [if_pos (by simpa using hgo)]
  exact retired_self h.1 1 false c.beats

theorem waitPath_parks {use : List Opn} (h : Ready s c use []) (ha : c.act ≠ 0#32) (hs : NotSolitary s c) {p : PathId} {limit : Ctx → Nat} {n : Nat}
    (hn : limit c = n) (hlt : n < c.u.pathCount p) : ∃ t, waitPath p use limit s = .next t
      ∧ Becomes s t c c.w { c.fr with status := .parkedWait, wake := if c.u.parkReq then .park else .path p n, lane := false } := by
  subst hn
  refine ⟨_, withWord_ready h _, ?_⟩
  rw [if_neg (by simpa [ha] using hlt)]
  exact parkBlocking_becomes h.1 hs _ nofun

/-- A fold of an operation of which `n` is the zero, over values one of which is `n`. -/
theorem foldl_extreme {op : Nat → Nat → Nat} {n : Nat} {P : Nat → Prop} (hop : ∀ x y, P x → P y → P (op x y))
    (hz : ∀ x, P x → op n x = n ∧ op x n = n) (f : Nat → Nat) (l : List Nat) {m : Nat} (hm : P m) (hl : ∀ u ∈ l, P (f u))
    (hn : m = n ∨ ∃ u ∈ l, f u = n) : l.foldl (fun m u => op m (f u)) m = n := by
  induction l generalizing m with
  | nil => simpa using hn
  | cons u l ih =>
    have hu := hl u (by simp)
    refine ih (hop _ _ hm hu) (fun v hv => hl v (by simp [hv])) ?_
    obtain rfl | ⟨v, hv, rfl⟩ := hn
    · exact .inl (hz _ hu).1
    · obtain rfl | hv := List.mem_cons.mp hv
      · exact .inl (hz _ hm).2
      · exact .inr ⟨v, hv, rfl⟩

theorem foldl_min_eq {f : Nat → Nat} {l : List Nat} {m n : Nat} (hm : n ≤ m) (hex : ∃ u ∈ l, f u = n) (hl : ∀ u ∈ l, n ≤ f u) :
    l.foldl (fun m u => min m (f u)) m = n :=
  foldl_extreme (P := (n ≤ ·)) (fun _ _ => le_min) (fun _ hx => ⟨min_eq_left hx, min_eq_right hx⟩) f l hm hl (.inr hex)

theorem foldl_max_eq {f : Nat → Nat} {l : List Nat} {n : Nat} (hex : ∃ u ∈ l, f u = n) (hl : ∀ u ∈ l, f u ≤ n) :
    l.foldl (fun m u => max m (f u)) 0 = n :=
  foldl_extreme (P := (· ≤ n)) (fun _ _ => max_le) (fun _ hx => ⟨max_eq_left hx, max_eq_right hx⟩) f l (Nat.zero_le n) hl (.inr hex)

theorem act_ne_zero_of_mem {c : Ctx} {u : Nat} (h : u ∈ threads c.act) : c.act ≠ 0#32 := by
  rintro h0
  simp [h0, mem_threads] at h

theorem clkw_retires {a : Reg} (h : Ready s c [opP a] [])
    (hgo : c.act = 0#32 ∨ (threads c.act).foldl (fun m t => max m (c.rdP a t).toNat) 0 ≤ s.time.toNat) :
    ∃ t, exec (.clkw a) s = .next t ∧ Retired s t c 1 c.w := by
  refine exec_ready h (execClkw a) rfl rfl ?_
  rw [if_pos (by simpa using hgo)]
  exact retired_self h.1 1 false c.beats

theorem clkw_parks {a : Reg} (h : Ready s c [opP a] []) (ha : c.act ≠ 0#32) (hs : NotSolitary s c) {n : Nat}
    (hn : (threads c.act).foldl (fun m t => max m (c.rdP a t).toNat) 0 = n) (hlt : s.time.toNat < n) : ∃ t, exec (.clkw a) s = .next t
      ∧ Becomes s t c c.w { c.fr with status := .parkedWait, wake := if c.u.parkReq then .park else .clock n, lane := false } := by
  subst hn
  refine exec_ready h (execClkw a) rfl rfl ?_
  rw [if_neg (by simpa [ha] using hlt)]
  exact parkBlocking_becomes h.1 hs _ nofun

end

/-! ### A free entry for a split part (R264, R279) -/

section
variable {s : State} {c : Ctx}

theorem Map.mem_keys_of_look {α : Type} {m : Map α} {n : Nat} {x : α} (h : Map.look m n = some x) : n ∈ Map.keys m := by
  induction m with
  | nil => simp at h
  | cons p m ih =>
    rw [Map.look_cons] at h
    split_ifs at h with e
    · simp [Map.keys, e]
    · exact List.mem_cons_of_mem _ (ih h)

/-- Where fewer than 16 entries are in use, the lowest free FIDX is free. -/
theorem Warp.freeFidx_free {w : Warp} (h : w.fragCount < 16) : Map.has w.frags w.freeFidx = false := by
  cases hf : leastBelow 16 fun i => !(Map.has w.frags i) with
  | some i =>
    rw [Warp.freeFidx, hf]
    simpa using List.find?_some hf
  | none =>
    have hall : List.range 16 ⊆ Map.keys w.frags := by
      intro i hi
      have hi := List.find?_eq_none.mp hf i hi
      rw [Bool.not_eq_true, Bool.not_eq_false', Map.has, Option.isSome_iff_exists] at hi
      obtain ⟨x, hx⟩ := hi
      exact Map.mem_keys_of_look hx
    have hlen := (List.nodup_range.subperm hall).length_le
    simp only [List.length_range, Map.keys, List.length_map] at hlen
    exact absurd h (Nat.not_lt.mpr hlen)

theorem State.fragCount_of_refuses (h : s.ctx? = some c) {n : Nat} (hr : s.refuses c.f n = false) : c.w.fragCount + n ≤ 16 := by
  obtain ⟨-, hu, -⟩ := State.ctx?_some h
  rw [State.refuses, hu, State.warp?_of_ctx h] at hr
  simp only [Bool.or_eq_false_iff, decide_eq_false_iff_not, not_lt] at hr
  exact hr.1

/-- A split that is not refused takes an entry other than the fragment's own. -/
theorem Ctx.freeFidx_ne (h : s.ctx? = some c) (hr : s.refuses c.f 1 = false) : c.w.freeFidx ≠ c.f.fidx := by
  obtain ⟨-, -, -, -, hf⟩ := State.ctx?_some h
  intro e
  have hfree := Warp.freeFidx_free (Nat.lt_of_succ_le (State.fragCount_of_refuses h hr))
  simp [e, Map.has, hf] at hfree

/-! ### A fault of some threads (R273) -/

/-- The part of a fragment that is left when some threads leave it. -/
def Frag.keep (x : Frag) (m : Mask) : Frag := { x with mask := m, actm := x.actm &&& m, done := x.done &&& m }

/-- The threads of the fragment that a fault leaves. -/
def Ctx.spared (c : Ctx) (b : Bad) : Mask := c.fr.mask &&& ~~~b.mask

/-- The faulting part, parked with its record. -/
def Ctx.faulted (c : Ctx) (s : State) (b : Bad) : Frag :=
  c.fr.parkFault b.mask (b.record c.fr b.mask (s.core c.u.core).serial c.u.core)

/-- The warp after the split: the faulting part stands in the lowest free entry. -/
def Ctx.splitWarp (c : Ctx) (s : State) (b : Bad) : Warp :=
  ({ c.w with frags := Map.put c.w.frags c.w.freeFidx (c.faulted s b) } : Warp).editFrag c.f.fidx fun x => x.keep (c.spared b)

/-- The executing fragment after the split. -/
def Ctx.splitOff (c : Ctx) (s : State) (b : Bad) : Ctx :=
  { c with u := { c.u with warps := Map.put c.u.warps c.f.warp (c.splitWarp s b) }, w := c.splitWarp s b, fr := c.fr.keep (c.spared b) }

/-- The state after the split, handed to the poster. -/
def State.splitOff (s : State) (c : Ctx) (b : Bad) : State :=
  (s.attach c.u.core { c.f with fidx := c.w.freeFidx } c.fr b.mask b).editFrag c.f fun x => x.keep (c.spared b)

/-- A fragment handed to the poster with the next serial of its core. -/
def State.post (s : State) (core : Nat) (f : FragRef) (serial : BitVec 16) : State :=
  { s.editCore core fun k => { k with serial := k.serial + 1#16 } with posts := s.posts ++ [.frag f serial] }

@[simp] theorem State.post_unit? (s : State) (core : Nat) (f : FragRef) (n : BitVec 16) (u : Nat) : (s.post core f n).unit? u = s.unit? u := rfl
@[simp] theorem State.post_cur (s : State) (core : Nat) (f : FragRef) (n : BitVec 16) : (s.post core f n).cur = s.cur := rfl
@[simp] theorem State.post_launches (s : State) (core : Nat) (f : FragRef) (n : BitVec 16) : (s.post core f n).launches = s.launches := rfl
@[simp] theorem State.post_mem (s : State) (core : Nat) (f : FragRef) (n : BitVec 16) : (s.post core f n).mem = s.mem := rfl
@[simp] theorem State.post_posts (s : State) (core : Nat) (f : FragRef) (n : BitVec 16) : (s.post core f n).posts = s.posts ++ [.frag f n] := rfl

/-- Attaching a record of a fault that is not for the fault buffer. -/
theorem State.attach_plain (s : State) (core : Nat) (f : FragRef) (x : Frag) (m : Mask) {b : Bad} (hfb : b.fb = []) :
    s.attach core f x m b = (s.editWarp f.unit f.warp fun w =>
      { w with frags := Map.put w.frags f.fidx (x.parkFault m (b.record x m (s.core core).serial core)) }).post core f (s.core core).serial := by
  have hb : (if ((s.launchOf f.unit).map (·.handler)).getD false then { b with fb := [] } else b) = b := by
    cases b
    subst hfb
    exact ite_self _
  rw [State.attach, hb, hfb]
  rfl

theorem State.splitOff_eq (s : State) (c : Ctx) {b : Bad} (hfb : b.fb = []) :
    s.splitOff c b = (s.editWarp c.f.unit c.f.warp fun w =>
      ({ w with frags := Map.put w.frags c.w.freeFidx (c.faulted s b) } : Warp).editFrag c.f.fidx fun x => x.keep (c.spared b)).post c.u.core
        { c.f with fidx := c.w.freeFidx } (s.core c.u.core).serial := by
  rw [State.splitOff, State.attach_plain _ _ _ _ _ hfb]
  exact congrArg (fun t : State => t.post _ _ _) (State.editWarp_editWarp ..)

theorem takeFaults_split (h : s.ctx? = some c) (hs : NotSolitary s c) {b : Bad} (hb : b.mask ≠ 0#32) (hrest : c.spared b ≠ 0#32)
    (hsub : c.fr.mask &&& b.mask = b.mask) (hr : s.refuses c.f 1 = false) : s.takeFaults c.f [b] = (s.splitOff c b, true) := by
  obtain ⟨-, hu, -⟩ := State.ctx?_some h
  have hstops : s.soloStops c.f b.mask = s := soloStops_none fun t ht hbit => hs t ht (by
    have hm := congrArg (·.getLsbD t) hsub
    simpa [hbit] using hm)
  have hall : badMask [b] = b.mask := BitVec.zero_or
  unfold Ctx.spared at hrest
  simp only [State.takeFaults, State.frag?_of_ctx h, State.takeFaultsAs, hu, hall, if_neg hb, if_neg hrest, hstops, List.length_singleton, hr,
    if_neg Bool.false_ne_true, State.splitParts, State.warp?_of_ctx h]
  rfl

theorem State.splitOff_ctx (h : s.ctx? = some c) {b : Bad} (hfb : b.fb = []) (hr : s.refuses c.f 1 = false) :
    (s.splitOff c b).ctx? = some (c.splitOff s b) := by
  obtain ⟨hcur, hu, hw, hl, hf⟩ := State.ctx?_some h
  have hfr : Map.look (c.splitWarp s b).frags c.f.fidx = some (c.fr.keep (c.spared b)) := by
    simp [Ctx.splitWarp, Warp.editFrag, Map.look_edit_self, Map.look_put_ne _ _ (Ctx.freeFidx_ne h hr).symm, hf]
  have hunit : (s.splitOff c b).unit? c.f.unit = some (c.splitOff s b).u := by
    rw [State.splitOff_eq s c hfb, State.post_unit?, State.editWarp, State.unit?_editUnit, if_pos rfl, hu, Option.map_some, KUnit.editWarp, Map.edit, hw]
    rfl
  have hcur' : (s.splitOff c b).cur = some c.f := by rw [State.splitOff_eq s c hfb]; exact hcur
  have hl' : Map.look (s.splitOff c b).launches c.u.launch = some c.l := by rw [State.splitOff_eq s c hfb]; exact hl
  rw [State.ctx?, hcur']
  simp only [hunit]
  simp [Ctx.splitOff, hl', hfr]

/-- The threads that a fault spares go on with the word. -/
theorem guarded_splits {b : Bad} {bs : List Bad} {s' : State} {c' : Ctx} (ht : s.takeFaults c.f (b :: bs) = (s', true)) (hc : s'.ctx? = some c')
    (go : Ctx → State → State) : s.guarded c (b :: bs) go = go c' s' := by
  simp [State.guarded, ht, hc]

/-- A fault that parks the whole fragment ends the word. -/
theorem guarded_parks {b : Bad} {bs : List Bad} (ht : (s.takeFaults c.f (b :: bs)).2 = false) (go : Ctx → State → State) :
    s.guarded c (b :: bs) go = (s.takeFaults c.f (b :: bs)).1 := by
  generalize hp : s.takeFaults c.f (b :: bs) = p at ht
  obtain ⟨s', ok⟩ := p
  subst ht
  simp [State.guarded, hp]

/-- A fault of some threads of a word that the others retire. -/
theorem trap_splits (h : s.ctx? = some c) (hs : NotSolitary s c) {b : Bad} (hb : b.mask ≠ 0#32) (hrest : c.spared b ≠ 0#32)
    (hsub : c.fr.mask &&& b.mask = b.mask) (hr : s.refuses c.f 1 = false) (hfb : b.fb = []) :
    (s.trap c b).frag? c.f = some ((c.fr.keep (c.spared b)).nextWord 1)
      ∧ (s.trap c b).frag? { c.f with fidx := c.w.freeFidx } = some (c.faulted s b)
      ∧ (s.trap c b).posts = s.posts ++ [.frag { c.f with fidx := c.w.freeFidx } (s.core c.u.core).serial] ∧ (s.trap c b).mem = s.mem := by
  have hctx := State.splitOff_ctx h hfb hr
  have htrap : s.trap c b = (s.splitOff c b).retire (c.splitOff s b) 1 false (c.splitOff s b).beats := by
    exact guarded_splits (takeFaults_split h hs hb hrest hsub hr) hctx _
  have hw : (s.trap c b).warp? c.f.unit c.f.warp = some ((c.splitWarp s b).editFrag c.f.fidx fun x => x.nextWord 1) := by
    rw [htrap, State.retire_eq]
    refine (State.warp?_editWarp ..).trans ?_
    rw [if_pos ⟨rfl, rfl⟩, State.warp?_of_ctx hctx]
    rfl
  obtain ⟨-, -, -, -, hf⟩ := State.ctx?_some hctx
  have hne := Ctx.freeFidx_ne h hr
  refine ⟨?_, ?_, ?_, ?_⟩
  · rw [State.frag?, hw, Option.bind_some, Warp.editFrag, Map.look_edit_self]
    exact congrArg _ hf
  · rw [State.frag?, hw, Option.bind_some, Warp.editFrag, Map.look_edit_ne _ _ hne, Ctx.splitWarp, Warp.editFrag, Map.look_edit_ne _ _ hne,
      Map.look_put_self]
  · rw [htrap, State.retire_posts, State.splitOff_eq s c hfb, State.post_posts]
    rfl
  · rw [htrap, State.retire_mem, State.splitOff_eq s c hfb]
    rfl

theorem trap_whole (h : s.ctx? = some c) (hs : NotSolitary s c) (h0 : c.fr.mask ≠ 0#32) {b : Bad} (hm : b.mask = c.fr.mask) (hfb : b.fb = []) :
    FaultsWhole s (s.trap c b) c b.cause b.addr b.hint b.replay := by
  obtain ⟨h2, h1⟩ := takeFaults_whole h hs hm h0 hfb
  rw [State.trap, guarded_parks h2]
  exact h1

/-! ### TRAP and BKPT (R144) -/

/-- TRAP and BKPT stop their active threads with a cause and imm16 as hint. -/
def Traps (i : Instr) (imm : BitVec 16) (cause : Nat) : Prop :=
  exec i = withWord [] [] fun c s => if c.act = 0#32 then s.retire c 1 false 1 else s.trap c (trapBad cause imm.toNat c.act)

theorem trap_traps (imm : BitVec 16) : Traps (.trap imm) imm 0x30 := rfl

theorem bkpt_traps (imm : BitVec 16) : Traps (.bkpt imm) imm 0x31 := rfl

variable {i : Instr} {imm : BitVec 16} {cause : Nat}

theorem Traps.idle (hi : Traps i imm cause) (h : Ready s c [] []) (ha : c.act = 0#32) : ∃ t, exec i s = .next t ∧ Retired s t c 1 c.w := by
  refine exec_ready h _ rfl hi ?_
  rw [if_pos ha]
  exact retired_self h.1 1 false 1

theorem Traps.whole (hi : Traps i imm cause) (h : Ready s c [] []) (h0 : c.fr.mask ≠ 0#32) (ha : c.act = c.fr.mask) (hs : NotSolitary s c) :
    ∃ t, exec i s = .next t ∧ FaultsWhole s t c cause 0 imm.toNat false := by
  refine exec_ready h _ rfl hi ?_
  rw [if_neg (ha ▸ h0)]
  exact trap_whole h.1 hs h0 (b := trapBad cause imm.toNat c.act) ha rfl

theorem Traps.splits (hi : Traps i imm cause) (h : Ready s c [] []) (ha : c.act ≠ 0#32) (hrest : c.fr.mask &&& ~~~c.act ≠ 0#32)
    (hsub : c.fr.mask &&& c.act = c.act) (hs : NotSolitary s c) (hr : s.refuses c.f 1 = false) :
    ∃ t, exec i s = .next t ∧ t.frag? c.f = some ((c.fr.keep (c.fr.mask &&& ~~~c.act)).nextWord 1)
      ∧ t.frag? { c.f with fidx := c.w.freeFidx } = some (c.faulted s (trapBad cause imm.toNat c.act))
      ∧ t.posts = s.posts ++ [.frag { c.f with fidx := c.w.freeFidx } (s.core c.u.core).serial] ∧ t.mem = s.mem := by
  refine exec_ready h _ rfl hi ?_
  rw [if_neg ha]
  exact trap_splits h.1 hs (b := trapBad cause imm.toNat c.act) ha hrest hsub hr rfl

end

/-! ### TFENCE (R92, R145) -/

theorem maskOf_getLsbD (p : Nat → Bool) {i : Nat} (hi : i < 32) : (maskOf p).getLsbD i = p i := by
  have hfold (l : List Nat) : ∀ m : Mask, (l.foldl (fun m t => if p t then m ||| bit t else m) m).getLsbD i =
      (m.getLsbD i || (l.contains i && p i)) := by
    induction l with
    | nil => simp
    | cons t l ih =>
      intro m
      rw [List.foldl_cons, ih]
      by_cases hp : p t
      · by_cases e : i = t
        · simp [hp, e, or_bit_getLsbD _ _ _ (e ▸ hi)]
        · simp [hp, or_bit_getLsbD _ _ _ hi, e]
      · by_cases e : i = t
        · simp [hp, e]
        · simp [hp, e]
  rw [maskOf, hfold]
  simp [hi]

section
variable {s : State} {c : Ctx}

/-- Nothing that TFENCE waits for is in flight: no commit of its active threads, no engine operation of its threads nor on the rows of its window. -/
structure Ctx.Settled (c : Ctx) : Prop where
  commits : c.tendPending = false
  engine : c.u.matrixBusy c.f.warp c.fr.mask = false
  rows : c.accOk = true → c.u.rowsBusy c.fr.accwin c.act = false

theorem KUnit.matrixBusy_eq_false {un : KUnit} {w : Nat} {m : Mask}
    (h : ∀ o ∈ un.ops, o.done = true ∨ o.warp ≠ w ∨ o.mask &&& m = 0#32 ∨ ∀ e k, o.kind ≠ .engine e k) : un.matrixBusy w m = false := by
  rw [KUnit.matrixBusy, List.any_eq_false]
  intro o ho
  obtain hd | hw | hm | hk := h o ho
  · simp [hd]
  · simp [hw]
  · simp [hm]
  · cases hkind : o.kind with
    | engine e k => exact absurd hkind (hk e k)
    | _ => simp

theorem Ctx.Settled.ready (hc : c.Settled) (s : State) :
    s.ready c (.tend c.act :: .matrix c.fr.mask :: if c.accOk then [.rows c.fr.accwin c.act] else []) = true := by
  have htend : Need.met (.tend c.act) s c.u c.f c.fr = true := by
    simpa [Need.met] using KUnit.tendBusy_mono hc.commits c.fr.mask
  have hmatrix : Need.met (.matrix c.fr.mask) s c.u c.f c.fr = true := by
    simpa [Need.met] using hc.engine
  have hrows (h : c.accOk = true) : Need.met (.rows c.fr.accwin c.act) s c.u c.f c.fr = true := by
    simpa [Need.met] using KUnit.rowsBusy_mono (hc.rows h) c.fr.mask
  by_cases h : c.accOk = true
  · simp [State.ready, htend, hmatrix, h, hrows h]
  · simp [State.ready, htend, hmatrix, h]

/-- The conditions of a thread that meet an enable of %fmt. -/
def Ctx.trapsOn (c : Ctx) (t : Nat) : BitVec 5 :=
  trapCond (c.w.flags t) (if c.accOk then some (c.u.row (32 * c.fr.accwin + t)).mxexc else none) &&& c.fr.fmt.setWidth 5

/-- The threads that TFENCE stops. -/
def Ctx.trapMask (c : Ctx) : Mask := maskOf fun t => c.act.getLsbD t && decide (c.trapsOn t ≠ 0#5)

theorem Ctx.trapMask_none (h : ∀ u ∈ threads c.act, c.trapsOn u = 0#5) : c.trapMask = 0#32 := by
  apply BitVec.eq_of_getLsbD_eq
  intro i hi
  by_cases hb : c.act.getLsbD i
  · rw [Ctx.trapMask, maskOf_getLsbD _ hi]
    simp [h i (mem_threads.mpr ⟨hi, hb⟩)]
  · rw [Ctx.trapMask, maskOf_getLsbD _ hi]
    simp [hb]

theorem Ctx.trapMask_all (h : ∀ u ∈ threads c.act, c.trapsOn u ≠ 0#5) : c.trapMask = c.act := by
  apply BitVec.eq_of_getLsbD_eq
  intro i hi
  by_cases hb : c.act.getLsbD i
  · rw [Ctx.trapMask, maskOf_getLsbD _ hi, hb]
    simp [h i (mem_threads.mpr ⟨hi, hb⟩)]
  · rw [Ctx.trapMask, maskOf_getLsbD _ hi]
    simp [hb]

theorem tfence_runs (h : Ready s c [] []) (hc : c.Settled) : exec .tfence s = .next
    (if c.trapMask = 0#32 then s.retire c 1 false c.beats else s.trap c (trapBad 0x32 0 c.trapMask)) := by
  have hexec : exec .tfence s = execTfence s := rfl
  rw [hexec, execTfence, withWord_ready h, whenReady_ready (hc.ready s)]
  rfl

theorem tfence_retires (h : Ready s c [] []) (hc : c.Settled) (hno : ∀ u ∈ threads c.act, c.trapsOn u = 0#5) :
    ∃ t, exec .tfence s = .next t ∧ Retired s t c 1 c.w := by
  refine ⟨_, tfence_runs h hc, ?_⟩
  rw [if_pos (Ctx.trapMask_none hno)]
  exact retired_self h.1 1 false c.beats

theorem tfence_traps (h : Ready s c [] []) (hc : c.Settled) (h0 : c.fr.mask ≠ 0#32) (ha : c.act = c.fr.mask) (hs : NotSolitary s c)
    (hall : ∀ u ∈ threads c.act, c.trapsOn u ≠ 0#5) : ∃ t, exec .tfence s = .next t ∧ FaultsWhole s t c 0x32 0 0 false := by
  have hm : c.trapMask = c.fr.mask := (Ctx.trapMask_all hall).trans ha
  refine ⟨_, tfence_runs h hc, ?_⟩
  rw [if_neg (hm ▸ h0)]
  exact trap_whole h.1 hs h0 hm rfl

theorem mxInv_eq_zero (x : BitVec 24) : mxInv x = 0 ↔ x.extractLsb' 0 8 = 0#8 := by
  rw [← BitVec.toNat_inj]
  simp [mxInv]

theorem mxOvf_eq_zero (x : BitVec 24) : mxOvf x = 0 ↔ x.extractLsb' 8 8 = 0#8 := by
  rw [← BitVec.toNat_inj]
  simp [mxOvf, Nat.shiftRight_eq_div_pow]

theorem mxFlush_eq_zero (x : BitVec 24) : mxFlush x = 0 ↔ x.extractLsb' 16 8 = 0#8 := by
  have hx := x.isLt
  rw [← BitVec.toNat_inj]
  simp [mxFlush, Nat.shiftRight_eq_div_pow]
  omega

theorem Ctx.trapsOn_eq (c : Ctx) (u : Nat) : c.trapsOn u = (c.w.flags u ||| if 32 * c.fr.accwin + 32 ≤ c.l.acc then
      let x := (c.u.row (32 * c.fr.accwin + u)).mxexc
      (if x.extractLsb' 0 8 = 0#8 then 0#5 else 0b10000#5) ||| (if x.extractLsb' 8 8 = 0#8 then 0#5 else 0b00100#5)
        ||| (if x.extractLsb' 16 8 = 0#8 then 0#5 else 0b00010#5)
    else 0#5) &&& c.fr.fmt.setWidth 5 := by
  by_cases h : 32 * c.fr.accwin + 32 ≤ c.l.acc
  · simp [Ctx.trapsOn, Ctx.accOk, h, trapCond, mxInv_eq_zero, mxOvf_eq_zero, mxFlush_eq_zero, flNone, flNV, flOF, flUF, BitVec.or_assoc]
  · simp [Ctx.trapsOn, Ctx.accOk, h, trapCond]

end

/-! ### The statement -/

/-- Settles O9, word by word: what a word needs decides between retiring, parking and faulting. -/
theorem nopYieldWaitsAndTraps : Obligations.NopYieldWaitsAndTraps := by
  unfold Obligations.NopYieldWaitsAndTraps
  refine ⟨⟨fun s c h => ⟨nop_retires h, yield_retires h, yield_parks h, fun mode imm ha => setfmt_sets h ha mode imm, fun imm ha => ?windows,
      fun ha => ⟨setfmt_idle h ha, fun imm => ⟨setWindow_idle h ha _, setWindow_idle h ha _⟩⟩⟩,
    fun s c => ⟨fun m h => ⟨waitf_retires h, waitf_parks h⟩,
      fun p n h => ⟨waitPath_retires (limit := fun _ => n.toNat) h,
        fun ha hlt hs => waitPath_parks (limit := fun _ => n.toNat) h ha hs rfl hlt⟩, fun p a h => ?pathReg, fun a h => ?clock⟩⟩,
    fun s c h h0 => ⟨fun imm => ⟨fun ha => ⟨(trap_traps imm).idle h ha, (bkpt_traps imm).idle h ha⟩,
        fun ha hs => ⟨(trap_traps imm).whole h h0 ha hs, (bkpt_traps imm).whole h h0 ha hs⟩, ?splits⟩,
      fun ht hrows hengine cond hcond => ?tfence,
      fun w hs => exec_ready h (execUnassignedOpcode w) rfl rfl (faultAll_whole h.1 hs h0 0x01)⟩⟩
  case windows =>
    refine ⟨fun hlt => ?_, fun hge h0 hs => setWindow_faults h ha h0 hs (.inr (by exact_mod_cast hge)), fun b hb hlt => ?_,
      fun hout h0 hs => setWindow_faults h ha h0 hs (by simpa [Ctx.base] using hout)⟩
    · have hset := setWindow_sets h ha (base := fun _ => 16 * imm.toNat) (b := 16 * imm.toNat) (by simp) hlt
      rwa [Nat.mul_div_cancel_left _ (by decide)] at hset
    · exact setWindow_sets h ha (by simpa [Ctx.base] using hb.symm) hlt
  case pathReg =>
    refine ⟨fun ha => waitPath_retires h (.inl ha), fun n hex hmin => ?_⟩
    have hle : n ≤ 0xFFFFFFFF := by
      obtain ⟨u, -, rfl⟩ := hex
      exact Nat.le_of_lt_succ (c.rd a u).isLt
    have hn := foldl_min_eq hle hex hmin
    obtain ⟨u, hu, -⟩ := hex
    exact ⟨fun hgo => waitPath_retires h (.inr (hn.symm ▸ hgo)), fun hlt hs => waitPath_parks h (act_ne_zero_of_mem hu) hs hn hlt⟩
  case clock =>
    refine ⟨fun ha => clkw_retires h (.inl ha), fun n hex hmax => ?_⟩
    have hn := foldl_max_eq hex hmax
    obtain ⟨u, hu, -⟩ := hex
    exact ⟨fun hgo => clkw_retires h (.inr (hn.symm ▸ hgo)), fun hlt hs => clkw_parks h (act_ne_zero_of_mem hu) hs hn hlt⟩
  case splits =>
    rintro ha hrest hsub hs hr i cause (⟨rfl, rfl⟩ | ⟨rfl, rfl⟩)
    · exact (trap_traps imm).splits h ha hrest hsub hs hr
    · exact (bkpt_traps imm).splits h ha hrest hsub hs hr
  case tfence =>
    have hc : c.Settled := ⟨ht, KUnit.matrixBusy_eq_false hengine, fun hacc => hrows (of_decide_eq_true hacc)⟩
    have hcond (u : Nat) : c.trapsOn u = cond u := (c.trapsOn_eq u).trans (hcond u).symm
    simp only [← hcond]
    exact ⟨tfence_retires h hc, fun ha hall hs => tfence_traps h hc h0 ha hs hall⟩

end Sys2Proof.Machine
end

section
/-! SUPPORT. Control transfers (O8): where the threads go, one target, two targets, and no header. -/
namespace Sys2Proof.Machine

/-! ### Where the threads of a transfer go (R139) -/

/-- The mask of the threads of a list. -/
def bitsOf (l : List Nat) : Mask := l.foldl (fun m t => m ||| bit t) 0#32

theorem bitsOf_concat (l : List Nat) (t : Nat) : bitsOf (l ++ [t]) = bitsOf l ||| bit t := List.foldl_concat ..

theorem bitsOf_getLsbD (l : List Nat) {i : Nat} (hi : i < 32) : (bitsOf l).getLsbD i = decide (i ∈ l) := by
  induction l using List.reverseRecOn with
  | nil => simp [bitsOf]
  | append_singleton l t ih =>
    rw [bitsOf_concat, or_bit_getLsbD _ _ _ hi, ih]
    by_cases e : i = t <;> simp [e]

/-- A mask is that of the threads of another that satisfy a test. -/
theorem bitsOf_filter_threads {m k : Mask} {p : Nat → Bool} (h : ∀ t < 32, k.getLsbD t = (m.getLsbD t && p t)) :
    bitsOf ((threads m).filter p) = k := by
  apply BitVec.eq_of_getLsbD_eq
  intro i hi
  rw [bitsOf_getLsbD _ hi, h i hi]
  simp [mem_threads, hi]

/-- The parts of a transfer: the targets in order of their lowest thread, each with its threads. -/
theorem partsOf_eq (m : Mask) (next : Nat → Nat) :
    partsOf m next = ((threads m).map next).eraseDups.map fun a => (a, bitsOf ((threads m).filter fun t => next t = a)) := by
  unfold partsOf
  induction threads m using List.reverseRecOn with
  | nil => rfl
  | append_singleton l t ih =>
    rw [List.foldl_concat, ih]
    by_cases h : next t ∈ l.map next
    · have hany : ((l.map next).eraseDups.map fun a => (a, bitsOf (l.filter fun t => next t = a))).any (fun p => p.1 = next t) = true := by
        simpa using h
      have hdups : ((l ++ [t]).map next).eraseDups = (l.map next).eraseDups := by
        have hnone : [next t].removeAll (l.map next) = [] := by simpa [List.removeAll] using h
        rw [List.map_append, List.eraseDups_append, List.map_singleton, hnone]
        exact List.append_nil _
      rw [if_pos hany, hdups, List.map_map]
      refine List.map_congr_left fun a _ => ?_
      by_cases e : next t = a
      · subst e
        simp [List.filter_append, bitsOf_concat]
      · simp [List.filter_append, e, Ne.symm e]
    · have hany : ¬((l.map next).eraseDups.map fun a => (a, bitsOf (l.filter fun t => next t = a))).any (fun p => p.1 = next t) = true := by
        simpa using h
      have hdups : ((l ++ [t]).map next).eraseDups = (l.map next).eraseDups ++ [next t] := by
        rw [List.map_append, List.eraseDups_append]
        have hall : [next t].removeAll (l.map next) = [next t] := by simpa [List.removeAll] using h
        rw [List.map_singleton, hall]
        rfl
      have hnil : (l.filter fun u => next u = next t) = [] := by
        rw [List.filter_eq_nil_iff]
        intro u hu e
        exact h (List.mem_map.mpr ⟨u, hu, of_decide_eq_true e⟩)
      rw [if_neg hany, hdups, List.map_append, List.map_singleton, List.filter_append, hnil]
      congr 1
      · refine List.map_congr_left fun a ha => ?_
        have hne : next t ≠ a := fun e => h (e ▸ List.mem_eraseDups.mp ha)
        simp [List.filter_append, hne]
      · simp [bitsOf]

theorem eraseDups_const {l : List Nat} {a : Nat} (hl : l ≠ []) (h : ∀ x ∈ l, x = a) : l.eraseDups = [a] := by
  obtain ⟨x, l, rfl⟩ := List.exists_cons_of_ne_nil hl
  have hx : x = a := h x (by simp)
  have hnil : l.filter (fun b => !b == x) = [] := by
    rw [List.filter_eq_nil_iff]
    intro b hb
    simp [h b (by simp [hb]), hx]
  rw [List.eraseDups_cons, hnil, hx]
  rfl

theorem eraseDups_two {l : List Nat} {a b : Nat} (hab : b ≠ a) (hb : b ∈ l) (h : ∀ x ∈ l, x = a ∨ x = b) : (a :: l).eraseDups = [a, b] := by
  rw [List.eraseDups_cons, eraseDups_const (a := b)]
  · exact List.ne_nil_of_mem (List.mem_filter.mpr ⟨hb, by simpa using hab⟩)
  · intro x hx
    obtain ⟨hx, hne⟩ := List.mem_filter.mp hx
    exact (h x hx).resolve_left (by simpa using hne)

theorem threads_ne_nil {m : Mask} (hm : m ≠ 0#32) : threads m ≠ [] := by
  intro h
  refine hm (BitVec.eq_of_getLsbD_eq fun i hi => ?_)
  by_contra hc
  have hmem : i ∈ threads m := mem_threads.mpr ⟨hi, by simpa using hc⟩
  simp [h] at hmem

/-- All threads go to one address. -/
theorem partsOf_one {m : Mask} {next : Nat → Nat} {a : Nat} (hm : m ≠ 0#32) (h : ∀ t ∈ threads m, next t = a) : partsOf m next = [(a, m)] := by
  have hall : bitsOf ((threads m).filter fun t => next t = a) = m := by
    refine bitsOf_filter_threads fun t ht => ?_
    by_cases hb : m.getLsbD t
    · simp [hb, h t (mem_threads.mpr ⟨ht, hb⟩)]
    · simp [hb]
  rw [partsOf_eq, eraseDups_const (a := a)]
  · simp [hall]
  · simpa using threads_ne_nil hm
  · simpa using h

theorem lowest_eq_head (m : Mask) : lowest m = (threads m).head? := List.head?_filter.symm

theorem exists_mem_threads {m : Mask} (hm : m ≠ 0#32) : ∃ t, t ∈ threads m :=
  List.exists_mem_of_ne_nil _ (threads_ne_nil hm)

theorem getLsbD_of_submask {m k : Mask} (h : m &&& k = k) {t : Nat} (ht : k.getLsbD t = true) : m.getLsbD t = true := by
  have hm := congrArg (·.getLsbD t) h
  simpa [ht] using hm

theorem threads_submask {m k : Mask} (h : m &&& k = k) : threads k = (threads m).filter (k.getLsbD ·) := by
  rw [threads, threads, List.filter_filter]
  refine List.filter_congr fun t _ => ?_
  cases hb : k.getLsbD t with
  | true => simp [getLsbD_of_submask h hb]
  | false => rfl

/-- The lowest thread of a mask is that of a part of it exactly where the part has it. -/
theorem lowest_eq_lowest_iff {m k : Mask} (h : m &&& k = k) {t : Nat} {ts : List Nat} (hts : threads m = t :: ts) :
    lowest m = lowest k ↔ k.getLsbD t = true := by
  rw [lowest_eq_head, lowest_eq_head, threads_submask h, hts, List.head?_cons]
  constructor
  · intro e
    have hmem := List.mem_of_head? e.symm
    exact (List.mem_filter.mp hmem).2
  · intro e
    rw [List.filter_cons_of_pos e, List.head?_cons]

/-- Two addresses: the part with the lowest thread comes first. -/
theorem partsOf_two {m k : Mask} {next : Nat → Nat} {a f : Nat} (hne : a ≠ f) (hk : k ≠ 0#32) (hrest : m &&& ~~~k ≠ 0#32) (hsub : m &&& k = k)
    (ha : ∀ t, k.getLsbD t = true → next t = a) (hf : ∀ t, k.getLsbD t = false → next t = f) :
    partsOf m next = if lowest m = lowest k then [(a, k), (f, m &&& ~~~k)] else [(f, m &&& ~~~k), (a, k)] := by
  have hka : bitsOf ((threads m).filter fun t => next t = a) = k := by
    refine bitsOf_filter_threads fun t ht => ?_
    cases hb : k.getLsbD t with
    | true => simp [getLsbD_of_submask hsub hb, ha t hb]
    | false => simp [hf t hb, Ne.symm hne]
  have hkf : bitsOf ((threads m).filter fun t => next t = f) = m &&& ~~~k := by
    refine bitsOf_filter_threads fun t ht => ?_
    rw [BitVec.getLsbD_and, BitVec.getLsbD_not]
    cases hb : k.getLsbD t with
    | true => simp [ha t hb, hne]
    | false => simp [hf t hb, ht]
  have htwo : ∀ x ∈ (threads m).map next, x = a ∨ x = f := by
    rintro x hx
    obtain ⟨t, -, rfl⟩ := List.mem_map.mp hx
    cases hb : k.getLsbD t with
    | true => exact .inl (ha t hb)
    | false => exact .inr (hf t hb)
  have hain : a ∈ (threads m).map next := by
    obtain ⟨t, ht⟩ := exists_mem_threads hk
    obtain ⟨hlt, hb⟩ := mem_threads.mp ht
    exact List.mem_map.mpr ⟨t, mem_threads.mpr ⟨hlt, getLsbD_of_submask hsub hb⟩, ha t hb⟩
  have hfin : f ∈ (threads m).map next := by
    obtain ⟨t, ht⟩ := exists_mem_threads hrest
    obtain ⟨hlt, hb⟩ := mem_threads.mp ht
    rw [BitVec.getLsbD_and, BitVec.getLsbD_not] at hb
    simp only [hlt, decide_true, Bool.true_and, Bool.and_eq_true, Bool.not_eq_true'] at hb
    exact List.mem_map.mpr ⟨t, mem_threads.mpr ⟨hlt, hb.1⟩, hf t hb.2⟩
  obtain ⟨t, ts, hts⟩ := List.exists_cons_of_ne_nil (List.ne_nil_of_mem (List.mem_map.mp hain).choose_spec.1)
  rw [partsOf_eq]
  simp only [lowest_eq_lowest_iff hsub hts]
  rw [hts, List.map_cons] at htwo hain hfin
  cases hb : k.getLsbD t with
  | true =>
    rw [ha t hb] at htwo hfin
    have hdups : ((threads m).map next).eraseDups = [a, f] := by
      rw [hts, List.map_cons, ha t hb]
      exact eraseDups_two (Ne.symm hne) ((List.mem_cons.mp hfin).resolve_left (Ne.symm hne)) fun x hx => htwo x (List.mem_cons_of_mem _ hx)
    simp [hdups, hka, hkf]
  | false =>
    rw [hf t hb] at htwo hain
    have hdups : ((threads m).map next).eraseDups = [f, a] := by
      rw [hts, List.map_cons, hf t hb]
      exact eraseDups_two hne ((List.mem_cons.mp hain).resolve_left hne) fun x hx => (htwo x (List.mem_cons_of_mem _ hx)).symm
    simp [hdups, hka, hkf]

/-! ### A transfer (R136, R138, R139) -/

section
variable {s : State} {c : Ctx} {use : List Opn} {link : Option Reg} {srcs : Ctx → List RTag} {target : Ctx → Nat → Nat}

/-- Where each thread goes. -/
def Ctx.goesTo (c : Ctx) (target : Ctx → Nat → Nat) (t : Nat) : Nat := if c.act.getLsbD t then target c t else c.fr.after

/-- The warp with the link written in the active threads. -/
def Ctx.linked (c : Ctx) (link : Option Reg) (srcs : Ctx → List RTag) (w : Warp) : Warp :=
  match link with
  | none => w
  | some d => w.putOuts (c.fullTag (tagAll (srcs c))) c.act fun _ => .ofRegs (c.wr d (BitVec.ofNat 32 c.fr.after))

theorem Ctx.linked_effect (c : Ctx) (d : Reg) (srcs : Ctx → List RTag) (w : Warp) :
    WarpEffect w (c.linked (some d) srcs w) (Delta.of c.act fun _ => .ofRegs (c.wr d (BitVec.ofNat 32 c.fr.after))) :=
  Warp.putOuts_effect ..

theorem Ctx.linked_idle (ha : c.act = 0#32) (w : Warp) : c.linked link srcs w = w := by
  cases link with
  | none => rfl
  | some d => simp [Ctx.linked, ha, Warp.putOuts, threads]

theorem Ctx.linked_frags (c : Ctx) (link : Option Reg) (srcs : Ctx → List RTag) (w : Warp) : (c.linked link srcs w).frags = w.frags := by
  cases link with
  | none => rfl
  | some d => rw [(c.linked_effect d srcs w).rest]

/-- A transfer whose every target is a header, before the fragment moves: the link is written and the word counted. -/
def State.transferred (s : State) (c : Ctx) (link : Option Reg) (srcs : Ctx → List RTag) : State :=
  (s.editWarp c.f.unit c.f.warp (c.linked link srcs)).editCore c.u.core fun k => k.count false c.beats

theorem groupBads_headers (hgood : ∀ t ∈ threads c.act, s.headerAt (dieOf c.u.core) c.l (target c t) = true) :
    (groupBads c.act fun t => if s.headerAt (dieOf c.u.core) c.l (target c t) then none else some (Bad.of 0x03 0 0)) = [] :=
  groupBads_none fun t ht => if_pos (hgood t ht)

theorem transfer_one (h : Ready s c use []) (hgood : ∀ t ∈ threads c.act, s.headerAt (dieOf c.u.core) c.l (target c t) = true) {a : Nat}
    {m : Mask} (hparts : partsOf c.fr.mask (c.goesTo target) = [(a, m)]) :
    transfer use link srcs target s = .next ((s.transferred c link srcs).editFrag c.f fun x => x.at a) := by
  have hstay : c.fr.mask &&& ~~~(0#32) = c.fr.mask := BitVec.and_allOnes
  have hparts' : (partsOf c.fr.mask fun t => if c.act.getLsbD t then target c t else c.fr.after) = [(a, m)] := hparts
  rw [transfer, withWord_ready h]
  simp only [groupBads_headers hgood, List.foldl_nil, hstay, hparts', guarded_nil, List.length_nil, List.length_singleton]
  rw [if_neg (by simp)]
  rfl

theorem transfer_two (h : Ready s c use []) (hgood : ∀ t ∈ threads c.act, s.headerAt (dieOf c.u.core) c.l (target c t) = true)
    {p q : Nat × Mask} (hparts : partsOf c.fr.mask (c.goesTo target) = [p, q]) (hr : s.refuses c.f 1 = false) {r : Nat}
    (hrec : c.w.freeRec = some r) : transfer use link srcs target s = .next
      ((s.transferred c link srcs).editWarp c.f.unit c.f.warp fun w => w.diverge c.f.fidx c.fr [p, q] ((w.freeRec).getD 16)) := by
  have hstay : c.fr.mask &&& ~~~(0#32) = c.fr.mask := BitVec.and_allOnes
  have hparts' : (partsOf c.fr.mask fun t => if c.act.getLsbD t then target c t else c.fr.after) = [p, q] := hparts
  rw [transfer, withWord_ready h]
  simp only [groupBads_headers hgood, List.foldl_nil, hstay, hparts', guarded_nil, List.length_nil, List.length_cons]
  rw [if_neg (by simp [hr, hrec])]
  rfl

/-- A transfer that goes to one header continues the fragment whole at it. -/
theorem transfer_becomes (h : Ready s c use []) (hgood : ∀ t ∈ threads c.act, s.headerAt (dieOf c.u.core) c.l (target c t) = true) {a : Nat}
    (h0 : c.fr.mask ≠ 0#32) (hone : ∀ t ∈ threads c.fr.mask, c.goesTo target t = a) :
    ∃ t, transfer use link srcs target s = .next t ∧ Becomes s t c (c.linked link srcs c.w) (c.fr.at a) := by
  obtain ⟨-, -, -, -, hf⟩ := State.ctx?_some h.1
  refine ⟨_, transfer_one h hgood (partsOf_one h0 hone), ?_⟩
  rw [State.transferred, State.editFrag_eq, State.editWarp_editCore, State.editWarp_editWarp]
  refine becomes_edit h.1 _ _ (fun _ => rfl) rfl (fun i hi => ?_) ?_
  · simp only [Warp.editFrag, Map.look_edit_ne _ _ hi]
  · simp [Warp.editFrag, Map.look_edit_self, Ctx.linked_frags, hf]

/-- A transfer with no active thread goes to the header after its clause. -/
theorem transfer_idle (h : Ready s c use []) (h0 : c.fr.mask ≠ 0#32) (ha : c.act = 0#32) :
    ∃ t, transfer use link srcs target s = .next t ∧ Becomes s t c c.w (c.fr.at c.fr.after) := by
  have hnone : threads c.act = [] := by simp [ha, threads]
  have hgo := transfer_becomes (link := link) (srcs := srcs) (target := target) (a := c.fr.after) h (by simp [hnone]) h0 fun t _ => by
    simp [Ctx.goesTo, ha]
  rwa [c.linked_idle ha] at hgo

/-- A transfer of all threads to one header. -/
theorem transfer_whole (h : Ready s c use []) (h0 : c.fr.mask ≠ 0#32) (ha : c.act = c.fr.mask) {a : Nat} (hto : ∀ t ∈ threads c.act, target c t = a)
    (hhdr : s.headerAt (dieOf c.u.core) c.l a = true) :
    ∃ t, transfer use link srcs target s = .next t ∧ Becomes s t c (c.linked link srcs c.w) (c.fr.at a) := by
  refine transfer_becomes h (fun t ht => (hto t ht).symm ▸ hhdr) h0 fun t ht => ?_
  rw [Ctx.goesTo, ha, if_pos (mem_threads.mp ht).2]
  exact hto t (ha.symm ▸ ht)

/-- A transfer of all threads none of which goes to a header. -/
theorem transfer_faults (h : Ready s c use []) (h0 : c.fr.mask ≠ 0#32) (ha : c.act = c.fr.mask) (hs : NotSolitary s c)
    (hbad : ∀ t ∈ threads c.act, s.headerAt (dieOf c.u.core) c.l (target c t) = false) :
    ∃ t, transfer use link srcs target s = .next t ∧ FaultsWhole s t c 0x03 0 0 true := by
  have hbads : (groupBads c.act fun t => if s.headerAt (dieOf c.u.core) c.l (target c t) then none else some (Bad.of 0x03 0 0))
      = [Bad.of 0x03 0 c.fr.mask] :=
    ha ▸ groupBads_all (b := Bad.of 0x03 0 0) (ha ▸ h0) fun t ht => if_neg (by rw [hbad t ht]; exact Bool.false_ne_true)
  have hstay : c.fr.mask &&& ~~~(0#32 ||| (Bad.of 0x03 0 c.fr.mask).mask) = 0#32 := by
    rw [BitVec.zero_or]
    exact BitVec.and_not_self _
  obtain ⟨hparks, hwhole⟩ := takeFaults_whole h.1 hs (b := Bad.of 0x03 0 c.fr.mask) rfl h0 rfl
  refine ⟨_, withWord_ready h _, ?_⟩
  simp only [hbads, List.foldl_cons, List.foldl_nil, hstay]
  rw [if_neg (by simp [partsOf, threads]), guarded_parks hparks]
  exact hwhole

end

/-! ### A split in two (R139, R269) -/

section
variable {s : State} {c : Ctx}

/-- What both parts of a split have in common: they stand at a header with the header after the clause as reconvergence PC and the record `r`. -/
def Frag.diverged (x : Frag) (r : Nat) : Frag :=
  { x with rpc := BitVec.ofNat 32 x.after, sfmt := x.fmt, swin := x.win, prec := BitVec.ofNat 5 r, status := .runnable, wake := .none }

/-- The part of a split that goes to an address. -/
def Frag.part (x : Frag) (r : Nat) (p : Nat × Mask) : Frag := { (x.diverged r).at p.1 with mask := p.2 }

theorem Warp.freeFidx_put (w : Warp) (m : Map SplitRec) {i : Nat} (x : Frag) (h : Map.has w.frags i = true) :
    ({ w with splits := m, frags := Map.put w.frags i x } : Warp).freeFidx = w.freeFidx := by
  have hhas (j : Nat) : Map.has (Map.put w.frags i x) j = Map.has w.frags j := by
    rw [Map.has_put]
    by_cases e : j = i
    · simp [e, h]
    · simp [e]
  simp only [Warp.freeFidx, hhas]

/-- A split in two writes the record, the fragment's entry and the lowest free one. -/
theorem Warp.diverge_two (w : Warp) {i : Nat} (x : Frag) (p q : Nat × Mask) (r : Nat) (h : Map.has w.frags i = true) :
    w.diverge i x [p, q] r = { w with
      splits := Map.put w.splits r ⟨x.rpc, x.sfmt, x.swin, x.prec⟩
      frags := Map.put (Map.put w.frags i (x.part r p)) w.freeFidx (x.part r q) } := by
  have hfree := w.freeFidx_put (Map.put w.splits r ⟨x.rpc, x.sfmt, x.swin, x.prec⟩) (x.part r p) h
  rw [← hfree]
  rfl

end

section
variable {s : State} {c : Ctx}

theorem Map.look_put_put {α : Type} (m : Map α) {i j : Nat} (hne : j ≠ i) (x y : α) :
    Map.look (Map.put (Map.put m i x) j y) i = some x ∧ Map.look (Map.put (Map.put m i x) j y) j = some y
      ∧ ∀ k, k ≠ i → k ≠ j → Map.look (Map.put (Map.put m i x) j y) k = Map.look m k :=
  ⟨by rw [Map.look_put_ne _ _ hne.symm, Map.look_put_self], Map.look_put_self ..,
    fun k hi hj => by rw [Map.look_put_ne _ _ hj, Map.look_put_ne _ _ hi]⟩

theorem State.transferred_warp (h : s.ctx? = some c) (link : Option Reg) (srcs : Ctx → List RTag) :
    (s.transferred c link srcs).warp? c.f.unit c.f.warp = some (c.linked link srcs c.w) := by
  refine (State.warp?_editWarp s c.f.unit c.f.warp c.f.unit c.f.warp (c.linked link srcs)).trans ?_
  rw [if_pos ⟨rfl, rfl⟩, State.warp?_of_ctx h, Option.map_some]

/-- A transfer without a link that takes some threads to a header and not the others splits the fragment in two. -/
theorem transfer_splits {use : List Opn} {srcs : Ctx → List RTag} {target : Ctx → Nat → Nat} (h : Ready s c use []) {a r : Nat}
    (hto : ∀ t ∈ threads c.act, target c t = a) (hhdr : s.headerAt (dieOf c.u.core) c.l a = true) (hne : a ≠ c.fr.after) (ha : c.act ≠ 0#32)
    (hrest : c.fr.mask &&& ~~~c.act ≠ 0#32) (hsub : c.fr.mask &&& c.act = c.act) (hr : s.refuses c.f 1 = false) (hrec : c.w.freeRec = some r)
    {p q : Nat × Mask} (hpq : [p, q] = if lowest c.fr.mask = lowest c.act then [(a, c.act), (c.fr.after, c.fr.mask &&& ~~~c.act)]
      else [(c.fr.after, c.fr.mask &&& ~~~c.act), (a, c.act)]) :
    ∃ t, transfer use none srcs target s = .next t ∧ t = { s with units := t.units, cores := t.cores }
      ∧ t.warp? c.f.unit c.f.warp = some { c.w with
          splits := Map.put c.w.splits r ⟨c.fr.rpc, c.fr.sfmt, c.fr.swin, c.fr.prec⟩
          frags := Map.put (Map.put c.w.frags c.f.fidx (c.fr.part r p)) c.w.freeFidx (c.fr.part r q) } := by
  obtain ⟨-, -, -, -, hf⟩ := State.ctx?_some h.1
  have hhas : Map.has c.w.frags c.f.fidx = true := by simp [Map.has, hf]
  have hparts : partsOf c.fr.mask (c.goesTo target) = [p, q] := by
    rw [hpq]
    refine partsOf_two hne ha hrest hsub (fun t ht => ?_) fun t ht => ?_
    · rw [Ctx.goesTo, if_pos ht]
      exact hto t (mem_threads.mpr ⟨BitVec.lt_of_getLsbD ht, ht⟩)
    · rw [Ctx.goesTo, if_neg (by simp [ht])]
  refine ⟨_, transfer_two h (fun t ht => (hto t ht).symm ▸ hhdr) hparts hr hrec, rfl, ?_⟩
  refine (State.warp?_editWarp ..).trans ?_
  rw [if_pos ⟨rfl, rfl⟩, State.transferred_warp h.1, Option.map_some]
  have hdiv := c.w.diverge_two c.fr p q r hhas
  rw [← hdiv]
  change some (c.w.diverge c.f.fidx c.fr [p, q] (c.w.freeRec.getD 16)) = _
  rw [hrec, Option.getD_some]

/-! ### The addresses (R45, R138) -/

theorem Frag.after_eq {x : Frag} {k : Clause} (h : x.clause = some k) : x.after = k.hdr + 4 * (k.len + 1) := by rw [Frag.after, h]

theorem Ctx.branch_eq {k : Clause} (h : c.fr.clause = some k) {off : BitVec 23} {a : Nat}
    (ha : (a : Int) = ((k.hdr : Int) + 4 * off.toInt) % 2 ^ 32) : c.branch off = a := by
  rw [Ctx.branch, Ctx.hdr, h, Option.map_some, Option.getD_some, ← ha, Int.toNat_natCast]

/-- BRA and CALL go to an address. -/
theorem Ctx.branch_spec {k : Clause} (h : c.fr.clause = some k) (off : BitVec 23) :
    (c.branch off : Int) = ((k.hdr : Int) + 4 * off.toInt) % 2 ^ 32 := by
  rw [Ctx.branch, Ctx.hdr, h, Option.map_some, Option.getD_some]
  exact Int.toNat_of_nonneg (Int.emod_nonneg _ (by decide))

/-! ### The words -/

theorem exec_bra (off : BitVec 23) (s : State) : exec (.bra off) s = transfer [] none (fun _ => []) (fun c _ => c.branch off) s := rfl

theorem exec_call (off : BitVec 23) (s : State) :
    exec (.call off) s = transfer [opV 15#7] (some 15#7) (fun _ => []) (fun c _ => c.branch off) s := rfl

theorem exec_brx (r : Reg) (s : State) : exec (.brx r) s = transfer [opV r] none (fun _ => []) (fun c t => (c.rd r t).toNat) s := rfl

theorem exec_callx (d r : Reg) (s : State) :
    exec (.callx d r) s = transfer [opV d, opV r] (some d) (fun c => [c.tagV r]) (fun c t => (c.rd r t).toNat) s := rfl

theorem exec_ret (r : Reg) (s : State) : exec (.ret r) s = transfer [opV r] none (fun _ => []) (fun c t => (c.rd r t).toNat) s := rfl

end

/-! ### The statement -/

/-- Settles O8: BRA, CALL, BRX, CALLX and RET are `transfer`, which moves the fragment whole, splits it, or faults by where its threads go. -/
theorem controlTransfers : Obligations.ControlTransfers := by
  unfold Obligations.ControlTransfers
  simp only [exec_bra, exec_call, exec_brx, exec_callx, exec_ret]
  refine ⟨fun s c k f hk hf h0 ha => ⟨fun off a hoff hhdr => ?direct, fun r a hr hhdr => ?indirect⟩,
    fun s c k f a off r hk hf h hoff hhdr hne _ ha hrest hsub hr hrec => ?split,
    fun s c k f hk hf h0 => ⟨fun ha => ?idle, fun ha hs => ⟨fun off hbad => ?badDirect, fun r h => ?badIndirect⟩⟩⟩
  all_goals
    have hafter : c.fr.after = f := (Frag.after_eq hk).trans hf.symm
    subst hafter
  case direct =>
    have hto : ∀ t ∈ threads c.act, c.branch off = a := fun _ _ => Ctx.branch_eq hk hoff
    refine ⟨fun h => transfer_whole h h0 ha hto hhdr, fun h => ?_⟩
    obtain ⟨t, ht, hb⟩ := transfer_whole (link := some 15#7) (srcs := fun _ => []) (target := fun c _ => c.branch off) h h0 ha hto hhdr
    exact ⟨t, _, ht, hb, c.linked_effect 15#7 _ c.w⟩
  case indirect =>
    refine ⟨fun h => ⟨transfer_whole h h0 ha hr hhdr, transfer_whole h h0 ha hr hhdr⟩, fun d h => ?_⟩
    obtain ⟨t, ht, hb⟩ := transfer_whole (link := some d) (srcs := fun c => [c.tagV r]) (target := fun c t => (c.rd r t).toNat) h h0 ha hr hhdr
    exact ⟨t, _, ht, hb, c.linked_effect d _ c.w⟩
  case split =>
    have hto : ∀ t ∈ threads c.act, c.branch off = a := fun _ _ => Ctx.branch_eq hk hoff
    have hfree := Ctx.freeFidx_ne h.1 hr
    have hsplit {p q : Nat × Mask} := transfer_splits (srcs := fun _ => []) (target := fun c _ => c.branch off) h hto hhdr hne ha hrest hsub hr hrec
      (p := p) (q := q)
    by_cases hlow : lowest c.fr.mask = lowest c.act
    · obtain ⟨t, ht, hunits, hw⟩ := hsplit (if_pos hlow).symm
      refine ⟨t, _, ht, hunits, hw, rfl, Map.look_put_self .., fun i hi => Map.look_put_ne _ _ hi, ?_⟩
      rintro x rfl taken rest rfl rfl
      obtain ⟨hown, hnew, hothers⟩ := Map.look_put_put c.w.frags hfree (c.fr.part r (a, c.act)) (c.fr.part r (c.fr.after, c.fr.mask &&& ~~~c.act))
      exact ⟨fun _ => ⟨hown, hnew⟩, fun hn => absurd hlow hn, hothers⟩
    · obtain ⟨t, ht, hunits, hw⟩ := hsplit (if_neg hlow).symm
      refine ⟨t, _, ht, hunits, hw, rfl, Map.look_put_self .., fun i hi => Map.look_put_ne _ _ hi, ?_⟩
      rintro x rfl taken rest rfl rfl
      obtain ⟨hown, hnew, hothers⟩ := Map.look_put_put c.w.frags hfree (c.fr.part r (c.fr.after, c.fr.mask &&& ~~~c.act)) (c.fr.part r (a, c.act))
      exact ⟨fun hn => absurd hn hlow, fun _ => ⟨hown, hnew⟩, hothers⟩
  case idle =>
    exact ⟨fun off => ⟨fun h => transfer_idle h h0 ha, fun h => transfer_idle h h0 ha⟩, fun r h => ⟨transfer_idle h h0 ha, transfer_idle h h0 ha⟩⟩
  case badDirect =>
    have hno : ∀ t ∈ threads c.act, s.headerAt (dieOf c.u.core) c.l (c.branch off) = false := fun _ _ => hbad _ (Ctx.branch_spec hk off)
    exact ⟨fun h => transfer_faults h h0 ha hs hno, fun h => transfer_faults h h0 ha hs hno⟩
  case badIndirect => exact fun hno => ⟨transfer_faults h h0 ha hs hno, transfer_faults h h0 ha hs hno⟩

end Sys2Proof.Machine
end

section
/-! SUPPORT. The floating-point and conversion words of the lanes (04 R120 to R128): every one is a register word, so that what it writes is its `out`. -/
namespace Sys2Proof.Machine

/-! ### The shapes of the words -/

/-- A word whose meaning is that of register word `a` writes what `a` says. -/
theorem Alu.writes {i : Instr} {s : State} {c : Ctx} (a : Alu) {out : Nat → Out} (he : exec i s = a.run s) (h : Ready s c a.use a.ps)
    (ho : ∀ t, a.out c t = out t) : Writes i s c a.words out := by
  obtain ⟨t, v, ht, hw, hr⟩ := a.run_writes h
  exact ⟨t, v, he.trans ht, funext ho ▸ hw, hr⟩

section
variable {i : Instr} {s : State} {c : Ctx} {d a b : Reg} {out : Nat → Out}

theorem fbin_writes {f : Nat → Nat → FRes} (he : exec i s = fbin d a b f s) (h : Ready s c [opV d, opV a, opV b] [])
    (ho : ∀ t, fOut c d (f (c.rd a t).toNat (c.rd b t).toNat) = out t) : Writes i s c 1 out := Alu.writes _ he h ho

theorem facc_writes {f : Nat → Nat → Nat → FRes} (he : exec i s = facc d a b f s) (h : Ready s c [opV d, opV a, opV b] [])
    (ho : ∀ t, fOut c d (f (c.rd d t).toNat (c.rd a t).toNat (c.rd b t).toNat) = out t) : Writes i s c 1 out := Alu.writes _ he h ho

theorem fun1_writes {f : Nat → FRes} (he : exec i s = fun1 d a f s) (h : Ready s c [opV d, opV a] [])
    (ho : ∀ t, fOut c d (f (c.rd a t).toNat) = out t) : Writes i s c 1 out := Alu.writes _ he h ho

theorem fbinO_writes {b : Opd} {f : Nat → Nat → FRes} (he : exec i s = fbinO d a b f s) (h : Ready s c (opV d :: opV a :: opdV b) [])
    (ho : ∀ t, fOut c d (f (c.rd a t).toNat (c.rdO b t).toNat) = out t) : Writes i s c (opdWords b) out := Alu.writes _ he h ho

theorem fcvtFrom64_writes {m : RMode} {signed : Bool} (he : exec i s = fcvtFrom64 m signed d a s) (h : Ready s c [opV d, opP a] [])
    (ho : ∀ t, fOut c d (fromInt m signed 64 (c.rdP a t).toNat) = out t) : Writes i s c 1 out := Alu.writes _ he h ho

theorem fcvtTo64_writes {m : RMode} {signed : Bool} (he : exec i s = fcvtTo64 m signed d a s) (h : Ready s c [opP d, opV a] [])
    (ho : ∀ t, (let r := if signed then fcvtInt m (-(2 ^ 63)) (2 ^ 63 - 1) (c.rd a t).toNat else fcvtInt m 0 (2 ^ 64 - 1) (c.rd a t).toNat
      (⟨c.wrP d (BitVec.ofInt 64 r.1), [], r.2⟩ : Out)) = out t) : Writes i s c 1 out := Alu.writes _ he h ho

end

/-! ### Elements and integers in a register -/

/-- A word of two sources on both elements of a pair (R126). -/
def packed2 (f : Nat → Nat → FRes) (x y : Nat) : FRes := pair16 (f (lo16 x) (lo16 y)) (f (hi16 x) (hi16 y))

/-- An accumulating word on both elements of a pair (R126); the accumulator comes first, as the word reads it. -/
def packed3 (f : Nat → Nat → Nat → FRes) (z x y : Nat) : FRes := pair16 (f (lo16 x) (lo16 y) (lo16 z)) (f (hi16 x) (hi16 y) (hi16 z))

theorem hi16_toNat (x : Word) : hi16 x.toNat = x.toNat / 2 ^ 16 :=
  Nat.mod_eq_of_lt (Nat.div_lt_of_lt_mul x.isLt)

theorem fromInt_signed {n : Nat} (m : RMode) (w : Nat) (x : BitVec n) : fromInt m true w x.toNat = icvt m (x.setWidth w).toInt := by
  simp [fromInt]

theorem fromInt_unsigned (m : RMode) (w x : Nat) : fromInt m false w x = icvt m (x % 2 ^ w : Nat) := by simp [fromInt]

/-- A pattern of 32 bits goes to the register as it is. -/
theorem fOut_word (c : Ctx) (d : Reg) (x : Word) (fl : BitVec 5) : fOut c d (x.toNat, fl) = ⟨c.wr d x, [], fl⟩ := by
  simp [fOut]

theorem fOut_toInt32_signed (c : Ctx) (d : Reg) (m : RMode) (w x : Nat) :
    fOut c d (toInt32 m true w x) =
      ⟨c.wr d (BitVec.ofInt 32 (fcvtInt m (-2 ^ (w - 1)) (2 ^ (w - 1) - 1) x).1), [], (fcvtInt m (-2 ^ (w - 1)) (2 ^ (w - 1) - 1) x).2⟩ :=
  fOut_word ..

theorem fOut_toInt32_unsigned (c : Ctx) (d : Reg) (m : RMode) (w x : Nat) :
    fOut c d (toInt32 m false w x) = ⟨c.wr d (BitVec.ofInt 32 (fcvtInt m 0 (2 ^ w - 1) x).1), [], (fcvtInt m 0 (2 ^ w - 1) x).2⟩ :=
  fOut_word ..

/-! ### The statement -/

/-- Settles O3: each word is a register word of one of six shapes, with the operation of its name. -/
theorem floatAndConversionWords : Obligations.FloatAndConversionWords := by
  unfold Obligations.FloatAndConversionWords
  refine ⟨fun s c d a => ⟨fun m b h => ?arith, fun b h => ?minmax, fun m p cc b h => ?set, fun m h => ?unary⟩,
    fun s c d a m => ⟨fun h => ?convert, fun b h => ?pairs, fun h => ?from64, fun h => ?to64⟩⟩
  case arith =>
    refine ⟨fbin_writes rfl h fun _ => rfl, fbin_writes rfl h fun _ => rfl,
      facc_writes (f := fun z x y => f32.fma m false false x y z) rfl h fun _ => rfl,
      facc_writes (f := fun z x y => f32.fma m true false x y z) rfl h fun _ => rfl,
      facc_writes (f := fun z x y => f32.fma m false true x y z) rfl h fun _ => rfl,
      facc_writes (f := fun z x y => f32.fma m true true x y z) rfl h fun _ => rfl,
      fbin_writes (f := packed2 (bf16.add m)) rfl h ?_, fbin_writes (f := packed2 (f16.add m)) rfl h ?_,
      fbin_writes (f := packed2 (bf16.mul m)) rfl h ?_, fbin_writes (f := packed2 (f16.mul m)) rfl h ?_,
      facc_writes (f := packed3 (bf16.fma m false false)) rfl h ?_, facc_writes (f := packed3 (f16.fma m false false)) rfl h ?_⟩
    all_goals
      intro t
      simp only [packed2, packed3, hi16_toNat]
      rfl
  case minmax => exact ⟨fbinO_writes rfl h fun _ => rfl, fbinO_writes rfl h fun _ => rfl⟩
  case set =>
    exact Alu.writes _ (i := .fsetF32 m p cc a b) rfl h fun t => by cases m <;> rfl
  case unary =>
    exact ⟨fun1_writes (f := fun x => (fclass x, nvIf (f32.val x).isSnan)) rfl h fun _ => rfl, fun1_writes rfl h fun _ => rfl,
      fun1_writes rfl h fun _ => rfl, fun1_writes rfl h fun _ => rfl, fun1_writes rfl h fun _ => rfl, fun1_writes rfl h fun _ => rfl, fun1_writes rfl h fun _ => rfl, fun1_writes rfl h fun _ => rfl,
      fun1_writes rfl h fun _ => rfl, fun1_writes rfl h fun _ => rfl⟩
  case convert =>
    refine ⟨fun1_writes (f := fun x => fcvt f16 f32 .rn (lo16 x)) rfl h fun _ => rfl,
      fun1_writes (f := fun x => fcvt bf16 f32 .rn (lo16 x)) rfl h fun _ => rfl, fun1_writes rfl h fun _ => rfl, fun1_writes rfl h fun _ => rfl,
      fun1_writes (f := fun x => fcvt bf16 f16 m (lo16 x)) rfl h fun _ => rfl, fun1_writes (f := fun x => fcvt f16 bf16 m (lo16 x)) rfl h fun _ => rfl,
      fun1_writes rfl h fun _ => ?i32, fun1_writes rfl h fun _ => ?n32,
      fun1_writes rfl h fun _ => ?i16, fun1_writes rfl h fun _ => ?n16, fun1_writes rfl h fun _ => ?i8, fun1_writes rfl h fun _ => ?n8,
      fun w i hi => ?signed, fun w i hi => ?unsigned⟩
    case i32 => rw [fromInt_signed, BitVec.setWidth_eq]
    case n32 => rw [fromInt_unsigned, Nat.mod_eq_of_lt (BitVec.isLt _)]
    case i16 => rw [fromInt_signed]
    case n16 => rw [fromInt_unsigned]
    case i8 => rw [fromInt_signed]
    case n8 => rw [fromInt_unsigned]
    case signed =>
      obtain ⟨rfl, rfl⟩ | ⟨rfl, rfl⟩ | ⟨rfl, rfl⟩ := hi <;> exact fun1_writes rfl h fun _ => fOut_toInt32_signed ..
    case unsigned =>
      obtain ⟨rfl, rfl⟩ | ⟨rfl, rfl⟩ | ⟨rfl, rfl⟩ := hi <;> exact fun1_writes rfl h fun _ => fOut_toInt32_unsigned ..
  case pairs =>
    exact ⟨fbin_writes (f := fun x y => pair16 (fcvt f32 f16 m x) (fcvt f32 f16 m y)) rfl h fun _ => rfl,
      fbin_writes (f := fun x y => pair16 (fcvt f32 bf16 m x) (fcvt f32 bf16 m y)) rfl h fun _ => rfl⟩
  case from64 =>
    exact ⟨fcvtFrom64_writes rfl h fun _ => by rw [fromInt_signed, BitVec.setWidth_eq],
      fcvtFrom64_writes rfl h fun _ => by rw [fromInt_unsigned, Nat.mod_eq_of_lt (BitVec.isLt _)]⟩
  case to64 => exact ⟨fcvtTo64_writes rfl h fun _ => rfl, fcvtTo64_writes rfl h fun _ => rfl⟩

end Sys2Proof.Machine
end

section
/-! SUPPORT. TBEGIN, TABORT and TSTAT, and the solitary grant (06 R185, R188, R189). -/
namespace Sys2Proof.Machine

theorem exec_tbegin (s : State) : exec .tbegin s = execTbegin s := rfl
theorem exec_tabort (n : BitVec 7) (s : State) : exec (.tabort n) s = execTabort n s := rfl
theorem exec_tstat (d : Reg) (s : State) : exec (.tstat d) s = execTstat d s := rfl
theorem exec_solitaryGrant (s : State) : exec .solitaryGrant s = execSolitaryGrant s := rfl

/-! ### The transactions of a warp -/

theorem Warp.tx_setTx (w : Warp) (t : Nat) (x : Txn) (u : Nat) : (w.setTx t x).tx u = if u = t then x else w.tx u :=
  Map.lookD_putD ..

/-- Change the transaction of each thread of a list. -/
def Warp.editTxs (w : Warp) (g : Nat → Txn → Txn) (ts : List Nat) : Warp := ts.foldl (fun w t => w.setTx t (g t (w.tx t))) w

/-- Only the transactions of the warp have changed. -/
theorem Warp.editTxs_rest (w : Warp) (g : Nat → Txn → Txn) (ts : List Nat) : w.editTxs g ts = { w with txn := (w.editTxs g ts).txn } := by
  induction ts generalizing w with
  | nil => rfl
  | cons t ts ih => exact ih (w.setTx t (g t (w.tx t)))

theorem Warp.editTxs_tx (w : Warp) (g : Nat → Txn → Txn) {ts : List Nat} (hnd : ts.Nodup) (u : Nat) :
    (w.editTxs g ts).tx u = if u ∈ ts then g u (w.tx u) else w.tx u := by
  induction ts generalizing w with
  | nil => simp [Warp.editTxs]
  | cons t ts ih =>
    obtain ⟨hnot, hnd⟩ := List.nodup_cons.1 hnd
    refine (ih (w.setTx t (g t (w.tx t))) hnd).trans ?_
    by_cases e : u = t
    · subst e
      simp [hnot, Warp.tx_setTx]
    · simp [e, Warp.tx_setTx]

/-- The transactions of the active threads change: what a thread's transaction then is. -/
theorem Warp.editTxs_threads (w : Warp) (g : Nat → Txn → Txn) (m : Mask) {u : Nat} (hu : u < 32) :
    (w.editTxs g (threads m)).tx u = if m.getLsbD u then g u (w.tx u) else w.tx u := by
  simp [w.editTxs_tx g (threads_nodup m), mem_threads, hu]

/-- A word that changes the transactions of its warp and retires. -/
theorem retired_editTxs {s : State} {c : Ctx} (h : s.ctx? = some c) (g : Nat → Txn → Txn) (ts : List Nat) (b : Bool) (k : Nat) :
    Retired s ((s.editWarp c.f.unit c.f.warp fun w => w.editTxs g ts).retire c 1 b k) c 1 (c.w.editTxs g ts) := by
  refine retired_edit h _ rfl ?_ 1 b k
  rw [Warp.editTxs_rest]

/-! ### What the words wait for -/

theorem Ctx.ready_tend {c : Ctx} (h : c.tendPending = false) (s : State) : s.ready c [.tend c.act] = true := by
  simp [State.ready, Need.met, KUnit.tendBusy_mono h c.fr.mask]

theorem Ctx.ready_begin {c : Ctx} (h : c.tendPending = false) (hr : c.u.rowsBusy c.fr.accwin c.act = false) (s : State) :
    s.ready c (.tend c.act :: if c.accOk then [.rows c.fr.accwin c.act] else []) = true := by
  have htend := KUnit.tendBusy_mono h c.fr.mask
  have hrows := KUnit.rowsBusy_mono hr c.fr.mask
  cases c.accOk <;> simp [State.ready, Need.met, htend, hrows]

/-! ### TBEGIN -/

/-- A thread of the executing fragment, as the queue of the solitary grant names it. -/
def Ctx.key (c : Ctx) (t : Nat) : Nat × Nat × Nat := (c.f.unit, c.f.warp, t)

/-- What TBEGIN makes of a thread's transaction. -/
def Ctx.begun (c : Ctx) (t : Nat) (x : Txn) : Txn :=
  match x.st with
  | .idle => c.open x t (c.wantSolo.contains t)
  | _ => x.doom 7#4

section
variable {s : State} {c : Ctx} (h : Ready s c [] []) (hp : c.tendPending = false) (hr : c.u.rowsBusy c.fr.accwin c.act = false)

theorem tbegin_idle (h : Ready s c [] []) (ha : c.act = 0#32) : exec .tbegin s = .next (s.retire c 1 false 1) := by
  rw [exec_tbegin, execTbegin, withWord_ready h, if_pos ha]

include h hp hr

/-- Where the threads that must be alone hold the grant, TBEGIN goes on. -/
theorem tbegin_opens (ha : c.act ≠ 0#32) (hs : ∀ t ∈ c.wantSolo, s.soloHolder = some (c.key t)) :
    exec .tbegin s = .next ((s.editWarp c.f.unit c.f.warp fun w => w.editTxs c.begun (threads c.act)).retire c 1 false c.beats) := by
  have hall : (c.wantSolo.all fun t => s.soloHolder = some (c.f.unit, c.f.warp, t)) = true := List.all_eq_true.2 fun t ht => decide_eq_true (hs t ht)
  rw [exec_tbegin, execTbegin, withWord_ready h, if_neg ha, whenReady_ready (Ctx.ready_begin hp hr s)]
  simp only [hall, if_true]
  rfl

/-- Where the only active thread must be alone and does not hold the grant, it asks for it and waits. -/
theorem tbegin_asks {u : Nat} (ha : threads c.act = [u]) (hw : c.wantSolo = [u]) (hs : s.soloHolder ≠ some (c.key u)) (hq : c.key u ∉ s.soloQueue) :
    exec .tbegin s = .next (({ s with soloQueue := s.soloQueue ++ [c.key u] } : State).parkAt c (.issue [.grant u] false)) := by
  have ha0 : c.act ≠ 0#32 := fun e => by rw [e, threads_zero] at ha; exact absurd ha nofun
  have hs' : s.soloHolder ≠ some (c.f.unit, c.f.warp, u) := hs
  have hq' : (c.f.unit, c.f.warp, u) ∉ s.soloQueue := hq
  rw [exec_tbegin, execTbegin, withWord_ready h, if_neg ha0, whenReady_ready (Ctx.ready_begin hp hr s)]
  simp [hw, hs', hq', State.await, Ctx.key]

end

/-! ### TABORT and TSTAT -/

theorem tabort_runs {s : State} {c : Ctx} (h : Ready s c [] []) (hp : c.tendPending = false) (n : BitVec 7) :
    exec (.tabort n) s =
      .next ((s.editWarp c.f.unit c.f.warp fun w => w.editTxs (fun _ x => x.abort (n.zeroExtend 8)) (threads c.act)).retire c 1 false c.beats) := by
  rw [exec_tabort, execTabort, withWord_ready h, whenReady_ready (Ctx.ready_tend hp s)]
  rfl

theorem tstat_writes {s : State} {c : Ctx} {d : Reg} (h : Ready s c [opV d] []) (hp : c.tendPending = false) {x : Nat → Word}
    (hx : ∀ t, (c.w.tx t).status = x t) : Writes (.tstat d) s c 1 fun t => .ofRegs (c.wr d (x t)) := by
  obtain rfl := funext hx
  have he := Warp.putOuts_effect c.w .general c.act fun t => .ofRegs (c.wr d (c.w.tx t).status)
  refine ⟨_, _, ?_, he, retired_edit h.1 (fun w => w.putOuts .general c.act fun t => .ofRegs (c.wr d (c.w.tx t).status)) rfl ?_ 1 false c.beats⟩
  · rw [exec_tstat, execTstat, withWord_ready h, whenReady_ready (Ctx.ready_tend hp s)]
  · rw [he.rest]

theorem Txn.status_eq (x : Txn) :
    x.status = BitVec.ofNat 32 (x.user.toNat * 2 ^ 16 + x.count * 2 ^ 8 + (if x.solo then 2 ^ 7 else 0)
      + (match x.st with | .idle => 0 | .opened => 1 | .doomed => 2) * 2 ^ 5 + x.code.toNat) := by
  unfold Txn.status
  cases x.solo <;> cases x.st <;> rfl

/-! ### The statement -/

/-- The only active thread is the one that must be alone. -/
theorem Ctx.wantSolo_single {c : Ctx} {u : Nat} (ha : threads c.act = [u]) (hi : (c.w.tx u).st = .idle) (hn : (c.w.tx u).count = 16) :
    c.wantSolo = [u] := by
  simp [Ctx.wantSolo, ha, hi, hn]

/-- No active thread must be alone. -/
theorem Ctx.wantSolo_none {c : Ctx} (h : ∀ u ∈ threads c.act, (c.w.tx u).st = .idle → (c.w.tx u).count ≠ 16) : c.wantSolo = [] :=
  List.filter_eq_nil_iff.2 fun u hu => by
    simp only [Bool.and_eq_true, decide_eq_true_eq, not_and]
    exact h u hu

/-- Settles O20: each word runs as its lemma above says, and the transactions it leaves are read thread by thread. -/
theorem transactionWords : Obligations.TransactionWords := by
  unfold Obligations.TransactionWords
  refine ⟨fun s c hp => ⟨fun h => ⟨fun ha => ?idle, fun ha hr hn => ?opens, fun n => ?aborts⟩, fun d h => ?status⟩,
    fun s c u h hp hr ha hi hn => ⟨fun hs hq => ?asks, fun hs => ?alone⟩, fun s u w t rest wp hs hq hw hl => ?grant⟩
  case idle => exact ⟨_, tbegin_idle h ha, retired_self h.1 1 false 1⟩
  case opens =>
    have hwant := Ctx.wantSolo_none hn
    refine ⟨_, _, tbegin_opens h hp hr ha (by simp [hwant]), retired_editTxs h.1 _ _ false c.beats, Warp.editTxs_rest .., fun u hu => ?_⟩
    rw [Warp.editTxs_threads _ _ _ hu]
    cases hst : (c.w.tx u).st <;> simp [Ctx.begun, hst, Ctx.open, Ctx.accOk, Txn.doom, hwant]
  case aborts =>
    refine ⟨_, _, tabort_runs h hp n, retired_editTxs h.1 _ _ false c.beats, Warp.editTxs_rest .., fun u hu => ?_⟩
    rw [Warp.editTxs_threads _ _ _ hu]
    cases hst : (c.w.tx u).st <;> simp [Txn.abort, hst, Txn.doom]
  case status => exact tstat_writes h hp fun t => Txn.status_eq (c.w.tx t)
  case asks =>
    refine ⟨_, tbegin_asks h hp hr ha (Ctx.wantSolo_single ha hi hn) hs hq, rfl, rfl, rfl, ?_⟩
    have hb := becomes_editFrag h.1 fun x => { x with status := .parkedWait, wake := .issue [.grant u] false, lane := false }
    obtain ⟨fs, hwarp, -, hx⟩ := hb.warp
    exact (congrArg (fun w => w.bind fun w => Map.look w.frags c.f.fidx) hwarp).trans hx
  case alone =>
    have hwant := Ctx.wantSolo_single ha hi hn
    have hmem : u ∈ threads c.act := by simp [ha]
    have hact := (mem_threads.1 hmem).2
    have ha0 : c.act ≠ 0#32 := fun e => by simp [e] at hact
    have htx : (c.w.editTxs c.begun (threads c.act)).tx u = c.open (c.w.tx u) u true := by
      rw [Warp.editTxs_threads _ _ _ (mem_threads.1 hmem).1, if_pos hact, Ctx.begun, hi, hwant]
      simp
    refine ⟨_, _, tbegin_opens h hp hr ha0 (by simpa [hwant, Ctx.key] using hs), retired_editTxs h.1 _ _ false c.beats, ?_⟩
    rw [htx]
    exact ⟨rfl, rfl, rfl, rfl⟩
  case grant =>
    rw [exec_solitaryGrant, execSolitaryGrant]
    simp [hs, hq, hw, hl]

end Sys2Proof.Machine
end

section
/-! SUPPORT. A TEND of a thread whose transaction holds exceptions set aside already (06 R187): `execTend` adds to them. -/
namespace Sys2Proof.Machine

/-- A warp of a thread that is Idle, has raised nothing since, and has 1 set aside. -/
def heldWarp : Warp := { placeWarp with txn := [(0, { Txn.idle with held := 1#5 })] }

/-- Its unit alone, with the warp's fragment executing. -/
def heldState : State :=
  { State.reset with cur := some ⟨0, 0, 0⟩, units := [(0, { placeUnit 0 with warps := [(0, heldWarp)] })], launches := [(0, placeLaunch)] }

/-- The executing fragment of `heldState`. -/
def heldCtx : Ctx := ⟨⟨0, 0, 0⟩, { placeUnit 0 with warps := [(0, heldWarp)] }, heldWarp, placeFrag, placeLaunch⟩

/-- What was set aside stays set aside. -/
theorem heldState_tend : ∃ t, exec (.tend 0#3) heldState = .next t ∧ (t.warp? 0 0).map (fun w => (w.tx 0).held) = some 1#5 :=
  ⟨_, rfl, by decide +kernel⟩

/-- Refutes O22: no premise puts what is set aside at zero where no TEND is in flight. In `heldState` the TEND keeps the 1 that thread 0 has set aside,
where the statement has the flags of the warp alone, which are 0. -/
theorem not_tendCommitsOrAborts : ¬ Obligations.TendCommitsOrAborts := by
  unfold Obligations.TendCommitsOrAborts
  intro h
  have hno : ∀ u ∈ threads heldCtx.act, ∀ r, (heldCtx.w.tx u).snapRow = some r → heldCtx.u.rowsBusy (r / 32) heldCtx.act = false := by decide +kernel
  obtain ⟨t, v, ht, hissued, -, hv⟩ := (h.1 heldState heldCtx 0#3 ⟨rfl, rfl, rfl, rfl⟩).2 (by decide) (by decide) rfl hno
  obtain ⟨fs, hwarp, -⟩ := hissued.warp
  obtain ⟨t', ht', hheld⟩ := heldState_tend
  rw [ht] at ht'
  injection ht' with ht'
  subst ht'
  have htx : ({ v with frags := fs } : Warp).tx 0 = v.tx 0 := rfl
  have hflags : (v.tx 0).held = 0#5 := by rw [(hv 0 (by decide)).1]; decide
  rw [show t.warp? 0 0 = some { v with frags := fs } from hwarp, Option.map_some, htx, hflags] at hheld
  exact absurd hheld (by decide)

end Sys2Proof.Machine
end

section
/-! SUPPORT. Rounding a magnitude (03 R79): the integer that a mode selects, which depends on the number alone, and how `roundAt`, `toIntegral` and
`round24` give it. -/
namespace Sys2Proof.Machine

/-! ### Up or down -/

/-- Whether a magnitude `y` from `lo` up to `hi` goes to `hi`; `odd` says that `lo` has an odd last bit. -/
def roundsUp (mode : RMode) (neg odd : Bool) (lo hi y : ℚ) : Bool :=
  match mode with
  | .rn => decide (lo + hi < 2 * y) || (decide (2 * y = lo + hi) && odd)
  | .rz => false
  | .ru => !neg && decide (lo ≠ y)
  | .rd => neg && decide (lo ≠ y)

/-- Scaling changes nothing. -/
theorem roundsUp_mul (mode : RMode) (neg odd : Bool) (lo hi y : ℚ) {k : ℚ} (hk : 0 < k) :
    roundsUp mode neg odd (lo * k) (hi * k) (y * k) = roundsUp mode neg odd lo hi y := by
  have hlt : lo * k + hi * k < 2 * (y * k) ↔ lo + hi < 2 * y := by
    rw [← add_mul, ← mul_assoc]
    exact mul_lt_mul_iff_left₀ hk
  have heq : 2 * (y * k) = lo * k + hi * k ↔ 2 * y = lo + hi := by
    rw [← add_mul, ← mul_assoc]
    exact mul_left_inj' hk.ne'
  have hne : lo * k = y * k ↔ lo = y := mul_left_inj' hk.ne'
  cases mode <;> simp only [roundsUp, hlt, heq, hne, ne_eq]

/-- An exact number stays. -/
theorem roundsUp_self (mode : RMode) (neg odd : Bool) {lo hi : ℚ} (h : lo < hi) : roundsUp mode neg odd lo hi lo = false := by
  have h1 : ¬ lo + hi < 2 * lo := by linarith
  have h2 : ¬ 2 * lo = lo + hi := by linarith
  cases mode <;> simp [roundsUp, h1, h2]

/-- The integer that a mode selects for a magnitude. -/
def nearestNat (mode : RMode) (neg : Bool) (y : ℚ) : ℕ :=
  ⌊y⌋₊ + (roundsUp mode neg (decide (⌊y⌋₊ % 2 = 1)) ⌊y⌋₊ (⌊y⌋₊ + 1) y).toNat

theorem nearestNat_natCast (mode : RMode) (neg : Bool) (n : ℕ) : nearestNat mode neg n = n := by
  simp [nearestNat, roundsUp_self mode neg _ (lt_add_one (n : ℚ))]

@[simp] theorem nearestNat_zero (mode : RMode) (neg : Bool) : nearestNat mode neg 0 = 0 := by
  simpa using nearestNat_natCast mode neg 0

/-- Below a half the integer does not depend on the number. -/
theorem nearestNat_small (mode : RMode) (neg : Bool) {y : ℚ} (h0 : 0 < y) (h1 : y < 1 / 2) :
    nearestNat mode neg y = (match mode with | .rn => 0 | .rz => 0 | .ru => (!neg).toNat | .rd => neg.toNat) := by
  have hfl : ⌊y⌋₊ = 0 := Nat.floor_eq_zero.2 (by linarith)
  have hup : ¬ (0 + (0 + 1) : ℚ) < 2 * y := by linarith
  have htie : ¬ 2 * y = (0 + (0 + 1) : ℚ) := by linarith
  have hne : ¬ (0 : ℚ) = y := h0.ne
  cases mode <;> simp only [nearestNat, hfl, roundsUp, Nat.cast_zero, hup, htie, hne, decide_false, decide_true, Bool.false_or, Bool.false_and,
    Bool.and_true, ne_eq, not_false_eq_true, Bool.toNat_false, Nat.zero_add]

/-! ### The number of bits and the logarithm -/

theorem bitLen_of_pos {m : ℕ} (h : m ≠ 0) : bitLen m = Nat.log 2 m + 1 := by
  rw [bitLen, if_neg h, Nat.log2_eq_log_two]

theorem log_mul_zpow {m : ℕ} (h : m ≠ 0) (e : ℤ) : Int.log 2 ((m : ℚ) * 2 ^ e) = bitLen m - 1 + e := by
  have hm : 0 < m := Nat.pos_of_ne_zero h
  have hy : (0 : ℚ) < m * 2 ^ e := by positivity
  have hlog : (Nat.log 2 m : ℤ) = bitLen m - 1 := by rw [bitLen_of_pos h]; push_cast; ring
  rw [← hlog]
  have hlo : (2 : ℚ) ^ (Nat.log 2 m : ℤ) ≤ m := by exact_mod_cast Nat.pow_log_le_self 2 h
  have hhi : (m : ℚ) < 2 ^ ((Nat.log 2 m : ℤ) + 1) := by exact_mod_cast Nat.lt_pow_succ_log_self (b := 2) (by decide) m
  have hpow : (0 : ℚ) < 2 ^ e := by positivity
  apply le_antisymm
  · refine Int.lt_add_one_iff.1 ((Int.lt_zpow_iff_log_lt (by decide) hy).1 ?_)
    rw [show (Nat.log 2 m : ℤ) + e + 1 = (Nat.log 2 m + 1) + e by ring]
    push_cast
    rw [zpow_add₀ (by norm_num : (2 : ℚ) ≠ 0)]
    exact mul_lt_mul_of_pos_right hhi hpow
  · refine (Int.zpow_le_iff_le_log (by decide) hy).1 ?_
    push_cast
    rw [zpow_add₀ (by norm_num : (2 : ℚ) ≠ 0)]
    exact mul_le_mul_of_nonneg_right hlo hpow.le

theorem mul_zpow_lt (m : ℕ) (e : ℤ) : (m : ℚ) * 2 ^ e < 2 ^ (bitLen m + e : ℤ) := by
  rcases eq_or_ne m 0 with rfl | h
  · simp; positivity
  · have hm : 0 < m := Nat.pos_of_ne_zero h
    have := Int.lt_zpow_succ_log_self (b := 2) (by decide) ((m : ℚ) * 2 ^ e)
    rw [log_mul_zpow h] at this
    push_cast at this
    rwa [show (bitLen m : ℤ) - 1 + e + 1 = bitLen m + e by ring] at this

/-! ### What the model computes -/

/-- `roundUp` compares a remainder with half a unit, as `roundsUp` compares numbers. -/
theorem roundUp_eq (mode : RMode) (neg : Bool) (m sh : ℕ) :
    roundUp mode neg (m / 2 ^ sh) (m % 2 ^ sh) sh =
      roundsUp mode neg (decide (m / 2 ^ sh % 2 = 1)) (m / 2 ^ sh : ℕ) ((m / 2 ^ sh : ℕ) + 1) (m / 2 ^ sh) := by
  have hk : (0 : ℚ) < 2 ^ sh := by positivity
  rw [← roundsUp_mul mode neg _ _ _ _ hk, div_mul_cancel₀ _ hk.ne']
  have hdm : (m : ℚ) = (m / 2 ^ sh : ℕ) * 2 ^ sh + (m % 2 ^ sh : ℕ) := by exact_mod_cast (Nat.div_add_mod' m (2 ^ sh)).symm
  have hlt : ((m / 2 ^ sh : ℕ) : ℚ) * 2 ^ sh + ((m / 2 ^ sh : ℕ) + 1) * 2 ^ sh < 2 * m ↔ 2 ^ sh < 2 * (m % 2 ^ sh) := by
    rw [← Nat.cast_lt (α := ℚ)]
    push_cast
    constructor <;> intro h <;> linarith
  have heq : 2 * (m : ℚ) = ((m / 2 ^ sh : ℕ) : ℚ) * 2 ^ sh + ((m / 2 ^ sh : ℕ) + 1) * 2 ^ sh ↔ 2 * (m % 2 ^ sh) = 2 ^ sh := by
    rw [← Nat.cast_inj (R := ℚ)]
    push_cast
    constructor <;> intro h <;> linarith
  have hne : ((m / 2 ^ sh : ℕ) : ℚ) * 2 ^ sh ≠ m ↔ m % 2 ^ sh ≠ 0 := by
    rw [← Nat.cast_ne_zero (R := ℚ)]
    constructor <;> intro h h' <;> exact h (by linarith)
  cases mode <;> simp only [roundUp, roundsUp, hlt, heq, hne]

/-- Rounding a number to a multiple of 2 ^ q: the multiple, and whether it differs from the number. -/
theorem roundAt_eq (mode : RMode) (neg : Bool) (m : ℕ) (e q : ℤ) :
    roundAt mode neg m e q = (nearestNat mode neg (m * 2 ^ (e - q)), decide ((⌊(m * 2 ^ (e - q) : ℚ)⌋₊ : ℚ) ≠ m * 2 ^ (e - q))) := by
  unfold roundAt
  split_ifs with h
  · obtain ⟨k, hk⟩ := Int.eq_ofNat_of_zero_le (sub_nonneg.2 h)
    have hy : (m : ℚ) * 2 ^ (e - q) = (m * 2 ^ k : ℕ) := by rw [hk]; push_cast; norm_cast
    rw [hy, nearestNat_natCast, Nat.floor_natCast, hk]
    simp
  · obtain ⟨sh, hsh⟩ := Int.eq_ofNat_of_zero_le (show 0 ≤ q - e by omega)
    have hy : (m : ℚ) * 2 ^ (e - q) = m / (2 ^ sh : ℕ) := by
      rw [show e - q = -(sh : ℤ) by omega, zpow_neg, zpow_natCast, div_eq_mul_inv]; push_cast; rfl
    have hfloor : ⌊(m : ℚ) / (2 ^ sh : ℕ)⌋₊ = m / 2 ^ sh := Nat.floor_div_eq_div ..
    have hup := roundUp_eq mode neg m sh
    have hk : (0 : ℚ) < (2 ^ sh : ℕ) := by positivity
    have hix : ((m / 2 ^ sh : ℕ) : ℚ) ≠ m / (2 ^ sh : ℕ) ↔ m % 2 ^ sh ≠ 0 := by
      rw [ne_eq, eq_div_iff hk.ne']
      norm_cast
      rw [← Nat.dvd_iff_div_mul_eq, Nat.dvd_iff_mod_eq_zero]
    rw [hsh, hy, nearestNat, hfloor]
    simp only [Int.toNat_natCast, hup, hix]
    push_cast
    cases roundsUp mode neg (decide (m / 2 ^ sh % 2 = 1)) (m / 2 ^ sh : ℕ) ((m / 2 ^ sh : ℕ) + 1) (m / 2 ^ sh) <;> simp
end Sys2Proof.Machine
end

section
/-! SUPPORT. The finite patterns of a format (03 R73): each magnitude pattern is a number, in rising order, and rounding (03 R79, R80) takes the pattern
at or below a number or the next one. -/
namespace Sys2Proof.Machine

/-! ### The formats -/

/-- What the proofs need of a format's two widths. -/
structure Fmt.Proper (f : Fmt) : Prop where
  eb : 2 ≤ f.eb
  mb : 1 ≤ f.mb

theorem Fmt.proper_of {f : Fmt} (h : f = f32 ∨ f = f16 ∨ f = bf16) : f.Proper := by
  obtain rfl | rfl | rfl := h <;> exact ⟨by decide, by decide⟩

theorem f32_proper : f32.Proper := Fmt.proper_of (.inl rfl)

section
variable {f : Fmt} (hf : f.Proper)
include hf

theorem Fmt.Proper.bias_pos : 0 < f.bias := by
  have h1 : 2 ^ 1 ≤ 2 ^ (f.eb - 1) := Nat.pow_le_pow_right (by decide) (by have := hf.eb; omega)
  unfold Fmt.bias
  omega

theorem Fmt.Proper.two_pow_eb : 2 ^ f.eb = 2 * (f.bias + 1) := by
  have h1 : 2 ^ (f.eb - 1) = f.bias + 1 := (Nat.sub_add_cancel Nat.one_le_two_pow).symm
  rw [← h1, ← pow_succ', Nat.sub_add_cancel (by have := hf.eb; omega)]

theorem Fmt.Proper.inf_eq : f.inf = (2 * f.bias + 1) * 2 ^ f.mb := by
  rw [Fmt.inf, hf.two_pow_eb]
  rfl

theorem Fmt.Proper.signBit_eq : f.signBit = f.inf + 2 ^ f.mb := by
  rw [hf.inf_eq, Fmt.signBit, pow_add, hf.two_pow_eb]
  ring

omit hf in
theorem Fmt.half_pos (f : Fmt) : 0 < 2 ^ f.mb := Nat.two_pow_pos _

/-- A unit of the exponent field is even. -/
theorem Fmt.Proper.even_unit : 2 ^ f.mb % 2 = 0 := by
  obtain ⟨k, hk⟩ := Nat.exists_eq_add_of_le hf.mb
  rw [hk, pow_add]
  omega

theorem Fmt.Proper.even_inf : f.inf % 2 = 0 := by
  rw [hf.inf_eq, Nat.mul_mod, hf.even_unit]; simp

theorem Fmt.Proper.even_signBit : f.signBit % 2 = 0 := by
  rw [hf.signBit_eq, Nat.add_mod, hf.even_inf, hf.even_unit]

theorem Fmt.Proper.unit_lt_inf : 2 ^ f.mb < f.inf := by
  have h0 := f.half_pos
  have h1 : 3 * 2 ^ f.mb ≤ f.inf := by
    rw [hf.inf_eq]
    exact Nat.mul_le_mul_right _ (by have := hf.bias_pos; omega)
  omega

theorem Fmt.Proper.inf_lt_signBit : f.inf < f.signBit := by
  rw [hf.signBit_eq]
  exact Nat.lt_add_of_pos_right f.half_pos

end

/-! ### The number of a magnitude pattern -/

/-- The significand of a magnitude pattern. -/
def Fmt.sig (f : Fmt) (p : ℕ) : ℕ := if p / 2 ^ f.mb = 0 then p else p % 2 ^ f.mb + 2 ^ f.mb

/-- The exponent of its last bit. -/
def Fmt.exp (f : Fmt) (p : ℕ) : ℤ := (p / 2 ^ f.mb - 1 : ℕ) + f.qmin

/-- Its number. The pattern of infinity counts as the power of two after the largest number. -/
def Fmt.mag (f : Fmt) (p : ℕ) : ℚ := f.sig p * 2 ^ f.exp p

/-- A significand over a count of exponent steps: the significand has its leading bit, or there is no step. -/
structure Fmt.Split (f : Fmt) (k n : ℕ) : Prop where
  lead : k = 0 ∨ 2 ^ f.mb ≤ n
  le : n ≤ 2 * 2 ^ f.mb

/-- The number of a pattern put together from its exponent steps and its significand. -/
theorem Fmt.Split.mag_eq {f : Fmt} {k n : ℕ} (h : f.Split k n) : f.mag (k * 2 ^ f.mb + n) = n * 2 ^ (k + f.qmin) := by
  have h0 := f.half_pos
  obtain ⟨hlead, hle⟩ := h
  set M := 2 ^ f.mb with hM
  have key : ∀ E F : ℕ, k * M + n = E * M + F → F < M → (k * M + n) / M = E ∧ (k * M + n) % M = F := by
    intro E F he hF
    rw [he, Nat.add_comm, Nat.add_mul_div_right _ _ h0, Nat.div_eq_of_lt hF, Nat.add_mul_mod_self_right, Nat.mod_eq_of_lt hF]
    exact ⟨Nat.zero_add _, rfl⟩
  unfold Fmt.mag Fmt.sig Fmt.exp
  rw [← hM]
  rcases lt_or_ge n M with hn | hn
  · obtain rfl : k = 0 := hlead.resolve_right (by omega)
    obtain ⟨hd, -⟩ := key 0 n (by omega) hn
    rw [hd, if_pos rfl]
    simp
  rcases lt_or_ge n (2 * M) with hn2 | hn2
  · obtain ⟨hd, hr⟩ := key (k + 1) (n - M) (by rw [Nat.add_mul]; omega) (by omega)
    rw [hd, hr, if_neg (by omega), Nat.sub_add_cancel hn, Nat.add_sub_cancel]
  · obtain rfl : n = 2 * M := by omega
    obtain ⟨hd, hr⟩ := key (k + 2) 0 (by rw [Nat.add_mul]; omega) (by omega)
    rw [hd, hr, if_neg (by omega), show (((k + 2 - 1 : ℕ) : ℤ) + f.qmin) = 1 + (k + f.qmin) by push_cast; omega,
      zpow_add₀ (by norm_num : (2 : ℚ) ≠ 0)]
    push_cast
    ring

/-- Every pattern is put together so, from a significand short of the next step. -/
theorem Fmt.split_of (f : Fmt) (p : ℕ) : ∃ k n, p = k * 2 ^ f.mb + n ∧ f.Split k n ∧ f.Split k (n + 1) := by
  have h0 := f.half_pos
  have hdm := Nat.div_add_mod' p (2 ^ f.mb)
  have hlt := Nat.mod_lt p h0
  set M := 2 ^ f.mb with hM
  set E := p / M with hE
  rcases Nat.eq_zero_or_pos E with hE0 | hE0
  · have hp : p < M := (Nat.div_eq_zero_iff_lt h0).1 hE0
    exact ⟨0, p, by omega, ⟨.inl rfl, by omega⟩, ⟨.inl rfl, by omega⟩⟩
  · refine ⟨E - 1, p % M + M, ?_, ⟨.inr ?_, ?_⟩, ⟨.inr ?_, ?_⟩⟩
    · rw [Nat.sub_mul]
      have : M ≤ E * M := Nat.le_mul_of_pos_left _ hE0
      omega
    all_goals omega

/-- Magnitudes rise with their patterns. -/
theorem Fmt.mag_strictMono (f : Fmt) : StrictMono f.mag := by
  refine strictMono_nat_of_lt_succ fun p => ?_
  obtain ⟨k, n, rfl, h, h'⟩ := f.split_of p
  rw [h.mag_eq, Nat.add_assoc, h'.mag_eq]
  push_cast
  exact mul_lt_mul_of_pos_right (lt_add_one _) (by positivity)

theorem Fmt.mag_nonneg (f : Fmt) (p : ℕ) : 0 ≤ f.mag p := by
  unfold Fmt.mag
  positivity

@[simp] theorem Fmt.mag_zero (f : Fmt) : f.mag 0 = 0 := by simp [Fmt.mag, Fmt.sig]

/-- The pattern of infinity stands for 2 ^ (bias + 1). -/
theorem Fmt.Proper.mag_inf {f : Fmt} (hf : f.Proper) : f.mag f.inf = 2 ^ (f.bias + 1 : ℤ) := by
  have hs : f.Split (2 * f.bias) (2 ^ f.mb) := ⟨.inr le_rfl, by omega⟩
  have h2 : (2 : ℚ) ≠ 0 := by norm_num
  rw [show f.inf = 2 * f.bias * 2 ^ f.mb + 2 ^ f.mb by rw [hf.inf_eq, Nat.add_mul, one_mul], hs.mag_eq, Fmt.qmin]
  push_cast
  rw [← zpow_natCast, ← zpow_add₀ h2]
  congr 1
  ring

/-- The largest number. -/
theorem Fmt.Proper.mag_maxFin {f : Fmt} (hf : f.Proper) : f.mag (f.inf - 1) = (2 * 2 ^ f.mb - 1) * 2 ^ (f.bias - f.mb : ℤ) := by
  have h0 := f.half_pos
  have hb := hf.bias_pos
  have hs : f.Split (2 * f.bias - 1) (2 * 2 ^ f.mb - 1) := ⟨.inr (by omega), by omega⟩
  have he : f.inf - 1 = (2 * f.bias - 1) * 2 ^ f.mb + (2 * 2 ^ f.mb - 1) := by
    rw [hf.inf_eq, Nat.sub_mul, Nat.add_mul]
    have : 2 ^ f.mb ≤ 2 * f.bias * 2 ^ f.mb := Nat.le_mul_of_pos_left _ (by omega)
    omega
  rw [he, hs.mag_eq, Fmt.qmin, Nat.cast_sub (by omega), Nat.cast_sub (by omega)]
  push_cast
  congr 2
  ring

/-! ### Finite patterns -/

/-- The value of a finite pattern. -/
theorem Fmt.val_eq {f : Fmt} {x : ℕ} (hx : x < 2 * f.signBit) (hp : x % f.signBit < f.inf) :
    f.val x = .fin (decide (x / f.signBit = 1)) (f.sig (x % f.signBit)) (f.exp (x % f.signBit)) := by
  have h0 := f.half_pos
  have hs : f.signBit = 2 ^ f.mb * 2 ^ f.eb := by rw [Fmt.signBit, pow_add, Nat.mul_comm]
  have hdiv : x / f.signBit < 2 := Nat.div_lt_of_lt_mul (by omega)
  have hE : x % f.signBit / 2 ^ f.mb = x / 2 ^ f.mb % 2 ^ f.eb := by rw [hs, Nat.mod_mul_right_div_self]
  have hF : x % f.signBit % 2 ^ f.mb = x % 2 ^ f.mb := by rw [hs, Nat.mod_mul_right_mod]
  have hEmax : x / 2 ^ f.mb % 2 ^ f.eb ≠ 2 ^ f.eb - 1 := by
    rw [← hE]
    exact ((Nat.div_lt_iff_lt_mul h0).2 hp).ne
  unfold Fmt.val
  simp only [if_neg hEmax, Nat.mod_eq_of_lt hdiv, Fmt.sig, Fmt.exp, hE, hF]
  split_ifs with h
  · congr 1
    · rw [← hF, Nat.mod_eq_of_lt]
      exact (Nat.div_eq_zero_iff_lt h0).1 (hE.trans h)
    · simp [h]
  · congr 1
    rw [Fmt.qmin, Nat.cast_sub (Nat.pos_of_ne_zero h)]
    push_cast
    ring

/-- The number of a finite pattern. -/
theorem Fmt.rat_eq {f : Fmt} {x : ℕ} (hx : f.Finite x) :
    f.rat x = (if x / f.signBit = 1 then -1 else 1) * f.mag (x % f.signBit) := by
  simp [Fmt.rat, Fmt.val_eq hx.1 hx.2, FVal.rat, Fmt.mag]

end Sys2Proof.Machine
end

section
/-! SUPPORT. What `Fmt.roundFin` answers (03 R79, R80), said of the number alone: the pattern at or below it, one up where the mode says so, and the
exceptions. -/
namespace Sys2Proof.Machine

/-- A number lies at the magnitude of pattern `p` or above, below that of the next one. -/
structure Fmt.Brackets (f : Fmt) (p : ℕ) (y : ℚ) : Prop where
  le : f.mag p ≤ y
  lt : y < f.mag (p + 1)

theorem Fmt.Brackets.unique {f : Fmt} {p q : ℕ} {y : ℚ} (hp : f.Brackets p y) (hq : f.Brackets q y) : p = q := by
  have h1 : p < q + 1 := f.mag_strictMono.lt_iff_lt.1 (hp.le.trans_lt hq.lt)
  have h2 : q < p + 1 := f.mag_strictMono.lt_iff_lt.1 (hq.le.trans_lt hp.lt)
  omega

/-- The pattern that a mode takes for a number that `p` brackets. -/
def Fmt.pick (f : Fmt) (mode : RMode) (neg : Bool) (y : ℚ) (p : ℕ) : ℕ :=
  p + (roundsUp mode neg (decide (p % 2 = 1)) (f.mag p) (f.mag (p + 1)) y).toNat

/-- The result and the exceptions for a number that `p` brackets. -/
def Fmt.roundMag (f : Fmt) (mode : RMode) (neg : Bool) (y : ℚ) (p : ℕ) : FRes :=
  let r := f.pick mode neg y p
  if f.inf ≤ r then (f.overflow mode neg, 0b00101#5)
  else ((if neg then f.signBit else 0) + r,
    if f.mag p = y then 0#5 else if r ≠ 0 ∧ r < 2 ^ f.mb then 0b00011#5 else 0b00001#5)

/-! ### The exponent of the last bit -/

/-- The exponent of the last bit that a number keeps. -/
def Fmt.quantum (f : Fmt) (y : ℚ) : ℤ := Max.max (Int.log 2 y - f.mb) f.qmin

/-- A number in units of its last bit: it has a leading bit there, or no exponent step is taken. -/
theorem Fmt.quantum_split (f : Fmt) {y : ℚ} (hy : 0 < y) :
    ∃ k : ℕ, f.quantum y = k + f.qmin ∧ (k = 0 ∨ 2 ^ f.mb ≤ ⌊y * 2 ^ (-f.quantum y)⌋₊) ∧ ⌊y * 2 ^ (-f.quantum y)⌋₊ < 2 * 2 ^ f.mb := by
  obtain ⟨k, hk⟩ := Int.eq_ofNat_of_zero_le (show 0 ≤ f.quantum y - f.qmin by unfold Fmt.quantum; omega)
  have h2 : (2 : ℚ) ≠ 0 := by norm_num
  have hpos : (0 : ℚ) < 2 ^ (-f.quantum y) := by positivity
  refine ⟨k, by omega, ?_, ?_⟩
  · rcases Nat.eq_zero_or_pos k with h | h
    · exact .inl h
    right
    have hq : Int.log 2 y = f.mb + f.quantum y := by unfold Fmt.quantum at hk ⊢; omega
    have hle := Int.zpow_log_le_self (b := 2) (by decide) hy
    rw [hq] at hle
    push_cast at hle
    rw [zpow_add₀ h2, zpow_natCast] at hle
    refine Nat.le_floor ?_
    push_cast
    calc (2 : ℚ) ^ f.mb = 2 ^ f.mb * 2 ^ f.quantum y * 2 ^ (-f.quantum y) := by
          rw [mul_assoc, ← zpow_add₀ h2, add_neg_cancel, zpow_zero, mul_one]
      _ ≤ y * 2 ^ (-f.quantum y) := mul_le_mul_of_nonneg_right hle hpos.le
  · have hlt : y < 2 ^ (1 + f.mb + f.quantum y) := by
      have hq : Int.log 2 y < 1 + f.mb + f.quantum y := by unfold Fmt.quantum; omega
      exact_mod_cast (Int.lt_zpow_iff_log_lt (b := 2) (by decide) hy).2 hq
    rw [Nat.floor_lt (by positivity)]
    push_cast
    calc y * 2 ^ (-f.quantum y) < 2 ^ (1 + f.mb + f.quantum y) * 2 ^ (-f.quantum y) := mul_lt_mul_of_pos_right hlt hpos
      _ = 2 * 2 ^ f.mb := by
          rw [← zpow_add₀ h2, show 1 + (f.mb : ℤ) + f.quantum y + -f.quantum y = 1 + f.mb by ring, zpow_add₀ h2, zpow_one, zpow_natCast]

/-! ### The model's rounding, by the number alone -/

/-- A number rounded with its last bit at 2 ^ q, as `roundFin` packs it. -/
def Fmt.roundTo (f : Fmt) (mode : RMode) (neg : Bool) (y : ℚ) (q : ℤ) : FRes :=
  let n := nearestNat mode neg (y * 2 ^ (-q))
  if (f.bias : ℤ) + 1 < bitLen n + q then (f.overflow mode neg, flOF ||| flIX)
  else
    ((if neg then f.signBit else 0) + if n < 2 ^ f.mb then n else (q + f.bias + f.mb - 1).toNat * 2 ^ f.mb + n,
      if (⌊y * 2 ^ (-q)⌋₊ : ℚ) ≠ y * 2 ^ (-q) then (if n ≠ 0 && n < 2 ^ f.mb then flUF ||| flIX else flIX) else flNone)

theorem roundAt_zpow (mode : RMode) (neg : Bool) (m : ℕ) (e q : ℤ) :
    roundAt mode neg m e q = (nearestNat mode neg (m * 2 ^ e * 2 ^ (-q)),
      decide ((⌊(m * 2 ^ e * 2 ^ (-q) : ℚ)⌋₊ : ℚ) ≠ m * 2 ^ e * 2 ^ (-q))) := by
  rw [mul_assoc, ← zpow_add₀ (by norm_num), ← sub_eq_add_neg, roundAt_eq]

/-- The exponent that `roundFin` takes in place of one far below the format does not change the result. -/
theorem Fmt.roundTo_small {f : Fmt} (mode : RMode) (neg : Bool) {y z : ℚ} (hy : 0 < y) (hz : 0 < z) (hy1 : y < 2 ^ (f.qmin - 2))
    (hz1 : z < 2 ^ (f.qmin - 2)) : f.roundTo mode neg y f.qmin = f.roundTo mode neg z f.qmin := by
  have small : ∀ {x : ℚ}, 0 < x → x < 2 ^ (f.qmin - 2) → 0 < x * 2 ^ (-f.qmin) ∧ x * 2 ^ (-f.qmin) < 1 / 2 := by
    intro x hx hx1
    have hpos : (0 : ℚ) < 2 ^ (-f.qmin) := by positivity
    refine ⟨mul_pos hx hpos, (mul_lt_mul_of_pos_right hx1 hpos).trans_le ?_⟩
    rw [← zpow_add₀ (by norm_num), show f.qmin - 2 + -f.qmin = -2 by ring]
    norm_num
  obtain ⟨hy2, hy3⟩ := small hy hy1
  obtain ⟨hz2, hz3⟩ := small hz hz1
  have floor : ∀ {x : ℚ}, x < 1 / 2 → ⌊x⌋₊ = 0 := fun h => Nat.floor_eq_zero.2 (by linarith)
  unfold Fmt.roundTo
  rw [nearestNat_small _ _ hy2 hy3, nearestNat_small _ _ hz2 hz3, floor hy3, floor hz3]
  simp only [Nat.cast_zero, ne_eq, hy2.ne, hz2.ne, not_false_eq_true, if_true]

theorem Fmt.roundFin_eq (f : Fmt) (mode : RMode) (neg : Bool) {m : ℕ} (hm : m ≠ 0) (e : ℤ) :
    f.roundFin mode neg m e = f.roundTo mode neg (m * 2 ^ e) (f.quantum (m * 2 ^ e)) := by
  have hm0 : (0 : ℚ) < m := by exact_mod_cast Nat.pos_of_ne_zero hm
  have hq : ∀ e' : ℤ, Max.max (e' + bitLen m - (f.mb + 1)) f.qmin = f.quantum (m * 2 ^ e') := by
    intro e'
    rw [Fmt.quantum, log_mul_zpow hm]
    congr 1
    ring
  set e' := if (bitLen m : Int) + e < f.qmin - 2 then f.qmin - 3 - bitLen m else e with he'
  have hclamp : f.roundFin mode neg m e = f.roundTo mode neg (m * 2 ^ e') (f.quantum (m * 2 ^ e')) := by
    simp only [Fmt.roundFin, ← he', hq, roundAt_zpow, Fmt.roundTo, decide_eq_true_eq]
  rw [hclamp, he']
  split_ifs with h
  · have small : ∀ e' : ℤ, bitLen m + e' ≤ f.qmin - 2 → (m * 2 ^ e' : ℚ) < 2 ^ (f.qmin - 2) ∧ f.quantum (m * 2 ^ e') = f.qmin := by
      intro e' he'
      refine ⟨(mul_zpow_lt m e').trans_le (zpow_le_zpow_right₀ (by norm_num) he'), ?_⟩
      rw [Fmt.quantum, log_mul_zpow hm]
      omega
    obtain ⟨h1, hq1⟩ := small (f.qmin - 3 - bitLen m) (by omega)
    obtain ⟨h2, hq2⟩ := small e (by omega)
    rw [hq1, hq2]
    exact Fmt.roundTo_small mode neg (by positivity) (by positivity) h1 h2
  · rfl

/-! ### The pattern at or below the number -/

/-- Rounding takes the pattern that brackets the number, or the next one. -/
theorem Fmt.Proper.roundFin_spec {f : Fmt} (hf : f.Proper) (mode : RMode) (neg : Bool) {m : ℕ} (hm : m ≠ 0) (e : ℤ) :
    ∃ p, f.Brackets p (m * 2 ^ e) ∧ f.roundFin mode neg m e = f.roundMag mode neg (m * 2 ^ e) p := by
  rw [f.roundFin_eq mode neg hm]
  have hy : (0 : ℚ) < m * 2 ^ e := by
    have := Nat.pos_of_ne_zero hm
    positivity
  generalize (m * 2 ^ e : ℚ) = y at hy
  obtain ⟨k, hk, hlead, hlt⟩ := f.quantum_split hy
  have h2 : (2 : ℚ) ≠ 0 := by norm_num
  have hu : (0 : ℚ) < 2 ^ f.quantum y := by positivity
  set q := f.quantum y with hq
  set z := y * 2 ^ (-q) with hz
  have hzy : z * 2 ^ q = y := by rw [hz, mul_assoc, ← zpow_add₀ h2, neg_add_cancel, zpow_zero, mul_one]
  have hz0 : 0 ≤ z := by positivity
  set n := ⌊z⌋₊ with hn
  have hs : f.Split k n := ⟨hlead, hlt.le⟩
  have hs' : f.Split k (n + 1) := ⟨hlead.imp_right (by omega), hlt⟩
  have hmag : f.mag (k * 2 ^ f.mb + n) = n * 2 ^ q := by rw [hs.mag_eq, hk]
  have hmag' : f.mag (k * 2 ^ f.mb + n + 1) = (n + 1) * 2 ^ q := by rw [Nat.add_assoc, hs'.mag_eq, hk]; push_cast; rfl
  have hbr : f.Brackets (k * 2 ^ f.mb + n) y := by
    refine ⟨?_, ?_⟩
    · rw [hmag, ← hzy]
      exact mul_le_mul_of_nonneg_right (Nat.floor_le hz0) hu.le
    · rw [hmag', ← hzy]
      exact mul_lt_mul_of_pos_right (Nat.lt_floor_add_one z) hu
  refine ⟨_, hbr, ?_⟩
  have hpar : (k * 2 ^ f.mb + n) % 2 = n % 2 := by
    have := hf.even_unit
    rw [Nat.add_mod, Nat.mul_mod, this]
    simp
  have hpick : f.pick mode neg y (k * 2 ^ f.mb + n) = k * 2 ^ f.mb + nearestNat mode neg z := by
    rw [Fmt.pick, nearestNat, hpar, hmag, hmag', ← hn, Nat.add_assoc]
    conv_lhs => rw [← hzy]
    rw [roundsUp_mul _ _ _ _ _ _ hu]
  set r := nearestNat mode neg z with hr
  have hrs : f.Split k r := by
    rw [hr, nearestNat, ← hn]
    cases roundsUp mode neg (decide (n % 2 = 1)) n (n + 1) z
    · exact hs
    · exact hs'
  have hover : (f.bias : ℤ) + 1 < bitLen r + q ↔ f.inf ≤ k * 2 ^ f.mb + r := by
    rw [← f.mag_strictMono.le_iff_le, hf.mag_inf, hrs.mag_eq, ← hk]
    rcases Nat.eq_zero_or_pos r with h | h
    · have hk0 : k = 0 := hrs.lead.resolve_right (by have := f.half_pos; omega)
      have hb := hf.bias_pos
      constructor
      · intro hlt
        simp only [h, bitLen, if_true, hk, hk0, Fmt.qmin] at hlt
        omega
      · intro hle
        rw [h] at hle
        have : (0 : ℚ) < 2 ^ (f.bias + 1 : ℤ) := by positivity
        simp at hle
        linarith
    · have := Int.zpow_le_iff_le_log (R := ℚ) (b := 2) (by decide) (x := f.bias + 1) (r := r * 2 ^ q) (by positivity)
      rw [log_mul_zpow h.ne'] at this
      push_cast at this
      rw [this]
      omega
  have hbits : (if r < 2 ^ f.mb then r else (q + f.bias + f.mb - 1).toNat * 2 ^ f.mb + r) = k * 2 ^ f.mb + r := by
    have hstep : (q + f.bias + f.mb - 1).toNat = k := by rw [hk, Fmt.qmin]; omega
    rw [hstep]
    split_ifs with h
    · rw [hrs.lead.resolve_right (by omega)]; simp
    · rfl
  have hsub : (k * 2 ^ f.mb + r ≠ 0 ∧ k * 2 ^ f.mb + r < 2 ^ f.mb) ↔ r ≠ 0 ∧ r < 2 ^ f.mb := by
    rcases hrs.lead with h | h
    · simp [h]
    · have := f.half_pos
      omega
  have hexact : f.mag (k * 2 ^ f.mb + n) = y ↔ (n : ℚ) = z := by rw [hmag, ← hzy]; exact mul_left_inj' hu.ne'
  unfold Fmt.roundTo Fmt.roundMag
  simp only [hpick, ← hz, ← hn, ← hr, hover, hbits, hsub, hexact]
  refine ite_congr rfl (fun _ => rfl) fun _ => ?_
  congr 1
  by_cases h : (n : ℚ) = z <;> simp [h, flNone, flUF, flIX]
end Sys2Proof.Machine
end

section
/-! SUPPORT. Rounding meets 03 R79 and R80 (O4): what is said of a magnitude and its two neighbouring patterns, told of signed numbers. -/
namespace Sys2Proof.Machine

/-! ### Overflow -/

/-- The largest number's successor in its own exponent lies at the middle that `.rn` sends to infinity. -/
theorem Fmt.Proper.mid_maxFin {f : Fmt} (hf : f.Proper) : f.mag (f.inf - 1) + f.mag f.inf = 2 * ((2 - 2 ^ (-(f.mb + 1 : ℤ))) * 2 ^ f.bias) := by
  have h2 : (2 : ℚ) ≠ 0 := by norm_num
  have hM : (2 : ℚ) ^ f.mb ≠ 0 := by positivity
  rw [hf.mag_maxFin, hf.mag_inf, zpow_sub₀ h2, zpow_add₀ h2, zpow_neg, zpow_add₀ h2]
  simp only [zpow_natCast, zpow_one]
  field_simp
  ring

section
variable {f : Fmt} (hf : f.Proper) {p : ℕ} {y : ℚ} (hb : f.Brackets p y)

theorem Fmt.Brackets.le_iff (hb : f.Brackets p y) {r : ℕ} : r ≤ p ↔ f.mag r ≤ y := by
  constructor
  · intro h
    exact (f.mag_strictMono.monotone h).trans hb.le
  · intro h
    exact Nat.lt_succ_iff.1 (f.mag_strictMono.lt_iff_lt.1 (h.trans_lt hb.lt))

include hf hb

/-- The mode takes the pattern of infinity exactly when the rounding with an unbounded exponent exceeds the largest finite number. -/
theorem Fmt.Brackets.inf_le_pick (mode : RMode) (neg : Bool) :
    f.inf ≤ f.pick mode neg y p ↔ match mode with
      | .rn => f.mag (f.inf - 1) + f.mag f.inf ≤ 2 * y
      | .rz => f.mag f.inf ≤ y
      | .ru => if neg then f.mag f.inf ≤ y else f.mag (f.inf - 1) < y
      | .rd => if neg then f.mag (f.inf - 1) < y else f.mag f.inf ≤ y := by
  have hpos : 0 < f.inf := (Nat.zero_le _).trans_lt hf.unit_lt_inf
  have hodd : (f.inf - 1) % 2 = 1 := by have := hf.even_inf; omega
  have hup : ∀ b : Bool, f.inf ≤ p + b.toNat ↔ f.inf ≤ p ∨ (p = f.inf - 1 ∧ b = true) := by
    intro b
    cases b <;> simp only [Bool.toNat_false, Bool.toNat_true, Bool.false_eq_true, and_false, or_false, and_true, Nat.add_zero]
    all_goals omega
  have haway : f.inf ≤ p ∨ (p = f.inf - 1 ∧ f.mag p ≠ y) ↔ f.mag (f.inf - 1) < y := by
    constructor
    · rintro (h | ⟨rfl, h⟩)
      · exact (f.mag_strictMono (show f.inf - 1 < p by omega)).trans_le hb.le
      · exact lt_of_le_of_ne hb.le h
    · intro h
      have := hb.le_iff.2 h.le
      rcases Nat.lt_or_ge p f.inf with hlt | hge
      · obtain rfl : p = f.inf - 1 := by omega
        exact .inr ⟨rfl, h.ne⟩
      · exact .inl hge
  have hstop : f.inf ≤ p ↔ f.mag f.inf ≤ y := hb.le_iff
  rw [Fmt.pick, hup]
  cases mode with
  | rz => simpa [roundsUp] using hstop
  | ru =>
    cases neg with
    | false => simpa [roundsUp] using haway
    | true => simpa [roundsUp] using hstop
  | rd =>
    cases neg with
    | false => simpa [roundsUp] using hstop
    | true => simpa [roundsUp] using haway
  | rn =>
    have hmono := f.mag_strictMono (show f.inf - 1 < f.inf by omega)
    simp only [roundsUp, Bool.or_eq_true, Bool.and_eq_true, decide_eq_true_eq]
    constructor
    · rintro (h | ⟨rfl, h⟩)
      · have := hb.le_iff.1 h
        linarith
      · rw [Nat.sub_add_cancel hpos] at h
        rcases h with h | ⟨h, -⟩ <;> linarith
    · intro h
      rcases Nat.lt_or_ge p f.inf with hlt | hge
      · have hge := hb.le_iff.2 (show f.mag (f.inf - 1) ≤ y by linarith)
        obtain rfl : p = f.inf - 1 := by omega
        refine .inr ⟨rfl, ?_⟩
        rw [Nat.sub_add_cancel hpos]
        exact h.lt_or_eq.imp_right fun h => ⟨h.symm, hodd⟩
      · exact .inl hge

end

/-- A number overflows exactly when its magnitude takes the pattern of infinity. -/
theorem Fmt.Proper.overflows_iff {f : Fmt} (hf : f.Proper) (mode : RMode) (neg : Bool) {p : ℕ} {y : ℚ} (hy : 0 < y) (hb : f.Brackets p y) :
    f.Overflows mode ((if neg then -1 else 1) * y) ↔ f.inf ≤ f.pick mode neg y p := by
  have hmax : f.rat f.maxFin = f.mag (f.inf - 1) := by
    have hpos : 0 < f.inf := (Nat.zero_le _).trans_lt hf.unit_lt_inf
    have hlt : f.inf - 1 < f.signBit := by have := hf.inf_lt_signBit; omega
    have hfin : f.Finite f.maxFin := ⟨by unfold Fmt.maxFin; omega, by rw [Fmt.maxFin, Nat.mod_eq_of_lt hlt]; omega⟩
    rw [Fmt.rat_eq hfin, Fmt.maxFin, Nat.div_eq_of_lt hlt, Nat.mod_eq_of_lt hlt]
    simp
  have hneg : ¬ 0 ≤ -y := by linarith
  rw [hb.inf_le_pick hf, hf.mag_inf]
  cases mode with
  | rn =>
    have habs : |(if neg then -1 else 1) * y| = y := by cases neg <;> simp [abs_of_pos hy]
    have hmid := hf.mid_maxFin
    rw [hf.mag_inf] at hmid
    simp only [Fmt.Overflows, habs, hmid]
    constructor <;> intro h <;> linarith
  | rz =>
    have habs : |(if neg then -1 else 1) * y| = y := by cases neg <;> simp [abs_of_pos hy]
    simp only [Fmt.Overflows, habs]
    exact Iff.rfl
  | ru => cases neg <;> simp [Fmt.Overflows, hmax, hy.le, hneg, zpow_add_one₀, pow_succ]
  | rd => cases neg <;> simp [Fmt.Overflows, hmax, hy.le, hneg, zpow_add_one₀, pow_succ]

/-! ### The number that the mode names -/

section
variable {f : Fmt} {p : ℕ} {y : ℚ} (hb : f.Brackets p y)
include hb

/-- Away from zero: the least magnitude at or above the number. -/
theorem Fmt.Brackets.ceil {mode : RMode} {neg : Bool} (hup : roundsUp mode neg (decide (p % 2 = 1)) (f.mag p) (f.mag (p + 1)) y = decide (f.mag p ≠ y)) :
    y ≤ f.mag (f.pick mode neg y p) ∧ ∀ r, y ≤ f.mag r → f.mag (f.pick mode neg y p) ≤ f.mag r := by
  rw [Fmt.pick, hup]
  by_cases h : f.mag p = y
  · simp [h]
  · refine ⟨by simpa [h] using hb.lt.le, fun r hr => ?_⟩
    have hlt : p < r := f.mag_strictMono.lt_iff_lt.1 (lt_of_lt_of_le (lt_of_le_of_ne hb.le h) hr)
    simpa [h] using f.mag_strictMono.monotone hlt

/-- Towards zero: the largest magnitude at or below the number. -/
theorem Fmt.Brackets.floor {mode : RMode} {neg : Bool} (hup : roundsUp mode neg (decide (p % 2 = 1)) (f.mag p) (f.mag (p + 1)) y = false) :
    f.mag (f.pick mode neg y p) ≤ y ∧ ∀ r, f.mag r ≤ y → f.mag r ≤ f.mag (f.pick mode neg y p) := by
  rw [Fmt.pick, hup]
  exact ⟨hb.le, fun r hr => f.mag_strictMono.monotone (hb.le_iff.2 hr)⟩

/-- To nearest: no magnitude is nearer, and of two that are as near the even pattern is taken. -/
theorem Fmt.Brackets.nearest (neg : Bool) (r : ℕ) :
    |f.mag (f.pick .rn neg y p) - y| ≤ |f.mag r - y|
      ∧ (|f.mag (f.pick .rn neg y p) - y| = |f.mag r - y| → f.mag r ≠ f.mag (f.pick .rn neg y p) → f.pick .rn neg y p % 2 = 0) := by
  have hlo := hb.le
  have hhi := hb.lt
  have hside : f.mag r ≤ f.mag p ∨ f.mag (p + 1) ≤ f.mag r := (Nat.lt_or_ge p r).symm.imp (f.mag_strictMono.monotone ·) (f.mag_strictMono.monotone ·)
  cases hup : roundsUp .rn neg (decide (p % 2 = 1)) (f.mag p) (f.mag (p + 1)) y with
  | false =>
    have hp : f.pick .rn neg y p = p := by simp [Fmt.pick, hup]
    simp only [roundsUp, Bool.or_eq_false_iff, Bool.and_eq_false_iff, decide_eq_false_iff_not, not_lt] at hup
    obtain ⟨hmid, htie⟩ := hup
    rw [hp, abs_sub_comm, abs_of_nonneg (by linarith : 0 ≤ y - f.mag p)]
    rcases hside with h | h
    · rw [abs_sub_comm, abs_of_nonneg (by linarith : 0 ≤ y - f.mag r)]
      exact ⟨by linarith, fun he hne => absurd (by linarith) hne⟩
    · rw [abs_of_nonneg (by linarith : 0 ≤ f.mag r - y)]
      refine ⟨by linarith, fun he _ => ?_⟩
      have hodd := htie.resolve_left (not_not.2 (by linarith))
      omega
  | true =>
    have hp : f.pick .rn neg y p = p + 1 := by simp [Fmt.pick, hup]
    simp only [roundsUp, Bool.or_eq_true, Bool.and_eq_true, decide_eq_true_eq] at hup
    have hmid : f.mag p + f.mag (p + 1) ≤ 2 * y := hup.elim le_of_lt fun h => h.1.ge
    rw [hp, abs_of_nonneg (by linarith : 0 ≤ f.mag (p + 1) - y)]
    rcases hside with h | h
    · rw [abs_sub_comm, abs_of_nonneg (by linarith : 0 ≤ y - f.mag r)]
      refine ⟨by linarith, fun he _ => ?_⟩
      obtain ⟨-, hodd⟩ := hup.resolve_left (by linarith)
      omega
    · rw [abs_of_nonneg (by linarith : 0 ≤ f.mag r - y)]
      exact ⟨by linarith, fun he hne => absurd (by linarith) hne⟩

end

/-! ### Signed numbers -/

/-- The pattern of a magnitude with a sign. -/
theorem Fmt.Proper.signed {f : Fmt} (hf : f.Proper) (neg : Bool) {r : ℕ} (hr : r < f.inf) :
    f.Finite ((if neg then f.signBit else 0) + r) ∧ ((if neg then f.signBit else 0) + r) % f.signBit = r
      ∧ ((if neg then f.signBit else 0) + r) / f.signBit = (if neg then 1 else 0)
      ∧ f.rat ((if neg then f.signBit else 0) + r) = (if neg then -1 else 1) * f.mag r := by
  have hlt := hr.trans hf.inf_lt_signBit
  have hmod : ((if neg then f.signBit else 0) + r) % f.signBit = r := by cases neg <;> simp [Nat.mod_eq_of_lt hlt]
  have hdiv : ((if neg then f.signBit else 0) + r) / f.signBit = (if neg then 1 else 0) := by
    cases neg
    · simpa using Nat.div_eq_of_lt hlt
    · simp [Nat.add_div_left _ (by omega : 0 < f.signBit), Nat.div_eq_of_lt hlt]
  have hfin : f.Finite ((if neg then f.signBit else 0) + r) := ⟨by cases neg <;> simp <;> omega, by rwa [hmod]⟩
  refine ⟨hfin, hmod, hdiv, ?_⟩
  rw [Fmt.rat_eq hfin, hmod, hdiv]
  cases neg <;> simp

/-- A finite pattern's number is its magnitude or the opposite. -/
theorem Fmt.Finite.rat_cases {f : Fmt} {x : ℕ} (h : f.Finite x) :
    f.rat x = f.mag (x % f.signBit) ∨ f.rat x = -f.mag (x % f.signBit) := by
  rw [Fmt.rat_eq h]
  split_ifs <;> simp

/-- The distance of two signed numbers is at least that of their magnitudes, and more where the signs differ. -/
theorem dist_of_signed {a b : ℚ} (ha : 0 ≤ a) (hb : 0 < b) (neg : Bool) {x : ℚ} (hx : x = a ∨ x = -a) :
    x = (if neg then -1 else 1) * a ∧ |x - (if neg then -1 else 1) * b| = |a - b| ∨ |a - b| < |x - (if neg then -1 else 1) * b| := by
  rcases ha.eq_or_lt with rfl | ha
  · left
    obtain rfl : x = 0 := by simpa using hx
    cases neg <;> simp
  have hsum : |a - b| < a + b := abs_lt.2 ⟨by linarith, by linarith⟩
  have hab : |(-a : ℚ) - b| = a + b := by rw [← abs_neg, abs_of_pos (by linarith : 0 < -(-a - b))]; ring
  have hab' : |a + b| = a + b := abs_of_pos (by linarith)
  have hswap : |(-a : ℚ) + b| = |a - b| := by rw [← abs_neg]; congr 1; ring
  cases neg <;> rcases hx with rfl | rfl
  · exact .inl (by simp)
  · exact .inr (by simpa [hab] using hsum)
  · exact .inr (by simpa [hab'] using hsum)
  · exact .inl (by simp [hswap])

/-- The pattern taken is the rounding of the signed number. -/
theorem Fmt.Proper.nearest_signed {f : Fmt} (hf : f.Proper) (mode : RMode) (neg : Bool) {p : ℕ} {y : ℚ} (hy : 0 < y) (hb : f.Brackets p y)
    (hr : f.pick mode neg y p < f.inf) :
    f.Nearest mode ((if neg then -1 else 1) * y) ((if neg then f.signBit else 0) + f.pick mode neg y p) := by
  obtain ⟨-, hmod, -, hrat⟩ := hf.signed neg hr
  have hnn := f.mag_nonneg (f.pick mode neg y p)
  unfold Fmt.Nearest
  cases mode with
  | rn =>
    intro v hv
    obtain ⟨hle, htie⟩ := hb.nearest neg (v % f.signBit)
    have hsame : |f.rat ((if neg then f.signBit else 0) + f.pick .rn neg y p) - (if neg then -1 else 1) * y| = |f.mag (f.pick .rn neg y p) - y| := by
      rw [hrat, ← mul_sub, abs_mul]
      cases neg <;> simp
    have hpar : ((if neg then f.signBit else 0) + f.pick .rn neg y p) % 2 = f.pick .rn neg y p % 2 := by
      have := hf.even_signBit
      split_ifs <;> omega
    rw [hsame, hpar]
    rcases dist_of_signed (f.mag_nonneg _) hy neg hv.rat_cases with ⟨hval, hdist⟩ | hdist
    · rw [hdist]
      refine ⟨hle, fun he hne => htie he fun h => hne ?_⟩
      rw [hval, hrat, h]
    · exact ⟨hle.trans hdist.le, fun he => absurd he (hle.trans_lt hdist).ne⟩
  | rz =>
    obtain ⟨hle, hmax⟩ := hb.floor (mode := .rz) (neg := neg) rfl
    have habs : ∀ v, f.Finite v → |f.rat v| = f.mag (v % f.signBit) := by
      intro v hv
      rcases hv.rat_cases with h | h <;> rw [h] <;> simp [abs_of_nonneg (f.mag_nonneg _)]
    have hx : |(if neg then -1 else 1) * y| = y := by cases neg <;> simp [abs_of_pos hy]
    rw [hx, habs _ (hf.signed neg hr).1, hmod]
    exact ⟨hle, fun v hv h => habs v hv ▸ hmax _ (habs v hv ▸ h)⟩
  | ru =>
    rw [hrat]
    cases neg with
    | false =>
      obtain ⟨hge, hmin⟩ := hb.ceil (mode := .ru) (neg := false) (by simp [roundsUp])
      refine ⟨by simpa using hge, fun v hv h => ?_⟩
      have := f.mag_nonneg (v % f.signBit)
      rcases hv.rat_cases with h' | h' <;> rw [h'] at h ⊢ <;> simp at h ⊢
      · exact hmin _ h
      · linarith
    | true =>
      obtain ⟨hle, hmax⟩ := hb.floor (mode := .ru) (neg := true) (by simp [roundsUp])
      refine ⟨by simpa using hle, fun v hv h => ?_⟩
      have := f.mag_nonneg (v % f.signBit)
      rcases hv.rat_cases with h' | h' <;> rw [h'] at h ⊢ <;> simp at h ⊢
      · linarith
      · exact hmax _ h
  | rd =>
    rw [hrat]
    cases neg with
    | false =>
      obtain ⟨hle, hmax⟩ := hb.floor (mode := .rd) (neg := false) (by simp [roundsUp])
      refine ⟨by simpa using hle, fun v hv h => ?_⟩
      have := f.mag_nonneg (v % f.signBit)
      rcases hv.rat_cases with h' | h' <;> rw [h'] at h ⊢ <;> simp at h ⊢
      · exact hmax _ h
      · linarith
    | true =>
      obtain ⟨hge, hmin⟩ := hb.ceil (mode := .rd) (neg := true) (by simp [roundsUp])
      refine ⟨by simpa using hge, fun v hv h => ?_⟩
      have := f.mag_nonneg (v % f.signBit)
      rcases hv.rat_cases with h' | h' <;> rw [h'] at h ⊢ <;> simp at h ⊢
      · linarith
      · exact hmin _ h

/-! ### The statement -/

/-- What goes up was not exact. -/
theorem roundsUp_ne {mode : RMode} {neg odd : Bool} {lo hi y : ℚ} (h : lo < hi) (hup : roundsUp mode neg odd lo hi y = true) : lo ≠ y := by
  rintro rfl
  rw [roundsUp_self _ _ _ h] at hup
  exact absurd hup (by decide)

/-- The result is exact where the number is a pattern's. -/
theorem Fmt.Brackets.exact_iff {f : Fmt} {p : ℕ} {y : ℚ} (hb : f.Brackets p y) (mode : RMode) (neg : Bool) :
    f.mag (f.pick mode neg y p) = y ↔ f.mag p = y := by
  unfold Fmt.pick
  cases hup : roundsUp mode neg (decide (p % 2 = 1)) (f.mag p) (f.mag (p + 1)) y with
  | false => rfl
  | true => exact iff_of_false hb.lt.ne' (roundsUp_ne (f.mag_strictMono (Nat.lt_succ_self p)) hup)

/-- Settles O4: `roundFin_spec` gives the pattern at or below the number and whether the mode goes one up; every clause follows from the order
of the magnitudes. -/
theorem roundingMeetsR79 : Obligations.RoundingMeetsR79 := by
  unfold Obligations.RoundingMeetsR79
  intro f hstd mode neg m e hm x r fl hx hr
  have hf := Fmt.proper_of hstd
  have hy : (0 : ℚ) < m * 2 ^ e := by
    have := Nat.pos_of_ne_zero hm
    positivity
  obtain ⟨p, hb, hround⟩ := hf.roundFin_spec mode neg hm e
  rw [mul_assoc] at hx
  generalize (m * 2 ^ e : ℚ) = y at hx hy hb hround
  subst hx
  rw [hround, Fmt.roundMag] at hr
  have hover := hf.overflows_iff mode neg hy hb
  refine ⟨fun h => ?_, fun h => ?_⟩
  · simp only [if_pos (hover.1 h), Prod.mk.injEq] at hr
    obtain ⟨rfl, rfl⟩ := hr
    refine ⟨rfl, ?_⟩
    cases mode <;> cases neg <;> rfl
  · have hlt : f.pick mode neg y p < f.inf := not_le.1 (mt hover.2 h)
    simp only [if_neg (not_le.2 hlt), Prod.mk.injEq] at hr
    obtain ⟨rfl, rfl⟩ := hr
    obtain ⟨hfin, hmod, hdiv, hrat⟩ := hf.signed neg hlt
    refine ⟨hfin, hf.nearest_signed mode neg hy hb hlt, hdiv, ?_⟩
    have hexact : f.rat ((if neg then f.signBit else 0) + f.pick mode neg y p) = (if neg then -1 else 1) * y ↔ f.mag p = y := by
      rw [hrat, mul_right_inj' (by cases neg <;> simp), hb.exact_iff]
    simp only [hexact, hmod]

end Sys2Proof.Machine
end

section
/-! SUPPORT. Values as numbers (03 R73, R75): the classes of patterns, and what sums, products, comparisons and integers of values are. -/
namespace Sys2Proof.Machine

/-! ### The classes of patterns -/

/-- A magnitude past the finite ones has the largest exponent field. -/
theorem Fmt.Proper.top_field {f : Fmt} (hf : f.Proper) {x : ℕ} (h : f.inf ≤ x % f.signBit) :
    x / 2 ^ f.mb % 2 ^ f.eb = 2 ^ f.eb - 1 ∧ x % 2 ^ f.mb = x % f.signBit - f.inf := by
  have h0 := f.half_pos
  have hs : f.signBit = 2 ^ f.mb * 2 ^ f.eb := by rw [Fmt.signBit, pow_add, Nat.mul_comm]
  have hlt : x % f.signBit < f.inf + 2 ^ f.mb := hf.signBit_eq ▸ Nat.mod_lt _ ((Nat.zero_le _).trans_lt hf.inf_lt_signBit)
  have hE : x % f.signBit / 2 ^ f.mb = x / 2 ^ f.mb % 2 ^ f.eb := by rw [hs, Nat.mod_mul_right_div_self]
  have hF : x % f.signBit % 2 ^ f.mb = x % 2 ^ f.mb := by rw [hs, Nat.mod_mul_right_mod]
  rw [← hE, ← hF]
  obtain ⟨k, hk⟩ := Nat.exists_eq_add_of_le h
  have hkM : k < 2 ^ f.mb := by omega
  rw [hk, Fmt.inf, Nat.add_comm, Nat.add_mul_div_right _ _ h0, Nat.div_eq_of_lt hkM, Nat.add_mul_mod_self_right, Nat.mod_eq_of_lt hkM]
  omega

theorem Fmt.Proper.val_inf {f : Fmt} (hf : f.Proper) {x : ℕ} (hx : x < 2 * f.signBit) (h : x % f.signBit = f.inf) :
    f.val x = .inf (decide (x / f.signBit = 1)) := by
  obtain ⟨hE, hF⟩ := hf.top_field h.ge
  have hdiv : x / f.signBit < 2 := Nat.div_lt_of_lt_mul (by omega)
  simp only [Fmt.val, hE, hF, h, Nat.sub_self, if_true, Nat.mod_eq_of_lt hdiv]

theorem Fmt.Proper.val_nan {f : Fmt} (hf : f.Proper) {x : ℕ} (h : f.inf < x % f.signBit) :
    f.val x = .nan (decide (x % f.signBit < f.nan)) := by
  obtain ⟨hE, hF⟩ := hf.top_field h.le
  have hne : ¬ x % f.signBit - f.inf = 0 := by omega
  have hiff : x % f.signBit - f.inf < 2 ^ (f.mb - 1) ↔ x % f.signBit < f.nan := by unfold Fmt.nan; omega
  simp only [Fmt.val, hE, hF, if_true, if_neg hne, hiff]

/-- The significand is zero at zero only, and short of the leading bit in subnormals. -/
theorem Fmt.sig_eq_zero (f : Fmt) (p : ℕ) : f.sig p = 0 ↔ p = 0 := by
  have h0 := f.half_pos
  unfold Fmt.sig
  split_ifs with h
  · rfl
  · constructor
    · omega
    · rintro rfl
      simp at h

theorem Fmt.sig_lt_iff (f : Fmt) (p : ℕ) : f.sig p < 2 ^ f.mb ↔ p < 2 ^ f.mb := by
  have h0 := f.half_pos
  unfold Fmt.sig
  split_ifs with h
  · rfl
  · rw [Nat.div_eq_zero_iff_lt h0] at h
    omega

theorem Fmt.sig_lt (f : Fmt) (p : ℕ) : f.sig p < 2 * 2 ^ f.mb := by
  have h0 := f.half_pos
  unfold Fmt.sig
  split_ifs with h
  · have := (Nat.div_eq_zero_iff_lt h0).1 h
    omega
  · have := Nat.mod_lt p h0
    omega

/-! ### Values over a common exponent -/

/-- The numerator of a value over 2 ^ k. -/
def alignAt (neg : Bool) (m : ℕ) (e k : ℤ) : ℤ := (if neg then -1 else 1) * (m * 2 ^ (e - k).toNat : ℕ)

theorem alignAt_rat (neg : Bool) (m : ℕ) {e k : ℤ} (h : k ≤ e) : (alignAt neg m e k : ℚ) * 2 ^ k = (FVal.fin neg m e).rat := by
  obtain ⟨j, hj⟩ := Int.eq_ofNat_of_zero_le (sub_nonneg.2 h)
  have he : e = j + k := by omega
  have h2 : (2 : ℚ) ≠ 0 := by norm_num
  rw [alignAt, hj, FVal.rat, he, zpow_add₀ h2]
  push_cast
  rw [Int.toNat_natCast, zpow_natCast]
  cases neg <;> simp <;> ring

/-- A value's number is zero exactly where its significand is. -/
theorem FVal.rat_fin_eq_zero (neg : Bool) (m : ℕ) (e : ℤ) : (FVal.fin neg m e).rat = 0 ↔ m = 0 := by
  have h : (2 : ℚ) ^ e ≠ 0 := by positivity
  cases neg <;> simp [FVal.rat, h]

/-! ### Sums and products -/

theorem sign_mul_natAbs (w : ℤ) : ((if decide (w < 0) then -1 else 1) * w.natAbs : ℚ) = w := by
  rw [← Int.cast_natCast]
  rcases lt_or_ge w 0 with hw | hw
  · simp [Int.ofNat_natAbs_of_nonpos hw.le, hw]
  · simp [abs_of_nonneg hw, not_lt.2 hw]

/-- The sum of finite values is exact; an exact zero has the sign that both share, or else that of the mode. -/
theorem fadd_fin (mode : RMode) (a b : Bool) (m n : ℕ) (e g : ℤ) :
    ∃ s k l, fadd mode (.fin a m e) (.fin b n g) = (.fin s k l, false) ∧ (FVal.fin s k l).rat = (FVal.fin a m e).rat + (FVal.fin b n g).rat
      ∧ (k = 0 → s = if a = b then a else decide (mode = .rd)) := by
  have hu := alignAt_rat a m (min_le_left e g)
  have hv := alignAt_rat b n (min_le_right e g)
  have hsum := add_mul (alignAt a m e (min e g) : ℚ) (alignAt b n g (min e g)) (2 ^ min e g)
  rw [hu, hv, ← Int.cast_add] at hsum
  by_cases h : alignAt a m e (min e g) + alignAt b n g (min e g) = 0
  · refine ⟨if a = b then a else decide (mode = .rd), 0, min e g, if_pos h, ?_, fun _ => rfl⟩
    rw [← hsum, h]
    simp [FVal.rat]
  · refine ⟨decide (alignAt a m e (min e g) + alignAt b n g (min e g) < 0), (alignAt a m e (min e g) + alignAt b n g (min e g)).natAbs, min e g,
      if_neg h, ?_, fun h' => absurd (Int.natAbs_eq_zero.1 h') h⟩
    rw [← hsum, FVal.rat, sign_mul_natAbs]

theorem fmul_fin (a b : Bool) (m n : ℕ) (e g : ℤ) : fmul (.fin a m e) (.fin b n g) = (.fin (a != b) (m * n) (e + g), false) := rfl

theorem FVal.rat_mul (a b : Bool) (m n : ℕ) (e g : ℤ) :
    (FVal.fin (a != b) (m * n) (e + g)).rat = (FVal.fin a m e).rat * (FVal.fin b n g).rat := by
  have h2 : (2 : ℚ) ≠ 0 := by norm_num
  rw [FVal.rat, FVal.rat, FVal.rat, zpow_add₀ h2]
  push_cast
  cases a <;> cases b <;> simp <;> ring

/-- A NaN gives a NaN, and is invalid where one of the two signals. -/
theorem fadd_nan (mode : RMode) {x y : FVal} (h : x.isNan = true ∨ y.isNan = true) : fadd mode x y = (.nan false, x.isSnan || y.isSnan) := by
  cases x <;> cases y <;> simp_all [fadd, FVal.isNan, FVal.isSnan]

theorem fmul_nan {x y : FVal} (h : x.isNan = true ∨ y.isNan = true) : fmul x y = (.nan false, x.isSnan || y.isSnan) := by
  cases x <;> cases y <;> simp_all [fmul, FVal.isNan, FVal.isSnan]

/-! ### Comparisons -/

theorem flt_fin (a b : Bool) (m n : ℕ) (e g : ℤ) : flt (.fin a m e) (.fin b n g) = true ↔ (FVal.fin a m e).rat < (FVal.fin b n g).rat := by
  have h2 : (0 : ℚ) < 2 ^ min e g := by positivity
  rw [← alignAt_rat a m (min_le_left e g), ← alignAt_rat b n (min_le_right e g), mul_lt_mul_iff_left₀ h2, Int.cast_lt]
  exact decide_eq_true_iff

/-- The order of FMIN and FMAX is that of the numbers where these differ. -/
theorem fltTotal_fin {a b : Bool} {m n : ℕ} {e g : ℤ} (h : (FVal.fin a m e).rat ≠ (FVal.fin b n g).rat) :
    fltTotal (.fin a m e) (.fin b n g) = true ↔ (FVal.fin a m e).rat < (FVal.fin b n g).rat := by
  rw [← flt_fin]
  cases m with
  | succ m => rfl
  | zero =>
    cases n with
    | succ n => rfl
    | zero => exact absurd (by simp [FVal.rat]) h

/-! ### Integers -/

/-- The integer taken is the number exactly where the number is one. -/
theorem nearestNat_eq_iff (mode : RMode) (neg : Bool) (y : ℚ) : (nearestNat mode neg y : ℚ) = y ↔ (⌊y⌋₊ : ℚ) = y := by
  unfold nearestNat
  cases hup : roundsUp mode neg (decide (⌊y⌋₊ % 2 = 1)) ⌊y⌋₊ (⌊y⌋₊ + 1) y with
  | false => simp
  | true =>
    have hlt := Nat.lt_floor_add_one y
    refine iff_of_false ?_ (roundsUp_ne (lt_add_one _) hup)
    push_cast
    simpa using hlt.ne'

/-- The integer taken, with the sign of the number, is the one that the mode selects. -/
theorem integerFor_nearestNat (mode : RMode) (neg : Bool) {y : ℚ} (hy : 0 ≤ y) :
    IntegerFor mode ((if neg then -1 else 1) * y) (if neg then -(nearestNat mode neg y : ℤ) else nearestNat mode neg y) := by
  have hlo := Nat.floor_le hy
  have hhi := Nat.lt_floor_add_one y
  have hfloor : ⌊y⌋ = ⌊y⌋₊ := (Int.natCast_floor_eq_floor hy).symm
  have hceil : ⌈y⌉ = (if (⌊y⌋₊ : ℚ) ≠ y then ⌊y⌋₊ + 1 else ⌊y⌋₊ : ℕ) := by
    rw [Int.ceil_eq_iff]
    split_ifs with h
    · push_cast
      exact ⟨by linarith [lt_of_le_of_ne hlo h], hhi.le⟩
    · push_cast
      rw [not_not.1 h]
      exact ⟨by linarith, le_rfl⟩
  have haway : ⌊y⌋₊ + (decide ((⌊y⌋₊ : ℚ) ≠ y)).toNat = (if (⌊y⌋₊ : ℚ) ≠ y then ⌊y⌋₊ + 1 else ⌊y⌋₊ : ℕ) := by split_ifs with h <;> simp [h]
  unfold nearestNat
  cases mode with
  | rz =>
    cases neg with
    | false => simp [IntegerFor, roundsUp, hy, hfloor]
    | true =>
      rcases hy.eq_or_lt with rfl | hy'
      · simp [IntegerFor, roundsUp]
      · simp [IntegerFor, roundsUp, not_le.2 hy', Int.ceil_neg, hfloor]
  | ru =>
    cases neg with
    | false => simp only [IntegerFor, roundsUp, Bool.not_false, Bool.true_and, Bool.false_eq_true, if_false, one_mul, hceil, haway]
    | true => simp [IntegerFor, roundsUp, Int.ceil_neg, hfloor]
  | rd =>
    cases neg with
    | false => simp [IntegerFor, roundsUp, hfloor]
    | true => simp only [IntegerFor, roundsUp, Bool.true_and, if_true, neg_mul, one_mul, Int.floor_neg, hceil, haway]
  | rn =>
    have hdist : ∀ n : ℕ, |(((if neg then -(n : ℤ) else n) : ℤ) : ℚ) - (if neg then -1 else 1) * y| = |(n : ℚ) - y| := by
      intro n
      cases neg
      · simp
      · rw [← abs_neg]
        congr 1
        push_cast
        simp
        ring
    have hpar : ∀ n : ℕ, (if neg then -(n : ℤ) else n) % 2 = 0 ↔ n % 2 = 0 := by
      intro n
      split_ifs <;> omega
    simp only [IntegerFor, hdist, hpar]
    cases hup : roundsUp .rn neg (decide (⌊y⌋₊ % 2 = 1)) ⌊y⌋₊ (⌊y⌋₊ + 1) y with
    | false =>
      simp only [roundsUp, Bool.or_eq_false_iff, Bool.and_eq_false_iff, decide_eq_false_iff_not, not_lt] at hup
      obtain ⟨hmid, htie⟩ := hup
      rw [Bool.toNat_false, Nat.add_zero, abs_sub_comm, abs_of_nonneg (by linarith : 0 ≤ y - ⌊y⌋₊)]
      refine ⟨by linarith, fun h => ?_⟩
      have hodd := htie.resolve_left (not_not.2 (by linarith))
      omega
    | true =>
      simp only [roundsUp, Bool.or_eq_true, Bool.and_eq_true, decide_eq_true_eq] at hup
      have hmid : (⌊y⌋₊ : ℚ) + (⌊y⌋₊ + 1) ≤ 2 * y := hup.elim le_of_lt fun h => h.1.ge
      rw [Bool.toNat_true]
      push_cast
      rw [abs_of_nonneg (by linarith : 0 ≤ (⌊y⌋₊ : ℚ) + 1 - y)]
      refine ⟨by linarith, fun h => ?_⟩
      obtain ⟨-, hodd⟩ := hup.resolve_left (by linarith)
      omega

/-- `toIntegral` takes the integer of the number, whatever its exponent. -/
theorem toIntegral_eq (mode : RMode) (neg : Bool) (m : ℕ) (e : ℤ) :
    toIntegral mode neg m e = (nearestNat mode neg (m * 2 ^ e), decide ((⌊(m * 2 ^ e : ℚ)⌋₊ : ℚ) ≠ m * 2 ^ e)) := by
  unfold toIntegral
  rw [roundAt_eq, sub_zero]
  split_ifs with h
  · rcases Nat.eq_zero_or_pos m with rfl | hm
    · simp
    · have hm0 : (0 : ℚ) < m := by exact_mod_cast hm
      have small : ∀ e' : ℤ, bitLen m + e' < -2 → 0 < (m * 2 ^ e' : ℚ) ∧ (m * 2 ^ e' : ℚ) < 1 / 2 ∧ ⌊(m * 2 ^ e' : ℚ)⌋₊ = 0 := by
        intro e' he'
        have hlt : (m * 2 ^ e' : ℚ) < 1 / 2 := (mul_zpow_lt m e').trans_le
          ((zpow_le_zpow_right₀ (by norm_num) (show (bitLen m + e' : ℤ) ≤ -1 by omega)).trans (by norm_num))
        exact ⟨by positivity, hlt, Nat.floor_eq_zero.2 (by linarith)⟩
      obtain ⟨h1, h2, h3⟩ := small (-3 - bitLen m) (by omega)
      obtain ⟨h4, h5, h6⟩ := small e h
      rw [nearestNat_small _ _ h1 h2, nearestNat_small _ _ h4 h5, h3, h6]
      simp [h1.ne, h4.ne]
  · rfl

end Sys2Proof.Machine
end

section
/-! SUPPORT. Sums, products and fused products of patterns, special operands, conversions and comparisons (O5; 03 R75, R80 to R83, 04 R121 to R125). -/
namespace Sys2Proof.Machine

/-! ### Sums and products of patterns -/

theorem Fmt.round_zero (f : Fmt) (mode : RMode) (neg : Bool) (e : ℤ) : f.round mode (.fin neg 0 e) = (if neg then f.signBit else 0, 0#5) := rfl

theorem Fmt.round_fin (f : Fmt) (mode : RMode) (neg : Bool) {m : ℕ} (hm : m ≠ 0) (e : ℤ) :
    f.round mode (.fin neg m e) = f.roundFin mode neg m e := if_neg hm

theorem Fmt.add_of {f : Fmt} {mode : RMode} {x y : ℕ} {v : FVal} {nv : Bool} (h : fadd mode (f.val x) (f.val y) = (v, nv)) :
    f.add mode x y = ((f.round mode v).1, (f.round mode v).2 ||| nvIf nv) := by simp only [Fmt.add, h]

theorem Fmt.mul_of {f : Fmt} {mode : RMode} {x y : ℕ} {v : FVal} {nv : Bool} (h : fmul (f.val x) (f.val y) = (v, nv)) :
    f.mul mode x y = ((f.round mode v).1, (f.round mode v).2 ||| nvIf nv) := by simp only [Fmt.mul, h]

@[simp] theorem nvIf_false : nvIf false = 0#5 := rfl
@[simp] theorem nvIf_true : nvIf true = 0b10000#5 := rfl
theorem nvIf_eq (b : Bool) : nvIf b = if b then 0b10000#5 else 0#5 := rfl

/-- A finite value that is not zero is rounded once. -/
theorem Fmt.round_exact (f : Fmt) (mode : RMode) {neg : Bool} {m : ℕ} {e : ℤ} {q : ℚ} (hq : (FVal.fin neg m e).rat = q) (h : q ≠ 0) :
    ∃ (neg' : Bool) (m' : ℕ) (e' : ℤ), m' ≠ 0 ∧ q = (if neg' then -1 else 1) * m' * 2 ^ e'
      ∧ ((f.round mode (.fin neg m e)).1, (f.round mode (.fin neg m e)).2 ||| nvIf false) = f.roundFin mode neg' m' e' := by
  have hm : m ≠ 0 := fun hm => h (hq.symm.trans ((FVal.rat_fin_eq_zero ..).2 hm))
  exact ⟨neg, m, e, hm, hq.symm, by simp [f.round_fin mode neg hm]⟩

/-- The sign bit of a finite pattern. -/
theorem Fmt.Finite.sign {f : Fmt} {x : ℕ} (h : f.Finite x) : x / f.signBit = 0 ∨ x / f.signBit = 1 := by
  have : x / f.signBit < 2 := Nat.div_lt_of_lt_mul (Nat.mul_comm 2 _ ▸ h.1)
  exact Nat.le_one_iff_eq_zero_or_eq_one.1 (Nat.lt_succ_iff.1 this)

theorem Fmt.Finite.val {f : Fmt} {x : ℕ} (h : f.Finite x) :
    f.val x = .fin (decide (x / f.signBit = 1)) (f.sig (x % f.signBit)) (f.exp (x % f.signBit)) := Fmt.val_eq h.1 h.2

section
variable {f : Fmt} {x y z : ℕ}

theorem Fmt.add_finite (mode : RMode) (hx : f.Finite x) (hy : f.Finite y) :
    (f.rat x + f.rat y ≠ 0 → ∃ (neg : Bool) (m : Nat) (e : Int), m ≠ 0 ∧ f.rat x + f.rat y = (if neg then -1 else 1) * m * 2 ^ e
        ∧ f.add mode x y = f.roundFin mode neg m e)
      ∧ (f.rat x + f.rat y = 0 → f.add mode x y =
          (if x / f.signBit = 1 ∧ y / f.signBit = 1 ∨ (x / f.signBit ≠ y / f.signBit ∧ mode = .rd) then f.signBit else 0, 0#5)) := by
  obtain ⟨s, k, l, hadd, hrat, hsign⟩ := fadd_fin mode (decide (x / f.signBit = 1)) (decide (y / f.signBit = 1)) (f.sig (x % f.signBit))
    (f.sig (y % f.signBit)) (f.exp (x % f.signBit)) (f.exp (y % f.signBit))
  rw [← hx.val, ← hy.val] at hadd hrat
  rw [Fmt.add_of hadd]
  refine ⟨f.round_exact mode hrat, fun h => ?_⟩
  obtain rfl : k = 0 := (FVal.rat_fin_eq_zero s k l).1 (hrat.trans h)
  rw [hsign rfl, f.round_zero]
  rcases hx.sign with hx | hx <;> rcases hy.sign with hy | hy <;> simp [hx, hy]

theorem Fmt.mul_finite (mode : RMode) (hx : f.Finite x) (hy : f.Finite y) :
    (f.rat x * f.rat y ≠ 0 → ∃ (neg : Bool) (m : Nat) (e : Int), m ≠ 0 ∧ f.rat x * f.rat y = (if neg then -1 else 1) * m * 2 ^ e
        ∧ f.mul mode x y = f.roundFin mode neg m e)
      ∧ (f.rat x * f.rat y = 0 → f.mul mode x y = (if x / f.signBit = y / f.signBit then 0 else f.signBit, 0#5)) := by
  have hrat : (FVal.fin (decide (x / f.signBit = 1) != decide (y / f.signBit = 1)) (f.sig (x % f.signBit) * f.sig (y % f.signBit))
      (f.exp (x % f.signBit) + f.exp (y % f.signBit))).rat = f.rat x * f.rat y := by
    rw [FVal.rat_mul, ← hx.val, ← hy.val]
    rfl
  rw [Fmt.mul_of (by rw [hx.val, hy.val, fmul_fin])]
  refine ⟨f.round_exact mode hrat, fun h => ?_⟩
  rw [(FVal.rat_fin_eq_zero _ _ _).1 (hrat.trans h), f.round_zero]
  rcases hx.sign with hx | hx <;> rcases hy.sign with hy | hy <;> simp [hx, hy]

theorem FVal.neg_fin (a b : Bool) (m : ℕ) (e : ℤ) : (if b then (FVal.fin a m e).neg else .fin a m e) = .fin (a != b) m e := by
  cases b <;> simp [FVal.neg]

theorem FVal.rat_signed (a b : Bool) (m : ℕ) (e : ℤ) : (FVal.fin (a != b) m e).rat = (if b then -1 else 1) * (FVal.fin a m e).rat := by
  cases a <;> cases b <;> simp [FVal.rat]

theorem Fmt.fma_finite (mode : RMode) (hx : f.Finite x) (hy : f.Finite y) (hz : f.Finite z) (np nc : Bool)
    (h : (if np then -1 else 1) * (f.rat x * f.rat y) + (if nc then -1 else 1) * f.rat z ≠ 0) :
    ∃ (neg : Bool) (m : Nat) (e : Int), m ≠ 0
      ∧ (if np then -1 else 1) * (f.rat x * f.rat y) + (if nc then -1 else 1) * f.rat z = (if neg then -1 else 1) * m * 2 ^ e
      ∧ f.fma mode np nc x y z = f.roundFin mode neg m e := by
  obtain ⟨s, k, l, hadd, hrat, -⟩ := fadd_fin mode ((decide (x / f.signBit = 1) != decide (y / f.signBit = 1)) != np) (decide (z / f.signBit = 1) != nc)
    (f.sig (x % f.signBit) * f.sig (y % f.signBit)) (f.sig (z % f.signBit)) (f.exp (x % f.signBit) + f.exp (y % f.signBit)) (f.exp (z % f.signBit))
  rw [FVal.rat_signed _ np, FVal.rat_signed _ nc, FVal.rat_mul, ← hx.val, ← hy.val, ← hz.val] at hrat
  have hfma : f.fma mode np nc x y z = ((f.round mode (.fin s k l)).1, (f.round mode (.fin s k l)).2 ||| nvIf false) := by
    simp only [Fmt.fma, hx.val, hy.val, hz.val, fmul_fin, FVal.neg_fin, hadd, Bool.or_self]
  rw [hfma]
  exact f.round_exact mode hrat h

end

/-! ### Integers of values -/

/-- `toIntegral` with the sign of the value is the integer that the mode selects, and tells whether it differs. -/
theorem toIntegral_spec (mode : RMode) (neg : Bool) (m : ℕ) (e : ℤ) :
    IntegerFor mode (FVal.fin neg m e).rat (if neg then -((toIntegral mode neg m e).1 : ℤ) else (toIntegral mode neg m e).1)
      ∧ ((toIntegral mode neg m e).2 = false ↔
          (((if neg then -((toIntegral mode neg m e).1 : ℤ) else (toIntegral mode neg m e).1) : ℤ) : ℚ) = (FVal.fin neg m e).rat) := by
  have hy : (0 : ℚ) ≤ m * 2 ^ e := by positivity
  rw [toIntegral_eq, FVal.rat, mul_assoc]
  dsimp only
  refine ⟨integerFor_nearestNat mode neg hy, ?_⟩
  rw [decide_eq_false_iff_not, not_not, ← nearestNat_eq_iff mode neg]
  cases neg <;> simp

theorem fcvtInt_finite (mode : RMode) {lo hi : ℤ} (hlo : lo ≤ 0) (hhi : 0 < hi) {x : ℕ} (hx : f32.Finite x) :
    ∃ n : ℤ, IntegerFor mode (f32.rat x) n ∧ fcvtInt mode lo hi x =
      if hi < n then (hi, 0b10000#5) else if n < lo then (lo, 0b10000#5) else (n, if (n : ℚ) = f32.rat x then 0#5 else 0b00001#5) := by
  have hval := hx.val
  rw [show f32.rat x = (f32.val x).rat from rfl, fcvtInt]
  rw [hval]
  generalize decide (x / f32.signBit = 1) = neg, f32.sig (x % f32.signBit) = m, f32.exp (x % f32.signBit) = e
  obtain ⟨hint, hix⟩ := toIntegral_spec mode neg m e
  refine ⟨_, hint, ?_⟩
  by_cases hm : m = 0
  · have hr : toIntegral mode neg m e = (0, false) := by simp [hm, toIntegral_eq]
    rw [hr] at hix ⊢
    simp [hm, FVal.rat, hhi.not_gt, hlo.not_gt, flNone]
  · cases h : (toIntegral mode neg m e).2 with
    | false => simp only [if_neg hm, h, if_pos (hix.1 h)]; rfl
    | true => simp only [if_neg hm, h, if_neg (fun h' => absurd (h.symm.trans (hix.2 h')) (by decide))]; rfl

/-! ### Numbers that are patterns -/

/-- A magnitude that is a finite pattern's is rounded to that pattern, and exactly. -/
theorem Fmt.Proper.roundFin_pattern {f : Fmt} (hf : f.Proper) (mode : RMode) (neg : Bool) {m : ℕ} (hm : m ≠ 0) (e : ℤ) {p : ℕ} (hp : p < f.inf)
    (h : f.mag p = m * 2 ^ e) : f.roundFin mode neg m e = ((if neg then f.signBit else 0) + p, 0#5) := by
  obtain ⟨q, hq, hround⟩ := hf.roundFin_spec mode neg hm e
  have hlt := f.mag_strictMono (Nat.lt_succ_self p)
  obtain rfl := hq.unique ⟨h.le, h ▸ hlt⟩
  have hpick : f.pick mode neg (m * 2 ^ e) q = q := by rw [← h, Fmt.pick, roundsUp_self _ _ _ hlt]; rfl
  rw [hround, Fmt.roundMag, hpick, if_neg (not_le.2 hp), if_pos h]

/-- The integers up to 2 ^ 23 are finite FP32 patterns. -/
theorem f32_nat_pattern {n : ℕ} (hn : n ≤ 2 ^ 23) : ∃ p < f32.inf, f32.mag p = n := by
  rcases Nat.eq_zero_or_pos n with rfl | h0
  · exact ⟨0, by decide, by simp⟩
  have hlog : Nat.log 2 n ≤ 23 := (Nat.log_mono_right hn).trans (by decide)
  have hlo := Nat.pow_log_le_self 2 h0.ne'
  have hhi := Nat.lt_pow_succ_log_self (b := 2) (by decide) n
  obtain ⟨j, hj⟩ := Nat.exists_eq_add_of_le' hlog
  have hM : 2 ^ f32.mb = 2 ^ j * 2 ^ Nat.log 2 n := by rw [← pow_add, ← hj]; rfl
  have hs : f32.Split (126 + Nat.log 2 n) (n * 2 ^ j) := by
    refine ⟨.inr ?_, ?_⟩
    · rw [hM, Nat.mul_comm]
      exact Nat.mul_le_mul_right _ hlo
    · rw [hM, Nat.mul_comm n, Nat.mul_left_comm, ← pow_succ']
      exact Nat.mul_le_mul_left _ hhi.le
  refine ⟨_, ?_, hs.mag_eq.trans ?_⟩
  · have hle := hs.le
    have hinf : f32.inf = 255 * 2 ^ f32.mb := rfl
    have hmul : (126 + Nat.log 2 n) * 2 ^ f32.mb ≤ (126 + 23) * 2 ^ f32.mb := Nat.mul_le_mul_right _ (by omega)
    have hpos := f32.half_pos
    omega
  · have hq : ((126 + Nat.log 2 n : ℕ) : ℤ) + f32.qmin = -j := by
      rw [show f32.qmin = -149 from rfl]
      push_cast
      omega
    rw [hq]
    push_cast
    rw [mul_assoc, zpow_neg, zpow_natCast, mul_inv_cancel₀ (by positivity), mul_one]

/-- The integer that a mode selects for a finite FP32 number is a finite FP32 number. -/
theorem f32_integral_pattern (mode : RMode) (neg : Bool) {p : ℕ} (hp : p < f32.inf) :
    ∃ q < f32.inf, f32.mag q = (toIntegral mode neg (f32.sig p) (f32.exp p)).1 := by
  rw [toIntegral_eq]
  rcases le_or_gt 0 (f32.exp p) with he | he
  · refine ⟨p, hp, ?_⟩
    obtain ⟨k, hk⟩ := Int.eq_ofNat_of_zero_le he
    have hy : (f32.sig p * 2 ^ f32.exp p : ℚ) = (f32.sig p * 2 ^ k : ℕ) := by rw [hk]; push_cast; norm_cast
    rw [Fmt.mag, hy, nearestNat_natCast]
  · refine f32_nat_pattern ?_
    have hsig : (f32.sig p : ℚ) < 2 ^ 24 := by exact_mod_cast f32.sig_lt p
    have hpow : (2 : ℚ) ^ f32.exp p ≤ 2 ^ (-1 : ℤ) := zpow_le_zpow_right₀ (by norm_num) (by omega)
    have hy : (f32.sig p * 2 ^ f32.exp p : ℚ) < 2 ^ 23 := by
      have := mul_le_mul_of_nonneg_left hpow (Nat.cast_nonneg (α := ℚ) (f32.sig p))
      rw [zpow_neg_one] at this
      linarith
    have hfloor : ⌊(f32.sig p * 2 ^ f32.exp p : ℚ)⌋₊ < 2 ^ 23 := (Nat.floor_lt (by positivity)).2 (by exact_mod_cast hy)
    exact (Nat.add_le_add_left (Bool.toNat_le _) _).trans hfloor

theorem frnd_finite (mode : RMode) {x : ℕ} (hx : f32.Finite x) :
    (frnd mode x).2 = 0#5 ∧ f32.Finite (frnd mode x).1 ∧ (frnd mode x).1 / 2 ^ 31 = x / 2 ^ 31
      ∧ ∃ n : ℤ, IntegerFor mode (f32.rat x) n ∧ f32.rat (frnd mode x).1 = n := by
  have hs : f32.signBit = 2 ^ 31 := rfl
  have hval := hx.val
  set p := x % f32.signBit with hp
  obtain ⟨hint, -⟩ := toIntegral_spec mode (decide (x / f32.signBit = 1)) (f32.sig p) (f32.exp p)
  rw [← hval] at hint
  obtain ⟨q, hq, hmag⟩ := f32_integral_pattern mode (decide (x / f32.signBit = 1)) hx.2
  rw [← hp] at hmag
  have hfrnd : frnd mode x = ((if x / f32.signBit = 1 then f32.signBit else 0) + q, 0#5) := by
    rw [frnd, hval]
    by_cases hm : f32.sig p = 0
    · have hp0 := (f32.sig_eq_zero p).1 hm
      have hq0 : q = 0 := by
        refine f32.mag_strictMono.injective ?_
        rw [hmag, toIntegral_eq, hm]
        simp
      have hdm := Nat.div_add_mod x f32.signBit
      rw [← hp, hp0] at hdm
      simp only [if_pos hm, hq0, flNone]
      rcases hx.sign with h | h <;> rw [h] at hdm <;> simp [h] <;> omega
    · simp only [if_neg hm, flNone]
      congr 1
      by_cases hn : (toIntegral mode (decide (x / f32.signBit = 1)) (f32.sig p) (f32.exp p)).1 = 0
      · have hq0 : q = 0 := by
          refine f32.mag_strictMono.injective ?_
          rw [hmag, hn]
          simp
        rw [hn, hq0, f32.round_zero]
        simp
      · rw [f32.round_fin _ _ hn, f32_proper.roundFin_pattern _ _ hn 0 hq (by rw [hmag]; simp)]
        simp
  obtain ⟨hfin, -, hdiv, hrat⟩ := f32_proper.signed (decide (x / f32.signBit = 1)) hq
  simp only [decide_eq_true_eq] at hfin hdiv hrat
  rw [hfrnd, ← hs]
  refine ⟨rfl, hfin, ?_, _, hint, ?_⟩
  · rw [hdiv]
    rcases hx.sign with h | h <;> simp [h]
  · rw [hrat, hmag]
    split_ifs <;> simp_all

/-! ### Comparisons -/

/-- What each condition of FSET holds for, from the four relations of its operands. -/
theorem fcmp_order {a b : FVal} {lt eq gt un : Prop} (hun : (a.isNan || b.isNan) = true ↔ un) (hlt : flt a b = true ↔ lt) (hgt : flt b a = true ↔ gt)
    (heq : eq ↔ ¬ un ∧ ¬ lt ∧ ¬ gt) :
    (fcmpHolds .eq a b = true ↔ eq) ∧ (fcmpHolds .ne a b = true ↔ ¬ eq) ∧ (fcmpHolds .lt a b = true ↔ lt) ∧ (fcmpHolds .le a b = true ↔ lt ∨ eq)
      ∧ (fcmpHolds .gt a b = true ↔ gt) ∧ (fcmpHolds .ge a b = true ↔ gt ∨ eq) ∧ (fcmpHolds .un a b = true ↔ un) ∧ (fcmpHolds .ord a b = true ↔ ¬ un) := by
  have hfeq : feq a b = true ↔ eq := by
    rw [heq, ← hun, ← hlt, ← hgt, feq]
    cases a.isNan <;> cases b.isNan <;> simp
  have hunf : (!(a.isNan || b.isNan)) = true ↔ ¬ un := by rw [← hun]; simp
  have hne : ((a.isNan || b.isNan) || !feq a b) = true ↔ ¬ eq := by
    rw [Bool.or_eq_true, hun, Bool.not_eq_true', ← Bool.not_eq_true, hfeq, heq]
    tauto
  refine ⟨hfeq, hne, hlt, ?_, hgt, ?_, hun, hunf⟩
  · simp only [fcmpHolds, Bool.or_eq_true, hlt, hfeq]
  · simp only [fcmpHolds, Bool.or_eq_true, hgt, hfeq]

theorem flt_finite {x y : ℕ} (hx : f32.Finite x) (hy : f32.Finite y) : flt (f32.val x) (f32.val y) = true ↔ f32.rat x < f32.rat y := by
  rw [Fmt.rat, Fmt.rat, hx.val, hy.val, flt_fin]

/-- FMIN and FMAX of different finite numbers. -/
theorem min_max_finite {x y : ℕ} (hx : f32.Finite x) (hy : f32.Finite y) (h : f32.rat x < f32.rat y) :
    f32.min x y = (x, 0#5) ∧ f32.min y x = (x, 0#5) ∧ f32.max x y = (y, 0#5) ∧ f32.max y x = (y, 0#5) := by
  have hlt : fltTotal (f32.val x) (f32.val y) = true := by
    rw [hx.val, hy.val, fltTotal_fin] <;> rw [← hx.val, ← hy.val]
    · exact h
    · exact h.ne
  have hge : fltTotal (f32.val y) (f32.val x) = false := by
    rw [← Bool.not_eq_true, hx.val, hy.val, fltTotal_fin] <;> rw [← hx.val, ← hy.val]
    · exact h.le.not_gt
    · exact h.ne'
  have hxn : (f32.val x).isNan = false ∧ (f32.val x).isSnan = false := by rw [hx.val]; exact ⟨rfl, rfl⟩
  have hyn : (f32.val y).isNan = false ∧ (f32.val y).isSnan = false := by rw [hy.val]; exact ⟨rfl, rfl⟩
  simp [Fmt.min, Fmt.max, hxn, hyn, hlt, hge]

end Sys2Proof.Machine
end

section
/-! SUPPORT. The statement O5, clause by clause. -/
namespace Sys2Proof.Machine

/-! ### Special operands (R75, R80, R95, R122) -/

theorem f32_signBit : f32.signBit = 2 ^ 31 := rfl
theorem f32_inf : f32.inf = 0x7F800000 := rfl
theorem f32_nan : f32.nan = 0x7FC00000 := rfl

theorem f32_val_finite_neg {x : ℕ} (h : 0x80000000 < x) (h' : x < 0xFF800000) : ∃ m e, f32.val x = .fin true m e ∧ m ≠ 0 := by
  have hdiv : x / f32.signBit = 1 := by rw [f32_signBit]; omega
  have hmod : 0 < x % f32.signBit ∧ x % f32.signBit < f32.inf := by
    rw [f32_signBit, f32_inf]
    omega
  have hfin : f32.Finite x := ⟨by rw [f32_signBit]; omega, hmod.2⟩
  refine ⟨f32.sig (x % f32.signBit), f32.exp (x % f32.signBit), by simp [hfin.val, hdiv], ?_⟩
  rw [ne_eq, f32.sig_eq_zero]
  exact hmod.1.ne'

/-- What a NaN operand gives in the words of one source. -/
theorem nan_results (mode : RMode) {x : ℕ} {sig : Bool} (h : f32.val x = .nan sig) {r : FRes} (hr : r = (0x7FC00000, if (f32.val x).isSnan then 0b10000#5 else 0#5)) :
    frcp mode x = r ∧ frsq mode x = r ∧ fsqrt mode x = r ∧ fex2 mode x = r ∧ flg2 mode x = r ∧ fsin mode x = r ∧ fcos mode x = r
      ∧ ftanh mode x = r ∧ frnd mode x = r := by
  subst hr
  simp only [frcp, frsq, fsqrt, fex2, flg2, fsin, fcos, ftanh, frnd, h, FVal.isSnan, nvIf_eq, f32_nan, and_self]

/-- A negative operand is invalid in the words whose domain is that of the positive numbers. -/
theorem negative_results (mode : RMode) {x : ℕ} (h : 0x80000000 < x) (h' : x ≤ 0xFF800000) :
    frsq mode x = (0x7FC00000, 0b10000#5) ∧ fsqrt mode x = (0x7FC00000, 0b10000#5) ∧ flg2 mode x = (0x7FC00000, 0b10000#5) := by
  rcases h'.lt_or_eq with hlt | rfl
  · obtain ⟨m, e, hval, hm⟩ := f32_val_finite_neg h hlt
    simp only [frsq, fsqrt, flg2, hval, if_neg hm, if_true, flNV, f32_nan, and_self]
  · exact ⟨rfl, rfl, rfl⟩

theorem min_max_nan (x y : ℕ) :
    ((f32.val x).isNan = true → (f32.val y).isNan = false → (f32.min x y).1 = y ∧ (f32.max x y).1 = y)
      ∧ ((f32.val x).isNan = false → (f32.val y).isNan = true → (f32.min x y).1 = x ∧ (f32.max x y).1 = x)
      ∧ ((f32.val x).isNan = true → (f32.val y).isNan = true → (f32.min x y).1 = 0x7FC00000 ∧ (f32.max x y).1 = 0x7FC00000) := by
  refine ⟨fun hx hy => ?_, fun hx hy => ?_, fun hx hy => ?_⟩ <;> simp [Fmt.min, Fmt.max, hx, hy]
  rfl

/-! ### Conversions (R81 to R83, R124) -/

section
variable {f : Fmt} (hf : f.Proper) {g : Fmt} {mode : RMode} {x : ℕ} (hx : x < 2 * f.signBit)

theorem sign_iff (hx : x < 2 * f.signBit) : x / f.signBit = 1 ↔ f.signBit ≤ x := by
  rcases Nat.lt_or_ge x f.signBit with h | h
  · simp [Nat.div_eq_of_lt h, not_le.2 h]
  · refine iff_of_true ?_ h
    exact Nat.div_eq_of_lt_le (by omega) (by omega)

include hx

theorem fcvt_inf (hf : f.Proper) (h : x % f.signBit = f.inf) : fcvt f g mode x = ((if f.signBit ≤ x then g.signBit else 0) + g.inf, 0#5) := by
  simp only [fcvt, hf.val_inf hx h, Fmt.round, FVal.isSnan, nvIf_false, flNone, decide_eq_true_eq, sign_iff hx]
  rfl

theorem fcvt_zero (h : f.Finite x) (h0 : f.rat x = 0) : fcvt f g mode x = (if f.signBit ≤ x then g.signBit else 0, 0#5) := by
  have hval := h.val
  rw [Fmt.rat, hval, FVal.rat_fin_eq_zero] at h0
  rw [h0] at hval
  simp only [fcvt, hval, g.round_zero, FVal.isSnan, nvIf_false, decide_eq_true_eq, sign_iff hx]
  rfl

omit hx in
theorem fcvt_finite (h : f.Finite x) (h0 : f.rat x ≠ 0) :
    ∃ (neg : Bool) (m : Nat) (e : Int), m ≠ 0 ∧ f.rat x = (if neg then -1 else 1) * m * 2 ^ e ∧ fcvt f g mode x = g.roundFin mode neg m e := by
  have hrat : (FVal.fin (decide (x / f.signBit = 1)) (f.sig (x % f.signBit)) (f.exp (x % f.signBit))).rat = f.rat x := congrArg FVal.rat h.val.symm
  obtain ⟨neg, m, e, hm, hq, hround⟩ := g.round_exact mode hrat h0
  refine ⟨neg, m, e, hm, hq, ?_⟩
  rw [← hround]
  simp only [fcvt, h.val, FVal.isSnan]

omit hx in
theorem fcvt_nan (hf : f.Proper) (h : f.inf < x % f.signBit) : fcvt f g mode x = (g.nan, if x % f.signBit < f.nan then 0b10000#5 else 0#5) := by
  simp only [fcvt, hf.val_nan h, Fmt.round, FVal.isSnan, nvIf_eq, decide_eq_true_eq]
  split_ifs <;> rfl

end

theorem fclass_eq {x : ℕ} (hx : x < 2 ^ 32) {neg : Bool} (hn : x / 2 ^ 31 = (if neg then 1 else 0)) {y : ℕ} (hy : y = x % 2 ^ 31) :
    fclass x = if y = 0 then 2 ^ (if neg then 3 else 4) else if y < 2 ^ 23 then 2 ^ (if neg then 2 else 5)
      else if y < 0x7F800000 then 2 ^ (if neg then 1 else 6) else if y = 0x7F800000 then 2 ^ (if neg then 0 else 7)
      else if y < 0x7FC00000 then 2 ^ 8 else 2 ^ 9 := by
  have hs := f32_signBit
  have hinf := f32_inf
  have hx' : x < 2 * f32.signBit := hx
  have hneg : decide (x / f32.signBit = 1) = neg := by rw [hs, hn]; cases neg <;> rfl
  subst hy
  rw [← hs, ← hinf, fclass]
  rcases lt_trichotomy (x % f32.signBit) f32.inf with h | h | h
  · have hz := f32.sig_eq_zero (x % f32.signBit)
    have hsub := f32.sig_lt_iff (x % f32.signBit)
    rw [show f32.mb = 23 from rfl] at hsub
    simp only [Fmt.val_eq hx' h, hneg, hz, hsub, if_pos h]
    cases neg <;> rfl
  · have h0 : ¬ f32.inf = 0 := by decide
    have hsub : ¬ f32.inf < 2 ^ 23 := by decide
    simp only [f32_proper.val_inf hx' h, hneg, h, h0, hsub, lt_irrefl, if_false, if_true]
    cases neg <;> rfl
  · have h0 : ¬ x % f32.signBit = 0 := by omega
    have hsub : ¬ x % f32.signBit < 2 ^ 23 := by omega
    simp only [f32_proper.val_nan h, h0, hsub, h.not_gt, h.ne', if_false, decide_eq_true_eq]
    rfl

/-! ### The statement -/

/-- Settles O5: values of patterns are numbers, and each operation is exact on them up to its one rounding. -/
theorem floatResultsExact : Obligations.FloatResultsExact := by
  unfold Obligations.FloatResultsExact
  refine ⟨fun f hstd mode x y z => ?exact, fun mode x y => ?special, fun f g hf hg mode x hx => ?between, fun mode x hx => ?integers,
    fun mode n => ?fromInteger, fun x y => ?order⟩
  case exact =>
    refine ⟨fun hx hy => ?_, fun h => ?_, fun a hx hy => ?_, fun a hx hy => ?_, fun a hx hy => ?_, fun hx hy => ?_⟩
    · obtain ⟨hadd, hadd0⟩ := Fmt.add_finite mode hx hy
      obtain ⟨hmul, hmul0⟩ := Fmt.mul_finite mode hx hy
      exact ⟨hadd, hadd0, hmul, hmul0, fun hz np nc h => Fmt.fma_finite mode hx hy hz np nc h⟩
    · rw [Fmt.add_of (fadd_nan mode h), Fmt.mul_of (fmul_nan h)]
      simp only [Fmt.round, flNone, nvIf_eq, BitVec.zero_or, and_self]
    · rw [Fmt.add_of (v := .nan false) (nv := true) (by rw [hx, hy]; cases a <;> rfl), Fmt.round, nvIf_true]
      exact Prod.ext rfl (BitVec.zero_or ..)
    · rw [Fmt.add_of (v := .inf a) (nv := false) (by rw [hx, hy]; cases a <;> rfl), Fmt.round, nvIf_false]
      exact Prod.ext rfl (BitVec.zero_or ..)
    · rw [Fmt.add_of (v := .inf a) (nv := false) (by rw [hx, hy.val]; rfl), Fmt.round, nvIf_false]
      exact Prod.ext rfl (BitVec.zero_or ..)
    · cases hvx : f.val x <;> simp only [hvx, FVal.isInf, Bool.false_eq_true] at hx
      cases hvy : f.val y <;> simp only [hvy, FVal.isZero, Bool.false_eq_true, decide_eq_true_eq] at hy
      subst hy
      have hp : fmul (f.val x) (f.val y) = (.nan false, true) := by rw [hvx, hvy]; rfl
      refine ⟨?_, fun np nc => ?_⟩
      · rw [Fmt.mul_of hp, Fmt.round, nvIf_true]
        exact Prod.ext rfl (BitVec.zero_or ..)
      · have hneg : (if np then (FVal.nan false).neg else .nan false) = .nan false := by cases np <;> rfl
        have hsum := fadd_nan mode (x := .nan false) (y := if nc then (f.val z).neg else f.val z) (.inl rfl)
        simp only [Fmt.fma, hp, hneg, hsum, Bool.true_or, Fmt.round, nvIf_true]
        exact Prod.ext rfl (BitVec.zero_or ..)
  case special =>
    obtain ⟨hnan1, hnan2, hnan3⟩ := min_max_nan x y
    refine ⟨fun h r hr => h.elim (nan_results mode · hr) (nan_results mode · hr), hnan1, hnan2, hnan3, fun hx hy h => min_max_finite hx hy h,
      by decide, by decide, by decide, by decide, rfl, rfl, rfl, rfl, rfl, rfl, rfl, rfl, rfl, rfl, negative_results mode, rfl, rfl, rfl, rfl, rfl, ?_,
      rfl, rfl, rfl, rfl, rfl, rfl, rfl, rfl⟩
    rintro (rfl | rfl) <;> exact ⟨rfl, rfl⟩
  case between =>
    exact ⟨fcvt_finite, fcvt_zero hx, fcvt_inf hx (Fmt.proper_of hf), fcvt_nan (Fmt.proper_of hf)⟩
  case integers =>
    have hs := f32_signBit
    refine ⟨fun lo hi hlo hhi => ⟨fun h => ?_, ?_, ?_, fcvtInt_finite mode hlo hhi⟩, frnd_finite mode, ?_, fun h => ?_, fun neg hn y hy => fclass_eq hx hn hy⟩
    · simp only [fcvtInt, f32_proper.val_nan (hs ▸ h)]
      rfl
    · rintro rfl; rfl
    · rintro rfl; rfl
    · rintro (rfl | rfl) <;> rfl
    · simp only [frnd, f32_proper.val_nan (hs ▸ h), nvIf_eq, decide_eq_true_eq]
      rfl
  case fromInteger => rfl
  case order =>
    refine ⟨fun hx hy => ?_, fun h => ?_, fun a hx hy => ?_, fun b hx hy => ?_, fun a b hx hy => ?_⟩
    · refine fcmp_order (by rw [hx.val, hy.val]; simp [FVal.isNan]) (flt_finite hx hy) (flt_finite hy hx) ?_
      rw [not_lt, not_lt]
      exact ⟨fun h => ⟨not_false, h.ge, h.le⟩, fun h => le_antisymm h.2.2 h.2.1⟩
    · have hflt : ∀ {v w : FVal}, v.isNan = true ∨ w.isNan = true → flt v w = false := by
        intro v w h
        cases v <;> cases w <;> simp_all [flt, FVal.isNan]
      exact fcmp_order (by simpa using h) (by simp [hflt h]) (by simp [hflt h.symm]) (by simp)
    · rw [hx, hy.val]
      exact fcmp_order (by simp [FVal.isNan]) (by simp [flt]) (by simp [flt]) (by cases a <;> simp)
    · rw [hy, hx.val]
      exact fcmp_order (by simp [FVal.isNan]) (by simp [flt]) (by simp [flt]) (by cases b <;> simp)
    · rw [hx, hy]
      exact fcmp_order (by simp [FVal.isNan]) (by simp [flt]) (by simp [flt, and_comm]) (by cases a <;> cases b <;> simp)

end Sys2Proof.Machine
end

section
/-! SUPPORT. Folds over threads and columns, counters of a row, bytes of a slab, and the end of an engine operation (03 R88, R89; 07 R215). -/
namespace Sys2Proof.Machine

/-! ### Folds that treat each index once -/

/-- A fold over distinct indices, of which x alone changes what x owns. -/
theorem foldl_once {σ β : Type} (I : σ → Prop) (f : σ → ℕ → σ) (x : ℕ) (P : σ → β) (G : β → β) {ts : List ℕ} (hts : ts.Nodup)
    (hI : ∀ s, ∀ t ∈ ts, I s → I (f s t)) (hself : ∀ s, I s → P (f s x) = G (P s)) (hother : ∀ s, ∀ t ∈ ts, I s → t ≠ x → P (f s t) = P s)
    {s : σ} (hs : I s) : P (ts.foldl f s) = if x ∈ ts then G (P s) else P s := by
  induction ts generalizing s with
  | nil => rfl
  | cons t ts ih =>
    obtain ⟨ht, hnd⟩ := List.nodup_cons.1 hts
    have hI' := fun s t' (h' : t' ∈ ts) => hI s t' (List.mem_cons_of_mem _ h')
    have hother' := fun s t' (h' : t' ∈ ts) => hother s t' (List.mem_cons_of_mem _ h')
    rw [List.foldl_cons, ih hnd hI' hother' (hI s t List.mem_cons_self hs)]
    by_cases e : x = t
    · subst e
      simp [ht, hself s hs]
    · simp [e, hother s t List.mem_cons_self hs (Ne.symm e)]

/-- A fold that changes nothing that is looked at. -/
theorem foldl_same {σ β : Type} (f : σ → ℕ → σ) (P : σ → β) {ts : List ℕ} (h : ∀ s, ∀ t ∈ ts, P (f s t) = P s) (s : σ) : P (ts.foldl f s) = P s := by
  induction ts generalizing s with
  | nil => rfl
  | cons t ts ih => rw [List.foldl_cons, ih fun s t' h' => h s t' (List.mem_cons_of_mem _ h'), h s t List.mem_cons_self]

theorem countP_eq_sum (l : List Nat) (p : Nat → Bool) : (l.map fun j => if p j then 1 else 0).sum = l.countP p := by
  induction l with
  | nil => rfl
  | cons j l ih => by_cases h : p j <;> simp [ih, h, Nat.add_comm]

/-! ### Events of a row (R35, R89) -/

theorem foldl_plus {α : Type} (l : List α) (e : α → RowEv) (a : RowEv) : l.foldl (fun a x => a.plus (e x)) a =
    ⟨a.flush + (l.map fun x => (e x).flush).sum, a.ovf + (l.map fun x => (e x).ovf).sum, a.inv + (l.map fun x => (e x).inv).sum⟩ := by
  induction l generalizing a with
  | nil => rfl
  | cons x l ih =>
    rw [List.foldl_cons, ih]
    simp only [RowEv.plus, List.map_cons, List.sum_cons, Nat.add_assoc]

theorem mxCount_eq (x : BitVec 24) (e : RowEv) : mxCount x e = mxAfter x e.flush e.ovf e.inv := by
  simp only [mxCount, mxAfter, mxFlush, mxOvf, mxInv, Nat.min_comm]

theorem toNat_mxAfter (x : BitVec 24) (a b c : Nat) : (mxAfter x a b c).toNat =
    min 255 (x.toNat / 65536 + a) * 65536 + min 255 (x.toNat / 256 % 256 + b) * 256 + min 255 (x.toNat % 256 + c) := by
  rw [mxAfter, BitVec.toNat_ofNat]
  exact Nat.mod_eq_of_lt (by omega)

/-- Counting twice is counting the sums once: a counter that stops at 255 stays there. -/
theorem mxAfter_mxAfter (x : BitVec 24) (a b c a' b' c' : Nat) : mxAfter (mxAfter x a b c) a' b' c' = mxAfter x (a + a') (b + b') (c + c') := by
  refine BitVec.eq_of_toNat_eq ?_
  have h := toNat_mxAfter x a b c
  have hflush : (mxAfter x a b c).toNat / 65536 = min 255 (x.toNat / 65536 + a) := by omega
  have hovf : (mxAfter x a b c).toNat / 256 % 256 = min 255 (x.toNat / 256 % 256 + b) := by omega
  have hinv : (mxAfter x a b c).toNat % 256 = min 255 (x.toNat % 256 + c) := by omega
  rw [toNat_mxAfter (mxAfter x a b c), hflush, hovf, hinv, toNat_mxAfter]
  omega

theorem mxAfter_ovf (x : BitVec 24) (n : Nat) :
    x.extractLsb' 16 8 ++ BitVec.ofNat 8 (min 255 ((x.extractLsb' 8 8).toNat + n)) ++ x.extractLsb' 0 8 = mxAfter x 0 n 0 := by
  refine BitVec.eq_of_toNat_eq ?_
  have hx := x.isLt
  have hmid : (x.extractLsb' 8 8).toNat = x.toNat / 256 % 256 := by simp [Nat.shiftRight_eq_div_pow]
  have hsmall : min 255 (x.toNat / 256 % 256 + n) % 2 ^ 8 = min 255 (x.toNat / 256 % 256 + n) := Nat.mod_eq_of_lt (by omega)
  rw [toNat_mxAfter, BitVec.toNat_append, BitVec.toNat_append, hmid, BitVec.toNat_ofNat, hsmall,
    ← Nat.shiftLeft_add_eq_or_of_lt (BitVec.isLt _), ← Nat.shiftLeft_add_eq_or_of_lt (by omega)]
  simp only [BitVec.extractLsb'_toNat, Nat.shiftRight_eq_div_pow, Nat.shiftLeft_eq]
  omega

/-! ### Columns of a row -/

/-- The events of the first n columns. -/
def colEvents (n : Nat) (e : Nat → RowEv) : RowEv :=
  ⟨((List.range n).map fun j => (e j).flush).sum, ((List.range n).map fun j => (e j).ovf).sum, ((List.range n).map fun j => (e j).inv).sum⟩

/-- Change the first n elements of a row and gather their events. -/
theorem mapCols_fold (r : AccRow) (n : Nat) (f : Nat → Word → Word × RowEv) :
    ∃ d, (List.range n).foldl (fun (p : AccRow × RowEv) j => let x := f j (p.1.get j); (p.1.set j x.1, p.2.plus x.2)) (r, RowEv.zero)
        = ({ r with data := d }, colEvents n fun j => (f j (r.get j)).2)
      ∧ ∀ j, Map.lookD d j 0#32 = if j < n then (f j (r.get j)).1 else r.get j := by
  induction n with
  | zero => exact ⟨r.data, rfl, fun j => rfl⟩
  | succ n ih =>
    obtain ⟨d, hfold, hd⟩ := ih
    have hn : ({ r with data := d } : AccRow).get n = r.get n := by
      rw [AccRow.get, hd, if_neg (lt_irrefl n)]
    refine ⟨Map.putD d n (f n (r.get n)).1 0#32, ?_, fun j => ?_⟩
    · rw [List.range_succ, List.foldl_append, hfold, List.foldl_cons, List.foldl_nil]
      simp only [hn, colEvents, List.range_succ, List.map_append, List.sum_append, RowEv.plus, AccRow.set, List.map_cons, List.map_nil,
        List.sum_cons, List.sum_nil, Nat.add_zero]
    · rw [Map.lookD_putD, hd]
      by_cases e : j = n
      · simp [e]
      · simp [e, show j < n + 1 ↔ j < n by omega]

theorem AccRow.mapCols_eq (r : AccRow) (n : Nat) (f : Nat → Word → Word × RowEv) :
    let e := colEvents n fun j => (f j (r.get j)).2
    r.mapCols n f = { r with data := (r.mapCols n f).data, mxexc := mxAfter r.mxexc e.flush e.ovf e.inv }
      ∧ ∀ j, (r.mapCols n f).get j = if j < n then (f j (r.get j)).1 else r.get j := by
  obtain ⟨d, hfold, hd⟩ := mapCols_fold r n f
  have h : r.mapCols n f = { r with data := d, mxexc := mxCount r.mxexc (colEvents n fun j => (f j (r.get j)).2) } := by
    simp only [AccRow.mapCols, hfold, AccRow.count]
  refine ⟨?_, fun j => ?_⟩
  · rw [h, mxCount_eq]
  · rw [h]
    exact hd j

/-! ### Rows of a window -/

/-- A write of rows changes the accumulator alone. -/
theorem KUnit.editRows_rest (u : KUnit) (win : Nat) (m : Mask) (g : Nat → AccRow → AccRow) :
    u.editRows win m g = { u with acc := (u.editRows win m g).acc } := by
  unfold KUnit.editRows
  induction threads m generalizing u with
  | nil => rfl
  | cons t ts ih => exact ih (u.putRow (32 * win + t) (g t (u.row (32 * win + t))))

theorem KUnit.row_editRows (u : KUnit) (win : Nat) (m : Mask) (g : Nat → AccRow → AccRow) {x : Nat} (hm : m.getLsbD x = true) (hx : x < 32) :
    (u.editRows win m g).row (32 * win + x) = g x (u.row (32 * win + x)) := by
  have h := foldl_once (fun _ => True) (fun (u : KUnit) t => u.putRow (32 * win + t) (g t (u.row (32 * win + t)))) x
    (fun u => u.row (32 * win + x)) (g x) (threads_nodup m) (fun _ _ _ _ => trivial) (fun u _ => by simp [KUnit.row_putRow])
    (fun u t _ _ ht => by rw [KUnit.row_putRow, if_neg (by omega)]) (s := u) trivial
  rw [if_pos (mem_threads.2 ⟨hx, hm⟩)] at h
  exact h

theorem KUnit.row_editRows_other (u : KUnit) (win : Nat) (m : Mask) (g : Nat → AccRow → AccRow) {r : Nat}
    (h : ∀ x < 32, m.getLsbD x = true → r ≠ 32 * win + x) : (u.editRows win m g).row r = u.row r :=
  foldl_same _ (fun u => u.row r) (fun u t ht => by rw [KUnit.row_putRow, if_neg (h t (mem_threads.1 ht).1 (mem_threads.1 ht).2)]) u

/-! ### Little-endian numbers -/

theorem leNat_range (g : Nat → Byte) (n : Nat) : leNat ((List.range n).map g) = ((List.range n).map fun i => (g i).toNat * 256 ^ i).sum := by
  induction n generalizing g with
  | zero => rfl
  | succ n ih =>
    have h := ih fun i => g (i + 1)
    rw [List.range_succ_eq_map, List.map_cons, List.map_cons, List.map_map, List.map_map, List.sum_cons, leNat]
    simp only [Function.comp_def, Nat.succ_eq_add_one, h, pow_zero, mul_one, ← List.sum_map_mul_left]
    congr 3
    funext i
    ring

/-- The number at a place of a slab is that of its bytes in the scratchpad. -/
theorem slabAt_sbyte (un : KUnit) (from0 off n : Nat) : slabAt (fun x => un.sbyte (from0 + x)) off n = leNat (un.sbytes (from0 + off) n) := by
  rw [KUnit.sbytes, span, List.map_map, leNat_range, slabAt]
  simp only [Function.comp_def, Nat.add_assoc]

/-! ### The end of an operation (R215, R299) -/

theorem State.firstEng_of {s : State} {core u : Nat} {un : KUnit} {o : Op} (hu : s.unit? u = some un)
    (hq : (s.core core).eng.find? (fun p => p.1 = u) = some (u, o.id)) (ho : un.op? o.id = some o) : s.firstEng core u = some (un, o) := by
  simp only [State.firstEng, hq, hu, ho, Option.map_some]

theorem mem_of_mem_drainOps {l : List Op} {held : List PathId} {y : Op} (h : y ∈ drainOps l held) : y ∈ l := by
  induction l generalizing held with
  | nil => exact h
  | cons o l ih =>
    simp only [drainOps] at h
    have keep {k : List PathId} (h : y ∈ o :: drainOps l k) : y ∈ o :: l :=
      (List.mem_cons.1 h).elim (fun e => e ▸ List.mem_cons_self) fun h => List.mem_cons_of_mem _ (ih h)
    split at h <;> split_ifs at h
    · exact List.mem_cons_of_mem _ (ih h)
    · exact keep h
    · exact keep h
    · exact List.mem_cons_of_mem _ (ih h)
    · exact keep h

theorem KUnit.done_of_mem_complete {un : KUnit} {id : Nat} {y : Op} (h : y ∈ (un.complete id).ops) (hid : y.id = id) : y.done = true := by
  obtain ⟨x, -, rfl⟩ := List.mem_map.1 (mem_of_mem_drainOps h)
  by_cases e : x.id = id
  · simp only [if_pos e]
  · simp only [if_neg e] at hid
    exact absurd hid e

theorem State.unit?_engDone (s : State) (core u id : Nat) : (s.engDone core u id).unit? u = (s.unit? u).map (·.complete id) := by
  simp only [State.engDone, State.unit?_editCore, State.unit?_editUnit, if_true]

theorem State.eng_engDone (s : State) (core u id : Nat) :
    ((s.engDone core u id).core core).eng = (s.core core).eng.filter fun p => p ≠ (u, id) := by
  simp only [State.engDone, State.core_editCore, if_true, State.core_editUnit]

end Sys2Proof.Machine
end

section
/-! SUPPORT. A K step of a matrix operation on a scratchpad tile, and the integer one (03 R88; 07 R218, Tables 3.5, 7.2, 7.3; O30). -/
namespace Sys2Proof.Machine

/-! ### The event on a tile -/

section
variable {s : State} {core u : Nat} {un : KUnit} {o : Op} {k : MmaKind} {n start cb step win : Nat} {a : Map (List Word)}

/-- A step of an operation that neither stops nor waits: each row of its threads takes one slab. -/
def KUnit.stepped (un : KUnit) (o : Op) (k : MmaKind) (n start : Nat) (a : Map (List Word)) (cb step win : Nat) : KUnit :=
  (un.editRows win o.mask fun t r => r.kstep k (Map.lookD a t []) (Map.lookD un.cbs cb 0) (fun x => un.sbyte (start + step * k.slab + x)) step).editOp o.id
    fun o => { o with kind := .engine (.mma k n none start a cb (step + 1)) win }

theorem exec_matrixKStep (hu : s.unit? u = some un) (hq : (s.core core).eng.find? (fun p => p.1 = u) = some (u, o.id)) (ho : un.op? o.id = some o)
    (hk : o.kind = .engine (.mma k n none start a cb step) win) (hlive : un.liveOf o.warp o.mask ≠ 0#32)
    (hdrain : (Map.look s.launches un.launch).map (·.st) ≠ some .draining)
    (hlater : k = .k4 → ∀ p ∈ un.ops.takeWhile fun p => p.id ≠ o.id, p.done = true ∨ p.kind ≠ .cbld cb)
    (hpoison : un.spoisoned (start + step * k.slab) k.slab = false) : exec (.matrixKStep core u) s = .next
      (let t := s.editUnit u fun _ => un.stepped o k n start a cb step win
       if step + 1 < k.steps n then t else t.engDone core u o.id) := by
  have hstops : un.stopsNow o.warp o.mask = false := by simp [KUnit.stopsNow, hlive]
  have hmma : s.mmaStops un o = false := by
    unfold State.mmaStops
    cases h : Map.look s.launches un.launch with
    | none => rfl
    | some l => simp [h] at hdrain; simp [hdrain]
  have hwait : (decide (k = .k4) && (un.ops.takeWhile fun x => decide (x.id ≠ o.id)).any fun x => !x.done && decide (x.kind = .cbld cb)) = false := by
    rw [Bool.and_eq_false_imp, List.any_eq_false]
    intro h x hx
    rcases hlater (of_decide_eq_true h) x hx with hd | hd <;> simp [hd]
  have hedit : (s.editUnit u fun un' => (un'.editRows win o.mask fun t r =>
      r.kstep k (Map.lookD a t []) (Map.lookD un'.cbs cb 0) (fun x => un.sbyte (start + step * k.slab + x)) step).editOp o.id
        fun o => { o with kind := .engine (.mma k n none start a cb (step + 1)) win }) = s.editUnit u fun _ => un.stepped o k n start a cb step win := by
    rw [State.unit?] at hu
    simp only [State.editUnit, Map.edit, hu, KUnit.stepped]
  have e : exec (.matrixKStep core u) s = execMatrixKStep core u s := rfl
  rw [e, execMatrixKStep, State.firstEng_of hu hq ho]
  simp only [hk, hstops, hwait, hmma, hpoison, Bool.false_eq_true, if_false, Bool.not_true, Bool.or_self, Bool.and_false, hedit]

/-- What the event leaves: the rows of the operation's threads stepped, every other row as it was, and the operation a step further or complete. -/
theorem matrixKStep_spec (hu : s.unit? u = some un) (hq : (s.core core).eng.find? (fun p => p.1 = u) = some (u, o.id)) (ho : un.op? o.id = some o)
    (hk : o.kind = .engine (.mma k n none start a cb step) win) (hlive : un.liveOf o.warp o.mask ≠ 0#32)
    (hdrain : (Map.look s.launches un.launch).map (·.st) ≠ some .draining)
    (hlater : k = .k4 → ∀ p ∈ un.ops.takeWhile fun p => p.id ≠ o.id, p.done = true ∨ p.kind ≠ .cbld cb)
    (hpoison : un.spoisoned (start + step * k.slab) k.slab = false) :
    ∃ t vn, exec (.matrixKStep core u) s = .next t ∧ t.unit? u = some vn ∧ t.mem = s.mem ∧ vn.warps = un.warps ∧ vn.scratch = un.scratch
      ∧ (∀ r, (∀ x < 32, o.mask.getLsbD x = true → r ≠ 32 * win + x) → vn.row r = un.row r)
      ∧ (∀ x < 32, o.mask.getLsbD x = true → vn.row (32 * win + x) = (un.row (32 * win + x)).kstep k (Map.lookD a x []) (Map.lookD un.cbs cb 0)
          (fun x => un.sbyte (start + step * k.slab + x)) step)
      ∧ (step + 1 < k.steps n → (t.core core).eng = (s.core core).eng
          ∧ vn.ops = un.ops.map fun y => if y.id = o.id then { y with kind := .engine (.mma k n none start a cb (step + 1)) win } else y)
      ∧ (k.steps n ≤ step + 1 → (t.core core).eng = (s.core core).eng.filter (fun p => p ≠ (u, o.id)) ∧ ∀ y ∈ vn.ops, y.id = o.id → y.done = true) := by
  have hexec := exec_matrixKStep hu hq ho hk hlive hdrain hlater hpoison
  have hother : ∀ r, (∀ x < 32, o.mask.getLsbD x = true → r ≠ 32 * win + x) → (un.stepped o k n start a cb step win).row r = un.row r :=
    fun r hr => un.row_editRows_other win o.mask _ hr
  have hmine := fun x (hx : x < 32) (hm : o.mask.getLsbD x = true) => un.row_editRows win o.mask (fun t r => r.kstep k (Map.lookD a t [])
    (Map.lookD un.cbs cb 0) (fun x => un.sbyte (start + step * k.slab + x)) step) hm hx
  have hrest := un.editRows_rest win o.mask fun t r => r.kstep k (Map.lookD a t []) (Map.lookD un.cbs cb 0)
    (fun x => un.sbyte (start + step * k.slab + x)) step
  have hwarps : (un.stepped o k n start a cb step win).warps = un.warps := by rw [KUnit.stepped, KUnit.editOp, hrest]
  have hscratch : (un.stepped o k n start a cb step win).scratch = un.scratch := by rw [KUnit.stepped, KUnit.editOp, hrest]
  have hops : (un.stepped o k n start a cb step win).ops
      = un.ops.map fun y => if y.id = o.id then { y with kind := .engine (.mma k n none start a cb (step + 1)) win } else y := by
    rw [KUnit.stepped, KUnit.editOp, hrest]
  have hunit : (s.editUnit u fun _ => un.stepped o k n start a cb step win).unit? u = some (un.stepped o k n start a cb step win) := by
    rw [State.unit?_editUnit, if_pos rfl, hu]
    rfl
  by_cases hend : step + 1 < k.steps n
  · rw [if_pos hend] at hexec
    exact ⟨_, _, hexec, hunit, rfl, hwarps, hscratch, hother, hmine, fun _ => ⟨rfl, hops⟩, fun h => absurd hend h.not_gt⟩
  · rw [if_neg hend] at hexec
    refine ⟨_, (un.stepped o k n start a cb step win).complete o.id, hexec, ?_, rfl, hwarps, hscratch, hother, hmine, fun h => absurd h hend,
      fun _ => ⟨State.eng_engDone .., fun y => KUnit.done_of_mem_complete⟩⟩
    rw [State.unit?_engDone, hunit]
    rfl

end

/-! ### Integer steps -/

/-- Lane m of a word, as the engine cuts it and as a slice of bits. -/
theorem ofNat_wbits (w : Word) (lo n : Nat) : BitVec.ofNat n (wbits w lo n) = w.extractLsb' lo n := by
  refine BitVec.eq_of_toNat_eq ?_
  simp [wbits, Nat.shiftRight_eq_div_pow]

/-- What an integer step adds to column j of a thread with A words `a`: the products, or the counts of bits, of one slab. -/
def intSum (un : KUnit) (k : MmaKind) (a : List Word) (from0 step j : Nat) : Int :=
  ((List.range 4).map fun m => match k with
    | .i8 => ((a.getD step 0#32).extractLsb' (8 * m) 8).toInt * (un.sbyte (from0 + 4 * j + m)).toInt
    | .xor => (popCount (a.getD (4 * step + m) 0#32 ^^^ BitVec.ofNat 32 (leNat (un.sbytes (from0 + (16 * j + 4 * m)) 4))) : Int)
    | _ => (popCount (a.getD (4 * step + m) 0#32 &&& BitVec.ofNat 32 (leNat (un.sbytes (from0 + (16 * j + 4 * m)) 4))) : Int)).sum

theorem matInt_eq {k : MmaKind} (hk : k = .i8 ∨ k = .xor ∨ k = .and) (un : KUnit) (a : List Word) (from0 step j : Nat) :
    matInt k a (fun x => un.sbyte (from0 + x)) step j = intSum un k a from0 step j := by
  rcases hk with rfl | rfl | rfl
  · simp only [matInt, intSum, ofNat_wbits, Nat.add_assoc]
    rfl
  · simp only [matInt, intSum, slabAt_sbyte]
    rfl
  · simp only [matInt, intSum, slabAt_sbyte]
    rfl

/-- Whether an INT32 element cannot hold a sum. -/
def intWide (v : Int) : Bool := decide (v < -2147483648) || decide (2147483647 < v)

theorem kstep_int {k : MmaKind} (hk : k = .i8 ∨ k = .xor ∨ k = .and) (un : KUnit) (r : AccRow) (a : List Word) (cb : BitVec 256) (from0 step : Nat) :
    let q := r.kstep k a cb (fun x => un.sbyte (from0 + x)) step
    (∀ j < 128, q.get j = BitVec.ofInt 32 ((r.get j).toInt + intSum un k a from0 step j))
      ∧ q = { r with data := q.data, mxexc := mxAfter r.mxexc 0 ((List.range 128).countP fun j => intWide ((r.get j).toInt + intSum un k a from0 step j)) 0 } := by
  have hint : k.isInt = true := by rcases hk with rfl | rfl | rfl <;> rfl
  simp only [AccRow.kstep, hint, if_true, matInt_eq hk]
  obtain ⟨hrow, hget⟩ := r.mapCols_eq 128 fun j acc => intStep acc (intSum un k a from0 step j)
  refine ⟨fun j hj => by rw [hget, if_pos hj, intStep], hrow.trans ?_⟩
  have hcount : ((List.range 128).map fun j => (intStep (r.get j) (intSum un k a from0 step j)).2.ovf).sum
      = (List.range 128).countP fun j => intWide ((r.get j).toInt + intSum un k a from0 step j) := by
    simp only [← countP_eq_sum, intStep, intWide, Bool.or_eq_true, decide_eq_true_eq]
    rfl
  simp only [colEvents, hcount]
  simp [intStep]

/-- Settles O30: each row of the operation's threads takes its slab, and the counter its overflows. -/
theorem integerMatrixStep : Obligations.IntegerMatrixStep := by
  unfold Obligations.IntegerMatrixStep
  intro s core u un o k n start cb step win a hu hq ho hkind hlive hdrain hk slab from0 hpoison aw bw sum
  have hslab : slab = k.slab := by rcases hk with rfl | rfl | rfl <;> rfl
  have hsteps : (if k = .i8 then n else n / 4) = k.steps n := by rcases hk with rfl | rfl | rfl <;> rfl
  have hk4 : k ≠ .k4 := by rcases hk with rfl | rfl | rfl <;> decide
  have hsum : ∀ x j, sum x j = intSum un k (Map.lookD a x []) from0 step j := fun x j => rfl
  have hfrom : from0 = start + step * k.slab := by rw [← hslab]
  obtain ⟨t, vn, hexec, hvn, hmem, hwarps, hscratch, hother, hmine, hgo, hend⟩ :=
    matrixKStep_spec hu hq ho hkind hlive hdrain (fun h => absurd h hk4) (by rw [← hslab]; exact hpoison)
  rw [← hfrom] at hmine
  rw [hsteps]
  refine ⟨t, vn, hexec, hvn, hmem, hwarps, hscratch, fun x j hm hx hj => ?_, fun x hm hx => ?_, hother, hgo, hend⟩
  · rw [hmine x hx hm, hsum]
    exact (kstep_int hk un _ _ _ from0 step).1 j hj
  · rw [hmine x hx hm]
    refine (kstep_int hk un _ _ _ from0 step).2.trans ?_
    rw [mxAfter_ovf]
    rfl

end Sys2Proof.Machine
end

section
/-! SUPPORT. Floating-point steps of the matrix engine (03 R77, R86, R87, R89; 07 Table 3.5): what enters, Round24, the tree of a step, WriteAcc. -/
namespace Sys2Proof.Machine

/-! ### Round24 (R86) -/

theorem lt_two_pow_bitLen (m : ℕ) : m < 2 ^ bitLen m := by
  rcases eq_or_ne m 0 with rfl | h
  · decide
  · rw [bitLen_of_pos h]
    exact Nat.lt_pow_succ_log_self (by norm_num) m

theorem two_pow_le_of_bitLen {m : ℕ} (h : m ≠ 0) : 2 ^ (bitLen m - 1) ≤ m := by
  rw [bitLen_of_pos h, Nat.add_sub_cancel]
  exact Nat.pow_log_le_self 2 h

theorem bitLen_le_iff (m n : ℕ) : bitLen m ≤ n ↔ m < 2 ^ n := by
  rcases eq_or_ne m 0 with rfl | h
  · simp [bitLen]
  · rw [bitLen_of_pos h, Nat.succ_le_iff, Nat.log_lt_iff_lt_pow (by norm_num) h]

/-- A number of more than 24 bits has 24 of them before the point once it is cut to units of its last place. -/
theorem round24_unit {m : ℕ} (h : ¬ bitLen m ≤ 24) : ∃ d : ℕ, bitLen m = 24 + d ∧ (2 : ℚ) ^ 23 ≤ m * 2 ^ (-d : ℤ) ∧ (m : ℚ) * 2 ^ (-d : ℤ) < 2 ^ 24 := by
  obtain ⟨d, hd⟩ := Nat.exists_eq_add_of_le (Nat.le_of_not_le h)
  have hm : m ≠ 0 := by rintro rfl; exact h (by decide)
  have hlo : (2 ^ 23 * 2 ^ d : ℚ) ≤ m := by
    have := two_pow_le_of_bitLen hm
    rw [hd, show 24 + d - 1 = 23 + d by omega, pow_add] at this
    exact_mod_cast this
  have hhi : (m : ℚ) < 2 ^ 24 * 2 ^ d := by
    have := lt_two_pow_bitLen m
    rw [hd, pow_add] at this
    exact_mod_cast this
  have hpos : (0 : ℚ) < 2 ^ d := by positivity
  refine ⟨d, hd, ?_⟩
  rw [zpow_neg, zpow_natCast, ← div_eq_mul_inv]
  exact ⟨(le_div_iff₀ hpos).2 hlo, (div_lt_iff₀ hpos).2 hhi⟩

theorem round24_fin (neg : Bool) (m : ℕ) (e : ℤ) : ∃ (r : ℕ) (q : ℤ), round24 (.fin neg m e) = .fin neg r q ∧ r ≤ 2 ^ 24
    ∧ (m < 2 ^ 24 → r = m ∧ q = e)
    ∧ (2 ^ 24 ≤ m → 2 ^ 23 ≤ r ∧ |(r : ℚ) * 2 ^ q - m * 2 ^ e| * 2 ≤ 2 ^ q ∧ (|(r : ℚ) * 2 ^ q - m * 2 ^ e| * 2 = 2 ^ q → r % 2 = 0)) := by
  by_cases h : bitLen m ≤ 24
  · have hm := (bitLen_le_iff m 24).1 h
    exact ⟨m, e, by rw [round24, if_pos h], hm.le, fun _ => ⟨rfl, rfl⟩, fun h' => absurd hm h'.not_gt⟩
  · have hm : ¬ m < 2 ^ 24 := fun hm => h ((bitLen_le_iff m 24).2 hm)
    obtain ⟨d, hd, hlo, hhi⟩ := round24_unit h
    obtain ⟨hnear, htie⟩ := integerFor_nearestNat .rn false (show (0 : ℚ) ≤ m * 2 ^ (-d : ℤ) by positivity)
    simp only [Bool.false_eq_true, if_false, one_mul, Int.cast_natCast] at hnear htie
    have hq : e + bitLen m - 24 = e + d := by rw [hd]; push_cast; ring
    refine ⟨nearestNat .rn neg (m * 2 ^ (-d : ℤ)), e + d, ?_, ?_, fun h' => absurd h' hm, fun _ => ?_⟩
    · simp only [round24, if_neg h, hq, roundAt_eq, show e - (e + d) = -d by ring]
    all_goals rw [show nearestNat .rn neg (m * 2 ^ (-d : ℤ)) = nearestNat .rn false (m * 2 ^ (-d : ℤ)) from rfl]
    all_goals generalize nearestNat .rn false (m * 2 ^ (-d : ℤ)) = r at hnear htie ⊢
    · have : (r : ℚ) < 2 ^ 24 + 1 := by linarith [(abs_le.1 hnear).2]
      exact_mod_cast Nat.lt_succ_iff.1 (by exact_mod_cast this)
    · have hr : (2 ^ 23 : ℚ) < r + 1 := by linarith [(abs_le.1 hnear).1]
      have hunit : (r : ℚ) * 2 ^ (e + d) - m * 2 ^ e = (r - m * 2 ^ (-d : ℤ)) * 2 ^ (e + d) := by
        rw [sub_mul, mul_assoc (m : ℚ), ← zpow_add₀ two_ne_zero, show -(d : ℤ) + (e + d) = e by ring]
      have hpos : (0 : ℚ) < 2 ^ (e + d) := by positivity
      rw [hunit, abs_mul, abs_of_pos hpos]
      refine ⟨Nat.lt_succ_iff.1 (by exact_mod_cast hr), by nlinarith, fun ht => ?_⟩
      have half : |(r : ℚ) - m * 2 ^ (-d : ℤ)| = 1 / 2 := by
        have : (|(r : ℚ) - m * 2 ^ (-d : ℤ)| * 2 - 1) * 2 ^ (e + d) = 0 := by linarith
        rcases mul_eq_zero.1 this with h0 | h0
        · linarith
        · exact absurd h0 hpos.ne'
      exact_mod_cast htie half

/-! ### What enters a step, and what it writes (R86, R87, R89) -/

/-- How often an event happens. -/
def once (b : Bool) : ℕ := if b then 1 else 0

theorem ite_eq_once (b : Bool) : (if b = true then 1 else 0) = once b := rfl

theorem Fmt.subnormal_iff (f : Fmt) (p : ℕ) : f.subnormal p = true ↔ p % f.signBit ≠ 0 ∧ p % f.signBit < 2 ^ f.mb := by
  simp only [Fmt.subnormal, Bool.and_eq_true, decide_eq_true_eq]

theorem f32_subnormal_iff (p : ℕ) : f32.subnormal p = true ↔ p % 2 ^ 31 ≠ 0 ∧ p % 2 ^ 31 < 2 ^ 23 := f32.subnormal_iff p

theorem Fmt.Proper.not_subnormal {f : Fmt} (hf : f.Proper) {x : ℕ} (h : f.inf ≤ x % f.signBit) : f.subnormal x = false := by
  have := hf.unit_lt_inf
  simp only [Fmt.subnormal, Bool.and_eq_false_iff, decide_eq_false_iff_not]
  omega

theorem Fmt.Proper.val_flushed {f : Fmt} (hf : f.Proper) {x : ℕ} (hx : x < 2 * f.signBit) :
    f.val (x / f.signBit * f.signBit) = .fin (decide (x / f.signBit = 1)) 0 f.qmin := by
  have hpos : 0 < f.signBit := Nat.two_pow_pos _
  have hinf : 0 < f.inf := (Nat.two_pow_pos _).trans hf.unit_lt_inf
  have hmod : x / f.signBit * f.signBit % f.signBit = 0 := Nat.mul_mod_left ..
  rw [Fmt.val_eq (lt_of_le_of_lt (Nat.div_mul_le_self ..) hx) (by omega), hmod, Nat.mul_div_cancel _ hpos]
  simp [Fmt.sig, Fmt.exp]

theorem Fmt.Proper.matIn_eq {f : Fmt} (hf : f.Proper) {x : ℕ} (hx : x < 2 * f.signBit) :
    matIn f x = (f.enters x, ⟨once (f.subnormal x), 0, once (f.val x).isSnan⟩) := by
  rcases lt_trichotomy (x % f.signBit) f.inf with h | h | h
  · have hval := Fmt.val_eq hx h
    by_cases hs : f.subnormal x = true
    · have hsub : f.sig (x % f.signBit) ≠ 0 ∧ f.sig (x % f.signBit) < 2 ^ f.mb := by
        rw [ne_eq, f.sig_eq_zero, f.sig_lt_iff]
        simpa only [f.subnormal_iff] using hs
      have hexp : f.exp (x % f.signBit) = f.qmin := by
        rw [Fmt.exp, Nat.div_eq_of_lt ((f.sig_lt_iff _).1 hsub.2)]
        simp
      simp only [matIn, hval, if_pos hsub, Fmt.enters, FVal.isNan, Bool.false_eq_true, if_false, Fmt.flush, hs, if_true, hf.val_flushed hx, hexp,
        FVal.isSnan, once]
    · have hsub : ¬ (f.sig (x % f.signBit) ≠ 0 ∧ f.sig (x % f.signBit) < 2 ^ f.mb) := by
        rw [ne_eq, f.sig_eq_zero, f.sig_lt_iff]
        simpa only [f.subnormal_iff] using hs
      simp only [matIn, hval, if_neg hsub, Fmt.enters, FVal.isNan, Bool.false_eq_true, if_false, Fmt.flush, hs, FVal.isSnan, once]
      rfl
  · simp only [matIn, hf.val_inf hx h, Fmt.enters, FVal.isNan, Bool.false_eq_true, if_false, Fmt.flush, hf.not_subnormal h.ge, FVal.isSnan, once]
    rfl
  · simp only [matIn, hf.val_nan h, Fmt.enters, FVal.isNan, if_true, hf.not_subnormal h.le, FVal.isSnan, once]
    rfl

theorem getLsbD_flOF (x : BitVec 5) : x.getLsbD 2 = decide (x &&& flOF ≠ 0#5) := by
  revert x
  decide

theorem writeAcc_eq (v : FVal) : writeAcc v =
    (BitVec.ofNat 32 (f32.flush (f32.round .rn v).1), ⟨once (f32.subnormal (f32.round .rn v).1), once ((f32.round .rn v).2.getLsbD 2), 0⟩) := by
  have hround : ∀ r : FRes, (if r.1 % 2 ^ 31 ≠ 0 ∧ r.1 % 2 ^ 31 < 2 ^ 23
      then (BitVec.ofNat 32 (r.1 / 2 ^ 31 * 2 ^ 31), (⟨1, if r.2 &&& flOF ≠ 0#5 then 1 else 0, 0⟩ : RowEv))
      else (BitVec.ofNat 32 r.1, ⟨0, if r.2 &&& flOF ≠ 0#5 then 1 else 0, 0⟩))
      = (BitVec.ofNat 32 (f32.flush r.1), ⟨once (f32.subnormal r.1), once (r.2.getLsbD 2), 0⟩) := by
    intro r
    have hof : once (r.2.getLsbD 2) = if r.2 &&& flOF ≠ 0#5 then 1 else 0 := by
      rw [getLsbD_flOF]
      simp only [once, decide_eq_true_eq]
    by_cases hs : r.1 % 2 ^ 31 ≠ 0 ∧ r.1 % 2 ^ 31 < 2 ^ 23
    · have : f32.subnormal r.1 = true := (f32_subnormal_iff _).2 hs
      rw [if_pos hs, hof]
      simp only [Fmt.flush, this, if_true, f32_signBit, once]
    · have : f32.subnormal r.1 = false := Bool.eq_false_iff.2 fun h => hs ((f32_subnormal_iff _).1 h)
      rw [if_neg hs, hof]
      simp only [Fmt.flush, this, Bool.false_eq_true, if_false, once]
  cases v with
  | nan s => cases s <;> decide
  | inf a => exact hround (f32.round .rn (.inf a))
  | fin a m e => exact hround (f32.round .rn (.fin a m e))

/-! ### The elements of a step (Tables 3.5, 7.2) -/

/-- A kind that accumulates in FP32. -/
def FloatKind (k : MmaKind) : Prop :=
  k = .bf16 ∨ k = .f16 ∨ k = .f32 ∨ k = .k4

/-- The format of its inputs. -/
def inFmt (k : MmaKind) : Fmt := if k = .f16 then f16 else if k = .f32 then f32 else bf16

/-- The products of a step. -/
def stepLanes (k : MmaKind) : ℕ := if k = .f32 then 1 else if k = .k4 then 4 else 2

/-- Element m of the A words of a thread. -/
def aElem (k : MmaKind) (a : List Word) (cb : BitVec 256) (step m : ℕ) : ℕ :=
  if k = .k4 then cb.toNat / 2 ^ (16 * ((a.getD (step / 2) 0#32).toNat / 2 ^ (16 * (step % 2) + 4 * m) % 16)) % 2 ^ 16
  else if k = .f32 then (a.getD step 0#32).toNat
  else (a.getD step 0#32).toNat / 2 ^ (16 * m) % 2 ^ 16

/-- Element m of column j of the slab at an offset. -/
def bElem (k : MmaKind) (un : KUnit) (from0 j m : ℕ) : ℕ :=
  if k = .f32 then leNat (un.sbytes (from0 + 4 * j) 4) else leNat (un.sbytes (from0 + 2 * ((stepLanes k) * j + m)) 2)

theorem inFmt_proper (k : MmaKind) : (inFmt k).Proper := by
  unfold inFmt
  split_ifs
  · exact Fmt.proper_of (.inr (.inl rfl))
  · exact f32_proper
  · exact Fmt.proper_of (.inr (.inr rfl))

theorem leNat_lt (l : List Byte) : leNat l < 256 ^ l.length := by
  induction l with
  | nil => decide
  | cons b l ih =>
    have hb : b.toNat < 256 := b.isLt
    rw [leNat, List.length_cons, pow_succ]
    omega

theorem leNat_sbytes_lt (un : KUnit) (off n : ℕ) : leNat (un.sbytes off n) < 256 ^ n := by
  have h := leNat_lt (un.sbytes off n)
  simpa [KUnit.sbytes, span] using h

variable {k : MmaKind} (hk : FloatKind k)
include hk

theorem bElem_lt (un : KUnit) (from0 j m : ℕ) : bElem k un from0 j m < 2 * (inFmt k).signBit := by
  rcases hk with rfl | rfl | rfl | rfl <;> exact leNat_sbytes_lt ..

/-- Events of an A element: a NaN entry of a codebook is a reserved code (R77). -/
def aEvents (k : MmaKind) (x : ℕ) : RowEv :=
  ⟨once ((inFmt k).subnormal x), 0, once (if k = .k4 then ((inFmt k).val x).isNan else ((inFmt k).val x).isSnan)⟩

omit hk in
theorem k4In_eq (cb : BitVec 256) (code : ℕ) :
    k4In cb code = (bf16.enters (cb.toNat / 2 ^ (16 * code) % 2 ^ 16), aEvents .k4 (cb.toNat / 2 ^ (16 * code) % 2 ^ 16)) := by
  have hf : bf16.Proper := Fmt.proper_of (.inr (.inr rfl))
  have hlt : cb.toNat / 2 ^ (16 * code) % 2 ^ 16 < 2 * bf16.signBit := Nat.mod_lt _ (by norm_num)
  rw [k4In, show (65536 : ℕ) = 2 ^ 16 from rfl, hf.matIn_eq hlt]
  generalize cb.toNat / 2 ^ (16 * code) % 2 ^ 16 = x at hlt
  have hnan : (bf16.val x).isNan = true → bf16.subnormal x = false := by
    intro h
    refine hf.not_subnormal (le_of_not_gt fun hlt' => ?_)
    rw [Fmt.val_eq hlt hlt'] at h
    exact absurd h (by simp [FVal.isNan])
  have hsnan : (bf16.val x).isNan = false → (bf16.val x).isSnan = false := by cases bf16.val x <;> simp [FVal.isNan, FVal.isSnan]
  rw [aEvents, show inFmt .k4 = bf16 from rfl, if_pos rfl]
  cases h : (bf16.val x).isNan
  · simp [hsnan h]
  · simp [hnan h, Fmt.enters, h, once]

theorem matA_eq (a : List Word) (cb : BitVec 256) (step : ℕ) :
    matA k a cb step = (List.range (stepLanes k)).map fun m => ((inFmt k).enters (aElem k a cb step m), aEvents k (aElem k a cb step m)) := by
  have h16 : ∀ f : Fmt, f.Proper → f.signBit = 2 ^ 15 → ∀ (w : Word) (m : ℕ),
      matIn f (wbits w (16 * m) 16) = (f.enters (w.toNat / 2 ^ (16 * m) % 2 ^ 16), ⟨once (f.subnormal (w.toNat / 2 ^ (16 * m) % 2 ^ 16)), 0,
        once (f.val (w.toNat / 2 ^ (16 * m) % 2 ^ 16)).isSnan⟩) :=
    fun f hf hs w m => hf.matIn_eq (by rw [hs]; exact Nat.mod_lt _ (by norm_num))
  rcases hk with rfl | rfl | rfl | rfl
  · exact congrArg₂ (fun x y => [x, y]) (h16 bf16 (inFmt_proper .bf16) rfl _ 0) (h16 bf16 (inFmt_proper .bf16) rfl _ 1)
  · exact congrArg₂ (fun x y => [x, y]) (h16 f16 (inFmt_proper .f16) rfl _ 0) (h16 f16 (inFmt_proper .f16) rfl _ 1)
  · exact congrArg (fun x => [x]) (f32_proper.matIn_eq (BitVec.isLt _))
  · refine List.map_congr_left fun m _ => ?_
    rw [k4In_eq, show 4 * (4 * (step % 2) + m) = 16 * (step % 2) + 4 * m by ring]
    rfl

theorem matB_eq (un : KUnit) (from0 j : ℕ) :
    matB k (fun x => un.sbyte (from0 + x)) j = (List.range (stepLanes k)).map fun m => ((inFmt k).enters (bElem k un from0 j m),
      ⟨once ((inFmt k).subnormal (bElem k un from0 j m)), 0, once ((inFmt k).val (bElem k un from0 j m)).isSnan⟩) := by
  have hin := fun m => (inFmt_proper k).matIn_eq (bElem_lt hk un from0 j m)
  have hpair : ∀ n m : ℕ, 2 * n * j + 2 * m = 2 * (n * j + m) := fun n m => by ring
  rcases hk with rfl | rfl | rfl | rfl
  · refine List.map_congr_left fun m _ => ?_
    rw [slabAt_sbyte, show 4 * j = 2 * 2 * j from rfl, hpair]
    exact hin m
  · refine List.map_congr_left fun m _ => ?_
    rw [slabAt_sbyte, show 4 * j = 2 * 2 * j from rfl, hpair]
    exact hin m
  · rw [matB, slabAt_sbyte]
    exact congrArg (fun x => [x]) (hin 0)
  · refine List.map_congr_left fun m _ => ?_
    rw [slabAt_sbyte, show 8 * j = 2 * 4 * j from rfl, hpair]
    exact hin m

/-! ### The tree of a step (R87) -/

omit hk

/-- The exact sum of a pair of products. -/
def pairSum (p : ℕ → FVal) (i : ℕ) : FVal × Bool := fadd .rn (p (2 * i)) (p (2 * i + 1))

/-- The exact sum of two rounded pairs. -/
def fourSum (p : ℕ → FVal) : FVal × Bool := fadd .rn (round24 (pairSum p 0).1) (round24 (pairSum p 1).1)

/-- What a step adds to an element, of its products. -/
def stepSum (k : MmaKind) (p : ℕ → FVal) : FVal :=
  if k = .f32 then p 0 else if k = .k4 then round24 (fourSum p).1 else round24 (pairSum p 0).1

/-- The invalid sums on the way: of a pair, and of four products. -/
def pairInvalids (k : MmaKind) (p : ℕ → FVal) : ℕ := if k = .f32 then 0 else once (pairSum p 0).2
def fourInvalids (k : MmaKind) (p : ℕ → FVal) : ℕ := if k = .k4 then once (pairSum p 1).2 + once (fourSum p).2 else 0

include hk

theorem matTree_eq (p : ℕ → FVal) : matTree ((List.range (stepLanes k)).map p) = (stepSum k p, ⟨0, 0, pairInvalids k p + fourInvalids k p⟩) := by
  rcases hk with rfl | rfl | rfl | rfl
  · rfl
  · rfl
  · rfl
  · refine Prod.ext rfl ?_
    change (⟨0, 0, once (pairSum p 0).2 + once (pairSum p 1).2 + once (fourSum p).2⟩ : RowEv) = _
    rw [Nat.add_assoc]
    rfl

omit hk in
theorem matProds_eq (as bs : ℕ → FVal) (n : ℕ) : matProds ((List.range n).map as) ((List.range n).map bs) =
    ((List.range n).map fun m => (fmul (as m) (bs m)).1, ⟨0, 0, ((List.range n).map fun m => once (fmul (as m) (bs m)).2).sum⟩) := by
  simp only [matProds, List.zipWith_map, List.zipWith_self, List.map_map, List.foldl_map, Function.comp_def]
  rw [foldl_plus]
  simp [once, RowEv.zero]

/-! ### One step of one row -/

/-- What one step adds to an element, exactly: the element as it enters, and the sum of the products. -/
def stepTotal (k : MmaKind) (as bs : ℕ → ℕ) (acc : ℕ) : FVal × Bool :=
  fadd .rn (f32.enters acc) (stepSum k fun m => (fmul ((inFmt k).enters (as m)) ((inFmt k).enters (bs m))).1)

/-- Events of a column. -/
def stepEvents (k : MmaKind) (as bs : ℕ → ℕ) (acc : ℕ) : RowEv :=
  let p := fun m => fmul ((inFmt k).enters (as m)) ((inFmt k).enters (bs m))
  let res := f32.round .rn (stepTotal k as bs acc).1
  ⟨((List.range (stepLanes k)).map fun m => once ((inFmt k).subnormal (bs m))).sum + once (f32.subnormal acc) + once (f32.subnormal res.1), once (res.2.getLsbD 2),
    ((List.range (stepLanes k)).map fun m => once ((inFmt k).val (bs m)).isSnan + once (p m).2).sum + once (f32.val acc).isSnan
      + pairInvalids k (fun m => (p m).1) + fourInvalids k (fun m => (p m).1) + once (stepTotal k as bs acc).2⟩

theorem floatStep_eq (un : KUnit) (a : List Word) (cb : BitVec 256) (from0 step j : ℕ) (acc : Word) :
    floatStep ((matA k a cb step).map (·.1)) (matB k (fun x => un.sbyte (from0 + x)) j) acc =
      (BitVec.ofNat 32 (f32.flush (f32.round .rn (stepTotal k (aElem k a cb step) (bElem k un from0 j) acc.toNat).1).1),
        stepEvents k (aElem k a cb step) (bElem k un from0 j) acc.toNat) := by
  have hacc := f32_proper.matIn_eq (x := acc.toNat) acc.isLt
  rw [matA_eq hk, matB_eq hk]
  simp only [floatStep, List.map_map, Function.comp_def, matProds_eq, matTree_eq hk, hacc, writeAcc_eq, List.foldl_map, foldl_plus]
  refine Prod.ext rfl ?_
  simp only [RowEv.plus, RowEv.zero, stepEvents, stepTotal, List.sum_map_add, List.map_const', List.sum_replicate, smul_zero, ite_eq_once]
  rw [RowEv.mk.injEq]
  exact ⟨by omega, by omega, by omega⟩

omit hk in
@[simp] theorem AccRow.get_count (r : AccRow) (e : RowEv) (j : ℕ) : (r.count e).get j = r.get j := rfl

theorem kstep_float (un : KUnit) (r : AccRow) (a : List Word) (cb : BitVec 256) (from0 step : ℕ) :
    let q := r.kstep k a cb (fun x => un.sbyte (from0 + x)) step
    let as := aElem k a cb step
    let ev := fun j => stepEvents k as (bElem k un from0 j) (r.get j).toNat
    let cols := fun f : ℕ → ℕ => ((List.range 128).map f).sum
    let tally := fun f : ℕ → ℕ => ((List.range (stepLanes k)).map f).sum
    (∀ j < 128, q.get j = BitVec.ofNat 32 (f32.flush (f32.round .rn (stepTotal k as (bElem k un from0 j) (r.get j).toNat).1).1))
      ∧ q = { r with
          data := q.data
          mxexc := mxAfter r.mxexc (tally (fun m => (aEvents k (as m)).flush) + cols fun j => (ev j).flush) (cols fun j => (ev j).ovf)
            (tally (fun m => (aEvents k (as m)).inv) + cols fun j => (ev j).inv) } := by
  have hint : k.isInt = false := by rcases hk with rfl | rfl | rfl | rfl <;> rfl
  simp only [AccRow.kstep, hint, Bool.false_eq_true, if_false, floatStep_eq hk]
  obtain ⟨hrow, hget⟩ := r.mapCols_eq 128 fun j acc =>
    (BitVec.ofNat 32 (f32.flush (f32.round .rn (stepTotal k (aElem k a cb step) (bElem k un from0 j) acc.toNat).1).1),
      stepEvents k (aElem k a cb step) (bElem k un from0 j) acc.toNat)
  refine ⟨fun j hj => by rw [AccRow.get_count, hget, if_pos hj], ?_⟩
  have hovf : ((List.range (stepLanes k)).map fun m => (aEvents k (aElem k a cb step m)).ovf).sum = 0 := by
    simp only [aEvents, List.map_const', List.sum_replicate, smul_zero]
  have hsum : ∀ x y : ℕ, x + (0 + y) = y + x := fun x y => by omega
  rw [matA_eq hk, List.foldl_map, foldl_plus, hovf]
  generalize hq : r.mapCols 128 _ = q at hrow
  rw [AccRow.count, mxCount_eq, hrow]
  simp only [mxAfter_mxAfter, RowEv.zero, hsum, Nat.add_zero, colEvents]

end Sys2Proof.Machine
end

section
/-! SUPPORT. What the row operations compute on an element (03 R79, R86; 07 R222 to R226): results that fit their format, elements narrowed,
quantised and exponentiated, and the sum tree on numbers rather than on their significands and exponents. -/
namespace Sys2Proof.Machine

/-! ### Results fit their format -/

section
variable {f : Fmt} (hf : f.Proper)
include hf

theorem Fmt.Proper.roundFin_form (mode : RMode) (neg : Bool) {m : ℕ} (hm : m ≠ 0) (e : ℤ) :
    ∃ r ≤ f.inf, (f.roundFin mode neg m e).1 = (if neg then f.signBit else 0) + r := by
  obtain ⟨p, -, hround⟩ := hf.roundFin_spec mode neg hm e
  rw [hround, Fmt.roundMag]
  by_cases hp : f.inf ≤ f.pick mode neg (m * 2 ^ e) p
  · rw [if_pos hp]
    refine ⟨_, ?_, rfl⟩
    cases mode <;> dsimp only [Fmt.maxFin] <;> cases neg <;> simp
  · rw [if_neg hp]
    exact ⟨_, (not_le.1 hp).le, rfl⟩

theorem Fmt.Proper.nan_lt : f.nan < f.signBit := by
  rw [hf.signBit_eq, Fmt.nan]
  exact Nat.add_lt_add_left (Nat.pow_lt_pow_right (by norm_num) (by have := hf.mb; omega)) _

theorem Fmt.Proper.round_lt (mode : RMode) (v : FVal) : (f.round mode v).1 < 2 * f.signBit := by
  have hinf := hf.inf_lt_signBit
  have hnan := hf.nan_lt
  cases v with
  | nan s =>
    change f.nan < _
    omega
  | inf a =>
    change (if a = true then f.signBit else 0) + f.inf < _
    split_ifs <;> omega
  | fin a m e =>
    rcases eq_or_ne m 0 with rfl | hm
    · rw [f.round_zero]
      dsimp only
      split_ifs <;> omega
    · rw [f.round_fin _ _ hm]
      obtain ⟨r, hr, hform⟩ := hf.roundFin_form mode a hm e
      rw [hform]
      split_ifs <;> omega

omit hf in
theorem Fmt.flush_lt {x : ℕ} (hx : x < 2 * f.signBit) : f.flush x < 2 * f.signBit := by
  unfold Fmt.flush
  split_ifs
  · exact (Nat.div_mul_le_self ..).trans_lt hx
  · exact hx

/-- A finite value is that of a finite pattern. -/
theorem Fmt.Proper.finite_of_val {x : ℕ} (hx : x < 2 * f.signBit) {a : Bool} {m : ℕ} {e : ℤ} (h : f.val x = .fin a m e) : f.Finite x := by
  refine ⟨hx, ?_⟩
  rcases lt_trichotomy (x % f.signBit) f.inf with hlt | heq | hgt
  · exact hlt
  · rw [hf.val_inf hx heq] at h
    cases h
  · rw [hf.val_nan hgt] at h
    cases h

theorem Fmt.Proper.isNan_flush {x : ℕ} (hx : x < 2 * f.signBit) : (f.val (f.flush x)).isNan = (f.val x).isNan := by
  unfold Fmt.flush
  split_ifs with hs
  · have hlt : x % f.signBit < f.inf := not_le.1 fun h => by simp [hf.not_subnormal h] at hs
    rw [hf.val_flushed hx, Fmt.val_eq hx hlt]
    rfl
  · rfl

end

theorem toNat_ofNat_f32 {x : ℕ} (hx : x < 2 * f32.signBit) : (BitVec.ofNat 32 x).toNat = x := by
  rw [BitVec.toNat_ofNat]
  exact Nat.mod_eq_of_lt hx

/-! ### FEX2 gives no negative pattern -/

theorem fixExp2_ne_zero (f : ℕ) : fixExp2 f ≠ 0 := by
  have h : fixExp2 f = 2 ^ fixBits + expSeries (f * fixLn2 / 2 ^ fixBits) 69 2 (2 ^ fixBits * (f * fixLn2 / 2 ^ fixBits) / 2 ^ fixBits / 1) := rfl
  rw [h]
  exact ((Nat.two_pow_pos _).trans_le (Nat.le_add_right ..)).ne'

theorem roundFin_f32_le (mode : RMode) {m : ℕ} (hm : m ≠ 0) (e : ℤ) : (f32.roundFin mode false m e).1 ≤ f32.inf := by
  obtain ⟨r, hr, hform⟩ := f32_proper.roundFin_form mode false hm e
  rw [hform]
  simpa using hr

theorem ulpPick_le {n b lo hi v : ℕ} (hb : b ≤ f32.inf) : ulpPick n b lo hi v ≤ f32.inf := by
  rw [ulpPick]
  by_cases h : v % (ulpAmong n b lo hi).length < (ulpAmong n b lo hi).length
  · rw [List.getD_eq_getElem _ _ h]
    have hmem := (List.mem_filter.1 (List.getElem_mem h)).2
    rw [Bool.and_eq_true, decide_eq_true_eq] at hmem
    exact hmem.1
  · rw [List.getD_eq_default _ _ (not_lt.1 h)]
    exact hb

theorem fixNear_le {n t : ℕ} (ht : t ≠ 0) (e : ℤ) (v : ℕ) : fixNear n t e v ≤ f32.inf := by
  have hb := roundFin_f32_le .rz ht (e - fixBits)
  simp only [fixNear, ulpNear]
  split_ifs <;> exact ulpPick_le hb

theorem ex2Near_le (neg : Bool) (m : ℕ) (e : ℤ) (v : ℕ) : ex2Near neg m e v ≤ f32.inf := by
  simp only [ex2Near]
  split_ifs
  · exact fixNear_le (fixExp2_ne_zero _) ..
  · exact fixNear_le (fixExp2_ne_zero _) ..

theorem fex2_lt (mode : RMode) (x : ℕ) : (fex2 mode x).1 < f32.signBit := by
  have hinf := f32_proper.inf_lt_signBit
  unfold fex2
  split
  · exact f32_proper.nan_lt
  · split_ifs
    · exact Nat.two_pow_pos _
    · exact hinf
  · next neg m e _ =>
    by_cases hm : m = 0
    · rw [if_pos hm]
      decide
    rw [if_neg hm]
    cases asInt m e with
    | some n =>
      have h := (roundFin_f32_le mode one_ne_zero (if neg then -(min n 400 : Nat) else (min n 400 : Nat))).trans_lt hinf
      dsimp only
      split_ifs at h ⊢ <;> exact h
    | none =>
      dsimp only
      by_cases hbig : (!neg && decide (128 * 2 ^ 149 ≤ m * 2 ^ (e + 149).toNat)) = true
      · rw [if_pos hbig]
        cases mode <;> decide
      · rw [if_neg hbig]
        exact (ex2Near_le ..).trans_lt hinf

/-! ### Values that stand for the same number -/

/-- Two values that are the same number, infinity or NaN: significand and exponent may differ. -/
def FVal.Same : FVal → FVal → Prop
  | .nan _, .nan _ => True
  | .inf a, .inf b => a = b
  | .fin a m e, .fin b n g => a = b ∧ (m : ℚ) * 2 ^ e = n * 2 ^ g
  | _, _ => False

theorem FVal.Same.refl (v : FVal) : v.Same v := by
  cases v
  · trivial
  · rfl
  · exact ⟨rfl, rfl⟩

theorem magnitude_eq_zero {m : ℕ} {e : ℤ} : (m : ℚ) * 2 ^ e = 0 ↔ m = 0 := by
  simp [zpow_ne_zero]

theorem FVal.Same.rat_eq {a b : Bool} {m n : ℕ} {e g : ℤ} (h : (FVal.fin a m e).Same (.fin b n g)) : (FVal.fin a m e).rat = (FVal.fin b n g).rat := by
  obtain ⟨rfl, h⟩ := h
  simp only [FVal.rat, mul_assoc, h]

/-- Values of one rational number are the same, once zeros have the same sign. -/
theorem FVal.same_of_rat {a b : Bool} {m n : ℕ} {e g : ℤ} (h : (FVal.fin a m e).rat = (FVal.fin b n g).rat) (h0 : m = 0 → n = 0 → a = b) :
    (FVal.fin a m e).Same (.fin b n g) := by
  have hx : (0 : ℚ) ≤ m * 2 ^ e := by positivity
  have hy : (0 : ℚ) ≤ n * 2 ^ g := by positivity
  simp only [FVal.rat, mul_assoc] at h
  by_cases hab : a = b
  · subst hab
    refine ⟨rfl, mul_left_cancel₀ ?_ h⟩
    cases a <;> norm_num
  · have hsum : (m : ℚ) * 2 ^ e = -(n * 2 ^ g) := by
      cases a <;> cases b <;> simp at h hab <;> linarith
    have hm : (m : ℚ) * 2 ^ e = 0 := by linarith
    exact absurd (h0 (magnitude_eq_zero.1 hm) (magnitude_eq_zero.1 (by linarith))) hab

/-- A sum does not depend on how its terms are written. -/
theorem FVal.Same.fadd {v v' w w' : FVal} (hv : v.Same v') (hw : w.Same w') : (fadd .rn v w).1.Same (fadd .rn v' w').1 := by
  cases v <;> cases v' <;> simp only [FVal.Same] at hv <;> cases w <;> cases w' <;> simp only [FVal.Same] at hw
  case fin.fin.fin.fin a m e a' m' e' b n g b' n' g' =>
    obtain ⟨s, k, l, hs, hrat, hzero⟩ := fadd_fin .rn a b m n e g
    obtain ⟨s', k', l', hs', hrat', hzero'⟩ := fadd_fin .rn a' b' m' n' e' g'
    rw [hs, hs']
    have hva : (FVal.fin a m e).Same (.fin a' m' e') := hv
    have hwb : (FVal.fin b n g).Same (.fin b' n' g') := hw
    refine FVal.same_of_rat (by rw [hrat, hrat', hva.rat_eq, hwb.rat_eq]) fun hk hk' => ?_
    rw [hzero hk, hzero' hk', hv.1, hw.1]
  case inf.inf.inf.inf a a' b b' =>
    subst hv hw
    exact .refl _
  case inf.inf.fin.fin => exact hv
  case fin.fin.inf.inf => exact hw
  all_goals trivial

/-- Round24 keeps a number's sign and rounds its magnitude to 24 bits. -/
theorem round24_rat (neg : Bool) {m : ℕ} (hm : m ≠ 0) (e : ℤ) : ∃ (r : ℕ) (q : ℤ), round24 (.fin neg m e) = .fin neg r q
    ∧ (r : ℚ) * 2 ^ q = nearestNat .rn neg (m * 2 ^ e * 2 ^ (-(Int.log 2 ((m : ℚ) * 2 ^ e) - 23))) * 2 ^ (Int.log 2 ((m : ℚ) * 2 ^ e) - 23) := by
  have hq : e + bitLen m - 24 = Int.log 2 ((m : ℚ) * 2 ^ e) - 23 := by rw [log_mul_zpow hm]; ring
  by_cases h : bitLen m ≤ 24
  · refine ⟨m, e, if_pos h, ?_⟩
    obtain ⟨d, hd⟩ := Nat.exists_eq_add_of_le h
    have hint : (m : ℚ) * 2 ^ e * 2 ^ (-(Int.log 2 ((m : ℚ) * 2 ^ e) - 23)) = (m * 2 ^ d : ℕ) := by
      rw [← hq, mul_assoc, ← zpow_add₀ two_ne_zero, show e + -(e + (bitLen m : ℤ) - 24) = d by omega]
      push_cast
      rfl
    rw [hint, nearestNat_natCast, ← hint, mul_assoc ((m : ℚ) * 2 ^ e), ← zpow_add₀ two_ne_zero, neg_add_cancel, zpow_zero, mul_one]
  · refine ⟨_, _, if_neg h, ?_⟩
    rw [hq, roundAt_zpow]

theorem FVal.Same.round24 {v w : FVal} (h : v.Same w) : (round24 v).Same (round24 w) := by
  cases v <;> cases w <;> simp only [FVal.Same] at h
  case fin.fin a m e b n g =>
    obtain ⟨rfl, hmag⟩ := h
    rcases eq_or_ne m 0 with rfl | hm
    · obtain rfl : n = 0 := by
        rw [← magnitude_eq_zero (e := g), ← hmag]
        simp
      exact ⟨rfl, by simp⟩
    · have hn : n ≠ 0 := fun h0 => hm (magnitude_eq_zero (e := e) |>.1 (by rw [hmag, h0]; simp))
      obtain ⟨r, q, hr, hrq⟩ := round24_rat a hm e
      obtain ⟨r', q', hr', hrq'⟩ := round24_rat a hn g
      rw [hr, hr']
      exact ⟨rfl, by rw [hrq, hrq', hmag]⟩
  case inf.inf => exact h
  all_goals trivial

theorem FVal.Same.round_eq {v w : FVal} (h : v.Same w) (f : Fmt) (mode : RMode) : f.round mode v = f.round mode w := by
  cases v <;> cases w <;> simp only [FVal.Same] at h
  case fin.fin a m e b n g =>
    obtain ⟨rfl, hmag⟩ := h
    rcases eq_or_ne m 0 with rfl | hm
    · obtain rfl : n = 0 := by
        rw [← magnitude_eq_zero (e := g), ← hmag]
        simp
      rfl
    · have hn : n ≠ 0 := fun h0 => hm (magnitude_eq_zero (e := e) |>.1 (by rw [hmag, h0]; simp))
      rw [f.round_fin _ _ hm, f.round_fin _ _ hn, f.roundFin_eq _ _ hm, f.roundFin_eq _ _ hn, hmag]
  case inf.inf => rw [h]
  all_goals rfl

theorem treeSum_same {y z : ℕ → FVal} (h : ∀ j, (y j).Same (z j)) (k j : ℕ) : (treeSum y k j).Same (treeSum z k j) := by
  induction k generalizing j with
  | zero => exact h j
  | succ k ih => exact ((ih _).fadd (ih _)).round24

/-! ### The sum tree of ACCEXS (R226) -/

theorem sumLevel_range (g : ℕ → FVal) (n : ℕ) :
    sumLevel ((List.range (2 * n)).map g) = (List.range n).map fun j => (round24 (fadd .rn (g (2 * j)) (g (2 * j + 1))).1) := by
  induction n generalizing g with
  | zero => rfl
  | succ n ih =>
    have h := ih fun j => g (j + 2)
    rw [show 2 * (n + 1) = 2 * n + 1 + 1 by ring, List.range_succ_eq_map, List.range_succ_eq_map, List.range_succ_eq_map]
    simp only [List.map_cons, List.map_map, Function.comp_def, Nat.succ_eq_add_one, sumLevel]
    rw [h]
    rfl

theorem sumLevels_range (g : ℕ → FVal) (k l : ℕ) :
    (List.range k).foldl (fun l _ => sumLevel l) ((List.range (2 ^ (k + l))).map g) = (List.range (2 ^ l)).map (treeSum g k) := by
  induction k generalizing l with
  | zero => rw [Nat.zero_add]; rfl
  | succ k ih =>
    rw [List.range_succ, List.foldl_append, show k + 1 + l = k + (l + 1) by ring, ih, pow_succ, Nat.mul_comm]
    exact sumLevel_range ..

/-! ### An element exponentiated (R226) -/

/-- A NaN result: the element is not negative infinity, and it or the subtrahend is a NaN. -/
def expNan (m x : ℕ) : Bool := decide (f32.val x ≠ .inf true) && ((f32.val x).isNan || (f32.val m).isNan)

/-- A result of FEX2. -/
def expPlain (m x : ℕ) : Bool := decide (f32.val x ≠ .inf true) && !expNan m x

/-- The difference that is exponentiated. -/
def expArg (m x : ℕ) : ℕ := (f32.add .rn x (m ^^^ 0x80000000)).1

/-- The element that results. -/
def expOut (m x : ℕ) : ℕ := if expNan m x then 0x7FC00000 else if expPlain m x then f32.flush (fex2 .rn (expArg m x)).1 else 0

/-- The exponential of a finite difference overflows. -/
def expOver (m x : ℕ) : Bool :=
  expPlain m x && decide ((fex2 .rn (expArg m x)).1 = 0x7F800000) && !(f32.val (expArg m x)).isInf && !(f32.val (expArg m x)).isNan

theorem expOut_lt (m x : ℕ) : expOut m x < 2 * f32.signBit := by
  unfold expOut
  split_ifs
  · decide
  · exact Fmt.flush_lt ((fex2_lt ..).trans (by decide))
  · decide

theorem expElem_eq (m x : Word) : expElem m x = (BitVec.ofNat 32 (expOut m.toNat x.toNat),
    ⟨once (expPlain m.toNat x.toNat && f32.subnormal (fex2 .rn (expArg m.toNat x.toNat)).1), once (expOver m.toNat x.toNat), once (expNan m.toNat x.toNat)⟩) := by
  have hz : (m ^^^ 0x80000000#32).toNat = m.toNat ^^^ 0x80000000 := BitVec.toNat_xor ..
  by_cases hx : f32.val x.toNat = .inf true
  · simp only [expElem, hx, expOut, expOver, expPlain, expNan, ne_eq, not_true, decide_false, Bool.false_and, Bool.false_eq_true, if_false]
    rfl
  by_cases hn : ((f32.val x.toNat).isNan || (f32.val m.toNat).isNan) = true
  · have hnan : expNan m.toNat x.toNat = true := by simp only [expNan, hn, ne_eq, hx, not_false_eq_true, decide_true, Bool.and_self]
    have hplain : expPlain m.toNat x.toNat = false := by simp only [expPlain, hnan, Bool.not_true, Bool.and_false]
    have hval : expElem m x = (0x7FC00000#32, ⟨0, 0, 1⟩) := by
      unfold expElem
      split
      · contradiction
      · rw [if_pos hn]
    simp only [hval, expOut, expOver, hnan, hplain, Bool.false_and, if_true]
    rfl
  · have hnan : expNan m.toNat x.toNat = false := by
      rw [Bool.not_eq_true] at hn
      simp only [expNan, hn, Bool.and_false]
    have hplain : expPlain m.toNat x.toNat = true := by simp only [expPlain, hnan, ne_eq, hx, not_false_eq_true, decide_true, Bool.not_false, Bool.and_self]
    have hlt := fex2_lt .rn (expArg m.toNat x.toNat)
    have hval : expElem m x =
        (let z := expArg m.toNat x.toNat
         let y := (fex2 .rn z).1
         if y = f32.inf then (BitVec.ofNat 32 y, ⟨0, if (!(f32.val z).isInf && !(f32.val z).isNan) = true then 1 else 0, 0⟩)
         else if y % 2 ^ 31 ≠ 0 ∧ y % 2 ^ 31 < 2 ^ 23 then (0#32, ⟨1, 0, 0⟩)
         else (BitVec.ofNat 32 y, RowEv.zero)) := by
      unfold expElem
      split
      · contradiction
      · rw [if_neg hn, hz]
        dsimp only [expArg]
        cases f32.val (f32.add .rn x.toNat (m.toNat ^^^ 0x80000000)).1 <;> rfl
    rw [hval]
    simp only [expOut, expOver, hnan, hplain, Bool.true_and, if_true, Bool.false_eq_true, if_false]
    generalize expArg m.toNat x.toNat = z at hlt
    generalize (fex2 .rn z).1 = y at hlt
    by_cases hinf : y = f32.inf
    · subst hinf
      rw [if_pos rfl]
      simp only [f32_inf, decide_true, Bool.true_and]
      rfl
    · have hne : ¬ y = 0x7F800000 := hinf
      rw [if_neg hinf]
      simp only [hne, decide_false, Bool.false_and]
      by_cases hs : f32.subnormal y = true
      · rw [if_pos ((f32_subnormal_iff y).1 hs), Fmt.flush, if_pos hs, Nat.div_eq_of_lt hlt, Nat.zero_mul, hs]
        rfl
      · rw [if_neg fun h => hs ((f32_subnormal_iff y).2 h), Fmt.flush, if_neg hs, Bool.eq_false_iff.2 hs]
        rfl

end Sys2Proof.Machine
end

section
/-! SUPPORT. What the row operations compute on a row (07 R222, R223, R225, R226): the largest element, elements narrowed and quantised, the
exponentials and their sum. -/
namespace Sys2Proof.Machine

/-! ### The order of values (R75) -/

/-- The place of a value that is no NaN in that order: infinities outermost, -0 below +0. -/
def FVal.rank : FVal → ℤ ×ₗ (ℚ ×ₗ ℕ)
  | .nan _ => toLex (0, toLex (0, 0))
  | .inf a => toLex (if a then -1 else 1, toLex (0, 0))
  | .fin a m e => toLex (0, toLex ((FVal.fin a m e).rat, if m = 0 ∧ a = false then 1 else 0))

theorem fltTotal_zeros (a b : Bool) (e g : ℤ) : fltTotal (.fin a 0 e) (.fin b 0 g) = true ↔ (FVal.fin a 0 e).rank < (FVal.fin b 0 g).rank := by
  have h0 : ∀ (c : Bool) (i : ℤ), (FVal.fin c 0 i).rat = 0 := fun c i => (FVal.rat_fin_eq_zero ..).2 rfl
  simp only [fltTotal, FVal.rank, h0, Prod.Lex.toLex_lt_toLex, lt_irrefl, false_or, true_and]
  cases a <;> cases b <;> simp

theorem fltTotal_of_ne {a b : Bool} {m n : ℕ} {e g : ℤ} (h : ¬ (m = 0 ∧ n = 0)) :
    fltTotal (.fin a m e) (.fin b n g) = true ↔ (FVal.fin a m e).rank < (FVal.fin b n g).rank := by
  have hflt : fltTotal (.fin a m e) (.fin b n g) = flt (.fin a m e) (.fin b n g) := by
    cases m <;> cases n <;> simp_all [fltTotal]
  have hzero : (FVal.fin a m e).rat = (FVal.fin b n g).rat → m ≠ 0 ∧ n ≠ 0 := by
    intro hr
    have := FVal.rat_fin_eq_zero a m e
    have := FVal.rat_fin_eq_zero b n g
    rw [hr] at *
    tauto
  rw [hflt, flt_fin]
  simp only [FVal.rank, Prod.Lex.toLex_lt_toLex, lt_irrefl, false_or, true_and]
  refine ⟨.inl, fun hlt => hlt.elim id fun ⟨hr, hz⟩ => ?_⟩
  obtain ⟨hm, hn⟩ := hzero hr
  simp [hm, hn] at hz

theorem fltTotal_iff {v w : FVal} (hv : v.isNan = false) (hw : w.isNan = false) : fltTotal v w = true ↔ v.rank < w.rank := by
  cases v <;> simp only [FVal.isNan, Bool.true_eq_false] at hv <;> cases w <;> simp only [FVal.isNan, Bool.true_eq_false] at hw
  case inf.inf a b => cases a <;> cases b <;> simp [fltTotal, flt, FVal.rank, Prod.Lex.toLex_lt_toLex]
  case inf.fin a n b g => cases a <;> simp [fltTotal, flt, FVal.rank, Prod.Lex.toLex_lt_toLex]
  case fin.inf a m e b => cases b <;> simp [fltTotal, flt, FVal.rank, Prod.Lex.toLex_lt_toLex]
  case fin.fin a m e b n g =>
    by_cases h : m = 0 ∧ n = 0
    · obtain ⟨rfl, rfl⟩ := h
      exact fltTotal_zeros a b e g
    · exact fltTotal_of_ne h

/-! ### ACCMX (R225) -/

/-- The greater of two elements, the first where neither is less. -/
def accMax (m x : Word) : Word := if fltTotal (f32.val m.toNat) (f32.val x.toNat) then x else m

/-- The elements from which a maximum is folded: it is one of them, and below none. -/
theorem foldl_accMax (l : List Word) (y : Word) (hy : (f32.val y.toNat).isNan = false) (hl : ∀ x ∈ l, (f32.val x.toNat).isNan = false) :
    l.foldl accMax y ∈ y :: l ∧ ∀ x ∈ y :: l, fltTotal (f32.val (l.foldl accMax y).toNat) (f32.val x.toNat) = false := by
  induction l generalizing y with
  | nil =>
    refine ⟨List.mem_cons_self, fun x hx => ?_⟩
    obtain rfl : x = y := by simpa using hx
    rw [← Bool.not_eq_true, List.foldl_nil, fltTotal_iff hy hy]
    exact lt_irrefl _
  | cons x l ih =>
    have hx : (f32.val x.toNat).isNan = false := hl x (by simp)
    have hl' : ∀ z ∈ l, (f32.val z.toNat).isNan = false := fun z hz => hl z (by simp [hz])
    have hmax : (f32.val (accMax y x).toNat).isNan = false := by unfold accMax; split_ifs <;> assumption
    obtain ⟨hmem, hnone⟩ := ih (accMax y x) hmax hl'
    rw [List.foldl_cons]
    have hres : (f32.val (l.foldl accMax (accMax y x)).toNat).isNan = false := (List.mem_cons.1 hmem).elim (fun h => by rw [h]; exact hmax) (hl' _)
    have hover := hnone _ List.mem_cons_self
    rw [← Bool.not_eq_true, fltTotal_iff hres hmax, not_lt] at hover
    have hpair : (f32.val y.toNat).rank ≤ (f32.val (accMax y x).toNat).rank ∧ (f32.val x.toNat).rank ≤ (f32.val (accMax y x).toNat).rank := by
      unfold accMax
      split_ifs with h
      · exact ⟨((fltTotal_iff hy hx).1 h).le, le_rfl⟩
      · exact ⟨le_rfl, not_lt.1 fun hlt => h ((fltTotal_iff hy hx).2 hlt)⟩
    refine ⟨?_, fun z hz => ?_⟩
    · have hone : accMax y x = y ∨ accMax y x = x := by unfold accMax; split_ifs <;> simp
      rcases List.mem_cons.1 hmem with h | h
      · rcases hone with e | e <;> rw [h, e] <;> simp
      · simp [h]
    · rcases List.mem_cons.1 hz with rfl | hz
      · rw [← Bool.not_eq_true, fltTotal_iff hres hy]
        exact not_lt.2 (hpair.1.trans hover)
      · rcases List.mem_cons.1 hz with rfl | hz
        · rw [← Bool.not_eq_true, fltTotal_iff hres hx]
          exact not_lt.2 (hpair.2.trans hover)
        · exact hnone z (List.mem_cons_of_mem _ hz)

/-- An element as ACCMX takes it. -/
def accFlush (x : Word) : Word × Nat :=
  if x.toNat % 2 ^ 31 < 2 ^ 23 && x.toNat % 2 ^ 31 ≠ 0 then (x &&& 0x80000000#32, 1) else (x, 0)

theorem accFlush_eq (x : Word) : (accFlush x).1.toNat = f32.flush x.toNat ∧ (accFlush x).2 = once (f32.subnormal x.toNat) := by
  have hiff : (decide (x.toNat % 2 ^ 31 < 2 ^ 23) && decide (x.toNat % 2 ^ 31 ≠ 0)) = f32.subnormal x.toNat := Bool.and_comm ..
  have hbit : (x &&& 0x80000000#32).toNat = x.toNat / 2 ^ 31 * 2 ^ 31 := by
    have hlt : x.toNat / 2 ^ 31 < 2 := Nat.div_lt_of_lt_mul x.isLt
    rw [BitVec.toNat_and, show (0x80000000#32).toNat = 2 ^ 31 from rfl, Nat.and_two_pow, Nat.testBit_eq_decide_div_mod_eq, Nat.mod_eq_of_lt hlt]
    interval_cases x.toNat / 2 ^ 31 <;> rfl
  unfold accFlush Fmt.flush
  rw [hiff]
  by_cases h : f32.subnormal x.toNat = true
  · rw [if_pos h, if_pos h, h]
    exact ⟨hbit, rfl⟩
  · rw [if_neg h, if_neg h, Bool.eq_false_iff.2 h]
    exact ⟨rfl, rfl⟩

theorem maxOf_eq (r : AccRow) (n : ℕ) (extra : Option Word) : r.maxOf n extra =
    (let ys := ((List.range n).map r.get ++ extra.toList).map fun x => (accFlush x).1
     let fl := (((List.range n).map r.get ++ extra.toList).map fun x => (accFlush x).2).sum
     if ys.any fun y => (f32.val y.toNat).isNan then (0x7FC00000#32, r.count ⟨fl, 0, 1⟩)
     else
       match ys with
       | [] => (0#32, r)
       | y :: t => (t.foldl accMax y, r.count ⟨fl, 0, 0⟩)) := rfl

theorem maxOf_spec (r : AccRow) {n : ℕ} (hn : 1 ≤ n) (extra : Option Word) :
    let takes := (List.range n).map (fun j => (r.get j).toNat) ++ (extra.map (·.toNat)).toList
    let nan := takes.any fun e => (f32.val e).isNan
    (r.maxOf n extra).2 = { r with mxexc := mxAfter r.mxexc (takes.countP f32.subnormal) 0 (if nan then 1 else 0) }
      ∧ (nan = true → (r.maxOf n extra).1 = 0x7FC00000#32)
      ∧ (nan = false → (∃ e ∈ takes, (r.maxOf n extra).1.toNat = f32.flush e)
        ∧ ∀ e ∈ takes, fltTotal (f32.val (r.maxOf n extra).1.toNat) (f32.val (f32.flush e)) = false) := by
  intro takes nan
  have htakes : takes = ((List.range n).map r.get ++ extra.toList).map BitVec.toNat := by
    cases extra <;> simp [takes, Function.comp_def]
  have hnil : (List.range n).map r.get ++ extra.toList ≠ [] := by
    intro h
    have := congrArg List.length h
    simp at this
    omega
  rw [maxOf_eq]
  simp only [nan, htakes]
  generalize (List.range n).map r.get ++ extra.toList = xs at hnil
  have hval : ∀ x : Word, (f32.val (accFlush x).1.toNat).isNan = (f32.val x.toNat).isNan := fun x => by
    rw [(accFlush_eq x).1, f32_proper.isNan_flush x.isLt]
  have hany : ((xs.map fun x => (accFlush x).1).any fun y => (f32.val y.toNat).isNan) = (xs.map BitVec.toNat).any fun e => (f32.val e).isNan := by
    simp only [List.any_map, Function.comp_def, hval]
  have hsum : (xs.map fun x => (accFlush x).2).sum = (xs.map BitVec.toNat).countP f32.subnormal := by
    rw [← countP_eq_sum, List.map_map]
    simp only [(accFlush_eq _).2]
    rfl
  rw [hany, hsum]
  by_cases hn : ((xs.map BitVec.toNat).any fun e => (f32.val e).isNan) = true
  · rw [if_pos hn, hn]
    exact ⟨by rw [AccRow.count, mxCount_eq]; rfl, fun _ => rfl, fun h => absurd h (by simp)⟩
  · obtain ⟨x, l, rfl⟩ := List.exists_cons_of_ne_nil hnil
    rw [if_neg hn, Bool.eq_false_iff.2 hn]
    have hnone : ∀ z ∈ x :: l, (f32.val (accFlush z).1.toNat).isNan = false := fun z hz => by
      rw [hval]
      exact Bool.eq_false_iff.2 fun h => hn (List.any_eq_true.2 ⟨z.toNat, List.mem_map_of_mem hz, h⟩)
    obtain ⟨hmem, hover⟩ := foldl_accMax (l.map fun x => (accFlush x).1) (accFlush x).1 (hnone x (by simp)) fun z hz => by
      obtain ⟨w, hw, rfl⟩ := List.mem_map.1 hz
      exact hnone w (by simp [hw])
    rw [← List.map_cons (f := fun x => (accFlush x).1)] at hmem hover
    refine ⟨by rw [AccRow.count, mxCount_eq]; rfl, fun h => absurd h (by simp), fun _ => ⟨?_, fun e he => ?_⟩⟩
    · obtain ⟨z, hz, hez⟩ := List.mem_map.1 hmem
      refine ⟨z.toNat, List.mem_map_of_mem hz, ?_⟩
      rw [← (accFlush_eq z).1, hez]
      rfl
    · obtain ⟨z, hz, rfl⟩ := List.mem_map.1 he
      rw [← (accFlush_eq z).1]
      exact hover _ (List.mem_map_of_mem hz)

/-! ### ACCEXS (R226) -/

theorem countP_range_lt {n N : ℕ} (h : n ≤ N) (p : ℕ → Bool) : (List.range N).countP (fun j => decide (j < n) && p j) = (List.range n).countP p := by
  obtain ⟨d, rfl⟩ := Nat.exists_eq_add_of_le h
  have hlow : (List.range n).countP (fun j => decide (j < n) && p j) = (List.range n).countP p :=
    List.countP_congr fun j hj => by simp [List.mem_range.1 hj]
  have hhigh : ((List.range d).map (n + ·)).countP (fun j => decide (j < n) && p j) = 0 := List.countP_eq_zero.2 fun j hj => by
    obtain ⟨i, -, rfl⟩ := List.mem_map.1 hj
    simp
  rw [List.range_add, List.countP_append, hlow, hhigh, Nat.add_zero]

/-- The elements of the tree: the exponentials, and zeros after them. -/
def expTerm (r : AccRow) (n : ℕ) (m : Word) (j : ℕ) : ℕ := if j < n then expOut m.toNat (r.get j).toNat else 0

/-- The sum of the tree. -/
def expTotal (r : AccRow) (n : ℕ) (m : Word) : FRes := f32.round .rn (treeSum (fun j => f32.val (expTerm r n m j)) 7 0)

theorem expSum_spec (r : AccRow) (n : ℕ) (m : Word) :
    let s := expTotal r n m
    let count := fun p : ℕ → Bool => (List.range n).countP p
    let x := fun j => (r.get j).toNat
    let q := (r.expSum n m).2
    (r.expSum n m).1 = BitVec.ofNat 32 (f32.flush s.1)
      ∧ (∀ j, q.get j = if j < n then BitVec.ofNat 32 (expOut m.toNat (x j)) else r.get j)
      ∧ q = { r with
          data := q.data
          mxexc := mxAfter r.mxexc
            ((count fun j => expPlain m.toNat (x j) && f32.subnormal (fex2 .rn (expArg m.toNat (x j))).1) + once (f32.subnormal s.1))
            ((count fun j => expOver m.toNat (x j)) + once (s.2.getLsbD 2)) (count fun j => expNan m.toNat (x j)) } := by
  obtain ⟨hrow, hget⟩ := r.mapCols_eq n fun _ x => expElem m x
  have hterm : ∀ j, (if j < n then f32.val ((r.mapCols n fun _ x => expElem m x).get j).toNat else .fin false 0 0).Same (f32.val (expTerm r n m j)) := by
    intro j
    by_cases hj : j < n
    · rw [if_pos hj, hget, if_pos hj, expElem_eq, toNat_ofNat_f32 (expOut_lt _ _), expTerm, if_pos hj]
      exact .refl _
    · simp only [if_neg hj, expTerm]
      have h0 : f32.val 0 = .fin false 0 (-149) := by decide
      rw [h0]
      exact ⟨rfl, by simp⟩
  have hsame := treeSum_same hterm 7 0
  have hlevels := sumLevels_range (fun j => if j < n then f32.val ((r.mapCols n fun _ x => expElem m x).get j).toNat else .fin false 0 0) 7 0
  have hsum : r.expSum n m = ((writeAcc (treeSum (fun j => f32.val (expTerm r n m j)) 7 0)).1,
      (r.mapCols n fun _ x => expElem m x).count (writeAcc (treeSum (fun j => f32.val (expTerm r n m j)) 7 0)).2) := by
    have hwrite : ∀ {v w : FVal}, v.Same w → writeAcc v = writeAcc w := fun h => by rw [writeAcc_eq, writeAcc_eq, h.round_eq]
    rw [← hwrite hsame]
    simp only [AccRow.expSum]
    rw [show (128 : ℕ) = 2 ^ (7 + 0) from rfl, hlevels]
    rfl
  intro s count x q
  have hcol : ∀ p : ℕ → Bool, ((List.range n).map fun j => once (p j)).sum = count p := fun p => countP_eq_sum _ p
  refine ⟨by rw [hsum, writeAcc_eq]; rfl, fun j => ?_, ?_⟩
  · simp only [q, hsum, AccRow.get_count, hget]
    simp only [expElem_eq, x]
  · simp only [q, hsum, writeAcc_eq, AccRow.count, mxCount_eq]
    rw [hrow]
    simp only [mxAfter_mxAfter, colEvents, expElem_eq, hcol, Nat.add_zero]
    rfl

/-! ### Elements narrowed and quantised (R222, R223) -/

theorem narrowAcc_eq (f : Fmt) (x : Word) : narrowAcc f x = (f.flush (fcvt f32 f .rn x.toNat).1,
    ⟨once (f.subnormal (fcvt f32 f .rn x.toNat).1), once ((fcvt f32 f .rn x.toNat).2.getLsbD 2), 0⟩) := by
  have hof : once ((fcvt f32 f .rn x.toNat).2.getLsbD 2) = if (fcvt f32 f .rn x.toNat).2 &&& flOF ≠ 0#5 then 1 else 0 := by
    rw [getLsbD_flOF]
    simp only [once, decide_eq_true_eq]
  rw [hof]
  unfold narrowAcc Fmt.flush
  by_cases h : f.subnormal (fcvt f32 f .rn x.toNat).1 = true
  · rw [if_pos h, h]
    exact if_pos ((f.subnormal_iff _).1 h)
  · rw [if_neg h, Bool.eq_false_iff.2 h]
    exact if_neg fun h' => h ((f.subnormal_iff _).2 h')

theorem Fmt.Proper.fcvt_lt {f : Fmt} (hf : f.Proper) (g : Fmt) (mode : RMode) (x : ℕ) : (fcvt g f mode x).1 < 2 * f.signBit := hf.round_lt mode (g.val x)

theorem Fmt.Proper.mul_lt {f : Fmt} (hf : f.Proper) (mode : RMode) (x y : ℕ) : (f.mul mode x y).1 < 2 * f.signBit :=
  hf.round_lt mode (fmul (f.val x) (f.val y)).1

theorem IntegerFor.unique {x : ℚ} {n k : ℤ} (hn : IntegerFor .rn x n) (hk : IntegerFor .rn x k) : n = k := by
  obtain ⟨hn1, hn2⟩ := hn
  obtain ⟨hk1, hk2⟩ := hk
  have hd : |(n : ℚ) - k| ≤ 1 := by
    rw [abs_le] at *
    constructor <;> linarith [hn1.1, hn1.2, hk1.1, hk1.2]
  have hd' : |n - k| ≤ 1 := by exact_mod_cast hd
  by_contra hne
  have hone : (n : ℚ) - k = 1 ∨ (n : ℚ) - k = -1 := by
    have : n - k = 1 ∨ n - k = -1 := by rw [abs_le] at hd'; omega
    exact_mod_cast this
  have hhalf : |(n : ℚ) - x| = 1 / 2 ∧ |(k : ℚ) - x| = 1 / 2 := by
    rw [abs_le] at hn1 hk1
    rcases hone with h | h
    · have h1 : (n : ℚ) - x = 1 / 2 := by linarith [hn1.2, hk1.1]
      have h2 : (k : ℚ) - x = -(1 / 2) := by linarith [hn1.2, hk1.1]
      rw [h1, h2, abs_neg]
      norm_num
    · have h1 : (n : ℚ) - x = -(1 / 2) := by linarith [hn1.1, hk1.2]
      have h2 : (k : ℚ) - x = 1 / 2 := by linarith [hn1.1, hk1.2]
      rw [h1, h2, abs_neg]
      norm_num
  have h1 := hn2 hhalf.1
  have h2 := hk2 hhalf.2
  have : n - k = 1 ∨ n - k = -1 := by exact_mod_cast hone
  omega

/-- The byte of a small integer. -/
theorem toInt_quantised {neg : Bool} {n : ℕ} (h : n ≤ if neg then 128 else 127) :
    (BitVec.ofNat 8 (if neg then (256 - n) % 256 else n)).toInt = if neg then -(n : ℤ) else n := by
  rw [BitVec.toInt_eq_toNat_cond, BitVec.toNat_ofNat]
  cases neg <;> simp only [Bool.false_eq_true, if_false, if_true] at h ⊢ <;> split_ifs <;> omega

/-- What ACCST.i8 stores and counts: zero for a NaN, the ends for infinities and beyond them, else the integer nearest the scaled element. -/
theorem quantise_spec (x sc : Word) (free : Byte) :
    let e := quantise x sc free
    let nan := (f32.val x.toNat).isNan || (f32.val sc.toNat).isNan
    let y := (f32.mul .rn x.toNat sc.toNat).1
    let q := (BitVec.ofNat 8 e.1).toInt
    e.1 < 256 ∧ (nan = true → q = 0) ∧ (nan = false → f32.val y = .inf false → q = 127) ∧ (nan = false → f32.val y = .inf true → q = -128)
      ∧ (nan = false → f32.Finite y → ∃ n, IntegerFor .rn (f32.rat y) n ∧ q = max (-128) (min 127 n))
      ∧ e.2 = ⟨0, e.2.ovf, once nan⟩
      ∧ e.2.ovf = once (decide (e.2.ovf = 1))
      ∧ (e.2.ovf = 1 ↔ nan = false ∧ ((f32.val y).isInf = true ∨ (f32.Finite y ∧ ∃ n, IntegerFor .rn (f32.rat y) n ∧ (n < -128 ∨ 127 < n)))) := by
  intro e nan y q
  have hy : y < 2 * f32.signBit := f32_proper.mul_lt ..
  by_cases hnan : nan = true
  · have he : e = (0, ⟨0, 0, 1⟩) := if_pos hnan
    simp only [q, he, hnan]
    simp [once]
  · have hf : nan = false := Bool.eq_false_iff.2 hnan
    have he := show e = _ from if_neg hnan
    simp only [hf, Bool.false_eq_true, false_imp_iff, true_imp_iff, true_and]
    change e = (match f32.val y with
      | .nan _ => (free.toNat, RowEv.zero)
      | .inf neg => (if neg then 128 else 127, ⟨0, 1, 0⟩)
      | .fin neg m e =>
        let n := (toIntegral .rn neg m e).1
        if neg then if 128 < n then (128, ⟨0, 1, 0⟩) else ((256 - n) % 256, RowEv.zero)
        else if 127 < n then (127, ⟨0, 1, 0⟩) else (n, RowEv.zero)) at he
    have hnotFin : ∀ v : FVal, f32.val y = v → (∀ a m g, v ≠ .fin a m g) → ¬ f32.Finite y := fun v hv hne hfin => hne _ _ _ (hv ▸ hfin.val)
    cases hval : f32.val y with
    | nan s =>
      have hfin := hnotFin _ hval (by simp)
      rw [hval] at he
      simp only [q, he]
      simp [hfin, FVal.isInf, RowEv.zero, once, free.isLt]
    | inf a =>
      have hfin := hnotFin _ hval (by simp)
      rw [hval] at he
      simp only [q, he]
      cases a <;> simp [hfin, FVal.isInf, once]
    | fin a m g =>
      have hfin := f32_proper.finite_of_val hy hval
      have hrat : f32.rat y = (FVal.fin a m g).rat := by rw [Fmt.rat, hval]
      obtain ⟨hint, -⟩ := toIntegral_spec .rn a m g
      rw [← hrat] at hint
      rw [hval] at he
      dsimp only at he
      simp only [FVal.isInf, Bool.false_eq_true, false_or, reduceCtorEq, false_imp_iff, true_and, hfin, true_imp_iff]
      generalize (toIntegral .rn a m g).1 = n at he hint
      have hwide : (∃ k, IntegerFor .rn (f32.rat y) k ∧ (k < -128 ∨ 127 < k)) ↔ (if a then 128 else 127) < n := by
        constructor
        · rintro ⟨k, hk, hout⟩
          have := hk.unique hint
          cases a <;> simp only [Bool.false_eq_true, if_false, if_true] at this ⊢ <;> omega
        · intro h
          refine ⟨_, hint, ?_⟩
          cases a <;> simp only [Bool.false_eq_true, if_false, if_true] at h ⊢ <;> omega
      have heq : e = if (if a then 128 else 127) < n then (if a then 128 else 127, ⟨0, 1, 0⟩) else (if a then (256 - n) % 256 else n, RowEv.zero) := by
        rw [he]
        cases a <;> rfl
      rw [hwide]
      by_cases hn : (if a then 128 else 127) < n
      · rw [if_pos hn] at heq
        simp only [q, heq, hn]
        refine ⟨by split_ifs <;> omega, ⟨_, hint, ?_⟩, rfl, rfl, trivial⟩
        cases a <;> simp only [Bool.false_eq_true, if_false, if_true] at hn ⊢ <;> simp <;> omega
      · rw [if_neg hn] at heq
        simp only [q, heq, hn]
        have hle := not_lt.1 hn
        refine ⟨by split_ifs at hle ⊢ <;> omega, ⟨_, hint, ?_⟩, rfl, rfl, by simp [RowEv.zero]⟩
        rw [toInt_quantised hle]
        cases a <;> simp only [Bool.false_eq_true, if_false, if_true] at hle ⊢ <;> omega

end Sys2Proof.Machine
end

section
/-! SUPPORT. Rows that go to the scratchpad (07 R222 to R224; 06 R192), and results that go to registers (07 R225, R226). -/
namespace Sys2Proof.Machine

/-! ### Bytes of numbers -/

theorem leNat_leBytes (n x : ℕ) : leNat (leBytes n x) = x % 256 ^ n := by
  induction n generalizing x with
  | zero => simp [leBytes, leNat, Nat.mod_one]
  | succ n ih =>
    have h : x % 256 ^ (n + 1) = x % 256 + 256 * (x / 256 % 256 ^ n) := by rw [Nat.pow_succ', Nat.mod_mul]
    rw [leBytes, leNat, ih, BitVec.toNat_ofNat, h, show 2 ^ 8 = 256 from rfl]

/-- Byte n * j + i of numbers of n bytes each. -/
theorem getD_flatMap_leBytes (n N : ℕ) (g : ℕ → ℕ) {j i : ℕ} (hj : j < N) (hi : i < n) :
    ((List.range N).flatMap fun j => leBytes n (g j)).getD (n * j + i) 0#8 = (leBytes n (g j)).getD i 0#8 := by
  induction N generalizing g j with
  | zero => omega
  | succ N ih =>
    rw [List.range_succ_eq_map, List.flatMap_cons, List.flatMap_map]
    cases j with
    | zero => rw [Nat.mul_zero, Nat.zero_add, List.getD_append _ _ _ _ (by simpa using hi)]
    | succ j =>
      rw [List.getD_append_right _ _ _ _ (by rw [leBytes_length, Nat.mul_succ]; omega), leBytes_length,
        show n * (j + 1) + i - n = n * j + i by rw [Nat.mul_succ]; omega]
      exact ih (fun j => g (j + 1)) (by omega)

theorem length_flatMap_leBytes (n N : ℕ) (g : ℕ → ℕ) : ((List.range N).flatMap fun j => leBytes n (g j)).length = N * n := by
  simp [List.length_flatMap]

/-! ### Writes that leave barrier words (R192) -/

theorem Map.has_iff {α : Type} (m : Map α) (n : ℕ) : Map.has m n = true ↔ n ∈ Map.keys m := by
  induction m with
  | nil => simp [Map.has, Map.look, Map.keys]
  | cons p t ih =>
    simp only [Map.has, Map.look, Map.keys, List.map_cons, List.mem_cons] at ih ⊢
    split_ifs with h
    · simp [h]
    · simp [ih, Ne.symm h]

/-- Barrier words lie on their granules. -/
def KUnit.BarsAligned (u : KUnit) : Prop := ∀ b ∈ Map.keys u.bars, b % 16 = 0

theorem KUnit.barrierIn_iff {u : KUnit} (hu : u.BarsAligned) {a n : ℕ} (ha : a % 16 = 0) (h0 : 0 < n) (hn : n ≤ 16) :
    u.barrierIn a n = Map.has u.bars a := by
  rw [Bool.eq_iff_iff, Map.has_iff]
  simp only [KUnit.barrierIn, List.any_eq_true, Bool.and_eq_true, decide_eq_true_eq]
  constructor
  · rintro ⟨b, hb, h1, h2⟩
    have := hu b hb
    obtain rfl : b = a := by omega
    exact hb
  · exact fun h => ⟨a, h, by omega, by omega⟩

theorem KUnit.sbyte_sput {u : KUnit} (hu : u.frozen = false) (off : ℕ) (bs : List Byte) (b : ℕ) :
    (u.sput off bs false).sbyte b = if off ≤ b ∧ b < off + bs.length then bs.getD (b - off) 0#8 else u.sbyte b := by
  unfold KUnit.sput
  by_cases h : bs = []
  · rw [if_pos (by simp [h]), if_neg (by simp only [h, List.length_nil]; omega)]
  · rw [if_neg (by simp [h, hu])]
    exact lookD_putBytes bs u.scratch off b

/-- The first n pieces of a write by the engine. -/
def KUnit.sputPieces (u : KUnit) (off : ℕ) (bs : List Byte) (n : ℕ) : KUnit :=
  (List.range n).foldl (fun u i =>
    let p := (bs.drop (16 * i)).take 16
    if u.barrierIn (off + 16 * i) p.length then u else u.sput (off + 16 * i) p false) u

/-- Nothing but the scratchpad and its marks differs. -/
def KUnit.ScratchOnly (u v : KUnit) : Prop := ∃ m g p, v = { u with scratch := m, stags := g, spoison := p }

section
variable {u v : KUnit} (h : u.ScratchOnly v)
include h

theorem KUnit.ScratchOnly.bars_eq : v.bars = u.bars := by
  obtain ⟨_, _, _, rfl⟩ := h
  rfl

theorem KUnit.ScratchOnly.frozen_eq : v.frozen = u.frozen := by
  obtain ⟨_, _, _, rfl⟩ := h
  rfl

theorem KUnit.ScratchOnly.warps_eq : v.warps = u.warps := by
  obtain ⟨_, _, _, rfl⟩ := h
  rfl

theorem KUnit.ScratchOnly.acc_eq : v.acc = u.acc := by
  obtain ⟨_, _, _, rfl⟩ := h
  rfl

end

theorem KUnit.scratchOnly_sput (u : KUnit) (off : ℕ) (bs : List Byte) (t : Bool) : u.ScratchOnly (u.sput off bs t) := by
  unfold KUnit.sput
  split_ifs
  · exact ⟨u.scratch, u.stags, u.spoison, rfl⟩
  · exact ⟨_, _, _, rfl⟩

theorem KUnit.scratchOnly_sputPieces (u : KUnit) (off : ℕ) (bs : List Byte) (n : ℕ) : u.ScratchOnly (u.sputPieces off bs n) := by
  refine foldl_keeps u.ScratchOnly _ _ _ ⟨u.scratch, u.stags, u.spoison, rfl⟩ fun v i hv => ?_
  dsimp only
  split_ifs
  · exact hv
  · obtain ⟨m, g, p, rfl⟩ := hv
    obtain ⟨m', g', p', h⟩ := KUnit.scratchOnly_sput { u with scratch := m, stags := g, spoison := p } (off + 16 * i) ((bs.drop (16 * i)).take 16) false
    exact ⟨m', g', p', h⟩

theorem KUnit.scratchOnly_sputRows (u : KUnit) (off : ℕ) (bs : List Byte) : u.ScratchOnly (u.sputRows off bs) := u.scratchOnly_sputPieces off bs _

theorem KUnit.sbyte_sputPieces {u : KUnit} (hu : u.frozen = false) (hbars : u.BarsAligned) {off : ℕ} (hoff : off % 16 = 0) (bs : List Byte) (n b : ℕ) :
    (u.sputPieces off bs n).sbyte b =
      if off ≤ b ∧ b < off + 16 * n ∧ b < off + bs.length ∧ Map.has u.bars (b / 16 * 16) = false then bs.getD (b - off) 0#8 else u.sbyte b := by
  induction n with
  | zero => rw [if_neg (by omega)]; rfl
  | succ n ih =>
    have hbars' := (u.scratchOnly_sputPieces off bs n).bars_eq
    have hfrozen : (u.sputPieces off bs n).frozen = false := (u.scratchOnly_sputPieces off bs n).frozen_eq.trans hu
    have hstep : u.sputPieces off bs (n + 1) = (let p := (bs.drop (16 * n)).take 16
        if (u.sputPieces off bs n).barrierIn (off + 16 * n) p.length then u.sputPieces off bs n else (u.sputPieces off bs n).sput (off + 16 * n) p false) := by
      rw [KUnit.sputPieces, List.range_succ, List.foldl_append]
      rfl
    have hlen : ((bs.drop (16 * n)).take 16).length = min 16 (bs.length - 16 * n) := by simp
    rw [hstep]
    dsimp only
    generalize hp : (bs.drop (16 * n)).take 16 = p at hlen
    by_cases hin : off + 16 * n ≤ b ∧ b < off + 16 * n + p.length
    · have hblock : b / 16 * 16 = off + 16 * n := by omega
      rw [KUnit.barrierIn_iff (u := u.sputPieces off bs n) (by rw [KUnit.BarsAligned, hbars']; exact hbars) (by omega) (by omega) (by omega), hbars', hblock]
      by_cases hhas : Map.has u.bars (off + 16 * n) = true
      · rw [if_pos hhas, ih, if_neg (by omega), if_neg (by simp [hhas])]
      · rw [if_neg hhas, KUnit.sbyte_sput hfrozen, if_pos hin, if_pos ⟨by omega, by omega, by omega, Bool.eq_false_iff.2 hhas⟩, ← hp]
        rw [List.getD_eq_getElem?_getD, List.getElem?_take_of_lt (by omega), List.getElem?_drop, List.getD_eq_getElem?_getD,
          show 16 * n + (b - (off + 16 * n)) = b - off by omega]
    · have hkeep : (if (u.sputPieces off bs n).barrierIn (off + 16 * n) p.length = true then u.sputPieces off bs n
          else (u.sputPieces off bs n).sput (off + 16 * n) p false).sbyte b = (u.sputPieces off bs n).sbyte b := by
        split_ifs
        · rfl
        · rw [KUnit.sbyte_sput hfrozen, if_neg hin]
      rw [hkeep, ih]
      congr 1
      refine propext (and_congr_right fun _ => ⟨fun h => ⟨by omega, h.2⟩, fun h => ⟨by omega, h.2⟩⟩)

theorem KUnit.sbyte_sputRows {u : KUnit} (hu : u.frozen = false) (hbars : u.BarsAligned) {off : ℕ} (hoff : off % 16 = 0) (bs : List Byte) (b : ℕ) :
    (u.sputRows off bs).sbyte b =
      if off ≤ b ∧ b < off + bs.length ∧ Map.has u.bars (b / 16 * 16) = false then bs.getD (b - off) 0#8 else u.sbyte b := by
  refine (KUnit.sbyte_sputPieces hu hbars hoff bs ((bs.length + 15) / 16) b).trans ?_
  congr 1
  exact propext (and_congr_right fun _ => ⟨fun h => h.2, fun h => ⟨by omega, h⟩⟩)

/-- A number whose bytes went to a granule is there afterwards, unless the granule holds a barrier word. -/
theorem KUnit.leNat_sbytes_put {u v : KUnit} {a n x : ℕ} (hx : x < 256 ^ n)
    (h : ∀ i < n, v.sbyte (a + i) = if Map.has u.bars (a / 16 * 16) = true then u.sbyte (a + i) else (leBytes n x).getD i 0#8) :
    leNat (v.sbytes a n) = if Map.has u.bars (a / 16 * 16) = true then leNat (u.sbytes a n) else x := by
  have hmap : v.sbytes a n = (List.range n).map fun i => v.sbyte (a + i) := by simp [KUnit.sbytes, span, Function.comp_def]
  have humap : u.sbytes a n = (List.range n).map fun i => u.sbyte (a + i) := by simp [KUnit.sbytes, span, Function.comp_def]
  by_cases hb : Map.has u.bars (a / 16 * 16) = true
  · rw [if_pos hb, hmap, humap]
    exact congrArg leNat (List.map_congr_left fun i hi => by rw [h i (List.mem_range.1 hi), if_pos hb])
  · have hbytes : (List.range n).map (fun i => v.sbyte (a + i)) = leBytes n x := by
      refine List.ext_getElem (by simp) fun i h1 h2 => ?_
      have hi : i < n := by simpa using h1
      rw [List.getElem_map, List.getElem_range, h i hi, if_neg hb, List.getD_eq_getElem _ _ h2]
    rw [if_neg hb, hmap, hbytes, leNat_leBytes, Nat.mod_eq_of_lt hx]

/-! ### Rows to the scratchpad, thread by thread -/

/-- A fold's step that stores the bytes of a thread's row at its place, and replaces the row. -/
structure StoresRows (off rb win : ℕ) (bs : ℕ → AccRow → List Byte) (row' : ℕ → AccRow → AccRow) (f : KUnit → ℕ → KUnit) : Prop where
  scratch : ∀ v t, (f v t).scratch = (v.sputRows (off + rb * t) (bs t (v.row (32 * win + t)))).scratch
  row : ∀ v t r, (f v t).row r = if r = 32 * win + t then row' t (v.row r) else v.row r
  bars : ∀ v t, (f v t).bars = v.bars
  frozen : ∀ v t, (f v t).frozen = v.frozen
  warps : ∀ v t, (f v t).warps = v.warps
  length : ∀ t r, (bs t r).length = rb

section
variable {off rb win : ℕ} {bs : ℕ → AccRow → List Byte} {row' : ℕ → AccRow → AccRow} {f : KUnit → ℕ → KUnit}
  (hf : StoresRows off rb win bs row' f)
include hf

theorem StoresRows.sbyte {v : KUnit} (hfr : v.frozen = false) (hbars : v.BarsAligned) (hoff : off % 16 = 0) (hrb : rb % 16 = 0) (t b : ℕ) :
    (f v t).sbyte b = if off + rb * t ≤ b ∧ b < off + rb * t + rb ∧ Map.has v.bars (b / 16 * 16) = false
      then (bs t (v.row (32 * win + t))).getD (b - (off + rb * t)) 0#8 else v.sbyte b := by
  have hplace : (off + rb * t) % 16 = 0 := by
    rw [Nat.add_mod, Nat.mul_mod, hoff, hrb]
    simp
  have h := KUnit.sbyte_sputRows hfr hbars hplace (bs t (v.row (32 * win + t))) b
  rw [hf.length] at h
  rw [← h, KUnit.sbyte, hf.scratch]
  rfl

theorem StoresRows.foldl_row (un : KUnit) (m : Mask) {x : ℕ} (hx : x < 32) (hm : m.getLsbD x = true) :
    ((threads m).foldl f un).row (32 * win + x) = row' x (un.row (32 * win + x)) := by
  have h := foldl_once (fun _ => True) f x (fun v => v.row (32 * win + x)) (row' x) (threads_nodup m) (fun _ _ _ _ => trivial)
    (fun v _ => by rw [hf.row, if_pos rfl]) (fun v t _ _ ht => by rw [hf.row, if_neg (by omega)]) (s := un) trivial
  rw [if_pos (mem_threads.2 ⟨hx, hm⟩)] at h
  exact h

theorem StoresRows.foldl_row_other (un : KUnit) (m : Mask) {r : ℕ} (h : ∀ x < 32, m.getLsbD x = true → r ≠ 32 * win + x) :
    ((threads m).foldl f un).row r = un.row r :=
  foldl_same f (fun v => v.row r) (fun v t ht => by rw [hf.row, if_neg (h t (mem_threads.1 ht).1 (mem_threads.1 ht).2)]) un

theorem StoresRows.foldl_warps (un : KUnit) (ts : List ℕ) : (ts.foldl f un).warps = un.warps := foldl_same f (fun v => v.warps) (fun v t _ => hf.warps v t) un

/-- What the state of a fold keeps, for the lemmas on its bytes. -/
def SameBars (un v : KUnit) : Prop := v.frozen = false ∧ v.bars = un.bars

theorem StoresRows.foldl_sbyte_other {un : KUnit} (hfr : un.frozen = false) (hbars : un.BarsAligned) (hoff : off % 16 = 0) (hrb : rb % 16 = 0)
    (m : Mask) {b : ℕ} (h : ∀ x < 32, m.getLsbD x = true → b < off + rb * x ∨ off + rb * x + rb ≤ b) :
    ((threads m).foldl f un).sbyte b = un.sbyte b := by
  have hkeep : SameBars un ((threads m).foldl f un) ∧ ((threads m).foldl f un).sbyte b = un.sbyte b := by
    have hts : ∀ x ∈ threads m, b < off + rb * x ∨ off + rb * x + rb ≤ b := fun x hx => h x (mem_threads.1 hx).1 (mem_threads.1 hx).2
    generalize threads m = ts at hts
    have gen : ∀ v : KUnit, SameBars un v → v.sbyte b = un.sbyte b → SameBars un (ts.foldl f v) ∧ (ts.foldl f v).sbyte b = un.sbyte b := by
      induction ts with
      | nil => exact fun v hv hb => ⟨hv, hb⟩
      | cons t ts ih =>
        intro v hv hb
        refine ih (fun x hx => hts x (by simp [hx])) (f v t) ⟨(hf.frozen v t).trans hv.1, (hf.bars v t).trans hv.2⟩ ?_
        have := hts t (by simp)
        rw [hf.sbyte hv.1 (by rw [KUnit.BarsAligned, hv.2]; exact hbars) hoff hrb, if_neg (by omega), hb]
    exact gen un ⟨hfr, rfl⟩ rfl
  exact hkeep.2

/-- The bytes of a thread's place after the fold. -/
theorem StoresRows.foldl_sbyte {un : KUnit} (hfr : un.frozen = false) (hbars : un.BarsAligned) (hoff : off % 16 = 0) (hrb : rb % 16 = 0)
    (m : Mask) {x : ℕ} (hx : x < 32) (hm : m.getLsbD x = true) {i : ℕ} (hi : i < rb) :
    ((threads m).foldl f un).sbyte (off + rb * x + i) = if Map.has un.bars ((off + rb * x + i) / 16 * 16) = true then un.sbyte (off + rb * x + i)
      else (bs x (un.row (32 * win + x))).getD i 0#8 := by
  have h := foldl_once (SameBars un) f x (fun v => (v.sbyte (off + rb * x + i), v.row (32 * win + x)))
    (fun p => (if Map.has un.bars ((off + rb * x + i) / 16 * 16) = true then p.1 else (bs x p.2).getD i 0#8, row' x p.2)) (threads_nodup m)
    (fun v t _ hv => ⟨(hf.frozen v t).trans hv.1, (hf.bars v t).trans hv.2⟩)
    (fun v hv => by
      have hb : v.BarsAligned := by rw [KUnit.BarsAligned, hv.2]; exact hbars
      refine Prod.ext ?_ (by dsimp only; rw [hf.row, if_pos rfl])
      dsimp only
      rw [hf.sbyte hv.1 hb hoff hrb, hv.2, Nat.add_sub_cancel_left]
      by_cases hhas : Map.has un.bars ((off + rb * x + i) / 16 * 16) = true
      · rw [if_neg (by simp [hhas]), if_pos hhas]
      · rw [if_pos ⟨by omega, by omega, Bool.eq_false_iff.2 hhas⟩, if_neg hhas])
    (fun v t ht hv hne => by
      have hb : v.BarsAligned := by rw [KUnit.BarsAligned, hv.2]; exact hbars
      refine Prod.ext ?_ (by dsimp only; rw [hf.row, if_neg (by omega)])
      dsimp only
      rw [hf.sbyte hv.1 hb hoff hrb, if_neg]
      rintro ⟨h1, h2, -⟩
      rcases Nat.lt_or_gt_of_ne hne with hlt | hlt
      · have : rb * (t + 1) ≤ rb * x := Nat.mul_le_mul_left _ hlt
        rw [Nat.mul_succ] at this
        omega
      · have : rb * (x + 1) ≤ rb * t := Nat.mul_le_mul_left _ hlt
        rw [Nat.mul_succ] at this
        omega) (s := un) ⟨hfr, rfl⟩
  rw [if_pos (mem_threads.2 ⟨hx, hm⟩)] at h
  exact congrArg Prod.fst h

/-- A number that a thread's row holds at offset k, of n bytes within a granule. -/
theorem StoresRows.leNat_at {un : KUnit} (hfr : un.frozen = false) (hbars : un.BarsAligned) (hoff : off % 16 = 0) (hrb : rb % 16 = 0)
    (m : Mask) {x : ℕ} (hx : x < 32) (hm : m.getLsbD x = true) {k n y : ℕ} (hy : y < 256 ^ n) (hk : k % 16 + n ≤ 16) (hlen : k + n ≤ rb)
    (hbytes : ∀ i < n, (bs x (un.row (32 * win + x))).getD (k + i) 0#8 = (leBytes n y).getD i 0#8) :
    leNat (((threads m).foldl f un).sbytes (off + rb * x + k) n) = if Map.has un.bars ((off + rb * x + k) / 16 * 16) = true
      then leNat (un.sbytes (off + rb * x + k) n) else y := by
  have hplace : (off + rb * x) % 16 = 0 := by
    rw [Nat.add_mod, Nat.mul_mod, hoff, hrb]
    simp
  refine KUnit.leNat_sbytes_put hy fun i hi => ?_
  rw [Nat.add_assoc, hf.foldl_sbyte hfr hbars hoff hrb m hx hm (show k + i < rb by omega), hbytes i hi,
    show (off + rb * x + (k + i)) / 16 = (off + rb * x + k) / 16 by omega]

end

end Sys2Proof.Machine
end

section
/-! SUPPORT. How a queued row operation ends (07 R215): its rows changed, its rows stored, or a result given to each live thread. -/
namespace Sys2Proof.Machine

/-! ### The end -/

/-- The event leads to a state in which the operation is complete and off the queue, memory is as it was, and the unit is `vn`. -/
def QueueOpEnds (s : State) (core u id : ℕ) (t : State) (vn : KUnit) : Prop :=
  exec (.engineQueueOp core u) s = .next t ∧ t.unit? u = some vn ∧ t.mem = s.mem
    ∧ (t.core core).eng = (s.core core).eng.filter (fun p => p ≠ (u, id)) ∧ ∀ y ∈ vn.ops, y.id = id → y.done = true

section
variable {s s' : State} {core u win : ℕ} {un v : KUnit} {o : Op}

theorem queueOp_ends (hexec : exec (.engineQueueOp core u) s = .next (s'.engDone core u o.id)) (hu : s'.unit? u = some v) (hmem : s'.mem = s.mem)
    (hcore : s'.core core = s.core core) : QueueOpEnds s core u o.id (s'.engDone core u o.id) (v.complete o.id) := by
  refine ⟨hexec, ?_, hmem, ?_, fun y => KUnit.done_of_mem_complete⟩
  · rw [State.unit?_engDone, hu]
    rfl
  · rw [State.eng_engDone, hcore]

theorem unit?_edited (hu : s.unit? u = some un) (g : KUnit → KUnit) : (s.editUnit u g).unit? u = some (g un) := by
  rw [State.unit?_editUnit, if_pos rfl, hu]
  rfl

/-- Row `r` is of a thread of the operation. -/
def OfThreads (o : Op) (win r : ℕ) : Prop := ∃ x < 32, o.mask.getLsbD x = true ∧ r = 32 * win + x

theorem editRows_ends {g : KUnit → ℕ → AccRow → AccRow} (hu : s.unit? u = some un)
    (hexec : exec (.engineQueueOp core u) s = .next ((s.editUnit u fun un => un.editRows win o.mask (g un)).engDone core u o.id)) :
    ∃ t vn, (QueueOpEnds s core u o.id t vn ∧ vn.warps = un.warps) ∧ vn.scratch = un.scratch ∧ (∀ r, ¬ OfThreads o win r → vn.row r = un.row r)
      ∧ ∀ x < 32, o.mask.getLsbD x = true → vn.row (32 * win + x) = g un x (un.row (32 * win + x)) := by
  have hrest := un.editRows_rest win o.mask (g un)
  refine ⟨_, _, ⟨queueOp_ends hexec (unit?_edited hu _) rfl rfl, ?_⟩, ?_, fun r hr => ?_, fun x hx hm => un.row_editRows win o.mask (g un) hm hx⟩
  · rw [hrest]
    rfl
  · rw [hrest]
    rfl
  · exact un.row_editRows_other win o.mask (g un) fun x hx hm h => hr ⟨x, hx, hm, h⟩

/-! ### Stores -/

theorem storesRows_ends {off rb : ℕ} {bs : ℕ → AccRow → List Byte} {row' : ℕ → AccRow → AccRow} {f : KUnit → ℕ → KUnit}
    (hf : StoresRows off rb win bs row' f) (hu : s'.unit? u = some un)
    (hexec : exec (.engineQueueOp core u) s = .next ((s'.editUnit u fun un => (threads o.mask).foldl f un).engDone core u o.id))
    (hmem : s'.mem = s.mem) (hcore : s'.core core = s.core core) (hfr : un.frozen = false) (hbars : un.BarsAligned) (hoff : off % 16 = 0)
    (hrb : rb % 16 = 0) :
    ∃ t vn, (QueueOpEnds s core u o.id t vn ∧ vn.warps = un.warps) ∧ vn.acc = ((threads o.mask).foldl f un).acc
      ∧ (∀ x < 32, o.mask.getLsbD x = true → vn.row (32 * win + x) = row' x (un.row (32 * win + x))
        ∧ ∀ k n y, y < 256 ^ n → k % 16 + n ≤ 16 → k + n ≤ rb →
            (∀ i < n, (bs x (un.row (32 * win + x))).getD (k + i) 0#8 = (leBytes n y).getD i 0#8) →
          leNat (vn.sbytes (off + rb * x + k) n) = if Map.has un.bars ((off + rb * x + k) / 16 * 16) = true
            then leNat (un.sbytes (off + rb * x + k) n) else y)
      ∧ (∀ b, (∀ x < 32, o.mask.getLsbD x = true → b < off + rb * x ∨ off + rb * x + rb ≤ b) → vn.sbyte b = un.sbyte b)
      ∧ ∀ r, ¬ OfThreads o win r → vn.row r = un.row r := by
  refine ⟨_, _, ⟨queueOp_ends hexec (unit?_edited hu _) hmem hcore, hf.foldl_warps un _⟩, rfl, fun x hx hm => ⟨hf.foldl_row un o.mask hx hm, ?_⟩, ?_,
    fun r hr => ?_⟩
  · exact fun k n y hy hk hlen hbytes => hf.leNat_at hfr hbars hoff hrb o.mask hx hm hy hk hlen hbytes
  · exact fun b hb => hf.foldl_sbyte_other hfr hbars hoff hrb o.mask hb
  · exact hf.foldl_row_other un o.mask fun x hx hm h => hr ⟨x, hx, hm, h⟩

/-- ACCST as a fold of stores (R222, R223). -/
theorem storesRows_accst (f : AccFmt) (off win : ℕ) (sc : Map Word) (free : ℕ → ℕ → Byte) {rb : ℕ} (hrb : rb = 128 * f.bytes) :
    StoresRows off rb win (fun t r => (r.narrowed f (Map.lookD sc t 0#32) (free t)).1) (fun t r => (r.narrowed f (Map.lookD sc t 0#32) (free t)).2)
      fun un t =>
        let x := (un.row (32 * win + t)).narrowed f (Map.lookD sc t 0#32) (free t)
        (un.sputRows (off + t * (128 * f.bytes)) x.1).putRow (32 * win + t) x.2 where
  scratch v t := by
    rw [hrb, Nat.mul_comm (128 * f.bytes)]
    rfl
  row v t r := by
    have hacc := (v.scratchOnly_sputRows (off + t * (128 * f.bytes)) ((v.row (32 * win + t)).narrowed f (Map.lookD sc t 0#32) (free t)).1).acc_eq
    dsimp only
    rw [KUnit.row_putRow]
    by_cases e : r = 32 * win + t
    · rw [if_pos e, if_pos e, e]
    · rw [if_neg e, if_neg e, KUnit.row, hacc]
      rfl
  bars v _ := (v.scratchOnly_sputRows _ _).bars_eq
  frozen v _ := (v.scratchOnly_sputRows _ _).frozen_eq
  warps v _ := (v.scratchOnly_sputRows _ _).warps_eq
  length t r := by rw [hrb]; exact length_flatMap_leBytes ..

theorem length_image (r : AccRow) : r.image.length = 576 := by
  simp [AccRow.image]

/-- ACCSV as a fold of stores (R224). -/
theorem storesRows_accsv (off win : ℕ) :
    StoresRows off 576 win (fun _ r => r.image) (fun _ r => r) fun un t => un.sputRows (off + 576 * t) (un.row (32 * win + t)).image where
  scratch v t := rfl
  row v t r := by
    rw [KUnit.row, (v.scratchOnly_sputRows _ _).acc_eq, ite_self]
    rfl
  bars v _ := (v.scratchOnly_sputRows _ _).bars_eq
  frozen v _ := (v.scratchOnly_sputRows _ _).frozen_eq
  warps v _ := (v.scratchOnly_sputRows _ _).warps_eq
  length _ r := length_image r

/-- The parts of a row image (Table 7.4). -/
theorem getD_image (r : AccRow) : (∀ j < 128, ∀ i < 4, r.image.getD (4 * j + i) 0#8 = (leBytes 4 (r.get j).toNat).getD i 0#8)
    ∧ (∀ i < 16, r.image.getD (512 + i) 0#8 = (leBytes 16 r.plane.toNat).getD i 0#8)
    ∧ ∀ i < 4, r.image.getD (528 + i) 0#8 = (leBytes 4 r.mxexc.toNat).getD i 0#8 := by
  have hlen : ((List.range 128).flatMap fun j => leBytes 4 (r.get j).toNat).length = 512 := length_flatMap_leBytes ..
  refine ⟨fun j hj i hi => ?_, fun i hi => ?_, fun i hi => ?_⟩
  · rw [AccRow.image, List.append_assoc, List.append_assoc, List.getD_append _ _ _ _ (by omega)]
    exact getD_flatMap_leBytes 4 128 (fun j => (r.get j).toNat) hj hi
  · rw [AccRow.image, List.append_assoc, List.append_assoc, List.getD_append_right _ _ _ _ (by omega), hlen, Nat.add_sub_cancel_left,
      List.getD_append _ _ _ _ (by rw [leBytes_length]; exact hi)]
  · rw [AccRow.image, List.append_assoc, List.append_assoc, List.getD_append_right _ _ _ _ (by omega), hlen,
      List.getD_append_right _ _ _ _ (by rw [leBytes_length]; omega), leBytes_length, show 528 + i - 512 - 16 = i by omega,
      List.getD_append _ _ _ _ (by rw [leBytes_length]; exact hi)]

/-! ### Results in registers -/

/-- The result of an operation in a thread that is live. -/
def Warp.take (d : Dst) (t : ℕ) (x : Word) (w : Warp) : Warp := if w.live.getLsbD t then (w.setReg d.reg t x).setRtag d.reg .general else w

theorem Warp.reg_take {w : Warp} {d : Dst} {t : ℕ} {x : Word} {r i : ℕ} (hi : i < 32) (ht : t < 32) :
    (w.take d t x).reg r i = if r = d.reg ∧ i = t ∧ w.live.getLsbD t = true then x else w.reg r i := by
  unfold Warp.take
  by_cases hl : w.live.getLsbD t = true
  · rw [if_pos hl]
    change Map.lookD (Map.putD w.regs (32 * d.reg + t) x 0#32) (32 * r + i) 0#32 = _
    rw [Map.lookD_putD]
    have : 32 * r + i = 32 * d.reg + t ↔ r = d.reg ∧ i = t := by omega
    simp only [this, hl, and_true]
    rfl
  · rw [if_neg hl, if_neg (by simp [hl])]

/-- Nothing but registers and their tags differs. -/
def Warp.RegsOnly (w w2 : Warp) : Prop := ∃ r t q, w2 = { w with regs := r, rtags := t, qtags := q }

theorem Warp.regsOnly_take {w v : Warp} (h : w.RegsOnly v) (d : Dst) (t : ℕ) (x : Word) : w.RegsOnly (v.take d t x) := by
  obtain ⟨r, g, q, rfl⟩ := h
  unfold Warp.take
  split_ifs
  · exact ⟨_, _, _, rfl⟩
  · exact ⟨r, g, q, rfl⟩

theorem Warp.takes_spec (w : Warp) (d : Dst) (m : Mask) (val : ℕ → Word) :
    let w2 := (threads m).foldl (fun w t => w.take d t (val t)) w
    w.RegsOnly w2 ∧ ∀ r x, x < 32 → w2.reg r x = if r = d.reg ∧ (m &&& w.live).getLsbD x = true then val x else w.reg r x := by
  have hself : w.RegsOnly w := ⟨w.regs, w.rtags, w.qtags, rfl⟩
  refine ⟨foldl_keeps w.RegsOnly _ _ _ hself fun v t hv => Warp.regsOnly_take hv .., fun r x hx => ?_⟩
  have hlive : ∀ v : Warp, w.RegsOnly v → v.live = w.live := by
    rintro v ⟨r, g, q, rfl⟩
    rfl
  have h := foldl_once w.RegsOnly (fun w t => w.take d t (val t)) x (fun v => v.reg r x)
    (fun y => if r = d.reg ∧ w.live.getLsbD x = true then val x else y) (threads_nodup m) (fun v t _ hv => Warp.regsOnly_take hv ..)
    (fun v hv => by
      rw [Warp.reg_take hx hx, hlive v hv]
      simp only [true_and])
    (fun v t ht _ hne => by rw [Warp.reg_take hx (mem_threads.1 ht).1, if_neg (by tauto)]) (s := w) hself
  rw [h, BitVec.getLsbD_and]
  by_cases hm : m.getLsbD x = true
  · rw [if_pos (mem_threads.2 ⟨hx, hm⟩), hm, Bool.true_and]
  · rw [if_neg fun hmem => hm (mem_threads.1 hmem).2, if_neg (by simp [hm])]

/-- The row and the result of each thread of an operation, one after another. -/
def KUnit.give (v : KUnit) (o : Op) (d : Dst) (win : ℕ) (row : ℕ → AccRow) (val : ℕ → Word) (t : ℕ) : KUnit :=
  (v.putRow (32 * win + t) (row t)).editWarp o.warp (·.take d t (val t))

theorem laneResults_unit {d : Dst} (hd : o.dst = some d) (row : ℕ → AccRow) (val : ℕ → Word) (ts : List ℕ) (s : State) :
    let t := ts.foldl (fun s t => (s.editUnit u fun un => un.putRow (32 * win + t) (row t)).laneResult u o t (val t)) s
    t.unit? u = (s.unit? u).map (fun v => ts.foldl (fun v t => v.give o d win row val t) v) ∧ t.mem = s.mem ∧ t.core core = s.core core := by
  induction ts generalizing s with
  | nil => exact ⟨by simp, rfl, rfl⟩
  | cons t ts ih =>
    have hlane : ∀ s : State, s.laneResult u o t (val t) = s.editUnit u fun un => un.editWarp o.warp (·.take d t (val t)) := fun s => by
      simp only [State.laneResult, hd]
      rfl
    obtain ⟨hunit, hmem, hcore⟩ := ih ((s.editUnit u fun un => un.putRow (32 * win + t) (row t)).laneResult u o t (val t))
    refine ⟨hunit.trans ?_, hmem.trans ?_, hcore.trans ?_⟩
    · rw [hlane, State.unit?_editUnit, if_pos rfl, State.unit?_editUnit, if_pos rfl, Option.map_map, Option.map_map]
      rfl
    · rw [hlane]
      rfl
    · rw [hlane]
      rfl

theorem give_warp (d : Dst) (row : ℕ → AccRow) (val : ℕ → Word) (ts : List ℕ) (v : KUnit) :
    Map.look (ts.foldl (fun v t => v.give o d win row val t) v).warps o.warp = (Map.look v.warps o.warp).map fun w => ts.foldl (fun w t => w.take d t (val t)) w := by
  induction ts generalizing v with
  | nil => simp
  | cons t ts ih =>
    rw [List.foldl_cons, ih, KUnit.give, KUnit.editWarp, Map.look_edit_self, Option.map_map]
    rfl

/-- An operation that gives a result to each live thread, and counts in its row. -/
theorem laneResults_end {d : Dst} (hd : o.dst = some d) (hu : s.unit? u = some un) (row : ℕ → AccRow) (val : ℕ → Word)
    (hexec : exec (.engineQueueOp core u) s = .next (((threads o.mask).foldl (fun s t =>
      (s.editUnit u fun un => un.putRow (32 * win + t) (row t)).laneResult u o t (val t)) s).engDone core u o.id)) :
    ∃ t vn, QueueOpEnds s core u o.id t vn
      ∧ (∀ w, s.warp? u o.warp = some w → ∃ w2, t.warp? u o.warp = some w2 ∧ w2 = { w with regs := w2.regs, rtags := w2.rtags, qtags := w2.qtags }
        ∧ ∀ r x, x < 32 → w2.reg r x = if r = d.reg ∧ (o.mask &&& w.live).getLsbD x = true then val x else w.reg r x)
      ∧ vn.scratch = un.scratch ∧ (∀ r, ¬ OfThreads o win r → vn.row r = un.row r)
      ∧ ∀ x < 32, o.mask.getLsbD x = true → vn.row (32 * win + x) = row x := by
  obtain ⟨hunit, hmem, hcore⟩ := laneResults_unit (core := core) (u := u) (win := win) hd row val (threads o.mask) s
  rw [hu] at hunit
  have hrow : ∀ (v : KUnit) (t r : ℕ), (v.give o d win row val t).row r = if r = 32 * win + t then row t else v.row r := fun v t r => KUnit.row_putRow ..
  have hends := queueOp_ends hexec hunit hmem hcore
  refine ⟨_, _, hends, fun w hw => ?_, ?_, fun r hr => ?_, fun x hx hm => ?_⟩
  · obtain ⟨⟨r, g, q, honly⟩, hreg⟩ := w.takes_spec d o.mask val
    refine ⟨_, ?_, by rw [honly], hreg⟩
    rw [State.warp?, hends.2.1]
    rw [State.warp?, hu] at hw
    exact (give_warp d row val (threads o.mask) un).trans (congrArg (Option.map _) hw)
  · exact foldl_same (fun v t => v.give o d win row val t) (fun v : KUnit => v.scratch) (fun _ _ _ => rfl) un
  · exact foldl_same (fun v t => v.give o d win row val t) (fun v : KUnit => v.row r)
      (fun v t ht => by rw [hrow, if_neg fun e => hr ⟨t, (mem_threads.1 ht).1, (mem_threads.1 ht).2, e⟩]) un
  · have h := foldl_once (fun _ => True) (fun v t => v.give o d win row val t) x (fun v => v.row (32 * win + x)) (fun _ => row x) (threads_nodup o.mask)
      (fun _ _ _ _ => trivial) (fun v _ => by rw [hrow, if_pos rfl]) (fun v t _ _ ht => by rw [hrow, if_neg (by omega)]) (s := un) trivial
    rw [if_pos (mem_threads.2 ⟨hx, hm⟩)] at h
    exact h

end

/-! ### Rows built element by element -/

theorem lookD_foldl_putD (n : ℕ) (g : ℕ → Word) (j : ℕ) :
    Map.lookD ((List.range n).foldl (fun m j => Map.putD m j (g j) 0#32) []) j 0#32 = if j < n then g j else 0#32 := by
  induction n with
  | zero => rfl
  | succ n ih =>
    rw [List.range_succ, List.foldl_append, List.foldl_cons, List.foldl_nil, Map.lookD_putD, ih]
    by_cases e : j = n
    · simp [e]
    · simp [e, show j < n + 1 ↔ j < n by omega]

theorem AccRow.get_set (r : AccRow) (j k : ℕ) (x : Word) : (r.set j x).get k = if k = j then x else r.get k := Map.lookD_putD ..

theorem AccRow.get_maskOut (r : AccRow) {j : ℕ} (hj : j < 128) : r.maskOut.get j = if r.plane.getLsbD j then r.get j else 0xFF800000#32 := by
  have hplane : ∀ (q : AccRow) (t : ℕ), (if q.plane.getLsbD t then q else q.set t 0xFF800000#32).plane = q.plane := fun q t => by split_ifs <;> rfl
  have h := foldl_once (fun q : AccRow => q.plane = r.plane) (fun q t => if q.plane.getLsbD t then q else q.set t 0xFF800000#32) j (fun q => q.get j)
    (fun y => if r.plane.getLsbD j then y else 0xFF800000#32) (List.nodup_range (n := 128)) (fun q t _ hq => (hplane q t).trans hq)
    (fun q hq => by
      rw [hq]
      split_ifs
      · rfl
      · rw [AccRow.get_set, if_pos rfl])
    (fun q t _ _ hne => by
      split_ifs
      · rfl
      · rw [AccRow.get_set, if_neg (Ne.symm hne)]) (s := r) rfl
  rw [if_pos (List.mem_range.2 hj)] at h
  exact h

theorem AccRow.count_foldl (r : AccRow) (n : ℕ) (e : ℕ → RowEv) : r.count ((List.range n).foldl (fun a j => a.plus (e j)) RowEv.zero) =
    { r with mxexc := mxAfter r.mxexc (colEvents n e).flush (colEvents n e).ovf (colEvents n e).inv } := by
  rw [AccRow.count, mxCount_eq, foldl_plus]
  simp only [RowEv.zero, Nat.zero_add, colEvents]

end Sys2Proof.Machine
end

section
/-! SUPPORT. The statement O31: each queued row operation, and the floating-point K step (07 R221 to R227; 03 R77, R86, R87, R89). -/
namespace Sys2Proof.Machine

section
variable {s : State} {core u win off : ℕ} {un : KUnit} {o : Op} (hu : s.unit? u = some un)
  (hq : (s.core core).eng.find? (fun p => p.1 = u) = some (u, o.id)) (ho : un.op? o.id = some o)

/-- The event is the first operation of the unit in its core's queue. -/
theorem exec_engineQueueOp (core u : ℕ) (s : State) : exec (.engineQueueOp core u) s = execEngineQueueOp core u s := rfl

theorem sum_once (l : List ℕ) (p : ℕ → Bool) : (l.map fun j => once (p j)).sum = l.countP p := countP_eq_sum l p

include hu hq ho

/-! ### Rows cleared, loaded and masked (R221, R222, R224, R227) -/

theorem accz_ends {all : Bool} (hk : o.kind = .engine (.accz all) win) :
    ∃ t vn, (QueueOpEnds s core u o.id t vn ∧ vn.warps = un.warps) ∧ vn.scratch = un.scratch ∧ (∀ r, ¬ OfThreads o win r → vn.row r = un.row r)
      ∧ ∀ x < 32, o.mask.getLsbD x = true → vn.row (32 * win + x) = if all then AccRow.zero else { un.row (32 * win + x) with data := [], poison := false } := by
  refine editRows_ends hu (g := fun _ _ r => if all then AccRow.zero else { r with data := [], poison := false }) ?_
  rw [exec_engineQueueOp, execEngineQueueOp, State.firstEng_of hu hq ho]
  dsimp only
  rw [hk]

theorem accld_ends {f : AccFmt} {rb : ℕ} (hrb : rb = 128 * f.bytes) (hk : o.kind = .engine (.accld f off) win)
    (hpoison : ∀ x ∈ threads o.mask, un.spoisoned (off + rb * x) rb = false) :
    ∃ t vn, (QueueOpEnds s core u o.id t vn ∧ vn.warps = un.warps) ∧ vn.scratch = un.scratch ∧ (∀ r, ¬ OfThreads o win r → vn.row r = un.row r)
      ∧ ∀ x < 32, o.mask.getLsbD x = true →
        vn.row (32 * win + x) = { un.row (32 * win + x) with data := (vn.row (32 * win + x)).data, poison := false }
        ∧ ∀ j < 128, Map.lookD (vn.row (32 * win + x)).data j 0#32 = accWiden f (leNat (un.sbytes (off + rb * x + f.bytes * j) f.bytes)) := by
  have hclear : ¬ ((threads o.mask).any fun t => un.spoisoned (off + t * (128 * f.bytes)) (128 * f.bytes)) = true := by
    rw [Bool.not_eq_true, List.any_eq_false]
    intro t ht
    rw [Nat.mul_comm t, ← hrb, hpoison t ht]
    decide
  obtain ⟨t, vn, hends, hscr, hother, hmine⟩ := editRows_ends (core := core) (win := win) (o := o) hu (g := fun un t r => { r with
      data := (List.range 128).foldl (fun m j =>
        Map.putD m j (accWiden f (slabAt (fun i => un.sbyte (off + t * (128 * f.bytes) + i)) (j * f.bytes) f.bytes)) 0#32) []
      poison := false }) (by
    rw [exec_engineQueueOp, execEngineQueueOp, State.firstEng_of hu hq ho]
    dsimp only
    rw [hk]
    dsimp only
    rw [if_neg hclear])
  refine ⟨t, vn, hends, hscr, hother, fun x hx hm => ?_⟩
  rw [hmine x hx hm]
  refine ⟨rfl, fun j hj => ?_⟩
  rw [lookD_foldl_putD 128 fun j => accWiden f (slabAt (fun i => un.sbyte (off + x * (128 * f.bytes) + i)) (j * f.bytes) f.bytes), if_pos hj, slabAt_sbyte,
    Nat.mul_comm x, ← hrb, Nat.mul_comm j]

theorem accrs_ends (hk : o.kind = .engine (.accrs off) win) (hpoison : ∀ x ∈ threads o.mask, un.spoisoned (off + 576 * x) 532 = false) :
    ∃ t vn, (QueueOpEnds s core u o.id t vn ∧ vn.warps = un.warps) ∧ vn.scratch = un.scratch ∧ (∀ r, ¬ OfThreads o win r → vn.row r = un.row r)
      ∧ ∀ x < 32, o.mask.getLsbD x = true → (vn.row (32 * win + x)).poison = false
        ∧ (vn.row (32 * win + x)).plane = BitVec.ofNat 128 (leNat (un.sbytes (off + 576 * x + 512) 16))
        ∧ (vn.row (32 * win + x)).mxexc = BitVec.ofNat 24 (leNat (un.sbytes (off + 576 * x + 528) 4))
        ∧ ∀ j < 128, Map.lookD (vn.row (32 * win + x)).data j 0#32 = BitVec.ofNat 32 (leNat (un.sbytes (off + 576 * x + 4 * j) 4)) := by
  have hclear : ¬ ((threads o.mask).any fun t => un.spoisoned (off + 576 * t) 532) = true := by
    rw [Bool.not_eq_true, List.any_eq_false]
    intro t ht
    rw [hpoison t ht]
    decide
  obtain ⟨t, vn, hends, hscr, hother, hmine⟩ := editRows_ends (core := core) (win := win) (o := o) hu
    (g := fun un t _ => AccRow.ofImage fun i => un.sbyte (off + 576 * t + i)) (by
    rw [exec_engineQueueOp, execEngineQueueOp, State.firstEng_of hu hq ho]
    dsimp only
    rw [hk]
    dsimp only
    rw [if_neg hclear])
  refine ⟨t, vn, hends, hscr, hother, fun x hx hm => ?_⟩
  rw [hmine x hx hm]
  simp only [AccRow.ofImage, slabAt_sbyte]
  refine ⟨trivial, trivial, trivial, fun j hj => ?_⟩
  rw [lookD_foldl_putD 128 fun j => BitVec.ofNat 32 (leNat (un.sbytes (off + 576 * x + 4 * j) 4)), if_pos hj]

theorem accmsk_ends (hk : o.kind = .engine .accmsk win) :
    ∃ t vn, (QueueOpEnds s core u o.id t vn ∧ vn.warps = un.warps) ∧ vn.scratch = un.scratch ∧ (∀ r, ¬ OfThreads o win r → vn.row r = un.row r)
      ∧ ∀ x < 32, o.mask.getLsbD x = true → vn.row (32 * win + x) = (un.row (32 * win + x)).maskOut := by
  refine editRows_ends hu (g := fun _ _ r => r.maskOut) ?_
  rw [exec_engineQueueOp, execEngineQueueOp, State.firstEng_of hu hq ho]
  dsimp only
  rw [hk]

theorem maskg_ends {planes : Map (BitVec 128)} (hk : o.kind = .engine (.maskg true planes) win) :
    ∃ t vn, (QueueOpEnds s core u o.id t vn ∧ vn.warps = un.warps) ∧ vn.scratch = un.scratch ∧ (∀ r, ¬ OfThreads o win r → vn.row r = un.row r)
      ∧ ∀ x < 32, o.mask.getLsbD x = true → vn.row (32 * win + x) = match Map.look planes x with
          | some p => { un.row (32 * win + x) with plane := p }
          | none => un.row (32 * win + x) := by
  refine editRows_ends hu (g := fun _ t r => match Map.look planes t with
    | some p => { r with plane := p }
    | none => r) ?_
  rw [exec_engineQueueOp, execEngineQueueOp, State.firstEng_of hu hq ho]
  dsimp only
  rw [hk]
  rfl

/-! ### Rows stored (R222 to R224) -/

/-- What ACCST leaves: the bytes of each row at its place, and its counters. -/
theorem accst_ends {f : AccFmt} {sc : Map Word} {rb : ℕ} (hrb : rb = 128 * f.bytes) (hk : o.kind = .engine (.accst f off sc) win) (hfr : un.frozen = false)
    (hoff : off % 16 = 0) (hbars : un.BarsAligned) :
    ∃ (t : State) (vn : KUnit) (free : ℕ → ℕ → Byte), (QueueOpEnds s core u o.id t vn ∧ vn.warps = un.warps)
      ∧ (∀ x < 32, o.mask.getLsbD x = true →
        vn.row (32 * win + x) = ((un.row (32 * win + x)).narrowed f (Map.lookD sc x 0#32) (free x)).2
        ∧ ∀ k n y, y < 256 ^ n → k % 16 + n ≤ 16 → k + n ≤ rb →
            (∀ i < n, ((un.row (32 * win + x)).narrowed f (Map.lookD sc x 0#32) (free x)).1.getD (k + i) 0#8 = (leBytes n y).getD i 0#8) →
          leNat (vn.sbytes (off + rb * x + k) n) = if Map.has un.bars ((off + rb * x + k) / 16 * 16) = true
            then leNat (un.sbytes (off + rb * x + k) n) else y)
      ∧ (∀ b, (∀ x < 32, o.mask.getLsbD x = true → b < off + rb * x ∨ off + rb * x + rb ≤ b) → vn.sbyte b = un.sbyte b)
      ∧ ∀ r, ¬ OfThreads o win r → vn.row r = un.row r := by
  have hrb16 : rb % 16 = 0 := by
    rw [hrb, show 128 * f.bytes = 16 * (8 * f.bytes) by ring]
    exact Nat.mul_mod_right ..
  obtain ⟨t, vn, hends, -, hrest⟩ := storesRows_ends (core := core) (o := o) (s := s) (s' := { s with freeIx := s.freeIx + 4096 })
    (storesRows_accst f off win sc (fun t j => Config.freeByte (s.freeIx + 128 * t + j)) hrb) hu (by
      rw [exec_engineQueueOp, execEngineQueueOp, State.firstEng_of hu hq ho]
      dsimp only
      rw [hk]) rfl rfl hfr hbars hoff hrb16
  exact ⟨t, vn, _, hends, hrest⟩

theorem accstF32_ends {sc : Map Word} (hk : o.kind = .engine (.accst .f32 off sc) win) (hfr : un.frozen = false) (hoff : off % 16 = 0)
    (hbars : un.BarsAligned) :
    ∃ t vn, (QueueOpEnds s core u o.id t vn ∧ vn.warps = un.warps)
      ∧ (∀ x < 32, o.mask.getLsbD x = true → ∀ j < 128, leNat (vn.sbytes (off + 512 * x + 4 * j) 4) =
          if Map.has un.bars ((off + 512 * x + 4 * j) / 16 * 16) = true then leNat (un.sbytes (off + 512 * x + 4 * j) 4)
          else ((un.row (32 * win + x)).get j).toNat)
      ∧ (∀ b, (∀ x < 32, o.mask.getLsbD x = true → b < off + 512 * x ∨ off + 512 * x + 512 ≤ b) → vn.sbyte b = un.sbyte b)
      ∧ ∀ r j, (vn.row r).get j = (un.row r).get j := by
  obtain ⟨t, vn, free, hends, hmine, hframe, hother⟩ := accst_ends hu hq ho (rb := 512) rfl hk hfr hoff hbars
  refine ⟨t, vn, hends, fun x hx hm j hj => (hmine x hx hm).2 (4 * j) 4 _ (BitVec.isLt _) (by omega) (by omega) fun i hi => ?_, hframe, fun r j => ?_⟩
  · exact getD_flatMap_leBytes 4 128 (fun j => ((un.row (32 * win + x)).get j).toNat) hj hi
  · by_cases hr : OfThreads o win r
    · obtain ⟨x, hx, hm, rfl⟩ := hr
      rw [(hmine x hx hm).1]
      exact AccRow.get_count ..
    · rw [hother r hr]

omit hu hq ho in
theorem narrowed_half {f : AccFmt} {g : Fmt} (hg : f = .bf16 ∧ g = bf16 ∨ f = .f16 ∧ g = f16) (r : AccRow) (sc : Word) (free : ℕ → Byte) :
    r.narrowed f sc free = ((List.range 128).flatMap fun j => leBytes 2 (g.flush (fcvt f32 g .rn (r.get j).toNat).1),
      { r with
        mxexc := mxAfter r.mxexc ((List.range 128).countP fun j => g.subnormal (fcvt f32 g .rn (r.get j).toNat).1)
          ((List.range 128).countP fun j => (fcvt f32 g .rn (r.get j).toNat).2.getLsbD 2) 0 }) := by
  have h : r.narrowed f sc free = ((List.range 128).flatMap fun j => leBytes 2 (narrowAcc g (r.get j)).1,
      r.count ((List.range 128).foldl (fun e j => e.plus (narrowAcc g (r.get j)).2) RowEv.zero)) := by
    rcases hg with ⟨rfl, rfl⟩ | ⟨rfl, rfl⟩ <;> rfl
  rw [h, r.count_foldl 128 fun j => (narrowAcc g (r.get j)).2]
  simp only [narrowAcc_eq, colEvents, sum_once, List.map_const', List.sum_replicate, smul_zero]

theorem accstHalf_ends {f : AccFmt} {g : Fmt} {sc : Map Word} (hg : f = .bf16 ∧ g = bf16 ∨ f = .f16 ∧ g = f16)
    (hk : o.kind = .engine (.accst f off sc) win) (hfr : un.frozen = false) (hoff : off % 16 = 0) (hbars : un.BarsAligned) :
    let conv := fun x j => fcvt f32 g .rn ((un.row (32 * win + x)).get j).toNat
    ∃ t vn, (QueueOpEnds s core u o.id t vn ∧ vn.warps = un.warps)
      ∧ (∀ x < 32, o.mask.getLsbD x = true → (∀ j < 128, leNat (vn.sbytes (off + 256 * x + 2 * j) 2) =
            if Map.has un.bars ((off + 256 * x + 2 * j) / 16 * 16) = true then leNat (un.sbytes (off + 256 * x + 2 * j) 2) else g.flush (conv x j).1)
        ∧ vn.row (32 * win + x) = { un.row (32 * win + x) with
            mxexc := mxAfter (un.row (32 * win + x)).mxexc ((List.range 128).countP fun j => g.subnormal (conv x j).1)
              ((List.range 128).countP fun j => (conv x j).2.getLsbD 2) 0 })
      ∧ (∀ b, (∀ x < 32, o.mask.getLsbD x = true → b < off + 256 * x ∨ off + 256 * x + 256 ≤ b) → vn.sbyte b = un.sbyte b)
      ∧ ∀ r, ¬ OfThreads o win r → vn.row r = un.row r := by
  intro conv
  have hrb : 256 = 128 * f.bytes := by rcases hg with ⟨rfl, -⟩ | ⟨rfl, -⟩ <;> rfl
  have hgp : g.Proper ∧ 2 * g.signBit = 256 ^ 2 := by
    rcases hg with ⟨-, rfl⟩ | ⟨-, rfl⟩
    · exact ⟨Fmt.proper_of (.inr (.inr rfl)), rfl⟩
    · exact ⟨Fmt.proper_of (.inr (.inl rfl)), rfl⟩
  obtain ⟨t, vn, free, hends, hmine, hframe, hother⟩ := accst_ends hu hq ho hrb hk hfr hoff hbars
  simp only [narrowed_half hg] at hmine
  refine ⟨t, vn, hends, fun x hx hm => ⟨fun j hj => (hmine x hx hm).2 (2 * j) 2 _ ?_ (by omega) (by omega) fun i hi => ?_, (hmine x hx hm).1⟩, hframe, hother⟩
  · rw [← hgp.2]
    exact Fmt.flush_lt (hgp.1.fcvt_lt ..)
  · exact getD_flatMap_leBytes 2 128 (fun j => g.flush (conv x j).1) hj hi

theorem accstI8_ends {sc : Map Word} (hk : o.kind = .engine (.accst .i8 off sc) win) (hfr : un.frozen = false) (hoff : off % 16 = 0)
    (hbars : un.BarsAligned) :
    ∃ (t : State) (vn : KUnit) (free : ℕ → ℕ → Byte), (QueueOpEnds s core u o.id t vn ∧ vn.warps = un.warps)
      ∧ (∀ x < 32, o.mask.getLsbD x = true →
        let e := fun j => quantise ((un.row (32 * win + x)).get j) (Map.lookD sc x 0#32) (free x j)
        (∀ j < 128, leNat (vn.sbytes (off + 128 * x + j) 1) =
            if Map.has un.bars ((off + 128 * x + j) / 16 * 16) = true then leNat (un.sbytes (off + 128 * x + j) 1) else (e j).1)
        ∧ vn.row (32 * win + x) = { un.row (32 * win + x) with
            mxexc := mxAfter (un.row (32 * win + x)).mxexc (colEvents 128 fun j => (e j).2).flush (colEvents 128 fun j => (e j).2).ovf
              (colEvents 128 fun j => (e j).2).inv })
      ∧ (∀ b, (∀ x < 32, o.mask.getLsbD x = true → b < off + 128 * x ∨ off + 128 * x + 128 ≤ b) → vn.sbyte b = un.sbyte b)
      ∧ ∀ r, ¬ OfThreads o win r → vn.row r = un.row r := by
  obtain ⟨t, vn, free, hends, hmine, hframe, hother⟩ := accst_ends hu hq ho (rb := 128) rfl hk hfr hoff hbars
  refine ⟨t, vn, free, hends, fun x hx hm => ⟨fun j hj => (hmine x hx hm).2 j 1 _ (quantise_spec ..).1 (by omega) (by omega) fun i hi => ?_, ?_⟩,
    hframe, hother⟩
  · have h := getD_flatMap_leBytes 1 128 (fun j => (quantise ((un.row (32 * win + x)).get j) (Map.lookD sc x 0#32) (free x j)).1) hj hi
    rw [Nat.one_mul] at h
    exact h
  · exact (hmine x hx hm).1.trans (AccRow.count_foldl ..)

theorem accsv_ends (hk : o.kind = .engine (.accsv off) win) (hfr : un.frozen = false) (hoff : off % 16 = 0) (hbars : un.BarsAligned) :
    let put := fun (vn : KUnit) a n v => leNat (vn.sbytes a n) = if Map.has un.bars (a / 16 * 16) = true then leNat (un.sbytes a n) else v
    ∃ t vn, (QueueOpEnds s core u o.id t vn ∧ vn.warps = un.warps) ∧ vn.acc = un.acc
      ∧ (∀ x < 32, o.mask.getLsbD x = true → (∀ j < 128, put vn (off + 576 * x + 4 * j) 4 ((un.row (32 * win + x)).get j).toNat)
        ∧ put vn (off + 576 * x + 512) 16 (un.row (32 * win + x)).plane.toNat
        ∧ put vn (off + 576 * x + 528) 4 (un.row (32 * win + x)).mxexc.toNat)
      ∧ ∀ b, (∀ x < 32, o.mask.getLsbD x = true → b < off + 576 * x ∨ off + 576 * x + 576 ≤ b) → vn.sbyte b = un.sbyte b := by
  intro put
  obtain ⟨t, vn, hends, hacc, hmine, hframe, -⟩ := storesRows_ends (core := core) (o := o) (s := s) (s' := s) (storesRows_accsv off win) hu (by
      rw [exec_engineQueueOp, execEngineQueueOp, State.firstEng_of hu hq ho]
      dsimp only
      rw [hk]) rfl rfl hfr hbars hoff rfl
  refine ⟨t, vn, hends, hacc.trans (foldl_same _ (fun v : KUnit => v.acc) (fun v x _ => ?_) un), fun x hx hm => ?_, hframe⟩
  · exact (v.scratchOnly_sputRows _ _).acc_eq
  · obtain ⟨-, hput⟩ := hmine x hx hm
    obtain ⟨hdata, hplane, hmx⟩ := getD_image (un.row (32 * win + x))
    have hmxlt : (un.row (32 * win + x)).mxexc.toNat < 256 ^ 4 := (BitVec.isLt _).trans (by norm_num)
    exact ⟨fun j hj => hput (4 * j) 4 _ (BitVec.isLt _) (by omega) (by omega) (hdata j hj), hput 512 16 _ (BitVec.isLt _) (by omega) (by omega) hplane,
      hput 528 4 _ hmxlt (by omega) (by omega) hmx⟩

/-! ### Results in registers (R225, R226) -/

theorem accmx_ends {n : ℕ} {acc : Option (Map Word)} {d : Dst} (hk : o.kind = .engine (.accmx n acc) win) (hd : o.dst = some d) :
    let q := fun x => (un.row (32 * win + x)).maxOf n (acc.bind fun m => Map.look m x)
    ∃ t vn, QueueOpEnds s core u o.id t vn
      ∧ (∀ w, s.warp? u o.warp = some w → ∃ w2, t.warp? u o.warp = some w2 ∧ w2 = { w with regs := w2.regs, rtags := w2.rtags, qtags := w2.qtags }
        ∧ ∀ r x, x < 32 → w2.reg r x = if r = d.reg ∧ (o.mask &&& w.live).getLsbD x = true then (q x).1 else w.reg r x)
      ∧ vn.scratch = un.scratch ∧ (∀ r, ¬ OfThreads o win r → vn.row r = un.row r)
      ∧ ∀ x < 32, o.mask.getLsbD x = true → vn.row (32 * win + x) = (q x).2 := by
  intro q
  refine laneResults_end hd hu (fun x => (q x).2) (fun x => (q x).1) ?_
  rw [exec_engineQueueOp, execEngineQueueOp, State.firstEng_of hu hq ho]
  dsimp only
  rw [hk]

theorem accexs_ends {n : ℕ} {mx : Map Word} {d : Dst} (hk : o.kind = .engine (.accexs n mx) win) (hd : o.dst = some d) :
    let q := fun x => (un.row (32 * win + x)).expSum n (Map.lookD mx x 0#32)
    ∃ t vn, QueueOpEnds s core u o.id t vn
      ∧ (∀ w, s.warp? u o.warp = some w → ∃ w2, t.warp? u o.warp = some w2 ∧ w2 = { w with regs := w2.regs, rtags := w2.rtags, qtags := w2.qtags }
        ∧ ∀ r x, x < 32 → w2.reg r x = if r = d.reg ∧ (o.mask &&& w.live).getLsbD x = true then (q x).1 else w.reg r x)
      ∧ vn.scratch = un.scratch ∧ (∀ r, ¬ OfThreads o win r → vn.row r = un.row r)
      ∧ ∀ x < 32, o.mask.getLsbD x = true → vn.row (32 * win + x) = (q x).2 := by
  intro q
  refine laneResults_end hd hu (fun x => (q x).2) (fun x => (q x).1) ?_
  rw [exec_engineQueueOp, execEngineQueueOp, State.firstEng_of hu hq ho]
  dsimp only
  rw [hk]

end

end Sys2Proof.Machine
end

section
/-! SUPPORT. The statement O31, from what each operation leaves. -/
namespace Sys2Proof.Machine

/-- Elements past the first n take no part. -/
theorem expNan_guarded (n j m x : ℕ) :
    (decide (j < n) && decide (f32.val x ≠ .inf true) && ((f32.val x).isNan || (f32.val m).isNan)) = (decide (j < n) && expNan m x) := Bool.and_assoc ..

theorem expPlain_guarded (n j m x : ℕ) :
    (decide (j < n) && decide (f32.val x ≠ .inf true) && !(decide (j < n) && expNan m x)) = (decide (j < n) && expPlain m x) := by
  rw [expPlain]
  cases decide (j < n) <;> simp

/-- The results of ACCST.i8, of the elements and the scale of a row (R223). -/
theorem quantised_row (r : AccRow) (sc : Word) (free : ℕ → Byte) :
    let e := fun j => quantise (r.get j) sc (free j)
    let nan := fun j => (f32.val (r.get j).toNat).isNan || (f32.val sc.toNat).isNan
    let c := colEvents 128 fun j => (e j).2
    c.flush = 0 ∧ c.ovf = (List.range 128).countP (fun j => decide ((e j).2.ovf = 1)) ∧ c.inv = (List.range 128).countP nan := by
  intro e nan c
  have hev : (fun j => (e j).2) = fun j => ⟨0, once (decide ((e j).2.ovf = 1)), once (nan j)⟩ := by
    funext j
    obtain ⟨-, -, -, -, -, hform, hovf, -⟩ := quantise_spec (r.get j) sc (free j)
    exact hform.trans (congrArg (RowEv.mk 0 · _) hovf)
  have hc : c = colEvents 128 fun j => ⟨0, once (decide ((e j).2.ovf = 1)), once (nan j)⟩ := congrArg (colEvents 128) hev
  rw [hc]
  simp only [colEvents, sum_once, List.map_const', List.sum_replicate, smul_zero, and_self]

/-- Settles O31: each operation on its rows, its columns and its bytes, and one K step of a floating-point operation. -/
theorem accumulatorOperations : Obligations.AccumulatorOperations := by
  unfold Obligations.AccumulatorOperations
  refine ⟨?rows, ?step, round24_fin⟩
  case rows =>
    intro s core u un o k win hu hq ho hk mine col put aligned ends done gives half count
    refine ⟨?accz, ?accldF32, ?accstF32, ?accldHalf, ?accstHalf, ?accstI8, ?accrs, ?accmx, ?accexs, ?accsv, ?accmsk, ?maskg⟩
    case accz =>
      rintro all rfl
      obtain ⟨t, vn, hends, hscr, hother, hmine⟩ := accz_ends hu hq ho hk
      refine ⟨t, vn, hends, hscr, hother, ?_⟩
      rintro r ⟨x, hx, hm, rfl⟩
      simp only [col, hmine x hx hm]
      cases all
      · exact ⟨fun j => rfl, rfl, fun h => absurd h (by decide), fun _ => ⟨rfl, rfl⟩⟩
      · exact ⟨fun j => rfl, rfl, fun _ => ⟨rfl, rfl⟩, fun h => absurd h (by decide)⟩
    case accldF32 =>
      rintro off rfl hpoison
      obtain ⟨t, vn, hends, hscr, hother, hmine⟩ := accld_ends hu hq ho (rb := 512) rfl hk hpoison
      refine ⟨t, vn, hends, hscr, hother, fun x hx hm => ?_⟩
      obtain ⟨hrow, hcols⟩ := hmine x hx hm
      have hplane := congrArg AccRow.plane hrow
      exact ⟨hplane, hcols⟩
    case accldHalf =>
      rintro f off rfl hf hpoison
      have hrb : 256 = 128 * f.bytes := by rcases hf with rfl | rfl <;> rfl
      obtain ⟨t, vn, hends, hscr, hother, hmine⟩ := accld_ends hu hq ho hrb hk hpoison
      refine ⟨t, vn, hends, hscr, hother, fun x hx hm => ⟨(hmine x hx hm).1, fun j hj => ((hmine x hx hm).2 j hj).trans ?_⟩⟩
      rcases hf with rfl | rfl <;> rfl
    case accstF32 =>
      rintro off sc rfl hfr ⟨hoff, hbars⟩
      exact accstF32_ends hu hq ho hk hfr hoff hbars
    case accstHalf =>
      rintro f off sc rfl hf hfr ⟨hoff, hbars⟩
      have hg : f = .bf16 ∧ half f = bf16 ∨ f = .f16 ∧ half f = f16 := by
        rcases hf with rfl | rfl
        · exact .inl ⟨rfl, rfl⟩
        · exact .inr ⟨rfl, rfl⟩
      exact accstHalf_ends hu hq ho hg hk hfr hoff hbars
    case accstI8 =>
      rintro off sc rfl hfr ⟨hoff, hbars⟩ e by' y nan
      obtain ⟨t, vn, free, hends, hmine, hframe, hother⟩ := accstI8_ends hu hq ho hk hfr hoff hbars
      have hq := fun x j => quantise_spec ((un.row (32 * win + x)).get j) (Map.lookD sc x 0#32) (free x j)
      refine ⟨t, vn, fun x j => (BitVec.ofNat 8 (quantise ((un.row (32 * win + x)).get j) (Map.lookD sc x 0#32) (free x j)).1).toInt, hends,
        fun x hx hm => ⟨fun j hj => ?_,
          fun j => decide ((quantise ((un.row (32 * win + x)).get j) (Map.lookD sc x 0#32) (free x j)).2.ovf = 1), fun j => ?_, ?_⟩, hframe, hother⟩
      · obtain ⟨hlt, hnan, hpos, hneg, hfin, -⟩ := hq x j
        refine ⟨((hmine x hx hm).1 j hj).trans ?_, hnan, hpos, hneg, hfin⟩
        rw [BitVec.ofInt_toInt, BitVec.toNat_ofNat, Nat.mod_eq_of_lt hlt]
      · obtain ⟨-, -, -, -, -, -, -, hwide⟩ := hq x j
        rw [decide_eq_true_eq]
        exact hwide
      · obtain ⟨hflush, hovf, hinv⟩ := quantised_row (un.row (32 * win + x)) (Map.lookD sc x 0#32) (free x)
        refine (hmine x hx hm).2.trans ?_
        rw [hflush, hovf, hinv]
        rfl
    case accrs =>
      rintro off rfl hpoison
      exact accrs_ends hu hq ho hk hpoison
    case accmx =>
      rintro n acc d rfl hn - hd old takes nan
      obtain ⟨t, vn, hends, hgives, hscr, hother, hmine⟩ := accmx_ends hu hq ho hk hd
      refine ⟨t, vn, _, hends, hgives, hscr, hother, fun x hx hm => ?_⟩
      rw [hmine x hx hm]
      exact maxOf_spec (un.row (32 * win + x)) hn (old x)
    case accexs =>
      rintro n mx d rfl hn hd e m nan plain z y sum
      have hnan : ∀ x j, nan x j = (decide (j < n) && expNan (m x) (e x j)) := fun x j => expNan_guarded ..
      have hplain : ∀ x j, plain x j = (decide (j < n) && expPlain (m x) (e x j)) := fun x j => by
        rw [← expPlain_guarded, ← hnan]
      have hy : ∀ x j, y x j = expTerm (un.row (32 * win + x)) n (Map.lookD mx x 0#32) j := fun x j => by
        simp only [y, hnan, hplain, expTerm]
        by_cases hj : j < n
        · simp only [hj, decide_true, Bool.true_and, if_true]
          rfl
        · simp only [hj, decide_false, Bool.false_and, Bool.false_eq_true, if_false]
      have hsum : ∀ x, sum x = expTotal (un.row (32 * win + x)) n (Map.lookD mx x 0#32) := fun x => by simp only [sum, hy, expTotal]
      have hcount : ∀ p : ℕ → Bool, count (fun j => decide (j < n) && p j) = (List.range n).countP p := countP_range_lt hn
      have hnans : ∀ x, count (nan x) = (List.range n).countP fun j => expNan (m x) (e x j) := fun x =>
        (congrArg count (funext (hnan x))).trans (hcount _)
      obtain ⟨t, vn, hends, hgives, hscr, hother, hmine⟩ := accexs_ends hu hq ho hk hd
      have hrow := fun x => expSum_spec (un.row (32 * win + x)) n (Map.lookD mx x 0#32)
      refine ⟨t, vn, hends, ?_, hscr, hother, fun x hx hm => ?_⟩
      · simp only [hsum, ← (hrow _).1]
        exact hgives
      · obtain ⟨-, hget, hcounts⟩ := hrow x
        simp only [col, hmine x hx hm]
        refine ⟨fun j hj => ?_, fun j hj => ?_, ?_⟩
        · rw [hy, expTerm, if_pos hj]
          exact (hget j).trans (if_pos hj)
        · exact (hget j).trans (if_neg (not_lt.2 hj))
        · simp only [hplain, hnans, Bool.and_assoc, hcount, hsum]
          refine hcounts.trans ?_
          simp only [expOver, Bool.and_assoc]
          rfl
    case accsv =>
      rintro off rfl hfr ⟨hoff, hbars⟩
      exact accsv_ends hu hq ho hk hfr hoff hbars
    case accmsk =>
      rintro rfl
      obtain ⟨t, vn, hends, hscr, hother, hmine⟩ := accmsk_ends hu hq ho hk
      refine ⟨t, vn, hends, hscr, hother, ?_⟩
      rintro r j ⟨x, hx, hm, rfl⟩ hj
      simp only [col, hmine x hx hm]
      exact AccRow.get_maskOut _ hj
    case maskg =>
      rintro planes rfl
      exact maskg_ends hu hq ho hk
  case step =>
    intro s core u un o k n start cb step win a hu hq ho hkind hlive hdrain hk hlater g wide slab from0 hpoison
      word entry ain bin prod plus acc lo hi both s0 last res nb tally cols
    have hslab : slab = k.slab := by rcases hk with rfl | rfl | rfl | rfl <;> rfl
    have hsteps : (if k = .k4 then 2 * n else n) = k.steps n := by rcases hk with rfl | rfl | rfl | rfl <;> rfl
    have hfrom : from0 = start + step * k.slab := by rw [← hslab]
    obtain ⟨t, vn, hexec, hvn, hmem, hwarps, hscratch, hother, hmine, hgo, hend⟩ :=
      matrixKStep_spec hu hq ho hkind hlive hdrain (fun _ => hlater) (by rw [← hslab]; exact hpoison)
    rw [← hfrom] at hmine
    rw [hsteps]
    refine ⟨t, vn, hexec, hvn, hmem, hwarps, hscratch, hother, fun x hx hm => ?_, hgo, hend⟩
    rw [hmine x hx hm]
    exact kstep_float hk un (un.row (32 * win + x)) (Map.lookD a x []) (Map.lookD un.cbs cb 0) from0 step

end Sys2Proof.Machine
end

section
/-! SUPPORT. The integer words of the lanes (04 R103 to R107, R111): every one is a register word of one of a few shapes, and its operation is
the one that the rules name. -/
namespace Sys2Proof.Machine

/-! ### The shapes of the words -/

section
variable {i : Instr} {s : State} {c : Ctx} {d a : Reg} {b : Opd}

theorem bin32_writes {tag : Ctx → RTag} {f : Word → Word → Word} {g : Nat → Word} (he : exec i s = bin32 d a b tag f s)
    (h : Ready s c (opV d :: opV a :: opdV b) []) (hg : ∀ t, f (c.rd a t) (c.rdO b t) = g t) :
    Writes i s c (opdWords b) fun t => .ofRegs (c.wr d (g t)) :=
  Alu.writes _ he h fun t => congrArg (fun x => Out.ofRegs (c.wr d x)) (hg t)

theorem acc32_writes {f : Word → Word → Word → Word} {g : Nat → Word} (he : exec i s = acc32 d a b f s)
    (h : Ready s c (opV d :: opV a :: opdV b) []) (hg : ∀ t, f (c.rd d t) (c.rd a t) (c.rdO b t) = g t) :
    Writes i s c (opdWords b) fun t => .ofRegs (c.wr d (g t)) :=
  Alu.writes _ he h fun t => congrArg (fun x => Out.ofRegs (c.wr d x)) (hg t)

theorem bin64_writes {sx : Bool} {f : Word64 → Word64 → Word64} {g : Nat → Word64} (he : exec i s = bin64 d a b sx f s)
    (h : Ready s c (opP d :: opP a :: opdP b) []) (hg : ∀ t, f (c.rdP a t) (c.rdO64 sx b t) = g t) :
    Writes i s c (opdWords b) fun t => .ofRegs (c.wrP d (g t)) :=
  Alu.writes _ he h fun t => congrArg (fun x => Out.ofRegs (c.wrP d x)) (hg t)

theorem bin64v_writes {f : Word64 → Word → Word64} {g : Nat → Word64} (he : exec i s = bin64v d a b f s)
    (h : Ready s c (opP d :: opP a :: opdV b) []) (hg : ∀ t, f (c.rdP a t) (c.rdO b t) = g t) :
    Writes i s c (opdWords b) fun t => .ofRegs (c.wrP d (g t)) :=
  Alu.writes _ he h fun t => congrArg (fun x => Out.ofRegs (c.wrP d x)) (hg t)

theorem un32_writes {tag : Ctx → RTag} {f : Word → Word} {g : Nat → Word} (he : exec i s = un32 d a tag f s)
    (h : Ready s c [opV d, opV a] []) (hg : ∀ t, f (c.rd a t) = g t) : Writes i s c 1 fun t => .ofRegs (c.wr d (g t)) :=
  Alu.writes _ he h fun t => congrArg (fun x => Out.ofRegs (c.wr d x)) (hg t)

theorem un64_writes {f : Word64 → Word64} {g : Nat → Word64} (he : exec i s = un64 d a f s)
    (h : Ready s c [opP d, opP a] []) (hg : ∀ t, f (c.rdP a t) = g t) : Writes i s c 1 fun t => .ofRegs (c.wrP d (g t)) :=
  Alu.writes _ he h fun t => congrArg (fun x => Out.ofRegs (c.wrP d x)) (hg t)

/-- A word that is a register word writes what that says, part by part. -/
theorem aluWord_writes {use : List Opn} {ps : List PredReg} {words passes : Nat} {int : Bool} {srcs : Ctx → List RTag} {tag : Ctx → RTag}
    {out : Ctx → Nat → Out} {g : Nat → Out} (he : exec i s = Alu.run ⟨use, ps, words, passes, int, srcs, tag, out⟩ s) (h : Ready s c use ps)
    (hg : ∀ t, out c t = g t) : Writes i s c words g := Alu.writes _ he h hg

end

/-! ### Clamped results (R103) -/

section
variable {w : Nat} (x y : BitVec w)

theorem clamp_eq {lo hi : Int} (h : lo ≤ hi) (v : Int) : clamp v lo hi = max lo (min v hi) := by
  unfold clamp
  split_ifs <;> omega

theorem clampI_eq (v : Int) : clampI w v = BitVec.ofInt w (max (-2 ^ (w - 1)) (min v (2 ^ (w - 1) - 1))) := by
  have hpos : (0 : Int) < 2 ^ (w - 1) := by positivity
  rw [clampI, clamp_eq (by omega)]

theorem clampN_natCast (n : Nat) : clampN w n = BitVec.ofNat w (min n (2 ^ w - 1)) := by
  have hpos : 0 < 2 ^ w := Nat.two_pow_pos w
  have hcast : ((2 : Int) ^ w - 1) = ((2 ^ w - 1 : Nat) : Int) := by push_cast [Nat.cast_sub hpos]; rfl
  rw [clampN, hcast, clamp_eq (by omega), ← BitVec.ofInt_natCast]
  congr 1
  omega

/-- A number of the signed range stands as it is. -/
theorem clampI_toInt : clampI w x.toInt = x := by
  have hlo := x.le_toInt
  have hhi := x.toInt_le
  rw [clampI_eq, min_eq_left hhi, max_eq_right hlo, BitVec.ofInt_toInt]

theorem clampI_neg_toInt {x : BitVec w} (h : x ≠ BitVec.intMin w) : clampI w (-x.toInt) = -x := by
  rw [← BitVec.toInt_neg_of_ne_intMin h, clampI_toInt]

theorem natCast_natAbs_toInt : (x.toInt.natAbs : Int) = if x.msb then -x.toInt else x.toInt := by
  rw [BitVec.msb_eq_toInt]
  by_cases h : x.toInt < 0 <;> simp only [h, decide_true, decide_false, if_true, Bool.false_eq_true, if_false] <;> omega

theorem addOp_satN : addOp .satN x y = BitVec.ofNat w (min (x.toNat + y.toNat) (2 ^ w - 1)) := clampN_natCast (x.toNat + y.toNat)

theorem subOp_satN : subOp .satN x y = BitVec.ofNat w (x.toNat - y.toNat) := by
  have hx := x.isLt
  have hpos : (1 : Int) ≤ 2 ^ w := mod_cast Nat.two_pow_pos w
  have hhi : (x.toNat : Int) < 2 ^ w := mod_cast hx
  rw [subOp, clampN, clamp_eq (by omega), ← BitVec.ofInt_natCast]
  congr 1
  omega

theorem negOp_wrap : negOp false x = -x := BitVec.zero_sub x

/-- Saturation of NEG, where `top` is what it gives for the least number. -/
theorem negOp_sat {top : BitVec w} (htop : clampI w (-(BitVec.intMin w).toInt) = top) :
    negOp true x = if x = BitVec.intMin w then top else -x := by
  split_ifs with h
  · rw [h]; exact htop
  · exact clampI_neg_toInt h

theorem absOp_wrap : absOp false x = if x.msb then -x else x := by
  simp only [absOp, Bool.false_eq_true, if_false, natCast_natAbs_toInt]
  split_ifs
  · rw [BitVec.ofInt_neg, BitVec.ofInt_toInt]
  · exact BitVec.ofInt_toInt

/-- Saturation of ABS, where `top` is what it gives for the least number. -/
theorem absOp_sat {top : BitVec w} (htop : clampI w (BitVec.intMin w).toInt.natAbs = top) :
    absOp true x = if x = BitVec.intMin w then top else if x.msb then -x else x := by
  split_ifs with h hm
  · rw [h]; exact htop
  · rw [absOp, if_pos rfl, natCast_natAbs_toInt, if_pos hm, clampI_neg_toInt h]
  · rw [absOp, if_pos rfl, natCast_natAbs_toInt, if_neg hm, clampI_toInt]

/-! ### Products and shifted sums (R104 to R106) -/

theorem emod_mul_ediv (v : Int) {p : Int} (hp : 0 < p) (q : Int) : v % (p * q) / p = v / p % q := by
  rw [Int.emod_def, Int.emod_def, Int.ediv_ediv_of_nonneg hp.le, mul_assoc, Int.sub_mul_ediv_left _ _ hp.ne']

/-- Bits `lo` and up of a number in two's complement. -/
theorem extractLsb'_ofInt {n lo : Nat} (h : lo + w ≤ n) (v : Int) : (BitVec.ofInt n v).extractLsb' lo w = BitVec.ofInt w (v / 2 ^ lo) := by
  obtain ⟨k, rfl⟩ := Nat.exists_eq_add_of_le h
  apply BitVec.eq_of_toNat_eq
  have hpow : ((2 ^ (lo + w + k) : Nat) : Int) = 2 ^ lo * 2 ^ (w + k) := by push_cast; ring
  have hnat : ((v % (2 ^ lo * 2 ^ (w + k))).toNat : Int) = v % (2 ^ lo * 2 ^ (w + k)) := Int.toNat_of_nonneg (Int.emod_nonneg _ (by positivity))
  have hdvd : (2 : Int) ^ w ∣ 2 ^ (w + k) := pow_dvd_pow 2 (by omega)
  rw [BitVec.extractLsb'_toNat, BitVec.toNat_ofInt, BitVec.toNat_ofInt, hpow, Nat.shiftRight_eq_div_pow]
  zify
  rw [hnat, emod_mul_ediv _ (by positivity), Int.emod_emod_of_dvd _ hdvd, Int.toNat_of_nonneg (Int.emod_nonneg _ (by positivity))]

theorem signExtend_mul (n : Nat) : x.signExtend n * y.signExtend n = BitVec.ofInt n (x.toInt * y.toInt) := (BitVec.ofInt_mul ..).symm

theorem mul_eq_low : x * y = (x.signExtend (w + w) * y.signExtend (w + w)).extractLsb' 0 w := by
  rw [signExtend_mul, extractLsb'_ofInt (by omega)]
  simp [BitVec.ofInt_mul]

theorem mulhI_eq_high : mulhI x y = (x.signExtend (w + w) * y.signExtend (w + w)).extractLsb' w w := by
  rw [signExtend_mul, extractLsb'_ofInt le_rfl, mulhI]

theorem mulhN_eq_high : mulhN x y = (x.zeroExtend (w + w) * y.zeroExtend (w + w)).extractLsb' w w := by
  have hlt : x.toNat * y.toNat < 2 ^ (w + w) := by
    rw [pow_add]; exact Nat.mul_lt_mul'' x.isLt y.isLt
  have hle : 2 ^ w ≤ 2 ^ (w + w) := Nat.pow_le_pow_right (by norm_num) (by omega)
  apply BitVec.eq_of_toNat_eq
  simp [mulhN, Nat.shiftRight_eq_div_pow, Nat.mod_eq_of_lt hlt, Nat.mod_eq_of_lt (x.isLt.trans_le hle), Nat.mod_eq_of_lt (y.isLt.trans_le hle)]

theorem shiftLeft_eq_ofNat (n : Nat) : x <<< n = BitVec.ofNat w (x.toNat * 2 ^ n) := by
  apply BitVec.eq_of_toNat_eq
  simp [Nat.shiftLeft_eq]

theorem signExtend_shiftLeft (m n : Nat) : x.signExtend m <<< n = BitVec.ofInt m (x.toInt * 2 ^ n) := by
  have hpow : BitVec.ofInt m (2 ^ n) = BitVec.twoPow m n := by
    rw [show (2 : Int) ^ n = (2 ^ n : Nat) by push_cast; rfl, BitVec.ofInt_natCast]
    exact BitVec.eq_of_toNat_eq (by rw [BitVec.toNat_ofNat, BitVec.toNat_twoPow])
  rw [BitVec.shiftLeft_eq_mul_twoPow, BitVec.ofInt_mul, hpow]
  rfl

/-! ### The smaller and the larger (R107) -/

theorem maxI_eq : maxI x y = if x.slt y then y else x := by simp [maxI, BitVec.slt_eq_decide]

theorem maxN_eq : maxN x y = if x.ult y then y else x := by simp [maxN, BitVec.ult_iff_toNat_lt]

theorem minI_eq : minI x y = if x.slt y then x else y := by
  rcases lt_trichotomy x.toInt y.toInt with h | h | h
  · simp [minI, BitVec.slt_eq_decide, h, h.not_gt]
  · simp [minI, BitVec.slt_eq_decide, BitVec.eq_of_toInt_eq h]
  · simp [minI, BitVec.slt_eq_decide, h, h.not_gt]

theorem minN_eq : minN x y = if x.ult y then x else y := by
  rcases lt_trichotomy x.toNat y.toNat with h | h | h
  · simp [minN, BitVec.ult_iff_toNat_lt, h, h.not_gt]
  · simp [minN, BitVec.eq_of_toNat_eq h]
  · simp [minN, BitVec.ult_iff_toNat_lt, h, h.not_gt]

end

/-! ### The statement -/

/-- ADDC writes the sum and its carry (R105). -/
theorem addc_out (c : Ctx) (q : BitVec 2) (d a b : Reg) (t : Nat) :
    (let s := (c.rd a t).toNat + (c.rd b t).toNat + (c.w.pred (qPred q) t).toNat
     (⟨c.wr d (BitVec.ofNat 32 s), [(qPred q, decide (2 ^ 32 ≤ s))], 0⟩ : Out)) =
      { regs := c.wr d (c.rd a t + c.rd b t + (if c.w.pred (q.zeroExtend 3) t then 1#32 else 0#32))
        preds := [(q.zeroExtend 3,
          decide (2 ^ 32 ≤ (c.rd a t).toNat + (c.rd b t).toNat + if c.w.pred (q.zeroExtend 3) t then 1 else 0))]
        ff := 0#5 } := by
  rw [show qPred q = q.zeroExtend 3 from rfl]
  cases c.w.pred (q.zeroExtend 3) t <;> simp [BitVec.ofNat_add]

/-- Settles O1: each word is a register word of one shape, and its operation the one that the rules name. -/
theorem integerArithmetic : Obligations.IntegerArithmetic := by
  unfold Obligations.IntegerArithmetic
  refine ⟨fun s c d a => ⟨fun b h => ?add32, fun b h => ?add64, fun h => ?one32, fun h => ?one64⟩,
    fun s c d a => ⟨fun b h => ?mul32, fun b h => ?mul64, fun q b h => ?addc, fun k b h => ?lea32, fun k b h => ?lea64⟩,
    fun s c d a => ⟨fun b h => ?min32, fun b h => ?min64, fun q b h => ?sel32, fun q b h => ?sel64⟩⟩
  case add32 =>
    exact ⟨bin32_writes rfl h fun _ => rfl, bin32_writes rfl h fun _ => clampI_eq _, bin32_writes rfl h fun _ => addOp_satN _ _,
      bin32_writes rfl h fun _ => rfl, bin32_writes rfl h fun _ => clampI_eq _, bin32_writes rfl h fun _ => subOp_satN _ _⟩
  case add64 =>
    exact ⟨bin64_writes rfl h fun _ => rfl, bin64_writes rfl h fun _ => clampI_eq _, bin64_writes rfl h fun _ => addOp_satN _ _,
      bin64_writes rfl h fun _ => rfl, bin64_writes rfl h fun _ => clampI_eq _, bin64_writes rfl h fun _ => subOp_satN _ _⟩
  case one32 =>
    exact ⟨fun imm => un32_writes (f := fun x => x + imm.signExtend 32) rfl h fun _ => rfl,
      un32_writes rfl h fun _ => negOp_wrap _, un32_writes rfl h fun _ => negOp_sat _ rfl,
      un32_writes rfl h fun _ => absOp_wrap _, un32_writes rfl h fun _ => absOp_sat _ rfl⟩
  case one64 =>
    exact ⟨fun imm => un64_writes (f := fun x => x + imm.signExtend 64) rfl h fun _ => rfl,
      un64_writes rfl h fun _ => negOp_wrap _, un64_writes rfl h fun _ => negOp_sat _ rfl,
      un64_writes rfl h fun _ => absOp_wrap _, un64_writes rfl h fun _ => absOp_sat _ rfl⟩
  case mul32 =>
    exact ⟨bin32_writes rfl h fun _ => mul_eq_low _ _, bin32_writes rfl h fun _ => mulhI_eq_high _ _,
      bin32_writes rfl h fun _ => mulhN_eq_high _ _, acc32_writes (f := fun z x y => x * y + z) rfl h fun _ => rfl⟩
  case mul64 =>
    exact ⟨bin64_writes rfl h fun _ => mul_eq_low _ _, bin64_writes rfl h fun _ => mulhI_eq_high _ _,
      bin64_writes rfl h fun _ => mulhN_eq_high _ _, aluWord_writes rfl h fun _ => rfl⟩
  case addc => exact aluWord_writes rfl h fun t => addc_out c q d a b t
  case lea32 =>
    exact bin32_writes (b := .reg b) (f := fun x y => x + y <<< (k.toNat + 1)) rfl h fun t =>
      congrArg (c.rd a t + ·) (shiftLeft_eq_ofNat _ _)
  case lea64 =>
    exact bin64v_writes (b := .reg b) (f := fun x y => x + y.signExtend 64 <<< (k.toNat + 1)) rfl h fun t =>
      congrArg (c.rdP a t + ·) (signExtend_shiftLeft _ _ _)
  case min32 =>
    exact ⟨bin32_writes rfl h fun _ => minI_eq _ _, bin32_writes rfl h fun _ => maxI_eq _ _, bin32_writes rfl h fun _ => minN_eq _ _,
      bin32_writes rfl h fun _ => maxN_eq _ _⟩
  case min64 =>
    exact ⟨bin64_writes rfl h fun _ => minI_eq _ _, bin64_writes rfl h fun _ => maxI_eq _ _, bin64_writes rfl h fun _ => minN_eq _ _,
      bin64_writes rfl h fun _ => maxN_eq _ _⟩
  case sel32 => exact aluWord_writes rfl h fun _ => rfl
  case sel64 => exact aluWord_writes rfl h fun _ => rfl

end Sys2Proof.Machine
end

section
/-! SUPPORT. Compares, predicate moves, logic, shifts, bit fields, PRMT, counts and moves of the lanes (04 R108 to R119): each operation, bit by
bit or as a number. -/
namespace Sys2Proof.Machine

/-! ### Compares and predicates (R108 to R110) -/

section
variable {w : Nat} {cc : ICmp} {r : BitVec w → BitVec w → Bool}

theorem icmpHolds_signed (h : r = match cc with
    | .eq => fun x y => x == y
    | .ne => fun x y => x != y
    | .lt => fun x y => x.slt y
    | .le => fun x y => !(y.slt x)
    | .gt => fun x y => y.slt x
    | .ge => fun x y => !(x.slt y)) (x y : BitVec w) : icmpHolds cc true x y = r x y := by
  subst h
  cases cc with
  | ne => exact decide_not
  | _ => rfl

theorem icmpHolds_unsigned (h : r = match cc with
    | .eq => fun x y => x == y
    | .ne => fun x y => x != y
    | .lt => fun x y => x.ult y
    | .le => fun x y => !(y.ult x)
    | .gt => fun x y => y.ult x
    | .ge => fun x y => !(x.ult y)) (x y : BitVec w) : icmpHolds cc false x y = r x y := by
  subst h
  cases cc with
  | ne => exact decide_not
  | _ => rfl

end

section
variable {i : Instr} {s : State} {c : Ctx} {m : PredMode} {p : PredReg} {cc : ICmp} {a : Reg} {b : Opd} {signed : Bool}

theorem iset32_writes {r : Word → Word → Bool} (he : exec i s = iset32 m p cc a b signed s) (h : Ready s c (opV a :: opdV b) [p])
    (hr : ∀ x y, icmpHolds cc signed x y = r x y) :
    Writes i s c (opdWords b) fun t => .ofPred p (predPut m (c.w.pred p t) (r (c.rd a t) (c.rdO b t))) :=
  Alu.writes _ he h fun t => congrArg (fun x => Out.ofPred p (predPut m (c.w.pred p t) x)) (hr _ _)

theorem iset64_writes {r : Word64 → Word64 → Bool} (he : exec i s = iset64 m p cc a b signed s) (h : Ready s c (opP a :: opdP b) [p])
    (hr : ∀ x y, icmpHolds cc signed x y = r x y) :
    Writes i s c (opdWords b) fun t => .ofPred p (predPut m (c.w.pred p t) (r (c.rdP a t) (c.rdO64 signed b t))) :=
  Alu.writes _ he h fun t => congrArg (fun x => Out.ofPred p (predPut m (c.w.pred p t) x)) (hr _ _)

end

/-- Setting bits one after another builds the number that they spell. -/
theorem foldl_bit_toNat (q : Nat → Bool) {n : Nat} (hn : n ≤ 32) :
    ((List.range n).foldl (fun x p => if q p then x ||| bit p else x) 0#32).toNat = ((List.range n).map fun p => if q p then 2 ^ p else 0).sum
      ∧ ((List.range n).map fun p => if q p then 2 ^ p else 0).sum < 2 ^ n := by
  induction n with
  | zero => simp
  | succ n ih =>
    obtain ⟨heq, hlt⟩ := ih (by omega)
    have hpow : 2 ^ n < 2 ^ 32 := Nat.pow_lt_pow_right (by norm_num) (by omega)
    have hbit : (bit n).toNat = 2 ^ n := by
      rw [bit, BitVec.toNat_shiftLeft, Nat.shiftLeft_eq, show (1#32).toNat = 1 from rfl, one_mul, Nat.mod_eq_of_lt hpow]
    simp only [List.range_succ, List.foldl_append, List.foldl_cons, List.foldl_nil, List.map_append, List.map_cons, List.map_nil,
      List.sum_append, List.sum_cons, List.sum_nil, add_zero]
    split_ifs
    · have hor := Nat.two_pow_add_eq_or_of_lt hlt 1
      rw [mul_one] at hor
      rw [BitVec.toNat_or, heq, hbit, Nat.or_comm, ← hor, pow_succ]
      omega
    · exact ⟨heq, by rw [pow_succ]; omega⟩

/-- PMOV.pack gathers the predicates, of which p7 is always 1 (R110). -/
theorem pack_eq (w : Warp) (t : Nat) :
    (List.range 8).foldl (fun x p => if w.pred (BitVec.ofNat 3 p) t then x ||| bit p else x) 0#32 =
      BitVec.ofNat 32 (128 + ((List.range 7).map fun p => if w.pred (BitVec.ofNat 3 p) t then 2 ^ p else 0).sum) := by
  obtain ⟨hfold, hlt⟩ := foldl_bit_toNat (fun p => w.pred (BitVec.ofNat 3 p) t) (n := 8) (by norm_num)
  have h7 : w.pred (BitVec.ofNat 3 7) t = true := by simp [Warp.pred]
  have hsum : ((List.range 8).map fun p => if w.pred (BitVec.ofNat 3 p) t then 2 ^ p else 0).sum =
      128 + ((List.range 7).map fun p => if w.pred (BitVec.ofNat 3 p) t then 2 ^ p else 0).sum := by
    rw [List.range_succ, List.map_append, List.sum_append, List.map_singleton, List.sum_singleton, if_pos h7, Nat.add_comm, show 2 ^ 7 = 128 from rfl]
  rw [hsum] at hfold hlt
  exact BitVec.eq_of_toNat_eq (by rw [hfold, BitVec.toNat_ofNat, Nat.mod_eq_of_lt (hlt.trans (by norm_num))])

/-! ### Shifts (R114, R115) -/

section
variable {w : Nat} (x : BitVec w) (n : Nat)

theorem shlOp_eq : shlOp x n = x <<< n := by
  unfold shlOp
  split_ifs with h
  · exact (BitVec.shiftLeft_eq_zero h).symm
  · rfl

theorem shrOp_eq : shrOp x n = x >>> n := by
  unfold shrOp
  split_ifs with h
  · exact (BitVec.ushiftRight_eq_zero h).symm
  · rfl

theorem sarOp_eq : sarOp x n = x.sshiftRight n := by
  unfold sarOp
  by_cases h : n ≤ w - 1
  · rw [min_eq_left h]
  · apply BitVec.eq_of_getLsbD_eq
    intro i hi
    rw [min_eq_right (by omega), BitVec.getLsbD_sshiftRight, BitVec.getLsbD_sshiftRight, if_neg (by omega : ¬ n + i < w)]
    by_cases hi0 : i = 0
    · subst hi0
      simp [BitVec.msb_eq_getLsbD_last, hi]
    · rw [if_neg (by omega)]

end

/-- FSHL takes the upper half of the pair shifted left (R115). -/
theorem fshlOp_eq (z x y : Word) : fshlOp z x y = ((z ++ x : BitVec 64) <<< (y.toNat % 32)).extractLsb' 32 32 := by
  have hs : y.toNat % 32 < 32 := Nat.mod_lt _ (by norm_num)
  unfold fshlOp
  generalize y.toNat % 32 = k at hs
  apply BitVec.eq_of_getLsbD_eq
  intro i hi
  have hwide : 32 + i < 64 := by omega
  rw [BitVec.getLsbD_extractLsb', BitVec.getLsbD_shiftLeft, BitVec.getLsbD_append]
  simp only [hi, hwide, decide_true, Bool.true_and, show ¬ 32 + i < k by omega, decide_false, Bool.not_false]
  by_cases hk : k = 0
  · rw [if_pos hk, if_neg (by omega), show 32 + i - k - 32 = i by omega]
  · rw [if_neg hk, BitVec.getLsbD_or, BitVec.getLsbD_shiftLeft, BitVec.getLsbD_ushiftRight]
    by_cases hik : i < k
    · rw [if_pos (by omega), show 32 - k + i = 32 + i - k by omega]
      simp [hik]
    · rw [if_neg (by omega), BitVec.getLsbD_of_ge x _ (by omega), show 32 + i - k - 32 = i - k by omega]
      simp [hik, hi]

/-! ### Bit fields (R116) -/

theorem fieldLen_eq (y : Word) : fieldLen y = min (y.toNat / 256 % 256) (32 - fieldPos y) := by
  unfold fieldLen
  split_ifs <;> omega

theorem fieldLen_le (y : Word) : fieldLen y ≤ 32 - fieldPos y := (fieldLen_eq y).trans_le (min_le_right _ _)

theorem getLsbD_ofNat32 (n : Nat) {i : Nat} (hi : i < 32) : (BitVec.ofNat 32 n).getLsbD i = n.testBit i := by
  rw [BitVec.getLsbD_ofNat, decide_eq_true hi, Bool.true_and]

theorem fieldMask_getLsbD (y : Word) (i : Nat) : (fieldMask y).getLsbD i = (decide (fieldPos y ≤ i) && decide (i - fieldPos y < fieldLen y)) := by
  have hlen := fieldLen_le y
  rw [fieldMask, BitVec.getLsbD_ofNat, Nat.testBit_mul_two_pow, Nat.testBit_two_pow_sub_one, Bool.eq_iff_iff]
  simp only [Bool.and_eq_true, decide_eq_true_eq]
  omega

theorem bfxN_getLsbD (x y : Word) (i : Nat) : (bfxN x y).getLsbD i = (decide (i < fieldLen y) && x.getLsbD (fieldPos y + i)) := by
  rw [bfxN, BitVec.getLsbD_ushiftRight, BitVec.getLsbD_and, fieldMask_getLsbD, Nat.add_sub_cancel_left, decide_eq_true (Nat.le_add_right _ _),
    Bool.true_and, Bool.and_comm]

theorem bfxN_eq (x y : Word) : bfxN x y = BitVec.ofNat 32 (x.toNat / 2 ^ fieldPos y % 2 ^ fieldLen y) := by
  apply BitVec.eq_of_getLsbD_eq
  intro i hi
  rw [bfxN_getLsbD, getLsbD_ofNat32 _ hi, Nat.testBit_mod_two_pow, Nat.testBit_div_two_pow, BitVec.testBit_toNat, Nat.add_comm i]

theorem bfxI_eq (x y : Word) : bfxI x y = (BitVec.ofNat (fieldLen y) (x.toNat / 2 ^ fieldPos y)).signExtend 32 := by
  apply BitVec.eq_of_getLsbD_eq
  intro i hi
  have hfield (k : Nat) : (BitVec.ofNat (fieldLen y) (x.toNat / 2 ^ fieldPos y)).getLsbD k = (bfxN x y).getLsbD k := by
    rw [bfxN_getLsbD, BitVec.getLsbD_ofNat, Nat.testBit_div_two_pow, BitVec.testBit_toNat, Nat.add_comm k]
  rw [BitVec.getLsbD_signExtend, BitVec.msb_eq_getLsbD_last, hfield, hfield, decide_eq_true hi, Bool.true_and, bfxI]
  have hout (h : ¬ i < fieldLen y) : (bfxN x y).getLsbD i = false := by rw [bfxN_getLsbD, decide_eq_false h, Bool.false_and]
  by_cases h0 : fieldLen y = 0
  · rw [if_pos h0, if_neg (by omega), bfxN_getLsbD, h0]
    simp
  · rw [if_neg h0]
    cases hs : (bfxN x y).getLsbD (fieldLen y - 1) with
    | false =>
      by_cases h : i < fieldLen y
      · simp [h]
      · simp [h, hout h]
    | true =>
      rw [if_pos rfl, BitVec.getLsbD_or, BitVec.getLsbD_shiftLeft, BitVec.getLsbD_allOnes]
      by_cases h : i < fieldLen y
      · simp [h]
      · have hin : i - fieldLen y < 32 := by omega
        simp [h, hin, hi]

theorem bfiOp_eq (z x y : Word) : bfiOp z x y =
    if 31 < fieldPos y then z
    else BitVec.ofNat 32 (z.toNat % 2 ^ fieldPos y + x.toNat % 2 ^ fieldLen y * 2 ^ fieldPos y
      + z.toNat / 2 ^ (fieldPos y + fieldLen y) * 2 ^ (fieldPos y + fieldLen y)) := by
  have hlen := fieldLen_le y
  apply BitVec.eq_of_getLsbD_eq
  intro i hi
  rw [bfiOp, BitVec.getLsbD_or, BitVec.getLsbD_and, BitVec.getLsbD_and, BitVec.getLsbD_not, BitVec.getLsbD_shiftLeft, fieldMask_getLsbD]
  simp only [decide_eq_true hi, Bool.true_and]
  split_ifs with hp
  · simp [show ¬ fieldPos y ≤ i by omega]
  · generalize fieldPos y = p at *
    generalize fieldLen y = n at *
    have hlow : z.toNat % 2 ^ p < 2 ^ p := Nat.mod_lt _ (Nat.two_pow_pos p)
    have hmid : x.toNat % 2 ^ n < 2 ^ n := Nat.mod_lt _ (Nat.two_pow_pos n)
    have hpart : 2 ^ p * (x.toNat % 2 ^ n) + z.toNat % 2 ^ p < 2 ^ (p + n) := by
      calc 2 ^ p * (x.toNat % 2 ^ n) + z.toNat % 2 ^ p < 2 ^ p * (x.toNat % 2 ^ n + 1) := by rw [mul_add, mul_one]; omega
        _ ≤ 2 ^ (p + n) := by rw [pow_add]; exact Nat.mul_le_mul_left _ hmid
    rw [getLsbD_ofNat32 _ hi,
      show z.toNat % 2 ^ p + x.toNat % 2 ^ n * 2 ^ p + z.toNat / 2 ^ (p + n) * 2 ^ (p + n) =
        2 ^ (p + n) * (z.toNat / 2 ^ (p + n)) + (2 ^ p * (x.toNat % 2 ^ n) + z.toNat % 2 ^ p) by ring,
      Nat.testBit_two_pow_mul_add _ hpart, Nat.testBit_two_pow_mul_add _ hlow, Nat.testBit_mod_two_pow, Nat.testBit_mod_two_pow,
      Nat.testBit_div_two_pow, BitVec.testBit_toNat, BitVec.testBit_toNat, BitVec.testBit_toNat]
    by_cases h1 : i < p
    · simp [h1, show ¬ p ≤ i by omega, show i < p + n by omega]
    · by_cases h2 : i < p + n
      · simp [h1, h2, show p ≤ i by omega, show i - p < n by omega]
      · simp [h1, h2, show ¬ i - p < n by omega, show i - (p + n) + (p + n) = i by omega]

/-! ### PRMT (R117) -/

theorem toNat_append_eq_add {n m : Nat} (x : BitVec n) (y : BitVec m) : (x ++ y).toNat = x.toNat * 2 ^ m + y.toNat := by
  rw [BitVec.toNat_append, ← Nat.shiftLeft_add_eq_or_of_lt y.isLt, Nat.shiftLeft_eq]

/-- Result byte k of the pool x:z under selector y: one byte of the pool, as its action leaves it. -/
def prmtPick (x z : Word) (y k : Nat) : Byte :=
  let b := (x ++ z : BitVec 64).extractLsb' (8 * (y / 2 ^ (3 * k) % 8)) 8
  let act := y / 2 ^ (12 + 2 * k) % 4
  if act = 0 then b else if act = 1 then 0#8 else if act = 2 then (if b.msb then 0xFF#8 else 0#8) else b.reverse

theorem prmtByte_eq (x z : Word) (y k : Nat) : prmtByte (x.toNat * 2 ^ 32 + z.toNat) y k = (prmtPick x z y k).toNat := by
  have hbyte (n : Nat) : BitVec.ofNat 8 ((x.toNat * 2 ^ 32 + z.toNat) / 256 ^ n) = (x ++ z : BitVec 64).extractLsb' (8 * n) 8 := by
    apply BitVec.eq_of_toNat_eq
    rw [BitVec.toNat_ofNat, BitVec.extractLsb'_toNat, toNat_append_eq_add, Nat.shiftRight_eq_div_pow, pow_mul, show 2 ^ 8 = 256 from rfl]
  unfold prmtByte prmtPick
  simp only [hbyte]
  generalize (x ++ z : BitVec 64).extractLsb' _ 8 = b
  have hact : y / 2 ^ (12 + 2 * k) % 4 < 4 := Nat.mod_lt _ (by norm_num)
  generalize y / 2 ^ (12 + 2 * k) % 4 = act at hact
  have hmsb : b.msb = b.getLsbD 7 := BitVec.msb_eq_getLsbD_last b
  interval_cases act
  · rfl
  · rfl
  · rw [← hmsb]
    cases b.msb <;> rfl
  · rfl

/-- Four bytes side by side spell a word. -/
theorem foldl_bytes (q : Nat → Byte) :
    BitVec.ofNat 32 ((List.range 4).foldl (fun v k => v + (q k).toNat * 256 ^ k) 0) = q 3 ++ q 2 ++ q 1 ++ q 0 := by
  have hfold : (List.range 4).foldl (fun v k => v + (q k).toNat * 256 ^ k) 0 =
      0 + (q 0).toNat * 256 ^ 0 + (q 1).toNat * 256 ^ 1 + (q 2).toNat * 256 ^ 2 + (q 3).toNat * 256 ^ 3 := by
    rw [show List.range 4 = [0, 1, 2, 3] from rfl, List.foldl_cons, List.foldl_cons, List.foldl_cons, List.foldl_cons, List.foldl_nil]
  have h0 := (q 0).isLt
  have h1 := (q 1).isLt
  have h2 := (q 2).isLt
  have h3 := (q 3).isLt
  apply BitVec.eq_of_toNat_eq
  rw [hfold, BitVec.toNat_ofNat, toNat_append_eq_add, toNat_append_eq_add, toNat_append_eq_add]
  norm_num
  omega

theorem prmtOp_eq (z x y : Word) :
    prmtOp z x y = prmtPick x z y.toNat 3 ++ prmtPick x z y.toNat 2 ++ prmtPick x z y.toNat 1 ++ prmtPick x z y.toNat 0 := by
  rw [← foldl_bytes (prmtPick x z y.toNat), prmtOp]
  simp only [prmtByte_eq]

/-! ### Counts and moves (R118, R119) -/

section
variable {w : Nat} (x : BitVec w)

theorem popCount_eq_countP : popCount x = (List.range w).countP fun i => x.getLsbD i := List.countP_eq_length_filter.symm

/-- CTZ finds the lowest set bit, or gives the width. -/
theorem ctz_spec : (x = 0 ∧ ctz x = w) ∨ (ctz x < w ∧ x.getLsbD (ctz x) = true ∧ ∀ i < ctz x, x.getLsbD i = false) := by
  unfold ctz leastBelow
  cases h : (List.range w).find? fun i => x.getLsbD i with
  | none =>
    rw [List.find?_range_eq_none] at h
    exact .inl ⟨BitVec.eq_of_getLsbD_eq fun i hi => by simpa using h i hi, rfl⟩
  | some n =>
    rw [List.find?_range_eq_some] at h
    obtain ⟨hbit, hn, hlow⟩ := h
    exact .inr ⟨List.mem_range.1 hn, hbit, fun i hi => by simpa using hlow i hi⟩

/-- CLZ measures from the top to the highest set bit, or gives the width. -/
theorem clz_eq : clz x = if x = 0 then w else w - 1 - x.toNat.log2 := by
  unfold clz leastBelow
  split_ifs with h
  · subst h
    rw [(List.find?_range_eq_none).2 (by simp)]
    rfl
  · have h0 : x.toNat ≠ 0 := fun hx => h (BitVec.eq_of_toNat_eq hx)
    have hlog : x.toNat.log2 < w := (Nat.log2_lt h0).2 x.isLt
    have hfind : (List.range w).find? (fun i => x.getLsbD (w - 1 - i)) = some (w - 1 - x.toNat.log2) := by
      rw [List.find?_range_eq_some]
      refine ⟨?_, List.mem_range.2 (by omega), fun i hi => ?_⟩
      · rw [show w - 1 - (w - 1 - x.toNat.log2) = x.toNat.log2 by omega, ← BitVec.testBit_toNat, Nat.testBit_log2 h0]
      · have hhigh : x.toNat < 2 ^ (w - 1 - i) := (Nat.log2_lt h0).1 (by omega)
        rw [← BitVec.testBit_toNat, Nat.testBit_lt_two_pow hhigh]
        rfl
    rw [hfind]
    rfl

end

theorem movh_eq (imm : BitVec 16) : (imm.zeroExtend 32) <<< 16 = imm ++ 0#16 := by
  apply BitVec.eq_of_toNat_eq
  have h := imm.isLt
  rw [toNat_append_eq_add, BitVec.toNat_shiftLeft, Nat.shiftLeft_eq]
  simp
  omega

/-! ### The statement -/

section
variable {i : Instr} {s : State} {c : Ctx} {d a : Reg}

theorem count64_writes {f : Word64 → Word} {g : Nat → Word} (he : exec i s = count64 d a f s) (h : Ready s c [opV d, opP a] [])
    (hg : ∀ t, f (c.rdP a t) = g t) : Writes i s c 1 fun t => .ofRegs (c.wr d (g t)) :=
  Alu.writes _ he h fun t => congrArg (fun x => Out.ofRegs (c.wr d x)) (hg t)

theorem const32_writes {words : Nat} {x y : Word} (he : exec i s = const32 d words x s) (h : Ready s c [opV d] []) (hy : x = y) :
    Writes i s c words fun _ => .ofRegs (c.wr d y) := Alu.writes _ he h fun _ => congrArg (fun x => Out.ofRegs (c.wr d x)) hy

end

/-- Settles O2: each word is a register word of one shape, and its operation the one that the rules name. -/
theorem compareLogicAndMoves : Obligations.CompareLogicAndMoves := by
  unfold Obligations.CompareLogicAndMoves
  refine ⟨fun s c => ⟨fun m p cc a b h => ?iset32, fun m p cc a b h => ?iset64, fun m p a b h => ?pset, fun d a h => ?toReg, fun p a h => ?toPred,
      fun d h => ?pack, fun a h => ?unpack⟩,
    fun s c d a => ⟨fun b h => ?logic32, fun b h => ?logic64, fun b h => ?shift64, fun imm h => ?shiftImm⟩,
    fun s c d a => ⟨fun b h => ⟨fun pos len hpos hlen => ?field, fun byte hbyte => ?prmt⟩, fun h => ?one32, fun h => ?count64, fun h => ?one64,
      fun h => ?const32, fun h lit => ?const64⟩⟩
  case iset32 =>
    exact ⟨fun r hr => iset32_writes rfl h (icmpHolds_signed hr), fun r hr => iset32_writes rfl h (icmpHolds_unsigned hr)⟩
  case iset64 =>
    exact ⟨fun r hr => iset64_writes rfl h (icmpHolds_signed hr), fun r hr => iset64_writes rfl h (icmpHolds_unsigned hr)⟩
  case pset => exact aluWord_writes rfl h fun t => by cases m <;> rfl
  case toReg => exact aluWord_writes rfl h fun _ => rfl
  case toPred => exact aluWord_writes rfl h fun t => congrArg (Out.ofPred p) decide_not
  case pack => exact aluWord_writes rfl h fun t => congrArg (fun x => Out.ofRegs (c.wr d x)) (pack_eq c.w t)
  case unpack => exact aluWord_writes rfl h fun _ => rfl
  case logic32 =>
    exact ⟨bin32_writes (f := fun x y => x &&& y) rfl h fun _ => rfl, bin32_writes (f := fun x y => x ||| y) rfl h fun _ => rfl,
      bin32_writes (f := fun x y => x ^^^ y) rfl h fun _ => rfl, bin32_writes (f := fun x y => x &&& ~~~y) rfl h fun _ => rfl,
      bin32_writes (f := fun x n => shlOp x n.toNat) rfl h fun _ => shlOp_eq _ _,
      bin32_writes (f := fun x n => shrOp x n.toNat) rfl h fun _ => shrOp_eq _ _,
      bin32_writes (f := fun x n => sarOp x n.toNat) rfl h fun _ => sarOp_eq _ _,
      bin32_writes (f := fun x n => rotlOp x n.toNat) rfl h fun _ => rfl,
      acc32_writes (f := fshlOp) rfl h fun _ => fshlOp_eq _ _ _⟩
  case logic64 =>
    exact ⟨bin64_writes (f := fun x y => x &&& y) rfl h fun _ => rfl, bin64_writes (f := fun x y => x ||| y) rfl h fun _ => rfl,
      bin64_writes (f := fun x y => x ^^^ y) rfl h fun _ => rfl, bin64_writes (f := fun x y => x &&& ~~~y) rfl h fun _ => rfl⟩
  case shift64 =>
    exact ⟨bin64v_writes (f := fun x n => shlOp x n.toNat) rfl h fun _ => shlOp_eq _ _,
      bin64v_writes (f := fun x n => shrOp x n.toNat) rfl h fun _ => shrOp_eq _ _,
      bin64v_writes (f := fun x n => sarOp x n.toNat) rfl h fun _ => sarOp_eq _ _⟩
  case shiftImm =>
    exact ⟨un32_writes (f := fun x => shlOp x imm.toNat) rfl h fun _ => shlOp_eq _ _,
      un32_writes (f := fun x => shrOp x imm.toNat) rfl h fun _ => shrOp_eq _ _,
      un32_writes (f := fun x => sarOp x imm.toNat) rfl h fun _ => sarOp_eq _ _⟩
  case field =>
    obtain rfl : pos = fun t => fieldPos (c.rdO b t) := funext hpos
    obtain rfl : len = fun t => fieldLen (c.rdO b t) := funext fun t => (hlen t).trans (fieldLen_eq _).symm
    exact ⟨bin32_writes (f := bfxN) rfl h fun _ => bfxN_eq _ _, bin32_writes (f := bfxI) rfl h fun _ => bfxI_eq _ _,
      acc32_writes (f := bfiOp) rfl h fun _ => bfiOp_eq _ _ _⟩
  case prmt =>
    obtain rfl : byte = fun t k => prmtPick (c.rd a t) (c.rd d t) (c.rdO b t).toNat k := funext fun t => funext (hbyte t)
    exact acc32_writes (f := prmtOp) rfl h fun _ => prmtOp_eq _ _ _
  case one32 =>
    exact ⟨un32_writes (f := fun x => BitVec.ofNat 32 (popCount x)) rfl h fun _ => congrArg (BitVec.ofNat 32) (popCount_eq_countP _),
      un32_writes (f := fun x => BitVec.ofNat 32 (clz x)) rfl h fun _ => congrArg (BitVec.ofNat 32) (clz_eq _),
      ⟨fun t => ctz (c.rd a t), un32_writes (f := fun x => BitVec.ofNat 32 (ctz x)) rfl h fun _ => rfl, fun _ => ctz_spec _⟩,
      un32_writes (f := fun x => x.reverse) rfl h fun _ => rfl, un32_writes (f := fun x => x) rfl h fun _ => rfl⟩
  case count64 =>
    exact ⟨count64_writes (f := fun x => BitVec.ofNat 32 (popCount x)) rfl h fun _ => congrArg (BitVec.ofNat 32) (popCount_eq_countP _),
      count64_writes (f := fun x => BitVec.ofNat 32 (clz x)) rfl h fun _ => congrArg (BitVec.ofNat 32) (clz_eq _),
      fun t => ctz (c.rdP a t), count64_writes (f := fun x => BitVec.ofNat 32 (ctz x)) rfl h fun _ => rfl, fun _ => ctz_spec _⟩
  case one64 => exact ⟨un64_writes (f := fun x => x.reverse) rfl h fun _ => rfl, un64_writes (f := fun x => x) rfl h fun _ => rfl⟩
  case const32 =>
    exact ⟨fun _ => const32_writes rfl h rfl, fun _ => const32_writes rfl h rfl, fun imm => const32_writes rfl h (movh_eq imm)⟩
  case const64 => exact aluWord_writes rfl h fun _ => rfl

end Sys2Proof.Machine
end

section
/-! SUPPORT. The cross-thread words of the lanes (04 R129 to R135): what each thread receives, and the folds over the active threads. -/
namespace Sys2Proof.Machine

/-! ### The shapes of the words -/

theorem exchange_writes {i : Instr} {s : State} {c : Ctx} {use : List Opn} {ps : List PredReg} {words : Nat} {tag : RTag} {out : Ctx → Nat → Out}
    {g : Nat → Out} (he : exec i s = exchange use ps words tag out s) (h : Ready s c use ps) (hg : ∀ t, out c t = g t) : Writes i s c words g :=
  Alu.writes _ he h hg

/-- Register tags are no part of what a word's effect says. -/
theorem WarpEffect.setRtag {w v : Warp} {d : Delta} (h : WarpEffect w v d) (r : Nat) (x : RTag) : WarpEffect w (v.setRtag r x) d :=
  ⟨(congrArg (fun v => v.setRtag r x) h.rest).trans rfl, h.reg, h.quad, h.pred, h.flags⟩

/-- What a thread of SHFL writes: the value of its source thread, if that is active. -/
def shflOut (d a : Reg) (src : Ctx → Nat → Option Nat) (c : Ctx) (t : Nat) : Out :=
  match src c t with
  | some u => if c.act.getLsbD u then .ofRegs (c.wr d (c.rd a u)) else .ofRegs []
  | none => .ofRegs []

theorem shfl_writes {i : Instr} {s : State} {c : Ctx} {d a : Reg} {b : Opd} {src : Ctx → Nat → Option Nat} {g : Nat → Out}
    (he : exec i s = shfl d a b src s) (h : Ready s c (opV d :: opV a :: opdV b) []) (hg : ∀ t, shflOut d a src c t = g t) :
    Writes i s c (opdWords b) g := by
  obtain rfl : shflOut d a src c = g := funext hg
  have hbase := Warp.putOuts_effect c.w (c.fullTag .general) c.act (shflOut d a src c)
  generalize hw : c.w.putOuts (c.fullTag .general) c.act (shflOut d a src c) = w at hbase
  have heff : WarpEffect c.w (if c.act = 0#32 then w else w.setRtag (c.base + d.toNat) .general) (Delta.of c.act (shflOut d a src c)) := by
    split_ifs
    · exact hbase
    · exact hbase.setRtag _ _
  have hrun : shfl d a b src s = .next ((s.editWarp c.f.unit c.f.warp fun _ =>
      if c.act = 0#32 then w else w.setRtag (c.base + d.toNat) .general).retire c (opdWords b) false (2 * c.beats)) := by
    subst hw
    unfold shfl
    exact (withWord_ready h _).trans rfl
  refine ⟨_, _, he.trans hrun, heff, retired_edit h.1 _ rfl ?_ _ _ _⟩
  rw [heff.rest]

/-- A thread whose source the form names. -/
theorem shflOut_some {d a : Reg} {src : Ctx → Nat → Option Nat} {c : Ctx} {t u : Nat} (h : src c t = some u) :
    shflOut d a src c t = .ofRegs (if c.act.getLsbD u then c.wr d (c.rd a u) else []) := by
  rw [shflOut, h]
  exact (apply_ite Out.ofRegs _ _ _).symm

/-- A thread whose source the form names only within the segment. -/
theorem shflOut_ite {d a : Reg} {src : Ctx → Nat → Option Nat} {c : Ctx} {t u : Nat} {p q : Prop} [Decidable p] [Decidable q]
    (h : src c t = if decide p && decide q then some u else none) :
    shflOut d a src c t = .ofRegs (if p ∧ q ∧ c.act.getLsbD u = true then c.wr d (c.rd a u) else []) := by
  by_cases hpq : p ∧ q
  · rw [shflOut_some (h.trans (if_pos (by simpa using hpq)))]
    simp only [hpq, true_and]
  · rw [shflOut, h, if_neg (by simpa using hpq), if_neg fun hc => hpq ⟨hc.1, hc.2.1⟩]

/-- The source of SHFL.up. -/
def shflUpSrc (b : Opd) (m : ShflWidth) (c : Ctx) (t : Nat) : Option Nat :=
  let n := (c.rdO b c.low).toNat
  if n < shflW m && t / shflW m * shflW m + n ≤ t then some (t - n) else none

/-- The source of SHFL.down. -/
def shflDownSrc (b : Opd) (m : ShflWidth) (c : Ctx) (t : Nat) : Option Nat :=
  let n := (c.rdO b c.low).toNat
  if n < shflW m && t + n < t / shflW m * shflW m + shflW m then some (t + n) else none

theorem div_mul_shflW (m : ShflWidth) (t : Nat) : t / shflW m * shflW m = t - t % shflW m := by
  have := Nat.div_add_mod' t (shflW m)
  omega

/-! ### BALLOT, VOTE and XCHM (R131, R133) -/

theorem ballot_eq (c : Ctx) (a : PredSrc) :
    (threads c.act).foldl (fun m u => if c.rdPred a u then m ||| bit u else m) 0#32 = bitsOf ((threads c.act).filter fun u => c.rdPred a u) := by
  rw [bitsOf, List.foldl_filter]

theorem Ctx.low_mem {c : Ctx} {u : Nat} (h : u ∈ threads c.act) : c.low ∈ threads c.act := by
  unfold Ctx.low
  rw [lowest_eq_head]
  cases hl : threads c.act with
  | nil => simp [hl] at h
  | cons x xs => simp

theorem voteAgree_iff (c : Ctx) (q : Nat → Bool) :
    ((threads c.act).all fun u => q u == q c.low) = true ↔ ∀ u ∈ threads c.act, ∀ v ∈ threads c.act, q u = q v := by
  simp only [List.all_eq_true, beq_iff_eq]
  exact ⟨fun h u hu v hv => (h u hu).trans (h v hv).symm, fun h u hu => h u hu _ (Ctx.low_mem hu)⟩

/-- The distance of XCHM: the trailing ones of the mask. -/
theorem ctz_not {m : Word} {j : Nat} (h : (m = 0xFFFFFFFF#32 ∧ j = 32) ∨ (j < 32 ∧ m.getLsbD j = false ∧ ∀ i < j, m.getLsbD i = true)) :
    ctz (~~~m) = j := by
  rcases h with ⟨rfl, rfl⟩ | ⟨hj, hbit, hlow⟩
  · decide
  · have hzero (i : Nat) (hi : i < 32) : (~~~m).getLsbD i = !m.getLsbD i := by simp [hi]
    rcases ctz_spec (~~~m) with ⟨h0, -⟩ | ⟨hlt, hset, hless⟩
    · have := hzero j hj
      simp [h0, hbit] at this
    · rw [hzero _ hlt] at hset
      rcases lt_trichotomy (ctz (~~~m)) j with hc | hc | hc
      · simp [hlow _ hc] at hset
      · exact hc
      · have := hless j hc
        simp [hzero _ hj, hbit] at this

theorem lt_and_active (c : Ctx) (u : Nat) : (decide (u < 32) && c.act.getLsbD u) = c.act.getLsbD u := by
  cases h : c.act.getLsbD u with
  | false => simp
  | true => simpa using BitVec.lt_of_getLsbD h

/-! ### Folds over the active threads (R134, R135) -/

/-- One step of a signed fold. -/
def signedStep : FoldOp → Word → Word → Word
  | .add => fun x y => x + y
  | .min => fun x y => if y.slt x then y else x
  | .max => fun x y => if x.slt y then y else x

/-- One step of an unsigned fold. -/
def unsignedStep : FoldOp → Word → Word → Word
  | .add => fun x y => x + y
  | .min => fun x y => if y.ult x then y else x
  | .max => fun x y => if x.ult y then y else x

/-- One step of a bitwise fold. -/
def bitStep : BitOp → Word → Word → Word
  | .and => fun x y => x &&& y
  | .or => fun x y => x ||| y
  | .xor => fun x y => x ^^^ y

theorem foldInt_signed (op : FoldOp) (x y : Word) : foldInt op true x y = (signedStep op x y, 0#5) := by
  cases op with
  | add => rfl
  | min => simp [foldInt, signedStep, minI, BitVec.slt_eq_decide, flNone]
  | max => simp [foldInt, signedStep, maxI, BitVec.slt_eq_decide, flNone]

theorem foldInt_unsigned (op : FoldOp) (x y : Word) : foldInt op false x y = (unsignedStep op x y, 0#5) := by
  cases op with
  | add => rfl
  | min => simp [foldInt, unsignedStep, minN, BitVec.ult_iff_toNat_lt, flNone]
  | max => simp [foldInt, unsignedStep, maxN, BitVec.ult_iff_toNat_lt, flNone]

theorem foldBits_eq (op : BitOp) (x y : Word) : foldBits op x y = (bitStep op x y, 0#5) := by cases op <;> rfl

section
variable {f : Word → Word → Word}

/-- A fold whose steps raise nothing. -/
theorem foldSteps_pure {step : FoldStep} (h : ∀ x y, step x y = (f x y, 0#5)) (x : Word) (xs : List Word) :
    foldSteps canonInt step (x :: xs) = (xs.foldl f x, 0#5) := by
  show xs.foldl _ (x, 0#5) = _
  induction xs generalizing x with
  | nil => rfl
  | cons y ys ih => simpa [h] using ih (f x y)

theorem foldSteps_pure_flags {step : FoldStep} (h : ∀ x y, step x y = (f x y, 0#5)) (xs : List Word) : (foldSteps canonInt step xs).2 = 0#5 := by
  cases xs with
  | nil => rfl
  | cons x xs => rw [foldSteps_pure h]

end

theorem gather_cons {c : Ctx} {u : Nat} {us : List Nat} (h : threads c.act = u :: us) (a : Reg) : c.gather a = c.rd a u :: us.map fun v => c.rd a v := by
  rw [Ctx.gather, h, List.map_cons]

/-- A reduction whose steps raise nothing writes the fold of the active threads' values. -/
theorem redw_writes {i : Instr} {s : State} {c : Ctx} {d a : Reg} {step : FoldStep} {f : Word → Word → Word} {u : Nat} {us : List Nat}
    (he : exec i s = redw d a canonInt step s) (hu : threads c.act = u :: us) (h : Ready s c [opV d, opV a] []) (hf : ∀ x y, step x y = (f x y, 0#5)) :
    Writes i s c 1 fun _ => .ofRegs (c.wr d (us.foldl (fun acc v => f acc (c.rd a v)) (c.rd a u))) := by
  refine exchange_writes he h fun _ => ?_
  rw [gather_cons hu, foldSteps_pure hf, List.foldl_map]
  rfl

/-- What a thread of SCANW takes: the fold of the first `n` values, or the identity where there are none. -/
def scanTake (ident : Word) (canon : Word → Word × BitVec 5) (step : FoldStep) (l : List Word) : Word × BitVec 5 :=
  match l with
  | [] => (ident, 0#5)
  | _ => foldSteps canon step l

theorem scanTake_flags (ident : Word) (canon : Word → Word × BitVec 5) (step : FoldStep) (l : List Word) :
    (scanTake ident canon step l).2 = (foldSteps canon step l).2 := by
  cases l <;> rfl

section
variable {i : Instr} {s : State} {c : Ctx} {d a : Reg} {excl : Bool} {ident : Word} {canon : Word → Word × BitVec 5} {step : FoldStep}
variable {rank n : Nat → Nat}

/-- SCANW in terms of the values taken by each thread, over the active threads' values. -/
theorem scanw_writes {g : List Word → Word × BitVec 5} (he : exec i s = scanw d a excl ident canon step s) (hact : c.act ≠ 0#32)
    (h : Ready s c [opV d, opV a] []) (hrank : ∀ t, rank t = ((threads c.act).filter fun v => v < t).length)
    (hn : ∀ t, n t = if excl then rank t else rank t + 1) (hg : ∀ l, scanTake ident canon step l = g l) :
    Writes i s c 1 fun t =>
      ⟨c.wr d (g ((c.gather a).take (n t))).1, [], (g (if excl then (c.gather a).dropLast else c.gather a)).2⟩ := by
  refine exchange_writes he h fun t => ?_
  obtain ⟨x, xs, hxs⟩ := List.exists_cons_of_ne_nil (l := c.gather a) (by simpa [Ctx.gather] using threads_ne_nil hact)
  have htake (k : Nat) : (if k = 0 then ident else (foldSteps canon step ((c.gather a).take k)).1) = (g ((c.gather a).take k)).1 := by
    rw [← hg, hxs]
    cases k <;> rfl
  have hall : (c.gather a).take (if excl then (c.gather a).length - 1 else (c.gather a).length) =
      if excl then (c.gather a).dropLast else c.gather a := by
    split_ifs
    · exact List.dropLast_eq_take.symm
    · exact List.take_length
  have hnt : n t = if excl then ((threads c.act).filter fun v => v < t).length else ((threads c.act).filter fun v => v < t).length + 1 := by
    rw [hn, hrank]
  rw [hnt, ← htake, ← hall, ← hg, scanTake_flags]

/-- A scan whose steps raise nothing. -/
theorem scanw_pure_writes {f : Word → Word → Word} (he : exec i s = scanw d a excl ident canonInt step s) (hact : c.act ≠ 0#32)
    (h : Ready s c [opV d, opV a] []) (hrank : ∀ t, rank t = ((threads c.act).filter fun v => v < t).length)
    (hn : ∀ t, n t = if excl then rank t else rank t + 1) (hf : ∀ x y, step x y = (f x y, 0#5)) {g : Nat → Word}
    (hg : ∀ t, (scanTake ident canonInt step ((c.gather a).take (n t))).1 = g t) : Writes i s c 1 fun t => .ofRegs (c.wr d (g t)) := by
  have hw := scanw_writes he hact h hrank hn fun _ => rfl
  simp only [scanTake_flags, foldSteps_pure_flags hf, hg] at hw
  exact hw

end

theorem scanTake_pure {step : FoldStep} {f : Word → Word → Word} (hf : ∀ x y, step x y = (f x y, 0#5)) (ident : Word) (l : List Word) :
    (scanTake ident canonInt step l).1 = match l with
      | [] => ident
      | y :: ys => ys.foldl f y := by
  cases l with
  | nil => rfl
  | cons y ys => exact congrArg Prod.fst (foldSteps_pure hf y ys)

/-! ### The statement -/

/-- Settles O6: each word gathers over the active threads, and what it delivers is the function of the rules. -/
theorem warpExchange : Obligations.WarpExchange := by
  unfold Obligations.WarpExchange
  refine ⟨fun s c => ⟨fun d a h => ?ballot, fun p a h => ?vote, fun m d a b h w hw => ?shfl, fun d a b h j hj => ?xchm⟩,
    fun s c d a u us hu h => ⟨fun op => ?redI, fun op => ?redN, fun op => ?redB, fun m op r hr => ?redF⟩,
    fun s c d a excl hact h rank hrank n hn => ?scan⟩
  case ballot =>
    refine ⟨_, exchange_writes rfl h fun _ => rfl, fun i hi => ?_⟩
    rw [ballot_eq, bitsOf_getLsbD _ hi]
    simp [mem_threads, hi]
  case vote =>
    exact ⟨⟨_, exchange_writes rfl h fun _ => rfl, List.all_eq_true⟩, ⟨_, exchange_writes rfl h fun _ => rfl, List.any_eq_true⟩,
      _, exchange_writes rfl h fun _ => rfl, voteAgree_iff c fun u => c.rdPred a u⟩
  case shfl =>
    obtain rfl : w = shflW m := hw.trans (by cases m <;> rfl)
    intro first
    refine ⟨shfl_writes (src := fun c t => some (t / shflW m * shflW m + (c.rdO b t).toNat % shflW m)) rfl h fun t => ?idx, fun l hl n hn => ?moved⟩
    case idx =>
      rw [← div_mul_shflW]
      exact shflOut_some rfl
    case moved =>
      obtain ⟨hact, hlow⟩ := hl
      obtain rfl : n = (c.rdO b c.low).toNat := by rw [hn, Ctx.low_eq hact hlow]
      refine ⟨shfl_writes (src := shflUpSrc b m) rfl h fun t => ?up, shfl_writes (src := shflDownSrc b m) rfl h fun t => ?down,
        shfl_writes (src := fun c t => some (t ^^^ ((c.rdO b c.low).toNat % shflW m))) rfl h fun t => shflOut_some rfl⟩
      case up =>
        rw [← div_mul_shflW]
        exact shflOut_ite rfl
      case down =>
        rw [← div_mul_shflW]
        exact shflOut_ite rfl
  case xchm =>
    refine exchange_writes rfl h fun t => ?_
    simp only [ctz_not (hj t), lt_and_active]
    split_ifs <;> rfl
  case redI =>
    have hw := redw_writes (i := .redwI32 d a op) rfl hu h (foldInt_signed op)
    cases op <;> exact hw
  case redN =>
    have hw := redw_writes (i := .redwN32 d a op) rfl hu h (foldInt_unsigned op)
    cases op <;> exact hw
  case redB =>
    have hw := redw_writes (i := .redwB d a op) rfl hu h (foldBits_eq op)
    cases op <;> exact hw
  case redF =>
    refine exchange_writes rfl h fun _ => ?_
    rw [gather_cons hu, hr, foldSteps, List.foldl_map]
    cases op <;> rfl
  case scan =>
    intro xs
    refine ⟨fun op f hf => ?scanI, fun op f hf => ?scanN, fun m op g hg hg0 => ?scanF⟩
    case scanI =>
      obtain rfl : f = signedStep op := hf.trans (by cases op <;> rfl)
      refine scanw_pure_writes (ident := identI32 op) rfl hact h hrank hn (foldInt_signed op) fun t => ?_
      rw [scanTake_pure (foldInt_signed op), show c.gather a = xs from rfl]
      cases xs.take (n t) <;> cases op <;> rfl
    case scanN =>
      obtain rfl : f = unsignedStep op := hf.trans (by cases op <;> rfl)
      refine scanw_pure_writes (ident := identN32 op) rfl hact h hrank hn (foldInt_unsigned op) fun t => ?_
      rw [scanTake_pure (foldInt_unsigned op), show c.gather a = xs from rfl]
      cases xs.take (n t) <;> cases op <;> rfl
    case scanF =>
      refine scanw_writes rfl hact h hrank hn fun l => ?_
      cases l with
      | nil => exact (hg0.trans (by cases op <;> rfl)).symm
      | cons y ys => exact ((hg y ys).trans (by cases op <;> rfl)).symm

end Sys2Proof.Machine
end

section
/-! SUPPORT. Mesh reduction (06 R201 to R204, 12 R363): what a node forwards, what reaches the members, and when a descriptor is sound. -/
namespace Sys2Proof.Machine

/-! ### Descriptors in the state -/

@[simp] theorem State.desc_editDesc (s : State) (die n : Nat) (g : MDesc → MDesc) : (s.editDesc die n g).desc die n = g (s.desc die n) := by
  simp only [State.desc, State.editDesc, State.die_editDie, if_true, Map.lookD_put]

@[simp] theorem State.desc_forgetSeqs (s : State) (die n : Nat) : (s.forgetSeqs die n).desc die n = s.desc die n := rfl

@[simp] theorem State.desc_editCore (s : State) (k die n : Nat) (g : CoreSt → CoreSt) : (s.editCore k g).desc die n = s.desc die n := rfl

@[simp] theorem State.core_editDesc (s : State) (die n k : Nat) (g : MDesc → MDesc) : (s.editDesc die n g).core k = s.core k := rfl

@[simp] theorem State.core_editSeqOf (s : State) (die n q k : Nat) (x : MSeq) : (s.editSeqOf die n q x).core k = s.core k := rfl

@[simp] theorem State.look_editSeqOf (s : State) (die n q : Nat) (x : MSeq) : Map.look ((s.editSeqOf die n q x).desc die n).seqs q = some x := by
  simp [State.editSeqOf]

/-! ### Maps built over a range -/

section
variable {α : Type}

theorem Map.look_filterMap (F : Nat → Option α) (l : List Nat) (e : Nat) :
    Map.look (l.filterMap fun k => (F k).map fun x => (k, x)) e = if e ∈ l then F e else none := by
  induction l with
  | nil => rfl
  | cons k l ih =>
    rw [List.filterMap_cons]
    cases hk : F k with
    | none =>
      simp only [Option.map_none, ih, List.mem_cons]
      by_cases he : e = k
      · simp [he, hk]
      · simp [he]
    | some x =>
      simp only [Option.map_some, Map.look_cons, ih, List.mem_cons]
      by_cases he : k = e
      · simp [he, ← hk]
      · simp [he, Ne.symm he]

theorem Map.look_map (F : Nat → α) (l : List Nat) (e : Nat) : Map.look (l.map fun k => (k, F k)) e = if e ∈ l then some (F e) else none := by
  have h := Map.look_filterMap (fun k => some (F k)) l e
  simpa using h

end

/-! ### What a node forwards (R203) -/

/-- A fold that takes the first value there is and then combines the others with it. -/
theorem foldElem_from (op : FoldOp) (ty : MredTy) (ins : List MPart) (e : Nat) (a : Word) :
    ins.foldl (fun acc p => match acc, Map.look p.vals e with
      | none, some x => some (mredCanon ty x)
      | some a, some x => some (mredOp op ty a x)
      | a, none => a) (some a) = some ((ins.filterMap fun p => Map.look p.vals e).foldl (mredOp op ty) a) := by
  induction ins generalizing a with
  | nil => rfl
  | cons p ins ih =>
    rw [List.foldl_cons, List.filterMap_cons]
    cases Map.look p.vals e with
    | none => exact ih a
    | some x => exact ih _

theorem foldElem_eq (op : FoldOp) (ty : MredTy) (ins : List MPart) (e : Nat) :
    foldElem op ty ins e = match ins.filterMap fun p => Map.look p.vals e with
      | [] => none
      | y :: ys => some (ys.foldl (mredOp op ty) (mredCanon ty y)) := by
  unfold foldElem
  induction ins with
  | nil => rfl
  | cons p ins ih =>
    rw [List.foldl_cons, List.filterMap_cons]
    cases Map.look p.vals e with
    | none => exact ih
    | some x => exact foldElem_from op ty ins e _

theorem foldNode_vals (op : FoldOp) (ty : MredTy) (m : MNode) {e : Nat} (he : e < 32) :
    Map.look (foldNode op ty m).vals e =
      match (List.range 5).filterMap fun k => (Map.look m.ins k).bind fun z => Map.look z.vals e with
      | [] => none
      | y :: ys => some (ys.foldl (mredOp op ty) (mredCanon ty y)) := by
  rw [foldNode, Map.look_filterMap, if_pos (List.mem_range.2 he), foldElem_eq, List.filterMap_filterMap]

theorem foldl_or_getLsbD (ins : List MPart) (m : Word64) (j : Nat) :
    (ins.foldl (fun m p => m ||| p.members) m).getLsbD j = true ↔ m.getLsbD j = true ∨ ∃ p ∈ ins, p.members.getLsbD j = true := by
  induction ins generalizing m with
  | nil => simp
  | cons p ins ih => simp [ih, or_assoc]

theorem foldNode_members (op : FoldOp) (ty : MredTy) (m : MNode) (j : Nat) :
    (foldNode op ty m).members.getLsbD j = true ↔ ∃ k < 5, ∃ z, Map.look m.ins k = some z ∧ z.members.getLsbD j = true := by
  have hzero : (0#64).getLsbD j = true ↔ False := by simp
  rw [foldNode, foldl_or_getLsbD, hzero, false_or]
  simp only [List.mem_filterMap, List.mem_range]
  exact ⟨fun ⟨z, ⟨k, hk, hz⟩, hj⟩ => ⟨k, hk, z, hz, hj⟩, fun ⟨k, hk, z, hz, hj⟩ => ⟨z, ⟨k, hk, hz⟩, hj⟩⟩

/-! ### Inputs, timers and results (R203, R204) -/

/-- A node whose inputs are those of `v`: with the last named one it forwards. -/
def MDesc.forward (d : MDesc) (x : MSeq) (i : Nat) (v : MNode) : MNode :=
  if (d.named i).all fun k => Map.has v.ins k then { v with out := some (foldNode x.op x.ty v) } else v

theorem MDesc.forward_complete {d : MDesc} {x : MSeq} {i : Nat} {v : MNode} (h : ∀ k ∈ d.named i, Map.has v.ins k = true) :
    d.forward x i v = { v with out := some (foldNode x.op x.ty v) } := if_pos (List.all_eq_true.2 h)

theorem MDesc.forward_waits {d : MDesc} {x : MSeq} {i : Nat} {v : MNode} (h : ¬ ∀ k ∈ d.named i, Map.has v.ins k = true) : d.forward x i v = v :=
  if_neg fun hc => h (List.all_eq_true.1 hc)

section
variable {s : State} {die n q i : Nat} {x : MSeq} {m : MNode}

theorem meshReductionInput_next {src : Nat} {p : MPart} (hx : Map.look (s.desc die n).seqs q = some x) (hi : i < (s.desc die n).count)
    (hp : (s.desc die n).input x i src = some p) (hm : Map.look x.nodes i = some m ∨ (Map.look x.nodes i = none ∧ m = ⟨[], s.cycle.toNat, none⟩))
    (hout : m.out = none) (hsrc : Map.has m.ins src = false) {v : MNode}
    (hv : v = if s.nodeRetired die n i then m else { m with ins := Map.put m.ins src p }) :
    exec (.meshReductionInput die n q i src) s = .next (s.editSeqOf die n q { x with nodes := Map.put x.nodes i ((s.desc die n).forward x i v) }) := by
  have hnode : Map.lookD x.nodes i (MNode.fresh s.cycle.toNat) = m := by
    rcases hm with h | ⟨h, rfl⟩ <;> simp [Map.lookD, h, MNode.fresh]
  have he : exec (.meshReductionInput die n q i src) s = execMeshReductionInput die n q i src s := rfl
  have hopen : (m.out.isSome || Map.has m.ins src || decide ((s.desc die n).count ≤ i)) = false := by simp [hout, hsrc, hi]
  subst hv
  simp only [he, execMeshReductionInput, hx, hp, hnode, hopen, Bool.false_eq_true, if_false, MDesc.forward]

theorem meshReductionTimeout_next (hx : Map.look (s.desc die n).seqs q = some x) (hm : Map.look x.nodes i = some m) (hout : m.out = none) :
    exec (.meshReductionTimeout die n q i) s = .next
      (if s.cycle.toNat < m.start + (s.desc die n).timeout ∨ s.nodeRetired die n i = true ∧ i ≠ (s.desc die n).root then s
       else s.editSeqOf die n q { x with nodes := Map.put x.nodes i { m with out := some (foldNode x.op x.ty m) } }) := by
  have he : exec (.meshReductionTimeout die n q i) s = execMeshReductionTimeout die n q i s := rfl
  simp [he, execMeshReductionTimeout, hx, hm, hout]

/-- What a core holds of a finished sequence. -/
def meshResultOf (s : State) (die n q core : Nat) (x : MSeq) (p : MPart) : MeshResult :=
  { seqNo := q, vals := (List.range 32).map fun e => (e, Map.lookD p.vals e (mredIdent x.op x.ty))
    missing := (s.desc die n).members &&& ~~~p.members, bad := x.bad
    gave := (s.core (96 * die + core)).contrib.contains (n, q) }

theorem meshReductionResult_next {p : MPart} {core : Nat} (hx : Map.look (s.desc die n).seqs q = some x)
    (hp : (Map.look x.nodes (s.desc die n).root).bind (·.out) = some p) (hmem : ((s.desc die n).member core).isSome = true)
    (hnot : NSet.has x.reached core = false) :
    ∃ t, exec (.meshReductionResult die n q core) s = .next t ∧ t.mem = s.mem ∧ t.units = s.units ∧ t.core (96 * die + core) =
      { s.core (96 * die + core) with
        mesh := Map.put (s.core (96 * die + core)).mesh (64 * die + n) (meshResultOf s die n q core x p)
        contrib := (s.core (96 * die + core)).contrib.filter fun c => c ≠ (n, q) } := by
  have he : exec (.meshReductionResult die n q core) s = execMeshReductionResult die n q core s := rfl
  obtain ⟨j, hj⟩ := Option.isSome_iff_exists.1 hmem
  refine ⟨_, he, ?_⟩
  simp only [hx, hp, hj, hnot, Bool.false_eq_true, if_false]
  split_ifs <;> refine ⟨rfl, rfl, ?_⟩
  · rw [State.core_editDesc, State.core_editCore, if_pos rfl]
    rfl
  · rw [State.core_editSeqOf, State.core_editCore, if_pos rfl]
    rfl

end

end Sys2Proof.Machine
end

section
/-! SUPPORT. Soundness of a mesh descriptor (12 R363): the levels of `MDesc.reach` gather exactly the nodes that child links lead to from
the root. -/
namespace Sys2Proof.Machine

/-! ### Neighbours and nodes -/

/-- The neighbour of a core in a direction. -/
def meshNext (core dir : Nat) : Option Nat :=
  if dir = 0 ∧ 0 < core % 12 then some (core - 1) else if dir = 1 ∧ 12 ≤ core then some (core - 12)
  else if dir = 2 ∧ core % 12 < 11 then some (core + 1) else if dir = 3 ∧ core < 84 then some (core + 12) else none

theorem neighbour_eq (core : Nat) {dir : Nat} (h : dir < 4) : neighbour core dir = meshNext core dir := by
  have hrow : 0 < core / 12 ↔ 12 ≤ core := by omega
  have hcol : core / 12 < 7 ↔ core < 84 := by omega
  interval_cases dir <;> simp [neighbour, meshNext, hrow, hcol]

/-- No two nodes of the descriptor stand on one core. -/
def MDesc.Distinct (d : MDesc) : Prop := ∀ i ≤ d.nnodes, ∀ j ≤ d.nnodes, nodeCore (d.node i) = nodeCore (d.node j) → i = j

/-- A child link of node i leads to node j. -/
def MDesc.Leads (d : MDesc) (i j : Nat) : Prop :=
  j ≤ d.nnodes ∧ ∃ dir < 4, nodeChild (d.node i) dir = true ∧ meshNext (nodeCore (d.node i)) dir = some (nodeCore (d.node j))

section
variable {d : MDesc}

theorem MDesc.nodeAt_some {core j : Nat} (h : d.nodeAt core = some j) : j ≤ d.nnodes ∧ nodeCore (d.node j) = core := by
  rw [MDesc.nodeAt, leastBelow, List.find?_range_eq_some] at h
  obtain ⟨hcore, hj, -⟩ := h
  exact ⟨Nat.lt_succ_iff.1 (List.mem_range.1 hj), by simpa using hcore⟩

theorem MDesc.nodeAt_core (h : d.Distinct) {j : Nat} (hj : j ≤ d.nnodes) : d.nodeAt (nodeCore (d.node j)) = some j := by
  cases hn : d.nodeAt (nodeCore (d.node j)) with
  | none =>
    rw [MDesc.nodeAt, leastBelow, List.find?_range_eq_none] at hn
    have hno := hn j (Nat.lt_succ_iff.2 hj)
    simp at hno
  | some k =>
    obtain ⟨hk, hcore⟩ := MDesc.nodeAt_some hn
    rw [h k hk j hj hcore]

theorem MDesc.child_eq_some (h : d.Distinct) {i dir j : Nat} (hdir : dir < 4) : d.child i dir = some j ↔
    nodeChild (d.node i) dir = true ∧ j ≤ d.nnodes ∧ meshNext (nodeCore (d.node i)) dir = some (nodeCore (d.node j)) := by
  rw [MDesc.child, neighbour_eq _ hdir]
  split_ifs with hc
  · simp only [hc, true_and, Option.bind_eq_some_iff]
    constructor
    · rintro ⟨core, hnext, hnode⟩
      obtain ⟨hj, rfl⟩ := MDesc.nodeAt_some hnode
      exact ⟨hj, hnext⟩
    · rintro ⟨hj, hnext⟩
      exact ⟨_, hnext, MDesc.nodeAt_core h hj⟩
  · simp [hc]

theorem MDesc.leads_iff_child (h : d.Distinct) {i j : Nat} : d.Leads i j ↔ ∃ dir < 4, d.child i dir = some j := by
  constructor
  · rintro ⟨hj, dir, hdir, hc, hnext⟩
    exact ⟨dir, hdir, (MDesc.child_eq_some h hdir).2 ⟨hc, hj, hnext⟩⟩
  · rintro ⟨dir, hdir, hc⟩
    obtain ⟨hc, hj, hnext⟩ := (MDesc.child_eq_some h hdir).1 hc
    exact ⟨hj, dir, hdir, hc, hnext⟩

/-! ### The levels of reach -/

theorem NSet.mem_add (s : NSet) (n k : Nat) : k ∈ NSet.add s n ↔ k ∈ s ∨ k = n := by
  induction s with
  | nil => simp [NSet.add]
  | cons a t ih =>
    unfold NSet.add
    split_ifs with h1 h2
    · simp only [List.mem_cons]; tauto
    · subst h2; simp only [List.mem_cons]; tauto
    · simp only [List.mem_cons, ih]; tauto

/-- A fold that only adds members to a set. -/
theorem mem_foldl_adds {f : NSet → Nat → NSet} {P : Nat → Prop} {k : Nat} {l : List Nat} (h : ∀ r a, k ∈ f r a ↔ k ∈ r ∨ P a) (r : NSet) :
    k ∈ l.foldl f r ↔ k ∈ r ∨ ∃ a ∈ l, P a := by
  induction l generalizing r with
  | nil => simp
  | cons a l ih =>
    rw [List.foldl_cons, ih, h]
    simp only [List.mem_cons, exists_eq_or_imp, or_assoc]

theorem MDesc.mem_spread (h : d.Distinct) (l : NSet) (j : Nat) : j ∈ d.spread l ↔ j ∈ l ∨ ∃ i ∈ l, d.Leads i j := by
  refine mem_foldl_adds (fun r i => ?_) l
  rw [MDesc.leads_iff_child h]
  refine (mem_foldl_adds (P := fun dir => d.child i dir = some j) (fun r dir => ?_) r).trans (by simp only [List.mem_range])
  cases d.child i dir with
  | none => simp
  | some c => rw [NSet.mem_add, Option.some_inj, eq_comm]

theorem MDesc.mem_reach_succ (h : d.Distinct) (k j : Nat) : j ∈ d.reach (k + 1) ↔ j ∈ d.reach k ∨ ∃ i ∈ d.reach k, d.Leads i j :=
  MDesc.mem_spread h _ _

theorem MDesc.reach_mono (h : d.Distinct) {k j : Nat} (hj : j ∈ d.reach k) : j ∈ d.reach (k + 1) := (MDesc.mem_reach_succ h k j).2 (.inl hj)

theorem MDesc.root_mem_reach (h : d.Distinct) (k : Nat) : d.root ∈ d.reach k := by
  induction k with
  | zero => exact List.mem_singleton.2 rfl
  | succ k ih => exact MDesc.reach_mono h ih

theorem MDesc.reaches_of_mem_reach (h : d.Distinct) {k j : Nat} (hj : j ∈ d.reach k) : Relation.ReflTransGen d.Leads d.root j := by
  induction k generalizing j with
  | zero => rw [List.mem_singleton.1 hj]
  | succ k ih =>
    rcases (MDesc.mem_reach_succ h k j).1 hj with hj | ⟨i, hi, hij⟩
    · exact ih hj
    · exact (ih hi).tail hij

theorem MDesc.root_le : d.root ≤ d.nnodes := by
  unfold MDesc.root
  cases hr : leastBelow d.count fun i => nodeParent (d.node i) = 4 with
  | none => exact Nat.zero_le _
  | some r =>
    rw [leastBelow, List.find?_range_eq_some] at hr
    obtain ⟨-, hlt, -⟩ := hr
    exact Nat.lt_succ_iff.1 (List.mem_range.1 hlt)

theorem MDesc.reach_le (h : d.Distinct) {k j : Nat} (hj : j ∈ d.reach k) : j ≤ d.nnodes := by
  rcases (MDesc.reaches_of_mem_reach h hj).cases_tail with heq | ⟨i, -, hle, -⟩
  · exact heq ▸ MDesc.root_le
  · exact hle

/-- Each level is closed under the child links, or has more nodes than levels lie below it. -/
theorem MDesc.reach_closed_or_grows (h : d.Distinct) (k : Nat) :
    (∀ i ∈ d.reach k, ∀ j, d.Leads i j → j ∈ d.reach k) ∨ k + 1 ≤ (d.reach k).toFinset.card := by
  induction k with
  | zero => exact .inr (Finset.card_pos.2 ⟨d.root, List.mem_toFinset.2 (MDesc.root_mem_reach h 0)⟩)
  | succ k ih =>
    by_cases hclosed : ∀ i ∈ d.reach k, ∀ j, d.Leads i j → j ∈ d.reach k
    · refine .inl fun i hi j hij => MDesc.reach_mono h ?_
      rcases (MDesc.mem_reach_succ h k i).1 hi with hi | ⟨i', hi', hlead⟩
      · exact hclosed i hi j hij
      · exact hclosed i (hclosed i' hi' i hlead) j hij
    · have hgrown := ih.resolve_left hclosed
      push Not at hclosed
      obtain ⟨i, hi, j, hij, hj⟩ := hclosed
      have hsub : (d.reach k).toFinset ⊂ (d.reach (k + 1)).toFinset := by
        refine (Finset.ssubset_iff_of_subset fun x hx => ?_).2 ⟨j, ?_, ?_⟩
        · exact List.mem_toFinset.2 (MDesc.reach_mono h (List.mem_toFinset.1 hx))
        · exact List.mem_toFinset.2 ((MDesc.mem_reach_succ h k j).2 (.inr ⟨i, hi, hij⟩))
        · exact fun hx => hj (List.mem_toFinset.1 hx)
      have := Finset.card_lt_card hsub
      exact .inr (by omega)

/-- As many levels as there are nodes gather every node that the root leads to. -/
theorem MDesc.mem_reach_count (h : d.Distinct) (j : Nat) : j ∈ d.reach d.count ↔ Relation.ReflTransGen d.Leads d.root j := by
  refine ⟨MDesc.reaches_of_mem_reach h, fun hj => ?_⟩
  have hcard : (d.reach d.count).toFinset.card ≤ d.count := by
    have hsub : (d.reach d.count).toFinset ⊆ Finset.range d.count := fun x hx =>
      Finset.mem_range.2 (Nat.lt_succ_iff.2 (MDesc.reach_le h (List.mem_toFinset.1 hx)))
    simpa using Finset.card_le_card hsub
  have hclosed := (MDesc.reach_closed_or_grows h d.count).resolve_right (by omega)
  induction hj with
  | refl => exact MDesc.root_mem_reach h _
  | tail _ hij ih => exact hclosed _ ih _ hij

/-! ### Soundness -/

theorem filter_length_eq_one {n : Nat} {p : Nat → Bool} : ((List.range n).filter p).length = 1 ↔ ∃! r, r < n ∧ p r = true := by
  have hcard : ((List.range n).filter p).length = ((Finset.range n).filter fun r => p r = true).card := by
    rw [← List.toFinset_card_of_nodup (List.nodup_range.filter _), List.toFinset_filter, List.toFinset_range]
  rw [hcard, Finset.card_eq_one, Finset.singleton_iff_unique_mem]
  simp only [Finset.mem_filter, Finset.mem_range]

/-- Where one node alone has no parent, that is the root. -/
theorem MDesc.root_eq (h : ∃! r, r ≤ d.nnodes ∧ nodeParent (d.node r) = 4) {r : Nat} (hr : r ≤ d.nnodes) (hp : nodeParent (d.node r) = 4) :
    d.root = r := by
  unfold MDesc.root
  cases hl : leastBelow d.count fun i => nodeParent (d.node i) = 4 with
  | none =>
    rw [leastBelow, List.find?_range_eq_none] at hl
    exact absurd hp (by simpa using hl r (Nat.lt_succ_iff.2 hr))
  | some k =>
    rw [leastBelow, List.find?_range_eq_some] at hl
    obtain ⟨hk, hlt, -⟩ := hl
    exact h.unique ⟨Nat.lt_succ_iff.1 (List.mem_range.1 hlt), by simpa using hk⟩ ⟨hr, hp⟩

/-- The tests of a sound descriptor (R363). -/
structure MDesc.Sound (d : MDesc) (retired : Nat → Bool) : Prop where
  timeout : 64 ≤ d.timeout
  root : ∃! r, r ≤ d.nnodes ∧ nodeParent (d.node r) = 4
  nodes : ∀ i ≤ d.nnodes, nodeParent (d.node i) ≤ 4 ∧ nodeCore (d.node i) < 96 ∧ retired (nodeCore (d.node i)) = false
  distinct : d.Distinct
  children : ∀ i ≤ d.nnodes, ∀ dir < 4, nodeChild (d.node i) dir = true →
    ∃ j ≤ d.nnodes, meshNext (nodeCore (d.node i)) dir = some (nodeCore (d.node j)) ∧ nodeParent (d.node j) = (dir + 2) % 4
  reached : ∀ r ≤ d.nnodes, ∀ i ≤ d.nnodes, nodeParent (d.node r) = 4 → Relation.ReflTransGen d.Leads r i

theorem MDesc.children_iff (h : d.Distinct) {i dir : Nat} (hdir : dir < 4) :
    (!(nodeChild (d.node i) dir) || match d.child i dir with
      | some c => decide (nodeParent (d.node c) = back dir)
      | none => false) = true ↔
    (nodeChild (d.node i) dir = true →
      ∃ j ≤ d.nnodes, meshNext (nodeCore (d.node i)) dir = some (nodeCore (d.node j)) ∧ nodeParent (d.node j) = (dir + 2) % 4) := by
  cases hc : nodeChild (d.node i) dir with
  | false => simp
  | true =>
    simp only [Bool.not_true, Bool.false_or, true_imp_iff]
    constructor
    · intro hm
      cases hj : d.child i dir with
      | none => simp [hj] at hm
      | some j =>
        obtain ⟨-, hle, hnext⟩ := (MDesc.child_eq_some h hdir).1 hj
        exact ⟨j, hle, hnext, by rw [hj] at hm; exact of_decide_eq_true hm⟩
    · rintro ⟨j, hle, hnext, hback⟩
      rw [(MDesc.child_eq_some h hdir).2 ⟨hc, hle, hnext⟩]
      exact decide_eq_true hback

theorem all_nodes_iff {p : Nat → Bool} : ((List.range d.count).all p) = true ↔ ∀ i ≤ d.nnodes, p i = true := by
  simp only [List.all_eq_true, List.mem_range, MDesc.count, Nat.lt_succ_iff]

theorem MDesc.distinct_iff : ((List.range d.count).all fun i => (List.range d.count).all fun j =>
    decide (i = j) || decide (nodeCore (d.node i) ≠ nodeCore (d.node j))) = true ↔ d.Distinct := by
  simp only [all_nodes_iff, Bool.or_eq_true, decide_eq_true_eq, MDesc.Distinct]
  exact forall₄_congr fun i _ j _ => by tauto

theorem MDesc.allChildren_iff (h : d.Distinct) : ((List.range d.count).all fun i => (List.range 4).all fun dir =>
    !(nodeChild (d.node i) dir) || match d.child i dir with
      | some c => decide (nodeParent (d.node c) = back dir)
      | none => false) = true ↔
    ∀ i ≤ d.nnodes, ∀ dir < 4, nodeChild (d.node i) dir = true →
      ∃ j ≤ d.nnodes, meshNext (nodeCore (d.node i)) dir = some (nodeCore (d.node j)) ∧ nodeParent (d.node j) = (dir + 2) % 4 := by
  rw [all_nodes_iff]
  refine forall₂_congr fun i _ => ?_
  rw [List.all_eq_true]
  exact ⟨fun hall dir hdir => (MDesc.children_iff h hdir).1 (hall dir (List.mem_range.2 hdir)),
    fun hall dir hdir => (MDesc.children_iff h (List.mem_range.1 hdir)).2 (hall dir (List.mem_range.1 hdir))⟩

theorem MDesc.allReached_iff (h : d.Distinct) (hroot : ∃! r, r ≤ d.nnodes ∧ nodeParent (d.node r) = 4) :
    ((List.range d.count).all fun i => NSet.has (d.reach d.count) i) = true ↔
      ∀ r ≤ d.nnodes, ∀ i ≤ d.nnodes, nodeParent (d.node r) = 4 → Relation.ReflTransGen d.Leads r i := by
  simp only [all_nodes_iff, NSet.has_iff, MDesc.mem_reach_count h]
  constructor
  · intro hall r hr i hi hp
    rw [← MDesc.root_eq hroot hr hp]
    exact hall i hi
  · intro hall i hi
    have hone := hroot
    obtain ⟨r, ⟨hr, hp⟩, -⟩ := hone
    rw [MDesc.root_eq hroot hr hp]
    exact hall r hr i hi hp

theorem MDesc.ok_iff (retired : Nat → Bool) : d.ok retired = true ↔ d.Sound retired := by
  have hroot : ((List.range d.count).filter fun i => decide (nodeParent (d.node i) = 4)).length = 1 ↔
      ∃! r, r ≤ d.nnodes ∧ nodeParent (d.node r) = 4 := by
    simp only [filter_length_eq_one, MDesc.count, Nat.lt_succ_iff, decide_eq_true_eq]
  have hnodes : ((List.range d.count).all fun i =>
      decide (nodeParent (d.node i) ≤ 4) && decide (nodeCore (d.node i) < 96) && !(retired (nodeCore (d.node i)))) = true ↔
      ∀ i ≤ d.nnodes, nodeParent (d.node i) ≤ 4 ∧ nodeCore (d.node i) < 96 ∧ retired (nodeCore (d.node i)) = false := by
    simp only [all_nodes_iff, Bool.and_eq_true, decide_eq_true_eq, Bool.not_eq_true', and_assoc]
  unfold MDesc.ok
  rw [Bool.and_eq_true, Bool.and_eq_true, Bool.and_eq_true, Bool.and_eq_true, Bool.and_eq_true, decide_eq_true_eq, decide_eq_true_eq, hroot, hnodes,
    MDesc.distinct_iff]
  constructor
  · rintro ⟨⟨⟨⟨⟨ht, hr⟩, hn⟩, hd⟩, hc⟩, ha⟩
    exact ⟨ht, hr, hn, hd, (MDesc.allChildren_iff hd).1 hc, (MDesc.allReached_iff hd hr).1 ha⟩
  · rintro ⟨ht, hr, hn, hd, hc, ha⟩
    exact ⟨⟨⟨⟨⟨ht, hr⟩, hn⟩, hd⟩, (MDesc.allChildren_iff hd).2 hc⟩, (MDesc.allReached_iff hd hr).2 ha⟩

end
end Sys2Proof.Machine
end

section
/-! SUPPORT. The events of mesh reduction at their descriptor and their MRED (06 R202 to R204, 12 R363), and the statement about them. -/
namespace Sys2Proof.Machine

/-! ### Writing VALID (R363) -/

/-- The descriptor that a write of VALID = 1 tests. -/
def State.loadedDesc (s : State) (die n : Nat) (ctl : Word) : MDesc :=
  { s.desc die n with nnodes := ctl.toNat / 2 ^ 24 % 64, timeout := ctl.toNat % 2 ^ 24, seqs := [] }

/-- The core of a die is retired. -/
def State.retiredOn (s : State) (die : Nat) (core : Nat) : Bool := NSet.has s.dev.retCores (96 * die + core)

section
variable {s : State} {die n : Nat}

theorem mredDescValidate_valid (hv : (s.desc die n).valid = true) (ctl : Word) : exec (.mredDescValidate die n ctl) s = .next s := by
  have he : exec (.mredDescValidate die n ctl) s = execMredDescValidate die n ctl s := rfl
  simp [he, execMredDescValidate, hv]

theorem mredDescValidate_next (hdie : die < 2) (hn : n < 64) (hv : (s.desc die n).valid = false) (ctl : Word) :
    ∃ t, exec (.mredDescValidate die n ctl) s = .next t ∧ t.mem = s.mem ∧ t.desc die n =
      { s.loadedDesc die n ctl with
        valid := (s.loadedDesc die n ctl).ok (s.retiredOn die), err := !(s.loadedDesc die n ctl).ok (s.retiredOn die) } := by
  have he : exec (.mredDescValidate die n ctl) s = execMredDescValidate die n ctl s := rfl
  have hopen : (decide (2 ≤ die) || decide (64 ≤ n) || (s.desc die n).valid) = false := by simp [hdie, hn, hv]
  have hlast : field ctl.toNat 29 24 = ctl.toNat / 2 ^ 24 % 64 := rfl
  have htime : field ctl.toNat 23 0 = ctl.toNat % 2 ^ 24 := by simp [field]
  have hnext : execMredDescValidate die n ctl s = .next ((s.editDesc die n fun _ => { s.loadedDesc die n ctl with
      valid := (s.loadedDesc die n ctl).ok (s.retiredOn die), err := !(s.loadedDesc die n ctl).ok (s.retiredOn die) }).forgetSeqs die n) := by
    simp only [execMredDescValidate, hopen, Bool.false_eq_true, if_false, hlast, htime]
    rfl
  refine ⟨_, he.trans hnext, rfl, ?_⟩
  rw [State.desc_forgetSeqs, State.desc_editDesc]

theorem mredDescInvalidate_next (hdie : die < 2) (hn : n < 64) :
    ∃ t, exec (.mredDescInvalidate die n) s = .next t ∧ (t.desc die n).valid = false ∧ (t.desc die n).seqs = [] ∧ t.mem = s.mem
      ∧ t.units = s.units := by
  have he : exec (.mredDescInvalidate die n) s = execMredDescInvalidate die n s := rfl
  have hopen : (decide (2 ≤ die) || decide (64 ≤ n)) = false := by simp [hdie, hn]
  have hnext : execMredDescInvalidate die n s = .next ((s.editDesc die n fun d => { d with valid := false, seqs := [] }).forgetSeqs die n) := by
    simp only [execMredDescInvalidate, hopen, Bool.false_eq_true, if_false]
  refine ⟨_, he.trans hnext, ?_, ?_, rfl, rfl⟩
  all_goals rw [State.desc_forgetSeqs, State.desc_editDesc]

/-- The entry of a node that contributes on a core, with no child and no parent. -/
theorem lone_node_fields {core : Nat} (hcore : core < 96) : nodeParent (2 ^ 31 + 4 * 2 ^ 24 + core) = 4 ∧ nodeCore (2 ^ 31 + 4 * 2 ^ 24 + core) = core
    ∧ ∀ dir < 4, nodeChild (2 ^ 31 + 4 * 2 ^ 24 + core) dir = false := by
  refine ⟨?_, ?_, fun dir hdir => ?_⟩
  · simp only [nodeParent, field]; omega
  · simp only [nodeCore, field]; omega
  · refine decide_eq_false ?_
    interval_cases dir <;> norm_num [field] <;> omega

/-- A descriptor of one node is sound where its core stands and its timer is long enough. -/
theorem MDesc.sound_lone {d : MDesc} {retired : Nat → Bool} {core : Nat} (ht : 64 ≤ d.timeout) (hlast : d.nnodes = 0) (hcore : core < 96)
    (hret : retired core = false) (hnode : d.node 0 = 2 ^ 31 + 4 * 2 ^ 24 + core) : d.Sound retired := by
  obtain ⟨hparent, hon, hchild⟩ := lone_node_fields hcore
  rw [← hnode] at hparent hon hchild
  have hone {i : Nat} (hi : i ≤ d.nnodes) : i = 0 := by omega
  refine ⟨ht, ⟨0, ⟨Nat.zero_le _, hparent⟩, fun r hr => hone hr.1⟩, fun i hi => ?_, fun i hi j hj _ => (hone hi).trans (hone hj).symm,
    fun i hi dir hdir hc => ?_, fun r hr i hi _ => ?_⟩
  · rw [hone hi, hparent, hon]
    exact ⟨le_rfl, hcore, hret⟩
  · rw [hone hi, hchild dir hdir] at hc
    exact absurd hc Bool.false_ne_true
  · rw [hone hr, hone hi]

end

/-! ### An MRED completes (R202) -/

section
variable {s : State} {u op n q i : Nat} {un : KUnit} {o : Op} {x : MSeq} {vals : Map Word}

theorem memoryOpComplete_mred (hu : s.unit? u = some un) (ho : un.op? op = some o) (hnot : o.done = false) (hk : o.kind = .mred n q)
    (hd : un.drops = []) (hs : s.stalled = false) :
    exec (.memoryOpComplete u op) s = .next (if s.mredAccepted un.core n q u op then s.editUnit u fun un => un.complete op else s) := by
  have he : exec (.memoryOpComplete u op) s = execMemoryOpComplete u op s := rfl
  have hunit : (s.editUnit u fun un => un.complete op).unit? u = some (un.complete op) := by simp [State.unit?_editUnit, hu]
  rw [he]
  simp only [execMemoryOpComplete, whole, hu, ho, hnot, hk, Bool.false_eq_true, if_false]
  by_cases hacc : s.mredAccepted un.core n q u op = true
  · simp only [hacc, if_true, State.settleDrops_none hunit hd, State.editUnit_stalled, hs, Bool.false_eq_true, if_false]
  · simp only [hacc, if_false, State.settleDrops_none hu hd, hs, Bool.false_eq_true]

/-- The contribution of an MRED stands at its router when its node has it or has forwarded, or can keep nothing. -/
theorem mredAccepted_eq (hx : Map.look (s.desc (dieOf un.core) n).seqs q = some x) (hi : (s.desc (dieOf un.core) n).member (un.core % 96) = some i)
    (hg : Map.look x.given (un.core % 96) = some (vals, u, op)) :
    s.mredAccepted un.core n q u op =
      (Map.look x.nodes i).any fun m => m.out.isSome || Map.has m.ins 4 || s.nodeRetired (dieOf un.core) n i := by
  simp [State.mredAccepted, hx, hi, hg]

end

/-! ### The statement -/

/-- A node's combination of inputs, element by element, and the members it stands for. -/
theorem foldNode_folds {x : MSeq} {op : Word → Word → Word} {canon : Word → Word} (hop : op = mredOp x.op x.ty) (hcanon : canon = mredCanon x.ty)
    (m : MNode) :
    (∀ j < 64, (foldNode x.op x.ty m).members.getLsbD j = true ↔ ∃ k < 5, ∃ z, Map.look m.ins k = some z ∧ z.members.getLsbD j = true)
      ∧ ∀ e < 32, Map.look (foldNode x.op x.ty m).vals e =
        match (List.range 5).filterMap fun k => (Map.look m.ins k).bind fun z => Map.look z.vals e with
        | [] => none
        | y :: ys => some (ys.foldl op (canon y)) := by
  subst hop hcanon
  exact ⟨fun j _ => foldNode_members x.op x.ty m j, fun e he => foldNode_vals x.op x.ty m he⟩

/-- Settles O26: a node forwards the fold of what it has, and the tests of VALID are those of a sound descriptor, whose levels from the root gather all
nodes that its child links lead to. -/
theorem meshTreeCombines : Obligations.MeshTreeCombines := by
  unfold Obligations.MeshTreeCombines
  refine ⟨fun s die n q i x m hx hi => ?tree, fun s die n hdie hn => ⟨fun hv ctl => mredDescValidate_valid hv ctl,
    fun hv => ⟨fun ctl hctl => ?short, fun core timeout hlo hhi hcore hret hnode => ?lone, fun ctl => ?sound⟩, ?rest⟩⟩
  case tree =>
    intro after op canon identity retired folds
    have hop : op = mredOp x.op x.ty := by
      funext a b
      cases hty : x.ty with
      | f32 => cases hxop : x.op <;> simp only [op, hty, hxop, mredOp, foldF32]
      | i32 => cases hxop : x.op <;> simp only [op, hty, hxop, mredOp, foldInt_signed, signedStep]
      | n32 => cases hxop : x.op <;> simp only [op, hty, hxop, mredOp, foldInt_unsigned, unsignedStep]
    have hcanon : canon = mredCanon x.ty := by
      funext a
      cases hty : x.ty <;> simp [canon, hty, mredCanon, canonF32]
    have hident : identity = mredIdent x.op x.ty := by
      cases hty : x.ty <;> cases hxop : x.op <;> simp [identity, hty, hxop, mredIdent, identF32, identI32, identN32]
    have hfolds (v : MNode) : folds v.ins (foldNode x.op x.ty v) := foldNode_folds hop hcanon v
    refine ⟨fun src p hp hm hout hsrc => ?input, fun hm hout => ⟨fun htime hfree => ?timeout, fun hearly => ?early⟩,
      fun p core hp hmem hnot => ?result⟩
    case input =>
      have hnext {v : MNode} := meshReductionInput_next (v := v) hx hi hp hm hout hsrc
      have hlook (v : MNode) : Map.look (Map.put x.nodes i v) i = some v := Map.look_put_self _ _ _
      have hnamed : (∀ k ∈ (s.desc die n).named i, Map.has (Map.put m.ins src p) k = true) ↔
          ∀ k ∈ (s.desc die n).named i, k = src ∨ Map.has m.ins k = true := by
        simp only [Map.has_put, Bool.or_eq_true, decide_eq_true_eq]
      refine ⟨fun hret hwait => ?kept, fun hlive => ?taken⟩
      case kept =>
        refine ⟨_, _, hnext (if_pos hret).symm, State.look_editSeqOf .., ⟨rfl, rfl, rfl, rfl, rfl, rfl⟩, ?_⟩
        rw [MDesc.forward_waits hwait, hlook]
      case taken =>
        refine ⟨_, _, hnext (if_neg hlive).symm, State.look_editSeqOf .., ⟨rfl, rfl, rfl, rfl, rfl, rfl⟩, fun hmore => ?_, fun hlast => ?_⟩
        · rw [MDesc.forward_waits (hnamed.not.2 hmore), hlook]
        · rw [MDesc.forward_complete (hnamed.2 hlast), hlook]
          exact ⟨_, rfl, hfolds _⟩
    case timeout =>
      have hnext := meshReductionTimeout_next hx hm hout
      have hgoes : ¬ (s.cycle.toNat < m.start + (s.desc die n).timeout ∨ s.nodeRetired die n i = true ∧ i ≠ (s.desc die n).root) := by
        rintro (hearly | ⟨hr, hne⟩)
        · omega
        · exact hne (hfree.resolve_left (not_not.2 hr))
      rw [if_neg hgoes] at hnext
      exact ⟨_, _, _, hnext, State.look_editSeqOf .., ⟨rfl, rfl, rfl, rfl, rfl, rfl⟩, Map.look_put_self .., hfolds m⟩
    case early => exact (meshReductionTimeout_next hx hm hout).trans (congrArg _ (if_pos hearly))
    case result =>
      obtain ⟨t, hexec, hmem, hunits, hcore⟩ := meshReductionResult_next hx hp hmem hnot
      refine ⟨t, meshResultOf s die n q core x p, hexec, hmem, hunits, ?_, rfl, rfl, rfl, fun e he => ?_, ?_, ?_⟩
      · rw [hcore, Map.look_put_self]
      · rw [hident, meshResultOf, Map.lookD, Map.look_map, if_pos (List.mem_range.2 he)]
        rfl
      · exact List.contains_iff_mem
      · rw [hcore]
        simp
  case short =>
    obtain ⟨t, hexec, hmem, hdesc⟩ := mredDescValidate_next hdie hn hv ctl
    have hbad : (s.loadedDesc die n ctl).ok (s.retiredOn die) = false :=
      Bool.eq_false_iff.2 fun hok => absurd ((MDesc.ok_iff _).1 hok).timeout (not_le.2 hctl)
    exact ⟨t, hexec, by rw [hdesc, hbad], by rw [hdesc, hbad]; rfl, hmem⟩
  case lone =>
    obtain ⟨t, hexec, hmem, hdesc⟩ := mredDescValidate_next hdie hn hv (BitVec.ofNat 32 timeout)
    have hword : (BitVec.ofNat 32 timeout).toNat = timeout := by rw [BitVec.toNat_ofNat, Nat.mod_eq_of_lt (by omega)]
    have htime : (s.loadedDesc die n (BitVec.ofNat 32 timeout)).timeout = timeout := by
      simp only [State.loadedDesc, hword]
      exact Nat.mod_eq_of_lt hhi
    have hlast : (s.loadedDesc die n (BitVec.ofNat 32 timeout)).nnodes = 0 := by
      simp only [State.loadedDesc, hword]
      omega
    have hstands : s.retiredOn die core = false := Bool.eq_false_iff.2 fun hr => hret ((NSet.has_iff _ _).1 hr)
    have hok : (s.loadedDesc die n (BitVec.ofNat 32 timeout)).ok (s.retiredOn die) = true :=
      (MDesc.ok_iff _).2 (MDesc.sound_lone (by rw [htime]; exact hlo) hlast hcore hstands hnode)
    exact ⟨t, hexec, by rw [hdesc, hok], by rw [hdesc, hok]; rfl, by rw [hdesc]; rfl, by rw [hdesc]; exact htime, hmem⟩
  case sound =>
    intro last node next leads
    obtain ⟨t, hexec, hmem, hdesc⟩ := mredDescValidate_next hdie hn hv ctl
    have hret (core : Nat) : s.retiredOn die core = false ↔ 96 * die + core ∉ s.dev.retCores := by
      rw [← NSet.has_iff, Bool.not_eq_true]
      rfl
    refine ⟨t, hexec, hmem, by rw [hdesc], by rw [hdesc]; rfl, by rw [hdesc]; rfl, by rw [hdesc]; rfl, ?_⟩
    rw [hdesc]
    refine (MDesc.ok_iff _).trans ⟨fun hd => ?_, fun hd => ?_⟩
    · obtain ⟨ht, hroot, hnodes, hdist, hchild, hreach⟩ := hd
      simp only [hret] at hnodes
      exact ⟨ht, hroot, hnodes, hdist, hchild, hreach⟩
    · obtain ⟨ht, hroot, hnodes, hdist, hchild, hreach⟩ := hd
      refine ⟨ht, hroot, ?_, hdist, hchild, hreach⟩
      simp only [hret]
      exact hnodes
  case rest =>
    obtain ⟨t, hexec, hvalid, hseqs, hmem, hunits⟩ := mredDescInvalidate_next (s := s) hdie hn
    refine ⟨t, hexec, hvalid, hseqs, hmem, hunits, ?_⟩
    rintro u op un o q i x vals rfl hu ho hnot hk hd hs hx hi hg
    have hnext := memoryOpComplete_mred hu ho hnot hk hd hs
    rw [mredAccepted_eq hx hi hg] at hnext
    refine ⟨fun m hm hdone => ?_, fun hm => ?_⟩
    · have hacc : ((Map.look x.nodes i).any fun m => m.out.isSome || Map.has m.ins 4 || s.nodeRetired (dieOf un.core) n i) = true := by
        rw [hm]
        rcases hdone with h | h <;> simp [h]
      rw [hacc, if_pos rfl] at hnext
      refine ⟨_, hnext, ?_, rfl⟩
      rw [State.unit?_editUnit, if_pos rfl, hu]
      rfl
    · rw [hm] at hnext
      exact hnext

end Sys2Proof.Machine
end

section
/-! SUPPORT. Capability words (05 R152 to R162): the quad that each active thread writes, and what decoding, narrowing, stepping and the
canonical encoding do to the fields and bounds of a capability. -/
namespace Sys2Proof.Machine

/-! ### A quad written in each active thread (R29, R30) -/

/-- The four register writes of a quad, lowest register first. -/
def quadWrites (r : Nat) (q : BitVec 128) : List (Nat × Word) := (List.range 4).map fun i => (r + i, (q >>> (32 * i)).setWidth 32)

theorem Warp.setQuad_eq (w : Warp) (rt : RTag) (r t : Nat) (q : BitVec 128) (tag : Bool) :
    w.setQuad rt r t q tag = (writeRegs rt t (quadWrites r q) w).setQtag (r / 4) t tag := rfl

theorem lastWrite_quadWrites (r x : Nat) (q : BitVec 128) :
    lastWrite (quadWrites r q) x = if r ≤ x ∧ x < r + 4 then some (q.extractLsb' (32 * (x - r)) 32) else none := by
  have hword (i : Nat) : (q >>> (32 * i)).setWidth 32 = q.extractLsb' (32 * i) 32 := by
    ext j hj
    simp [BitVec.getElem_extractLsb', Nat.add_comm]
  simp only [quadWrites, hword]
  by_cases h : r ≤ x ∧ x < r + 4
  · obtain ⟨k, rfl⟩ := Nat.exists_eq_add_of_le h.1
    have hk : k < 4 := by omega
    interval_cases k <;> simp [lastWrite, List.range_succ]
  · rw [if_neg h]
    have hne (i : Nat) (hi : i < 4) : r + i ≠ x := by omega
    simp [lastWrite, List.range_succ, hne 1, hne 2, hne 3, show r ≠ x by omega]

theorem Warp.reg_setQuad (w : Warp) (rt : RTag) (r t : Nat) (q : BitVec 128) (tag : Bool) {x u : Nat} (ht : t < 32) (hu : u < 32) :
    (w.setQuad rt r t q tag).reg x u = if u = t ∧ r ≤ x ∧ x < r + 4 then q.extractLsb' (32 * (x - r)) 32 else w.reg x u := by
  rw [Warp.setQuad_eq, Warp.reg_setQtag, writeRegs_reg _ _ _ _ _ _ ht hu, lastWrite_quadWrites]
  by_cases e : u = t
  · by_cases h : r ≤ x ∧ x < r + 4 <;> simp [e, h]
  · simp [e]

theorem Warp.qtag_setQuad (w : Warp) (rt : RTag) (r t : Nat) (q : BitVec 128) (tag : Bool) (hr : r % 4 = 0) {x u : Nat} (hu : u < 32) :
    (w.setQuad rt r t q tag).qtag x u = if u = t ∧ x = r / 4 then tag else w.qtag x u := by
  rw [Warp.setQuad_eq, Warp.qtag_setQtag _ _ _ _ _ _ hu, writeRegs_qtag _ _ _ _ _ _ hu]
  by_cases e : x = r / 4
  · by_cases e' : u = t <;> simp [e, e']
  · have hany : (quadWrites r q).any (fun p => decide (p.1 / 4 = x)) = false := by
      rw [List.any_eq_false]
      intro p hp
      simp only [quadWrites, List.mem_map, List.mem_range] at hp
      obtain ⟨i, hi, rfl⟩ := hp
      simp only [decide_eq_true_eq]
      omega
    simp [e, hany]

theorem Warp.setQuad_rest (w : Warp) (rt : RTag) (r t : Nat) (q : BitVec 128) (tag : Bool) :
    w.setQuad rt r t q tag = { w with
      regs := (w.setQuad rt r t q tag).regs, rtags := (w.setQuad rt r t q tag).rtags, qtags := (w.setQuad rt r t q tag).qtags } := by
  rw [Warp.setQuad_eq, writeRegs_rest]
  rfl

/-- A quad written in every thread of a list. -/
def Warp.setQuads (w : Warp) (r : Nat) (q : Nat → BitVec 128 × Bool) (ts : List Nat) : Warp :=
  ts.foldl (fun w t => w.setQuad .general r t (q t).1 (q t).2) w

theorem Warp.setQuads_rest (w : Warp) (r : Nat) (q : Nat → BitVec 128 × Bool) (ts : List Nat) :
    w.setQuads r q ts = { w with regs := (w.setQuads r q ts).regs, rtags := (w.setQuads r q ts).rtags, qtags := (w.setQuads r q ts).qtags } := by
  induction ts generalizing w with
  | nil => rfl
  | cons t ts ih =>
    have hfirst := w.setQuad_rest .general r t (q t).1 (q t).2
    have hrest := ih (w.setQuad .general r t (q t).1 (q t).2)
    rw [Warp.setQuads, List.foldl_cons, ← Warp.setQuads]
    generalize (w.setQuad .general r t (q t).1 (q t).2).setQuads r q ts = x at hrest ⊢
    generalize w.setQuad .general r t (q t).1 (q t).2 = v at hfirst hrest
    rw [hfirst] at hrest
    exact hrest

theorem Warp.setQuads_frags (w : Warp) (r : Nat) (q : Nat → BitVec 128 × Bool) (ts : List Nat) : (w.setQuads r q ts).frags = w.frags := by
  rw [Warp.setQuads_rest]

theorem Warp.reg_setQuads (w : Warp) (r : Nat) (q : Nat → BitVec 128 × Bool) {m : Mask} {x u : Nat} (hu : u < 32) :
    (w.setQuads r q (threads m)).reg x u =
      if m.getLsbD u = true ∧ r ≤ x ∧ x < r + 4 then (q u).1.extractLsb' (32 * (x - r)) 32 else w.reg x u := by
  refine (foldl_once (fun _ => True) (fun (w : Warp) t => w.setQuad .general r t (q t).1 (q t).2) u (fun v : Warp => v.reg x u)
    (fun old => if r ≤ x ∧ x < r + 4 then (q u).1.extractLsb' (32 * (x - r)) 32 else old) (threads_nodup m) (fun _ _ _ _ => trivial)
    (fun v _ => ?_) (fun v t ht _ hne => ?_) trivial).trans ?_
  · simp [Warp.reg_setQuad _ _ _ _ _ _ hu hu]
  · simp [Warp.reg_setQuad _ _ _ _ _ _ (mem_threads.1 ht).1 hu, Ne.symm hne]
  · simp only [mem_threads, hu, true_and, ← ite_and]

theorem Warp.qtag_setQuads (w : Warp) {r : Nat} (hr : r % 4 = 0) (q : Nat → BitVec 128 × Bool) (m : Mask) {x u : Nat} (hu : u < 32) :
    (w.setQuads r q (threads m)).qtag x u = if m.getLsbD u = true ∧ x = r / 4 then (q u).2 else w.qtag x u := by
  refine (foldl_once (fun _ => True) (fun (w : Warp) t => w.setQuad .general r t (q t).1 (q t).2) u (fun v : Warp => v.qtag x u)
    (fun old => if x = r / 4 then (q u).2 else old) (threads_nodup m) (fun _ _ _ _ => trivial) (fun v _ => ?_) (fun v t ht _ hne => ?_)
    trivial).trans ?_
  · simp [Warp.qtag_setQuad _ _ _ _ _ _ hr hu]
  · simp [Warp.qtag_setQuad _ _ _ _ _ _ hr hu, Ne.symm hne]
  · simp only [mem_threads, hu, true_and, ← ite_and]

/-- The quads of the active threads are written, and nothing else. -/
theorem Warp.setQuads_effect (w : Warp) {r : Nat} (hr : r % 4 = 0) (q : Nat → BitVec 128 × Bool) (m : Mask) :
    WarpEffect w (w.setQuads r q (threads m)) (Delta.ofQuad m r q) where
  rest := by
    rw [Warp.setQuads_rest]
  reg x u hu := by
    rw [Warp.reg_setQuads _ _ _ hu]
    by_cases hm : m.getLsbD u = true
    · by_cases hx : r ≤ x ∧ x < r + 4 <;> simp [Delta.ofQuad, and_assoc, hm, hx]
    · simp [Delta.ofQuad, hm]
  quad x u hu := by
    rw [Warp.qtag_setQuads _ hr _ _ hu]
    by_cases hm : m.getLsbD u = true
    · by_cases hx : x = r / 4 <;> simp [Delta.ofQuad, hm, hx]
    · simp [Delta.ofQuad, hm]
  pred p u hu := by
    rw [Warp.setQuads_rest]
    rfl
  flags u hu := by
    rw [Warp.setQuads_rest]
    exact (BitVec.or_zero).symm

/-- The registers of a capability are aligned (R29). -/
theorem Ctx.quad_aligned (c : Ctx) (d : CapReg) : (c.base + 4 * d.toNat) % 4 = 0 := by
  unfold Ctx.base
  omega

/-- A word whose body writes the quads of the active threads and retires. -/
theorem withWord_writesQuad {s : State} {c : Ctx} {use : List Opn} {d : CapReg} {n : Nat} (h : Ready s c use []) (q : Nat → BitVec 128 × Bool)
    {i : Instr} (m : State → Host.Outcome State Fault Refusal) (he : exec i s = m s) {body : Ctx → State → State} (hm : m = withWord use [] body)
    {g : Warp → Warp} (hbody : body c s = (s.editWarp c.f.unit c.f.warp g).retire c n false c.beats)
    (hg : g c.w = c.w.setQuads (c.base + 4 * d.toNat) q (threads c.act)) : WritesQuad i s c n d q :=
  ⟨_, _, by rw [he, hm, withWord_ready h, hbody], c.w.setQuads_effect (c.quad_aligned d) q c.act,
    retired_edit h.1 _ hg (Warp.setQuads_frags ..) n false c.beats⟩

/-- A capability word writes cd as it says in each active thread. -/
theorem capWord_writes {s : State} {c : Ctx} {use : List Opn} {d : CapReg} {n : Nat} {i : Instr} (h : Ready s c (opC d :: use) [])
    {m : State → Host.Outcome State Fault Refusal} (he : exec i s = m s) {f : Ctx → Nat → Cap × Bool} (hm : m = capWord d use n f)
    {r : Nat → Cap × Bool} (hr : ∀ t, f c t = r t) : WritesCap i s c n d r := by
  obtain rfl : f c = r := funext hr
  exact withWord_writesQuad h (fun t => ((f c t).1.bits, (f c t).2)) m he hm rfl rfl

/-! ### Fields and their encoding (Table 1.4, R152) -/

/-- Every field is within its bits. -/
structure Cap.Fits (k : Cap) : Prop where
  rsv : k.rsv < 2 ^ 14
  space : k.space < 16
  perm : k.perm < 256
  topm : k.topm < 2 ^ 20
  basem : k.basem < 2 ^ 20
  exp : k.exp < 64
  cursor : k.cursor < 2 ^ 56

theorem Cap.fits_of (q : BitVec 128) : (Cap.of q).Fits := by
  have hq := q.isLt
  constructor <;> simp only [Cap.of] <;> omega

theorem Ctx.cap_fits (c : Ctx) (a : CapReg) (t : Nat) : (c.cap a t).Fits := Cap.fits_of _

theorem Cap.of_bits {k : Cap} (h : k.Fits) : Cap.of k.bits = k := by
  obtain ⟨h1, h2, h3, h4, h5, h6, h7⟩ := h
  obtain ⟨rsv, space, perm, topm, basem, exp, cursor⟩ := k
  simp only at h1 h2 h3 h4 h5 h6 h7
  simp only [Cap.of, Cap.bits, BitVec.toNat_ofNat, Cap.mk.injEq]
  refine ⟨?_, ?_, ?_, ?_, ?_, ?_, ?_⟩ <;> omega

/-- The anchor of a capability, in units of its exponent. -/
def Cap.unit (k : Cap) : Nat := k.cursor / 2 ^ k.exp

theorem Cap.bounds_whole {k : Cap} (h : k.exp = 63) (p : Nat × Nat) : k.bounds = some p ↔ k.basem = 0 ∧ k.topm = 0 ∧ p = (0, 2 ^ 56) := by
  simp only [Cap.bounds, h, if_true]
  split_ifs with hb
  · simp only [false_iff]
    rintro ⟨h1, h2, -⟩
    omega
  · simp only [Option.some.injEq]
    constructor
    · rintro rfl
      exact ⟨by omega, by omega, rfl⟩
    · rintro ⟨-, -, rfl⟩
      rfl

theorem Cap.bounds_scaled {k : Cap} (h : k.exp ≠ 63) (b t : Nat) : k.bounds = some (b, t) ↔ k.exp ≤ 36 ∧ k.basem ≤ k.unit
    ∧ (k.unit + k.topm) * 2 ^ k.exp ≤ 2 ^ 56 ∧ b = (k.unit - k.basem) * 2 ^ k.exp ∧ t = (k.unit + k.topm) * 2 ^ k.exp := by
  have hpos : 0 < 2 ^ k.exp := Nat.two_pow_pos _
  simp only [Cap.bounds, if_neg h, ← Cap.unit.eq_1, ← Nat.sub_mul, ← Nat.add_mul, Nat.mul_lt_mul_right hpos]
  split_ifs with h36 hout
  · simp only [false_iff]
    omega
  · simp only [false_iff]
    omega
  · simp only [Option.some.injEq, Prod.mk.injEq]
    constructor
    · rintro ⟨rfl, rfl⟩
      exact ⟨by omega, by omega, by omega, rfl, rfl⟩
    · rintro ⟨-, -, -, rfl, rfl⟩
      exact ⟨rfl, rfl⟩

/-- Bounds lie in order in the address space. -/
theorem Cap.bounds_le {k : Cap} {b t : Nat} (h : k.bounds = some (b, t)) : b ≤ t ∧ t ≤ 2 ^ 56 := by
  by_cases h63 : k.exp = 63
  · obtain ⟨-, -, hp⟩ := (Cap.bounds_whole h63 _).1 h
    simp only [Prod.mk.injEq] at hp
    omega
  · obtain ⟨-, -, htop, rfl, rfl⟩ := (Cap.bounds_scaled h63 b t).1 h
    exact ⟨Nat.mul_le_mul_right _ (by omega), htop⟩

/-! ### Narrowing (R157) -/

theorem leastBelow_eq_some {n : Nat} {p : Nat → Bool} {e : Nat} :
    leastBelow n p = some e ↔ e < n ∧ p e = true ∧ ∀ j < e, p j = false := by
  simp only [leastBelow, List.find?_range_eq_some, List.mem_range, Bool.not_eq_true']
  tauto

theorem leastBelow_eq_none {n : Nat} {p : Nat → Bool} : leastBelow n p = none ↔ ∀ e < n, p e = false := by
  simp [leastBelow]

section
variable (k : Cap) (tag exact : Bool) (len : Nat)

/-- Whether the bounds of a capability hold a region. -/
def Cap.within (k : Cap) (rb rt : Nat) : Bool :=
  match k.bounds with
  | some (b0, t0) => decide (b0 ≤ rb) && decide (rt ≤ t0)
  | none => false

theorem Cap.within_iff (k : Cap) (rb rt : Nat) : k.within rb rt = true ↔ ∃ b0 t0, k.bounds = some (b0, t0) ∧ b0 ≤ rb ∧ rt ≤ t0 := by
  unfold Cap.within
  cases hb : k.bounds with
  | none => simp
  | some p => simp [Prod.ext_iff]

/-- Only the whole address space holds itself. -/
theorem Cap.within_whole (k : Cap) : k.within 0 (2 ^ 56) = true ↔ k.bounds = some (0, 2 ^ 56) := by
  rw [Cap.within_iff]
  constructor
  · rintro ⟨b0, t0, hb, h0, ht⟩
    have := Cap.bounds_le hb
    rw [hb, show b0 = 0 by omega, show t0 = 2 ^ 56 by omega]
  · intro hb
    exact ⟨0, 2 ^ 56, hb, le_refl _, le_refl _⟩

/-- The exponents with which the region has an encoding. -/
def Cap.narrowFits (k : Cap) (len e : Nat) : Bool := decide (ceilDiv (k.cursor + len) (2 ^ e) - k.cursor / 2 ^ e ≤ 2 ^ 20 - 1)

/-- Narrowing, by whether it is to the whole address space and by the least exponent found. -/
theorem Cap.narrow_eq {whole : Bool} {found : Option Nat} {e rb rt : Nat}
    (hw : (decide (k.cursor = 0) && decide (k.cursor + len = 2 ^ 56)) = whole) (hf : leastBelow 37 (k.narrowFits len) = found)
    (he : (if whole then 63 else found.getD 36) = e) (hrb : (if whole then 0 else k.cursor / 2 ^ e * 2 ^ e) = rb)
    (hrt : (if whole then 2 ^ 56 else ceilDiv (k.cursor + len) (2 ^ e) * 2 ^ e) = rt) :
    k.narrow tag exact len = ({ k with exp := e, basem := 0, topm := if whole then 0 else (rt - rb) / 2 ^ e % 2 ^ 20, cursor := rb },
      tag && k.within rb rt && decide (k.cursor + len ≤ 2 ^ 56) && (whole || found.isSome)
        && !(exact && (decide (rb ≠ k.cursor) || decide (rt ≠ k.cursor + len))) && decide (k.rsv = 0)) := by
  subst hw hf he hrb hrt
  rfl

/-- Narrowing leaves the space and the permissions, and the region begins at the cursor's granule. -/
theorem Cap.narrow_keeps : (k.narrow tag exact len).1.space = k.space ∧ (k.narrow tag exact len).1.perm = k.perm
    ∧ (k.narrow tag exact len).1.basem = 0 := ⟨rfl, rfl, rfl⟩

theorem Cap.narrow_whole (hlo : k.cursor = 0) (hhi : k.cursor + len = 2 ^ 56) :
    (k.narrow tag exact len).1.exp = 63 ∧ (k.narrow tag exact len).1.topm = 0 ∧ (k.narrow tag exact len).1.cursor = 0
      ∧ ((k.narrow tag exact len).2 = true ↔ tag = true ∧ k.rsv = 0 ∧ k.bounds = some (0, 2 ^ 56)) := by
  have hw : (decide (k.cursor = 0) && decide (k.cursor + len = 2 ^ 56)) = true := by rw [hhi, hlo]; rfl
  rw [k.narrow_eq tag exact len hw rfl rfl rfl rfl]
  refine ⟨rfl, rfl, rfl, ?_⟩
  have hin : (!(exact && (decide (0 ≠ k.cursor) || decide (2 ^ 56 ≠ 2 ^ 56)))) = true := by simp [hlo]
  simp only [if_true, Bool.and_eq_true, Cap.within_whole, hhi, hin, Bool.true_or, decide_eq_true_eq, le_refl]
  tauto

variable {k} {len} {e : Nat} (hwhole : ¬(k.cursor = 0 ∧ k.cursor + len = 2 ^ 56))
include hwhole

theorem Cap.narrow_least (he : e ≤ 36) (hfit : ceilDiv (k.cursor + len) (2 ^ e) - k.cursor / 2 ^ e ≤ 2 ^ 20 - 1)
    (hleast : ∀ j < e, 2 ^ 20 - 1 < ceilDiv (k.cursor + len) (2 ^ j) - k.cursor / 2 ^ j) {rb rt : Nat} (hrb : rb = k.cursor / 2 ^ e * 2 ^ e)
    (hrt : rt = ceilDiv (k.cursor + len) (2 ^ e) * 2 ^ e) :
    (k.narrow tag exact len).1.exp = e ∧ (k.narrow tag exact len).1.cursor = rb ∧ (k.narrow tag exact len).1.topm * 2 ^ e = rt - rb
      ∧ ((k.narrow tag exact len).2 = true ↔ tag = true ∧ k.rsv = 0 ∧ k.cursor + len ≤ 2 ^ 56 ∧ (exact = true → rb = k.cursor ∧ rt = k.cursor + len)
        ∧ ∃ b0 t0, k.bounds = some (b0, t0) ∧ b0 ≤ rb ∧ rt ≤ t0) := by
  have hfound : leastBelow 37 (k.narrowFits len) = some e :=
    leastBelow_eq_some.2 ⟨by omega, decide_eq_true hfit, fun j hj => decide_eq_false (Nat.not_le.2 (hleast j hj))⟩
  have hw : (decide (k.cursor = 0) && decide (k.cursor + len = 2 ^ 56)) = false := by simpa using hwhole
  have heq := k.narrow_eq tag exact len hw hfound rfl hrb.symm hrt.symm
  have hunits : (rt - rb) / 2 ^ e = ceilDiv (k.cursor + len) (2 ^ e) - k.cursor / 2 ^ e := by
    rw [hrt, hrb, ← Nat.sub_mul, Nat.mul_div_cancel _ (Nat.two_pow_pos e)]
  rw [heq]
  refine ⟨rfl, rfl, ?_, ?_⟩
  · show (rt - rb) / 2 ^ e % 2 ^ 20 * 2 ^ e = rt - rb
    rw [hunits, Nat.mod_eq_of_lt (by omega), Nat.sub_mul, ← hrt, ← hrb]
  · simp only [Bool.and_eq_true, decide_eq_true_eq, Cap.within_iff]
    cases exact <;> simp <;> tauto

theorem Cap.narrow_none (hno : ∀ e ≤ 36, 2 ^ 20 - 1 < ceilDiv (k.cursor + len) (2 ^ e) - k.cursor / 2 ^ e) :
    (k.narrow tag exact len).2 = false := by
  have hfound : leastBelow 37 (k.narrowFits len) = none :=
    leastBelow_eq_none.2 fun e he => decide_eq_false (Nat.not_le.2 (hno e (by omega)))
  have hw : (decide (k.cursor = 0) && decide (k.cursor + len = 2 ^ 56)) = false := by simpa using hwhole
  rw [k.narrow_eq tag exact len hw hfound rfl rfl rfl]
  simp

end

/-! ### Stepping the cursor (R159) -/

section
variable (k : Cap) (tag : Bool) (n : Int)

theorem Cap.step_keeps : ((k.step tag n).1.cursor : Int) = ((k.cursor : Int) + n) % 2 ^ 56 ∧ (k.step tag n).1.space = k.space
    ∧ (k.step tag n).1.perm = k.perm ∧ (k.step tag n).1.exp = k.exp := by
  have hcur : (((((k.cursor : Int) + n) % 2 ^ 56).toNat : Nat) : Int) = ((k.cursor : Int) + n) % 2 ^ 56 :=
    Int.toNat_of_nonneg (Int.emod_nonneg _ (by decide))
  unfold Cap.step
  split
  · exact ⟨hcur, rfl, rfl, rfl⟩
  · dsimp only
    split_ifs <;> exact ⟨hcur, rfl, rfl, rfl⟩

theorem Cap.step_malformed (h : k.bounds = none) :
    (k.step tag n).2 = false ∧ (k.step tag n).1.basem = k.basem ∧ (k.step tag n).1.topm = k.topm := by
  simp [Cap.step, h]

theorem Cap.step_whole (h63 : k.exp = 63) (h : k.bounds ≠ none) : (k.step tag n).2 = tag ∧ (k.step tag n).1.bounds = k.bounds := by
  obtain ⟨p, hp⟩ := Option.ne_none_iff_exists'.1 h
  obtain ⟨hb, ht, rfl⟩ := (Cap.bounds_whole h63 p).1 hp
  simp only [Cap.step, hp, h63, if_true, true_and]
  exact (Cap.bounds_whole (k := { k with exp := 63, cursor := _ }) rfl _).2 ⟨hb, ht, rfl⟩

variable {k} {b t : Nat} (h63 : k.exp ≠ 63) (hb : k.bounds = some (b, t)) {anchor : Nat}
  (ha : anchor = (k.step tag n).1.cursor / 2 ^ k.exp * 2 ^ k.exp)
include h63 hb ha

/-- Where the exponent is not 63, the tag stays exactly where the bounds have an encoding from the new cursor; then they are the same. -/
theorem Cap.step_scaled :
    ((k.step tag n).2 = true ↔ tag = true ∧ b ≤ anchor ∧ anchor ≤ t ∧ (anchor - b) / 2 ^ k.exp ≤ 2 ^ 20 - 1
      ∧ (t - anchor) / 2 ^ k.exp ≤ 2 ^ 20 - 1) ∧ ((k.step tag n).2 = true → (k.step tag n).1.bounds = k.bounds) := by
  obtain ⟨h36, hbase, htop, hb', ht'⟩ := (Cap.bounds_scaled h63 b t).1 hb
  have hpos : 0 < 2 ^ k.exp := Nat.two_pow_pos _
  have hstep : k.step tag n = ({ k with
        cursor := (((k.cursor : Int) + n) % 2 ^ 56).toNat
        basem := ((((anchor : Int) - b) / 2 ^ k.exp) % 2 ^ 20).toNat, topm := ((((t : Int) - anchor) / 2 ^ k.exp) % 2 ^ 20).toNat },
      tag && decide (0 ≤ ((anchor : Int) - b) / 2 ^ k.exp) && decide (((anchor : Int) - b) / 2 ^ k.exp ≤ 2 ^ 20 - 1)
        && decide (0 ≤ ((t : Int) - anchor) / 2 ^ k.exp) && decide (((t : Int) - anchor) / 2 ^ k.exp ≤ 2 ^ 20 - 1)) := by
    subst ha
    simp only [Cap.step, hb, if_neg h63]
  generalize hcur : (((k.cursor : Int) + n) % 2 ^ 56).toNat = cur at hstep
  rw [hstep] at ha ⊢
  simp only at ha
  generalize hA : cur / 2 ^ k.exp = A at ha
  generalize hB : k.unit - k.basem = B at hb'
  generalize hT : k.unit + k.topm = T at ht' htop
  have hdivB : ((anchor : Int) - b) / 2 ^ k.exp = (A : Int) - B := by
    rw [ha, hb']
    push_cast
    rw [← sub_mul, Int.mul_ediv_cancel _ (by positivity)]
  have hdivT : ((t : Int) - anchor) / 2 ^ k.exp = (T : Int) - A := by
    rw [ha, ht']
    push_cast
    rw [← sub_mul, Int.mul_ediv_cancel _ (by positivity)]
  have hnatB : (anchor - b) / 2 ^ k.exp = A - B := by rw [ha, hb', ← Nat.sub_mul, Nat.mul_div_cancel _ hpos]
  have hnatT : (t - anchor) / 2 ^ k.exp = T - A := by rw [ha, ht', ← Nat.sub_mul, Nat.mul_div_cancel _ hpos]
  have hleB : b ≤ anchor ↔ B ≤ A := by rw [ha, hb', Nat.mul_le_mul_right_iff hpos]
  have hleT : anchor ≤ t ↔ A ≤ T := by rw [ha, ht', Nat.mul_le_mul_right_iff hpos]
  simp only [hdivB, hdivT, hnatB, hnatT, hleB, hleT, Bool.and_eq_true, decide_eq_true_eq]
  refine ⟨by cases tag <;> simp; omega, fun hok => ?_⟩
  rw [hb]
  refine (Cap.bounds_scaled (k := { k with cursor := cur, basem := _, topm := _ }) h63 b t).2 ?_
  have hm : (((A : Int) - B) % 2 ^ 20).toNat = A - B := by omega
  have hk : (((T : Int) - A) % 2 ^ 20).toNat = T - A := by omega
  simp only [Cap.unit, hA, hm, hk]
  have e1 : A - (A - B) = B := by omega
  have e2 : A + (T - A) = T := by omega
  rw [e1, e2]
  exact ⟨h36, by omega, htop, hb', ht'⟩

end

/-! ### The canonical encoding (R162) -/

/-- Bounds [b, t) can be encoded from the cursor of `k` with exponent `e`. -/
def Cap.Encodes (k : Cap) (b t e : Nat) : Prop :=
  let anchor := k.cursor / 2 ^ e * 2 ^ e
  b % 2 ^ e = 0 ∧ t % 2 ^ e = 0 ∧ b ≤ anchor ∧ anchor ≤ t ∧ (anchor - b) / 2 ^ e ≤ 2 ^ 20 - 1 ∧ (t - anchor) / 2 ^ e ≤ 2 ^ 20 - 1

/-- The same, as the encoding tests it. -/
def Cap.encodes (k : Cap) (b t e : Nat) : Bool :=
  let a := k.cursor / 2 ^ e * 2 ^ e
  b % 2 ^ e = 0 && t % 2 ^ e = 0 && decide (b ≤ a) && decide (a ≤ t) && decide ((a - b) / 2 ^ e ≤ 2 ^ 20 - 1)
    && decide ((t - a) / 2 ^ e ≤ 2 ^ 20 - 1)

theorem Cap.encodes_iff (k : Cap) (b t e : Nat) : k.encodes b t e = true ↔ k.Encodes b t e := by
  simp only [Cap.encodes, Cap.Encodes, Bool.and_eq_true, decide_eq_true_eq, and_assoc]

/-- The capability with the bounds [b, t) encoded with exponent `e` from the cursor. -/
def Cap.encoded (k : Cap) (b t e : Nat) : Cap :=
  { k with exp := e, basem := (k.cursor / 2 ^ e * 2 ^ e - b) / 2 ^ e, topm := (t - k.cursor / 2 ^ e * 2 ^ e) / 2 ^ e }

section
variable {k : Cap} {b t e : Nat}

/-- A capability's own exponent encodes its bounds. -/
theorem Cap.encodes_exp (hk : k.Fits) (h63 : k.exp ≠ 63) (hb : k.bounds = some (b, t)) : k.Encodes b t k.exp := by
  obtain ⟨-, hbase, -, rfl, rfl⟩ := (Cap.bounds_scaled h63 b t).1 hb
  have hpos : 0 < 2 ^ k.exp := Nat.two_pow_pos _
  have hlo := hk.basem
  have hhi := hk.topm
  have e1 : k.unit - (k.unit - k.basem) = k.basem := by omega
  have e2 : k.unit + k.topm - k.unit = k.topm := by omega
  unfold Cap.Encodes
  simp only [← Cap.unit.eq_1, Nat.mul_mod_left, ← Nat.sub_mul, Nat.mul_div_cancel _ hpos, Nat.mul_le_mul_right_iff hpos, e1, e2, true_and]
  omega

/-- What is encoded decodes to the same bounds. -/
theorem Cap.encoded_bounds (he : e ≤ 36) (htop : t ≤ 2 ^ 56) (h : k.Encodes b t e) : (k.encoded b t e).bounds = some (b, t) := by
  obtain ⟨hb, ht, hlo, hhi, -, -⟩ := h
  have hpos : 0 < 2 ^ e := Nat.two_pow_pos _
  obtain ⟨B, rfl⟩ := Nat.dvd_of_mod_eq_zero hb
  obtain ⟨T, rfl⟩ := Nat.dvd_of_mod_eq_zero ht
  rw [Nat.mul_comm, Nat.mul_le_mul_right_iff hpos] at hlo
  rw [Nat.mul_comm (2 ^ e) T, Nat.mul_le_mul_right_iff hpos] at hhi
  refine (Cap.bounds_scaled (k := k.encoded _ _ e) (show e ≠ 63 by omega) _ _).2 ?_
  simp only [Cap.encoded, Cap.unit, Nat.mul_comm (2 ^ e), ← Nat.sub_mul, Nat.mul_div_cancel _ hpos]
  have e1 : k.cursor / 2 ^ e - (k.cursor / 2 ^ e - B) = B := by omega
  have e2 : k.cursor / 2 ^ e + (T - k.cursor / 2 ^ e) = T := by omega
  rw [e1, e2]
  exact ⟨he, by omega, by rwa [Nat.mul_comm] at htop, rfl, rfl⟩

theorem Cap.encoded_fits (hk : k.Fits) (he : e ≤ 36) (h : k.Encodes b t e) : (k.encoded b t e).Fits := by
  obtain ⟨-, -, -, -, hbase, htop⟩ := h
  exact ⟨hk.rsv, hk.space, hk.perm, show _ / _ < _ by omega, show _ / _ < _ by omega, show e < 64 by omega, hk.cursor⟩

/-- Bounds that are not the whole address space are encoded with the least exponent that can. -/
theorem Cap.canon_scaled (hk : k.Fits) (hb : k.bounds = some (b, t)) (hne : (b, t) ≠ (0, 2 ^ 56)) :
    ∃ e ≤ k.exp, e ≤ 36 ∧ k.Encodes b t e ∧ (∀ j < e, ¬k.Encodes b t j) ∧ k.canon = k.encoded b t e := by
  have h63 : k.exp ≠ 63 := fun h => hne ((Cap.bounds_whole h _).1 hb).2.2
  have hself := Cap.encodes_exp hk h63 hb
  obtain ⟨h36, -⟩ := (Cap.bounds_scaled h63 b t).1 hb
  have hcanon : k.canon = k.encoded b t ((leastBelow 37 (k.encodes b t)).getD k.exp) := by
    simp only [Prod.mk.injEq, ne_eq] at hne
    simp only [Cap.canon, hb, if_neg hne]
    rfl
  cases hl : leastBelow 37 (k.encodes b t) with
  | none =>
    have hno := leastBelow_eq_none.1 hl k.exp (by omega)
    rw [(Cap.encodes_iff ..).2 hself] at hno
    exact absurd hno.symm Bool.false_ne_true
  | some e =>
    obtain ⟨he, hfit, hleast⟩ := leastBelow_eq_some.1 hl
    have hleast' (j : Nat) (hj : j < e) : ¬k.Encodes b t j := fun hc =>
      absurd ((hleast j hj).symm.trans ((Cap.encodes_iff ..).2 hc)) Bool.false_ne_true
    exact ⟨e, Nat.le_of_not_lt fun hlt => hleast' _ hlt hself, by omega, (Cap.encodes_iff ..).1 hfit, hleast', by rw [hcanon, hl, Option.getD_some]⟩

theorem Cap.canon_whole (hb : k.bounds = some (0, 2 ^ 56)) : k.canon = { k with exp := 63, basem := 0, topm := 0 } := by
  simp [Cap.canon, hb]

end

theorem Cap.ok_iff (k : Cap) : k.ok = true ↔ k.bounds ≠ none ∧ k.rsv = 0 := by simp [Cap.ok, Option.isSome_iff_ne_none]

theorem Cap.has_iff (k : Cap) (n : Nat) : k.has n = true ↔ k.perm / 2 ^ n % 2 = 1 := by simp [Cap.has]

/-! ### CDRV (R162) -/

/-- What CDRV writes in a thread that passes its checks. -/
def Ctx.derived (c : Ctx) (a : CapReg) (t : Nat) : BitVec 128 × Bool :=
  if (c.cap a t).ok then ((c.cap a t).canon.bits, true) else (c.rdC a t, false)

theorem cdrvFaults_iff {a b : CapReg} {c : Ctx} {t : Nat} : cdrvFaults a b c t = true ↔
    (c.capTag b t = false ∨ (c.cap b t).bounds = none ∨ (c.cap b t).rsv ≠ 0 ∨ (c.cap b t).perm / 128 % 2 ≠ 1)
      ∨ ((c.cap a t).bounds ≠ none ∧ (c.cap a t).rsv = 0 ∧ (c.cap b t).covers (c.cap a t) = false) := by
  unfold cdrvFaults
  dsimp only
  generalize c.cap a t = k
  generalize c.cap b t = r
  have hk := k.ok_iff
  have hr := r.ok_iff
  have hder : r.has 7 = true ↔ r.perm / 128 % 2 = 1 := r.has_iff 7
  simp only [Bool.or_eq_true, Bool.not_eq_true', ← Bool.not_eq_true, Bool.and_eq_true, hk, hr, hder]
  tauto

section
variable {s : State} {c : Ctx} {d a b : CapReg}

theorem cdrv_derives (h : Ready s c [opC d, opC a, opC b] []) (hpass : ∀ t ∈ threads c.act, cdrvFaults a b c t = false) :
    WritesQuad (.cdrv d a b) s c 1 d (c.derived a) := by
  refine withWord_writesQuad h _ (execCdrv d a b) rfl rfl (g := fun w => (threads c.act).foldl (fun w t =>
      let k := c.cap a t
      if k.ok then w.setQuad .general (c.base + 4 * d.toNat) t k.canon.bits true
      else w.setQuad .general (c.base + 4 * d.toNat) t (c.rdC a t) false) w) ?_ ?_
  · rw [groupBads_none fun t ht => by rw [hpass t ht]; rfl, guarded_nil]
  · refine congrArg (fun f => (threads c.act).foldl f c.w) ?_
    funext w t
    unfold Ctx.derived
    dsimp only
    split_ifs <;> rfl

theorem cdrv_faults (h : Ready s c [opC d, opC a, opC b] []) (h0 : c.act ≠ 0#32) (hm : c.act = c.fr.mask) (hs : NotSolitary s c)
    (hfail : ∀ t ∈ threads c.act, cdrvFaults a b c t = true) : ∃ t, exec (.cdrv d a b) s = .next t ∧ FaultsWhole s t c 0x12 0 0 true := by
  refine exec_ready h (execCdrv d a b) rfl rfl ?_
  rw [groupBads_all h0 (b := Bad.of 0x12 0 0) fun t ht => by rw [hfail t ht]; rfl]
  obtain ⟨hstop, hfault⟩ := takeFaults_whole h.1 hs (b := { Bad.of 0x12 0 0 with mask := c.act }) hm (hm ▸ h0) rfl
  rw [guarded_parks hstop]
  exact hfault

end

end Sys2Proof.Machine
end

section
/-! SUPPORT. The statement O7, word by word (05 R156 to R162). -/
namespace Sys2Proof.Machine

section
variable {s : State} {c : Ctx} {a : CapReg} {d : Reg}

theorem exec_cget (d : Reg) (a : CapReg) (sel : CgetSel) (s : State) : exec (.cget d a sel) s = execCget d a sel s := rfl
theorem exec_ctstTag (p : PredReg) (a : CapReg) (s : State) : exec (.ctstTag p a) s = execCtstTag p a s := rfl
theorem exec_ctstSub (p : PredReg) (a b : CapReg) (s : State) : exec (.ctstSub p a b) s = execCtstSub p a b s := rfl

theorem exec_cbndExact (d a : CapReg) (b : Reg) (s : State) : exec (.cbndExact d a b) s = execCbndExact d a b s := rfl
theorem exec_cbndRound (d a : CapReg) (b : Reg) (s : State) : exec (.cbndRound d a b) s = execCbndRound d a b s := rfl
theorem exec_cbndLit (d a : CapReg) (lit : Word) (s : State) : exec (.cbndLit d a lit) s = execCbndLit d a lit s := rfl
theorem exec_cprm (d a : CapReg) (b : Opd) (s : State) : exec (.cprm d a b) s = execCprm d a b s := rfl
theorem exec_cadd (d a : CapReg) (b : Opd) (s : State) : exec (.cadd d a b) s = execCadd d a b s := rfl

/-- A word that reads one selector of a capability as a single register. -/
theorem cget_word {sel : CgetSel} (hsel : cgetPair sel = false) (h : Ready s c [opV d, opC a] []) {v : Nat → Nat}
    (hv : ∀ t, cgetVal sel (c.cap a t) = v t) : Writes (.cget d a sel) s c 1 fun t => .ofRegs (c.wr d (BitVec.ofNat 32 (v t))) :=
  Alu.writes _ (exec_cget d a sel s) (by simpa [hsel] using h) fun t => by simp [hsel, hv]

/-- A word that reads one selector of a capability as a pair. -/
theorem cget_pair {sel : CgetSel} (hsel : cgetPair sel = true) (h : Ready s c [opP d, opC a] []) {v : Nat → Word64}
    (hv : ∀ t, BitVec.ofNat 64 (cgetVal sel (c.cap a t)) = v t) : Writes (.cget d a sel) s c 1 fun t => .ofRegs (c.wrP d (v t)) :=
  Alu.writes _ (exec_cget d a sel s) (by simpa [hsel] using h) fun t => by simp [hsel, hv]

/-- The distance from the base, modulo 2^64. -/
theorem ofNat_cursor_sub (x b : Nat) : BitVec.ofNat 64 (((x : Int) - b) % 2 ^ 64).toNat = BitVec.ofNat 64 x - BitVec.ofNat 64 b := by
  apply BitVec.eq_of_toNat_eq
  simp only [BitVec.toNat_ofNat, BitVec.toNat_sub]
  omega

end

/-- What one capability covers of another (R161). -/
theorem Cap.covers_iff (x y : Cap) : x.covers y = true ↔ x.space = y.space ∧ y.perm &&& x.perm = y.perm
    ∧ ∃ b0 t0 b1 t1, x.bounds = some (b0, t0) ∧ y.bounds = some (b1, t1) ∧ b0 ≤ b1 ∧ t1 ≤ t0 := by
  cases hx : x.bounds with
  | none => simp [Cap.covers, hx]
  | some p =>
    cases hy : y.bounds with
    | none => simp [Cap.covers, hx, hy]
    | some q =>
      obtain ⟨b0, t0⟩ := p
      obtain ⟨b1, t1⟩ := q
      simp only [Cap.covers, hx, hy, Bool.and_eq_true, decide_eq_true_eq, Option.some.injEq, Prod.mk.injEq]
      constructor
      · rintro ⟨⟨⟨hs, hb⟩, ht⟩, hp⟩
        exact ⟨hs, hp, b0, t0, b1, t1, ⟨rfl, rfl⟩, ⟨rfl, rfl⟩, hb, ht⟩
      · rintro ⟨hs, hp, _, _, _, _, ⟨rfl, rfl⟩, ⟨rfl, rfl⟩, hb, ht⟩
        exact ⟨⟨⟨hs, hb⟩, ht⟩, hp⟩

/-- What narrowing makes of a capability (R157). -/
def NarrowSpec (k : Cap) (tag exact : Bool) (len : Nat) (r : Cap × Bool) : Prop :=
  let lo := k.cursor
  let hi := lo + len
  r.1.space = k.space ∧ r.1.perm = k.perm ∧ r.1.basem = 0
    ∧ (lo = 0 → hi = 2 ^ 56 → r.1.exp = 63 ∧ r.1.topm = 0 ∧ r.1.cursor = 0 ∧ (r.2 = true ↔ tag = true ∧ k.rsv = 0 ∧ k.bounds = some (0, 2 ^ 56)))
    ∧ (¬ (lo = 0 ∧ hi = 2 ^ 56) → ∀ e ≤ 36, ceilDiv hi (2 ^ e) - lo / 2 ^ e ≤ 2 ^ 20 - 1 →
        (∀ e' < e, 2 ^ 20 - 1 < ceilDiv hi (2 ^ e') - lo / 2 ^ e') →
        let rb := lo / 2 ^ e * 2 ^ e
        let rt := ceilDiv hi (2 ^ e) * 2 ^ e
        r.1.exp = e ∧ r.1.cursor = rb ∧ r.1.topm * 2 ^ e = rt - rb
          ∧ (r.2 = true ↔ tag = true ∧ k.rsv = 0 ∧ hi ≤ 2 ^ 56 ∧ (exact = true → rb = lo ∧ rt = hi)
            ∧ ∃ b0 t0, k.bounds = some (b0, t0) ∧ b0 ≤ rb ∧ rt ≤ t0))
    ∧ (¬ (lo = 0 ∧ hi = 2 ^ 56) → (∀ e ≤ 36, 2 ^ 20 - 1 < ceilDiv hi (2 ^ e) - lo / 2 ^ e) → r.2 = false)

theorem Cap.narrow_spec (k : Cap) (tag exact : Bool) (len : Nat) : NarrowSpec k tag exact len (k.narrow tag exact len) := by
  obtain ⟨hspace, hperm, hbase⟩ := k.narrow_keeps tag exact len
  exact ⟨hspace, hperm, hbase, k.narrow_whole tag exact len,
    fun hw e he hfit hleast => Cap.narrow_least tag exact hw he hfit hleast rfl rfl, fun hw hno => Cap.narrow_none tag exact hw hno⟩

/-- Settles O7: each word writes what its function of the fields says, and the laws of narrowing, stepping and encoding give the fields. -/
theorem capabilityWords : Obligations.CapabilityWords := by
  unfold Obligations.CapabilityWords
  refine ⟨fun s c d a => ⟨fun i n ops len exact hi h => ?narrow, fun b h => ?perm, fun b h => ?step⟩,
    fun s c a => ⟨fun d sel hsel h => ?field, fun d h => ?bounds, fun p h => ?tag, fun p b h => ?sub⟩,
    fun s c d a b h hpass => ?derive, fun s c d a b h h0 hm hs hfail => ?fault⟩
  case narrow =>
    suffices hw : WritesCap i s c n d fun t => (c.cap a t).narrow (c.capTag a t) exact (len t) from ⟨_, hw, fun t => Cap.narrow_spec ..⟩
    obtain ⟨b, rfl, rfl, rfl, rfl, hlen⟩ | ⟨b, rfl, rfl, rfl, rfl, hlen⟩ | ⟨lit, rfl, rfl, rfl, rfl, hlen⟩ := hi
    · simp only [hlen]
      exact capWord_writes h (exec_cbndExact d a b s) rfl fun t => rfl
    · simp only [hlen]
      exact capWord_writes h (exec_cbndRound d a b s) rfl fun t => rfl
    · simp only [hlen]
      exact capWord_writes h (exec_cbndLit d a lit s) rfl fun t => rfl
  case perm => exact capWord_writes h (exec_cprm d a b s) rfl fun t => rfl
  case step =>
    refine ⟨fun t => (c.cap a t).step (c.capTag a t) (c.rdO b t).toInt, capWord_writes h (exec_cadd d a b s) rfl (fun t => rfl), fun t => ?_⟩
    obtain ⟨hcur, hspace, hperm, hexp⟩ := (c.cap a t).step_keeps (c.capTag a t) (c.rdO b t).toInt
    refine ⟨hcur, hspace, hperm, hexp, fun htag => ?_, Cap.step_malformed _ _ _, fun h63 hne => (Cap.step_whole _ _ _ h63 hne).1,
      fun h63 b0 t0 hb anchor hanchor => (Cap.step_scaled _ _ h63 hb hanchor).1⟩
    cases hb : (c.cap a t).bounds with
    | none => rw [(Cap.step_malformed _ _ _ hb).1] at htag; exact absurd htag Bool.false_ne_true
    | some p =>
      by_cases h63 : (c.cap a t).exp = 63
      · obtain ⟨htag', hbounds⟩ := Cap.step_whole (c.cap a t) (c.capTag a t) (c.rdO b t).toInt h63 (by simp [hb])
        exact ⟨htag'.symm.trans htag, by simp, hbounds.trans hb⟩
      · obtain ⟨hiff, hkeep⟩ := Cap.step_scaled (c.capTag a t) (c.rdO b t).toInt h63 hb rfl
        exact ⟨(hiff.1 htag).1, by simp, (hkeep htag).trans hb⟩
  case field =>
    obtain rfl | rfl := hsel
    · exact cget_word rfl h fun t => rfl
    · exact cget_word rfl h fun t => rfl
  case bounds =>
    refine ⟨cget_pair rfl h fun t => rfl, cget_pair rfl h fun t => ?_, cget_pair rfl h fun t => ?_, cget_pair rfl h fun t => ?_,
      cget_pair rfl h fun t => ?_⟩
    all_goals cases hb : (c.cap a t).bounds with
      | none => simp [cgetVal, hb]
      | some p => simp [cgetVal, hb, ← ofNat_cursor_sub]
  case tag => exact Alu.writes _ (exec_ctstTag p a s) h fun t => rfl
  case sub =>
    refine ⟨fun t => c.capTag a t && c.capTag b t && (c.cap a t).covers (c.cap b t), Alu.writes _ (exec_ctstSub p a b s) h fun t => rfl,
      fun t => ?_⟩
    rw [Bool.and_eq_true, Bool.and_eq_true, Cap.covers_iff, and_assoc]
  case derive =>
    have hno (t) (ht : t ∈ threads c.act) : cdrvFaults a b c t = false := by
      obtain ⟨htag, hwf, hrsv, hder, hin⟩ := hpass t ht
      rw [← Bool.not_eq_true, cdrvFaults_iff]
      rintro ((h1 | h1 | h1 | h1) | ⟨h1, h2, h3⟩)
      · simp [htag] at h1
      · exact hwf h1
      · exact h1 hrsv
      · exact h1 hder
      · rcases hin with h4 | h4 | h4
        · exact h1 h4
        · exact h4 h2
        · simp [h4] at h3
    refine ⟨c.derived a, cdrv_derives h hno, fun t => ⟨fun hbad => ?_, fun hwf hrsv => ?_⟩⟩
    · rw [Ctx.derived, if_neg]
      rw [Cap.ok_iff]
      tauto
    · have hfits := c.cap_fits a t
      rw [Ctx.derived, if_pos ((Cap.ok_iff _).2 ⟨hwf, hrsv⟩)]
      generalize c.cap a t = k at hwf hrsv hfits
      obtain ⟨⟨b0, t0⟩, hb⟩ := Option.ne_none_iff_exists'.1 hwf
      by_cases hw : (b0, t0) = (0, 2 ^ 56)
      · rw [hw] at hb
        have hof : Cap.of k.canon.bits = { k with exp := 63, basem := 0, topm := 0 } := by
          rw [Cap.canon_whole hb]
          exact Cap.of_bits ⟨hfits.rsv, hfits.space, hfits.perm, by norm_num, by norm_num, by norm_num, hfits.cursor⟩
        have hbounds : (Cap.of k.canon.bits).bounds = some (0, 2 ^ 56) := by
          rw [hof]
          exact (Cap.bounds_whole (k := { k with exp := 63, basem := 0, topm := 0 }) rfl _).2 ⟨rfl, rfl, rfl⟩
        refine ⟨rfl, hbounds.trans hb.symm, ?_⟩
        rw [hof, hb]
        exact ⟨rfl, rfl, rfl, hrsv, fun h => absurd rfl h, fun _ => rfl, fun b1 t1 h1 hne => absurd (Option.some.inj h1).symm hne⟩
      · obtain ⟨e, hle, h36, henc, hleast, hcanon⟩ := Cap.canon_scaled hfits hb hw
        have hof : Cap.of k.canon.bits = k.encoded b0 t0 e := by rw [hcanon, Cap.of_bits (Cap.encoded_fits hfits h36 henc)]
        refine ⟨rfl, ?_⟩
        rw [hof, Cap.encoded_bounds h36 (Cap.bounds_le hb).2 henc, hb]
        refine ⟨rfl, rfl, rfl, rfl, hrsv, fun _ => hle, fun h => absurd (Option.some.inj h) hw, fun b1 t1 h1 _ j hj => ?_⟩
        obtain ⟨rfl, rfl⟩ := Prod.mk.inj (Option.some.inj h1)
        exact hleast j hj
  case fault =>
    refine cdrv_faults h h0 hm hs fun t ht => cdrvFaults_iff.2 ?_
    obtain (htag | hwf | hrsv | hder) | hout := hfail t ht
    · exact .inl (.inl htag)
    · exact .inl (.inr (.inl hwf))
    · exact .inl (.inr (.inr (.inl hrsv)))
    · exact .inl (.inr (.inr (.inr (by rw [hder]; exact Nat.zero_ne_one))))
    · exact .inr hout

end Sys2Proof.Machine
end

section
/-! SUPPORT. JOIN, EXIT and the fusion of a JOIN set (05 R141, R142; 08 R270, R272). -/
namespace Sys2Proof.Machine

theorem exec_exit (s : State) : exec .exit s = execExit s := rfl
theorem exec_fragmentWake (g : FragRef) (s : State) : exec (.fragmentWake g) s = execFragmentWake g s := rfl

/-! ### Split records and the header after a clause -/

theorem Warp.gcSplits_rest (w : Warp) : w.gcSplits = { w with splits := w.gcSplits.splits } := by
  unfold Warp.gcSplits
  generalize List.range 16 = l
  induction l generalizing w with
  | nil => rfl
  | cons a l ih => exact ih _

theorem Warp.gcSplits_frags (w : Warp) : w.gcSplits.frags = w.frags := by rw [Warp.gcSplits_rest]

theorem Warp.settle_rest (w : Warp) : w.settle = { w with splits := w.settle.splits } := by
  unfold Warp.settle
  split_ifs <;> rfl

theorem Frag.at_after {x : Frag} {k : Clause} (hk : x.clause = some k) :
    x.at x.after = { x with pc := k.hdr + 4 * (k.len + 1), clause := none, actm := 0#32, done := 0#32, lane := false } := by
  simp only [Frag.at, Frag.after, hk]

/-! ### JOIN (R141, R270) -/

theorem Warp.joinSet_eq_nil (w : Warp) (i : Nat) (x : Frag) :
    w.joinSet i x = [] ↔ ∀ j, ¬∃ y, j ≠ i ∧ (j, y) ∈ w.frags ∧ y.status ≠ .dead ∧ y.rpc = x.rpc := by
  simp only [Warp.joinSet, List.filter_eq_nil_iff, Prod.forall, Bool.and_eq_true, decide_eq_true_eq, not_exists]
  constructor
  · rintro h j y ⟨h1, h2, h3, h4⟩
    exact h j y h2 ⟨⟨h1, h3⟩, h4⟩
  · rintro h j y h2 ⟨⟨h1, h3⟩, h4⟩
    exact h j y ⟨h1, h2, h3, h4⟩

section
variable {s : State} {c : Ctx} (h : Ready s c [] [])
include h

theorem join_waits (hs : NotSolitary s c) (hset : c.w.joinSet c.f.fidx c.fr ≠ []) (hp : c.u.parkReq = false) :
    ∃ t, exec .join s = .next t ∧ Becomes s t c c.w { c.fr.at c.fr.after with status := .parkedWait, wake := .join } := by
  obtain ⟨p, l, hl⟩ := List.exists_cons_of_ne_nil hset
  refine exec_ready h execJoin rfl rfl ?_
  simp only [hl, hp, Bool.false_eq_true, if_false]
  rw [soloStops_none (s := s.editCore c.u.core fun k => k.count false c.beats) hs, State.editWarp_editCore]
  exact becomes_edit h.1 _ _ (fun _ => rfl) rfl (fun i hi => Map.look_put_ne _ _ hi) (Map.look_put_self ..)

theorem join_parks (hs : NotSolitary s c) (hset : c.w.joinSet c.f.fidx c.fr ≠ []) (hp : c.u.parkReq = true) :
    ∃ t, exec .join s = .next t ∧ Becomes s t c c.w { c.fr with status := .parkedWait, wake := .park, lane := false } := by
  obtain ⟨p, l, hl⟩ := List.exists_cons_of_ne_nil hset
  refine exec_ready h execJoin rfl rfl ?_
  simp only [hl, hp, if_true]
  have hb := parkBlocking_becomes h.1 hs .join nofun
  rwa [Ctx.blockWake, hp, if_pos rfl] at hb

theorem join_goesOn (hset : c.w.joinSet c.f.fidx c.fr = []) :
    ∃ t, exec .join s = .next t ∧ t.mem = s.mem ∧ t.frag? c.f = some (c.w.reconverge (c.fr.at c.fr.after)) := by
  refine exec_ready h execJoin rfl rfl ?_
  simp only [hset]
  refine ⟨rfl, ?_⟩
  have hwarp : (s.editCore c.u.core fun k => k.count false c.beats).warp? c.f.unit c.f.warp = some c.w := State.warp?_of_ctx h.1
  rw [State.frag?, State.warp?_editWarp, if_pos ⟨rfl, rfl⟩, hwarp, Option.map_some, Option.bind_some, Warp.gcSplits_frags, Map.look_put_self]

end

/-! ### EXIT (R142, R272) -/

/-- Threads that have no transaction lose none: only the map of transactions is written again. -/
theorem State.discardTx_idle {s : State} {u w t : Nat} {v : Warp} (hw : s.warp? u w = some v) (hi : (v.tx t).st = .idle)
    (hs : s.soloHolder ≠ some (u, w, t)) : s.discardTx u w t = s.editWarp u w fun x => x.setTx t (v.tx t) := by
  simp [State.discardTx, hw, hi, State.releaseSolo, hs, Txn.discard]

theorem State.endThreads_idle {s : State} {u w : Nat} {v : Warp} (hw : s.warp? u w = some v) (l : List Nat) (hi : ∀ t, t ∈ l → (v.tx t).st = .idle)
    (hs : ∀ t ∈ l, s.soloHolder ≠ some (u, w, t)) (F : Warp → Warp) (hF : F v = { v with txn := (F v).txn }) (htx : ∀ t, (F v).tx t = v.tx t) :
    ∃ G : Warp → Warp, l.foldl (fun s t => s.discardTx u w t) (s.editWarp u w F) = s.editWarp u w G ∧ G v = { v with txn := (G v).txn } := by
  induction l generalizing F with
  | nil => exact ⟨F, rfl, hF⟩
  | cons t l ih =>
    have hw' : (s.editWarp u w F).warp? u w = some (F v) := by rw [State.warp?_editWarp, if_pos ⟨rfl, rfl⟩, hw, Option.map_some]
    have hi' : ((F v).tx t).st = .idle := by rw [htx]; exact hi t List.mem_cons_self
    rw [List.foldl_cons, State.discardTx_idle hw' hi' (hs t List.mem_cons_self), State.editWarp_editWarp]
    refine ih (fun t' h' => hi t' (List.mem_cons_of_mem _ h')) (fun t' h' => hs t' (List.mem_cons_of_mem _ h')) _ ?_ fun t' => ?_
    · generalize F v = y at hF ⊢
      rw [hF]
      rfl
    · rw [Warp.tx_setTx]
      split_ifs with e
      · rw [e, htx]
      · exact htx t'

theorem State.dropThreads_none {s : State} {u : Nat} {un : KUnit} (hu : s.unit? u = some un) (hd : ∀ b ∈ un.bars, (un.bar b.1).doe = false)
    (w : Nat) (m : Mask) : s.dropThreads u w m = s := by
  simp only [State.dropThreads, hu]
  have hkeys : ∀ off ∈ Map.keys un.bars, (un.bar off).doe = false := by
    intro off hoff
    obtain ⟨b, hb, rfl⟩ := List.mem_map.1 hoff
    exact hd b hb
  generalize Map.keys un.bars = l at hkeys
  induction l with
  | nil => rfl
  | cons off l ih =>
    simp only [List.foldl_cons, hkeys off List.mem_cons_self, Bool.false_eq_true, if_false]
    exact ih fun o ho => hkeys o (List.mem_cons_of_mem _ ho)

/-- The fragment of exiting threads: dead where they were all its threads, and else at the next header with the others. -/
def Ctx.exited (c : Ctx) : Frag :=
  if c.fr.mask &&& ~~~c.act = 0#32 then { c.fr with status := .dead, wake := .none, clause := none, actm := 0#32, done := 0#32, lane := false }
  else { c.fr.at c.fr.after with mask := c.fr.mask &&& ~~~c.act }

section
variable {s : State} {c : Ctx}

/-- EXIT waits for nothing where no commit is in flight, no transaction open and no barrier drops on exit. -/
theorem Ctx.ready_exit (ht : c.tendPending = false) (hd : ∀ b ∈ c.u.bars, (c.u.bar b.1).doe = false)
    (hi : ∀ t ∈ threads c.act, (c.w.tx t).st = .idle) :
    s.ready c (.tend c.act :: c.snapNeeds ++ if c.u.anyDoe then [.performed c.act false] else []) = true := by
  have hdoe : c.u.anyDoe = false := by
    simp only [KUnit.anyDoe, Map.keys, List.any_map, List.any_eq_false, Function.comp, Bool.not_eq_true]
    exact hd
  have hsnap : c.snapNeeds = [] := by
    rw [Ctx.snapNeeds, List.filterMap_eq_nil_iff]
    intro t ht
    rw [if_pos (hi t ht)]
  rw [hdoe, hsnap]
  exact Ctx.ready_tend ht s

theorem exit_ends (h : Ready s c [] []) (ht : c.tendPending = false) (hd : ∀ b ∈ c.u.bars, (c.u.bar b.1).doe = false)
    (hi : ∀ t ∈ threads c.act, (c.w.tx t).st = .idle) (hs : NotSolitary s c) (h0 : c.act ≠ 0#32) (hsub : c.fr.mask &&& c.act = c.act) :
    ∃ t w, exec .exit s = .next t ∧ t.mem = s.mem ∧ t.warp? c.f.unit c.f.warp = some w ∧ w.exited = c.w.exited ||| c.act
      ∧ w.regs = c.w.regs ∧ w.preds = c.w.preds ∧ w.killed = c.w.killed
      ∧ (∀ i, i ≠ c.f.fidx → Map.look w.frags i = Map.look c.w.frags i) ∧ Map.look w.frags c.f.fidx = some c.exited := by
  obtain ⟨-, hu, -, -, hfr⟩ := State.ctx?_some h.1
  have hw := State.warp?_of_ctx h.1
  have hsolo (t) (ht : t ∈ threads c.act) : s.soloHolder ≠ some (c.f.unit, c.f.warp, t) := by
    obtain ⟨hlt, hbit⟩ := mem_threads.1 ht
    refine hs t hlt ?_
    have := congrArg (·.getLsbD t) hsub
    simpa [hbit] using this
  have habort : ((threads c.act).foldl (fun (w : Warp) t => if (w.tx t).st = .idle then w else w.setTx t ((w.tx t).abort 0)) c.w) = c.w := by
    generalize threads c.act = l at hi
    induction l with
    | nil => rfl
    | cons t l ih =>
      rw [List.foldl_cons, if_pos (hi t List.mem_cons_self)]
      exact ih fun t' h' => hi t' (List.mem_cons_of_mem _ h')
  obtain ⟨G, hG, hx⟩ := State.endThreads_idle (s := s.editCore c.u.core fun k => k.count false c.beats) hw (threads c.act) hi hsolo
    (fun w => (threads c.act).foldl (fun w t => if (w.tx t).st = .idle then w else w.setTx t ((w.tx t).abort 0)) w)
    (by rw [habort]) (fun t => by rw [habort])
  have hrun : exec .exit s = .next (((s.editCore c.u.core fun k => k.count false c.beats).editWarp c.f.unit c.f.warp fun w =>
      (({ G w with exited := (G w).exited ||| c.act } : Warp).editFrag c.f.fidx fun x =>
        if x.mask &&& ~~~c.act = 0#32 then { x with status := .dead, wake := .none, clause := none, actm := 0#32, done := 0#32, lane := false }
        else { x.at x.after with mask := x.mask &&& ~~~c.act }).settle).dropThreads c.f.unit c.f.warp c.act) := by
    rw [exec_exit, execExit, withWord_ready h, if_neg h0, whenReady_ready (Ctx.ready_exit ht hd hi)]
    simp only [State.endThreads, hG, State.editFrag_eq, State.editWarp_editWarp]
  generalize hF : (fun w : Warp => (({ G w with exited := (G w).exited ||| c.act } : Warp).editFrag c.f.fidx fun x =>
        if x.mask &&& ~~~c.act = 0#32 then { x with status := .dead, wake := .none, clause := none, actm := 0#32, done := 0#32, lane := false }
        else { x.at x.after with mask := x.mask &&& ~~~c.act }).settle) = F at hrun
  have hFw : F c.w = { c.w with
      txn := (F c.w).txn, exited := c.w.exited ||| c.act, splits := (F c.w).splits
      frags := Map.edit c.w.frags c.f.fidx fun x =>
        if x.mask &&& ~~~c.act = 0#32 then { x with status := .dead, wake := .none, clause := none, actm := 0#32, done := 0#32, lane := false }
        else { x.at x.after with mask := x.mask &&& ~~~c.act } } := by
    rw [← hF]
    dsimp only
    rw [Warp.settle_rest, hx]
    rfl
  have hunit : ((s.editCore c.u.core fun k => k.count false c.beats).editWarp c.f.unit c.f.warp F).unit? c.f.unit
      = some (c.u.editWarp c.f.warp F) := by
    rw [State.editWarp, State.unit?_editUnit, if_pos rfl, State.unit?_editCore, hu, Option.map_some]
  rw [State.dropThreads_none hunit hd] at hrun
  refine ⟨_, F c.w, hrun, rfl, ?_, ?_⟩
  · rw [State.warp?_editWarp, if_pos ⟨rfl, rfl⟩]
    exact congrArg (·.map F) hw
  · rw [hFw]
    refine ⟨rfl, rfl, rfl, rfl, fun i hi => Map.look_edit_ne _ _ hi, ?_⟩
    rw [Map.look_edit_self, hfr]
    rfl

end

/-! ### Fusion at JOIN (R270) -/

theorem Map.look_filter {α : Type} (m : Map α) (p : Nat → Bool) (n : Nat) :
    Map.look (m.filter fun x => p x.1) n = if p n then Map.look m n else none := by
  induction m with
  | nil => simp
  | cons x m ih =>
    obtain ⟨k, v⟩ := x
    rw [List.filter_cons]
    by_cases e : k = n
    · subst e
      by_cases hp : p k <;> simp [Map.look_cons, hp, ih]
    · by_cases hp : p k <;> simp [Map.look_cons, hp, ih, e]

theorem Map.look_none_of_below {α : Type} {m : Map α} {n : Nat} (h : Map.below n m) : Map.look m n = none := by
  induction m with
  | nil => rfl
  | cons x m ih =>
    have hn : n < x.1 := h x List.mem_cons_self
    rw [show x = (x.1, x.2) from rfl, Map.look_cons, if_neg (by omega)]
    exact ih fun y hy => h y (List.mem_cons_of_mem _ hy)

/-- In rising order a key is listed once. -/
theorem Map.mem_iff_look {α : Type} {m : Map α} (h : Map.rising m = true) (n : Nat) (x : α) : (n, x) ∈ m ↔ Map.look m n = some x := by
  induction m with
  | nil => simp
  | cons p m ih =>
    obtain ⟨k, v⟩ := p
    obtain ⟨hb, hr⟩ := (Map.rising_cons k v m).1 h
    rw [List.mem_cons, Map.look_cons, ih hr]
    by_cases e : k = n
    · subst e
      simp [Map.look_none_of_below hb, eq_comm]
    · simp [e, Ne.symm e]

theorem Map.rising_filter {α : Type} {m : Map α} (h : Map.rising m = true) (p : Nat × α → Bool) : Map.rising (m.filter p) = true := by
  induction m with
  | nil => rfl
  | cons x m ih =>
    obtain ⟨hb, hr⟩ := (Map.rising_cons x.1 x.2 m).1 h
    rw [List.filter_cons]
    split_ifs
    · exact (Map.rising_cons x.1 x.2 _).2 ⟨fun y hy => hb y (List.mem_filter.1 hy).1, ih hr⟩
    · exact ih hr

theorem mem_foldl_distinct {α : Type} (f : α → Nat) (l : List α) (acc : List Nat) (n : Nat) :
    n ∈ l.foldl (fun l p => if l.contains (f p) then l else l ++ [f p]) acc ↔ n ∈ acc ∨ ∃ p ∈ l, f p = n := by
  induction l generalizing acc with
  | nil => simp
  | cons p l ih =>
    rw [List.foldl_cons, ih]
    by_cases h : f p ∈ acc
    · rw [if_pos (List.contains_iff_mem.2 h)]
      constructor
      · rintro (h' | ⟨q, hq, rfl⟩)
        · exact .inl h'
        · exact .inr ⟨q, List.mem_cons_of_mem _ hq, rfl⟩
      · rintro (h' | ⟨q, hq, rfl⟩)
        · exact .inl h'
        · obtain rfl | hq := List.mem_cons.1 hq
          · exact .inl h
          · exact .inr ⟨q, hq, rfl⟩
    · rw [if_neg (by simpa using h)]
      simp only [List.mem_append, List.mem_cons, List.not_mem_nil, or_false, exists_eq_or_imp, or_assoc, @eq_comm _ n]

theorem foldl_masks_getLsbD {α : Type} (g : α → Mask) (l : List α) (m : Mask) (b : Nat) :
    (l.foldl (fun m p => m ||| g p) m).getLsbD b = true ↔ m.getLsbD b = true ∨ ∃ p ∈ l, (g p).getLsbD b = true := by
  induction l generalizing m with
  | nil => simp
  | cons p l ih => simp [ih, or_assoc]

/-- A fragment that JOIN parked with the reconvergence PC of `x`, at the address `pc`. -/
def joinsAt (x : Frag) (pc : Nat) (y : Frag) : Bool := y.pc = pc && (y.joining && y.rpc = x.rpc)

/-- The fragments of a warp that fuse at one address. -/
def Warp.groupAt (w : Warp) (x : Frag) (pc : Nat) : List (Nat × Frag) := w.frags.filter fun p => joinsAt x pc p.2

/-- What a group of fragments becomes: the lowest FIDX, with the threads of all. -/
def Warp.survivor (w : Warp) (group : List (Nat × Frag)) (j : Nat) : Option Frag :=
  match group with
  | [] => none
  | (k, y) :: rest =>
    if j = k then some { w.reconverge y with
      mask := rest.foldl (fun m p => m ||| p.2.mask) y.mask, status := .runnable, wake := .none, lane := false }
    else none

theorem Warp.reconverge_splits {v w : Warp} (h : v.splits = w.splits) (y : Frag) : v.reconverge y = w.reconverge y := by
  unfold Warp.reconverge
  rw [h]

theorem Warp.fuseGroup_splits (v : Warp) (group : List (Nat × Frag)) : (v.fuseGroup group).splits = v.splits := by
  cases group <;> rfl

theorem Warp.look_fuseGroup_mem {v w : Warp} (h : v.splits = w.splits) {group : List (Nat × Frag)} {j : Nat} {y : Frag} (hj : (j, y) ∈ group) :
    Map.look (v.fuseGroup group).frags j = w.survivor group j := by
  cases group with
  | nil => simp at hj
  | cons p rest =>
    obtain ⟨k, z⟩ := p
    simp only [Warp.fuseGroup, Warp.survivor, Map.look_put, Warp.reconverge_splits h]
    by_cases e : j = k
    · rw [if_pos e, if_pos e]
    · have hmem : (j, y) ∈ rest := (List.mem_cons.1 hj).resolve_left fun he => e (Prod.mk.inj he).1
      have hany : (rest.any fun q => decide (q.1 = j)) = true := List.any_eq_true.2 ⟨_, hmem, decide_eq_true rfl⟩
      rw [if_neg e, if_neg e, Map.look_filter v.frags (fun n => !(rest.any fun q => q.1 = n)), hany]
      rfl

theorem Warp.look_fuseGroup_other (v : Warp) {group : List (Nat × Frag)} {j : Nat} (hj : ∀ y, (j, y) ∉ group) :
    Map.look (v.fuseGroup group).frags j = Map.look v.frags j := by
  cases group with
  | nil => rfl
  | cons p rest =>
    obtain ⟨k, z⟩ := p
    have e : j ≠ k := fun e => hj z (by rw [e]; exact List.mem_cons_self)
    have hany : (rest.any fun q => decide (q.1 = j)) = false := by
      rw [List.any_eq_false]
      intro q hq he
      exact hj q.2 (List.mem_cons_of_mem _ (by rw [← of_decide_eq_true he]; exact hq))
    simp only [Warp.fuseGroup, Map.look_put, if_neg e, Map.look_filter v.frags (fun n => !(rest.any fun q => q.1 = n)), hany]
    rfl

section
variable {w : Warp} {x : Frag} (hr : Map.rising w.frags = true)
include hr

theorem Warp.mem_groupAt {pc j : Nat} {y : Frag} : (j, y) ∈ w.groupAt x pc ↔ Map.look w.frags j = some y ∧ joinsAt x pc y = true := by
  rw [Warp.groupAt, List.mem_filter, Map.mem_iff_look hr]

/-- Fusing the groups of several addresses changes no fragment that is in none. -/
theorem Warp.look_fuseGroups_other (pcs : List Nat) (v : Warp) {j : Nat}
    (hj : ∀ y, Map.look w.frags j = some y → joinsAt x y.pc y = false) :
    Map.look (pcs.foldl (fun v pc => v.fuseGroup (w.groupAt x pc)) v).frags j = Map.look v.frags j := by
  induction pcs generalizing v with
  | nil => rfl
  | cons pc pcs ih =>
    rw [List.foldl_cons, ih, Warp.look_fuseGroup_other]
    intro y hy
    obtain ⟨hlook, hjoin⟩ := (Warp.mem_groupAt hr).1 hy
    have hpc : y.pc = pc := by
      simp only [joinsAt, Bool.and_eq_true, decide_eq_true_eq] at hjoin
      exact hjoin.1
    rw [← hpc, hj y hlook] at hjoin
    exact absurd hjoin Bool.false_ne_true

/-- A fragment of a group becomes what the group makes of it. -/
theorem Warp.look_fuseGroups_mem (pcs : List Nat) {v : Warp} (h : v.splits = w.splits) {j : Nat} {y : Frag} (hlook : Map.look w.frags j = some y)
    (hjoin : joinsAt x y.pc y = true) (hv : y.pc ∈ pcs ∨ Map.look v.frags j = w.survivor (w.groupAt x y.pc) j) :
    Map.look (pcs.foldl (fun v pc => v.fuseGroup (w.groupAt x pc)) v).frags j = w.survivor (w.groupAt x y.pc) j := by
  induction pcs generalizing v with
  | nil => exact hv.resolve_left (List.not_mem_nil)
  | cons pc pcs ih =>
    rw [List.foldl_cons]
    refine ih ((v.fuseGroup_splits _).trans h) ?_
    by_cases e : y.pc = pc
    · subst e
      exact .inr (Warp.look_fuseGroup_mem h ((Warp.mem_groupAt hr).2 ⟨hlook, hjoin⟩))
    · obtain hmem | hv := hv
      · exact .inl ((List.mem_cons.1 hmem).resolve_left e)
      · refine .inr ((Warp.look_fuseGroup_other v fun z hz => ?_).trans hv)
        obtain ⟨hz, hzj⟩ := (Warp.mem_groupAt hr).1 hz
        obtain rfl := Option.some.inj (hlook.symm.trans hz)
        simp only [joinsAt, Bool.and_eq_true, decide_eq_true_eq] at hzj
        exact e hzj.1

/-- A member of a group above another becomes free. -/
theorem Warp.survivor_above {pc i j : Nat} {z : Frag} (hlt : j < i) (hz : Map.look w.frags j = some z) (hjz : joinsAt x pc z = true) :
    w.survivor (w.groupAt x pc) i = none := by
  have hmem := (Warp.mem_groupAt (x := x) (pc := pc) hr).2 ⟨hz, hjz⟩
  have hrise : Map.rising (w.groupAt x pc) = true := Map.rising_filter hr _
  cases hg : w.groupAt x pc with
  | nil => rfl
  | cons p rest =>
    rw [hg] at hmem hrise
    have hle : p.1 ≤ j := by
      obtain rfl | hmem := List.mem_cons.1 hmem
      · exact le_refl _
      · exact le_of_lt (((Map.rising_cons p.1 p.2 rest).1 hrise).1 _ hmem)
    simp only [Warp.survivor]
    rw [if_neg (by omega)]

/-- The lowest member of a group goes on with the threads of all. -/
theorem Warp.survivor_lowest {i : Nat} {y : Frag} (hy : Map.look w.frags i = some y) (hjy : joinsAt x y.pc y = true)
    (hlow : ∀ j z, j < i → Map.look w.frags j = some z → joinsAt x y.pc z = false) :
    ∃ m : Mask, (∀ b, m.getLsbD b = true ↔ ∃ j z, Map.look w.frags j = some z ∧ joinsAt x y.pc z = true ∧ z.mask.getLsbD b = true)
      ∧ w.survivor (w.groupAt x y.pc) i =
        some { w.reconverge y with mask := m, status := .runnable, wake := .none, lane := false } := by
  have hmem := (Warp.mem_groupAt (x := x) (pc := y.pc) hr).2 ⟨hy, hjy⟩
  have hiff (j : Nat) (z : Frag) := Warp.mem_groupAt (x := x) (pc := y.pc) (j := j) (y := z) hr
  have hrise : Map.rising (w.groupAt x y.pc) = true := Map.rising_filter hr _
  cases hg : w.groupAt x y.pc with
  | nil => rw [hg] at hmem; exact absurd hmem List.not_mem_nil
  | cons p rest =>
    obtain ⟨k, z⟩ := p
    rw [hg] at hmem hrise
    simp only [hg] at hiff
    obtain ⟨hz, hjz⟩ := (hiff k z).1 List.mem_cons_self
    have hk : k = i := by
      obtain he | hrest := List.mem_cons.1 hmem
      · exact (Prod.mk.inj he).1.symm
      · have hlt := ((Map.rising_cons k z rest).1 hrise).1 _ hrest
        exact absurd (hlow k z hlt hz) (by rw [hjz]; exact Bool.false_ne_true.symm)
    subst hk
    obtain rfl := Option.some.inj (hy.symm.trans hz)
    refine ⟨_, fun b => ?_, if_pos rfl⟩
    rw [foldl_masks_getLsbD fun p : Nat × Frag => p.2.mask]
    constructor
    · rintro (hb | ⟨⟨j, z⟩, hj, hb⟩)
      · exact ⟨k, y, hy, hjy, hb⟩
      · obtain ⟨hlook, hjoin⟩ := (hiff j z).1 (List.mem_cons_of_mem _ hj)
        exact ⟨j, z, hlook, hjoin, hb⟩
    · rintro ⟨j, z, hlook, hjoin, hb⟩
      obtain he | hj := List.mem_cons.1 ((hiff j z).2 ⟨hlook, hjoin⟩)
      · rw [(Prod.mk.inj he).2] at hb
        exact .inl hb
      · exact .inr ⟨(j, z), hj, hb⟩

/-- The addresses at which fragments of a JOIN set wait. -/
def Warp.joinPcs (w : Warp) (x : Frag) : List Nat :=
  (w.frags.filter fun p => p.2.joining && p.2.rpc = x.rpc).foldl (fun l p => if l.contains p.2.pc then l else l ++ [p.2.pc]) []

theorem Warp.pc_mem_joinPcs {j : Nat} {y : Frag} (hy : Map.look w.frags j = some y) (hj : joinsAt x y.pc y = true) : y.pc ∈ w.joinPcs x := by
  simp only [joinsAt, decide_true, Bool.true_and] at hj
  exact (mem_foldl_distinct (fun p : Nat × Frag => p.2.pc) ..).2 (.inr ⟨(j, y), List.mem_filter.2 ⟨(Map.mem_iff_look hr j y).2 hy, hj⟩, rfl⟩)

/-- Where no member of the JOIN set stands outside a JOIN, its groups fuse. -/
theorem Warp.joinFuse_frags {i : Nat} (hx : Map.look w.frags i = some x) (hj : x.joining = true)
    (hall : ∀ j y, Map.look w.frags j = some y → y.status ≠ .dead → y.rpc = x.rpc → y.joining = true) :
    (w.joinFuse i).frags = ((w.joinPcs x).foldl (fun v pc => v.fuseGroup (w.groupAt x pc)) w).frags := by
  have hset : (w.joinSet i x).any (fun p => !p.2.joining) = false := by
    rw [List.any_eq_false]
    intro p hp
    simp only [Warp.joinSet, List.mem_filter, Bool.and_eq_true, decide_eq_true_eq] at hp
    obtain ⟨hmem, ⟨-, hlive⟩, hrpc⟩ := hp
    simp [hall p.1 p.2 ((Map.mem_iff_look hr p.1 p.2).1 hmem) hlive hrpc]
  have hgroup (pc : Nat) : (w.frags.filter fun p => p.2.joining && decide (p.2.rpc = x.rpc)).filter (fun p => decide (p.2.pc = pc))
      = w.groupAt x pc := by
    rw [List.filter_filter]
    rfl
  simp only [Warp.joinFuse, hx, hj, hset, Bool.not_true, Bool.or_self, Bool.false_eq_true, if_false, Warp.gcSplits_frags, hgroup]
  rfl

end

theorem Frag.joining_iff (y : Frag) : y.joining = true ↔ y.status = .parkedWait ∧ y.wake = .join := by simp [Frag.joining]

theorem joinsAt_iff (x : Frag) (pc : Nat) (y : Frag) : joinsAt x pc y = true ↔ y.status = .parkedWait ∧ y.wake = .join ∧ y.rpc = x.rpc ∧ y.pc = pc := by
  simp only [joinsAt, Bool.and_eq_true, decide_eq_true_eq, Frag.joining_iff]
  tauto

/-- A fragment that FRAGMENT_WAKE finds parked at a JOIN. -/
theorem fragmentWake_joins {s : State} {g : FragRef} {u : KUnit} {l : Launch} {w : Warp} {x : Frag} (hu : s.unit? g.unit = some u)
    (hl : s.launchOf g.unit = some l) (hw : Map.look u.warps g.warp = some w) (hx : Map.look w.frags g.fidx = some x) (hj : x.joining = true)
    (hp : u.parkReq = false) : ∃ t, exec (.fragmentWake g) s = .next t ∧ t.mem = s.mem ∧ t.warp? g.unit g.warp = some (w.joinFuse g.fidx) := by
  have hwarp : s.warp? g.unit g.warp = some w := by rw [State.warp?, hu, Option.bind_some, hw]
  have hfrag : s.frag? g = some x := by rw [State.frag?, hwarp, Option.bind_some, hx]
  refine ⟨s.editWarp g.unit g.warp fun w => w.joinFuse g.fidx, ?_, rfl, ?_⟩
  · rw [exec_fragmentWake, execFragmentWake]
    simp only [hu, hl, hfrag, hp, hj, Bool.false_and, Bool.false_eq_true, if_false, if_true]
  · rw [State.warp?_editWarp, if_pos ⟨rfl, rfl⟩, hwarp, Option.map_some]

/-! ### The statement -/

/-- Settles O11: JOIN by whether its set is empty, fusion group by group, EXIT by the one change it makes to its warp. -/
theorem joinAndExit : Obligations.JoinAndExit := by
  unfold Obligations.JoinAndExit
  refine ⟨fun s c k f hk hf h => ⟨fun ⟨i, hi⟩ hs => ?waits, fun hno => ?goesOn⟩, fun s g u l w x hu hl hw hr hx hst hwk hp hall => ?fuses,
    fun s c k f hk hf h ht hd hi hs h0 hsub => ?exits⟩
  case waits =>
    have hset : c.w.joinSet c.f.fidx c.fr ≠ [] := fun he => (Warp.joinSet_eq_nil ..).1 he i hi
    refine ⟨fun hp => ?_, join_parks h hs hset⟩
    obtain ⟨t, ht, hb⟩ := join_waits h hs hset hp
    rw [Frag.at_after hk, ← hf] at hb
    exact ⟨t, ht, hb⟩
  case goesOn =>
    obtain ⟨t, ht, hmem, hfrag⟩ := join_goesOn h ((Warp.joinSet_eq_nil ..).2 hno)
    rw [Frag.at_after hk, ← hf] at hfrag
    exact ⟨t, ht, hmem, hfrag⟩
  case fuses =>
    have hjoin := (Frag.joining_iff x).2 ⟨hst, hwk⟩
    obtain ⟨t, ht, hmem, hwarp⟩ := fragmentWake_joins hu hl hw hx hjoin hp
    have hfrags := Warp.joinFuse_frags hr hx hjoin fun j y hy hd hrpc => (Frag.joining_iff y).2 (hall j y hy hd hrpc)
    refine ⟨t, _, ht, hmem, hwarp, fun j hj => ?_, fun i y hy => ?_⟩
    · cases hy : Map.look w.frags j with
      | some y => rfl
      | none =>
        rw [hfrags, Warp.look_fuseGroups_other hr _ w (x := x) (j := j) (by simp [hy]), hy] at hj
        exact absurd hj Bool.false_ne_true
    · intro fuses
      have hiff (z : Frag) : fuses z ↔ joinsAt x y.pc z = true := (joinsAt_iff x y.pc z).symm
      have hmember (hjy : joinsAt x y.pc y = true) :=
        Warp.look_fuseGroups_mem hr (w.joinPcs x) rfl hy hjy (.inl (Warp.pc_mem_joinPcs hr hy hjy))
      rw [hfrags]
      refine ⟨fun hno => ?_, fun hjy ⟨j, z, hlt, hz, hjz⟩ => ?_, fun hjy hlow => ?_⟩
      · rw [Warp.look_fuseGroups_other hr (w.joinPcs x) w (x := x) (j := i), hy]
        intro y' hy'
        obtain rfl := Option.some.inj (hy.symm.trans hy')
        exact Bool.eq_false_iff.2 fun he => hno ((hiff _).2 he)
      · rw [hmember ((hiff y).1 hjy)]
        exact Warp.survivor_above hr hlt hz ((hiff z).1 hjz)
      · rw [hmember ((hiff y).1 hjy)]
        obtain ⟨m, hm, hsurv⟩ := Warp.survivor_lowest hr hy ((hiff y).1 hjy)
          fun j z hlt hz => Bool.eq_false_iff.2 fun he => hlow j z hlt hz ((hiff z).2 he)
        refine ⟨m, fun b _ => ?_, hsurv⟩
        simp only [hm, hiff]
  case exits =>
    obtain ⟨t, w, hrun, hmem, hwarp, hex, hregs, hpreds, hkilled, hother, hfr⟩ := exit_ends h ht hd hi hs h0 hsub
    rw [Ctx.exited, Frag.at_after hk, ← hf] at hfr
    exact ⟨t, w, hrun, hmem, hwarp, hex, hregs, hpreds, hkilled, hother, hfr⟩

end Sys2Proof.Machine
end

section
/-! SUPPORT. The checks of R164 in their order, the faults of threads that fail the same one, and what an access needs at issue (O13). -/
namespace Sys2Proof.Machine

/-! ### Faults of one cause at several addresses -/

/-- A fault joins one of its cause. -/
theorem addBad_sameCause {x b : Bad} (hk : x.cause = b.cause) (hfb : b.fb = []) : addBad [x] b = [{ x with mask := x.mask ||| b.mask }] := by
  simp [addBad, hk, hfb, joinFbs]

/-- Every thread of a mask fails with one cause: one group, with the record of the lowest thread. -/
theorem groupBads_sameCause {m : Mask} {p : Nat → Option Bad} {b : Nat → Bad} {k low : Nat} (hp : ∀ t ∈ threads m, p t = some (b t))
    (hk : ∀ t ∈ threads m, (b t).cause = k) (hfb : ∀ t ∈ threads m, (b t).fb = []) (hlow : lowest m = some low) :
    groupBads m p = [{ b low with mask := m }] := by
  rw [lowest_eq_head] at hlow
  obtain ⟨ts, hts⟩ := List.head?_eq_some_iff.1 hlow
  have step (l : List Nat) (hl : ∀ t ∈ l, t ∈ threads m) (x : Mask) : l.foldl (fun l t =>
      match p t with
      | none => l
      | some b => addBad l { b with mask := bit t }) [{ b low with mask := x }] = [{ b low with mask := l.foldl (fun x t => x ||| bit t) x }] := by
    induction l generalizing x with
    | nil => rfl
    | cons t l ih =>
      have ht := hl t List.mem_cons_self
      have hcause : (b low).cause = (b t).cause := (hk low (hts ▸ List.mem_cons_self)).trans (hk t ht).symm
      rw [List.foldl_cons, hp t ht]
      exact (congrArg (l.foldl _) (addBad_sameCause (x := { b low with mask := x }) (b := { b t with mask := bit t }) hcause (hfb t ht))).trans
        (ih (fun u hu => hl u (List.mem_cons_of_mem _ hu)) _)
  have hmask : ts.foldl (fun x t => x ||| bit t) (bit low) = m := by
    refine BitVec.eq_of_getLsbD_eq fun i hi => Bool.eq_iff_iff.2 ?_
    rw [foldl_masks_getLsbD fun t => bit t, bit_getLsbD _ _ hi, decide_eq_true_eq]
    have hmem : m.getLsbD i = true ↔ i ∈ threads m := by simp [mem_threads, hi]
    rw [hmem, hts, List.mem_cons]
    simp [bit_getLsbD _ _ hi]
  have hlowmem : low ∈ threads m := hts ▸ List.mem_cons_self
  rw [groupBads, hts, List.foldl_cons, hp low hlowmem]
  exact (step ts (fun t ht => hts ▸ List.mem_cons_of_mem _ ht) _).trans (by rw [hmask])

/-! ### Checks 1 to 6 and the barrier, one by one -/

section
variable {c : Ctx} {s : State} {w : Want} {mr : MemRef} {stag : Bool} {t : Nat}

/-- The spaces that a memory word may name are those of Table 5.2, and an atomic or reduction names no host space. -/
def Want.known (w : Want) : Prop := ∀ x ∈ w.spaces, x ≤ 4 ∧ (x = 4 → isRmw w.kind = false)

theorem early_tag : ¬ c.test s w mr stag t 0 ↔ (!c.capTag mr.c t || !(c.cap mr.c t).ok) = true := by
  simp only [Ctx.test, Bool.or_eq_true, Bool.not_eq_true', ← Bool.not_eq_true, Cap.ok_iff]
  tauto

/-- An address of cluster space that names a unit of the cluster that has not ended. -/
theorem cluster_named (a m : Nat) (e : NSet) : (a < 2 ^ 22 ∧ a / 2 ^ 19 ≤ m ∧ a / 2 ^ 19 ∉ e) ↔
    (decide (2 ^ 22 ≤ a) || decide (m < a / 2 ^ 19 % 8) || NSet.has e (a / 2 ^ 19 % 8)) = false := by
  by_cases hbig : a < 2 ^ 22
  · rw [Nat.mod_eq_of_lt (show a / 2 ^ 19 < 8 by omega), ← NSet.has_iff]
    generalize a / 2 ^ 19 = r
    rw [decide_eq_false (not_le.2 hbig)]
    simp only [hbig, true_and, Bool.false_or, Bool.or_eq_false_iff, decide_eq_false_iff_not, not_lt, Bool.not_eq_true]
  · rw [decide_eq_true (not_lt.1 hbig)]
    simp only [hbig, false_and, Bool.true_or, Bool.true_eq_false]

theorem early_space (hw : w.known) : ¬ c.test s w mr stag t 1 ↔
    (!(w.spaces.contains (c.cap mr.c t).space) || decide (4 < (c.cap mr.c t).space)
      || ((c.cap mr.c t).space = 1 && decide (2 ^ 19 ≤ c.addr mr t))
      || ((c.cap mr.c t).space = 2 && (decide (2 ^ 22 ≤ c.addr mr t) || decide (c.u.sizeM1 < c.addr mr t / 2 ^ 19 % 8)
        || NSet.has c.u.rankEnded (c.addr mr t / 2 ^ 19 % 8)))
      || ((c.cap mr.c t).space = 3 && !(s.inPartition (c.addr mr t / 2 ^ 45)))
      || ((c.cap mr.c t).space = 4 && isRmw w.kind)) = true := by
  simp only [Ctx.test]
  generalize (c.cap mr.c t).space = k
  generalize c.addr mr t = a
  by_cases hin : k ∈ w.spaces
  · obtain ⟨hle, hhost⟩ := hw k hin
    by_cases h2 : k = 2
    · subst h2
      simp only [hin, true_and, show ¬ (2 : Nat) = 1 by decide, show ¬ (2 : Nat) = 3 by decide, false_implies, true_implies, and_true,
        cluster_named a c.u.sizeM1 c.u.rankEnded]
      generalize (decide (2 ^ 22 ≤ a) || decide (c.u.sizeM1 < a / 2 ^ 19 % 8) || NSet.has c.u.rankEnded (a / 2 ^ 19 % 8)) = bad
      simp [hin]
    · by_cases h4 : k = 4
      · simp [h4, hhost h4]
      · simp [hin, h2, h4, not_lt.2 hle, imp_iff_not_or, not_or]
  · simp [hin]

theorem early_perm : ¬ c.test s w mr stag t 2 ↔ (decide ((c.cap mr.c t).perm &&& w.need ≠ w.need)
    || (stag && (!((c.cap mr.c t).has 4) || (c.cap mr.c t).space = 3 || (c.cap mr.c t).space = 4))) = true := by
  simp only [Ctx.test, Bool.or_eq_true, Bool.and_eq_true, decide_eq_true_eq, Bool.not_eq_true', ← Bool.not_eq_true]
  tauto

theorem early_align : ¬ c.test s w mr stag t 4 ↔ (w.align && decide (c.addr mr t % w.size ≠ 0)) = true := by
  simp only [Ctx.test, Bool.and_eq_true, decide_eq_true_eq]
  tauto

theorem early_bounds : ¬ c.test s w mr stag t 3 ↔
    (!(match (c.cap mr.c t).bounds with
      | some (b, e) => decide (b ≤ c.addr mr t) && decide (c.addr mr t + w.size ≤ e)
      | none => false)
      || (((c.cap mr.c t).space = 1 || (c.cap mr.c t).space = 2) && decide (c.l.scratch < c.addr mr t % 2 ^ 19 + w.size))) = true := by
  simp only [Ctx.test, Bool.or_eq_true, Bool.and_eq_true, decide_eq_true_eq, ← not_le]
  cases (c.cap mr.c t).bounds with
  | none => simp
  | some p =>
    obtain ⟨b, e⟩ := p
    have hone : (∃ b' e', some (b, e) = some (b', e') ∧ b' ≤ c.addr mr t ∧ c.addr mr t + w.size ≤ e') ↔ b ≤ c.addr mr t ∧ c.addr mr t + w.size ≤ e := by
      constructor
      · rintro ⟨_, _, ⟨⟩, h⟩
        exact h
      · exact fun h => ⟨_, _, rfl, h⟩
    simp only [hone, Bool.not_eq_true', ← Bool.not_eq_true, Bool.and_eq_true, decide_eq_true_eq]
    tauto

theorem early_spec : ¬ c.test s w mr stag t 5 ↔ (writes w.kind && nodeSpec c.w.node
    && ((c.cap mr.c t).space = 0 || (c.cap mr.c t).space = 3 || (c.cap mr.c t).space = 4) && !((c.cap mr.c t).has 6)) = true := by
  simp only [Ctx.test, Bool.or_eq_true, Bool.and_eq_true, decide_eq_true_eq, Bool.not_eq_true', ← Bool.not_eq_true]
  tauto

theorem early_barrier : ¬ c.test s w mr stag t 6 ↔ (writes w.kind && ((c.cap mr.c t).space = 1 || (c.cap mr.c t).space = 2)
    && (((s.unit? (c.target (c.cap mr.c t).space (c.addr mr t))).map fun x => x.barrierIn (c.addr mr t % 2 ^ 19) w.size).getD false)) = true := by
  simp only [Ctx.test, Bool.and_eq_true, Bool.or_eq_true, decide_eq_true_eq]
  cases s.unit? (c.target (c.cap mr.c t).space (c.addr mr t)) with
  | none => simp
  | some x =>
    simp only [Option.some.injEq, forall_eq', Option.map_some, Option.getD_some, ← barrierIn_false, ← Bool.not_eq_true]
    tauto

/-- Checks 1 to 6 and the barrier of R164, in order, as tests of `Ctx.test`. -/
theorem Ctx.early_eq [∀ n, Decidable (c.test s w mr stag t n)] (hw : w.known) :
    c.early s w (c.cap mr.c t) (c.capTag mr.c t) stag (c.addr mr t) =
      if ¬ c.test s w mr stag t 0 then some 0x10 else if ¬ c.test s w mr stag t 1 then some 0x11 else if ¬ c.test s w mr stag t 2 then some 0x12
      else if ¬ c.test s w mr stag t 3 then some 0x13 else if ¬ c.test s w mr stag t 4 then some 0x14
      else if ¬ c.test s w mr stag t 5 then some 0x15 else if ¬ c.test s w mr stag t 6 then some 0x20 else none := by
  simp only [early_tag, early_space hw, early_perm, early_bounds, early_align, early_spec, early_barrier]
  rfl

/-- The first test that fails gives the cause. -/
theorem Ctx.early_fails (hw : w.known) {n : Nat} (hn : n < 7) (hpass : ∀ k < n, c.test s w mr stag t k) (hfail : ¬ c.test s w mr stag t n) :
    c.early s w (c.cap mr.c t) (c.capTag mr.c t) stag (c.addr mr t) = some (testCause n) := by
  have := fun n => Classical.propDecidable (c.test s w mr stag t n)
  rw [Ctx.early_eq hw]
  interval_cases n <;> simp [hfail, hpass, testCause]

/-- Where every test passes, no check before the translation fails. -/
theorem Ctx.early_passes (hw : w.known) (hpass : ∀ n < 7, c.test s w mr stag t n) :
    c.early s w (c.cap mr.c t) (c.capTag mr.c t) stag (c.addr mr t) = none := by
  have := fun n => Classical.propDecidable (c.test s w mr stag t n)
  rw [Ctx.early_eq hw]
  simp [hpass]

theorem Ctx.check_fails (hw : w.known) {n : Nat} (hn : n < 7) (hpass : ∀ k < n, c.test s w mr stag t k) (hfail : ¬ c.test s w mr stag t n) :
    c.check s w (c.rdC mr.c t) (c.capTag mr.c t) stag (c.addr mr t) =
      (s, .error (Bad.of (testCause n) (BitVec.ofNat 64 (c.addr mr t)) 0)) := by
  have he := Ctx.early_fails hw hn hpass hfail
  simp only [Ctx.cap] at he
  simp only [Ctx.check, he]

end


/-! ### The access of a memory word -/

theorem accessOf_form {i : Instr} {m : MemIns} (h : accessOf i = some m) :
    ∃ kind size regs acq rel sext d mr, m = accessForm kind size regs acq rel sext d mr ∧ 0 < size := by
  unfold accessOf at h
  split at h
  all_goals first | exact ⟨_, _, _, _, _, _, _, _, (Option.some.inj h).symm, by decide⟩ | nomatch h

theorem accessOf_ral {i : Instr} {m : MemIns} (h : accessOf i = some m) : m.ral = m.regs := by
  obtain ⟨kind, size, regs, acq, rel, sext, d, mr, rfl, -⟩ := accessOf_form h
  rfl

theorem accessOf_known {i : Instr} {m : MemIns} (h : accessOf i = some m) : m.want.known := by
  obtain ⟨kind, size, regs, acq, rel, sext, d, mr, rfl, -⟩ := accessOf_form h
  intro x hx
  simp only [accessForm] at hx ⊢
  cases hr : isRmw kind <;> simp [hr] at hx <;> obtain rfl | rfl | rfl | rfl | hx := hx <;> simp_all

theorem accessOf_size_pos {i : Instr} {m : MemIns} (h : accessOf i = some m) : 0 < m.want.size := by
  obtain ⟨kind, size, regs, acq, rel, sext, d, mr, rfl, hpos⟩ := accessOf_form h
  exact hpos

theorem lineWant_known (need : Nat) : (lineWant need).known := by
  intro x hx
  simp only [lineWant, allSpaces, List.mem_cons, List.not_mem_nil, or_false] at hx
  exact ⟨by omega, fun _ => rfl⟩

/-! ### Thread after thread -/

/-- What each thread of a list answers in turn, and the state after them. -/
def eachThread {β : Type} (f : State → Nat → State × β) : State → List Nat → State × List (Nat × β)
  | s, [] => (s, [])
  | s, t :: ts => ((eachThread f (f s t).1 ts).1, (t, (f s t).2) :: (eachThread f (f s t).1 ts).2)

theorem MemIns.all_eq (m : MemIns) (c : Ctx) (s : State) (ts : List Nat) : m.all c s ts = eachThread (m.thread c) s ts := by
  induction ts generalizing s with
  | nil => rfl
  | cons t ts ih => simp only [MemIns.all, eachThread, ih]

/-- The check of one thread of a line operation. -/
def lineThread (need : Nat) (mr : MemRef) (c : Ctx) (s : State) (t : Nat) : State × Except Bad (List Item) :=
  let r := c.check s (lineWant need) (c.rdC mr.c t) (c.capTag mr.c t) false (c.addr mr t)
  (r.1, match r.2 with
    | .error b => .error b
    | .ok l => .ok ((itemsOf (lineWant need) t (c.addr mr t) l 0 0 false false false).map fun i => { i with done := true }))

theorem lineAll_eq (need : Nat) (mr : MemRef) (c : Ctx) (s : State) (ts : List Nat) : lineAll need mr c s ts = eachThread (lineThread need mr c) s ts := by
  induction ts generalizing s with
  | nil => rfl
  | cons t ts ih =>
    exact congrArg (fun q : State × List (Nat × Except Bad (List Item)) => (q.1, (t, (lineThread need mr c s t).2) :: q.2)) (ih _)

/-- Threads that each answer the same in every state that has a property, which they keep. -/
theorem eachThread_keeps {β : Type} {f : State → Nat → State × β} {r : Nat → β} {p : State → Prop} {ts : List Nat}
    (h : ∀ s, p s → ∀ t ∈ ts, p (f s t).1 ∧ (f s t).2 = r t) {s : State} (hs : p s) :
    p (eachThread f s ts).1 ∧ (eachThread f s ts).2 = ts.map fun t => (t, r t) := by
  induction ts generalizing s with
  | nil => exact ⟨hs, rfl⟩
  | cons t ts ih =>
    obtain ⟨hp, hr⟩ := h s hs t List.mem_cons_self
    obtain ⟨hp', hrs⟩ := ih (fun s hs u hu => h s hs u (List.mem_cons_of_mem _ hu)) hp
    exact ⟨hp', by simp only [eachThread, hr, hrs, List.map_cons]⟩

/-- Threads that each leave the state as it is. -/
theorem eachThread_stays {β : Type} {f : State → Nat → State × β} {r : Nat → β} {s : State} {ts : List Nat} (h : ∀ t ∈ ts, f s t = (s, r t)) :
    eachThread f s ts = (s, ts.map fun t => (t, r t)) := by
  obtain ⟨he, hr⟩ := eachThread_keeps (f := f) (r := r) (p := fun x => x = s)
    (fun x hx t ht => by rw [hx, h t ht]; exact ⟨rfl, rfl⟩) rfl
  exact Prod.ext he hr

theorem Map.look_map_self {α : Type} (f : Nat → α) {ts : List Nat} {t : Nat} (h : t ∈ ts) : Map.look (ts.map fun t => (t, f t)) t = some (f t) := by
  induction ts with
  | nil => exact absurd h List.not_mem_nil
  | cons u ts ih =>
    rw [List.map_cons, Map.look]
    split
    · next e => rw [e]
    · next e => exact ih ((List.mem_cons.1 h).resolve_left (Ne.symm e))

/-! ### Threads that all fail, or all pass -/

section
variable {c : Ctx} {b : Nat → Bad}

theorem badsOf_errors {k low : Nat} (hk : ∀ t ∈ threads c.act, (b t).cause = k) (hfb : ∀ t ∈ threads c.act, (b t).fb = [])
    (hlow : lowest c.act = some low) : badsOf c.act ((threads c.act).map fun t => (t, .error (b t))) = [{ b low with mask := c.act }] :=
  groupBads_sameCause (b := b) (fun t ht => by rw [Map.look_map_self _ ht]) hk hfb hlow

theorem itemsIn_errors (m : Mask) (ts : List Nat) : itemsIn m (ts.map fun t => (t, .error (b t))) = [] :=
  List.flatMap_eq_nil_iff.2 fun p hp => by
    obtain ⟨t, -, rfl⟩ := List.mem_map.1 hp
    rfl

end

theorem State.pinNeeds_none (s : State) {l : List (List Nat)} (h : ∀ x ∈ l, x = []) : s.pinNeeds l = [] := by
  refine List.filterMap_eq_nil_iff.2 fun p _ => if_pos (List.length_eq_zero_iff.2 (List.filter_eq_nil_iff.2 fun x hx => ?_))
  rw [h x hx]
  exact Bool.false_ne_true

/-- A fault of every thread of the fragment parks it whole. -/
theorem guarded_whole {s : State} {c : Ctx} (h : s.ctx? = some c) (hs : NotSolitary s c) (ha : c.act = c.fr.mask) (h0 : c.act ≠ 0#32) (k : Nat)
    (ad : Word64) (go : Ctx → State → State) : FaultsWhole s (s.guarded c [{ Bad.of k ad 0 with mask := c.act }] go) c k ad 0 true := by
  obtain ⟨hparks, hwhole⟩ := takeFaults_whole h hs (b := { Bad.of k ad 0 with mask := c.act }) ha (ha ▸ h0) rfl
  rw [guarded_parks hparks]
  exact hwhole

/-! ### What a word of the ls path needs -/

theorem Ctx.flag_ready {c : Ctx} {p : PathId} (h : c.full (some p) = false) (s : State) : s.ready c (llNeeds p) = true := by
  simp only [Ctx.full, Bool.or_eq_false_iff, decide_eq_false_iff_not, not_le] at h
  obtain ⟨hp, hf⟩ := h
  simp only [State.ready, llNeeds, List.all_cons, List.all_nil, Bool.and_true, Need.met, decide_eq_true hp, Bool.true_and]
  split
  · next k hk =>
    rw [hk] at hf
    exact decide_eq_true (by simpa using hf)
  · rfl

theorem State.ready_append {s : State} {c : Ctx} {a b : List Need} (ha : s.ready c a = true) (hb : s.ready c b = true) : s.ready c (a ++ b) = true := by
  rw [State.ready, List.all_append, Bool.and_eq_true]
  exact ⟨ha, hb⟩

theorem Ctx.ls_ready {c : Ctx} (h : c.full (some .ls) = false) (ht : c.tendPending = false) (s : State) : s.ready c c.lsNeeds = true :=
  State.ready_append (Ctx.flag_ready h s) (Ctx.ready_tend ht s)

/-! ### The words whose every thread fails -/

section
variable {s : State} {c : Ctx} (hs : NotSolitary s c) (ha : c.act = c.fr.mask) (h0 : c.act ≠ 0#32) (hfull : c.full (some .ls) = false)
  (htend : c.tendPending = false)
include hs ha h0 hfull htend

theorem MemIns.run_faults {m : MemIns} (hm : m.want.known) (hready : Ready s c (⟨m.reg.toNat, m.regs, 1⟩ :: memOpn m.mr) [])
    (hal : m.reg.toNat % m.ral = 0) {n : Nat} (hn : n < 7)
    (hfail : ∀ t ∈ threads c.act, (∀ k < n, c.test s m.want m.mr (m.stag c t) t k) ∧ ¬ c.test s m.want m.mr (m.stag c t) t n) {low : Nat}
    (hlow : lowest c.act = some low) :
    ∃ t, m.run s = .next t ∧ FaultsWhole s t c (testCause n) (BitVec.ofNat 64 (c.addr m.mr low)) 0 true := by
  have hall : m.all c s (threads c.act) =
      (s, (threads c.act).map fun t => (t, .error (Bad.of (testCause n) (BitVec.ofNat 64 (c.addr m.mr t)) 0))) := by
    rw [MemIns.all_eq]
    refine eachThread_stays fun t ht => ?_
    obtain ⟨hpass, hno⟩ := hfail t ht
    simp only [MemIns.thread, Ctx.check_fails hm hn hpass hno]
  have hbads := badsOf_errors (b := fun t => Bad.of (testCause n) (BitVec.ofNat 64 (c.addr m.mr t)) 0) (fun _ _ => rfl) (fun _ _ => rfl) hlow
  have hwait : s.ready c (((peersOf []).map fun p => Need.window p.1 p.2) ++
      s.pinNeeds ((threads c.act).map fun t => (([] : List Item).filter fun i => i.thread = t).flatMap Item.pas)) = true := by
    rw [s.pinNeeds_none fun x hx => by obtain ⟨t, -, rfl⟩ := List.mem_map.1 hx; rfl]
    rfl
  refine ⟨_, withWord_ready hready _, ?_⟩
  simp only [hal, ne_eq, not_true_eq_false, if_false, h0, whenReady_ready (Ctx.ls_ready hfull htend s), hall, itemsIn_errors, whenReady_ready hwait, hbads]
  exact guarded_whole hready.1 hs ha h0 _ _ _

theorem lineWord_faults {kind : OpKind} {mr : MemRef} (hready : Ready s c (memOpn mr) []) {n : Nat} (hn : n < 7)
    (hfail : ∀ t ∈ threads c.act, (∀ k < n, c.test s (lineWant 1) mr false t k) ∧ ¬ c.test s (lineWant 1) mr false t n) {low : Nat}
    (hlow : lowest c.act = some low) :
    ∃ t, lineWord kind mr s = .next t ∧ FaultsWhole s t c (testCause n) (BitVec.ofNat 64 (c.addr mr low)) 0 true := by
  have hall : lineAll 1 mr c s (threads c.act) =
      (s, (threads c.act).map fun t => (t, .error (Bad.of (testCause n) (BitVec.ofNat 64 (c.addr mr t)) 0))) := by
    rw [lineAll_eq]
    refine eachThread_stays fun t ht => ?_
    obtain ⟨hpass, hno⟩ := hfail t ht
    simp only [lineThread, Ctx.check_fails (lineWant_known 1) hn hpass hno]
  have hbads := badsOf_errors (b := fun t => Bad.of (testCause n) (BitVec.ofNat 64 (c.addr mr t)) 0) (fun _ _ => rfl) (fun _ _ => rfl) hlow
  refine ⟨_, withWord_ready hready _, ?_⟩
  simp only [h0, if_false, whenReady_ready (Ctx.ls_ready hfull htend s), hall, hbads]
  exact guarded_whole hready.1 hs ha h0 _ _ _

end

theorem exec_cwb (dev : Bool) (mr : MemRef) (s : State) : exec (.cwb dev mr) s = lineWord (.cwb dev) mr s := rfl
theorem exec_cinv (mr : MemRef) (s : State) : exec (.cinv mr) s = lineWord .cinv mr s := rfl

/-- Settles O13: the checks are the tests of `Ctx.test` in their order, and threads that fail the same one park together. -/
theorem accessFaultsInOrder : Obligations.AccessFaultsInOrder := by
  unfold Obligations.AccessFaultsInOrder
  refine fun s c i h0 ha hs => ⟨fun m hm hready => ⟨fun hodd => ?_, fun hal hfull htend n hn hfail low hlow => ?_⟩,
    fun mr hi hready hfull htend w hw n hn hfail low hlow => ?_⟩
  · refine ⟨_, (accessOf_run hm s).trans (withWord_ready hready _), ?_⟩
    rw [if_pos (by rw [accessOf_ral hm]; exact hodd)]
    exact faultAll_whole hready.1 hs (ha ▸ h0) 0x01
  · rw [accessOf_run hm s]
    exact MemIns.run_faults hs ha h0 hfull htend (accessOf_known hm) hready (by rw [accessOf_ral hm]; exact hal) hn hfail hlow
  · subst hw
    obtain ⟨dev, rfl⟩ | rfl := hi
    · rw [exec_cwb]
      exact lineWord_faults hs ha h0 hfull htend hready hn hfail hlow
    · rw [exec_cinv]
      exact lineWord_faults hs ha h0 hfull htend hready hn hfail hlow

end Sys2Proof.Machine
end

section
/-! SUPPORT. What a walk finds holds on the whole page (R344), and neither a walk nor what it combines depends on the translations that the
dies hold (R347): an access whose translations are all true finds what a walk finds. -/
namespace Sys2Proof.Machine

/-! ### A leaf serves every address that it covers -/

/-- A leaf of a page of whole 128 KiB units, aligned to its size. -/
def Leaf.aligned (l : Leaf) (va : Nat) : Prop := 0 < l.size ∧ 131072 ∣ l.size ∧ l.vbase = va / l.size * l.size

theorem Leaf.aligned_covers {l : Leaf} {va : Nat} (h : l.aligned va) (v : Nat) : l.covers v = true ↔ v / l.size = va / l.size := by
  obtain ⟨hpos, -, hbase⟩ := h
  rw [Leaf.covers, hbase, Bool.and_eq_true, decide_eq_true_eq, decide_eq_true_eq]
  have h1 : va / l.size * l.size ≤ v ↔ va / l.size ≤ v / l.size := (Nat.le_div_iff_mul_le hpos).symm
  have h2 : v < va / l.size * l.size + l.size ↔ v / l.size < va / l.size + 1 := by
    rw [Nat.div_lt_iff_lt_mul hpos, Nat.add_mul, Nat.one_mul]
  rw [h1, h2]
  omega

/-- The size of a page in 128 KiB units, as its entry gives it. -/
def runOf (sz : Nat) : Nat := [1, 16, 512, 1].getD sz 1

theorem runOf_cases (sz : Nat) : runOf sz = 1 ∨ runOf sz = 16 ∨ runOf sz = 512 := by
  match sz with
  | 0 => exact .inl rfl
  | 1 => exact .inr (.inl rfl)
  | 2 => exact .inr (.inr rfl)
  | 3 => exact .inl rfl
  | n + 4 => exact .inl rfl

/-- What an entry that a walk reads gives for an address (R345). -/
def leafBits (e va : Nat) : Leaf :=
  ⟨va / (131072 * runOf (field e 3 2)) * (131072 * runOf (field e 3 2)), 131072 * runOf (field e 3 2), field e 51 17 * 131072, kindOf (field e 5 4),
    field e 7 7 = 1, field e 8 8 = 1, field e 10 10 = 1, field e 11 11 = 1, none⟩

/-- An entry of the bottom level is malformed. -/
def leafMalformed (e : Nat) : Prop :=
  field e 63 52 ≠ 0 ∨ field e 15 12 ≠ 0 ∨ field e 16 16 ≠ 0 ∨ field e 9 9 ≠ 0 ∨ field e 6 6 ≠ 0 ∨ field e 5 4 = 3 ∨ field e 3 2 = 3
    ∨ field e 1 1 = 0 ∨ field e 51 17 * 131072 % (131072 * runOf (field e 3 2)) ≠ 0

theorem State.leafAt_ok {s : State} {table va : Nat} {l : Leaf} : s.leafAt table va = .ok l ↔
    ∃ b, s.fetch (table + 8 * (va / 131072 % 8192)) 8 = some b ∧ leNat b % 2 ≠ 0 ∧ ¬ leafMalformed (leNat b)
      ∧ (∀ j ∈ span (va / 131072 % 8192 / runOf (field (leNat b) 3 2) * runOf (field (leNat b) 3 2)) (runOf (field (leNat b) 3 2)),
        s.fetch (table + 8 * j) 8 = some b)
      ∧ l = leafBits (leNat b) va := by
  unfold State.leafAt
  dsimp only
  cases hb : s.fetch (table + 8 * (va / 131072 % 8192)) 8 with
  | none => simp
  | some b =>
    simp only [Option.some.injEq, exists_eq_left']
    split
    · next h => simp [h]
    · next h =>
      split
      · next hbad =>
        simp only [reduceCtorEq, false_iff]
        rintro ⟨-, hform, hrun, -⟩
        simp only [Bool.or_eq_true, decide_eq_true_eq, List.any_eq_true] at hbad
        obtain hbad | ⟨j, hj, hne⟩ := hbad
        · exact hform (by simpa only [leafMalformed, runOf, or_assoc] using hbad)
        · exact hne (hrun j hj)
      · next hgood =>
        simp only [Bool.or_eq_true, decide_eq_true_eq, List.any_eq_true, not_or] at hgood
        obtain ⟨hform, hrun⟩ := hgood
        refine ⟨fun heq => ⟨h, ?_, fun j hj => ?_, (Except.ok.inj heq).symm⟩, fun hall => ?_⟩
        · simp only [leafMalformed, not_or]
          simp only [and_assoc] at hform
          exact hform
        · by_contra hne
          exact hrun ⟨j, hj, hne⟩
        · rw [hall.2.2.2]
          rfl

theorem leafBits_aligned (e va : Nat) : (leafBits e va).aligned va := by
  refine ⟨?_, Nat.dvd_mul_right .., rfl⟩
  have := runOf_cases (field e 3 2)
  simp only [leafBits]
  omega

/-- Addresses of one page read entries of one run, and get one leaf. -/
theorem State.leafAt_same {s : State} {table va v : Nat} {l : Leaf} (h : s.leafAt table va = .ok l) (hv : v / l.size = va / l.size) :
    s.leafAt table v = .ok l := by
  obtain ⟨b, hb, hpresent, hform, hrun, rfl⟩ := State.leafAt_ok.1 h
  generalize hr : runOf (field (leNat b) 3 2) = run at hrun
  have hsize : (leafBits (leNat b) va).size = 131072 * run := by rw [← hr]; rfl
  rw [hsize] at hv
  have hcases : run = 1 ∨ run = 16 ∨ run = 512 := hr ▸ runOf_cases _
  have hsame : v / 131072 % 8192 / run * run = va / 131072 % 8192 / run * run := by
    obtain rfl | rfl | rfl := hcases <;> omega
  have hin : v / 131072 % 8192 ∈ span (va / 131072 % 8192 / run * run) run := by
    refine List.mem_map.2 ⟨v / 131072 % 8192 % run, List.mem_range.2 (Nat.mod_lt _ (by omega)), ?_⟩
    rw [← hsame]
    exact Nat.div_add_mod' _ _
  refine State.leafAt_ok.2 ⟨b, hrun _ hin, hpresent, hform, ?_, ?_⟩
  · rw [hr, hsame]
    exact hrun
  · simp only [leafBits, hr, hv]

/-- What a walk finds is the page of the address. -/
theorem State.walk_aligned {s : State} {ctx va : Nat} {l : Leaf} (h : s.walk ctx va = .ok l) :
    l.aligned va ∧ ∀ v, v / l.size = va / l.size → s.walk ctx v = .ok l := by
  unfold State.walk at h ⊢
  split at h
  · nomatch h
  · next e he =>
    split at h
    · next hkv =>
      simp only [State.kvLeaf] at h
      split at h
      · nomatch h
      · next g hg =>
        split at h
        · nomatch h
        · next hown =>
          obtain rfl := Except.ok.inj h
          refine ⟨⟨Nat.zero_lt_succ _, dvd_refl _, rfl⟩, fun v hv => ?_⟩
          simp only at hv ⊢
          simp only [Bool.and_eq_true, decide_eq_true_eq] at hkv
          obtain ⟨⟨hvalid, hlo⟩, hhi⟩ := hkv
          have hin : kvBase e.kvap ≤ v ∧ v < kvBase e.kvap + 2 ^ 49 := by
            simp only [kvBase] at hlo hhi ⊢
            omega
          have hpage : (v - kvBase e.kvap) / 131072 = (va - kvBase e.kvap) / 131072 := by
            simp only [kvBase]
            omega
          have hkv' : (kvapValid e.kvap && decide (kvBase e.kvap ≤ v) && decide (v < kvBase e.kvap + 2 ^ 49)) = true := by
            simp only [Bool.and_eq_true, decide_eq_true_eq]
            exact ⟨⟨hvalid, hin.1⟩, hin.2⟩
          rw [if_pos hkv', State.kvLeaf, hpage, hg]
          simp only [hown, hv]
          rfl
    · next hkv =>
      split at h
      · nomatch h
      · next mid hmid =>
        split at h
        · nomatch h
        · next bot hbot =>
          obtain ⟨b, -, -, -, -, hl⟩ := State.leafAt_ok.1 h
          have hal : l.aligned va := hl ▸ leafBits_aligned _ _
          have hsize : l.size = 131072 ∨ l.size = 2097152 ∨ l.size = 67108864 := by
            have := runOf_cases (field (leNat b) 3 2)
            rw [hl]
            simp only [leafBits]
            omega
          refine ⟨hal, fun v hv => ?_⟩
          have hkv' : ¬ (kvapValid e.kvap && decide (kvBase e.kvap ≤ v) && decide (v < kvBase e.kvap + 2 ^ 49)) = true := by
            simp only [Bool.and_eq_true, decide_eq_true_eq] at hkv ⊢
            simp only [kvBase] at hkv ⊢
            rintro ⟨⟨hvalid, hlo⟩, hhi⟩
            have haper : v / 2 ^ 49 = va / 2 ^ 49 := by obtain hs | hs | hs := hsize <;> rw [hs] at hv <;> omega
            exact hkv ⟨⟨hvalid, by omega⟩, by omega⟩
          have htop : v / 2 ^ 43 = va / 2 ^ 43 := by obtain hs | hs | hs := hsize <;> rw [hs] at hv <;> omega
          have hmid' : v / 2 ^ 30 = va / 2 ^ 30 := by obtain hs | hs | hs := hsize <;> rw [hs] at hv <;> omega
          rw [if_neg hkv', htop, hmid]
          simp only [hmid', hbot]
          exact State.leafAt_same h hv

theorem State.walk_covers {s : State} {ctx va : Nat} {l : Leaf} (h : s.walk ctx va = .ok l) : l.covers va = true :=
  (Leaf.aligned_covers (State.walk_aligned h).1 va).2 rfl

/-- A leaf is what a walk of every address that it covers finds. -/
theorem State.walk_covered {s : State} {ctx va v : Nat} {l : Leaf} (h : s.walk ctx va = .ok l) (hv : l.covers v = true) : s.walk ctx v = .ok l := by
  obtain ⟨hal, hall⟩ := State.walk_aligned h
  exact hall v ((Leaf.aligned_covers hal v).1 hv)

/-! ### Walks and partials do not look at the held translations -/

/-- The state with other dies. -/
def State.withDies (s : State) (d : Map Die) : State := { s with dies := d }

section
variable (s : State) (d : Map Die)

theorem State.unregister_withDies (w : Nat) (b : Bool) : (s.withDies d).unregister w b = (s.unregister w b).withDies d := by
  have e : (s.withDies d).regOwner = s.regOwner := rfl
  unfold State.unregister
  rw [e]
  split
  · rfl
  · cases b <;> rfl

theorem State.put_withDies (pa : Nat) (bs : List Byte) (tag : Bool) : (s.withDies d).put pa bs tag = (s.put pa bs tag).withDies d := by
  unfold State.put
  split_ifs <;> rfl

theorem State.combineCore_withDies (c w : Nat) : (s.withDies d).combineCore c w = (s.combineCore c w).withDies d := by
  have e : (s.withDies d).core c = s.core c := rfl
  unfold State.combineCore
  rw [e]
  split
  · rfl
  · rw [← State.unregister_withDies, ← State.put_withDies]
    rfl

theorem State.combine_withDies (pa n : Nat) : (s.withDies d).combine pa n = (s.combine pa n).withDies d := by
  refine List.foldl_hom (fun s : State => s.withDies d) fun s w => ?_
  refine List.foldl_hom (fun s : State => s.withDies d) fun s c => ?_
  have e (t : State) : (t.withDies d).core c = t.core c := rfl
  dsimp only
  rw [State.combineCore_withDies, e]
  split
  · split_ifs
    · rw [State.combineCore_withDies]
    · rfl
  · rfl

theorem State.fetch_withDies (pa n : Nat) : (s.withDies d).fetch pa n = s.fetch pa n := by
  unfold State.fetch
  rw [State.combine_withDies]
  rfl

theorem State.ctxEntry_withDies (ctx : Nat) : (s.withDies d).ctxEntry ctx = s.ctxEntry ctx := by
  unfold State.ctxEntry
  rw [State.fetch_withDies]
  rfl

theorem State.tableAt_withDies (pa : Nat) : (s.withDies d).tableAt pa = s.tableAt pa := by
  unfold State.tableAt
  rw [State.fetch_withDies]

theorem State.leafAt_withDies (table va : Nat) : (s.withDies d).leafAt table va = s.leafAt table va := by
  unfold State.leafAt
  simp only [State.fetch_withDies]

theorem State.combineWalk_withDies (ctx va : Nat) : (s.withDies d).combineWalk ctx va = (s.combineWalk ctx va).withDies d := by
  have e : (s.withDies d).cores = s.cores := rfl
  have hdev (t : State) : (t.withDies d).dev = t.dev := rfl
  have hbytes (t : State) (pa n : Nat) : (t.withDies d).bytes pa n = t.bytes pa n := rfl
  unfold State.combineWalk
  simp only [e, hdev, hbytes, State.combine_withDies, State.ctxEntry_withDies, State.tableAt_withDies]
  split
  · rfl
  · split
    · rfl
    · split
      · rfl
      · split
        · rfl
        · split <;> rfl

end

/-- State `t` is state `s` but for translations that the dies hold. -/
structure SameButHeld (s t : State) : Prop where
  rest : t = s.withDies t.dies
  dies : ∀ d, t.die d = { s.die d with tlb := (t.die d).tlb }
  locked : t.migLocked = s.migLocked

theorem SameButHeld.refl (s : State) : SameButHeld s s := ⟨rfl, fun _ => rfl, rfl⟩

theorem SameButHeld.trans {s t r : State} (h : SameButHeld s t) (h' : SameButHeld t r) : SameButHeld s r := by
  refine ⟨?_, fun d => ?_, h'.locked.trans h.locked⟩
  · rw [h'.rest, h.rest]
    rfl
  · rw [h'.dies d, h.dies d]

theorem Map.mem_of_look {α : Type} {m : Map α} {n : Nat} {x : α} (h : Map.look m n = some x) : (n, x) ∈ m := by
  induction m with
  | nil => exact absurd h (by simp [Map.look])
  | cons p t ih =>
    obtain ⟨k, v⟩ := p
    rw [Map.look] at h
    split_ifs at h with hk
    · rw [hk, Option.some.inj h]
      exact List.mem_cons_self
    · exact List.mem_cons_of_mem _ (ih h)

/-- A value put in place of one that a test takes alike, or put in where an unlisted key fails the test, changes no answer about the map. -/
theorem Map.any_put {α : Type} {m : Map α} {n : Nat} {x d : α} {p : Nat × α → Bool} (h : p (n, x) = p (n, Map.lookD m n d)) (hd : p (n, d) = false) :
    (Map.put m n x).any p = m.any p := by
  induction m with
  | nil => simpa [Map.put, Map.lookD, Map.look, hd] using h
  | cons q t ih =>
    obtain ⟨k, v⟩ := q
    have hin : (Map.look ((k, v) :: t) n).isSome = true → p (n, Map.lookD ((k, v) :: t) n d) = true → ((k, v) :: t).any p = true := fun hs hp => by
      obtain ⟨y, hy⟩ := Option.isSome_iff_exists.1 hs
      rw [Map.lookD, hy, Option.getD_some] at hp
      exact List.any_eq_true.2 ⟨(n, y), Map.mem_of_look hy, hp⟩
    rw [Map.put]
    split_ifs with hlt heq
    · rw [List.any_cons]
      cases hs : (Map.look ((k, v) :: t) n).isSome with
      | false =>
        rw [Option.isSome_eq_false_iff, Option.isNone_iff_eq_none] at hs
        rw [h, Map.lookD, hs, Option.getD_none, hd, Bool.false_or]
      | true =>
        cases hp : p (n, x) with
        | false => rfl
        | true => rw [hin hs (h ▸ hp)]; rfl
    · subst heq
      rw [Map.lookD, Map.look, if_pos rfl] at h
      rw [List.any_cons, List.any_cons, h]
      rfl
    · rw [Map.lookD, Map.look, if_neg (Ne.symm heq)] at h
      rw [List.any_cons, List.any_cons, ih h]

/-- Holding a translation changes nothing else. -/
theorem SameButHeld.hold (s : State) (die : Nat) (e : List TlbEntry) : SameButHeld s (s.editDie die fun d => { d with tlb := e }) := by
  refine ⟨rfl, fun d => ?_, funext fun pa => Map.any_put (d := Die.reset) rfl ?_⟩
  · rw [State.die_editDie]
    split_ifs with h
    · rw [h]
    · rfl
  · simp [Die.reset]

section
variable {s t : State} (h : SameButHeld s t)
include h

theorem SameButHeld.pageAddr (p : Nat) : t.pageAddr p = s.pageAddr p := by rw [State.pageAddr, State.pageAddr, h.dies]

theorem SameButHeld.walk (ctx va : Nat) : t.walk ctx va = s.walk ctx va := by
  have hkv (e : CtxEntry) : t.kvLeaf e ctx va = s.kvLeaf e ctx va := by
    unfold State.kvLeaf
    simp only [h.pageAddr]
    rw [h.rest]
    rfl
  unfold State.walk
  simp only [hkv]
  rw [h.rest]
  simp only [State.ctxEntry_withDies, State.tableAt_withDies, State.leafAt_withDies]

theorem SameButHeld.inPage : t.inPage = s.inPage := by
  funext p pa
  rw [State.inPage, State.inPage, h.pageAddr]

theorem SameButHeld.pins (p : Nat) : t.pins p = s.pins p := by
  have hpage := h.inPage
  have hin : t.pinsIn = s.pinsIn := by
    funext p o x
    rw [State.pinsIn, State.pinsIn, hpage]
  rw [h.rest] at hpage hin ⊢
  simp only [State.pins, State.pinsOf, hin, hpage]
  rfl

theorem SameButHeld.grants {c : Ctx} {w : Want} {stag : Bool} {va : Nat} {l : Leaf} (hg : c.Grants s w stag va l) : c.Grants t w stag va l := by
  refine ⟨(h.walk _ _).trans hg.walk, hg.rd, hg.wr, hg.tag, fun hw hn => ?_, hg.order⟩
  rw [h.rest]
  exact hg.spec hw hn

/-- The translations held for the fragment stay true when one that a walk finds is added. -/
theorem SameButHeld.heldTrue {c : Ctx} (ht : HeldTrue s c)
    (hnew : ∀ e ∈ (t.die (dieOf c.u.core)).tlb, e ∈ (s.die (dieOf c.u.core)).tlb ∨ ∃ va, s.walk c.l.ctx va = .ok e.leaf) : HeldTrue t c := by
  obtain ⟨hcombine, hheld⟩ := ht
  refine ⟨fun va => ?_, fun e he hctx v hv => ?_⟩
  · rw [h.rest, State.combineWalk_withDies, hcombine]
  · rw [h.walk]
    obtain hold | ⟨va, hwalk⟩ := hnew e he
    · exact hheld e hold hctx v hv
    · exact State.walk_covered hwalk hv

end

/-! ### A translation, where all that is held is true -/

theorem State.heldOther_none {s : State} {c : Ctx} (h : HeldTrue s c) (va : Nat) : s.heldOther (dieOf c.u.core) c.l.ctx va = [] := by
  unfold State.heldOther
  rw [List.filter_eq_nil_iff.2]
  · rfl
  · intro e he hbad
    simp only [Bool.and_eq_true, decide_eq_true_eq] at hbad
    obtain ⟨⟨hctx, hcov⟩, hne⟩ := hbad
    rw [h.2 e he hctx va hcov] at hne
    simp at hne

/-- A translation finds what the walk finds, and holds it. -/
theorem State.xlate_true {s : State} {c : Ctx} (h : HeldTrue s c) {va : Nat} {l : Leaf} (hw : s.walk c.l.ctx va = .ok l) :
    ∃ t, s.xlate c.u.core c.l.ctx va = (t, .ok l) ∧ SameButHeld s t ∧ HeldTrue t c := by
  have hhold : SameButHeld s (s.holdLeaf (dieOf c.u.core) c.l.ctx va) ∧ HeldTrue (s.holdLeaf (dieOf c.u.core) c.l.ctx va) c := by
    simp only [State.holdLeaf, h.1, hw]
    split
    · exact ⟨SameButHeld.refl s, h⟩
    · refine ⟨SameButHeld.hold .., (SameButHeld.hold ..).heldTrue h fun e he => ?_⟩
      rw [State.die_editDie, if_pos rfl] at he
      obtain rfl | he := List.mem_cons.1 he
      · exact .inr ⟨va, hw⟩
      · exact .inl he
  obtain ⟨hsame, htrue⟩ := hhold
  refine ⟨_, ?_, hsame, htrue⟩
  simp only [State.xlate, State.heldOther_none htrue, hsame.walk, hw]

end Sys2Proof.Machine
end

section
/-! SUPPORT. A thread that passes every check of R164 is told where its bytes lie (checks 7 to 9), and what a word that issues an operation
leaves (R32, R43, R299). -/
namespace Sys2Proof.Machine

/-! ### Checks 7 to 9 -/

section
variable {c : Ctx} {s : State} {w : Want} {stag : Bool} {va : Nat}

/-- The state after a check: only held translations have changed, and those that are held are true. -/
def Kept (s : State) (c : Ctx) (t : State) : Prop := SameButHeld s t ∧ HeldTrue t c

theorem Kept.of_held (h : HeldTrue s c) : Kept s c s := ⟨SameButHeld.refl s, h⟩

theorem Ctx.page_grants {l : Leaf} (h : HeldTrue s c) (hg : c.Grants s w stag va l) : ∃ t, c.page s w stag va = (t, .ok l) ∧ Kept s c t := by
  obtain ⟨t, hx, hkept⟩ := State.xlate_true h hg.walk
  refine ⟨t, ?_, hkept⟩
  have hrd : (reads w.kind && !l.rd) = false := by
    cases hr : reads w.kind
    · rfl
    · rw [hg.rd hr]; rfl
  have hwr : (writes w.kind && !l.wr) = false := by
    cases hr : writes w.kind
    · rfl
    · rw [hg.wr hr]; rfl
  have htag : (stag && !l.tag) = false := by
    cases hr : stag
    · rfl
    · rw [hg.tag hr]; rfl
  simp only [Ctx.page, hx, hrd, hwr, htag, Bool.or_self, Bool.false_eq_true, if_false]

theorem Ctx.pageRule_none {spec : Bool} {kinds : List PKind} (hspec : writes w.kind = true → nodeSpec c.w.node = true → spec = true)
    (hkind : w.order = true → .u ∉ kinds) : c.pageRule w spec kinds = none := by
  unfold Ctx.pageRule
  rw [if_neg, if_neg]
  · rw [Bool.and_eq_true, List.contains_iff_mem]
    exact fun h => hkind h.1 h.2
  · rw [Bool.and_eq_true, Bool.and_eq_true, Bool.not_eq_true']
    exact fun h => Bool.false_ne_true (h.2.symm.trans (hspec h.1.1 h.1.2))

/-- A leaf that covers both ends of an access covers all of it. -/
theorem Leaf.covers_span {l : Leaf} {n : Nat} (h : l.covers va = true) (h' : l.covers (va + n - 1) = true) {v : Nat} (hv : v ∈ span va n) :
    l.covers v = true := by
  obtain ⟨i, hi, rfl⟩ := List.mem_map.1 hv
  have hlt := List.mem_range.1 hi
  simp only [Leaf.covers, Bool.and_eq_true, decide_eq_true_eq] at h h' ⊢
  omega

/-- An access to global space whose pages grant it. -/
theorem Ctx.late_global {k : Cap} (h : HeldTrue s c) (hk : k.space = 0) {p q : Leaf} (hp : c.Grants s w stag va p)
    (hq : p.covers (va + w.size - 1) = false → c.Grants s w stag (va + w.size - 1) q)
    (hbead : ∀ v ∈ span va w.size, s.ringBead ((if p.covers v then p else q).pa v) = none) :
    ∃ t, c.late s w k stag va = (t, .ok ((span va w.size).map fun v =>
      .phys ((if p.covers v then p else q).pa v) (if p.covers v then p else q).kind c.l.ctx v (if p.covers v then p else q).use)) ∧ Kept s c t := by
  obtain ⟨s1, hpage, hsame, htrue⟩ := Ctx.page_grants h hp
  have hlate (r : Leaf) (t : State) (hrg : ∃ v, c.Grants s w stag v r) (hts : SameButHeld s t)
      (hr : ∀ v ∈ span va w.size, (if p.covers v then p else r) = if p.covers v then p else q)
      (h2 : (if p.covers (va + w.size - 1) then (s1, .ok p) else c.page s1 w stag (va + w.size - 1)) = ((t, .ok r) : State × Except Bad Leaf)) :
      c.late s w k stag va = (t, .ok ((span va w.size).map fun v =>
        .phys ((if p.covers v then p else q).pa v) (if p.covers v then p else q).kind c.l.ctx v (if p.covers v then p else q).use)) := by
    obtain ⟨v, hrg⟩ := hrg
    have hrule : c.pageRule w (t.specPage c.w.node p && t.specPage c.w.node r) [p.kind, r.kind] = none := by
      refine Ctx.pageRule_none (fun hw hn => ?_) fun ho hu => ?_
      · rw [hts.rest]
        exact Bool.and_eq_true_iff.2 ⟨hp.spec hw hn, hrg.spec hw hn⟩
      · obtain e | e := (by simpa using hu : PKind.u = p.kind ∨ PKind.u = r.kind)
        · exact hp.order ho e.symm
        · exact hrg.order ho e.symm
    have hfree : ((span va w.size).map fun v => (if p.covers v then p else r).pa v).findSome? t.ringBead = none := by
      refine List.findSome?_eq_none_iff.2 fun x hx => ?_
      obtain ⟨v, hv, rfl⟩ := List.mem_map.1 hx
      rw [hr v hv, hts.rest]
      exact hbead v hv
    have hlocs : (span va w.size).map (fun v => ByteLoc.phys ((if p.covers v then p else r).pa v) (if p.covers v then p else r).kind c.l.ctx v
          (if p.covers v then p else r).use)
        = (span va w.size).map fun v => .phys ((if p.covers v then p else q).pa v) (if p.covers v then p else q).kind c.l.ctx v
          (if p.covers v then p else q).use := List.map_congr_left fun v hv => by rw [hr v hv]
    simp only [Ctx.late, hk, Nat.zero_ne_one, show ¬ (0 : Nat) = 2 by decide, show ¬ (0 : Nat) = 4 by decide, show ¬ (0 : Nat) = 3 by decide, or_self, if_false,
      hpage, h2, hrule, hfree]
    rw [← hlocs]
  cases hcov : p.covers (va + w.size - 1) with
  | true =>
    refine ⟨s1, hlate p s1 ⟨va, hp⟩ hsame (fun v hv => ?_) (by rw [hcov]; rfl), hsame, htrue⟩
    rw [Leaf.covers_span (State.walk_covers hp.walk) hcov hv]
    rfl
  | false =>
    obtain ⟨s2, hpage2, hsame2, htrue2⟩ := Ctx.page_grants htrue (hsame.grants (hq hcov))
    exact ⟨s2, hlate q s2 ⟨_, hq hcov⟩ (hsame.trans hsame2) (fun v hv => rfl) (by rw [hcov]; exact hpage2), hsame.trans hsame2, htrue2⟩

/-- Where a thread's checks 7 to 9 pass, its bytes lie where `Ctx.Lies` says. -/
theorem Ctx.late_lies {mr : MemRef} {t : Nat} {l : List ByteLoc} (h : HeldTrue s c) (hsp : (c.cap mr.c t).space ≤ 4) (hl : c.Lies s w mr stag t l) :
    ∃ s', c.late s w (c.cap mr.c t) stag (c.addr mr t) = (s', .ok l) ∧ Kept s c s' := by
  obtain ⟨hscr, hhost, hpeer, hglob⟩ := hl
  generalize hk : c.cap mr.c t = k at *
  by_cases h12 : k.space = 1 ∨ k.space = 2
  · exact ⟨s, by rw [Ctx.late, if_pos h12, hscr h12], Kept.of_held h⟩
  by_cases h4 : k.space = 4
  · obtain ⟨hspec, rfl⟩ := hhost h4
    have hrule : c.pageRule w false [] = none :=
      Ctx.pageRule_none (fun hw hn => absurd ((hspec hw).symm.trans hn) Bool.false_ne_true) fun _ hu => absurd hu List.not_mem_nil
    exact ⟨s, by rw [Ctx.late, if_neg h12, if_pos h4, hrule], Kept.of_held h⟩
  by_cases h3 : k.space = 3
  · obtain ⟨e, x, hexp, hfind, hperm, hpages, rfl⟩ := hpeer h3
    have hrule : c.pageRule w (((span (c.addr mr t % 2 ^ 45) w.size).map (· / 131072)).all fun p => Config.peerSpec (c.addr mr t / 2 ^ 45) x.tctx p)
        (((span (c.addr mr t % 2 ^ 45) w.size).map (· / 131072)).map fun p => Config.peerKind (c.addr mr t / 2 ^ 45) x.tctx p) = none := by
      refine Ctx.pageRule_none (fun hw hn => ?_) fun ho hu => ?_
      · rw [List.all_map, List.all_eq_true]
        exact fun v hv => (hpages v hv).1 hw hn
      · rw [List.map_map] at hu
        obtain ⟨v, hv, hkind⟩ := List.mem_map.1 hu
        exact (hpages v hv).2 ho hkind
    refine ⟨s, ?_, Kept.of_held h⟩
    rw [Ctx.late, if_neg h12, if_neg h4, if_pos h3, Ctx.latePeer]
    simp only [State.exportsOf, hexp, hfind, hperm, ne_eq, not_true_eq_false, if_false, hrule]
  · have h0 : k.space = 0 := by omega
    obtain ⟨p, q, hp, hq, hbead, rfl⟩ := hglob h0
    exact Ctx.late_global h h0 hp hq hbead

theorem Ctx.Lies.length {mr : MemRef} {t : Nat} {l : List ByteLoc} (hsp : (c.cap mr.c t).space ≤ 4) (hl : c.Lies s w mr stag t l) :
    l.length = w.size := by
  obtain ⟨hscr, hhost, hpeer, hglob⟩ := hl
  have hspan {α : Type} (a n : Nat) (g : Nat → α) : ((span a n).map g).length = n := by simp [span]
  obtain h | h | h | h : (c.cap mr.c t).space = 0 ∨ ((c.cap mr.c t).space = 1 ∨ (c.cap mr.c t).space = 2) ∨ (c.cap mr.c t).space = 3
      ∨ (c.cap mr.c t).space = 4 := by omega
  · obtain ⟨p, q, -, -, -, rfl⟩ := hglob h
    exact hspan ..
  · rw [hscr h]
    exact hspan ..
  · obtain ⟨e, x, -, -, -, -, rfl⟩ := hpeer h
    exact hspan ..
  · rw [(hhost h).2]
    exact hspan ..

theorem SameButHeld.test {t : State} (h : SameButHeld s t) (w : Want) (mr : MemRef) (stag : Bool) (x n : Nat) :
    c.test t w mr stag x n = c.test s w mr stag x n := by
  rw [h.rest]
  rfl

theorem SameButHeld.lies {t : State} (h : SameButHeld s t) {mr : MemRef} {x : Nat} {l : List ByteLoc} (hl : c.Lies s w mr stag x l) :
    c.Lies t w mr stag x l := by
  obtain ⟨hscr, hhost, hpeer, hglob⟩ := hl
  refine ⟨hscr, hhost, fun h3 => ?_, fun h0 => ?_⟩
  · obtain ⟨e, y, hexp, hrest⟩ := hpeer h3
    refine ⟨e, y, ?_, hrest⟩
    rw [h.dies]
    exact hexp
  · obtain ⟨p, q, hp, hq, hbead, hrest⟩ := hglob h0
    refine ⟨p, q, h.grants hp, fun hcov => h.grants (hq hcov), ?_, hrest⟩
    rw [h.rest]
    exact hbead

theorem test_space {mr : MemRef} {t : Nat} (hw : w.known) (hpass : ∀ n < 7, c.test s w mr stag t n) : (c.cap mr.c t).space ≤ 4 :=
  (hw _ (hpass 1 (by decide)).1).1

/-- A thread that passes every check is told where its bytes lie. -/
theorem Ctx.check_lies {mr : MemRef} {t : Nat} {l : List ByteLoc} (hw : w.known) {s0 : State} (hk : Kept s0 c s)
    (hpass : ∀ n < 7, c.test s0 w mr stag t n) (hl : c.Lies s0 w mr stag t l) :
    ∃ s', c.check s w (c.rdC mr.c t) (c.capTag mr.c t) stag (c.addr mr t) = (s', .ok l) ∧ Kept s0 c s' := by
  obtain ⟨hsame, htrue⟩ := hk
  have hearly := Ctx.early_passes (s := s) hw fun n hn => by rw [hsame.test]; exact hpass n hn
  obtain ⟨s', hlate, hsame', htrue'⟩ := Ctx.late_lies htrue (test_space hw hpass) (hsame.lies hl)
  refine ⟨s', ?_, hsame.trans hsame', htrue'⟩
  simp only [Ctx.cap] at hearly hlate
  simp only [Ctx.check, hearly, hlate]

end

/-! ### Issue -/

/-- The warp after DOOM of some threads and a long-latency word of `n` words. -/
def Warp.doomIssue (w : Warp) (c : Ctx) (m : Mask) (n : Nat) : Warp :=
  ((w.editTxs (fun _ x => x.doom 6#4) (threads m)).editFrag c.f.fidx Frag.passLl).editFrag c.f.fidx fun x => x.nextWord n

/-- Putting an operation in flight and dooming threads touch different parts of the unit. -/
theorem State.putOp_accessDoom (s : State) (c : Ctx) (m : Mask) (path : Option PathId) (flag : Option Nat) (mask : Mask) (kind : OpKind) (items : List Item)
    (dst : Option Dst) (pd : Option PredReg) :
    (s.accessDoom c m).putOp c path flag mask kind items dst pd = (s.putOp c path flag mask kind items dst pd).accessDoom c m := by
  refine (List.foldl_hom (fun s : State => s.putOp c path flag mask kind items dst pd) fun s t => ?_).symm
  have hswap (s : State) (f : KUnit → KUnit) (g : CoreSt → CoreSt) :
      ((s.editUnit c.f.unit f).editCore c.u.core g).editWarp c.f.unit c.f.warp (fun x => x.setTx t ((x.tx t).doom 6#4)) =
        (s.editUnit c.f.unit fun u => (f u).editWarp c.f.warp fun x => x.setTx t ((x.tx t).doom 6#4)).editCore c.u.core g :=
    congrArg (·.editCore c.u.core g) (State.editUnit_editUnit s c.f.unit f _)
  simp only [State.putOp, State.doomThread, hswap, State.core_editWarp]
  rw [State.editWarp, State.editUnit_editUnit]
  rfl

/-- Dooming threads and then changing their warp is one change of the warp. -/
theorem State.accessDoom_editWarp (s : State) (c : Ctx) (m : Mask) (g : Warp → Warp) :
    (s.accessDoom c m).editWarp c.f.unit c.f.warp g =
      s.editWarp c.f.unit c.f.warp fun w => g (w.editTxs (fun _ x => x.doom 6#4) (threads m)) := by
  unfold State.accessDoom
  induction threads m generalizing s with
  | nil => rfl
  | cons t ts ih =>
    rw [List.foldl_cons, ih, State.doomThread, State.editWarp_editWarp]
    rfl

theorem State.issue_retire (s : State) (c : Ctx) (m : Mask) (path : Option PathId) (kind : OpKind) (items : List Item) (dst : Option Dst)
    (pd : Option PredReg) (n k : Nat) : ((s.accessDoom c m).issue c path c.act kind items dst pd).retire c n false k =
      ((s.putOp c path c.fr.flag c.act kind items dst pd).editWarp c.f.unit c.f.warp fun w => w.doomIssue c m n).editCore c.u.core
        fun x => x.count false k := by
  rw [State.retire_eq, State.issue, State.putOp_accessDoom, State.editFrag_eq, State.accessDoom_editWarp, State.editWarp_editWarp]
  rfl

/-- State `t` is state `s` but for held translations and packet numbers. -/
structure SameButNumbers (s t : State) : Prop where
  rest : t = { s with dies := t.dies, peerSeq := t.peerSeq }
  dies : ∀ d, t.die d = { s.die d with tlb := (t.die d).tlb }

theorem SameButHeld.numbers {s t : State} (h : SameButHeld s t) (m : Map Nat) : SameButNumbers s { t with peerSeq := m } :=
  ⟨by rw [h.rest]; rfl, h.dies⟩

/-- What a word leaves that puts an operation in flight and dooms some of its threads. -/
theorem issued_dooms {s t : State} {c : Ctx} (h : s.ctx? = some c) (ht : SameButNumbers s t) (m : Mask) (path : Option PathId) (kind : OpKind)
    (items : List Item) (dst : Option Dst) (pd : Option PredReg) (n k : Nat) :
    Issued s (((t.accessDoom c m).issue c path c.act kind items dst pd).retire c n false k) c n (c.newOp s path kind items dst pd)
      (c.w.editTxs (fun _ x => x.doom 6#4) (threads m)) := by
  obtain ⟨-, hu, hw, -, hf⟩ := State.ctx?_some h
  obtain ⟨hrest, hdies⟩ := ht
  have hfrags : (c.w.editTxs (fun _ x => x.doom 6#4) (threads m)).frags = c.w.frags := by rw [Warp.editTxs_rest]
  have hcore (j : Nat) : t.core j = s.core j := by rw [hrest]; rfl
  have hunit (j : Nat) : t.unit? j = s.unit? j := by rw [hrest]; rfl
  rw [State.issue_retire]
  have hunit' (j : Nat) : (((t.putOp c path c.fr.flag c.act kind items dst pd).editWarp c.f.unit c.f.warp fun w => w.doomIssue c m n).editCore
      c.u.core fun x => x.count false k).unit? j = if j = c.f.unit then
        some { c.u with
          warps := Map.edit c.u.warps c.f.warp fun w => w.doomIssue c m n, nextOp := c.u.nextOp + 1
          ops := c.u.ops ++ [c.newOp s path kind items dst pd] } else s.unit? j := by
    simp only [State.unit?_editCore, State.editWarp, State.unit?_editUnit, State.putOp, hunit, hcore]
    split_ifs with e
    · rw [hu]
      rfl
    · rfl
  have hcore' (j : Nat) : (((t.putOp c path c.fr.flag c.act kind items dst pd).editWarp c.f.unit c.f.warp fun w => w.doomIssue c m n).editCore
      c.u.core fun x => x.count false k).core j =
        if j = c.u.core then ({ s.core c.u.core with stamp := (s.core c.u.core).stamp + 1 } : CoreSt).count false k else s.core j := by
    simp only [State.core_editCore, State.core_editWarp, State.putOp, State.core_editUnit, hcore]
    split_ifs <;> rfl
  refine ⟨?_, hdies, fun j hj => ?_, ?_, fun j hj => ?_, ?_, ?_⟩
  · rw [hrest]
    rfl
  · rw [hcore', if_neg hj]
  · rw [hcore', if_pos rfl]
    rfl
  · rw [hunit', if_neg hj]
  · exact ⟨_, (hunit' _).trans (if_pos rfl), fun w hne => Map.look_edit_ne _ _ hne⟩
  · refine ⟨(c.w.doomIssue c m n).frags, ?_, fun i hne => ?_, ?_⟩
    · rw [State.warp?, hunit', if_pos rfl, Option.bind_some, Map.look_edit_self, hw]
      rfl
    · simp only [Warp.doomIssue, Warp.editFrag, Map.look_edit_ne _ _ hne]
    · simp only [Warp.doomIssue, Warp.editFrag, Map.look_edit_self, hfrags, hf]
      rfl

/-- What a word leaves that puts an operation in flight. -/
theorem issued {s t : State} {c : Ctx} (h : s.ctx? = some c) (ht : SameButNumbers s t) (path : Option PathId) (kind : OpKind)
    (items : List Item) (dst : Option Dst) (pd : Option PredReg) (n k : Nat) :
    Issued s ((t.issue c path c.act kind items dst pd).retire c n false k) c n (c.newOp s path kind items dst pd) c.w := by
  have hi := issued_dooms h ht 0#32 path kind items dst pd n k
  simp only [State.accessDoom, threads_zero] at hi
  exact hi

/-- A long-latency word with no active thread passes. -/
theorem skipLl_becomes {s : State} {c : Ctx} (h : s.ctx? = some c) (n : Nat) : Becomes s (s.skipLl c n) c c.w (c.fr.passed n) :=
  becomes_frag_retire h Frag.passLl n false 1

/-- What the doomed threads' transactions become. -/
theorem Warp.doomed_tx (w : Warp) (m : Mask) {u : Nat} (hu : u < 32) : (w.editTxs (fun _ x => x.doom 6#4) (threads m)).tx u =
    if m.getLsbD u && (w.tx u).st = .opened then { w.tx u with st := .doomed, code := 6#4 } else w.tx u := by
  rw [Warp.editTxs_threads _ _ _ hu]
  unfold Txn.doom
  by_cases hm : m.getLsbD u = true <;> by_cases ho : (w.tx u).st = .opened <;> simp [hm, ho]

end Sys2Proof.Machine
end

section
/-! SUPPORT. The parts of a memory word whose threads pass every check (R163, R166), and what it waits for (O12). -/
namespace Sys2Proof.Machine

/-! ### The parts of one thread -/

section
variable {w : Want} {t a : Nat} {locs : List ByteLoc} {data : BitVec 128} {cmp : Word64} {tag ctag tx : Bool}

theorem itemsOf_thread {i : Item} (h : i ∈ itemsOf w t a locs data cmp tag ctag tx) : i.thread = t ∧ i.tx = tx := by
  unfold itemsOf at h
  split at h
  · obtain rfl := List.mem_singleton.1 h
    exact ⟨rfl, rfl⟩
  · obtain ⟨j, -, rfl⟩ := List.mem_map.1 h
    exact ⟨rfl, rfl⟩

theorem itemsOf_ne_nil (hw : 0 < w.size) : itemsOf w t a locs data cmp tag ctag tx ≠ [] := by
  unfold itemsOf
  split
  · exact List.cons_ne_nil _ _
  · simp only [ne_eq, List.map_eq_nil_iff, List.range_eq_nil]
    omega

theorem itemsOf_any (hw : 0 < w.size) (p : Nat → Bool → Bool) :
    (itemsOf w t a locs data cmp tag ctag tx).any (fun i => p i.thread i.tx) = p t tx := by
  obtain ⟨i, is, he⟩ := List.exists_cons_of_ne_nil (itemsOf_ne_nil (t := t) (a := a) (locs := locs) (data := data) (cmp := cmp) (tag := tag)
    (ctag := ctag) (tx := tx) hw)
  have hall {j : Item} (hj : j ∈ itemsOf w t a locs data cmp tag ctag tx) : p j.thread j.tx = p t tx := by
    obtain ⟨hth, htx⟩ := itemsOf_thread hj
    rw [hth, htx]
  rw [Bool.eq_iff_iff, List.any_eq_true]
  constructor
  · rintro ⟨j, hj, hp⟩
    rwa [hall hj] at hp
  · intro hp
    have hi : i ∈ itemsOf w t a locs data cmp tag ctag tx := he ▸ List.mem_cons_self
    exact ⟨i, hi, (hall hi).trans hp⟩

/-- Whether a byte lies in memory at an address with a property. -/
def ByteLoc.physAt (q : Nat → Bool) : ByteLoc → Bool
  | .phys pa _ _ _ _ => q pa
  | _ => false

theorem Item.pas_any (i : Item) (q : Nat → Bool) : i.pas.any q = i.locs.any (ByteLoc.physAt q) := by
  unfold Item.pas
  induction i.locs with
  | nil => rfl
  | cons b l ih => cases b <;> simp [ByteLoc.physAt, ih]

/-- The parts of an access lie where the access does. -/
theorem itemsOf_pas_any (hlen : locs.length = w.size) (q : Nat → Bool) :
    ((itemsOf w t a locs data cmp tag ctag tx).flatMap Item.pas).any q = locs.any (ByteLoc.physAt q) := by
  rw [List.any_flatMap]
  simp only [Item.pas_any]
  unfold itemsOf
  split
  · simp
  · rw [List.any_map, Bool.eq_iff_iff, List.any_eq_true, List.any_eq_true]
    constructor
    · rintro ⟨i, -, hi⟩
      obtain ⟨b, hb, hq⟩ := List.any_eq_true.1 hi
      exact ⟨b, List.mem_of_mem_drop (List.mem_of_mem_take hb), hq⟩
    · rintro ⟨b, hb, hq⟩
      obtain ⟨i, hi, rfl⟩ := List.mem_iff_getElem.1 hb
      refine ⟨i, List.mem_range.2 (hlen ▸ hi), List.any_eq_true.2 ⟨locs[i], ?_, hq⟩⟩
      show locs[i] ∈ (locs.drop i).take 1
      rw [List.drop_eq_getElem_cons hi]
      exact List.mem_cons_self

end

/-! ### The parts of all threads -/

/-- The parts of one thread among those of several. -/
theorem filter_thread_flatMap {its : Nat → List Item} (hth : ∀ u, ∀ i ∈ its u, i.thread = u) {ts : List Nat} (hnd : ts.Nodup) {t : Nat} (ht : t ∈ ts) :
    (ts.flatMap its).filter (fun i => i.thread = t) = its t := by
  have hfilter (u : Nat) : (its u).filter (fun i => i.thread = t) = if u = t then its u else [] := by
    split_ifs with e
    · exact List.filter_eq_self.2 fun i hi => decide_eq_true ((hth u i hi).trans e)
    · exact List.filter_eq_nil_iff.2 fun i hi he => e ((hth u i hi).symm.trans (of_decide_eq_true he))
  induction ts with
  | nil => exact absurd ht List.not_mem_nil
  | cons u ts ih =>
    obtain ⟨hnot, hnd⟩ := List.nodup_cons.1 hnd
    rw [List.flatMap_cons, List.filter_append, hfilter]
    by_cases e : u = t
    · subst e
      have hrest : (ts.flatMap its).filter (fun i => i.thread = u) = [] := by
        refine List.filter_eq_nil_iff.2 fun i hi he => ?_
        obtain ⟨v, hv, hi⟩ := List.mem_flatMap.1 hi
        exact hnot ((hth v i hi).symm.trans (of_decide_eq_true he) ▸ hv)
      rw [if_pos rfl, hrest, List.append_nil]
    · rw [if_neg e, List.nil_append]
      exact ih hnd ((List.mem_cons.1 ht).resolve_left (Ne.symm e))

theorem itemsIn_oks {m : Mask} (its : Nat → List Item) : itemsIn m ((threads m).map fun t => (t, .ok (its t))) = (threads m).flatMap its := by
  rw [itemsIn, List.flatMap_map]
  exact List.flatMap_congr fun t ht => if_pos (mem_threads.1 ht).2

theorem badsOf_oks {m : Mask} (its : Nat → List Item) : badsOf m ((threads m).map fun t => (t, .ok (its t))) = [] :=
  groupBads_none fun t ht => by rw [Map.look_map_self _ ht]

/-- Numbering the packets keeps what a part is but for the numbers in its bytes. -/
theorem State.numberPeers_any (s : State) (d : Nat) (items : List Item) (p : Nat → Bool → Bool) :
    ((s.numberPeers d items).2.any fun i => p i.thread i.tx) = items.any fun i => p i.thread i.tx := by
  simp only [State.numberPeers]
  rw [List.any_map]
  congr 1
  funext i
  simp only [Function.comp_apply]
  split <;> rfl

/-! ### What the word waits for -/

/-- Room for the packets and the pins of an access (R366, R404). -/
def State.roomFor (s : State) (c : Ctx) (items : List Item) (l : Nat → List ByteLoc) : Prop :=
  (∀ p ∈ peersOf items, (s.unacked (dieOf c.u.core) p.1).length + p.2 ≤ 256)
    ∧ ∀ p ∈ Map.keys s.pages,
      let k := ((threads c.act).filter fun t => (l t).any (ByteLoc.physAt (s.inPage p))).length
      k = 0 ∨ s.pins p + k ≤ 65535

section
variable {s : State} {c : Ctx} {items : List Item} {l : Nat → List ByteLoc} (hroom : s.roomFor c items l) {t : State} (h : SameButHeld s t)
  {each : Nat → List Nat} (heach : ∀ x ∈ threads c.act, ∀ q : Nat → Bool, (each x).any q = (l x).any (ByteLoc.physAt q))
include hroom h heach

theorem SameButHeld.pinNeeds_met : t.ready c (t.pinNeeds ((threads c.act).map each)) = true := by
  refine List.all_eq_true.2 fun n hn => ?_
  obtain ⟨p, hp, hsome⟩ := List.mem_filterMap.1 hn
  have hpages : t.pages = s.pages := by rw [h.rest]; rfl
  have hcount : (((threads c.act).map each).filter fun x => x.any (t.inPage p)).length
      = ((threads c.act).filter fun x => (l x).any (ByteLoc.physAt (s.inPage p))).length := by
    rw [List.filter_map, List.length_map, h.inPage]
    exact congrArg List.length (List.filter_congr fun x hx => heach x hx _)
  simp only [hcount] at hsome
  split at hsome
  · nomatch hsome
  · next hk =>
    obtain rfl := Option.some.inj hsome
    exact decide_eq_true (h.pins p ▸ (hroom.2 p (hpages ▸ hp)).resolve_left hk)

theorem SameButHeld.access_ready :
    t.ready c (((peersOf items).map fun p => .window p.1 p.2) ++ t.pinNeeds ((threads c.act).map each)) = true := by
  refine State.ready_append (List.all_eq_true.2 fun n hn => ?_) (h.pinNeeds_met hroom heach)
  obtain ⟨p, hp, rfl⟩ := List.mem_map.1 hn
  have hunacked : t.unacked (dieOf c.u.core) p.1 = s.unacked (dieOf c.u.core) p.1 := by rw [h.rest]; rfl
  exact decide_eq_true (by rw [hunacked]; exact hroom.1 p hp)

end

/-! ### The word -/

/-- The parts of a thread that passes every check, where its bytes lie at `l`. -/
def MemIns.parts (m : MemIns) (c : Ctx) (l : Nat → List ByteLoc) (t : Nat) : List Item :=
  itemsOf m.want t (c.addr m.mr t) (l t) (m.data c t) (m.cmp c t) (m.stag c t) (m.want.kind = .loadCap && (c.cap m.mr.c t).has 5 && (l t).all (·.tags))
    ((c.isOpen t && txAccess m.want (l t)) || (c.isDoomed t && isStore m.want.kind))

/-- The threads that a word dooms: Open, and its access not transactional (R186). -/
def MemIns.dooms (m : MemIns) (c : Ctx) (l : Nat → List ByteLoc) : Mask :=
  maskOf fun t => c.act.getLsbD t && !(txAccess m.want (l t)) && c.isOpen t

theorem MemIns.run_idle {m : MemIns} {s : State} {c : Ctx} (h : Ready s c (⟨m.reg.toNat, m.regs, 1⟩ :: memOpn m.mr) [])
    (hal : m.reg.toNat % m.ral = 0) (h0 : c.act = 0#32) : ∃ t, m.run s = .next t ∧ Becomes s t c c.w (c.fr.passed (memWords m.mr)) := by
  refine ⟨_, withWord_ready h _, ?_⟩
  rw [if_neg (not_not.2 hal), if_pos h0]
  exact skipLl_becomes h.1 _

theorem MemIns.dooms_eq (m : MemIns) (s : State) (c : Ctx) (l : Nat → List ByteLoc) (hsize : 0 < m.want.size) (d : Nat) : (maskOf fun t => (s.numberPeers d ((threads c.act).flatMap (m.parts c l))).2.any fun i =>
    i.thread = t && !i.tx && c.isOpen t) = m.dooms c l := by
  refine congrArg maskOf (funext fun t => ?_)
  rw [State.numberPeers_any s d _ fun x tx => x = t && !tx && c.isOpen t, List.any_flatMap]
  have hone (x : Nat) := itemsOf_any (t := x) (a := c.addr m.mr x) (locs := l x) (data := m.data c x) (cmp := m.cmp c x) (tag := m.stag c x)
    (ctag := (m.want.kind = .loadCap && (c.cap m.mr.c x).has 5 && (l x).all (·.tags)))
    (tx := (c.isOpen x && txAccess m.want (l x)) || (c.isDoomed x && isStore m.want.kind)) hsize fun x tx => x = t && !tx && c.isOpen t
  simp only [MemIns.parts, hone]
  rw [Bool.eq_iff_iff, List.any_eq_true]
  simp only [Bool.and_eq_true, decide_eq_true_eq, Bool.not_eq_true']
  have hact : t ∈ threads c.act ↔ c.act.getLsbD t = true := by
    rw [mem_threads]
    exact ⟨fun h => h.2, fun h => ⟨BitVec.lt_of_getLsbD h, h⟩⟩
  constructor
  · rintro ⟨x, hx, ⟨rfl, htx⟩, hopen⟩
    rw [hopen, Bool.true_and, Bool.or_eq_false_iff] at htx
    exact ⟨⟨hact.1 hx, htx.1⟩, hopen⟩
  · rintro ⟨⟨hb, htx⟩, hopen⟩
    have hnot : c.isDoomed t = false := by
      rw [Ctx.isOpen, decide_eq_true_eq] at hopen
      rw [Ctx.isDoomed, hopen]
      rfl
    exact ⟨t, hact.2 hb, ⟨rfl, by rw [htx, hnot]; simp⟩, hopen⟩

section
variable {m : MemIns} {s : State} {c : Ctx} {l : Nat → List ByteLoc} (hm : m.want.known) (hsize : 0 < m.want.size)
  (hpass : ∀ t ∈ threads c.act, (∀ n < 7, c.test s m.want m.mr (m.stag c t) t n) ∧ c.Lies s m.want m.mr (m.stag c t) t (l t))
include hm hpass

/-- Every active thread passes: its parts, and the state after the checks. -/
theorem MemIns.all_passes (htrue : HeldTrue s c) :
    ∃ t, m.all c s (threads c.act) = (t, (threads c.act).map fun x => (x, .ok (m.parts c l x))) ∧ SameButHeld s t := by
  obtain ⟨hkept, hall⟩ := eachThread_keeps (f := m.thread c) (r := fun x => .ok (m.parts c l x)) (p := Kept s c) (ts := threads c.act)
    (fun t ht x hx => by
      obtain ⟨htest, hlies⟩ := hpass x hx
      obtain ⟨t', hcheck, hkept⟩ := Ctx.check_lies hm ht htest hlies
      simp only [MemIns.thread, hcheck]
      exact ⟨hkept, rfl⟩) (Kept.of_held htrue)
  rw [MemIns.all_eq]
  exact ⟨_, Prod.ext rfl hall, hkept.1⟩

include hsize

theorem MemIns.run_issues (htrue : HeldTrue s c) (h : Ready s c (⟨m.reg.toNat, m.regs, 1⟩ :: memOpn m.mr) []) (hal : m.reg.toNat % m.ral = 0)
    (h0 : c.act ≠ 0#32) (hfull : c.full (some .ls) = false) (htend : c.tendPending = false)
    (hroom : s.roomFor c ((threads c.act).flatMap (m.parts c l)) l) :
    ∃ t, m.run s = .next t ∧ Issued s t c (memWords m.mr)
      (c.newOp s (some .ls) (.mem m.acq m.rel) (s.numberPeers (dieOf c.u.core) ((threads c.act).flatMap (m.parts c l))).2 (m.dst c) none)
      (c.w.editTxs (fun _ x => x.doom 6#4) (threads (m.dooms c l))) := by
  obtain ⟨t, hall, hsame⟩ := MemIns.all_passes hm hpass htrue
  have heach : ∀ x ∈ threads c.act, ∀ q : Nat → Bool,
      ((((threads c.act).flatMap (m.parts c l)).filter fun i => i.thread = x).flatMap Item.pas).any q = (l x).any (ByteLoc.physAt q) := by
    intro x hx q
    obtain ⟨htest, hlies⟩ := hpass x hx
    rw [filter_thread_flatMap (its := m.parts c l) (fun u i hi => (itemsOf_thread hi).1) (threads_nodup _) hx]
    exact itemsOf_pas_any (hlies.length (test_space hm htest)) q
  have hnum : (t.numberPeers (dieOf c.u.core) ((threads c.act).flatMap (m.parts c l))).2
      = (s.numberPeers (dieOf c.u.core) ((threads c.act).flatMap (m.parts c l))).2 := by rw [hsame.rest]; rfl
  refine ⟨_, withWord_ready h _, ?_⟩
  simp only [hal, ne_eq, not_true_eq_false, if_false, h0, whenReady_ready (Ctx.ls_ready hfull htend s), hall, itemsIn_oks,
    whenReady_ready (hsame.access_ready hroom heach), badsOf_oks, MemIns.go, MemIns.dooms_eq m s c l hsize, hnum]
  exact issued_dooms h.1 (hsame.numbers _) ..

end

/-- Settles O12: with no active thread the word passes; else each thread's checks tell where its bytes lie, and the word puts its parts in
flight. -/
theorem memoryWordsIssue : Obligations.MemoryWordsIssue := by
  unfold Obligations.MemoryWordsIssue
  intro s c i m hm h hodd
  have hal : m.reg.toNat % m.ral = 0 := (accessOf_ral hm).symm ▸ hodd
  rw [accessOf_run hm s]
  refine ⟨MemIns.run_idle h hal, fun l h0 hfull htend htrue hpass items hitems hwin hpin => ?_⟩
  obtain rfl : items = (threads c.act).flatMap (m.parts c l) := hitems
  have hroom : s.roomFor c ((threads c.act).flatMap (m.parts c l)) l := ⟨hwin, fun p hp => hpin p hp _ rfl⟩
  obtain ⟨t, hrun, hissued⟩ := MemIns.run_issues (accessOf_known hm) (accessOf_size_pos hm) hpass htrue h hal h0 hfull htend hroom
  refine ⟨t, _, hrun, hissued, Warp.editTxs_rest .., fun u hu => ?_⟩
  rw [Warp.doomed_tx _ _ hu, MemIns.dooms, maskOf_getLsbD _ hu, Ctx.isOpen]
  cases c.act.getLsbD u <;> cases txAccess m.want (l u) <;> simp

end Sys2Proof.Machine
end

section
/-! SUPPORT. The line operations PREF, CWB and CINV (R164, R173): their issue and their completion (O14). -/
namespace Sys2Proof.Machine

/-! ### Issue -/

/-- The part of one thread of a line operation, whose byte lies at `l`. -/
def linePart (c : Ctx) (mr : MemRef) (l : Nat → List ByteLoc) (t : Nat) : Item :=
  ⟨t, c.addr mr t, 0, l t, .load, 0#128, false, 0#64, false, false, true⟩

theorem SameButHeld.numbered {s t : State} (h : SameButHeld s t) : SameButNumbers s t := ⟨by rw [h.rest]; rfl, h.dies⟩

theorem exec_pref (l2 : Bool) (mr : MemRef) (s : State) : exec (.pref l2 mr) s = execPref l2 mr s := rfl

section
variable {s : State} {c : Ctx} {mr : MemRef}

/-- What passes the checks of a byte read passes those of PREF, which asks for no permission. -/
theorem test_prefetch {t : Nat} (h : ∀ n < 7, c.test s (lineWant 1) mr false t n) : ∀ n < 7, c.test s (lineWant 0) mr false t n := by
  intro n hn
  by_cases h2 : n = 2
  · subst h2
    exact ⟨Nat.and_zero _, nofun⟩
  · have := h n hn
    interval_cases n <;> first | exact absurd rfl h2 | exact this

theorem lies_prefetch {t : Nat} {l : List ByteLoc} (h : c.Lies s (lineWant 1) mr false t l) : c.Lies s (lineWant 0) mr false t l := by
  obtain ⟨hscr, hhost, hpeer, hglob⟩ := h
  refine ⟨hscr, hhost, fun h3 => ?_, fun h0 => ?_⟩
  · obtain ⟨e, x, hexp, hfind, -, hrest⟩ := hpeer h3
    exact ⟨e, x, hexp, hfind, Nat.and_zero _, hrest⟩
  · obtain ⟨p, q, hp, hq, hrest⟩ := hglob h0
    exact ⟨p, q, ⟨hp.walk, hp.rd, hp.wr, hp.tag, hp.spec, hp.order⟩,
      fun hcov => ⟨(hq hcov).walk, (hq hcov).rd, (hq hcov).wr, (hq hcov).tag, (hq hcov).spec, (hq hcov).order⟩, hrest⟩

/-- Every active thread passes: its part, and the state after the checks. -/
theorem lineAll_passes {need : Nat} {l : Nat → List ByteLoc} (htrue : HeldTrue s c)
    (hpass : ∀ t ∈ threads c.act, (∀ n < 7, c.test s (lineWant need) mr false t n) ∧ c.Lies s (lineWant need) mr false t (l t)) :
    ∃ t, lineAll need mr c s (threads c.act) = (t, (threads c.act).map fun x => (x, .ok [linePart c mr l x])) ∧ SameButHeld s t := by
  obtain ⟨hkept, hall⟩ := eachThread_keeps (f := lineThread need mr c) (r := fun x => .ok [linePart c mr l x]) (p := Kept s c) (ts := threads c.act)
    (fun t ht x hx => by
      obtain ⟨htest, hlies⟩ := hpass x hx
      obtain ⟨t', hcheck, hkept⟩ := Ctx.check_lies (lineWant_known need) ht htest hlies
      have hone : (itemsOf (lineWant need) x (c.addr mr x) (l x) 0 0 false false false).map (fun i => { i with done := true }) = [linePart c mr l x] := by
        rw [itemsOf, if_pos (show c.addr mr x % (lineWant need).size = 0 from Nat.mod_one _)]
        rfl
      simp only [lineThread, hcheck, hone]
      exact ⟨hkept, trivial⟩) (Kept.of_held htrue)
  rw [lineAll_eq]
  exact ⟨_, Prod.ext rfl hall, hkept.1⟩

variable (h : Ready s c (memOpn mr) [])
include h

theorem pref_idle (h0 : c.act = 0#32) (l2 : Bool) : ∃ t, exec (.pref l2 mr) s = .next t ∧ Becomes s t c c.w (c.fr.passed (memWords mr)) := by
  refine ⟨_, (exec_pref ..).trans (withWord_ready h _), ?_⟩
  rw [if_pos h0]
  exact skipLl_becomes h.1 _

theorem lineWord_idle (h0 : c.act = 0#32) (kind : OpKind) :
    ∃ t, lineWord kind mr s = .next t ∧ Becomes s t c c.w (c.fr.passed (memWords mr)) := by
  refine ⟨_, withWord_ready h _, ?_⟩
  rw [if_pos h0]
  exact skipLl_becomes h.1 _

variable (h0 : c.act ≠ 0#32) (hfull : c.full (some .ls) = false) (htend : c.tendPending = false)
include h0 hfull htend

/-- PREF with the checks of its threads made. -/
theorem pref_runs (l2 : Bool) : exec (.pref l2 mr) s =
    .next (lineGo (.pref l2) false (memWords mr) (lineAll 0 mr c s (threads c.act)).2 c (lineAll 0 mr c s (threads c.act)).1) := by
  rw [exec_pref, execPref, withWord_ready h, if_neg h0, whenReady_ready (Ctx.ls_ready hfull htend s)]

theorem pref_untagged (hno : ∀ t ∈ threads c.act, c.capTag mr.c t = false) (l2 : Bool) :
    ∃ t, exec (.pref l2 mr) s = .next t ∧ Issued s t c (memWords mr) (c.newOp s (some .ls) (.pref l2) [] none none) c.w := by
  have hall : lineAll 0 mr c s (threads c.act) =
      (s, (threads c.act).map fun t => (t, .error (Bad.of (testCause 0) (BitVec.ofNat 64 (c.addr mr t)) 0))) := by
    rw [lineAll_eq]
    refine eachThread_stays fun t ht => ?_
    have hfail : ¬ c.test s (lineWant 0) mr false t 0 := fun hf => Bool.false_ne_true ((hno t ht).symm.trans hf.1)
    simp only [lineThread, Ctx.check_fails (lineWant_known 0) (by decide) (fun k hk => absurd hk (Nat.not_lt_zero k)) hfail]
  refine ⟨_, pref_runs h h0 hfull htend l2, ?_⟩
  simp only [hall, lineGo, h0, if_false, itemsIn_errors, Bool.false_eq_true]
  exact issued h.1 (SameButHeld.refl s).numbered ..

variable {l : Nat → List ByteLoc} (htrue : HeldTrue s c)
  (hpass : ∀ t ∈ threads c.act, (∀ n < 7, c.test s (lineWant 1) mr false t n) ∧ c.Lies s (lineWant 1) mr false t (l t))
include htrue hpass

theorem pref_issues (l2 : Bool) : ∃ t, exec (.pref l2 mr) s = .next t
    ∧ Issued s t c (memWords mr) (c.newOp s (some .ls) (.pref l2) ((threads c.act).map (linePart c mr l)) none none) c.w := by
  obtain ⟨t, hall, hsame⟩ := lineAll_passes htrue fun x hx => ⟨test_prefetch (hpass x hx).1, lies_prefetch (hpass x hx).2⟩
  refine ⟨_, pref_runs h h0 hfull htend l2, ?_⟩
  simp only [hall, lineGo, h0, if_false, itemsIn_oks, Bool.false_eq_true, ← List.map_eq_flatMap]
  exact issued h.1 hsame.numbered ..

theorem lineWord_issues (kind : OpKind) : ∃ t, lineWord kind mr s = .next t
    ∧ Issued s t c (memWords mr) (c.newOp s (some .ls) kind ((threads c.act).map (linePart c mr l)) none none)
      (c.w.editTxs (fun _ x => x.doom 6#4) (threads c.act)) := by
  obtain ⟨t, hall, hsame⟩ := lineAll_passes htrue hpass
  refine ⟨_, withWord_ready h _, ?_⟩
  simp only [h0, if_false, whenReady_ready (Ctx.ls_ready hfull htend s), hall, badsOf_oks, lineGo, itemsIn_oks, if_true, ← List.map_eq_flatMap]
  exact issued_dooms h.1 hsame.numbered ..

end

/-! ### Completion -/

/-- A core gives up its registration of a word, if it has it. -/
def State.giveUp (core : Nat) (s : State) (w : Nat) : State := if Map.look s.regOwner w = some core then s.unregister w false else s

/-- State `t` is state `s` but for registrations and the slices' own values. -/
def SameButRegs (s t : State) : Prop := ∃ m q, t = { s with regOwner := m, slice := q }

theorem State.giveUp_rest (core : Nat) (s : State) (w : Nat) : SameButRegs s (s.giveUp core w) := by
  unfold State.giveUp State.unregister
  split
  · next h =>
    rw [h]
    exact ⟨_, _, rfl⟩
  · exact ⟨_, _, rfl⟩

theorem State.giveUp_look (core : Nat) (s : State) (w x : Nat) :
    Map.look (s.giveUp core w).regOwner x = if x = w ∧ Map.look s.regOwner x = some core then none else Map.look s.regOwner x := by
  unfold State.giveUp
  split
  · next h =>
    simp only [State.unregister, h, Bool.false_eq_true, if_false, Map.look_del]
    by_cases e : x = w
    · rw [if_pos e, if_pos ⟨e, e ▸ h⟩]
    · rw [if_neg e, if_neg fun hx => e hx.1]
  · next h =>
    rw [if_neg]
    rintro ⟨rfl, hx⟩
    exact h hx

/-- A core gives up its registrations of the words of a list. -/
theorem State.giveUp_list (core : Nat) (ws : List Nat) (s : State) :
    SameButRegs s (ws.foldl (State.giveUp core) s) ∧ ∀ x, Map.look (ws.foldl (State.giveUp core) s).regOwner x =
      if x ∈ ws ∧ Map.look s.regOwner x = some core then none else Map.look s.regOwner x := by
  induction ws generalizing s with
  | nil => exact ⟨⟨_, _, rfl⟩, fun x => by simp⟩
  | cons w ws ih =>
    obtain ⟨⟨m, q, hrest⟩, hlook⟩ := ih (s.giveUp core w)
    obtain ⟨m', q', hone⟩ := State.giveUp_rest core s w
    refine ⟨⟨m, q, ?_⟩, fun x => ?_⟩
    · rw [List.foldl_cons, hrest, hone]
    · refine (hlook x).trans ?_
      rw [State.giveUp_look]
      by_cases e : x = w <;> by_cases ho : Map.look s.regOwner x = some core <;> simp [e, ho]

/-- CWB gives up the registrations of its lines' words. -/
theorem State.writeBack_eq (s : State) (core : Nat) (lines : List Nat) :
    s.writeBack core lines = (lines.flatMap fun l => span (16 * l) 16).foldl (State.giveUp core) s := by
  rw [List.foldl_flatMap]
  rfl

theorem mem_lineWords {lines : List Nat} {x : Nat} : x ∈ (lines.flatMap fun l => span (16 * l) 16) ↔ x / 16 ∈ lines := by
  simp only [List.mem_flatMap, span, List.mem_map, List.mem_range]
  constructor
  · rintro ⟨l, hl, i, hi, rfl⟩
    rwa [show (16 * l + i) / 16 = l by omega]
  · exact fun h => ⟨_, h, x % 16, by omega, by omega⟩

/-- The lines of an operation, as the statement lists them. -/
def Op.globalLines (o : Op) : List Nat := o.lines.map (·.1)

section
variable {s : State} {u op : Nat} {un : KUnit} {o : Op} (hu : s.unit? u = some un) (ho : un.op? op = some o) (hnot : o.done = false)
  (hd : un.drops = [])
include hu ho hnot hd

/-- An operation that completes whatever its parts. -/
theorem memoryOpComplete_line {t : State} (hunit : t.unit? u = some un) (hstall : t.stalled = false)
    (hk : (∃ dev, o.kind = .cwb dev ∧ t = s.writeBack un.core o.globalLines) ∨ (o.kind = .cinv ∧ t = s.invalidateLines un.core o.globalLines)) :
    exec (.memoryOpComplete u op) s = .next (t.editUnit u fun un => un.complete op) := by
  have hdone : (t.editUnit u fun un => un.complete op).unit? u = some (un.complete op) := by simp [State.unit?_editUnit, hunit]
  have hset := State.settleDrops_none hdone hd
  have e : exec (.memoryOpComplete u op) s = execMemoryOpComplete u op s := rfl
  rw [e]
  obtain ⟨dev, hkind, rfl⟩ | ⟨hkind, rfl⟩ := hk
  · simp only [execMemoryOpComplete, whole, hu, ho, hnot, hkind, Bool.false_eq_true, if_false]
    rw [show (s.writeBack un.core (o.lines.map (·.1))) = s.writeBack un.core o.globalLines from rfl, hset, State.editUnit_stalled, hstall]
    rfl
  · simp only [execMemoryOpComplete, whole, hu, ho, hnot, hkind, Bool.false_eq_true, if_false]
    rw [show (s.invalidateLines un.core (o.lines.map (·.1))) = s.invalidateLines un.core o.globalLines from rfl, hset, State.editUnit_stalled, hstall]
    rfl

variable (hs : s.stalled = false)
include hs

/-- CWB's completion: the registrations of its lines end. -/
theorem cwb_completes {dev : Bool} (hk : o.kind = .cwb dev) :
    ∃ t, exec (.memoryOpComplete u op) s = .next t ∧ t.mem = s.mem ∧ t.tags = s.tags ∧ (t.core un.core).copies = (s.core un.core).copies
      ∧ (∀ w, Map.look t.regOwner w =
        if w / 16 ∈ o.globalLines ∧ Map.look s.regOwner w = some un.core then none else Map.look s.regOwner w)
      ∧ (t.unit? u).map (·.ops) = some (un.complete op).ops := by
  obtain ⟨⟨m, q, hrest⟩, hlook⟩ := State.giveUp_list un.core (o.globalLines.flatMap fun l => span (16 * l) 16) s
  rw [← State.writeBack_eq] at hrest hlook
  have hunit : (s.writeBack un.core o.globalLines).unit? u = some un := by rw [hrest]; exact hu
  refine ⟨_, memoryOpComplete_line hu ho hnot hd hunit (by rw [hrest]; exact hs) (.inl ⟨dev, hk, rfl⟩), ?_, ?_, ?_, fun w => ?_, ?_⟩
  · rw [State.editUnit_mem, hrest]
  · rw [State.editUnit_tags, hrest]
  · rw [State.core_editUnit, hrest]
    rfl
  · rw [State.editUnit_regOwner, hlook]
    simp only [mem_lineWords]
  · rw [State.unit?_editUnit, if_pos rfl, hunit]
    rfl

/-- CINV's completion: it also discards the core's copies of its lines. -/
theorem cinv_completes (hk : o.kind = .cinv) :
    ∃ t, exec (.memoryOpComplete u op) s = .next t ∧ t.mem = s.mem ∧ t.tags = s.tags
      ∧ (∀ w, Map.look (t.core un.core).copies w = if w / 16 ∈ o.globalLines then none else Map.look (s.core un.core).copies w)
      ∧ (∀ w, Map.look t.regOwner w =
        if w / 16 ∈ o.globalLines ∧ Map.look s.regOwner w = some un.core then none else Map.look s.regOwner w)
      ∧ (t.unit? u).map (·.ops) = some (un.complete op).ops := by
  obtain ⟨⟨m, q, hrest⟩, hlook⟩ := State.giveUp_list un.core (o.globalLines.flatMap fun l => span (16 * l) 16) s
  rw [← State.writeBack_eq] at hrest hlook
  have hunit : (s.invalidateLines un.core o.globalLines).unit? u = some un := by
    rw [State.invalidateLines, State.unit?_editCore, hrest]
    exact hu
  refine ⟨_, memoryOpComplete_line hu ho hnot hd hunit (by rw [State.invalidateLines, State.editCore_stalled, hrest]; exact hs) (.inr ⟨hk, rfl⟩),
    ?_, ?_, fun w => ?_, fun w => ?_, ?_⟩
  · rw [State.editUnit_mem, State.invalidateLines, State.editCore_mem, hrest]
  · rw [State.editUnit_tags, State.invalidateLines, State.editCore_tags, hrest]
  · rw [State.core_editUnit, State.invalidateLines, State.core_editCore, if_pos rfl, hrest]
    refine (Map.look_filter _ (fun w => !(o.globalLines.contains (w / 16))) w).trans ?_
    by_cases hin : w / 16 ∈ o.globalLines
    · rw [if_pos hin, List.contains_iff_mem.2 hin]
      rfl
    · rw [if_neg hin, Bool.eq_false_iff.2 fun h => hin (List.contains_iff_mem.1 h)]
      rfl
  · rw [State.editUnit_regOwner, State.invalidateLines, State.editCore_regOwner, hlook]
    simp only [mem_lineWords]
  · rw [State.unit?_editUnit, if_pos rfl, hunit]
    rfl

end

/-- Settles O14: the words by the checks of each thread, their completions by the registrations that the core gives up, word by word. -/
theorem lineOperations : Obligations.LineOperations := by
  unfold Obligations.LineOperations
  refine ⟨fun s c mr h => ⟨fun h0 i hi => ?idle, fun h0 hfull htend => ⟨fun l2 hno => pref_untagged h h0 hfull htend hno l2,
    fun htrue l w hw hpass items hitems => ⟨fun l2 => ?prefetch, fun i k hi => ?lines⟩⟩⟩, fun s u op un o hu ho hnot hd hs => ?completes⟩
  case idle =>
    obtain ⟨l2, rfl⟩ | ⟨dev, rfl⟩ | rfl := hi
    · exact pref_idle h h0 l2
    · exact lineWord_idle h h0 _
    · exact lineWord_idle h h0 _
  case prefetch =>
    subst hw hitems
    exact pref_issues h h0 hfull htend htrue hpass l2
  case lines =>
    subst hw hitems
    obtain ⟨t, hrun, hissued⟩ := lineWord_issues h h0 hfull htend htrue hpass k
    refine ⟨t, _, ?_, hissued, Warp.editTxs_rest .., fun u hu => Warp.doomed_tx _ _ hu⟩
    obtain ⟨dev, rfl, rfl⟩ | ⟨rfl, rfl⟩ := hi
    · rw [exec_cwb]
      exact hrun
    · rw [exec_cinv]
      exact hrun
  case completes =>
    intro lines
    have hlines : lines = o.globalLines := by
      rw [Op.globalLines, Op.lines, List.map_filterMap]
      refine List.filterMap_congr fun i _ => ?_
      unfold Item.pa
      rcases i.locs with _ | ⟨b, bs⟩
      · rfl
      · cases b with
        | phys pa k x v g =>
          simp only [Option.bind_some]
          split_ifs <;> rfl
        | _ => rfl
    rw [hlines]
    exact ⟨fun dev hk => cwb_completes hu ho hnot hd hs hk, fun hk => cinv_completes hu ho hnot hd hs hk⟩

end Sys2Proof.Machine
end

section
/-! SUPPORT. A part of an access that fails as it performs (R164, R165): the event when the part alone performs, and the fault that its thread
takes (O17). -/
namespace Sys2Proof.Machine

/-! ### Faults leave memory alone -/

/-- Memory with its tags and registrations. -/
def State.home (s : State) : List Host.Cell × NSet × Map Nat := (s.mem, s.tags, s.regOwner)

theorem State.home_foldl {α : Type} {g : State → α → State} (h : ∀ s a, (g s a).home = s.home) (l : List α) (s : State) :
    (l.foldl g s).home = s.home := by
  induction l generalizing s with
  | nil => rfl
  | cons a l ih => rw [List.foldl_cons, ih, h]

@[simp] theorem State.editUnit_home (s : State) (u : Nat) (g : KUnit → KUnit) : (s.editUnit u g).home = s.home := rfl
@[simp] theorem State.editWarp_home (s : State) (u w : Nat) (g : Warp → Warp) : (s.editWarp u w g).home = s.home := rfl
@[simp] theorem State.editCore_home (s : State) (c : Nat) (g : CoreSt → CoreSt) : (s.editCore c g).home = s.home := rfl

@[simp] theorem State.soloStops_home (s : State) (f : FragRef) (m : Mask) : (s.soloStops f m).home = s.home := by
  refine State.home_foldl (fun s t => ?_) _ _
  unfold State.releaseSolo
  split_ifs <;> rfl

@[simp] theorem State.postFbs_home (s : State) (core : Nat) (l : List FbEntry) : (s.postFbs core l).home = s.home :=
  State.home_foldl (fun s _ => State.editCore_home s core _) l s

@[simp] theorem State.attach_home (s : State) (core : Nat) (f : FragRef) (x : Frag) (m : Mask) (b : Bad) : (s.attach core f x m b).home = s.home := by
  unfold State.attach
  dsimp only
  split
  · rfl
  · rw [State.postFbs_home]
    rfl

@[simp] theorem State.refuseSplit_home (s : State) (core : Nat) (f : FragRef) (x : Frag) : (s.refuseSplit core f x).home = s.home := by
  simp [State.refuseSplit]

@[simp] theorem State.splitParts_home (s : State) (core : Nat) (f : FragRef) (x : Frag) (l : List Bad) : (s.splitParts core f x l).home = s.home := by
  induction l generalizing s with
  | nil => rfl
  | cons b l ih =>
    unfold State.splitParts
    split
    · rfl
    · rw [ih, State.attach_home]

@[simp] theorem State.takeFaultsAs_home (s : State) (f : FragRef) (x : Frag) (bads : List Bad) : (s.takeFaultsAs f x bads).1.home = s.home := by
  unfold State.takeFaultsAs
  dsimp only
  repeat' split
  all_goals simp [State.editFrag_eq]

@[simp] theorem State.takeLate_home (s : State) (f : FragRef) : (s.takeLate f).home = s.home := by
  unfold State.takeLate
  repeat' split
  all_goals simp

@[simp] theorem State.postLate_home (s : State) (u w : Nat) (p : Late) : (s.postLate u w p).home = s.home := by
  unfold State.postLate
  dsimp only
  split
  · rfl
  · split
    · rfl
    · refine (State.home_foldl (fun s i => ?_) _ _).trans (State.editWarp_home ..)
      split_ifs
      · exact State.takeLate_home ..
      · rfl

@[simp] theorem State.settle_home (s : State) (u op : Nat) : (s.settle u op).home = s.home := by
  unfold State.settle
  split
  · rfl
  · split_ifs <;> simp

/-! ### A part that performs alone -/

/-- Nothing holds a part back. -/
structure PartGoes (s : State) (u op x : Nat) (un : KUnit) (o : Op) (i : Item) : Prop where
  unit : s.unit? u = some un
  op : un.op? op = some o
  next : (o.items.find? fun y => y.thread = x && !y.done) = some i
  may : mayPerform un.ops o i = true
  alone : o.together i = [i]
  red : s.redFirst un.core o i = false
  peer : i.peer = false
  held : s.itemHeld u o i = false

theorem PartGoes.thread {s : State} {u op x : Nat} {un : KUnit} {o : Op} {i : Item} (h : PartGoes s u op x un o i) : i.thread = x ∧ i.done = false := by
  have := List.find?_some h.next
  simpa using this

theorem PartGoes.mem {s : State} {u op x : Nat} {un : KUnit} {o : Op} {i : Item} (h : PartGoes s u op x un o i) : i ∈ o.items :=
  List.mem_of_find?_eq_some h.next

theorem KUnit.op?_id {un : KUnit} {op : Nat} {o : Op} (h : un.op? op = some o) : o.id = op := by
  simpa using List.find?_some h

/-- An operation after a change that keeps every number. -/
theorem KUnit.op?_editOp {un : KUnit} {op : Nat} {o : Op} (h : un.op? op = some o) {g : Op → Op} (hg : ∀ o, (g o).id = o.id) :
    (un.editOp op g).op? op = some (g o) := by
  have hpred : (fun x : Op => decide (x.id = op)) ∘ (fun x => if x.id = op then g x else x) = fun x => decide (x.id = op) := by
    funext x
    simp only [Function.comp_apply]
    split_ifs with e
    · rw [hg]
    · rfl
  rw [KUnit.op?, KUnit.editOp, List.find?_map, hpred, show un.ops.find? (fun x => decide (x.id = op)) = some o from h, Option.map_some,
    if_pos (KUnit.op?_id h)]

/-- Where a part performs alone, the event is what it does, and what its faults then do. -/
theorem sliceAccess_alone {s : State} {u op x : Nat} {un : KUnit} {o : Op} {i : Item} (h : PartGoes s u op x un o i) :
    exec (.sliceAccess u op x) s = .next ((s.performItem u op i).settle u op) := by
  have e : exec (.sliceAccess u op x) s = execSliceAccess u op x s := rfl
  rw [e, execSliceAccess]
  simp only [h.unit, h.op, h.next, h.alone, List.any_cons, List.any_nil, h.peer, h.may, h.red, h.held, Bool.not_true, Bool.or_self, Bool.false_eq_true,
    if_false, List.foldl_cons, List.foldl_nil]

/-- A part that no other part of its operation overlaps performs alone. -/
theorem Op.together_alone {o : Op} {i : Item} (hmem : i ∈ o.items)
    (h : writes i.kind = true → (o.items.filter fun y => !y.done && writes y.kind && y.overlaps i) = [i]) : o.together i = [i] := by
  unfold Op.together
  split_ifs with hw
  · obtain ⟨n, hn⟩ := Nat.exists_eq_succ_of_ne_zero (List.length_pos_of_mem hmem).ne'
    have hclose : ((o.items.filter fun x => !x.done && writes x.kind).filter fun x => [i].any x.overlaps) = [i] := by
      rw [List.filter_filter]
      refine Eq.trans (List.filter_congr fun y _ => ?_) (h hw)
      rw [List.any_cons, List.any_nil, Bool.or_false, Bool.and_comm]
    rw [hn, closeOver, hclose]
    rfl
  · rfl

theorem State.discards_plain (s : State) (u : Nat) (o : Op) {i : Item} (h : i.tx = false) : s.discards u o i = false := by
  simp [State.discards, h]

/-- The settling of an operation without faults changes nothing. -/
theorem State.settle_none {s : State} {u op : Nat} {un : KUnit} {o : Op} (hu : s.unit? u = some un) (ho : un.op? op = some o) (hf : o.fails = []) :
    s.settle u op = s := by
  simp [State.settle, hu, ho, hf]

/-! ### The part fails -/

section
variable {s : State} {u op x : Nat} {un : KUnit} {o : Op} {i : Item} (h : PartGoes s u op x un o i)

/-- The failure of a memory access: its thread's parts leave, and its fault is the operation's only one. -/
theorem Op.fail_mem {cause hint : Nat} {a r : Option Scope} (hk : o.kind = .mem a r) (hf : o.fails = []) :
    o.fail i cause hint [] =
    { o with
      mask := o.mask &&& ~~~(bit i.thread), items := o.items.filter fun y => y.thread ≠ i.thread
      fails := [{ cause := cause, addr := BitVec.ofNat 64 i.addr, hint := hint, replay := true, mask := bit i.thread, fb := [] }] } := by
  simp only [Op.fail, Op.failAt, Op.drop, hk, hf, List.find?_nil, List.nil_append]

theorem Op.fail_id (o : Op) (i : Item) (cause hint : Nat) (fb : List FbEntry) : (o.fail i cause hint fb).id = o.id := by
  unfold Op.fail Op.failAt Op.drop
  cases o.kind <;> rfl

include h

/-- The operation with the part's failure noted. -/
theorem performItem_fails (htx : i.tx = false) {cause hint : Nat} (hreach : s.reached i = some (cause, hint)) :
    s.performItem u op i = s.editUnit u fun v => v.editOp op fun o => o.fail i cause hint [] := by
  simp only [State.performItem, h.unit, h.op, s.discards_plain u o htx, Bool.false_eq_true, if_false, hreach, KUnit.op?_id h.op]

theorem failed_op (cause hint : Nat) :
    ((s.editUnit u fun v => v.editOp op fun o => o.fail i cause hint []).unit? u).bind (·.op? op) = some (o.fail i cause hint []) := by
  rw [State.unit?_editUnit, if_pos rfl, h.unit, Option.map_some, Option.bind_some]
  exact KUnit.op?_editOp h.op fun o => Op.fail_id o i cause hint []

variable {a r : Option Scope} (hk : o.kind = .mem a r) (hf : o.fails = [])
include hk hf

/-- While another thread's part is still to perform, the fault waits. -/
theorem failed_waits (cause hint : Nat) (hother : ∃ y ∈ o.items, y.thread ≠ x ∧ y.done = false) :
    (s.editUnit u fun v => v.editOp op fun o => o.fail i cause hint []).settle u op
      = s.editUnit u fun v => v.editOp op fun o => o.fail i cause hint [] := by
  obtain ⟨y, hy, hne, hnot⟩ := hother
  have hmem : y ∈ (o.fail i cause hint []).items := by
    rw [Op.fail_mem hk hf, h.thread.1]
    exact List.mem_filter.2 ⟨hy, decide_eq_true hne⟩
  have hall : (o.fail i cause hint []).items.all (·.done) = false :=
    Bool.eq_false_iff.2 fun e => Bool.false_ne_true (hnot.symm.trans (List.all_eq_true.1 e y hmem))
  simp only [State.settle, failed_op h, hall, Bool.not_false, Bool.or_true, if_true]

/-- With no part left to perform, the fault comes to stand against the warp. -/
theorem failed_posts (cause hint : Nat) (hlast : ∀ y ∈ o.items, y.thread = x ∨ y.done = true) :
    (s.editUnit u fun v => v.editOp op fun o => o.fail i cause hint []).settle u op =
      (s.editUnit u fun v => (v.editOp op fun o => o.fail i cause hint []).editOp op fun o => { o with fails := [] }).postLate u o.warp
        ⟨some o.at_, [{ cause := cause, addr := BitVec.ofNat 64 i.addr, hint := hint, replay := true, mask := bit x, fb := [] }]⟩ := by
  have hall : (o.fail i cause hint []).items.all (·.done) = true := by
    rw [Op.fail_mem hk hf, h.thread.1]
    refine List.all_eq_true.2 fun y hy => ?_
    obtain ⟨hmem, hne⟩ := List.mem_filter.1 hy
    exact (hlast y hmem).resolve_left (of_decide_eq_true hne)
  have hfails : (o.fail i cause hint []).fails =
      [{ cause := cause, addr := BitVec.ofNat 64 i.addr, hint := hint, replay := true, mask := bit x, fb := [] }] := by
    rw [Op.fail_mem hk hf, h.thread.1]
  have hplace : (o.fail i cause hint []).warp = o.warp ∧ (o.fail i cause hint []).at_ = o.at_ := by
    rw [Op.fail_mem hk hf]
    exact ⟨rfl, rfl⟩
  simp only [State.settle, failed_op h, hall, hfails, hplace.1, hplace.2, Bool.not_true, Bool.or_false, decide_eq_true_eq, List.cons_ne_nil, if_false,
    State.editUnit_editUnit]
  rfl

end

/-! ### The fault is taken -/

section
variable {s : State} {u w f : Nat} {wp : Warp} {fr : Frag} {at0 : Stand} {b : Bad} {un : KUnit} (hu : s.unit? u = some un)
  (hw : s.warp? u w = some wp) (hm : b.mask = fr.mask) (h0 : fr.mask ≠ 0#32) (hfb : b.fb = [])
  (hsolo : ∀ t < 32, fr.mask.getLsbD t = true → s.soloHolder ≠ some (u, w, t))

/-- The fault of a whole fragment, as its record has it once the fragment stands at the word. -/
def lateRecord (s : State) (core : Nat) (fr : Frag) (at0 : Stand) (b : Bad) : FaultRec :=
  b.record (fr.as at0 0#32) fr.mask (s.core core).serial core

include hu hw hm h0 hfb hsolo

/-- A fragment whose threads all have the fault parks at the word, whole, with its record. -/
theorem State.takeLate_parks (hfr : Map.look wp.frags f = some fr) (hlate : wp.late? fr.mask = some ⟨some at0, [b]⟩) :
    ∃ g : Warp → Warp, (∀ v, (g v).frags = Map.put v.frags f ((fr.as at0 0#32).parkFault fr.mask (lateRecord s un.core fr at0 b)))
      ∧ s.takeLate ⟨u, w, f⟩ = (s.editWarp u w g).post un.core ⟨u, w, f⟩ (s.core un.core).serial := by
  obtain ⟨c, ad, hn, rp, m, fb⟩ := b
  obtain rfl : m = fr.mask := hm
  obtain rfl : fb = [] := hfb
  have hfrag : s.frag? ⟨u, w, f⟩ = some fr := by simp [State.frag?, hw, hfr]
  have hall : badMask [(⟨c, ad, hn, rp, fr.mask, []⟩ : Bad)] = fr.mask := BitVec.zero_or
  have hself : fr.mask &&& fr.mask = fr.mask := BitVec.and_self
  have hnone : fr.mask &&& ~~~fr.mask = 0#32 := BitVec.and_not_self fr.mask
  have has : fr.as at0 (at0.actm &&& ~~~fr.mask) = fr.as at0 0#32 := by
    simp only [Frag.as, BitVec.zero_and, BitVec.and_assoc, BitVec.and_comm (~~~fr.mask), hnone, BitVec.and_zero]
  have hbads : ([(⟨c, ad, hn, rp, fr.mask, []⟩ : Bad)].map fun b => { b with mask := b.mask &&& fr.mask }).filter (fun b => b.mask ≠ 0#32)
      = [⟨c, ad, hn, rp, fr.mask, []⟩] := by
    simp [hself, h0]
  have hmask : (fr.as at0 0#32).mask &&& ~~~fr.mask = 0#32 := hnone
  have hunit : ∀ g, (s.editWarp u w g).unit? u = some (un.editWarp w g) := fun g => by
    rw [State.editWarp, State.unit?_editUnit, if_pos rfl, hu, Option.map_some]
  rw [State.takeLate]
  simp only [hw, hfrag, hlate, hbads, hall, has]
  simp only [State.takeFaultsAs, hunit, hall, h0, if_false, hmask, if_true]
  rw [soloStops_none (s := s.editWarp u w _) (f := ⟨u, w, f⟩) hsolo]
  simp only [ne_eq, not_true_eq_false, decide_false, Bool.false_and, Bool.false_eq_true, if_false, State.splitParts]
  rw [State.attach_plain _ _ _ _ _ rfl, State.editWarp_editWarp]
  exact ⟨_, fun _ => rfl, rfl⟩

/-- A fault found late of the one fragment of a warp without others: the fragment takes it at the word, whole. -/
theorem State.postLate_parks (hfr : wp.frags = [(f, fr)]) (hlates : wp.lates = []) (hrun : fr.status = .runnable) :
    ∃ g : Warp → Warp, (∀ v, (g v).frags = Map.put v.frags f ((fr.as at0 0#32).parkFault fr.mask (lateRecord s un.core fr at0 b)))
      ∧ s.postLate u w ⟨some at0, [b]⟩ = (s.editWarp u w g).post un.core ⟨u, w, f⟩ (s.core un.core).serial := by
  have hall : badMask [b] = fr.mask := BitVec.zero_or.trans hm
  have hlate : ({ wp with lates := wp.lates ++ [⟨some at0, [b]⟩] } : Warp).late? fr.mask = some ⟨some at0, [b]⟩ := by
    simp [Warp.late?, hlates, hall, h0]
  have hlook : Map.look wp.frags f = some fr := by simp [hfr, Map.look]
  have hw' : (s.editWarp u w fun v => { v with lates := v.lates ++ [⟨some at0, [b]⟩] }).warp? u w
      = some { wp with lates := wp.lates ++ [⟨some at0, [b]⟩] } := by
    rw [State.warp?_editWarp, if_pos ⟨rfl, rfl⟩, hw, Option.map_some]
  have hu' : (s.editWarp u w fun v => { v with lates := v.lates ++ [⟨some at0, [b]⟩] }).unit? u
      = some (un.editWarp w fun v => { v with lates := v.lates ++ [⟨some at0, [b]⟩] }) := by
    rw [State.editWarp, State.unit?_editUnit, if_pos rfl, hu, Option.map_some]
  have hhas : (s.editWarp u w fun v => { v with lates := v.lates ++ [⟨some at0, [b]⟩] }).hasLate ⟨u, w, f⟩ = true := by
    simp [State.hasLate, State.frag?, hw', hlook, hrun, hlate]
  obtain ⟨g, hg, htake⟩ := State.takeLate_parks hu' hw' hm h0 hfb hsolo hlook hlate
  refine ⟨fun v => g { v with lates := v.lates ++ [⟨some at0, [b]⟩] }, fun v => hg _, ?_⟩
  simp only [State.postLate, hall, h0, if_false, hw']
  have hkeys : Map.keys ({ wp with lates := wp.lates ++ [⟨some at0, [b]⟩] } : Warp).frags = [f] := by simp [Map.keys, hfr]
  rw [hkeys, List.foldl_cons, List.foldl_nil, if_pos hhas, htake, State.editWarp_editWarp]
  rfl

/-- The fragment with its record, and the post of the record. -/
theorem State.postLate_record (hfr : wp.frags = [(f, fr)]) (hlates : wp.lates = []) (hrun : fr.status = .runnable) :
    (s.postLate u w ⟨some at0, [b]⟩).frag? ⟨u, w, f⟩ = some ((fr.as at0 0#32).parkFault fr.mask (lateRecord s un.core fr at0 b))
      ∧ (s.postLate u w ⟨some at0, [b]⟩).posts = s.posts ++ [.frag ⟨u, w, f⟩ (s.core un.core).serial] := by
  obtain ⟨g, hg, hpost⟩ := State.postLate_parks (at0 := at0) hu hw hm h0 hfb hsolo hfr hlates hrun
  rw [hpost]
  refine ⟨?_, rfl⟩
  rw [State.frag?, State.warp?, State.post_unit?, ← State.warp?, State.warp?_editWarp, if_pos ⟨rfl, rfl⟩, hw, Option.map_some, Option.bind_some, hg,
    Map.look_put_self]

end

/-! ### The checks as the bytes are reached -/

/-- A part waits only where its line would be busy for a write of its kind. -/
theorem State.itemHeld_phys {s : State} {u pa cx va : Nat} {k : PKind} {g : PageUse} {o : Op} {i : Item}
    (hloc : i.locs.head? = some (.phys pa k cx va g)) (hfree : s.lineBusy (some (u, o.warp, i.thread)) pa (writes i.kind) = false) :
    s.itemHeld u o i = false := by
  obtain ⟨l, hl⟩ : ∃ l, i.locs = .phys pa k cx va g :: l := List.head?_eq_some_iff.1 hloc
  have hwould : s.wouldWrite i.kind pa i.locs.length i.cmp = true → writes i.kind = true := by
    unfold State.wouldWrite
    split
    · next hk => exact fun _ => by rw [hk]; rfl
    · exact id
  have hbusy : s.lineBusy (some (u, o.warp, i.thread)) pa (s.wouldWrite i.kind pa i.locs.length i.cmp) = false := by
    simp only [State.lineBusy, Bool.or_eq_false_iff, Bool.and_eq_false_iff] at hfree ⊢
    obtain ⟨⟨hmig, hsolo⟩, hcommit⟩ := hfree
    exact ⟨⟨hmig.imp_left fun e => Bool.eq_false_iff.2 fun e' => Bool.false_ne_true (e.symm.trans (hwould e')), hsolo⟩, hcommit⟩
  unfold State.itemHeld
  rw [hl] at hbusy ⊢
  simp only [hbusy, Bool.and_false]

/-- What a part in global memory finds at its bytes. -/
theorem State.reached_phys {s : State} {pa cx va : Nat} {k : PKind} {g : PageUse} {i : Item} (hloc : i.locs.head? = some (.phys pa k cx va g)) :
    s.reached i = match s.ringBead pa with
      | some b => some (0x18, b)
      | none => if (reads i.kind || (isRmw i.kind && decide (k = .so))) && s.poisoned pa i.locs.length then some (0x19, 0) else none := by
  obtain ⟨l, hl⟩ : ∃ l, i.locs = .phys pa k cx va g :: l := List.head?_eq_some_iff.1 hloc
  cases hr : s.ringBead pa <;> simp only [State.reached, Item.seesMemory, hl, hr]

theorem State.reached_fails {s : State} {pa cx va : Nat} {k : PKind} {g : PageUse} {i : Item} (hloc : i.locs.head? = some (.phys pa k cx va g))
    {cause hint : Nat}
    (hbad : (s.ringBead pa = some hint ∧ cause = 0x18)
      ∨ (s.ringBead pa = none ∧ (reads i.kind = true ∨ (k = .so ∧ isRmw i.kind = true)) ∧ s.poisoned pa i.locs.length = true ∧ cause = 0x19
        ∧ hint = 0)) : s.reached i = some (cause, hint) := by
  rw [State.reached_phys hloc]
  obtain ⟨hring, rfl⟩ | ⟨hring, hsees, hpois, rfl, rfl⟩ := hbad
  · rw [hring]
  · have : (reads i.kind || (isRmw i.kind && decide (k = .so))) = true := by
      obtain hr | ⟨hk, hr⟩ := hsees
      · rw [hr, Bool.true_or]
      · rw [hk, hr, decide_eq_true rfl, Bool.and_self, Bool.or_true]
    rw [hring, hpois, this]
    rfl

/-- Settles O17: a part that fails performs nothing; its fault is noted, and taken at the word when no part is left to perform. -/
theorem accessFailsAsItPerforms : Obligations.AccessFailsAsItPerforms := by
  unfold Obligations.AccessFailsAsItPerforms
  intro s u op x un o i a r pa cx va k g hu hop hnext hmay htx hf hk hx htog hred hpeer hloc hfree cause hint hbad
  obtain ⟨rfl, -⟩ : i.thread = x ∧ i.done = false := by simpa using List.find?_some hnext
  have halone : o.together i = [i] := by
    by_cases hw : writes i.kind = true
    · exact htog hw
    · exact if_neg hw
  have hgoes : PartGoes s u op i.thread un o i :=
    ⟨hu, hop, hnext, hmay, halone, hred, hpeer, State.itemHeld_phys hloc hfree⟩
  have hnoted := performItem_fails hgoes htx (State.reached_fails hloc hbad)
  have hhome : ((s.performItem u op i).settle u op).home = s.home := by rw [State.settle_home, hnoted, State.editUnit_home]
  simp only [State.home, Prod.mk.injEq] at hhome
  obtain ⟨hmem, htags, howner⟩ := hhome
  refine ⟨_, sliceAccess_alone hgoes, hmem, htags, howner, ?_, ?_⟩
  · intro hother
    rw [hnoted, failed_waits hgoes hk hf cause hint hother]
  · intro w f fr hw hfr hlates hrun hmask hsolo hlast
    rw [hnoted, failed_posts hgoes hk hf cause hint hlast]
    have h0 : fr.mask ≠ 0#32 := fun e => by
      have := congrArg (·.getLsbD i.thread) (hmask.symm.trans e)
      simp [bit_getLsbD _ _ hx] at this
    have hunit : ∀ v : KUnit → KUnit, (s.editUnit u v).unit? u = some (v un) := fun v => by
      rw [State.unit?_editUnit, if_pos rfl, hu, Option.map_some]
    have hwarp : Map.look un.warps o.warp = some w := by simpa [State.warp?, hu] using hw
    have hfree : ∀ t < 32, fr.mask.getLsbD t = true → s.soloHolder ≠ some (u, o.warp, t) := fun t ht hbit => by
      rw [hmask, bit_getLsbD _ _ ht, decide_eq_true_eq] at hbit
      rwa [hbit]
    obtain ⟨hrec, hposts⟩ := State.postLate_record (f := f) (at0 := o.at_) (fr := fr)
      (b := { cause := cause, addr := BitVec.ofNat 64 i.addr, hint := hint, replay := true, mask := bit i.thread, fb := [] })
      (hunit fun v => (v.editOp op fun o => o.fail i cause hint []).editOp op fun o => { o with fails := [] })
      (by rw [State.warp?, hunit]; exact hwarp) hmask.symm h0 rfl hfree hfr hlates hrun
    refine ⟨_, hrec, rfl, rfl, rfl, rfl, rfl, rfl, ?_, hposts⟩
    simp only [Frag.parkFault, lateRecord, Bad.record, Frag.as, BitVec.zero_and, List.map_nil]
    rfl

end Sys2Proof.Machine
end

section
/-! SUPPORT. What a part of an access does as it performs (R167, R168, R177): the bytes of numbers, the tags of granules, the value of an atomic, and the
registers and the operation that receive what was read. -/
namespace Sys2Proof.Machine

/-! ### Numbers and their bytes (R10) -/

theorem leBytes_getD (n x : Nat) {i : Nat} (h : i < n) : (leBytes n x).getD i 0#8 = BitVec.ofNat 8 (x / 256 ^ i) := by
  induction n generalizing x i with
  | zero => omega
  | succ n ih =>
    cases i with
    | zero => simp [leBytes]
    | succ i => rw [leBytes, List.getD_cons_succ, ih _ (by omega), Nat.div_div_eq_div_mul, Nat.pow_succ']

theorem leBytes_leNat (l : List Byte) : leBytes l.length (leNat l) = l := by
  induction l with
  | nil => rfl
  | cons b l ih =>
    have hb : b.toNat < 256 := b.isLt
    have hdiv : (b.toNat + 256 * leNat l) / 256 = leNat l := by omega
    have hlow : BitVec.ofNat 8 (b.toNat + 256 * leNat l) = b := BitVec.eq_of_toNat_eq (by rw [BitVec.toNat_ofNat]; omega)
    rw [List.length_cons, leNat, leBytes, hdiv, ih, hlow]

/-- A byte of a number that was read. -/
theorem leNat_byte (l : List Byte) {i : Nat} (h : i < l.length) : BitVec.ofNat 8 (leNat l / 256 ^ i) = l.getD i 0#8 := by
  rw [← leBytes_getD _ _ h, leBytes_leNat]

theorem leNat_append (l m : List Byte) : leNat (l ++ m) = leNat l + 256 ^ l.length * leNat m := by
  induction l with
  | nil => simp [leNat]
  | cons b l ih => rw [List.cons_append, leNat, ih, leNat, List.length_cons, pow_succ]; ring

theorem leNat_take (l : List Byte) (k : Nat) : leNat (l.take k) = leNat l % 256 ^ k := by
  by_cases hk : k ≤ l.length
  · have hlen : (l.take k).length = k := List.length_take_of_le hk
    have hlt := leNat_lt (l.take k)
    rw [hlen] at hlt
    conv_rhs => rw [← List.take_append_drop k l, leNat_append, hlen, Nat.add_mul_mod_self_left, Nat.mod_eq_of_lt hlt]
  · have hlt := (leNat_lt l).trans_le (Nat.pow_le_pow_right (by omega : 0 < 256) (by omega : l.length ≤ k))
    rw [List.take_of_length_le (by omega), Nat.mod_eq_of_lt hlt]

/-- The first bytes of a number cut short. -/
theorem take_leBytes_mod (n x k : Nat) : (leBytes n (x % 256 ^ k)).take k = (leBytes n x).take k := by
  induction n generalizing x k with
  | zero => rfl
  | succ n ih =>
    cases k with
    | zero => rfl
    | succ k =>
      have hlow : BitVec.ofNat 8 (x % 256 ^ (k + 1)) = BitVec.ofNat 8 x := BitVec.eq_of_toNat_eq (by
        rw [BitVec.toNat_ofNat, BitVec.toNat_ofNat, Nat.pow_succ', show (2 : Nat) ^ 8 = 256 from rfl, Nat.mod_mul_right_mod])
      have hdiv : x % 256 ^ (k + 1) / 256 = x / 256 % 256 ^ k := by rw [Nat.pow_succ', Nat.mod_mul_right_div_self]
      rw [leBytes, leBytes, List.take_succ_cons, List.take_succ_cons, hlow, hdiv, ih]

/-- Lists whose pieces agree in their first bytes agree in their first bytes. -/
theorem take_flatMap_congr {α : Type} {f g : α → List Byte} {l : List α} {n : Nat} (hlen : ∀ a ∈ l, (f a).length = (g a).length)
    (h : ∀ a ∈ l, (f a).take n = (g a).take n) : (l.flatMap f).take n = (l.flatMap g).take n := by
  induction l generalizing n with
  | nil => rfl
  | cons a l ih =>
    have hrest : ∀ b ∈ l, (f b).take (n - (f a).length) = (g b).take (n - (f a).length) := fun b hb => by
      have := congrArg (List.take (n - (f a).length)) (h b (List.mem_cons_of_mem _ hb))
      rwa [List.take_take, List.take_take, Nat.min_eq_left (Nat.sub_le ..)] at this
    rw [List.flatMap_cons, List.flatMap_cons, List.take_append, List.take_append, h a List.mem_cons_self, ← hlen a List.mem_cons_self,
      ih (fun b hb => hlen b (List.mem_cons_of_mem _ hb)) hrest]

/-! ### Tags of granules (R167) -/

theorem NSet.has_add (g : NSet) (n k : Nat) : NSet.has (NSet.add g n) k = (decide (k = n) || NSet.has g k) := by
  rw [Bool.eq_iff_iff, Bool.or_eq_true, NSet.has_iff, NSet.has_iff, NSet.mem_add, decide_eq_true_eq, or_comm]

theorem NSet.has_set (g : NSet) (n k : Nat) (b : Bool) : NSet.has (NSet.set g n b) k = if k = n then b else NSet.has g k := by
  cases b with
  | true =>
    rw [NSet.set, if_pos rfl, NSet.has_add]
    by_cases h : k = n <;> simp [h]
  | false =>
    rw [NSet.set, if_neg Bool.false_ne_true, Bool.eq_iff_iff, NSet.has_iff, NSet.del, List.mem_filter, bne_iff_ne]
    split_ifs with h
    · simp [h]
    · rw [NSet.has_iff, and_iff_left h]

theorem NSet.has_foldl_set (l : List Nat) (g : NSet) (k : Nat) (b : Bool) :
    NSet.has (l.foldl (fun g k => NSet.set g k b) g) k = if k ∈ l then b else NSet.has g k := by
  induction l generalizing g with
  | nil => simp
  | cons n l ih =>
    rw [List.foldl_cons, ih, NSet.has_set]
    by_cases hl : k ∈ l <;> by_cases hn : k = n <;> simp [hl, hn]

theorem mem_span {a n k : Nat} : k ∈ span a n ↔ a ≤ k ∧ k < a + n := by
  simp only [span, List.mem_map, List.mem_range]
  exact ⟨fun ⟨i, hi, e⟩ => by omega, fun ⟨h1, h2⟩ => ⟨k - a, by omega, by omega⟩⟩

theorem has_markTags (g : NSet) (a n : Nat) (b : Bool) (h : 0 < n) (k : Nat) :
    NSet.has (markTags g a n b) k = if a / 16 ≤ k ∧ k ≤ (a + n - 1) / 16 then b else NSet.has g k := by
  rw [markTags, NSet.has_foldl_set]
  refine if_congr ?_ rfl rfl
  rw [mem_span]
  have : a / 16 ≤ (a + n - 1) / 16 := Nat.div_le_div_right (by omega)
  omega

/-! ### The value of an atomic (R177) -/

/-- A number of n bytes as a word, and its sign at that size. -/
theorem rmw_signed {n v : Nat} (hn : n = 4 ∨ n = 8) :
    (if n = 4 then ((BitVec.ofNat 64 v).setWidth 32).toInt else (BitVec.ofNat 64 v).toInt) = (BitVec.ofNat (8 * n) v).toInt := by
  obtain rfl | rfl := hn
  · rw [if_pos rfl, BitVec.setWidth_ofNat_of_le (by decide)]
  · rw [if_neg (by decide)]

theorem rmw_trunc {n v : Nat} (hn : n = 4 ∨ n = 8) :
    (if n = 4 then ((BitVec.ofNat 64 v).setWidth 32).zeroExtend 64 else BitVec.ofNat 64 v).toNat = v % 256 ^ n := by
  obtain rfl | rfl := hn
  · rw [if_pos rfl, BitVec.setWidth_ofNat_of_le (by decide), BitVec.toNat_setWidth, BitVec.toNat_ofNat]
    exact Nat.mod_eq_of_lt ((Nat.mod_lt _ (by decide)).trans (by decide))
  · rw [if_neg (by decide), BitVec.toNat_ofNat, show 256 ^ 8 = 2 ^ 64 from rfl]

/-- The operation of ATOM and RED on words of 4 or 8 bytes. -/
theorem rmwOp_toNat {op : RmwOp} {n old x : Nat} (cmp : Word64) (hn : n = 4 ∨ n = 8) (hf : op = .addF → n = 4) (ho : old < 256 ^ n)
    (hx : x < 256 ^ n) : (rmwOp op n (BitVec.ofNat 64 old) (BitVec.ofNat 64 x) cmp).toNat = rmwValue op n old x cmp.toNat := by
  have hword : 256 ^ n ≤ 2 ^ 64 := by obtain rfl | rfl := hn <;> decide
  have hold : (BitVec.ofNat 64 old).toNat = old := by rw [BitVec.toNat_ofNat, Nat.mod_eq_of_lt (ho.trans_le hword)]
  have hval : (BitVec.ofNat 64 x).toNat = x := by rw [BitVec.toNat_ofNat, Nat.mod_eq_of_lt (hx.trans_le hword)]
  cases op with
  | addN => rw [rmwOp, ← BitVec.ofNat_add, rmw_trunc hn, rmwValue]
  | addF =>
    obtain rfl := hf rfl
    simp only [rmwOp, rmwValue, BitVec.setWidth_ofNat_of_le (show 32 ≤ 64 by decide), BitVec.toNat_setWidth]
    exact Nat.mod_eq_of_lt ((memAddF32 _ _).isLt.trans (by decide))
  | minI => simp only [rmwOp, rmwValue, rmw_signed hn, apply_ite BitVec.toNat, hold, hval]
  | minN =>
    simp only [rmwOp, rmwValue, apply_ite BitVec.toNat, hold, hval]
    split_ifs <;> omega
  | maxI => simp only [rmwOp, rmwValue, rmw_signed hn, apply_ite BitVec.toNat, hold, hval]
  | maxN =>
    simp only [rmwOp, rmwValue, apply_ite BitVec.toNat, hold, hval]
    split_ifs <;> omega
  | andB => rw [rmwOp, rmwValue, BitVec.toNat_and, hold, hval]
  | orB => rw [rmwOp, rmwValue, BitVec.toNat_or, hold, hval]
  | xorB => rw [rmwOp, rmwValue, BitVec.toNat_xor, hold, hval]
  | exch => exact hval
  | cas =>
    have heq : BitVec.ofNat 64 old = cmp ↔ old = cmp.toNat :=
      ⟨fun e => by rw [← e, hold], fun e => BitVec.eq_of_toNat_eq (by rw [hold, e])⟩
    simp only [rmwOp, rmwValue, apply_ite BitVec.toNat, hold, hval, heq]

/-! ### A scratchpad that takes bytes -/

theorem KUnit.sbytes_length (u : KUnit) (off n : Nat) : (u.sbytes off n).length = n := by simp [KUnit.sbytes, span]

theorem KUnit.sbytes_getD (u : KUnit) (off : Nat) {n i : Nat} (h : i < n) : (u.sbytes off n).getD i 0#8 = u.sbyte (off + i) := by
  simp [KUnit.sbytes, span, List.getD_eq_getElem?_getD, h]

/-- The bytes of a number stand in the scratchpad, and the others as before. -/
theorem KUnit.sbyte_sput_leBytes {u : KUnit} (hu : u.frozen = false) (off n v : Nat) (tag : Bool) (b : Nat) :
    (u.sput off (leBytes n v) tag).sbyte b = if off ≤ b ∧ b < off + n then BitVec.ofNat 8 (v / 256 ^ (b - off)) else u.sbyte b := by
  have htag : (u.sput off (leBytes n v) tag).sbyte b = (u.sput off (leBytes n v) false).sbyte b := by
    unfold KUnit.sput
    split_ifs <;> rfl
  rw [htag, KUnit.sbyte_sput hu, leBytes_length]
  split_ifs with h
  · rw [leBytes_getD _ _ (by omega)]
  · rfl

theorem KUnit.stags_sput {u : KUnit} (hu : u.frozen = false) {n : Nat} (hn : 0 < n) (off v : Nat) (tag : Bool) (g : Nat) :
    NSet.has (u.sput off (leBytes n v) tag).stags g
      = if off / 16 ≤ g ∧ g ≤ (off + n - 1) / 16 then tag else NSet.has u.stags g := by
  have hne : leBytes n v ≠ [] := fun e => by
    have := congrArg List.length e
    rw [leBytes_length] at this
    exact hn.ne' this
  rw [KUnit.sput, if_neg (by simp [hne, hu]), ← has_markTags _ _ _ _ hn, leBytes_length]

/-- An atomic leaves the value of its operation, and brings the number that stood there. -/
theorem KUnit.rmw_eq (u : KUnit) (off : Nat) (op : RmwOp) (n : Nat) (x cmp : Word64) :
    u.ScratchOnly (u.rmw off op n x cmp).1 ∧ (u.rmw off op n x cmp).2 = BitVec.ofNat 64 (leNat (u.sbytes off n)) := by
  unfold KUnit.rmw
  dsimp only
  split_ifs
  · exact ⟨⟨u.scratch, u.stags, u.spoison, rfl⟩, rfl⟩
  · exact ⟨KUnit.scratchOnly_sput .., rfl⟩

theorem KUnit.sbyte_rmw {u : KUnit} (hu : u.frozen = false) (off : Nat) {op : RmwOp} {n x : Nat} {cmp : Word64} (hn : n = 4 ∨ n = 8)
    (hf : op = .addF → n = 4) (hx : x < 256 ^ n) (b : Nat) :
    (u.rmw off op n (BitVec.ofNat 64 x) cmp).1.sbyte b = if off ≤ b ∧ b < off + n then
      BitVec.ofNat 8 (rmwValue op n (leNat (u.sbytes off n)) x cmp.toNat / 256 ^ (b - off)) else u.sbyte b := by
  have hlt := leNat_sbytes_lt u off n
  have hvalue := rmwOp_toNat cmp hn hf hlt hx
  unfold KUnit.rmw
  dsimp only
  split_ifs with hcas hb hb
  · simp only [Bool.and_eq_true, decide_eq_true_eq] at hcas
    obtain ⟨rfl, hne⟩ := hcas
    have hold : rmwValue .cas n (leNat (u.sbytes off n)) x cmp.toNat = leNat (u.sbytes off n) := if_neg fun e => hne (by
      rw [e, BitVec.ofNat_toNat, BitVec.setWidth_eq])
    have hlen : b - off < (u.sbytes off n).length := by rw [KUnit.sbytes_length]; omega
    rw [hold, leNat_byte _ hlen, KUnit.sbytes_getD _ _ (by omega), Nat.add_sub_cancel' hb.1]
  · rfl
  · rw [KUnit.sbyte_sput_leBytes hu, if_pos hb, hvalue]
  · rw [KUnit.sbyte_sput_leBytes hu, if_neg hb]

/-! ### The registers that receive a load (R167, R168) -/

/-- The registers of a load after it: one thread has its words, and the others what they had. -/
theorem Warp.setRegs_run (d : Dst) (t : Nat) (g : Nat → Word) (ht : t < 32) (n : Nat) (w : Warp) :
    let v := (List.range n).foldl (fun w k => (w.setReg (d.reg + k) t (g k)).setRtag (d.reg + k) .general) w
    w.RegsOnly v ∧ ∀ r y, y < 32 → v.reg r y = if y = t ∧ d.reg ≤ r ∧ r < d.reg + n then g (r - d.reg) else w.reg r y := by
  induction n with
  | zero => exact ⟨⟨_, _, _, rfl⟩, fun r y _ => (if_neg (by omega)).symm⟩
  | succ n ih =>
    obtain ⟨⟨regs, rtags, qtags, hv⟩, hreg⟩ := ih
    rw [List.range_succ, List.foldl_append, List.foldl_cons, List.foldl_nil]
    refine ⟨by rw [hv]; exact ⟨_, _, _, rfl⟩, fun r y hy => ?_⟩
    rw [Warp.reg_setRtag, Warp.reg_setReg _ _ _ _ _ _ ht hy, hreg r y hy]
    by_cases h : r = d.reg + n ∧ y = t
    · rw [if_pos h, if_pos ⟨h.2, by omega⟩, show r - d.reg = n by omega]
    · rw [if_neg h]
      exact if_congr (by omega) rfl rfl

/-- The size of a load of data and its registers. -/
structure Dst.Data (d : Dst) : Prop where
  cap : d.cap = false
  size : d.size ∈ [1, 2, 4, 8]
  regs : d.n = max 1 (d.size / 4)

/-- The word of a load of data, as its registers take it. -/
theorem Dst.Data.word {d : Dst} (h : d.Data) (v : Nat) {k : Nat} (hk : k < d.n) :
    BitVec.ofNat 32 ((if d.size < 4 && d.sext then ((BitVec.ofNat (8 * d.size) v).signExtend 32).toNat else v) / 2 ^ (32 * k))
      = loadWord d.size d.sext v k := by
  unfold loadWord
  by_cases hs : d.size < 4
  · obtain rfl : k = 0 := by
      rw [h.regs] at hk
      omega
    cases d.sext <;> simp [hs]
  · simp [hs]

/-- The words of a load of data are of its low bytes. -/
theorem Dst.Data.word_low {d : Dst} (h : d.Data) {v w : Nat} (hv : v % 256 ^ 8 = w % 256 ^ 8) {k : Nat} (hk : k < d.n) :
    loadWord d.size d.sext v k = loadWord d.size d.sext w k := by
  have hmod : ∀ m, m ∣ 256 ^ 8 → v % m = w % m := fun m hm => by
    rw [← Nat.mod_mod_of_dvd v hm, hv, Nat.mod_mod_of_dvd w hm]
  have hsize := h.size
  have hregs := h.regs
  unfold loadWord
  simp only [List.mem_cons, List.not_mem_nil, or_false] at hsize
  have hnarrow : ∀ m, m ≤ 64 → BitVec.ofNat m v = BitVec.ofNat m w := fun m hm => BitVec.eq_of_toNat_eq (by
    rw [BitVec.toNat_ofNat, BitVec.toNat_ofNat, hmod _ (Nat.pow_dvd_pow_iff_le_right (by decide) |>.2 hm |>.trans (by decide))])
  split_ifs
  · rw [hnarrow _ (by omega)]
  · rw [hnarrow _ (by decide)]
  · have hk2 : k < 2 := by omega
    have hhigh : v / 2 ^ (32 * k) % 2 ^ 32 = w / 2 ^ (32 * k) % 2 ^ 32 := by
      have := hmod (2 ^ 64) (by decide)
      obtain rfl | rfl : k = 0 ∨ k = 1 := by omega
      · rw [Nat.mul_zero, Nat.pow_zero, Nat.div_one, Nat.div_one, hmod (2 ^ 32) (by decide)]
      · omega
    exact BitVec.eq_of_toNat_eq (by rw [BitVec.toNat_ofNat, BitVec.toNat_ofNat, hhigh])

theorem Dst.write_data {d : Dst} (h : d.Data) (w : Warp) {t : Nat} (ht : t < 32) (bs : List Byte) (tag : Bool) :
    w.RegsOnly (d.write w t bs tag) ∧ ∀ r y, y < 32 → (d.write w t bs tag).reg r y =
      if y = t ∧ d.reg ≤ r ∧ r < d.reg + d.n then loadWord d.size d.sext (leNat bs) (r - d.reg) else w.reg r y := by
  obtain ⟨hv, hreg⟩ := Warp.setRegs_run d t (fun k => BitVec.ofNat 32 ((if d.size < 4 && d.sext then
    ((BitVec.ofNat (8 * d.size) (leNat bs)).signExtend 32).toNat else leNat bs) / 2 ^ (32 * k))) ht d.n w
  rw [Dst.write, h.cap]
  refine ⟨hv, fun r y hy => (hreg r y hy).trans ?_⟩
  by_cases hin : y = t ∧ d.reg ≤ r ∧ r < d.reg + d.n
  · rw [if_pos hin, if_pos hin, h.word _ (by omega)]
  · rw [if_neg hin, if_neg hin]

/-- Four words of a number, the lowest in bits [31:0] (R29). -/
theorem quad_ofNat (v : Nat) : BitVec.ofNat 32 (v / 2 ^ (32 * 3)) ++ BitVec.ofNat 32 (v / 2 ^ (32 * 2)) ++ BitVec.ofNat 32 (v / 2 ^ (32 * 1))
    ++ BitVec.ofNat 32 (v / 2 ^ (32 * 0)) = BitVec.ofNat 128 v := by
  refine BitVec.eq_of_getLsbD_eq fun i hi => ?_
  simp only [BitVec.getLsbD_append, BitVec.getLsbD_ofNat, ← Nat.shiftRight_eq_div_pow, Nat.testBit_shiftRight]
  split_ifs with h0 h1 h2
  · have h : i < 32 := h0
    simp [h, hi]
  · have h : i - 32 < 32 := h1
    rw [show 32 * 1 + (i - 32) = i by omega]
    simp [h, hi]
  · have h : i - 32 - 32 < 32 := h2
    rw [show 32 * 2 + (i - 32 - 32) = i by omega]
    simp [h, hi]
  · have h : i - 32 - 32 - 32 < 32 := by omega
    rw [show 32 * 3 + (i - 32 - 32 - 32) = i by omega]
    simp [h, hi]

/-- A capability in the registers of a thread, with its tag. -/
theorem Dst.write_cap {d : Dst} (hcap : d.cap = true) (hsize : d.size = 16) (hn : d.n = 4) (w : Warp) {t : Nat} (ht : t < 32) (bs : List Byte) (tag : Bool) :
    w.RegsOnly (d.write w t bs tag) ∧ (d.write w t bs tag).quad d.reg t = BitVec.ofNat 128 (leNat bs)
      ∧ (d.write w t bs tag).qtag (d.reg / 4) t = (tag && (Cap.of (BitVec.ofNat 128 (leNat bs))).ok) := by
  obtain ⟨⟨regs, rtags, qtags, hv⟩, hreg⟩ := Warp.setRegs_run d t (fun k => BitVec.ofNat 32 (leNat bs / 2 ^ (32 * k))) ht d.n w
  have e : d.write w t bs tag = (((List.range d.n).foldl (fun w k =>
      (w.setReg (d.reg + k) t (BitVec.ofNat 32 (leNat bs / 2 ^ (32 * k)))).setRtag (d.reg + k) .general) w).setQtag (d.reg / 4) t
        (tag && (Cap.of (BitVec.ofNat 128 (leNat bs))).ok)) := by
    rw [Dst.write, if_pos hcap, hsize]
    rfl
  have hword : ∀ k < 4, (d.write w t bs tag).reg (d.reg + k) t = BitVec.ofNat 32 (leNat bs / 2 ^ (32 * k)) := fun k hk => by
    rw [e, Warp.reg_setQtag, hreg _ _ ht, if_pos ⟨rfl, by omega, by omega⟩, Nat.add_sub_cancel_left]
  refine ⟨?_, ?_, ?_⟩
  · rw [e, hv]
    exact ⟨_, _, _, rfl⟩
  · have h0 := hword 0 (by decide)
    rw [Nat.add_zero] at h0
    rw [Warp.quad, hword 3 (by decide), hword 2 (by decide), hword 1 (by decide), h0]
    exact quad_ofNat _
  · rw [e, Warp.qtag_setQtag _ _ _ _ _ _ ht, if_pos ⟨rfl, rfl⟩]

/-! ### The operation whose part performs -/

/-- A part has kept what it read. -/
def Op.keep (o : Op) (i : Item) (bs : List Byte) : Op :=
  { o with items := o.items.map fun j => if j.thread = i.thread && j.off = i.off then { j with data := BitVec.ofNat 128 (leNat bs) } else j }

/-- The bytes of a thread's access once one part has brought its own. -/
def Op.read (o : Op) (i : Item) (bs : List Byte) : List Byte :=
  (o.items.filter fun j => j.thread = i.thread).flatMap fun j => if j.off = i.off then bs else j.bytes

/-- All parts of a thread have brought their bytes once this one has. -/
def Op.complete (o : Op) (i : Item) : Bool := (o.items.filter fun j => j.thread = i.thread).all fun j => j.done || j.off = i.off

/-- A unit once a part has brought its bytes: the last of its thread's writes the destination. -/
def KUnit.bring (un : KUnit) (d : Dst) (o : Op) (i : Item) (bs : List Byte) (tag : Bool) : KUnit :=
  let v := un.editOp o.id fun o => o.keep i bs
  if o.complete i then v.editWarp o.warp fun w => if w.live.getLsbD i.thread then d.write w i.thread (o.read i bs) (tag && i.ctag) else w
  else v

theorem State.deliver_dst (s : State) (u : Nat) {o : Op} {d : Dst} (hd : o.dst = some d) (i : Item) (bs : List Byte) (tag : Bool) :
    s.deliver u o i bs tag = s.editUnit u fun un => un.bring d o i bs tag := by
  by_cases hall : o.complete i = true
  · have hall' : (o.items.filter fun j => decide (j.thread = i.thread)).all (fun j => j.done || decide (j.off = i.off)) = true := hall
    simp only [State.deliver, hd, hall', if_true, State.editWarp, State.editUnit_editUnit, KUnit.bring, hall]
    rfl
  · have hall' : ¬(o.items.filter fun j => decide (j.thread = i.thread)).all (fun j => j.done || decide (j.off = i.off)) = true := hall
    simp only [State.deliver, hd, hall', KUnit.bring, hall]
    rfl

/-- Nothing but its warps and operations differs. -/
def KUnit.SameButWork (u v : KUnit) : Prop := ∃ ws os, v = { u with warps := ws, ops := os }

theorem KUnit.bring_work (un : KUnit) (d : Dst) (o : Op) (i : Item) (bs : List Byte) (tag : Bool) : un.SameButWork (un.bring d o i bs tag) := by
  unfold KUnit.bring
  dsimp only
  split_ifs
  · exact ⟨_, _, rfl⟩
  · exact ⟨un.warps, _, rfl⟩

/-- The operations once a part has performed that kept what it read. -/
theorem KUnit.ops_bring_mark (un : KUnit) (d : Dst) (o : Op) (i : Item) (bs : List Byte) (tag : Bool) :
    ((un.bring d o i bs tag).editOp o.id fun o => o.mark i).ops = un.ops.map fun x => if x.id = o.id then
      { x with items := x.items.map fun j => if j.thread = i.thread && j.off = i.off then { j with done := true, data := BitVec.ofNat 128 (leNat bs) } else j }
    else x := by
  have hops : (un.bring d o i bs tag).ops = un.ops.map fun x => if x.id = o.id then x.keep i bs else x := by
    unfold KUnit.bring
    dsimp only
    split_ifs <;> rfl
  rw [KUnit.editOp, hops, List.map_map]
  refine List.map_congr_left fun x _ => ?_
  by_cases hx : x.id = o.id
  · simp only [Function.comp_apply, if_pos hx, Op.mark, Op.keep, List.map_map]
    congr 1
    refine List.map_congr_left fun j _ => ?_
    by_cases hj : (decide (j.thread = i.thread) && decide (j.off = i.off)) = true
    · simp only [Function.comp_apply, if_pos hj]
    · simp only [Function.comp_apply, hj, Bool.false_eq_true, if_false]
  · simp only [Function.comp_apply, if_neg hx]

/-- The warp that received what a part brought. -/
theorem KUnit.look_bring {un : KUnit} {o : Op} {w : Warp} (hw : Map.look un.warps o.warp = some w) (d : Dst) {i : Item}
    (hlive : w.live.getLsbD i.thread = true) (bs : List Byte) (tag : Bool) :
    Map.look (un.bring d o i bs tag).warps o.warp = some (if o.complete i then d.write w i.thread (o.read i bs) (tag && i.ctag) else w) := by
  unfold KUnit.bring
  dsimp only
  split_ifs
  · rw [KUnit.editWarp, Map.look_edit_self, KUnit.editOp, hw, Option.map_some, if_pos hlive]
  · exact hw

theorem Op.complete_iff (o : Op) (i : Item) :
    o.complete i = true ↔ ∀ z ∈ o.items.filter (fun y => y.thread = i.thread), z.done = true ∨ z.off = i.off := by
  simp only [Op.complete, List.all_eq_true, Bool.or_eq_true, decide_eq_true_eq]

/-- The registers of a load of data, or of an atomic, whose part has brought its bytes. -/
theorem Dst.Data.received {d : Dst} (h : d.Data) (w : Warp) {o : Op} {i : Item} (hx : i.thread < 32) {bs : List Byte} (tag : Bool) {value : Nat}
    (hval : leNat (o.read i bs) % 256 ^ 8 = value % 256 ^ 8) :
    let v := if o.complete i then d.write w i.thread (o.read i bs) tag else w
    v = { w with regs := v.regs, rtags := v.rtags, qtags := v.qtags } ∧ ∀ r y, y < 32 → v.reg r y =
      if y = i.thread ∧ d.reg ≤ r ∧ r < d.reg + d.n ∧ ∀ z ∈ o.items.filter (fun y => y.thread = i.thread), z.done = true ∨ z.off = i.off then
        loadWord d.size d.sext value (r - d.reg) else w.reg r y := by
  simp only [← Op.complete_iff]
  by_cases hall : o.complete i = true
  · obtain ⟨⟨regs, rtags, qtags, hv⟩, hreg⟩ := Dst.write_data h w hx (o.read i bs) tag
    simp only [hall, if_true, and_true]
    refine ⟨by rw [hv], fun r y hy => (hreg r y hy).trans ?_⟩
    by_cases hin : y = i.thread ∧ d.reg ≤ r ∧ r < d.reg + d.n
    · rw [if_pos hin, if_pos hin, h.word_low hval (by omega)]
    · rw [if_neg hin, if_neg hin]
  · simp only [hall, Bool.false_eq_true, if_false, and_false]
    exact ⟨trivial, fun _ _ _ => trivial⟩

/-- What an atomic brings of a number of more than 8 bytes has the number's low 8 bytes. -/
theorem Op.read_low (o : Op) {i : Item} {bs : List Byte} {n : Nat} (hlen : bs.length = n) :
    leNat (o.read i (leBytes n (BitVec.ofNat 64 (leNat bs)).toNat)) % 256 ^ 8 = leNat (o.read i bs) % 256 ^ 8 := by
  rw [← leNat_take, ← leNat_take]
  refine congrArg leNat (take_flatMap_congr (fun j _ => ?_) fun j _ => ?_)
  · split_ifs
    · rw [leBytes_length, hlen]
    · rfl
  · split_ifs
    · rw [BitVec.toNat_ofNat, show 2 ^ 64 = 256 ^ 8 from rfl, take_leBytes_mod, ← hlen, leBytes_leNat]
    · rfl

/-- A part that has performed leaves no fault behind it. -/
theorem Performed.settle {s t : State} {u op : Nat} {un : KUnit} {o : Op} {i : Item} (h : Performed s t u op i) (hu : s.unit? u = some un)
    (ho : un.op? op = some o) (hf : o.fails = []) : t.settle u op = t := by
  obtain ⟨un', vn, data, hu', hvn, hops⟩ := h
  obtain rfl : un = un' := Option.some.inj (hu.symm.trans hu')
  have hop := KUnit.op?_editOp (g := fun x => { x with items := x.items.map fun j => if j.thread = i.thread && j.off = i.off then
      { j with done := true, data := if reads i.kind then data else j.data } else j }) ho fun _ => rfl
  have e : vn.op? op = (un.editOp op fun x => { x with items := x.items.map fun j => if j.thread = i.thread && j.off = i.off then
      { j with done := true, data := if reads i.kind then data else j.data } else j }).op? op := by
    rw [KUnit.op?, hops]
    rfl
  exact State.settle_none hvn (e.trans hop) hf

section
variable {s : State} {u op x : Nat} {un : KUnit} {o : Op} {i : Item} (h : PartGoes s u op x un o i) (htx : i.tx = false)
  (hreach : s.reached i = none)
include h htx hreach

theorem PartGoes.performs_scr {tu off : Nat} {l : List ByteLoc} (hloc : i.locs = .scr tu off :: l) :
    s.performItem u op i = ((s.performScr u o i tu off).acquired un.core o i).editUnit u fun v => v.editOp op fun o => o.mark i := by
  simp only [State.performItem, h.unit, h.op, s.discards_plain u o htx, Bool.false_eq_true, if_false, hreach, KUnit.op?_id h.op, hloc]

theorem PartGoes.performs_phys {pa cx va : Nat} {k : PKind} {g : PageUse} {l : List ByteLoc} (hloc : i.locs = .phys pa k cx va g :: l) :
    s.performItem u op i = ((s.performPhys un u o i pa k).acquired un.core o i).editUnit u fun v => v.editOp op fun o => o.mark i := by
  simp only [State.performItem, h.unit, h.op, s.discards_plain u o htx, Bool.false_eq_true, if_false, hreach, KUnit.op?_id h.op, hloc]

end

end Sys2Proof.Machine
end

section
/-! SUPPORT. Accesses that perform in scratchpad and cluster space (R167, R168, R177) (O15). -/
namespace Sys2Proof.Machine

/-! ### A step in one scratchpad -/

/-- Nothing but the scratchpad of one unit differs. -/
structure ScratchStep (s s1 : State) (tu : Nat) (un2 v : KUnit) : Prop where
  rest : s1 = { s with units := s1.units }
  other : ∀ k, k ≠ tu → s1.unit? k = s.unit? k
  unit : s1.unit? tu = some v
  only : un2.ScratchOnly v

theorem KUnit.ScratchOnly.refl (u : KUnit) : u.ScratchOnly u := ⟨u.scratch, u.stags, u.spoison, rfl⟩

theorem ScratchStep.refl {s : State} {tu : Nat} {un2 : KUnit} (h : s.unit? tu = some un2) : ScratchStep s s tu un2 un2 :=
  ⟨rfl, fun _ _ => rfl, h, KUnit.ScratchOnly.refl un2⟩

theorem ScratchStep.edit {s : State} {tu : Nat} {un2 : KUnit} (h : s.unit? tu = some un2) {g : KUnit → KUnit} (hg : un2.ScratchOnly (g un2)) :
    ScratchStep s (s.editUnit tu g) tu un2 (g un2) :=
  ⟨rfl, fun k hk => by rw [State.unit?_editUnit, if_neg hk], by rw [State.unit?_editUnit, if_pos rfl, h, Option.map_some], hg⟩

theorem KUnit.ScratchOnly.ops_eq {u v : KUnit} (h : u.ScratchOnly v) : v.ops = u.ops := by
  obtain ⟨_, _, _, rfl⟩ := h
  rfl

/-- What part `i` of operation `op` leaves in the operations, with the data that it keeps. -/
def marked (l : List Op) (op : Nat) (i : Item) (data : BitVec 128) : List Op :=
  l.map fun x => if x.id = op then
    { x with items := x.items.map fun j =>
        if j.thread = i.thread && j.off = i.off then { j with done := true, data := if reads i.kind then data else j.data } else j }
  else x

theorem KUnit.ops_mark {i : Item} (hr : reads i.kind = false) (un : KUnit) (op : Nat) :
    (un.editOp op fun o => o.mark i).ops = marked un.ops op i 0#128 := by
  unfold marked
  simp only [hr, Bool.false_eq_true, if_false]
  rfl

theorem KUnit.ops_bring {i : Item} (hr : reads i.kind = true) (un : KUnit) (d : Dst) (o : Op) (bs : List Byte) (tag : Bool) :
    ((un.bring d o i bs tag).editOp o.id fun o => o.mark i).ops = marked un.ops o.id i (BitVec.ofNat 128 (leNat bs)) := by
  rw [KUnit.ops_bring_mark, marked]
  simp only [hr, if_true]

section
variable {s s1 : State} {tu : Nat} {un2 v : KUnit} (h : ScratchStep s s1 tu un2 v)
include h

/-- The step in the scratchpad, then the acquire and the change of the unit whose part performs. -/
theorem ScratchStep.keeps (u core : Nat) {o : Op} {i : Item} (htx : i.tx = false) (F : KUnit → KUnit) :
    let t := (s1.acquired core o i).editUnit u F
    t = { s with units := t.units, cores := t.cores } ∧ (∀ k, k ≠ tu → k ≠ u → t.unit? k = s.unit? k)
      ∧ ∀ k, t.core k = (if reads i.kind = true ∧ o.wideAcq = true then s.selfInvalidate core false else s).core k := by
  obtain ⟨hrest, hother, -, -⟩ := h
  have hacq : s1.acquired core o i = if reads i.kind = true ∧ o.wideAcq = true then s1.selfInvalidate core false else s1 := by
    simp only [State.acquired, htx, Bool.not_false, Bool.and_true, Bool.and_eq_true]
  have hcores : ∀ k, (s1.acquired core o i).core k = (if reads i.kind = true ∧ o.wideAcq = true then s.selfInvalidate core false else s).core k := by
    rw [hacq, hrest]
    intro k
    split_ifs <;> rfl
  have hshape : s1.acquired core o i = { s with units := s1.units, cores := (s1.acquired core o i).cores } := by
    rw [hacq]
    split_ifs
    · rw [hrest]
      rfl
    · rw [hrest]
  have hunit : ∀ k, (s1.acquired core o i).unit? k = s1.unit? k := fun k => by
    rw [hacq]
    split_ifs <;> rfl
  refine ⟨?_, fun k h1 h2 => ?_, hcores⟩
  · rw [hshape]
    rfl
  · rw [State.unit?_editUnit, if_neg h2, hunit, hother k h1]

theorem ScratchStep.unit_after {u core : Nat} {un : KUnit} (hu : s.unit? u = some un) (o : Op) (i : Item) (F : KUnit → KUnit) :
    ((s1.acquired core o i).editUnit u F).unit? tu = some (if tu = u then F v else v)
      ∧ ((s1.acquired core o i).editUnit u F).unit? u = some (F (if tu = u then v else un)) := by
  have hunit : ∀ k, (s1.acquired core o i).unit? k = s1.unit? k := fun k => by
    unfold State.acquired
    split_ifs <;> rfl
  by_cases hk : tu = u
  · subst hk
    rw [State.unit?_editUnit, if_pos rfl, hunit, h.unit, if_pos rfl, if_pos rfl, Option.map_some]
    exact ⟨rfl, rfl⟩
  · rw [State.unit?_editUnit, State.unit?_editUnit, if_neg hk, if_pos rfl, hunit, hunit, h.unit, h.other u (Ne.symm hk), hu, if_neg hk, if_neg hk]
    exact ⟨rfl, rfl⟩

theorem ScratchStep.performed {u core op : Nat} {un : KUnit} (hu : s.unit? u = some un) (h2 : s.unit? tu = some un2) (o : Op) {i : Item}
    {F : KUnit → KUnit} {data : BitVec 128} (hF : ∀ w, (F w).ops = marked w.ops op i data) :
    Performed s ((s1.acquired core o i).editUnit u F) u op i := by
  refine ⟨un, _, data, hu, (h.unit_after hu o i F).2, ?_⟩
  rw [hF]
  refine congrArg (fun l => marked l op i data) ?_
  split_ifs with hk
  · subst hk
    obtain rfl : un = un2 := Option.some.inj (hu.symm.trans h2)
    exact h.only.ops_eq
  · rfl

end

/-! ### A part in a scratchpad -/

theorem span_head {α : Type} (g : Nat → α) (off : Nat) {n : Nat} (h : 0 < n) : ∃ l, (span off n).map g = g off :: l := by
  obtain ⟨m, rfl⟩ := Nat.exists_eq_succ_of_ne_zero h.ne'
  exact ⟨_, by rw [span, List.range_succ_eq_map, List.map_cons, List.map_cons]; rfl⟩

/-- A part in scratchpad or cluster space that performs alone and fails no check. -/
structure ScratchPart (s : State) (u op x : Nat) (un un2 : KUnit) (o : Op) (i : Item) (tu off n : Nat) : Prop where
  goes : PartGoes s u op x un o i
  tx : i.tx = false
  fails : o.fails = []
  pos : 0 < n
  loc : i.locs = (span off n).map (.scr tu)
  unit2 : s.unit? tu = some un2
  clean : isStore i.kind = false → un2.spoisoned off n = false

section
variable {s : State} {u op x : Nat} {un un2 : KUnit} {o : Op} {i : Item} {tu off n : Nat} (h : ScratchPart s u op x un un2 o i tu off n)
include h

theorem ScratchPart.length : i.locs.length = n := by simp [h.loc, span]

theorem ScratchPart.head : ∃ l, i.locs = .scr tu off :: l := by
  rw [h.loc]
  exact span_head _ off h.pos

theorem ScratchPart.reached : s.reached i = none := by
  obtain ⟨l, hl⟩ := h.head
  have hsees : (i.seesMemory && un2.spoisoned off n) = false := by
    cases hk : i.kind with
    | store => simp [Item.seesMemory, reads, isRmw, hk]
    | storeCap => simp [Item.seesMemory, reads, isRmw, hk]
    | _ => rw [h.clean (by rw [hk]; rfl), Bool.and_false]
  have hlen := h.length
  rw [hl] at hlen
  simp only [State.reached, hl, h.unit2, Option.map_some, Option.getD_some, hlen, hsees, Bool.false_eq_true, if_false]

/-- The event, once the effect of the part is known. -/
theorem ScratchPart.runs {s1 : State} {v : KUnit} {F : KUnit → KUnit} {data : BitVec 128} (hstep : ScratchStep s s1 tu un2 v)
    (heffect : ((s.performScr u o i tu off).acquired un.core o i).editUnit u (fun v => v.editOp op fun o => o.mark i)
      = (s1.acquired un.core o i).editUnit u F) (hF : ∀ w, (F w).ops = marked w.ops op i data) :
    exec (.sliceAccess u op x) s = .next ((s1.acquired un.core o i).editUnit u F)
      ∧ Performed s ((s1.acquired un.core o i).editUnit u F) u op i := by
  have hperf := hstep.performed (core := un.core) h.goes.unit h.unit2 o hF
  obtain ⟨l, hl⟩ := h.head
  refine ⟨?_, hperf⟩
  rw [sliceAccess_alone h.goes, h.goes.performs_scr h.tx h.reached hl, heffect, hperf.settle h.goes.unit h.goes.op h.fails]

/-- A part that writes and reads nothing. -/
theorem ScratchPart.puts {g : KUnit → KUnit} (hr : reads i.kind = false) (hg : un2.ScratchOnly (g un2))
    (heffect : s.performScr u o i tu off = s.editUnit tu g) :
    exec (.sliceAccess u op x) s = .next (((s.editUnit tu g).acquired un.core o i).editUnit u fun v => v.editOp op fun o => o.mark i)
      ∧ Performed s (((s.editUnit tu g).acquired un.core o i).editUnit u fun v => v.editOp op fun o => o.mark i) u op i :=
  h.runs (ScratchStep.edit h.unit2 hg) (by rw [heffect]) fun w => KUnit.ops_mark hr w op

/-- A part that brings what stood in the scratchpad. -/
theorem ScratchPart.brings {s1 : State} {v : KUnit} {d : Dst} (hd : o.dst = some d) (hr : reads i.kind = true) (hstep : ScratchStep s s1 tu un2 v)
    {bs : List Byte} {tag : Bool} (heffect : s.performScr u o i tu off = s1.deliver u o i bs tag) :
    let F := fun w : KUnit => (w.bring d o i bs tag).editOp o.id fun o => o.mark i
    exec (.sliceAccess u op x) s = .next ((s1.acquired un.core o i).editUnit u F)
      ∧ Performed s ((s1.acquired un.core o i).editUnit u F) u op i := by
  have hid := KUnit.op?_id h.goes.op
  refine h.runs hstep ?_ fun w => by rw [KUnit.ops_bring hr, hid]
  have hacq : (s1.editUnit u fun w => w.bring d o i bs tag).acquired un.core o i
      = (s1.acquired un.core o i).editUnit u fun w => w.bring d o i bs tag := by
    unfold State.acquired
    split_ifs <;> rfl
  rw [heffect, State.deliver_dst _ _ hd, hacq, State.editUnit_editUnit, hid]

/-- Where the destination's warp is live, it has received what was read. -/
theorem ScratchPart.warp_after {s1 : State} {v : KUnit} {d : Dst} {w : Warp} (hstep : ScratchStep s s1 tu un2 v) (hw : s.warp? u o.warp = some w)
    (hlive : w.live.getLsbD x = true) (bs : List Byte) (tag : Bool) :
    ((s1.acquired un.core o i).editUnit u fun w => (w.bring d o i bs tag).editOp o.id fun o => o.mark i).warp? u o.warp
      = some (if o.complete i then d.write w x (o.read i bs) (tag && i.ctag) else w) := by
  obtain ⟨hx, -⟩ := h.goes.thread
  subst hx
  have hlook : Map.look (if tu = u then v else un).warps o.warp = some w := by
    have hwun : Map.look un.warps o.warp = some w := by simpa [State.warp?, h.goes.unit] using hw
    split_ifs with hk
    · subst hk
      obtain rfl : un = un2 := Option.some.inj (h.goes.unit.symm.trans h.unit2)
      rwa [hstep.only.warps_eq]
    · exact hwun
  rw [State.warp?, (hstep.unit_after h.goes.unit o i _).2, Option.bind_some]
  exact KUnit.look_bring hlook d hlive bs tag

/-- Loads and atomics: the event, the warp whose registers receive, and the step in the scratchpad. -/
theorem ScratchPart.data {s1 : State} {v : KUnit} {d : Dst} {w : Warp} (hd : o.dst = some d) (hw : s.warp? u o.warp = some w)
    (hlive : w.live.getLsbD x = true) (hx : x < 32) (hr : reads i.kind = true) (hdata : d.Data) (hstep : ScratchStep s s1 tu un2 v) {bs : List Byte}
    {tag : Bool} (heffect : s.performScr u o i tu off = s1.deliver u o i bs tag) {value : Nat}
    (hval : leNat (o.read i bs) % 256 ^ 8 = value % 256 ^ 8) :
    ∃ t a F, exec (.sliceAccess u op x) s = .next t ∧ t = (s1.acquired un.core o i).editUnit u F ∧ (∀ w, (F w).scratch = w.scratch)
      ∧ t.warp? u o.warp = some a ∧ a = { w with regs := a.regs, rtags := a.rtags, qtags := a.qtags }
      ∧ (∀ r y, y < 32 → a.reg r y = if y = x ∧ d.reg ≤ r ∧ r < d.reg + d.n
          ∧ ∀ z ∈ o.items.filter (fun y => y.thread = x), z.done = true ∨ z.off = i.off then loadWord d.size d.sext value (r - d.reg) else w.reg r y)
      ∧ Performed s t u op i := by
  obtain ⟨hexec, hperf⟩ := h.brings hd hr hstep heffect
  obtain ⟨hthread, -⟩ := h.goes.thread
  have hwarp := h.warp_after (d := d) hstep hw hlive bs tag
  subst hthread
  obtain ⟨hsame, hreg⟩ := hdata.received w hx (tag && i.ctag) hval
  refine ⟨_, _, _, hexec, rfl, fun v => ?_, hwarp, hsame, hreg, hperf⟩
  obtain ⟨ws, os, e⟩ := v.bring_work d o i bs tag
  rw [e]
  rfl

end

/-- A part that no kind of reduction is waits for no reduction. -/
theorem State.redFirst_other (s : State) (core : Nat) (o : Op) {i : Item} (h : ∀ a, i.kind ≠ .red a) : s.redFirst core o i = false := by
  unfold State.redFirst
  split
  · next a hk => exact absurd hk (h a)
  · rfl

/-- The scratchpad, its tags and the rest of a unit whose operation is marked are those it had. -/
theorem ScratchStep.marked_unit {s s1 : State} {tu u core : Nat} {un un2 v : KUnit} (h : ScratchStep s s1 tu un2 v) (hu : s.unit? u = some un)
    (o : Op) (i : Item) (op : Nat) :
    ∃ un3, ((s1.acquired core o i).editUnit u fun v => v.editOp op fun o => o.mark i).unit? tu = some un3 ∧ un3.warps = un2.warps
      ∧ un3.bars = un2.bars ∧ un3.acc = un2.acc ∧ un3.scratch = v.scratch ∧ un3.stags = v.stags := by
  refine ⟨_, (h.unit_after hu o i _).1, ?_⟩
  rw [← h.only.warps_eq, ← h.only.bars_eq, ← h.only.acc_eq]
  split_ifs <;> exact ⟨rfl, rfl, rfl, rfl, rfl⟩

/-- The scratchpad of the unit after a change that leaves it alone. -/
theorem ScratchStep.scratch_after {s s1 : State} {tu u core : Nat} {un un2 v un3 : KUnit} (h : ScratchStep s s1 tu un2 v) (hu : s.unit? u = some un)
    {o : Op} {i : Item} {F : KUnit → KUnit} (hF : ∀ w, (F w).scratch = w.scratch)
    (h3 : ((s1.acquired core o i).editUnit u F).unit? tu = some un3) : un3.scratch = v.scratch := by
  rw [(h.unit_after hu o i F).1, Option.some.injEq] at h3
  rw [← h3]
  split_ifs
  · exact hF v
  · rfl

section
variable {s : State} {u op x : Nat} {un un2 : KUnit} {o : Op} {i : Item} {tu off n : Nat} (h : ScratchPart s u op x un un2 o i tu off n)
include h

/-- A store, of data or of a capability. -/
theorem ScratchPart.stores (hk : i.kind = .store ∨ i.kind = .storeCap) (hfr : un2.frozen = false) :
    ∃ t un3, exec (.sliceAccess u op x) s = .next t
      ∧ (t = { s with units := t.units, cores := t.cores } ∧ (∀ k, k ≠ tu → k ≠ u → t.unit? k = s.unit? k)
        ∧ ∀ k, t.core k = (if reads i.kind = true ∧ o.wideAcq = true then s.selfInvalidate un.core false else s).core k)
      ∧ t.unit? tu = some un3 ∧ un3.warps = un2.warps ∧ un3.bars = un2.bars ∧ un3.acc = un2.acc
      ∧ (∀ b, un3.sbyte b = if off ≤ b ∧ b < off + n then BitVec.ofNat 8 (i.data.toNat / 256 ^ (b - off)) else un2.sbyte b)
      ∧ (∀ g, NSet.has un3.stags g = if off / 16 ≤ g ∧ g ≤ (off + n - 1) / 16 then decide (i.kind = .storeCap) && i.tag else NSet.has un2.stags g)
      ∧ Performed s t u op i := by
  have hbytes : i.bytes = leBytes n i.data.toNat := by rw [Item.bytes, h.length]
  have hr : reads i.kind = false := by obtain hk | hk := hk <;> rw [hk] <;> rfl
  have heffect : s.performScr u o i tu off
      = s.editUnit tu fun t => t.sput off (leBytes n i.data.toNat) (decide (i.kind = .storeCap) && i.tag) := by
    obtain hk | hk := hk <;> simp [State.performScr, h.unit2, hk, hbytes]
  obtain ⟨hexec, hperf⟩ := h.puts hr (KUnit.scratchOnly_sput ..) heffect
  have hstep := ScratchStep.edit (g := fun t => t.sput off (leBytes n i.data.toNat) (decide (i.kind = .storeCap) && i.tag)) h.unit2
    (KUnit.scratchOnly_sput un2 off (leBytes n i.data.toNat) (decide (i.kind = .storeCap) && i.tag))
  obtain ⟨un3, h3, hwarps, hbars, hacc, hscratch, hstags⟩ := hstep.marked_unit (core := un.core) h.goes.unit o i op
  refine ⟨_, un3, hexec, hstep.keeps u un.core h.tx _, h3, hwarps, hbars, hacc, fun b => ?_, fun g => ?_, hperf⟩
  · rw [KUnit.sbyte, hscratch]
    exact KUnit.sbyte_sput_leBytes hfr off n _ _ b
  · rw [hstags, KUnit.stags_sput hfr h.pos]

/-- An atomic that brings nothing. -/
theorem ScratchPart.reduces {a : RmwOp} (hk : i.kind = .red a) (hn : n = 4 ∨ n = 8) (hf : a = .addF → n = 4) (hdata : i.data.toNat < 256 ^ n)
    (hfr : un2.frozen = false) :
    ∃ t un3, exec (.sliceAccess u op x) s = .next t
      ∧ (t = { s with units := t.units, cores := t.cores } ∧ (∀ k, k ≠ tu → k ≠ u → t.unit? k = s.unit? k)
        ∧ ∀ k, t.core k = (if reads i.kind = true ∧ o.wideAcq = true then s.selfInvalidate un.core false else s).core k)
      ∧ t.unit? tu = some un3 ∧ un3.warps = un2.warps
      ∧ (∀ b, un3.sbyte b = if off ≤ b ∧ b < off + n then
          BitVec.ofNat 8 (rmwValue a n (leNat (un2.sbytes off n)) i.data.toNat 0 / 256 ^ (b - off)) else un2.sbyte b)
      ∧ Performed s t u op i := by
  have heffect : s.performScr u o i tu off = s.editUnit tu fun t => (t.rmw off a n (BitVec.ofNat 64 i.data.toNat) 0#64).1 := by
    simp only [State.performScr, h.unit2, hk, h.length]
    rfl
  obtain ⟨hexec, hperf⟩ := h.puts (by rw [hk]; rfl) (KUnit.rmw_eq ..).1 heffect
  have hstep := ScratchStep.edit (g := fun t => (t.rmw off a n (BitVec.ofNat 64 i.data.toNat) 0#64).1) h.unit2
    (KUnit.rmw_eq un2 off a n (BitVec.ofNat 64 i.data.toNat) 0#64).1
  obtain ⟨un3, h3, hwarps, -, -, hscratch, -⟩ := hstep.marked_unit (core := un.core) h.goes.unit o i op
  refine ⟨_, un3, hexec, hstep.keeps u un.core h.tx _, h3, hwarps, fun b => ?_, hperf⟩
  rw [KUnit.sbyte, hscratch]
  exact KUnit.sbyte_rmw hfr off hn hf hdata b

/-- A load. -/
theorem ScratchPart.loads {d : Dst} {w : Warp} (hd : o.dst = some d) (hw : s.warp? u o.warp = some w) (hlive : w.live.getLsbD x = true) (hx : x < 32)
    (hk : i.kind = .load) (hdata : d.Data) :
    ∃ t a, exec (.sliceAccess u op x) s = .next t
      ∧ (t = { s with units := t.units, cores := t.cores } ∧ (∀ k, k ≠ tu → k ≠ u → t.unit? k = s.unit? k)
        ∧ ∀ k, t.core k = (if reads i.kind = true ∧ o.wideAcq = true then s.selfInvalidate un.core false else s).core k)
      ∧ t.warp? u o.warp = some a ∧ a = { w with regs := a.regs, rtags := a.rtags, qtags := a.qtags }
      ∧ (∀ r y, y < 32 → a.reg r y = if y = x ∧ d.reg ≤ r ∧ r < d.reg + d.n
          ∧ ∀ z ∈ o.items.filter (fun y => y.thread = x), z.done = true ∨ z.off = i.off then
          loadWord d.size d.sext (leNat (o.read i (un2.sbytes off n))) (r - d.reg) else w.reg r y)
      ∧ (∀ un3, t.unit? tu = some un3 → un3.scratch = un2.scratch) ∧ Performed s t u op i := by
  have heffect : s.performScr u o i tu off = s.deliver u o i (un2.sbytes off n) false := by
    simp only [State.performScr, h.unit2, hk, h.length]
  have hstep := ScratchStep.refl h.unit2
  obtain ⟨t, a, F, hexec, rfl, hF, hrest⟩ := h.data hd hw hlive hx (by rw [hk]; rfl) hdata hstep heffect rfl
  obtain ⟨hwarp, hsame, hreg, hperf⟩ := hrest
  exact ⟨_, a, hexec, hstep.keeps u un.core h.tx F, hwarp, hsame, hreg, fun un3 h3 => hstep.scratch_after h.goes.unit hF h3, hperf⟩

/-- An atomic that brings what stood there. -/
theorem ScratchPart.atomics {d : Dst} {w : Warp} (hd : o.dst = some d) (hw : s.warp? u o.warp = some w) (hlive : w.live.getLsbD x = true) (hx : x < 32)
    {a : RmwOp} (hk : i.kind = .atom a) (hdata : d.Data) :
    ∃ t v, exec (.sliceAccess u op x) s = .next t
      ∧ (t = { s with units := t.units, cores := t.cores } ∧ (∀ k, k ≠ tu → k ≠ u → t.unit? k = s.unit? k)
        ∧ ∀ k, t.core k = (if reads i.kind = true ∧ o.wideAcq = true then s.selfInvalidate un.core false else s).core k)
      ∧ t.warp? u o.warp = some v ∧ v = { w with regs := v.regs, rtags := v.rtags, qtags := v.qtags }
      ∧ (∀ r y, y < 32 → v.reg r y = if y = x ∧ d.reg ≤ r ∧ r < d.reg + d.n
          ∧ ∀ z ∈ o.items.filter (fun y => y.thread = x), z.done = true ∨ z.off = i.off then
          loadWord d.size d.sext (leNat (o.read i (un2.sbytes off n))) (r - d.reg) else w.reg r y)
      ∧ (n = 4 ∨ n = 8 → (a = .addF → n = 4) → i.data.toNat < 256 ^ n → un2.frozen = false → ∀ un3, t.unit? tu = some un3 →
          ∀ b, un3.sbyte b = if off ≤ b ∧ b < off + n then
            BitVec.ofNat 8 (rmwValue a n (leNat (un2.sbytes off n)) i.data.toNat i.cmp.toNat / 256 ^ (b - off)) else un2.sbyte b)
      ∧ Performed s t u op i := by
  obtain ⟨honly, hold⟩ := KUnit.rmw_eq un2 off a n (BitVec.ofNat 64 i.data.toNat) i.cmp
  have hstep := ScratchStep.edit (g := fun _ => (un2.rmw off a n (BitVec.ofNat 64 i.data.toNat) i.cmp).1) h.unit2 honly
  have heffect : s.performScr u o i tu off = (s.editUnit tu fun _ => (un2.rmw off a n (BitVec.ofNat 64 i.data.toNat) i.cmp).1).deliver u o i
      (leBytes n (BitVec.ofNat 64 (leNat (un2.sbytes off n))).toNat) false := by
    rw [← hold]
    simp only [State.performScr, h.unit2, hk, h.length]
    rfl
  obtain ⟨t, v, F, hexec, rfl, hF, hrest⟩ :=
    h.data hd hw hlive hx (by rw [hk]; rfl) hdata hstep heffect (o.read_low (i := i) (un2.sbytes_length off n))
  obtain ⟨hwarp, hsame, hreg, hperf⟩ := hrest
  refine ⟨_, v, hexec, hstep.keeps u un.core h.tx F, hwarp, hsame, hreg, fun hn hf hval hfr un3 h3 b => ?_, hperf⟩
  rw [KUnit.sbyte, hstep.scratch_after h.goes.unit hF h3]
  exact KUnit.sbyte_rmw hfr off hn hf hval b

/-- A capability load of one part. -/
theorem ScratchPart.loadsCap {d : Dst} {w : Warp} (hd : o.dst = some d) (hw : s.warp? u o.warp = some w) (hlive : w.live.getLsbD x = true) (hx : x < 32)
    (hk : i.kind = .loadCap) (hcap : d.cap = true) (hsize : d.size = 16) (hn : d.n = 4) (hmine : o.items.filter (fun y => y.thread = x) = [i]) :
    ∃ t v, exec (.sliceAccess u op x) s = .next t ∧ t.warp? u o.warp = some v ∧ v = { w with regs := v.regs, rtags := v.rtags, qtags := v.qtags }
      ∧ v.quad d.reg x = BitVec.ofNat 128 (leNat (un2.sbytes off n))
      ∧ v.qtag (d.reg / 4) x = (NSet.has un2.stags (off / 16) && i.ctag && (Cap.of (BitVec.ofNat 128 (leNat (un2.sbytes off n)))).ok)
      ∧ (t = { s with units := t.units, cores := t.cores } ∧ (∀ k, k ≠ tu → k ≠ u → t.unit? k = s.unit? k)
        ∧ ∀ k, t.core k = (if reads i.kind = true ∧ o.wideAcq = true then s.selfInvalidate un.core false else s).core k)
      ∧ Performed s t u op i := by
  have heffect : s.performScr u o i tu off = s.deliver u o i (un2.sbytes off n) (NSet.has un2.stags (off / 16)) := by
    simp only [State.performScr, h.unit2, hk, h.length]
  have hstep := ScratchStep.refl h.unit2
  obtain ⟨hexec, hperf⟩ := h.brings hd (by rw [hk]; rfl) hstep heffect
  have hwarp := h.warp_after (d := d) hstep hw hlive (un2.sbytes off n) (NSet.has un2.stags (off / 16))
  obtain ⟨hthread, -⟩ := h.goes.thread
  have hcomplete : o.complete i = true := by
    rw [Op.complete_iff, hthread, hmine]
    exact fun z hz => .inr (by rw [List.mem_singleton.1 hz])
  have hread : o.read i (un2.sbytes off n) = un2.sbytes off n := by
    rw [Op.read, hthread, hmine, List.flatMap_singleton, if_pos rfl]
  rw [if_pos hcomplete, hread] at hwarp
  obtain ⟨⟨regs, rtags, qtags, hv⟩, hquad, htag⟩ :=
    Dst.write_cap hcap hsize hn w hx (un2.sbytes off n) (NSet.has un2.stags (off / 16) && i.ctag)
  exact ⟨_, _, hexec, hwarp, by rw [hv], hquad, htag, hstep.keeps u un.core h.tx _, hperf⟩

end

/-- Settles O15: each kind's effect in the scratchpad, and the destination that receives. -/
theorem scratchAccessPerforms : Obligations.ScratchAccessPerforms := by
  unfold Obligations.ScratchAccessPerforms
  intro s u op x un un2 o i tu off n hu hop hnext hmay htx hn hf hdisj hloc hu2 hpois
  obtain ⟨rfl, -⟩ : i.thread = x ∧ i.done = false := by simpa using List.find?_some hnext
  have hpart : s.redFirst un.core o i = false → ScratchPart s u op i.thread un un2 o i tu off n := fun hred => by
    obtain ⟨l, hl⟩ := span_head (ByteLoc.scr tu) off hn
    have hhead : i.locs = .scr tu off :: l := hloc.trans hl
    exact ⟨⟨hu, hop, hnext, hmay, Op.together_alone (List.mem_of_find?_eq_some hnext) hdisj, hred, by simp only [Item.peer, hhead],
      by simp only [State.itemHeld, hhead]⟩, htx, hf, hn, hloc, hu2, hpois⟩
  have hplain : (∀ a, i.kind ≠ .red a) → ScratchPart s u op i.thread un un2 o i tu off n := fun h => hpart (s.redFirst_other _ _ h)
  refine ⟨fun hk hfr => ?_, fun d w hd hw hlive hx => ⟨fun hk hcap hsize hregs => ?_, fun hk hcap h16 hsize hregs hmine => ?_⟩, ?_⟩
  · exact (hplain fun a e => by rw [e] at hk; obtain hk | hk := hk <;> exact absurd hk (by simp)).stores hk hfr
  · obtain hk | ⟨a, hk⟩ := hk
    · obtain ⟨t, v, hexec, hkept, hwarp, hsame, hreg, hscratch, hperf⟩ :=
        (hplain fun a e => by simp [hk] at e).loads hd hw hlive hx hk ⟨hcap, hsize, hregs⟩
      exact ⟨t, v, hexec, hkept, hwarp, hsame, hreg, fun _ => hscratch, fun a e => by simp [hk] at e, hperf⟩
    · obtain ⟨t, v, hexec, hkept, hwarp, hsame, hreg, hstored, hperf⟩ :=
        (hplain fun a e => by simp [hk] at e).atomics hd hw hlive hx hk ⟨hcap, hsize, hregs⟩
      exact ⟨t, v, hexec, hkept, hwarp, hsame, hreg, fun e => by simp [hk] at e, fun b hb h48 hf hval _ hfr =>
        by obtain rfl : a = b := by simpa [hk] using hb
           exact hstored h48 hf hval hfr, hperf⟩
  · exact (hplain fun a e => by simp [hk] at e).loadsCap hd hw hlive hx hk hcap hsize hregs hmine
  · intro a hk hn48 hfa hcas hdata hfr hred
    exact (hpart hred).reduces hk hn48 hfa hdata hfr

end Sys2Proof.Machine
end

section
/-! SUPPORT. What reads and writes in global memory leave alone (R180, R297, R354 to R357): everything but registrations, cached copies and the
transactions that their recalls doom. -/
namespace Sys2Proof.Machine

/-! ### No partial of an update-only reduction stands (R180) -/

theorem State.NoPartials.partial_none {s : State} (h : s.NoPartials) (j w : Nat) : (s.core j).partial? w = none := by
  obtain ⟨hreds, hheld⟩ := h j
  simp [CoreSt.partial?, redLook, hreds, hheld]

theorem foldl_fixed {α β : Type} {g : β → α → β} {s : β} (h : ∀ a, g s a = s) (l : List α) : l.foldl g s = s := by
  induction l with
  | nil => rfl
  | cons a l ih => rw [List.foldl_cons, h, ih]

theorem State.NoPartials.combine {s : State} (h : s.NoPartials) (pa n : Nat) : s.combine pa n = s := by
  unfold State.combine
  refine foldl_fixed (fun w => ?_) _
  refine foldl_fixed (fun c => ?_) _
  have hcore : s.combineCore c w = s := by rw [State.combineCore, h.partial_none]
  simp only [hcore, h.partial_none]

/-! ### Transactions doomed by a recall (R357) -/

/-- Units whose transactions are changed. -/
def mapTxns (h : Nat → Nat → Nat → Txn → Txn) (m : Map KUnit) : Map KUnit :=
  Map.each m fun u un => { un with warps := Map.each un.warps fun w wp => { wp with txn := Map.each wp.txn fun t x => h u w t x } }

theorem Map.each_each {α β γ : Type} (m : Map α) (f : Nat → α → β) (g : Nat → β → γ) :
    Map.each (Map.each m f) g = Map.each m fun k x => g k (f k x) := by
  simp only [Map.each, List.map_map]
  rfl

theorem Map.each_id {α : Type} (m : Map α) : Map.each m (fun _ x => x) = m := List.map_id m

theorem mapTxns_mapTxns (g h : Nat → Nat → Nat → Txn → Txn) (m : Map KUnit) :
    mapTxns g (mapTxns h m) = mapTxns (fun u w t x => g u w t (h u w t x)) m := by
  simp only [mapTxns, Map.each_each]

theorem mapTxns_id (m : Map KUnit) : mapTxns (fun _ _ _ x => x) m = m := by
  simp only [mapTxns, Map.each_id]

/-- A warp whose transactions are changed. -/
def Warp.mapTxn (h : Nat → Txn → Txn) (w : Warp) : Warp := { w with txn := Map.each w.txn h }

theorem look_mapTxns (h : Nat → Nat → Nat → Txn → Txn) (m : Map KUnit) (u : Nat) :
    Map.look (mapTxns h m) u = (Map.look m u).map fun un => { un with warps := Map.each un.warps fun w => Warp.mapTxn (h u w) } :=
  Map.look_each ..

/-! ### What is left alone -/

/-- The value and the tag of a cached copy are those of memory. -/
def Copy.True (s : State) (w : Nat) (y : Copy) : Prop := y.val = BitVec.ofNat 32 (leNat (s.bytes (4 * w) 4)) ∧ y.tag = NSet.has s.tags (w / 4)

/-- Nothing but registrations, cached copies, free choices taken and doomed transactions differs; a cached copy that was made is true. -/
structure Stirred (s t : State) : Prop where
  rest : ∃ ro sl cs fi us, t = { s with regOwner := ro, slice := sl, cores := cs, freeIx := fi, units := us }
  units : ∃ h : Nat → Nat → Nat → Txn → Txn, (∀ u w x y, y.st ≠ .opened → h u w x y = y) ∧ t.units = mapTxns h s.units
  partials : ∀ j, (t.core j).reds = (s.core j).reds ∧ (t.core j).held = (s.core j).held
  copies : ∀ j w y, Map.look (t.core j).copies w = some y → Map.look (s.core j).copies w = some y ∨ y.True s w

theorem Stirred.refl (s : State) : Stirred s s :=
  ⟨⟨_, _, _, _, _, rfl⟩, ⟨fun _ _ _ x => x, fun _ _ _ _ _ => rfl, (mapTxns_id _).symm⟩, fun _ => ⟨rfl, rfl⟩, fun _ _ _ => .inl⟩

section
variable {s t : State} (h : Stirred s t)
include h

theorem Stirred.mem : t.mem = s.mem := by
  obtain ⟨⟨_, _, _, _, _, rfl⟩, -, -, -⟩ := h
  rfl

theorem Stirred.tags : t.tags = s.tags := by
  obtain ⟨⟨_, _, _, _, _, rfl⟩, -, -, -⟩ := h
  rfl

theorem Stirred.byte (a : Nat) : t.byte a = s.byte a := by rw [State.byte, State.byte, h.mem]

theorem Stirred.bytes (a n : Nat) : t.bytes a n = s.bytes a n := by
  rw [State.bytes, State.bytes, funext h.byte]

theorem Stirred.true_iff (w : Nat) (y : Copy) : y.True t w ↔ y.True s w := by
  rw [Copy.True, Copy.True, h.bytes, h.tags]

theorem Stirred.quiet (hq : s.NoPartials) : t.NoPartials := fun j => by
  obtain ⟨hreds, hheld⟩ := h.partials j
  rw [hreds, hheld]
  exact hq j

end

theorem Stirred.trans {s t r : State} (h : Stirred s t) (h' : Stirred t r) : Stirred s r := by
  have htrue := h.true_iff
  obtain ⟨⟨ro, sl, cs, fi, us, e⟩, ⟨g, hg, hus⟩, hp, hc⟩ := h
  obtain ⟨⟨ro', sl', cs', fi', us', e'⟩, ⟨g', hg', hus'⟩, hp', hc'⟩ := h'
  refine ⟨⟨ro', sl', cs', fi', us', by rw [e', e]⟩, ⟨fun u w x y => g' u w x (g u w x y), fun u w x y hy => ?_, ?_⟩, fun j => ?_, fun j w y hy => ?_⟩
  · exact (congrArg (g' u w x) (hg u w x y hy)).trans (hg' u w x y hy)
  · rw [hus', hus, mapTxns_mapTxns]
  · rw [(hp' j).1, (hp' j).2]
    exact hp j
  · obtain hy | hy := hc' j w y hy
    · exact hc j w y hy
    · exact .inr ((htrue w y).1 hy)

/-- A fold of steps that each leave the rest alone. -/
theorem Stirred.foldl {α : Type} {g : State → α → State} (h : ∀ s a, Stirred s (g s a)) (l : List α) (s : State) : Stirred s (l.foldl g s) := by
  induction l generalizing s with
  | nil => exact Stirred.refl s
  | cons a l ih => exact (h s a).trans (ih (g s a))

/-- A change of one core's cached copies. -/
theorem Stirred.core (s : State) (c : Nat) {g : CoreSt → CoreSt} (hred : (g (s.core c)).reds = (s.core c).reds)
    (hheld : (g (s.core c)).held = (s.core c).held)
    (hcopies : ∀ w y, Map.look (g (s.core c)).copies w = some y → Map.look (s.core c).copies w = some y ∨ y.True s w) : Stirred s (s.editCore c g) := by
  refine ⟨⟨_, _, _, _, _, rfl⟩, ⟨fun _ _ _ x => x, fun _ _ _ _ _ => rfl, (mapTxns_id _).symm⟩, fun j => ?_, fun j w y => ?_⟩
  · rw [State.core_editCore]
    split_ifs with hj
    · rw [hj]
      exact ⟨hred, hheld⟩
    · exact ⟨rfl, rfl⟩
  · rw [State.core_editCore]
    split_ifs with hj
    · rw [hj]
      exact hcopies w y
    · exact .inl

theorem Stirred.dropWord (s : State) (c w : Nat) : Stirred s (s.editCore c fun k => k.dropWord w) := by
  refine Stirred.core s c rfl rfl fun v y hy => ?_
  rw [CoreSt.dropWord, Map.look_del] at hy
  split_ifs at hy
  exact .inl hy

theorem Stirred.regs (s : State) (ro : Map Nat) (sl : List Host.Cell) (fi : Nat) : Stirred s { s with regOwner := ro, slice := sl, freeIx := fi } :=
  ⟨⟨_, _, _, _, _, rfl⟩, ⟨fun _ _ _ x => x, fun _ _ _ _ _ => rfl, (mapTxns_id _).symm⟩, fun _ => ⟨rfl, rfl⟩, fun _ _ _ => .inl⟩

theorem Stirred.unregister (s : State) (w : Nat) (b : Bool) : Stirred s (s.unregister w b) := by
  unfold State.unregister
  split
  · exact Stirred.refl s
  · split_ifs
    · exact (Stirred.regs s _ _ s.freeIx).trans (Stirred.dropWord _ _ w)
    · exact Stirred.regs s _ _ s.freeIx

theorem Stirred.register (s : State) (w core : Nat) : Stirred s (s.register w core) := Stirred.regs s _ _ s.freeIx

theorem Stirred.recall (s : State) (secs : List Nat) (self : Option (Nat × Nat × Nat)) : Stirred s (s.recallWatches secs self) := by
  refine ⟨⟨_, _, _, _, _, rfl⟩, ⟨fun u w t x => if self ≠ some (u, w, t) && s.soloHolder ≠ some (u, w, t) && secs.any x.watches then x.doom 5#4 else x,
    fun u w t x hx => ?_, rfl⟩, fun _ => ⟨rfl, rfl⟩, fun _ _ _ => .inl⟩
  have hdoom : x.doom 5#4 = x := if_neg hx
  dsimp only
  rw [hdoom, ite_self]

theorem Stirred.fill (s : State) (core : Nat) (ws : List Nat) (uPage : Bool) : Stirred s (s.fillWords core ws uPage) := by
  refine Stirred.core s core rfl rfl fun w y => ?_
  change Map.look (ws.foldl (fun m w => Map.put m w (s.copyOf w uPage (s.core core).stamp)) (s.core core).copies) w = some y → _
  generalize (s.core core).copies = m
  induction ws generalizing m with
  | nil => exact .inl
  | cons v ws ih =>
    intro hy
    obtain hy | hy := ih _ hy
    · rw [Map.look_put] at hy
      split_ifs at hy with hv
      · rw [← Option.some.inj hy, hv]
        exact .inr ⟨rfl, rfl⟩
      · exact .inl hy
    · exact .inr hy

/-! ### Reads -/

theorem Stirred.dropStale (s : State) (core : Nat) (ws : List Nat) : Stirred s (s.dropStale core ws) :=
  Stirred.foldl (fun s w => by
    split_ifs
    · exact Stirred.refl s
    · exact Stirred.dropWord s core w) ws s

theorem Stirred.makeRoom (s : State) (core line : Nat) : Stirred s (s.makeRoom core line) := by
  unfold State.makeRoom
  split
  · exact Stirred.refl s
  · dsimp only
    split_ifs
    · exact (Stirred.regs s s.regOwner s.slice _).trans (Stirred.unregister ..)
    · exact Stirred.regs s s.regOwner s.slice _

theorem Stirred.sliceRoom {s : State} (hq : s.NoPartials) (line : Nat) : Stirred s (s.sliceRoom line) := by
  unfold State.sliceRoom
  split
  · exact Stirred.refl s
  · dsimp only
    split_ifs
    · have hstep := Stirred.regs s s.regOwner s.slice ((s.choose).2.freeIx + 1)
      have hq' := hstep.quiet hq
      refine hstep.trans (.trans ?_ (Stirred.recall ..))
      rw [show ({ (s.choose).2 with freeIx := (s.choose).2.freeIx + 1 } : State)
        = { s with regOwner := s.regOwner, slice := s.slice, freeIx := (s.choose).2.freeIx + 1 } from rfl, hq'.combine]
      exact Stirred.foldl (fun s w => Stirred.unregister s w true) _ _
    · exact Stirred.regs s s.regOwner s.slice _

/-! ### What a read returns -/

theorem State.bytes_length (s : State) (a n : Nat) : (s.bytes a n).length = n := by simp [State.bytes, span]

theorem span_succ (a n : Nat) : span a (n + 1) = a :: span (a + 1) n := by
  simp [span, List.range_succ_eq_map, Function.comp_def, Nat.add_comm, Nat.add_left_comm]

theorem span_add (a n m : Nat) : span a (n + m) = span a n ++ span (a + n) m := by
  simp [span, List.range_add, Function.comp_def, Nat.add_assoc]

theorem State.bytes_add (s : State) (a n m : Nat) : s.bytes a (n + m) = s.bytes a n ++ s.bytes (a + n) m := by
  rw [State.bytes, span_add, List.map_append]
  rfl

/-- Bytes among those of whole words. -/
theorem State.bytes_within (s : State) {a i n m : Nat} (h : i + n ≤ m) : ((s.bytes a m).drop i).take n = s.bytes (a + i) n := by
  obtain ⟨r, rfl⟩ := Nat.exists_eq_add_of_le h
  rw [State.bytes_add, State.bytes_add, List.append_assoc, List.drop_append_of_le_length (by rw [State.bytes_length]),
    List.drop_of_length_le (by rw [State.bytes_length]), List.nil_append, List.take_append_of_le_length (by rw [State.bytes_length]),
    List.take_of_length_le (by rw [State.bytes_length])]

theorem State.flatten_words (s : State) (a k : Nat) : ((span a k).map fun w => s.bytes (4 * w) 4).flatten = s.bytes (4 * a) (4 * k) := by
  induction k generalizing a with
  | zero => rfl
  | succ k ih =>
    rw [span_succ, List.map_cons, List.flatten_cons, ih, show 4 * (k + 1) = 4 + 4 * k by omega, State.bytes_add]
    rfl

theorem List.mapM_some_map {α β γ : Type} {f : α → Option β} {g : β → γ} {k : α → γ} {l : List α} {r : List β}
    (h : ∀ a ∈ l, ∀ b, f a = some b → g b = k a) (e : l.mapM f = some r) : r.map g = l.map k := by
  induction l generalizing r with
  | nil =>
    obtain rfl : [] = r := by simpa using e
    rfl
  | cons a l ih =>
    rw [List.mapM_cons] at e
    obtain ⟨b, hb, e⟩ := Option.bind_eq_some_iff.1 e
    obtain ⟨r', hr', e⟩ := Option.bind_eq_some_iff.1 e
    obtain rfl := Option.some.inj e
    rw [List.map_cons, List.map_cons, h a List.mem_cons_self b hb, ih (fun a ha => h a (List.mem_cons_of_mem _ ha)) hr']

section
variable {s : State} {core pa n : Nat} {uPage : Bool} {x : List Byte × Bool}

/-- Cached copies that are not older than memory give its bytes. -/
theorem State.hit_bytes (hn : 0 < n)
    (hval : ∀ q ∈ wordsOf pa n, ∀ y, Map.look (s.core core).copies q = some y → y.val = BitVec.ofNat 32 (leNat (s.bytes (4 * q) 4)))
    (h : s.hit core uPage pa n = some x) : x.1 = s.bytes pa n := by
  unfold State.hit at h
  dsimp only at h
  split_ifs at h with hreg
  · rw [← Option.some.inj h]
  · split at h
    · next c cs hcopies =>
      split_ifs at h
      rw [← Option.some.inj h]
      have hwords : (c :: cs).map (fun d => leBytes 4 d.val.toNat) = (wordsOf pa n).map fun w => s.bytes (4 * w) 4 := by
        refine List.mapM_some_map (fun w hw y hy => ?_) hcopies
        obtain ⟨hlook, -⟩ := Option.filter_eq_some_iff.1 hy
        have hlt := leNat_lt (s.bytes (4 * w) 4)
        rw [State.bytes_length] at hlt
        rw [hval w hw y hlook, BitVec.toNat_ofNat, Nat.mod_eq_of_lt (hlt.trans_le (by decide))]
        have hback := leBytes_leNat (s.bytes (4 * w) 4)
        rwa [State.bytes_length] at hback
      rw [hwords, wordsOf, State.flatten_words]
      dsimp only
      rw [State.bytes_within _ (by omega), show 4 * (pa / 4) + pa % 4 = pa by omega]
    · exact absurd h (by simp)

/-- Cached copies whose tags are those of memory give its tag. -/
theorem State.hit_tag (htag : ∀ q ∈ wordsOf pa n, ∀ y, Map.look (s.core core).copies q = some y → y.tag = NSet.has s.tags (pa / 16))
    (h : s.hit core uPage pa n = some x) : x.2 = NSet.has s.tags (pa / 16) := by
  unfold State.hit at h
  dsimp only at h
  split_ifs at h with hreg
  · rw [← Option.some.inj h]
  · split at h
    · next c cs hcopies =>
      split_ifs at h
      rw [← Option.some.inj h]
      have htags : (c :: cs).map (·.tag) = (wordsOf pa n).map fun _ => NSet.has s.tags (pa / 16) := by
        refine List.mapM_some_map (fun w hw y hy => ?_) hcopies
        obtain ⟨hlook, -⟩ := Option.filter_eq_some_iff.1 hy
        exact htag w hw y hlook
      have hmem : c.tag ∈ (wordsOf pa n).map fun _ => NSet.has s.tags (pa / 16) := by
        rw [← htags]
        exact List.mem_cons_self
      obtain ⟨_, -, e⟩ := List.mem_map.1 hmem
      exact e.symm
    · exact absurd h (by simp)

end

/-- A read through the core's cache: what it leaves alone, and what it returns where the cached copies are not older than memory. -/
structure ReadsTrue (s : State) (core pa n : Nat) (r : State × List Byte × Bool) : Prop where
  stirred : Stirred s r.1
  bytes : (∀ q ∈ wordsOf pa n, ∀ y, Map.look (s.core core).copies q = some y → y.val = BitVec.ofNat 32 (leNat (s.bytes (4 * q) 4))) →
    r.2.1 = s.bytes pa n
  tag : (∀ q ∈ wordsOf pa n, ∀ y, Map.look (s.core core).copies q = some y → y.tag = NSet.has s.tags (pa / 16)) → r.2.2 = NSet.has s.tags (pa / 16)

theorem State.coreRead_true {s : State} (hq : s.NoPartials) (core : Nat) (uPage : Bool) (pa : Nat) {n : Nat} (hn : 0 < n) :
    ReadsTrue s core pa n (s.coreRead core uPage pa n) := by
  have hhome : ReadsTrue s core pa n (s, s.bytes pa n, NSet.has s.tags (pa / 16)) := ⟨Stirred.refl s, fun _ => rfl, fun _ => rfl⟩
  have hmiss : ∀ s', Stirred s s' → ReadsTrue s core pa n
      (let r := ((s'.makeRoom core (pa / 64)).sliceRoom (pa / 64)).homeRead pa n
       let ws := wordsOf pa n
       let fill := (span (pa / 64 * 16) 16).filter fun w => ws.contains w || (!(Map.has (r.1.core core).copies w) && !(r.1.hasPartial w))
       (r.1.fillWords core fill uPage, r.2, NSet.has r.1.tags (pa / 16))) := fun s' hs' => by
    have hroom := hs'.trans (Stirred.makeRoom s' core (pa / 64))
    have hslice := hroom.trans (Stirred.sliceRoom (hroom.quiet hq) (pa / 64))
    simp only [State.homeRead, (hslice.quiet hq).combine]
    exact ⟨hslice.trans (Stirred.fill ..), fun _ => hslice.bytes pa n, fun _ => by rw [hslice.tags]⟩
  unfold State.coreRead
  split_ifs
  · simp only [State.homeRead, hq.combine]
    exact hhome
  · cases hhit : s.hit core uPage pa n with
    | none => exact hmiss s (Stirred.refl s)
    | some x =>
      have hcached : ∀ s', Stirred s s' → ReadsTrue s core pa n (s', x) := fun s' hs' =>
        ⟨hs', fun hval => State.hit_bytes hn hval hhit, fun htag => State.hit_tag htag hhit⟩
      have hchose : Stirred s s.choose.2 := Stirred.regs s s.regOwner s.slice _
      dsimp only
      split_ifs
      · exact hcached s (Stirred.refl s)
      · exact hcached _ hchose
      · exact hmiss _ hchose

end Sys2Proof.Machine
end

section
/-! SUPPORT. Accesses that perform in global memory (R167, R168, R177, R180, R290, R297) (O16). -/
namespace Sys2Proof.Machine

/-! ### Reads and writes at the home and through the core's cache -/

theorem State.loadPhys_true {s : State} (hq : s.NoPartials) (core : Nat) (home : Bool) (k : PKind) (pa : Nat) {n : Nat} (hn : 0 < n) :
    ReadsTrue s core pa n (s.loadPhys core home k pa n) := by
  unfold State.loadPhys
  split_ifs
  · have hstale := Stirred.dropStale s core (wordsOf pa n)
    simp only [State.freshRead, State.homeRead, hq.combine]
    exact ⟨hstale, fun _ => rfl, fun _ => by rw [hstale.tags]⟩
  · exact State.coreRead_true hq core _ pa hn

/-- Bytes are written at the coherence point, with the tag of their granules, and nothing else but what is stirred. -/
def Wrote (s t : State) (pa : Nat) (bs : List Byte) (tag : Bool) : Prop := ∃ a, Stirred s a ∧ Stirred (a.put pa bs tag) t

theorem State.homeWrite_wrote {s : State} (hq : s.NoPartials) (self : Option (Nat × Nat × Nat)) (core : Option Nat) (pa : Nat) (bs : List Byte) (tag : Bool) :
    Wrote s (s.homeWrite self core pa bs tag) pa bs tag := by
  unfold State.homeWrite
  rw [hq.combine]
  refine ⟨_, .trans (Stirred.foldl (fun s w => ?_) _ _) (Stirred.recall ..), Stirred.refl _⟩
  have hun := Stirred.unregister s w true
  cases core with
  | none => exact hun
  | some c => exact hun.trans (Stirred.dropWord ..)

theorem State.coreWrite_wrote {s : State} (hq : s.NoPartials) (self : Option (Nat × Nat × Nat)) (core : Nat) (uPage : Bool) (pa : Nat) (bs : List Byte)
    (tag : Bool) : Wrote s (s.coreWrite self core uPage pa bs tag) pa bs tag := by
  unfold State.coreWrite
  split_ifs
  · exact State.homeWrite_wrote hq ..
  · rw [hq.combine]
    refine ⟨_, .trans (Stirred.foldl (fun s w => ?_) _ _) (Stirred.recall ..), Stirred.fill ..⟩
    refine .trans ?_ (Stirred.register ..)
    split_ifs
    · exact Stirred.refl s
    · exact Stirred.unregister s w true

/-- Transactions that were Open may have been doomed, and the units are else as they were. -/
def Dooms (s t : State) : Prop :=
  ∃ h : Nat → Nat → Nat → Txn → Txn, (∀ u w x y, y.st ≠ .opened → h u w x y = y) ∧ t.units = mapTxns h s.units

theorem Dooms.trans {s t r : State} (h : Dooms s t) (h' : Dooms t r) : Dooms s r := by
  obtain ⟨g, hg, e⟩ := h
  obtain ⟨g', hg', e'⟩ := h'
  exact ⟨fun u w x y => g' u w x (g u w x y), fun u w x y hy => (congrArg (g' u w x) (hg u w x y hy)).trans (hg' u w x y hy),
    by rw [e', e, mapTxns_mapTxns]⟩

theorem State.put_units (s : State) (pa : Nat) (bs : List Byte) (tag : Bool) : (s.put pa bs tag).units = s.units := by
  unfold State.put
  split_ifs <;> rfl

theorem State.has_put_tags (s : State) (pa : Nat) {bs : List Byte} (tag : Bool) (h : 0 < bs.length) (g : Nat) :
    NSet.has (s.put pa bs tag).tags g = if pa / 16 ≤ g ∧ g ≤ (pa + bs.length - 1) / 16 then tag else NSet.has s.tags g := by
  rw [State.put, if_neg (List.length_pos_iff.1 h)]
  exact has_markTags _ _ _ _ h g

/-- What no access changes: the device, the dies and the launches. -/
def State.backdrop (s : State) : Dev × Map Die × Map Launch := (s.dev, s.dies, s.launches)

theorem Stirred.backdrop {s t : State} (h : Stirred s t) : t.backdrop = s.backdrop := by
  obtain ⟨⟨_, _, _, _, _, rfl⟩, -, -, -⟩ := h
  rfl

theorem State.put_backdrop (s : State) (pa : Nat) (bs : List Byte) (tag : Bool) : (s.put pa bs tag).backdrop = s.backdrop := by
  unfold State.put
  split_ifs <;> rfl

section
variable {s t : State} {pa : Nat} {bs : List Byte} {tag : Bool} (h : Wrote s t pa bs tag)
include h

theorem Wrote.byte (a : Nat) : t.byte a = if pa ≤ a ∧ a < pa + bs.length then bs.getD (a - pa) 0#8 else s.byte a := by
  obtain ⟨r, h1, h2⟩ := h
  rw [h2.byte, State.byte_put, h1.byte]

theorem Wrote.has_tags (hn : 0 < bs.length) (g : Nat) :
    NSet.has t.tags g = if pa / 16 ≤ g ∧ g ≤ (pa + bs.length - 1) / 16 then tag else NSet.has s.tags g := by
  obtain ⟨r, h1, h2⟩ := h
  rw [h2.tags, State.has_put_tags _ _ _ hn, h1.tags]

theorem Wrote.dooms : Dooms s t := by
  obtain ⟨r, h1, h2⟩ := h
  obtain ⟨g, hg, e⟩ := h2.units
  exact Dooms.trans h1.units ⟨g, hg, by rw [e, State.put_units]⟩

theorem Wrote.backdrop : t.backdrop = s.backdrop := by
  obtain ⟨r, h1, h2⟩ := h
  rw [h2.backdrop, State.put_backdrop, h1.backdrop]

end

/-- An atomic at the home: it brings the number that stood there, and leaves the value of its operation. -/
theorem State.rmwHome_cases {s : State} (hq : s.NoPartials) (self : Option (Nat × Nat × Nat)) (core : Option Nat) (pa : Nat) (op : RmwOp) (n : Nat)
    (x cmp : Word64) :
    let r := s.rmwHome self core pa op n x cmp
    let old := BitVec.ofNat 64 (leNat (s.bytes pa n))
    r.2 = old ∧ ((op = .cas ∧ old ≠ cmp ∧ Stirred s r.1) ∨ Wrote s r.1 pa (leBytes n (rmwOp op n old x cmp).toNat) false) := by
  unfold State.rmwHome State.homeRead
  dsimp only
  rw [hq.combine]
  split_ifs with hcas
  · simp only [Bool.and_eq_true, decide_eq_true_eq] at hcas
    refine ⟨rfl, .inl ⟨hcas.1, hcas.2, Stirred.foldl (fun s w => ?_) _ _⟩⟩
    cases core with
    | none => exact Stirred.refl s
    | some c =>
      dsimp only
      split_ifs
      · exact Stirred.refl s
      · exact Stirred.dropWord s c w
  · exact ⟨rfl, .inr (State.homeWrite_wrote hq ..)⟩

theorem State.rmwHome_dooms {s : State} (hq : s.NoPartials) (self : Option (Nat × Nat × Nat)) (core : Option Nat) (pa : Nat) (op : RmwOp) (n : Nat)
    (x cmp : Word64) : Dooms s (s.rmwHome self core pa op n x cmp).1 := by
  obtain ⟨-, ⟨-, -, h⟩ | h⟩ := State.rmwHome_cases hq self core pa op n x cmp
  · exact h.units
  · exact h.dooms

theorem State.rmwHome_byte {s : State} (hq : s.NoPartials) (self : Option (Nat × Nat × Nat)) (core : Option Nat) (pa : Nat) {op : RmwOp} {n x : Nat}
    (cmp : Word64) (hn : n = 4 ∨ n = 8) (hf : op = .addF → n = 4) (hx : x < 256 ^ n) (a : Nat) :
    (s.rmwHome self core pa op n (BitVec.ofNat 64 x) cmp).1.byte a = if pa ≤ a ∧ a < pa + n then
      BitVec.ofNat 8 (rmwValue op n (leNat (s.bytes pa n)) x cmp.toNat / 256 ^ (a - pa)) else s.byte a := by
  have hlt := leNat_lt (s.bytes pa n)
  rw [State.bytes_length] at hlt
  obtain ⟨-, ⟨rfl, hne, h⟩ | h⟩ := State.rmwHome_cases hq self core pa op n (BitVec.ofNat 64 x) cmp
  · have hold : rmwValue .cas n (leNat (s.bytes pa n)) x cmp.toNat = leNat (s.bytes pa n) := if_neg fun e => hne (by
      rw [e, BitVec.ofNat_toNat, BitVec.setWidth_eq])
    rw [h.byte, hold]
    split_ifs with ha
    · rw [leNat_byte _ (by rw [State.bytes_length]; omega), State.bytes, List.getD_eq_getElem?_getD, List.getElem?_map, span, List.getElem?_map,
        List.getElem?_range (by omega), Option.map_some, Option.map_some, Option.getD_some, Nat.add_sub_cancel' ha.1]
    · rfl
  · rw [h.byte, leBytes_length, rmwOp_toNat cmp hn hf hlt hx]
    split_ifs with ha
    · rw [leBytes_getD _ _ (by omega)]
    · rfl

/-- A reduction where no partial stands leaves a first value in its core. -/
theorem State.gatherRed_quiet {s : State} (hq : s.NoPartials) (core pa : Nat) (op : RmwOp) (n : Nat) (x : Word64) :
    ∃ r, Stirred s r ∧ s.gatherRed core pa op n x
      = r.setCore core { r.core core with reds := [⟨pa / 64, [(pa / 4, ⟨op, n, redCanon op x⟩)]⟩] } := by
  have hstep : Stirred s ((wordsOf pa n).foldl (fun s v => (s.unregister v true).editCore core fun k => k.dropWord v) s) :=
    Stirred.foldl (fun s v => (Stirred.unregister s v true).trans (Stirred.dropWord ..)) _ s
  refine ⟨_, hstep, ?_⟩
  have hreds := ((hstep.quiet hq) core).1
  unfold State.gatherRed
  simp only [hq.partial_none, Option.map_none, Option.getD_none, Option.isSome_none, Bool.and_false, Bool.or_false, List.any_eq_true, Bool.false_eq_true,
    and_false, exists_false, if_false, hreds, List.find?_nil, List.filter_nil, List.nil_append]
  rfl

/-! ### Warps whose transactions may have been doomed -/

/-- A warp whose Open transactions may have been doomed. -/
def Warp.Doomed (w v : Warp) : Prop := v = { w with txn := v.txn } ∧ ∀ y, (w.tx y).st ≠ .opened → v.tx y = w.tx y

theorem Warp.doomed_mapTxn {h : Nat → Txn → Txn} (hh : ∀ x y, y.st ≠ .opened → h x y = y) (w : Warp) : w.Doomed (w.mapTxn h) := by
  refine ⟨rfl, fun y hy => ?_⟩
  have hlook : Map.look (w.mapTxn h).txn y = (Map.look w.txn y).map (h y) := Map.look_each ..
  unfold Warp.tx Map.lookD at hy ⊢
  rw [hlook]
  cases e : Map.look w.txn y with
  | none => rfl
  | some x =>
    rw [e] at hy
    exact hh y x hy

section
variable {s t : State} (h : Dooms s t)
include h

/-- A unit is as it was but for its warps, which are those it had but for their transactions. -/
theorem Dooms.unit {u : Nat} {un : KUnit} (hu : s.unit? u = some un) :
    ∃ vn, t.unit? u = some vn ∧ vn = { un with warps := vn.warps } ∧ ∀ b w, Map.look un.warps b = some w → ∃ v, Map.look vn.warps b = some v ∧ w.Doomed v := by
  obtain ⟨g, hg, e⟩ := h
  refine ⟨{ un with warps := Map.each un.warps fun w => Warp.mapTxn (g u w) }, ?_, rfl, fun b w hw => ⟨w.mapTxn (g u b), ?_, Warp.doomed_mapTxn (hg u b) w⟩⟩
  · rw [State.unit?, e, look_mapTxns, show Map.look s.units u = some un from hu, Option.map_some]
  · rw [Map.look_each, hw, Option.map_some]

/-- What no recall changes of a warp. -/
theorem Dooms.warp_map {α : Type} {p : Warp → α} (hp : ∀ g w, p (Warp.mapTxn g w) = p w) (a b : Nat) :
    (t.warp? a b).map p = (s.warp? a b).map p := by
  obtain ⟨g, -, e⟩ := h
  rw [State.warp?, State.unit?, e, look_mapTxns, State.warp?, State.unit?]
  cases Map.look s.units a with
  | none => rfl
  | some un =>
    rw [Option.map_some, Option.bind_some, Option.bind_some, Map.look_each, Option.map_map]
    exact congrArg (fun f => (Map.look un.warps b).map f) (funext fun w => hp (g a b) w)

theorem Dooms.ctxOf (hb : t.backdrop = s.backdrop) (u : Nat) : t.ctxOf u = s.ctxOf u := by
  obtain ⟨g, -, e⟩ := h
  have hl : t.launches = s.launches := congrArg (·.2.2) hb
  have hlaunch : t.launchOf u = s.launchOf u := by
    rw [State.launchOf, State.launchOf, State.unit?, e, look_mapTxns, hl, State.unit?]
    cases Map.look s.units u <;> rfl
  rw [State.ctxOf, State.ctxOf, hlaunch]

end

/-- The registers, predicates, capability tags and fragments of a warp. -/
def Warp.kept (w : Warp) : Map Word × Map Mask × Map Mask × Map Frag := (w.regs, w.preds, w.qtags, w.frags)

/-! ### A part in global memory -/

theorem State.acquired_units (s : State) (core : Nat) (o : Op) (i : Item) : (s.acquired core o i).units = s.units := by
  unfold State.acquired
  split_ifs <;> rfl

theorem State.acquired_mem (s : State) (core : Nat) (o : Op) (i : Item) : (s.acquired core o i).mem = s.mem := by
  unfold State.acquired
  split_ifs <;> rfl

theorem State.acquired_tags (s : State) (core : Nat) (o : Op) (i : Item) : (s.acquired core o i).tags = s.tags := by
  unfold State.acquired
  split_ifs <;> rfl

/-- The number that an atomic's operation takes. -/
theorem Item.operand (i : Item) : i.data.setWidth 64 = BitVec.ofNat 64 i.data.toNat := by
  rw [BitVec.ofNat_toNat]

/-- A part in global memory that performs alone and fails no check, where no partial stands. -/
structure GlobalPart (s : State) (u op x : Nat) (un : KUnit) (o : Op) (i : Item) (pa n : Nat) (k : PKind) : Prop where
  goes : PartGoes s u op x un o i
  tx : i.tx = false
  fails : o.fails = []
  pos : 0 < n
  loc : ∃ cx va g, i.locs.head? = some (.phys pa k cx va g)
  length : i.locs.length = n
  ring : s.ringBead pa = none
  clean : reads i.kind = true ∨ (k = .so ∧ isRmw i.kind = true) → s.poisoned pa n = false
  quiet : s.NoPartials

section
variable {s : State} {u op x : Nat} {un : KUnit} {o : Op} {i : Item} {pa n : Nat} {k : PKind} (h : GlobalPart s u op x un o i pa n k)
include h

theorem GlobalPart.reached : s.reached i = none := by
  obtain ⟨cx, va, g, hloc⟩ := h.loc
  rw [State.reached_phys hloc, h.ring, h.length]
  by_cases hsees : (reads i.kind || (isRmw i.kind && decide (k = .so))) = true
  · have hor : reads i.kind = true ∨ (k = .so ∧ isRmw i.kind = true) := by
      simpa [and_comm] using hsees
    simp only [h.clean hor, Bool.and_false, Bool.false_eq_true, if_false]
  · simp only [hsees, Bool.false_and, Bool.false_eq_true, if_false]

/-- The event, once the effect of the part is known. -/
theorem GlobalPart.runs {s1 : State} {F : KUnit → KUnit} {data : BitVec 128} (hd : Dooms s s1)
    (heffect : ((s.performPhys un u o i pa k).acquired un.core o i).editUnit u (fun v => v.editOp op fun o => o.mark i)
      = (s1.acquired un.core o i).editUnit u F) (hF : ∀ w, (F w).ops = marked w.ops op i data) :
    exec (.sliceAccess u op x) s = .next ((s1.acquired un.core o i).editUnit u F)
      ∧ Performed s ((s1.acquired un.core o i).editUnit u F) u op i := by
  obtain ⟨vn, hv, hsame, -⟩ := hd.unit h.goes.unit
  have hops : vn.ops = un.ops := by rw [hsame]
  have hperf : Performed s ((s1.acquired un.core o i).editUnit u F) u op i := by
    refine ⟨un, F vn, data, h.goes.unit, ?_, ?_⟩
    · rw [State.unit?_editUnit, if_pos rfl, State.unit?, State.acquired_units, show Map.look s1.units u = some vn from hv, Option.map_some]
    · rw [hF, hops]
      rfl
  obtain ⟨cx, va, g, hloc⟩ := h.loc
  obtain ⟨l, hl⟩ : ∃ l, i.locs = .phys pa k cx va g :: l := List.head?_eq_some_iff.1 hloc
  refine ⟨?_, hperf⟩
  rw [sliceAccess_alone h.goes, h.goes.performs_phys h.tx h.reached hl, heffect, hperf.settle h.goes.unit h.goes.op h.fails]

/-- A part that brings nothing. -/
theorem GlobalPart.puts {s1 : State} (hr : reads i.kind = false) (hd : Dooms s s1) (heffect : s.performPhys un u o i pa k = s1) :
    exec (.sliceAccess u op x) s = .next (s1.editUnit u fun v => v.editOp op fun o => o.mark i)
      ∧ ∀ a b, ((s1.editUnit u fun v => v.editOp op fun o => o.mark i).warp? a b).map Warp.kept = (s.warp? a b).map Warp.kept := by
  obtain ⟨hexec, -⟩ := h.runs hd (by rw [heffect]) fun w => KUnit.ops_mark hr w op
  have hacq : s1.acquired un.core o i = s1 := by simp only [State.acquired, hr, Bool.false_and, Bool.false_eq_true, if_false]
  rw [hacq] at hexec
  refine ⟨hexec, fun a b => .trans (congrArg _ ?_) (hd.warp_map (p := Warp.kept) (fun _ _ => rfl) a b)⟩
  rw [State.warp?, State.unit?_editUnit, State.warp?]
  split_ifs with e
  · subst e
    cases s1.unit? a <;> rfl
  · rfl

/-- A part that brings what stood in memory. -/
theorem GlobalPart.brings {s1 : State} {d : Dst} {w : Warp} (hdst : o.dst = some d) (hw : s.warp? u o.warp = some w) (hlive : w.live.getLsbD x = true)
    (hr : reads i.kind = true) (hd : Dooms s s1) {bs : List Byte} {tag : Bool} (heffect : s.performPhys un u o i pa k = s1.deliver u o i bs tag) :
    ∃ t v, exec (.sliceAccess u op x) s = .next t ∧ t.mem = s1.mem ∧ t.tags = s1.tags ∧ w.Doomed v
      ∧ t.warp? u o.warp = some (if o.complete i then d.write v x (o.read i bs) (tag && i.ctag) else v) ∧ Performed s t u op i := by
  have hid := KUnit.op?_id h.goes.op
  have hacq : (s1.editUnit u fun w => w.bring d o i bs tag).acquired un.core o i
      = (s1.acquired un.core o i).editUnit u fun w => w.bring d o i bs tag := by
    unfold State.acquired
    split_ifs <;> rfl
  obtain ⟨hexec, hperf⟩ := h.runs (F := fun w => (w.bring d o i bs tag).editOp o.id fun o => o.mark i) hd
    (by rw [heffect, State.deliver_dst _ _ hdst, hacq, State.editUnit_editUnit, hid]) fun w => by rw [KUnit.ops_bring hr, hid]
  obtain ⟨vn, hv, -, hwarps⟩ := hd.unit h.goes.unit
  obtain ⟨v, hlook, hdoomed⟩ := hwarps o.warp w (by simpa [State.warp?, h.goes.unit] using hw)
  obtain ⟨hx, -⟩ := h.goes.thread
  subst hx
  have hvlive : v.live.getLsbD i.thread = true := by
    rw [hdoomed.1]
    exact hlive
  refine ⟨_, v, hexec, State.acquired_mem .., State.acquired_tags .., hdoomed, ?_, hperf⟩
  rw [State.warp?, State.unit?_editUnit, if_pos rfl, State.unit?, State.acquired_units, show Map.look s1.units u = some vn from hv, Option.map_some,
    Option.bind_some]
  exact KUnit.look_bring hlook d hvlive bs tag

/-- The store of a part's bytes, whatever the kind of page. -/
theorem GlobalPart.store_wrote (tag : Bool) : Wrote s
    (if k = .so then s.homeWrite (some (u, o.warp, i.thread)) (some un.core) pa i.bytes tag
      else s.coreWrite (some (u, o.warp, i.thread)) un.core (k = .u) pa i.bytes tag) pa (leBytes n i.data.toNat) tag := by
  have hbytes : i.bytes = leBytes n i.data.toNat := by rw [Item.bytes, h.length]
  rw [hbytes]
  split_ifs
  · exact State.homeWrite_wrote h.quiet ..
  · exact State.coreWrite_wrote h.quiet ..

/-- A store, of data or of a capability. -/
theorem GlobalPart.stores (hk : i.kind = .store ∨ i.kind = .storeCap) :
    ∃ t, exec (.sliceAccess u op x) s = .next t
      ∧ (∀ a, t.byte a = if pa ≤ a ∧ a < pa + n then BitVec.ofNat 8 (i.data.toNat / 256 ^ (a - pa)) else s.byte a)
      ∧ (∀ a b, (t.warp? a b).map Warp.kept = (s.warp? a b).map Warp.kept) ∧ t.backdrop = s.backdrop
      ∧ (∀ g, NSet.has t.tags g = if pa / 16 ≤ g ∧ g ≤ (pa + n - 1) / 16 then decide (i.kind = .storeCap) && i.tag else NSet.has s.tags g)
      ∧ (i.kind = .storeCap → i.tag = true → Map.look t.tagBy (pa / 16) = some (s.ctxOf u)) := by
  have hbyte : ∀ {t : State} {tag : Bool}, Wrote s t pa (leBytes n i.data.toNat) tag → ∀ a, t.byte a =
      if pa ≤ a ∧ a < pa + n then BitVec.ofNat 8 (i.data.toNat / 256 ^ (a - pa)) else s.byte a := fun hwrote a => by
    rw [hwrote.byte, leBytes_length]
    split_ifs with ha
    · rw [leBytes_getD _ _ (by omega)]
    · rfl
  have htags : ∀ {t : State} {tag : Bool}, Wrote s t pa (leBytes n i.data.toNat) tag → ∀ g, NSet.has t.tags g =
      if pa / 16 ≤ g ∧ g ≤ (pa + n - 1) / 16 then tag else NSet.has s.tags g := fun hwrote g => by
    rw [hwrote.has_tags (by rw [leBytes_length]; exact h.pos), leBytes_length]
  obtain hk | hk := hk
  · have hwrote := h.store_wrote false
    obtain ⟨hexec, hkept⟩ := h.puts (by rw [hk]; rfl) hwrote.dooms
      (by simp only [State.performPhys, hk, h.tx, Bool.false_eq_true, if_false])
    refine ⟨_, hexec, fun a => hbyte hwrote a, hkept, hwrote.backdrop, fun g => ?_, fun e => by simp [hk] at e⟩
    rw [hk]
    exact htags hwrote g
  · have hwrote := h.store_wrote i.tag
    cases htag : i.tag with
    | false =>
      rw [htag] at hwrote
      obtain ⟨hexec, hkept⟩ := h.puts (by rw [hk]; rfl) hwrote.dooms
        (by simp only [State.performPhys, hk, htag, Bool.false_eq_true, if_false])
      refine ⟨_, hexec, fun a => hbyte hwrote a, hkept, hwrote.backdrop, fun g => ?_, fun _ e => absurd e Bool.false_ne_true⟩
      rw [hk]
      exact htags hwrote g
    | true =>
      rw [htag] at hwrote
      have hdooms := hwrote.dooms
      have hctx := hwrote.dooms.ctxOf hwrote.backdrop u
      generalize he : (if k = .so then s.homeWrite (some (u, o.warp, i.thread)) (some un.core) pa i.bytes true
        else s.coreWrite (some (u, o.warp, i.thread)) un.core (decide (k = .u)) pa i.bytes true) = t at *
      obtain ⟨hexec, hkept⟩ := h.puts (by rw [hk]; rfl) (s1 := { t with tagBy := Map.put t.tagBy (pa / 16) (t.ctxOf u) }) hdooms
        (by simp only [State.performPhys, hk, htag, if_true, he])
      refine ⟨_, hexec, fun a => hbyte hwrote a, hkept, hwrote.backdrop, fun g => ?_, fun _ _ => ?_⟩
      · rw [hk]
        exact htags hwrote g
      · exact (Map.look_put_self ..).trans (congrArg some hctx)

/-- A load. -/
theorem GlobalPart.loads {d : Dst} {w : Warp} (hdst : o.dst = some d) (hw : s.warp? u o.warp = some w) (hlive : w.live.getLsbD x = true) (hx : x < 32)
    (hk : i.kind = .load) (hdata : d.Data)
    (hcopies : ∀ q ∈ wordsOf pa n, ∀ y, Map.look (s.core un.core).copies q = some y → y.val = BitVec.ofNat 32 (leNat (s.bytes (4 * q) 4))) :
    ∃ t v, exec (.sliceAccess u op x) s = .next t ∧ t.mem = s.mem ∧ t.tags = s.tags ∧ t.warp? u o.warp = some v
      ∧ v = { w with regs := v.regs, rtags := v.rtags, qtags := v.qtags, txn := v.txn } ∧ (∀ y, (w.tx y).st ≠ .opened → v.tx y = w.tx y)
      ∧ (∀ r y, y < 32 → v.reg r y = if y = x ∧ d.reg ≤ r ∧ r < d.reg + d.n
          ∧ ∀ z ∈ o.items.filter (fun y => y.thread = x), z.done = true ∨ z.off = i.off then
          loadWord d.size d.sext (leNat (o.read i (s.bytes pa n))) (r - d.reg) else w.reg r y)
      ∧ Performed s t u op i := by
  obtain ⟨hstirred, hbytes, -⟩ := State.loadPhys_true h.quiet un.core o.wideAcq k pa h.pos
  have heffect : s.performPhys un u o i pa k = (s.loadPhys un.core o.wideAcq k pa n).1.deliver u o i (s.bytes pa n) false := by
    rw [← hbytes hcopies]
    simp only [State.performPhys, hk, h.tx, h.length, Bool.false_and, Bool.false_or, Bool.false_eq_true, if_false]
  obtain ⟨t, v, hexec, hmem, htags, ⟨hsame, htxns⟩, hwarp, hperf⟩ := h.brings hdst hw hlive (by rw [hk]; rfl) hstirred.units heffect
  obtain ⟨hthread, -⟩ := h.goes.thread
  subst hthread
  obtain ⟨hregs, hreg⟩ := hdata.received v hx (false && i.ctag) (o := o) (bs := s.bytes pa n) rfl
  have hvreg : ∀ r y, v.reg r y = w.reg r y := fun r y => by rw [hsame]; rfl
  refine ⟨t, _, hexec, hmem.trans hstirred.mem, htags.trans hstirred.tags, hwarp, ?_, fun y hy => ?_, fun r y hy => ?_, hperf⟩
  · rw [hregs, hsame]
  · rw [hregs]
    exact htxns y hy
  · rw [hreg r y hy, hvreg]

/-- A part that is all of its thread's access. -/
theorem GlobalPart.alone (hmine : o.items.filter (fun y => y.thread = x) = [i]) (bs : List Byte) : o.complete i = true ∧ o.read i bs = bs := by
  obtain ⟨hthread, -⟩ := h.goes.thread
  refine ⟨?_, ?_⟩
  · rw [Op.complete_iff, hthread, hmine]
    exact fun z hz => .inr (by rw [List.mem_singleton.1 hz])
  · rw [Op.read, hthread, hmine, List.flatMap_singleton, if_pos rfl]

/-- A capability load of one part. -/
theorem GlobalPart.loadsCap {d : Dst} {w : Warp} (hdst : o.dst = some d) (hw : s.warp? u o.warp = some w) (hlive : w.live.getLsbD x = true) (hx : x < 32)
    (hk : i.kind = .loadCap) (hcap : d.cap = true) (hsize : d.size = 16) (hn : d.n = 4) (hmine : o.items.filter (fun y => y.thread = x) = [i])
    (hcopies : ∀ q ∈ wordsOf pa n, ∀ y, Map.look (s.core un.core).copies q = some y →
      y.val = BitVec.ofNat 32 (leNat (s.bytes (4 * q) 4)) ∧ y.tag = NSet.has s.tags (pa / 16)) :
    ∃ t v, exec (.sliceAccess u op x) s = .next t ∧ t.mem = s.mem ∧ t.tags = s.tags ∧ t.warp? u o.warp = some v
      ∧ v.quad d.reg x = BitVec.ofNat 128 (leNat (s.bytes pa n))
      ∧ v.qtag (d.reg / 4) x = (NSet.has s.tags (pa / 16) && i.ctag && (Cap.of (BitVec.ofNat 128 (leNat (s.bytes pa n)))).ok) := by
  obtain ⟨hstirred, hbytes, htag⟩ := State.loadPhys_true h.quiet un.core false k pa h.pos
  have heffect : s.performPhys un u o i pa k
      = (s.loadPhys un.core false k pa n).1.deliver u o i (s.bytes pa n) (NSet.has s.tags (pa / 16)) := by
    rw [← hbytes fun q hq y hy => (hcopies q hq y hy).1, ← htag fun q hq y hy => (hcopies q hq y hy).2]
    simp only [State.performPhys, hk, h.length]
  obtain ⟨t, v, hexec, hmem, htags, -, hwarp, -⟩ := h.brings hdst hw hlive (by rw [hk]; rfl) hstirred.units heffect
  obtain ⟨hcomplete, hread⟩ := h.alone hmine (s.bytes pa n)
  rw [if_pos hcomplete, hread] at hwarp
  obtain ⟨-, hquad, hqtag⟩ := Dst.write_cap hcap hsize hn v hx (s.bytes pa n) (NSet.has s.tags (pa / 16) && i.ctag)
  exact ⟨t, _, hexec, hmem.trans hstirred.mem, htags.trans hstirred.tags, hwarp, hquad, hqtag⟩

/-- An atomic that brings what stood there. -/
theorem GlobalPart.atomics {d : Dst} {w : Warp} (hdst : o.dst = some d) (hw : s.warp? u o.warp = some w) (hlive : w.live.getLsbD x = true)
    (hx : x < 32) {a : RmwOp} (hk : i.kind = .atom a) (hcap : d.cap = false) (hsize : n = d.size) (hn : n = 4 ∨ n = 8) (hregs : d.n = n / 4)
    (hmine : o.items.filter (fun y => y.thread = x) = [i]) (hf : a = .addF → n = 4) (hval : i.data.toNat < 256 ^ n) :
    ∃ t v, exec (.sliceAccess u op x) s = .next t
      ∧ (∀ b, t.byte b = if pa ≤ b ∧ b < pa + n then
          BitVec.ofNat 8 (rmwValue a n (leNat (s.bytes pa n)) i.data.toNat i.cmp.toNat / 256 ^ (b - pa)) else s.byte b)
      ∧ t.warp? u o.warp = some v
      ∧ (∀ r y, y < 32 → v.reg r y = if y = x ∧ d.reg ≤ r ∧ r < d.reg + n / 4 then loadWord n d.sext (leNat (s.bytes pa n)) (r - d.reg) else w.reg r y) := by
  have hold : leBytes n (BitVec.ofNat 64 (leNat (s.bytes pa n))).toNat = s.bytes pa n := by
    have hback := leBytes_leNat (s.bytes pa n)
    have hlt := leNat_lt (s.bytes pa n)
    rw [State.bytes_length] at hback hlt
    rw [BitVec.toNat_ofNat, Nat.mod_eq_of_lt (hlt.trans_le (by obtain rfl | rfl := hn <;> decide)), hback]
  have heffect : s.performPhys un u o i pa k = (s.rmwHome (some (u, o.warp, i.thread)) (some un.core) pa a n (i.data.setWidth 64) i.cmp).1.deliver u o i
      (s.bytes pa n) false := by
    conv_rhs => rw [← hold]
    rw [← (State.rmwHome_cases h.quiet (some (u, o.warp, i.thread)) (some un.core) pa a n (i.data.setWidth 64) i.cmp).1]
    simp only [State.performPhys, hk, h.length]
  have hbyte := State.rmwHome_byte h.quiet (some (u, o.warp, i.thread)) (some un.core) pa i.cmp hn hf hval
  rw [← i.operand] at hbyte
  obtain ⟨t, v, hexec, hmem, -, ⟨hsame, -⟩, hwarp, -⟩ :=
    h.brings hdst hw hlive (by rw [hk]; rfl) (State.rmwHome_dooms h.quiet ..) heffect
  obtain ⟨hcomplete, hread⟩ := h.alone hmine (s.bytes pa n)
  rw [if_pos hcomplete, hread] at hwarp
  have hdata : d.Data := ⟨hcap, by obtain rfl | rfl := hn <;> simp [← hsize], by rw [hregs, ← hsize]; obtain rfl | rfl := hn <;> rfl⟩
  obtain ⟨-, hreg⟩ := Dst.write_data hdata v hx (s.bytes pa n) (false && i.ctag)
  have hvreg : ∀ r y, v.reg r y = w.reg r y := fun r y => by rw [hsame]; rfl
  refine ⟨t, _, hexec, fun b => ?_, hwarp, fun r y hy => ?_⟩
  · rw [State.byte, hmem]
    exact hbyte b
  · rw [hreg r y hy, hvreg, hregs, ← hsize]

/-- A reduction that performs at the home. -/
theorem GlobalPart.reduces {a : RmwOp} (hk : i.kind = .red a) (hso : k = .so) (hn : n = 4 ∨ n = 8) (hf : a = .addF → n = 4)
    (hval : i.data.toNat < 256 ^ n) :
    ∃ t, exec (.sliceAccess u op x) s = .next t
      ∧ (∀ b, t.byte b = if pa ≤ b ∧ b < pa + n then
          BitVec.ofNat 8 (rmwValue a n (leNat (s.bytes pa n)) i.data.toNat 0 / 256 ^ (b - pa)) else s.byte b)
      ∧ ∀ a b, (t.warp? a b).map Warp.kept = (s.warp? a b).map Warp.kept := by
  obtain ⟨hexec, hkept⟩ := h.puts (s1 := (s.rmwHome (some (u, o.warp, i.thread)) (some un.core) pa a n (i.data.setWidth 64) 0).1) (by rw [hk]; rfl)
    (State.rmwHome_dooms h.quiet ..) (by simp only [State.performPhys, hk, h.length, hso, if_true])
  have hbyte := State.rmwHome_byte h.quiet (some (u, o.warp, i.thread)) (some un.core) pa 0#64 hn hf hval
  rw [← i.operand] at hbyte
  exact ⟨_, hexec, fun b => hbyte b, hkept⟩

/-- A reduction that its core gathers. -/
theorem GlobalPart.gathers {a : RmwOp} (hk : i.kind = .red a) (hso : k ≠ .so) (hval : i.data.toNat < 2 ^ 64) :
    ∃ t, exec (.sliceAccess u op x) s = .next t ∧ t.mem = s.mem ∧ (∀ a b, (t.warp? a b).map Warp.kept = (s.warp? a b).map Warp.kept)
      ∧ (t.core un.core).partial? (pa / 4) = some
          ⟨a, n, if a = .addF ∧ (f32.val (i.data.toNat % 2 ^ 32)).isNan = true then 0x7FC00000#64 else i.data.setWidth 64⟩ := by
  obtain ⟨r, hr, e⟩ := State.gatherRed_quiet h.quiet un.core pa a n (i.data.setWidth 64)
  have hdooms : Dooms s (s.gatherRed un.core pa a n (i.data.setWidth 64)) := by
    rw [e]
    exact hr.units
  obtain ⟨hexec, hkept⟩ := h.puts (by rw [hk]; rfl) hdooms (by simp only [State.performPhys, hk, h.length, hso, if_false])
  have hcanon : redCanon a (i.data.setWidth 64)
      = if a = .addF ∧ (f32.val (i.data.toNat % 2 ^ 32)).isNan = true then 0x7FC00000#64 else i.data.setWidth 64 := by
    have hnat : (i.data.setWidth 64).toNat = i.data.toNat := by rw [BitVec.toNat_setWidth, Nat.mod_eq_of_lt hval]
    cases a with
    | addF => simp only [redCanon, hnat, true_and]
    | _ => simp [redCanon]
  refine ⟨_, hexec, ?_, hkept, ?_⟩
  · rw [State.editUnit_mem, e, State.setCore_mem, hr.mem]
  · rw [State.core_editUnit, e, State.core, State.setCore, Map.lookD_put, if_pos rfl, ← hcanon]
    have hheld : (r.core un.core).held = [] := ((hr.quiet h.quiet) un.core).2
    simp [CoreSt.partial?, redLook, hheld, RedVal.merge, Map.look, show pa / 4 / 16 = pa / 64 by omega]

end

/-- Settles O16: each kind's effect at the coherence point, and the destination that receives. -/
theorem globalAccessPerforms : Obligations.GlobalAccessPerforms := by
  unfold Obligations.GlobalAccessPerforms
  intro s u op x un o i pa n cx va k g hu hop hnext hmay htx hn hf hdisj hloc hlen hfree hring hclean hquiet hlocs
  obtain ⟨rfl, -⟩ : i.thread = x ∧ i.done = false := by simpa using List.find?_some hnext
  have hpart : s.redFirst un.core o i = false → GlobalPart s u op i.thread un o i pa n k := fun hred => by
    obtain ⟨l, hl⟩ : ∃ l, i.locs = .phys pa k cx va g :: l := List.head?_eq_some_iff.1 hloc
    exact ⟨⟨hu, hop, hnext, hmay, Op.together_alone (List.mem_of_find?_eq_some hnext) hdisj, hred, by simp only [Item.peer, hl],
      State.itemHeld_phys hloc hfree⟩, htx, hf, hn, ⟨cx, va, g, hloc⟩, hlen, hring, hclean, hquiet⟩
  have hplain : (∀ a, i.kind ≠ .red a) → GlobalPart s u op i.thread un o i pa n k := fun h => hpart (s.redFirst_other _ _ h)
  refine ⟨fun hk => ?_, fun d w hd hw hlive hx => ⟨fun hk hcap hsize hregs hcopies => ?_, fun hk hcap h16 hal hsize hregs hmine hcopies => ?_,
    fun a hk hcap hsize h48 hregs hmine hfa hval _ => ?_⟩, fun a hk h48 hfa _ hval hred => ⟨fun hso => ?_, fun hso => ?_⟩⟩
  · obtain ⟨t, hexec, hstored, hkept, hback, htags, htagby⟩ :=
      (hplain fun a e => by rw [e] at hk; obtain hk | hk := hk <;> exact absurd hk (by simp)).stores hk
    exact ⟨t, hexec, hstored, hkept, congrArg (·.1) hback, congrArg (·.2.1) hback, htags, htagby⟩
  · exact (hplain fun a e => by simp [hk] at e).loads hd hw hlive hx hk ⟨hcap, hsize, hregs⟩ hcopies
  · exact (hplain fun a e => by simp [hk] at e).loadsCap hd hw hlive hx hk hcap hsize hregs hmine hcopies
  · exact (hplain fun b e => by simp [hk] at e).atomics hd hw hlive hx hk hcap hsize h48 hregs hmine hfa hval
  · exact (hpart hred).reduces hk hso h48 hfa hval
  · exact (hpart hred).gathers hk hso (hval.trans_le (by obtain rfl | rfl := h48 <;> decide))

end Sys2Proof.Machine
end

section
/-! SUPPORT. What the ends of launches leave alone (R199, R275, R323 to R329, R420 to R425): no line becomes locked for the scheduler, registers keep
their words, what has completed stays complete, and a cancel requested stays requested. -/
namespace Sys2Proof.Machine

/-! ### Pairs of what a key holds before and after -/

/-- Two optional things are both there and related, or both absent. -/
def Paired {α : Type} (r : α → α → Prop) : Option α → Option α → Prop
  | none, none => True
  | some a, some b => r a b
  | _, _ => False

theorem Paired.refl {α : Type} {r : α → α → Prop} (h : ∀ a, r a a) (a : Option α) : Paired r a a := by
  cases a with
  | none => trivial
  | some a => exact h a

theorem Paired.trans {α : Type} {r : α → α → Prop} (h : ∀ {a b c}, r a b → r b c → r a c) {a b c : Option α} (hab : Paired r a b)
    (hbc : Paired r b c) : Paired r a c := by
  match a, b, c, hab, hbc with
  | none, none, none, _, _ => trivial
  | .some _, .some _, .some _, hab, hbc => exact h hab hbc

theorem Paired.some {α : Type} {r : α → α → Prop} {a : α} {b : Option α} (h : Paired r (some a) b) : ∃ y, b = some y ∧ r a y := by
  cases b with
  | none => exact h.elim
  | some b => exact ⟨b, rfl, h⟩

theorem Paired.some_right {α : Type} {r : α → α → Prop} {a : Option α} {b : α} (h : Paired r a (Option.some b)) : ∃ y, a = Option.some y ∧ r y b := by
  cases a with
  | none => exact h.elim
  | some a => exact ⟨a, rfl, h⟩

theorem Paired.map {α : Type} {r : α → α → Prop} {a : Option α} {g : α → α} (h : ∀ x, a = Option.some x → r x (g x)) : Paired r a (a.map g) := by
  cases a with
  | none => trivial
  | some a => exact h a rfl

/-! ### Warps and units -/

/-- A transaction whose sets are empty. -/
def Txn.Bare (x : Txn) : Prop := x.rset = [] ∧ x.wset = []

theorem Txn.Bare.doom {x : Txn} (h : x.Bare) (code : BitVec 4) : (x.doom code).Bare := by
  unfold Txn.doom
  split_ifs
  · exact h
  · exact h

theorem Txn.Bare.discard {x : Txn} (h : x.Bare) : x.discard.Bare := by
  unfold Txn.discard
  split_ifs
  · exact h
  · exact ⟨rfl, rfl⟩

/-- A warp keeps its registers, and its bare transactions. -/
def Warp.Tame (w v : Warp) : Prop := v.regs = w.regs ∧ ∀ y, (w.tx y).Bare → (v.tx y).Bare

theorem Warp.Tame.refl (w : Warp) : w.Tame w := ⟨rfl, fun _ => id⟩

theorem Warp.Tame.trans {w v x : Warp} (h : w.Tame v) (h' : v.Tame x) : w.Tame x := ⟨h'.1.trans h.1, fun y hy => h'.2 y (h.2 y hy)⟩

/-- A warp whose registers and transactions are untouched. -/
theorem Warp.Tame.of_eq {w v : Warp} (hr : v.regs = w.regs) (ht : v.txn = w.txn) : w.Tame v := by
  refine ⟨hr, fun y hy => ?_⟩
  rwa [Warp.tx, ht]

/-- A unit keeps its warps, and what of its operations is complete. -/
structure KUnit.Tame (u v : KUnit) : Prop where
  warps : ∀ b, Paired Warp.Tame (Map.look u.warps b) (Map.look v.warps b)
  ops : ∀ y ∈ v.ops, ∃ z ∈ u.ops, z.id = y.id ∧ (z.done = true → y.done = true)

theorem KUnit.Tame.refl (u : KUnit) : u.Tame u := ⟨fun _ => Paired.refl Warp.Tame.refl _, fun y hy => ⟨y, hy, rfl, id⟩⟩

theorem KUnit.Tame.trans {u v x : KUnit} (h : u.Tame v) (h' : v.Tame x) : u.Tame x := by
  refine ⟨fun b => Paired.trans (r := Warp.Tame) Warp.Tame.trans (h.warps b) (h'.warps b), fun y hy => ?_⟩
  obtain ⟨z, hz, hid, hdone⟩ := h'.ops y hy
  obtain ⟨a, ha, hid', hdone'⟩ := h.ops z hz
  exact ⟨a, ha, hid'.trans hid, fun e => hdone (hdone' e)⟩

theorem KUnit.Tame.of_eq {u v : KUnit} (hw : v.warps = u.warps) (ho : v.ops = u.ops) : u.Tame v := by
  refine ⟨fun b => ?_, fun y hy => ⟨y, ?_, rfl, id⟩⟩
  · rw [hw]
    exact Paired.refl Warp.Tame.refl _
  · rwa [ho] at hy

theorem KUnit.Tame.editWarp {u : KUnit} {w : Nat} {g : Warp → Warp} (h : ∀ x, Map.look u.warps w = some x → x.Tame (g x)) : u.Tame (u.editWarp w g) := by
  refine ⟨fun b => ?_, fun y hy => ⟨y, hy, rfl, id⟩⟩
  rw [KUnit.editWarp, Map.look_edit]
  split_ifs with hb
  · rw [hb]
    exact Paired.map h
  · exact Paired.refl Warp.Tame.refl _

theorem KUnit.Tame.eachWarp {u : KUnit} {g : Nat → Warp → Warp} (h : ∀ b (x : Warp), x.Tame (g b x)) : u.Tame { u with warps := Map.each u.warps g } := by
  refine ⟨fun b => ?_, fun y hy => ⟨y, hy, rfl, id⟩⟩
  rw [Map.look_each]
  exact Paired.map fun x _ => h b x

/-! ### The state -/

/-- Nothing locks a line for the scheduler, which has stalled on none (R188, R359). -/
structure State.Free (s : State) : Prop where
  stalled : s.stalled = false
  mig : ∀ pa, s.migLocked pa = false
  solo : ∀ u w t, s.soloHolder = some (u, w, t) → ∀ x, s.warp? u w = some x → (x.tx t).Bare

theorem Txn.Bare.untouched {x : Txn} (h : x.Bare) (sec : Nat) : x.touches sec = false := by
  rw [Txn.touches, h.1, h.2]
  rfl

theorem Txn.bare_of_untouched {x : Txn} (h : ∀ sec, x.touches sec = false) : x.Bare := by
  refine ⟨List.eq_nil_iff_forall_not_mem.2 fun p hp => ?_, List.eq_nil_iff_forall_not_mem.2 fun p hp => ?_⟩
  · have e : x.touches (p.1 / 16) = true := by
      rw [Txn.touches, List.any_eq_true.2 ⟨p, hp, decide_eq_true rfl⟩, Bool.true_or]
    exact Bool.false_ne_true ((h _).symm.trans e)
  · have e : x.touches (p.1 / 16) = true := by
      rw [Txn.touches, List.any_eq_true.2 ⟨p, hp, decide_eq_true rfl⟩, Bool.or_true]
    exact Bool.false_ne_true ((h _).symm.trans e)

theorem State.Free.lineBusy {s : State} (h : s.Free) (pa : Nat) (w : Bool) : s.lineBusy none pa w = false := by
  have hcommit : s.commitLocked none pa = false := by
    refine List.any_eq_false.2 fun p _ => ?_
    rw [Bool.not_eq_true]
    refine List.any_eq_false.2 fun o _ => ?_
    have hnone : s.commitLocks p.1 o = none := by
      refine List.findSome?_eq_none_iff.2 fun t _ => ?_
      dsimp only
      rw [List.filter_eq_nil_iff.2 fun l _ => by rw [h.mig, Bool.and_false]; exact Bool.false_ne_true]
    simp [hnone]
  have hsolo : s.soloLocked none pa = false := by
    unfold State.soloLocked
    split
    · rfl
    · next u w t hholder =>
      cases hw : s.warp? u w with
      | none => simp
      | some x => simp [(h.solo u w t hholder x hw).untouched]
  rw [State.lineBusy, h.mig, hsolo, hcommit]
  simp

/-- Where no line is busy for the scheduler's writes. -/
theorem State.free_of_quiet {s : State} (hs : s.stalled = false) (h : ∀ a, s.lineBusy none a true = false) : s.Free := by
  have hparts : ∀ a, s.migLocked a = false ∧ s.soloLocked none a = false := fun a => by
    have := h a
    simp only [State.lineBusy, Bool.or_eq_false_iff, Bool.true_and] at this
    exact this.1
  refine ⟨hs, fun a => (hparts a).1, fun u w t hholder x hx => Txn.bare_of_untouched fun sec => ?_⟩
  have := (hparts (64 * sec)).2
  simpa [State.soloLocked, hholder, hx, Nat.mul_div_cancel_left] using this

/-- What a step leaves: the lock state, the words of registers, what is complete, and what is requested. -/
structure Still (s t : State) : Prop where
  stalled : t.stalled = s.stalled
  mig : ∀ pa, s.migLocked pa = false → t.migLocked pa = false
  solo : t.soloHolder = none ∨ t.soloHolder = s.soloHolder
  units : ∀ a, Paired KUnit.Tame (s.unit? a) (t.unit? a)
  recs : ∀ k r, Map.look s.records k = some r → ∃ y, Map.look t.records k = some y ∧ (r.creq = true → y.creq = true)

theorem Still.refl (s : State) : Still s s :=
  ⟨rfl, fun _ => id, .inr rfl, fun _ => Paired.refl KUnit.Tame.refl _, fun _ r h => ⟨r, h, id⟩⟩

theorem Still.trans {s t x : State} (h : Still s t) (h' : Still t x) : Still s x := by
  refine ⟨h'.stalled.trans h.stalled, fun pa e => h'.mig pa (h.mig pa e), ?_, fun a => Paired.trans (r := KUnit.Tame) KUnit.Tame.trans (h.units a) (h'.units a), fun k r e => ?_⟩
  · obtain e | e := h'.solo
    · exact .inl e
    · rw [e]
      exact h.solo
  · obtain ⟨y, hy, hc⟩ := h.recs k r e
    obtain ⟨z, hz, hc'⟩ := h'.recs k y hy
    exact ⟨z, hz, fun e => hc' (hc e)⟩

theorem Still.warp {s t : State} (h : Still s t) (a b : Nat) : Paired Warp.Tame (s.warp? a b) (t.warp? a b) := by
  have hu := h.units a
  rw [State.warp?, State.warp?]
  cases hs : s.unit? a with
  | none =>
    rw [hs] at hu
    cases ht : t.unit? a with
    | none => trivial
    | some v => rw [ht] at hu; exact hu.elim
  | some u =>
    rw [hs] at hu
    obtain ⟨v, hv, htame⟩ := hu.some
    rw [hv, Option.bind_some, Option.bind_some]
    exact htame.warps b

theorem Still.free {s t : State} (h : Still s t) (hf : s.Free) : t.Free := by
  refine ⟨h.stalled.trans hf.stalled, fun pa => h.mig pa (hf.mig pa), fun u w k hholder x hx => ?_⟩
  obtain e | e := h.solo
  · rw [e] at hholder
    exact absurd hholder (by simp)
  · have hw := h.warp u w
    rw [hx] at hw
    obtain ⟨y, hy, htame⟩ := hw.some_right
    exact htame.2 k (hf.solo u w k (e ▸ hholder) y hy)

/-- A fold of steps that each leave these things. -/
theorem Still.foldl {α : Type} {g : State → α → State} (h : ∀ s a, Still s (g s a)) (l : List α) (s : State) : Still s (l.foldl g s) := by
  induction l generalizing s with
  | nil => exact Still.refl s
  | cons a l ih => exact (h s a).trans (ih (g s a))

theorem Still.foldl_free {α : Type} {g : State → α → State} (h : ∀ s a, s.Free → Still s (g s a)) (l : List α) {s : State} (hf : s.Free) :
    Still s (l.foldl g s) := by
  induction l generalizing s with
  | nil => exact Still.refl s
  | cons a l ih =>
    have hstep := h s a hf
    exact hstep.trans (ih (hstep.free hf))

/-- What a step has to leave to be one of these: units, records, dies, the solitary grant, no stall. -/
def State.ground (s : State) : Map KUnit × Map Rec × Map Die × Option (Nat × Nat × Nat) × Bool :=
  (s.units, s.records, s.dies, s.soloHolder, s.stalled)

theorem Still.of_ground {s t : State} (h : t.ground = s.ground) : Still s t := by
  simp only [State.ground, Prod.mk.injEq] at h
  obtain ⟨hu, hr, hd, hs, ht⟩ := h
  refine ⟨ht, fun pa e => ?_, .inr hs, fun a => ?_, fun k r e => ⟨r, by rwa [hr], id⟩⟩
  · rwa [State.migLocked, hd]
  · rw [State.unit?, State.unit?, hu]
    exact Paired.refl KUnit.Tame.refl _

theorem Still.editUnit {s : State} {u : Nat} {g : KUnit → KUnit} (h : ∀ un, s.unit? u = some un → un.Tame (g un)) : Still s (s.editUnit u g) := by
  refine ⟨rfl, fun _ => id, .inr rfl, fun a => ?_, fun _ r h => ⟨r, h, id⟩⟩
  rw [State.unit?_editUnit]
  split_ifs with ha
  · rw [ha]
    exact Paired.map h
  · exact Paired.refl KUnit.Tame.refl _

theorem Still.editWarp {s : State} {u w : Nat} {g : Warp → Warp} (h : ∀ x, s.warp? u w = some x → x.Tame (g x)) : Still s (s.editWarp u w g) :=
  Still.editUnit fun un hu => KUnit.Tame.editWarp fun x hx => h x (by rw [State.warp?, hu, Option.bind_some, hx])

theorem Still.editRec (s : State) (ctx a : Nat) {g : Rec → Rec} (h : ∀ r, r.creq = true → (g r).creq = true) : Still s (s.editRec ctx a g) := by
  refine ⟨rfl, fun _ => id, .inr rfl, fun _ => Paired.refl KUnit.Tame.refl _, fun k r e => ?_⟩
  rw [State.editRec, Map.look_edit]
  split_ifs with hk
  · rw [e]
    exact ⟨g r, rfl, h r⟩
  · exact ⟨r, e, id⟩

/-- A die changes but for its migration. -/
theorem Still.editDie (s : State) (d : Nat) {g : Die → Die}
    (h : ∀ x, (g x).migState = x.migState ∧ (g x).migSrc = x.migSrc ∧ (g x).migSize = x.migSize) : Still s (s.editDie d g) := by
  refine ⟨rfl, fun pa e => ?_, .inr rfl, fun _ => Paired.refl KUnit.Tame.refl _, fun _ r h => ⟨r, h, id⟩⟩
  refine List.any_eq_false.2 fun p hp => ?_
  have hall := List.any_eq_false.1 e
  obtain hp | hp := Map.mem_put hp
  · obtain ⟨hstate, hsrc, hsize⟩ := h (s.die d)
    rw [hp]
    simp only [hstate, hsrc, hsize]
    cases hd : Map.look s.dies d with
    | none =>
      have hreset : s.die d = Die.reset := by simp [State.die, Map.lookD, hd]
      rw [hreset]
      simp [Die.reset]
    | some x =>
      have hx : s.die d = x := by simp [State.die, Map.lookD, hd]
      rw [hx]
      exact hall (d, x) (Map.mem_of_look hd)
  · exact hall p hp

/-! ### Barriers drop threads (R194, R198, R199) -/

theorem Warp.Tame.editFrag (w : Warp) (i : Nat) (g : Frag → Frag) : w.Tame (w.editFrag i g) := Warp.Tame.of_eq rfl rfl

theorem Warp.Tame.foldl {α : Type} {g : Warp → α → Warp} (h : ∀ (w : Warp) a, w.Tame (g w a)) (l : List α) (w : Warp) : w.Tame (l.foldl g w) := by
  induction l generalizing w with
  | nil => exact Warp.Tame.refl w
  | cons a l ih => exact (h w a).trans (ih (g w a))

theorem Warp.Tame.setPred (w : Warp) (p : PredReg) (t : Nat) (b : Bool) : w.Tame (w.setPred p t b) :=
  Warp.Tame.of_eq (by simp) (by simp)

theorem Warp.Tame.releaseFrag (w : Warp) (i : Nat) (inv : Bool) : w.Tame (w.releaseFrag i inv) := by
  unfold Warp.releaseFrag
  split
  · split
    · exact (Warp.Tame.foldl (fun w t => Warp.Tame.setPred w _ t inv) _ _).trans (Warp.Tame.editFrag ..)
    · exact Warp.Tame.refl w
  · exact Warp.Tame.refl w

theorem Warp.Tame.releaseAll (w : Warp) (off : Nat) (inv : Bool) (p : Frag → Bool) : w.Tame (w.releaseAll off inv p) :=
  (Warp.Tame.foldl (fun w i => Warp.Tame.releaseFrag w i inv) _ _).trans (Warp.Tame.of_eq rfl rfl)

theorem Still.editCore (s : State) (c : Nat) (g : CoreSt → CoreSt) : Still s (s.editCore c g) := Still.of_ground rfl

theorem Still.releaseBar (s : State) (u off : Nat) (inv : Bool) : Still s (s.releaseBar u off inv) := by
  unfold State.releaseBar
  split
  · exact Still.refl s
  · split_ifs
    · exact Still.refl s
    · unfold State.releaseSome
      split
      · exact Still.refl s
      · refine .trans ?_ (Still.editUnit fun un _ => KUnit.Tame.eachWarp fun b x => Warp.Tame.releaseAll x off inv _)
        refine .trans ?_ (Still.foldl (fun s x => Still.editCore ..) _ _)
        split_ifs
        · exact Still.editCore ..
        · exact Still.refl s

theorem KUnit.Tame.putBar (u : KUnit) (off : Nat) (b : BarWord) (bars : Map Bar) : u.Tame { u.putBar off b with bars := bars } := by
  obtain ⟨m, g, p, e⟩ := KUnit.scratchOnly_sput u off (leBytes 16 b.bits) false
  rw [KUnit.putBar, e]
  exact KUnit.Tame.of_eq rfl rfl

theorem Still.evaluate (s : State) (u off : Nat) : Still s (s.evaluate u off) := by
  unfold State.evaluate
  split
  · exact Still.refl s
  · dsimp only
    split
    · refine .trans ?_ (Still.releaseBar ..)
      exact Still.editUnit fun un _ => KUnit.Tame.putBar un off _ _
    · exact Still.refl s

theorem Still.dropBar (s : State) (u off w : Nat) (m : Mask) : Still s (s.dropBar u off w m) := by
  unfold State.dropBar
  split
  · exact Still.refl s
  · split
    · exact Still.refl s
    · refine .trans ?_ (Still.evaluate ..)
      exact Still.editUnit fun un _ => KUnit.Tame.putBar un off _ _

theorem KUnit.Tame.drops (u : KUnit) (l : List DropLeft) : u.Tame { u with drops := l } := KUnit.Tame.of_eq rfl rfl

theorem Still.settleDrops (s : State) (u : Nat) : Still s (s.settleDrops u) := by
  unfold State.settleDrops
  split
  · exact Still.refl s
  · dsimp only
    split
    · exact Still.refl s
    · refine .trans (Still.editUnit fun un _ => KUnit.Tame.drops un _) (Still.foldl (fun s d => ?_) _ _)
      exact Still.foldl (fun s off => Still.dropBar s u off d.warp d.mask) d.offs s

/-! ### Fragments die (R142, R275) -/

theorem Still.releaseSolo (s : State) (u w t : Nat) : Still s (s.releaseSolo u w t) := by
  unfold State.releaseSolo
  split_ifs
  · exact ⟨rfl, fun _ => id, .inl rfl, fun _ => Paired.refl KUnit.Tame.refl _, fun _ r h => ⟨r, h, id⟩⟩
  · exact Still.refl s

theorem Warp.Tame.setTx {w : Warp} {t : Nat} {x : Txn} (h : (w.tx t).Bare → x.Bare) : w.Tame (w.setTx t x) := by
  refine ⟨rfl, fun y hy => ?_⟩
  rw [Warp.tx_setTx]
  split_ifs with e
  · exact h (e ▸ hy)
  · exact hy

theorem State.warp?_releaseSolo (s : State) (u w t a b : Nat) : (s.releaseSolo u w t).warp? a b = s.warp? a b := by
  unfold State.releaseSolo
  split_ifs <;> rfl

/-- A thread's transaction is discarded in its warp. -/
theorem Still.discards {s : State} {u w : Nat} {wp : Warp} (h : s.warp? u w = some wp) (t : Nat) :
    Still s (s.editWarp u w fun v => (if (wp.tx t).st = .idle then v else v.setFlags t (wp.tx t).snapFlags).setTx t (wp.tx t).discard) := by
  refine Still.editWarp fun v hv => ?_
  obtain rfl : wp = v := Option.some.inj (h.symm.trans hv)
  split_ifs
  · exact Warp.Tame.setTx Txn.Bare.discard
  · exact .trans (Warp.Tame.of_eq (v := wp.setFlags t (wp.tx t).snapFlags) rfl rfl) (Warp.Tame.setTx fun hb => Txn.Bare.discard hb)

theorem Still.discardTx (s : State) (u w t : Nat) : Still s (s.discardTx u w t) := by
  unfold State.discardTx
  split
  · exact Still.refl s
  · next wp hwp =>
    have hsolo := Still.releaseSolo s u w t
    have hlook : (s.releaseSolo u w t).warp? u w = some wp := (State.warp?_releaseSolo s u w t u w).trans hwp
    dsimp only
    split
    · exact hsolo.trans (Still.discards hlook t)
    · next r _ _ =>
      have hrow : Still (s.releaseSolo u w t)
          ((s.releaseSolo u w t).editUnit u fun un => un.putRow r { un.row r with mxexc := (wp.tx t).snapMx }) :=
        Still.editUnit fun un _ => KUnit.Tame.of_eq rfl rfl
      refine hsolo.trans (hrow.trans (Still.discards ?_ t))
      rw [State.warp?, State.unit?_editUnit, if_pos rfl, ← hlook, State.warp?]
      cases (s.releaseSolo u w t).unit? u <;> rfl
    · exact hsolo.trans (Still.discards hlook t)

theorem Still.editFrag (s : State) (f : FragRef) (g : Frag → Frag) : Still s (s.editFrag f g) := by
  rw [State.editFrag_eq]
  exact Still.editWarp fun w _ => Warp.Tame.editFrag w _ g

theorem Warp.Tame.settle (w : Warp) : w.Tame w.settle := by
  unfold Warp.settle
  split_ifs
  · exact Warp.Tame.of_eq rfl rfl
  · exact Warp.Tame.refl w

theorem Warp.Tame.kill (w : Warp) (m : Mask) : w.Tame { w with killed := m } := Warp.Tame.of_eq rfl rfl

theorem Still.dropKilled (s : State) (u w : Nat) (m : Mask) : Still s (s.dropKilled u w m) :=
  .trans (Still.editUnit fun un _ => KUnit.Tame.drops un _) (Still.settleDrops ..)

theorem Still.killFrag (s : State) (f : FragRef) : Still s (s.killFrag f) := by
  unfold State.killFrag
  split
  · exact Still.refl s
  · next x _ =>
    split
    · exact Still.refl s
    · have hend : Still s (s.endThreads f.unit f.warp x.mask) := Still.foldl (fun s t => Still.discardTx s f.unit f.warp t) _ s
      refine .trans ?_ (Still.dropKilled ..)
      refine .trans ?_ (Still.editWarp fun w _ => Warp.Tame.settle w)
      refine .trans ?_ (Still.editFrag ..)
      refine .trans ?_ (Still.editWarp fun w _ => Warp.Tame.kill w _)
      exact hend.trans (Still.of_ground rfl)

end Sys2Proof.Machine
end

section
/-! SUPPORT. A cancel of a record (R329) with all that follows it: the launches it ends, the records it completes, the handlers it ends. -/
namespace Sys2Proof.Machine

/-! ### Warps and fragments that a cancel or a handler's failure kills -/

theorem Still.killWarp (s : State) (u w : Nat) : Still s (s.killWarp u w) := by
  unfold State.killWarp
  split
  · exact Still.refl s
  · exact Still.foldl (fun s i => Still.killFrag s ⟨u, w, i⟩) _ s

theorem Still.cancelWarp (s : State) (u w : Nat) : Still s (s.cancelWarp u w) := by
  unfold State.cancelWarp
  split
  · exact Still.refl s
  · split_ifs
    · exact Still.refl s
    · exact (Still.killWarp s u w).trans (Still.editUnit fun un _ => KUnit.Tame.of_eq rfl rfl)

/-- What is done to a unit where it is leaves these things, in an evicted unit's image too. -/
theorem Still.onUnit (s : State) (u : Nat) {g : State → State} (hg : ∀ t, Still t (g t)) : Still s (s.onUnit u g) := by
  unfold State.onUnit
  split_ifs with hhas
  · exact hg s
  · unfold State.inImage
    split
    · exact Still.refl s
    · next un _ =>
      have hnone : s.unit? u = none := by
        rw [State.unit?]
        simpa [Map.has] using hhas
      have hstep := hg { s with units := Map.put s.units u un, evicted := Map.del s.evicted u }
      generalize g { s with units := Map.put s.units u un, evicted := Map.del s.evicted u } = t at hstep
      have hput : ∀ a, ({ s with units := Map.put s.units u un, evicted := Map.del s.evicted u } : State).unit? a
          = if a = u then some un else s.unit? a := fun a => Map.look_put ..
      obtain ⟨v, hv, -⟩ : ∃ v, t.unit? u = some v ∧ un.Tame v := by
        have := hstep.units u
        rw [hput, if_pos rfl] at this
        exact this.some
      dsimp only
      rw [hv]
      refine ⟨hstep.stalled, hstep.mig, hstep.solo, fun a => ?_, hstep.recs⟩
      have hdel : ({ t with units := Map.del t.units u, evicted := Map.put t.evicted u v } : State).unit? a = if a = u then none else t.unit? a :=
        Map.look_del ..
      rw [hdel]
      split_ifs with ha
      · rw [ha, hnone]
        trivial
      · have := hstep.units a
        rwa [hput, if_neg ha] at this

theorem Still.repairKill (s : State) (f : FragRef) : Still s (s.repairKill f) :=
  Still.onUnit s f.unit fun t => (Still.killFrag t f).trans (Still.editUnit fun _ _ => KUnit.Tame.of_eq rfl rfl)

/-! ### Writes of the scheduler -/

theorem Still.recallWatches (s : State) (secs : List Nat) (self : Option (Nat × Nat × Nat)) : Still s (s.recallWatches secs self) := by
  refine ⟨rfl, fun _ => id, .inr rfl, fun a => ?_, fun _ r h => ⟨r, h, id⟩⟩
  rw [State.unit?, State.unit?, State.recallWatches, Map.look_each]
  refine Paired.map fun un _ => KUnit.Tame.eachWarp fun b x => ⟨rfl, fun y hy => ?_⟩
  rw [Warp.tx, Map.lookD] at hy ⊢
  rw [Map.look_each]
  cases h : Map.look x.txn y with
  | none => exact ⟨rfl, rfl⟩
  | some z =>
    rw [h] at hy
    rw [Option.map_some, Option.getD_some]
    split_ifs
    · exact Txn.Bare.doom hy _
    · exact hy

theorem Still.put (s : State) (pa : Nat) (bs : List Byte) (tag : Bool) : Still s (s.put pa bs tag) := by
  refine Still.of_ground ?_
  unfold State.put
  split_ifs <;> rfl

theorem Still.unregister (s : State) (w : Nat) (b : Bool) : Still s (s.unregister w b) := by
  refine Still.of_ground ?_
  unfold State.unregister
  split
  · rfl
  · split_ifs <;> rfl

theorem Still.combineCore (s : State) (c w : Nat) : Still s (s.combineCore c w) := by
  unfold State.combineCore
  split
  · exact Still.refl s
  · refine .trans ?_ (Still.unregister ..)
    refine .trans ?_ (Still.put ..)
    exact (Still.editCore ..).trans (Still.recallWatches ..)

theorem Still.combine (s : State) (pa n : Nat) : Still s (s.combine pa n) := by
  refine Still.foldl (fun s w => Still.foldl (fun s c => ?_) _ s) _ s
  refine (Still.combineCore s c w).trans ?_
  dsimp only
  split
  · split_ifs
    · exact Still.combineCore ..
    · exact Still.refl _
  · exact Still.refl _

theorem Still.homeWrite (s : State) (pa : Nat) (bs : List Byte) (tag : Bool) : Still s (s.homeWrite none none pa bs tag) := by
  unfold State.homeWrite
  refine .trans ?_ (Still.put ..)
  refine .trans ?_ (Still.recallWatches ..)
  exact (Still.combine ..).trans (Still.foldl (fun s w => Still.unregister s w true) _ _)

/-- A write of the scheduler where no line is locked. -/
theorem State.Free.agentWrite {s : State} (h : s.Free) (pa : Nat) (bs : List Byte) : s.agentWrite pa bs = s.homeWrite none none pa bs false := by
  rw [State.agentWrite, if_neg]
  rw [Bool.not_eq_true]
  exact List.any_eq_false.2 fun l _ => by rw [h.lineBusy]; exact Bool.false_ne_true

theorem Still.agentWrite {s : State} (h : s.Free) (pa : Nat) (bs : List Byte) : Still s (s.agentWrite pa bs) := by
  rw [h.agentWrite]
  exact Still.homeWrite ..

/-! ### Handlers that end or fail (R420, R425) -/

theorem Still.sendMsix (s : State) (v : Nat) : Still s (s.sendMsix v) := by
  refine Still.of_ground ?_
  unfold State.sendMsix
  split_ifs <;> rfl

theorem Still.raiseErr (s : State) (set : Dev → Dev) : Still s (s.raiseErr set) := by
  unfold State.raiseErr
  have hdev : Still s { s with dev := set s.dev } := Still.of_ground rfl
  dsimp only
  split_ifs
  · exact hdev.trans (Still.sendMsix ..)
  · exact hdev

theorem Still.trapPut {s : State} (h : s.Free) (ctx off n x : Nat) : Still s (s.trapPut ctx off n x) := Still.agentWrite h ..

theorem Still.ringRecord {s : State} (h : s.Free) (ctx : Nat) (e : TrapEntry) (r : RecFields) : Still s (s.ringRecord ctx e r) := by
  have hwrite := Still.agentWrite h (e.ring + 128 * (e.prod % 2 ^ e.log2n)) (r.bytes s.time)
  exact hwrite.trans (Still.trapPut (hwrite.free h) ..)

theorem Still.flushPosts {s : State} (h : s.Free) (ctx : Nat) : Still s (s.flushPosts ctx) := by
  unfold State.flushPosts
  refine .trans (Still.foldl_free (fun s p hs => ?_) _ h) (Still.of_ground rfl)
  split
  · split_ifs
    · exact Still.ringRecord hs ..
    · exact Still.refl s
  · exact Still.refl s

theorem Still.putFailed {s : State} (h : s.Free) (ctx : Nat) : Still s (s.putFailed ctx) := by
  unfold State.putFailed
  split
  · exact Still.agentWrite h ..
  · exact Still.refl s

theorem Still.failHandler {s : State} (h : s.Free) (ctx : Nat) (ring : Bool) : Still s (s.failHandler ctx ring) := by
  have hfailed : Still s ((s.putFailed ctx).editDev fun d => { d with trapLost := NSet.set d.trapLost ctx !ring }) :=
    (Still.putFailed h ctx).trans (Still.of_ground rfl)
  unfold State.failHandler
  refine .trans ?_ (Still.raiseErr ..)
  refine .trans ?_ (Still.foldl (fun s f => Still.repairKill s f) _ _)
  refine hfailed.trans ?_
  split_ifs
  · exact Still.flushPosts (hfailed.free h) ctx
  · exact Still.of_ground rfl

theorem Still.handlerOver (s : State) (ctx job : Nat) : Still s (s.handlerOver ctx job) := by
  unfold State.handlerOver
  split_ifs
  · exact Still.of_ground rfl
  · exact Still.refl s

theorem Still.handlerEnded {s : State} (h : s.Free) (ctx result : Nat) : Still s (s.handlerEnded ctx result) := by
  unfold State.handlerEnded
  split
  · exact Still.refl s
  · next e _ =>
    have hput := Still.trapPut h ctx 20 4 (e.fails + 1)
    split_ifs
    · exact Still.refl s
    · exact Still.trapPut h ..
    · exact hput.trans (Still.failHandler (hput.free h) ..)
    · exact hput

theorem Still.handlerHook {s : State} (h : s.Free) (ctx a result : Nat) : Still s (s.handlerHook ctx a result) := by
  unfold State.handlerHook
  split
  · exact Still.refl s
  · refine .trans ?_ (Still.handlerOver ..)
    split_ifs
    · exact Still.handlerEnded h ..
    · exact Still.refl s

/-! ### Records that complete (R324 to R327) -/

theorem Still.putRec {s : State} {ctx a : Nat} {r y : Rec} (h : s.record ctx a = some r) (hc : r.creq = true → y.creq = true) :
    Still s (s.putRec ctx a y) := by
  have hlook : Map.look s.records (recKey ctx a) = some r := by
    unfold State.record at h
    split_ifs at h
    exact h
  refine ⟨rfl, fun _ => id, .inr rfl, fun _ => Paired.refl KUnit.Tame.refl _, fun k z e => ?_⟩
  rw [State.putRec, Map.look_put]
  split_ifs with hk
  · obtain rfl : r = z := Option.some.inj (hlook.symm.trans (hk ▸ e))
    exact ⟨y, rfl, hc⟩
  · exact ⟨z, e, id⟩

theorem Still.writeRec {s : State} (h : s.Free) (ctx a : Nat) (r : Rec) : Still s (s.writeRec ctx a r) := by
  unfold State.writeRec
  split
  · exact Still.agentWrite h ..
  · exact Still.refl s

theorem Rec.endChild_creq (p : Rec) (result : Nat) : (p.endChild result).creq = p.creq := by
  unfold Rec.endChild
  dsimp only
  split_ifs <;> rfl

theorem Still.tryRec (n : Nat) {s : State} (h : s.Free) (ctx a : Nat) : Still s (State.tryRec n s ctx a) := by
  induction n generalizing s a with
  | zero => exact Still.refl s
  | succ n ih =>
    unfold State.tryRec
    split
    · exact Still.refl s
    · next r hr =>
      split
      · exact Still.refl s
      · have hput : Still s (s.putRec ctx a (r.finish s.time)) := Still.putRec hr id
        have hwrite := hput.trans (Still.writeRec (hput.free h) ctx a (r.finish s.time))
        have hhook := hwrite.trans (Still.handlerHook (hwrite.free h) ctx a (r.finish s.time).result)
        have hparent : ∀ t, Still s t → Still s
            (if (r.finish s.time).parent ≠ 0 then State.tryRec n (t.editRec ctx (r.finish s.time).parent fun p => p.endChild (r.finish s.time).result) ctx
              (r.finish s.time).parent else t) := fun t ht => by
          split_ifs
          · have hedit := ht.trans (Still.editRec t ctx (r.finish s.time).parent (g := fun p => p.endChild (r.finish s.time).result)
              fun p hp => (p.endChild_creq _).trans hp)
            exact hedit.trans (ih (hedit.free h) _)
          · exact ht
        have hend := hparent _ hhook
        dsimp only
        split
        · split
          · exact hend.trans (Still.sendMsix ..)
          · exact hend
        · exact hend

theorem Still.tryAt {s : State} (h : s.Free) (ctx a : Nat) : Still s (s.tryAt ctx a) := Still.tryRec 8 h ctx a

theorem Still.endChildOf {s : State} (h : s.Free) (ctx a cls : Nat) : Still s (s.endChildOf ctx a cls) := by
  have hedit := Still.editRec s ctx a (g := fun p => p.endChild cls) fun p hp => (p.endChild_creq _).trans hp
  exact hedit.trans (Still.tryAt (hedit.free h) ..)

theorem Still.closeRec {s : State} (h : s.Free) (ctx a result : Nat) : Still s (s.closeRec ctx a result) := by
  have hedit := Still.editRec s ctx a (g := fun r => { r with pending := 0, result := if r.result = 0 then result else r.result }) fun _ => id
  exact hedit.trans (Still.tryAt (hedit.free h) ..)

/-! ### Launches that are cancelled (R329) -/

theorem Still.unmap (s : State) (q : Nat) : Still s (s.unmap q) := Still.editDie s _ fun _ => ⟨rfl, rfl, rfl⟩

theorem Still.pass (s : State) (q : Nat) : Still s (s.pass q) := by
  unfold State.pass
  split
  · exact Still.refl s
  · next d _ =>
    have hqueue : ∀ g, Still s (s.editQueue q g) := fun g => Still.of_ground rfl
    have hslot : ∀ t, Still s t → Still s (match t.slotOf q with
        | some (n, _) => t.editSlot (queueDie q) n fun v => { v with taken := none }
        | none => t) := fun t ht => by
      split
      · exact ht.trans (Still.editDie t _ fun _ => ⟨rfl, rfl, rfl⟩)
      · exact ht
    dsimp only
    split_ifs
    · exact (hslot _ (hqueue _)).trans (Still.unmap ..)
    · exact hslot _ (hqueue _)

theorem Still.gcLaunch (s : State) (n : Nat) : Still s (s.gcLaunch n) := by
  unfold State.gcLaunch
  split_ifs
  · exact Still.refl s
  · exact Still.of_ground rfl

theorem Still.discardEvicted {s : State} (h : s.Free) (n : Nat) (l : Launch) (cls : Nat) : Still s (s.discardEvicted n l cls) := by
  unfold State.discardEvicted
  refine .trans (Still.foldl_free (fun s u hs => ?_) _ h) (Still.gcLaunch ..)
  have hdrop : Still s (s.dropEvicted u) := Still.of_ground rfl
  exact hdrop.trans (Still.endChildOf (hdrop.free hs) ..)

theorem Still.unpark (s : State) (n : Nat) : Still s (s.unpark n) := by
  refine ⟨rfl, fun _ => id, .inr rfl, fun a => ?_, fun _ r h => ⟨r, h, id⟩⟩
  rw [State.unit?, State.unit?, State.unpark, Map.look_each]
  refine Paired.map fun un _ => ?_
  split_ifs
  · exact KUnit.Tame.of_eq rfl rfl
  · exact KUnit.Tame.refl un

theorem Still.cancelLaunch {s : State} (h : s.Free) (n : Nat) : Still s (s.cancelLaunch n) := by
  unfold State.cancelLaunch
  split
  · exact Still.refl s
  · next l _ =>
    split
    · have hdel : ∀ t : State, Still t { t with launches := Map.del t.launches n } := fun t => Still.of_ground rfl
      exact (Still.closeRec h ..).trans ((hdel _).trans (Still.pass ..))
    · exact Still.discardEvicted h ..
    · dsimp only
      refine .trans ?_ (Still.foldl (fun s (p : Nat × KUnit) => Still.foldl (fun s w => Still.cancelWarp s p.1 w) _ s) _ _)
      split_ifs
      · exact Still.refl s
      · exact Still.unpark ..

/-- What a cancel requests of a record. -/
def Rec.request (r : Rec) : Rec := if r.done then r else { r with creq := true }

theorem Rec.request_creq {r : Rec} (h : r.creq = true) : r.request.creq = true := by
  unfold Rec.request
  split_ifs
  · exact h
  · rfl

/-- A record that is not complete, among those of a cancel, has its cancel requested. -/
theorem State.foldl_request (ctx a : Nat) (l : List Nat) {s : State} {r : Rec} (h : Map.look s.records (recKey ctx a) = some r) (hd : r.done = false)
    (hc : a ∈ l ∨ r.creq = true) :
    ∃ y, Map.look (l.foldl (fun s x => s.editRec ctx x Rec.request) s).records (recKey ctx a) = some y ∧ y.creq = true := by
  induction l generalizing s r with
  | nil => exact ⟨r, h, hc.resolve_left (by simp)⟩
  | cons x l ih =>
    have hlook : Map.look (s.editRec ctx x Rec.request).records (recKey ctx a)
        = if recKey ctx a = recKey ctx x then some r.request else some r := by
      rw [State.editRec, Map.look_edit, h]
      rfl
    have hreq : r.request = { r with creq := true } := if_neg (by rw [hd]; exact Bool.false_ne_true)
    rw [List.foldl_cons]
    by_cases hk : recKey ctx a = recKey ctx x
    · rw [if_pos hk, hreq] at hlook
      exact ih hlook hd (.inr rfl)
    · rw [if_neg hk] at hlook
      refine ih hlook hd (hc.imp_left fun hmem => (List.mem_cons.1 hmem).resolve_left fun e => hk (e ▸ rfl))

theorem foldl_mem_keeps {α : Type} {g : List Nat → α → List Nat} {a : Nat} (h : ∀ l x, a ∈ l → a ∈ g l x) (xs : List α) (l : List Nat) (hl : a ∈ l) :
    a ∈ xs.foldl g l := by
  induction xs generalizing l with
  | nil => exact hl
  | cons x xs ih => exact ih _ (h l x hl)

theorem State.mem_below (s : State) (ctx a : Nat) : a ∈ s.below ctx a := by
  unfold State.below
  refine foldl_mem_keeps (fun l _ hl => foldl_mem_keeps (fun l p hl => ?_) _ _ hl) _ _ (List.mem_singleton.2 rfl)
  split_ifs
  · exact List.mem_append_left _ hl
  · exact hl

/-- A cancel of a record that is not complete: what it leaves, and that it stands requested. -/
theorem State.cancelRec_requests {s : State} (h : s.Free) {ctx a : Nat} {r : Rec} (hr : s.record ctx a = some r) (hd : r.done = false) :
    (s.cancelRec ctx a).2 = 0 ∧ Still s (s.cancelRec ctx a).1 ∧ ∃ y, (s.cancelRec ctx a).1.record ctx a = some y ∧ y.creq = true := by
  have ha : a < 2 ^ 56 := by
    by_contra e
    rw [State.record, if_neg e] at hr
    exact absurd hr (by simp)
  have hlook : Map.look s.records (recKey ctx a) = some r := by rwa [State.record, if_pos ha] at hr
  let s1 := (s.below ctx a).foldl (fun s x => s.editRec ctx x Rec.request) s
  have h1 : Still s s1 := Still.foldl (fun s x => Still.editRec s ctx x fun _ => Rec.request_creq) _ s
  have h2 := h1.trans (Still.foldl_free (fun s n hs => Still.cancelLaunch hs n)
    ((s1.launches.filter fun p => p.2.under ctx (s.below ctx a)).map (·.1)) (h1.free h))
  have h3 := Still.foldl_free (fun s x hs => Still.tryAt hs ctx x) (s.below ctx a).reverse (h2.free h)
  have e : s.cancelRec ctx a = ((s.below ctx a).reverse.foldl (fun s x => s.tryAt ctx x)
      (((s1.launches.filter fun p => p.2.under ctx (s.below ctx a)).map (·.1)).foldl State.cancelLaunch s1), 0) := by
    rw [State.cancelRec, hr]
    simp only [hd, Bool.false_eq_true, if_false]
    rfl
  obtain ⟨y, hy, hc⟩ := State.foldl_request ctx a (s.below ctx a) hlook hd (.inl (s.mem_below ctx a))
  have hrest : Still s1 (s.cancelRec ctx a).1 := by
    rw [e]
    exact (Still.foldl_free (fun s n hs => Still.cancelLaunch hs n) _ (h1.free h)).trans h3
  obtain ⟨z, hz, hc'⟩ := hrest.recs _ y hy
  refine ⟨by rw [e], h1.trans hrest, z, ?_, hc' hc⟩
  rw [State.record, if_pos ha, hz]

end Sys2Proof.Machine
end

section
/-! SUPPORT. Launch operations that complete (R260, R261): the answer in the registers, the packet appended at TAIL, the record cancelled (O38). -/
namespace Sys2Proof.Machine

/-! ### The drops that follow a completion change units and cores only -/

/-- Nothing but units and cores differs. -/
def SameButUnits (s t : State) : Prop := ∃ us cs, t = { s with units := us, cores := cs }

theorem SameButUnits.refl (s : State) : SameButUnits s s := ⟨s.units, s.cores, rfl⟩

theorem SameButUnits.trans {s t r : State} (h : SameButUnits s t) (h' : SameButUnits t r) : SameButUnits s r := by
  obtain ⟨us, cs, rfl⟩ := h
  obtain ⟨us', cs', rfl⟩ := h'
  exact ⟨us', cs', rfl⟩

theorem SameButUnits.record {s t : State} (h : SameButUnits s t) (ctx a : Nat) : t.record ctx a = s.record ctx a := by
  obtain ⟨us, cs, rfl⟩ := h
  rfl

theorem SameButUnits.editUnit (s : State) (u : Nat) (g : KUnit → KUnit) : SameButUnits s (s.editUnit u g) := ⟨_, s.cores, rfl⟩
theorem SameButUnits.editWarp (s : State) (u w : Nat) (g : Warp → Warp) : SameButUnits s (s.editWarp u w g) := ⟨_, s.cores, rfl⟩
theorem SameButUnits.editCore (s : State) (c : Nat) (g : CoreSt → CoreSt) : SameButUnits s (s.editCore c g) := ⟨s.units, _, rfl⟩

theorem SameButUnits.foldl {α : Type} {g : State → α → State} (h : ∀ s a, SameButUnits s (g s a)) (l : List α) (s : State) :
    SameButUnits s (l.foldl g s) := by
  induction l generalizing s with
  | nil => exact SameButUnits.refl s
  | cons a l ih => exact (h s a).trans (ih (g s a))

theorem SameButUnits.releaseBar (s : State) (u off : Nat) (inv : Bool) : SameButUnits s (s.releaseBar u off inv) := by
  unfold State.releaseBar
  split
  · exact SameButUnits.refl s
  · split_ifs
    · exact SameButUnits.refl s
    · unfold State.releaseSome
      split
      · exact SameButUnits.refl s
      · refine .trans ?_ (SameButUnits.editUnit ..)
        refine .trans ?_ (SameButUnits.foldl (fun s x => SameButUnits.editCore ..) _ _)
        split_ifs
        · exact SameButUnits.editCore ..
        · exact SameButUnits.refl s

theorem SameButUnits.dropBar (s : State) (u off w : Nat) (m : Mask) : SameButUnits s (s.dropBar u off w m) := by
  have heval : ∀ t : State, SameButUnits t (t.evaluate u off) := fun t => by
    unfold State.evaluate
    split
    · exact SameButUnits.refl t
    · dsimp only
      split
      · exact .trans (SameButUnits.editUnit ..) (SameButUnits.releaseBar ..)
      · exact SameButUnits.refl t
  unfold State.dropBar
  split
  · exact SameButUnits.refl s
  · split
    · exact SameButUnits.refl s
    · exact .trans (SameButUnits.editUnit ..) (heval _)

theorem SameButUnits.settleDrops (s : State) (u : Nat) : SameButUnits s (s.settleDrops u) := by
  unfold State.settleDrops
  split
  · exact SameButUnits.refl s
  · dsimp only
    split
    · exact SameButUnits.refl s
    · refine .trans (SameButUnits.editUnit ..) (SameButUnits.foldl (fun s d => ?_) _ _)
      exact SameButUnits.foldl (fun s off => SameButUnits.dropBar s u off d.warp d.mask) d.offs s

/-! ### The answer -/

/-- One word in a register of the threads of a list, and nothing else of the warp but registers and their tags. -/
theorem Warp.answer (d : Dst) (v : Word) (w : Warp) {l : List Nat} (hl : ∀ k ∈ l, k < 32) :
    w.RegsOnly (l.foldl (fun w t => (w.setReg d.reg t v).setRtag d.reg .general) w)
      ∧ ∀ k < 32, (l.foldl (fun w t => (w.setReg d.reg t v).setRtag d.reg .general) w).reg d.reg k = if k ∈ l then v else w.reg d.reg k := by
  induction l generalizing w with
  | nil => exact ⟨⟨w.regs, w.rtags, w.qtags, rfl⟩, fun k _ => by simp⟩
  | cons t l ih =>
    obtain ⟨⟨r, g, q, e⟩, hreg⟩ := ih ((w.setReg d.reg t v).setRtag d.reg .general) fun k hk => hl k (List.mem_cons_of_mem _ hk)
    rw [List.foldl_cons]
    refine ⟨⟨r, g, q, by rw [e]; rfl⟩, fun k hk => ?_⟩
    rw [hreg k hk, Warp.reg_setRtag, Warp.reg_setReg _ _ _ _ _ _ (hl t List.mem_cons_self) hk]
    by_cases hkl : k ∈ l <;> by_cases hkt : k = t <;> simp [hkl, hkt]

/-- The state in which an operation has answered a word and is complete. -/
def State.answered (s : State) (u op : Nat) (o : Op) (v : Word) : State := (s.giveAll u o v).editUnit u fun un => un.complete op

section
variable {s : State} {u op : Nat} {un : KUnit} {o : Op} {w : Warp} {x : Dst} (hu : s.unit? u = some un) (hw : s.warp? u o.warp = some w)
  (hx : o.dst = some x) (v : Word)
include hu hw hx

/-- The warp with the answer in its registers. -/
theorem State.answered_warp : ∃ wn, (s.answered u op o v).warp? u o.warp = some wn ∧ w.RegsOnly wn
    ∧ ∀ k < 32, o.mask.getLsbD k = true → w.live.getLsbD k = true → wn.reg x.reg k = v := by
  obtain ⟨honly, hreg⟩ := Warp.answer x v w (l := threads (o.mask &&& w.live)) fun k hk => (mem_threads.1 hk).1
  have hlook : Map.look un.warps o.warp = some w := by simpa [State.warp?, hu] using hw
  refine ⟨_, ?_, honly, fun k hk hm hl => ?_⟩
  · simp only [State.answered, State.giveAll, hx, State.warp?, State.editWarp, State.unit?_editUnit, if_pos, hu, Option.map_some, Option.bind_some,
      KUnit.complete, KUnit.editWarp, Map.look_edit_self, hlook]
  · rw [hreg k hk, if_pos (mem_threads.2 ⟨hk, by rw [BitVec.getLsbD_and, hm, hl]; rfl⟩)]

/-- What follows an answer keeps it. -/
theorem Still.gives {t : State} (h : Still (s.answered u op o v) t) :
    (∃ wn, t.warp? u o.warp = some wn ∧ ∀ k < 32, o.mask.getLsbD k = true → w.live.getLsbD k = true → wn.reg x.reg k = v)
      ∧ ∀ vn, t.unit? u = some vn → ∀ y ∈ vn.ops, y.id = op → y.done = true := by
  obtain ⟨wn, hwn, -, hreg⟩ := State.answered_warp (op := op) hu hw hx v
  constructor
  · have hpair := h.warp u o.warp
    rw [hwn] at hpair
    obtain ⟨wt, hwt, hregs, -⟩ := hpair.some
    refine ⟨wt, hwt, fun k hk hm hl => ?_⟩
    rw [Warp.reg, hregs]
    exact hreg k hk hm hl
  · intro vn hvn y hy hid
    have hpair := h.units u
    rw [hvn] at hpair
    obtain ⟨un1, hun1, htame⟩ := hpair.some_right
    obtain ⟨z, hz, hzid, hdone⟩ := htame.ops y hy
    refine hdone ?_
    rw [State.answered, State.unit?_editUnit, if_pos rfl] at hun1
    obtain ⟨un0, -, rfl⟩ := Option.map_eq_some_iff.1 hun1
    obtain ⟨a, -, rfl⟩ := List.mem_map.1 (mem_of_mem_drainOps hz)
    by_cases ha : a.id = op
    · rw [if_pos ha]
    · rw [if_neg ha] at hzid
      exact absurd (hzid.trans hid) ha

end

theorem SameButUnits.answered (s : State) (u op : Nat) (o : Op) (v : Word) : SameButUnits s (s.answered u op o v) := by
  refine .trans ?_ (SameButUnits.editUnit ..)
  unfold State.giveAll
  split
  · exact SameButUnits.refl s
  · exact SameButUnits.editWarp ..

/-- An answer locks no line. -/
theorem State.Free.answered {s : State} (h : s.Free) {u op : Nat} {un : KUnit} {o : Op} {w : Warp} {x : Dst} (hu : s.unit? u = some un)
    (hw : s.warp? u o.warp = some w) (hx : o.dst = some x) (v : Word) : (s.answered u op o v).Free := by
  obtain ⟨wn, hwn, ⟨r, g, q, hsame⟩, -⟩ := State.answered_warp (op := op) hu hw hx v
  obtain ⟨us, cs, e⟩ := SameButUnits.answered s u op o v
  refine ⟨by rw [e]; exact h.stalled, fun pa => by rw [e]; exact h.mig pa, fun a b t hholder y hy => ?_⟩
  have hholder' : s.soloHolder = some (a, b, t) := by rwa [e] at hholder
  by_cases hab : a = u ∧ b = o.warp
  · obtain ⟨rfl, rfl⟩ := hab
    obtain rfl : wn = y := Option.some.inj (hwn.symm.trans hy)
    rw [hsame]
    exact h.solo a o.warp t hholder' w hw
  · refine h.solo a b t hholder' y ?_
    have hother : (s.answered u op o v).warp? a b = s.warp? a b := by
      rw [State.answered, State.warp?, State.unit?_editUnit]
      have hgive : (s.giveAll u o v).warp? a b = s.warp? a b := by
        rw [State.giveAll, hx]
        exact (State.warp?_editWarp ..).trans (if_neg hab)
      rw [← hgive, State.warp?]
      split_ifs with ha
      · rw [ha]
        cases (s.giveAll u o v).unit? u <;> rfl
      · rfl
    rwa [hother] at hy

/-! ### The event -/

theorem Wrote.queues {s t : State} {pa : Nat} {bs : List Byte} {tag : Bool} (h : Wrote s t pa bs tag) : t.queues = s.queues := by
  obtain ⟨a, ⟨⟨_, _, _, _, _, e⟩, -, -, -⟩, ⟨⟨_, _, _, _, _, e'⟩, -, -, -⟩⟩ := h
  have hput : (a.put pa bs tag).queues = a.queues := by
    unfold State.put
    split_ifs <;> rfl
  rw [e', hput, e]

/-- A doorbell changes its queue, and at most the slots of dies. -/
theorem State.ring_eq (s : State) (q : Nat) (d : QDesc) (tail : Nat) : ∃ ds, s.ring q d tail
    = { s with queues := Map.put s.queues q { (s.queue q).rung (2 ^ d.log2n) s.nextBell tail with ctx := d.ctx }, dies := ds } := by
  unfold State.ring
  dsimp only
  split_ifs
  · exact ⟨_, rfl⟩
  · exact ⟨s.dies, rfl⟩

/-- What an operation that completes gives: the word in its registers, and the operation complete. -/
def Gives (s t : State) (u op : Nat) (o : Op) (w : Warp) (x : Dst) (v : Word) : Prop :=
  exec (.memoryOpComplete u op) s = .next t
    ∧ (∃ wn, t.warp? u o.warp = some wn ∧ ∀ k < 32, o.mask.getLsbD k = true → w.live.getLsbD k = true → wn.reg x.reg k = v)
    ∧ ∀ vn, t.unit? u = some vn → ∀ y ∈ vn.ops, y.id = op → y.done = true

section
variable {s : State} {u op : Nat} {un : KUnit} {o : Op} {w : Warp} {x : Dst} (hu : s.unit? u = some un) (hop : un.op? op = some o)
  (hnot : o.done = false)
include hu hop hnot

theorem memoryOpComplete_launch {q : Nat} {p : List Byte} (hk : o.kind = .launch q p) {r : State × Word} (hr : s.lnch (s.ctxOf u) q p = r)
    (ht : r.1.stalled = false) : exec (.memoryOpComplete u op) s = .next ((r.1.answered u op o r.2).settleDrops u) := by
  have hstall : ((r.1.answered u op o r.2).settleDrops u).stalled = false := by
    obtain ⟨us, cs, e⟩ := (SameButUnits.answered r.1 u op o r.2).trans (SameButUnits.settleDrops _ u)
    rw [e]
    exact ht
  have e : exec (.memoryOpComplete u op) s = execMemoryOpComplete u op s := rfl
  have heffect : exec (.memoryOpComplete u op) s = .next (if ((r.1.answered u op o r.2).settleDrops u).stalled then s
      else (r.1.answered u op o r.2).settleDrops u) := by
    rw [e, ← hr]
    simp only [execMemoryOpComplete, whole, hu, hop, hnot, hk, Bool.false_eq_true, if_false]
    rfl
  rw [heffect, hstall]
  rfl

theorem memoryOpComplete_cancel {va : Nat} (hk : o.kind = .cancel va) {t : State}
    (ht : (((s.answered u op o (BitVec.ofNat 32 (s.cancelRec (s.ctxOf u) va).2)).cancelRec (s.ctxOf u) va).1).settleDrops u = t)
    (hst : t.stalled = false) : exec (.memoryOpComplete u op) s = .next t := by
  have e : exec (.memoryOpComplete u op) s = execMemoryOpComplete u op s := rfl
  have heffect : exec (.memoryOpComplete u op) s = .next (if t.stalled then s else t) := by
    rw [e, ← ht]
    simp only [execMemoryOpComplete, whole, hu, hop, hnot, hk, Bool.false_eq_true, if_false]
    rfl
  rw [heffect, hst]
  rfl

variable (hw : s.warp? u o.warp = some w) (hx : o.dst = some x) (hst : s.stalled = false)
include hw hx hst

/-- LNCH whose packet is not queued. -/
theorem lnch_refuses {q : Nat} {p : List Byte} (hk : o.kind = .launch q p) {v : Word} (hr : s.lnch (s.ctxOf u) q p = (s, v)) :
    ∃ t, Gives s t u op o w x v ∧ t.mem = s.mem ∧ t.queues = s.queues := by
  obtain ⟨us, cs, e⟩ := (SameButUnits.answered s u op o v).trans (SameButUnits.settleDrops _ u)
  refine ⟨_, ⟨memoryOpComplete_launch hu hop hnot hk hr hst, Still.gives hu hw hx v (Still.settleDrops ..)⟩, ?_, ?_⟩
  · rw [e]
  · rw [e]

/-- LCANCEL that names no record, or one that is complete. -/
theorem cancel_refuses {va : Nat} (hk : o.kind = .cancel va) {n : Nat}
    (hr : ∀ t : State, t.records = s.records → t.cancelRec (s.ctxOf u) va = (t, n)) :
    ∃ t, Gives s t u op o w x (BitVec.ofNat 32 n) ∧ t.mem = s.mem ∧ t.records = s.records := by
  have hans := SameButUnits.answered s u op o (BitVec.ofNat 32 n)
  obtain ⟨us, cs, e⟩ := hans.trans (SameButUnits.settleDrops _ u)
  have hrecs : (s.answered u op o (BitVec.ofNat 32 n)).records = s.records := by
    obtain ⟨_, _, e⟩ := hans
    rw [e]
  have hresult : (((s.answered u op o (BitVec.ofNat 32 (s.cancelRec (s.ctxOf u) va).2)).cancelRec (s.ctxOf u) va).1).settleDrops u
      = (s.answered u op o (BitVec.ofNat 32 n)).settleDrops u := by
    rw [hr s rfl, hr _ hrecs]
  refine ⟨_, ⟨memoryOpComplete_cancel hu hop hnot hk hresult (by rw [e]; exact hst), Still.gives hu hw hx _ (Still.settleDrops ..)⟩, ?_, ?_⟩
  · rw [e]
  · rw [e]

/-- LCANCEL of a record that is not complete. -/
theorem cancel_requests {va : Nat} (hk : o.kind = .cancel va) {r : Rec} (hr : s.record (s.ctxOf u) va = some r) (hd : r.done = false)
    (hquiet : ∀ a, s.lineBusy none a true = false) :
    ∃ t y, Gives s t u op o w x 0#32 ∧ t.record (s.ctxOf u) va = some y ∧ y.creq = true := by
  have hfree := State.free_of_quiet hst hquiet
  obtain ⟨hzero, -, -⟩ := State.cancelRec_requests hfree hr hd
  have hfree' := hfree.answered (op := op) hu hw hx 0#32
  have hr' : (s.answered u op o 0#32).record (s.ctxOf u) va = some r := by
    obtain ⟨us, cs, e⟩ := SameButUnits.answered s u op o 0#32
    rw [e]
    exact hr
  obtain ⟨-, hstill, y, hy, hc⟩ := State.cancelRec_requests hfree' hr' hd
  have hall := hstill.trans (Still.settleDrops ((s.answered u op o 0#32).cancelRec (s.ctxOf u) va).1 u)
  have hrec := (SameButUnits.settleDrops ((s.answered u op o 0#32).cancelRec (s.ctxOf u) va).1 u).record (s.ctxOf u) va
  refine ⟨_, y, ⟨memoryOpComplete_cancel hu hop hnot hk (by rw [hzero]) (hall.free hfree').stalled, Still.gives hu hw hx 0#32 hall⟩, hrec.trans hy, hc⟩

/-- LNCH whose packet is queued. -/
theorem lnch_queues {q : Nat} {p : List Byte} (hk : o.kind = .launch q p) {y : QDesc} (hq : q < 8192) (hen : (s.die (q / 4096)).qsEn = true)
    (hy : s.qdesc q = some y) (hctx : y.ctx = s.ctxOf u) (hdev : y.devw = true)
    (hroom : ((s.queue q).tail + 2 ^ y.log2n - (s.queue q).head) % 2 ^ y.log2n < 2 ^ y.log2n - 1) (hpart : s.NoPartials)
    (hquiet : ∀ a, s.lineBusy none a true = false) :
    ∃ t, Gives s t u op o w x (BitVec.ofNat 32 ((s.queue q).tail % 65536 * 65536))
      ∧ Stored s t (y.ring + 128 * ((s.queue q).tail % 2 ^ y.log2n)) p ∧ (t.queue q).tail = ((s.queue q).tail + 1) % 2 ^ y.log2n
      ∧ (t.queue q).head = (s.queue q).head ∧ ∀ k, k ≠ q → t.queue k = s.queue k := by
  have hfree := State.free_of_quiet hst hquiet
  have happend : s.append q y p
      = some ((s.homeWrite none none (y.at (s.queue q).tail) p false).ring q y (((s.queue q).tail + 1) % 2 ^ y.log2n)) := by
    rw [State.append, if_neg (by unfold Queue.count; omega), hfree.agentWrite]
  have hr : s.lnch (s.ctxOf u) q p = ((s.homeWrite none none (y.at (s.queue q).tail) p false).ring q y (((s.queue q).tail + 1) % 2 ^ y.log2n),
      BitVec.ofNat 32 ((s.queue q).tail % 65536 * 65536)) := by
    have hon : s.qsOn q = true := by rw [State.qsOn, decide_eq_true hq, queueDie, hen]; rfl
    simp [State.lnch, hy, hon, hctx, hdev, happend]
  have hwrote := State.homeWrite_wrote hpart none none (y.at (s.queue q).tail) p false
  have hqueues : (s.homeWrite none none (y.at (s.queue q).tail) p false).queues = s.queues := hwrote.queues
  have hstall : (s.homeWrite none none (y.at (s.queue q).tail) p false).stalled = false := ((Still.homeWrite ..).free hfree).stalled
  generalize s.homeWrite none none (y.at (s.queue q).tail) p false = a at *
  obtain ⟨ds, hring⟩ := a.ring_eq q y (((s.queue q).tail + 1) % 2 ^ y.log2n)
  obtain ⟨vn, hvn, -, hwarps⟩ := hwrote.dooms.unit hu
  obtain ⟨v, hv, hdoomed, -⟩ := hwarps o.warp w (by simpa [State.warp?, hu] using hw)
  have hu2 : (a.ring q y (((s.queue q).tail + 1) % 2 ^ y.log2n)).unit? u = some vn := by
    rw [hring]
    exact hvn
  have hw2 : (a.ring q y (((s.queue q).tail + 1) % 2 ^ y.log2n)).warp? u o.warp = some v := by
    rw [State.warp?, hu2, Option.bind_some, hv]
  have hlive : v.live = w.live := by rw [hdoomed]; rfl
  obtain ⟨hregs, hops⟩ := Still.gives (op := op) hu2 hw2 hx (BitVec.ofNat 32 ((s.queue q).tail % 65536 * 65536))
    (Still.settleDrops ((a.ring q y (((s.queue q).tail + 1) % 2 ^ y.log2n)).answered u op o _) u)
  rw [hlive] at hregs
  obtain ⟨us, cs, e⟩ := (SameButUnits.answered (a.ring q y (((s.queue q).tail + 1) % 2 ^ y.log2n)) u op o
    (BitVec.ofNat 32 ((s.queue q).tail % 65536 * 65536))).trans (SameButUnits.settleDrops _ u)
  have hqueue : ∀ k, (((a.ring q y (((s.queue q).tail + 1) % 2 ^ y.log2n)).answered u op o
      (BitVec.ofNat 32 ((s.queue q).tail % 65536 * 65536))).settleDrops u).queue k
      = if k = q then { (s.queue q).rung (2 ^ y.log2n) a.nextBell (((s.queue q).tail + 1) % 2 ^ y.log2n) with ctx := y.ctx } else s.queue k := fun k => by
    rw [e, hring]
    simp only [State.queue, Map.lookD_put, hqueues]
  refine ⟨_, ⟨memoryOpComplete_launch hu hop hnot hk hr (by rw [hring]; exact hstall), hregs, hops⟩, fun b => ?_, ?_, ?_, fun k hkq => ?_⟩
  · rw [e, hring]
    exact hwrote.byte b
  · rw [hqueue, if_pos rfl]
    rfl
  · rw [hqueue, if_pos rfl]
    rfl
  · rw [hqueue, if_neg hkq]

end

end Sys2Proof.Machine
end

section
/-! SUPPORT. The words LNCH, LCANCEL and LJOIN (R259 to R262): their checks, the packet that LNCH reads, and what they leave (O38). -/
namespace Sys2Proof.Machine

/-! ### The checks of a launch word's capability -/

/-- What a launch word wants of its capability. -/
def launchWant (size need : Nat) : Want := ⟨size, need, .load, false, false, [0]⟩

theorem launchWant_known (size need : Nat) : (launchWant size need).known := fun x hx => by
  obtain rfl := List.mem_singleton.1 hx
  exact ⟨by decide, fun h => absurd h (by decide)⟩

/-- An operand with no offset names the cursor. -/
theorem Ctx.addr_cursor (c : Ctx) (a : CapReg) (t : Nat) : c.addr ⟨a, .short 0⟩ t = (c.cap a t).cursor := by
  have hlt : (c.cap a t).cursor < 2 ^ 56 := Nat.mod_lt _ (by decide)
  have hoff : (0 : BitVec 7).toInt = 0 := rfl
  simp only [Ctx.addr]
  omega

section
variable {c : Ctx} {s : State} {a : CapReg} {size need : Nat}

theorem Ctx.launchCap_fails {n : Nat} (hn : n < 7) (hpass : ∀ k < n, c.test s (launchWant size need) ⟨a, .short 0⟩ false c.low k)
    (hfail : ¬ c.test s (launchWant size need) ⟨a, .short 0⟩ false c.low n) : c.launchCap s a size need = .error (testCause n) := by
  have h := Ctx.early_fails (launchWant_known size need) hn hpass hfail
  rw [Ctx.addr_cursor] at h
  simp only [launchWant] at h
  simp only [Ctx.launchCap, h]

/-- Past the checks, the cursor has to be a multiple of 64. -/
theorem Ctx.launchCap_passes (hpass : ∀ n < 7, c.test s (launchWant size need) ⟨a, .short 0⟩ false c.low n) :
    c.launchCap s a size need = if (c.cap a c.low).cursor % 64 ≠ 0 then .error 0x14 else .ok (c.cap a c.low).cursor := by
  have h := Ctx.early_passes (launchWant_known size need) hpass
  rw [Ctx.addr_cursor] at h
  simp only [launchWant] at h
  simp only [Ctx.launchCap, h]

end

/-- A fault of every active thread at a long-latency word, where all are active. -/
theorem faultLl_whole {s : State} {c : Ctx} (h : s.ctx? = some c) (hs : NotSolitary s c) (ha : c.act = c.fr.mask)
    (h0 : c.act ≠ 0#32) (k : Nat) (a : Word64) : FaultsWhole s (s.faultLl c k a) c k a 0 true := by
  obtain ⟨h2, h1⟩ := takeFaults_whole h hs (b := Bad.of k a c.act) ha (ha ▸ h0) rfl
  have e : s.takeFaults c.f [Bad.of k a c.act] = ((s.takeFaults c.f [Bad.of k a c.act]).1, false) := by rw [← h2]
  unfold State.faultLl State.faultWord
  rw [show ({ Bad.of k a 0 with mask := c.act } : Bad) = Bad.of k a c.act from rfl, e, if_neg h0]
  exact h1

/-- What a launch word answers where a check of its capability fails: the fault `fault` of that cause. -/
theorem launchCap_faults {s : State} {c : Ctx} {a : CapReg} {size need : Nat} {i : Instr} {fault : Nat → State}
    (hexec : ∀ k, c.launchCap s a size need = .error k → exec i s = .next (fault k))
    (hwhole : ∀ k, FaultsWhole s (fault k) c k (BitVec.ofNat 64 (c.cap a c.low).cursor) 0 true) :
    (∀ n < 7, (∀ m < n, c.test s (launchWant size need) ⟨a, .short 0⟩ false c.low m) →
        ¬ c.test s (launchWant size need) ⟨a, .short 0⟩ false c.low n →
        ∃ t, exec i s = .next t ∧ FaultsWhole s t c (testCause n) (BitVec.ofNat 64 (c.cap a c.low).cursor) 0 true)
      ∧ ((∀ n < 7, c.test s (launchWant size need) ⟨a, .short 0⟩ false c.low n) → (c.cap a c.low).cursor % 64 ≠ 0 →
        ∃ t, exec i s = .next t ∧ FaultsWhole s t c 0x14 (BitVec.ofNat 64 (c.cap a c.low).cursor) 0 true) :=
  ⟨fun _ hn hpass hfail => ⟨_, hexec _ (Ctx.launchCap_fails hn hpass hfail), hwhole _⟩,
    fun hpass hline => ⟨_, hexec _ ((Ctx.launchCap_passes hpass).trans (if_pos hline)), hwhole _⟩⟩

/-! ### LJOIN (R262) -/

theorem Rec.status_eq (r : Rec) : r.status = r.opened.toNat + 2 * r.done.toNat + 4 * r.creq.toNat + 16 * r.level + 256 * r.result := by
  unfold Rec.status
  omega

theorem exec_ljoin (d : Reg) (a : CapReg) (s : State) : exec (.ljoin d a) s = execLjoin d a s := rfl

section
variable {s : State} {c : Ctx} {d : Reg} {a : CapReg} (h : Ready s c [opV d, opC a] [])
include h

theorem ljoin_idle (h0 : c.act = 0#32) : ∃ t, exec (.ljoin d a) s = .next t ∧ Retired s t c 1 c.w := by
  refine ⟨_, ?_, retired_self h.1 1 false 1⟩
  rw [exec_ljoin, execLjoin, withWord_ready h, if_pos h0]

variable (h0 : c.act ≠ 0#32)
include h0

theorem ljoin_refused {k : Nat} (hk : c.launchCap s a 64 1 = .error k) :
    exec (.ljoin d a) s = .next (s.faultActive c k (BitVec.ofNat 64 (c.cap a c.low).cursor)) := by
  rw [exec_ljoin, execLjoin, withWord_ready h, if_neg h0]
  simp only [hk]

variable {va : Nat} (hva : c.launchCap s a 64 1 = .ok va)
include hva

theorem ljoin_unrecorded (hr : s.record c.l.ctx va = none) : exec (.ljoin d a) s = .next (s.faultActive c 0x2D (BitVec.ofNat 64 va)) := by
  rw [exec_ljoin, execLjoin, withWord_ready h, if_neg h0]
  simp only [hva, hr]

variable {r : Rec} (hr : s.record c.l.ctx va = some r)
include hr

/-- LJOIN waits while launches of its record are pending. -/
theorem ljoin_waits (hp : r.pending ≠ 0) (hs : NotSolitary s c) : ∃ t, exec (.ljoin d a) s = .next t
    ∧ Becomes s t c c.w { c.fr with status := .parkedWait, wake := c.blockWake (.ljoin c.l.ctx va), lane := false } := by
  refine ⟨_, ?_, parkBlocking_becomes h.1 hs (.ljoin c.l.ctx va) (fun _ _ _ => by simp)⟩
  rw [exec_ljoin, execLjoin, withWord_ready h, if_neg h0]
  simp only [hva, hr, if_pos hp]

/-- LJOIN that goes on: it writes the status, and drops the cached copies that an acquire drops. -/
theorem ljoin_answers (hp : r.pending = 0) : ∃ t v fs, exec (.ljoin d a) s = .next t ∧ t = { s with units := t.units, cores := t.cores }
    ∧ WarpEffect c.w v (Delta.of c.act fun _ => .ofRegs (c.wr d (BitVec.ofNat 32 r.status)))
    ∧ t.warp? c.f.unit c.f.warp = some { v with frags := fs } ∧ Map.look fs c.f.fidx = some (c.fr.nextWord 1)
    ∧ ∀ p ∈ (t.core c.u.core).copies, Map.look s.regOwner p.1 = some c.u.core ∨ p.2.uPage = true := by
  have heff := Warp.putOuts_effect c.w (c.fullTag (tagAll (c.tagC a))) c.act fun _ => .ofRegs (c.wr d (BitVec.ofNat 32 r.status))
  have hctx : (s.selfInvalidate c.u.core false).ctx? = some c := h.1
  obtain ⟨⟨hrest, -, hcore, -, -, fs, hwarp, -, hfrag⟩, -⟩ := retired_edit hctx
    (fun w => w.putOuts (c.fullTag (tagAll (c.tagC a))) c.act fun _ => .ofRegs (c.wr d (BitVec.ofNat 32 r.status))) rfl (by rw [heff.rest]) 1 false c.beats
  refine ⟨_, _, fs, ?_, hrest, heff, hwarp, hfrag, fun p hmem => ?_⟩
  · rw [exec_ljoin, execLjoin, withWord_ready h, if_neg h0]
    simp only [hva, hr, hp, ne_eq, not_true_eq_false, if_false]
  · have hcopies := congrArg CoreSt.copies hcore
    rw [State.selfInvalidate, State.core_editCore, if_pos rfl] at hcopies
    have hkeep := (List.mem_filter.1 (hcopies ▸ hmem)).2
    simpa using hkeep

end

/-- The register that a launch operation answers in. -/
def Ctx.launchDst (c : Ctx) (d : Reg) : Dst := { reg := c.base + d.toNat, n := 1, size := 4, sext := false, cap := false }

/-! ### LCANCEL (R261) -/

/-- A word that no path counts has its flag. -/
theorem Ctx.ready_flag {c : Ctx} (h : c.full none = false) (s : State) : s.ready c [.flag] = true := by
  simp only [Ctx.full, Bool.false_or] at h
  simp only [State.ready, List.all_cons, List.all_nil, Bool.and_true, Need.met]
  split
  · next k hk =>
    rw [hk] at h
    exact decide_eq_true (by simpa using h)
  · rfl

theorem exec_lcancel (d : Reg) (a : CapReg) (s : State) : exec (.lcancel d a) s = execLcancel d a s := rfl

section
variable {s : State} {c : Ctx} {d : Reg} {a : CapReg} (h : Ready s c [opV d, opC a] [])
include h

theorem lcancel_idle (h0 : c.act = 0#32) : ∃ t, exec (.lcancel d a) s = .next t ∧ Becomes s t c c.w (c.fr.passed 1) := by
  refine ⟨_, ?_, skipLl_becomes h.1 1⟩
  rw [exec_lcancel, execLcancel, withWord_ready h, if_pos h0]

variable (h0 : c.act ≠ 0#32)
include h0

theorem lcancel_refused {k : Nat} (hk : c.launchCap s a 64 2 = .error k) :
    exec (.lcancel d a) s = .next (s.faultLl c k (BitVec.ofNat 64 (c.cap a c.low).cursor)) := by
  rw [exec_lcancel, execLcancel, withWord_ready h, if_neg h0]
  simp only [hk]

theorem lcancel_issues {va : Nat} (hva : c.launchCap s a 64 2 = .ok va) (hfull : c.full none = false) : ∃ t, exec (.lcancel d a) s = .next t
    ∧ Issued s t c 1 (c.newOp s none (.cancel va) [] (some (c.launchDst d)) none) c.w := by
  refine ⟨_, ?_, issued h.1 (SameButHeld.refl s).numbered none (.cancel va) [] _ none 1 c.beats⟩
  rw [exec_lcancel, execLcancel, withWord_ready h, if_neg h0]
  simp only [hva, whenReady_ready (Ctx.ready_flag hfull s)]
  rfl

end

/-! ### The packet that LNCH reads (R260) -/

/-- The physical address under the one of two leaves that covers an address. -/
def pairPa (p q : Leaf) (v : Nat) : Nat := (if p.covers v then p else q).pa v

/-- A block of 64 bytes lies in one page. -/
theorem Leaf.aligned_block {l : Leaf} {va : Nat} (h : l.aligned va) {b i : Nat} (hb : b % 64 = 0) (hi : i < 64) : l.covers (b + i) = l.covers b := by
  obtain ⟨k, hk⟩ : 64 ∣ l.size := (by decide : 64 ∣ 131072).trans h.2.1
  have hdiv : (b + i) / l.size = b / l.size := by
    rw [hk, ← Nat.div_div_eq_div_mul, ← Nat.div_div_eq_div_mul, show (b + i) / 64 = b / 64 by omega]
  rw [Bool.eq_iff_iff, Leaf.aligned_covers h, Leaf.aligned_covers h, hdiv]

theorem Leaf.pa_add {l : Leaf} {b : Nat} (h : l.covers b = true) (i : Nat) : l.pa (b + i) = l.pa b + i := by
  simp only [Leaf.covers, Bool.and_eq_true, decide_eq_true_eq] at h
  unfold Leaf.pa
  omega

section
variable {c : Ctx} {s : State} {w : Want} {va : Nat} {p q : Leaf}

/-- The two halves of a packet each lie in one piece. -/
theorem pairPa_block (hp : c.Grants s w false va p) (hq : p.covers (va + 128 - 1) = false → c.Grants s w false (va + 128 - 1) q) (hva : va % 64 = 0)
    {b : Nat} (hb : b = va ∨ b = va + 64) {i : Nat} (hi : i < 64) : pairPa p q (b + i) = pairPa p q b + i := by
  have hb64 : b % 64 = 0 := by omega
  have hpal := (State.walk_aligned hp.walk).1
  rw [pairPa, pairPa, Leaf.aligned_block hpal hb64 hi]
  split_ifs with hcov
  · exact Leaf.pa_add hcov i
  · obtain rfl | rfl := hb
    · exact absurd (State.walk_covers hp.walk) hcov
    · have hend : va + 128 - 1 = va + 64 + 63 := by omega
      rw [hend, Leaf.aligned_block hpal hb64 (by decide)] at hq
      have hqg := hq (by simpa using hcov)
      refine Leaf.pa_add ?_ i
      rw [← Leaf.aligned_block (State.walk_aligned hqg.walk).1 hb64 (show 63 < 64 by decide)]
      exact State.walk_covers hqg.walk

end

/-- Bytes of one piece. -/
theorem State.bytes_piece (s : State) {g : Nat → Nat} {b n : Nat} (h : ∀ i < n, g (b + i) = g b + i) : (span b n).map (fun v => s.byte (g v)) = s.bytes (g b) n := by
  simp only [State.bytes, span, List.map_map]
  exact List.map_congr_left fun i hi => congrArg s.byte (h i (List.mem_range.1 hi))

/-- Bytes none of which is poisoned. -/
theorem State.poisoned_bytes {s : State} {pa n : Nat} (hn : 0 < n) (h : ∀ i < n, s.poisoned (pa + i) 1 = false) : s.poisoned pa n = false := by
  refine List.any_eq_false.2 fun k hk hbad => ?_
  simp only [Bool.and_eq_true, decide_eq_true_eq] at hbad
  have hone := List.any_eq_false.1 (h (max (8 * k) pa - pa) (by omega)) k hk
  simp only [Bool.and_eq_true, decide_eq_true_eq] at hone
  omega

theorem SameButHeld.lineBusy {s t : State} (h : SameButHeld s t) (self : Option (Nat × Nat × Nat)) (pa : Nat) (w : Bool) :
    t.lineBusy self pa w = s.lineBusy self pa w := by
  have htx : t.tx = s.tx := by rw [h.rest]; rfl
  have hlocks : t.commitLocks = s.commitLocks := by
    funext u o
    rw [State.commitLocks, State.commitLocks, htx, h.locked]
  have hcommit : t.commitLocked self pa = s.commitLocked self pa := by
    unfold State.commitLocked
    rw [hlocks, h.rest]
    rfl
  have hsolo : t.soloLocked self pa = s.soloLocked self pa := by
    rw [h.rest]
    rfl
  rw [State.lineBusy, State.lineBusy, h.locked, hcommit, hsolo]

/-- Two reads where the core held no copy give the bytes of memory. -/
theorem State.loadPhys_twice {s : State} (hq : s.NoPartials) {core : Nat} (hc : (s.core core).copies = []) (k k' : PKind) (pa pa' : Nat) {n : Nat}
    (hn : 0 < n) : Stirred s ((s.loadPhys core false k pa n).1.loadPhys core false k' pa' n).1
      ∧ (s.loadPhys core false k pa n).2.1 = s.bytes pa n ∧ ((s.loadPhys core false k pa n).1.loadPhys core false k' pa' n).2.1 = s.bytes pa' n := by
  obtain ⟨hst, hbytes, -⟩ := State.loadPhys_true hq core false k pa hn
  have hcopies : ∀ j y, Map.look (s.core core).copies j ≠ some y := fun j y => by simp [hc]
  obtain ⟨hst', hbytes', -⟩ := State.loadPhys_true (hst.quiet hq) core false k' pa' hn
  refine ⟨hst.trans hst', hbytes fun j _ y hy => absurd hy (hcopies j y), .trans (hbytes' fun j _ y hy => ?_) (hst.bytes pa' n)⟩
  rw [hst.bytes]
  exact ((hst.copies core j y hy).resolve_left (hcopies j y)).1

/-- The byte that memory holds where a byte of an access lies. -/
def State.byteAt (s : State) : ByteLoc → Byte
  | .phys pa _ _ _ _ => s.byte pa
  | _ => 0#8

/-- Where the bytes of an access to global space lie. -/
theorem Ctx.Lies.pages {c : Ctx} {s : State} {w : Want} {mr : MemRef} {stag : Bool} {t : Nat} {l : List ByteLoc} (h : c.Lies s w mr stag t l)
    (h0 : (c.cap mr.c t).space = 0) : ∃ p q : Leaf, c.Grants s w stag (c.addr mr t) p
      ∧ (p.covers (c.addr mr t + w.size - 1) = false → c.Grants s w stag (c.addr mr t + w.size - 1) q)
      ∧ l = (span (c.addr mr t) w.size).map fun v => .phys (pairPa p q v) (if p.covers v then p else q).kind c.l.ctx v
        (if p.covers v then p else q).use := by
  obtain ⟨-, -, -, hglob⟩ := h
  obtain ⟨p, q, hp, hq, -, hl⟩ := hglob h0
  exact ⟨p, q, hp, hq, hl⟩

/-- The bytes of a packet lie in two pieces of 64. -/
structure Packet (l : List ByteLoc) (pa pa' : Nat) (k k' : PKind) : Prop where
  low : ∃ x v g, l[0]? = some (.phys pa k x v g)
  high : ∃ x v g, l[64]? = some (.phys pa' k' x v g)
  mem : ∀ i < 64, (∃ k x v g, .phys (pa + i) k x v g ∈ l) ∧ ∃ k x v g, .phys (pa' + i) k x v g ∈ l
  bytes : ∀ s : State, l.map s.byteAt = s.bytes pa 64 ++ s.bytes pa' 64

theorem span_getElem? (a : Nat) {i n : Nat} (h : i < n) : (span a n)[i]? = some (a + i) := by
  rw [span, List.getElem?_map, List.getElem?_range h, Option.map_some]

theorem Ctx.Lies.packet {s : State} {c : Ctx} {a : CapReg} {l : List ByteLoc} (hl : c.Lies s (launchWant 128 1) ⟨a, .short 0⟩ false c.low l)
    (hva : (c.cap a c.low).cursor % 64 = 0) (hsp : (c.cap a c.low).space = 0) : ∃ pa pa' k k', Packet l pa pa' k k' := by
  obtain ⟨p, q, hp, hq, hlocs⟩ := hl.pages hsp
  rw [Ctx.addr_cursor] at hp hq hlocs
  generalize (c.cap a c.low).cursor = va at hva hp hq hlocs
  have hsize : (launchWant 128 1).size = 64 + 64 := rfl
  rw [hsize] at hlocs
  have hpiece : ∀ b, b = va ∨ b = va + 64 → ∀ i < 64, pairPa p q (b + i) = pairPa p q b + i := fun b hb i hi => pairPa_block hp hq hva hb hi
  have hmem : ∀ b, b = va ∨ b = va + 64 → ∀ i < 64, ∃ k x v g, .phys (pairPa p q b + i) k x v g ∈ l := fun b hb i hi => by
    rw [← hpiece b hb i hi, hlocs]
    exact ⟨_, _, _, _, List.mem_map.2 ⟨b + i, mem_span.2 (by omega), rfl⟩⟩
  have hat : ∀ i < 64 + 64, l[i]? = some (.phys (pairPa p q (va + i)) (if p.covers (va + i) then p else q).kind c.l.ctx (va + i)
      (if p.covers (va + i) then p else q).use) := fun i hi => by
    rw [hlocs, List.getElem?_map, span_getElem? va hi, Option.map_some]
  refine ⟨pairPa p q va, pairPa p q (va + 64), _, _, ⟨_, _, _, hat 0 (by decide)⟩, ⟨_, _, _, hat 64 (by decide)⟩,
    fun i hi => ⟨hmem va (.inl rfl) i hi, hmem _ (.inr rfl) i hi⟩, fun s => ?_⟩
  rw [hlocs, List.map_map, span_add, List.map_append, ← State.bytes_piece s (hpiece va (.inl rfl)), ← State.bytes_piece s (hpiece (va + 64) (.inr rfl))]
  rfl

/-- LNCH reads the bytes of its packet, where nothing holds them back. -/
theorem Ctx.readPacket_reads {s : State} {c : Ctx} (h : HeldTrue s c) {a : CapReg} (hsp : (c.cap a c.low).space = 0)
    (hva : (c.cap a c.low).cursor % 64 = 0) (hq : s.NoPartials) (hc : (s.core c.u.core).copies = []) {l : List ByteLoc}
    (hl : c.Lies s (launchWant 128 1) ⟨a, .short 0⟩ false c.low l) (hclean : ∀ pa k x v g, .phys pa k x v g ∈ l →
      s.poisoned pa 1 = false ∧ s.lineBusy (some (c.f.unit, c.f.warp, c.low)) pa false = false) :
    ∃ s' r, SameButHeld s s' ∧ Stirred s' r ∧ c.readPacket s a (c.cap a c.low).cursor = (r, .ok (some (l.map s.byteAt))) := by
  obtain ⟨s', hlate, hsame, -⟩ := Ctx.late_lies h (mr := ⟨a, .short 0⟩) (hsp.trans_le (by decide)) hl
  rw [Ctx.addr_cursor] at hlate
  obtain ⟨pa, pa', k, k', ⟨x, v, g, hlow⟩, ⟨x', v', g', hhigh⟩, hmem, hbytes⟩ := hl.packet hva hsp
  have hclean' : ∀ b, b = pa ∨ b = pa' → s'.poisoned b 64 = false ∧ s'.lineBusy (some (c.f.unit, c.f.warp, c.low)) b false = false := fun b hb => by
    have hone : ∀ i < 64, s.poisoned (b + i) 1 = false ∧ s.lineBusy (some (c.f.unit, c.f.warp, c.low)) (b + i) false = false := fun i hi => by
      obtain ⟨⟨_, _, _, _, hin⟩, ⟨_, _, _, _, hin'⟩⟩ := hmem i hi
      obtain rfl | rfl := hb
      · exact hclean _ _ _ _ _ hin
      · exact hclean _ _ _ _ _ hin'
    rw [hsame.lineBusy, show s'.poisoned b 64 = s.poisoned b 64 by rw [hsame.rest]; rfl]
    exact ⟨State.poisoned_bytes (by decide) fun i hi => (hone i hi).1, (hone 0 (by decide)).2⟩
  obtain ⟨hpoison, hbusy⟩ := hclean' pa (.inl rfl)
  obtain ⟨hpoison', hbusy'⟩ := hclean' pa' (.inr rfl)
  have hcore : ∀ j, s'.core j = s.core j := fun j => by rw [hsame.rest]; rfl
  obtain ⟨hst, hread, hread'⟩ := State.loadPhys_twice (s := s') (fun j => by rw [hcore]; exact hq j) (core := c.u.core) (by rw [hcore]; exact hc)
    k k' pa pa' (n := 64) (by decide)
  have hpacket : l.map s.byteAt = s'.bytes pa 64 ++ s'.bytes pa' 64 := by
    rw [hbytes, hsame.rest]
    rfl
  refine ⟨s', _, hsame, hst, ?_⟩
  rw [hpacket, ← hread, ← hread']
  simp only [launchWant] at hlate
  simp only [Ctx.readPacket, hlate, hlow, hhigh, hpoison, hpoison', hbusy, hbusy', Bool.or_self, Bool.false_eq_true, if_false]

/-! ### LNCH (R260) -/

/-- Where every access of some threads has performed, so has every access of fewer. -/
theorem KUnit.performedBy_mono {un : KUnit} {w : Nat} {m : Mask} {b : Bool} (h : un.performedBy w m b = true) (k : Mask) :
    un.performedBy w (m &&& k) b = true := by
  simp only [KUnit.performedBy, Bool.and_eq_true, Bool.not_eq_true', List.all_eq_true, Bool.or_eq_true, BitVec.getLsbD_and, Bool.and_eq_false_iff] at h ⊢
  obtain ⟨htend, hall⟩ := h
  refine ⟨KUnit.tendBusy_mono htend k, fun o ho => (hall o ho).imp_right fun hitems i hi => ?_⟩
  obtain (hdone | hfew) | hun := hitems i hi
  · exact .inl (.inl hdone)
  · exact .inl (.inr (.inl hfew))
  · exact .inr hun

theorem Ctx.lnch_ready {c : Ctx} (hfull : c.full none = false) (hperf : c.u.performedBy c.f.warp c.act true = true) (s : State) :
    s.ready c [.flag, .performed c.act true] = true :=
  State.ready_append (a := [.flag]) (Ctx.ready_flag hfull s) (by simp [State.ready, Need.met, KUnit.performedBy_mono hperf])

/-- What LNCH leaves once its packet is read. -/
theorem State.launchOp_leaves {s s' r : State} {c : Ctx} (h : s.ctx? = some c) (hsame : SameButHeld s s') (hst : Stirred s' r) (d : Reg) (k : OpKind) :
    ∃ un o, (r.launchOp c d k).mem = s.mem ∧ (r.launchOp c d k).tags = s.tags ∧ (r.launchOp c d k).queues = s.queues
      ∧ (r.launchOp c d k).records = s.records ∧ (r.launchOp c d k).unit? c.f.unit = some un ∧ un.ops = c.u.ops ++ [o]
      ∧ o = { c.newOp s none k [] (some (c.launchDst d)) none with ord := o.ord }
      ∧ (r.launchOp c d k).frag? c.f = some (c.fr.passed 1) := by
  obtain ⟨-, hu, hw, -, hf⟩ := State.ctx?_some h
  have hu' : s'.unit? c.f.unit = some c.u := by rw [hsame.rest]; exact hu
  obtain ⟨vn, hvn, hvrest, hwarps⟩ := Dooms.unit hst.units hu'
  obtain ⟨v, hv, hdoomed, -⟩ := hwarps c.f.warp c.w hw
  have hrest : r.mem = s.mem ∧ r.tags = s.tags ∧ r.queues = s.queues ∧ r.records = s.records := by
    obtain ⟨⟨_, _, _, _, _, e⟩, -, -, -⟩ := hst
    rw [e, hsame.rest]
    exact ⟨rfl, rfl, rfl, rfl⟩
  have heq : r.launchOp c d k = ((r.putOp c none c.fr.flag c.act k [] (some (c.launchDst d))
      none).editWarp c.f.unit c.f.warp fun w => w.doomIssue c 0#32 1).editCore c.u.core fun x => x.count false c.beats := by
    have := State.issue_retire r c 0#32 none k [] (some (c.launchDst d)) none 1 c.beats
    rw [State.accessDoom, threads_zero, List.foldl_nil] at this
    exact this
  obtain ⟨hmem, htags, hqueues, hrecords⟩ := hrest
  have hunit : (r.launchOp c d k).unit? c.f.unit = some { vn with
      warps := Map.edit vn.warps c.f.warp fun w => w.doomIssue c 0#32 1, nextOp := vn.nextOp + 1
      ops := vn.ops ++ [{ c.newOp s none k [] (some (c.launchDst d)) none with
        id := vn.nextOp, ord := (r.core c.u.core).stamp }] } := by
    rw [heq]
    simp only [State.unit?_editCore, State.editWarp, State.unit?_editUnit, State.putOp, if_true, hvn, Option.map_some]
    rfl
  have hops : vn.ops = c.u.ops := by rw [hvrest]
  have hnext : vn.nextOp = c.u.nextOp := by rw [hvrest]
  refine ⟨_, _, ?_, ?_, ?_, ?_, hunit, by rw [hops], by rw [hnext]; rfl, ?_⟩
  · rw [heq]; exact hmem
  · rw [heq]; exact htags
  · rw [heq]; exact hqueues
  · rw [heq]; exact hrecords
  · have hfrags : (v.editTxs (fun _ x => x.doom 6#4) (threads 0#32)).frags = c.w.frags := by rw [Warp.editTxs_rest, hdoomed]
    rw [State.frag?, State.warp?, hunit, Option.bind_some, Map.look_edit_self, hv, Option.map_some, Option.bind_some]
    simp only [Warp.doomIssue, Warp.editFrag, Map.look_edit_self, hfrags, hf, Option.map_some]
    rfl

theorem exec_lnch (d : Reg) (a : CapReg) (b : Reg) (s : State) : exec (.lnch d a b) s = execLnch d a b s := rfl

section
variable {s : State} {c : Ctx} {d : Reg} {a : CapReg} {b : Reg} (h : Ready s c [opV d, opC a, opV b] [])
include h

theorem lnch_idle (h0 : c.act = 0#32) : ∃ t, exec (.lnch d a b) s = .next t ∧ Becomes s t c c.w (c.fr.passed 1) := by
  refine ⟨_, ?_, skipLl_becomes h.1 1⟩
  rw [exec_lnch, execLnch, withWord_ready h, if_pos h0]

variable (h0 : c.act ≠ 0#32)
include h0

theorem lnch_noQueue (hq : 8192 ≤ (c.rd b c.low).toNat) : exec (.lnch d a b) s = .next (s.faultLl c 0x2D 0) := by
  rw [exec_lnch, execLnch, withWord_ready h, if_neg h0]
  dsimp only
  rw [if_pos hq]

variable (hq : (c.rd b c.low).toNat < 8192)
include hq

theorem lnch_refused {k : Nat} (hk : c.launchCap s a 128 9 = .error k) :
    exec (.lnch d a b) s = .next (s.faultLl c k (BitVec.ofNat 64 (c.cap a c.low).cursor)) := by
  rw [exec_lnch, execLnch, withWord_ready h, if_neg h0]
  dsimp only
  rw [if_neg (Nat.not_le.2 hq)]
  simp only [hk]

/-- LNCH that has read its packet puts it in flight. -/
theorem lnch_issues {va : Nat} (hva : c.launchCap s a 128 9 = .ok va) (hfull : c.full none = false)
    (hperf : c.u.performedBy c.f.warp c.act true = true) {r : State} {p : List Byte} (hr : c.readPacket s a va = (r, .ok (some p))) :
    exec (.lnch d a b) s = .next (r.launchOp c d (.launch (c.rd b c.low).toNat p)) := by
  rw [exec_lnch, execLnch, withWord_ready h, if_neg h0]
  dsimp only
  rw [if_neg (Nat.not_le.2 hq)]
  simp only [hva, whenReady_ready (Ctx.lnch_ready hfull hperf s), hr]

end

end Sys2Proof.Machine
end

section
/-! PROOFS. Launch words (R259 to R262, R329) (O38). -/
namespace Sys2Proof.Machine

/-! ### What a launch operation answers where it does nothing -/

/-- LNCH to a queue that is off, is no queue, or is not the context's to append to. -/
theorem State.lnch_denied {s : State} {ctx q : Nat} (hq : q < 8192)
    (h : (s.die (q / 4096)).qsEn = false ∨ s.qdesc q = none ∨ ∃ y, s.qdesc q = some y ∧ (y.ctx ≠ ctx ∨ y.devw = false)) (p : List Byte) :
    s.lnch ctx q p = (s, 2#32) := by
  have hon : s.qsOn q = (s.die (q / 4096)).qsEn := by rw [State.qsOn, decide_eq_true hq, Bool.true_and]; rfl
  unfold State.lnch
  cases hy : s.qdesc q with
  | none => rfl
  | some y =>
    refine if_pos ?_
    rw [hon]
    obtain hoff | hnone | ⟨z, hz, hbad⟩ := h
    · simp [hoff]
    · exact absurd (hy.symm.trans hnone) (by simp)
    · obtain rfl : y = z := Option.some.inj (hy.symm.trans hz)
      obtain hctx | hdev := hbad
      · simp [hctx]
      · simp [hdev]

/-- LNCH to a full queue. -/
theorem State.lnch_full {s : State} {ctx q : Nat} {y : QDesc} (hq : q < 8192) (hen : (s.die (q / 4096)).qsEn = true) (hy : s.qdesc q = some y)
    (hctx : y.ctx = ctx) (hdev : y.devw = true) (hfull : 2 ^ y.log2n - 1 ≤ ((s.queue q).tail + 2 ^ y.log2n - (s.queue q).head) % 2 ^ y.log2n)
    (p : List Byte) : s.lnch ctx q p = (s, 1#32) := by
  have hon : s.qsOn q = true := by rw [State.qsOn, decide_eq_true hq, queueDie, hen]; rfl
  have happend : s.append q y p = none := if_pos hfull
  simp [State.lnch, hy, hon, hctx, hdev, happend]

theorem State.cancelRec_unrecorded {s : State} {ctx va : Nat} (h : s.record ctx va = none) {t : State} (ht : t.records = s.records) :
    t.cancelRec ctx va = (t, 2) := by
  have hr : t.record ctx va = none := by rw [State.record, ht]; exact h
  rw [State.cancelRec, hr]

theorem State.cancelRec_done {s : State} {ctx va : Nat} {r : Rec} (h : s.record ctx va = some r) (hd : r.done = true) {t : State}
    (ht : t.records = s.records) : t.cancelRec ctx va = (t, 1) := by
  have hr : t.record ctx va = some r := by rw [State.record, ht]; exact h
  rw [State.cancelRec, hr]
  exact if_pos hd

/-! ### The obligation -/

/-- Settles O38: each word by the check of its capability, and each completion by what its queue or record is. -/
theorem launchWords : Obligations.LaunchWords := by
  intro s c d a
  refine ⟨?_, ?_, ?_⟩
  · rintro b w h rfl
    refine ⟨lnch_idle h, fun ha h0 hs => ⟨fun hq => ⟨_, lnch_noQueue h h0 hq, faultLl_whole h.1 hs ha h0 _ _⟩,
      fun hq => launchCap_faults (fun k hk => lnch_refused h h0 hq hk) fun k => faultLl_whole h.1 hs ha h0 k _⟩, ?_⟩
    intro h0 hq hpass hline hfull hperf htrue hpart hcopies l hl hclean
    have hspace : (c.cap a c.low).space = 0 := List.mem_singleton.1 (hpass 1 (by decide)).1
    obtain ⟨s', r, hsame, hst, hread⟩ := Ctx.readPacket_reads htrue hspace hline hpart hcopies hl hclean
    have hva : c.launchCap s a 128 9 = .ok (c.cap a c.low).cursor := (Ctx.launchCap_passes hpass).trans (if_neg (not_not.2 hline))
    obtain ⟨un, o, hleaves⟩ := State.launchOp_leaves h.1 hsame hst d (.launch (c.rd b c.low).toNat (l.map s.byteAt))
    exact ⟨_, un, o, lnch_issues h h0 hq hva hfull hperf hread, hleaves⟩
  · intro h
    refine ⟨?_, ?_⟩
    · rintro w rfl
      refine ⟨lcancel_idle h, fun ha h0 hs => launchCap_faults (fun k hk => lcancel_refused h h0 hk) fun k => faultLl_whole h.1 hs ha h0 k _, ?_⟩
      intro h0 hpass hline hfull
      exact lcancel_issues h h0 ((Ctx.launchCap_passes hpass).trans (if_neg (not_not.2 hline))) hfull
    · rintro w rfl
      have hva (hpass : ∀ n < 7, c.test s (launchWant 64 1) ⟨a, .short 0⟩ false c.low n) (hline : (c.cap a c.low).cursor % 64 = 0) :
          c.launchCap s a 64 1 = .ok (c.cap a c.low).cursor := (Ctx.launchCap_passes hpass).trans (if_neg (not_not.2 hline))
      refine ⟨ljoin_idle h, fun ha h0 hs => ⟨launchCap_faults (fun k hk => ljoin_refused h h0 hk) fun k => faultActive_whole h.1 hs ha (ha ▸ h0) k _,
        fun hpass hline hr => ⟨_, ljoin_unrecorded h h0 (hva hpass hline) hr, faultActive_whole h.1 hs ha (ha ▸ h0) _ _⟩⟩, ?_⟩
      intro h0 hpass hline r hr
      refine ⟨fun hp hs => ljoin_waits h h0 (hva hpass hline) hr hp hs, fun hp => ?_⟩
      rw [← Rec.status_eq]
      exact ljoin_answers h h0 (hva hpass hline) hr hp
  · intro u op un o w x hu hop hnot hx hw hst
    refine ⟨fun q p hk hq => ⟨fun hdenied => lnch_refuses hu hop hnot hw hx hst hk (State.lnch_denied hq hdenied p), ?_⟩, fun va hk => ⟨fun hr => ?_, ?_⟩⟩
    · intro y hen hy hctx hdev
      refine ⟨fun hfull => lnch_refuses hu hop hnot hw hx hst hk (State.lnch_full hq hen hy hctx hdev hfull p), fun hroom hpart hquiet _ => ?_⟩
      exact lnch_queues hu hop hnot hw hx hst hk hq hen hy hctx hdev hroom hpart hquiet
    · exact cancel_refuses hu hop hnot hw hx hst hk fun t ht => State.cancelRec_unrecorded hr ht
    · intro r hr
      exact ⟨fun hd => cancel_refuses hu hop hnot hw hx hst hk fun t ht => State.cancelRec_done hr hd ht,
        fun hd hquiet => cancel_requests hu hop hnot hw hx hst hk hr hd hquiet⟩

end Sys2Proof.Machine
end
